-- ==== Sys2Proof/Word.lean ====
section
/-! DEFINITION. Words, and the types the operand fields of an instruction have.

The formats are those of 02_encoding.md (R26 to R38). Field values that only name something (a register, a mask, a token) are
plain numbers; field values that choose a meaning (a type, a scope, a function) are constructors. -/

namespace Sys2Proof

/-- A byte of memory. -/
abbrev Byte := BitVec 8
/-- A lane register, a mask register or an instruction word. -/
abbrev W32 := BitVec 32
/-- A uniform register, a control register or an address. -/
abbrev W64 := BitVec 64

/-- A register or an immediate (bit 0 of the UR, LR and LM forms, R27, R28). -/
inductive Opnd where
  | reg (n : Nat)
  | imm (n : Nat)
  deriving DecidableEq, Repr

/-- The integer types of R32 and R72. -/
inductive IntTy where
  | i8 | i16 | i32 | i64 | n8 | n16 | n32 | n64
  deriving DecidableEq, Repr

/-- The lane float types of R32. -/
inductive FpTy where
  | f64 | f32 | f16 | bf16 | x2 | h2
  deriving DecidableEq, Repr

/-- The type codes of CVT (R34). -/
inductive CvtTy where
  | int (t : IntTy)
  | f64 | f32 | f16 | bf16 | e4m3 | e5m2 | e2m1
  deriving DecidableEq, Repr

/-- The block formats of CVTB (R144, R145). -/
inductive BlockTy where
  | e2m1 | e4m3 | e5m2
  deriving DecidableEq, Repr

/-- The scopes of R38 and R193. -/
inductive Scope where
  | core | gang | module | node | system
  deriving DecidableEq, Repr

/-- The retention hints of R38 and R186. -/
inductive Hint where
  | default | streaming | sticky | bypass
  deriving DecidableEq, Repr

/-- The rounding modes of R79. -/
inductive Rnd where
  | rne | rtz | rup | rdn | rna | rno
  deriving DecidableEq, Repr

/-- The integer reduction and atomic functions of R35. -/
inductive IntFn where
  | add | min | max | and | or | xor
  deriving DecidableEq, Repr

/-- The float reduction and atomic functions of R35. -/
inductive FltFn where
  | fadd | fmin | fmax
  deriving DecidableEq, Repr

/-- A lane reduction's function and type (R35, R128); `wide` is f64, else f32. -/
inductive RedOp where
  | int (f : IntFn) (t : IntTy)
  | flt (f : FltFn) (wide : Bool)
  deriving DecidableEq, Repr

/-- The element types of a memory-side float addition (R35). -/
inductive AtomFp where
  | f64 | f32 | f16 | bf16 | e4m3 | e5m2
  deriving DecidableEq, Repr

/-- An atomic's function and type (R35, R218). -/
inductive AtomOp where
  | int (f : IntFn) (t : IntTy)
  | swap (t : IntTy)
  | cas (t : IntTy)
  | flt (f : FltFn) (t : AtomFp)
  deriving DecidableEq, Repr

/-- The functions of FUN (R33, R139). -/
inductive FunFn where
  | abs | neg | rcp | rsq | sqrt | exp2 | log2 | sin | cos | tanh | class | rndi
  deriving DecidableEq, Repr

/-- The functions of BIT other than sext (R117). -/
inductive BitFn where
  | clz | ctz | pop | brev | neg | abs | not
  deriving DecidableEq, Repr

/-- The functions of SHF (R126). -/
inductive ShfFn where
  | idx | up | down | xor
  deriving DecidableEq, Repr

/-- The functions of VOTE that write a mask (R127). -/
inductive VoteFn where
  | any | all | eqv
  deriving DecidableEq, Repr

/-- The conversion of a drain into scratchpad (R306). -/
inductive Conv where
  | raw | bf16 | f16 | e4m3 | e5m2 | i8 | n8
  deriving DecidableEq, Repr

/-- The barrier levels of R160 and R161. -/
inductive Level where
  | warp | group | gang | grid
  deriving DecidableEq, Repr

/-- The engine classes of R243. -/
inductive QClass where
  | copy | gather | matrix | coll
  deriving DecidableEq, Repr

/-- The fields of an EXT word (R38). -/
structure Ext where
  mask : Nat
  inv : Bool
  rnd : Option Rnd
  vc : Nat
  z : Bool
  sat : Bool
  scope : Scope
  hint : Hint
  atom : Nat
  deriving DecidableEq, Repr

/-- The fields of a REP word (R41); `last` is count - 1. -/
structure Rep where
  last : Nat
  sd : Nat
  sa : Nat
  sb : Nat
  deriving DecidableEq, Repr

/-- The words that may stand before a base word (R37). -/
structure Pre where
  rep : Option Rep
  ext : Option Ext
  deriving DecidableEq, Repr

/-- UR form (R28). -/
structure UR where
  d : Nat
  a : Nat
  b : Opnd
  deriving DecidableEq, Repr

/-- UM form (R28): `off` is the raw 9-bit field. -/
structure UM where
  ext : Option Ext
  d : Nat
  a : Nat
  off : Nat
  deriving DecidableEq, Repr

/-- LR form with an integer type (R27, R33). -/
structure LRI where
  pre : Pre
  t : IntTy
  d : Nat
  a : Nat
  b : Opnd
  deriving DecidableEq, Repr

/-- LR form with a float type; vb is a register (R135). -/
structure LRF where
  pre : Pre
  t : FpTy
  d : Nat
  a : Nat
  b : Nat
  deriving DecidableEq, Repr

/-- LR form with registers and no type of its own. -/
structure LRN where
  pre : Pre
  d : Nat
  a : Nat
  b : Opnd
  deriving DecidableEq, Repr

/-- LM form (R27, R211). -/
structure LM where
  pre : Pre
  t : IntTy
  d : Nat
  a : Nat
  b : Opnd
  deriving DecidableEq, Repr

/-- LA form (R27, R217). -/
structure LA where
  pre : Pre
  op : AtomOp
  d : Nat
  a : Nat
  nr : Bool
  deriving DecidableEq, Repr

/-- A lane reduction (R128). -/
structure Red where
  pre : Pre
  op : RedOp
  d : Nat
  a : Nat
  excl : Bool
  deriving DecidableEq, Repr

/-- MOVI (R33, R120): `v` is the 16-bit value. -/
structure LI where
  pre : Pre
  d : Nat
  v : Nat
  deriving DecidableEq, Repr

/-- CPY in the plain form (R293): `s` and `d` are the pair numbers, `z` the size code. -/
structure CpyF where
  pre : Pre
  z : Nat
  tok : Nat
  s : Nat
  d : Nat
  deriving DecidableEq, Repr

/-- CPY in the buffer form (R293). -/
structure CpyBufF where
  pre : Pre
  z : Nat
  tok : Nat
  fin : Bool
  refill : Bool
  s : Nat
  o : Nat
  cb : Nat
  deriving DecidableEq, Repr

/-- GATH (R295). -/
structure GathF where
  pre : Pre
  z : Nat
  tok : Nat
  base : Nat
  idx : Nat
  o : Nat
  deriving DecidableEq, Repr

/-- The agent that sends a mailbox store: a warp by its key, or a host hart (R182). -/
inductive Sender where
  | warp (w : Nat)
  | hart (h : Nat)
  deriving DecidableEq, Repr

/-- A barrier: its level, the key of its owner and its number (R160). -/
structure BarRef where
  level : Level
  owner : Nat
  num : Nat
  deriving DecidableEq, Repr

/-- What an agent other than a warp's own step does in a core window (R172). -/
inductive WinOp where
  | load (size : Nat)
  | store (bytes : List Byte)
  | atom (op : AtomOp) (md : Rnd) (operand cmp : W64)
  deriving DecidableEq, Repr

/-- A plain RISC-V instruction of a hart, by what it does to the module (R209, R241). Addresses are virtual in the hart's own translation. An
AMO, an LR and an SC carry their aq and rl bits, a fence its predecessor and successor sets, of which bit 0 is W, bit 1 R, bit 2 O and bit 3
I. -/
inductive HostOp where
  | load (rd addr size : Nat) (signed : Bool)
  | store (addr size : Nat) (v : W64)
  | csr (rd num : Nat)
  | amo (rd addr size : Nat) (op : AtomOp) (v : W64) (aq rl : Bool)
  | lr (rd addr size : Nat) (aq rl : Bool)
  | sc (rd addr size : Nat) (v : W64) (aq rl : Bool)
  | fence (pred succ : Nat)
  | mret
  | barred
  | illegal
  deriving DecidableEq, Repr

/-- The header fields of a Birmir Link packet that the port's state reads (R375). -/
structure Hdr where
  seq : Nat
  ack : Nat
  nak : Bool
  ret : List Nat
  deriving DecidableEq, Repr

/-- A Join of a collective instance, with the module that sent it (R391). -/
structure JoinPkt where
  pkg : Nat
  xred : Bool
  id : Nat
  p : Nat
  index : Nat
  fn : Nat
  ty : Nat
  mode : Nat
  home : Nat
  root : Nat
  count : Nat
  src : List Nat
  dst : List Nat
  warp : Option Nat
  opId : Nat
  /-- the context and the die whose translations the addresses come from -/
  ctx : Nat
  die : Nat
  deriving DecidableEq, Repr

/-- The payload of a packet of the link with the marks of its sectors, bit n for bytes 32n to 32n + 31 (R341, R375). -/
structure Payload where
  bytes : List Byte
  pois : Nat
  deriving DecidableEq, Repr

/-- A coded packet (R397): plan, context, and for each block its identifier and transfer index. -/
structure CodedPkt where
  ctx : Nat
  plan : Nat
  src : Nat
  blocks : List (Nat × Nat)
  payload : List Byte
  poisoned : List Bool
  deriving DecidableEq, Repr

/-- What a Glade sends to another module for collectives and shuffles (R391, R394 to R399). -/
inductive CollMsg where
  | join (j : JoinPkt)
  /-- a participant's operation is done at the home of an instance, with ERR -/
  | joinDone (id opId err : Nat)
  | advert (ctx blk : Nat)
  | withdraw (ctx blk : Nat)
  | sideAck (ctx blk : Nat)
  | digest (ctx id digest : Nat)
  | coded (p : CodedPkt)
  | fallbackReq (ctx id xfer : Nat)
  | transferAck (ctx id xfer : Nat) (missed : Bool)
  /-- a transfer ends without its block (R397) -/
  | transferFail (ctx id xfer : Nat)
  deriving DecidableEq, Repr

/-- What the ARGS of a packet say (R375). -/
inductive LinkArgs where
  | none
  /-- an Atomic: the function with its operands, RND and N -/
  | atom (op : AtomOp) (rnd : Rnd) (x c : W64) (nr : Bool)
  /-- the bytes of an uncached request -/
  | size (n : Nat)
  /-- a Purge or PurgeAck of an identifier -/
  | ident (id : Nat)
  /-- a PortDown: the failed port and its ACK (R380) -/
  | failed (port ack : Nat)
  | coll (m : CollMsg)
  deriving DecidableEq, Repr

end Sys2Proof
end

