-- ==== Sys2Proof/Config.lean ====
section
/-! DEFINITION. What the manual leaves to the implementation: the free values. None has a body. -/

namespace Sys2Proof

/-- R140: which of the two bracketing values a faithful FUN result takes, true for the upper one.
It depends only on the function, the format, the rounding mode and the source bits. Log entry 20. -/
opaque Config.faithfulUp : FunFn → FpTy → Rnd → W64 → Bool

/-- R339: the byte at an address of a save area, outside the fixed fields, after a save at a time. Log entry 28. -/
opaque Config.saveByte : Nat → Nat → Byte

/-- R362: the byte at an offset of the hub-die records of a snapshot with a number. Log entry 29. -/
opaque Config.hubByte : Nat → Nat → Byte

/-- R414: a fixed clock or one of its harmonics reaches the band a word describes. Log entry 30. -/
opaque Config.fixedReaches : W64 → Bool

/-- R379: the fixed hash that chooses, for a channel, a source die and a destination die (module * 32 + die), one of the ports of a route. Log entry
51. -/
opaque Config.routeHash : Nat → Nat → Nat → Nat

/-- R375: the 28 bytes of ARGS that say something, as a number. Log entry 51. -/
opaque Config.linkArgs : LinkArgs → Nat

/-- R375: what the 28 bytes of ARGS of a packet of a type, as a number, and its payload say; none when they say nothing. Log entry 51. -/
opaque Config.linkBody : Nat → Nat → List Byte → Option LinkArgs

/-- R367: the set, one of 768, of its slice's directory in which a tracked unit has its entry. Log entry 57. -/
opaque Config.dirSet : Nat → Fin 768

end Sys2Proof
end

