-- ==== Sys2Proof/Syntax.lean ====
section
/-! DEFINITION. The instruction set as syntax: one constructor for every row of the opcode table.

The rows up to `dxCkptQuery` are words that a warp or a host hart fetches (02_encoding.md). The rows from `mcheckTake` on have no
word: each is an indivisible step of the hardware (95_what_each_step_holds.md), and its arguments say where it happens and what
reaches the module from outside. A warp is named by core * 64 + slot, a group by core * 64 + slot-table entry. -/

namespace Sys2Proof

/-- One row of the opcode table. -/
inductive Instr where
  -- uniform register operations (R54 to R60)
  | sadd (f : UR)
  | ssub (f : UR)
  | smul (f : UR)
  | smulh (f : UR)
  | sdiv (f : UR)
  | srem (f : UR)
  | sand (f : UR)
  | sor (f : UR)
  | sxor (f : UR)
  | sshl (f : UR)
  | sshr (f : UR)
  | ssra (f : UR)
  | smin (f : UR)
  | smax (f : UR)
  | sminn (f : UR)
  | smaxn (f : UR)
  | sseq (f : UR)
  | ssne (f : UR)
  | sslt (f : UR)
  | ssltn (f : UR)
  | ssel (f : UR)
  | sbfx (f : UR)
  | sbfi (f : UR)
  | sbit (d a fn : Nat)
  | sli (d imm : Nat)
  | slis (d imm : Nat)
  -- uniform memory (R61 to R65)
  | sld (f : UM)
  | sldw (f : UM)
  | sst (f : UM)
  | sstw (f : UM)
  | sldk (d a off : Nat)
  | smovl (f : UR)
  -- uniform control (R66 to R68)
  | sb (off : Nat)
  | sbz (a off : Nat)
  | sbnz (a off : Nat)
  | sblt (a off : Nat)
  | sj (a : Nat)
  | scall (off : Nat)
  | scallr (a : Nat)
  | sret
  | sloop (a off : Nat)
  -- fences (R222)
  | fenceRel (sc : Scope)
  | fenceAcq (sc : Scope)
  | fenceAr (sc : Scope)
  | fenceSc (sc : Scope)
  | fenceFetch
  -- tiles and the matrix engine (R302 to R312)
  | tcfg (n a : Nat)
  | tld (n a : Nat)
  | tldS (n a b : Nat)
  | tst (n a : Nat)
  | mma (a b s : Nat)
  | mmaPair (a b s : Nat)
  | mdrnTile (a : Nat) (clr : Bool) (n row col : Nat)
  | mdrnSpad (a : Nat) (clr : Bool) (cv : Conv) (b : Nat)
  | mchk (a : Nat)
  | mfix (a : Nat)
  | mrty (d a : Nat)
  | mstat (d : Nat)
  | mstatClo (d a : Nat)
  | mstatChi (d a : Nat)
  | mzero (a : Nat)
  | mgive (d a : Nat)
  -- gathers, buffers and waits (R296 to R301)
  | gstr (z tok a b : Nat)
  | cbdef (c a b : Nat)
  | cbget (d c : Nat)
  | cbput (c a : Nat)
  | cbqry (d c : Nat)
  | cblim (c a : Nat)
  | waitq (c : QClass) (n : Nat)
  | waitk (d m : Nat)
  -- collectives (R387)
  | xred (a : Nat)
  | xbc (a : Nat)
  | xshf (a : Nat)
  | xside (a : Nat)
  | xqry (d sel : Nat)
  -- transactions (R232)
  | txb (off : Nat)
  | txc (m : Nat)
  | txa (c : Nat)
  | txs (d : Nat)
  -- barriers and events (R161, R166, R167)
  | barArrive (l : Level) (n : Nat)
  | barWait (l : Level) (n : Nat)
  | barSync (l : Level) (n : Nat)
  | evb (n l b a : Nat)
  | evmWr (imm : Nat)
  | evmSet (imm : Nat)
  | evmClr (imm : Nat)
  | evclr (imm : Nat)
  | wany (imm : Nat)
  -- launch and resources (R150, R168, R169)
  | launch (d a : Nat)
  | takeV (m : Nat)
  | giveV (m : Nat)
  | takeA (c : Nat)
  | giveA (c : Nat)
  | part (z : Nat)
  | sprf (t a off : Nat)
  -- control registers and the SYS group (R70, R322)
  | sget (d n : Nat)
  | sset (n a : Nat)
  | snop
  | exit
  | yield
  | trap (imm : Nat)
  | brk
  | rte
  | snap
  | sleep (a : Nat)
  -- lane integer (R111 to R119)
  | add (f : LRI)
  | sub (f : LRI)
  | mul (f : LRI)
  | mulh (f : LRI)
  | mad (f : LRI)
  | div (f : LRI)
  | rem (f : LRI)
  | min (f : LRI)
  | max (f : LRI)
  | and (f : LRI)
  | or (f : LRI)
  | xor (f : LRI)
  | shl (f : LRI)
  | shr (f : LRI)
  | rot (f : LRI)
  | addc (f : LRI)
  | cmpeq (f : LRI)
  | cmpne (f : LRI)
  | cmplt (f : LRI)
  | cmple (f : LRI)
  | sel (f : LRI)
  | bfx (f : LRI)
  | bfi (f : LRI)
  | bit (fn : Option BitFn) (f : LRN)
  | prmb (f : LRN)
  | dot4 (signed four : Bool) (f : LRN)
  -- constants and moves (R120, R121)
  | moviZ (f : LI)
  | moviS (f : LI)
  | moviHi (f : LI)
  | movLane (f : LRN)
  | movU (pre : Pre) (d s : Nat) (hi : Bool)
  | movC (pre : Pre) (d n : Nat)
  | movTu (pre : Pre) (a s : Nat) (hi : Bool)
  -- bit streams, shuffles and votes (R124 to R127)
  | bsr (signed : Bool) (f : LRN)
  | bswSet (pre : Pre) (b : Nat)
  | bswReload (pre : Pre) (d b : Nat)
  | bswQuery (pre : Pre) (d : Nat)
  | shf (fn : ShfFn) (f : LRN)
  | vote (fn : VoteFn) (pre : Pre) (m a : Nat)
  | voteBallot (pre : Pre) (d a : Nat)
  -- lane float (R135 to R147)
  | fadd (f : LRF)
  | fsub (f : LRF)
  | fmul (f : LRF)
  | fma (f : LRF)
  | fmin (f : LRF)
  | fmax (f : LRF)
  | fdiv (f : LRF)
  | fcmpeq (f : LRF)
  | fcmplt (f : LRF)
  | fcmple (f : LRF)
  | fcmpun (f : LRF)
  | func (fn : FunFn) (t : FpTy) (pre : Pre) (d a : Nat)
  | cvt (src dst : CvtTy) (pre : Pre) (d a : Nat)
  | cvtbTo (t : BlockTy) (pre : Pre) (d a b : Nat)
  | cvtbFrom (t : BlockTy) (pre : Pre) (d a b : Nat)
  | pfma (f : LRF)
  | cdot (four : Bool) (f : LRN)
  -- lane reductions (R128, R129)
  | tred (f : Red)
  | scan (f : Red)
  | segr (f : Red)
  -- meets and lane control (R130 to R132)
  | meetOpen (pre : Pre) (n off : Nat)
  | meetWait (pre : Pre) (n : Nat)
  | meetLeave (pre : Pre) (n : Nat)
  | brt (pre : Pre) (m off : Nat)
  | brf (pre : Pre) (m off : Nat)
  | callv (pre : Pre) (off : Nat)
  | jmpv (pre : Pre) (a : Nat)
  -- lane memory (R211, R217)
  | ld (f : LM)
  | st (f : LM)
  | lds (f : LM)
  | sts (f : LM)
  | atom (f : LA)
  | atoms (f : LA)
  -- copies and gathers (R293, R295)
  | cpy (f : CpyF)
  | cpyBuf (f : CpyBufF)
  | gath (f : GathF)
  -- host words (R46)
  | dxLaunch (d s : Nat)
  | dxWait (d s t : Nat)
  | dxTbegin (d : Nat)
  | dxTend
  | dxTabort (s : Nat)
  | dxFqpop (d s : Nat)
  | dxReplay (s : Nat)
  | dxKill (s : Nat)
  | dxCkptSave (d s : Nat)
  | dxCkptRestore (d s : Nat)
  | dxCkptQuery (d s : Nat)
  -- dispatch, scheduling and release steps
  | mcheckTake (w : Nat)
  | gangDispatch (grid gang : Nat)
  | slotBind (g : Nat) (rec : List W64)
  | slotStop (g : Nat)
  | slotFree (g : Nat)
  | saveComplete (g : Nat)
  | sliceExpiry (g : Nat)
  | groupRetire (g : Nat)
  | warpSlotRelease (w : Nat)
  | barrierRelease (b : BarRef)
  | coppiceRelaunch (grid gang : Nat)
  | lockLimitExpiry
  | sleepDeadline (w t : Nat)
  | ticketTurn
  | txRevalidateCount (w t : Nat)
  | remoteStoreCombineEnd (n : Nat)
  | tlbInvalidate (core : Nat) (v : W64)
  | invalidateComplete (core : Nat)
  -- core windows and engines
  | mailboxWrite (by_ : Sender) (w m off : Nat) (bytes : List Byte)
  | mailboxClose (by_ : Sender) (w m off : Nat) (bytes : List Byte)
  | mailboxDiscard (w m : Nat)
  | mailboxRoom (w m : Nat)
  | coreWindowAccess (by_ : Sender) (pa : Nat) (op : WinOp)
  | copyLine (w : Nat) (tagFail : Bool)
  | gatherElement (w : Nat)
  | engineOpRetire (w : Nat) (c : QClass)
  | matrixOpStart (core : Nat)
  | mmaStep (core : Nat) (flip : Option (Nat × Nat × Nat × Nat))
  -- links, directory and Glade partials
  | idle (port : Nat) (h : Hdr)
  | idleTimer (port : Nat)
  | linkReplayTimeout (port : Nat)
  | portDown (port : Nat)
  | portdown (port failed ack : Nat)
  | reads (holder line : Nat)
  | readm (holder line : Nat)
  | upgrade (holder line : Nat)
  | writeback (holder line : Nat) (bytes : Payload)
  | atomic (src : Nat) (op : AtomOp) (pa : Nat) (operand cmp : W64) (rnd : Rnd) (nr : Bool)
  | uncachedRead (src pa size : Nat)
  | uncachedWrite (src pa : Nat) (bytes : List Byte) (pois : Nat)
  | contribution (src : Nat) (op : AtomOp) (pa : Nat) (operand : W64) (pois : Bool) (ackIx : Option Nat)
  | data (holder line : Nat) (excl : Bool) (bytes : Payload)
  | grantack (holder line : Nat)
  | ack (n : Nat)
  | wback (holder line : Nat)
  | recallLine (holder line : Nat)
  | recalldata (holder line : Nat) (bytes : Payload)
  | recallack (holder line : Nat)
  | purge (id : Nat)
  | purgeack (id from_ : Nat)
  | partialForwardTimer (n : Nat)
  | gladePartialError (n sector : Nat)
  -- collectives and coded shuffles
  | join (j : JoinPkt)
  | collectivePull (quarter id : Nat)
  | advert (from_ ctx blk : Nat)
  | withdraw (from_ ctx blk : Nat)
  | sideAck (w opId from_ : Nat)
  | planDigest (ctx id from_ digest : Nat)
  | packetFormation (ctx id : Nat)
  | codedPacket (p : CodedPkt)
  | fallbackreq (ctx id xfer to_ : Nat)
  | transferack (ctx id xfer : Nat) (missed : Bool)
  | twinMatch (w twin : Nat)
  -- ingest, PCIe, CSRs and the platform
  | frameReceive (port : Nat) (bytes : List Byte) (fcsOk : Bool) (tagFails : Nat)
  | pauseStart (port pcp : Nat)
  | pauseRepeat (port pcp : Nat)
  | pauseAbandon (port pcp : Nat)
  | pcieRead (addr size : Nat)
  | pcieWrite (addr : Nat) (bytes : List Byte) (ep : Bool)
  | dxfqWrite (v : W64)
  | dxsnapWrite (v : W64)
  | dxobjRegister (v : W64)
  | dxobjRemove (v : W64)
  | dxobjComplete
  | dxrwWrite (n : Nat) (v : W64)
  | flowBind (v : W64)
  | bandWrite (n : Nat) (v : W64)
  | clockPlanChange
  | bootClr
  | csrWrite (h csr : Nat) (v : W64)
  | powerSample (amps watts : Nat)
  | throttleEnd
  | snaptrig
  | smbusSnapshot
  | snapshotLatch
  | snapshotComplete
  | scrub (pa fails : Nat)
  | residueMismatch (w lane : Nat)
  | moduleStart (reason : Nat)
  | startTimeout
  | powerLoss
  | dxWaitTimeout (h : Nat)
  | hostInstruction (h : Nat) (op : HostOp)
  | hostInterrupt (h cause : Nat)
  | packetCrcFailure (port : Nat)
  | reservedTypePacket (port : Nat)
  | checkpointComplete (mediaError : Bool)
  | startReachesUp
  | failedPartRecovery (id : Nat)
  deriving DecidableEq, Repr

end Sys2Proof
end

