-- ==== Sys2Proof/Machine/Types.lean ====
section
/-! DEFINITION. The types of the pieces of state: threads, warps, groups, gangs, grids, cores, engines, fabric and host. -/

namespace Sys2Proof.Machine

/-- Sparse data by number: a list of pairs with strictly rising keys. -/
abbrev Tab (α : Type) := List (Nat × α)

/-- The 32 lanes of one vector register. -/
abbrev Lanes := Vector W32 32

/-! ## Threads -/

/-- What holds a waiting thread (R90). -/
inductive Hold where
  /-- MEET.WAIT on a meet (R97) -/
  | meet (n : Nat)
  /-- WANY with its interest mask (R167) -/
  | wany (interest : Nat)
  /-- the wait form of BAR: the phase awaited (R160) -/
  | bar (b : BarRef) (phase : Nat)
  /-- an arrive that awaits the phase of an earlier arrival, and whether a wait follows (R160) -/
  | rearrive (b : BarRef) (phase : Nat) (sync : Bool)
  /-- TAKE.V or TAKE.A, queued at the group's pool (R103) -/
  | take
  /-- WAITQ (R300) -/
  | waitq (c : QClass) (n : Nat)
  /-- WAITK (R301) -/
  | waitk (d mask : Nat)
  /-- CBGET (R255) -/
  | cbget (d cb : Nat)
  /-- TXB waiting for a transaction slot (R233) -/
  | txSlot (label : W64)
  /-- TXB waiting for the fallback lock (R237) -/
  | lock
  /-- TXC waiting for its ticket, or for the lock's release (R234) -/
  | ticket (n md : Nat)
  /-- SLEEP until $time reaches the deadline (R325) -/
  | sleep (deadline : Nat)
  deriving DecidableEq, Repr

/-- The status of a thread (R90). -/
inductive TStatus where
  | eligible
  | waiting
  | exited
  deriving DecidableEq, Repr

/-- A thread's transaction (R230, R233). -/
structure Tx where
  label : W64
  slot : Nat
  log : List (Nat × W64)
  buf : List (Nat × Byte)
  /-- another agent's write has matched the read signature since the last check, and how often the warp has been considered since (R231) -/
  matched : Bool
  age : Nat
  deriving DecidableEq, Repr

/-- The state of one thread (R90). -/
structure Thread where
  pc : W64
  status : TStatus
  wait : Nat
  frozen : Bool
  bcur : W32
  retry : Nat
  code : Nat
  detail : Nat
  tx : Option Tx
  irr : Bool
  deriving DecidableEq, Repr

/-- An issue set that waits, in the order of waiting. -/
structure Park where
  set : W32
  hold : Hold
  deriving DecidableEq, Repr

/-- The issue a warp has begun and not ended: a REP between two issues (R41), or an instruction that waits at issue; with the words it
has fetched, none for one that is fetched again. -/
structure Cur where
  set : W32
  elig : W32
  pc : W64
  idx : Nat
  words : List Nat
  deriving DecidableEq, Repr

/-- A meet (R97). -/
structure Meet where
  opened : Bool
  label : W64
  members : W32
  arrived : W32
  deriving DecidableEq, Repr

/-- A barrier (R160): the phase, and the threads with a pending arrival as warp * 32 + thread. -/
structure Barrier where
  phase : Nat
  arrived : List Nat
  deriving DecidableEq, Repr

/-! ## Engine operations -/

/-- One lane of a copy (R247): virtual and physical addresses, and the page sizes that a class unit takes (R190). In the buffer form `off` is the
slot offset, and `dstVa` and `dst` are there once the copy has its slot. `data` holds the bytes read and the offsets of the poisoned ones. -/
structure CopyLane where
  lane : Nat
  srcVa : Nat
  src : Nat
  srcSize : Nat
  off : Nat
  dstVa : Nat
  dst : Option Nat
  dstSize : Nat
  data : Option (List Byte × List Nat)
  written : Bool
  deriving DecidableEq, Repr

/-- The destination of a copy (R293): plain, or a circular buffer. -/
inductive CopyTo where
  | plain
  | buf (cb : Nat) (fin refill : Bool)
  deriving DecidableEq, Repr

/-- A translation fault an engine operation waits on: whether dx.replay has released it, and with FAIL (R335). -/
inductive EngWait where
  | waiting
  | replayed (fail : Bool)
  deriving DecidableEq, Repr

/-- A copy operation (R248): its number in the core's order of issue, the die whose translation cache it used (R189), and the slot it claimed
or joined; `held` counts its lines that have joined the window of a paired copy (R355). -/
structure CopyOp where
  seq : Nat
  die : Nat
  z : Nat
  tok : Nat
  dest : CopyTo
  lanes : List CopyLane
  claimed : Option Nat
  err : Bool
  wait : Option EngWait
  fin : Bool
  held : Nat
  deriving DecidableEq, Repr

/-- A gather operation (R261, R262): GATH carries its lanes with their physical addresses and page sizes. `next` is the next element,
`done` is DONE of R264, and `got` holds the bytes and the poisoned offsets of elements that a line read has brought already (R261). -/
structure GathOp where
  seq : Nat
  die : Nat
  z : Nat
  tok : Nat
  base : W64
  io : Nat
  dof : Nat
  n : Nat
  lanes : Option (List (Nat × Nat × Nat))
  next : Nat
  done : Nat
  err : Bool
  wait : Option EngWait
  fin : Bool
  got : Tab (List Byte × List Nat)
  deriving DecidableEq, Repr

/-- An entry of a retry record (R288): physical tiles of the leader, their shape words, row0 and the core half. -/
structure RecEntry where
  a : Nat
  b : Nat
  sa : W32
  sb : W32
  row0 : Nat
  half : Nat
  pair : Bool
  deriving DecidableEq, Repr

/-- The states of a band (R278). -/
inductive BandState where
  | checked
  | unchecked
  | faulted
  deriving DecidableEq, Repr

/-- The accumulation type of a band (R278). -/
inductive BandType where
  | none
  | f
  | i
  deriving DecidableEq, Repr

/-- What a band holds besides its data (R278, R288, R309). -/
structure Band where
  state : BandState
  ty : BandType
  /-- whether the band's most recent MMA accumulated in i32 (R307) -/
  lastInt : Bool
  mask : Nat
  cr : Vector W32 128
  cc : Vector W32 32
  mr : Vector W32 128
  mc : Vector W32 32
  record : List RecEntry
  complete : Bool
  colMask : BitVec 128
  /-- the crossing and corrected value of a located failure (R283) -/
  located : Option (Nat × Nat × W32)
  deriving DecidableEq, Repr

/-- The kinds of matrix operation (R268), with operands read at issue. Tiles are physical numbers. -/
inductive MatKind where
  | tld (t : Nat) (shape : W32) (src : Nat) (scales : Option Nat)
  | tst (t : Nat) (shape : W32) (dst : Nat)
  | mma (a b : Nat) (sa sb : W32) (k : Nat) (pair : Bool)
  | mdrnTile (k : Nat) (clr : Bool) (t : Nat) (shape : W32) (row ch : Nat)
  | mdrnSpad (k : Nat) (clr : Bool) (cv : Conv) (dst : Nat)
  | mchk (k : Nat)
  | mrty (k d : Nat)
  | mzero (k : Nat)
  | mgive (k d slot : Nat)
  deriving DecidableEq, Repr

/-- A matrix operation in its group's queue (R269); `out` is the outcome of an MRTY or MGIVE (R310). -/
structure MatOp where
  id : Nat
  warp : Nat
  kind : MatKind
  started : Bool
  steps : Nat
  fin : Bool
  out : Nat
  deriving DecidableEq, Repr

/-- The collective operations a warp has issued and not retired (R388). -/
inductive CollKind where
  | xred (j : JoinPkt)
  | xbc (j : JoinPkt)
  | xshf
  | xside
  deriving DecidableEq, Repr

/-- A collective operation, with the status it carries (R401). `left` names the modules that have still to acknowledge an XSIDE, once for each Advert
or Withdraw, and
`report` is the miss report of a STRICT plan (R400). -/
structure CollOp where
  opId : Nat
  kind : CollKind
  id : Nat
  err : Nat
  miss : Nat
  left : List Nat
  report : Option Nat
  fin : Bool
  deriving DecidableEq, Repr

/-! ## Memory instructions under way -/

/-- Consecutive physical bytes of one access: where they lie, their offset in the access, and the page's size and NC bit. -/
structure Piece where
  pa : Nat
  off : Nat
  n : Nat
  size : Nat
  nc : Bool
  deriving DecidableEq, Repr

/-- What a memory instruction does with each of its accesses: a lane load into registers, a uniform load, a store, or an atomic. -/
inductive FlightOp where
  | load (d n : Nat) (ty : IntTy)
  | sload (d : Nat)
  | store
  | atom (op : AtomOp) (nr : Bool) (md : Rnd) (d : Nat)
  deriving DecidableEq, Repr

/-- One access of a memory instruction that has passed its checks (R214): its thread, its bytes in memory, the bytes it stores or the operand and
compare value of its atomic, and whether it is transactional, goes to the group's allocation untranslated, or is held for the twin (R354). -/
structure FlightLane where
  lane : Nat
  va : W64
  pieces : List Piece
  bytes : List Byte
  x : Nat
  c : Nat
  tx : Bool
  loc : Bool
  held : Bool
  deriving DecidableEq, Repr

/-- A memory instruction that has passed its checks, with the accesses that it has still to make (R214, R215): its active threads, the number that
the next engine operation of its core had (R206), its number among the remote stores (R204), the bytes that it stores to mailboxes (R182), whether
it meets its twin first (R356), and the number of its issue among those of held writes. -/
structure Flight where
  op : FlightOp
  act : W32
  mark : Nat
  remote : Option Nat
  lanes : List FlightLane
  mail : List (Piece × List Byte)
  meet : Bool
  id : Nat
  deriving DecidableEq, Repr

/-! ## Warps -/

/-- A failed check whose MCHECK the warp has not taken yet: the value for $mfault (R283, R285). -/
structure Mcheck where
  mfault : W64
  deriving DecidableEq, Repr

/-- An instruction that waits for translation service (R332). -/
structure Service where
  /-- dx.replay has released it, and with FAIL (R335) -/
  replayed : Option Bool
  deriving DecidableEq, Repr

/-- A held write of a paired copy (R354): physical address and bytes; for an ATOM with N = 1 its function, mode and operand bytes;
for a mailbox whether the packet closes; for an engine write the offsets of its poisoned bytes. `ord` is its place in the order of the
held writes of its copy, `seq` the number of its record in the window's signature (R355), `issue` the issue that made it, none for an engine's, and
`remote` the number under which that issue counts as a remote store (R204). -/
structure HeldWrite where
  ord : Nat
  seq : Nat
  pa : Nat
  bytes : List Byte
  op : Option (AtomOp × Rnd)
  closes : Bool
  pois : List Nat
  issue : Option Nat
  remote : Option Nat
  deriving DecidableEq, Repr

/-- The open window of a warp of a paired copy (R355, R356): its signature, the number of its records, and of each record the virtual address, the
kind and the bytes. -/
structure PairWin where
  sig : W64
  count : Nat
  recs : List (Nat × Nat × List Byte)
  held : List HeldWrite
  points : Nat
  /-- the warp stands at a release or forced point (R356) -/
  atPoint : Bool
  /-- the point has been matched and the instruction may go on -/
  passed : Bool
  /-- the point is a forced one -/
  forced : Bool
  /-- an engine's held write forced it -/
  engine : Bool
  /-- the result that the twin's LAUNCH or XOP has obtained for both -/
  gift : Option (List W64)
  /-- the writes of the window that ended last which have still to be performed for both copies -/
  drain : List HeldWrite
  /-- the instruction at the point goes on when they are performed -/
  due : Bool
  deriving DecidableEq, Repr

/-- The state of one warp. -/
structure Warp where
  group : Nat
  index : Nat
  cls : Nat
  baseRegs : Nat
  threads : Vector Thread 32
  sregs : Vector W64 160
  vregs : Vector Lanes 128
  mregs : Vector W32 8
  cur : Option Cur
  rprog : Nat
  rprogPc : W64
  fpmode : W64
  part : Nat
  evp : BitVec 16
  evm : BitVec 16
  evh : Vector W64 16
  evbind : Vector (Option BarRef) 4
  parks : List Park
  bar : Barrier
  meets : Vector Meet 8
  tokPend : Vector Nat 8
  tokErr : BitVec 8
  qcopy : Nat
  qgath : Nat
  qmat : Nat
  qcoll : Nat
  copyQ : List CopyOp
  gathQ : List GathOp
  collQ : List CollOp
  xstat : W64
  reports : List (Nat × Nat)
  cmask : W32
  txlim : Nat
  mmode : W64
  mfault : W64
  mcorr : W64
  mtol : Vector W64 5
  mchecks : List Mcheck
  trapc : W64
  trapa : W64
  trappc : W64
  trapm : W64
  tvec : W64
  /-- identity registers whose value a save record was given (R340) -/
  shown : Tab W64
  handler : Bool
  hset : W32
  trapAt : W64
  service : Option Service
  /-- the address of an instruction whose checks dx.replay with FAIL covers (R335) -/
  cover : Option W64
  vext : BitVec 4
  acch : W64
  code : Tab W32
  win : Option PairWin
  readyAt : Nat
  /-- the last issue formed results that the physical lanes check (R358) -/
  formed : Bool
  /-- memory instructions that have passed their checks and have accesses to make, oldest first (R214) -/
  flights : List Flight
  deriving DecidableEq, Repr

/-! ## Groups, gangs, grids -/

/-- The states of a circular-buffer slot (R254). -/
inductive SlotState where
  | free
  | filling
  | faulted
  | filled
  | held
  | retired
  deriving DecidableEq, Repr

/-- A slot of a circular buffer: whether it is closed, its unfinished copies, whether one failed, whether REFILL copies fill it, and
for a HELD slot whether a CBPUT has named it. `freedBy` is the warp whose CBPUT freed it (R207). -/
structure CbSlot where
  state : SlotState
  closed : Bool
  open_ : Nat
  bad : Bool
  refill : Bool
  put : Bool
  freedBy : Option Nat
  deriving DecidableEq, Repr

/-- A defined circular buffer (R252 to R258). `order` lists claimed slots, oldest first. -/
structure Cb where
  dev : Bool
  base : W64
  slotBytes : Nat
  stages : Nat
  mins : Nat
  maxs : Nat
  nextLimits : Option (Nat × Nat)
  scope : Scope
  swe : Bool
  swc : Nat
  swf : Nat
  swrb : Nat
  depth : Nat
  fcur : Nat
  slots : List CbSlot
  order : List Nat
  /-- the ingest flows bound to the buffer (R409); it is ingest-bound while it has one (R260) -/
  ingest : List Nat
  /-- waiting CBGETs of the group, oldest first: warp, issue set, destination -/
  waiters : List (Nat × W32 × Nat)
  lapGets : Nat
  lapGetWaited : Bool
  lapCopyWaited : Bool
  lapLow : Bool
  deriving DecidableEq, Repr

/-- A request to a group's pool (R103): a block mask for TAKE.V or a count for TAKE.A. -/
inductive TakeReq where
  | v (mask : BitVec 4)
  | a (count : Nat)
  deriving DecidableEq, Repr

/-- A group (R100) with its bind record (R153) and what it owns. -/
structure Group where
  core : Nat
  entry : Nat
  grid : Nat
  gang : Nat
  copy : Nat
  index : Nat
  ngroups : Nat
  nwarps : Nat
  cls : Nat
  slots : W64
  banks : W64
  soff : Nat
  slen : Nat
  tilem : BitVec 16
  regs : Nat
  xreg : Nat
  xacc : Nat
  handle : Nat
  slice : Nat
  save : Nat
  /-- the group's context is in the save area (R337) -/
  stored : Bool
  own : W64
  pool : W64
  poolFree : W64
  passed : W64
  takeQ : List (Nat × W32 × TakeReq)
  bars : Vector Barrier 16
  cbs : Vector (Option Cb) 32
  matQ : List MatOp
  mstat : W64
  children : List Nat
  clkOff : Nat
  sliceLeft : Nat
  deriving DecidableEq, Repr

/-- A gang (R100): its groups, run count (R350), barriers and, in a paired grid, the second copy, whose barriers are 8 to 15. `lead` is
the core on which its group 0 last stood (R363); `kids` are the killed grids that its groups launched and that have still to complete (R158). -/
structure Gang where
  grid : Nat
  index : Nat
  lead : Nat
  groups : List Nat
  twin : List Nat
  runs : Nat
  retired : Nat
  killed : Option Nat
  kids : List Nat
  bars : Vector Barrier 16
  deriving DecidableEq, Repr

/-- The fields of a launch record (R148). -/
structure LaunchRec where
  entry : W64
  params : W64
  signal : W64
  gangs : Nat
  groups : Nat
  warps : Nat
  cls : Nat
  flags : Nat
  regs : Nat
  tiles : Nat
  acc : Nat
  xreg : Nat
  scratch : Nat
  xacc : Nat
  cscope : Nat
  hmask : BitVec 16
  htable : W64
  deriving DecidableEq, Repr

/-- A grid with its retained record and that record's index in the store (R149, R153). -/
structure Grid where
  lrec : LaunchRec
  handle : Nat
  ctx : Nat
  depth : Nat
  parent : Option Nat
  signalPa : Option Nat
  retired : Nat
  status : Nat
  runs : Nat
  bars : Vector Barrier 4
  deriving DecidableEq, Repr

/-! ## Cores -/

/-- An entry of a slot table (R152, R153): the control word and the seven words of the bind record. -/
structure SlotEntry where
  ctl : W64
  bind : List W64
  deriving DecidableEq, Repr

/-- A packet being assembled or closed (R182). -/
structure OpenPkt where
  sender : Sender
  slot : Nat
  mb : Nat
  bytes : Tab Byte
  deriving DecidableEq, Repr

/-- A mailbox store that waits for room (R182), with its place in the order of the stores that wait at its core. -/
structure WaitStore where
  sender : Sender
  slot : Nat
  mb : Nat
  writes : List (Nat × Byte)
  closes : Bool
  remote : Option Nat
  seq : Nat
  deriving DecidableEq, Repr

/-- Another window store that waits at its core (R176, R197): its sender, its bytes, its number among the remote stores, its place in the
order of the stores that wait there, and the number that the next engine operation of its warp's core had (R206). -/
structure TileStore where
  sender : Sender
  pa : Nat
  bytes : List Byte
  remote : Option Nat
  seq : Nat
  mark : Nat
  deriving DecidableEq, Repr

/-- The array of a core (R270): the operation that runs on it. -/
structure ArrayUse where
  group : Nat
  op : Nat
  deriving DecidableEq, Repr

/-- The state of one core. -/
structure Core where
  slots : Tab SlotEntry
  rr : Vector Nat 4
  shapes : Vector W32 16
  bands : Tab Band
  mail : Tab (List (Tab Byte))
  mbOpen : List OpenPkt
  mbWait : List WaitStore
  /-- window stores that wait for a busy or locked tile (R176), and those of one sender behind them (R197) -/
  tileWait : List TileStore
  mbdrop : W64
  tinva : W64
  tinvc : W64
  skip : Vector Nat 4
  oos : Vector Bool 4
  suspect : List (Nat × Nat)
  /-- per quadrant, the spare physical lane has failed the lane test of the start (R358, R417) -/
  spareBad : Vector Bool 4
  /-- the groups that are saved for a suspect lane and restored once it is steered out (R358) -/
  mending : List Nat
  copyRR : Nat
  gathRR : Nat
  array : Option ArrayUse
  /-- of a leader core: the queue from which the pair last started an MMA or MRTY -/
  arrayLast : Nat
  /-- the pair MMA that was passed over, and before which the array starts nothing (R270) -/
  pairHold : Option ArrayUse
  nextOp : Nat
  issues : W64
  deriving DecidableEq, Repr

/-! ## Module -/

/-- A translation a translation cache of a die holds (R189). -/
structure TlbEntry where
  die : Nat
  ctx : Nat
  page : Nat
  size : Nat
  pa : Nat
  perms : Nat
  nc : Bool
  deriving DecidableEq, Repr

/-- An invalidation that a core started (R189). -/
structure Inval where
  va : W64
  cmd : W64
  deriving DecidableEq, Repr

/-- The class of a unit (R191). -/
inductive PageClass where
  | priv (core : Nat)
  | shared
  deriving DecidableEq, Repr

/-- A class-table entry (R190): the unit's size is 4 KiB or 64 KiB. -/
structure ClassEntry where
  die : Nat
  size : Nat
  cls : PageClass
  deriving DecidableEq, Repr

/-- An FP32 shadow of a line (R88): which line, the element type, and the sums by element offset. -/
structure Shadow where
  ty : AtomFp
  vals : Tab W32
  deriving DecidableEq, Repr

/-- A remote store not yet acknowledged (R204), counted in its warp's $ost, and in that of the twin for which it is performed as well (R356); `mods`
are the other modules it goes to. -/
structure Remote where
  warp : Nat
  twin : Option Nat
  combining : Bool
  contribution : Bool
  mods : List Nat
  deriving DecidableEq, Repr

/-- A fault that waits for room in the ring (R331): the context and the 32 bytes as four words. -/
structure HeldFault where
  ctx : Nat
  words : List W64
  deriving DecidableEq, Repr

/-- A commit that waits in the ticket unit (R234, R240). -/
inductive Commit where
  | warp (w : Nat) (set : W32) (md : Nat) (here : W64)
  | hart (h : Nat)
  deriving DecidableEq, Repr

/-- The fallback lock (R237): its holder, the time of its grant, and the limit in ns. -/
structure Lock where
  warp : Nat
  thread : Nat
  since : Nat
  limit : Nat
  lines : List Nat
  deriving DecidableEq, Repr

/-- A thread that waits for the fallback lock (R237). -/
structure LockWait where
  warp : Nat
  thread : Nat
  deriving DecidableEq, Repr

/-- A directory entry (R364). A holder is a die of this module, 0 to 27, or 32 plus the number of another module. -/
inductive DirState where
  | shared (holders : List Nat)
  | owned (holder : Nat)
  deriving DecidableEq, Repr

/-- An agent that makes an access: a thread of a warp, a host hart, or anything else. -/
inductive Agent where
  | thread (w t : Nat)
  | hart (h : Nat)
  | other
  deriving DecidableEq, Repr

/-- What a holder asks the home of a tracked unit for (R366). -/
inductive DirReq where
  | s
  | m
  deriving DecidableEq, Repr

/-- A request that waits at the home (R366): its holder, what it asks for, its line, and the die and TAG that its packet names (R375). -/
structure DirWait where
  holder : Nat
  req : DirReq
  line : Nat
  die : Nat
  tag : Nat
  deriving DecidableEq, Repr

/-- The home's record of one tracked unit (R364, R366, R370); an UNCACHED unit that nothing waits for has none. `recalls` are the holders and lines
whose recalls have not been answered. -/
structure DirEntry where
  state : Option DirState
  unacked : List Nat
  recalls : List (Nat × Nat)
  queue : List DirWait
  deriving DecidableEq, Repr

/-- A line at a holder (R365): S, M, or an evicted M line whose WBAck has not arrived, with the data that were sent and their marks (R369). -/
inductive LineState where
  | s
  | m
  | writeback (bytes : List Byte) (pois : Nat)
  deriving DecidableEq, Repr

/-- What this module has asked another for (R365, R369, R371, R375): a line in S or M for one of its dies, the WBAck of an evicted line, the value
of an uncached read or an atomic, or the acknowledgement of a write, with the sender of the write and the remote stores that it belongs to (R204). -/
inductive AskFor where
  | line (holder line : Nat) (excl : Bool)
  | evicted (holder line : Nat)
  | value (who : Agent) (pa n : Nat)
  | ack (by_ : Sender) (stores : List Nat)
  deriving DecidableEq, Repr

/-- A request that another module has still to answer, or a value that has come and has not been used: its bytes, and whether they carry poison. -/
structure Ask where
  dest : Nat
  what : AskFor
  got : Option (List Byte × Bool)
  deriving DecidableEq, Repr

/-- A registered coherence object (R372, R373): its home die and its tiles as lists of lines. -/
structure Obj where
  base : W64
  ctx : Nat
  die : Nat
  tiles : List (List Nat)
  deriving DecidableEq, Repr

/-- A partial of a reduction window (R384), with the time of its first contribution. -/
structure Partial where
  quarter : Nat
  line : Nat
  op : AtomOp
  vals : Tab W64
  pois : List Nat
  acks : List Nat
  since : Nat
  deriving DecidableEq, Repr

/-- A packet for another module (R375): its channel and type, the die it comes from, the module and die it goes to, its TAG and address, its payload
with the marks of its sectors, and what its ARGS say. -/
structure Pkt where
  vc : Nat
  ty : Nat
  src : Nat
  dest : Nat
  die : Nat
  tag : Nat
  addr : Nat
  bytes : List Byte
  pois : Nat
  args : LinkArgs
  deriving DecidableEq, Repr

/-- A packet kept for resending (R377): its sequence number, and the packet. -/
structure SentPkt where
  seq : Nat
  pkt : Pkt
  deriving DecidableEq, Repr

/-- What a packet from another module asks of this one (R375). -/
inductive Inbound where
  | request (holder line : Nat) (r : DirReq)
  | writeback (holder line : Nat) (x : Payload)
  | atomic (src : Nat) (op : AtomOp) (pa : Nat) (x c : W64) (rnd : Rnd) (nr : Bool)
  | read (src pa n : Nat)
  | write (src pa : Nat) (bytes : List Byte) (pois : Nat)
  | contribution (src : Nat) (op : AtomOp) (pa : Nat) (x : W64) (pois : Bool)
  | grantAck (holder line : Nat)
  | giveBack (die line : Nat)
  | recalled (holder line : Nat) (x : Payload)
  | purge (id : Nat)
  | purgeAck (id from_ : Nat)
  | coll (m : CollMsg)
  deriving DecidableEq, Repr

/-- A packet that a port has accepted and that stands in a slot of its channel (R378) until it is served: what it asks for, and the module, die and
TAG that it names. -/
structure Slotted where
  vc : Nat
  i : Inbound
  src : Nat
  die : Nat
  tag : Nat
  deriving DecidableEq, Repr

/-- A port of the Birmir Link (R377, R378, R380), with the packets that wait to be sent over it, those that have arrived and not been served, and the
time at which ACK last advanced. -/
structure Port where
  queue : List Pkt
  slots : List Slotted
  expect : Nat
  nak : Bool
  nextSeq : Nat
  unacked : List SentPkt
  sent : List Nat
  ret : List Nat
  freed : List Nat
  resends : Nat
  ackAt : Nat
  down : Bool
  deriving DecidableEq, Repr

/-- A packet or frame the module has handed to the outside. -/
inductive Out where
  /-- the flits of a packet leave a port (R375, R376) -/
  | packet (port : Nat) (flits : List Byte)
  /-- a packet of a type for an address to a holder, with its payload, the marks of its sectors (R375), and the port over which it leaves the
  module (R379); none inside the module -/
  | message (dest ty addr : Nat) (bytes : List Byte) (pois : Nat) (via : Option Nat)
  /-- a collective packet to another module, with its port -/
  | coll (dest : Nat) (m : CollMsg) (via : Option Nat)
  | pcie (unsupported ep : Bool) (bytes : List Byte)
  | pause (port pcp quanta : Nat)
  | interrupt (core entry : Nat)
  /-- the message of an MSI-X vector goes to the PCIe host (R408) -/
  | msix (addr : W64) (data : W32)
  /-- what a management bus has read (R419) -/
  | side (value : W64)
  deriving DecidableEq, Repr

/-- A collective instance at its Glade quarter (R391), with the results of the chunks that it has delivered, their bytes and poisoned sectors, and
the participants that joined late, with the next chunk that each has to receive. -/
structure Instance where
  quarter : Nat
  first : JoinPkt
  joined : List JoinPkt
  chunk : Nat
  out : List (List Byte × List Nat)
  late : List (JoinPkt × Nat)
  deriving DecidableEq, Repr

/-- The local kind of a side-information entry (R393): MEM with its physical address, or BUF with its bytes and marks. -/
inductive SideKind where
  | none
  | mem (pa : Nat)
  | buf (bytes : List Byte) (pois : List Bool) (use : Nat)
  deriving DecidableEq, Repr

/-- An entry of a side-information table (R393). -/
structure SideEntry where
  ctx : Nat
  blk : Nat
  hold : W32
  kind : SideKind
  deriving DecidableEq, Repr

/-- How far a transfer of a plan has come on this module (R397 to R399). -/
inductive XferState where
  | waiting
  | sent
  | written
  | missed
  | failed
  | acked
  deriving DecidableEq, Repr

/-- An entry of a plan (R396), with its state; `dpa` is the physical address of DADDR where this module is DST. -/
structure Xfer where
  blk : Nat
  src : Nat
  dst : Nat
  dpa : Nat
  state : XferState
  deriving DecidableEq, Repr

/-- An open plan (R396); `missPas` are the physical addresses of the pages of MISS, `err` is the ERR its operations get, and `ops` are
the operations that joined it. -/
structure Plan where
  ctx : Nat
  id : Nat
  strict : Bool
  nocode : Bool
  miss : Nat
  missCap : Nat
  missPas : List Nat
  xfers : List Xfer
  misses : Nat
  missed : List Nat
  err : Nat
  digest : Nat
  digests : Tab Nat
  ops : List Nat
  deriving DecidableEq, Repr

/-- A frame of a flow (R410, R411): its bytes, $time at its last byte, and how the tag checks of its slot go. -/
structure Frame where
  flow : Nat
  bytes : List Byte
  time : Nat
  /-- whether the first write of the slot fails its tag check, and the lines that fail in the rewrite too -/
  tagFail : Bool
  badLines : List Nat
  /-- the FAULTED slot that the port is still to rewrite -/
  slot : Option Nat
  deriving DecidableEq, Repr

/-- An Ethernet port (R412): waiting frames, oldest first; the flows that starve, with the time since when; the priorities with a
pause in force, with the time of the last pause frame; the flows whose frames are dropped; and the management counters of the frames that failed their
FCS, were too long, or matched no flow (R410). -/
structure EthPort where
  frames : List Frame
  starve : Tab Nat
  paused : Tab Nat
  abandoned : List Nat
  fcsErrors : Nat
  tooLong : Nat
  unmatched : Nat
  deriving DecidableEq, Repr

/-- A checkpoint in progress (R413). -/
structure Ckpt where
  image : Nat
  hart : Nat
  rd : Nat
  stopped : List Nat
  deriving DecidableEq, Repr

/-- What the core held for a group whose context is saved (R339): tiles with their shape words and banks with their data in the order
of their numbers, the banks the group owned, the scratchpad with its poisoned words, and $clk. -/
structure Saved where
  base : W64
  own : W64
  pool : W64
  poolFree : W64
  passed : W64
  tiles : List (W32 × List Byte)
  bands : Tab (Band × List Byte)
  spad : List Byte
  spadPois : List Nat
  clk : Nat
  /-- closed packets by warp index * 4 + mailbox, and open ones with the warp's index for a slot (R184) -/
  mail : Tab (List (Tab Byte))
  mbOpen : List OpenPkt
  deriving DecidableEq, Repr

/-- An image of Heartwood (R413): what it keeps of device memory, and whether it is valid. The contexts in the save areas, and the grids
they belong to, are kept as the records that stand for them (log entry 27). -/
structure Image where
  valid : Bool
  cells : List (Nat × Byte)
  pois : List Nat
  grids : Tab Grid
  gangs : Tab Gang
  groups : Tab Group
  warps : Tab Warp
  saved : Tab Saved
  /-- its medium has an error, which a restore finds -/
  media : Bool
  deriving DecidableEq, Repr

/-- An inbound request of the PCIe link (R408). -/
inductive PcieReq where
  | read (pa size : Nat)
  | write (pa : Nat) (bytes : List Byte) (ep : Bool)
  deriving DecidableEq, Repr

/-- An MSI-X vector of the endpoint (R408): the address and data of its message, its mask bit, and its pending bit. The layout is PCIe's: log entry
59. -/
structure MsixVec where
  addr : W64
  data : W32
  masked : Bool
  pending : Bool
  deriving DecidableEq, Repr

/-- What a management bus outside the module reads (R410, R419). -/
inductive SideReg where
  /-- a management counter of an Ethernet port, over SMBus -/
  | fcsErrors (port : Nat)
  | tooLong (port : Nat)
  | unmatched (port : Nat)
  /-- dxpwr, over SMBus -/
  | power
  /-- dxboot, over JTAG -/
  | boot
  deriving DecidableEq, Repr

/-- An operation on the object table in progress (R373): its RESULT, and whether it registers or removes the object. -/
structure ObjOp where
  register : Bool
  result : Nat
  obj : Obj
  deriving DecidableEq, Repr

/-- The progress of a start (R417). -/
inductive BootPhase where
  | starting
  | up
  deriving DecidableEq, Repr

/-- The privilege modes of a hart. -/
inductive Mode where
  | u
  | s
  | m
  deriving DecidableEq, Repr

/-- A host transaction (R240, R241). -/
structure HostTx where
  reads : List Nat
  writes : List (Nat × Byte)
  pc : W64
  rd : Nat
  deriving DecidableEq, Repr

/-- A dx.wait in progress (R159). -/
structure HostWait where
  addr : W64
  deadline : Option Nat
  rd : Nat
  deriving DecidableEq, Repr

/-- A host hart (R407): the registers of RV64GCV with VLEN 256 and of the privileged architecture under the names that RISC-V gives them, whose layouts
are RISC-V's: log entry 11. -/
structure Hart where
  x : Vector W64 32
  f : Vector W64 32
  v : Vector (BitVec 256) 32
  pc : W64
  mode : Mode
  /-- frm and fflags -/
  fcsr : W64
  vstart : W64
  /-- vxrm and vxsat -/
  vcsr : W64
  vl : W64
  vtype : W64
  mstatus : W64
  medeleg : W64
  mideleg : W64
  mie : W64
  mip : W64
  mtvec : W64
  mcounteren : W64
  mscratch : W64
  mepc : W64
  mcause : W64
  mtval : W64
  menvcfg : W64
  /-- mcycle less the clocks since reset -/
  cycleOff : W64
  minstret : W64
  stvec : W64
  scounteren : W64
  senvcfg : W64
  sscratch : W64
  sepc : W64
  scause : W64
  stval : W64
  satp : W64
  dxctx : Nat
  tx : Option HostTx
  lr : Option Nat
  waiting : Option HostWait
  /-- dx.tend waits for its ticket (R240) -/
  commit : Bool
  deriving DecidableEq, Repr

/-- The issue in progress: which warp, its issue set, the addresses of its first and base words, the number of words and the
index of the issue in a REP; `cut` is the number of accesses that a memory instruction makes at its issue, 0 for all it can (R220). The model's own:
log entry 9. -/
structure Iss where
  key : Nat
  set : W32
  elig : W32
  pc : W64
  base : W64
  words : List Nat
  idx : Nat
  cut : Nat
  deriving DecidableEq, Repr

/-- Where an error of a code unit of an on-chip memory is found (R347). -/
inductive EccAt where
  /-- an L1 line, or a clean L2 sector -/
  | clean
  /-- a dirty L2 sector, by an address in it -/
  | dirty (pa : Nat)
  /-- a word of a core's scratchpad, by its offset -/
  | scratch (core off : Nat)
  /-- the vector registers of a slot of a core -/
  | vreg (core slot : Nat)
  /-- a tile of a core -/
  | tile (core t : Nat)
  /-- an accumulator bank of a core -/
  | bank (core b : Nat)
  deriving DecidableEq, Repr

/-- What moves next: the model's own input (log entry 8). -/
inductive Move where
  /-- a warp slot of a core issues -/
  | issue (core slot : Nat)
  /-- a warp slot of a core issues, and a memory instruction makes so many of its accesses at once (R220) -/
  | lanes (core slot n : Nat)
  /-- the memory instructions that a warp has under way make so many accesses, 0 for all they can (R214) -/
  | flights (w n : Nat)
  /-- one clock, in which quadrants, given as core * 4 + quadrant, choose by R95 and issue -/
  | clock (quads : List Nat)
  /-- a host hart fetches -/
  | hart (h : Nat)
  /-- a step of the hardware -/
  | hw (i : Instr)
  /-- clocks pass -/
  | tick (n : Nat)
  /-- a translation cache of a die takes in a translation -/
  | fillTlb (die ctx : Nat) (va : W64)
  /-- a core takes in a copy of the code word at an address for a warp -/
  | holdCode (core slot : Nat) (va : W64)
  /-- window stores that wait at a core, and whose wait is over, are performed (R176) -/
  | winRelease (core : Nat)
  /-- a grid completes whose last store has been performed, or whose signal word the lock has held back (R157) -/
  | complete (grid : Nat)
  /-- fault-queue entries that wait are written, as far as they can be (R331) -/
  | ringTurn
  /-- the home serves what waits for a unit (R366) -/
  | serveDir (unit : Nat)
  /-- an L2 replaces a line (R88) -/
  | replace (line : Nat)
  /-- a class-table entry is replaced (R190) -/
  | dropClass (key : Nat)
  /-- a directory entry is taken for another unit: its copies are recalled (R367) -/
  | dropDir (unit : Nat)
  /-- a single or a double error in an on-chip memory (R347) -/
  | ecc (double : Bool) (at_ : EccAt)
  /-- a reduction window of another module changes in the Glade tables (R383) -/
  | nodeWindow (m n : Nat) (v : W64)
  /-- the ingest engine serves a flow whose slot could not be written before (R412) -/
  | serveFlow (k : Nat)
  /-- the lane test of a start finds a physical lane of a quadrant that fails (R358, R417) -/
  | laneFails (core quad lane : Nat)
  /-- a warp of a paired copy and its twin are looked at (R356) -/
  | twins (w : Nat)
  /-- a port sends the first packet that waits and whose channel has a slot free (R378) -/
  | transmit (port : Nat)
  /-- the flits of a packet arrive at a port (R375 to R378) -/
  | flits (port : Nat) (bytes : List Byte)
  /-- the first packet of a channel that stands in a port's slots is served (R366, R378) -/
  | take (port vc : Nat)
  /-- another module answers a request with a TAG: data or a value with the marks of its sectors, or an acknowledgement (R371, R375) -/
  | answer (tag : Nat) (bytes : List Byte) (pois : Nat)
  /-- the oldest collective operation of a warp of a saved group retires (R403) -/
  | collRetire (w : Nat)
  /-- the first PCIe request that waits is served (R408) -/
  | pcie
  /-- the PCIe host writes an MSI-X vector, or the endpoint raises it (R408) -/
  | msixSet (n : Nat) (addr : W64) (data : W32) (masked : Bool)
  | msixRaise (n : Nat)
  /-- a management bus reads (R419) -/
  | sideRead (r : SideReg)
  /-- the medium of a Heartwood image gets an error (R413) -/
  | mediaError (image : Nat)
  /-- the home of an instance on another module tells that a participant of this module is done, with ERR (R391) -/
  | joinDone (opId err : Nat)
  /-- the Glade works on an open instance, or on a plan, in the order in which they were opened -/
  | glade (n : Nat)
  deriving DecidableEq, Repr

end Sys2Proof.Machine
end

