-- ==== Sys2Proof/Machine/Bits.lean ====
section
/-! DEFINITION. Bit fields, lane masks, register files and tables: the plain operations that every meaning uses. -/

namespace Sys2Proof.Machine

/-! ## Numbers and fields -/

/-- Bits [lo + n - 1 : lo] of a register value. -/
def bfld (v : W64) (lo n : Nat) : Nat := v.toNat / 2 ^ lo % 2 ^ n
/-- One bit of a register value. -/
def bbit (v : W64) (i : Nat) : Bool := v.getLsbD i
/-- v with bits [lo + n - 1 : lo] replaced by x. -/
def setFld (v : W64) (lo n x : Nat) : W64 :=
  BitVec.ofNat 64 (v.toNat - bfld v lo n * 2 ^ lo + x % 2 ^ n * 2 ^ lo)
/-- An n-bit field read as two's complement. -/
def sext (n v : Nat) : Int := if v % 2 ^ n < 2 ^ (n - 1) then (v % 2 ^ n : Nat) else (v % 2 ^ n : Nat) - (2 ^ n : Nat)
/-- A number as a 64-bit value, modulo 2^64. -/
def w64 (v : Int) : W64 := BitVec.ofInt 64 v
/-- A number as a 32-bit value, modulo 2^32. -/
def w32 (v : Int) : W32 := BitVec.ofInt 32 v
/-- 1 for true. -/
def b2n (b : Bool) : Nat := if b then 1 else 0

/-- R12: bits [63:57] all equal bit 56. -/
def canonical (v : W64) : Bool := bfld v 56 8 = 0 || bfld v 56 8 = 255

/-! ## Little-endian bytes (R5) -/

/-- The value of bytes, least significant first. -/
def leNat : List Byte → Nat
  | [] => 0
  | b :: r => b.toNat + 256 * leNat r
/-- The n bytes of a value, least significant first. -/
def leBytes : Nat → Nat → List Byte
  | 0, _ => []
  | n + 1, v => BitVec.ofNat 8 v :: leBytes n (v / 256)
def leW64 (bs : List Byte) : W64 := BitVec.ofNat 64 (leNat bs)

/-! ## Lane masks -/

/-- Bits 0 to n - 1 by a predicate, as a number. -/
def maskNat (p : Nat → Bool) : Nat → Nat
  | 0 => 0
  | n + 1 => maskNat p n + (if p n then 2 ^ n else 0)
/-- The mask whose bit t is p t. -/
def maskOf (p : Nat → Bool) : W32 := BitVec.ofNat 32 (maskNat p 32)
/-- The threads of a mask in ascending order. -/
def lanesOf (m : W32) : List Nat := (List.range 32).filter fun t => m.getLsbD t
/-- The set bits of a 64-bit value in ascending order. -/
def bitsOf (v : W64) : List Nat := (List.range 64).filter fun t => v.getLsbD t
def popW (v : W64) : Nat := (bitsOf v).length
def bit32 (t : Nat) : W32 := BitVec.ofNat 32 (2 ^ t)
def bit64 (t : Nat) : W64 := BitVec.ofNat 64 (2 ^ t)

/-! ## Register files

A file is a vector; a number outside it reads the default and writes nothing. -/

def vget {α : Type} {n : Nat} (d : α) (v : Vector α n) (i : Nat) : α := v.toList.getD i d
def vset {α : Type} {n : Nat} (v : Vector α n) (i : Nat) (a : α) : Vector α n := ⟨⟨v.toList.set i a⟩, by simp⟩
/-- The vector of f 0 to f (n - 1). -/
def vtab {α : Type} (n : Nat) (f : Nat → α) : Vector α n := ⟨⟨(List.range n).map f⟩, by simp⟩
def vmod {α : Type} {n : Nat} (d : α) (v : Vector α n) (i : Nat) (f : α → α) : Vector α n := vset v i (f (vget d v i))

/-! ## Tables -/

/-- The entry of a key. -/
def tget? {α : Type} : Tab α → Nat → Option α
  | [], _ => none
  | (k, a) :: r, i => if k = i then some a else tget? r i
def tget {α : Type} (d : α) (t : Tab α) (i : Nat) : α := (tget? t i).getD d
/-- The table with the entry of a key set, keys rising. -/
def tput {α : Type} : Tab α → Nat → α → Tab α
  | [], i, a => [(i, a)]
  | (k, b) :: r, i, a => if i < k then (i, a) :: (k, b) :: r else if i = k then (i, a) :: r else (k, b) :: tput r i a
/-- The table without a key. -/
def tdel {α : Type} : Tab α → Nat → Tab α
  | [], _ => []
  | (k, b) :: r, i => if k = i then tdel r i else (k, b) :: tdel r i
def tkeys {α : Type} (t : Tab α) : List Nat := t.map (·.1)

/-! ## Lists -/

/-- Consecutive numbers from a. -/
def rangeFrom (a n : Nat) : List Nat := (List.range n).map (a + ·)
/-- A list without repeats, first occurrences kept. -/
def dedup : List Nat → List Nat
  | [] => []
  | a :: r => a :: (dedup r).filter (· != a)
def insertNat (a : Nat) : List Nat → List Nat
  | [] => [a]
  | b :: r => if a < b then a :: b :: r else if a = b then b :: r else b :: insertNat a r
/-- A list as a rising list of numbers without repeats. -/
def sortNat (l : List Nat) : List Nat := l.foldl (fun acc a => insertNat a acc) []
def minOf : List Nat → Option Nat
  | [] => none
  | a :: r => match minOf r with | none => some a | some b => some (if b < a then b else a)
def maxOf (l : List Nat) : Nat := l.foldl max 0
/-- A list in the order of a measure, equal ones in their order. -/
def insertBy {α : Type} (f : α → Nat) (a : α) : List α → List α
  | [] => [a]
  | b :: r => if f b ≤ f a then b :: insertBy f a r else a :: b :: r
def sortBy {α : Type} (f : α → Nat) (l : List α) : List α := l.foldl (fun acc a => insertBy f a acc) []
/-- The list with the i-th element changed. -/
def lmod {α : Type} (l : List α) (i : Nat) (f : α → α) : List α :=
  match l, i with
  | [], _ => []
  | a :: r, 0 => f a :: r
  | a :: r, i + 1 => a :: lmod r i f

end Sys2Proof.Machine
end

