-- ==== Sys2Proof/Machine/Flags.lean ====
section
/-! DEFINITION. Floating-point values: the formats, exact values, rounding with its flags, and exact arithmetic (R75 to R84, R136,
R137).

An exact finite value is a sign, a natural number m and an exponent e: m * 2^e. An inexact intermediate is kept with one more low bit
set, far below the last bit of any format, so that every rounding of it is that of the exact value. -/

namespace Sys2Proof.Machine

/-! ## Flags (R80) -/

def flNV : Nat := 256
def flDZ : Nat := 512
def flOF : Nat := 1024
def flUF : Nat := 2048
def flNX : Nat := 4096

/-! ## Formats (R75) -/

/-- What the top codes of a format stand for. -/
inductive TopCode where
  | ieee
  | e4m3
  | none
  deriving DecidableEq, Repr

/-- A format: bits, fraction bits, bias. -/
structure Fmt where
  w : Nat
  frac : Nat
  bias : Nat
  top : TopCode
  deriving DecidableEq, Repr

def fmtF64 : Fmt := ⟨64, 52, 1023, .ieee⟩
def fmtF32 : Fmt := ⟨32, 23, 127, .ieee⟩
def fmtF16 : Fmt := ⟨16, 10, 15, .ieee⟩
def fmtBf16 : Fmt := ⟨16, 7, 127, .ieee⟩
def fmtE4m3 : Fmt := ⟨8, 3, 7, .e4m3⟩
def fmtE5m2 : Fmt := ⟨8, 2, 15, .ieee⟩
def fmtE2m1 : Fmt := ⟨4, 1, 1, .none⟩

def Fmt.expMax (f : Fmt) : Nat := 2 ^ (f.w - 1 - f.frac) - 1
def Fmt.sign (f : Fmt) (neg : Bool) : Nat := if neg then 2 ^ (f.w - 1) else 0
/-- The canonical NaN (R78). -/
def Fmt.nan (f : Fmt) : Nat := 2 ^ (f.w - 1) - 1
/-- The pattern of the largest finite magnitude. -/
def Fmt.big (f : Fmt) : Nat :=
  match f.top with
  | .ieee => f.expMax * 2 ^ f.frac - 1
  | .e4m3 => 2 ^ (f.w - 1) - 2
  | .none => 2 ^ (f.w - 1) - 1
def Fmt.inf (f : Fmt) : Nat := f.expMax * 2 ^ f.frac
/-- The exponent of the smallest normal. -/
def Fmt.emin (f : Fmt) : Int := 1 - f.bias

/-- A value a pattern stands for. -/
inductive FV where
  | nan (signalling : Bool)
  | inf (neg : Bool)
  | num (neg : Bool) (m : Nat) (e : Int)
  deriving DecidableEq, Repr

/-- The value of a pattern. -/
def Fmt.decode (f : Fmt) (x : Nat) : FV :=
  let neg := x.testBit (f.w - 1)
  let ex := x / 2 ^ f.frac % (f.expMax + 1)
  let fr := x % 2 ^ f.frac
  match f.top, decide (ex = f.expMax) with
  | .ieee, true => if fr = 0 then .inf neg else .nan (f.w != 8 && !fr.testBit (f.frac - 1))
  | .e4m3, true => if fr = 2 ^ f.frac - 1 then .nan false else .num neg (2 ^ f.frac + fr) (ex - f.bias - f.frac)
  | _, _ => if ex = 0 then .num neg fr (f.emin - f.frac) else .num neg (2 ^ f.frac + fr) (ex - f.bias - f.frac)

/-- The pattern is a subnormal number. -/
def Fmt.subnormal (f : Fmt) (x : Nat) : Bool := x / 2 ^ f.frac % (f.expMax + 1) = 0 && x % 2 ^ f.frac != 0
/-- The value of a source under the flush bit of its format (R82). -/
def Fmt.source (f : Fmt) (ftz : Bool) (x : Nat) : FV :=
  if ftz && f.subnormal x then .num (x.testBit (f.w - 1)) 0 0 else f.decode x

/-! ## Rounding (R79, R81, R82) -/

/-- m / 2^k rounded to an integer, and whether that is inexact. Under rno the lowest bit of the result is set, also of an integer that has
no fraction (R79, R83, R141): DESIGN CHOICE, log entry 45. -/
def roundShift (md : Rnd) (neg : Bool) (m k : Nat) : Nat × Bool :=
  let q := m / 2 ^ k
  let r := m % 2 ^ k
  if r = 0 then (q, false)
  else
    let up := match md with
      | .rne => decide (2 ^ k < 2 * r) || (decide (2 * r = 2 ^ k) && q % 2 = 1)
      | .rtz | .rno => false
      | .rup => !neg
      | .rdn => neg
      | .rna => decide (2 ^ k ≤ 2 * r)
    let v := if up then q + 1 else q
    (if md = .rno && v % 2 = 0 then v + 1 else v, true)

/-- m * 2^e in units of 2^q, rounded. -/
def roundAt (md : Rnd) (neg : Bool) (m : Nat) (e q : Int) : Nat × Bool :=
  if q ≤ e then (m * 2 ^ (e - q).toNat, false) else roundShift md neg m (q - e).toNat

/-- The exponent of the top bit of m * 2^e. -/
def topExp (m : Nat) (e : Int) : Int := Nat.log2 m + e

/-- m * 2^e < n * 2^d. -/
def magLt (m : Nat) (e : Int) (n : Nat) (d : Int) : Bool :=
  if d ≤ e then decide (m * 2 ^ (e - d).toNat < n) else decide (m < n * 2 ^ (d - e).toNat)

/-- The rounding of a nonzero magnitude with an unbounded exponent: overflow, tininess. -/
def Fmt.unbounded (f : Fmt) (md : Rnd) (neg : Bool) (m : Nat) (e : Int) : Bool × Bool :=
  let q := topExp m e - f.frac
  let r := (roundAt md neg m e q).1
  let l := f.decode f.big
  match l with
  | .num _ lm le => (magLt lm le r q, magLt r q 1 f.emin)
  | _ => (false, false)

/-- What an overflow delivers. -/
def Fmt.overflow (f : Fmt) (md : Rnd) (sat neg : Bool) : Nat :=
  let toInf := match md with
    | .rne | .rna => true
    | .rtz | .rno => false
    | .rup => !neg
    | .rdn => neg
  f.sign neg + (if toInf && !sat && f.top = .ieee then f.inf else f.big)

/-- The pattern of a magnitude rounded within the exponent range. -/
def Fmt.bounded (f : Fmt) (md : Rnd) (neg : Bool) (m : Nat) (e : Int) : Nat × Bool :=
  let q := max (topExp m e) f.emin - f.frac
  let r := roundAt md neg m e q
  (f.sign neg + (q + f.frac + f.bias - 1).toNat * 2 ^ f.frac + r.1, r.2)

/-- Round(x, format, mode) of a nonzero value, with its flags. -/
def Fmt.round (f : Fmt) (md : Rnd) (sat ftz neg : Bool) (m : Nat) (e : Int) : Nat × Nat :=
  let u := f.unbounded md neg m e
  if u.1 then (f.overflow md sat neg, flOF ||| flNX)
  else if ftz && u.2 then (f.sign neg, flUF ||| flNX)
  else
    let b := f.bounded md neg m e
    (b.1, if b.2 then flNX ||| (if u.2 then flUF else 0) else 0)

/-- The environment of a result: the mode, the flush bit of the format, SAT. -/
structure FEnv where
  md : Rnd
  ftz : Bool
  sat : Bool
  deriving DecidableEq, Repr

/-- A value delivered in a format; an invalid operation raises NV. -/
def Fmt.deliver (f : Fmt) (v : FEnv) (x : FV) (nv : Bool) : Nat × Nat :=
  let fl := if nv then flNV else 0
  match x with
  | .nan _ => (f.nan, fl)
  | .inf neg => (f.sign neg + (if f.top = .ieee then f.inf else f.big), fl)
  | .num neg m e =>
    if m = 0 then (f.sign neg, fl)
    else
      let r := f.round v.md v.sat v.ftz neg m e
      (r.1, r.2 ||| fl)

/-! ## Exact arithmetic (R136) -/

def FV.isNan : FV → Bool
  | .nan _ => true
  | _ => false
def FV.isSig : FV → Bool
  | .nan s => s
  | _ => false
def FV.neg : FV → Bool
  | .nan _ => false
  | .inf n => n
  | .num n _ _ => n
def FV.isZero : FV → Bool
  | .num _ 0 _ => true
  | _ => false
/-- The value with its sign changed. -/
def FV.flip : FV → FV
  | .nan s => .nan s
  | .inf n => .inf !n
  | .num n m e => .num (!n) m e
/-- The value times 2^k. -/
def FV.scale (x : FV) (k : Int) : FV :=
  match x with
  | .num n m e => .num n m (e + k)
  | y => y

/-- The product, and whether it is invalid. -/
def FV.mul (a b : FV) : FV × Bool :=
  let n := a.neg != b.neg
  match a, b with
  | .nan s, .nan t => (.nan false, s || t)
  | .nan s, _ => (.nan false, s)
  | _, .nan t => (.nan false, t)
  | .inf _, .inf _ => (.inf n, false)
  | .inf _, .num _ m _ => if m = 0 then (.nan false, true) else (.inf n, false)
  | .num _ m _, .inf _ => if m = 0 then (.nan false, true) else (.inf n, false)
  | .num _ m e, .num _ k d => (.num n (m * k) (e + d), false)

/-- A finite value in units of 2^q, for q no larger than its exponent. -/
def FV.units (q : Int) : FV → Int
  | .num n m e => (if n then -1 else 1) * (m * 2 ^ (e - q).toNat : Nat)
  | _ => 0
def FV.expo : FV → Int
  | .num _ m e => if m = 0 then 0 else e
  | _ => 0
/-- The smallest exponent of the nonzero terms. -/
def minExp (xs : List FV) : Int := (xs.filter fun x => !x.isZero).foldl (fun q x => min q x.expo) 4096

/-- The exact sum of terms, and whether it is invalid. A zero sum of zeros of one sign keeps it, another is +0, or -0 under rdn:
for the sums of R85 the spec states no such sign (DESIGN CHOICE, log entry 58). -/
def FV.sum (md : Rnd) (xs : List FV) : FV × Bool :=
  let infs := xs.filter fun x => match x with | .inf _ => true | _ => false
  if infs.any FV.neg && infs.any (fun x => !x.neg) then (.nan false, true)
  else if xs.any FV.isNan then (.nan false, xs.any FV.isSig)
  else
    match infs with
    | x :: _ => (.inf x.neg, false)
    | [] =>
      let q := minExp xs
      let t := (xs.map (FV.units q)).sum
      if t = 0 then
        let neg := if xs.all fun x => x.isZero && x.neg then true
          else if xs.all fun x => x.isZero && !x.neg then false
          else md = .rdn
        (.num neg 0 0, false)
      else (.num (t < 0) t.natAbs q, false)

/-- The quotient, whether it is invalid, and whether a finite nonzero value was divided by zero. -/
def FV.div (a b : FV) : FV × Bool × Bool :=
  let n := a.neg != b.neg
  match a, b with
  | .nan s, .nan t => (.nan false, s || t, false)
  | .nan s, _ => (.nan false, s, false)
  | _, .nan t => (.nan false, t, false)
  | .inf _, .inf _ => (.nan false, true, false)
  | .inf _, .num _ _ _ => (.inf n, false, false)
  | .num _ _ _, .inf _ => (.num n 0 0, false, false)
  | .num _ m e, .num _ k d =>
    if k = 0 then (if m = 0 then (.nan false, true, false) else (.inf n, false, true))
    else if m = 0 then (.num n 0 0, false, false)
    else
      let x := m * 2 ^ 140
      (.num n (2 * (x / k) + (if x % k = 0 then 0 else 1)) (e - d - 141), false, false)

/-- a < b of ordered values. -/
def FV.lt (a b : FV) : Bool :=
  match a, b with
  | .nan _, _ | _, .nan _ => false
  | .inf n, .inf k => n && !k
  | .inf n, .num _ _ _ => n
  | .num _ _ _, .inf k => !k
  | .num _ _ _, .num _ _ _ => let q := minExp [a, b]; decide (a.units q < b.units q)
def FV.eq (a b : FV) : Bool :=
  match a, b with
  | .nan _, _ | _, .nan _ => false
  | .inf n, .inf k => n = k
  | .num _ _ _, .num _ _ _ => let q := minExp [a, b]; decide (a.units q = b.units q)
  | _, _ => false

/-- FMIN and FMAX of two patterns as read (R137): the pattern delivered, and NV. -/
def Fmt.minmax (f : Fmt) (ftz big : Bool) (a b : Nat) : Nat × Nat :=
  let x := f.source ftz a
  let y := f.source ftz b
  let read := fun n : Nat => if ftz && f.subnormal n then f.sign (n.testBit (f.w - 1)) else n % 2 ^ f.w
  let fl := if x.isSig || y.isSig then flNV else 0
  let less := x.lt y || (x.eq y && x.neg && !y.neg)
  let v := if x.isNan && y.isNan then f.nan
    else if x.isNan then read b
    else if y.isNan then read a
    else if less != big then read a else read b
  (v, fl)

/-! ## Values the functions of FUN need (R140, R141)

Each is formed with more than 200 bits after its leading bit. None of the results is a value of a format or halfway between two, so one
more low bit stands for the rest. -/

/-- Fraction bits of the working values. -/
def funBits : Nat := 320
/-- pi * 2^1400, and ln 2 * 2^400, rounded down. -/
def piBits : Nat :=
  (((0x3243f6a8885a308d313198a2e03707344a4093822299f31d0082efa98ec4e6c89452821e638d01377) * 2 ^ 360 +
    0xbe5466cf34e90c6cc0ac29b7c97c50dd3f84d5b5b54709179216d5d98979fb1bd1310ba698dfb5ac2ffd72dbd0) * 2 ^ 360 +
    0x1adfb7b8e1afed6a267e96ba7c9045f12c7f9924a19947b3916cf70801f2e2858efc16636920d871574e69a458) * 2 ^ 360 +
    0xfea3f4933d7e0d95748f728eb658718bcd5882154aee7b54a41dc25a59b59c30d5392af26013c5d1b023286085
def ln2Bits : Nat := 0xb17217f7d1cf79abc9e3b39803f2f6af40f343267298b62d8a0d175b8baafa2be7b876206debac98559552fb4afa1b10ed2e

/-- The value below 2 * q + 1 in units of 2^k. -/
def inexactly (neg : Bool) (q : Nat) (k : Int) : FV := .num neg (2 * q + 1) (k - 1)
/-- Just above (up) or just below a magnitude. -/
def nudge (neg : Bool) (m : Nat) (e : Int) (up : Bool) : FV :=
  .num neg (if up then m * 2 ^ 300 + 1 else m * 2 ^ 300 - 1) (e - 300)

/-- A number of bits P and terms of a series: acc + t + t * x / (d * ...) ... for the exponential of x / 2^P. -/
def expSeries (P x : Nat) : Nat → Nat → Nat → Nat → Nat
  | 0, _, _, acc => acc
  | n + 1, i, t, acc =>
    let t' := t * x / 2 ^ P / i
    expSeries P x n (i + 1) t' (acc + t')
/-- exp(x / 2^P) * 2^P for x below 2^P. -/
def expFix (P x : Nat) : Nat := expSeries P x 100 1 (2 ^ P) (2 ^ P)

/-- The alternating series of sine and cosine: terms t * x2 / (i * (i + 1)). -/
def trigSeries (P x2 : Nat) : Nat → Nat → Nat → Int → Int → Int
  | 0, _, _, _, acc => acc
  | n + 1, i, t, sg, acc =>
    let t' := t * x2 / 2 ^ P / (i * (i + 1))
    trigSeries P x2 n (i + 2) t' (-sg) (acc + sg * t')
def sinFix (P x : Nat) : Nat := (trigSeries P (x * x / 2 ^ P) 60 2 x (-1) x).toNat
def cosFix (P x : Nat) : Nat := (trigSeries P (x * x / 2 ^ P) 60 1 (2 ^ P) (-1) (2 ^ P : Nat)).toNat

/-- 2 * atanh(z / 2^P) * 2^P for z at most 2^P / 3. -/
def atanhSeries (P z2 : Nat) : Nat → Nat → Nat → Nat → Nat
  | 0, _, _, acc => acc
  | n + 1, i, t, acc => atanhSeries P z2 n (i + 2) (t * z2 / 2 ^ P) (acc + t / i)
def lnFix (P u : Nat) : Nat :=
  let z := (u - 2 ^ P) * 2 ^ P / (u + 2 ^ P)
  2 * atanhSeries P (z * z / 2 ^ P) 110 1 z 0

/-- m * 2^e is below 2^-100. -/
def tinyMag (m : Nat) (e : Int) : Bool := topExp m e < -100
/-- m * 2^e in units of 2^-p, rounded down. -/
def fixAt (m : Nat) (e : Int) (p : Nat) : Nat := if 0 ≤ e + p then m * 2 ^ (e + p).toNat else m / 2 ^ (-(e + p)).toNat

/-- The square root of m * 2^e, m not 0. -/
def sqrtMag (m : Nat) (e : Int) : FV :=
  let odd := e % 2 != 0
  let m' := if odd then 2 * m else m
  let e' := if odd then e - 1 else e
  let r := Nat.sqrt (m' * 2 ^ 200)
  .num false (2 * r + (if r * r = m' * 2 ^ 200 then 0 else 1)) (e' / 2 - 101)
/-- The reciprocal of the square root. -/
def rsqMag (m : Nat) (e : Int) : FV :=
  let odd := e % 2 != 0
  let m' := if odd then 2 * m else m
  let e' := if odd then e - 1 else e
  let n := 2 ^ 600 / m'
  let r := Nat.sqrt n
  .num false (2 * r + (if r * r * m' = 2 ^ 600 then 0 else 1)) (-(e' / 2) - 301)

/-- 2^x for x = (-1)^neg * m * 2^e, m not 0. -/
def exp2Mag (neg : Bool) (m : Nat) (e : Int) : FV :=
  let s : Int := if neg then -1 else 1
  if 15 ≤ topExp m e then .num false 3 (s * 20000)
  else if 0 ≤ e || m % 2 ^ (-e).toNat = 0 then .num false 1 (s * fixAt m e 0)
  else if tinyMag m e then nudge false 1 0 (!neg)
  else
    let x : Int := s * fixAt m e funBits
    let n := x / (2 ^ funBits : Nat)
    let f := (x % (2 ^ funBits : Nat)).toNat
    inexactly false (expFix funBits (f * ln2Bits / 2 ^ 400)) (n - funBits)

/-- log2 of m * 2^e, m not 0. -/
def log2Mag (m : Nat) (e : Int) : FV :=
  let k := Nat.log2 m
  let n : Int := e + k
  if m = 2 ^ k then .num (n < 0) n.natAbs 0
  else
    let t : Int := n * (2 ^ funBits : Nat) + (lnFix funBits (m * 2 ^ funBits / 2 ^ k) * 2 ^ 400 / ln2Bits : Nat)
    inexactly (t < 0) t.natAbs (-funBits)

/-- The quadrant of x = m * 2^e, and the rest in units of 2^-funBits. -/
def reduceTrig (m : Nat) (e : Int) : Nat × Nat :=
  let x := 2 * fixAt m e 1400
  (x / piBits % 4, x % piBits / 2 ^ (1401 - funBits))
/-- Sine (turn 0) or cosine (turn 1) of (-1)^neg * m * 2^e, m not 0. -/
def trigMag (turn : Nat) (neg : Bool) (m : Nat) (e : Int) : FV :=
  if tinyMag m e then (if turn = 0 then nudge neg m e false else nudge false 1 0 false)
  else
    let r := reduceTrig m e
    let q := (r.1 + turn) % 4
    let v := if q % 2 = 0 then sinFix funBits r.2 else cosFix funBits r.2
    let v' := if 2 ^ funBits ≤ v then 2 ^ funBits - 1 else v
    inexactly ((decide (2 ≤ q)) != (neg && turn = 0)) v' (-funBits)

/-- The hyperbolic tangent of (-1)^neg * m * 2^e, m not 0. -/
def tanhMag (neg : Bool) (m : Nat) (e : Int) : FV :=
  if tinyMag m e then nudge neg m e false
  else if 8 ≤ topExp m e then nudge neg 1 0 false
  else
    let x := 2 * fixAt m e funBits
    let ln2 := ln2Bits / 2 ^ (400 - funBits)
    let a := expFix funBits (x % ln2) * 2 ^ (x / ln2)
    inexactly neg ((a - 2 ^ funBits) * 2 ^ funBits / (a + 2 ^ funBits)) (-funBits)

end Sys2Proof.Machine
end

