-- ==== Sys2Proof/Machine/Arith.lean ====
section
/-! DEFINITION. The functions of two elements that lanes, reductions and atomics share: integer types, float addition, and the function of an
atomic (R72, R73, R87, R128, R218). -/

namespace Sys2Proof

/-! ## Integer types (R72, R73) -/

def IntTy.w : IntTy → Nat
  | .i8 | .n8 => 8 | .i16 | .n16 => 16 | .i32 | .n32 => 32 | .i64 | .n64 => 64
def IntTy.signed : IntTy → Bool
  | .i8 | .i16 | .i32 | .i64 => true
  | _ => false
/-- The width of a type in registers. -/
def IntTy.regs (t : IntTy) : Nat := if IntTy.w t = 64 then 2 else 1
/-- The value of the low w bits. -/
def IntTy.val (t : IntTy) (n : Nat) : Int :=
  if IntTy.signed t then Machine.sext (IntTy.w t) n else ((n % 2 ^ IntTy.w t : Nat) : Int)
/-- The smallest and largest values. -/
def IntTy.lo (t : IntTy) : Int := if IntTy.signed t then -(2 ^ (IntTy.w t - 1) : Nat) else 0
def IntTy.hi (t : IntTy) : Int := if IntTy.signed t then (2 ^ (IntTy.w t - 1) : Nat) - 1 else (2 ^ IntTy.w t : Nat) - 1
/-- Wrap, or Sat under SAT (R73), as the value of the type. -/
def IntTy.narrow (t : IntTy) (sat : Bool) (x : Int) : Int :=
  if sat then max (IntTy.lo t) (min (IntTy.hi t) x) else IntTy.val t (x % (2 ^ IntTy.w t : Nat)).toNat
/-- The register image of a result: extended to 32 bits by the type, or 64 bits (R72). -/
def IntTy.image (t : IntTy) (sat : Bool) (x : Int) : W64 := Machine.w64 (IntTy.narrow t sat x)

end Sys2Proof

namespace Sys2Proof.Machine

/-- The low w bits of a value as a pattern. -/
def IntTy.pat (t : IntTy) (x : Int) : Nat := (x % (2 ^ IntTy.w t : Nat)).toNat

/-- An integer function of two values of a type. -/
def intFn (f : IntFn) (t : IntTy) (a b : Int) : Int :=
  match f with
  | .add => a + b
  | .min => min a b
  | .max => max a b
  | .and => IntTy.val t (IntTy.pat t a &&& IntTy.pat t b)
  | .or => IntTy.val t (IntTy.pat t a ||| IntTy.pat t b)
  | .xor => IntTy.val t (IntTy.pat t a ^^^ IntTy.pat t b)

def elem (xs : List Nat) (i : Nat) : Nat := xs.getD i 0

def fAddE (v : FEnv) (f : Fmt) (xs : List Nat) : Nat × Nat :=
  let r := FV.sum v.md [f.source v.ftz (elem xs 0), f.source v.ftz (elem xs 1)]
  f.deliver v r.1 r.2
/-- A float function of two patterns: the pattern and the flags. -/
def fltFn (f : FltFn) (v : FEnv) (fm : Fmt) (a b : Nat) : Nat × Nat :=
  match f with
  | .fadd => fAddE v fm [a, b]
  | .fmin => fm.minmax v.ftz false a b
  | .fmax => fm.minmax v.ftz true a b

/-! ## Elements of atomics (R88, R218) -/

def atomFmt : AtomFp → Fmt
  | .f64 => fmtF64
  | .f32 => fmtF32
  | .f16 => fmtF16
  | .bf16 => fmtBf16
  | .e4m3 => fmtE4m3
  | .e5m2 => fmtE5m2
def narrowFp : AtomFp → Bool
  | .f64 | .f32 => false
  | _ => true
/-- Memory-side arithmetic: no flush, no saturation (R218). -/
def memEnv (md : Rnd) : FEnv := ⟨md, false, false⟩
/-- A narrow pattern as an f32. -/
def widen (f : Fmt) (x : Nat) : Nat := (fmtF32.deliver (memEnv .rne) (f.decode x) false).1
/-- An f32 pattern rounded to a format. -/
def narrowTo (f : Fmt) (x : Nat) : Nat := (f.deliver (memEnv .rne) (fmtF32.decode x) false).1

def AtomOp.bytes : AtomOp → Nat
  | .int _ t | .swap t | .cas t => IntTy.w t / 8
  | .flt _ t => (atomFmt t).w / 8
/-- F of R218 on patterns. -/
def AtomOp.apply (op : AtomOp) (md : Rnd) (old x c : Nat) : Nat :=
  match op with
  | .int f t => IntTy.pat t (intFn f t (IntTy.val t old) (IntTy.val t x))
  | .swap t => x % 2 ^ IntTy.w t
  | .cas t => if old % 2 ^ IntTy.w t = c % 2 ^ IntTy.w t then x % 2 ^ IntTy.w t else old % 2 ^ IntTy.w t
  | .flt f t => (fltFn f (memEnv md) (atomFmt t) old (x % 2 ^ (atomFmt t).w)).1
/-- A narrow fadd. -/
def AtomOp.narrow : AtomOp → Bool
  | .flt .fadd t => narrowFp t
  | _ => false

end Sys2Proof.Machine
end

