-- ==== Sys2Proof/Machine/State.lean ====
section
/-! DEFINITION. The state of one module: everything the manual gives it, as plain data.

A register the manual gives no reset value is marked in State.reset with the log entry that names the value. -/

namespace Sys2Proof.Machine

/-- Why the machine stops. -/
inductive Fault where
  /-- The module has no power (R413): a step after a power loss and before the next start. Raised by `step` alone; safe. -/
  | unpowered
  deriving DecidableEq, Repr

/-- What the model refuses. -/
inductive Refusal where
  /-- An instruction without a meaning. Raised by no meaning; safe. -/
  | notModelled (mnemonic : String)
  deriving DecidableEq, Repr

/-- The state of the module. -/
structure State where
  /-- bytes by physical address (R171), in canonical form -/
  mem : List Host.Cell
  /-- poisoned units by the address of their first byte (R341) -/
  poison : List Nat
  /-- FP32 shadows by line (R88) -/
  shadows : Tab Shadow
  /-- class tables by unit address (R190) -/
  classes : Tab ClassEntry
  /-- translation caches (R189) -/
  tlb : List TlbEntry
  /-- invalidations in progress, by the core that started each (R189) -/
  invals : Tab Inval
  /-- $pkg (R17) -/
  pkg : Nat
  /-- picoseconds since the time base was set: $time is this div 1000 (R17) -/
  ps : Nat
  /-- arithmetic clocks since the module's reset (R17) -/
  cycles : Nat
  /-- the value of `cycles` at the last reset of a die's cores, for a die that has been reset since (R17, R382) -/
  dieSince : Tab Nat
  /-- the next grid identifier (R149) -/
  nextGrid : Nat
  grids : Tab Grid
  gangs : Tab Gang
  groups : Tab Group
  warps : Tab Warp
  cores : Tab Core
  saved : Tab Saved
  /-- $tick (R229) -/
  ticket : Nat
  /-- the ticket the ticket unit has reached (R234) -/
  served : Nat
  commits : List (Nat × Commit)
  lock : Option Lock
  lockQueue : List LockWait
  /-- transaction slots in use (R226) -/
  txSlots : List Nat
  /-- TXB issues that wait for a slot: warp and issue set (R233) -/
  slotQueue : List (Nat × W32)
  /-- remote stores by number (R204) -/
  remote : Tab Remote
  nextRemote : Nat
  dxctb : W64
  dxfq : W64
  /-- dxfqst.PEND (R329) -/
  pend : Nat
  /-- entries that wait for room, oldest first; HELD is their number (R331) -/
  heldFaults : List HeldFault
  /-- entries written since dxfq was written (R329) -/
  ringWritten : Nat
  faultSeq : Nat
  dxcorr : W64
  dxpois : W64
  dxsnap : W64
  snapCount : Nat
  /-- the latch time of the snapshot in progress (R360) -/
  snapAt : Option Nat
  /-- the core records of the snapshot have been latched (R360) -/
  snapLatched : Option (List (Nat × List W64))
  /-- dxobj as last written or answered (R373) -/
  dxobj : W64
  objPending : Option ObjOp
  objects : List Obj
  dxrtsel : Nat
  routes : Vector W64 32
  linkReplay : Nat
  linkDown : Nat
  linkBad : Nat
  modq : W32
  hubq : BitVec 4
  dieq : BitVec 24
  /-- identifiers whose purge has not been acknowledged by every home (R382) -/
  purges : Tab (List Nat)
  dxrw : Vector W64 16
  /-- windows of other modules with NODE = 1 in the Glade tables, by module * 16 + window (R383) -/
  nodeWins : Tab W64
  partials : Tab Partial
  ports : Tab Port
  dir : Tab DirEntry
  /-- the units with a directory entry, the one used longest ago first (R367) -/
  dirOrder : List Nat
  holders : Tab LineState
  /-- what other modules have been asked for, by TAG (R375) -/
  asks : Tab Ask
  nextTag : Nat
  /-- the die and TAG of the packet that is being served, to which an answer goes (R375) -/
  replyTo : Nat × Nat
  instances : List Instance
  closedIds : List (Nat × Nat)
  /-- Joins that wait at their hub for a full quarter (R391) -/
  joinWait : List JoinPkt
  side : List SideEntry
  sideUse : Nat
  plans : List Plan
  /-- digests of plans that are not open here yet: context, plan, module, digest (R396) -/
  digests : List (Nat × Nat × Nat × Nat)
  /-- digests of plans that have ended here before they came: context, plan, module (R396) -/
  digestsDue : List (Nat × Nat × Nat)
  xqCoded : Nat
  xqMisses : Nat
  nextOp : Nat
  dxflsel : W64
  flows : Tab (Vector W64 4)
  eth : Tab EthPort
  dxpcw : W64
  /-- PCIe requests that wait, oldest first (R408) -/
  pcieQ : List PcieReq
  msix : Vector MsixVec 64
  images : Vector Image 5
  ckpt : Option Ckpt
  bands : Vector W64 16
  clkMhz : Nat
  /-- the clock of a plan that has not taken effect yet (R414) -/
  clkNext : Option Nat
  clkFail : Nat
  clkFix : BitVec 16
  throttle : Bool
  amps : Nat
  thrEvents : Nat
  /-- since when the current and the power have stayed below the limits (R416) -/
  quietSince : Option Nat
  bootReason : Nat
  bootAttempts : Nat
  bootMinimal : Bool
  boot : BootPhase
  /-- what the Heartwood boot area holds of Understory and the host firmware: bytes with the addresses to which they are loaded (R417) -/
  bootArea : List Host.Cell
  powered : Bool
  outbox : List Out
  harts : Tab Hart
  moves : List Move
  iss : Iss
  deriving DecidableEq, Repr

/-- R22, R91: a thread as dispatch starts it. -/
def Thread.start (pc : W64) : Thread :=
  { pc := pc, status := .eligible, wait := 0, frozen := false, bcur := 0, retry := 0, code := 0, detail := 0, tx := none,
    irr := false }

def Barrier.start : Barrier := ⟨0, []⟩

/-- R287 and R280: a band with no state. -/
def Band.zero : Band :=
  { state := .checked, ty := .none, lastInt := false, mask := 0, cr := Vector.replicate 128 0, cc := Vector.replicate 32 0,
    mr := Vector.replicate 128 0, mc := Vector.replicate 32 0, record := [], complete := true, colMask := 0, located := none }

/-- R22, R91, R165, R239, R282, R318: a warp as dispatch starts it, before the launch's own values. -/
def Warp.start : Warp :=
  { group := 0, index := 0, cls := 2, baseRegs := 8
    threads := Vector.replicate 32 (Thread.start 0)
    sregs := Vector.replicate 160 0
    vregs := Vector.replicate 128 (Vector.replicate 32 0)
    mregs := Vector.replicate 8 0
    cur := none, rprog := 0, rprogPc := 0, fpmode := 0, part := 5
    evp := 0, evm := 0, evh := Vector.replicate 16 0, evbind := Vector.replicate 4 none
    parks := [], bar := Barrier.start, meets := Vector.replicate 8 ⟨false, 0, 0, 0⟩
    tokPend := Vector.replicate 8 0, tokErr := 0
    qcopy := 0, qgath := 0, qmat := 0, qcoll := 0, copyQ := [], gathQ := [], collQ := [], xstat := 0, reports := []
    cmask := 0, txlim := 4
    mmode := 0, mfault := 0, mcorr := 0, mtol := Vector.replicate 5 0x0080000039800000
    mchecks := [], trapc := 0, trapa := 0, trappc := 0, trapm := 0, tvec := 0, shown := [], handler := false, hset := 0, trapAt := 0
    service := none, cover := none, vext := 0, acch := 0, code := [], win := none, readyAt := 0, formed := false, flights := [] }

/-- The slot after reset: FREE (R152). -/
def SlotEntry.free : SlotEntry := ⟨0, [0, 0, 0, 0, 0, 0, 0]⟩

/-- R175: the shape word at reset. -/
def shapeReset : W32 := 0x7FF0

/-- A core after reset. -/
def Core.reset : Core :=
  { slots := []
    rr := Vector.replicate 4 15            -- DESIGN CHOICE, log entry 10
    shapes := Vector.replicate 16 shapeReset
    bands := [], mail := [], mbOpen := [], mbWait := [], tileWait := []
    mbdrop := 0                            -- DESIGN CHOICE, log entry 5
    tinva := 0, tinvc := 0
    skip := Vector.replicate 4 32, oos := Vector.replicate 4 false, suspect := [], spareBad := Vector.replicate 4 false, mending := []
    copyRR := 63, gathRR := 63             -- DESIGN CHOICE, log entry 10
    array := none
    arrayLast := 127                       -- DESIGN CHOICE, log entry 10
    pairHold := none
    nextOp := 0, issues := 0 }

/-- A host hart after reset: PRESUMED, log entry 11. -/
def Hart.reset : Hart :=
  { x := Vector.replicate 32 0, f := Vector.replicate 32 0, v := Vector.replicate 32 0, pc := 0, mode := .m, fcsr := 0, vstart := 0, vcsr := 0
    vl := 0, vtype := 0x8000000000000000, mstatus := 0, medeleg := 0, mideleg := 0, mie := 0, mip := 0, mtvec := 0, mcounteren := 0
    mscratch := 0, mepc := 0, mcause := 0, mtval := 0, menvcfg := 0, cycleOff := 0, minstret := 0, stvec := 0
    scounteren := 0, senvcfg := 0, sscratch := 0, sepc := 0, scause := 0, stval := 0, satp := 0, dxctx := 0, tx := none, lr := none
    waiting := none, commit := false }

/-- A port after reset (R377, R378). -/
def Port.reset : Port :=
  { queue := [], slots := [], expect := 0, nak := false, nextSeq := 0, unacked := [], sent := [0, 0, 0, 0], ret := [0, 0, 0, 0], freed := [0, 0, 0, 0]
    resends := 0, ackAt := 0, down := false }

/-- The module right after reset. -/
def State.reset : State :=
  { mem := []                              -- DESIGN CHOICE, log entry 1
    poison := [], shadows := [], classes := [], tlb := [], invals := []
    pkg := 0                               -- DESIGN CHOICE, log entry 2
    ps := 0                                -- DESIGN CHOICE, log entry 3
    cycles := 0, dieSince := []
    nextGrid := 1                          -- DESIGN CHOICE, log entry 4
    grids := [], gangs := [], groups := [], warps := [], cores := [], saved := []
    ticket := 0, served := 0, commits := [], lock := none, lockQueue := [], txSlots := [], slotQueue := []
    remote := [], nextRemote := 0
    dxctb := 0, dxfq := 0, pend := 0, heldFaults := [], ringWritten := 0, faultSeq := 0
    dxcorr := 0, dxpois := 0, dxsnap := 0, snapCount := 0, snapAt := none, snapLatched := none
    dxobj := 0, objPending := none, objects := []
    dxrtsel := 0, routes := Vector.replicate 32 0, linkReplay := 0, linkDown := 0, linkBad := 0, modq := 0, hubq := 0, dieq := 0, purges := []
    dxrw := Vector.replicate 16 0x100, nodeWins := [], partials := [], ports := [], dir := [], dirOrder := [], holders := []
    asks := [], nextTag := 0, replyTo := (0, 0)
    instances := [], closedIds := [], joinWait := [], side := [], sideUse := 0, plans := [], digests := [], digestsDue := [], xqCoded := 0, xqMisses := 0
    nextOp := 0
    dxflsel := 0                           -- DESIGN CHOICE, log entry 5
    flows := [], eth := []
    dxpcw := 0                             -- DESIGN CHOICE, log entry 5
    pcieQ := [], msix := Vector.replicate 64 ⟨0, 0, true, false⟩        -- PRESUMED, log entry 59
    images := Vector.replicate 5 ⟨false, [], [], [], [], [], [], [], false⟩   -- DESIGN CHOICE, log entry 6
    ckpt := none
    bands := Vector.replicate 16 0         -- DESIGN CHOICE, log entry 5
    clkMhz := 800, clkNext := none, clkFail := 0, clkFix := 0
    throttle := false, amps := 0, thrEvents := 0, quietSince := none
    bootReason := 0, bootAttempts := 0, bootMinimal := false, boot := .starting
    bootArea := []                         -- DESIGN CHOICE, log entry 6
    powered := true
    outbox := []
    harts := []                            -- PRESUMED, log entry 11
    moves := []                            -- DESIGN CHOICE, log entry 8
    iss := ⟨0, 0, 0, 0, 0, [], 0, 0⟩ }          -- DESIGN CHOICE, log entry 9

end Sys2Proof.Machine
end

