-- ==== Sys2Proof/Machine/Memory.lean ====
section
/-! DEFINITION. Memory as one list of cells in canonical form, its poison, and wider accesses built from single bytes.

Addresses are physical (R171). A byte nothing has written reads 0 (log entry 1). Little-endian (R5). -/

namespace Sys2Proof.Machine

/-- The byte at an address. -/
def Memory.read : List Host.Cell → Nat → Byte
  | [], _ => 0
  | (k, b) :: r, a => if k = a then b else if a < k then 0 else Memory.read r a

/-- Memory with one byte written; writing 0 removes the entry. -/
def Memory.write : List Host.Cell → Nat → Byte → List Host.Cell
  | [], a, b => if b = 0 then [] else [(a, b)]
  | (k, c) :: r, a, b =>
    if a < k then (if b = 0 then (k, c) :: r else (a, b) :: (k, c) :: r)
    else if a = k then (if b = 0 then r else (a, b) :: r)
    else (k, c) :: Memory.write r a b

/-- All addresses are above a bound and rise, and no byte is 0. -/
def Memory.wfFrom : Nat → List Host.Cell → Bool
  | _, [] => true
  | lo, (k, b) :: r => decide (lo ≤ k) && decide (b ≠ 0) && Memory.wfFrom (k + 1) r
/-- The canonical form. -/
def Memory.wf (m : List Host.Cell) : Bool := Memory.wfFrom 0 m

/-- Consecutive bytes. -/
def Memory.readBytes (m : List Host.Cell) (a n : Nat) : List Byte := (List.range n).map fun i => Memory.read m (a + i)
def Memory.writeBytes (m : List Host.Cell) : Nat → List Byte → List Host.Cell
  | _, [] => m
  | a, b :: r => Memory.writeBytes (Memory.write m a b) (a + 1) r

/-- The n bytes from an address take the values of f. -/
def Memory.fill (m : List Host.Cell) (a n : Nat) (f : Nat → Byte) : List Host.Cell :=
  (m.filter fun c => c.1 < a) ++
  ((List.range n).filterMap fun i => if f (a + i) = 0 then none else some (a + i, f (a + i))) ++
  (m.filter fun c => a + n ≤ c.1)

/-- The offset of a physical address in its core window, or none outside them (R3, R171). -/
def windowOffset (pa : Nat) : Option Nat :=
  let l := pa % 2 ^ 48
  if 0x7F0000000000 ≤ l && l < 0x7F0000000000 + 24 * 2 ^ 32 && l % 2 ^ 32 < 48 * 2 ^ 26 then some (l % 2 ^ 26) else none
/-- The module-wide core number of a window address (R2, R171). -/
def windowCore (pa : Nat) : Nat := (pa % 2 ^ 48 - 0x7F0000000000) / 2 ^ 32 * 48 + pa % 2 ^ 32 / 2 ^ 26
/-- The base of a core's window (R3). -/
def windowBase (pkg core : Nat) : Nat := pkg * 2 ^ 48 + 0x7F0000000000 + core / 48 * 2 ^ 32 + core % 48 * 2 ^ 26

/-- The first byte of the poison unit of an address: a 4-byte scratchpad word, else a 32-byte sector (R341). -/
def poisonUnit (pa : Nat) : Nat :=
  match windowOffset pa with
  | some _ => pa / 4 * 4
  | none => pa / 32 * 32
/-- The size of the poison unit of an address. -/
def poisonSize (pa : Nat) : Nat := if (windowOffset pa).isSome then 4 else 32
/-- R341: what can hold poison, device memory and the scratchpad. -/
def holdsPoison (pa : Nat) : Bool :=
  match windowOffset pa with
  | some o => o < 0xC0000
  | none => true

/-- The poison units that bytes touch. -/
def unitsOf (pa n : Nat) : List Nat := dedup ((List.range n).map fun i => poisonUnit (pa + i))

/-- A byte carries poison. -/
def State.poisoned (s : State) (pa : Nat) : Bool := s.poison.contains (poisonUnit pa)
def State.poisonedIn (s : State) (pa n : Nat) : Bool := (unitsOf pa n).any s.poison.contains

/-- Mark units as poisoned (R342). -/
def State.setPoison (s : State) (units : List Nat) : State :=
  { s with poison := units.foldl (fun acc u => insertNat u acc) s.poison }
/-- The units a write covers whole: it clears their marks (R342). -/
def coveredUnits (pa n : Nat) : List Nat := (unitsOf pa n).filter fun u => pa ≤ u && u + poisonSize u ≤ pa + n

/-- Bytes written at a physical address, with the marks of whole units cleared (R342). -/
def State.putBytes (s : State) (pa : Nat) (bs : List Byte) : State :=
  { s with mem := Memory.writeBytes s.mem pa bs
           poison := s.poison.filter fun u => !(coveredUnits pa bs.length).contains u }
def State.getBytes (s : State) (pa n : Nat) : List Byte := Memory.readBytes s.mem pa n
def State.getNat (s : State) (pa n : Nat) : Nat := leNat (s.getBytes pa n)
def State.getW64 (s : State) (pa : Nat) : W64 := leW64 (s.getBytes pa 8)
def State.putNat (s : State) (pa n v : Nat) : State := s.putBytes pa (leBytes n v)

end Sys2Proof.Machine
end

