-- ==== Sys2Proof/Machine/Access.lean ====
section
/-! DEFINITION. Reading and changing the pieces of state: warps, groups, gangs, grids, cores, harts, and the registers of the warp
that issues.

A warp is named by core * 64 + slot, a group by core * 64 + slot-table entry, a gang by grid * 2^32 + index. -/

namespace Sys2Proof.Machine

/-! ## Records by name -/

def State.warp (s : State) (k : Nat) : Warp := tget Warp.start s.warps k
def State.setWarp (s : State) (k : Nat) (w : Warp) : State := { s with warps := tput s.warps k w }
def State.modWarp (s : State) (k : Nat) (f : Warp → Warp) : State := s.setWarp k (f (s.warp k))

def Group.none : Group :=
  { core := 0, entry := 0, grid := 0, gang := 0, copy := 0, index := 0, ngroups := 0, nwarps := 0, cls := 0, slots := 0, banks := 0
    soff := 0, slen := 0, tilem := 0, regs := 0, xreg := 0, xacc := 0, handle := 0, slice := 0, save := 0, stored := false
    own := 0, pool := 0, poolFree := 0
    passed := 0, takeQ := [], bars := Vector.replicate 16 Barrier.start, cbs := Vector.replicate 32 Option.none, matQ := [], mstat := 0
    children := [], clkOff := 0, sliceLeft := 0 }
def State.group (s : State) (k : Nat) : Group := tget Group.none s.groups k
def State.setGroup (s : State) (k : Nat) (g : Group) : State := { s with groups := tput s.groups k g }
def State.modGroup (s : State) (k : Nat) (f : Group → Group) : State := s.setGroup k (f (s.group k))

def gangKey (grid gang : Nat) : Nat := grid * 2 ^ 32 + gang
def Gang.none : Gang :=
  { grid := 0, index := 0, lead := 0, groups := [], twin := [], runs := 0, retired := 0, killed := Option.none, kids := []
    bars := Vector.replicate 16 Barrier.start }
def State.gang (s : State) (k : Nat) : Gang := tget Gang.none s.gangs k
def State.modGang (s : State) (k : Nat) (f : Gang → Gang) : State := { s with gangs := tput s.gangs k (f (s.gang k)) }

def LaunchRec.none : LaunchRec :=
  { entry := 0, params := 0, signal := 0, gangs := 1, groups := 1, warps := 1, cls := 2, flags := 0, regs := 8, tiles := 0, acc := 0
    xreg := 0, scratch := 0, xacc := 0, cscope := 2, hmask := 0, htable := 0 }
def Grid.none : Grid :=
  { lrec := LaunchRec.none, handle := 0, ctx := 0, depth := 0, parent := Option.none, signalPa := Option.none, retired := 0, status := 0, runs := 0
    bars := Vector.replicate 4 Barrier.start }
def State.grid (s : State) (k : Nat) : Grid := tget Grid.none s.grids k
def State.modGrid (s : State) (k : Nat) (f : Grid → Grid) : State := { s with grids := tput s.grids k (f (s.grid k)) }

def State.core (s : State) (c : Nat) : Core := tget Core.reset s.cores c
def State.modCore (s : State) (c : Nat) (f : Core → Core) : State := { s with cores := tput s.cores c (f (s.core c)) }
def Core.slot (c : Core) (i : Nat) : SlotEntry := tget SlotEntry.free c.slots i
def Core.band (c : Core) (k : Nat) : Band := tget Band.zero c.bands k
def State.modBand (s : State) (c k : Nat) (f : Band → Band) : State :=
  s.modCore c fun x => { x with bands := tput x.bands k (f (x.band k)) }
def State.modSlot (s : State) (c i : Nat) (f : SlotEntry → SlotEntry) : State :=
  s.modCore c fun x => { x with slots := tput x.slots i (f (x.slot i)) }

def State.hart (s : State) (h : Nat) : Hart := tget Hart.reset s.harts h
def State.modHart (s : State) (h : Nat) (f : Hart → Hart) : State := { s with harts := tput s.harts h (f (s.hart h)) }
def State.port (s : State) (p : Nat) : Port := tget Port.reset s.ports p
def State.modPort (s : State) (p : Nat) (f : Port → Port) : State := { s with ports := tput s.ports p (f (s.port p)) }

/-- Arithmetic clocks since a core was reset (R17). -/
def State.coreClk (s : State) (core : Nat) : Nat := (s.cycles + 2 ^ 64 - tget 0 s.dieSince (core / 48)) % 2 ^ 64
/-- $time in ns (R17). -/
def State.time (s : State) : Nat := s.ps / 1000
/-- Something the module hands to the outside. -/
def State.emit (s : State) (o : Out) : State := { s with outbox := s.outbox ++ [o] }

/-! ## What the parts of the module belong to -/

def warpCore (k : Nat) : Nat := k / 64
def warpSlot (k : Nat) : Nat := k % 64
/-- The other core of a pair (R2). -/
def pairCore (c : Nat) : Nat := if c % 2 = 0 then c + 1 else c - 1
def State.groupOf (s : State) (w : Nat) : Group := s.group (s.warp w).group
def State.gridOf (s : State) (w : Nat) : Grid := s.grid (s.groupOf w).grid
def Group.key (g : Group) : Nat := g.core * 64 + g.entry
def Group.gangKey (g : Group) : Nat := Machine.gangKey g.grid g.gang
/-- The keys of a group's warps, by index (R155); those of a saved group stand under numbers of their own. -/
def Group.warpKeys (g : Group) : List Nat :=
  if g.stored then rangeFrom (2 ^ 30 + g.key * 64) g.nwarps else (bitsOf g.slots).map (g.core * 64 + ·)
/-- The slot-table state of a group's entry (R152). -/
def State.slotState (s : State) (k : Nat) : Nat := bfld ((s.core (k / 64)).slot (k % 64)).ctl 0 3
/-- A warp slot holds a running warp: its warp is placed and its group's entry is RUNNING. -/
def State.live (s : State) (w : Nat) : Bool :=
  (tget? s.warps w).isSome && s.slotState (s.warp w).group = 2
/-- A place in the order of the stores that wait at a core. -/
def Core.waitSeq (c : Core) : Nat := maxOf (c.mbWait.map (·.seq) ++ c.tileWait.map (·.seq)) + 1
/-- A store of a sender waits at a core (R197). -/
def Core.senderWaits (c : Core) (by_ : Sender) : Bool :=
  (c.mbWait.any fun p => p.sender = by_) || c.tileWait.any fun p => p.sender = by_
/-- A store of a sender waits at some core, or has not been acknowledged by another module. -/
def State.senderWaits (s : State) (by_ : Sender) : Bool :=
  (s.cores.any fun c => c.2.senderWaits by_) || s.asks.any fun a => match a.2.what with | .ack x _ => x = by_ | _ => false
/-- The grid is paired (R353). -/
def Grid.paired (g : Grid) : Bool := g.lrec.flags / 2 % 2 = 1
/-- The grid is co-resident (R163). -/
def Grid.coresident (g : Grid) : Bool := g.lrec.flags / 4 % 2 = 1
def Grid.relaunchable (g : Grid) : Bool := g.lrec.flags % 2 = 1
/-- A key names a warp of a saved group. -/
def savedKey (w : Nat) : Bool := 2 ^ 30 ≤ w
/-- The warps of a group that still have their slots, by index. -/
def State.groupWarps (s : State) (k : Nat) : List Nat :=
  (s.group k).warpKeys.filter fun w => match tget? s.warps w with | some x => x.group = k | none => false
/-- The warps of a gang, both copies. -/
def State.gangWarps (s : State) (k : Nat) : List Nat := ((s.gang k).groups ++ (s.gang k).twin).flatMap s.groupWarps
/-- STOP is 1 in a group's entry (R152): its context is to be saved. -/
def State.stopping (s : State) (k : Nat) : Bool := bbit ((s.core (k / 64)).slot (k % 64)).ctl 3
/-- A checkpoint is written: every group is saved, the other harts stand, and no agent accesses device memory (R413). -/
def State.imaging (s : State) : Bool := s.ckpt.isSome && s.groups.all fun g => g.2.stored
/-- The core and slot of a warp, for a saved one those where it last stood. -/
def State.warpPlace (s : State) (w : Nat) : Nat × Nat :=
  if savedKey w then
    let g := s.group (s.warp w).group
    (g.core, (bitsOf g.slots).getD (s.warp w).index 0)
  else (warpCore w, warpSlot w)

/-! ## The record of a saved warp (R339) -/

/-- The address of the record of a saved warp. -/
def State.recordAt (s : State) (w : Nat) : Nat := (s.group (s.warp w).group).save + 0x10000 + (s.warp w).index * 0x108000
/-- The word of a thread in the record. -/
def Thread.word (t : Thread) : Nat :=
  (match t.status with | .eligible => 0 | .waiting => 1 | .exited => 2) + b2n t.frozen * 4 + t.wait % 512 * 16
/-- The PCs and words of the threads of a set go to the record of a saved warp. -/
def State.recordThreads (s : State) (w : Nat) (set : W32) : State :=
  let a := s.recordAt w
  (lanesOf set).foldl (fun (s : State) t =>
    let x := vget (Thread.start 0) (s.warp w).threads t
    (s.putNat (a + 8 * t) 8 x.pc.toNat).putNat (a + 0x100 + 4 * t) 4 x.word) s

/-! ## The issuing warp -/

/-- The warp that issues. -/
def State.w (s : State) : Warp := s.warp s.iss.key
def State.modW (s : State) (f : Warp → Warp) : State := s.modWarp s.iss.key f
/-- Its group, core and grid. -/
def State.g (s : State) : Group := s.group s.w.group
def State.modG (s : State) (f : Group → Group) : State := s.modGroup s.w.group f
def State.coreNum (s : State) : Nat := warpCore s.iss.key
def State.gr (s : State) : Grid := s.grid s.g.grid

def Thread.dflt : Thread := Thread.start 0
def Warp.thread (w : Warp) (t : Nat) : Thread := vget Thread.dflt w.threads t
def Warp.modThread (w : Warp) (t : Nat) (f : Thread → Thread) : Warp := { w with threads := vmod Thread.dflt w.threads t f }
/-- Change every thread of a set. -/
def Warp.modThreads (w : Warp) (set : W32) (f : Thread → Thread) : Warp :=
  { w with threads := vtab 32 fun t => if set.getLsbD t then f (w.thread t) else w.thread t }
/-- The threads with a property. -/
def Warp.threadsWith (w : Warp) (p : Thread → Bool) : W32 := maskOf fun t => p (w.thread t)

/-- Uniform registers (R11). -/
def State.rdS (s : State) (n : Nat) : W64 := vget 0 s.w.sregs n
def Warp.wrS (w : Warp) (n : Nat) (v : W64) : Warp := { w with sregs := vset w.sregs n v }
def State.wrS (s : State) (n : Nat) (v : W64) : State := s.modW (·.wrS n v)
/-- Mask registers: m0 reads all ones and discards writes (R4, R39). -/
def Warp.rdM (w : Warp) (n : Nat) : W32 := if n = 0 then 0xFFFFFFFF else vget 0 w.mregs n
def Warp.wrM (w : Warp) (n : Nat) (v : W32) : Warp := if n = 0 then w else { w with mregs := vset w.mregs n v }
def State.wrM (s : State) (n : Nat) (v : W32) : State := s.modW (·.wrM n v)
/-- Vector registers. -/
def Warp.rdV (w : Warp) (n L : Nat) : W32 := vget 0 (vget (Vector.replicate 32 0) w.vregs n) L
def Warp.wrV (w : Warp) (n : Nat) (v : Lanes) : Warp := { w with vregs := vset w.vregs n v }
/-- The lanes of a mask take a new value, the others keep theirs. -/
def Warp.wrLanes (w : Warp) (n : Nat) (m : W32) (f : Nat → W32) : Warp :=
  w.wrV n (vtab 32 fun t => if m.getLsbD t then f t else w.rdV n t)
/-- A 64-bit lane value in a pair (R6). -/
def Warp.rdV64 (w : Warp) (n L : Nat) : W64 := (w.rdV (n + 1) L).append (w.rdV n L)

/-! ## Memory instructions under way (R204, R214) -/

/-- $ost (R205). -/
def State.ost (s : State) (k : Nat) : Nat := (s.remote.filter fun r => r.2.warp = k || r.2.twin = some k).length

/-- The accesses of memory instructions that a warp has still to make, oldest first. -/
def Warp.inFlight (w : Warp) : List FlightLane := w.flights.flatMap (·.lanes)
/-- A write of an issued instruction has still to join the window of a paired copy: the warp issues nothing until it has (R355, R356). -/
def Warp.holdsOn (w : Warp) : Bool := w.inFlight.any (·.held)
/-- Accesses of threads whose transactions end are not made (R236). -/
def Warp.dropFlights (w : Warp) (set : W32) : Warp :=
  if set = 0 then w
  else
    { w with flights := w.flights.filterMap fun f =>
        match f.lanes.filter fun l => !(l.tx && set.getLsbD l.lane) with
        | [] => none
        | ls => some { f with lanes := ls } }
/-! ## The end of an issue (R13, R93) -/

/-- R93: the wait counts after an issue; a frozen thread's stands (R317). -/
def Warp.countWaits (w : Warp) (elig set : W32) : Warp :=
  { w with threads := vtab 32 fun t =>
      let x := w.thread t
      if x.frozen then x
      else { x with wait := if elig.getLsbD t && !set.getLsbD t then x.wait + 1 else 0 } }

/-- The issue has ended: no issue is in progress and the wait counts are updated; outside a handler $rprog returns to 0
(R42, R320). -/
def State.finish (s : State) : State :=
  s.modW fun w =>
    { (w.countWaits s.iss.elig s.iss.set) with
      cur := none, service := none, rprog := if w.handler then w.rprog else 0
      cover := w.cover.filter fun a => a != s.iss.pc
      win := w.win.map fun x => { x with passed := false } }
/-- Threads take a PC. -/
def Warp.setPcs (w : Warp) (set : W32) (pc : W64) : Warp := w.modThreads set fun t => { t with pc := pc }
/-- The address after the instruction (R13). After the last canonical word it is no canonical address, and the fetch there traps ACCESS (R12):
DESIGN CHOICE, log entry 42. -/
def State.nextPc (s : State) : W64 := s.iss.base + 4
/-- The issue set goes on at the next instruction (R13). -/
def State.advance (s : State) : State := (s.modW (·.setPcs s.iss.set s.nextPc)).finish
/-- The issue set goes on at a target. -/
def State.jump (s : State) (pc : W64) : State := (s.modW (·.setPcs s.iss.set pc)).finish
/-- The issue ends and the issue set waits (R90). -/
def State.hold (s : State) (set : W32) (h : Hold) : State :=
  (s.modW fun w => { (w.modThreads set fun t => { t with status := .waiting }) with parks := w.parks ++ [⟨set, h⟩] })
/-- The warp issues nothing until the instruction can go on: it has issued, and is tried again when the warp is next considered (R223). -/
def State.stall (s : State) : State :=
  s.modW fun w => { w with cur := some ⟨s.iss.set, s.iss.elig, s.iss.pc, s.iss.idx, s.iss.words⟩, service := none }
/-- The instruction waits at issue: it has not issued, and the warp chooses afresh when it is next considered (R93, R94). -/
def State.waitIssue (s : State) : State :=
  s.modW fun w => { w with cur := some ⟨s.iss.set, s.iss.elig, s.iss.pc, s.iss.idx, []⟩, service := none }
/-- One issue of a REP is done: the next follows, or the instruction ends (R41). -/
def State.endIssue (s : State) (rep : Option Rep) : State :=
  match rep with
  | none => s.advance
  | some r =>
    if s.iss.idx < r.last then
      s.modW fun w => { w with cur := some ⟨s.iss.set, s.iss.elig, s.iss.pc, s.iss.idx + 1, s.iss.words⟩, service := none
                               win := w.win.map fun x => { x with passed := false } }
    else s.advance

end Sys2Proof.Machine
end

