-- ==== Sys2Proof/Machine/Wire.lean ====
section
/-! DEFINITION. Packets of the Birmir Link: what they hold, their flits, the port they leave over, and what they ask other modules for (R375, R376,
R379, R380).

The layout of ARGS, and the die to which a packet goes that the home sends to a holder, are not given: log entry 51. -/

namespace Sys2Proof.Machine

/-! ## Addresses and holders -/

/-- The home die of device memory on its own module (R171). -/
def homeDie (pa : Nat) : Nat :=
  let l := pa % 2 ^ 48
  if l < 24 * 2 ^ 36 then l / 2 ^ 36 else l / 4096 % 24
/-- The address of a line. -/
def lineAddr (line : Nat) : Nat := line * 128
/-- The module that homes a line. -/
def lineHome (line : Nat) : Nat := line / 2 ^ 41
/-- The key of a line at a holder on this module. -/
def holderKey (die line : Nat) : Nat := die * 2 ^ 48 + line
/-- A holder is quarantined (R382). -/
def State.quarantined (s : State) (h : Nat) : Bool :=
  if h < 24 then s.dieq.getLsbD h else if h < 28 then s.hubq.getLsbD (h - 24) else 32 ≤ h && s.modq.getLsbD (h - 32)
/-- The holder through whose cache an agent's accesses go: a compute die, or the hub die of a host hart; 31 for an agent that has none. -/
def Agent.holder : Agent → Nat
  | .thread w _ => warpCore w / 48
  | .hart h => 24 + (if h < 64 then h / 16 else h - 64)
  | .other => 31
/-- The die that an agent's packets name as their source: of one without a cache, hub die 0 (log entry 51). -/
def Agent.die (a : Agent) : Nat := if a.holder = 31 then 24 else a.holder
/-- The agent that a name of stores stands for. -/
def Sender.agent : Sender → Agent
  | .warp w => if w < 2 ^ 31 then .thread w 32 else if 2 ^ 32 ≤ w then .thread (w - 2 ^ 32) 33 else .other
  | .hart h => if h < 68 then .hart h else .other

/-! ## The types of packets (R375) -/

def tyReadS : Nat := 0x01
def tyReadM : Nat := 0x02
def tyUpgrade : Nat := 0x03
def tyWriteBack : Nat := 0x04
def tyAtomic : Nat := 0x05
def tyUncachedRead : Nat := 0x06
def tyUncachedWrite : Nat := 0x07
def tyContribution : Nat := 0x08
def tyData : Nat := 0x10
def tyGrantAck : Nat := 0x11
def tyAck : Nat := 0x12
def tyWBAck : Nat := 0x13
def tyRecall : Nat := 0x20
def tyRecallData : Nat := 0x21
def tyRecallAck : Nat := 0x22
def tyPurge : Nat := 0x40
def tyPurgeAck : Nat := 0x41
def tyPortDown : Nat := 0x42
/-- The types that are not reserved. -/
def linkTypes : List Nat :=
  rangeFrom 0 9 ++ rangeFrom 0x10 4 ++ rangeFrom 0x20 3 ++ rangeFrom 0x30 16 ++ rangeFrom 0x40 3
/-- The channel of a packet type: requests, responses, recalls and collectives by their sixteens (R375); the packets of the link itself go on the
first: DEDUCED, log entry 51. -/
def packetVc (ty : Nat) : Nat := if ty / 16 < 4 then ty / 16 else 0
/-- The type of a collective packet: the manual names 0x37 alone, and 0x30 stands for the others (log entry 51). -/
def CollMsg.type : CollMsg → Nat
  | .coded _ => 0x37
  | _ => 0x30
/-- The hub die of the Glade quarter that a collective packet concerns: the quarter of an instance's ID (R391), the hub of a block's table (R393), and
for a plan that of its ID (log entry 51). -/
def CollMsg.hub : CollMsg → Nat
  | .join j => 24 + j.id % 4
  | .joinDone id _ _ | .digest _ id _ | .fallbackReq _ id _ | .transferAck _ id _ _ | .transferFail _ id _ => 24 + id % 4
  | .advert _ b | .withdraw _ b | .sideAck _ b => 24 + b % 4
  | .coded p => 24 + p.plan % 4

/-! ## Flits (R375, R376) -/

/-- One bit of the reflected CRC-32 (R376). -/
def crc32Step (x : W32) : W32 := if x.getLsbD 0 then (x >>> (1 : Nat)) ^^^ 0xEDB88320 else x >>> (1 : Nat)
/-- The CRC-32 of R376. -/
def crc32 (bs : List Byte) : W32 :=
  bs.foldl (fun (x : W32) b => Nat.repeat crc32Step 8 (x ^^^ BitVec.setWidth 32 b)) 0xFFFFFFFF ^^^ 0xFFFFFFFF
/-- ARGS as a number: 0 where a packet of the type has nothing to say there. -/
def argsNat : LinkArgs → Nat
  | .none => 0
  | a => Config.linkArgs a
/-- Bytes 0 to 59 of the header of a packet. -/
def Pkt.head (p : Pkt) (pkg : Nat) (h : Hdr) : List Byte :=
  leBytes 2 (h.seq % 4096 + p.vc % 4 * 2 ^ 12 + b2n h.nak * 2 ^ 14) ++ leBytes 2 (h.ack % 4096) ++
  (List.range 4).flatMap (fun i => leBytes 2 (h.ret.getD i 0)) ++ leBytes 1 p.ty ++ leBytes 1 ((p.bytes.length + 63) / 64 % 8) ++ leBytes 1 p.pois ++ [0] ++
  leBytes 8 p.addr ++ leBytes 2 (pkg % 32 + p.src % 32 * 32) ++ leBytes 2 (p.dest % 32 + p.die % 32 * 32) ++ leBytes 4 p.tag ++ leBytes 28 (argsNat p.args)
/-- The flits of a packet: the header flit, with the CRC over bytes 0 to 59 and the payload, and the payload flits. -/
def Pkt.flits (p : Pkt) (pkg : Nat) (h : Hdr) : List Byte :=
  let body := p.bytes ++ List.replicate ((64 - p.bytes.length % 64) % 64) 0
  p.head pkg h ++ leBytes 4 (crc32 (p.head pkg h ++ body)).toNat ++ body

/-! ## Ports (R379, R380) -/

/-- A port carries packets: it is up, or it is down and those that it has not delivered have still to move to others. -/
def Port.carries (p : Port) : Bool := !p.down || p.unacked != [] || p.queue != []
/-- The fixed hash takes one of the ports of a route; a port that is gone leaves the choice to the others. -/
def State.pickPort (s : State) (h : Nat) : Nat → List Nat → Option Nat
  | 0, _ => none
  | n + 1, ps =>
    match ps[h % ps.length]? with
    | none => none
    | some p => if (s.port p).carries then some p else s.pickPort h n (ps.filter (· != p))
/-- The port over which a packet of a channel leaves from a die for a die of module m. -/
def State.viaPort (s : State) (vc src m die : Nat) : Option Nat :=
  let ps := bitsOf (vget 0 s.routes m)
  if ps.any (fun p => !(s.port p).down) then s.pickPort (Config.routeHash vc src (m * 32 + die)) ps.length ps else none
/-- A packet joins those that wait at its port; one for a module that no port reaches is lost. -/
def State.onPort (s : State) (p : Pkt) : State :=
  match s.viaPort p.vc p.src p.dest p.die with
  | some q => s.modPort q fun x => { x with queue := x.queue ++ [p] }
  | none => s

/-! ## Sending -/

/-- A packet of a type from a die of this module for an address to a holder: 0 to 27 a die of this module, 32 + m module m. -/
def State.msg (s : State) (src dest die ty addr : Nat) (bytes : List Byte) (pois : Nat) : Out :=
  .message dest ty addr bytes pois (if dest < 32 || dest = 32 + s.pkg then none else s.viaPort (packetVc ty) src (dest - 32) die)
/-- A packet is sent, with a TAG and ARGS. -/
def State.sendTag (s : State) (src dest die ty addr : Nat) (bytes : List Byte) (pois tag : Nat) (args : LinkArgs) : State :=
  (if dest < 32 || dest = 32 + s.pkg then s
   else s.onPort ⟨packetVc ty, ty, src, dest - 32, die, tag, addr, bytes, pois, args⟩).emit (s.msg src dest die ty addr bytes pois)
def State.send (s : State) (src dest die ty addr : Nat) (bytes : List Byte) (pois : Nat) : State :=
  s.sendTag src dest die ty addr bytes pois 0 .none
/-- A packet goes to the home of an address from a die. -/
def State.sendHome (s : State) (src ty addr : Nat) (bytes : List Byte) (pois : Nat) : State :=
  s.send src (32 + addr / 2 ^ 48) (homeDie addr) ty addr bytes pois
/-- The answer to the packet that is being served goes to the module it came from, from the home of its address (R375). -/
def State.reply (s : State) (m ty addr : Nat) (bytes : List Byte) (pois : Nat) : State :=
  s.sendTag (homeDie addr) (32 + m) s.replyTo.1 ty addr bytes pois s.replyTo.2 .none
/-- A collective packet to another module leaves the hub die of its quarter for the same quarter there. -/
def State.collMsg (s : State) (m : Nat) (x : CollMsg) : Out := .coll m x (s.viaPort 3 (CollMsg.hub x) m (CollMsg.hub x))
/-- The payload of a collective packet and its marks. -/
def CollMsg.payload : CollMsg → List Byte × Nat
  | .coded p => (p.payload, maskNat (fun i => p.poisoned.getD i false) 8)
  | _ => ([], 0)
/-- ADDR of a collective packet: a coded one names its plan and context there (R397). -/
def CollMsg.addr : CollMsg → Nat
  | .coded p => p.plan % 2 ^ 32 + p.ctx % 2 ^ 16 * 2 ^ 32
  | _ => 0
def State.sendColl (s : State) (m : Nat) (x : CollMsg) (tag : Nat := 0) : State :=
  (s.onPort ⟨3, CollMsg.type x, CollMsg.hub x, m, CollMsg.hub x, tag, CollMsg.addr x, (CollMsg.payload x).1, (CollMsg.payload x).2, .coll x⟩).emit (s.collMsg m x)

/-! ## What other modules are asked for (R365, R371) -/

/-- A request leaves with a new TAG, and is kept until it is answered. -/
def State.askHome (s : State) (what : AskFor) (src ty addr : Nat) (bytes : List Byte) (pois : Nat) (args : LinkArgs) : State :=
  let m := addr / 2 ^ 48
  ({ s with asks := tput s.asks s.nextTag ⟨m, what, none⟩, nextTag := (s.nextTag + 1) % 2 ^ 32 }).sendTag src (32 + m) (homeDie addr) ty addr bytes pois
    s.nextTag args
/-- An agent has asked for a value at an address. -/
def AskFor.isValue (who : Agent) (pa : Nat) : AskFor → Bool
  | .value a p _ => a = who && p = pa
  | _ => false
def State.askedValue (s : State) (who : Agent) (pa : Nat) : Bool := s.asks.any fun a => AskFor.isValue who pa a.2.what
/-- The value that an agent has asked for at an address has come. -/
def State.valueAt (s : State) (who : Agent) (pa : Nat) : Option (List Byte × Bool) :=
  s.asks.findSome? fun a => if AskFor.isValue who pa a.2.what then a.2.got else none
/-- A value that has come is used. -/
def State.useValue (s : State) (who : Agent) (pa : Nat) : State :=
  { s with asks := s.asks.filter fun a => !(AskFor.isValue who pa a.2.what && a.2.got.isSome) }
/-- Bytes cut at the lines of 128. -/
def lineChunks : Nat → Nat → List Byte → List (Nat × List Byte)
  | 0, _, _ => []
  | n + 1, pa, bs =>
    let k := 128 - pa % 128
    if bs = [] then [] else (pa, bs.take k) :: lineChunks n (pa + k) (bs.drop k)
/-- A write goes to another module, line by line, with the offsets of its poisoned bytes, and is acknowledged from there (R204, R375). -/
def State.writeAway (s : State) (by_ : Sender) (pa : Nat) (bs : List Byte) (ps stores : List Nat) : State :=
  (lineChunks (bs.length / 128 + 2) pa bs).foldl (fun (s : State) x =>
    let marks := maskNat (fun k => ps.any fun o => x.1 ≤ pa + o && pa + o < x.1 + x.2.length && (pa + o - x.1) / 32 = k) 8
    s.askHome (.ack by_ stores) (Sender.agent by_).die tyUncachedWrite x.1 x.2 marks (.size x.2.length)) s

end Sys2Proof.Machine
end

