-- ==== Sys2Proof/Machine/Place.lean ====
section
/-! DEFINITION. The physical map (R3, R171), the reduction windows (R383), and stores at the core windows (R176, R177, R179). -/

namespace Sys2Proof.Machine

/-! ## Where a physical address lies -/

/-- The parts of the physical map. Offsets are from the part's own base in the window of a core. -/
inductive Place where
  | device
  | scratch (core off : Nat)
  | acc (core off : Nat)
  | tile (core off : Nat)
  | vreg (core off : Nat)
  | mail (core off : Nat)
  | control (core off : Nat)
  /-- the window of a core of another module -/
  | far (off : Nat)
  | unbacked
  deriving DecidableEq, Repr

/-- Module m is this one, or connected through a port that is up (R380, R381), and not quarantined (R382). -/
def State.connected (s : State) (m : Nat) : Bool :=
  m = s.pkg ||
  (m < 32 && !s.modq.getLsbD m && (bitsOf (vget 0 s.routes m)).any fun p => !(s.port p).down)
/-- The module and the die that a physical address names answer. -/
def State.reachable (s : State) (pa : Nat) : Bool :=
  s.connected (pa / 2 ^ 48) &&
  !(pa / 2 ^ 48 = s.pkg && s.dieq.getLsbD (if (windowOffset pa).isSome then windowCore pa / 48 else homeDie pa))

/-- The backed parts of a core window (R3). -/
def windowBacked (o : Nat) : Bool :=
  o < 0xC0000 || (0x100000 ≤ o && o < 0x280000) || (0x300000 ≤ o && o < 0x800000) || 0x3F00000 ≤ o
/-- In minimal mode every part but hub die 0 is held in reset (R417). -/
def State.place (s : State) (pa : Nat) : Place :=
  let l := pa % 2 ^ 48
  if !s.reachable pa || (s.bootMinimal && pa / 2 ^ 48 = s.pkg) then .unbacked
  else if l < 24 * 2 ^ 36 || (0x100000000000 ≤ l && l < 0x180000000000) then .device
  else
    match windowOffset pa with
    | none => .unbacked
    | some o =>
      let c := windowCore pa
      if pa / 2 ^ 48 != s.pkg then (if windowBacked o then .far o else .unbacked)
      else if o < 0xC0000 then .scratch c o
      else if 0x100000 ≤ o && o < 0x200000 then .acc c (o - 0x100000)
      else if 0x200000 ≤ o && o < 0x280000 then .tile c (o - 0x200000)
      else if 0x300000 ≤ o && o < 0x400000 then .vreg c (o - 0x300000)
      else if 0x400000 ≤ o && o < 0x800000 then .mail c (o - 0x400000)
      else if 0x3F00000 ≤ o then .control c (o - 0x3F00000)
      else .unbacked

/-! ## Reduction windows (R383) -/

/-- Window n is enabled and covers an address. -/
def State.inWindow (s : State) (n pa : Nat) : Bool :=
  let v := vget 0 s.dxrw n
  let size := bfld v 4 6
  bbit v 0 && 16 ≤ size && size ≤ 40 && bfld v 48 5 = s.pkg && pa / 2 ^ size = bfld v 16 37 * 65536 / 2 ^ size
/-- The address lies inside a reduction window of this module, for an access of a module: the lowest-numbered enabled window that covers it governs. -/
def State.inOwnWindow (s : State) (src pa : Nat) : Bool :=
  match (List.range 16).find? fun n => s.inWindow n pa with
  | some n => src = s.pkg || bbit (vget 0 s.dxrw n) 1
  | none => false
/-- An enabled window of another module whose NODE bit is 1, which the Glade tables of this module hold, covers an address (R383). -/
def State.inNodeWindow (s : State) (pa : Nat) : Bool :=
  s.nodeWins.any fun x =>
    let size := bfld x.2 4 6
    bbit x.2 0 && bbit x.2 1 && 16 ≤ size && size ≤ 40 && bfld x.2 48 5 = x.1 / 16 && x.1 / 16 != s.pkg &&
      pa / 2 ^ size = bfld x.2 16 37 * 65536 / 2 ^ size
/-- The address lies inside a reduction window, for an access of a module. -/
def State.reducing (s : State) (src pa : Nat) : Bool :=
  s.inOwnWindow src pa || (src = s.pkg && s.inNodeWindow pa)
/-- An access of an agent to another module is made there: at a core window, inside a reduction window, whose lines stay with their home, or by an
agent without a cache. -/
def State.distant (s : State) (who : Agent) (pa : Nat) : Bool :=
  pa / 2 ^ 48 != s.pkg &&
  match s.place pa with
  | .far _ => true
  | .device => who.holder = 31 || s.inNodeWindow pa
  | _ => false

/-! ## Vector registers through the window (R179) -/

/-- The warp in a slot holds register n. -/
def Warp.holdsV (w : Warp) (n : Nat) : Bool :=
  if n < 96 then n < w.baseRegs else w.vext.getLsbD ((n - 96) / 8)

/-- One byte of the vector register window. -/
def State.vregByte (s : State) (core off : Nat) : Byte :=
  let k := core * 64 + off / 0x4000
  let n := off % 0x4000 / 128
  if (tget? s.warps k).isSome && (s.warp k).holdsV n then
    BitVec.ofNat 8 (((s.warp k).rdV n (off % 128 / 4)).toNat / 256 ^ (off % 4))
  else 0
def State.putVregByte (s : State) (core off : Nat) (b : Byte) : State :=
  let k := core * 64 + off / 0x4000
  let n := off % 0x4000 / 128
  let L := off % 128 / 4
  if (tget? s.warps k).isSome && (s.warp k).holdsV n then
    let v := ((s.warp k).rdV n L).toNat
    let sh := 256 ^ (off % 4)
    let v' := BitVec.ofNat 32 (v - v / sh % 256 * sh + b.toNat * sh)
    s.modWarp k fun w => w.wrLanes n (bit32 L) fun _ => v'
  else s

/-! ## Tiles and banks through the window (R176, R177) -/

/-- The bands a matrix operation names. -/
def MatKind.bands : MatKind → List Nat
  | .mma _ _ sa _ k _ => rangeFrom k ((bfld (sa.setWidth 64) 4 8 + 1 + 31) / 32)
  | .mdrnTile k _ _ _ _ _ | .mdrnSpad k _ _ _ | .mchk k | .mrty k _ | .mzero k | .mgive k _ _ => [k]
  | .tld _ _ _ _ | .tst _ _ _ => []
/-- The tiles a matrix operation reads and those it writes, without a retry's (R269). -/
def MatKind.tilesRead : MatKind → List Nat
  | .mma a b _ _ _ _ => [a, b]
  | .tst t _ _ => [t]
  | _ => []
def MatKind.tilesWritten : MatKind → List Nat
  | .tld t _ _ _ => [t]
  | .mdrnTile _ _ t _ _ _ => [t]
  | _ => []

/-- A tile of a core is write-locked: a record of a band on either core of the pair names it (R289). A pair MMA's tiles are
the leader's. -/
def State.tileLocked (s : State) (core t : Nat) : Bool :=
  let names := fun c : Nat => (s.core c).bands.any fun b =>
    b.2.record.any fun e => (e.a = t || e.b = t) && (if e.half = 1 then c = pairCore core && core % 2 = 0 else c = core)
  names core || names (pairCore core)
/-- A tile of a core is an operand of an in-flight matrix operation. -/
def State.tileBusy (s : State) (core t : Nat) : Bool :=
  s.groups.any fun g => g.2.core = core && !g.2.stored &&
    g.2.matQ.any fun o => o.started && (o.kind.tilesRead.contains t || o.kind.tilesWritten.contains t)

/-- R177, R280: a window store into a bank leaves the band UNCHECKED with an empty, incomplete record. -/
def Band.windowStore (b : Band) : Band := { b with state := .unchecked, record := [], complete := false, located := none }

/-! ## Stores at a physical address -/

/-- Bytes stored into a place other than a mailbox, at once. -/
def State.storeNow (s : State) (pa : Nat) (bs : List Byte) : State :=
  match s.place pa with
  | .vreg c o => (List.range bs.length).foldl (fun s i => s.putVregByte c (o + i) (bs.getD i 0)) s
  | .acc c o => ([o / 0x4000, (o + bs.length - 1) / 0x4000].foldl (fun s k => s.modBand c k Band.windowStore) s).putBytes pa bs
  | _ => s.putBytes pa bs

/-- A tile that a store of n bytes touches is busy or locked (R176). -/
def State.tileHeld (s : State) (core o n : Nat) : Bool :=
  [o / 0x8000, (o + (n - 1)) / 0x8000].any fun t => s.tileBusy core t || s.tileLocked core t
/-- A store of a sender waits at its target core: for a tile, behind a store that waits for the same tile (R172), or behind one of the same sender
that waits there (R176, R197). -/
def State.storeWaits (s : State) (by_ : Sender) (pa n : Nat) : Bool :=
  match s.place pa with
  | .tile c o => s.tileHeld c o n || (s.core c).senderWaits by_ ||
    (s.core c).tileWait.any fun x => x.pa < pa / 0x8000 * 0x8000 + 0x8000 && pa / 0x8000 * 0x8000 ≤ x.pa
  | .scratch c _ | .acc c _ | .vreg c _ => (s.core c).senderWaits by_
  | _ => false

/-- The waiting store can be performed: its tile is free, and no earlier store of its sender waits at the core. -/
def State.waitOver (s : State) (core : Nat) (x : TileStore) : Bool :=
  let c := s.core core
  (match s.place x.pa with | .tile _ o => !s.tileHeld core o x.bytes.length | _ => true) &&
  !(c.mbWait.any fun y => y.sender = x.sender && y.seq < x.seq) && !(c.tileWait.any fun y => y.sender = x.sender && y.seq < x.seq)
/-- The waiting stores of a core whose wait is over are performed, in the order of their arrival (R176). -/
def State.tileRelease (s : State) (core : Nat) : State :=
  (s.core core).tileWait.foldl (fun (s : State) x =>
    if s.waitOver core x then
      (s.modCore core fun c => { c with tileWait := c.tileWait.filter fun y => y.seq != x.seq }).storeNow x.pa x.bytes
    else s) s

/-- The number that the next engine operation of a sender's core has. -/
def State.opMark (s : State) (by_ : Sender) : Nat :=
  match by_ with
  | .warp w => (s.core (warpCore w)).nextOp
  | .hart _ => 0
/-- A store that a warp made before its engine operation of a number waits at its target and holds bytes of a range, or an access of it is still to be
made there: an access of the operation comes after it (R206). -/
def State.ownWaits (s : State) (w mark pa n : Nat) : Bool :=
  ((s.warp w).flights.any fun f => f.mark ≤ mark && f.lanes.any fun l => l.pieces.any fun x => x.pa < pa + n && pa < x.pa + x.n) ||
  s.cores.any fun c => c.2.tileWait.any fun x => x.sender = .warp w && x.mark ≤ mark && x.pa < pa + n && pa < x.pa + x.bytes.length
/-- Bytes stored by a sender into a place other than a mailbox of this module: performed, waiting at the target, or sent to their module with the offsets
of the poisoned ones. -/
def State.storePlain (s : State) (by_ : Sender) (pa : Nat) (bs : List Byte) (remote : Option Nat) (ps : List Nat := []) : State :=
  if s.distant (Sender.agent by_) pa then s.writeAway by_ pa bs ps remote.toList
  else if s.storeWaits by_ pa bs.length then
    s.modCore (windowCore pa) fun c => { c with tileWait := c.tileWait ++ [⟨by_, pa, bs, remote, c.waitSeq, s.opMark by_⟩] }
  else s.storeNow pa bs

end Sys2Proof.Machine
end

