-- ==== Sys2Proof/Machine/Trans.lean ====
section
/-! DEFINITION. Transactions of warps: their slots, aborts, the fallback lock and the guard of R230. -/

namespace Sys2Proof.Machine

/-! ## Abort codes (R227) -/

def abValidate : Nat := 1
def abConflict : Nat := 2
def abCapacity : Nat := 3
def abRemote : Nat := 4
def abEngine : Nat := 5
def abHold : Nat := 6
def abUser : Nat := 7
def abInterrupt : Nat := 8
def abFault : Nat := 9
def abNest : Nat := 10

/-- R236: a thread aborts. Its transaction ends, its PC is the abort label, and $txretry takes the abort's values. -/
def Thread.abort (t : Thread) (code detail : Nat) : Thread :=
  match t.tx with
  | none => t
  | some x => { t with tx := none, pc := x.label, retry := min 15 (t.retry + 1), code := code, detail := detail % 256 }

/-- The threads of a set in an ordinary transaction. -/
def Warp.inTx (w : Warp) (set : W32) : W32 := maskOf fun t => set.getLsbD t && (w.thread t).tx.isSome
/-- The threads of a set that are irrevocable. -/
def Warp.irrevocable (w : Warp) (set : W32) : W32 := maskOf fun t => set.getLsbD t && (w.thread t).irr

/-- The slots that threads of a warp hold. -/
def Warp.slotsHeld (w : Warp) : List Nat := (List.range 32).filterMap fun t => (w.thread t).tx.map (·.slot)

/-- R226: the transaction slots of the module. -/
def txSlotCount : Nat := 1024

/-- The lowest free slot. -/
def freeSlot (used : List Nat) : Nat := ((List.range (used.length + 1)).find? fun i => !used.contains i).getD 0

/-- R233: threads begin ordinary transactions in a slot, and stand at the next instruction. -/
def Warp.beginTx (w : Warp) (set : W32) (label : W64) (slot : Nat) : Warp :=
  w.modThreads set fun t =>
    { t with tx := some ⟨label, slot, [], [], false, 0⟩, pc := t.pc + 4, status := .eligible }

/-- A waiting TXB takes a freed slot (TX_SLOT_GRANT, R233): the oldest waits first (the order is a DESIGN CHOICE, log entry 61). -/
def State.grantSlots (s : State) : List (Nat × W32) → State
  | [] => { s with slotQueue := [] }
  | (k, set) :: r =>
    if s.txSlots.length < txSlotCount then
      let slot := freeSlot s.txSlots
      let w := s.warp k
      let label := ((w.parks.find? fun p => p.set = set).bind fun p => match p.hold with | .txSlot l => some l | _ => none).getD 0
      let w' := { (w.beginTx set label slot) with parks := w.parks.filter fun p => p.set != set }
      ({ s.setWarp k w' with txSlots := insertNat slot s.txSlots }).grantSlots r
    else { s with slotQueue := (k, set) :: r }

/-- Free the slots that no thread of a warp holds any more (R226), and grant them. -/
def State.releaseSlots (s : State) (k : Nat) (before : List Nat) : State :=
  let after := (s.warp k).slotsHeld
  let gone := before.filter fun i => !after.contains i
  if gone = [] then s
  else
    let s' := { s with txSlots := s.txSlots.filter fun i => !gone.contains i }
    s'.grantSlots s'.slotQueue

/-- Abort the ordinary transactions of a set of threads of a warp (R236). -/
def State.abortSet (s : State) (k : Nat) (set : W32) (code detail : Nat) : State :=
  let w := s.warp k
  let before := w.slotsHeld
  (s.setWarp k ((w.modThreads (w.inTx set) fun t => t.abort code detail).dropFlights (w.inTx set))).releaseSlots k before

/-- End ordinary transactions without moving PCs or changing RETRY (R238, mixed issue sets). -/
def State.endTx (s : State) (k : Nat) (set : W32) : State :=
  let w := s.warp k
  let before := w.slotsHeld
  (s.setWarp k ((w.modThreads set fun t => { t with tx := none }).dropFlights set)).releaseSlots k before

/-! ## The fallback lock (R237) -/

/-- The lock is free: the oldest waiting thread is granted it, becomes eligible at the next instruction and is irrevocable
(FALLBACK_LOCK_GRANT). -/
def State.grantLock (s : State) : State :=
  match s.lock, s.lockQueue with
  | none, q :: r =>
    let w := s.warp q.warp
    let w' := { (w.modThread q.thread fun t => { t with status := .eligible, pc := t.pc + 4, irr := true }) with
                parks := w.parks.filterMap fun p =>
                  if p.hold = .lock then
                    (let m := p.set &&& ~~~(bit32 q.thread); if m = 0 then none else some { p with set := m })
                  else some p }
    { s.setWarp q.warp w' with
      lockQueue := r, lock := some ⟨q.warp, q.thread, s.time, (s.groupOf q.warp).slice, []⟩ }
  | _, _ => s

/-- The holder's commit or kill releases the lock. -/
def State.releaseLock (s : State) : State := ({ s with lock := none }).grantLock

/-! ## Treatment of instructions inside a transaction (R230) -/

/-- Before an instruction that aborts transactions with a code: the threads in ordinary transactions abort, and the
instruction goes on for the others. The state has the smaller issue set; none of its threads moves here. -/
def State.txGuard (s : State) (code : Nat) : State :=
  let a := s.w.inTx s.iss.set
  if a = 0 then s
  else
    let s' := s.abortSet s.iss.key a code 0
    { s' with iss := { s'.iss with set := s.iss.set &&& ~~~a, elig := s.iss.elig &&& ~~~a } }

/-- Whether the guard leaves no thread: the issue then ends with no effect (R230). -/
def State.emptied (s : State) : Bool := s.iss.set = 0

end Sys2Proof.Machine
end

