-- ==== Sys2Proof/Machine/Reach.lean ====
section
/-! DEFINITION. What an access does to what others hold of its lines: transactions, reservations and the fallback lock, class units and FP32 shadows
(R88, R190, R191, R228, R231, R237, R241, R242, R368). -/

namespace Sys2Proof.Machine

/-- The 128-byte lines that bytes touch. -/
def linesOf (pa n : Nat) : List Nat := dedup ((List.range n).map fun i => (pa + i) / 128)

/-- R240: a host transaction aborts: its writes are dropped, execution goes on after dx.tbegin, rd receives code and detail. -/
def Hart.abortTx (h : Hart) (code detail : Nat) : Hart :=
  match h.tx with
  | none => h
  | some x =>
    { h with tx := none, pc := x.pc, commit := false
             x := if x.rd = 0 then h.x else vset h.x x.rd (BitVec.ofNat 64 (code + detail % 256 * 256)) }

/-- The host transactions that an access of others conflicts with (R241). Signatures are exact line sets, so that no false match occurs; R228
allows them: DESIGN CHOICE, log entry 43. -/
def HostTx.conflicts (x : HostTx) (write : Bool) (lines : List Nat) : Bool :=
  lines.any fun l => (x.writes.any fun c => c.1 / 128 = l) || (write && x.reads.contains l)

/-- A hart's part of an access by another agent: its transaction aborts with CONFLICT, and a write takes its reservation. -/
def Hart.observe (h : Hart) (write : Bool) (lines : List Nat) : Hart :=
  let h1 := match h.tx with
    | some x => if x.conflicts write lines then h.abortTx abConflict 0 else h
    | none => h
  match h1.lr with
  | some a => if write && lines.contains (a / 128) then { h1 with lr := none } else h1
  | none => h1

/-- A hart's part of a store that another hart has buffered (R241, R242): its transaction aborts with CONFLICT. -/
def Hart.observeBuffered (h : Hart) (lines : List Nat) : Hart :=
  match h.tx with
  | some x => if x.conflicts true lines then h.abortTx abConflict 0 else h
  | none => h

/-- A thread's part of a write by another agent: its slot's read signature matches (R228, R231). -/
def Thread.observe (t : Thread) (lines : List Nat) : Thread :=
  match t.tx with
  | some x => if x.log.any fun l => lines.contains (l.1 / 128) then { t with tx := some { x with matched := true } } else t
  | none => t
def Warp.observe (w : Warp) (skip : Option Nat) (lines : List Nat) : Warp :=
  { w with threads := vtab 32 fun t => if skip = some t then w.thread t else (w.thread t).observe lines }

/-- The effects of an access at device memory on the transactions and reservations of every other agent (R242). -/
def State.observe (s : State) (who : Agent) (write : Bool) (pa n : Nat) : State :=
  let lines := linesOf pa n
  { s with
    harts := s.harts.map fun x =>
      if who = .hart x.1 then x else (x.1, x.2.observe write lines)
    warps := if write then
        s.warps.map fun x => (x.1, x.2.observe (match who with | .thread w t => if w = x.1 then some t else none | _ => none) lines)
      else s.warps }

/-- The effects of a store that a hart's transaction buffers on the transactions of the other harts (R242). -/
def State.observeBuffered (s : State) (h : Nat) (pa n : Nat) : State :=
  { s with harts := s.harts.map fun x => if x.1 = h then x else (x.1, x.2.observeBuffered (linesOf pa n)) }

/-- The access conflicts with one of the lock holder's, and the holder is another agent (R237, R242). Lines are kept as line * 2 + (1 for a
write). -/
def State.lockHits (s : State) (who : Agent) (write : Bool) (pa n : Nat) : Bool :=
  match s.lock with
  | none => false
  | some l =>
    (match who with | .thread w t => !(w = l.warp && t = l.thread) | _ => true) &&
    (linesOf pa n).any fun x => l.lines.contains (x * 2 + 1) || (write && l.lines.contains (x * 2))

/-! ## Class units (R190) -/

/-- An entry's unit holds an address. -/
def ClassEntry.covers (e : Nat × ClassEntry) (pa : Nat) : Bool := e.1 % 2 ^ 53 ≤ pa && pa < e.1 % 2 ^ 53 + e.2.size

/-- An untranslated access: a private unit becomes shared, an untouched one stays so (R190). -/
def State.classifyRaw (s : State) (pa n : Nat) : State :=
  { s with classes := s.classes.map fun e =>
      if e.1 % 2 ^ 53 < pa + n && pa < e.1 % 2 ^ 53 + e.2.size then (e.1, { e.2 with cls := .shared }) else e }

/-! ## Shadows (R88) -/

/-- Bytes written without any effect on poison marks. -/
def State.poke (s : State) (pa : Nat) (bs : List Byte) : State := { s with mem := Memory.writeBytes s.mem pa bs }

/-- A line's shadow is folded into it. -/
def State.foldLine (s : State) (line : Nat) : State :=
  match tget? s.shadows line with
  | none => s
  | some x =>
    let f := atomFmt x.ty
    let s1 := x.vals.foldl (fun s v => s.poke (line * 128 + v.1) (leBytes (f.w / 8) (narrowTo f v.2.toNat))) s
    { s1 with shadows := tdel s1.shadows line }
def State.foldLines (s : State) (pa n : Nat) : State := (linesOf pa n).foldl (fun s l => s.foldLine l) s

/-- A new shadow holds every element of the line exactly. -/
def State.startShadow (s : State) (line : Nat) (ty : AtomFp) : State :=
  let k := (atomFmt ty).w / 8
  let vals := (List.range (128 / k)).map fun i => (i * k, BitVec.ofNat 32 (widen (atomFmt ty) (s.getNat (line * 128 + i * k) k)))
  { s with shadows := tput s.shadows line ⟨ty, vals⟩ }
/-- The shadow of a line for a type: the one it has, or a new one. -/
def State.shadowFor (s : State) (line : Nat) (ty : AtomFp) : State :=
  match tget? s.shadows line with
  | some x => if x.ty = ty then s else (s.foldLine line).startShadow line ty
  | none => s.startShadow line ty

/-- One narrow addition of an f32 operand. -/
def State.shadowAdd (s : State) (ty : AtomFp) (md : Rnd) (pa : Nat) (x : Nat) : State :=
  let line := pa / 128
  let s1 := s.shadowFor line ty
  let sh := tget ⟨ty, []⟩ s1.shadows line
  let old := (tget 0 sh.vals (pa % 128)).toNat
  let new := (fAddE (memEnv md) fmtF32 [old, x]).1
  { s1 with shadows := tput s1.shadows line { sh with vals := tput sh.vals (pa % 128) (BitVec.ofNat 32 new) } }

/-! ## Atomics in place (R218, R219) -/

/-- The read-modify-write at device memory or a scratchpad. A poisoned target keeps its mark (R221). -/
def State.rmw (s : State) (op : AtomOp) (md : Rnd) (pa x c : Nat) : State × Nat :=
  let n := AtomOp.bytes op
  match s.place pa, op, AtomOp.narrow op with
  | .device, .flt _ t, true => (s.shadowAdd t md pa (widen (atomFmt t) (x % 2 ^ (atomFmt t).w)), 0)
  | .device, _, _ =>
    let s1 := s.foldLines pa n
    let old := s1.getNat pa n
    (s1.poke pa (leBytes n (AtomOp.apply op md old x c)), old)
  | _, _, _ =>
    let old := s.getNat pa n
    (s.poke pa (leBytes n (AtomOp.apply op md old x c)), old)

end Sys2Proof.Machine
end

