-- ==== Sys2Proof/Machine/Directory.lean ====
section
/-! DEFINITION. The directory of the home and the holders of its units: what a request recalls and is granted, how an access of this module goes
through it, and what it asks other modules for (R364 to R371, R374, R382 to R386).

Memory is one table of bytes (log entries 1 and 7): of a line homed here it holds what the home or the M holder on this module has last written, and of a line
homed on another module what this module's copy holds, or the value it was last told. A line that another module owns comes back with its WriteBack or
its answer to a recall; until then every access of this module to it waits. -/

namespace Sys2Proof.Machine

/-- The tracked unit of a line: the first line of its tile in a registered object, or the line (R364, R374). -/
def State.unitOf (s : State) (line : Nat) : List Nat :=
  ((s.objects.flatMap fun o => o.tiles).find? fun t => t.contains line).getD [line]
def State.unitKey (s : State) (line : Nat) : Nat := (s.unitOf line).headD line
/-- The marks of the sectors of a payload read at an address: bit n for bytes 32n to 32n + 31 (R341, R375). -/
def State.payloadMarks (s : State) (pa n : Nat) : Nat :=
  maskNat (fun k => 32 * k < n && s.poisonedIn (pa + 32 * k) (min 32 (n - 32 * k))) 8
/-- The poison units that the marks of a payload stand for at an address. -/
def markedUnits (pa n pois : Nat) : List Nat :=
  dedup ((List.range 8).flatMap fun k =>
    if pois / 2 ^ k % 2 = 1 && 32 * k < n then unitsOf (pa + 32 * k) (min 32 (n - 32 * k)) else [])

/-! ## The entries (R364 to R367) -/

def DirEntry.none : DirEntry := ⟨Option.none, [], [], []⟩
def State.dirEntry (s : State) (unit : Nat) : DirEntry := tget DirEntry.none s.dir unit
/-- An entry is kept while something holds the unit or waits for it. -/
def State.setDir (s : State) (unit : Nat) (e : DirEntry) : State :=
  let others := s.dirOrder.filter (· != unit)
  if e = DirEntry.none then { s with dir := tdel s.dir unit, dirOrder := others }
  else { s with dir := tput s.dir unit e, dirOrder := others ++ [unit] }

/-- The holders whose copies a request of h must recall. -/
def DirEntry.inTheWay (e : DirEntry) (h : Nat) (r : DirReq) : List Nat :=
  match e.state, r with
  | some (.owned o), _ => if o = h then [] else [o]
  | some (.shared hs), .m => hs.filter (· != h)
  | _, _ => []
/-- The entry after a grant. -/
def DirEntry.grant (e : DirEntry) (h : Nat) (r : DirReq) : DirEntry :=
  { e with
    state := some (match r, e.state with
      | .m, _ => .owned h
      | .s, some (.shared hs) => .shared (insertNat h hs)
      | .s, some (.owned o) => if o = h then .owned h else .shared [h]
      | .s, _ => .shared [h])
    unacked := insertNat h e.unacked }
/-- A holder gives up its copy. -/
def DirEntry.giveUp (e : DirEntry) (h : Nat) : DirEntry :=
  { e with state := match e.state with
      | some (.owned o) => if o = h then Option.none else e.state
      | some (.shared hs) => (let l := hs.filter (· != h); if l = [] then Option.none else some (.shared l))
      | Option.none => Option.none }
/-- The holders of a unit. -/
def DirEntry.held (e : DirEntry) : List Nat :=
  match e.state with | some (.owned h) => [h] | some (.shared hs) => hs | Option.none => []
/-- The holder has what it asks for: the line is its own, or a copy serves a read. -/
def DirEntry.has (e : DirEntry) (h : Nat) (r : DirReq) : Bool :=
  match e.state, r with
  | some (.owned o), _ => o = h
  | some (.shared hs), .s => hs.contains h
  | _, _ => false

/-- What a recall does on this module before it is answered: the line's shadow is folded (R88), private units become shared; at a hub die reservations
fall and host transactions conflict (R368). -/
def State.recallActs (s : State) (holder line : Nat) : State :=
  let s := s.foldLine line
  let s1 := { s with classes := s.classes.map fun e =>
    if e.2.die = holder && ClassEntry.covers e (lineAddr line) then (e.1, { e.2 with cls := .shared }) else e }
  if 24 ≤ holder then { s1 with harts := s1.harts.map fun x => if holder = Agent.holder (.hart x.1) then (x.1, x.2.observe true [line]) else x } else s1
/-- A copy of a unit at a holder of this module is recalled (R368). -/
def State.recallOwn (s : State) (unit h : Nat) : State :=
  let s1 := (s.unitOf unit).foldl (fun (s : State) x => { (s.recallActs h x) with holders := tdel s.holders (holderKey h x) }) s
  s1.setDir unit ((s1.dirEntry unit).giveUp h)
/-- The home recalls the copies of a unit on this module, those whose grants have been acknowledged, when it serves no request for it (R366). -/
def State.takeHome (s : State) (unit : Nat) : State :=
  let e := s.dirEntry unit
  if e.queue != [] then s
  else (e.held.filter fun h => h < 32 && !e.unacked.contains h).foldl (fun (s : State) h => s.recallOwn unit h) s
/-- A recall of a unit to a holder: one packet for each line of it at another module (R368, R374). -/
def State.sendRecall (s : State) (unit h : Nat) : State :=
  (if 32 ≤ h then s.unitOf unit else [unit]).foldl (fun (s : State) x =>
    let e := s.dirEntry unit
    (s.setDir unit { e with recalls := e.recalls ++ [(h, x)] }).send (homeDie (lineAddr x)) h (homeDie (lineAddr x)) tyRecall (lineAddr x) [] 0) s
/-- Other modules that hold a unit are asked for it. -/
def State.askBack (s : State) (unit : Nat) : State :=
  let e := s.dirEntry unit
  let hs := e.held.filter (32 ≤ ·)
  if e.queue != [] || e.recalls != [] || hs.any e.unacked.contains then s else hs.foldl (fun (s : State) h => s.sendRecall unit h) s
/-- A tracked unit is recalled from every holder. -/
def State.recallUnit (s : State) (unit : Nat) : State := (s.takeHome unit).askBack unit

/-- The unit whose entry a new one takes when its set of 16 is full: the one used longest ago (R367). An atomic is one step, so that no entry is pinned
when another is made (R370). -/
def State.victim (s : State) (unit : Nat) : Option Nat :=
  if s.dir.length < 16 || (s.dirEntry unit).state.isSome then none
  else
    let set := s.dirOrder.filter fun u =>
      u != unit && homeDie (lineAddr u) = homeDie (lineAddr unit) && Config.dirSet u = Config.dirSet unit && (s.dirEntry u).state.isSome
    if set.length < 16 then none else set.head?
/-- The directory makes room for an entry. -/
def State.makeRoom (s : State) (unit : Nat) : State :=
  match s.victim unit with
  | some v => s.recallUnit v
  | none => s
/-- An entry must wait for room: the unit that gives way is not held by dies of this module alone. -/
def State.roomWaits (s : State) (unit : Nat) : Bool :=
  match s.victim unit with
  | some v =>
    let e := s.dirEntry v
    e.queue != [] || e.recalls != [] || e.held.any fun h => 32 ≤ h || e.unacked.contains h
  | none => false

/-! ## Lines of other modules (R364, R365, R369) -/

/-- The dies of this module that hold a line. -/
def State.heldHere (s : State) (x : Nat) : List Nat := (List.range 28).filter fun d => (tget? s.holders (holderKey d x)).isSome
def isWriteback : Option LineState → Bool
  | some (.writeback _ _) => true
  | _ => false
/-- A die of this module holds a line of another as an access needs it, and none writes it back. -/
def State.foreignHeld (s : State) (write : Bool) (x : Nat) : Bool :=
  let st := (s.heldHere x).map fun d => tget? s.holders (holderKey d x)
  st.contains (some .m) && !st.any isWriteback || !write && st.contains (some .s) && !st.any isWriteback
/-- A line of another module moves to the die that accesses it from the one that holds it. -/
def State.ownForeign (s : State) (h : Nat) (r : DirReq) (x : Nat) : State :=
  let ds := (s.heldHere x).filter (· != h)
  let mine := tget? s.holders (holderKey h x)
  let give := fun (s : State) => ds.foldl (fun (s : State) d => { (s.recallActs d x) with holders := tdel s.holders (holderKey d x) }) s
  if mine = some .m || (r = .s && mine = some .s) then s
  else if r = .m || ds.any fun d => tget? s.holders (holderKey d x) = some .m then
    (fun (s : State) => { s with holders := tput s.holders (holderKey h x) .m }) (give s)
  else { s with holders := tput s.holders (holderKey h x) .s }

/-! ## Accesses of this module (R365, R366, R369) -/

/-- What an access asks of the home. -/
def askFor (write : Bool) : DirReq := if write then .m else .s
/-- A holder of this module takes a line, and what stands in the way gives way (R365, R366). The lines of a reduction window stay at their home
(R383). -/
def State.ownLine (s : State) (h : Nat) (r : DirReq) (line : Nat) : State :=
  let u := s.unitKey line
  if lineHome line != s.pkg then (if s.foreignHeld (r = .m) line then s.ownForeign h r line else s)
  else if (s.dirEntry u).has h r then s
  else
    let s1 := ((s.dirEntry u).inTheWay h r).foldl (fun (s : State) o => s.recallOwn u o) s
    if h = 31 || h = homeDie (lineAddr line) || s.inOwnWindow s.pkg (lineAddr line) then s1
    else
      let s2 := s1.makeRoom u
      let e := s2.dirEntry u
      (s2.unitOf u).foldl (fun (s : State) x => { s with holders := tput s.holders (holderKey h x) (if r = .m then .m else .s) })
        (s2.setDir u { e.grant h r with unacked := e.unacked })
/-- An access of an agent takes its lines through the directory. An atomic is performed at the home, where no copy is left (R365, R371). -/
def State.ownLines (s : State) (who : Agent) (write : Bool) (pa n : Nat) : State :=
  (linesOf pa n).foldl (fun (s : State) x => s.ownLine who.holder (askFor write) x) s

/-- A line is not at hand. Of this module's own: the home serves its unit for another, a copy of another module stands in the way or one whose grant has
not been acknowledged, the holder of the access writes the line back, or the directory has no room. Of another module's: no die of this one holds it as
the access needs it. The access waits. -/
def State.lineAway (s : State) (who : Agent) (write : Bool) (x : Nat) : Bool :=
  if lineHome x = s.pkg then
    let u := s.unitKey x
    let e := s.dirEntry u
    e.queue != [] || e.recalls != [] || ((e.inTheWay who.holder (askFor write)).any fun h => 32 ≤ h || e.unacked.contains h) ||
    isWriteback (tget? s.holders (holderKey who.holder x)) || (who.holder < 28 && s.roomWaits u)
  else s.place (lineAddr x) = .device && !s.distant who (lineAddr x) && !s.foreignHeld write x
/-- Something that an access needs is not at hand: a line, or the value of a read that is made on another module. -/
def State.awaits (s : State) (who : Agent) (write : Bool) (pa n : Nat) : Bool :=
  ((linesOf pa n).any fun x => s.lineAway who write x) || (!write && s.distant who pa && (s.valueAt who pa).isNone)
/-- What is asked for a line: the copies of other modules that stand in the way are recalled, the directory makes room, and another module's home gets
one request at a time from this module. -/
def State.seekLine (s : State) (who : Agent) (write : Bool) (x : Nat) : State :=
  let u := s.unitKey x
  if !s.lineAway who write x then s
  else if lineHome x = s.pkg then
    (if ((s.dirEntry u).inTheWay who.holder (askFor write)).any (32 ≤ ·) then s.askBack u else s.makeRoom u)
  else if s.asks.any fun a => match a.2.what with | .line _ y _ => y = x | _ => false then s
  else if (s.heldHere x).any fun d => isWriteback (tget? s.holders (holderKey d x)) then s
  else
    s.askHome (.line who.holder x write) who.holder (if !write then tyReadS else if s.heldHere x = [] then tyReadM else tyUpgrade) (lineAddr x) [] 0 .none
/-- What an access waits for is asked for. -/
def State.seek (s : State) (who : Agent) (write : Bool) (pa n : Nat) : State :=
  let s1 := (linesOf pa n).foldl (fun (s : State) x => s.seekLine who write x) s
  if !write && s.distant who pa && !s.askedValue who pa then s1.askHome (.value who pa n) who.die tyUncachedRead pa [] 0 (.size n) else s1

/-! ## Partials of the reduction windows (R384 to R386) -/

/-- A partial goes to another module: each of its elements is a Contribution, with POIS where its sector is poisoned (R385, R386). -/
def State.partialAway (s : State) (p : Partial) : State :=
  p.vals.foldl (fun (s : State) v =>
    s.askHome (.ack (.hart 129) p.acks) (24 + p.quarter) tyContribution (lineAddr p.line + v.1) [] (b2n (p.pois.contains (v.1 / 32)))
      (.atom p.op .rne v.2 0 true)) s
/-- A partial reaches the home here: each of its elements is added to memory as one atomic, and poisoned sectors are written poisoned. -/
def State.partialHome (s : State) (p : Partial) : State :=
  let s0 := s.ownLines .other true (lineAddr p.line) 128
  let s1 := p.vals.foldl (fun s v =>
    let pa := lineAddr p.line + v.1
    let s' := s.observe .other true pa (AtomOp.bytes p.op)
    match p.op, AtomOp.narrow p.op with
    | .flt _ t, true => s'.shadowAdd t .rne pa v.2.toNat
    | _, _ => (s'.rmw p.op .rne pa v.2.toNat 0).1) s0
  s1.setPoison (p.pois.map fun o => lineAddr p.line + o * 32)
/-- A partial is forwarded. -/
def State.forwardPartial (s : State) (n : Nat) : State :=
  match tget? s.partials n with
  | none => s
  | some p =>
    let s0 := { s with partials := tdel s.partials n }
    if lineHome p.line != s.pkg then s0.partialAway p else s0.partialHome p
/-- The partials that the quarters of this module hold for a line homed here. -/
def State.linePartials (s : State) (pa n : Nat) : Tab Partial :=
  let ls := linesOf pa n
  s.partials.filter fun p => ls.contains p.2.line && lineHome p.2.line = s.pkg
/-- The partials of the lines that a plain access touches are forwarded first; those for other modules are not waited for (R385). -/
def State.forwardLines (s : State) (pa n : Nat) : State := (s.linePartials pa n).foldl (fun s p => s.forwardPartial p.1) s

/-- The line of an access is brought up to date: its partials are forwarded, and its shadow is folded (R88, R385). -/
def State.settle (s : State) (pa n : Nat) : State := (s.forwardLines pa n).foldLines pa n

/-- A write at a physical address that carries no translation: an access of another kind for its class unit (R190), seen by every agent (R242). -/
def State.writeRaw (s : State) (pa : Nat) (bs : List Byte) : State :=
  (((s.settle pa bs.length).observe .other true pa bs.length).classifyRaw pa bs.length).putBytes pa bs
/-- A read at a physical address that carries no translation (R88, R190, R242). -/
def State.readRaw (s : State) (pa n : Nat) : State := ((s.settle pa n).observe .other false pa n).classifyRaw pa n
/-- A word that such a read finds. -/
def State.rawW64 (s : State) (pa : Nat) : W64 := if s.shadows = [] && s.partials = [] then s.getW64 pa else (s.settle pa 8).getW64 pa

/-- The partials and the shadows of the lines of an area are brought up to date. -/
def State.settleArea (s : State) (pa n : Nat) : State :=
  let hit := fun (l : Nat) => decide (pa < l * 128 + 128 ∧ l * 128 < pa + n)
  let s1 := (s.partials.filter fun p => hit p.2.line).foldl (fun s p => s.forwardPartial p.1) s
  (s1.shadows.filter fun x => hit x.1).foldl (fun s x => s.foldLine x.1) s1
/-- An area is about to be written without translation: what `writeRaw` does before its bytes. -/
def State.sweep (s : State) (pa n : Nat) : State :=
  ((s.settleArea pa n).observe .other true pa n).classifyRaw pa n

/-! ## The home serves requests (R366, R367) -/

/-- The home serves the requests for a unit one at a time: it recalls what stands in the way, once the grant of that holder has been acknowledged, makes
room for the entry, and grants when nothing stands in the way. Data goes to another module for the line it asked for (R374). -/
def State.dirServe (unit : Nat) : Nat → State → State
  | 0, s => s
  | n + 1, s =>
    let e := s.dirEntry unit
    match e.queue with
    | [] => s.setDir unit e
    | x :: q =>
      let far := 32 ≤ x.holder
      let pa := lineAddr x.line
      if e.recalls != [] || (far && s.lockHits .other (x.req = .m || s.linePartials pa 128 != []) pa 128) then s
      else
        match e.inTheWay x.holder x.req with
        | [] =>
          let s0 := s.makeRoom unit
          if (s0.victim unit).isSome then s0
          else
            let s1 := s0.settle pa 128
            let s1 := if far then s1.observe .other (x.req = .m) pa 128 else s1
            State.dirServe unit n ((s1.setDir unit { e.grant x.holder x.req with queue := q }).sendTag (homeDie pa) x.holder x.die tyData pa
              (if far then s1.getBytes pa 128 else []) (if far then s1.payloadMarks pa 128 else 0) x.tag .none)
        | ws =>
          if ws.any e.unacked.contains then s else ws.foldl (fun (s : State) w => s.sendRecall unit w) s
def State.dirPump (s : State) (unit : Nat) : State := s.dirServe unit ((s.dirEntry unit).queue.length + 1)

/-- A request of a holder reaches the home of its line; a quarantined holder's is dropped (R382). A line of a reduction window is lent to nobody (R383): a
reader gets its data alone. -/
def State.request (s : State) (h line : Nat) (r : DirReq) : State :=
  let u := s.unitKey line
  let pa := lineAddr line
  if lineHome line != s.pkg || s.quarantined h then s
  else if s.inOwnWindow s.pkg pa then
    (if r = .m then s
     else
       let s1 := s.settle pa 128
       s1.sendTag (homeDie pa) h s.replyTo.1 tyData pa (if 32 ≤ h then s1.getBytes pa 128 else []) (if 32 ≤ h then s1.payloadMarks pa 128 else 0)
         s.replyTo.2 .none)
  else
    let e := s.dirEntry u
    (s.setDir u { e with queue := e.queue ++ [⟨h, r, line, s.replyTo.1, s.replyTo.2⟩] }).dirPump u

/-! ## What holds an access back (R203, R237, R365) -/

/-- The access takes a unit from the private class of another core's L1, and that core still has remote stores that are not acknowledged or that
wait at their targets (R203). The accesses of engines and fetches, which carry thread 33, do not go through an L1. -/
def State.promotes (s : State) (who : Agent) (pa n : Nat) : Bool :=
  let mine := match who with | .thread w t => if t < 33 then some (warpCore w) else none | _ => none
  s.classes.any fun e =>
    (ClassEntry.covers e pa || ClassEntry.covers e (pa + (n - 1))) &&
    match e.2.cls with
    | .priv c => mine != some c && ((s.remote.any fun r => warpCore r.2.warp = c || r.2.twin.map warpCore = some c) ||
        s.cores.any fun x => (x.2.mbWait.map (·.sender) ++ x.2.tileWait.map (·.sender)).any fun y =>
          match y with | .warp w => warpCore w = c | .hart _ => false)
    | .shared => false

/-- The remote stores that one of a number can wait for: those before it (R203). -/
def State.asOf (s : State) (own : Option Nat) : State :=
  match own with
  | some i => { s with remote := s.remote.filter fun r => r.1 < i }
  | none => s

/-- The access must wait: something it needs is not at hand, it promotes the stores of a core that are not done, or it conflicts with one of the lock
holder's (R237). A partial of its line is written first (R385). -/
def State.lockBlocks (s : State) (who : Agent) (write : Bool) (pa n : Nat) : Bool :=
  s.awaits who write pa n || s.promotes who pa n || s.lockHits who (write || s.linePartials pa n != []) pa n

/-- A write of the module itself, a grid's signal word or a fault-queue entry, takes its lines through the directory and is performed at the home. -/
def State.writeHome (s : State) (pa : Nat) (bs : List Byte) : State :=
  if s.distant .other pa then s.writeAway (.hart 129) pa bs [] [] else (s.ownLines .other true pa bs.length).writeRaw pa bs

end Sys2Proof.Machine
end

