-- ==== Sys2Proof/Machine/Ring.lean ====
section
/-! DEFINITION. The fault queue (R329 to R331) and what a fault-queue entry holds (R330, R363). -/

namespace Sys2Proof.Machine

/-- dxfq names a queue (R329). -/
def State.hasQueue (s : State) : Bool := bfld s.dxfq 12 41 != 0
/-- The entries the ring holds (R329). -/
def State.ringCap (s : State) : Nat := 256 * 2 ^ bfld s.dxfq 0 4
def State.ringBase (s : State) : Nat := bfld s.dxfq 12 41 * 4096

/-- The fields of a fault-queue entry (R330) but for TIME and SEQ, which the writing fixes. -/
structure FaultInfo where
  va : W64
  ctx : Nat
  core : Nat
  slot : Nat
  kind : Nat
  size : Nat
  flags : Nat
  mask : W32
  deriving DecidableEq, Repr

/-- The four words of an entry (R330). -/
def FaultInfo.words (f : FaultInfo) (time seq : Nat) : List W64 :=
  [f.va,
   BitVec.ofNat 64 (f.ctx % 2 ^ 16 + f.core % 2 ^ 16 * 2 ^ 16 + f.slot % 256 * 2 ^ 32 + f.kind % 256 * 2 ^ 40 + f.size % 256 * 2 ^ 48 +
     f.flags % 256 * 2 ^ 56),
   BitVec.ofNat 64 time,
   BitVec.ofNat 64 (f.mask.toNat + seq * 2 ^ 32)]

/-- Words as the bytes they are stored as. -/
def wordBytes (ws : List W64) : List Byte := ws.flatMap fun w => leBytes 8 w.toNat

/-- Where the next entry goes: the k-th since dxfq was written lies at BASE + 32 * (k mod size) (R329). -/
def State.ringNext (s : State) : Nat := s.ringBase + 32 * (s.ringWritten % s.ringCap)
/-- The ring has room, and the line of the next entry is at hand and not the lock holder's (R237, R331). -/
def State.ringRoom (s : State) : Bool := s.pend < s.ringCap && !s.lockBlocks .other true s.ringNext 32
/-- Store an entry in the ring, where every agent sees it (R329). -/
def State.ringStore (s : State) (ws : List W64) : State :=
  let s' := s.writeHome s.ringNext (wordBytes ws)
  { s' with pend := s.pend + 1, ringWritten := s.ringWritten + 1 }

/-- Form an entry and write it, or keep it for room (R331). -/
def State.faultEntry (s : State) (f : FaultInfo) : State :=
  let ws := f.words s.time s.faultSeq
  let s' := { s with faultSeq := (s.faultSeq + 1) % 2 ^ 32 }
  if s.heldFaults = [] ∧ s.ringRoom then s'.ringStore ws
  else { s' with heldFaults := s.heldFaults ++ [⟨f.ctx, ws⟩] }

/-- Write held entries while the ring has room, oldest first (R331). -/
def State.drainHeld (s : State) : List HeldFault → State
  | [] => { s with heldFaults := [] }
  | h :: r => if s.ringRoom then (s.ringStore h.words).drainHeld r else { (s.seek .other true s.ringNext 32) with heldFaults := h :: r }

end Sys2Proof.Machine
end

