-- ==== Sys2Proof/Machine/Lifecycle.lean ====
section
/-! DEFINITION. The end of gangs and grids: a gang kill (R321), a group's retirement and a grid's completion (R157, R158). -/

namespace Sys2Proof.Machine

/-! ## Completion of a grid -/

/-- The signal word of a grid with a status (R158). -/
def signalWord (id runs status : Nat) : Nat := id * 2 ^ 32 + runs % 256 * 256 + status % 256

/-- A grid completes: the signal word is written at the address fixed at acceptance, and the identifier is freed
(LAUNCH_COMPLETION, R157). -/
def State.completeGrid (s : State) (id : Nat) : State :=
  match tget? s.grids id with
  | none => s
  | some g =>
    let st := if g.status = 0 then 1 else g.status
    let runs := maxOf (g.runs :: (s.gangs.filter fun x => x.1 / 2 ^ 32 = id).map fun x => x.2.runs)
    let s1 := match g.signalPa with
      | some pa => s.writeHome pa (leBytes 8 (signalWord id runs st))
      | none => s
    let s2 := match g.parent with
      | some p => if (tget? s1.groups p).isSome then s1.modGroup p fun x => { x with children := x.children.filter (· != id) } else s1
      | none => s1
    { s2 with
      grids := tdel s2.grids id
      gangs := (s2.gangs.filter fun x => x.1 / 2 ^ 32 != id).map fun (x : Nat × Gang) => (x.1, { x.2 with kids := x.2.kids.filter (· != id) }) }

/-- What stands for a grid in the record of a remote store whose warp has left its slot. -/
def gridKey (id : Nat) : Nat := 2 ^ 40 + id
/-- Nothing holds the completion of a grid back: every store of its warps is performed, the killed grids that its gangs launched have completed
(R158), and nothing holds its signal store back (R157, R203, R237). -/
def State.mayComplete (s : State) (id : Nat) (g : Grid) : Bool :=
  !(s.gangs.any fun x => x.1 / 2 ^ 32 = id && x.2.kids != []) && !(s.remote.any fun r => r.2.warp = gridKey id) &&
  (match g.signalPa with | some pa => !s.lockBlocks .other true pa 8 | none => true)
/-- The grid completes when all its gangs have retired and their stores are performed (R157). -/
def State.completeIfDone (s : State) (id : Nat) : State :=
  match tget? s.grids id with
  | some g => if g.lrec.gangs ≤ g.retired && s.mayComplete id g then s.completeGrid id else s
  | none => s

/-- Every gang of a grid that fails counts as retired, and the grid completes when its stores are performed (R157, R158). -/
def State.failGrid (s : State) (id : Nat) : State :=
  if (tget? s.grids id).isSome then (s.modGrid id fun g => { g with retired := max g.retired g.lrec.gangs }).completeIfDone id else s

/-- STATUS of a grid, unless an earlier failure set another (R321). -/
def State.setStatus (s : State) (id st : Nat) : State :=
  if (tget? s.grids id).isSome then s.modGrid id fun g => { g with status := if g.status = 0 then st else g.status } else s

/-! ## Removing warps and groups -/

/-- Mailbox state of the warp in a slot is emptied; stores waiting for it are discarded and counted, and can be acknowledged (R182, R184,
R323). -/
def State.dropMail (s : State) (w : Nat) : State :=
  if savedKey w then s else
  let c := s.core (warpCore w)
  let mine := c.mbWait.filter fun x => x.slot = warpSlot w
  s.modCore (warpCore w) fun c =>
    { c with mail := c.mail.filter fun x => x.1 / 4 != warpSlot w
             mbOpen := c.mbOpen.filter fun x => x.slot != warpSlot w
             mbWait := c.mbWait.filter fun x => x.slot != warpSlot w
             mbdrop := c.mbdrop + BitVec.ofNat 64 mine.length }

/-- The sender of the open packets of a warp that is gone: no later store fills them (R182). -/
def goneSender : Sender := .warp (2 ^ 33)
/-- The packets that a warp and its engines have left open at mailboxes are nobody's. -/
def State.orphanPackets (s : State) (w : Nat) : State :=
  let f := fun (p : OpenPkt) => if p.sender = .warp w || p.sender = .warp (2 ^ 32 + w) then { p with sender := goneSender } else p
  { s with
    cores := s.cores.map fun c => (c.1, { c.2 with mbOpen := c.2.mbOpen.map f })
    saved := s.saved.map fun v => (v.1, { v.2 with mbOpen := v.2.mbOpen.map f }) }
/-- The arrivals of a warp's threads are no longer kept; they have exited, so no phase counts them (R160). -/
def Barrier.without (b : Barrier) (w : Nat) : Barrier := { b with arrived := b.arrived.filter fun x => x / 32 != w }
def State.dropArrivals (s : State) (w : Nat) : State :=
  { s with
    groups := s.groups.map fun x => (x.1, { x.2 with bars := x.2.bars.map (·.without w) })
    gangs := s.gangs.map fun x => (x.1, { x.2 with bars := x.2.bars.map (·.without w) })
    grids := s.grids.map fun x => (x.1, { x.2 with bars := x.2.bars.map (·.without w) }) }

/-- A warp is gone: its transactions, the lock and the queues it stands in are released. Its stores that are not acknowledged are its grid's from
then on (R157). -/
def State.dropWarp (s : State) (w : Nat) : State :=
  let before := (s.warp w).slotsHeld
  let s1 := ((s.dropMail w).orphanPackets w).dropArrivals w
  let s2 := { s1 with
    warps := tdel s1.warps w
    lockQueue := s1.lockQueue.filter fun q => q.warp != w
    slotQueue := s1.slotQueue.filter fun q => q.1 != w
    commits := s1.commits.filter fun c => match c.2 with | .warp k _ _ _ => k != w | .hart _ => true
    remote := s1.remote.map fun (r : Nat × Remote) => (r.1, { r.2 with
      warp := if r.2.warp = w then gridKey (s.groupOf w).grid else r.2.warp
      twin := r.2.twin.filter fun j => j != w })
    txSlots := s1.txSlots.filter fun i => !before.contains i }
  let s3 := s2.grantSlots s2.slotQueue
  match s3.lock with
  | some l => if l.warp = w then s3.releaseLock else s3
  | none => s3

/-- The stores of a killed warp and of its engines that wait are not performed (R321); those that are performed can still be acknowledged. -/
def State.abandonStores (s : State) (w : Nat) : State :=
  let keep := fun (x : Sender) => x != .warp w && x != .warp (2 ^ 32 + w)
  { s with
    cores := s.cores.map fun c =>
      (c.1, { c.2 with mbWait := c.2.mbWait.filter fun x => keep x.sender, tileWait := c.2.tileWait.filter fun x => keep x.sender }) }
/-- A core's array, and the pair MMA it is held back for, are no group's any more. -/
def Core.freeOf (c : Core) (k : Nat) : Core :=
  { c with array := c.array.filter fun a => a.group != k, pairHold := c.pairHold.filter fun a => a.group != k }

/-- A slot-table entry takes a state (R154). -/
def State.setSlotState (s : State) (g st : Nat) : State :=
  s.modSlot (g / 64) (g % 64) fun e => { e with ctl := setFld e.ctl 0 3 st }

/-- The group's records are emptied and its bands given up (R289, R311): a bank received through MGIVE goes back to the base
or the pool it came from. -/
def State.returnBanks (s : State) (k : Nat) : State :=
  let g := s.group k
  let s1 := (bitsOf g.own).foldl (fun s b => s.modBand g.core b fun _ => Band.zero) s
  let passed := (bitsOf g.own).filter fun b => g.passed.getLsbD b
  let zeroed := passed.foldl
    (fun s b => { s with mem := s.mem.filter fun c =>
        !(windowBase s.pkg g.core + 0x100000 + b * 0x4000 ≤ c.1 && c.1 < windowBase s.pkg g.core + 0x100000 + (b + 1) * 0x4000) }) s1
  passed.foldl (fun s b =>
    match s.groups.find? fun x => x.1 != k && x.2.core = g.core && x.2.banks.getLsbD b with
    | some x => s.modGroup x.1 fun h => { h with own := h.own ||| bit64 b }
    | none =>
      match s.groups.find? fun x => x.1 != k && x.2.core = g.core && x.2.pool.getLsbD b with
      | some x => s.modGroup x.1 fun h => { h with poolFree := h.poolFree ||| bit64 b }
      | none => s) zeroed

/-- A group leaves its core: its warps, banks, engine work and record go, and its entry becomes DONE (R154, R157). -/
def State.removeGroup (s : State) (k : Nat) : State :=
  let g := s.group k
  let s1 := (s.groupWarps k).foldl (fun s w => (s.abandonStores w).dropWarp w) s
  let s2 := if g.stored then s1 else s1.returnBanks k
  let s3 := (s2.modCore g.core (·.freeOf k)).modCore (pairCore g.core) (·.freeOf k)
  let s4 := s3.setSlotState k 3
  { s4 with
            groups := tdel s4.groups k, saved := tdel s4.saved k
            flows := s4.flows.map fun (f : Nat × Vector W64 4) =>
              if g.cbs.toList.any fun c => match c with | some c => c.ingest.contains f.1 | none => false then
                (f.1, vset f.2 0 (setFld (vget 0 f.2 0) 63 1 0))
              else f }

/-! ## Kills (R321, R348) -/

/-- What a kill-record says of its cause (R330, R348, R363). -/
structure KillCause where
  reason : Nat
  va : W64
  core : Nat
  slot : Nat
  mask : W32
  flags : Nat
  deriving DecidableEq, Repr

/-- The core on which a gang's group 0 stands or last stood (R363). -/
def State.gangCore (s : State) (k : Nat) : Nat :=
  match (s.gang k).groups.find? fun g => (s.group g).index = 0 with
  | some g => g / 64
  | none => (s.gang k).lead

/-- The gangs of a grid that stand on cores, in the order of the cores that their kill records name (R363). -/
def State.liveGangs (s : State) (id : Nat) : List Nat :=
  sortBy s.gangCore ((s.gangs.filter fun x => x.1 / 2 ^ 32 = id && x.2.groups != []).map (·.1))

/-- What a kill does: the state after it, and the kill records it forms, which are dropped where dxfq names no queue (R321, R329). -/
structure Killed where
  after : State
  recs : List FaultInfo

/-- Steps 2 to 6 of R321 for one gang. The gang's record stays, for Coppice (R350). A hardware-error kill counts in dxpois (R349). -/
def State.killGang (s : State) (k : Nat) (c : KillCause) : Killed :=
  let g := s.gang k
  let lead := s.gangCore k
  let s1 := (g.groups ++ g.twin).foldl (fun s x => s.removeGroup x) s
  let again := c.reason = 1 || c.reason = 2 || c.reason = 4
  let s2 := if c.reason = 4 then { s1 with dxpois := s1.dxpois + 1 } else s1
  let s3 := s2.modGang k fun x => { x with groups := [], twin := [], lead := lead, killed := some c.reason, bars := Vector.replicate 16 Barrier.start }
  ⟨if again then s3 else (s3.modGrid g.grid fun x => { x with retired := x.retired + 1 }).setStatus g.grid 4,
   if s.hasQueue then [⟨c.va, (s.grid g.grid).ctx, c.core, c.slot, 7, c.reason, c.flags, c.mask⟩] else []⟩

/-- Kills one after the other. -/
def Killed.also (x : Killed) (f : State → Killed) : Killed :=
  let y := f x.after
  ⟨y.after, x.recs ++ y.recs⟩
def Killed.map (x : Killed) (f : State → State) : Killed := ⟨f x.after, x.recs⟩

/-- R321 with its first step: the grids the gang launched are killed first and complete with STATUS 4 (R158); one whose stores are not acknowledged
yet is kept in `kids`. The number bounds the nesting of grids (R101). -/
def State.killTree : Nat → State → Nat → KillCause → Killed
  | 0, s, k, c => s.killGang k c
  | n + 1, s, k, c =>
    let kids := ((s.gang k).groups ++ (s.gang k).twin).flatMap fun g => (s.group g).children
    let gid := k / 2 ^ 32
    let r := kids.foldl (fun (x : Killed) id =>
      ((x.after.liveGangs id).foldl (fun (x : Killed) j =>
        x.also fun s => State.killTree n s j ⟨6, BitVec.ofNat 64 gid, s.gangCore j, 0, 0, 0⟩) x).map fun s => (s.setStatus id 4).failGrid id) ⟨s, []⟩
    (r.also (·.killGang k c)).map fun s => s.modGang k fun g => { g with kids := kids.filter fun id => (tget? r.after.grids id).isSome }

/-- Grids nest to depth 9 (R101). -/
def nestDepth : Nat := 10

/-- The kill records of one clock are written in ascending CORE, then WARP, then VA (R363). -/
def Killed.out (x : Killed) : State :=
  (sortBy (fun f : FaultInfo => (f.core * 64 + f.slot) * 2 ^ 64 + f.va.toNat) x.recs).foldl State.faultEntry x.after

/-- Gangs are killed, each for its cause, and a grid of which nothing is left completes (R321). -/
def State.killAll (s : State) (ks : List (Nat × KillCause)) : Killed :=
  ks.foldl (fun (x : Killed) y => (x.also fun s => s.killTree nestDepth y.1 y.2).map (·.completeIfDone (y.1 / 2 ^ 32))) ⟨s, []⟩
def State.kill (s : State) (k : Nat) (c : KillCause) : State := (s.killAll [(k, c)]).out
/-- The cause of a kill that no warp causes: CORE is that of the gang's group 0 (R363). -/
def State.causeAt (s : State) (k reason : Nat) (va : W64) : KillCause := ⟨reason, va, s.gangCore k, 0, 0, 0⟩

/-- A kill that a warp causes (R363). -/
def State.warpCause (s : State) (w reason : Nat) (va : W64) (mask : W32) : KillCause :=
  ⟨reason, va, (s.warpPlace w).1, (s.warpPlace w).2, mask, if (s.warp w).handler then 8 else 0⟩
def State.killBy (s : State) (w reason : Nat) (va : W64) (mask : W32) : State :=
  s.kill (s.groupOf w).gangKey (s.warpCause w reason va mask)

/-- Every gang of a grid is killed for a reason that no warp causes. -/
def State.killGangs (s : State) (id reason : Nat) (va : W64) : Killed :=
  (s.liveGangs id).foldl (fun (x : Killed) j => x.also fun s => s.killTree nestDepth j (s.causeAt j reason va)) ⟨s, []⟩
/-- Every gang of a grid is killed and the grid completes with STATUS 4 (R158, R336). -/
def State.killGrid (s : State) (id reason : Nat) (va : W64) : Killed :=
  (s.killGangs id reason va).map fun s => (s.setStatus id 4).failGrid id

/-! ## Retirement (R157) -/

/-- All warps of a group have ended and left their slots, and every grid it launched has completed. -/
def State.groupDone (s : State) (k : Nat) : Bool :=
  let g := s.group k
  (tget? s.groups k).isSome && s.slotState k = 2 && g.children = [] && s.groupWarps k = []

/-- A group retires; the last group of a gang's run retires the gang, and the last gang completes the grid. -/
def State.retireGroup (s : State) (k : Nat) : State :=
  let g := s.group k
  let gk := g.gangKey
  let s1 := s.removeGroup k
  let lead := if g.index = 0 && g.copy = 0 then g.core else (s.gang gk).lead
  let s2 := s1.modGang gk fun x =>
    { x with lead := lead, groups := x.groups.filter (· != k), twin := x.twin.filter (· != k), retired := x.retired + 1 }
  if (s2.gang gk).groups = [] && (s2.gang gk).twin = [] then
    (s2.modGrid g.grid fun x => { x with retired := x.retired + 1, runs := max x.runs (s2.gang gk).runs }).completeIfDone g.grid
  else s2

end Sys2Proof.Machine
end

