-- ==== Sys2Proof/Machine/Ops.lean ====
section
/-! DEFINITION. The shared operations of control: taking a trap and returning from it, raising and delivering events, meets,
barriers, and the exit of threads. -/

namespace Sys2Proof.Machine

/-! ## Trap causes (R319) -/

def cIllegal : Nat := 0x01
def cIllreg : Nat := 0x02
def cPriv : Nat := 0x03
def cAlign : Nat := 0x04
def cAccess : Nat := 0x05
def cXlate : Nat := 0x06
def cAccUnalloc : Nat := 0x08
def cAccOwner : Nat := 0x09
def cMcheck : Nat := 0x0A
def cNest : Nat := 0x0B
def cBrk : Nat := 0x0C
def cTrapi : Nat := 0x0D
def cDecodeMiss : Nat := 0x0E
def cTxMisuse : Nat := 0x0F
def cDivZero : Nat := 0x10

/-! ## Taking a trap (R317, TRAP_TAKE) -/

/-- What entering the handler writes: the trap registers, the frozen threads, the PCs of H, handler mode. -/
def Warp.enterTrap (w : Warp) (h act : W32) (p : W64) (cause : Nat) (detail : W64) : Warp :=
  { w with
    trapc := BitVec.ofNat 64 cause
    trapa := detail
    trappc := p
    trapm := act.append h
    handler := true
    hset := h
    trapAt := p
    cur := none
    service := none
    cover := w.cover.filter fun a => a != p
    threads := vtab 32 fun t =>
      let x := w.thread t
      if h.getLsbD t then { x with pc := w.tvec, wait := 0, status := .eligible }
      else if x.status = .exited then x
      else { x with frozen := true } }

/-- A trap of warp k with handler set h at address p. Without a handler, or in handler mode, the gang is killed (R320, R321). -/
def State.takeTrap (s : State) (k : Nat) (h act : W32) (p : W64) (cause : Nat) (detail : W64) : State :=
  let w := s.warp k
  if w.tvec = 0 || w.handler then s.killBy k 0 p h
  else s.setWarp k (w.enterTrap h act p cause detail)

/-- A synchronous trap of the issuing instruction, with its active threads. Inside ordinary transactions it is suppressed
(R238): every active thread aborts with FAULT, and the others go on; in a mixed issue set the transactions are ended and the
trap is taken. A REP keeps its progress (R42). -/
def State.trapAct (s : State) (act : W32) (cause : Nat) (detail : W64) : State :=
  let ord := s.w.inTx s.iss.set
  if cause != cTxMisuse && s.iss.set != 0 && ord = s.iss.set then
    let rest := s.iss.set &&& ~~~act
    ((s.modW (·.setPcs rest s.nextPc)).abortSet s.iss.key act abFault cause).finish
  else
    let s1 := s.endTx s.iss.key ord
    let s2 := s1.modW fun w => if w.handler then w else { w with rprog := s.iss.idx, rprogPc := s.iss.pc }
    s2.takeTrap s.iss.key s.iss.set act s.iss.pc cause detail

/-- A trap of a U-set instruction: the active threads are the issue set (R317). -/
def State.trap (s : State) (cause : Nat) (detail : W64) : State := s.trapAct s.iss.set cause detail

/-- RTE in handler mode (R327). -/
def Warp.leaveTrap (w : Warp) : Warp :=
  { w with
    handler := false
    cur := none
    rprog := if w.trappc = w.trapAt then w.rprog else 0
    threads := vtab 32 fun t =>
      let x := w.thread t
      if w.hset.getLsbD t then (if x.status = .exited then x else { x with pc := w.trappc, status := .eligible })
      else { x with frozen := false } }

/-- Threads of a warp leave the waits they stand in, and the queues (R327). -/
def State.unpark (s : State) (k : Nat) (set : W32) : State :=
  if (s.warp k).parks.all fun p => p.set &&& set = 0 then s else
  let left := fun (w : Nat) (x : W32) => if w = k then x &&& ~~~set else x
  let s1 := s.modWarp k fun w =>
    { w with parks := w.parks.filterMap fun p => if p.set &&& ~~~set = 0 then none else some { p with set := p.set &&& ~~~set } }
  let s2 := s1.modGroup (s.warp k).group fun g =>
    { g with
      takeQ := g.takeQ.filterMap fun q => if left q.1 q.2.1 = 0 then none else some (q.1, left q.1 q.2.1, q.2.2)
      cbs := vtab 32 fun n => (vget none g.cbs n).map fun c =>
        { c with waiters := c.waiters.filterMap fun q => if left q.1 q.2.1 = 0 then none else some (q.1, left q.1 q.2.1, q.2.2) } }
  { s2 with
    slotQueue := s2.slotQueue.filterMap fun q => if left q.1 q.2 = 0 then none else some (q.1, left q.1 q.2)
    lockQueue := s2.lockQueue.filter fun q => !(q.warp = k && set.getLsbD q.thread)
    commits := s2.commits.filterMap fun c => match c.2 with
      | .warp w x md here => if left w x = 0 then none else some (c.1, .warp w (left w x) md here)
      | .hart _ => some c }

/-! ## Events (R165, R167) -/

/-- R167: the order of delivery. -/
def eventOrder : List Nat := [12, 13, 14, 15, 0, 1, 2, 3, 4, 5, 6, 7, 8, 9, 10, 11]
/-- The events a WANY with an interest mask may take: enabled and bound. -/
def Warp.anyEff (w : Warp) (interest : Nat) : BitVec 16 :=
  BitVec.ofNat 16 interest &&& w.evm &&& BitVec.ofNat 16 (maskNat (fun n => vget 0 w.evh n != 0) 16)
def Warp.firstEvent (w : Warp) (eff : BitVec 16) : Option Nat := eventOrder.find? fun n => (w.evp &&& eff).getLsbD n

/-- What the warp has begun goes on as it began: a REP between two issues, an instruction that has issued and waits, one that waits for translation
service. One that waits at issue has not begun, and the warp chooses afresh (R93, R94). -/
def Warp.kept (w : Warp) : Option Cur := w.cur.filter fun c => 0 < c.idx || c.words != [] || w.service.isSome

/-- Deliver an event to a set of threads of a warp (EVENT_DELIVERY). A handler that cannot be entered traps, at the warp's next choice (R93). -/
def State.deliver (s : State) (k : Nat) (set : W32) (n : Nat) : State :=
  let w := s.warp k
  let target := vget 0 w.evh n
  if !canonical target then
    if w.kept.isSome then s else
    let w' := { (w.modThreads set fun t => { t with status := .eligible }) with parks := w.parks.filter fun p => p.set != set }
    (s.setWarp k w').takeTrap k set set (w.thread ((lanesOf set).headD 0)).pc cAccess target
  else
    s.setWarp k { (w.modThreads set fun t => { t with pc := target, status := .eligible }) with
      evp := w.evp &&& ~~~(BitVec.ofNat 16 (2 ^ n)), parks := w.parks.filter fun p => p.set != set }

/-- Deliver to the parked issue sets of a warp, the first that parked first (R167). -/
def State.deliverParked (s : State) (k : Nat) : List Park → State
  | [] => s
  | p :: r =>
    match p.hold with
    | .wany i =>
      (match (s.warp k).firstEvent ((s.warp k).anyEff i) with
       | some n => (s.deliver k p.set n).deliverParked k r
       | none => s.deliverParked k r)
    | _ => s.deliverParked k r

/-- An event that can be delivered to a parked issue set is still to be delivered: its handler cannot be entered, and an instruction of the warp had
begun and not ended when it was raised (R93, R316). -/
def State.lateEvent (s : State) (k : Nat) : Bool :=
  let w := s.warp k
  w.kept.isNone && w.parks.any fun p => match p.hold with | .wany i => (w.firstEvent (w.anyEff i)).isSome | _ => false
/-- What follows a change of $evp, $evm or a handler register. -/
def State.eventsChanged (s : State) (k : Nat) : State := s.deliverParked k (s.warp k).parks

/-- Raise an event in a warp (R165); one whose context is saved has it merged into the saved $evp. -/
def State.raise (s : State) (k n : Nat) : State :=
  if savedKey k then
    let a := s.recordAt k + 0x06A0 + 8 * 0x13
    let v := BitVec.ofNat 16 (s.getNat a 2) ||| BitVec.ofNat 16 (2 ^ n)
    (s.modWarp k fun w => { w with evp := v }).putNat a 8 v.toNat
  else if (tget? s.warps k).isSome then
    (s.modWarp k fun w => { w with evp := w.evp ||| BitVec.ofNat 16 (2 ^ n) }).eventsChanged k
  else s

/-! ## Meets (R97) -/

/-- An open meet whose members have all arrived or exited releases them to its label; without members it closes
(MEET_RELEASE). Exited threads leave both sets. -/
def Warp.meetCheck (w : Warp) (n : Nat) : Warp :=
  let m := vget ⟨false, 0, 0, 0⟩ w.meets n
  let alive := w.threadsWith fun t => t.status != .exited
  let mem := m.members &&& alive
  let arr := m.arrived &&& alive
  if m.opened && (mem &&& ~~~arr) = 0 then
    { (w.modThreads arr fun t => { t with pc := m.label, status := .eligible }) with
      meets := vset w.meets n ⟨false, m.label, 0, 0⟩
      parks := w.parks.filterMap fun p =>
        if p.hold = .meet n then (let r := p.set &&& ~~~arr; if r = 0 then none else some { p with set := r }) else some p }
  else { w with meets := vset w.meets n { m with members := mem, arrived := arr } }

/-- Every meet is checked after an exit. -/
def Warp.meetsCheck (w : Warp) : Warp := (List.range 8).foldl (fun w n => w.meetCheck n) w

/-! ## Barriers (R160) -/

/-- The barrier of a reference. -/
def State.barrier (s : State) (b : BarRef) : Barrier :=
  match b.level with
  | .warp => (s.warp b.owner).bar
  | .group => vget Barrier.start (s.group b.owner).bars b.num
  | .gang => vget Barrier.start (s.gang b.owner).bars b.num
  | .grid => vget Barrier.start (s.grid b.owner).bars b.num
def State.setBarrier (s : State) (b : BarRef) (x : Barrier) : State :=
  match b.level with
  | .warp => s.modWarp b.owner fun w => { w with bar := x }
  | .group => s.modGroup b.owner fun g => { g with bars := vset g.bars b.num x }
  | .gang => s.modGang b.owner fun g => { g with bars := vset g.bars b.num x }
  | .grid => s.modGrid b.owner fun g => { g with bars := vset g.bars b.num x }

/-- The warps of a barrier's scope. -/
def State.scopeWarps (s : State) (b : BarRef) : List Nat :=
  match b.level with
  | .warp => if (tget? s.warps b.owner).isSome then [b.owner] else []
  | .group => s.groupWarps b.owner
  | .gang => (if b.num < 8 then (s.gang b.owner).groups else (s.gang b.owner).twin).flatMap s.groupWarps
  | .grid => (s.groups.filter fun g => g.2.grid = b.owner).flatMap fun g => s.groupWarps g.1

/-- The non-exited threads of a scope, as warp * 32 + thread. -/
def State.scopeThreads (s : State) (b : BarRef) : List Nat :=
  (s.scopeWarps b).flatMap fun w =>
    ((List.range 32).filter fun t => ((s.warp w).thread t).status != .exited).map fun t => w * 32 + t

/-- The barrier a warp names at a level (R160). In a paired grid each copy of a gang has barriers of its own. -/
def State.barRef (s : State) (k : Nat) (l : Level) (n : Nat) : BarRef :=
  match l with
  | .warp => ⟨.warp, k, 0⟩
  | .group => ⟨.group, (s.warp k).group, n⟩
  | .gang => ⟨.gang, (s.groupOf k).gangKey, n + 8 * (s.groupOf k).copy⟩
  | .grid => ⟨.grid, (s.groupOf k).grid, n⟩

/-- A phase can complete: every non-exited thread of the scope has arrived, and one at least. -/
def State.phaseFull (s : State) (b : BarRef) : Bool :=
  let x := s.barrier b
  let ts := s.scopeThreads b
  x.arrived != [] && ts.all x.arrived.contains && x.arrived.any ts.contains

/-- The effect of a completed phase on one warp: the threads that waited for it go on at their next instruction, and a thread
whose arrive waited for it arrives in the new phase. -/
def Warp.phaseDone (w : Warp) (k : Nat) (b : BarRef) (phase : Nat) : Warp × List Nat :=
  let freed := w.parks.foldl (fun (m : W32) p => match p.hold with
    | .bar c ph => if c = b && ph = phase then m ||| p.set else m
    | .rearrive c ph sync => if c = b && ph = phase && !sync then m ||| p.set else m
    | _ => m) 0
  let again := w.parks.foldl (fun (m : W32) p => match p.hold with
    | .rearrive c ph _ => if c = b && ph = phase then m ||| p.set else m
    | _ => m) 0
  let parks := w.parks.filterMap fun p => match p.hold with
    | .bar c ph => if c = b && ph = phase then none else some p
    | .rearrive c ph sync => if c = b && ph = phase then (if sync then some ⟨p.set, .bar b (phase + 1)⟩ else none) else some p
    | _ => some p
  ({ (w.modThreads freed fun t => { t with pc := t.pc + 4, status := .eligible }) with parks := parks },
   (lanesOf again).map (k * 32 + ·))

/-- A phase completes: it advances, the arrivals are cleared, the waiting threads go on, and the events bound to the barrier are
raised (R160, R165). -/
def State.completePhase (s : State) (b : BarRef) : State :=
  let x := s.barrier b
  let ws := s.scopeWarps b
  let r := ws.foldl (fun (acc : State × List Nat) k =>
    let w := acc.1.warp k
    let p := w.phaseDone k b x.phase
    let s1 := acc.1.setWarp k p.1
    (if savedKey k then s1.recordThreads k (maskOf fun t => w.thread t != p.1.thread t) else s1, acc.2 ++ p.2)) (s, [])
  let s1 := r.1.setBarrier b ⟨x.phase + 1, sortNat r.2⟩
  ws.foldl (fun s k =>
    (List.range 4).foldl (fun s i => if vget none (s.warp k).evbind i = some b then s.raise k (12 + i) else s) s) s1

/-- BARRIER_RELEASE: a barrier whose phase can complete completes it, and again while arrivals that waited fill the next. -/
def State.barrierCheck (s : State) (b : BarRef) : State :=
  if s.phaseFull b then
    let s1 := s.completePhase b
    if s1.phaseFull b then s1.completePhase b else s1
  else s

/-- The barriers a warp takes part in. -/
def State.barriersOf (s : State) (k : Nat) : List BarRef :=
  s.barRef k .warp 0 :: ((List.range 16).map (s.barRef k .group) ++ (List.range 8).map (s.barRef k .gang) ++
    (List.range 4).map (s.barRef k .grid))

/-- Threads arrive at a barrier: those without a pending arrival now, the others when their phase completes. -/
def State.arriveAt (s : State) (k : Nat) (set : W32) (b : BarRef) : State :=
  let x := s.barrier b
  s.setBarrier b { x with arrived := sortNat (x.arrived ++ (lanesOf set).map (k * 32 + ·)) }

/-- The threads of a set with a pending arrival (R160). -/
def State.pendingAt (s : State) (k : Nat) (set : W32) (b : BarRef) : W32 :=
  maskOf fun t => set.getLsbD t && (s.barrier b).arrived.contains (k * 32 + t)

/-! ## Exit (R323) -/

/-- Threads of a warp exit: their arrivals stay, their lanes leave meets, and a phase may complete. -/
def Warp.exitThreads (w : Warp) (set : W32) : Warp :=
  (w.modThreads set fun t => { t with status := .exited, wait := 0 }).meetsCheck

/-- No thread of the warp remains. -/
def Warp.ended (w : Warp) : Bool := (w.threadsWith fun t => t.status != .exited) = 0

end Sys2Proof.Machine
end

