-- ==== Sys2Proof/Machine/Translate.lean ====
section
/-! DEFINITION. Contexts, the page walk and the translation checks of a warp's access (R187 to R189, R213, R331). -/

namespace Sys2Proof.Machine

/-! ## Contexts (R329) -/

/-- The address of a context descriptor. -/
def State.descriptor (s : State) (ctx : Nat) : Nat := bfld s.dxctb 12 41 * 4096 + 64 * ctx
/-- ROOT of a context. -/
def State.root (s : State) (ctx : Nat) : Nat := bfld (s.getW64 (s.descriptor ctx)) 12 41 * 4096
/-- The context exists and its descriptor is well formed. -/
def State.ctxOk (s : State) (ctx : Nat) : Bool :=
  let d := s.getW64 (s.descriptor ctx)
  bbit s.dxctb 0 && bbit d 0 && bfld d 53 11 = 0 && bfld d 1 11 = 0 &&
  bfld (s.getW64 (s.descriptor ctx + 8)) 0 2 = 0
/-- TVEC of a context as $tvec takes it (R318, R329): bits [1:0] read 0. A TVEC that is no canonical address, which only a change after the launch can
leave, gives no handler: DESIGN CHOICE, log entry 42. -/
def State.ctxTvec (s : State) (ctx : Nat) : W64 :=
  let v := s.getW64 (s.descriptor ctx + 8)
  if canonical v then setFld v 0 2 0 else 0
/-- SNAPOK of a context. -/
def State.ctxSnapOk (s : State) (ctx : Nat) : Bool := bbit (s.getW64 (s.descriptor ctx + 16)) 0

/-! ## The walk -/

/-- The kinds of access, with the KIND of R330. -/
inductive AKind where
  | read
  | write
  | atomic
  | engRead
  | engWrite
  | fetch
  deriving DecidableEq, Repr

def AKind.code : AKind → Nat
  | .read => 1 | .write => 2 | .atomic => 3 | .engRead => 4 | .engWrite => 5 | .fetch => 6
/-- The permission an access needs (R188): bits 1 R, 2 W, 4 X. -/
def AKind.need : AKind → Nat
  | .read => 1 | .write => 2 | .atomic => 3 | .engRead => 1 | .engWrite => 2 | .fetch => 4
/-- Every needed permission is given. -/
def permOk (need perms : Nat) : Bool :=
  (need % 2 = 0 || perms % 2 = 1) && (need / 2 % 2 = 0 || perms / 2 % 2 = 1) && (need / 4 % 2 = 0 || perms / 4 % 2 = 1)

/-- What a walk finds. -/
inductive Walk where
  | ok (pa : Nat) (page : Nat) (nc : Bool)
  | miss (size : Nat) (perm : Bool)
  | malformed
  | poison
  deriving DecidableEq, Repr

/-- R188: a valid entry at a level that is malformed. -/
def pteMalformed (e : W64) (l : Nat) : Bool :=
  let leaf := bfld e 1 3 != 0
  bfld e 53 11 != 0 || bfld e 10 2 != 0 || bfld e 7 2 != 0 || bbit e 4 || 2 ≤ bfld e 5 2 ||
  (bbit e 2 && !bbit e 1) || (leaf && 3 ≤ l) || (!leaf && l = 0) ||
  (bfld e 5 2 = 1 && (!leaf || l = 2)) || (leaf && bfld e 12 41 % 2 ^ (9 * l) != 0)

/-- The walk from a table at level l - 1 down (R187). -/
def State.walkFrom (s : State) (va need : Nat) : Nat → Nat → Walk
  | 0, _ => .malformed
  | l + 1, table =>
    let ea := table + 8 * (va / 2 ^ (12 + 9 * l) % 512)
    if s.poisoned ea then .poison
    else
      let e := s.rawW64 ea
      if !bbit e 0 then .miss (min 30 (12 + 9 * l)) false
      else if pteMalformed e l then .malformed
      else if bfld e 1 3 = 0 then s.walkFrom va need l (bfld e 12 41 * 4096)
      else
        let unit := 4096 * 2 ^ (9 * l)
        let size := 12 + 9 * l + (if bfld e 5 2 = 1 then 4 else 0)
        if permOk need (bfld e 1 3) then .ok (bfld e 12 41 * 4096 + va % unit) size (bbit e 9)
        else .miss size true

/-- A translation-cache entry of a die for an address (R189). -/
def TlbEntry.covers (t : TlbEntry) (die ctx va : Nat) : Bool :=
  t.die = die && t.ctx = ctx && t.page ≤ va && va < t.page + 2 ^ t.size

/-- The translation of an address for an access on a die: a cached walk that gives the permission, or the walk. -/
def State.walk (s : State) (die ctx : Nat) (va : W64) (k : AKind) : Walk :=
  match s.tlb.find? fun t => t.covers die ctx va.toNat && permOk k.need t.perms with
  | some t => .ok (t.pa + (va.toNat - t.page)) t.size t.nc
  | none => s.walkFrom va.toNat k.need 5 (s.root ctx)

/-- The table entries that a walk reads (R187). -/
def State.walkPath (s : State) (va : Nat) : Nat → Nat → List Nat
  | 0, _ => []
  | l + 1, table =>
    let ea := table + 8 * (va / 2 ^ (12 + 9 * l) % 512)
    let e := s.rawW64 ea
    ea :: (if !s.poisoned ea && bbit e 0 && !pteMalformed e l && bfld e 1 3 = 0 then s.walkPath va l (bfld e 12 41 * 4096) else [])
/-- Nothing of the module takes notice of the reads of a walk. -/
def State.walksUnseen (s : State) : Bool := s.shadows = [] && s.partials = [] && s.classes = [] && s.harts.all fun h => h.2.tx.isNone
/-- The reads of a walk that no cached translation spares (R88, R190). -/
def State.touchWalk (s : State) (die ctx : Nat) (va : W64) (k : AKind) : State :=
  if s.walksUnseen || s.tlb.any fun t => t.covers die ctx va.toNat && permOk k.need t.perms then s
  else (s.walkPath va.toNat 5 (s.root ctx)).foldl (fun (s : State) a => s.readRaw a 8) s

/-- No line of the module can be away: nothing is lent, and no other module is connected. -/
def State.linesHere (s : State) : Bool := s.dir = [] && s.holders = [] && s.routes = Vector.replicate 32 0
/-- A table entry that a walk needs and that is not at hand. -/
def State.walkAway (s : State) (who : Agent) (ctx : Nat) (va : W64) (k : AKind) : Option Nat :=
  if s.linesHere || s.tlb.any fun t => t.covers who.holder ctx va.toNat && permOk k.need t.perms then none
  else (s.walkPath va.toNat 5 (s.root ctx)).find? fun a => s.awaits who false a 8

/-- The physical address, when the translation succeeds. -/
def Walk.pa : Walk → Option Nat
  | .ok pa _ _ => some pa
  | _ => none

/-! ## Translation checks of a warp's access (R213 step 4) -/

/-- Bytes that one thread, or a uniform instruction, touches: address and number. -/
structure Span where
  lane : Nat
  va : W64
  n : Nat
  deriving DecidableEq, Repr

/-- The bytes of a span modulo 2^64. -/
def Span.bytes (p : Span) : List Nat := (List.range p.n).map fun i => (p.va.toNat + i) % 2 ^ 64
/-- The 4 KiB pages that spans touch, ascending. -/
def pagesOf (ps : List Span) : List Nat :=
  sortNat (ps.flatMap fun p => [p.va.toNat / 4096, (p.va.toNat + (p.n - 1)) % 2 ^ 64 / 4096])

/-- A failing page: its lowest touched address, log2 size and whether the permission is lacking. -/
structure PageFail where
  va : Nat
  size : Nat
  perm : Bool
  deriving DecidableEq, Repr

/-- How the walks of an access end: the failing pages, and a page that ended them. -/
inductive WalkEnd where
  | all
  | malformed (va : Nat)
  | poison (va : Nat)
  deriving DecidableEq, Repr

/-- The reads of the walks of an access of the issuing warp. -/
def State.touchPages (s : State) (k : AKind) (ps : List Span) : State :=
  if s.walksUnseen then s
  else (dedup (pagesOf ps)).foldl (fun (s : State) p => s.touchWalk (s.coreNum / 48) s.gr.ctx (BitVec.ofNat 64 (p * 4096)) k) s

/-- A table entry that an access of the issuing warp needs and that is not at hand. -/
def State.pagesAway (s : State) (k : AKind) (ps : List Span) : Option Nat :=
  if s.linesHere then none
  else (pagesOf ps).findSome? fun p => s.walkAway (.thread s.iss.key 33) s.gr.ctx (BitVec.ofNat 64 (p * 4096)) k

/-- The lowest touched address in a range. -/
def lowestIn (ps : List Span) (lo n : Nat) : Nat :=
  (minOf ((ps.flatMap Span.bytes).filter fun b => lo ≤ b && b < lo + n)).getD lo

/-- The walks in ascending page order (R213). -/
def State.walkPages (s : State) (die ctx : Nat) (k : AKind) (ps : List Span) : List Nat → List PageFail × WalkEnd
  | [] => ([], .all)
  | p :: r =>
    let va := lowestIn ps (p * 4096) 4096
    match s.walk die ctx (BitVec.ofNat 64 va) k with
    | .ok _ _ _ => s.walkPages die ctx k ps r
    | .miss sz perm => let q := s.walkPages die ctx k ps r; (⟨va, sz, perm⟩ :: q.1, q.2)
    | .malformed => ([], .malformed va)
    | .poison => ([], .poison va)

/-- log2 of a failing page: the leaf's page where the permission is lacking (R187), else the 4 KiB page of the walk. DEDUCED, log entry
14. -/
def PageFail.page (f : PageFail) : Nat := if f.perm then f.size else 12
/-- One entry for each distinct failing page. -/
def distinctPages : List PageFail → List PageFail
  | [] => []
  | f :: r => f :: (distinctPages r).filter fun g => !(g.page = f.page && g.va / 2 ^ g.page = f.va / 2 ^ f.page)

/-- The threads that touch a page. -/
def touching (ps : List Span) (f : PageFail) : W32 :=
  maskOf fun t => ps.any fun p => p.lane = t && p.bytes.any fun b => b / 2 ^ f.page = f.va / 2 ^ f.page

/-- The warp waits for translation service and its core stalls (R332). -/
def State.waitService (s : State) : State :=
  s.modW fun w =>
    { w with
      cur := some ⟨s.iss.set, s.iss.elig, s.iss.pc, s.iss.idx, []⟩
      service := some ⟨none⟩
      rprog := if w.handler then w.rprog else s.iss.idx
      rprogPc := if w.handler then w.rprogPc else s.iss.pc }

/-- The translation checks of the issuing warp's access. None when every page passes; otherwise the state in which the
instruction has trapped, waits for service or, at issue, for the line of a table entry, or has killed its gang. `set` is the mask of a uniform access (R363). The XLATE
of the instructions of R291 has no detail. -/
def State.checkPages (s0 : State) (k : AKind) (set : Option W32) (act : W32) (ps : List Span) (eng : Bool := false) :
    Option State :=
  match s0.pagesAway k ps with
  | some a => some (s0.seek (.thread s0.iss.key 33) false a 8).waitIssue
  | none =>
  let s := s0.touchPages k ps
  let die := s.coreNum / 48
  let ctx := s.gr.ctx
  let r := s.walkPages die ctx k ps (pagesOf ps)
  let det := fun va : Nat => if eng then (0 : W64) else BitVec.ofNat 64 va
  match distinctPages r.1, r.2 with
  | [], .all => none
  | [], .malformed va => some (s.trapAct act cXlate (det va))
  | [], .poison va => some (s.killBy s.iss.key 1 (BitVec.ofNat 64 va) act)
  | f :: fs, _ =>
    if s.w.cover = some s.iss.pc || !s.hasQueue then some (s.trapAct act cXlate (det f.va))
    else
      let flags := fun g : PageFail =>
        b2n g.perm * 2 + b2n ((ps.flatMap Span.bytes).any fun b => b / 2 ^ g.page != g.va / 2 ^ g.page) * 4 + b2n s.w.handler * 8
      let s1 := (f :: fs).foldl (fun s' g =>
        s'.faultEntry ⟨BitVec.ofNat 64 g.va, ctx, s.coreNum, warpSlot s.iss.key, k.code, g.size, flags g,
          set.getD (touching ps g)⟩) s
      some s1.waitService

/-- The physical address of a byte the issuing warp may access. -/
def State.pa (s : State) (k : AKind) (va : W64) : Nat :=
  ((s.walk (s.coreNum / 48) s.gr.ctx va k).pa).getD 0

end Sys2Proof.Machine
end

