-- ==== Sys2Proof/Machine/Window.lean ====
section
/-! DEFINITION. The rules of the core windows for an access, the mailboxes, and the bytes at a physical address (R172, R173, R180 to R184). -/

namespace Sys2Proof.Machine

/-! ## Rules of the windows for a warp's access (R172, R173, R180, R181) -/

/-- The kinds of effect at a physical address. -/
inductive Eff where
  | load
  | store
  | atom (nr : Bool)
  deriving DecidableEq, Repr

/-- The areas of a mailbox span (R181): the base of the area and whether a load or a store is defined there. -/
def mailOk (o n : Nat) (e : Eff) : Bool :=
  let x := o % 0x4000
  let inside := fun lo hi => lo ≤ x && x + n ≤ hi
  match e with
  | .load => inside 0x2000 0x2100 || inside 0x3000 0x3008
  | .store => inside 0 0x100 || inside 0x1000 0x1100 || inside 0x3008 0x3010
  | .atom _ => false

/-- The allocation of a group holds a range of its core's scratchpad. -/
def Group.covers (g : Group) (core off n : Nat) : Bool :=
  g.core = core && g.soff ≤ off && off + n ≤ g.soff + g.slen

/-- The groups of a gang's copy. -/
def State.gangGroups (s : State) (g : Group) : List Group :=
  (s.groups.filter fun x => x.2.grid = g.grid && x.2.gang = g.gang && x.2.copy = g.copy).map (·.2)

/-- The rules for the window of another module's core: no warp reaches a scratchpad there (R173), a control page is the host's (R180). -/
def farMay (o n : Nat) (e : Eff) (warp host : Bool) : Bool :=
  let plain := match e with | .atom _ => false | _ => true
  if o < 0xC0000 then !warp && o + n ≤ 0xC0000
  else if o < 0x200000 then plain && o + n ≤ 0x200000
  else if o < 0x280000 then plain && o + n ≤ 0x280000
  else if o < 0x400000 then plain && o + n ≤ 0x400000
  else if o < 0x800000 then mailOk (o - 0x400000) n e
  else host && plain && !(o < 0x3F02000 && 0x3F01000 < o + n)

/-- R213 step 5: n bytes at a physical address are backed and the window's rules allow a warp of group g the effect. -/
def State.warpMay (s : State) (g : Group) (pa n : Nat) (e : Eff) : Bool :=
  match s.place pa with
  | .unbacked => false
  | .control _ _ => false
  | .device =>
    (s.place (pa + n - 1) = .device) && (match e with | .atom false => !s.reducing s.pkg pa | _ => true)
  | .scratch c o => o + n ≤ 0xC0000 && (s.gangGroups g).any fun x => x.covers c o n
  | .acc _ o => o + n ≤ 0x100000 && (match e with | .atom _ => false | _ => true)
  | .tile _ o => o + n ≤ 0x80000 && (match e with | .atom _ => false | _ => true)
  | .vreg _ o => o + n ≤ 0x100000 && (match e with | .atom _ => false | _ => true)
  | .mail _ o => mailOk o n e
  | .far o => farMay o n e true false

/-- The rules for an engine's or a host hart's access: translation has checked it, backing and the mailbox areas remain; an
engine reaches no control page (R173, R177, R247), a hart in S or M mode every part of it but the slot table (R152, R180). -/
def State.agentMay (s : State) (host : Bool) (pa n : Nat) (e : Eff) : Bool :=
  match s.place pa with
  | .unbacked => false
  | .device => s.place (pa + n - 1) = .device
  | .control _ o => host && !(o < 0x2000 && 0x1000 < o + n) && (match e with | .atom _ => false | _ => true)
  | .scratch _ o => o + n ≤ 0xC0000
  | .acc _ o => o + n ≤ 0x100000 && (match e with | .atom _ => false | _ => true)
  | .tile _ o => o + n ≤ 0x80000 && (match e with | .atom _ => false | _ => true)
  | .vreg _ o => o + n ≤ 0x100000 && (match e with | .atom _ => false | _ => true)
  | .mail _ o => mailOk o n e
  | .far o => farMay o n e false host

/-! ## Mailboxes (R181 to R184) -/

/-- The key of a mailbox in its core. -/
def mailKey (off : Nat) : Nat := off / 0x4000
/-- The length of a closed packet (R182). -/
def pktLen (p : Tab Byte) : Nat := match (tkeys p).getLast? with | some k => k + 1 | none => 0
/-- The status word of a mailbox (R183). -/
def mailStatus (ps : List (Tab Byte)) : Nat :=
  match ps with
  | [] => 0
  | p :: _ => pktLen p * 256 + ps.length
/-- A byte a load from a mailbox span reads (R181). -/
def State.mailByte (s : State) (core off : Nat) : Byte :=
  let ps := tget [] (s.core core).mail (mailKey off)
  let x := off % 0x4000
  if x < 0x3000 then (match ps with | [] => 0 | p :: _ => tget 0 p (x - 0x2000))
  else BitVec.ofNat 8 (mailStatus ps / 256 ^ (x - 0x3000))

/-- The group at the same place in the other copy. -/
def State.twinGroup (s : State) (g : Group) : Option Group :=
  (s.groups.find? fun x => x.2.grid = g.grid && x.2.gang = g.gang && x.2.copy != g.copy && x.2.index = g.index).map (·.2)
/-- The warp at the same place in the other copy. -/
def State.twinOf (s : State) (k : Nat) : Option Nat :=
  (s.twinGroup (s.groupOf k)).bind fun g => (s.groupWarps g.key).find? fun j => (s.warp j).index = (s.warp k).index

/-- The warps that a store to a warp's mailbox reaches: in a paired grid that warp in both copies (R354). -/
def State.mailTargets (s : State) (core slot : Nat) : List (Nat × Nat) :=
  let k := core * 64 + slot
  (core, slot) ::
  (if (tget? s.warps k).isSome && (s.gridOf k).paired then
    (match s.twinOf k with | some j => [(warpCore j, warpSlot j)] | none => []) else [])

/-- A warp whose mailboxes take stores: its slot runs, and some thread of it has not exited (R182, R184). -/
def State.mailLive (s : State) (k : Nat) : Bool := s.live k && !(s.warp k).ended

/-- The head packet of a mailbox is discarded, and nothing when it is empty (R181); at a slot without a running warp the store is counted
(R184). -/
def State.mailDiscard (s : State) (core key : Nat) : State :=
  (s.mailTargets core (key / 4)).foldl (fun (s : State) t =>
    let k := t.2 * 4 + key % 4
    if s.mailLive (t.1 * 64 + t.2) then s.modCore t.1 fun c => { c with mail := tput c.mail k ((tget [] c.mail k).drop 1) }
    else s.modCore t.1 fun c => { c with mbdrop := c.mbdrop + 1 }) s

/-- Whether a store of a sender has room at once (R182): a 17th open packet and a fifth closed one wait, and so does a store
behind a waiting one of the same sender, whose accesses to the windows of one core are performed in program order (R197). -/
def Core.mailRoom (c : Core) (by_ : Sender) (slot mb : Nat) (closes : Bool) : Bool :=
  let isOpen := c.mbOpen.any fun p => p.sender = by_ && p.slot = slot && p.mb = mb
  !c.senderWaits by_ && (isOpen || closes || c.mbOpen.length < 16) && (!closes || (tget [] c.mail (slot * 4 + mb)).length < 4)

/-- Write bytes into a sender's open packet, opening one when there is none, and close it when told (R182). -/
def Core.mailPut (c : Core) (by_ : Sender) (slot mb : Nat) (writes : List (Nat × Byte)) (closes : Bool) : Core :=
  let mine := fun p : OpenPkt => p.sender = by_ && p.slot = slot && p.mb = mb
  let old := ((c.mbOpen.find? mine).map (·.bytes)).getD []
  let bytes := writes.foldl (fun acc x => tput acc x.1 x.2) old
  let rest := c.mbOpen.filter fun p => !mine p
  if closes then
    { c with mbOpen := rest, mail := tput c.mail (slot * 4 + mb) (tget [] c.mail (slot * 4 + mb) ++ [bytes]) }
  else { c with mbOpen := rest ++ [⟨by_, slot, mb, bytes⟩] }

/-- A mailbox store is performed at its target (R182): a slot without a running warp discards it (R184); closing raises event
8 + m in the owner. -/
def State.mailPerform (s : State) (core : Nat) (by_ : Sender) (slot mb : Nat) (writes : List (Nat × Byte)) (closes : Bool) : State :=
  if s.mailLive (core * 64 + slot) then
    let s' := s.modCore core fun c => c.mailPut by_ slot mb writes closes
    if closes then s'.raise (core * 64 + slot) (8 + mb) else s'
  else s.modCore core fun c => { c with mbdrop := c.mbdrop + 1 }

/-- A mailbox store reaches a target: it is performed, or it waits there for room (R182). -/
def State.mailArrive (s : State) (core : Nat) (by_ : Sender) (slot mb : Nat) (writes : List (Nat × Byte)) (closes : Bool)
    (remote : Option Nat) : State :=
  if s.mailLive (core * 64 + slot) && !(s.core core).mailRoom by_ slot mb closes then
    s.modCore core fun c => { c with mbWait := c.mbWait ++ [⟨by_, slot, mb, writes, closes, remote, c.waitSeq⟩] }
  else s.mailPerform core by_ slot mb writes closes
/-- A mailbox store reaches its targets (R182, R354). -/
def State.mailStore (s : State) (core : Nat) (by_ : Sender) (slot mb : Nat) (writes : List (Nat × Byte)) (closes : Bool)
    (remote : Option Nat) : State :=
  (s.mailTargets core slot).foldl (fun (s : State) t => s.mailArrive t.1 by_ t.2 mb writes closes remote) s

/-! ## Bytes at a physical address -/

/-- The byte a load finds. -/
def State.byteAt (s : State) (pa : Nat) : Byte :=
  match s.place pa with
  | .vreg c o => s.vregByte c o
  | .mail c o => s.mailByte c o
  | _ => Memory.read s.mem pa
def State.bytesAt (s : State) (pa n : Nat) : List Byte := (List.range n).map fun i => s.byteAt (pa + i)

/-- A load of a sender at a core window finds a store of the same sender waiting at that core, and waits behind it (R14, R197). -/
def State.loadWaits (s : State) (by_ : Sender) (pa : Nat) : Bool :=
  match s.place pa with
  | .scratch c _ | .acc c _ | .tile c _ | .vreg c _ | .mail c _ | .control c _ => (s.core c).senderWaits by_
  | _ => false

end Sys2Proof.Machine
end

