-- ==== Sys2Proof/Machine/Operands.lean ====
section
/-! DEFINITION. Operands: the issue's active lanes, the registers a REP steps, check 5 of R43, integer operands and results
(R39 to R43, R72, R73, R108, R109), and the immediates of the uniform forms (R28, R29). -/

namespace Sys2Proof

/-! ## Prefix fields -/

/-- SAT (R38). -/
def Pre.sat (p : Pre) : Bool := match p.ext with | some e => e.sat | none => false

/-- The stepped registers of issue i (R41). -/
def Pre.d (p : Pre) (i n : Nat) : Nat := n + i * (match p.rep with | some r => r.sd | none => 0)
def Pre.a (p : Pre) (i n : Nat) : Nat := n + i * (match p.rep with | some r => r.sa | none => 0)
def Pre.b (p : Pre) (i n : Nat) : Nat := n + i * (match p.rep with | some r => r.sb | none => 0)
/-- VC: the register EXT names, or the stepped vd (R39, R41). -/
def Pre.vc (p : Pre) (i d : Nat) : Nat := match p.ext with | some e => e.vc | none => p.d i d
/-- The number of the last issue. -/
def Pre.last (p : Pre) : Nat := match p.rep with | some r => r.last | none => 0

/-- The uses of an operand b that may be an immediate. -/
def Opnd.use (b : Opnd) (p : Pre) (i width : Nat) : List (Nat × Nat) :=
  match b with
  | .reg n => [(p.b i n, width)]
  | .imm _ => []
end Sys2Proof

namespace Sys2Proof.Machine

/-- What a meaning answers. -/
abbrev Res := Host.Outcome State Fault Refusal

/-! ## Predicates and prefixes -/

/-- The mask an EXT word names, read through INV; m0 without EXT (R108). -/
def State.pred (s : State) (p : Pre) : W32 :=
  match p.ext with
  | none => 0xFFFFFFFF
  | some e => if e.inv then ~~~(s.w.rdM e.mask) else s.w.rdM e.mask
/-- The active threads (R108). -/
def State.act (s : State) (p : Pre) : W32 := s.iss.set &&& s.pred p
/-- The inactive threads of the issue set whose destinations Z zeroes. -/
def State.zeroed (s : State) (p : Pre) : W32 :=
  match p.ext with
  | some e => if e.z then s.iss.set &&& ~~~(s.pred p) else 0
  | none => 0
/-- The selector of SEL, the carry of ADDC and the head mask of SEGR: m1 without EXT (R39, R40). -/
def State.selector (s : State) (p : Pre) : W32 :=
  match p.ext with
  | none => s.w.rdM 1
  | some _ => s.pred p
/-! ## Check 5 of R43 -/

/-- A register use: number and width in registers (1, 2 or 4). -/
abbrev RUse := Nat × Nat
/-- A width needs alignment, and every register must be held (R6, R102, R211). -/
def Warp.regBad (w : Warp) (u : RUse) : Bool :=
  u.1 % u.2 != 0 || (List.range u.2).any fun i => !w.holdsV (u.1 + i)
/-- The first register that fails, over the issues that remain (R43). -/
def Warp.firstBad (w : Warp) (i last : Nat) (uses : Nat → List RUse) : Option Nat :=
  (rangeFrom i (last + 1 - i)).findSome? fun j => ((uses j).find? w.regBad).map (·.1)

/-- The registers, with their widths, that an access under way has still to write. -/
def FlightOp.dests : FlightOp → Option (Nat × Nat)
  | .load d n _ => some (d, if n = 16 then 4 else if n = 8 then 2 else 1)
  | .atom op false _ d => some (d, if AtomOp.bytes op = 8 then 2 else 1)
  | _ => none
/-- A register use names one of them: the instruction waits for the scoreboard (R96). -/
def Warp.regWaits (w : Warp) (u : Nat × Nat) : Bool :=
  w.flights.any fun f => match f.op.dests with | some d => d.1 < u.1 + u.2 && u.1 < d.1 + d.2 | none => false

/-- A lane instruction: check 5, then the wait for registers that accesses under way have still to write (R96), then nothing without an active lane
(R44), then its body. -/
def State.lane (s : State) (p : Pre) (act : W32) (uses : Nat → List RUse) (body : Nat → Res) : Res :=
  match s.w.firstBad s.iss.idx p.last uses with
  | some n => .next (s.trapAct act cIllreg (BitVec.ofNat 64 n))
  | none =>
    if (uses s.iss.idx).any s.w.regWaits then .next s.waitIssue
    else if act = 0 then .next (s.endIssue p.rep) else body s.iss.idx

/-- A lane instruction that only changes the warp. -/
def State.laneW (s : State) (p : Pre) (act : W32) (uses : Nat → List RUse) (f : Nat → Warp) : Res :=
  s.lane p act uses fun i => .next ((s.setWarp s.iss.key (f i)).endIssue p.rep)

/-! ## Lane values -/

/-- A lane's operand as bits: a register, or a pair for a 64-bit type. -/
def Warp.rdT (w : Warp) (wide : Bool) (n L : Nat) : Nat := if wide then (w.rdV64 n L).toNat else (w.rdV n L).toNat
/-- Write lane results of 32 bits, with Z. -/
def Warp.wrZ (w : Warp) (d : Nat) (act z : W32) (f : Nat → W32) : Warp :=
  w.wrLanes d (act ||| z) fun t => if act.getLsbD t then f t else 0
/-- Write lane results of 32 or 64 bits, with Z. -/
def Warp.wrT (w : Warp) (wide : Bool) (d : Nat) (act z : W32) (f : Nat → W64) : Warp :=
  if wide then
    ((w.wrZ d act z fun t => (f t).setWidth 32).wrZ (d + 1) act z fun t => (f t >>> 32).setWidth 32)
  else w.wrZ d act z fun t => (f t).setWidth 32
/-- Write a mask bit for each lane, with Z (R108). -/
def Warp.wrMZ (w : Warp) (d : Nat) (act z : W32) (f : Nat → Bool) : Warp :=
  w.wrM d ((w.rdM d &&& ~~~(act ||| z)) ||| maskOf fun t => act.getLsbD t && f t)

/-- The bits of operand b in a lane. -/
def Warp.rdB (w : Warp) (p : Pre) (i : Nat) (wide : Bool) (b : Opnd) (L : Nat) : Nat :=
  match b with
  | .reg n => w.rdT wide (p.b i n) L
  | .imm v => v

/-! ## Uniform operands (R28, R29, R53) -/

/-- Operand b of the UR form. -/
def State.opB (s : State) (b : Opnd) : W64 :=
  match b with
  | .reg n => s.rdS n
  | .imm v => BitVec.ofNat 64 v
/-- A signed field of n bits, scaled, as a 64-bit value. -/
def scaled (n v k : Nat) : W64 := w64 (sext n v * k)

end Sys2Proof.Machine
end

