-- ==== Sys2Proof/Machine/LaneInt.lean ====
section
/-! DEFINITION. Lane integer instructions, bit functions, moves, bit streams, shuffles and votes (R111 to R127). -/

namespace Sys2Proof.Machine

/-! ## The LR form with an integer type -/

/-- An integer operation on a and b: vd, va, vb of the type's width; `bw` says whether b is as wide as the type. -/
def State.intOp (s : State) (f : LRI) (sat bwide : Bool) (F : Int → Int → Nat → Int) : Res :=
  let wide := IntTy.w f.t = 64
  let act := s.act f.pre
  s.laneW f.pre act
    (fun i => (f.pre.d i f.d, IntTy.regs f.t) :: (f.pre.a i f.a, IntTy.regs f.t) ::
      f.b.use f.pre i (if bwide then IntTy.regs f.t else 1))
    fun i =>
      let w := s.w
      w.wrT wide (f.pre.d i f.d) act (s.zeroed f.pre) fun t =>
        let b := w.rdB f.pre i (wide && bwide) f.b t
        IntTy.image f.t (sat && f.pre.sat) (F (IntTy.val f.t (w.rdT wide (f.pre.a i f.a) t)) (IntTy.val f.t b) b)

def execAdd (f : LRI) (s : State) : Res := s.intOp f true true fun a b _ => a + b
def execSub (f : LRI) (s : State) : Res := s.intOp f true true fun a b _ => a - b
def execMul (f : LRI) (s : State) : Res := s.intOp f true true fun a b _ => a * b
/-- Division by 2^w rounds toward −∞. -/
def execMulh (f : LRI) (s : State) : Res := s.intOp f false true fun a b _ => a * b / (2 ^ IntTy.w f.t : Nat)
def execMin (f : LRI) (s : State) : Res := s.intOp f false true fun a b _ => min a b
def execMax (f : LRI) (s : State) : Res := s.intOp f false true fun a b _ => max a b
def execAnd (f : LRI) (s : State) : Res := s.intOp f false true fun a b _ => (IntTy.pat f.t a &&& IntTy.pat f.t b : Nat)
def execOr (f : LRI) (s : State) : Res := s.intOp f false true fun a b _ => (IntTy.pat f.t a ||| IntTy.pat f.t b : Nat)
def execXor (f : LRI) (s : State) : Res := s.intOp f false true fun a b _ => (IntTy.pat f.t a ^^^ IntTy.pat f.t b : Nat)
/-- Shift counts are the bits of b modulo w, in a single register (R109, R111). -/
def execShl (f : LRI) (s : State) : Res := s.intOp f true false fun a _ n => a * (2 ^ (n % IntTy.w f.t) : Nat)
def execShr (f : LRI) (s : State) : Res := s.intOp f false false fun a _ n => a / (2 ^ (n % IntTy.w f.t) : Nat)
def execRot (f : LRI) (s : State) : Res :=
  s.intOp f false false fun a _ n =>
    let k := n % IntTy.w f.t
    (IntTy.pat f.t a * 2 ^ k % 2 ^ IntTy.w f.t + IntTy.pat f.t a / 2 ^ (IntTy.w f.t - k) : Nat)

/-- MAD (R111). -/
def execMad (f : LRI) (s : State) : Res :=
  let wide := IntTy.w f.t = 64
  let act := s.act f.pre
  let r := IntTy.regs f.t
  s.laneW f.pre act
    (fun i => (f.pre.d i f.d, r) :: (f.pre.a i f.a, r) :: (f.b.use f.pre i r ++ [(f.pre.vc i f.d, r)]))
    fun i =>
      let w := s.w
      w.wrT wide (f.pre.d i f.d) act (s.zeroed f.pre) fun t =>
        IntTy.image f.t f.pre.sat
          (IntTy.val f.t (w.rdT wide (f.pre.a i f.a) t) * IntTy.val f.t (w.rdB f.pre i wide f.b t) +
            IntTy.val f.t (w.rdT wide (f.pre.vc i f.d) t))

/-- DIV and REM (R112): a zero divisor in an active thread traps with the lowest such lane. -/
def State.divOp (s : State) (f : LRI) (F : Int → Int → Int) : Res :=
  let wide := IntTy.w f.t = 64
  let act := s.act f.pre
  let r := IntTy.regs f.t
  s.lane f.pre act (fun i => (f.pre.d i f.d, r) :: (f.pre.a i f.a, r) :: f.b.use f.pre i r) fun i =>
    let w := s.w
    let b := fun t => IntTy.val f.t (w.rdB f.pre i wide f.b t)
    match (lanesOf act).find? fun t => b t = 0 with
    | some t => .next (s.trapAct act cDivZero (BitVec.ofNat 64 t))
    | none =>
      let w' := w.wrT wide (f.pre.d i f.d) act (s.zeroed f.pre) fun t =>
        IntTy.image f.t false (F (IntTy.val f.t (w.rdT wide (f.pre.a i f.a) t)) (b t))
      .next ((s.setWarp s.iss.key w').endIssue f.pre.rep)
def execDiv (f : LRI) (s : State) : Res := s.divOp f Int.tdiv
def execRem (f : LRI) (s : State) : Res := s.divOp f Int.tmod

/-- ADDC (R113): every thread of the issue set acts; the carry is read and written through INV. -/
def execAddc (f : LRI) (s : State) : Res :=
  let act := s.iss.set
  s.laneW f.pre act (fun i => (f.pre.d i f.d, 1) :: (f.pre.a i f.a, 1) :: f.b.use f.pre i 1) fun i =>
    let w := s.w
    let c := match f.pre.ext with | some e => e.mask | none => 1
    let inv := match f.pre.ext with | some e => e.inv | none => false
    let cin := fun t => b2n ((s.selector f.pre).getLsbD t)
    let a := fun t => w.rdT false (f.pre.a i f.a) t
    let b := fun t => w.rdB f.pre i false f.b t
    let sum := fun t => a t + b t + cin t
    let cout := fun t =>
      if IntTy.signed f.t then
        let x := sext 32 (a t) + sext 32 (b t) + cin t
        decide (x < -2 ^ 31) || decide (2 ^ 31 - 1 < x)
      else decide (2 ^ 32 ≤ sum t)
    (w.wrZ (f.pre.d i f.d) act 0 fun t => BitVec.ofNat 32 (sum t)).wrMZ c act 0 fun t => cout t != inv

/-- The compares (R114). -/
def State.cmpOp (s : State) (f : LRI) (F : Int → Int → Bool) : Res :=
  let wide := IntTy.w f.t = 64
  let act := s.act f.pre
  let r := IntTy.regs f.t
  s.laneW f.pre act (fun i => (f.pre.a i f.a, r) :: f.b.use f.pre i r) fun i =>
    let w := s.w
    w.wrMZ (f.pre.d i f.d) act (s.zeroed f.pre) fun t =>
      F (IntTy.val f.t (w.rdT wide (f.pre.a i f.a) t)) (IntTy.val f.t (w.rdB f.pre i wide f.b t))
def execCmpeq (f : LRI) (s : State) : Res := s.cmpOp f fun a b => a = b
def execCmpne (f : LRI) (s : State) : Res := s.cmpOp f fun a b => a ≠ b
def execCmplt (f : LRI) (s : State) : Res := s.cmpOp f fun a b => a < b
def execCmple (f : LRI) (s : State) : Res := s.cmpOp f fun a b => a ≤ b

/-- SEL (R115). -/
def execSel (f : LRI) (s : State) : Res :=
  let wide := IntTy.w f.t = 64
  let act := s.iss.set
  let r := IntTy.regs f.t
  s.laneW f.pre act (fun i => (f.pre.d i f.d, r) :: (f.pre.a i f.a, r) :: f.b.use f.pre i r) fun i =>
    let w := s.w
    w.wrT wide (f.pre.d i f.d) act 0 fun t =>
      BitVec.ofNat 64 (if (s.selector f.pre).getLsbD t then w.rdT wide (f.pre.a i f.a) t else w.rdB f.pre i wide f.b t)

/-! ## Bit fields (R116) -/

/-- The width and position a specification gives: a register's bits, or an imm7. -/
def bfSpec (b : Opnd) (v : Nat) : Nat × Nat :=
  match b with
  | .reg _ => (v / 64 % 64 + 1, v % 64)
  | .imm _ => ((v / 8 % 8 + 1) * 8, v % 8 * 8)
/-- The field cut at the top of W bits; none when it is empty. -/
def bfCut (W : Nat) (wp : Nat × Nat) : Option (Nat × Nat) :=
  if W ≤ wp.2 then none else some (min wp.1 (W - wp.2), wp.2)

def execBfx (f : LRI) (s : State) : Res :=
  let W := IntTy.w f.t
  let wide := W = 64
  let act := s.act f.pre
  let r := IntTy.regs f.t
  s.laneW f.pre act (fun i => (f.pre.d i f.d, r) :: (f.pre.a i f.a, r) :: f.b.use f.pre i 1) fun i =>
    let w := s.w
    w.wrT wide (f.pre.d i f.d) act (s.zeroed f.pre) fun t =>
      match bfCut W (bfSpec f.b (w.rdB f.pre i false f.b t)) with
      | none => 0
      | some (n, p) =>
        let x := w.rdT wide (f.pre.a i f.a) t / 2 ^ p % 2 ^ n
        if IntTy.signed f.t then w64 (sext n x) else BitVec.ofNat 64 x

def execBfi (f : LRI) (s : State) : Res :=
  let W := IntTy.w f.t
  let wide := W = 64
  let act := s.act f.pre
  let r := IntTy.regs f.t
  s.laneW f.pre act
    (fun i => (f.pre.d i f.d, r) :: (f.pre.a i f.a, r) :: (f.b.use f.pre i 1 ++ [(f.pre.vc i f.d, r)])) fun i =>
    let w := s.w
    w.wrT wide (f.pre.d i f.d) act (s.zeroed f.pre) fun t =>
      let c := w.rdT wide (f.pre.vc i f.d) t
      match bfCut W (bfSpec f.b (w.rdB f.pre i false f.b t)) with
      | none => BitVec.ofNat 64 c
      | some (n, p) =>
        BitVec.ofNat 64 (c - c / 2 ^ p % 2 ^ n * 2 ^ p + w.rdT wide (f.pre.a i f.a) t % 2 ^ n * 2 ^ p)

/-! ## Bit functions (R58, R117) -/

/-- Zero bits above the highest 1 bit of n bits. -/
def clzN : Nat → Nat → Nat
  | 0, _ => 0
  | n + 1, v => if v.testBit n then 0 else clzN n v + 1
/-- Zero bits below the lowest 1 bit of n bits. -/
def ctzN (n v : Nat) : Nat := ((List.range n).find? fun i => v.testBit i).getD n
def popN (n v : Nat) : Nat := ((List.range n).filter fun i => v.testBit i).length
def revN (n v : Nat) : Nat := maskNat (fun i => v.testBit (n - 1 - i)) n

def BitFn.apply (f : BitFn) (a : W32) : W32 :=
  match f with
  | .clz => BitVec.ofNat 32 (clzN 32 a.toNat)
  | .ctz => BitVec.ofNat 32 (ctzN 32 a.toNat)
  | .pop => BitVec.ofNat 32 (popN 32 a.toNat)
  | .brev => BitVec.ofNat 32 (revN 32 a.toNat)
  | .neg => -a
  | .abs => if a.getLsbD 31 then -a else a
  | .not => ~~~a

/-- BIT: a function, or sext from bit n - 1. -/
def execBit (fn : Option BitFn) (f : LRN) (s : State) : Res :=
  let act := s.act f.pre
  s.laneW f.pre act
    (fun i => (f.pre.d i f.d, 1) :: (f.pre.a i f.a, 1) :: (if fn.isSome then [] else f.b.use f.pre i 1)) fun i =>
    let w := s.w
    w.wrZ (f.pre.d i f.d) act (s.zeroed f.pre) fun t =>
      let a := w.rdV (f.pre.a i f.a) t
      match fn with
      | some g => BitFn.apply g a
      | none =>
        let n := match f.b with
          | .imm v => v
          | .reg r => (let k := (w.rdV (f.pre.b i r) t).toNat % 32; if k = 0 then 32 else k)
        w32 (sext n a.toNat)

/-- PRMB (R118). -/
def execPrmb (f : LRN) (s : State) : Res :=
  let act := s.act f.pre
  s.laneW f.pre act (fun i => (f.pre.d i f.d, 1) :: (f.pre.a i f.a, 1) :: f.b.use f.pre i 1) fun i =>
    let w := s.w
    w.wrZ (f.pre.d i f.d) act (s.zeroed f.pre) fun t =>
      let src := (w.rdV (f.pre.a i f.a) t).toNat + (w.rdV (f.pre.d i f.d) t).toNat * 2 ^ 32
      let b := w.rdB f.pre i false f.b t
      BitVec.ofNat 32 (((List.range 4).map fun j =>
        let n := b / 16 ^ j % 16
        let x := src / 256 ^ (n % 8) % 256
        (if n < 8 then x else if x < 128 then 0 else 255) * 256 ^ j).sum)

/-- The exact packed dot product of R119. -/
def dotSum (signed four : Bool) (a b : Nat) : Int :=
  let k := if four then 4 else 8
  ((List.range (32 / k)).map fun j =>
    let x := a / 2 ^ (k * j) % 2 ^ k
    let y := b / 2 ^ (k * j) % 2 ^ k
    if signed then sext k x * sext k y else ((x * y : Nat) : Int)).sum

def execDot4 (signed four : Bool) (f : LRN) (s : State) : Res :=
  let ty := if signed then IntTy.i32 else IntTy.n32
  let act := s.act f.pre
  s.laneW f.pre act
    (fun i => (f.pre.d i f.d, 1) :: (f.pre.a i f.a, 1) :: (f.b.use f.pre i 1 ++ [(f.pre.vc i f.d, 1)])) fun i =>
    let w := s.w
    w.wrZ (f.pre.d i f.d) act (s.zeroed f.pre) fun t =>
      (IntTy.image ty f.pre.sat
        (IntTy.val ty (w.rdV (f.pre.vc i f.d) t).toNat +
          dotSum signed four (w.rdV (f.pre.a i f.a) t).toNat (w.rdB f.pre i false f.b t))).setWidth 32

/-! ## Constants and moves (R120, R121) -/

def State.moviOp (s : State) (f : LI) (F : W32 → W32) : Res :=
  let act := s.act f.pre
  s.laneW f.pre act (fun i => [(f.pre.d i f.d, 1)]) fun i =>
    let w := s.w
    w.wrZ (f.pre.d i f.d) act (s.zeroed f.pre) fun t => F (w.rdV (f.pre.d i f.d) t)
def execMoviZ (f : LI) (s : State) : Res := s.moviOp f fun _ => BitVec.ofNat 32 f.v
def execMoviS (f : LI) (s : State) : Res := s.moviOp f fun _ => w32 (sext 16 f.v)
/-- .hi writes bits [31:16] and keeps [15:0] (R33). -/
def execMoviHi (f : LI) (s : State) : Res := s.moviOp f fun o => BitVec.ofNat 32 (f.v * 65536 + o.toNat % 65536)

def execMovLane (f : LRN) (s : State) : Res :=
  let act := s.act f.pre
  s.laneW f.pre act (fun i => (f.pre.d i f.d, 1) :: (f.pre.a i f.a, 1) :: f.b.use f.pre i 1) fun i =>
    let w := s.w
    w.wrZ (f.pre.d i f.d) act (s.zeroed f.pre) fun t => w.rdV (f.pre.a i f.a) (w.rdB f.pre i false f.b t % 32)

/-- A half of a uniform register. -/
def half (v : W64) (hi : Bool) : W32 := if hi then (v >>> 32).setWidth 32 else v.setWidth 32

def execMovU (p : Pre) (d n : Nat) (hi : Bool) (s : State) : Res :=
  let act := s.act p
  s.laneW p act (fun i => [(p.d i d, 1)]) fun i => s.w.wrZ (p.d i d) act (s.zeroed p) fun _ => half (s.rdS n) hi

def execMovTu (p : Pre) (a n : Nat) (hi : Bool) (s : State) : Res :=
  let act := s.act p
  s.laneW p act (fun i => [(p.d i a, 1)]) fun i =>
    let v := s.w.rdV (p.d i a) ((lanesOf act).headD 0)
    s.w.wrS n (if hi then v.append ((s.rdS n).setWidth 32) else v.setWidth 64)

/-! ## Bit streams (R123 to R125) -/

def execBsr (signed : Bool) (f : LRN) (s : State) : Res :=
  let act := s.act f.pre
  s.laneW f.pre act (fun i => (f.pre.d i f.d, 1) :: (f.pre.a i f.a, 2) :: f.b.use f.pre i 1) fun i =>
    let w := s.w
    let n := fun t => match f.b with
      | .imm v => v
      | .reg r => min ((w.rdV (f.pre.b i r) t).toNat % 64) 32
    let cur := fun t => (w.thread t).bcur.toNat % 128
    let x := fun t => (w.rdV64 (f.pre.a i f.a) t).toNat / 2 ^ cur t % 2 ^ n t
    let w1 := w.wrZ (f.pre.d i f.d) act (s.zeroed f.pre) fun t =>
      if signed && n t != 0 then w32 (sext (n t) (x t)) else BitVec.ofNat 32 (x t)
    { w1 with threads := vtab 32 fun t =>
        let y := w.thread t
        if act.getLsbD t then
          { y with bcur := BitVec.ofNat 32 (min (cur t + n t) 64 +
              (if 64 < cur t + n t || y.bcur.getLsbD 7 then 128 else 0)) }
        else y }

def execBswSet (p : Pre) (b : Nat) (s : State) : Res :=
  let act := s.act p
  s.laneW p act (fun i => [(p.b i b, 1)]) fun i =>
    let w := s.w
    { w with threads := vtab 32 fun t =>
        let y := w.thread t
        if act.getLsbD t then
          let v := (w.rdV (p.b i b) t).toNat
          { y with bcur := BitVec.ofNat 32 (min (v % 128) 64 + v / 128 % 2 * 128) }
        else y }

def execBswReload (p : Pre) (d b : Nat) (s : State) : Res :=
  let act := s.act p
  s.laneW p act (fun i => [(p.d i d, 2), (p.b i b, 1)]) fun i =>
    let w := s.w
    let go := fun t => 32 ≤ (w.thread t).bcur.toNat % 128
    let w1 := (w.wrZ (p.d i d) act (s.zeroed p) fun t => if go t then w.rdV (p.d i d + 1) t else w.rdV (p.d i d) t).wrZ
      (p.d i d + 1) act (s.zeroed p) fun t => if go t then w.rdV (p.b i b) t else w.rdV (p.d i d + 1) t
    { w1 with threads := vtab 32 fun t =>
        let y := w.thread t
        if act.getLsbD t && go t then { y with bcur := y.bcur - 32 } else y }

def execBswQuery (p : Pre) (d : Nat) (s : State) : Res :=
  let act := s.act p
  s.laneW p act (fun i => [(p.d i d, 1)]) fun i => s.w.wrZ (p.d i d) act (s.zeroed p) fun t => (s.w.thread t).bcur

/-! ## Shuffles and votes (R98, R99, R126, R127) -/

/-- The tile size $part.TS gives (R98). -/
def Warp.tileSize (w : Warp) : Nat := 2 ^ w.part
/-- The source lane of a shuffle. -/
def ShfFn.source (f : ShfFn) (z t n : Nat) : Nat :=
  let base := t / z * z
  let i := t % z
  match f with
  | .idx => base + n % z
  | .up => if n ≤ i then base + i - n else t
  | .down => if i + n < z then base + i + n else t
  | .xor => base + (i ^^^ (n % z))

def execShf (fn : ShfFn) (f : LRN) (s : State) : Res :=
  let act := s.act f.pre
  s.laneW f.pre act (fun i => (f.pre.d i f.d, 1) :: (f.pre.a i f.a, 1) :: f.b.use f.pre i 1) fun i =>
    let w := s.w
    w.wrZ (f.pre.d i f.d) act (s.zeroed f.pre) fun t =>
      w.rdV (f.pre.a i f.a) (ShfFn.source fn w.tileSize t (w.rdB f.pre i false f.b t % 32))

/-- The lanes of the tile of lane t. -/
def Warp.tileOf (w : Warp) (t : Nat) : List Nat := rangeFrom (t / w.tileSize * w.tileSize) w.tileSize

def execVote (fn : VoteFn) (p : Pre) (m a : Nat) (s : State) : Res :=
  let act := s.act p
  s.laneW p act (fun i => [(p.a i a, 1)]) fun i =>
    let w := s.w
    let v := fun t => w.rdV (p.a i a) t
    w.wrMZ (p.d i m) act (s.zeroed p) fun t =>
      let mine := (w.tileOf t).filter fun u => act.getLsbD u
      match fn with
      | .any => mine.any fun u => v u != 0
      | .all => mine.all fun u => v u != 0
      | .eqv => mine.all fun u => v u = v t

def execVoteBallot (p : Pre) (d a : Nat) (s : State) : Res :=
  let act := s.act p
  s.laneW p act (fun i => [(p.d i d, 1), (p.a i a, 1)]) fun i =>
    let w := s.w
    w.wrZ (p.d i d) act (s.zeroed p) fun t =>
      maskOf fun j => decide (j < w.tileSize) &&
        (let u := t / w.tileSize * w.tileSize + j; act.getLsbD u && w.rdV (p.a i a) u != 0)

end Sys2Proof.Machine
end

