-- ==== Sys2Proof/Machine/Uniform.lean ====
section
/-! DEFINITION. Uniform register operations, reading one lane, branches and calls (R53 to R60, R66 to R69). -/

namespace Sys2Proof.Machine

/-! ## Register operations (R53, R54) -/

/-- sd = F(a, b), and the issue set goes on. -/
def State.uniOp (s : State) (f : UR) (F : W64 → W64 → W64) : Res :=
  .next ((s.wrS f.d (F (s.rdS f.a) (s.opB f.b))).advance)

/-- 1 or 0. -/
def flag64 (b : Bool) : W64 := if b then 1 else 0

def execSadd (f : UR) (s : State) : Res := s.uniOp f fun a b => a + b
def execSsub (f : UR) (s : State) : Res := s.uniOp f fun a b => a - b
def execSmul (f : UR) (s : State) : Res := s.uniOp f fun a b => a * b
def execSmulh (f : UR) (s : State) : Res := s.uniOp f fun a b => w64 (a.toInt * b.toInt / (2 ^ 64 : Nat))
def execSand (f : UR) (s : State) : Res := s.uniOp f fun a b => a &&& b
def execSor (f : UR) (s : State) : Res := s.uniOp f fun a b => a ||| b
def execSxor (f : UR) (s : State) : Res := s.uniOp f fun a b => a ^^^ b
def execSshl (f : UR) (s : State) : Res := s.uniOp f fun a b => a <<< (b.toNat % 64)
def execSshr (f : UR) (s : State) : Res := s.uniOp f fun a b => a >>> (b.toNat % 64)
def execSsra (f : UR) (s : State) : Res := s.uniOp f fun a b => a.sshiftRight (b.toNat % 64)
def execSmin (f : UR) (s : State) : Res := s.uniOp f fun a b => if a.toInt ≤ b.toInt then a else b
def execSmax (f : UR) (s : State) : Res := s.uniOp f fun a b => if a.toInt ≤ b.toInt then b else a
def execSminn (f : UR) (s : State) : Res := s.uniOp f fun a b => if a.toNat ≤ b.toNat then a else b
def execSmaxn (f : UR) (s : State) : Res := s.uniOp f fun a b => if a.toNat ≤ b.toNat then b else a
def execSseq (f : UR) (s : State) : Res := s.uniOp f fun a b => flag64 (a = b)
def execSsne (f : UR) (s : State) : Res := s.uniOp f fun a b => flag64 (a ≠ b)
def execSslt (f : UR) (s : State) : Res := s.uniOp f fun a b => flag64 (a.toInt < b.toInt)
def execSsltn (f : UR) (s : State) : Res := s.uniOp f fun a b => flag64 (a.toNat < b.toNat)

/-- SDIV and SREM trap DIVZERO on a zero divisor (R55, R319). -/
def State.uniDiv (s : State) (f : UR) (F : Int → Int → Int) : Res :=
  if s.opB f.b = 0 then .next (s.trap cDivZero 0)
  else s.uniOp f fun a b => w64 (F a.toInt b.toInt)
def execSdiv (f : UR) (s : State) : Res := s.uniDiv f Int.tdiv
def execSrem (f : UR) (s : State) : Res := s.uniDiv f Int.tmod

/-- SSEL: the condition is the old destination (R56). -/
def execSsel (f : UR) (s : State) : Res :=
  .next ((s.wrS f.d (if s.rdS f.d != 0 then s.rdS f.a else s.opB f.b)).advance)

/-! ## Bit fields (R57) -/

/-- The sign flag, width and position of a specification; the width is cut at bit 63. -/
def sbfSpec (b : Opnd) (v : Nat) : Bool × Nat × Nat :=
  match b with
  | .reg _ => (v / 4096 % 2 = 1, min (v / 64 % 64 + 1) (64 - v % 64), v % 64)
  | .imm _ => (v / 64 % 2 = 1, min ((v / 8 % 8 + 1) * 8) (64 - v % 8 * 8), v % 8 * 8)

def execSbfx (f : UR) (s : State) : Res :=
  let sp := sbfSpec f.b (s.opB f.b).toNat
  let x := (s.rdS f.a).toNat / 2 ^ sp.2.2 % 2 ^ sp.2.1
  .next ((s.wrS f.d (if sp.1 then w64 (sext sp.2.1 x) else BitVec.ofNat 64 x)).advance)

def execSbfi (f : UR) (s : State) : Res :=
  let sp := sbfSpec f.b (s.opB f.b).toNat
  .next ((s.wrS f.d (setFld (s.rdS f.d) sp.2.2 sp.2.1 (s.rdS f.a).toNat)).advance)

/-- SBIT (R58). -/
def sbitFn (fn : Nat) (a : W64) : W64 :=
  match fn with
  | 0 => BitVec.ofNat 64 (clzN 64 a.toNat)
  | 1 => BitVec.ofNat 64 (ctzN 64 a.toNat)
  | 2 => BitVec.ofNat 64 (popN 64 a.toNat)
  | _ => BitVec.ofNat 64 (revN 64 a.toNat)
def execSbit (d a fn : Nat) (s : State) : Res := .next ((s.wrS d (sbitFn fn (s.rdS a))).advance)

/-- SLI and SLIS (R59). -/
def execSli (d imm : Nat) (s : State) : Res := .next ((s.wrS d (w64 (sext 17 imm))).advance)
def execSlis (d imm : Nat) (s : State) : Res :=
  .next ((s.wrS d ((s.rdS d <<< 17) ||| BitVec.ofNat 64 (imm % 2 ^ 17))).advance)

/-- SMOVL (R60): any lane is read, and va is checked like a vector source. -/
def execSmovl (f : UR) (s : State) : Res :=
  if s.w.regBad (f.a, 1) then .next (s.trap cIllreg (BitVec.ofNat 64 f.a))
  else if s.w.regWaits (f.a, 1) then .next s.waitIssue
  else .next ((s.wrS f.d ((s.w.rdV f.a ((s.opB f.b).toNat % 32)).setWidth 64)).advance)

/-! ## Branches and calls (R66 to R69) -/

/-- A signed word offset from the base word (R13). -/
def State.target (s : State) (n off : Nat) : W64 := s.iss.base + scaled n off 4

/-- A taken transfer to a target from an offset: a non-canonical target traps ACCESS and nothing is written (R67). -/
def State.transfer (s : State) (target : W64) (before : State → State) : Res :=
  if !canonical target then .next (s.trap cAccess target) else .next ((before s).jump target)
/-- A transfer to a register's target: first ALIGN, then ACCESS (R16, R67). -/
def State.transferReg (s : State) (target : W64) (before : State → State) : Res :=
  if bfld target 0 2 != 0 then .next (s.trap cAlign target) else s.transfer target before
/-- The link (R66). -/
def State.link (s : State) : State := s.wrS 159 s.nextPc

/-- A conditional branch (R66). -/
def State.branch (s : State) (taken : Bool) (off : Nat) : Res :=
  if taken then s.transfer (s.target 17 off) id else .next s.advance

def execSb (off : Nat) (s : State) : Res := s.transfer (s.target 25 off) id
def execSbz (a off : Nat) (s : State) : Res := s.branch (s.rdS a = 0) off
def execSbnz (a off : Nat) (s : State) : Res := s.branch (s.rdS a != 0) off
def execSblt (a off : Nat) (s : State) : Res := s.branch ((s.rdS a).toInt < 0) off
def execSj (a : Nat) (s : State) : Res := s.transferReg (s.rdS a) id
def execScall (off : Nat) (s : State) : Res := s.transfer (s.target 25 off) State.link
def execScallr (a : Nat) (s : State) : Res := s.transferReg (s.rdS a) State.link
def execSret (s : State) : Res := s.transferReg (s.rdS 159) id
/-- SLOOP (R68): the decrement is written unless the target check traps. -/
def execSloop (a off : Nat) (s : State) : Res :=
  let v := s.rdS a - 1
  if v != 0 then s.transfer (s.target 17 off) fun s => s.wrS a v
  else .next ((s.wrS a v).advance)

end Sys2Proof.Machine
end

