-- ==== Sys2Proof/Machine/Conflict.lean ====
section
/-! DEFINITION. What an access of one agent does to the transactions, the reservations and the fallback lock of others (R231, R237,
R241, R242, R368). -/

namespace Sys2Proof.Machine

/-- The holder's access to lines homed on the module enters the lock's signature (R237). -/
def State.lockInsert (s : State) (who : Agent) (write : Bool) (pa n : Nat) : State :=
  match s.lock with
  | none => s
  | some l =>
    if who = .thread l.warp l.thread && pa / 2 ^ 48 = s.pkg then
      { s with lock := some { l with lines := (linesOf pa n).foldl (fun acc x => insertNat (x * 2 + b2n write) acc) l.lines } }
    else s

/-! ## Validation and commit (R231, R234) -/

/-- The logged words are read: their lines are brought up to date (R88). -/
def State.settleLog (s : State) (x : Tx) : State := x.log.foldl (fun s l => s.settle l.1 8) s
/-- Every logged word equals memory and none is poisoned. -/
def State.logHolds (s : State) (x : Tx) : Bool :=
  x.log.all fun l => s.getW64 l.1 = l.2 && !s.poisonedIn l.1 8

/-- A thread of a set whose read signature has matched has logged a line that is not at hand: it compares its log when the line has come. -/
def State.logsAway (s : State) (k : Nat) (set : W32) : Bool :=
  (lanesOf set).any fun t => match ((s.warp k).thread t).tx with
    | some x => x.matched && x.log.any fun l => s.awaits (.thread k t) false l.1 8
    | none => false
/-- The copies of other modules that stand in the way of the logs of a set are recalled. -/
def State.seekLogs (s : State) (k : Nat) (set : W32) : State :=
  (lanesOf set).foldl (fun (s : State) t => match ((s.warp k).thread t).tx with
    | some x => x.log.foldl (fun (s : State) l => s.seek (.thread k t) false l.1 8) s
    | none => s) s

/-- The lines that a commit compares and those that it writes, by the agent of each transaction. -/
def State.commitLines (s : State) : Commit → List (Agent × List Nat × List Nat)
  | .warp k set _ _ => (lanesOf set).filterMap fun t =>
      ((s.warp k).thread t).tx.map fun x => (.thread k t, x.log.map (·.1), x.buf.map (·.1))
  | .hart h => match (s.hart h).tx with | some x => [(.hart h, [], x.writes.map (·.1))] | none => []
/-- A line of a commit is not at hand: the commit waits for it (R234, R366). A commit of a warp waits for the warp's stores and accesses under way, as
the release that it is at its commit instant (R208). -/
def State.commitAway (s : State) (c : Commit) : Bool :=
  (match c with
   | .warp k _ _ _ => (s.warp k).flights != [] || s.ost k != 0 || s.senderWaits (.warp k)
   | .hart _ => false) ||
  (s.commitLines c).any fun x => x.2.1.any (fun a => s.awaits x.1 false a 8) || x.2.2.any fun a => s.awaits x.1 true a 1
/-- The copies of other modules that stand in the way of a commit are recalled. -/
def State.commitSeek (s : State) (c : Commit) : State :=
  (s.commitLines c).foldl (fun (s : State) x =>
    x.2.2.foldl (fun (s : State) a => s.seek x.1 true a 1) (x.2.1.foldl (fun (s : State) a => s.seek x.1 false a 8) s)) s
/-- A byte of a commit is written. -/
def State.commitByte (s : State) (who : Agent) (a : Nat) (b : Byte) : State :=
  (((s.settle a 1).ownLines who true a 1).observe who true a 1).putBytes a [b]

/-- A thread commits: its buffered writes are performed at one instant. -/
def State.commitThread (s : State) (k t : Nat) : State :=
  match ((s.warp k).thread t).tx with
  | none => s
  | some x =>
    let s1 := x.buf.foldl (fun s c => s.commitByte (.thread k t) c.1 c.2) s
    s1.modWarp k fun w => w.modThread t fun y => { y with tx := none, pc := y.pc + 4, status := .eligible, retry := 0 }

/-- One lane of a TXC whose ticket has come (R234). -/
def State.commitLane (s : State) (k md t : Nat) : State :=
  match ((s.warp k).thread t).tx with
  | none => s
  | some x =>
    let s := s.settleLog x
    if s.logHolds x then
      (s.commitThread k t).modWarp k fun w =>
        { w.wrM md (w.rdM md ||| bit32 t) with cmask := w.cmask ||| bit32 t }
    else
      s.modWarp k fun w =>
        (w.modThread t fun y => { (y.abort abValidate 0) with status := .eligible }).wrM md (w.rdM md &&& ~~~(bit32 t))

/-- A hart's dx.tend: its writes are performed at one instant (R240). -/
def State.commitHart (s : State) (h : Nat) : State :=
  match (s.hart h).tx with
  | none => s
  | some x =>
    if !(s.hart h).commit then s else
    let s1 := x.writes.foldl (fun s c => s.commitByte (.hart h) c.1 c.2) s
    s1.modHart h fun y => { y with tx := none, commit := false, pc := y.pc + 4, minstret := y.minstret + 1 }

/-- The ticket unit serves the next commit, unless the lock is held (R229, R234, R237). -/
def State.ticketServe (s : State) : State :=
  match s.commits, s.lock with
  | (n, c) :: r, none =>
      if s.commitAway c then s.commitSeek c else
      let s1 := match c with
        | .warp k set md _ =>
          let before := (s.warp k).slotsHeld
          let s' := (lanesOf set).foldl (fun (s : State) t => s.commitLane k md t) s
          (s'.modWarp k fun w => { w with parks := w.parks.filter fun p => p.hold != Hold.ticket n md }).releaseSlots k before
        | .hart h => s.commitHart h
      { s1 with commits := r, served := n + 1 }
  | [], none => { s with served := s.ticket }
  | _, _ => s

end Sys2Proof.Machine
end

