-- ==== Sys2Proof/Machine/Control.lean ====
section
/-! DEFINITION. Control registers: what each number reads and what a write of it does (R17, R36, R70, R71, R121). -/

namespace Sys2Proof.Machine

/-! ## Reading -/

def numW (n : Nat) : W64 := BitVec.ofNat 64 n

/-- $txst (R239). -/
def Warp.txst (w : Warp) : W64 := w.cmask.append (w.threadsWith fun t => t.tx.isSome || t.irr)
/-- $mprog (R275). -/
def State.mprog (s : State) (k : Nat) : Nat :=
  match (s.groupOf k).matQ.find? fun o => o.warp = k with
  | some o => (match o.kind with | .mma _ _ _ _ _ _ | .mrty _ _ => o.steps | _ => 0)
  | none => 0
/-- $gprog (R264). -/
def Warp.gprog (w : Warp) : Nat := match w.gathQ with | o :: _ => o.done | [] => 0
/-- $txretry of a thread (R239). -/
def Thread.txretry (t : Thread) : W32 :=
  BitVec.ofNat 32 (t.retry % 16 + b2n t.irr * 16 + t.code % 256 * 256 + t.detail % 256 * 65536)

/-- The control registers that name a warp's place in its grid. -/
def identityCtl : List Nat := [0x00, 0x01, 0x02, 0x03, 0x04, 0x05, 0x07, 0x08, 0x0B]
/-- A warp-scope control register of warp k. -/
def State.ctlOf (s : State) (k n : Nat) : W64 :=
  let w := s.warp k
  let g := s.groupOf k
  let gr := s.gridOf k
  if (tget? w.shown n).isSome then tget 0 w.shown n
  else if n = 0x00 then numW w.index
  else if n = 0x01 then numW g.index
  else if n = 0x02 then numW g.gang
  else if n = 0x03 then numW g.grid
  else if n = 0x04 then numW g.ngroups
  else if n = 0x05 then numW g.nwarps
  else if n = 0x06 then numW (warpCore k + warpSlot k / 16 * 65536)
  else if n = 0x07 then numW s.pkg
  else if n = 0x08 then numW gr.depth
  else if n = 0x09 then numW (s.coreClk (warpCore k) + g.clkOff)
  else if n = 0x0A then numW s.time
  else if n = 0x0B then gr.lrec.params
  else if n = 0x0C then w.fpmode
  else if n = 0x0D then numW w.part
  else if n = 0x0E then numW (s.ost k)
  else if n = 0x0F then numW w.qcopy
  else if n = 0x10 then numW w.qgath
  else if n = 0x11 then numW w.qmat
  else if n = 0x12 then numW w.qcoll
  else if n = 0x13 then w.evp.setWidth 64
  else if n = 0x14 then w.evm.setWidth 64
  else if 0x18 ≤ n && n ≤ 0x27 then vget 0 w.evh (n - 0x18)
  else if n = 0x28 then w.txst
  else if n = 0x29 then numW s.ticket
  else if n = 0x2A then numW w.txlim
  else if n = 0x30 then w.mmode
  else if n = 0x31 then w.mfault
  else if n = 0x32 then w.mcorr
  else if n = 0x33 then numW (s.mprog k)
  else if n = 0x34 then numW w.gprog
  else if n = 0x35 then numW w.rprog
  else if 0x38 ≤ n && n ≤ 0x3C then vget 0 w.mtol (n - 0x38)
  else if n = 0x40 then w.trapc
  else if n = 0x41 then w.trapa
  else if n = 0x42 then w.trappc
  else if n = 0x43 then w.trapm
  else if n = 0x44 then w.tvec
  else if n = 0x48 then g.own
  else if n = 0x49 then w.acch
  else if n = 0x4A then w.vext.setWidth 64
  else if n = 0x51 then numW (vget 32 (s.core (warpCore k)).skip (warpSlot k / 16))
  else 0

/-- A lane's value of a control register under MOV.c (R92, R121). -/
def State.ctlLane (s : State) (k n t : Nat) : W32 :=
  let w := s.warp k
  if n = 0x80 then BitVec.ofNat 32 t
  else if n = 0x81 then (w.thread t).bcur
  else if n = 0x82 then (w.thread t).txretry
  else if n = 0x83 then BitVec.ofNat 32 ((s.ctlOf k 0x00).toNat * 32 + t)
  else (s.ctlOf k n).setWidth 32

/-! ## Writing -/

/-- R282: the magnitude of a field, or the old one for a NaN or an infinity. -/
def mtolField (old new : Nat) : Nat :=
  let m := new % 2 ^ 31
  if 0x7F800000 ≤ m then old else m

/-- $fpmode takes its writable fields; RM 110 and 111 leave RM (R80). -/
def fpmodeWrite (old v : W64) : W64 :=
  let rm := if bfld v 0 3 < 6 then bfld v 0 3 else bfld old 0 3
  numW (rm + bfld v 3 2 * 8 + bfld v 8 5 * 256)

/-- $part takes a tile size of 1 to 5 (R98). -/
def partWrite (old v : Nat) : Nat := if 1 ≤ v % 8 && v % 8 ≤ 5 then v % 8 else old

/-- The write of a control register of a warp. -/
def Warp.ctlWrite (w : Warp) (n : Nat) (v : W64) : Warp :=
  if n = 0x0C then { w with fpmode := fpmodeWrite w.fpmode v }
  else if n = 0x0D then { w with part := partWrite w.part (bfld v 0 3) }
  else if n = 0x14 then { w with evm := v.setWidth 16 }
  else if 0x18 ≤ n && n ≤ 0x27 then { w with evh := vset w.evh (n - 0x18) (setFld v 0 2 0) }
  else if n = 0x2A then { w with txlim := bfld v 0 4 }
  else if n = 0x30 then { w with mmode := numW (bfld v 0 2) }
  else if 0x38 ≤ n && n ≤ 0x3C then
    let o := vget 0 w.mtol (n - 0x38)
    let x := numW (mtolField (bfld o 0 32) (bfld v 0 32) + mtolField (bfld o 32 32) (bfld v 32 32) * 2 ^ 32)
    { w with mtol := vset w.mtol (n - 0x38) x }
  else if n = 0x42 then { w with trappc := setFld v 0 2 0 }
  else w

/-! ## The instructions (R70, R121) -/

def execSget (d n : Nat) (s : State) : Res := .next ((s.wrS d (s.ctlOf s.iss.key n)).advance)

/-- SSET: a write that makes an event deliverable to a waiting issue set delivers it (R167). -/
def execSset (n a : Nat) (s : State) : Res :=
  .next (((s.modW (·.ctlWrite n (s.rdS a))).advance).eventsChanged s.iss.key)

def execMovC (p : Pre) (d n : Nat) (s : State) : Res :=
  let act := s.act p
  s.laneW p act (fun i => [(p.d i d, 1)]) fun i => s.w.wrZ (p.d i d) act (s.zeroed p) fun t => s.ctlLane s.iss.key n t

end Sys2Proof.Machine
end

