-- ==== Sys2Proof/Machine/Sync.lean ====
section
/-! DEFINITION. Meets, lane branches, barriers, events, waits for engines, and the taking and giving of resources (R97, R103, R130 to
R132, R160 to R169, R300, R301, R314). -/

namespace Sys2Proof.Machine

/-! ## Guards and gates -/

/-- The guard of R230 for an instruction with a predicate: the active threads in ordinary transactions abort. -/
def State.txGuardAct (s : State) (act : W32) (code : Nat) : State :=
  let a := s.w.inTx act
  if a = 0 then s
  else
    let s' := s.abortSet s.iss.key a code 0
    { s' with iss := { s'.iss with set := s.iss.set &&& ~~~a, elig := s.iss.elig &&& ~~~a } }

/-- A release or forced point of a paired copy (R356): the state in which the warp waits for its twin and for the writes of the window, or none when
it may go on. -/
def State.pairGate (s : State) : Option State :=
  match s.w.win with
  | none => none
  | some x => if x.passed then none else if x.due then some s.stall else some ((s.modW fun w => { w with win := some { x with atPoint := true } }).stall)

/-- A store of a warp waits at its own core, or at a tile of another: what a release at core scope waits for. A store that waits for room in a mailbox
elsewhere holds those releases alone that need $ost to read 0 (R182, R199; log entry 68). -/
def State.waitsNear (s : State) (k : Nat) : Bool :=
  (s.core (warpCore k)).senderWaits (.warp k) || s.cores.any fun c => c.2.tileWait.any fun p => p.sender = .warp k
/-- The warps whose stores a warp's release waits for: for a paired warp its twin as well, which may have made one for both (R356). -/
def State.relWarps (s : State) (k : Nat) : List Nat :=
  match (s.warp k).win, s.twinOf k with | some _, some j => [k, j] | _, _ => [k]
/-- A store of a warp waits at some core. -/
def State.storesWait (s : State) (k : Nat) : Bool := (s.relWarps k).any fun j => s.senderWaits (.warp j)
/-- A release at a scope (R199): the gate of R356, the wait for the accesses under way and for the warp's stores that have still to be performed at their
target cores, and at gang scope and wider the wait for $ost to read 0. -/
def State.relWait (s : State) (wide : Bool) : Option State :=
  match s.pairGate with
  | some s' => some s'
  | none =>
    let k := s.iss.key
    if s.w.flights != [] || (if wide then s.storesWait k || s.ost k != 0 else (s.relWarps k).any s.waitsNear) then some s.stall else none

/-- The issue set waits with a hold, and the issue ends (R90). -/
def State.holdAll (s : State) (h : Hold) : State := (s.hold s.iss.set h).finish

/-! ## Meets (R97, R130) -/

def Meet.closed : Meet := ⟨false, 0, 0, 0⟩
def Warp.meet (w : Warp) (n : Nat) : Meet := vget Meet.closed w.meets n
/-- The threads parked on a meet. -/
def Warp.parkedOn (w : Warp) (n : Nat) : W32 :=
  w.parks.foldl (fun (m : W32) p => if p.hold = .meet n then m ||| p.set else m) 0

/-- Frozen threads keep the status eligible (R90, R317), so that an OPEN in a handler makes them members. -/
def execMeetOpen (p : Pre) (n off : Nat) (s : State) : Res :=
  let act := s.act p
  let label := s.target 19 off
  if act = 0 then .next s.advance
  else if !canonical label then .next (s.trapAct act cAccess label)
  else
    let f := fun w : Warp =>
      { w with meets := vset w.meets n { w.meet n with opened := true, label := label, members := w.threadsWith (fun t => t.status = .eligible) ||| w.parkedOn n } }
    .next (s.modW f).advance

def execMeetWait (p : Pre) (n : Nat) (s0 : State) : Res :=
  let act0 := s0.act p
  let s := s0.txGuardAct act0 abHold
  let act := act0 &&& s.iss.set
  if s.emptied then .next s.finish
  else
    let m := s.w.meet n
    let join := if m.opened then act &&& m.members else 0
    if join = 0 then .next s.advance
    else
      let s1 := s.modW fun w =>
        { (w.setPcs (s.iss.set &&& ~~~join) s.nextPc) with meets := vset w.meets n { m with arrived := m.arrived ||| join } }
      .next (((s1.hold join (.meet n)).finish).modW (·.meetCheck n))

def execMeetLeave (p : Pre) (n : Nat) (s : State) : Res :=
  let act := s.act p
  if act = 0 then .next s.advance
  else
    let s1 := s.modW fun w => { w with meets := vset w.meets n { w.meet n with members := (w.meet n).members &&& ~~~act } }
    .next (s1.advance.modW (·.meetCheck n))

/-! ## Lane branches (R131, R132) -/

/-- Threads of a mask move to a target, the others of the issue set go on at the next instruction. -/
def State.split (s : State) (taken : W32) (target : W64) : State :=
  (s.modW fun w => (w.setPcs (s.iss.set &&& ~~~taken) s.nextPc).setPcs taken target).finish

def State.laneBranch (s : State) (p : Pre) (taken : W32) (off : Nat) : Res :=
  let target := s.target 22 off
  if taken != 0 && !canonical target then .next (s.trapAct (s.act p) cAccess target) else .next (s.split taken target)
def execBrt (p : Pre) (m off : Nat) (s : State) : Res := s.laneBranch p (s.act p &&& s.w.rdM m) off
def execBrf (p : Pre) (m off : Nat) (s : State) : Res := s.laneBranch p (s.act p &&& ~~~(s.w.rdM m)) off

def execCallv (p : Pre) (off : Nat) (s : State) : Res :=
  let act := s.act p
  let target := s.target 22 off
  let ret := s.nextPc
  if s.w.regBad (127, 1) then .next (s.trapAct act cIllreg 127)
  else if s.w.regWaits (127, 1) then .next s.waitIssue
  else if act = 0 then .next s.advance
  else if bfld target 32 32 != bfld ret 32 32 || !canonical target then .next (s.trapAct act cAccess target)
  else .next ((s.modW fun w => w.wrLanes 127 act fun _ => ret.setWidth 32).split act target)

/-- JMPV: each active thread goes to the address its lane holds, in the region of the instruction. -/
def execJmpv (p : Pre) (a : Nat) (s : State) : Res :=
  let act := s.act p
  let target := fun t => ((s.iss.base >>> 32).setWidth 32).append (s.w.rdV a t)
  if s.w.regBad (a, 1) then .next (s.trapAct act cIllreg (BitVec.ofNat 64 a))
  else if s.w.regWaits (a, 1) then .next s.waitIssue
  else
    match (lanesOf act).find? fun t => bfld (target t) 0 2 != 0 with
    | some t => .next (s.trapAct act cAlign (target t))
    | none =>
      let f := fun w : Warp =>
        { w with threads := vtab 32 fun t =>
            let x := w.thread t
            if act.getLsbD t then { x with pc := target t } else if s.iss.set.getLsbD t then { x with pc := s.nextPc } else x }
      .next (s.modW f).finish

/-! ## Barriers (R160 to R162) -/

/-- The word that an ILLEGAL at execution records (R319). -/
def State.baseWord (s : State) : W64 := BitVec.ofNat 64 (s.iss.words.getLastD 0)

/-- An issue set arrives; with `sync` it then waits for the phase. -/
def State.arrive (s : State) (b : BarRef) (sync : Bool) : State :=
  let k := s.iss.key
  let pend := s.pendingAt k s.iss.set b
  let now := s.iss.set &&& ~~~pend
  let phase := (s.barrier b).phase
  let s1 := s.arriveAt k now b
  let s2 := if pend = 0 then s1 else s1.hold pend (.rearrive b phase sync)
  let s3 := if now = 0 then s2
    else if sync then s2.hold now (.bar b phase) else s2.modW (·.setPcs now s.nextPc)
  s3.finish

/-- BAR.d in a grid that is not co-resident traps ILLEGAL (R161). -/
def State.barBad (s : State) (l : Level) : Bool := l = .grid && !s.gr.coresident
def wideLevel : Level → Bool
  | .gang | .grid => true
  | _ => false

def execBarArrive (l : Level) (n : Nat) (s : State) : Res :=
  if s.barBad l then .next (s.trap cIllegal s.baseWord)
  else
    match s.relWait (wideLevel l) with
    | some s' => .next s'
    | none => .next (s.arrive (s.barRef s.iss.key l n) false)

def execBarWait (l : Level) (n : Nat) (s0 : State) : Res :=
  let s := s0.txGuard abHold
  if s.emptied then .next s.finish
  else if s.barBad l then .next (s.trap cIllegal s.baseWord)
  else if s.w.flights != [] then .next s.waitIssue
  else
    let b := s.barRef s.iss.key l n
    let pend := s.pendingAt s.iss.key s.iss.set b
    let s1 := s.modW (·.setPcs (s.iss.set &&& ~~~pend) s.nextPc)
    .next (if pend = 0 then s1.finish else (s1.hold pend (.bar b (s.barrier b).phase)).finish)

def execBarSync (l : Level) (n : Nat) (s0 : State) : Res :=
  let s := s0.txGuard abHold
  if s.emptied then .next s.finish
  else if s.barBad l then .next (s.trap cIllegal s.baseWord)
  else
    match s.relWait (wideLevel l) with
    | some s' => .next s'
    | none => .next (s.arrive (s.barRef s.iss.key l n) true)

/-! ## Events (R166, R167) -/

/-- The barrier that EVB's level and number name; level 11 with number 15 names none. -/
def State.evbRef (s : State) (l b : Nat) : Option BarRef :=
  if l = 0 then some (s.barRef s.iss.key .group b)
  else if l = 1 then some (s.barRef s.iss.key .gang b)
  else if l = 2 then some (s.barRef s.iss.key .grid b)
  else if b = 15 then none
  else some (s.barRef s.iss.key .warp 0)

def execEvb (n l b a : Nat) (s : State) : Res :=
  let v := s.rdS a
  if bfld v 0 2 != 0 then .next (s.trap cAlign v)
  else if !canonical v then .next (s.trap cAccess v)
  else
    let bind := s.evbRef l b
    let f := fun w : Warp =>
      { w with evh := vset w.evh n v
               evbind := if 12 ≤ n then vset w.evbind (n - 12) bind else w.evbind }
    .next ((s.modW f).advance.eventsChanged s.iss.key)

/-- $evm or $evp takes a new value. -/
def State.evSet (s : State) (f : Warp → Warp) : Res := .next ((s.modW f).advance.eventsChanged s.iss.key)
def execEvmWr (imm : Nat) (s : State) : Res := s.evSet fun w => { w with evm := BitVec.ofNat 16 imm }
def execEvmSet (imm : Nat) (s : State) : Res := s.evSet fun w => { w with evm := w.evm ||| BitVec.ofNat 16 imm }
def execEvmClr (imm : Nat) (s : State) : Res := s.evSet fun w => { w with evm := w.evm &&& ~~~(BitVec.ofNat 16 imm) }
def execEvclr (imm : Nat) (s : State) : Res := s.evSet fun w => { w with evp := w.evp &&& ~~~(BitVec.ofNat 16 imm) }

def execWany (imm : Nat) (s0 : State) : Res :=
  let s := s0.txGuard abHold
  let eff := s.w.anyEff imm
  if s.emptied then .next s.finish
  else if eff = 0 then .next (s.trap cIllegal s.baseWord)
  else
    match s.w.firstEvent eff with
    | some n =>
      let target := vget 0 s.w.evh n
      if !canonical target then .next (s.trap cAccess target)
      else .next ((s.modW fun w => { w with evp := w.evp &&& ~~~(BitVec.ofNat 16 (2 ^ n)) }).jump target)
    | none => .next (s.holdAll (.wany imm))

/-! ## Waiting for engines (R300, R301) -/

/-- The counter of a class (R244). -/
def Warp.qcount (w : Warp) : QClass → Nat
  | .copy => w.qcopy
  | .gather => w.qgath
  | .matrix => w.qmat
  | .coll => w.qcoll

/-- WAITQ. A miss report of a STRICT plan traps DECODEMISS when the WAITQ.coll would complete, and is cleared (R400). -/
def execWaitq (c : QClass) (n : Nat) (s0 : State) : Res :=
  let s := s0.txGuard abHold
  if s.emptied then .next s.finish
  else if s.w.qcount c ≤ n then
    match c, s.w.reports with
    | .coll, r :: rest =>
      let s1 := s.modW fun w => { w with reports := rest }
      .next (s1.trap cDecodeMiss (BitVec.ofNat 64 (r.1 * 2 ^ 32 + r.2)))
    | _, _ => .next s.advance
  else .next (s.holdAll (.waitq c n))

/-- Every token of a mask has no pending operation. -/
def Warp.tokensIdle (w : Warp) (mask : Nat) : Bool :=
  (List.range 8).all fun n => !mask.testBit n || vget 0 w.tokPend n = 0
/-- WAITK completes: sd takes the ERR bits of its tokens, and they are cleared. -/
def Warp.takeErr (w : Warp) (d mask : Nat) : Warp :=
  { (w.wrS d ((w.tokErr &&& BitVec.ofNat 8 mask).setWidth 64)) with tokErr := w.tokErr &&& ~~~(BitVec.ofNat 8 mask) }

def execWaitk (d m : Nat) (s0 : State) : Res :=
  let s := s0.txGuard abHold
  if s.emptied then .next s.finish
  else if s.w.tokensIdle m then .next (s.modW (·.takeErr d m)).advance
  else .next (s.holdAll (.waitk d m))

/-- Waiting WAITQs and WAITKs of a warp whose condition has come complete, in the order of their issue (R301). A WAITQ.coll
with a miss report is made eligible at its own address and executes again. -/
def Warp.waitsDone (w : Warp) : List Park → Warp
  | [] => w
  | p :: r =>
    let gone := fun w : Warp => { w with parks := w.parks.filter fun q => q.set != p.set }
    let wake := fun (w : Warp) (off : W64) => gone (w.modThreads p.set fun t => { t with pc := t.pc + off, status := .eligible })
    match p.hold with
    | .waitq c n =>
      if w.qcount c ≤ n then (wake w (if c = .coll && w.reports != [] then 0 else 4)).waitsDone r else w.waitsDone r
    | .waitk d m => if w.tokensIdle m then (wake (w.takeErr d m) 4).waitsDone r else w.waitsDone r
    | _ => w.waitsDone r
def State.engineWaits (s : State) (k : Nat) : State := s.modWarp k fun w => w.waitsDone w.parks

/-! ## Taking and giving (R103, R168, R177, R314) -/

/-- The blocks of the V pool that the group's warps hold. -/
def State.vextUsed (s : State) (g : Group) : Nat :=
  ((s.groupWarps g.key).map fun k => popW ((s.warp k).vext.setWidth 64)).sum

/-- The banks of a mask in ascending order, at most n. -/
def lowBanks (m : W64) (n : Nat) : List Nat := (bitsOf m).take n
def highBanks (m : W64) (n : Nat) : List Nat := (bitsOf m).reverse.take n
def bankMask (l : List Nat) : W64 := l.foldl (fun m b => m ||| bit64 b) 0

/-- A bank is zeroed (R105, R280). -/
def State.zeroBank (s : State) (core k : Nat) : State :=
  let b := windowBase s.pkg core + 0x100000 + k * 0x4000
  ({ s with mem := s.mem.filter fun c => !(b ≤ c.1 && c.1 < b + 0x4000) }).modBand core k fun _ => Band.zero

/-- A zero point of a band that a group goes on holding (R280): the type of its most recent MMA stands (R307). -/
def State.zeroPoint (s : State) (core k : Nat) : State :=
  (s.zeroBank core k).modBand core k fun b => { b with lastInt := ((s.core core).band k).lastInt }

/-- The registers of a block mask are zeroed and held. -/
def Warp.gainBlocks (w : Warp) (need : BitVec 4) : Warp :=
  { w with vext := w.vext ||| need
           vregs := vtab 128 fun n =>
             if 96 ≤ n && need.getLsbD ((n - 96) / 8) then Vector.replicate 32 0 else vget (Vector.replicate 32 0) w.vregs n }

/-- The request can be granted now. -/
def State.canTake (s : State) (g : Group) (k : Nat) : TakeReq → Bool
  | .v m => s.vextUsed g + popW ((m &&& ~~~(s.warp k).vext).setWidth 64) ≤ g.xreg
  | .a n => n ≤ popW g.poolFree

/-- A request is granted: the registers or banks are zeroed and held, and the threads go on at the next instruction. -/
def State.grant (s : State) (gk k : Nat) (set : W32) (r : TakeReq) : State :=
  let s1 := match r with
    | .v m => s.modWarp k fun w => w.gainBlocks (m &&& ~~~w.vext)
    | .a n =>
      let g := s.group gk
      let bs := lowBanks g.poolFree n
      let s' := bs.foldl (fun (s : State) b => s.zeroBank g.core b) s
      (s'.modGroup gk fun g => { g with poolFree := g.poolFree &&& ~~~(bankMask bs), own := g.own ||| bankMask bs }).modWarp k
        fun w => { w with acch := w.acch ||| bankMask bs }
  s1.modWarp k fun w =>
    { (w.modThreads set fun t => { t with pc := t.pc + 4, status := .eligible }) with
      parks := w.parks.filter fun p => !(p.set = set && p.hold = Hold.take) }

/-- Requests to each pool are granted in the order of their issue; one that cannot be granted holds back the later ones of its
pool. -/
def State.grantTakes (s : State) (gk : Nat) : List (Nat × W32 × TakeReq) → Bool → Bool → State
  | [], _, _ => s
  | (k, set, r) :: rest, bv, ba =>
    let isV := match r with | .v _ => true | .a _ => false
    if (if isV then bv else ba) then s.grantTakes gk rest bv ba
    else if s.canTake (s.group gk) k r then
      ((s.grant gk k set r).modGroup gk fun g =>
        { g with takeQ := g.takeQ.filter fun x => !(x.1 = k && x.2.1 = set) }).grantTakes gk rest bv ba
    else s.grantTakes gk rest (bv || isV) (ba || !isV)
def State.servePools (s : State) (gk : Nat) : State := s.grantTakes gk (s.group gk).takeQ false false

/-- A TAKE: a request beyond its pool traps, another joins the queue. -/
def State.take (s0 : State) (r : State → TakeReq) (size : State → Nat) (limit : Group → Nat) (detail : State → Nat) : Res :=
  let s := s0.txGuard abHold
  if s.emptied then .next s.finish
  else if limit s.g < size s then .next (s.trap cIllreg (BitVec.ofNat 64 (512 + detail s)))
  else
    let s1 := (s.holdAll .take).modG fun g => { g with takeQ := g.takeQ ++ [(s.iss.key, s.iss.set, r s)] }
    .next (s1.servePools s1.w.group)

def execTakeV (m : Nat) (s : State) : Res :=
  let req := fun s : State => BitVec.ofNat 4 m &&& ~~~s.w.vext
  s.take (fun _ => .v (BitVec.ofNat 4 m)) (fun s => popW ((req s).setWidth 64)) (·.xreg) (fun s => (req s).toNat)
def execTakeA (c : Nat) (s : State) : Res := s.take (fun _ => .a c) (fun _ => c) (fun g => popW g.pool) (fun _ => c)

def execGiveV (m : Nat) (s : State) : Res :=
  if s.w.flights != [] then .next s.waitIssue else
  let s1 := (s.modW fun w => { w with vext := w.vext &&& ~~~(BitVec.ofNat 4 m) }).advance
  .next (s1.servePools s1.w.group)

/-- Banks go back to the pool, their records emptied (R289). -/
def State.giveBanks (s : State) (k : Nat) (bs : List Nat) : State :=
  let gk := (s.warp k).group
  let c := (s.group gk).core
  let s1 := bs.foldl (fun s b => s.modBand c b fun _ => Band.zero) s
  (s1.modGroup gk fun g => { g with own := g.own &&& ~~~(bankMask bs), poolFree := g.poolFree ||| bankMask bs }).modWarp k
    fun w => { w with acch := w.acch &&& ~~~(bankMask bs) }

/-- An unretired matrix operation of the group names one of the banks (R314). -/
def Group.namesBank (g : Group) (bs : List Nat) : Bool := g.matQ.any fun o => o.kind.bands.any fun b => bs.contains (b % 64)

def execGiveA (c : Nat) (s : State) : Res :=
  let bs := highBanks s.w.acch c
  if s.g.namesBank bs || s.w.flights != [] then .next s.waitIssue
  else
    let s1 := (s.giveBanks s.iss.key bs).advance
    .next (s1.servePools s1.w.group)

def execPart (z : Nat) (s : State) : Res := .next (s.modW fun w => { w with part := partWrite w.part z }).advance

end Sys2Proof.Machine
end

