-- ==== Sys2Proof/Machine/LaneFloat.lean ====
section
/-! DEFINITION. Lane floating point: arithmetic, compares, functions, conversions and packed products (R133 to R147). -/

namespace Sys2Proof.Machine

/-! ## The environment of an instruction -/

/-- The mode that $fpmode.RM names (R79, R80). -/
def rmMode (n : Nat) : Rnd :=
  match n with
  | 0 => .rne
  | 1 => .rtz
  | 2 => .rup
  | 3 => .rdn
  | 4 => .rna
  | _ => .rno
/-- The mode of an instruction: EXT's, or $fpmode's (R79). -/
def Warp.mode (w : Warp) (e : Option Ext) : Rnd :=
  match e.bind Ext.rnd with
  | some m => m
  | none => rmMode (bfld w.fpmode 0 3)
/-- The flush bit that governs a format (R82). -/
def Warp.flush (w : Warp) (f : Fmt) : Bool :=
  if f = fmtF64 then bbit w.fpmode 4 else if f = fmtF32 || f = fmtF16 || f = fmtBf16 then bbit w.fpmode 3 else false
/-- The environment of a result in a format. -/
def Warp.fenv (w : Warp) (p : Pre) (f : Fmt) : FEnv := ⟨w.mode p.ext, w.flush f, p.sat⟩
/-- Flags are recorded in $fpmode (R81). -/
def Warp.raise (w : Warp) (fl : Nat) : Warp := { w with fpmode := w.fpmode ||| BitVec.ofNat 64 fl }
/-- The flags of the lanes of a mask. -/
def flagsOf (m : W32) (f : Nat → Nat) : Nat := (lanesOf m).foldl (fun a t => a ||| f t) 0

/-! ## Types -/

def fpWide (t : FpTy) : Bool := t = .f64
def fpRegs (t : FpTy) : Nat := if t = .f64 then 2 else 1
/-- The format of one element. -/
def fpFmt : FpTy → Fmt
  | .f64 => fmtF64
  | .f32 => fmtF32
  | .f16 | .h2 => fmtF16
  | .bf16 | .x2 => fmtBf16
/-- An element function on whole lane values: packed types act on both halves (R76). -/
def fpMap (t : FpTy) (F : Fmt → List Nat → Nat × Nat) (xs : List Nat) : Nat × Nat :=
  match t with
  | .x2 | .h2 =>
    let lo := F (fpFmt t) (xs.map (· % 65536))
    let hi := F (fpFmt t) (xs.map (· / 65536 % 65536))
    (lo.1 + hi.1 * 65536, lo.2 ||| hi.2)
  | _ => F (fpFmt t) (xs.map (· % 2 ^ (fpFmt t).w))

/-! ## Arithmetic (R135 to R137) -/

def fSubE (v : FEnv) (f : Fmt) (xs : List Nat) : Nat × Nat :=
  let r := FV.sum v.md [f.source v.ftz (elem xs 0), (f.source v.ftz (elem xs 1)).flip]
  f.deliver v r.1 r.2
def fMulE (v : FEnv) (f : Fmt) (xs : List Nat) : Nat × Nat :=
  let r := (f.source v.ftz (elem xs 0)).mul (f.source v.ftz (elem xs 1))
  f.deliver v r.1 r.2
def fMaE (v : FEnv) (f : Fmt) (xs : List Nat) : Nat × Nat :=
  let p := (f.source v.ftz (elem xs 0)).mul (f.source v.ftz (elem xs 1))
  let r := FV.sum v.md [p.1, f.source v.ftz (elem xs 2)]
  f.deliver v r.1 (p.2 || r.2)
def fDivE (v : FEnv) (f : Fmt) (xs : List Nat) : Nat × Nat :=
  let r := (f.source v.ftz (elem xs 0)).div (f.source v.ftz (elem xs 1))
  let d := f.deliver v r.1 r.2.1
  (d.1, d.2 ||| if r.2.2 then flDZ else 0)
def fMinE (v : FEnv) (f : Fmt) (xs : List Nat) : Nat × Nat := f.minmax v.ftz false (elem xs 0) (elem xs 1)
def fMaxE (v : FEnv) (f : Fmt) (xs : List Nat) : Nat × Nat := f.minmax v.ftz true (elem xs 0) (elem xs 1)

/-- A float instruction of two sources, or three with VC. -/
def State.fltOp (s : State) (f : LRF) (three : Bool) (F : FEnv → Fmt → List Nat → Nat × Nat) : Res :=
  let wide := fpWide f.t
  let r := fpRegs f.t
  let act := s.act f.pre
  s.laneW f.pre act
    (fun i => (f.pre.d i f.d, r) :: (f.pre.a i f.a, r) :: (f.pre.b i f.b, r) :: (if three then [(f.pre.vc i f.d, r)] else []))
    fun i =>
      let w := s.w
      let v := w.fenv f.pre (fpFmt f.t)
      let res := fun t => fpMap f.t (F v)
        [w.rdT wide (f.pre.a i f.a) t, w.rdT wide (f.pre.b i f.b) t, w.rdT wide (f.pre.vc i f.d) t]
      (w.wrT wide (f.pre.d i f.d) act (s.zeroed f.pre) fun t => BitVec.ofNat 64 (res t).1).raise (flagsOf act fun t => (res t).2)

def execFadd (f : LRF) (s : State) : Res := s.fltOp f false fAddE
def execFsub (f : LRF) (s : State) : Res := s.fltOp f false fSubE
def execFmul (f : LRF) (s : State) : Res := s.fltOp f false fMulE
def execFma (f : LRF) (s : State) : Res := s.fltOp f true fMaE
def execFmin (f : LRF) (s : State) : Res := s.fltOp f false fMinE
def execFmax (f : LRF) (s : State) : Res := s.fltOp f false fMaxE
def execFdiv (f : LRF) (s : State) : Res := s.fltOp f false fDivE

/-! ## Compares (R138) -/

def State.fcmpOp (s : State) (f : LRF) (quietNv : Bool) (F : FV → FV → Bool) : Res :=
  let wide := fpWide f.t
  let r := fpRegs f.t
  let act := s.act f.pre
  s.laneW f.pre act (fun i => [(f.pre.a i f.a, r), (f.pre.b i f.b, r)]) fun i =>
    let w := s.w
    let fm := fpFmt f.t
    let src := fun n t => fm.source (w.flush fm) (w.rdT wide n t % 2 ^ fm.w)
    let a := src (f.pre.a i f.a)
    let b := src (f.pre.b i f.b)
    let nv := fun t => (a t).isSig || (b t).isSig || (quietNv && ((a t).isNan || (b t).isNan))
    (w.wrMZ (f.pre.d i f.d) act (s.zeroed f.pre) fun t => F (a t) (b t)).raise (flagsOf act fun t => if nv t then flNV else 0)

def execFcmpeq (f : LRF) (s : State) : Res := s.fcmpOp f false FV.eq
def execFcmplt (f : LRF) (s : State) : Res := s.fcmpOp f true FV.lt
def execFcmple (f : LRF) (s : State) : Res := s.fcmpOp f true fun a b => a.lt b || a.eq b
def execFcmpun (f : LRF) (s : State) : Res := s.fcmpOp f false fun a b => a.isNan || b.isNan

/-! ## FUN (R139 to R142) -/

/-- The class mask of a pattern (R142). -/
def classMask (f : Fmt) (x : Nat) : Nat :=
  match f.decode x with
  | .nan true => 1
  | .nan false => 2
  | .inf n => if n then 4 else 512
  | .num n m _ =>
    if m = 0 then (if n then 32 else 64)
    else if f.subnormal x then (if n then 16 else 128)
    else if n then 8 else 256

/-- The exact result of a function at a source that is no NaN: the value, NV and DZ. -/
def funExact (fn : FunFn) (md : Rnd) (x : FV) : FV × Bool × Bool :=
  let bad : FV × Bool × Bool := (.nan false, true, false)
  let one : FV := .num false 1 0
  match fn, x with
  | .rcp, y => FV.div one y
  | .rsq, .inf n => if n then bad else (.num false 0 0, false, false)
  | .rsq, .num n m e => if m = 0 then (.inf n, false, true) else if n then bad else (rsqMag m e, false, false)
  | .sqrt, .inf n => if n then bad else (x, false, false)
  | .sqrt, .num n m e => if m = 0 then (x, false, false) else if n then bad else (sqrtMag m e, false, false)
  | .exp2, .inf n => (if n then .num false 0 0 else .inf false, false, false)
  | .exp2, .num n m e => (if m = 0 then one else exp2Mag n m e, false, false)
  | .log2, .inf n => if n then bad else (x, false, false)
  | .log2, .num n m e => if m = 0 then (.inf true, false, true) else if n then bad else (log2Mag m e, false, false)
  | .sin, .inf _ => bad
  | .sin, .num n m e => (if m = 0 then x else trigMag 0 n m e, false, false)
  | .cos, .inf _ => bad
  | .cos, .num n m e => (if m = 0 then one else trigMag 1 n m e, false, false)
  | .tanh, .inf n => (.num n 1 0, false, false)
  | .tanh, .num n m e => (if m = 0 then x else tanhMag n m e, false, false)
  | .rndi, .num n m e =>
    if 0 ≤ e then (x, false, false) else (.num n (roundShift md n m (-e).toNat).1 0, false, false)
  | _, y => (y, false, false)

/-- The functions that R140 makes faithful in f32 and f64. -/
def FunFn.faithful : FunFn → Bool
  | .rsq | .exp2 | .log2 | .sin | .cos | .tanh => true
  | _ => false

/-- A faithful result: one of the two neighbours of the exact value, as Config.faithfulUp has it (log entry 20); the flags are those of
the correctly rounded result, with NX (R140). Where that one overflows, R79's column stands, and under FTZ below the smallest normal R82 gives
the result. -/
def Fmt.faithful (f : Fmt) (up : Bool) (v : FEnv) (neg : Bool) (m : Nat) (e : Int) : Nat × Nat :=
  let r := f.round v.md false v.ftz neg m e
  if r.2 = 0 || (f.unbounded v.md neg m e).1 || (v.ftz && magLt m e 1 f.emin) then r
  else
    let lo := (f.bounded .rtz neg m e).1
    (if up = neg then lo else lo + 1, (r.2 &&& (flOF ||| flUF)) ||| flNX)

/-- A function of FUN on one element. -/
def funElem (fn : FunFn) (t : FpTy) (v : FEnv) (f : Fmt) (xs : List Nat) : Nat × Nat :=
  let bits := elem xs 0
  match fn with
  | .abs => (bits % 2 ^ (f.w - 1), 0)
  | .neg => (if bits.testBit (f.w - 1) then bits - 2 ^ (f.w - 1) else bits + 2 ^ (f.w - 1), 0)
  | .class => (classMask f bits, 0)
  | _ =>
    let x := f.source v.ftz bits
    if x.isNan then (f.nan, if x.isSig then flNV else 0)
    else
      let r := funExact fn v.md x
      match r.1, FunFn.faithful fn && (f = fmtF32 || f = fmtF64) with
      | .num n m e, true =>
        if m = 0 then f.deliver v r.1 r.2.1
        else f.faithful (Config.faithfulUp fn t v.md (BitVec.ofNat 64 bits)) v n m e
      | y, _ =>
        let d := f.deliver v y r.2.1
        (d.1, d.2 ||| if r.2.2 then flDZ else 0)

def execFunc (fn : FunFn) (t : FpTy) (p : Pre) (d a : Nat) (s : State) : Res :=
  let wide := fpWide t
  let act := s.act p
  let dw := wide && fn != .class
  s.laneW p act (fun i => [(p.d i d, if dw then 2 else 1), (p.a i a, fpRegs t)]) fun i =>
    let w := s.w
    let v := w.fenv p (fpFmt t)
    let res := fun L => fpMap t (funElem fn t v) [w.rdT wide (p.a i a) L]
    (w.wrT dw (p.d i d) act (s.zeroed p) fun L => BitVec.ofNat 64 (res L).1).raise (flagsOf act fun L => (res L).2)

/-! ## Conversions (R83, R143) -/

def cvtFmt : CvtTy → Fmt
  | .int _ => fmtF32
  | .f64 => fmtF64
  | .f32 => fmtF32
  | .f16 => fmtF16
  | .bf16 => fmtBf16
  | .e4m3 => fmtE4m3
  | .e5m2 => fmtE5m2
  | .e2m1 => fmtE2m1
def cvtRegs : CvtTy → Nat
  | .int t => IntTy.regs t
  | .f64 => 2
  | _ => 1

/-- A float to a float format. -/
def floatToFloat (f : Fmt) (v : FEnv) (x : FV) : Nat × Nat :=
  match x with
  | .nan sg => if f.top = .none then (0, flNV) else (f.nan, if sg then flNV else 0)
  | .inf n => if f.top = .ieee && !v.sat then (f.sign n + f.inf, 0) else (f.sign n + f.big, flNV)
  | y => f.deliver v y false
/-- A float to an integer type: the value and the flags. -/
def floatToInt (t : IntTy) (md : Rnd) (x : FV) : Int × Nat :=
  match x with
  | .nan _ => (0, flNV)
  | .inf n => (if n then IntTy.lo t else IntTy.hi t, flNV)
  | .num n m e =>
    let r := roundAt md n m e 0
    let y : Int := if n then -(r.1 : Int) else r.1
    if y < IntTy.lo t then (IntTy.lo t, flNV)
    else if IntTy.hi t < y then (IntTy.hi t, flNV)
    else (y, if r.2 then flNX else 0)
/-- An integer as an exact value. -/
def intValue (x : Int) : FV := .num (x < 0) x.natAbs 0

/-- One conversion: the destination's bits and the flags. -/
def cvtElem (src dst : CvtTy) (md : Rnd) (sat : Bool) (flush : Fmt → Bool) (bits : Nat) : W64 × Nat :=
  let fs := cvtFmt src
  let fd := cvtFmt dst
  let x := fs.source (flush fs) (bits % 2 ^ fs.w)
  let v : FEnv := ⟨md, flush fd, sat⟩
  match src, dst with
  | .int a, .int b => (IntTy.image b sat (IntTy.val a bits), 0)
  | .int a, _ => let r := fd.deliver v (intValue (IntTy.val a bits)) false; (BitVec.ofNat 64 r.1, r.2)
  | _, .int b => let r := floatToInt b md x; (IntTy.image b false r.1, r.2)
  | _, _ => let r := floatToFloat fd v x; (BitVec.ofNat 64 r.1, r.2)

def execCvt (src dst : CvtTy) (p : Pre) (d a : Nat) (s : State) : Res :=
  let act := s.act p
  s.laneW p act (fun i => [(p.d i d, cvtRegs dst), (p.a i a, cvtRegs src)]) fun i =>
    let w := s.w
    let res := fun t => cvtElem src dst (w.mode p.ext) p.sat w.flush (w.rdT (cvtRegs src = 2) (p.a i a) t)
    (w.wrT (cvtRegs dst = 2) (p.d i d) act (s.zeroed p) fun t => (res t).1).raise (flagsOf act fun t => (res t).2)

/-! ## Block conversions (R84, R144, R145) -/

def blockFmt : BlockTy → Fmt
  | .e2m1 => fmtE2m1
  | .e4m3 => fmtE4m3
  | .e5m2 => fmtE5m2
def blockEmax : BlockTy → Int
  | .e2m1 => 2
  | .e4m3 => 8
  | .e5m2 => 15
/-- The scale exponent of a block (R84). A block without a finite element has no amax in the spec: here amax is 0 and X is -127 (DESIGN CHOICE,
log entry 58). -/
def blockX (t : BlockTy) (xs : List FV) : Int :=
  let tops := xs.filterMap fun x => match x with | .num _ m e => if m = 0 then none else some (topExp m e) | _ => none
  match tops with
  | [] => -127
  | a :: r => max (-127) (min 127 (r.foldl max a - blockEmax t))

def execCvtbTo (ty : BlockTy) (p : Pre) (d a b : Nat) (s : State) : Res :=
  let act := s.act p
  s.laneW p act (fun i => [(p.d i d, 1), (p.a i a, 1), (p.b i b, 1)]) fun i =>
    let w := s.w
    let src := fun t => fmtF32.source (w.flush fmtF32) (w.rdV (p.a i a) t).toNat
    let X := blockX ty ((lanesOf act).map src)
    let res := fun t => floatToFloat (blockFmt ty) ⟨w.mode p.ext, false, true⟩ ((src t).scale (-X))
    ((w.wrZ (p.d i d) act (s.zeroed p) fun t => BitVec.ofNat 32 (res t).1).wrZ (p.b i b) act (s.zeroed p) fun _ =>
      w32 (X + 127)).raise (flagsOf act fun t => (res t).2)

/-- R145, with the rows of R83 for an infinity under SAT: DEDUCED, log entry 44. -/
def execCvtbFrom (ty : BlockTy) (p : Pre) (d a b : Nat) (s : State) : Res :=
  let act := s.act p
  s.laneW p act (fun i => [(p.d i d, 1), (p.a i a, 1), (p.b i b, 1)]) fun i =>
    let w := s.w
    let f := blockFmt ty
    let res := fun t =>
      let c := (w.rdV (p.b i b) t).toNat % 256
      if c = 255 then (fmtF32.nan, flNV)
      else floatToFloat fmtF32 (w.fenv p fmtF32) ((f.decode ((w.rdV (p.a i a) t).toNat % 2 ^ f.w)).scale (c - 127))
    (w.wrZ (p.d i d) act (s.zeroed p) fun t => BitVec.ofNat 32 (res t).1).raise (flagsOf act fun t => (res t).2)

/-! ## Packed products (R146, R147) -/

def execPfma (f : LRF) (s : State) : Res :=
  let act := s.act f.pre
  s.laneW f.pre act
    (fun i => [(f.pre.d i f.d, 1), (f.pre.a i f.a, 1), (f.pre.b i f.b, 1), (f.pre.vc i f.d, 1)]) fun i =>
    let w := s.w
    let fm := fpFmt f.t
    let v := w.fenv f.pre fmtF32
    let half := fun n t k => fm.source (w.flush fm) ((w.rdV n t).toNat / 65536 ^ k % 65536)
    let res := fun t =>
      let p0 := (half (f.pre.a i f.a) t 0).mul (half (f.pre.b i f.b) t 0)
      let p1 := (half (f.pre.a i f.a) t 1).mul (half (f.pre.b i f.b) t 1)
      let r := FV.sum v.md [p0.1, p1.1, fmtF32.source v.ftz (w.rdV (f.pre.vc i f.d) t).toNat]
      fmtF32.deliver v r.1 (p0.2 || p1.2 || r.2)
    (w.wrZ (f.pre.d i f.d) act (s.zeroed f.pre) fun t => BitVec.ofNat 32 (res t).1).raise (flagsOf act fun t => (res t).2)

/-- The complex elements of a packed register: real and imaginary parts (R74). -/
def complexParts (four : Bool) (x : Nat) : List (Int × Int) :=
  let k := if four then 4 else 8
  (List.range (32 / (2 * k))).map fun j => (sext k (x / 2 ^ (2 * k * j)), sext k (x / 2 ^ (2 * k * j + k)))
/-- The sum of the complex products. -/
def complexDot (four : Bool) (a b : Nat) : Int × Int :=
  let ps := (complexParts four a).zip (complexParts four b)
  ((ps.map fun p => p.1.1 * p.2.1 - p.1.2 * p.2.2).sum, (ps.map fun p => p.1.1 * p.2.2 + p.1.2 * p.2.1).sum)

def execCdot (four : Bool) (f : LRN) (s : State) : Res :=
  let act := s.act f.pre
  s.laneW f.pre act
    (fun i => (f.pre.d i f.d, 2) :: (f.pre.a i f.a, 1) :: (f.b.use f.pre i 1 ++ [(f.pre.vc i f.d, 2)])) fun i =>
    let w := s.w
    let c := f.pre.vc i f.d
    let dot := fun t => complexDot four (w.rdV (f.pre.a i f.a) t).toNat (w.rdB f.pre i false f.b t)
    let part := fun (n t : Nat) (x : Int) => (IntTy.image .i32 f.pre.sat (sext 32 (w.rdV n t).toNat + x)).setWidth 32
    ((w.wrZ (f.pre.d i f.d) act (s.zeroed f.pre) fun t => part c t (dot t).1).wrZ (f.pre.d i f.d + 1) act (s.zeroed f.pre) fun t =>
      part (c + 1) t (dot t).2)

end Sys2Proof.Machine
end

