-- ==== Sys2Proof/Machine/LaneRed.lean ====
section
/-! DEFINITION. Lane reductions, scans and segmented reductions (R128, R129). -/

namespace Sys2Proof.Machine

/-- The identity of an integer function (R128). -/
def intId (f : IntFn) (t : IntTy) : Int :=
  match f with
  | .add | .or | .xor => 0
  | .and => IntTy.val t (2 ^ IntTy.w t - 1)
  | .min => IntTy.hi t
  | .max => IntTy.lo t

/-- The identity of a float function. -/
def fltId (f : FltFn) (fm : Fmt) : Nat :=
  match f with
  | .fadd => fm.sign true
  | .fmin => fm.inf
  | .fmax => fm.sign true + fm.inf
/-- A contribution as it is delivered alone. -/
def fltAlone (v : FEnv) (fm : Fmt) (a : Nat) : Nat × Nat :=
  let x := fm.source v.ftz a
  fm.deliver v x x.isSig

/-- The combination of contributions in order. -/
def combine (op : RedOp) (sat : Bool) (v : FEnv) (xs : List Nat) : W64 × Nat :=
  match op with
  | .int f t =>
    let x := match xs.map (IntTy.val t) with
      | [] => intId f t
      | a :: r => r.foldl (intFn f t) a
    (IntTy.image t (sat && f = .add) x, 0)
  | .flt f wide =>
    let fm := if wide then fmtF64 else fmtF32
    let r := match xs with
      | [] => (fltId f fm, 0)
      | a :: r => r.foldl (fun acc x => let y := fltFn f v fm acc.1 x; (y.1, acc.2 ||| y.2)) (fltAlone v fm a)
    (BitVec.ofNat 64 r.1, r.2)

def RedOp.wide : RedOp → Bool
  | .int _ t => IntTy.w t = 64
  | .flt _ wide => wide

/-- A reduction whose contributions to lane t are those of a list of lanes. -/
def State.redOp (s : State) (f : Red) (act z : W32) (from_ : Nat → List Nat) : Res :=
  let wide := RedOp.wide f.op
  let n := if wide then 2 else 1
  s.laneW f.pre act (fun i => [(f.pre.d i f.d, n), (f.pre.a i f.a, n)]) fun i =>
    let w := s.w
    let v := w.fenv f.pre (if wide then fmtF64 else fmtF32)
    let res := fun t => combine f.op f.pre.sat v ((from_ t).map fun u => w.rdT wide (f.pre.a i f.a) u)
    (w.wrT wide (f.pre.d i f.d) act z fun t => (res t).1).raise (flagsOf act fun t => (res t).2)

def execTred (f : Red) (s : State) : Res :=
  let act := s.act f.pre
  s.redOp f act (s.zeroed f.pre) fun t => (s.w.tileOf t).filter fun u => act.getLsbD u

def execScan (f : Red) (s : State) : Res :=
  let act := s.act f.pre
  s.redOp f act (s.zeroed f.pre) fun t =>
    (s.w.tileOf t).filter fun u => act.getLsbD u && (decide (u < t) || (u = t && !f.excl))

/-- The issue-set lanes of lane t's segment (R129). -/
def State.segment (s : State) (heads : W32) (t : Nat) : List Nat :=
  let lanes := (s.w.tileOf t).filter fun u => s.iss.set.getLsbD u
  let start := ((lanes.filter fun u => decide (u ≤ t) && heads.getLsbD u).getLast?).getD (lanes.headD 0)
  let stop := (lanes.find? fun u => decide (t < u) && heads.getLsbD u).getD 32
  lanes.filter fun u => decide (start ≤ u) && decide (u < stop)

def execSegr (f : Red) (s : State) : Res := s.redOp f s.iss.set 0 (s.segment (s.selector f.pre))

end Sys2Proof.Machine
end

