-- ==== Sys2Proof/Machine/Sys.lean ====
section
/-! DEFINITION. The SYS group and the fences (R222 to R224, R322 to R328). -/

namespace Sys2Proof.Machine

def execSnop (s : State) : Res := .next s.advance

/-! ## EXIT (R323) -/

/-- A warp without threads ends: it returns its extended blocks and banks, and its mailbox packets are discarded. A bank that an
unretired matrix operation names is returned when the slot is released (log entry 16). -/
def State.endWarp (s : State) (k : Nat) : State :=
  let gk := (s.warp k).group
  let held := (bitsOf (s.warp k).acch).filter fun b => !(s.group gk).namesBank [b]
  let s1 := s.modWarp k fun w => { w with vext := 0, reports := [] }
  ((s1.giveBanks k held).dropMail k).servePools gk

/-- The threads of the issue set exit, and the warp ends when none remains. -/
def State.exitSet (s : State) : State :=
  let s1 := s.finish.modW (·.exitThreads s.iss.set)
  if s1.w.ended then s1.endWarp s.iss.key else s1

def execExit (s : State) : Res :=
  let w := s.w
  let last := w.threadsWith (fun t => t.status != .exited) &&& ~~~s.iss.set = 0
  if w.handler then .next (s.trap cIllegal s.baseWord)
  else if w.inTx s.iss.set ||| w.irrevocable s.iss.set != 0 then .next (s.trap cTxMisuse 0)
  else
    match (if last then s.pairGate else none) with
    | some s' => .next s'
    | none => .next s.exitSet

/-! ## The others -/

/-- YIELD (R324): the warp is not ready for the 4 clocks that follow. Its issue has made its slot the quadrant's position (R95). -/
def execYield (s : State) : Res := .next (s.modW fun w => { w with readyAt := s.cycles + 5 }).advance

def execTrap (imm : Nat) (s : State) : Res := .next (s.trap cTrapi (BitVec.ofNat 64 imm))
def execBrk (s : State) : Res := .next (s.trap cBrk 0)

def execRte (s : State) : Res :=
  if !s.w.handler then .next (s.trap cPriv 0)
  else if !canonical s.w.trappc then .next (s.trap cAccess s.w.trappc)
  else .next ((s.finish.unpark s.iss.key s.w.hset).modW (·.leaveTrap))

/-- A trigger of the snapshot (R360). -/
def State.snapTrigger (s : State) : State :=
  if bbit s.dxsnap 0 && s.snapAt.isNone then { s with snapAt := some (s.time + 2000) } else s

def execSnap (s : State) : Res :=
  if !s.ctxSnapOk s.gr.ctx then .next (s.trap cPriv 0) else .next s.snapTrigger.advance

def execSleep (a : Nat) (s0 : State) : Res :=
  let s := s0.txGuard abHold
  let v := s.rdS a
  if s.emptied then .next s.finish
  else if v = 0 then .next s.advance
  else .next (s.holdAll (.sleep (s.time + v.toNat)))

/-! ## Fences (R222 to R224) -/

/-- At gang scope and wider. -/
def Scope.wide : Scope → Bool
  | .core => false
  | _ => true

/-- A release completes when the window of a paired copy has been matched, every earlier access is performed and, at gang scope and wider, $ost
reads 0. -/
def State.fenceRelOp (s : State) (sc : Scope) : Res :=
  match s.relWait (Scope.wide sc) with
  | some s' => .next s'
  | none => .next s.advance
def execFenceRel (sc : Scope) (s : State) : Res := s.fenceRelOp sc
/-- An acquire waits for the loads under way (R199). -/
def execFenceAcq (_sc : Scope) (s : State) : Res := .next (if s.w.flights != [] then s.stall else s.advance)
def execFenceAr (sc : Scope) (s : State) : Res := s.fenceRelOp sc
def execFenceSc (sc : Scope) (s : State) : Res := s.fenceRelOp sc
/-- FENCE.fetch: the core keeps no copy of code for the warp (R224). -/
def execFenceFetch (s : State) : Res := .next (s.modW fun w => { w with code := [] }).advance

end Sys2Proof.Machine
end

