-- ==== Sys2Proof/Machine/TxInst.lean ====
section
/-! DEFINITION. The transaction instructions of warps (R232 to R237). -/

namespace Sys2Proof.Machine

/-- The threads of the issue set in a transaction of either kind. -/
def State.inAnyTx (s : State) : W32 := s.w.inTx s.iss.set ||| s.w.irrevocable s.iss.set

/-- TXB in a paired grid traps TXMISUSE (R357). -/
def execTxb (off : Nat) (s : State) : Res :=
  let label := s.target 23 off
  let k := s.iss.key
  if s.inAnyTx != 0 || s.gr.paired then .next (s.trap cTxMisuse 0)
  else if !canonical label then .next (s.trap cAccess label)
  else
    let w := s.w
    let q := maskOf fun t => s.iss.set.getLsbD t && decide (w.txlim ≤ (w.thread t).retry)
    let t := s.iss.set &&& ~~~q
    let s1 := if t = 0 then s else (s.hold t (.txSlot label))
    let s2 := if q = 0 then s1 else (s1.hold q .lock)
    let s3 := s2.finish
    let s4 := if t = 0 then s3
      else (let s' := { s3 with slotQueue := s3.slotQueue ++ [(k, t)] }; s'.grantSlots s'.slotQueue)
    .next ({ s4 with lockQueue := s4.lockQueue ++ (lanesOf q).map (LockWait.mk k) }).grantLock

/-- The irrevocable lanes of a TXC commit, and the lock is released (R234, R237). -/
def State.commitIrr (s : State) (md : Nat) (irr : W32) : State :=
  if irr = 0 then s
  else
    let f := fun w : Warp =>
      (w.modThreads irr fun t => { t with irr := false, retry := 0, pc := s.nextPc }).wrM md (w.rdM md ||| irr)
    (s.modW f).releaseLock

/-- Before a transactional access and before TXC, each thread of a set whose read signature has matched revalidates: it aborts
with VALIDATE, or the match is forgotten (R231). An abort just before TXC leaves the thread's bit of md as it stood (R234; DESIGN CHOICE, log entry 62). -/
def State.revalidate (s : State) (set : W32) : State :=
  let k := s.iss.key
  let s := (lanesOf set).foldl (fun (s' : State) t =>
    match (s.w.thread t).tx with | some x => if x.matched then s'.settleLog x else s' | none => s') s
  let stale := maskOf fun t => set.getLsbD t && (match (s.w.thread t).tx with | some x => x.matched | none => false)
  let bad := maskOf fun t => stale.getLsbD t && (match (s.w.thread t).tx with | some x => !s.logHolds x | none => false)
  if stale = 0 then s
  else
    let s1 := s.modW (·.modThreads stale fun t => { t with tx := t.tx.map fun x => { x with matched := false, age := 0 } })
    let s2 := s1.abortSet k bad abValidate 0
    { s2 with iss := { s2.iss with set := s2.iss.set &&& ~~~bad, elig := s2.iss.elig &&& ~~~bad } }

/-- Accesses under way that a TXC of a set waits for (R198, R199): those of the warp. The lock holder's own does not wait for the accesses of other
threads, which wait for the lock: DEDUCED, log entry 56. -/
def State.txcBehind (s : State) (set irr : W32) : Bool := s.w.inFlight.any fun l => irr = 0 || set.getLsbD l.lane

/-- TXC: ordinary lanes take a ticket and wait for it. As a release at module scope it waits for the warp's accesses (R198, R199). -/
def execTxc (md : Nat) (s0 : State) : Res :=
  if s0.inAnyTx = s0.iss.set && s0.logsAway s0.iss.key s0.iss.set then .next (s0.seekLogs s0.iss.key s0.iss.set).waitIssue else
  let s := if s0.inAnyTx = s0.iss.set then s0.revalidate s0.iss.set else s0
  let k := s.iss.key
  let irr := s.w.irrevocable s.iss.set
  let ord := s.w.inTx s.iss.set
  if s.emptied then .next s.finish
  else if s.inAnyTx != s.iss.set then .next (s.trap cTxMisuse 0)
  else if s.txcBehind s.iss.set irr then .next s.waitIssue
  else if s.ost k != 0 || s.senderWaits (.warp k) then .next s.stall
  else
    let s1 := (s.modW fun w => { w with cmask := irr }).commitIrr md irr
    if ord = 0 then .next s1.finish
    else
      let s2 := (s1.hold ord (.ticket s1.ticket md)).finish
      .next ({ s2 with
        ticket := s1.ticket + 1, commits := s1.commits ++ [(s1.ticket, Commit.warp k ord md s.nextPc)] }).ticketServe

/-- TXA: an irrevocable thread or one in no transaction makes the issue set trap. -/
def execTxa (c : Nat) (s : State) : Res :=
  if s.w.inTx s.iss.set != s.iss.set then .next (s.trap cTxMisuse 0)
  else .next (s.abortSet s.iss.key s.iss.set abUser c).finish

def execTxs (d : Nat) (s : State) : Res :=
  .next (s.wrS d ((s.w.irrevocable s.iss.set).append (s.w.inTx s.iss.set))).advance

end Sys2Proof.Machine
end

