-- ==== Sys2Proof/Machine/Perform.lean ====
section
/-! DEFINITION. Performing an access at its physical address, for any agent: classes, shadows, partials, plain accesses and atomics
(R87, R88, R171, R172, R191, R204, R218, R219, R384, R385). -/

namespace Sys2Proof.Machine

/-- Who makes an access: the agent, the die whose class table it counts on, and the core whose L1 it goes through. -/
structure By where
  agent : Agent
  die : Option Nat
  l1 : Option Nat
  deriving DecidableEq, Repr

/-! ## Classes (R190, R191) -/

/-- A translated access to a unit through a page of a size: an entry moves, or an untouched unit of the die gets one. The
table of a die holds 32,768 entries; the one a full table replaces is its first: DESIGN CHOICE, log entry 46. -/
def State.classify (s : State) (b : By) (size : Nat) (nc : Bool) (pa : Nat) : State :=
  let moved := s.classes.map fun e =>
    if ClassEntry.covers e pa then
      match e.2.cls with
      | .priv c => if b.die = some e.2.die && b.l1 = some c then e else (e.1, { e.2 with cls := .shared })
      | .shared => e
    else e
  match b.die with
  | none => { s with classes := moved }
  | some d =>
    if s.classes.any fun e => e.2.die = d && ClassEntry.covers e pa then { s with classes := moved }
    else
      let moved := if ((moved.filter fun e => e.2.die = d).length) < 32768 then moved
        else match moved.find? fun e => e.2.die = d with | some e => tdel moved e.1 | none => moved
      let u := if size = 12 then 4096 else 65536
      let cls := match b.l1, nc with | some c, false => PageClass.priv c | _, _ => .shared
      { s with classes := tput moved (d * 2 ^ 53 + pa / u * u) ⟨d, u, cls⟩ }

/-! ## Contributions to the reduction windows (R384) -/

/-- A number no partial has. -/
def State.freePartial (s : State) : Nat := s.partials.foldl (fun m p => max m (p.1 + 1)) 0

/-- A contribution enters the quarter of its line; one of another function or type forwards the line's partial first (R384, R385). -/
def State.contribute (s : State) (op : AtomOp) (pa x : Nat) (pois : Bool) (ack : Option Nat) : State :=
  let line := pa / 128
  let val := match op, AtomOp.narrow op with
    | .flt _ t, true => widen (atomFmt t) (x % 2 ^ (atomFmt t).w)
    | _, _ => x
  let add := fun a b : Nat =>
    match op, AtomOp.narrow op with
    | .flt _ _, true => (fAddE (memEnv .rne) fmtF32 [a, b]).1
    | _, _ => AtomOp.apply op .rne a b 0
  let s1 := match s.partials.find? fun p => p.2.line = line with
    | some p => if p.2.op = op then s else s.forwardPartial p.1
    | none => s
  let n := match s1.partials.find? fun p => p.2.line = line with | some p => p.1 | none => s1.freePartial
  let p := tget ⟨line % 4, line, op, [], [], [], s.time⟩ s1.partials n
  let v := match tget? p.vals (pa % 128) with | some o => add o.toNat val | none => val
  let p' := { p with
    vals := tput p.vals (pa % 128) (BitVec.ofNat 64 v)
    pois := if pois then insertNat (pa % 128 / 32) p.pois else p.pois
    acks := match ack with | some a => insertNat a p.acks | none => p.acks }
  { s1 with partials := tput s1.partials n p' }

/-! ## Plain accesses -/

/-- What an access that reaches device memory does besides reading or writing bytes. -/
def State.reach (s : State) (b : By) (write : Bool) (size : Nat) (nc : Bool) (pa n : Nat) : State :=
  if s.place pa = .device then
    let s1 := (s.settle pa n).ownLines b.agent write pa n
    let s2 := (s1.classify b size nc pa).classify b size nc (pa + n - 1)
    let s3 := (s2.observe b.agent write pa n).lockInsert b.agent write pa n
    if !write && s.distant b.agent pa then s3.useValue b.agent pa else s3
  else if !write && s.distant b.agent pa then s.useValue b.agent pa
  else s

/-- A fetch reaches its word (R45, R191): it never moves an untouched unit. -/
def State.fetchReach (s : State) (who : Agent) (pa n : Nat) : State :=
  if s.place pa = .device then
    ((((s.settle pa n).ownLines who false pa n).observe who false pa n).lockInsert who false pa n).classifyRaw pa n
  else s

/-- A read: the bytes and the state after. -/
def State.readAt (s : State) (b : By) (size : Nat) (nc : Bool) (pa n : Nat) : State × List Byte :=
  let s1 := s.reach b false size nc pa n
  (s1, s1.bytesAt pa n)
/-- The name under which an agent's stores keep their order at a core window (R197). An access that another part of the module makes for an engine or
a device has the name of none. -/
def Agent.sender : Agent → Sender
  | .thread w t => if t < 33 then .warp w else .warp (2 ^ 32 + w)
  | .hart h => .hart h
  | .other => .hart 129
/-- A write to anything but a mailbox of this module, with the offsets of its poisoned bytes. -/
def State.writeAt (s : State) (b : By) (size : Nat) (nc : Bool) (pa : Nat) (bs : List Byte) (remote : Option Nat) (ps : List Nat := []) : State :=
  (s.reach b true size nc pa bs.length).storePlain b.agent.sender pa bs remote ps
/-- An atomic goes to the home of its target on another module (R371): with N = 1 to be acknowledged as a remote store, else for the old value. -/
def State.atomAway (s : State) (who : Agent) (op : AtomOp) (md : Rnd) (pa x c : Nat) (nr : Bool) (remote : Option Nat) : State :=
  s.askHome (if nr then .ack who.sender remote.toList else .value who pa (AtomOp.bytes op)) who.die tyAtomic pa [] 0 (.atom op md (numW x) (numW c) nr)
/-- An atomic outside the reduction windows. -/
def State.atomAt (s : State) (b : By) (size : Nat) (nc : Bool) (op : AtomOp) (md : Rnd) (pa x c : Nat) : State × Nat :=
  let n := AtomOp.bytes op
  if s.place pa = .device then
    let s1 := ((s.forwardLines pa n).ownLines .other true pa n).classify { b with l1 := none } size nc pa
    ((s1.observe b.agent true pa n).lockInsert b.agent true pa n).rmw op md pa x c
  else s.rmw op md pa x c

/-- The mailbox an address names, its slot and the offset in a packet. -/
def mailSlot (off : Nat) : Nat := off / 0x10000
def mailNum (off : Nat) : Nat := off / 0x4000 % 4
def mailClose (off : Nat) : Bool := off / 0x1000 % 2 = 1
/-- The stores of one sender's instruction to one mailbox span: discards and packet bytes (R181, R182). -/
def State.mailWrites (s : State) (core off : Nat) (by_ : Sender) (bs : List Byte) (closes : Bool) (remote : Option Nat) : State :=
  if 0x3000 ≤ off % 0x4000 then s.mailDiscard core (mailKey off)
  else s.mailStore core by_ (mailSlot off) (mailNum off) ((List.range bs.length).map fun i => (off % 0x1000 + i, bs.getD i 0)) closes remote

/-- R204: a store at an address is remote to a core. -/
def State.isRemote (s : State) (core pa : Nat) : Bool :=
  match s.place pa with
  | .device => pa / 2 ^ 48 != s.pkg || homeDie pa != core / 48
  | _ => pa / 2 ^ 48 != s.pkg || windowCore pa != core

end Sys2Proof.Machine
end

