-- ==== Sys2Proof/Machine/Pair.lean ====
section
/-! DEFINITION. Paired copies: held writes, their signature, and the twin of a warp (R353 to R356). -/

namespace Sys2Proof.Machine

/-! ## The signature (R355) -/

/-- One step of the CRC-64 shift register. -/
def crcStep (x : W64) : W64 := if x.getLsbD 63 then (x <<< 1) ^^^ 0x42F0E1EBA9EA3693 else x <<< 1
/-- The CRC-64 of bytes: polynomial 0x42F0_E1EB_A9EA_3693, initial value 0, no reflection. -/
def crc64 (bs : List Byte) : W64 :=
  bs.foldl (fun (x : W64) b => (List.range 8).foldl (fun y _ => crcStep y) (x ^^^ (BitVec.setWidth 64 b <<< (56 : Nat)))) 0
/-- The record of a held write: address, size, warp index, kind, sequence number, and the bytes padded to a multiple of 16. -/
def sigRecord (va size index kind seq : Nat) (bs : List Byte) : List Byte :=
  leBytes 8 va ++ leBytes 2 size ++ leBytes 1 index ++ leBytes 1 kind ++ leBytes 4 seq ++ bs ++
    List.replicate ((16 - bs.length % 16) % 16) 0

/-- The signature of records, numbered from 0. -/
def sigOf (index : Nat) (rs : List (Nat × Nat × List Byte)) : W64 :=
  (List.range rs.length).foldl (fun (x : W64) i =>
    let r := rs.getD i (0, 0, [])
    x + crc64 (sigRecord r.1 r.2.2.length index r.2.1 i r.2.2)) 0

/-- One record, with the writes it stands for, joins the window of a warp. -/
def Warp.addHeld (w : Warp) (ord va kind : Nat) (bs : List Byte) (hs : List HeldWrite) : Warp :=
  { w with win := w.win.map fun x =>
      { x with sig := x.sig + crc64 (sigRecord va bs.length w.index kind x.count bs)
               count := x.count + 1
               recs := x.recs ++ [(va, kind, bs)]
               held := x.held ++ (List.range hs.length).map fun i =>
                 { hs.getD i ⟨0, 0, 0, [], none, false, [], none, none⟩ with ord := ord + i, seq := x.count } } }

/-! ## What is held (R354) -/

/-- A write of group g to an address leaves its copy. -/
def State.leaves (s : State) (g : Group) (pa : Nat) : Bool :=
  match s.place pa with
  | .device | .mail _ _ | .far _ => true
  | .scratch c _ | .acc c _ | .tile c _ | .vreg c _ => !(s.gangGroups g).any fun x => x.core = c
  | _ => false
/-- A write of a warp is held. -/
def State.holdsWrite (s : State) (k pa : Nat) : Bool := (s.gridOf k).paired && s.leaves (s.groupOf k) pa

/-- The warps of a warp's copy. -/
def State.copyWarps (s : State) (k : Nat) : List Nat := (s.gangGroups (s.groupOf k)).flatMap fun g => s.groupWarps g.key
/-- The writes of a window that are not performed yet: those that drain, and those that are held. -/
def PairWin.writes (x : PairWin) : List HeldWrite := x.drain ++ x.held
/-- The held writes of a warp's copy in their order, with the warp that made each. -/
def State.heldOf (s : State) (k : Nat) : List (Nat × HeldWrite) :=
  sortBy (fun h => h.2.ord) ((s.copyWarps k).flatMap fun j => match (s.warp j).win with | some x => x.writes.map (j, ·) | none => [])
/-- The next place in the order of a copy's held writes. -/
def State.nextHeld (s : State) (k : Nat) : Nat := maxOf ((s.heldOf k).map fun h => h.2.ord) + 1
/-- A record with its writes joins the window of warp k, after the held writes of the copy. -/
def State.addHeld (s : State) (k va kind : Nat) (bs : List Byte) (hs : List HeldWrite) : State :=
  s.modWarp k (·.addHeld (s.nextHeld k) va kind bs hs)

/-- A held write of a warp takes effect in what its copy sees. -/
def State.applyHeld (s : State) (k : Nat) (h : HeldWrite) : State :=
  match s.place h.pa, h.op with
  | .mail c o, _ => s.mailWrites c o (.warp k) h.bytes h.closes none
  | _, some (op, md) => (s.rmw op md h.pa (leNat h.bytes) 0).1
  | _, none => ((s.foldLines h.pa h.bytes.length).storeNow h.pa h.bytes).setPoison ((h.pois.map fun o => poisonUnit (h.pa + o)).filter holdsPoison)
/-- The memory as a copy with held writes sees it: every warp and engine of the copy observes those of all its warps (R354). -/
def State.withHeld (s : State) (k : Nat) : State :=
  match (s.warp k).win with
  | none => s
  | some _ =>
    let v := (s.heldOf k).foldl (fun s h => s.applyHeld h.1 h.2) s
    v.shadows.foldl (fun s x => s.foldLine x.1) v

/-- The result the twin has obtained for both copies, kept or taken (R356). -/
def Warp.setGift (w : Warp) (v : Option (List W64)) : Warp := { w with win := w.win.map fun x => { x with gift := v } }

/-- The size of the hold buffer (R354). -/
def holdBuffer : Nat := 4194304
/-- The bytes a gang's copies hold. -/
def State.heldBytes (s : State) (gang : Nat) : Nat :=
  ((s.gangWarps gang).map fun k =>
    match (s.warp k).win with | some x => (x.writes.map fun h => h.bytes.length).sum | none => 0).sum
/-- So many bytes more do not fit in the hold buffer of a warp's gang (R356). -/
def State.holdFull (s : State) (k n : Nat) : Bool := holdBuffer < s.heldBytes (s.groupOf k).gangKey + n

/-! ## Forced points -/

/-- A write, of a warp or of its engine, that does not fit ends the window of a warp just before it, unless writes of the window before it have still
to be performed, which makes room. The twin's window ends after as many writes, wherever the twin stands by then: `TWIN_MATCH` cuts it there (R356). -/
def Warp.forcePoint (w : Warp) (engine : Bool) : Warp :=
  { w with win := w.win.map fun x => if x.drain != [] then x else { x with atPoint := true, forced := true, engine := engine } }

end Sys2Proof.Machine
end

