-- ==== Sys2Proof/Machine/Mem.lean ====
section
/-! DEFINITION. Memory instructions of warps: uniform and lane loads, stores and atomics (R20, R61 to R65, R211 to R221, R225, R230). -/

namespace Sys2Proof.Machine

/-! ## Addresses -/

/-- The translation of an address for the issuing warp. -/
def State.tr (s : State) (k : AKind) (va : W64) : Nat × Nat × Bool :=
  match s.walk (s.coreNum / 48) s.gr.ctx va k with
  | .ok pa size nc => (pa, size, nc)
  | _ => (0, 12, false)
/-- An access cut at the border of a 4 KiB page. -/
def State.pieces (s : State) (k : AKind) (va : W64) (n : Nat) : List Piece :=
  let m := min n (4096 - va.toNat % 4096)
  let a := s.tr k va
  let b := s.tr k (va + BitVec.ofNat 64 m)
  ⟨a.1, 0, m, a.2.1, a.2.2⟩ :: (if m < n then [⟨b.1, m, n - m, b.2.1, b.2.2⟩] else [])

/-- The address and the last byte of an access are canonical (R61, R213). -/
def Span.canon (p : Span) : Bool := canonical p.va && canonical (p.va + BitVec.ofNat 64 (p.n - 1))

/-- Steps 1, 3 and 4 of R213 for accesses in ascending lane order. -/
def State.memCheck (s : State) (k : AKind) (set : Option W32) (act : W32) (ps : List Span) (align : Nat) : Option State :=
  match ps.find? fun p => !p.canon with
  | some p => some (s.trapAct act cAccess p.va)
  | none =>
    match ps.find? fun p => p.va.toNat % align != 0 with
    | some p => some (s.trapAct act cAlign p.va)
    | none => s.checkPages k set act ps
/-- A part of an access lies in a scratchpad, and no one group's allocation holds all of it (R173). -/
def State.straddles (s : State) : List Piece → Bool
  | [x, y] =>
    match s.place x.pa, s.place y.pa with
    | .scratch c o, .scratch d q => !(s.gangGroups s.g).any fun g => g.covers c o x.n && g.covers d q y.n
    | .scratch _ _, _ | _, .scratch _ _ => true
    | _, _ => false
  | _ => false
/-- Step 5 of R213. -/
def State.placeCheck (s : State) (k : AKind) (e : Eff) (act : W32) (ps : List Span) : Option State :=
  match ps.find? fun p => (s.pieces k p.va p.n).any (fun x => !s.warpMay s.g x.pa x.n e) || s.straddles (s.pieces k p.va p.n) with
  | some p => some (s.trapAct act cAccess p.va)
  | none => none

/-- The agent of a thread of the issuing warp; lane 32 is the warp itself. -/
def State.byLane (s : State) (t : Nat) : By := ⟨.thread s.iss.key t, some (s.coreNum / 48), some s.coreNum⟩
/-- The lane for which a uniform access counts: the lock holder's when it issues it (R237). -/
def State.uniLane (s : State) : Nat :=
  match s.lock with
  | some l => if l.warp = s.iss.key && s.iss.set.getLsbD l.thread then l.thread else 32
  | none => 32

/-- An atomic at a physical address is performed on another module (R371). -/
def State.atomsAway (s : State) (pa : Nat) : Bool := pa / 2 ^ 48 != s.pkg && !s.reducing s.pkg pa
/-- A piece of an access must wait: something it needs is not at hand, it promotes stores that are not done, or it conflicts with the lock holder's
(R203, R237, R365); `own` is its number among the remote stores. An atomic goes through no L1 (R191), and one for another module takes no line (R371). -/
def State.pieceStalls (s : State) (k : AKind) (write : Bool) (lane : Nat) (own : Option Nat) (x : Piece) : Bool :=
  (!(k = .atomic && s.atomsAway x.pa) && (s.asOf own).lockBlocks (.thread s.iss.key lane) write x.pa x.n) ||
    (k = .atomic && (s.asOf own).promotes .other x.pa x.n)
/-- An access of an instruction must wait at issue. -/
def State.lockStalls (s : State) (k : AKind) (write : Bool) (ps : List Span) : Bool :=
  ps.any fun p => (s.pieces k p.va p.n).any fun x => s.pieceStalls k write p.lane none x
/-- The instruction waits at issue for its lines: the copies of other modules are recalled. -/
def State.lineWait (s : State) (k : AKind) (write : Bool) (ps : List Span) : State :=
  (ps.foldl (fun (s : State) p => (s.pieces k p.va p.n).foldl (fun (s : State) x =>
    s.seek (.thread s.iss.key p.lane) write x.pa x.n) s) s).waitIssue
/-- An access that the warp's own waiting stores hold back (R14, R197): a load, an atomic or a discard at a core window where one of them waits. -/
def State.behindOwn (s : State) (k : AKind) (e : Eff) (ps : List Span) : Bool :=
  ps.any fun p => (s.pieces k p.va p.n).any fun x =>
    (match s.place x.pa with | .mail _ o => e != .store || 0x3000 ≤ o % 0x4000 | _ => e != .store) && s.loadWaits (.warp s.iss.key) x.pa

/-! ## Remote stores (R204) -/

/-- A contribution to a reduction window: it is acknowledged when the merged result is performed (R204). -/
def State.contributes (s : State) (e : Eff) (pa : Nat) : Bool := e = .atom true && s.place pa = .device && s.reducing s.pkg pa
/-- Some access of a storing issue is remote and goes out at once. -/
def State.anyRemote (s : State) (k : AKind) (e : Eff) (ps : List Span) : Bool :=
  ps.any fun p => (s.pieces k p.va p.n).any fun x =>
    (s.isRemote s.coreNum x.pa || s.contributes e x.pa) && !s.holdsWrite s.iss.key x.pa
/-- The scope of an instruction's access. -/
def extScope (e : Option Ext) : Scope := match e with | some x => x.scope | none => .core
/-- The entry that $ost counts for an issue with a remote store; its number. -/
def State.addRemote (s : State) (yes : Bool) (combining contribution : Bool) (pas : List Nat) : State × Option Nat :=
  if yes then
    ({ s with remote := tput s.remote s.nextRemote ⟨s.iss.key, none, combining, contribution, sortNat (pas.map (· / 2 ^ 48))⟩, nextRemote := s.nextRemote + 1 },
     some s.nextRemote)
  else (s, none)

/-! ## Plain accesses of the issuing warp -/

/-- The bytes a plain load of a lane finds, and the state after. -/
def State.plainLoad (s : State) (k : AKind) (t : Nat) (va : W64) (n : Nat) : State × List Byte :=
  (s.pieces k va n).foldl (fun (acc : State × List Byte) x =>
    let s1 := acc.1.reach (s.byLane t) false x.size x.nc x.pa x.n
    (s1, acc.2 ++ (s1.withHeld s.iss.key).bytesAt x.pa x.n)) (s, [])

/-- The lowest poisoned virtual address that spans read; `own` says of a byte that the thread has buffered it (R343). -/
def State.poisonIn (s : State) (k : AKind) (own : Nat → Nat → Bool) (ps : List Span) : Option Nat :=
  let v := s.withHeld s.iss.key
  minOf (ps.flatMap fun p => (s.pieces k p.va p.n).flatMap fun x =>
    ((List.range x.n).filter fun i => v.poisoned (x.pa + i) && !own p.lane (x.pa + i)).map fun i =>
      (p.va.toNat + x.off + i) % 2 ^ 64)

/-- Whether a piece falls in the same mailbox as another, but for the discard word. -/
def sameMail (a b : Nat) : Bool := a / 0x4000 = b / 0x4000 && b % 0x4000 < 0x3000

/-! ## Transactional accesses (R225, R230, R231) -/

/-- A transactional access goes elsewhere than to device memory homed on this module outside the reduction windows (R225). One that reaches nothing
at all fails step 5 of R213. -/
def State.txAway (s : State) (k : AKind) (va : W64) (n : Nat) : Bool :=
  (s.pieces k va n).any fun x =>
    s.place x.pa != .unbacked &&
    (s.place x.pa != .device || x.pa / 2 ^ 48 != s.pkg || s.reducing s.pkg x.pa || s.reducing s.pkg (x.pa + x.n - 1))

/-- The bytes a thread reads at a physical address: its buffer's, else memory's; with the words to log. -/
def Tx.readByte (x : Tx) (mem : List Host.Cell) (a : Nat) : Byte := (tget? x.buf a).getD (Memory.read mem a)
def Tx.logBytes (x : Tx) (mem : List Host.Cell) (as : List Nat) : Tx :=
  let words := dedup ((as.filter fun a => (tget? x.buf a).isNone).map fun a => a / 8 * 8)
  let new := words.filter fun a => !x.log.any fun l => l.1 = a
  { x with log := x.log ++ new.map fun a => (a, leW64 (Memory.readBytes mem a 8)) }
def Tx.putBytes (x : Tx) (a : Nat) (bs : List Byte) : Tx :=
  { x with buf := (List.range bs.length).foldl (fun b i => tput b (a + i) (bs.getD i 0)) x.buf }
/-- The capacities of R226. -/
def Tx.fits (x : Tx) : Bool := x.log.length ≤ 64 && (dedup (x.buf.map fun c => c.1 / 128)).length ≤ 16

def Thread.txn (t : Thread) : Tx := t.tx.getD ⟨0, 0, [], [], false, 0⟩
/-- The thread is in an ordinary transaction. -/
def State.inTxLane (s : State) (t : Nat) : Bool := (s.w.thread t).tx.isSome

/-- A thread's transaction becomes x, or the thread aborts with CAPACITY and leaves the issue. -/
def State.txSet (s : State) (t : Nat) (x : Tx) : State :=
  if x.fits then s.modW (·.modThread t fun y => { y with tx := some x })
  else
    let s' := s.abortSet s.iss.key (bit32 t) abCapacity 0
    { s' with iss := { s'.iss with set := s'.iss.set &&& ~~~(bit32 t), elig := s'.iss.elig &&& ~~~(bit32 t) } }

/-- A transactional read: the bytes, and the state with the words logged. -/
def State.txLoad (s : State) (l : FlightLane) : State × List Byte :=
  let s1 := l.pieces.foldl (fun s x => s.reach ⟨.thread s.iss.key l.lane, some (s.coreNum / 48), none⟩ false x.size x.nc x.pa x.n) s
  let as := l.pieces.flatMap fun x => rangeFrom x.pa x.n
  let x := (s1.w.thread l.lane).txn
  (s1.txSet l.lane (x.logBytes s1.mem as), as.map (x.readByte s1.mem))
/-- A transactional store: bytes go to the buffer. -/
def State.txStore (s : State) (l : FlightLane) (bs : List Byte) : State :=
  s.txSet l.lane (l.pieces.foldl (fun x p => x.putBytes p.pa ((bs.drop p.off).take p.n)) (s.w.thread l.lane).txn)

/-- Threads of a set abort and leave the issue (R230). -/
def State.dropTx (s : State) (set : W32) (code : Nat) : State := s.txGuardAct set code

/-! ## The order of a lane memory instruction (R213, R214, R230, R231, R237) -/

/-- The kinds of lane memory instruction. -/
structure MemOp where
  align : Nat
  scope : Scope
  engine : Bool
  deriving DecidableEq, Repr

/-- A store, or an ATOM with N = 1: it may be remote. -/
def Eff.posts : Eff → Bool
  | .store => true
  | .atom nr => nr
  | .load => false
def Eff.writes : Eff → Bool
  | .load => false
  | _ => true
/-- The threads whose access reads memory into a register. -/
def Eff.consumes : Eff → Bool
  | .load => true
  | .atom nr => !nr
  | .store => false

/-! ## Data -/

/-- The size in bytes of a lane access (R211). -/
def lmSize (f : LM) : Nat := match f.pre.ext with | some e => if e.atom = 2 then 16 else IntTy.w f.t / 8 | none => IntTy.w f.t / 8
/-- The alignment an access must have. -/
def lmAlign (f : LM) : Nat := match f.pre.ext with | some e => if e.atom = 0 then 1 else lmSize f | none => 1
def dataRegs (n : Nat) : Nat := if n = 16 then 4 else if n = 8 then 2 else 1
/-- The offset of a lane access. -/
def lmOff (s : State) (f : LM) (i t : Nat) : Int :=
  match f.b with
  | .imm v => sext 7 v * lmSize f
  | .reg n => sext 32 (s.w.rdV (f.pre.b i n) t).toNat

/-- Word j of loaded bytes as a register takes it (R72, R215). -/
def loadedWord (ty : IntTy) (bs : List Byte) (j : Nat) : W32 :=
  if bs.length ≤ 4 then (IntTy.image ty false (IntTy.val ty (leNat bs))).setWidth 32
  else BitVec.ofNat 32 (leNat ((bs.drop (4 * j)).take 4))
/-- The bytes a lane stores. -/
def Warp.storedBytes (w : Warp) (d n t : Nat) : List Byte :=
  if n ≤ 4 then leBytes n (w.rdV d t).toNat
  else (List.range (n / 4)).flatMap fun j => leBytes 4 (w.rdV (d + j) t).toNat

/-! ## The group's own allocation -/

/-- Steps 2 and 3 of R213 for offsets in ascending lane order. -/
def State.localCheck (s : State) (act : W32) (off : Nat → Int) (n align : Nat) : Option State :=
  match (lanesOf act).find? fun t => decide (off t < 0) || decide ((s.g.slen : Int) < off t + n) with
  | some t => some (s.trapAct act cAccess (w64 (off t)))
  | none =>
    match (lanesOf act).find? fun t => (off t).toNat % align != 0 with
    | some t => some (s.trapAct act cAlign (w64 (off t)))
    | none => none
/-- The physical address of an offset in the group's allocation. -/
def State.localPa (s : State) (o : Int) : Nat := windowBase s.pkg s.coreNum + s.g.soff + o.toNat

def atomWide (op : AtomOp) : Bool := AtomOp.bytes op = 8
def atomRegs (op : AtomOp) : Nat := if atomWide op then 2 else 1
/-- The element's value as a register takes it (R218). -/
def atomImage (op : AtomOp) (old : Nat) : W64 :=
  match op with
  | .int _ t | .swap t | .cas t => IntTy.image t false (IntTy.val t old)
  | .flt _ _ => BitVec.ofNat 64 old

/-! ## The accesses of an instruction that has passed its checks (R14, R197, R214, R215, R220, R231, R237) -/

def FlightOp.eff : FlightOp → Eff
  | .load _ _ _ | .sload _ => .load
  | .store => .store
  | .atom _ nr _ _ => .atom nr
def FlightOp.kind : FlightOp → AKind
  | .load _ _ _ | .sload _ => .read
  | .store => .write
  | .atom _ _ _ _ => .atomic
/-- Two accesses have a byte in common. -/
def Piece.meets (x y : Piece) : Bool := x.pa < y.pa + y.n && y.pa < x.pa + x.n
def FlightLane.meets (a b : FlightLane) : Bool := a.pieces.any fun x => b.pieces.any x.meets
/-- The core windows that an access reaches. -/
def FlightLane.windows (l : FlightLane) : List Nat :=
  if l.loc then [] else (l.pieces.filter fun x => (windowOffset x.pa).isSome).map fun x => x.pa / 2 ^ 26

/-- The bytes of an access that are held for the twin (R354). -/
def State.heldPieces (s : State) (l : FlightLane) : List Piece := l.pieces.filter fun x => s.holdsWrite s.iss.key x.pa
/-- A held access waits for the point at which its warp meets the twin, or for room in the hold buffer (R356). -/
def State.holdWaits (s : State) (f : Flight) (l : FlightLane) : Bool :=
  match s.w.win with
  | none => false
  | some x => if f.meet then !x.passed else s.holdFull s.iss.key ((s.heldPieces l).map (·.n)).sum
/-- A piece of a transactional access that reads memory. -/
def State.txReads (s : State) (l : FlightLane) (x : Piece) : Bool :=
  (rangeFrom x.pa x.n).any fun a => (tget? (s.w.thread l.lane).txn.buf a).isNone
/-- The old value of an atomic has not come from another module (R371). -/
def State.oldAway (s : State) (f : Flight) (l : FlightLane) : Bool :=
  f.op.eff = .atom false && l.pieces.any fun x => s.atomsAway x.pa && (s.valueAt (.thread s.iss.key l.lane) x.pa).isNone
/-- An access waits at its target or for its line: for a store of the same warp that waits at the core (R14, R197), for a line that is not at hand, for
the stores of another core that it promotes, or for the fallback lock (R203, R237, R365). -/
def State.laneWaits (s : State) (f : Flight) (l : FlightLane) : Bool :=
  if l.held then s.holdWaits f l
  else if l.loc then
    (s.core s.coreNum).tileWait.any fun x => x.sender = .warp s.iss.key &&
      l.pieces.any fun y => x.pa < y.pa + y.n && y.pa < x.pa + x.bytes.length
  else if l.tx then
    s.logsAway s.iss.key (bit32 l.lane) ||
    (f.op != .store && l.pieces.any fun x => s.txReads l x && s.pieceStalls .read false l.lane none x)
  else
    s.oldAway f l || l.pieces.any fun x =>
      s.pieceStalls f.op.kind f.op.eff.writes l.lane f.remote x ||
      ((match s.place x.pa with | .mail _ o => f.op != .store || 0x3000 ≤ o % 0x4000 | _ => f.op != .store) && s.loadWaits (.warp s.iss.key) x.pa)
/-- An access cannot be made yet: it waits, or an earlier one of its warp that has still to be made holds it back. Accesses to a common byte and to the
windows of one core keep their order (R197), and so do held writes (R355). -/
def FlightLane.follows (l : FlightLane) (before : List FlightLane) : Bool :=
  before.any fun e => e.meets l || e.windows.any l.windows.contains || (e.held && l.held)
def State.laneBlocked (s : State) (f : Flight) (before : List FlightLane) (l : FlightLane) : Bool := l.follows before || s.laneWaits f l
/-- The transaction that an access belonged to has ended: it is not made. -/
def State.laneGone (s : State) (l : FlightLane) : Bool := l.tx && !s.inTxLane l.lane

/-- The bytes that an access finds, and the state after. -/
def State.laneLoad (s : State) (l : FlightLane) : State × List Byte :=
  if l.loc then (s, l.pieces.flatMap fun x => s.getBytes x.pa x.n)
  else
    l.pieces.foldl (fun (acc : State × List Byte) x =>
      let s1 := acc.1.reach (s.byLane l.lane) false x.size x.nc x.pa x.n
      (s1, acc.2 ++ (s1.withHeld s.iss.key).bytesAt x.pa x.n)) (s, [])
/-- No byte of the instruction is still to come to the mailbox of a piece. -/
def lastMail (rest : List Piece) (x : Piece) : Bool := !rest.any fun y => sameMail x.pa y.pa
/-- The packet bytes an instruction stores to one mailbox: performed as one store when its last piece comes (R182). -/
def State.mailPiece (s : State) (f : Flight) (rest : List Piece) (x : Piece) : State :=
  let o := (windowOffset x.pa).getD 0 - 0x400000
  let c := windowCore x.pa
  let mine := f.mail.filter fun y => sameMail x.pa y.1.pa
  if 0x3000 ≤ o % 0x4000 then s.mailDiscard c (mailKey o)
  else if !lastMail rest x then s
  else
    let writes := mine.flatMap fun y =>
      (List.range y.2.length).map fun i => (((windowOffset y.1.pa).getD 0) % 0x1000 + i, y.2.getD i 0)
    s.mailStore c (.warp s.iss.key) (mailSlot o) (mailNum o) writes (mine.any fun y => mailClose ((windowOffset y.1.pa).getD 0)) f.remote
/-- The pieces of a store that are not held, performed in order. `rest` are the pieces of the instruction that have still to come. -/
def State.storePieces (s : State) (f : Flight) (l : FlightLane) : List Piece → List Piece → State
  | [], _ => s
  | x :: r, rest =>
    let s1 :=
      if s.holdsWrite s.iss.key x.pa then s
      else match s.place x.pa with
        | .mail _ _ => s.mailPiece f (r ++ rest) x
        | _ => s.writeAt (s.byLane l.lane) x.size x.nc x.pa ((l.bytes.drop x.off).take x.n) f.remote
    s1.storePieces f l r rest
/-- The held bytes of an access join the window as one record (R355). -/
def State.holdLane (s : State) (f : Flight) (rest : List Piece) (l : FlightLane) (op : Option (AtomOp × Rnd)) : State :=
  let xs := s.heldPieces l
  let part := fun (x : Piece) => (l.bytes.drop x.off).take x.n
  let closes := fun (x : Piece) => match s.place x.pa with
    | .mail _ _ => lastMail rest x && (f.mail.filter fun y => sameMail x.pa y.1.pa).any fun y => mailClose ((windowOffset y.1.pa).getD 0)
    | _ => false
  match xs with
  | [] => s
  | x :: _ =>
    s.addHeld s.iss.key ((l.va.toNat + x.off) % 2 ^ 64) 0 (xs.flatMap part)
      (xs.map fun y => ⟨0, 0, y.pa, part y, op, closes y, [], some f.id, none⟩)
def State.laneStore (s : State) (f : Flight) (rest : List Piece) (l : FlightLane) : State :=
  if l.loc then l.pieces.foldl (fun s x => s.putBytes x.pa ((l.bytes.drop x.off).take x.n)) s
  else (s.storePieces f l l.pieces rest).holdLane f rest l none

/-- Loaded bytes of lanes go to a register, a pair or a quadruple. -/
def Warp.putLoaded (w : Warp) (d n : Nat) (ty : IntTy) (z : W32) (res : List (Nat × List Byte)) : Warp :=
  let got := maskOf fun t => (tget? res t).isSome
  (List.range (dataRegs n)).foldl (fun w j => w.wrZ (d + j) got z fun t => loadedWord ty (tget [] res t) j) w
/-- Old values of lanes go to vd. -/
def Warp.putOld (w : Warp) (op : AtomOp) (d : Nat) (z : W32) (res : List (Nat × Nat)) : Warp :=
  w.wrT (atomWide op) d (maskOf fun t => (tget? res t).isSome) z fun t => atomImage op (tget 0 res t)
/-- The destinations of inactive lanes that Z zeroes, and nothing else. -/
def FlightOp.zero (op : FlightOp) (z : W32) (w : Warp) : Warp :=
  match op with
  | .load d n ty => w.putLoaded d n ty z []
  | .atom op false _ d => w.putOld op d z []
  | _ => w

/-- One atomic outside a transaction: a contribution, on another module, or performed in place. -/
def State.laneAtom (s : State) (f : Flight) (op : AtomOp) (nr : Bool) (md : Rnd) (l : FlightLane) : State × Nat :=
  match l.pieces with
  | [] => (s, 0)
  | p :: _ =>
    if l.loc then s.rmw op md p.pa l.x l.c
    else if nr && s.place p.pa = .device && s.reducing s.pkg p.pa then (s.contribute op p.pa l.x false f.remote, 0)
    else if s.atomsAway p.pa then
      let who : Agent := .thread s.iss.key l.lane
      if nr then (s.atomAway who op md p.pa l.x l.c true f.remote, 0)
      else (s.useValue who p.pa, leNat (((s.valueAt who p.pa).map (·.1)).getD []))
    else s.atomAt (s.byLane l.lane) p.size p.nc op md p.pa l.x l.c
/-- In a paired grid an ATOM with N = 0 at a held target completes once for both copies: the twin's lane takes the old value (R356). -/
def State.twinLane (s : State) (l : FlightLane) (f : Warp → Warp) : State :=
  match s.twinOf s.iss.key with
  | some j => s.modWarp j fun w =>
      { f w with flights := w.flights.filterMap fun x =>
          if !x.meet then some x
          else match x.lanes.filter fun y => !(y.held && y.lane = l.lane) with
            | [] => none
            | ls => some { x with lanes := ls } }
  | none => s

/-- A transactional access: the thread revalidates just before it, and then reads and buffers (R230, R231). -/
def State.flyTx (s0 : State) (f : Flight) (l : FlightLane) : State :=
  let s := s0.revalidate (bit32 l.lane)
  if !s.inTxLane l.lane then s
  else
    match f.op with
    | .store => s.txStore l l.bytes
    | .load d n ty =>
      let r := s.txLoad l
      if r.1.inTxLane l.lane then r.1.modW (·.putLoaded d n ty 0 [(l.lane, r.2)]) else r.1
    | .atom op nr md d =>
      let r := s.txLoad l
      let old := leNat r.2
      if !r.1.inTxLane l.lane then r.1
      else
        let s1 := r.1.txStore l (leBytes (AtomOp.bytes op) (AtomOp.apply op md old l.x l.c))
        if s1.inTxLane l.lane && !nr then s1.modW (·.putOld op d 0 [(l.lane, old)]) else s1
    | .sload _ => s
/-- One access is made. -/
def State.flyLane (s : State) (f : Flight) (rest : List FlightLane) (l : FlightLane) : State :=
  if l.tx then s.flyTx f l
  else
    match f.op with
    | .load d n ty => let r := s.laneLoad l; r.1.modW (·.putLoaded d n ty 0 [(l.lane, r.2)])
    | .sload d => let r := s.laneLoad l; r.1.wrS d (leW64 r.2)
    | .store => s.laneStore f (rest.flatMap (·.pieces)) l
    | .atom op true md _ => if l.held then s.holdLane f [] l (some (op, md)) else (s.laneAtom f op true md l).1
    | .atom op false md d =>
      let r := s.laneAtom f op false md l
      let put := fun (w : Warp) => w.putOld op d 0 [(l.lane, r.2)]
      if l.held then (r.1.modW put).twinLane l put else r.1.modW put

/-- The accesses that can be made now, of the first n. -/
def State.readyLanes (s : State) (f : Flight) : List FlightLane → List FlightLane → List FlightLane
  | _, [] => []
  | before, l :: r =>
    if s.laneBlocked f before l then s.readyLanes f (before ++ [l]) r else l :: s.readyLanes f before r
/-- The lowest virtual address of poison that those accesses load into registers (R215, R221, R343). -/
def State.flyPoison (s : State) (f : Flight) (before : List FlightLane) (n : Nat) : Option Nat :=
  if !f.op.eff.consumes then none
  else
    let ls := (s.readyLanes f before f.lanes).filter fun l => !s.laneGone l
    let v := s.withHeld s.iss.key
    minOf ((if n = 0 then ls else ls.take n).flatMap fun l => l.pieces.flatMap fun x =>
      ((List.range x.n).filter fun i => v.poisoned (x.pa + i) && !(l.tx && (tget? (s.w.thread l.lane).txn.buf (x.pa + i)).isSome)).map fun i =>
        if l.loc then x.pa + i - (windowBase s.pkg s.coreNum + s.g.soff) else (l.va.toNat + x.off + i) % 2 ^ 64)
/-- Accesses in ascending lane order, the number `n` at most, those that nothing holds back; the others stay, and so do their threads' registers.
`n` counts from one above, and 0 is for all. -/
def State.flyLanes (f : Flight) (before : List FlightLane) : Nat → List FlightLane → List FlightLane → State → State × List FlightLane
  | _, kept, [], s => (s, kept)
  | n, kept, l :: r, s =>
    if s.laneGone l then State.flyLanes f before n kept r s
    else if n = 1 || s.laneBlocked f (before ++ kept) l then State.flyLanes f before n (kept ++ [l]) r s
    else State.flyLanes f before (n - 1) kept r (s.flyLane f r l)
/-- What an access asks for: its lines, or the old value of an atomic on another module. -/
def State.askLane (s : State) (f : Flight) (l : FlightLane) : State :=
  let who : Agent := .thread s.iss.key l.lane
  let s1 := if l.tx then s.seekLogs s.iss.key (bit32 l.lane) else s
  l.pieces.foldl (fun (s : State) x =>
    if l.tx && f.op = .store then s
    else
      match f.op, s.atomsAway x.pa with
      | .atom op nr md _, true => if nr || s.askedValue who x.pa then s else s.atomAway who op md x.pa l.x l.c false none
      | _, _ => s.seek who f.op.eff.writes x.pa x.n) s1
/-- What the accesses that have still to be made ask for, those that follow no other: a held one, the point that it stands before (R356, R366). -/
def State.askFlight (s : State) (f : Flight) (before ls : List FlightLane) : State :=
  let s1 := (List.range ls.length).foldl (fun (s : State) i =>
    match ls[i]? with
    | some l => if l.loc || l.held || l.follows (before ++ ls.take i) then s else s.askLane f l
    | none => s) s
  match ls.find? (·.held) with
  | some l =>
    if !s1.holdWaits f l then s1
    else if f.meet then s1.modW fun w => { w with win := w.win.map fun x => if x.passed || x.due then x else { x with atPoint := true } }
    else s1.modW (·.forcePoint false)
  | none => s1
/-- A flight makes the accesses it can: the state, and the flight with those left. A point has been passed once its held accesses are made. -/
def State.flyOne (s : State) (f : Flight) (before : List FlightLane) (n : Nat) : State × List FlightLane :=
  let r := State.flyLanes f before (if n = 0 then 0 else n + 1) [] f.lanes s
  let s1 := r.1.askFlight f before r.2
  (if f.meet && (f.lanes.any (·.held)) && !(r.2.any (·.held)) then s1.modW fun w => { w with win := w.win.map fun x => { x with passed := false } } else s1, r.2)

/-- The flights of a warp, oldest first; one that loads poison kills the gang (R343). -/
def State.flyAll (n : Nat) : List Flight → List Flight → State → State
  | kept, [], s => s.modW fun w => { w with flights := kept }
  | kept, f :: r, s =>
    let before := kept.flatMap (·.lanes)
    match s.flyPoison f before n with
    | some va => s.killBy s.iss.key 1 (BitVec.ofNat 64 va) f.act
    | none =>
      let x := s.flyOne f before n
      State.flyAll n (if x.2 = [] then kept else kept ++ [{ f with lanes := x.2 }]) r x.1
/-- What a warp has under way goes on (R214). -/
def State.fly (s : State) (k n : Nat) : State :=
  if (tget? s.warps k).isNone || (s.warp k).flights = [] then s
  else
    let s1 := State.flyAll n [] (s.warp k).flights { s with iss := ⟨k, 0, 0, 0, 0, [], 0, 0⟩ }
    { s1 with iss := s.iss }

/-- The accesses of an instruction whose checks have passed. `data` gives the bytes a thread stores, its operand and its compare value. -/
def State.flightOf (s : State) (op : FlightOp) (act : W32) (ps : List Span) (data : Nat → List Byte × Nat × Nat) : Flight :=
  let lanes := ps.map fun p =>
    let xs := s.pieces op.kind p.va p.n
    let tx := s.inTxLane p.lane
    let d := data p.lane
    (⟨p.lane, p.va, xs, d.1, d.2.1, d.2.2, tx, false, !tx && op.eff != .load && xs.any fun x => s.holdsWrite s.iss.key x.pa⟩ : FlightLane)
  ⟨op, act, (s.core s.coreNum).nextOp, none, lanes,
   if op = .store then lanes.flatMap fun l => (l.pieces.filter fun x => match s.place x.pa with | .mail _ _ => true | _ => false).map fun x =>
     (x, (l.bytes.drop x.off).take x.n) else [],
   op.eff = .atom false && lanes.any (·.held), s.nextHeld s.iss.key⟩
/-- The instruction makes the accesses it can and the others are under way; or it has loaded poison and killed its gang. -/
def State.launchFlight (s : State) (f : Flight) (fin : State → State) : Res :=
  match s.flyPoison f s.w.inFlight s.iss.cut with
  | some va => .next (s.killBy s.iss.key 1 (BitVec.ofNat 64 va) f.act)
  | none =>
    let x := s.flyOne f s.w.inFlight s.iss.cut
    .next (fin (if x.2 = [] then x.1 else x.1.modW fun w => { w with flights := w.flights ++ [{ f with lanes := x.2 }] }))

/-- What follows the checks of an instruction: an issue with a remote store that would raise $ost above 255 waits (R204); it is counted, and its
accesses begin. -/
def State.memGo (s : State) (e : Eff) (scope : Scope) (f : Flight) (ps : List Span) (fin : State → State) : Res :=
  let far := e.posts && s.anyRemote f.op.kind e ps
  let contr := f.lanes.any fun l => !l.held && l.pieces.any fun x => s.contributes e x.pa
  if far && 255 ≤ s.ost s.iss.key then .next s.waitIssue
  else
    let r := s.addRemote far (scope = .core) contr (ps.flatMap fun p => (s.pieces f.op.kind p.va p.n).map (·.pa))
    r.1.launchFlight { f with remote := r.2 } fin

/-- The end of a lane memory instruction's issue. -/
def State.memEnd (p : Pre) (s : State) : State := if s.emptied then s.finish else s.endIssue p.rep

/-- A lane memory instruction through translation (R213). -/
def State.laneMem (s0 : State) (m : MemOp) (p : Pre) (act0 : W32) (spans : W32 → List Span) (op : FlightOp) (data : Nat → List Byte × Nat × Nat) : Res :=
  let s := if m.engine then s0.dropTx act0 abEngine else s0
  let act := act0 &&& s.iss.set
  if s.emptied then .next s.finish
  else if act = 0 then .next (s.endIssue p.rep)
  else
    match s.memCheck op.kind none act (spans act) m.align with
    | some s' => .next s'
    | none =>
      let away := maskOf fun t => (spans act).any fun x => x.lane = t && s.inTxLane t && s.txAway op.kind x.va x.n
      let s1 := s.dropTx away abRemote
      let act1 := act &&& s1.iss.set
      if s1.emptied then .next s1.finish
      else
        match s1.placeCheck op.kind op.eff act1 (spans act1) with
        | some s' => .next s'
        | none =>
          if act1 = 0 then .next (s1.endIssue p.rep)
          else
            let s2 := (s1.touchPages op.kind (spans act1)).modW (op.zero (s1.zeroed p))
            s2.memGo op.eff m.scope (s2.flightOf op act1 (spans act1) data) ((spans act1).filter fun x => !s1.inTxLane x.lane) (State.memEnd p)

/-- An instruction on the group's own allocation (R211, R213, R217): what it does at an offset of each active lane. -/
def State.localMem (s : State) (p : Pre) (act : W32) (off : Nat → Int) (n : Nat) (op : FlightOp) (data : Nat → List Byte × Nat × Nat) : Res :=
  let lanes := (lanesOf act).map fun t =>
    let d := data t
    (⟨t, w64 (off t), [⟨s.localPa (off t), 0, n, 12, false⟩], d.1, d.2.1, d.2.2, false, true, false⟩ : FlightLane)
  (s.modW (op.zero (s.zeroed p))).launchFlight ⟨op, act, (s.core s.coreNum).nextOp, none, lanes, [], false, 0⟩ fun s => s.endIssue p.rep

/-! ## LD and ST (R211, R215) -/

def lmUses (f : LM) (pair : Bool) (i : Nat) : List RUse :=
  (f.pre.d i f.d, dataRegs (lmSize f)) :: (f.pre.a i f.a, if pair then 2 else 1) :: f.b.use f.pre i 1

/-- The accesses of active lanes. -/
def lmSpans (s : State) (f : LM) (act : W32) : List Span :=
  (lanesOf act).map fun t => ⟨t, s.w.rdV64 (f.pre.a s.iss.idx f.a) t + w64 (lmOff s f s.iss.idx t), lmSize f⟩

def execLd (f : LM) (s : State) : Res :=
  s.lane f.pre (s.act f.pre) (lmUses f true) fun i =>
    s.laneMem ⟨lmAlign f, .core, false⟩ f.pre (s.act f.pre) (lmSpans s f) (.load (f.pre.d i f.d) (lmSize f) f.t) fun _ => ([], 0, 0)

def execSt (f : LM) (s : State) : Res :=
  s.lane f.pre (s.act f.pre) (lmUses f true) fun i =>
    s.laneMem ⟨lmAlign f, extScope f.pre.ext, false⟩ f.pre (s.act f.pre) (lmSpans s f) .store fun t =>
      (s.w.storedBytes (f.pre.d i f.d) (lmSize f) t, 0, 0)

/-! ## LDS and STS -/

/-- The offset o of a lane (R211). -/
def ldsOff (s : State) (f : LM) (t : Nat) : Int := (s.w.rdV (f.pre.a s.iss.idx f.a) t).toNat + lmOff s f s.iss.idx t
def execLds (f : LM) (s : State) : Res :=
  s.lane f.pre (s.act f.pre) (lmUses f false) fun i =>
    match s.localCheck (s.act f.pre) (ldsOff s f) (lmSize f) (lmAlign f) with
    | some s' => .next s'
    | none => s.localMem f.pre (s.act f.pre) (ldsOff s f) (lmSize f) (.load (f.pre.d i f.d) (lmSize f) f.t) fun _ => ([], 0, 0)

def execSts (f : LM) (s : State) : Res :=
  s.lane f.pre (s.act f.pre) (lmUses f false) fun i =>
    match s.localCheck (s.act f.pre) (ldsOff s f) (lmSize f) (lmAlign f) with
    | some s' => .next s'
    | none => s.localMem f.pre (s.act f.pre) (ldsOff s f) (lmSize f) .store fun t => (s.w.storedBytes (f.pre.d i f.d) (lmSize f) t, 0, 0)

/-! ## ATOM and ATOMS (R217 to R221) -/

def isCas : AtomOp → Bool
  | .cas _ => true
  | _ => false
def laUses (f : LA) (pair : Bool) (i : Nat) : List RUse :=
  (f.pre.d i f.d, atomRegs f.op) :: (f.pre.a i f.a, if pair then 2 else 1) ::
    (if isCas f.op then [(f.pre.vc i f.d, atomRegs f.op)] else [])
/-- The operand and the compare value of a lane. -/
def atomArgs (s : State) (f : LA) (t : Nat) : Nat × Nat :=
  (s.w.rdT (atomWide f.op) (f.pre.d s.iss.idx f.d) t, s.w.rdT (atomWide f.op) (f.pre.vc s.iss.idx f.d) t)

def laSpans (s : State) (f : LA) (act : W32) : List Span :=
  (lanesOf act).map fun t => ⟨t, s.w.rdV64 (f.pre.a s.iss.idx f.a) t, AtomOp.bytes f.op⟩
/-- What an ATOM or ATOMS does at each element, with the old values' register. -/
def laOp (s : State) (f : LA) (i : Nat) : FlightOp := .atom f.op f.nr (s.w.mode f.pre.ext) (f.pre.d i f.d)
/-- The bytes of the operand of a lane, the operand and the compare value. -/
def laData (s : State) (f : LA) (t : Nat) : List Byte × Nat × Nat :=
  let a := atomArgs s f t
  (leBytes (AtomOp.bytes f.op) a.1, a.1, a.2)

def execAtom (f : LA) (s : State) : Res :=
  s.lane f.pre (s.act f.pre) (laUses f true) fun i =>
    s.laneMem ⟨AtomOp.bytes f.op, extScope f.pre.ext, AtomOp.narrow f.op⟩ f.pre (s.act f.pre) (laSpans s f) (laOp s f i) (laData s f)

def execAtoms (f : LA) (s : State) : Res :=
  let off := fun t => ((s.w.rdV (f.pre.a s.iss.idx f.a) t).toNat : Int)
  s.lane f.pre (s.act f.pre) (laUses f false) fun i =>
    match s.localCheck (s.act f.pre) off (AtomOp.bytes f.op) (AtomOp.bytes f.op) with
    | some s' => .next s'
    | none => s.localMem f.pre (s.act f.pre) off (AtomOp.bytes f.op) (laOp s f i) (laData s f)

/-! ## Uniform accesses (R61 to R65) -/

/-- The address of a UM form. -/
def umAddr (s : State) (f : UM) (size : Nat) : W64 := s.rdS f.a + scaled 9 f.off size
def umAlign (f : UM) : Nat := match f.ext with | some e => if e.atom = 1 then 8 else 1 | none => 1

/-- A uniform access: its checks, and then the access as one of the warp's under way. -/
def State.uniMem (s : State) (op : FlightOp) (va : W64) (n align : Nat) (scope : Scope) (bs : List Byte) : Res :=
  let p : Span := ⟨s.uniLane, va, n⟩
  match s.memCheck op.kind (some s.iss.set) s.iss.set [p] align with
  | some s' => .next s'
  | none =>
    match s.placeCheck op.kind op.eff s.iss.set [p] with
    | some s' => .next s'
    | none =>
      let s1 := s.touchPages op.kind [p]
      s1.memGo op.eff scope (s1.flightOf op s.iss.set [p] fun _ => (bs, 0, 0)) [p] State.advance

/-- A uniform load into sd. -/
def State.uniLoad (s : State) (d : Nat) (va : W64) (n align : Nat) : Res := s.uniMem (.sload d) va n align .core []
def State.uniLd (s0 : State) (f : UM) (n : Nat) : Res :=
  let s := s0.txGuard abEngine
  if s.emptied then .next s.finish else s.uniLoad f.d (umAddr s f n) n (umAlign f)
def State.uniSt (s0 : State) (f : UM) (n : Nat) : Res :=
  let s := s0.txGuard abEngine
  if s.emptied then .next s.finish
  else s.uniMem .store (umAddr s f n) n (umAlign f) (extScope f.ext) (leBytes n (s.rdS f.d).toNat)

def execSld (f : UM) (s : State) : Res := s.uniLd f 8
def execSldw (f : UM) (s : State) : Res := s.uniLd f 4
def execSst (f : UM) (s : State) : Res := s.uniSt f 8
def execSstw (f : UM) (s : State) : Res := s.uniSt f 4

/-- The address of the parameter block (R19). -/
def paramBase (v : W64) : W64 := w64 (sext 57 (bfld v 6 51 * 64))
def paramLen (v : W64) : Nat := (bfld v 58 6 + 1) * 64

/-- SLDK (R20, R64). -/
def execSldk (d a off : Nat) (s : State) : Res :=
  let pr := s.ctlOf s.iss.key 0x0B
  let o : Int := (s.rdS a).toInt + sext 9 off * 8
  let va := paramBase pr + w64 o
  if o % 8 != 0 then .next (s.trap cAlign va)
  else if o < 0 || (paramLen pr : Int) < o + 8 then .next (s.trap cAccess va)
  else s.uniLoad d va 8 1

/-- No core but the issuing one has the page of an address in its private class (R65). -/
def State.privateElsewhere (s : State) (pa : Nat) : Bool :=
  s.classes.any fun e => ClassEntry.covers e pa && (match e.2.cls with | .priv c => c != s.coreNum | .shared => false)
/-- A line is brought to the issuing core's die. It is read at its home, which folds its shadow (R88), and its class does not move (R65). One that
another module must give back is asked for. -/
def State.prefetch (s : State) (pa : Nat) : State :=
  let who : Agent := .thread s.iss.key 33
  if s.awaits who false pa 128 then s.seek who false pa 128
  else if s.reducing s.pkg pa then s.foldLines pa 128
  else (s.foldLines pa 128).ownLines who false pa 128
/-- SPRF (R65): it changes no register, flag, counter or class. Every target brings the line to the die (log entry 47). -/
def execSprf (_t a off : Nat) (s : State) : Res :=
  let va := (s.rdS a + scaled 9 off 128) &&& ~~~(127 : W64)
  match s.walk (s.coreNum / 48) s.gr.ctx va .read with
  | .ok pa _ _ => .next (if canonical va && s.place pa = .device && !s.privateElsewhere pa then s.prefetch pa else s).advance
  | _ => .next s.advance

end Sys2Proof.Machine
end

