-- ==== Sys2Proof/Machine/Launch.lean ====
section
/-! DEFINITION. Launch: the record, its checks, its acceptance, and LAUNCH (R148 to R151, R163). -/

namespace Sys2Proof.Machine

/-- n bytes of a record as a number. -/
def recNat (bs : List Byte) (o n : Nat) : Nat := leNat ((bs.drop o).take n)
def recW (bs : List Byte) (o : Nat) : W64 := BitVec.ofNat 64 (recNat bs o 8)

/-- The fields of the 64 bytes (R148). -/
def LaunchRec.read (bs : List Byte) : LaunchRec :=
  { entry := recW bs 0, params := recW bs 8, signal := recW bs 16, gangs := recNat bs 24 4, groups := recNat bs 28 1
    warps := recNat bs 29 1, cls := recNat bs 30 1, flags := recNat bs 31 1, regs := recNat bs 32 1, tiles := recNat bs 33 1
    acc := recNat bs 34 1, xreg := recNat bs 35 1, scratch := recNat bs 36 4, xacc := recNat bs 40 1, cscope := recNat bs 41 1
    hmask := BitVec.ofNat 16 (recNat bs 42 2), htable := recW bs 48 }

/-- A number between two. -/
def within (lo hi n : Nat) : Bool := lo ≤ n && n ≤ hi

/-- The record breaks R148, or is paired and co-resident (R353). -/
def LaunchRec.malformed (r : LaunchRec) (bs : List Byte) : Bool :=
  !canonical r.entry || bfld r.entry 0 2 != 0 || bbit r.params 57 || bfld r.params 0 6 != 0 ||
  !canonical r.signal || bfld r.signal 0 3 != 0 || r.gangs = 0 || !within 1 8 r.groups || !within 1 32 r.warps ||
  !within 1 3 r.cls || 8 ≤ r.flags || (r.flags / 2 % 2 = 1 && r.flags / 4 % 2 = 1) ||
  r.regs % 8 != 0 || !within 8 96 r.regs || 16 < r.tiles || 64 < r.acc || 4 * r.warps < r.xreg ||
  r.scratch % 4 != 0 || 786432 < r.scratch || 64 < r.acc + r.xacc || !within 2 4 r.cscope ||
  (r.hmask != 0 && (bfld r.htable 0 3 != 0 || !canonical r.htable)) ||
  recNat bs 44 4 != 0 || recNat bs 56 8 != 0

/-- Groups of the record that one core holds at once (R163). -/
def LaunchRec.perCore (r : LaunchRec) : Nat :=
  let least := fun (d n k : Nat) => if d = 0 then k else min (n / d) k
  least r.scratch 786432 (least (r.acc + r.xacc) 64 (least r.tiles 16
    (min (64 / r.warps) (1048576 / (r.warps * r.regs * 128 + r.xreg * 1024)))))
/-- The record cannot be placed (R149, R163, R353). -/
def LaunchRec.unplaceable (r : LaunchRec) : Bool :=
  1048576 < r.warps * r.regs * 128 + r.xreg * 1024 ||
  (r.flags / 4 % 2 = 1 && 144 * (8 * r.perCore / r.groups) < r.gangs) ||
  (r.flags / 2 % 2 = 1 && 8 * r.perCore < r.groups)

/-- Records not yet placed: grids with a gang that has not been dispatched. -/
def State.launchQueue (s : State) : Nat :=
  (s.grids.filter fun g => (s.gangs.filter fun x => x.1 / 2 ^ 32 = g.1).length < g.2.lrec.gangs).length

/-- The translation test of a nonzero SIGNAL: the address, or none when it fails (R149). -/
def State.signalPa (s : State) (die ctx : Nat) (signal : W64) : Option Nat :=
  match s.walk die ctx signal .write with
  | .ok pa _ _ => if s.place pa = .device then some pa else none
  | _ => none

/-- The refusal code of a record, 0 when it is accepted (LAUNCH_REFUSAL). -/
def State.launchCode (s : State) (die ctx : Nat) (bs : List Byte) : Nat :=
  let r := LaunchRec.read bs
  if !s.ctxOk ctx || r.malformed bs || (r.signal != 0 && (s.signalPa die ctx r.signal).isNone) then 1
  else if r.unplaceable then 2
  else if 4096 ≤ s.launchQueue then 3
  else 0

/-- The first number from a start that a test accepts, among n. -/
def firstFree (start n : Nat) (used : Nat → Bool) : Nat := ((rangeFrom start n).find? fun i => !used i).getD start

/-- A record is submitted (R149): the value the instruction receives, and the state after. The retained record takes the lowest free index of the
record store, which the manual leaves open: DESIGN CHOICE, log entry 48. -/
def State.submit (s : State) (die ctx depth : Nat) (parent : Option Nat) (bs : List Byte) : State × W64 :=
  let code := s.launchCode die ctx bs
  if code != 0 then (s, BitVec.ofNat 64 (2 ^ 63 + code))
  else
    let r := LaunchRec.read bs
    let id := firstFree s.nextGrid (s.grids.length + 2) fun i => i % 2 ^ 32 = 0 || (tget? s.grids (i % 2 ^ 32)).isSome
    let id := id % 2 ^ 32
    let h := firstFree 0 (s.grids.length + 1) fun i => s.grids.any fun g => g.2.handle = i
    let sig := if r.signal = 0 then none else s.signalPa die ctx r.signal
    let g : Grid := { Grid.none with lrec := r, handle := h, ctx := ctx, depth := depth, parent := parent, signalPa := sig }
    let s1 := { s with grids := tput s.grids id g, nextGrid := id + 1 }
    let s2 := match sig with
      | some pa => s1.writeHome pa (leBytes 8 0)
      | none => s1
    (match parent with
     | some p => s2.modGroup p fun x => { x with children := x.children ++ [id] }
     | none => s2, BitVec.ofNat 64 id)

/-- The store of 0 that an accepted record makes at its SIGNAL must wait (R149, R203, R237): the state that seeks its line. -/
def State.signalWaits (s : State) (die ctx : Nat) (bs : List Byte) : Option State :=
  let r := LaunchRec.read bs
  if s.launchCode die ctx bs != 0 || r.signal = 0 then none
  else match s.signalPa die ctx r.signal with
    | some pa => if s.lockBlocks .other true pa 8 then some (s.seek .other true pa 8) else none
    | none => none

/-- LAUNCH (R150). In a paired grid the two copies submit once, and both receive the result (R356). -/
def execLaunch (d a : Nat) (s0 : State) : Res :=
  let s := s0.txGuard abEngine
  let va := s.rdS a
  let p : Span := ⟨s.uniLane, va, 64⟩
  if s.emptied then .next s.finish
  else if (s.ctlOf s.iss.key 0x08).toNat = 9 then .next (s.trap cNest 0)
  else if !canonical va then .next (s.trap cAccess va)
  else if bfld va 0 6 != 0 then .next (s.trap cAlign va)
  else
    match s.checkPages .read (some s.iss.set) s.iss.set [p] with
    | some s' => .next s'
    | none =>
      match s.placeCheck .read .load s.iss.set [p] with
      | some s' => .next s'
      | none =>
        match s.relWait true with
        | some s' => .next s'
        | none =>
          if s.lockStalls .read false [p] then .next (s.lineWait .read false [p])
          else
            match s.signalWaits (s.coreNum / 48) s.gr.ctx (s.plainLoad .read p.lane va 64).2 with
            | some s' => .next s'.waitIssue
            | none =>
            match s.poisonIn .read (fun _ _ => false) [p], s.w.win.bind fun x => x.gift with
            | some b, _ => .next (s.killBy s.iss.key 1 (BitVec.ofNat 64 b) s.iss.set)
            | none, some (v :: _) =>
              let s1 := s.modW (Warp.setGift · none)
              .next ((s1.wrS d v).advance)
            | none, _ =>
              let x := s.plainLoad .read p.lane va 64
              let y := x.1.submit (s.coreNum / 48) s.gr.ctx ((s.ctlOf s.iss.key 0x08).toNat + 1) (some s.w.group) x.2
              let s1 := match s.w.win, s.twinOf s.iss.key with
                | some _, some k => y.1.modWarp k (Warp.setGift · (some [y.2]))
                | _, _ => y.1
              .next ((s1.wrS d y.2).advance)

end Sys2Proof.Machine
end

