-- ==== Sys2Proof/Machine/Cbuf.lean ====
section
/-! DEFINITION. Circular buffers: slots, cursors, depth, and what copies and consumers do to them (R252 to R260, R207). -/

namespace Sys2Proof.Machine

/-! ## Slots -/

def CbSlot.free : CbSlot := ⟨.free, false, 0, false, false, false, none⟩
def CbSlot.gone : CbSlot := ⟨.retired, false, 0, false, false, false, none⟩
def Cb.slot (c : Cb) (i : Nat) : CbSlot := c.slots.getD i CbSlot.gone
def Cb.modSlot (c : Cb) (i : Nat) (f : CbSlot → CbSlot) : Cb := { c with slots := lmod c.slots i f }
/-- Claimed slots in a state, oldest first. -/
def Cb.inState (c : Cb) (st : SlotState) : List Nat := c.order.filter fun i => (c.slot i).state = st
/-- FILLED and FREE (R259). -/
def Cb.filled (c : Cb) : Nat := (c.inState .filled).length
def Cb.freeCount (c : Cb) : Nat := ((List.range c.depth).filter fun i => (c.slot i).state = .free).length
/-- The slot the next CBGET obtains (R259). -/
def Cb.gcur (c : Cb) : Nat := (c.order.find? fun i => (c.slot i).state != .held).getD c.fcur
/-- No slot is FILLING, FAULTED, FILLED or HELD (R253). -/
def Cb.slotsIdle (c : Cb) : Bool := c.order = []

/-! ## Filling (R254, R257, R258) -/

/-- The depth after a lap, before the clamp (R258). -/
def Cb.lapDepth (c : Cb) : Nat :=
  if c.lapGets = 0 then c.depth
  else if c.lapGetWaited && c.lapCopyWaited then c.depth + 1
  else if !c.lapGetWaited && !c.lapLow then c.depth - 1
  else c.depth

/-- WRAP_POINT: waiting limits take effect, the depth is set again, new slots become FREE, and the fill cursor moves. A CBGET that
waits across the point is not counted as having waited in the new lap (R258; DESIGN CHOICE, log entry 63). -/
def Cb.wrap (c : Cb) : Cb :=
  let lim := c.nextLimits.getD (c.mins, c.maxs)
  let d := max lim.1 (min lim.2 c.lapDepth)
  let slots := (List.range c.stages).map fun i =>
    let x := c.slot i
    if i < d then (if x.state = .retired then CbSlot.free else x)
    else if x.state = .free then CbSlot.gone else x
  { c with mins := lim.1, maxs := lim.2, nextLimits := none, depth := d, slots := slots
           fcur := if c.depth < d then c.depth else 0
           lapGets := 0, lapGetWaited := false, lapCopyWaited := false, lapLow := false }

/-- A closing copy moves the fill cursor on. -/
def Cb.moveOn (c : Cb) : Cb := if c.fcur + 1 = c.depth then c.wrap else { c with fcur := c.fcur + 1 }

/-- A copy reaches the buffer: the slot it claims or joins and the buffer after, or none while it waits (R254, R255). -/
def Cb.reach (c : Cb) (fin : Bool) : Option (Nat × Cb) :=
  let x := c.slot c.fcur
  let go := fun c' : Cb => some (c.fcur, if fin then c'.moveOn else c')
  match x.state with
  | .free => go { (c.modSlot c.fcur fun y => ⟨.filling, fin, 1, false, false, false, y.freedBy⟩) with order := c.order ++ [c.fcur] }
  | .filling =>
    if x.closed || x.refill then none else go (c.modSlot c.fcur fun y => { y with closed := fin, open_ := y.open_ + 1 })
  | _ => none

/-- A REFILL copy reaches the buffer: it joins the slot being filled again, or claims the oldest FAULTED one; none when there is
neither (R257). -/
def Cb.reachRefill (c : Cb) (fin : Bool) : Option (Nat × Cb) :=
  match c.order.find? fun i => (c.slot i).state = .filling && (c.slot i).refill && !(c.slot i).closed with
  | some i => some (i, c.modSlot i fun y => { y with closed := fin, open_ := y.open_ + 1 })
  | none =>
    match c.inState .faulted with
    | i :: _ => some (i, c.modSlot i fun y => ⟨.filling, fin, 1, false, true, false, y.freedBy⟩)
    | [] => none

/-- SLOT_FILLED: closed slots without unfinished copies become FAULTED, or FILLED when every slot claimed before is FILLED or
HELD. -/
def Cb.settleFrom (c : Cb) : List Nat → Bool → Cb
  | [], _ => c
  | i :: r, ok =>
    let x := c.slot i
    if x.state = .filling && x.closed && x.open_ = 0 then
      if x.bad then (c.modSlot i fun y => { y with state := .faulted }).settleFrom r false
      else if ok then (c.modSlot i fun y => { y with state := .filled }).settleFrom r true
      else c.settleFrom r false
    else c.settleFrom r (ok && (x.state = .filled || x.state = .held))
def Cb.settle (c : Cb) : Cb := c.settleFrom c.order true

/-- Freed slots leave in the order in which they were obtained; one beyond the depth does not return to FREE (R254, R258). -/
def Cb.drain (c : Cb) : List Nat → Cb
  | [] => c
  | i :: r =>
    let x := c.slot i
    if x.state = .held && x.put then
      ({ (c.modSlot i fun y => if i < c.depth then { CbSlot.free with freedBy := y.freedBy } else CbSlot.gone) with order := r }).drain r
    else c

/-- A copy into a slot has completed. -/
def Cb.copyDone (c : Cb) (slot : Nat) (err : Bool) : Cb :=
  (c.modSlot slot fun y => { y with open_ := y.open_ - 1, bad := y.bad || err }).settle

/-- A CBGET obtains the oldest FILLED slot. -/
def Cb.obtain (c : Cb) : Option (Nat × Cb) :=
  match c.inState .filled with
  | i :: _ => some (i, c.modSlot i fun y => { y with state := .held, put := false })
  | [] => none

/-! ## Placement (R256) -/

/-- The offset of a lane's bytes in its slot. -/
def Cb.place (c : Cb) (o : Nat) : Nat :=
  if c.swe then
    let row := o / c.swrb
    let b := o % c.swrb
    let n := c.swrb / c.swc
    row * c.swrb + (b / c.swc).xor (row / 2 ^ c.swf % 8 % n) * c.swc + b % c.swc
  else o

/-! ## Buffers of groups -/

def State.cb? (s : State) (g n : Nat) : Option Cb := vget none (s.group g).cbs n
def State.setCb (s : State) (g n : Nat) (c : Cb) : State := s.modGroup g fun x => { x with cbs := vset x.cbs n (some c) }
def State.modCb (s : State) (g n : Nat) (f : Cb → Cb) : State :=
  match s.cb? g n with
  | some c => s.setCb g n (f c)
  | none => s

/-- The address CBGET yields for a slot. -/
def Cb.address (c : Cb) (i : Nat) : W64 := c.base + BitVec.ofNat 64 (i * c.slotBytes)

/-- A warp's CBGET completes: its two registers, and its threads go on. -/
def Warp.gotSlot (w : Warp) (set : W32) (d : Nat) (addr : W64) (i : Nat) : Warp :=
  { ((w.wrS d addr).wrS (d + 1) (BitVec.ofNat 64 i)).modThreads set fun t => { t with pc := t.pc + 4, status := .eligible } with
    parks := w.parks.filter fun p => p.set != set }

/-- Waiting CBGETs obtain FILLED slots, in the order of their issue (R255). -/
def State.serveGets (s : State) (g n : Nat) : List (Nat × W32 × Nat) → State
  | [] => s
  | (k, set, d) :: r =>
    match s.cb? g n with
    | none => s
    | some c =>
      match c.obtain with
      | none => s
      | some (i, c') =>
        let s1 := s.setCb g n { c' with waiters := r }
        (s1.modWarp k fun w => w.gotSlot set d (c.address i) i).serveGets g n r
/-- What follows a change of a buffer's slots. -/
def State.cbServe (s : State) (g n : Nat) : State :=
  match s.cb? g n with
  | some c => s.serveGets g n c.waiters
  | none => s

/-! ## Copies that wait for a slot (R255) -/

/-- The head of a copy queue: the oldest operation that is not complete. -/
def Warp.copyHead (w : Warp) : Option CopyOp := w.copyQ.find? fun o => !o.fin
/-- A buffer-form copy that has no slot yet: its buffer, and whether it closes the slot and refills. -/
def CopyOp.wants (o : CopyOp) : Option (Nat × Bool × Bool) :=
  match o.dest, o.claimed with
  | .buf cb fin refill, none => if o.fin then none else some (cb, fin, refill)
  | _, _ => none
/-- The copy of a warp's queue that is to reach its buffer next: those before it have reached theirs. -/
def Warp.copyNext (w : Warp) : Option CopyOp := w.copyQ.find? fun o => o.wants.isSome
/-- Copies reach a buffer in the order of their issue at the core: no older one of the group still has to. A REFILL copy, which does
not go to the fill cursor (R257), is held back by older REFILL copies alone: DEDUCED, log entry 15. -/
def State.copyTurn (s : State) (g cb seq : Nat) (refill : Bool) : Bool :=
  (s.groupWarps g).all fun k =>
    (s.warp k).copyQ.all fun o => o.seq ≥ seq || (match o.wants with | some (c, _, r) => c != cb || (refill && !r) | none => true)
/-- A copy that comes to the fill cursor and finds no FREE slot waits, and the lap knows it (R255, R258). -/
def State.noteWaits (s : State) (g : Nat) : State :=
  (s.groupWarps g).foldl (fun s k =>
    match (s.warp k).copyNext with
    | some o =>
      (match o.wants with
       | some (cb, fin, false) =>
         s.modCb g cb fun c => if s.copyTurn g cb o.seq false && (c.reach fin).isNone then { c with lapCopyWaited := true } else c
       | _ => s)
    | none => s) s
/-- The warp whose CBPUT freed the slot last has stores of before it that are not performed: no write goes into the slot yet (R207). -/
def State.slotHeldBack (s : State) (c : Cb) (i : Nat) : Bool :=
  match (c.slot i).freedBy with
  | some k => s.senderWaits (.warp k)
  | none => false

/-- No unretired copy names the buffer and no slot is in use (R253). -/
def State.cbIdle (s : State) (g n : Nat) : Bool :=
  (match s.cb? g n with | some c => c.slotsIdle | none => true) &&
  (s.groupWarps g).all fun k => (s.warp k).copyQ.all fun o =>
    match o.dest with | .buf cb _ _ => cb != n | .plain => true

/-! ## CBDEF, CBGET, CBQRY, CBLIM (R297 to R299) -/

/-- The fields of CBDEF's descriptor (R298). -/
def Cb.read (base d : W64) : Cb :=
  let stages := bfld d 12 4 + 1
  let mins := bfld d 16 4 + 1
  let sc := bfld d 1 3
  { dev := bbit d 0, base := base, slotBytes := (bfld d 20 9 + 1) * 128, stages := stages, mins := mins, maxs := stages
    nextLimits := none
    scope := if sc = 1 then .gang else if sc = 2 then .module else if sc = 3 then .node else if sc = 4 then .system else .core
    swe := bbit d 4, swc := 16 * 2 ^ bfld d 5 2, swf := bfld d 7 3, swrb := 16 * 2 ^ bfld d 10 2
    depth := mins, fcur := 0
    slots := (List.range stages).map fun i => if i < mins then CbSlot.free else CbSlot.gone
    order := [], ingest := [], waiters := []
    lapGets := 0, lapGetWaited := false, lapCopyWaited := false, lapLow := false }

/-- CBDEF's first list of ACCESS cases. -/
def State.cbBad (s : State) (g n : Nat) (base d : W64) : Bool :=
  let c := Cb.read base d
  let sc := bfld d 1 3
  (match s.cb? g n with | some o => !s.cbIdle g n || o.ingest != [] | none => false) ||
  c.stages < c.mins || (c.swe && c.swrb < c.swc) ||
  (if c.dev then !(2 ≤ sc && sc ≤ 4) || !canonical base else sc != 0)

/-- Bytes of memory zeroed, with their marks (R105). -/
def State.zeroBytes (s : State) (pa n : Nat) : State :=
  { s with mem := s.mem.filter fun c => !(pa ≤ c.1 && c.1 < pa + n)
           poison := s.poison.filter fun u => !(pa ≤ u && u < pa + n) }

/-- An engine instruction's trap: no detail (R291). -/
def State.engTrap (s : State) (cause : Nat) : Res := .next (s.trap cause 0)

/-- CBDEF: an idle buffer may still have waiting CBGETs, which the new one serves (R253, R255). -/
def execCbdef (n a b : Nat) (s0 : State) : Res :=
  let s := s0.txGuard abEngine
  let g := s.w.group
  let base := s.rdS a
  let c := Cb.read base (s.rdS b)
  if s.emptied then .next s.finish
  else if s.cbBad g n base (s.rdS b) then s.engTrap cAccess
  else if base.toNat % 128 != 0 then s.engTrap cAlign
  else if !c.dev && s.g.slen < base.toNat + c.stages * c.slotBytes then s.engTrap cAccess
  else
    let s1 := if c.dev then s
      else s.zeroBytes (windowBase s.pkg s.coreNum + s.g.soff + base.toNat) (c.stages * c.slotBytes)
    .next (s1.setCb g n { c with waiters := ((s.cb? g n).map (·.waiters)).getD [] }).advance

/-- CBGET: it obtains a FILLED slot, or its issue set waits for one. -/
def execCbget (d n : Nat) (s0 : State) : Res :=
  let s := s0.txGuard abEngine
  let g := s.w.group
  if s.emptied then .next s.finish
  else
    match s.cb? g n with
    | none => s.engTrap cAccess
    | some c =>
      if s.w.flights != [] then .next s.waitIssue else
      let c1 := { c with lapGets := c.lapGets + 1, lapLow := c.lapLow || c.filled < 2 }
      match c1.obtain with
      | some (i, c2) => .next (((s.setCb g n c2).wrS d (c.address i)).wrS (d + 1) (BitVec.ofNat 64 i)).advance
      | none =>
        let c2 := { c1 with lapGetWaited := true, waiters := c1.waiters ++ [(s.iss.key, s.iss.set, d)] }
        .next ((s.setCb g n c2).holdAll (.cbget d n))

/-- The sample of CBQRY (R259). -/
def Cb.sample (c : Cb) : W64 :=
  let flt := c.inState .faulted
  BitVec.ofNat 64 (c.depth + c.mins * 2 ^ 6 + c.maxs * 2 ^ 11 + c.freeCount * 2 ^ 16 + c.filled * 2 ^ 21 + c.fcur * 2 ^ 26 +
    c.gcur * 2 ^ 30 + flt.headD 0 * 2 ^ 34 + b2n (flt != []) * 2 ^ 38 + 2 ^ 39)

def execCbqry (d n : Nat) (s0 : State) : Res :=
  let s := s0.txGuard abEngine
  if s.emptied then .next s.finish
  else .next (s.wrS d (match s.cb? s.w.group n with | some c => c.sample | none => 0)).advance

def execCblim (n a : Nat) (s0 : State) : Res :=
  let s := s0.txGuard abEngine
  let lo := bfld (s.rdS a) 0 5
  let hi := bfld (s.rdS a) 8 5
  if s.emptied then .next s.finish
  else
    match s.cb? s.w.group n with
    | none => s.engTrap cAccess
    | some c =>
      if lo = 0 || hi < lo || c.stages < hi then s.engTrap cAccess
      else .next (s.setCb s.w.group n { c with nextLimits := some (lo, hi) }).advance

end Sys2Proof.Machine
end

