-- ==== Sys2Proof/Machine/Ingest.lean ====
section
/-! DEFINITION. Ethernet ingest: flows, frames and pauses (R409 to R412), and CBPUT, which frees the slots they wait for. -/

namespace Sys2Proof.Machine

/-! ## Flows (R409)

Flow f of port p has the key p * 64 + f. -/

def State.flow (s : State) (k : Nat) : Vector W64 4 := tget (Vector.replicate 4 0) s.flows k
def flowCore (v : W64) : Nat := bfld v 52 11
def flowCb (v : W64) : Nat := bfld v 41 5
def flowPcp (v : W64) : Nat := bfld v 38 3
/-- The buffer of a group to which a flow is bound. -/
def Group.bound (g : Group) (k : Nat) : Option Nat :=
  (List.range 32).find? fun n => match vget Option.none g.cbs n with | some c => c.ingest.contains k | Option.none => false
/-- The group and the buffer to which a flow is bound: the binding stays while the group is saved, and goes with it. -/
def State.flowGroup (s : State) (k : Nat) : Option (Nat × Nat) := s.groups.findSome? fun g => (g.2.bound k).map fun n => (g.1, n)
/-- Add one to a counter word of a flow. -/
def State.flowCount (s : State) (k word n : Nat) : State :=
  { s with flows := tput s.flows k (vmod 0 (s.flow k) word fun x => x + BitVec.ofNat 64 n) }

def EthPort.none : EthPort := ⟨[], [], [], [], 0, 0, 0⟩
def State.ethPort (s : State) (p : Nat) : EthPort := tget EthPort.none s.eth p
def State.modEth (s : State) (p : Nat) (f : EthPort → EthPort) : State := { s with eth := tput s.eth p (f (s.ethPort p)) }

/-! ## Frames (R410, R411)

A frame's bytes run from the destination address to the end of the payload, tags kept. -/

def frame16 (bs : List Byte) (o : Nat) : Nat := (bs.getD o 0).toNat * 256 + (bs.getD (o + 1) 0).toNat
/-- The frame carries an 802.1Q tag. -/
def frameTagged (bs : List Byte) : Bool := frame16 bs 12 = 0x8100
def framePcp (bs : List Byte) : Nat := if frameTagged bs then frame16 bs 14 / 2 ^ 13 else 0
def frameVid (bs : List Byte) : Nat := frame16 bs 14 % 4096
def frameType (bs : List Byte) : Nat := if frameTagged bs then frame16 bs 16 else frame16 bs 12
/-- A binding word matches a frame. -/
def flowMatches (v : W64) (bs : List Byte) : Bool :=
  bbit v 63 &&
  (if bfld v 36 2 = 0 then true
   else if bfld v 36 2 = 1 then frameType bs = bfld v 0 16
   else if bfld v 36 2 = 2 then frameTagged bs && frameVid bs = bfld v 0 12
   else false)
/-- The first enabled match in ascending f. -/
def State.classifyFrame (s : State) (port : Nat) (bs : List Byte) : Option Nat :=
  (rangeFrom (port * 64) 64).find? fun k => flowMatches (vget 0 (s.flow k) 0) bs

/-- Bytes 0 to 63 of a slot. -/
def frameHead (f : Frame) (err : Bool) : List Byte :=
  leBytes 4 f.bytes.length ++ leBytes 4 (framePcp f.bytes + b2n (frameTagged f.bytes) * 2 ^ 8 + b2n err * 2 ^ 9) ++
    leBytes 8 f.time ++ List.replicate 48 0

/-- Bytes of a slot written page by page; a page that does not translate is left out. -/
def State.slotWrite (s : State) (die ctx : Nat) (va : W64) (bs : List Byte) : State :=
  (pagesOf [⟨0, va, bs.length⟩]).foldl (fun s p =>
    let lo := max va.toNat (p * 4096)
    let hi := min (va.toNat + bs.length) (p * 4096 + 4096)
    match s.walk die ctx (BitVec.ofNat 64 lo) .engWrite with
    | .ok pa size nc =>
      if s.agentMay false pa (hi - lo) .store then
        s.writeAt ⟨.other, some die, none⟩ size nc pa ((bs.drop (lo - va.toNat)).take (hi - lo)) none
      else s
    | _ => s) s

/-- The virtual address of a slot, with the die and context in which it is written. -/
def State.slotPlace (s : State) (g : Nat) (c : Cb) (i : Nat) : Nat × Nat × W64 :=
  ((s.group g).core / 48, (s.grid (s.group g).grid).ctx, c.address i)
/-- The bytes of a frame go into a slot that the port has claimed (R411). -/
def State.frameBytes (s : State) (g : Nat) (c : Cb) (i : Nat) (f : Frame) (err : Bool) : State :=
  let p := s.slotPlace g c i
  s.slotWrite p.1 p.2.1 p.2.2 (frameHead f err ++ f.bytes)
/-- Lines of a slot are poisoned (R411). -/
def State.slotPoison (s : State) (g : Nat) (c : Cb) (i : Nat) (lines : List Nat) : State :=
  let p := s.slotPlace g c i
  lines.foldl (fun (s : State) l =>
    match (s.walk p.1 p.2.1 (p.2.2 + BitVec.ofNat 64 (l * 128)) .engWrite).pa with
    | some pa => s.setPoison (unitsOf pa 128)
    | none => s) s

/-- The bytes of a slot can be written: no line of theirs must be waited for (R237, R366). -/
def State.slotOpen (s : State) (die ctx : Nat) (va : W64) (n : Nat) : Bool :=
  (pagesOf [⟨0, va, n⟩]).all fun p =>
    let lo := max va.toNat (p * 4096)
    match s.walk die ctx (BitVec.ofNat 64 lo) .engWrite with
    | .ok pa _ _ => !s.lockBlocks .other true pa (min (va.toNat + n) (p * 4096 + 4096) - lo)
    | _ => true
/-- What the write of a slot waits for is asked for. -/
def State.slotSeek (s : State) (die ctx : Nat) (va : W64) (n : Nat) : State :=
  (pagesOf [⟨0, va, n⟩]).foldl (fun (s : State) p =>
    let lo := max va.toNat (p * 4096)
    match s.walk die ctx (BitVec.ofNat 64 lo) .engWrite with
    | .ok pa _ _ => s.seek .other true pa (min (va.toNat + n) (p * 4096 + 4096) - lo)
    | _ => s) s
/-- A FREE slot stands at the fill cursor of the flow's buffer; a group that is being saved counts as none (R412). -/
def State.flowFree (s : State) (k : Nat) : Bool :=
  match s.flowGroup k with
  | some (g, n) =>
    !(s.group g).stored && s.slotState g = 2 && !s.stopping g &&
    (match s.cb? g n with | some c => (c.slot c.fcur).state = .free | none => false)
  | none => false
/-- The slot at the fill cursor, and each of its lines, can be written. -/
def State.flowReady (s : State) (k : Nat) : Bool :=
  s.flowFree k &&
  (match s.flowGroup k with
   | some (g, n) =>
     (match s.cb? g n with
      | some c =>
        let p := s.slotPlace g c c.fcur
        !s.slotHeldBack c c.fcur && s.slotOpen p.1 p.2.1 p.2.2 c.slotBytes
      | none => false)
   | none => false)

/-- Other flows of a port and priority starve and are still paused for. -/
def State.starving (s : State) (port pcp : Nat) : List Nat :=
  ((s.ethPort port).starve.filter fun x =>
    flowPcp (vget 0 (s.flow x.1) 0) = pcp && !(s.ethPort port).abandoned.contains x.1).map (·.1)
/-- A pause frame is sent, and counted for the flows that it is sent for. -/
def State.sendPause (s : State) (port pcp quanta : Nat) (flows : List Nat) : State :=
  (flows.foldl (fun s k => s.flowCount k 3 1) s).emit (.pause port pcp quanta)

/-- A slot has become FREE: the flow's starvation ends, and a pause that no other flow needs is lifted (R412). -/
def State.endStarve (s : State) (k : Nat) : State :=
  let port := k / 64
  let pcp := flowPcp (vget 0 (s.flow k) 0)
  if (tget? (s.ethPort port).starve k).isSome then
    let s1 := s.modEth port fun e => { e with starve := tdel e.starve k, abandoned := e.abandoned.filter (· != k) }
    if (tget? (s1.ethPort port).paused pcp).isSome && s1.starving port pcp = [] then
      (s1.modEth port fun e => { e with paused := tdel e.paused pcp }).sendPause port pcp 0 [k]
    else s1
  else s
/-- The flow starves from now on, unless it does already. -/
def State.startStarve (s : State) (k : Nat) : State :=
  s.modEth (k / 64) fun e =>
    if (tget? e.starve k).isSome || !e.frames.any (fun f => f.flow = k) then e else { e with starve := tput e.starve k s.time }

/-- The oldest waiting frame of a flow is changed, or leaves. -/
def EthPort.modFirst (e : EthPort) (k : Nat) (f : Frame → List Frame) : EthPort :=
  { e with frames := (e.frames.takeWhile fun x => x.flow != k) ++
      (match e.frames.dropWhile fun x => x.flow != k with | x :: r => f x ++ r | [] => []) }
/-- The port's rewrite of a FAULTED slot from its own copy: the slot passes through FILLING to FILLED, with ERR and its failed lines poisoned when it fails
too (R411). -/
def State.frameRewrite (s : State) (g n : Nat) (c : Cb) (i : Nat) (f : Frame) : State :=
  let c' := c.modSlot i fun y => ⟨.filling, true, 1, false, true, false, y.freedBy⟩
  let s1 := ((s.setCb g n c').frameBytes g c i f (f.badLines != [])).slotPoison g c i f.badLines
  (((s1.modCb g n (·.copyDone i false)).cbServe g n).flowCount f.flow 1 1).modEth (f.flow / 64) (·.modFirst f.flow fun _ => [])
/-- The frame goes into the slot at the fill cursor and closes it; after a tag failure the slot is FAULTED and the port keeps its copy (R411). -/
def State.frameWrite (s : State) (g n : Nat) (c : Cb) (f : Frame) : State :=
  match c.reach true with
  | none => s
  | some (i, c') =>
    let s1 := (s.setCb g n c').frameBytes g c i f false
    if f.tagFail then
      (s1.modCb g n (·.copyDone i true)).modEth (f.flow / 64) (·.modFirst f.flow fun x => [{ x with slot := some i }])
    else
      (((s1.modCb g n (·.copyDone i false)).cbServe g n).flowCount f.flow 1 1).modEth (f.flow / 64) (·.modFirst f.flow fun _ => [])
/-- The slot that a frame is still to be rewritten in. -/
def State.rewriting (s : State) (k : Nat) (f : Frame) : Option (Nat × Nat × Cb × Nat) :=
  match s.flowGroup k, f.slot with
  | some (g, n), some i =>
    (match s.cb? g n with
     | some c => if (c.slot i).state = .faulted then some (g, n, c, i) else none
     | none => none)
  | _, _ => none

/-- The oldest waiting frame of a flow is written while slots are FREE; the number bounds the slots. A FAULTED slot is rewritten at the next turn, and
later frames wait for it (R410). -/
def State.flowServe (k : Nat) : Nat → State → State
  | 0, s => s
  | n + 1, s =>
    match (s.ethPort (k / 64)).frames.find? fun f => f.flow = k with
    | none => if s.flowFree k then s.endStarve k else s
    | some f =>
      match s.rewriting k f with
      | some (g, b, c, i) =>
        let p := s.slotPlace g c i
        if !s.slotOpen p.1 p.2.1 p.2.2 c.slotBytes then s.slotSeek p.1 p.2.1 p.2.2 c.slotBytes
        else if (s.group g).stored || s.slotState g != 2 || s.stopping g then s
        else State.flowServe k n (s.frameRewrite g b c i f)
      | none =>
        if !s.flowFree k then s.startStarve k
        else
          let s1 := s.endStarve k
          match s1.flowGroup k with
          | some (g, b) =>
            (match s1.cb? g b with
             | some c =>
               let p := s1.slotPlace g c c.fcur
               if !s1.flowReady k then s1.slotSeek p.1 p.2.1 p.2.2 c.slotBytes
               else if f.tagFail then s1.frameWrite g b c f
               else State.flowServe k n (s1.frameWrite g b c f)
             | none => s1)
          | none => s1
/-- The flows bound to a buffer take its FREE slots. -/
def State.ingestServe (s : State) (g n : Nat) : State :=
  match s.cb? g n with
  | some c => (sortNat c.ingest).foldl (fun s k => State.flowServe k 17 s) s
  | none => s
/-- The flows bound to the buffers of a group take their FREE slots. -/
def State.groupIngest (s : State) (g : Nat) : State := (List.range 32).foldl (fun (s : State) n => s.ingestServe g n) s

/-- Bytes a port buffers. -/
def EthPort.bytes (e : EthPort) : Nat := (e.frames.map fun f => f.bytes.length).sum

/-- FRAME_RECEIVE: a frame is classified, and written, kept waiting, or dropped (R410 to R412). `fails` is 0 when its slot's lines pass the tag check;
bit n + 1 says that line n fails in the rewrite too. -/
def execFrameReceive (port : Nat) (bytes : List Byte) (fcsOk : Bool) (fails : Nat) (s : State) : Res :=
  if !fcsOk then .next (s.modEth port fun e => { e with fcsErrors := e.fcsErrors + 1 })
  else if 9216 < bytes.length then .next (s.modEth port fun e => { e with tooLong := e.tooLong + 1 })
  else
    match s.classifyFrame port bytes with
    | none => .next (s.modEth port fun e => { e with unmatched := e.unmatched + 1 })
    | some k =>
      let e := s.ethPort port
      if e.abandoned.contains k && !s.flowFree k then .next (s.flowCount k 2 1)
      else if 8388608 < e.bytes + bytes.length then .next (s.flowCount k 2 1)
      else
        .next (State.flowServe k 17 (s.modEth port fun e => { e with frames := e.frames ++
          [⟨k, bytes, s.time, fails != 0, (List.range 73).filter fun n => fails.testBit (n + 1), none⟩] }))

/-- PAUSE_START: a flow of the priority has starved for 2 µs and no pause is in force. -/
def execPauseStart (port pcp : Nat) (s : State) : Res :=
  let e := s.ethPort port
  if (tget? e.paused pcp).isNone && (s.starving port pcp).any fun k => tget 0 e.starve k + 2000 ≤ s.time then
    .next ((s.modEth port fun e => { e with paused := tput e.paused pcp s.time }).sendPause port pcp 0xFFFF (s.starving port pcp))
  else .next s
/-- PAUSE_REPEAT: 20 µs after the last pause frame. -/
def execPauseRepeat (port pcp : Nat) (s : State) : Res :=
  let e := s.ethPort port
  match tget? e.paused pcp with
  | some t =>
    if t + 20000 ≤ s.time && s.starving port pcp != [] then
      .next ((s.modEth port fun e => { e with paused := tput e.paused pcp s.time }).sendPause port pcp 0xFFFF (s.starving port pcp))
    else .next s
  | none => .next s
/-- PAUSE_ABANDON: after 1 ms the priority is paused no longer, and the waiting frames of the flows that starved so long are
dropped. -/
def execPauseAbandon (port pcp : Nat) (s : State) : Res :=
  let e := s.ethPort port
  let old := (s.starving port pcp).filter fun k => tget 0 e.starve k + 1000000 ≤ s.time
  if old = [] then .next s
  else
    let s1 := old.foldl (fun s k => s.flowCount k 2 (e.frames.filter fun f => f.flow = k).length) s
    let s2 := s1.modEth port fun e =>
      { e with frames := e.frames.filter fun f => !old.contains f.flow, abandoned := e.abandoned ++ old, paused := tdel e.paused pcp }
    .next (s2.sendPause port pcp 0 old)

/-! ## CBPUT (R254, R299) -/

def execCbput (n a : Nat) (s0 : State) : Res :=
  let s := s0.txGuard abEngine
  let g := s.w.group
  let i := bfld (s.rdS a) 0 4
  if s.emptied then .next s.finish
  else
    match s.cb? g n with
    | none => s.engTrap cAccess
    | some c =>
      if (c.slot i).state != .held then s.engTrap cAccess
      else
        let c1 := c.modSlot i fun y => { y with put := true, freedBy := some s.iss.key }
        .next ((s.setCb g n (c1.drain c1.order)).advance.ingestServe g n)

end Sys2Proof.Machine
end

