-- ==== Sys2Proof/Machine/Copy.lean ====
section
/-! DEFINITION. The copy engine: CPY and its line operations (R243 to R251, R254 to R257, R260, R291 to R294). -/

namespace Sys2Proof.Machine

/-! ## Issue -/

def engSize (z : Nat) : Nat := 4 * 2 ^ z

/-- R291: check 1 for registers, then nothing without an active lane, with the transactions of active threads aborted (R230). -/
def State.engLane (s0 : State) (p : Pre) (uses : List RUse) (body : State → W32 → Res) : Res :=
  let act0 := s0.act p
  if uses.any s0.w.regBad then .next (s0.trapAct act0 cIllreg 0)
  else if uses.any s0.w.regWaits then .next s0.waitIssue
  else
    let s := s0.txGuardAct act0 abEngine
    let act := act0 &&& s.iss.set
    if s.emptied then .next s.finish else if act = 0 then .next s.advance else body s act

/-- The first lane of an issue check that fails, with the detail of its trap. -/
def firstLane (act : W32) (bad : Nat → Option W64) : Option W64 := (lanesOf act).findSome? bad

/-- A span breaks backing or window rules for an engine (R247 step 4). -/
def State.engBad (s : State) (k : AKind) (e : Eff) (p : Span) : Bool :=
  (s.pieces k p.va p.n).any fun x => !s.agentMay false x.pa x.n e

/-- The lanes of a copy with their sources translated. -/
def State.copyLanes (s : State) (act : W32) (src dst : Nat → W64) (plain : Bool) : List CopyLane :=
  (lanesOf act).map fun t =>
    let a := s.tr .engRead (src t)
    let b := s.tr .engWrite (dst t)
    { lane := t, srcVa := (src t).toNat, src := a.1, srcSize := a.2.1, dstVa := if plain then (dst t).toNat else 0
      off := (dst t).toNat, dst := if plain then some b.1 else none, dstSize := if plain then b.2.1 else 12, data := none, written := false }

/-- A copy is enqueued and counted. -/
def State.enqueueCopy (s : State) (z tok : Nat) (dest : CopyTo) (lanes : List CopyLane) : State :=
  let op : CopyOp := ⟨(s.core s.coreNum).nextOp, s.coreNum / 48, z, tok, dest, lanes, none, false, none, false, 0⟩
  let s1 := s.modCore s.coreNum fun c => { c with nextOp := c.nextOp + 1 }
  s1.modW fun w =>
    { w with copyQ := w.copyQ ++ [op], qcopy := w.qcopy + 1, tokPend := vmod 0 w.tokPend tok (· + 1) }

/-- CPY in the plain form (R247, R294). -/
def execCpy (f : CpyF) (s0 : State) : Res :=
  let z := engSize f.z
  s0.engLane f.pre [(2 * f.s, 2), (2 * f.d, 2)] fun s act =>
    let src := s.w.rdV64 (2 * f.s)
    let dst := s.w.rdV64 (2 * f.d)
    let ss := (lanesOf act).map fun t => (⟨t, src t, z⟩ : Span)
    let ds := (lanesOf act).map fun t => (⟨t, dst t, z⟩ : Span)
    let pick := fun (t : Nat) (a b : Bool) => if a then some (src t) else if b then some (dst t) else none
    match firstLane act fun t => pick t (!(Span.canon ⟨t, src t, z⟩)) (!(Span.canon ⟨t, dst t, z⟩)) with
    | some v => .next (s.trapAct act cAccess v)
    | none =>
      match firstLane act fun t => pick t ((src t).toNat % z != 0) ((dst t).toNat % z != 0) with
      | some v => .next (s.trapAct act cAlign v)
      | none =>
        match s.checkPages .engRead none act ss true, s.checkPages .engWrite none act ds true with
        | some s', _ => .next s'
        | none, some s' => .next s'
        | none, none =>
          match firstLane act fun t => pick t (s.engBad .engRead .load ⟨t, src t, z⟩) (s.engBad .engWrite .store ⟨t, dst t, z⟩) with
          | some v => .next (s.trapAct act cAccess v)
          | none =>
            if 255 ≤ s.w.qcopy then .next s.waitIssue
            else
              let s1 := (s.touchPages .engRead ss).touchPages .engWrite ds
              .next (s1.enqueueCopy z f.tok .plain (s.copyLanes act src dst true)).advance

/-- CPY in the buffer form (R254, R294). -/
def execCpyBuf (f : CpyBufF) (s0 : State) : Res :=
  let z := engSize f.z
  s0.engLane f.pre [(2 * f.s, 2), (f.o, 1)] fun s act =>
    let src := s.w.rdV64 (2 * f.s)
    let off := fun t => (s.w.rdV f.o t).setWidth 64
    let ss := (lanesOf act).map fun t => (⟨t, src t, z⟩ : Span)
    let room := match s.cb? s.w.group f.cb with
      | some c => if c.ingest != [] then 0 else c.slotBytes
      | none => 0
    let pick := fun (t : Nat) (a b : Bool) => if a then some (src t) else if b then some (off t) else none
    match firstLane act fun t => pick t (!(Span.canon ⟨t, src t, z⟩)) false with
    | some v => .next (s.trapAct act cAccess v)
    | none =>
      match firstLane act fun t => pick t ((src t).toNat % z != 0) ((off t).toNat % z != 0) with
      | some v => .next (s.trapAct act cAlign v)
      | none =>
        match s.checkPages .engRead none act ss true with
        | some s' => .next s'
        | none =>
          match firstLane act fun t => pick t (s.engBad .engRead .load ⟨t, src t, z⟩) (room < (off t).toNat + z) with
          | some v => .next (s.trapAct act cAccess v)
          | none =>
            if 255 ≤ s.w.qcopy then .next s.waitIssue
            else
              let s1 := (s.touchPages .engRead ss).enqueueCopy z f.tok (.buf f.cb f.fin f.refill) (s.copyLanes act src off false)
              .next (s1.advance.noteWaits s.w.group)

/-! ## Engines at work -/

/-- The next slot in turn after the one served last that has work (R245). -/
def inTurn (last : Nat) (ready : Nat → Bool) : Option Nat := ((List.range 64).map fun i => (last + 1 + i) % 64).find? ready

/-- An engine's accesses are made for its warp at the L2 of its die. -/
def engBy (w : Nat) : By := ⟨.thread w 33, some (warpCore w / 48), none⟩

/-- How an engine's own translation ends (R260, R263, R335). -/
inductive EngTr where
  | ok (pa size : Nat) (nc : Bool)
  | error
  | wait (s : State)
  | kill
  deriving DecidableEq, Repr

/-- A translation an engine makes itself. A fault writes an entry of the engine's kind and waits for service. -/
def State.engTranslate (s : State) (w : Nat) (k : AKind) (va : W64) (eff : Eff) (n : Nat) (wt : Option EngWait) : EngTr :=
  let ctx := (s.gridOf w).ctx
  match s.walk (warpCore w / 48) ctx va k with
  | .ok pa size nc => if s.agentMay false pa n eff then .ok pa size nc else .error
  | .malformed => .error
  | .poison => .kill
  | .miss size perm =>
    if wt = some (.replayed true) || !s.hasQueue then .error
    else .wait (s.faultEntry ⟨va, ctx, warpCore w, warpSlot w, k.code, size, 1 + b2n perm * 2 + b2n (s.warp w).handler * 8, 0⟩)

/-- Change an operation of a queue. -/
def Warp.modCopyAt (w : Warp) (seq : Nat) (f : CopyOp → CopyOp) : Warp := { w with copyQ := w.copyQ.map fun x => if x.seq = seq then f x else x }
/-- Change the operation of a queue that is not complete yet. -/
def Warp.modCopy (w : Warp) (f : CopyOp → CopyOp) : Warp :=
  match w.copyHead with
  | some o => w.modCopyAt o.seq f
  | none => w

/-- The lane numbers of a line operation: a read of one source line, or a write of one destination line. -/
def CopyOp.readLanes (o : CopyOp) : List CopyLane :=
  match o.lanes.find? fun l => l.data.isNone && !l.written with
  | some l => o.lanes.filter fun x => x.data.isNone && !x.written && x.src / 128 = l.src / 128
  | none => []
def CopyLane.to (l : CopyLane) : Nat := l.dst.getD 0
def CopyOp.writeLanes (o : CopyOp) : List CopyLane :=
  match o.lanes.find? fun l => !l.written with
  | some l => o.lanes.filter fun x => !x.written && x.to / 128 = l.to / 128
  | none => []

/-- A line write can be made now: no store at the target core and no earlier one of the warp to its bytes stands before it, and its line is at hand. A mailbox store waits at its target, as one of
the warp's own (R248). -/
def State.lineFits (s : State) (w seq : Nat) (l : CopyLane) (n : Nat) : Bool :=
  !s.ownWaits w seq l.to n &&
  match s.place l.to with
  | .device | .far _ => !s.lockBlocks (.thread w 33) true l.to n
  | .mail c o => !(0x3000 ≤ o % 0x4000 && (s.core c).senderWaits (.warp w))
  | _ => !s.storeWaits (engBy w).agent.sender l.to n
/-- The slot of a buffer-form copy must not be written yet (R207). -/
def State.copyHeldBack (s : State) (w : Nat) (o : CopyOp) : Bool :=
  match o.dest, o.claimed with
  | .buf cb _ _, some i => (match s.cb? (s.warp w).group cb with | some c => s.slotHeldBack c i | none => false)
  | _, _ => false
/-- A store of the operation waits for room at its mailbox (R248), or has not been acknowledged by another module. -/
def State.copyMailWaits (s : State) (w : Nat) (o : CopyOp) : Bool :=
  s.senderWaits (engBy w).agent.sender || o.lanes.any fun l =>
    match s.place l.to with
    | .mail c off => (s.core c).mbWait.any fun p => p.sender = .warp w && p.slot = mailSlot off && p.mb = mailNum off
    | _ => false

/-- Where a lane of a buffer-form copy lies: a scratchpad address, or one to translate (R254, R256, R260). -/
def State.bufferVa (s : State) (w cb slot o : Nat) : Bool × Nat :=
  let g := s.groupOf w
  match s.cb? (s.warp w).group cb with
  | some c =>
    let a := c.base.toNat + slot * c.slotBytes + c.place o
    if c.dev then (true, a) else (false, windowBase s.pkg g.core + g.soff + a)
  | none => (false, 0)

/-- A table entry that the translation of a destination needs is not at hand. -/
def State.placeAway (s : State) (w : Nat) (o : CopyOp) : Option Nat :=
  match o.dest, o.claimed with
  | .buf cb _ _, some i =>
    o.lanes.findSome? fun l =>
      let a := s.bufferVa w cb i l.off
      if l.dst.isSome || l.written || !a.1 then none else s.walkAway (.thread w 33) (s.gridOf w).ctx (BitVec.ofNat 64 a.2) .engWrite
  | _, _ => none
/-- Line operations of the copy have begun (R265). -/
def CopyOp.begun (o : CopyOp) : Bool := o.lanes.any fun l => l.data.isSome || l.written
/-- The head of a warp's copy queue can make its next line operation (R245, R255, R260). -/
def State.copyReady (s : State) (w : Nat) : Bool :=
  s.live w &&
  match (s.warp w).copyHead with
  | none => false
  | some o =>
    o.wait != some .waiting && (o.begun || !s.stopping (s.warp w).group) &&
    (match o.wants with
     | some (cb, fin, refill) =>
       s.copyTurn (s.warp w).group cb o.seq refill &&
       (refill || (match s.cb? (s.warp w).group cb with | some c => (c.reach fin).isSome | none => true))
     | none =>
       match o.readLanes with
       | l :: r => !(l :: r).any (fun x => s.lockBlocks (.thread w 33) false x.src o.z) && !(l :: r).any fun x => s.ownWaits w o.seq x.src o.z
       | [] => match o.writeLanes with
         | _ :: _ => (s.placeAway w o).isNone && !s.copyHeldBack w o && (o.writeLanes.all fun x => s.lineFits w o.seq x o.z)
         | [] => !s.copyMailWaits w o)

/-- The lanes of a copy without a physical destination get one, in ascending order, when the copy claims or joins its slot; a fault stops the copy, and
a line that cannot be translated is not written (R260). -/
def State.copyPlace (s : State) (w seq : Nat) : List CopyLane → State
  | [] => s
  | l :: r =>
    match (s.warp w).copyQ.find? fun o => o.seq = seq with
    | none => s
    | some o =>
      let set := fun (s : State) (which : CopyLane → Bool) (f : CopyLane → CopyLane) (e : Bool) =>
        s.modWarp w (·.modCopyAt seq fun o => { o with
          lanes := o.lanes.map fun x => if which x then f x else x, err := o.err || e, wait := none })
      match (o.lanes.find? fun x => x.lane = l.lane && x.dst.isNone && !x.written), o.dest, o.claimed with
      | some _, .buf cb _ _, some i =>
        let at_ := fun x : CopyLane => (s.bufferVa w cb i x.off).2
        if (s.bufferVa w cb i l.off).1 then
          let s := s.touchWalk (warpCore w / 48) (s.gridOf w).ctx (BitVec.ofNat 64 (at_ l)) .engWrite
          match s.engTranslate w .engWrite (BitVec.ofNat 64 (at_ l)) .store o.z o.wait with
          | .ok pa size _ => (set s (·.lane = l.lane) (fun x => { x with dst := some pa, dstVa := at_ l, dstSize := size }) false).copyPlace w seq r
          | .error => (set s (fun x => x.dst.isNone && at_ x / 128 = at_ l / 128) (fun x => { x with written := true }) true).copyPlace w seq r
          | .wait s' => s'.modWarp w (·.modCopyAt seq fun o => { o with wait := some .waiting })
          | .kill => s.killBy w 1 (BitVec.ofNat 64 l.srcVa) 0
        else (set s (·.lane = l.lane) (fun x => { x with dst := some (at_ l) }) false).copyPlace w seq r
      | _, _, _ => s.copyPlace w seq r
/-- Every lane of a copy that has no destination yet is placed. -/
def State.copyPlaced (s : State) (w seq : Nat) : State :=
  match (s.warp w).copyQ.find? fun o => o.seq = seq with
  | some o => if o.claimed.isNone || (s.placeAway w o).isSome then s else s.copyPlace w seq (o.lanes.filter fun l => l.dst.isNone && !l.written)
  | none => s

/-- The copies of a warp's queue reach their buffers in order, until one finds no FREE slot or is a REFILL (R254, R255). -/
def State.copyClaims (w : Nat) : Nat → State → State
  | 0, s => s
  | n + 1, s =>
    let g := (s.warp w).group
    match (s.warp w).copyNext with
    | some o =>
      (match o.wants with
       | some (cb, fin, false) =>
         if s.copyTurn g cb o.seq false then
           (match (s.cb? g cb).bind fun c => c.reach fin with
            | some (i, c) =>
              State.copyClaims w n (((s.setCb g cb c).modWarp w (·.modCopyAt o.seq fun o => { o with claimed := some i })).copyPlaced w o.seq)
            | none => s)
         else s
       | _ => s)
    | none => s
/-- A REFILL copy at the head reaches its buffer: it claims or joins a slot. Without a FAULTED slot it completes with error status (R257). -/
def State.copyRefill (s : State) (w cb : Nat) (fin : Bool) : State :=
  let g := (s.warp w).group
  let seq := ((s.warp w).copyHead.map (·.seq)).getD 0
  match (s.cb? g cb).bind fun c => c.reachRefill fin with
  | some (i, c) => ((s.setCb g cb c).modWarp w (·.modCopyAt seq fun o => { o with claimed := some i })).copyPlaced w seq
  | none => s.modWarp w (·.modCopy fun o => { o with err := true, fin := true })

/-- One source line is read: a byte's poison goes with it (R251). -/
def State.copyRead (s : State) (w : Nat) (ls : List CopyLane) : State :=
  ls.foldl (fun s l =>
    let z := ((s.warp w).copyHead.map (·.z)).getD 4
    let x := s.readAt (engBy w) l.srcSize false l.src z
    let v := x.1.withHeld w
    let bs := v.bytesAt l.src z
    let ps := (List.range z).filter fun i => v.poisoned (l.src + i)
    x.1.modWarp w (·.modCopy fun o => { o with
      lanes := o.lanes.map fun y => if y.lane = l.lane then { y with data := some (bs, ps) } else y })) s

/-- The bytes of one destination line, the highest lane's on top: address, byte and whether it carries poison. -/
def lineBytes (ls : List CopyLane) : Tab (Byte × Bool) :=
  ls.foldl (fun t l =>
    match l.data with
    | some (bs, ps) => (List.range bs.length).foldl (fun t i => tput t (l.to + i) (bs.getD i 0, ps.contains i)) t
    | none => t) []
/-- Consecutive bytes gathered into runs: the first address, the bytes, and the offsets of the poisoned ones. -/
def runsOf : Tab (Byte × Bool) → List (Nat × List Byte × List Nat)
  | [] => []
  | (a, b, p) :: r =>
    match runsOf r with
    | (a', bs, ps) :: q =>
      let up := ps.map (· + 1)
      if a' = a + 1 then (a, b :: bs, if p then 0 :: up else up) :: q
      else (a, [b], if p then [0] else []) :: (a', bs, ps) :: q
    | [] => [(a, [b], if p then [0] else [])]

/-- A place that cannot hold poison (R251, R341). -/
def State.takesPoison (s : State) (pa : Nat) : Bool :=
  match s.place pa with
  | .device | .scratch _ _ => true
  | .far o => o < 0xC0000
  | _ => false

/-- An engine's write of a run, with the poison its bytes carry. -/
def State.engPut (s : State) (w size pa : Nat) (bs : List Byte) (ps : List Nat) : State :=
  let s1 := s.writeAt (engBy w) size false pa bs none ps
  if s.distant (engBy w).agent pa then s1 else s1.setPoison (dedup (ps.map fun o => poisonUnit (pa + o)))

/-- The lanes of an operation that go to the same mailbox as a line. -/
def CopyOp.sameBox (o : CopyOp) (pa : Nat) : List CopyLane := o.lanes.filter fun l => sameMail pa l.to
/-- A line written to a mailbox: a store of the warp, which closes the packet with the operation's last line there (R182, R248). In discard bytes
a line discards one packet (DESIGN CHOICE, log entry 64). -/
def State.copyMail (s : State) (w : Nat) (o : CopyOp) (runs : List (Nat × List Byte × List Nat)) (last : Bool) : State :=
  match runs with
  | [] => s
  | (pa, _, _) :: _ =>
    match s.place pa with
    | .mail c off =>
      if 0x3000 ≤ off % 0x4000 then s.mailDiscard c (mailKey off)
      else
        let closes := last && (o.sameBox pa).any fun l => mailClose (l.to % 2 ^ 26 - 0x400000)
        let writes := runs.flatMap fun r => (List.range r.2.1.length).map fun i => (r.1 % 0x1000 + i, r.2.1.getD i 0)
        s.mailStore c (.warp w) (mailSlot off) (mailNum off) writes closes none
    | _ => s

/-- Every byte of a lane's data carries poison. -/
def CopyLane.spoiled (l : CopyLane) : CopyLane := { l with data := l.data.map fun d => (d.1, List.range d.1.length) }
/-- One destination line is written. A mismatch of its tag poisons the sectors and scratchpad words it wrote (R250). A line of a
paired copy that leaves it stays in the operation until its retirement (R355). -/
def State.copyWrite (s : State) (w : Nat) (o : CopyOp) (ls : List CopyLane) (tagFail : Bool) : State :=
  let bytes := lineBytes ls
  let runs := runsOf bytes
  let pa := (runs.headD (0, [], [])).1
  let size := (ls.head?.map (·.dstSize)).getD 12
  let names := ls.map (·.lane)
  let done := fun s : State => s.modWarp w (·.modCopy fun o => { o with
    err := o.err || tagFail, lanes := o.lanes.map fun y => if names.contains y.lane then { y with written := true } else y })
  if !s.takesPoison pa && bytes.any (fun b => b.2.2) then
    s.killBy w 1 (BitVec.ofNat 64 ((ls.head?.map (·.srcVa)).getD 0)) 0
  else if s.holdsWrite w pa then
    let spoil := fun y : CopyLane => if names.contains y.lane then y.spoiled else y
    done (if tagFail && s.takesPoison pa then s.modWarp w (·.modCopy fun o => { o with lanes := o.lanes.map spoil }) else s)
  else
    match s.place pa with
    | .mail _ _ => done (s.copyMail w o runs ((o.sameBox pa).all fun l => l.written || names.contains l.lane))
    | _ =>
      let s1 := runs.foldl (fun s r => s.engPut w size r.1 r.2.1 r.2.2) s
      done (if tagFail && s1.takesPoison pa then s1.setPoison (runs.flatMap fun r => unitsOf r.1 r.2.1.length) else s1)

/-- A slot learns that one of its copies has completed. -/
def State.slotDone (s : State) (g : Nat) (o : CopyOp) : State :=
  match o.dest, o.claimed with
  | .buf cb _ _, some i => (s.modCb g cb (·.copyDone i o.err)).cbServe g cb
  | _, _ => s

/-- Some line of the operation is held for the twin. -/
def State.copyHolds (s : State) (w : Nat) (o : CopyOp) : Bool := o.lanes.any fun l => l.dst.isSome && s.holdsWrite w l.to

/-- The head is complete when its last line is written and none of its stores waits. -/
def State.copyEnd (s : State) (w : Nat) : State :=
  let g := (s.warp w).group
  match (s.warp w).copyHead with
  | some o =>
    if o.lanes.all (·.written) && !s.copyMailWaits w o then
      let s1 := s.modWarp w (·.modCopy fun o => { o with fin := true })
      if s1.copyHolds w o then s1 else s1.slotDone g o
    else s
  | none => s

/-- One line operation of a head that has its slot: it reads its source lines, then writes its lines. -/
def State.copyLine (s : State) (w : Nat) (tagFail : Bool) : State :=
  let s1 := s.copyPlaced w (((s.warp w).copyHead.map (·.seq)).getD 0)
  match (tget? s1.warps w).bind Warp.copyHead with
  | none => s1
  | some o =>
    if o.wait = some .waiting || (s1.placeAway w o).isSome then s1
    else
      match o.readLanes, o.writeLanes with
      | [], [] => s1.copyEnd w
      | [], ls =>
        if s1.copyHeldBack w o then s1
        else
          let s2 := s1.copyWrite w o ls tagFail
          if (tget? s2.warps w).isSome then s2.copyEnd w else s2
      | ls, _ => s1.copyRead w ls

/-- One line operation of a warp's queue, or, when its head needs a slot, the claim of it; the copies of the queue that can reach their buffers do so
first (R245, R254). -/
def State.copyStep (s : State) (w : Nat) (tagFail : Bool) : State :=
  let g := (s.warp w).group
  let s1 := match (s.warp w).copyHead.bind CopyOp.wants with
    | some (cb, fin, true) => s.copyRefill w cb fin
    | _ => s.copyClaims w (s.warp w).copyQ.length
  let stays := (s.warp w).copyHead.map (·.seq) = (s1.warp w).copyHead.map (·.seq) && ((s.warp w).copyHead.bind CopyOp.wants).isNone
  State.noteWaits (if stays then s1.copyLine w tagFail else s1) g

/-- The head of a warp's copy queue asks for the lines that it waits for. -/
def State.copySeek (s : State) (w : Nat) : State :=
  match (s.warp w).copyHead with
  | none => s
  | some o =>
    let who : Agent := .thread w 33
    match s.placeAway w o, o.wants.isNone && s.live w, o.readLanes with
    | some a, _, _ => s.seek who false a 8
    | none, true, [] => o.writeLanes.foldl (fun (s : State) l => if s.ownWaits w o.seq l.to o.z then s else s.seek who true l.to o.z) s
    | none, true, ls => ls.foldl (fun (s : State) l => if s.ownWaits w o.seq l.src o.z then s else s.seek who false l.src o.z) s
    | none, false, _ => s
/-- COPY_LINE: the copy engine makes one line operation of a warp's queue, when that queue is next in turn. -/
def execCopyLine (w : Nat) (tagFail : Bool) (s : State) : Res :=
  let c := warpCore w
  if inTurn (s.core c).copyRR (fun i => s.copyReady (c * 64 + i)) = some (warpSlot w) then
    .next ((s.modCore c fun x => { x with copyRR := warpSlot w }).copyStep w tagFail)
  else .next (s.copySeek w)

end Sys2Proof.Machine
end

