-- ==== Sys2Proof/Machine/Gather.lean ====
section
/-! DEFINITION. The gather engine: GSTR, GATH and their elements (R243 to R246, R251, R261 to R264, R295, R296). -/

namespace Sys2Proof.Machine

/-! ## Issue -/

/-- A gather is numbered, enqueued and counted. -/
def State.enqueueGath (s : State) (op : GathOp) : State :=
  let op := { op with seq := (s.core s.coreNum).nextOp, die := s.coreNum / 48 }
  (s.modCore s.coreNum fun c => { c with nextOp := c.nextOp + 1 }).modW fun w =>
    { w with gathQ := w.gathQ ++ [op], qgath := w.qgath + 1, tokPend := vmod 0 w.tokPend op.tok (· + 1) }

/-- GSTR (R261, R296). -/
def execGstr (z tok a b : Nat) (s0 : State) : Res :=
  let s := s0.txGuard abEngine
  let zb := engSize z
  let base := s.rdS a
  let d := s.rdS b
  let io := bfld d 0 20
  let dof := bfld d 20 20
  let n := bfld d 40 20
  if s.emptied then .next s.finish
  else if io % 4 != 0 || dof % zb != 0 || base.toNat % zb != 0 then s.engTrap cAlign
  else if s.g.slen < io + 4 * n || s.g.slen < dof + n * zb then s.engTrap cAccess
  else if 255 ≤ s.w.qgath then .next s.waitIssue
  else .next (s.enqueueGath ⟨0, 0, zb, tok, base, io, dof, n, none, 0, 0, false, none, n = 0, []⟩).advance

/-- GATH (R262, R295). -/
def execGath (f : GathF) (s0 : State) : Res :=
  let z := engSize f.z
  s0.engLane f.pre [(2 * f.base, 2), (f.idx, 1), (f.o, 1)] fun s act =>
    let first := (lanesOf act).headD 0
    let base := s.w.rdV64 (2 * f.base) first
    let dof := (s.w.rdV f.o first).toNat
    let src := fun t => base + w64 (sext 32 (s.w.rdV f.idx t).toNat * z)
    let off := fun t => dof + t * z
    let pick := fun (t : Nat) (a b : Bool) => if a then some (src t) else if b then some (BitVec.ofNat 64 (off t)) else none
    let ss := (lanesOf act).map fun t => (⟨t, src t, z⟩ : Span)
    match firstLane act fun t => pick t (!(Span.canon ⟨t, src t, z⟩)) false with
    | some v => .next (s.trapAct act cAccess v)
    | none =>
      match firstLane act fun t => pick t ((src t).toNat % z != 0) (off t % z != 0) with
      | some v => .next (s.trapAct act cAlign v)
      | none =>
        match s.checkPages .engRead none act ss true with
        | some s' => .next s'
        | none =>
          match firstLane act fun t => pick t (s.engBad .engRead .load ⟨t, src t, z⟩) (s.g.slen < off t + z) with
          | some v => .next (s.trapAct act cAccess v)
          | none =>
            if 255 ≤ s.w.qgath then .next s.waitIssue
            else
              let lanes := (lanesOf act).map fun t => (t, (s.tr .engRead (src t)).1, (s.tr .engRead (src t)).2.1)
              .next ((s.touchPages .engRead ss).enqueueGath ⟨0, 0, z, f.tok, base, 0, dof, lanes.length, some lanes, 0, 0, false, none, false, []⟩).advance

/-! ## Elements -/

/-- The oldest gather that is not complete. -/
def Warp.gathHead (w : Warp) : Option GathOp := w.gathQ.find? fun o => !o.fin
/-- Change the oldest gather that is not complete. -/
def modGath (f : GathOp → GathOp) : List GathOp → List GathOp
  | [] => []
  | o :: r => if o.fin then o :: modGath f r else f o :: r
def State.modGathHead (s : State) (w : Nat) (f : GathOp → GathOp) : State := s.modWarp w fun x => { x with gathQ := modGath f x.gathQ }

/-- The next element is finished: written, or left out with error status. -/
def GathOp.step (o : GathOp) (written : Bool) : GathOp :=
  { o with next := o.next + 1, done := if written && o.done = o.next then o.next + 1 else o.done
           err := o.err || !written, wait := none, fin := o.next + 1 = o.n }

/-- What element e of a gather reads and where it goes: the source, and whether its index carries poison. -/
inductive GathSrc where
  | pa (pa size : Nat)
  | va (a : W64)
  | poisoned
  deriving DecidableEq, Repr
/-- The scratchpad base of a group. -/
def State.spad (s : State) (g : Group) : Nat := windowBase s.pkg g.core + g.soff
/-- The source of an element, and the physical address of its destination. -/
def State.gathAt (s : State) (w : Nat) (o : GathOp) (e : Nat) : GathSrc × Nat :=
  let b := s.spad (s.groupOf w)
  match o.lanes with
  | some ls =>
    let l := ls.getD e (0, 0, 12)
    (.pa l.2.1 l.2.2, b + o.dof + l.1 * o.z)
  | none =>
    let i := b + o.io + 4 * e
    (if s.poisonedIn i 4 then .poisoned else .va (o.base + w64 (sext 32 (s.getNat i 4) * o.z)), b + o.dof + e * o.z)
/-- The source of the next element. -/
def State.gathNext (s : State) (w : Nat) (o : GathOp) : GathSrc × Nat := s.gathAt w o o.next

/-- The elements of the next one's 32 that lie in its line, with their distances from it; the 32 are an aligned block of the elements (R261; DESIGN
CHOICE, log entry 65). -/
def State.gathLine (s : State) (w : Nat) (o : GathOp) (pa : Nat) : List (Nat × Nat) :=
  (rangeFrom o.next (min o.n (o.next / 32 * 32 + 32) - o.next)).filterMap fun e =>
    match (s.gathNext w o).1, (s.gathAt w o e).1 with
    | .pa _ _, .pa q _ => if q / 128 = pa / 128 then some (e, q) else none
    | .va a, .va b =>
      if a.toNat / 128 = b.toNat / 128 then some (e, pa / 128 * 128 + b.toNat % 128) else none
    | _, _ => none
/-- The line of the next element is read once, for every element of its 32 that lies in it (R261); what other lines have brought for later elements
stays. -/
def State.gathFetch (s : State) (w : Nat) (o : GathOp) (pa size : Nat) : State :=
  let es := s.gathLine w o pa
  let x := es.foldl (fun (s : State) e => s.reach (engBy w) false size false e.2 o.z) s
  let v := x.withHeld w
  let got := es.foldl (fun (t : Tab (List Byte × List Nat)) e =>
    tput t e.1 (v.bytesAt e.2 o.z, (List.range o.z).filter fun i => v.poisoned (e.2 + i))) (o.got.filter fun x => o.next < x.1)
  x.modGathHead w fun o => { o with got := got }
/-- The bytes of the next element go to the destination, poison with them (R251). -/
def State.gathMove (s : State) (w : Nat) (o : GathOp) (pa size dst : Nat) : State :=
  let s1 := if (tget? o.got o.next).isSome then s else s.gathFetch w o pa size
  let x := tget ([], []) (((s1.warp w).gathHead.map (·.got)).getD []) o.next
  s1.engPut w 12 dst x.1 x.2

/-- One element of the head. -/
def State.gathStep (s : State) (w : Nat) : State :=
  match (s.warp w).gathHead with
  | none => s
  | some o =>
    let x := s.gathNext w o
    match x.1 with
    | .pa pa size => (s.gathMove w o pa size x.2).modGathHead w (·.step true)
    | .poisoned => (s.setPoison (unitsOf x.2 o.z)).modGathHead w (·.step true)
    | .va a =>
      if !(Span.canon ⟨0, a, o.z⟩) then s.modGathHead w (·.step false)
      else
        let s := s.touchWalk (warpCore w / 48) (s.gridOf w).ctx a .engRead
        match s.engTranslate w .engRead a .load o.z o.wait with
        | .ok pa size _ => (s.gathMove w o pa size x.2).modGathHead w (·.step true)
        | .error => s.modGathHead w (·.step false)
        | .wait s' => s'.modGathHead w fun o => { o with wait := some .waiting }
        | .kill => s.killBy w 1 a 0

/-- Bytes that an element reads can be read: no line of theirs is held back, and no earlier store of the warp to them waits (R206). -/
def State.gathFree (s : State) (w : Nat) (o : GathOp) (pa n : Nat) : Bool :=
  !s.lockBlocks (.thread w 33) false pa n && !s.ownWaits w o.seq pa n
/-- The head of a warp's gather queue can make its next access. -/
def State.gathReady (s : State) (w : Nat) : Bool :=
  s.live w && !s.stopping (s.warp w).group &&
  match (s.warp w).gathHead with
  | none => false
  | some o =>
    o.wait != some .waiting &&
    !s.ownWaits w o.seq (s.gathNext w o).2 o.z && (o.lanes.isSome || !s.ownWaits w o.seq (s.spad (s.groupOf w) + o.io + 4 * o.next) 4) &&
    ((tget? o.got o.next).isSome ||
     match (s.gathNext w o).1 with
     | .pa pa _ => s.gathFree w o pa o.z
     | .poisoned => true
     | .va a =>
       (s.walkAway (.thread w 33) (s.gridOf w).ctx a .engRead).isNone &&
       match (s.walk (warpCore w / 48) (s.gridOf w).ctx a .engRead).pa with
       | some pa => s.gathFree w o pa o.z
       | none => true)

/-- The head of a warp's gather queue asks for the line that it waits for. -/
def State.gathSeek (s : State) (w : Nat) : State :=
  let who : Agent := .thread w 33
  match (s.warp w).gathHead with
  | none => s
  | some o =>
    let ask := fun (pa : Nat) => if s.ownWaits w o.seq pa o.z then s else s.seek who false pa o.z
    match (s.gathNext w o).1 with
    | .pa pa _ => ask pa
    | .poisoned => s
    | .va a =>
      match s.walkAway who (s.gridOf w).ctx a .engRead, (s.walk (warpCore w / 48) (s.gridOf w).ctx a .engRead).pa with
      | some ea, _ => s.seek who false ea 8
      | none, some pa => ask pa
      | none, none => s
/-- GATHER_ELEMENT: the gather engine makes one element of a warp's queue, when that queue is next in turn. -/
def execGatherElement (w : Nat) (s : State) : Res :=
  let c := warpCore w
  if inTurn (s.core c).gathRR (fun i => s.gathReady (c * 64 + i)) = some (warpSlot w) then
    .next ((s.modCore c fun x => { x with gathRR := warpSlot w }).gathStep w)
  else .next (s.gathSeek w)

end Sys2Proof.Machine
end

