-- ==== Sys2Proof/Machine/Choose.lean ====
section
/-! DEFINITION. What a warp issues next (R93), the undoing of waits (R338), and the taking of an MCHECK (R283, R317). -/

namespace Sys2Proof.Machine

/-! ## The choice (R93) -/

/-- E of R93: the eligible threads; in handler mode only those of H stand unfrozen (R317). -/
def Warp.eligibleSet (w : Warp) : W32 := w.threadsWith fun t => t.status = .eligible && !t.frozen
/-- The lowest PC of threads in a set. -/
def Warp.lowestPc (w : Warp) (ts : List Nat) : W64 := BitVec.ofNat 64 ((minOf (ts.map fun t => (w.thread t).pc.toNat)).getD 0)
/-- The chosen PC, when a thread is eligible. -/
def Warp.chosenPc (w : Warp) : Option W64 :=
  let e := lanesOf w.eligibleSet
  let tired := e.filter fun t => 256 ≤ (w.thread t).wait
  if e = [] then none
  else if tired = [] then some (w.lowestPc e)
  else
    let top := maxOf (tired.map fun t => (w.thread t).wait)
    some (w.lowestPc (tired.filter fun t => (w.thread t).wait = top))
/-- The issue set at a PC. -/
def Warp.setAt (w : Warp) (pc : W64) : W32 := maskOf fun t => w.eligibleSet.getLsbD t && (w.thread t).pc = pc

/-- The issue begins: what was begun before, with the threads that still stand there, or what R93 chooses; a REP at the address of $rprog goes on
with that issue (R42). -/
def Warp.begins (w : Warp) : Option (W32 × W32 × W64 × Nat × List Nat) :=
  let fresh := w.chosenPc.map fun pc =>
    (w.setAt pc, w.eligibleSet, pc, (if !w.handler && w.rprogPc = pc then w.rprog else 0), ([] : List Nat))
  match w.kept with
  | some c =>
    let set := c.set &&& w.setAt c.pc
    if set = 0 then fresh else some (set, c.elig &&& ~~~(c.set &&& ~~~set), c.pc, c.idx, c.words)
  | none => fresh

/-! ## Undoing waits (R338) -/

/-- A wait that a context save undoes: the instruction executes again. -/
def Hold.undone : Hold → Bool
  | .wany _ | .take | .waitq _ _ | .waitk _ _ | .cbget _ _ | .txSlot _ | .lock => true
  | _ => false
/-- The waiting instructions of a warp that R338 undoes: their threads become eligible at the instruction, and leave the queues they
stood in. -/
def State.undoWaits (s : State) (k : Nat) : State :=
  let w := s.warp k
  let gone := w.parks.filter fun p => p.hold.undone
  let set := gone.foldl (fun (m : W32) p => m ||| p.set) 0
  let w' := { (w.modThreads set fun t => { t with status := .eligible }) with parks := w.parks.filter fun p => !p.hold.undone }
  let s1 := (s.setWarp k w').modGroup w.group fun g =>
    { g with
      takeQ := g.takeQ.filter fun q => q.1 != k
      cbs := vtab 32 fun n => (vget none g.cbs n).map fun c => { c with waiters := c.waiters.filter fun q => q.1 != k } }
  { s1 with slotQueue := s1.slotQueue.filter fun q => q.1 != k, lockQueue := s1.lockQueue.filter fun q => q.warp != k }

/-! ## MCHECK (R283, R317) -/

/-- The oldest MCHECK of a warp is taken, if it can be: not in handler mode, and some thread is or can become eligible. The handler takes over what
would issue next. A set whose threads are all in ordinary transactions does not trap: they abort with FAULT, and the MCHECK stays pending; other
ordinary transactions of the set end (R238; log entry 49). While an instruction waits for translation service the trap waits for it to issue or
trap (R335; DESIGN CHOICE, log entry 67). -/
def State.mcheck (s : State) (k : Nat) : Option State :=
  let w := s.warp k
  match w.mchecks with
  | [] => none
  | m :: r =>
    if w.handler || w.service.isSome then none
    else
      let s1 := if w.begins.isNone then s.undoWaits k else s
      match (s1.warp k).begins with
      | none => none
      | some (h, _, p, i, _) =>
        let ord := (s1.warp k).inTx h
        if ord = h && h != 0 then some (s1.abortSet k h abFault cMcheck)
        else
          let s2 := (s1.endTx k ord).modWarp k fun w => { w with mchecks := r, mfault := m.mfault, rprog := i, rprogPc := p }
          some (s2.takeTrap k h h p cMcheck 0)

/-- MCHECK_TAKE. -/
def execMcheckTake (w : Nat) (s : State) : Res := .next (if s.live w then (s.mcheck w).getD s else s)

end Sys2Proof.Machine
end

