-- ==== Sys2Proof/Machine/Matrix.lean ====
section
/-! DEFINITION. The matrix instructions at issue: tiles, banks, shapes, and the operations they enqueue (R266 to R277, R291, R292, R302
to R312). -/

namespace Sys2Proof.Machine

/-! ## Tiles and shapes (R175, R292) -/

def shRows (v : W32) : Nat := bfld (v.setWidth 64) 4 8 + 1
def shRb (v : W32) : Nat := (bfld (v.setWidth 64) 12 3 + 1) * 16
def shFmt (v : W32) : Nat := bfld (v.setWidth 64) 0 4
def shSwe (v : W32) : Bool := v.getLsbD 21
def shSwf (v : W32) : Nat := bfld (v.setWidth 64) 18 3
def shSwc (v : W32) : Nat := 16 * 2 ^ bfld (v.setWidth 64) 16 2

/-- The physical tile that a group's tile number names. -/
def Group.tile (g : Group) (n : Nat) : Option Nat := (bitsOf (g.tilem.setWidth 64))[n]?
def State.shape (s : State) (core t : Nat) : W32 := vget shapeReset (s.core core).shapes t
def tileAddr (pkg core t : Nat) : Nat := windowBase pkg core + 0x200000 + t * 0x8000
def bankAddr (pkg core k : Nat) : Nat := windowBase pkg core + 0x100000 + k * 0x4000

/-- The accumulation classes of R271: operands of one class go together. -/
def fmtClass (f : Nat) : Option Nat :=
  if f = 0 then some 0 else if f = 1 then some 1 else if f ≤ 3 then some 2 else if f = 4 then some 4
  else if f ≤ 6 then some 5 else if f ≤ 8 then some 7 else if f ≤ 10 then some f else none
def fmtInt (f : Nat) : Bool := 5 ≤ f
def fmtComplex (f : Nat) : Bool := f = 9 || f = 10
/-- The bits of an element. -/
def fmtBits (f : Nat) : Nat :=
  if f ≤ 1 || f = 9 then 16 else if f = 4 || f = 7 || f = 8 then 4 else 8
/-- The $mtol indices of two operands (R271, R278). -/
def fmtMask (a b : Nat) : Nat :=
  let one := fun f => if f ≤ 4 then 2 ^ f else 2 ^ 5
  one a ||| one b

/-! ## The issue (R243, R268, R291) -/

/-- A matrix instruction that acts on no tile or band that is not there goes on; the guard of R230 first. -/
def State.engUni (s0 : State) (body : State → Res) : Res :=
  let s := s0.txGuard abEngine
  if s.emptied then .next s.finish else body s

/-- A tile the group holds, or ILLREG. -/
def State.withTile (s : State) (n : Nat) (body : Nat → Res) : Res :=
  match s.g.tile n with
  | some t => body t
  | none => s.engTrap cIllreg

/-- An earlier MGIVE of the group has not been performed (R277). -/
def Group.giving (g : Group) : Bool := g.matQ.any fun o => !o.fin && (match o.kind with | .mgive _ _ _ => true | _ => false)

/-- Some group on a core owns a bank. -/
def State.ownerOf (s : State) (core k : Nat) : Option Group :=
  (s.groups.find? fun g => g.2.core = core && g.2.own.getLsbD k).map (·.2)
/-- R277: why a bank of the issuing core is refused. -/
def State.bankFault (s : State) (k : Nat) : Option (Nat × Nat) :=
  if 64 ≤ k || s.g.own.getLsbD k then none
  else match s.ownerOf s.coreNum k with
    | some _ => some (cAccOwner, k)
    | none => some (cAccUnalloc, k)
/-- R277: why a follower bank of a pair MMA is refused. -/
def State.followFault (s : State) (k : Nat) : Option (Nat × Nat) :=
  if 64 ≤ k then none
  else match s.ownerOf (pairCore s.coreNum) k with
    | some g => if g.grid = s.g.grid && g.gang = s.g.gang then none else some (cAccOwner, k + 64)
    | none => some (cAccUnalloc, k + 64)

/-- The ownership check of banks, with its wait. -/
def State.withBanks (s : State) (own follow : List Nat) (body : Res) : Res :=
  if s.g.giving then .next s.waitIssue
  else
    match (own.findSome? s.bankFault).or (follow.findSome? s.followFault) with
    | some (cause, d) => .next (s.trap cause (BitVec.ofNat 64 d))
    | none => body

/-- The bank a register names. -/
def State.bankOf (s : State) (a : Nat) : Nat := bfld (s.rdS a) 0 6

/-- A matrix operation is enqueued and counted. -/
def State.enqueueMat (s : State) (k : MatKind) : Res :=
  if 255 ≤ s.w.qmat then .next s.waitIssue
  else
    let op : MatOp := ⟨(s.core s.coreNum).nextOp, s.iss.key, k, false, 0, false, 0⟩
    let s1 := s.modCore s.coreNum fun c => { c with nextOp := c.nextOp + 1 }
    let s2 := s1.modG fun g => { g with matQ := g.matQ ++ [op] }
    .next (s2.modW fun w => { w with qmat := w.qmat + 1 }).advance

/-! ## TCFG, TLD, TST (R302, R303) -/

/-- An unretired matrix operation of the group reads or writes a tile. -/
def Group.usesTile (g : Group) (t : Nat) : Bool :=
  g.matQ.any fun o => o.kind.tilesRead.contains t || o.kind.tilesWritten.contains t

def execTcfg (n a : Nat) (s : State) : Res :=
  s.engUni fun s => s.withTile n fun t =>
    let v := (s.rdS a).setWidth 32 &&& 0x3F7FFF
    if 11 ≤ shFmt v || (shFmt v = 4 && 30720 < shRows v * shRb v) then s.engTrap cAccess
    else if s.g.usesTile t || s.tileLocked s.coreNum t then .next s.waitIssue
    else .next (s.modCore s.coreNum fun c => { c with shapes := vset c.shapes t v }).advance

/-- Where the bytes of a tile lie in the scratchpad: the tile offset, the offset from src, and the length of each chunk. Where the chunk size does not
divide the row, the last chunk is the rest of the row, and n counts the whole ones: DESIGN CHOICE, log entry 52. -/
def tileChunks (sh : W32) : List (Nat × Nat × Nat) :=
  let rb := shRb sh
  let c := if shSwe sh && shSwc sh ≤ rb then shSwc sh else rb
  let n := rb / c
  (List.range (shRows sh)).flatMap fun i =>
    (List.range ((rb + c - 1) / c)).map fun j =>
      (i * rb + j * c, i * rb + (j.xor ((i / 2 ^ shSwf sh % 8) &&& (n - 1))) * c, min c (rb - j * c))
/-- The bytes of the scratchpad area of a tile, from src. -/
def tileArea (sh : W32) : Nat := maxOf ((tileChunks sh).map fun x => x.2.1 + x.2.2)
/-- The checks of a tile move: the source's alignment, the scales' alignment, the areas. -/
def State.tileMove (s : State) (v : W32) (src : Nat) (scales : Option Nat) (k : MatKind) : Res :=
  let bad := fun o n => s.g.slen < o + n
  if src % 16 != 0 || (match scales with | some b => b % 8 != 0 | none => false) then s.engTrap cAlign
  else if bad src (tileArea v) || (match scales with | some b => bad b (8 * shRows v) | none => false) then s.engTrap cAccess
  else s.enqueueMat k

def execTld (n a : Nat) (s : State) : Res :=
  s.engUni fun s => s.withTile n fun t =>
    let v := s.shape s.coreNum t
    let src := (s.rdS a).toNat
    s.tileMove v src none (.tld t v src none)
def execTldS (n a b : Nat) (s : State) : Res :=
  s.engUni fun s => s.withTile n fun t =>
    let v := s.shape s.coreNum t
    let src := (s.rdS a).toNat
    let sc := (s.rdS b).toNat
    if shFmt v != 4 then s.engTrap cAccess else s.tileMove v src (some sc) (.tld t v src (some sc))
def execTst (n a : Nat) (s : State) : Res :=
  s.engUni fun s => s.withTile n fun t =>
    let v := s.shape s.coreNum t
    let dst := (s.rdS a).toNat
    s.tileMove v dst none (.tst t v dst)

/-! ## MMA (R304, R305) -/

/-- Two tiles cannot be multiplied: formats, row bytes, or too many columns (R266, R267, R271). -/
def mmaBad (va vb : W32) (pair : Bool) : Bool :=
  let lim := (if fmtComplex (shFmt vb) then 64 else 128) * (if pair then 2 else 1)
  (fmtClass (shFmt va)).isNone || fmtClass (shFmt va) != fmtClass (shFmt vb) || shRb va != shRb vb || lim < shRows vb
/-- The bands of an MMA. -/
def mmaBands (va : W32) : Nat := (shRows va + 31) / 32

def State.mmaOp (s0 : State) (a b sa : Nat) (pair : Bool) : Res :=
  s0.engUni fun s => s.withTile a fun ta => s.withTile b fun tb =>
    let va := s.shape s.coreNum ta
    let vb := s.shape s.coreNum tb
    let k := s.bankOf sa
    let banks := rangeFrom k (mmaBands va)
    let leader := s.coreNum % 2 = 0
    s.withBanks banks (if pair && leader then banks else []) <|
      if 64 < k + mmaBands va || mmaBad va vb pair || (pair && !leader) then s.engTrap cAccess
      else s.enqueueMat (.mma ta tb va vb k pair)

def execMma (a b sa : Nat) (s : State) : Res := s.mmaOp a b sa false
def execMmaPair (a b sa : Nat) (s : State) : Res := s.mmaOp a b sa true

/-! ## MDRN (R306) -/

/-- The element size of a drain into a tile of a format. -/
def tileElem (f : Nat) : Nat := if f ≤ 1 then 2 else 1
def convElem : Conv → Nat
  | .raw => 4
  | .bf16 | .f16 => 2
  | _ => 1

def execMdrnTile (a : Nat) (clr : Bool) (n row col : Nat) (s : State) : Res :=
  s.engUni fun s => s.withTile n fun t =>
    let v := s.shape s.coreNum t
    let k := s.bankOf a
    s.withBanks [k] [] <|
      if !([0, 1, 2, 3, 5, 6].contains (shFmt v)) || shRows v ≤ 32 * row + 31 then s.engTrap cAccess
      else s.enqueueMat (.mdrnTile k clr t v row col)

def execMdrnSpad (a : Nat) (clr : Bool) (cv : Conv) (b : Nat) (s : State) : Res :=
  s.engUni fun s =>
    let k := s.bankOf a
    let dst := (s.rdS b).toNat
    s.withBanks [k] [] <|
      if dst % 16 != 0 then s.engTrap cAlign
      else if s.g.slen < dst + 4096 * convElem cv then s.engTrap cAccess
      else s.enqueueMat (.mdrnSpad k clr cv dst)

/-! ## MFN (R308 to R312) -/

/-- An MFN form on a bank. -/
def State.bankOp (s0 : State) (a : Nat) (body : State → Nat → Res) : Res :=
  s0.engUni fun s => s.withBanks [s.bankOf a] [] (body s (s.bankOf a))

def execMchk (a : Nat) (s : State) : Res := s.bankOp a fun s k => s.enqueueMat (.mchk k)
def execMrty (d a : Nat) (s : State) : Res := s.bankOp a fun s k => s.enqueueMat (.mrty k d)
def execMzero (a : Nat) (s : State) : Res := s.bankOp a fun s k => s.enqueueMat (.mzero k)
def execMgive (d a : Nat) (s : State) : Res := s.bankOp a fun s k => s.enqueueMat (.mgive k d (bfld (s.rdS a) 8 6))

/-- Add one to $mcorr (R286). -/
def Warp.addCorr (w : Warp) : Warp := { w with mcorr := numW ((bfld w.mcorr 0 32 + 1) % 2 ^ 32) }
/-- Set bits of the matrix status (R287). -/
def State.mstatSet (s : State) (g : Nat) (bits : W64) : State := s.modGroup g fun x => { x with mstat := x.mstat ||| bits }

/-- MFIX (R309). -/
def execMfix (a : Nat) (s : State) : Res :=
  s.bankOp a fun s k =>
    let b := (s.core s.coreNum).band k
    match b.state, b.located with
    | .faulted, some (r, c, v) =>
      let s1 := s.poke (bankAddr s.pkg s.coreNum k + r * 512 + c * 4) (leBytes 4 v.toNat)
      let s2 := s1.modBand s.coreNum k fun b => { b with state := .checked, located := none }
      .next (((s2.modW Warp.addCorr).mstatSet s.w.group 16).advance)
    | _, _ => .next s.advance

def execMstat (d : Nat) (s : State) : Res :=
  s.engUni fun s => .next ((s.wrS d s.g.mstat).modG fun g => { g with mstat := 0 }).advance
def execMstatClo (d a : Nat) (s : State) : Res :=
  s.bankOp a fun s k => .next (s.wrS d (((s.core s.coreNum).band k).colMask.setWidth 64)).advance
def execMstatChi (d a : Nat) (s : State) : Res :=
  s.bankOp a fun s k => .next (s.wrS d ((((s.core s.coreNum).band k).colMask >>> 64).setWidth 64)).advance

end Sys2Proof.Machine
end

