-- ==== Sys2Proof/Machine/MatStep.lean ====
section
/-! DEFINITION. The matrix engine at work: which operation starts (R269, R270), the steps of MMA and MRTY with their checksums (R85,
R86, R266, R267, R274, R279, R288). -/

namespace Sys2Proof.Machine

/-! ## Elements of a tile row (R74, R175, R272) -/

/-- The elements of bytes, as patterns. -/
def elemsOf (f : Nat) (bs : List Byte) : List Nat :=
  let n := leNat bs
  (List.range (bs.length * 8 / fmtBits f)).map fun i => n / 2 ^ (fmtBits f * i) % 2 ^ fmtBits f
/-- A float element. -/
def elemFmt (f : Nat) : Fmt :=
  if f = 0 then fmtBf16 else if f = 1 then fmtF16 else if f = 2 then fmtE4m3 else if f = 3 then fmtE5m2 else fmtE2m1
/-- An integer element as a complex number; the imaginary part is 0 outside ci8 and ci4. -/
def elemInt (f p : Nat) : Int × Int :=
  if f = 5 then (sext 8 p, 0) else if f = 6 then (p, 0) else if f = 7 then (sext 4 p, 0) else if f = 8 then (p, 0)
  else if f = 9 then (sext 8 p, sext 8 (p / 256)) else (sext 4 p, sext 4 (p / 16))
/-- An E8M0 scale (R84): 255 is a NaN. -/
def e8m0 (c : Nat) : FV := if c = 255 then .nan false else .num false 1 ((c : Int) - 127)

/-- The bytes of a row that a step takes. -/
def State.stepBytes (s : State) (core t : Nat) (sh : W32) (row step : Nat) : List Byte :=
  s.getBytes (tileAddr s.pkg core t + row * shRb sh + 64 * step) (min 64 (shRb sh - 64 * step))
/-- The float elements of a row in a step, scaled for e2m1. -/
def State.stepFloats (s : State) (core t : Nat) (sh : W32) (step row : Nat) : List FV :=
  let f := shFmt sh
  let es := (elemsOf f (s.stepBytes core t sh row step)).map (elemFmt f).decode
  if f = 4 then
    (List.range es.length).map fun k =>
      let c := (Memory.read s.mem (tileAddr s.pkg core t + 0x7800 + 8 * row + (128 * step + k) / 32)).toNat
      ((es.getD k (.nan false)).mul (e8m0 c)).1
  else es
def State.stepInts (s : State) (core t : Nat) (sh : W32) (step row : Nat) : List (Int × Int) :=
  (elemsOf (shFmt sh) (s.stepBytes core t sh row step)).map (elemInt (shFmt sh))

/-! ## Exact sums -/

def FV.abs : FV → FV
  | .num _ m e => .num false m e
  | .inf _ => .inf false
  | x => x
def FV.mulV (a b : FV) : FV := (a.mul b).1
/-- Round(sum, f32, mode) of R85: a NaN or conflicting infinities give the canonical NaN. -/
def roundSum (md : Rnd) (xs : List FV) : Nat := (fmtF32.deliver ⟨md, false, false⟩ (FV.sum .rne xs).1 false).1
def f32v (w : W32) : FV := fmtF32.decode w.toNat
/-- Products of two rows, element by element. -/
def dotTerms (a b : List FV) : List FV := (a.zip b).map fun p => p.1.mulV p.2
/-- The column sums of rows. -/
def sumRows (n : Nat) (rows : List (List FV)) : List FV :=
  (List.range n).map fun k => (FV.sum .rne (rows.map fun r => r.getD k (.num false 0 0))).1
def cMul (a b : Int × Int) : Int × Int := (a.1 * b.1 - a.2 * b.2, a.1 * b.2 + a.2 * b.1)
def cAdd (a b : Int × Int) : Int × Int := (a.1 + b.1, a.2 + b.2)
def cDot (a b : List (Int × Int)) : Int × Int := (a.zip b).foldl (fun acc p => cAdd acc (cMul p.1 p.2)) (0, 0)
def cSumRows (n : Nat) (rows : List (List (Int × Int))) : List (Int × Int) :=
  (List.range n).map fun k => rows.foldl (fun acc r => cAdd acc (r.getD k (0, 0))) (0, 0)

/-! ## One step of one band -/

/-- The rows of B that a half of a pair MMA takes. -/
def RecEntry.bRows (e : RecEntry) : List Nat :=
  let n := shRows e.sb
  let lim := if fmtComplex (shFmt e.sb) then 64 else 128
  if e.pair then (if e.half = 0 then List.range (min n lim) else rangeFrom lim (n - lim)) else List.range n
/-- The rows of A in the band. -/
def RecEntry.aRows (e : RecEntry) : List Nat := rangeFrom e.row0 (min 32 (shRows e.sa - e.row0))

/-- A row of a band's data as 128 words. -/
def State.bandRow (s : State) (core k r : Nat) : List Nat :=
  (List.range 128).map fun c => s.getNat (bankAddr s.pkg core k + r * 512 + c * 4) 4
def State.putBandRow (s : State) (core k r : Nat) (xs : List Nat) : State :=
  s.poke (bankAddr s.pkg core k + r * 512) (xs.flatMap fun x => leBytes 4 x)

/-- Bits of the matrix status for delivered floats. -/
def floatBits (xs : List Nat) : Nat :=
  (if xs.any fun x => x % 2 ^ 31 = 0x7F800000 then 4 else 0) + (if xs.any fun x => 0x7F800000 < x % 2 ^ 31 then 2 else 0)

/-- The float checksums of a band after a step (R279). -/
def Band.addFloat (b : Band) (as bs : List (List FV)) : Band :=
  let n := (as.headD []).length
  let aS := sumRows n as
  let bS := sumRows n bs
  let row := fun j => bs.getD j []
  let mags := fun (x y : List FV) => (x.zip y).map fun p => p.1.abs.mulV p.2.abs
  { b with
    cr := vtab 128 fun j => if j < bs.length then BitVec.ofNat 32 (roundSum .rne (f32v (vget 0 b.cr j) :: dotTerms aS (row j))) else vget 0 b.cr j
    cc := vtab 32 fun r => if r < as.length then
        BitVec.ofNat 32 (roundSum .rne (f32v (vget 0 b.cc r) :: dotTerms (as.getD r []) bS)) else vget 0 b.cc r
    mr := vtab 128 fun j => if j < bs.length then
        BitVec.ofNat 32 (roundSum .rup (f32v (vget 0 b.mr j) :: as.flatMap fun a => mags a (row j))) else vget 0 b.mr j
    mc := vtab 32 fun r => if r < as.length then
        BitVec.ofNat 32 (roundSum .rup (f32v (vget 0 b.mc r) :: bs.flatMap fun x => mags (as.getD r []) x)) else vget 0 b.mc r }

/-- The integer checksums of a band after a step, modulo 2^32; `two` for complex formats. -/
def Band.addInt (b : Band) (two : Bool) (as bs : List (List (Int × Int))) : Band :=
  let n := (as.headD []).length
  let aS := cSumRows n as
  let bS := cSumRows n bs
  let col := fun j => cDot aS (bs.getD j [])
  { b with
    cr := vtab 128 fun j =>
      let i := if two then j / 2 else j
      if i < bs.length then vget 0 b.cr j + w32 (if two && j % 2 = 1 then (col i).2 else (col i).1) else vget 0 b.cr j
    cc := vtab 32 fun r =>
      if r < as.length then (let d := cDot (as.getD r []) bS; vget 0 b.cc r + w32 (d.1 + d.2)) else vget 0 b.cc r }

/-- The type and format mask that an MMA's operands give a band (R278). -/
def RecEntry.ty (e : RecEntry) : BandType := if fmtInt (shFmt e.sa) then .i else .f
def RecEntry.bits (e : RecEntry) : Nat := fmtMask (shFmt e.sa) (shFmt e.sb)

/-- Step n of an entry on a band: its data, and with `sums` its checksums; the matrix status of group g (R85, R86, R287). -/
def State.bandStep (s : State) (g core k : Nat) (e : RecEntry) (n : Nat) (sums : Bool) : State :=
  let tc := if e.half = 1 then pairCore core else core
  if fmtInt (shFmt e.sa) then
    let two := fmtComplex (shFmt e.sa)
    let as := e.aRows.map (s.stepInts tc e.a e.sa n)
    let bs := e.bRows.map (s.stepInts tc e.b e.sb n)
    let r := (List.range as.length).foldl (fun (acc : State × Bool) i =>
      let old := s.bandRow core k i
      let new : List Int := (List.range 128).map fun c =>
        let j := if two then c / 2 else c
        let o := sext 32 (old.getD c 0)
        if j < bs.length then (let d := cDot (as.getD i []) (bs.getD j []); o + (if two && c % 2 = 1 then d.2 else d.1)) else o
      (acc.1.putBandRow core k i (new.map fun x => (w32 x).toNat),
       acc.2 || new.any fun x => x < -(2 ^ 31) || 2 ^ 31 - 1 < x)) (s, false)
    let s1 := r.1.modBand core k fun b => if sums then b.addInt two as bs else b
    if r.2 then s1.mstatSet g 1 else s1
  else
    let as := e.aRows.map (s.stepFloats tc e.a e.sa n)
    let bs := e.bRows.map (s.stepFloats tc e.b e.sb n)
    let r := (List.range as.length).foldl (fun (acc : State × Nat) i =>
      let old := s.bandRow core k i
      let new := (List.range 128).map fun c =>
        if c < bs.length then
          roundSum .rne (fmtF32.decode (old.getD c 0) :: dotTerms (as.getD i []) (bs.getD c []))
        else old.getD c 0
      (acc.1.putBandRow core k i new, acc.2 ||| floatBits (new.take bs.length))) (s, 0)
    let s1 := r.1.modBand core k fun b => if sums then b.addFloat as bs else b
    s1.mstatSet g (BitVec.ofNat 64 r.2)

/-- The steps of an entry. -/
def RecEntry.steps (e : RecEntry) : Nat := (shRb e.sa + 63) / 64

/-! ## The halves of an MMA -/

/-- The bands of an MMA with the entry that each one records: core, bank, entry. -/
def mmaParts (core a b : Nat) (sa sb : W32) (k : Nat) (pair : Bool) : List (Nat × Nat × RecEntry) :=
  let half := fun h c => (List.range (mmaBands sa)).map fun q => (c, k + q, (⟨a, b, sa, sb, 32 * q, h, pair⟩ : RecEntry))
  half 0 core ++ if pair then half 1 (pairCore core) else []

/-- An MMA meets a band (R280). -/
def Band.mmaStart (b : Band) (e : RecEntry) : Band :=
  let b1 := { b with lastInt := e.ty = .i }
  match b.state with
  | .checked =>
    if b.ty = .none || b.ty = e.ty then
      { b1 with
        ty := e.ty, mask := b.mask ||| e.bits
        record := if b.record.length = 16 then [] else b.record ++ [e]
        complete := b.complete && b.record.length < 16 }
    else { b1 with state := .unchecked, record := [], complete := false }
  | _ => b1

/-! ## Starting (R269, R270) -/

/-- Two operations of a queue must keep their order: one writes a tile or band that the other reads or writes. -/
def MatKind.conflicts (later earlier : MatKind) : Bool :=
  (later.tilesRead.any earlier.tilesWritten.contains) ||
  (later.tilesWritten.any fun t => earlier.tilesRead.contains t || earlier.tilesWritten.contains t) ||
  (later.bands.any earlier.bands.contains)
/-- An operation that names a FAULTED band and waits for it (R280). -/
def State.onFaulted (s : State) (core : Nat) (k : MatKind) : Bool :=
  let bad := fun c b => ((s.core c).band b).state = .faulted
  match k with
  | .mrty _ _ | .mzero _ | .mgive _ _ _ => false
  | .mma _ _ _ _ _ pair => k.bands.any fun b => bad core b || (pair && bad (pairCore core) b)
  | _ => k.bands.any (bad core)
/-- MRTY, MZERO and MGIVE of a FAULTED band may start ahead of the operations that wait on it. -/
def State.jumps (s : State) (core : Nat) (k : MatKind) : Option Nat :=
  match k with
  | .mrty b _ | .mzero b | .mgive b _ _ => if ((s.core core).band b).state = .faulted then some b else none
  | _ => none

/-- A destination tile of an operation is write-locked, for a drain by another record than that of its own band (R289). -/
def State.lockedFor (s : State) (core : Nat) (k : MatKind) : Bool :=
  match k with
  | .tld t _ _ _ => s.tileLocked core t
  | .mdrnTile b _ t _ _ _ => (s.modBand core b fun x => { x with record := [] }).tileLocked core t
  | _ => false

/-- The bytes that an operation reads or writes: of tiles, of bands, and of the scratchpad. -/
def State.opBytes (s : State) (g : Group) (k : MatKind) : List (Nat × Nat) :=
  ((k.tilesRead ++ k.tilesWritten).map fun t => (tileAddr s.pkg g.core t, 0x8000)) ++
  (k.bands.map fun b => (bankAddr s.pkg g.core b, 0x4000)) ++
  (match k with
   | .mma _ _ _ _ _ true => k.bands.map fun b => (bankAddr s.pkg (pairCore g.core) b, 0x4000)
   | .tst _ sh dst => [(s.spad g + dst, tileArea sh)]
   | .mdrnSpad _ _ cv dst => [(s.spad g + dst, 4096 * convElem cv)]
   | .tld _ sh src sc => (s.spad g + src, tileArea sh) :: (match sc with | some b => [(s.spad g + b, 8 * shRows sh)] | none => [])
   | _ => [])
/-- An operation may start as far as its queue goes (R269, R280, R289), and after the stores that its warp made before it to its bytes
(R206). -/
def State.mayStart (s : State) (g : Group) (o : MatOp) : Bool :=
  let before := g.matQ.takeWhile fun x => x.id != o.id
  let waiting := before.filter fun x => !x.started
  let running := before.filter fun x => x.started && !x.fin
  !o.started && !o.fin &&
  (match waiting, s.jumps g.core o.kind with
   | [], _ => true
   | x :: _, some b => s.onFaulted g.core x.kind && x.kind.bands.contains b && !waiting.any fun y => s.jumps g.core y.kind = some b
   | _ :: _, none => false) &&
  !(running.any fun x => o.kind.conflicts x.kind) &&
  !s.onFaulted g.core o.kind && !s.lockedFor g.core o.kind &&
  !(s.opBytes g o.kind).any fun r => s.ownWaits o.warp o.id r.1 r.2

/-- An operation needs an array: an MMA, or an MRTY that has something to do (R269, R288). -/
def State.needsArray (s : State) (core : Nat) (k : MatKind) : Bool :=
  match k with
  | .mma _ _ _ _ _ _ => true
  | .mrty b _ => let x := (s.core core).band b; x.state = .faulted && x.complete
  | _ => false
/-- The arrays it needs. -/
def MatKind.arrays (core : Nat) : MatKind → List Nat
  | .mma _ _ _ _ _ true => [core, pairCore core]
  | _ => [core]

/-- An operation that a context save stopped at a step boundary, and that no array runs (R276). -/
def State.halted (s : State) (g : Group) (o : MatOp) : Bool :=
  o.started && !o.fin && s.needsArray g.core o.kind && (s.core g.core).array != some ⟨g.key, o.id⟩
/-- The operation that a queue would start or resume next. -/
def State.nextOf (s : State) (g : Group) : Option MatOp :=
  match g.matQ.find? (s.halted g) with
  | some o => some o
  | none => g.matQ.find? (s.mayStart g)

/-- The queues of a pair in the order of R270: position and group. -/
def State.queues (s : State) (leader : Nat) : List (Nat × Nat) :=
  let of_ := fun h c => (sortNat ((s.groups.filter fun g => g.2.core = c && !g.2.stored).map fun g => (bitsOf g.2.slots).headD 0 * 64 + g.1 % 64)).map
    fun x => (h * 64 + x / 64, c * 64 + x % 64)
  of_ 0 leader ++ of_ 1 (leader + 1)

/-- The band data and checksum state of a retry start from zero (R288). -/
def State.retryZero (s : State) (core k : Nat) : State :=
  let b := (s.core core).band k
  (s.zeroBank core k).modBand core k fun z =>
    { z with state := .faulted, record := b.record, complete := b.complete, colMask := b.colMask, located := b.located }
/-- A retry leaves the band CHECKED. -/
def Band.retryEnd (b : Band) : Band := { b with state := .checked, located := none }

def State.modOp (s : State) (g id : Nat) (f : MatOp → MatOp) : State :=
  s.modGroup g fun x => { x with matQ := x.matQ.map fun o => if o.id = id then f o else o }

/-- An operation starts. An MMA meets its bands, a retry zeroes its band, and an MRTY with nothing to do is done. -/
def State.startOp (s : State) (g : Nat) (o : MatOp) : State :=
  let core := (s.group g).core
  let s1 := s.modOp g o.id fun x => { x with started := true }
  if o.started then (MatKind.arrays core o.kind).foldl (fun s c => s.modCore c fun x => { x with array := some ⟨g, o.id⟩ }) s1
  else
  match o.kind with
  | .mma a b sa sb k pair =>
    let s2 := (mmaParts core a b sa sb k pair).foldl (fun s p => s.modBand p.1 p.2.1 (·.mmaStart p.2.2)) s1
    ((MatKind.arrays core o.kind).foldl (fun s c => s.modCore c fun x => { x with array := some ⟨g, o.id⟩ }) s2)
  | .mrty k _ =>
    let b := (s1.core core).band k
    if b.state != .faulted then s1.modOp g o.id fun x => { x with fin := true, out := 1 }
    else if !b.complete then s1.modOp g o.id fun x => { x with fin := true, out := 2 }
    else
      let s2 := s1.retryZero core k
      if b.record = [] then (s2.modBand core k Band.retryEnd).modOp g o.id fun x => { x with fin := true }
      else s2.modCore core fun x => { x with array := some ⟨g, o.id⟩ }
  | _ => s1

/-- The heads that need an array, in the order of R270 from the queue after the last. -/
def State.arrayHeads (s : State) (leader : Nat) : List (Nat × Nat × MatOp) :=
  let last := (s.core leader).arrayLast
  let qs := s.queues leader
  let order := (qs.filter fun q => last < q.1) ++ (qs.filter fun q => q.1 ≤ last)
  order.filterMap fun q =>
    match s.nextOf (s.group q.2) with
    | some o => if s.needsArray (s.group q.2).core o.kind then some (q.1, q.2, o) else none
    | none => none

/-- The first head whose arrays are free starts; a pair MMA that finds one array busy holds the other one. -/
def State.startArray (s : State) (leader : Nat) : List (Nat × Nat × MatOp) → State
  | [] => s
  | (pos, g, o) :: r =>
    let arrays := MatKind.arrays (s.group g).core o.kind
    let idle := arrays.filter fun c => (s.core c).array.isNone
    let held := arrays.any fun c => match (s.core c).pairHold with | some h => !(h.group = g && h.op = o.id) | none => false
    if held then s.startArray leader r
    else if idle = arrays then
      (arrays.foldl (fun (s : State) c => s.modCore c fun x => { x with pairHold := none }) (s.modCore leader fun c => { c with arrayLast := pos })).startOp g o
    else if arrays.length = 2 then
      (idle.foldl (fun (s : State) c => s.modCore c fun x => { x with pairHold := some ⟨g, o.id⟩ }) s).startArray leader r
    else s.startArray leader r

/-- The pair MMA that an array waits for has still to start, and its group runs. -/
def State.holdLives (s : State) (core : Nat) : Bool :=
  match (s.core core).pairHold with
  | some h => s.slotState h.group = 2 && !s.stopping h.group && (s.group h.group).matQ.any fun o => o.id = h.op && !o.started
  | none => false

/-- MATRIX_OP_START: the sequencer of a pair starts one operation: one that needs no array as soon as R269 allows, else the head that
R270 chooses. -/
def execMatrixOpStart (core : Nat) (s : State) : Res :=
  let leader := core / 2 * 2
  let up := fun g : Nat => s.slotState g = 2 && !s.stopping g
  let plain := ((s.queues leader).filter fun q => up q.2).findSome? fun q =>
    ((s.group q.2).matQ.find? fun o => s.mayStart (s.group q.2) o && !s.needsArray (s.group q.2).core o.kind).map fun o => (q.2, o)
  match plain with
  | some (g, o) => .next (s.startOp g o)
  | none =>
    let s1 := [leader, leader + 1].foldl (fun (s : State) c =>
      if s.holdLives c then s else s.modCore c fun x => { x with pairHold := none }) s
    .next (s1.startArray leader ((s1.arrayHeads leader).filter fun h => up h.2.1))

/-! ## Steps (R274) -/

/-- The entry and step that a count of steps has reached. -/
def stepAt : List RecEntry → Nat → Option (RecEntry × Nat)
  | [], _ => none
  | e :: r, n => if n < e.steps then some (e, n) else stepAt r (n - e.steps)

/-- An array that runs an operation becomes free. -/
def State.freeArray (s : State) (g id core : Nat) : State :=
  s.modCore core fun x => if x.array = some ⟨g, id⟩ then { x with array := none } else x
/-- The arrays of an operation that retires become free: the follower's is slaved to a pair MMA until then (R267). -/
def State.freeArrays (s : State) (g id : Nat) : State :=
  let c := (s.group g).core
  (s.freeArray g id c).freeArray g id (pairCore c)

/-- One step of the operation on an array. A retry whose band a window store or MFIX has taken out of FAULTED meanwhile ends there (`completeOp`), with
outcome 0 and the band as it was left: DESIGN CHOICE, log entry 53. -/
def State.matStep (s : State) (g : Nat) (o : MatOp) : State :=
  let core := (s.group g).core
  match o.kind with
  | .mma a b sa sb k pair =>
    let parts := mmaParts core a b sa sb k pair
    let s1 := parts.foldl (fun s p =>
      s.bandStep g p.1 p.2.1 p.2.2 o.steps (((s.core p.1).band p.2.1).state = .checked)) s
    let last := (⟨a, b, sa, sb, 0, 0, pair⟩ : RecEntry).steps ≤ o.steps + 1
    let s2 := s1.modOp g o.id fun x => { x with steps := o.steps + 1, fin := last }
    if last then s2.freeArray g o.id core else s2
  | .mrty k _ =>
    let rec_ := ((s.core core).band k).record
    match stepAt rec_ o.steps with
    | some (e, n) =>
      let s0 := s.modBand core k fun b => { b with ty := e.ty, mask := b.mask ||| e.bits, lastInt := e.ty = .i }
      let s1 := s0.bandStep g core k e n true
      let last := (stepAt rec_ (o.steps + 1)).isNone
      let s2 := s1.modOp g o.id fun x => { x with steps := o.steps + 1, fin := last }
      if last then (s2.modBand core k Band.retryEnd).freeArray g o.id core else s2
    | none => (s.modOp g o.id fun x => { x with fin := true }).freeArray g o.id core
  | _ => s

/-- A bit of a bank's element changes by itself: the soft error that the checks of R281 look for. -/
def State.softError (s : State) (core : Nat) (flip : Option (Nat × Nat × Nat × Nat)) : State :=
  match flip with
  | none => s
  | some (k, r, c, i) =>
    let a := bankAddr s.pkg core k + r * 512 + c * 4 + i / 8
    s.poke a [Memory.read s.mem a ^^^ BitVec.ofNat 8 (2 ^ (i % 8))]

/-- MMA_STEP: the array of a core makes one step of the operation it runs; the follower's array makes it with the leader's. -/
def execMmaStep (core : Nat) (flip : Option (Nat × Nat × Nat × Nat)) (s : State) : Res :=
  match (s.core core).array with
  | none => .next s
  | some u =>
    if (s.group u.group).core != core || s.slotState u.group != 2 || s.stopping u.group then .next s
    else
      match (s.group u.group).matQ.find? fun o => o.id = u.op with
      | some o => .next ((s.matStep u.group o).softError core flip)
      | none => .next s

end Sys2Proof.Machine
end

