-- ==== Sys2Proof/Machine/Retire.lean ====
section
/-! DEFINITION. The end of engine operations: band checks and drains, tile moves, and retirement (R206, R246, R281 to R290, R303, R307
to R311, R355). -/

namespace Sys2Proof.Machine

/-! ## The check of a band (R281, R283) -/

/-- What a comparison of sums found: the disagreeing rows and columns, and whether the fault is located, with the corrected value. -/
structure Verdict where
  rows : List Nat
  cols : List Nat
  located : Option (Nat × Nat × W32)
  deriving DecidableEq, Repr

/-- A data sum and a checksum disagree by more than the tolerance. -/
def disagree (sum chk tol : FV) : Bool :=
  match sum, chk with
  | .nan _, .nan _ => false
  | .inf a, .inf b => a != b
  | .num _ _ _, .num _ _ _ =>
    (match tol with
     | .nan _ => true
     | .inf _ => false
     | t => t.lt (FV.abs (FV.sum .rne [sum, chk.flip]).1))
  | _, _ => true

/-- The tolerance fields in force for a band: the largest over the indices of its mask. -/
def Warp.tols (w : Warp) (mask : Nat) : FV × FV :=
  let ix := (List.range 5).filter fun i => mask.testBit i
  let top := fun lo => BitVec.ofNat 32 (maxOf (ix.map fun i => bfld (vget 0 w.mtol i) lo 32))
  (f32v (top 0), f32v (top 32))
/-- REL * M + ABS; an infinite magnitude sum makes it infinite. -/
def tolerance (t : FV × FV) (m : W32) : FV :=
  match f32v m with
  | .inf _ => .inf false
  | x => (FV.sum .rne [t.1.mulV x, t.2]).1

def FV.finite : FV → Bool
  | .num _ _ _ => true
  | _ => false

/-- The rows of a band as values of type F. -/
def State.bandFloats (s : State) (core k : Nat) : List (List FV) :=
  (List.range 32).map fun r => (s.bandRow core k r).map fmtF32.decode
/-- The sum of a column, and of a column without one row. -/
def colSum (rows : List (List FV)) (c : Nat) : FV := (FV.sum .rne (rows.map fun r => r.getD c (.num false 0 0))).1
def rowSum (rows : List (List FV)) (r : Nat) : FV := (FV.sum .rne (rows.getD r [])).1

/-- The comparison for type F. -/
def State.checkFloat (s : State) (core k : Nat) (b : Band) (t : FV × FV) : Verdict :=
  let rows := s.bandFloats core k
  let tc := fun c => tolerance t (vget 0 b.mr c)
  let tr := fun r => tolerance t (vget 0 b.mc r)
  let cr := fun c => f32v (vget 0 b.cr c)
  let cc := fun r => f32v (vget 0 b.cc r)
  let badC := (List.range 128).filter fun c => disagree (colSum rows c) (cr c) (tc c)
  let badR := (List.range 32).filter fun r => disagree (rowSum rows r) (cc r) (tr r)
  match badR, badC with
  | [r], [c] =>
    let dc := (FV.sum .rne [colSum rows c, (cr c).flip]).1
    let dr := (FV.sum .rne [rowSum rows r, (cc r).flip]).1
    let x := (rows.getD r []).getD c (.nan false)
    let near := dc.finite && dr.finite &&
      !((FV.sum .rne [tr r, tc c]).1.lt (FV.abs (FV.sum .rne [dr, dc.flip]).1))
    let lone := !x.finite && (cr c).finite && (cc r).finite
    let others := ((List.range 32).filter (· != r)).map fun i => ((rows.getD i []).getD c (.num false 0 0)).flip
    ⟨badR, badC, if near || lone then some (r, c, BitVec.ofNat 32 (roundSum .rne (cr c :: others))) else none⟩
  | _, _ => ⟨badR, badC, none⟩

/-- The comparison for type I, modulo 2^32. -/
def State.checkInt (s : State) (core k : Nat) (b : Band) : Verdict :=
  let rows := (List.range 32).map fun r => (s.bandRow core k r).map (BitVec.ofNat 32)
  let sum := fun xs : List W32 => xs.foldl (· + ·) 0
  let col := fun c => sum (rows.map fun r => r.getD c 0)
  let dc := fun c => col c - vget 0 b.cr c
  let dr := fun r => sum (rows.getD r []) - vget 0 b.cc r
  let badC := (List.range 128).filter fun c => dc c != 0
  let badR := (List.range 32).filter fun r => dr r != 0
  match badR, badC with
  | [r], [c] =>
    ⟨badR, badC, if dr r = dc c then some (r, c, vget 0 b.cr c - (col c - (rows.getD r []).getD c 0)) else none⟩
  | _, _ => ⟨badR, badC, none⟩

/-- What a check of a band finds (R281); a band of type none is compared as type F with tolerance 0 (DESIGN CHOICE, log entry 66). -/
def State.verdict (s : State) (core k : Nat) (w : Warp) : Verdict :=
  let b := (s.core core).band k
  match b.ty with
  | .i => s.checkInt core k b
  | _ => s.checkFloat core k b (w.tols b.mask)

/-- How a check ends: it passes, or fails with the value for $mfault. -/
inductive CheckEnd where
  | pass (s : State)
  | fail (s : State)
  deriving DecidableEq, Repr

/-- $mfault of a failed check (R285). -/
def mfaultWord (v : Verdict) (k kind : Nat) (complete : Bool) : W64 :=
  BitVec.ofNat 64 (kind * 2 ^ 7 + b2n complete * 2 ^ 9 + b2n v.located.isSome * 2 ^ 10 + k * 2 ^ 11 + v.cols.headD 0 * 2 ^ 17 +
    v.cols.length * 2 ^ 24 + (v.rows.map (2 ^ ·)).sum * 2 ^ 32)

/-- A failing check: the band is FAULTED, FAIL is set, and MCHECK is raised in the issuing warp; a warp without threads has its gang
killed (R283). -/
def State.checkFails (s : State) (g core k w : Nat) (v : Verdict) (kind : Nat) : State :=
  let b := (s.core core).band k
  let s1 := (s.modBand core k fun b => { b with
    state := .faulted, located := v.located, colMask := BitVec.ofNat 128 ((v.cols.map (2 ^ ·)).sum) }).mstatSet g 32
  if (s1.warp w).ended then s1.killBy w 0 0 0
  else s1.modWarp w fun x => { x with mchecks := x.mchecks ++ [⟨mfaultWord v k kind b.complete⟩] }

/-- BAND_CHECK: a check of a band by a warp's operation. -/
def State.checkBand (s : State) (g core k w : Nat) : CheckEnd :=
  let b := (s.core core).band k
  let x := s.warp w
  if b.state = .unchecked then
    let s1 := s.mstatSet g 8
    if bbit x.mmode 1 then .fail (s1.checkFails g core k w ⟨[], [], none⟩ 2) else .pass s1
  else
    let v := s.verdict core k x
    if v.rows = [] && v.cols = [] then .pass s
    else
      match v.located, bbit x.mmode 0 with
      | some (r, c, new), true =>
        let s1 := s.poke (bankAddr s.pkg core k + r * 512 + c * 4) (leBytes 4 new.toNat)
        let v1 := s1.verdict core k x
        if v1.rows.contains r || v1.cols.contains c then .fail (s.checkFails g core k w v 1)
        else .pass ((s1.modWarp w Warp.addCorr).mstatSet g 16)
      | _, _ => .fail (s.checkFails g core k w v 1)

/-- A passing check without clearing empties the record of a CHECKED band (R280). -/
def Band.afterPass (b : Band) : Band := if b.state = .checked then { b with record := [], complete := false } else b
/-- After a pass: the band is zeroed, or its record emptied. -/
def State.passed (s : State) (core k : Nat) (clr : Bool) : State :=
  if clr then s.zeroPoint core k else s.modBand core k Band.afterPass

/-! ## Drains (R307) -/

/-- The format of a float conversion. -/
def convFmt : Conv → Option Fmt
  | .bf16 => some fmtBf16
  | .f16 => some fmtF16
  | .e4m3 => some fmtE4m3
  | .e5m2 => some fmtE5m2
  | _ => none
/-- The conversion that a tile's format asks for. -/
def tileConv (f : Nat) : Conv :=
  if f = 0 then .bf16 else if f = 1 then .f16 else if f = 2 then .e4m3 else if f = 3 then .e5m2 else if f = 5 then .i8 else .n8
/-- One drained element. -/
def drainElem (cv : Conv) (int : Bool) (x : Nat) : Nat :=
  let i := sext 32 x
  match convFmt cv with
  | some f =>
    (if int then (f.deliver ⟨.rne, false, false⟩ (intValue i) false).1
     else (floatToFloat f ⟨.rne, false, false⟩ (fmtF32.decode x)).1)
  | none =>
    let ty := if cv = .i8 then IntTy.i8 else IntTy.n8
    match cv with
    | .raw => x
    | _ =>
      let y := if int then IntTy.narrow ty true i else (floatToInt ty .rne (fmtF32.decode x)).1
      (y % 256).toNat
/-- The drained bytes of columns of a row. -/
def State.drainRow (s : State) (core k r : Nat) (cv : Conv) (cols : List Nat) : List Byte :=
  let row := s.bandRow core k r
  let int := ((s.core core).band k).lastInt
  cols.flatMap fun c => leBytes (convElem cv) (drainElem cv int (row.getD c 0))

/-- A drain into a tile: the check, the release of the record's locks, and the data. -/
def State.drainTile (s : State) (g core w k : Nat) (clr : Bool) (t : Nat) (sh : W32) (row ch : Nat) : State :=
  match s.checkBand g core k w with
  | .fail s' => s'
  | .pass s1 =>
    let cv := tileConv (shFmt sh)
    let e := convElem cv
    let lo := 32 * ch
    let cols := rangeFrom lo (min 128 (lo + shRb sh / e) - lo)
    let s2 := (List.range 32).foldl (fun (s : State) r =>
      s.poke (tileAddr s.pkg core t + (32 * row + r) * shRb sh) (s1.drainRow core k r cv cols)) s1
    s2.passed core k clr
/-- A drain into the group's scratchpad. -/
def State.drainSpad (s : State) (g core w k : Nat) (clr : Bool) (cv : Conv) (dst : Nat) : State :=
  match s.checkBand g core k w with
  | .fail s' => s'
  | .pass s1 =>
    let base := s1.spad (s1.group g) + dst
    let s2 := (List.range 32).foldl (fun (s : State) r =>
      s.putBytes (base + r * 128 * convElem cv) (s1.drainRow core k r cv (List.range 128))) s1
    s2.passed core k clr

/-! ## Tile moves (R303) -/

def State.loadTile (s : State) (g core w t : Nat) (sh : W32) (src : Nat) (scales : Option Nat) : State :=
  let base := s.spad (s.group g)
  let words := (tileChunks sh).flatMap (fun x => rangeFrom (src + x.2.1) x.2.2) ++ (match scales with | some b => rangeFrom b (8 * shRows sh) | none => [])
  match minOf (words.filter fun o => s.poisoned (base + o)) with
  | some o => s.killBy w 1 (BitVec.ofNat 64 o) 0
  | none =>
    let s1 := (tileChunks sh).foldl (fun (s : State) x =>
      s.poke (tileAddr s.pkg core t + x.1) (s.getBytes (base + src + x.2.1) x.2.2)) s
    match scales with
    | some b => s1.poke (tileAddr s.pkg core t + 0x7800) (s.getBytes (base + b) (8 * shRows sh))
    | none => s1
def State.storeTile (s : State) (g core t : Nat) (sh : W32) (dst : Nat) : State :=
  let base := s.spad (s.group g)
  (tileChunks sh).foldl (fun (s' : State) x =>
    s'.putBytes (base + dst + x.2.1) (s.getBytes (tileAddr s.pkg core t + x.1) x.2.2)) s

/-! ## MGIVE (R280, R310) -/

/-- The group of the warp in a slot of a core. -/
def State.slotGroup (s : State) (core slot : Nat) : Option Nat :=
  if (tget? s.warps (core * 64 + slot)).isSome then some (s.warp (core * 64 + slot)).group else none
/-- The outcome of an MGIVE, and the group that would receive the bank. -/
def State.giveOutcome (s : State) (g core k slot : Nat) : Nat × Nat :=
  if ((s.core core).band k).state = .faulted then (1, 0)
  else
    match s.slotGroup core slot with
    | none => (2, 0)
    | some h => if h = g then (2, 0) else if (s.group h).grid != (s.group g).grid then (3, 0) else (0, h)
/-- The bank goes to another group: the holds of the giving group end. -/
def State.passBank (s : State) (g h k core : Nat) : State :=
  let s1 := s.modGroup g fun x => { x with own := x.own &&& ~~~(bit64 k), passed := x.passed &&& ~~~(bit64 k) }
  let s2 := (s1.groupWarps g).foldl (fun s w => s.modWarp w fun x => { x with acch := x.acch &&& ~~~(bit64 k) }) s1
  (s2.modGroup h fun x => { x with own := x.own ||| bit64 k, passed := x.passed ||| bit64 k }).modBand core k fun b =>
    { b with record := [], complete := false }

/-! ## Completion of an operation that uses no array -/

/-- A started operation completes; a kill ends it with its gang. -/
def State.completeOp (s : State) (g : Nat) (o : MatOp) : State :=
  let core := (s.group g).core
  let done := fun (s : State) (out : Nat) => s.modOp g o.id fun x => { x with fin := true, out := out }
  let alive := fun s : State => if (tget? s.groups g).isSome then done s 0 else s
  match o.kind with
  | .tld t sh src sc => alive (s.loadTile g core o.warp t sh src sc)
  | .tst t sh dst => done (s.storeTile g core t sh dst) 0
  | .mdrnTile k clr t sh row ch => alive (s.drainTile g core o.warp k clr t sh row ch)
  | .mdrnSpad k clr cv dst => alive (s.drainSpad g core o.warp k clr cv dst)
  | .mchk k =>
    (match s.checkBand g core k o.warp with
     | .pass s1 => done (s1.passed core k false) 0
     | .fail s1 => alive s1)
  | .mzero k => done (s.zeroPoint core k) 0
  | .mgive k _ slot =>
    let r := s.giveOutcome g core k slot
    done (if r.1 = 0 then s.passBank g r.2 k core else s) r.1
  | .mrty _ _ => done (s.freeArray g o.id core) 0
  | .mma _ _ _ _ _ _ => s

/-! ## Retirement (R206, R246) -/

/-- A token's pending count falls, ERR is set, and at 0 its event is raised. -/
def State.tokenDone (s : State) (w tok : Nat) (err : Bool) : State :=
  let s1 := s.modWarp w fun x =>
    { x with tokPend := vmod 0 x.tokPend tok (· - 1), tokErr := if err then x.tokErr ||| BitVec.ofNat 8 (2 ^ tok) else x.tokErr }
  if vget 0 (s1.warp w).tokPend tok = 0 then s1.raise w tok else s1

/-- The lines of a paired copy's operation in the order of their writing. -/
def linesFrom : Nat → CopyOp → List (List CopyLane)
  | 0, _ => []
  | n + 1, o =>
    match o.writeLanes with
    | [] => []
    | ls =>
      let names := ls.map (·.lane)
      ls :: linesFrom n { o with lanes := o.lanes.map fun y => if names.contains y.lane then { y with written := true } else y }
def CopyOp.heldLines (o : CopyOp) : List (List CopyLane) :=
  linesFrom 33 { o with lanes := (o.lanes.filter fun l => l.data.isSome).map fun l => { l with written := false } }

/-- One engine line joins the window of a warp: one record for the signature, and a held write for each run of bytes (R355). -/
def State.holdLine (s : State) (w : Nat) (o : CopyOp) (ls : List CopyLane) (last : Bool) : State :=
  let t := lineBytes ls
  let va := (minOf (ls.map (·.dstVa))).getD 0
  let closes := last && (match ls with
    | l :: _ => (match s.place l.to with
      | .mail _ _ => (o.sameBox l.to).any fun y => mailClose (y.to % 2 ^ 26 - 0x400000)
      | _ => false)
    | [] => false)
  let runs := runsOf t
  s.addHeld w va 1 (t.map fun x => x.2.1) ((List.range runs.length).map fun i =>
    let r := runs.getD i (0, [], [])
    ⟨0, 0, r.1, r.2.1, none, closes && i + 1 = runs.length, r.2.2, none, none⟩)

/-- The lines of a copy that retires join the window of its warp, one by one. One that does not fit ends the window just before it, and the rest follow
later (R356). -/
def State.holdLines (w : Nat) (o : CopyOp) (all : List (List CopyLane)) : Nat → State → State
  | 0, s => s
  | n + 1, s =>
    let i := all.length - (n + 1)
    let ls := all.getD i []
    if s.holdFull w (lineBytes ls).length then s.modWarp w (·.forcePoint true)
    else
      let last := !((all.drop (i + 1)).flatten.any fun y => sameMail ((ls.head?.map CopyLane.to).getD 0) y.to)
      let s1 := (s.holdLine w o ls last).modWarp w (·.modCopyAt o.seq fun x => { x with held := i + 1 })
      State.holdLines w o all n s1
/-- The lines of a copy that are held for the twin. -/
def State.linesHeld (s : State) (w : Nat) (o : CopyOp) : List (List CopyLane) := if s.copyHolds w o then o.heldLines else []

/-- The oldest copy retires. -/
def State.retireCopy (s : State) (w : Nat) : State :=
  match (s.warp w).copyQ with
  | o :: r =>
    if !o.fin then s
    else
      let lines := s.linesHeld w o
      let s1 := if (s.warp w).holdsOn then s else State.holdLines w o lines (lines.length - o.held) s
      if ((s1.warp w).copyQ.head?.map (·.held)).getD 0 < lines.length then s1
      else
        let s2 := if s.copyHolds w o then s1.slotDone (s1.warp w).group o else s1
        let s3 := s2.modWarp w fun x => { x with copyQ := r, qcopy := x.qcopy - 1 }
        (s3.tokenDone w o.tok o.err).engineWaits w
  | [] => s
/-- The oldest gather retires. -/
def State.retireGath (s : State) (w : Nat) : State :=
  match (s.warp w).gathQ with
  | o :: r =>
    if !o.fin then s
    else
      let s1 := s.modWarp w fun x => { x with gathQ := r, qgath := x.qgath - 1 }
      (s1.tokenDone w o.tok o.err).engineWaits w
  | [] => s

/-- The result of an MRTY or MGIVE goes to its register (R310). -/
def MatOp.result (o : MatOp) : Option Nat :=
  match o.kind with
  | .mrty _ d => some d
  | .mgive _ d _ => some d
  | _ => none
/-- The matrix operations of a warp: one that has started and needs no array completes, and the oldest one retires when it is
complete. Tiles and locks that this frees let waiting window stores through (R176). -/
def State.retireMat (s : State) (w : Nat) : State :=
  let g := (s.warp w).group
  let core := (s.group g).core
  let s1 := match (s.group g).matQ.find? fun o => o.warp = w && o.started && !o.fin && !s.needsArray core o.kind with
    | some o => s.completeOp g o
    | none => s
  if (tget? s1.groups g).isNone then s1
  else
    let s2 := match (s1.group g).matQ.find? fun o => o.warp = w with
      | some o =>
        if o.fin then
          let x := (s1.freeArrays g o.id).modGroup g fun y => { y with matQ := y.matQ.filter fun p => p.id != o.id }
          let y := x.modWarp w fun z =>
            let z' := { z with qmat := z.qmat - 1 }
            match o.result with | some d => z'.wrS d (BitVec.ofNat 64 o.out) | none => z'
          y.engineWaits w
        else s1
      | none => s1
    (s2.tileRelease core).tileRelease (pairCore core)

end Sys2Proof.Machine
end

