-- ==== Sys2Proof/Machine/Coll.lean ====
section
/-! DEFINITION. Collectives and coded shuffles: XRED, XBC, XSHF, XSIDE, XQRY, and the steps of the Glade (R89, R387 to R406). -/

namespace Sys2Proof.Machine

/-! ## Operations of warps (R388, R401) -/

/-- An operation, in every warp that counts it. -/
def State.modColl (s : State) (opId : Nat) (f : CollOp → CollOp) : State :=
  { s with warps := s.warps.map fun x => (x.1, { x.2 with collQ := x.2.collQ.map fun o => if o.opId = opId then f o else o }) }
/-- An operation completes with ERR. -/
def State.collDone (s : State) (opId err : Nat) : State :=
  s.modColl opId fun o => { o with fin := true, err := if o.err = 0 then err else o.err }
/-- An operation is enqueued and counted, in a paired grid by both copies (R404). -/
def Warp.addColl (w : Warp) (o : CollOp) : Warp := { w with collQ := w.collQ ++ [o], qcoll := w.qcoll + 1 }
def State.enqueueColl (s : State) (o : CollOp) : State :=
  let s1 := { s with nextOp := s.nextOp + 1 }
  let s2 := s1.modW (·.addColl o)
  match s2.w.win, s2.twinOf s2.iss.key with
  | some _, some k => s2.modWarp k fun w => (w.addColl o).setGift (some [])
  | _, _ => s2

/-- KIND of R401. -/
def CollKind.code : CollKind → Nat
  | .xred _ => 1 | .xbc _ => 2 | .xshf => 3 | .xside => 4
/-- The status of R401. -/
def CollOp.status (o : CollOp) : W64 :=
  BitVec.ofNat 64 (CollKind.code o.kind + o.err * 2 ^ 8 + min 0xFFFF o.miss * 2 ^ 16 + o.id * 2 ^ 32)

/-- XRED and XBC of another module's instance, whose home tells when it is done (R391). -/
def CollOp.away (o : CollOp) (pkg : Nat) : Bool :=
  match o.kind with
  | .xred j | .xbc j => j.home != pkg
  | _ => false
/-- The home of an instance on another module tells that an operation is done (R391). -/
def State.joinedAway (s : State) (opId err : Nat) : State :=
  match (s.warps.flatMap fun x => x.2.collQ).find? fun o => o.opId = opId with
  | some o => if o.away s.pkg then s.collDone opId err else s
  | none => s
/-- The oldest collective operation of a warp retires (R206, R400). -/
def State.retireColl (s : State) (w : Nat) : State :=
  match (s.warp w).collQ with
  | o :: r =>
    if o.fin then
      let s1 := s.modWarp w fun x => { x with
        collQ := r, qcoll := x.qcoll - 1, xstat := o.status
        reports := match o.report with | some t => x.reports ++ [(o.id, t)] | none => x.reports }
      if savedKey w then s1.putNat (s1.recordAt w + 0x06A0 + 8 * 0x12) 8 (s1.warp w).qcoll else s1.engineWaits w
    else s
  | [] => s

/-- ENGINE_OP_RETIRE: the oldest operation of a class of a warp retires when it is complete. -/
def execEngineOpRetire (w : Nat) (c : QClass) (s : State) : Res :=
  if (tget? s.warps w).isNone then .next s
  else
    match c with
    | .copy => .next (if s.live w then s.retireCopy w else s)
    | .gather => .next (if s.live w then s.retireGath w else s)
    | .matrix => .next (if s.live w then s.retireMat w else s)
    | .coll => .next (s.retireColl w)

/-! ## Reading descriptors (R388) -/

/-- An area cut at the borders of 4 KiB pages. -/
def areaFrom : Nat → Nat → Nat → List Span
  | 0, _, _ => []
  | k + 1, va, n =>
    if n = 0 then []
    else
      let m := min n (4096 - va % 4096)
      ⟨32, BitVec.ofNat 64 va, m⟩ :: areaFrom k (va + m) (n - m)
def areaSpans (va : W64) (n : Nat) : List Span := areaFrom (n / 4096 + 2) va.toNat n

/-- Areas are read, as the issuing warp sees them. -/
def State.peek (s : State) (ps : List Span) : State × List Byte :=
  ps.foldl (fun (acc : State × List Byte) p =>
    let x := acc.1.plainLoad .read acc.1.uniLane p.va p.n
    (x.1, acc.2 ++ x.2)) (s, [])

/-- The pages of an area are read: translation as a read, backing, and poison (R388 steps 1 and 3). -/
def State.collRead (s : State) (ps : List Span) (body : State → List Byte → Res) : Res :=
  match s.checkPages .read (some s.iss.set) s.iss.set ps with
  | some s' => .next s'
  | none =>
    match s.placeCheck .read .load s.iss.set ps with
    | some s' => .next s'
    | none =>
      let own := ps.map fun p => { p with lane := s.uniLane }
      if s.w.flights != [] || s.lockStalls .read false own then .next (s.lineWait .read false own)
      else if s.behindOwn .read .load ps then .next s.waitIssue
      else
        match s.poisonIn .read (fun _ _ => false) ps with
        | some va => .next (s.killBy s.iss.key 1 (BitVec.ofNat 64 va) s.iss.set)
        | none => body (s.peek ps).1 (s.peek ps).2

/-- The descriptor at the address in sa (R388 steps 1 and 2), inside no transaction (R230). -/
def State.collDesc (s0 : State) (a : Nat) (body : State → W64 → List Byte → Res) : Res :=
  let s := s0.txGuard abEngine
  let va := s.rdS a
  if s.emptied then .next s.finish
  else if !canonical va then .next (s.trap cAccess va)
  else if va.toNat % 64 != 0 then .next (s.trap cAlign va)
  else s.collRead [⟨32, va, 64⟩] fun s bs => body s va bs

/-- The base of the page that holds an address. -/
def State.pageVa (s : State) (k : AKind) (va : W64) : W64 :=
  let n := (s.tr k va).2.1
  BitVec.ofNat 64 (va.toNat / 2 ^ n * 2 ^ n)
/-- The pages of areas that are read and areas that are written, in ascending order, with the kind of each; the lowest address of each that is
touched. -/
def collItems (rd wr : List Span) : List (AKind × Nat) :=
  (sortNat (pagesOf rd ++ pagesOf wr)).flatMap fun p =>
    (if (pagesOf rd).contains p then [(AKind.engRead, lowestIn rd (p * 4096) 4096)] else []) ++
    (if (pagesOf wr).contains p then [(AKind.engWrite, lowestIn wr (p * 4096) 4096)] else [])
/-- Their walks: the pages that fail, and one that ends them. -/
def State.walkItems (s : State) : List (AKind × Nat) → List (AKind × PageFail) × WalkEnd
  | [] => ([], .all)
  | x :: r =>
    match s.walk (s.coreNum / 48) s.gr.ctx (BitVec.ofNat 64 x.2) x.1 with
    | .ok _ _ _ => s.walkItems r
    | .miss sz perm => let q := s.walkItems r; ((x.1, ⟨x.2, sz, perm⟩) :: q.1, q.2)
    | .malformed => ([], .malformed x.2)
    | .poison => ([], .poison x.2)
/-- One entry for each distinct failing page and kind. -/
def distinctItems : List (AKind × PageFail) → List (AKind × PageFail)
  | [] => []
  | f :: r => f :: (distinctItems r).filter fun g => !(g.1 = f.1 && g.2.page = f.2.page && g.2.va / 2 ^ g.2.page = f.2.va / 2 ^ f.2.page)
/-- The pages that an operation reads and writes, in ascending order over both (R388 step 4): as `checkPages`, with kinds 4 and 5; and then the lowest
that is no device memory. -/
def State.collPages (s0 : State) (rd wr : List Span) : Option State :=
  match (s0.pagesAway .engRead rd).or (s0.pagesAway .engWrite wr) with
  | some a => some (s0.seek (.thread s0.iss.key 33) false a 8).waitIssue
  | none =>
    let s := (s0.touchPages .engRead rd).touchPages .engWrite wr
    let items := collItems rd wr
    let r := s.walkItems items
    match distinctItems r.1, r.2 with
    | [], .all =>
      (items.find? fun x => s.place (s.tr x.1 (BitVec.ofNat 64 x.2)).1 != .device).map fun x =>
        s.trap cAccess (s.pageVa x.1 (BitVec.ofNat 64 x.2))
    | [], .malformed va => some (s.trapAct s.iss.set cXlate (BitVec.ofNat 64 va))
    | [], .poison va => some (s.killBy s.iss.key 1 (BitVec.ofNat 64 va) s.iss.set)
    | f :: fs, _ =>
      if s.w.cover = some s.iss.pc || !s.hasQueue then some (s.trapAct s.iss.set cXlate (BitVec.ofNat 64 f.2.va))
      else
        let bytes := fun k : AKind => (if k = .engRead then rd else wr).flatMap Span.bytes
        let flags := fun g : AKind × PageFail =>
          b2n g.2.perm * 2 + b2n ((bytes g.1).any fun b => b / 2 ^ g.2.page != g.2.va / 2 ^ g.2.page) * 4 + b2n s.w.handler * 8
        some ((f :: fs).foldl (fun (s' : State) g =>
          s'.faultEntry ⟨BitVec.ofNat 64 g.2.va, s.gr.ctx, s.coreNum, warpSlot s.iss.key, g.1.code, g.2.size, flags g, s.iss.set⟩) s).waitService

/-- R388 step 5: the release at node scope; in a paired grid the bytes that the copy read enter its signature (R404). -/
def State.collRelease (s : State) (bs : List Byte) : Option State :=
  let away := if s.w.flights != [] || s.storesWait s.iss.key || s.ost s.iss.key != 0 then some s.stall else none
  match s.w.win with
  | some x =>
    if x.passed then away
    else if x.due then some s.stall
    else
      let w := if x.atPoint && !x.engine then x else { x with sig := x.sig + crc64 bs }
      some ((s.modW fun y => { y with win := some { w with atPoint := true, engine := false } }).stall)
  | none => away

/-- The issue of an operation after its checks: the counter, the release, and the operation; the second copy of a pair takes the
first's. -/
def State.collIssue (s : State) (bs : List Byte) (act : State → State) : Res :=
  if 255 ≤ s.w.qcoll && (s.w.win.bind fun x => x.gift).isNone then .next s.waitIssue
  else
    match s.collRelease bs with
    | some s' => .next s'
    | none =>
      match s.w.win.bind fun x => x.gift with
      | some _ => .next (s.modW (Warp.setGift · none)).advance
      | none => .next (act s).advance

/-! ## XRED and XBC (R390) -/

/-- Sizes of the element types of R34 that XRED takes. -/
def typeBytes (t : Nat) : Nat :=
  if t = 3 || t = 7 || t = 8 then 8 else if t = 2 || t = 6 || t = 9 then 4 else if t = 10 || t = 11 then 2 else 1
/-- FN and TYPE go together (R390). -/
def redTypeOk (fn t : Nat) : Bool :=
  if fn ≤ 5 then t = 2 || t = 3 || t = 6 || t = 7
  else if fn = 8 then 8 ≤ t && t ≤ 13
  else (fn = 9 || fn = 10) && (t = 8 || t = 9)

/-- n bytes of a descriptor at an offset are 0. -/
def zeroAt (bs : List Byte) (o n : Nat) : Bool := recNat bs o n = 0
/-- The participant that a descriptor describes; addresses are filled in later. -/
def joinRead (bs : List Byte) (xred : Bool) : JoinPkt :=
  { pkg := 0, xred := xred, id := recNat bs 0 4, p := recNat bs 4 2, index := recNat bs 6 2, fn := recNat bs 8 1, ty := recNat bs 9 1
    mode := recNat bs 10 1, home := recNat bs 11 1, root := recNat bs 12 2, count := recNat bs 16 4, src := [], dst := []
    warp := none, opId := 0, ctx := 0, die := 0 }
def joinBytes (j : JoinPkt) : Nat := if j.xred then j.count * typeBytes j.ty else j.count
/-- This participant is pulled. -/
def joinPulled (j : JoinPkt) : Bool := j.xred || j.index = j.root
/-- A field is outside its limits (R390). -/
def State.joinBad (s : State) (j : JoinPkt) (bs : List Byte) : Bool :=
  let src := recW bs 24
  let dst := recW bs 32
  j.id = 0 || !within 2 4096 j.p || j.p ≤ j.index || j.p ≤ j.root || 2 ≤ j.mode ||
  !(j.home = s.pkg || (j.home < 32 && vget 0 s.routes j.home != 0)) ||
  (if j.xred then !redTypeOk j.fn j.ty || !within 1 (2 ^ 24) j.count
   else j.fn != 0 || j.ty != 0 || j.mode != 1 || !within 1 (2 ^ 26) j.count) ||
  (joinPulled j && (!canonical src || src.toNat % 256 != 0)) || !canonical dst || dst.toNat % 256 != 0 ||
  !zeroAt bs 14 2 || !zeroAt bs 20 4 || !zeroAt bs 40 24

/-- The physical addresses of the 256-byte chunks of an area. -/
def State.chunks (s : State) (k : AKind) (va : W64) (n : Nat) : List Nat :=
  (List.range ((n + 255) / 256)).map fun c => (s.tr k (va + BitVec.ofNat 64 (c * 256))).1

/-! ## Instances at their home (R391, R392) -/

/-- Two Joins belong together. -/
def joinSame (a b : JoinPkt) : Bool :=
  a.xred = b.xred && a.p = b.p && a.fn = b.fn && a.ty = b.ty && a.mode = b.mode && a.home = b.home && a.root = b.root && a.count = b.count
/-- A participant's operation is done: at this module, or told to the module that sent the Join. -/
def State.joinDone (s : State) (j : JoinPkt) (err : Nat) : State :=
  match j.warp with
  | some _ => s.collDone j.opId err
  | none => s.sendColl j.pkg (.joinDone j.id j.opId err)

/-- A participant receives the result. -/
def Instance.receives (i : Instance) (j : JoinPkt) : Bool := j.dst != [] && (i.first.mode % 2 = 1 || j.index = i.first.root)
/-- A Join enters an instance; a receiver that comes after the first chunk has earlier ones to receive. -/
def Instance.join (i : Instance) (j : JoinPkt) : Instance :=
  { i with joined := i.joined ++ [j], late := if i.chunk != 0 && i.receives j then i.late ++ [(j, 0)] else i.late }
/-- A Join reaches its quarter, or waits at its hub for room in the table. -/
def State.joinArrive (s : State) (j : JoinPkt) : State :=
  let q := j.id % 4
  if s.closedIds.contains (q, j.id) then s.joinDone j 6
  else
    match s.instances.find? fun i => i.first.id = j.id with
    | some i =>
      if !joinSame i.first j then s.joinDone j 1
      else { s with instances := s.instances.map fun x => if x.first.id = j.id then x.join j else x }
    | none =>
      if 256 ≤ (s.instances.filter fun i => i.quarter = q).length then { s with joinWait := s.joinWait ++ [j] }
      else { s with instances := s.instances ++ [⟨q, j, [j], 0, [], []⟩] }

/-- JOIN: a Join arrives from another module, unless that is quarantined (R382). -/
def execJoin (j : JoinPkt) (s : State) : Res := .next (if s.quarantined (32 + j.pkg) then s else s.joinArrive { j with warp := none })

/-- The first Join of an index is pulled. -/
def Instance.member (i : Instance) (ix : Nat) : Option JoinPkt := i.joined.find? fun j => j.index = ix
/-- All indices have joined. -/
def Instance.full (i : Instance) : Bool := (List.range i.first.p).all fun ix => (i.member ix).isSome

/-- The atomic function that a reduction's codes stand for. -/
def collFn (fn t : Nat) : AtomOp :=
  let ity := if t = 2 then IntTy.i32 else if t = 3 then .i64 else if t = 6 then .n32 else .n64
  let fty := if t = 8 then AtomFp.f64 else if t = 9 then .f32 else if t = 10 then .f16 else if t = 11 then .bf16
    else if t = 12 then .e4m3 else .e5m2
  if fn = 0 then .int .add ity else if fn = 1 then .int .min ity else if fn = 2 then .int .max ity else if fn = 3 then .int .and ity
  else if fn = 4 then .int .or ity else if fn = 5 then .int .xor ity
  else if fn = 8 then .flt .fadd fty else if fn = 9 then .flt .fmin fty else .flt .fmax fty

/-- Elements of the contributors in ascending index, combined (R89). -/
def redCombine (op : AtomOp) (xs : List Nat) : Nat :=
  match op, AtomOp.narrow op, xs with
  | .flt _ t, true, x :: r =>
    narrowTo (atomFmt t) (r.foldl (fun acc y => (fAddE (memEnv .rne) fmtF32 [acc, widen (atomFmt t) y]).1) (widen (atomFmt t) x))
  | _, _, x :: r => r.foldl (fun acc y => AtomOp.apply op .rne acc y 0) x
  | _, _, [] => 0

/-- The parts of a chunk that carry poison, by sector. -/
def State.poisonSectors (s : State) (pa n : Nat) : List Nat :=
  (List.range ((n + 31) / 32)).filter fun k => s.poisonedIn (pa + 32 * k) (min 32 (n - 32 * k))

/-- The bytes of a chunk and its poisoned result sectors. -/
def State.chunkResult (s : State) (i : Instance) (n : Nat) : List Byte × List Nat :=
  let addr := fun j : JoinPkt => j.src.getD i.chunk 0
  if i.first.xred then
    let k := typeBytes i.first.ty
    let js := (List.range i.first.p).filterMap i.member
    let op := collFn i.first.fn i.first.ty
    ((List.range (n / k)).flatMap fun e => leBytes k (redCombine op (js.map fun j => s.getNat (addr j + e * k) k)),
     sortNat (js.flatMap fun j => s.poisonSectors (addr j) n))
  else
    match i.member i.first.root with
    | some j => (s.getBytes (addr j) n, s.poisonSectors (addr j) n)
    | none => ([], [])

/-- The participants that receive the result. -/
def Instance.receivers (i : Instance) : List JoinPkt :=
  i.joined.filter i.receives

/-- The Glade's access to memory. -/
def gladeBy : By := ⟨.other, none, none⟩
/-- The Glade finds lines of n bytes that are not at hand: it asks for them, and the step is made later (R237, R242, R365). -/
def State.gladeWaits (s : State) (write : Bool) (pas : List Nat) (n : Nat) : Bool := pas.any fun pa => s.lockBlocks gladeBy.agent write pa n
def State.gladeSeeks (s : State) (write : Bool) (pas : List Nat) (n : Nat) : State :=
  pas.foldl (fun (s : State) pa => s.seek gladeBy.agent write pa n) s
/-- The Glade reads lines that it is about to combine or send. -/
def State.gladeReads (s : State) (pas : List Nat) (n : Nat) : State :=
  pas.foldl (fun (s : State) pa => (s.readAt gladeBy 12 false pa n).1) s
/-- Bytes written with poisoned sectors. -/
def State.gladeWrite (s : State) (pa : Nat) (bs : List Byte) (sectors : List Nat) : State :=
  let s1 := s.writeAt gladeBy 12 false pa bs none (sectors.map (· * 32))
  if s.distant gladeBy.agent pa then s1 else s1.setPoison (sectors.map fun k => pa + 32 * k)
/-- A write of the Glade on another module has not been acknowledged. -/
def State.gladeAway (s : State) : Bool := s.senderWaits gladeBy.agent.sender

/-- The Joins that waited at their hub enter in turn, as far as the table has room. -/
def State.joinRetry (s : State) (q : Nat) : State :=
  (s.joinWait.filter fun j => j.id % 4 = q).foldl (fun (s : State) j => s.joinArrive j)
    { s with joinWait := s.joinWait.filter fun j => j.id % 4 != q }

def State.modInstance (s : State) (id : Nat) (f : Instance → Instance) : State :=
  { s with instances := s.instances.map fun x => if x.first.id = id then f x else x }
/-- An instance closes: its participants' operations are done, with ERR, and its ID is remembered. -/
def State.closeInstance (s : State) (i : Instance) (err : Nat) : State :=
  let q := i.quarter
  let id := i.first.id
  let s1 := i.joined.foldl (fun (s : State) j => s.joinDone j err) { s with instances := s.instances.filter fun x => x.first.id != id }
  let mine := s1.closedIds.filter fun c => c.1 = q
  let rest := s1.closedIds.filter fun c => c.1 != q
  { s1 with closedIds := rest ++ (mine ++ [(q, id)]).drop (mine.length - 1023) }.joinRetry q
/-- The instance closes when every chunk has been delivered to everyone and every write performed. -/
def State.instanceEnd (s : State) (id : Nat) : State :=
  match s.instances.find? fun i => i.first.id = id with
  | some i => if 256 * i.chunk < joinBytes i.first || i.late != [] || s.gladeAway then s else s.closeInstance i 0
  | none => s
/-- The next chunk that a late participant has to receive is delivered to it. -/
def State.lateDeliver (s : State) (i : Instance) (j : JoinPkt) (c : Nat) : State :=
  let r := i.out.getD c ([], [])
  let pa := j.dst.getD c 0
  if s.gladeWaits true [pa] r.1.length then s.gladeSeeks true [pa] r.1.length
  else
    ((s.gladeWrite pa r.1 r.2).modInstance i.first.id fun x =>
      { x with late := (if c + 1 < i.chunk then [(j, c + 1)] else []) ++ x.late.drop 1 }).instanceEnd i.first.id

/-- COLLECTIVE_PULL: a chunk that a late participant has to receive, else the next chunk of a full instance, which is pulled, combined and delivered; with
the last one the instance closes. -/
def execCollectivePull (quarter id : Nat) (s : State) : Res :=
  match s.instances.find? fun i => i.quarter = quarter && i.first.id = id with
  | none => .next s
  | some i =>
    if !i.full then .next s
    else
      match i.late with
      | (j, c) :: _ => .next (s.lateDeliver i j c)
      | [] =>
        let n := min 256 (joinBytes i.first - 256 * i.chunk)
        let rd := (((List.range i.first.p).filterMap i.member).filter joinPulled).map fun j => j.src.getD i.chunk 0
        let wr := i.receivers.map fun j => j.dst.getD i.chunk 0
        if joinBytes i.first ≤ 256 * i.chunk then .next (s.instanceEnd id)
        else if s.gladeWaits false rd n || s.gladeWaits true wr n then .next ((s.gladeSeeks false rd n).gladeSeeks true wr n)
        else
          let s0 := s.gladeReads rd n
          let r := s0.chunkResult i n
          let s1 := i.receivers.foldl (fun (s : State) j => s.gladeWrite (j.dst.getD i.chunk 0) r.1 r.2) s0
          .next ((s1.modInstance id fun x => { x with chunk := x.chunk + 1, out := x.out ++ [r] }).instanceEnd id)

/-- XRED and XBC. -/
def State.collOp (s0 : State) (a : Nat) (xred : Bool) : Res :=
  s0.collDesc a fun s va bs =>
    let j := joinRead bs xred
    let src := recW bs 24
    let dst := recW bs 32
    if s.joinBad j bs then .next (s.trap cAccess va)
    else
      let rd := if joinPulled j then areaSpans src (joinBytes j) else []
      let wr := if dst = 0 then [] else areaSpans dst (joinBytes j)
      match s.collPages rd wr with
      | some s' => .next s'
      | none =>
        s.collIssue bs fun s =>
          let j1 := { j with
            pkg := s.pkg
            src := if joinPulled j then s.chunks .engRead src (joinBytes j) else []
            dst := if dst = 0 then [] else s.chunks .engWrite dst (joinBytes j)
            warp := some s.iss.key, opId := s.nextOp, ctx := s.gr.ctx, die := s.coreNum / 48 }
          let op : CollOp := ⟨s.nextOp, if xred then .xred j1 else .xbc j1, j.id, 0, 0, [], none, false⟩
          let s1 := s.enqueueColl op
          if j.home = s.pkg then s1.joinArrive j1 else s1.sendColl j.home (.join j1)

def execXred (a : Nat) (s : State) : Res := s.collOp a true
def execXbc (a : Nat) (s : State) : Res := s.collOp a false

/-! ## Side information (R393 to R395) -/

/-- The other modules of the node instance (R381). -/
def State.peers (s : State) : List Nat := (List.range 32).filter fun m => m != s.pkg && vget 0 s.routes m != 0
def State.sideEntry (s : State) (ctx blk : Nat) : Option SideEntry := s.side.find? fun e => e.ctx = ctx && e.blk = blk
/-- The entries of a hub die's table. -/
def State.sideRoom (s : State) (blk : Nat) : Bool := (s.side.filter fun e => e.blk % 4 = blk % 4).length < 65536
/-- The entry of a block takes a form; one that holds nothing is dropped. -/
def State.setSide (s : State) (e : SideEntry) : State :=
  let rest := s.side.filter fun x => !(x.ctx = e.ctx && x.blk = e.blk)
  { s with side := if e.hold = 0 && e.kind = .none then rest else rest ++ [e] }
def State.sideKind (s : State) (ctx blk : Nat) : SideKind := ((s.sideEntry ctx blk).map (·.kind)).getD .none
/-- A Withdraw goes to every other module; its TAG names the operation that sends it. -/
def State.withdrawAll (s : State) (ctx blk : Nat) (tag : Nat := 0) : State :=
  s.peers.foldl (fun (s : State) m => s.sendColl m (.withdraw ctx blk) tag) s

def SideKind.lastUse : SideKind → Option Nat
  | .buf _ _ u => some u
  | _ => Option.none
/-- A hub die without a free decode-buffer slot takes the least recently used one (R395). -/
def State.evictSlot (s : State) (blk : Nat) : State :=
  let bufs := s.side.filter fun e => e.blk % 4 = blk % 4 && e.kind.lastUse.isSome
  if bufs.length < 65536 then s
  else
    match minOf (bufs.filterMap fun e => e.kind.lastUse) with
    | none => s
    | some u =>
      match bufs.find? fun e => e.kind.lastUse = some u with
      | some e => (s.setSide { e with kind := .none }).withdrawAll e.ctx e.blk
      | none => s

/-- The progress of an XSIDE: the tables that have been full, the error code, and how many Adverts or Withdraws have gone to every other module. -/
structure SideRun where
  s : State
  full : List Nat
  sent : Nat

/-- A record of XSIDE is added or removed (R394). A table that has been full takes no later record of the operation. -/
def SideRun.record (x : SideRun) (ctx op tag blk pa : Nat) : SideRun :=
  let s := x.s
  let old := s.sideEntry ctx blk
  let hold := (old.map (·.hold)).getD 0
  if op = 3 then
    ⟨(match old with
      | some e => s.setSide { e with kind := .none }
      | none => s).withdrawAll ctx blk tag, x.full, x.sent + 1⟩
  else if x.full.contains (blk % 4) then x
  else if old.isNone && !s.sideRoom blk then { x with full := blk % 4 :: x.full }
  else
    let inBuf := match old with | some e => e.kind.lastUse.isSome | none => false
    let s1 := if op = 2 then (if inBuf then s else s.evictSlot blk).gladeReads [pa] 256 else s
    let kind := if op = 1 then SideKind.mem pa
      else .buf (s1.getBytes pa 256) ((List.range 8).map fun k => (s1.poisonSectors pa 256).contains k) s1.sideUse
    let s2 := { s1.setSide ⟨ctx, blk, hold, kind⟩ with sideUse := s1.sideUse + 1 }
    ⟨s2.peers.foldl (fun (s : State) m => s.sendColl m (.advert ctx blk) tag) s2, x.full, x.sent + 1⟩

/-- A field of XSIDE's descriptor is outside its limits. -/
def sideBad (bs : List Byte) : Bool :=
  let list := recW bs 8
  !within 1 65536 (recNat bs 0 4) || !within 1 3 (recNat bs 4 1) || !canonical list || list.toNat % 16 != 0 ||
  !zeroAt bs 5 3 || !zeroAt bs 16 48

def execXside (a : Nat) (s0 : State) : Res :=
  s0.collDesc a fun s va bs =>
    let nb := recNat bs 0 4
    let op := recNat bs 4 1
    if sideBad bs then .next (s.trap cAccess va)
    else
      s.collRead (areaSpans (recW bs 8) (nb * 16)) fun s ls =>
        let recs := (List.range nb).map fun i => (recNat ls (16 * i) 4, recW ls (16 * i + 8), recNat ls (16 * i + 4) 4)
        if recs.any fun r => r.2.2 != 0 || (op != 3 && (r.2.1.toNat % 256 != 0 || !canonical r.2.1)) then .next (s.trap cAccess va)
        else
          match s.collPages (if op = 3 then [] else recs.map fun r => ⟨32, r.2.1, 256⟩) [] with
          | some s' => .next s'
          | none =>
            let blocks := if op = 2 then recs.map fun r => (s.tr .engRead r.2.1).1 else []
            if s.gladeWaits false blocks 256 then .next (s.gladeSeeks false blocks 256).waitIssue
            else
            s.collIssue (bs ++ ls) fun s =>
              let r := recs.foldl (fun (x : SideRun) r => x.record s.gr.ctx op s.nextOp r.1 (s.tr .engRead r.2.1).1) ⟨s, [], 0⟩
              let left := (List.replicate r.sent s.peers).flatten
              r.s.enqueueColl ⟨s.nextOp, .xside, 0, if r.full = [] then 0 else 3, 0, left, none, left = []⟩

/-- SIDE_ACK: a module has acknowledged an Advert or a Withdraw of an XSIDE; with the last one it is complete. -/
def execSideAck (_w opId from_ : Nat) (s : State) : Res :=
  .next (s.modColl opId fun o =>
    if o.kind = .xside then (let l := o.left.erase from_; { o with left := l, fin := o.fin || l = [] }) else o)

/-- ADVERT: another module holds a block; a full table drops it. It is acknowledged (R394, R405). -/
def execAdvert (from_ ctx blk : Nat) (s : State) : Res :=
  if s.quarantined (32 + from_) then .next s else
  let s1 := match s.sideEntry ctx blk with
    | some e => s.setSide { e with hold := e.hold ||| bit32 from_ }
    | none => if s.sideRoom blk then s.setSide ⟨ctx, blk, bit32 from_, .none⟩ else s
  .next (s1.sendColl from_ (.sideAck ctx blk) s.replyTo.2)
/-- WITHDRAW: another module holds a block no longer. -/
def execWithdraw (from_ ctx blk : Nat) (s : State) : Res :=
  if s.quarantined (32 + from_) then .next s else
  let s1 := match s.sideEntry ctx blk with
    | some e => s.setSide { e with hold := e.hold &&& ~~~(bit32 from_) }
    | none => s
  .next (s1.sendColl from_ (.sideAck ctx blk) s.replyTo.2)

/-! ## Shuffle plans (R396 to R400) -/

/-- CRC-32C of R250, reflected, as storage uses it (PRESUMED, log entry 22). -/
def crc32c (bs : List Byte) : Nat :=
  let step := fun (x : W32) => if x.getLsbD 0 then (x >>> 1) ^^^ 0x82F63B78 else x >>> 1
  (~~~(bs.foldl (fun (x : W32) b => (List.range 8).foldl (fun y _ => step y) (x ^^^ BitVec.setWidth 32 b)) 0xFFFFFFFF)).toNat

def State.plan? (s : State) (ctx id : Nat) : Option Plan := s.plans.find? fun p => p.ctx = ctx && p.id = id
def State.modPlan (s : State) (ctx id : Nat) (f : Plan → Plan) : State :=
  { s with plans := s.plans.map fun p => if p.ctx = ctx && p.id = id then f p else p }
def State.dropPlan (s : State) (ctx id : Nat) : State := { s with plans := s.plans.filter fun p => !(p.ctx = ctx && p.id = id) }
def Plan.modXfer (p : Plan) (i : Nat) (f : Xfer → Xfer) : Plan := { p with xfers := lmod p.xfers i f }
/-- The modules a plan names. -/
def Plan.named (p : Plan) : List Nat := sortNat (p.xfers.flatMap fun x => [x.src, x.dst])
/-- Every named module has agreed the digest (R405). -/
def Plan.agreed (p : Plan) (pkg : Nat) : Bool := p.named.all fun m => m = pkg || tget? p.digests m = some p.digest

def XferState.sendDone : XferState → Bool
  | .acked | .failed => true
  | _ => false
def XferState.takeDone : XferState → Bool
  | .written | .missed | .failed => true
  | _ => false
/-- Nothing remains to be done for a plan on this module (R399). -/
def Plan.done (p : Plan) (pkg : Nat) : Bool :=
  p.agreed pkg && p.xfers.all fun x => (x.src != pkg || x.state.sendDone) && (x.dst != pkg || x.state.takeDone)

/-- A plan whose work is done retires its operations, with the miss report of a STRICT one (R400). -/
def State.planCheck (s : State) (ctx id : Nat) : State :=
  match s.plan? ctx id with
  | none => s
  | some p =>
    if p.done s.pkg && !s.gladeAway then
      p.ops.foldl (fun (s : State) o => s.modColl o fun c => { c with
        fin := true, err := p.err, miss := p.misses
        report := if p.strict then minOf p.missed else none }) (s.dropPlan ctx id)
    else s
/-- A plan ends before its work is done: its operations complete with ERR, and the digests that have not come yet belong to no later plan. -/
def State.failPlan (s : State) (p : Plan) (err : Nat) : State :=
  let due := p.named.filter fun m => m != s.pkg && (tget? p.digests m).isNone
  p.ops.foldl (fun (s : State) o => s.collDone o err)
    { (s.dropPlan p.ctx p.id) with digestsDue := s.digestsDue ++ due.map fun m => (p.ctx, p.id, m) }
/-- A digest that differs ends the plan with ERR 1 (R396). -/
def State.planDigests (s : State) (ctx id : Nat) : State :=
  match s.plan? ctx id with
  | none => s
  | some p =>
    if p.named.any fun m => m != s.pkg && (match tget? p.digests m with | some d => d != p.digest | none => false) then
      s.failPlan p 1
    else s.planCheck ctx id

/-- PLAN_DIGEST: another module's digest arrives; one for a plan not open here is kept, and one of a plan that has ended is not. -/
def execPlanDigest (ctx id from_ digest : Nat) (s : State) : Res :=
  if s.digestsDue.contains (ctx, id, from_) then .next { s with digestsDue := s.digestsDue.erase (ctx, id, from_) } else
  match s.plan? ctx id with
  | some _ => .next ((s.modPlan ctx id fun p => { p with digests := tput p.digests from_ digest }).planDigests ctx id)
  | none => .next { s with digests := (s.digests.filter fun d => !(d.1 = ctx && d.2.1 = id && d.2.2.1 = from_)) ++ [(ctx, id, from_, digest)] }

/-- A field of the header is outside its limits (R396). -/
def planBad (bs : List Byte) : Bool :=
  let miss := recW bs 16
  recNat bs 0 4 = 0 || !within 1 65536 (recNat bs 4 4) || 4 ≤ recNat bs 8 1 || !canonical miss || miss.toNat % 16 != 0 ||
  !zeroAt bs 9 7 || !zeroAt bs 28 36
/-- An entry is outside its limits; DADDR is an address of this module only where the entry's DST is this module, and is canonical there (R12). -/
def xferBad (pkg : Nat) (bs : List Byte) (o : Nat) : Bool :=
  recNat bs (o + 4) 1 = recNat bs (o + 5) 1 || !zeroAt bs (o + 6) 2 || recNat bs (o + 8) 8 % 256 != 0 ||
  (recNat bs (o + 5) 1 = pkg && !canonical (recW bs (o + 8)))

/-- A plan is opened: its digest goes to the other named modules. -/
def State.openPlan (s : State) (ctx : Nat) (bs ls : List Byte) (opId : Nat) : State :=
  let id := recNat bs 0 4
  let nt := recNat bs 4 4
  let miss := recW bs 16
  let cap := recNat bs 24 4
  let xfers := (List.range nt).map fun i =>
    let o := 16 * i
    let dst := recNat ls (o + 5) 1
    (⟨recNat ls o 4, recNat ls (o + 4) 1, dst, if dst = s.pkg then (s.tr .engWrite (recW ls (o + 8))).1 else 0, .waiting⟩ : Xfer)
  let digest := crc32c (leBytes 4 id ++ leBytes 4 nt ++ xfers.flatMap fun x => leBytes 4 x.blk ++ leBytes 1 x.src ++ leBytes 1 x.dst)
  let pages := if miss = 0 then [] else (areaSpans miss (cap * 16)).map fun p => (s.tr .engWrite p.va).1
  let early := s.digests.filter fun d => d.1 = ctx && d.2.1 = id
  let p : Plan :=
    { ctx := ctx, id := id, strict := recNat bs 8 1 % 2 = 1, nocode := 2 ≤ recNat bs 8 1, miss := miss.toNat, missCap := if miss = 0 then 0 else cap
      missPas := pages, xfers := xfers, misses := 0, missed := [], err := 0, digest := digest
      digests := early.foldl (fun t d => tput t d.2.2.1 d.2.2.2) [], ops := [opId] }
  let s1 := { s with plans := s.plans ++ [p], digests := s.digests.filter fun d => !(d.1 = ctx && d.2.1 = id) }
  ((p.named.filter (· != s.pkg)).foldl (fun (s : State) m => s.sendColl m (.digest ctx id digest)) s1).planDigests ctx id

def execXshf (a : Nat) (s0 : State) : Res :=
  s0.collDesc a fun s va bs =>
    let nt := recNat bs 4 4
    let miss := recW bs 16
    let cap := recNat bs 24 4
    if planBad bs then .next (s.trap cAccess va)
    else
      s.collRead (areaSpans (va + 64) (nt * 16)) fun s ls =>
        if (List.range nt).any fun i => xferBad s.pkg ls (16 * i) then .next (s.trap cAccess va)
        else
          let mine := (List.range nt).filter fun i => recNat ls (16 * i + 5) 1 = s.pkg
          let wr := (mine.map fun i => (⟨32, recW ls (16 * i + 8), 256⟩ : Span)) ++ (if miss = 0 then [] else areaSpans miss (cap * 16))
          match s.collPages [] wr with
          | some s' => .next s'
          | none =>
            s.collIssue (bs ++ ls) fun s =>
              let ctx := s.gr.ctx
              let id := recNat bs 0 4
              let s1 := s.enqueueColl ⟨s.nextOp, .xshf, id, 0, 0, [], none, false⟩
              match s.plan? ctx id with
              | some _ => s1.modPlan ctx id fun p => { p with ops := p.ops ++ [s.nextOp] }
              | none => s1.openPlan ctx bs ls s.nextOp

/-! ## Packets (R397) -/

/-- A module holds a block, by this module's HOLD bits. -/
def State.holds (s : State) (ctx m blk : Nat) : Bool :=
  match s.sideEntry ctx blk with | some e => e.hold.getLsbD m | none => false
/-- The bytes of a block on this module and its poisoned sectors. -/
def State.blockBytes (s : State) (ctx blk : Nat) : Option (List Byte × List Bool) :=
  match s.sideKind ctx blk with
  | .none => none
  | .mem pa => some (s.getBytes pa 256, (List.range 8).map fun k => (s.poisonSectors pa 256).contains k)
  | .buf bs ps _ => some (bs, ps)
def xorBytes (a b : List Byte) : List Byte := (a.zip b).map fun p => p.1 ^^^ p.2
def orFlags (a b : List Bool) : List Bool := (a.zip b).map fun p => p.1 || p.2

/-- The entries of a packet: candidates join while every destination holds all the other blocks. -/
def State.pickXfers (s : State) (ctx : Nat) (p : Plan) : List Nat → List Nat → List Nat
  | [], acc => acc
  | i :: r, acc =>
    let x := p.xfers.getD i ⟨0, 0, 0, 0, .waiting⟩
    let ok := acc.all fun j =>
      let y := p.xfers.getD j ⟨0, 0, 0, 0, .waiting⟩
      y.dst != x.dst && s.holds ctx y.dst x.blk && s.holds ctx x.dst y.blk
    if acc.length = 4 then acc
    else if ok && s.sideKind ctx x.blk != .none then s.pickXfers ctx p r (acc ++ [i])
    else s.pickXfers ctx p r acc

/-- A transfer ends without its block: its destination is told. -/
def State.failXfer (s : State) (ctx id i : Nat) : State :=
  match s.plan? ctx id with
  | none => s
  | some p =>
    let x := p.xfers.getD i ⟨0, 0, 0, 0, .waiting⟩
    ((s.modPlan ctx id fun p => { (p.modXfer i fun y => { y with state := .failed }) with err := 2 }).sendColl
      x.dst (.transferFail ctx id i)).planCheck ctx id

/-- The addresses of the blocks that are read from memory. -/
def State.memBlocks (s : State) (ctx : Nat) (bs : List Nat) : List Nat :=
  bs.filterMap fun b => match s.sideKind ctx b with | .mem pa => some pa | _ => none
/-- A packet of transfers goes to their destinations. -/
def State.sendCoded (s : State) (ctx id : Nat) (p : Plan) (is_ : List Nat) : State :=
  let xs := is_.map fun i => (p.xfers.getD i ⟨0, 0, 0, 0, .waiting⟩, i)
  let pas := s.memBlocks ctx (xs.map fun x => x.1.blk)
  if s.gladeWaits false pas 256 then s.gladeSeeks false pas 256
  else
  let s := s.gladeReads pas 256
  let blocks := xs.filterMap fun x => s.blockBytes ctx x.1.blk
  let zero := (List.replicate 256 (0 : Byte), List.replicate 8 false)
  let sum := blocks.foldl (fun acc b => (xorBytes acc.1 b.1, orFlags acc.2 b.2)) zero
  let pkt : CodedPkt := ⟨ctx, id, s.pkg, xs.map fun x => (x.1.blk, x.2), sum.1, sum.2⟩
  let s1 := xs.foldl (fun (s : State) x => s.sendColl x.1.dst (.coded pkt)) s
  let s2 := s1.modPlan ctx id fun p => is_.foldl (fun p i => p.modXfer i fun y => { y with state := .sent }) p
  if 2 ≤ is_.length then { s2 with xqCoded := (s2.xqCoded + 1) % 2 ^ 32 } else s2

/-- PACKET_FORMATION: the source's Glade forms the next packet of an agreed plan. -/
def execPacketFormation (ctx id : Nat) (s : State) : Res :=
  match s.plan? ctx id with
  | none => .next s
  | some p =>
    if !p.agreed s.pkg then .next s
    else
      let unsent := (List.range p.xfers.length).filter fun i =>
        let x := p.xfers.getD i ⟨0, 0, 0, 0, .acked⟩
        x.src = s.pkg && x.state = .waiting
      match unsent with
      | [] => .next s
      | i :: r =>
        let x := p.xfers.getD i ⟨0, 0, 0, 0, .waiting⟩
        if s.sideKind ctx x.blk = .none then .next (s.failXfer ctx id i)
        else .next (s.sendCoded ctx id p (if p.nocode then [i] else s.pickXfers ctx p (r.take 64) [i]))

/-- A cancellation is a use of a decode-buffer slot (R395). -/
def State.useBlock (s : State) (ctx blk : Nat) : State :=
  match s.sideEntry ctx blk with
  | some e =>
    (match e.kind with
     | .buf bs ps _ => { s.setSide { e with kind := .buf bs ps s.sideUse } with sideUse := s.sideUse + 1 }
     | _ => s)
  | none => s

/-- The place of the next record at MISS. -/
def Plan.missAt (p : Plan) : Nat :=
  let off := p.miss % 4096 + 16 * p.misses
  let first := 4096 - p.miss % 4096
  if off < 4096 then p.missPas.getD 0 0 + 16 * p.misses else p.missPas.getD (off / 4096) 0 + (16 * p.misses - first) % 4096
/-- DECODE_MISS: it is counted, and recorded while MISS has room (R399, R406). -/
def State.decodeMiss (s : State) (p : Plan) (i blk : Nat) : State :=
  let s1 := if p.misses < p.missCap then
      s.gladeWrite p.missAt (leBytes 4 p.id ++ leBytes 4 i ++ leBytes 4 blk ++ leBytes 4 1) []
    else s
  { s1.modPlan p.ctx p.id fun q => { q with misses := q.misses + 1 } with xqMisses := (s1.xqMisses + 1) % 2 ^ 32 }

/-- The transfer of a coded packet whose destination this module is, and its number in the packet. -/
def State.mineIn (s : State) (k : CodedPkt) (p : Plan) : Option (Nat × Nat) :=
  k.blocks.find? fun b => (p.xfers.getD b.2 ⟨0, 0, 32, 0, .waiting⟩).dst = s.pkg
/-- What the decoding of a transfer reads, and what it writes: its other blocks and its place, or the record of a miss. -/
def State.decodeAreas (s : State) (k : CodedPkt) (p : Plan) (b : Nat × Nat) : List Nat × List Nat × Nat :=
  let others := k.blocks.filter fun c => c.2 != b.2
  if others.any fun c => s.sideKind k.ctx c.1 = .none then ([], if p.misses < p.missCap then [p.missAt] else [], 16)
  else (s.memBlocks k.ctx (others.map fun c => c.1), [(p.xfers.getD b.2 ⟨0, 0, 0, 0, .waiting⟩).dpa], 256)
/-- The decoding of a transfer waits for its lines. -/
def State.decodeWaits (s : State) (k : CodedPkt) (p : Plan) (b : Nat × Nat) : Bool :=
  let a := s.decodeAreas k p b
  s.gladeWaits false a.1 256 || s.gladeWaits true a.2.1 a.2.2
/-- CODED_PACKET: a destination decodes its transfer and writes it once (R398), or misses a block. A packet whose lines are not at hand waits: it is
taken later. -/
def execCodedPacket (k : CodedPkt) (s : State) : Res :=
  match s.plan? k.ctx k.plan with
  | none => .next s
  | some p =>
    match s.mineIn k p with
    | none => .next s
    | some b =>
      let x := p.xfers.getD b.2 ⟨0, 0, 0, 0, .waiting⟩
      let others := k.blocks.filter fun c => c.2 != b.2
      let a := s.decodeAreas k p b
      if x.state.takeDone then .next s
      else if s.decodeWaits k p b then .next ((s.gladeSeeks false a.1 256).gladeSeeks true a.2.1 a.2.2)
      else
        match others.find? fun c => s.sideKind k.ctx c.1 = .none with
        | some c =>
          let s1 := s.decodeMiss p b.2 c.1
          if p.strict then
            .next (((s1.modPlan k.ctx k.plan fun q => { (q.modXfer b.2 fun y => { y with state := .missed }) with
                missed := q.missed ++ [b.2] }).sendColl k.src (.transferAck k.ctx k.plan b.2 true)).planCheck k.ctx k.plan)
          else .next (s1.sendColl k.src (.fallbackReq k.ctx k.plan b.2))
        | none =>
          let s := s.gladeReads a.1 256
          let blocks := others.filterMap fun c => s.blockBytes k.ctx c.1
          let out := blocks.foldl (fun acc c => (xorBytes acc.1 c.1, orFlags acc.2 c.2)) (k.payload, k.poisoned)
          let s1 := others.foldl (fun (s : State) c => s.useBlock k.ctx c.1) s
          let s2 := s1.gladeWrite x.dpa out.1 ((List.range 8).filter fun i => out.2.getD i false)
          .next (((s2.modPlan k.ctx k.plan fun q => q.modXfer b.2 fun y => { y with state := .written }).sendColl
            k.src (.transferAck k.ctx k.plan b.2 false)).planCheck k.ctx k.plan)

/-- FALLBACKREQ: the source sends a block again, uncoded, to one receiver (R399). -/
def execFallbackreq (ctx id xfer _to : Nat) (s : State) : Res :=
  match s.plan? ctx id with
  | none => .next s
  | some p =>
    let x := p.xfers.getD xfer ⟨0, 32, 0, 0, .acked⟩
    if x.src != s.pkg || x.state != .sent || !p.agreed s.pkg then .next s
    else if s.sideKind ctx x.blk = .none then .next (s.failXfer ctx id xfer)
    else .next (s.sendCoded ctx id p [xfer])

/-- A collective packet waits for lines that the step it asks for reads or writes. -/
def State.collWaits (s : State) : CollMsg → Bool
  | .coded k =>
    (match s.plan? k.ctx k.plan with
     | none => false
     | some p =>
       match s.mineIn k p with
       | none => false
       | some b => !(p.xfers.getD b.2 ⟨0, 0, 0, 0, .waiting⟩).state.takeDone && s.decodeWaits k p b)
  | .fallbackReq ctx id i =>
    (match s.plan? ctx id with
     | none => false
     | some p =>
       let x := p.xfers.getD i ⟨0, 32, 0, 0, .acked⟩
       x.src = s.pkg && x.state = .sent && p.agreed s.pkg && s.gladeWaits false (s.memBlocks ctx [x.blk]) 256)
  | _ => false

/-- TRANSFERACK: a destination has acknowledged a transfer; at a destination, the source's word that a transfer has failed. -/
def execTransferack (ctx id xfer : Nat) (_missed : Bool) (s : State) : Res :=
  .next ((s.modPlan ctx id fun p => p.modXfer xfer fun x =>
    if x.src = s.pkg then { x with state := if x.state = .failed then .failed else .acked }
    else if x.dst = s.pkg && !x.state.takeDone then { x with state := .failed }
    else x).planCheck ctx id)

/-! ## Modules that are lost (R380, R382, R401) -/

/-- A collective operation has a participant on a module that is lost: the home of its instance, or a module that an XSIDE waits for. -/
def CollOp.loses (o : CollOp) (gone : List Nat) : Bool :=
  match o.kind with
  | .xred j | .xbc j => gone.contains j.home
  | .xside => o.left.any gone.contains
  | .xshf => false
/-- What the collectives lose with some modules: an operation, an instance or a plan with a participant there ends with ERR 4. -/
def State.collLose (s : State) (gone : List Nat) : State :=
  let ops := (s.warps.flatMap fun x => x.2.collQ).filter fun o => !o.fin && o.loses gone
  let s1 := ops.foldl (fun (s : State) o => s.collDone o.opId 4) s
  let s2 := (s1.instances.filter fun i => i.joined.any fun j => gone.contains j.pkg).foldl (fun (s : State) i => s.closeInstance i 4) s1
  (s2.plans.filter fun p => p.named.any gone.contains).foldl (fun (s : State) p => s.failPlan p 4) s2

/-! ## XQRY (R401, R402) -/

def execXqry (d sel : Nat) (s0 : State) : Res :=
  let s := s0.txGuard abEngine
  if s.emptied then .next s.finish
  else .next (s.wrS d (if sel = 0 then s.w.xstat else BitVec.ofNat 64 (s.xqCoded * 2 ^ 32 + s.xqMisses))).advance

end Sys2Proof.Machine
end

