-- ==== Sys2Proof/Machine/Save.lean ====
section
/-! DEFINITION. Saving the context of a group and restoring it (R238, R265, R276, R290, R337 to R340).

A saved group keeps its entry in the table of groups, marked `stored`; its warps take names that no slot has. What the core held for
it stands in State.saved. -/

namespace Sys2Proof.Machine

/-! ## Names -/

/-- New names for warps and groups. -/
structure Names where
  warp : List (Nat × Nat)
  group : List (Nat × Nat)
  deriving DecidableEq, Repr

def renamed (l : List (Nat × Nat)) (k : Nat) : Nat := ((l.find? fun x => x.1 = k).map (·.2)).getD k
def Names.w (n : Names) (k : Nat) : Nat := renamed n.warp k
def Names.g (n : Names) (k : Nat) : Nat := renamed n.group k

def Names.bar (n : Names) (b : BarRef) : BarRef :=
  match b.level with
  | .warp => { b with owner := n.w b.owner }
  | .group => { b with owner := n.g b.owner }
  | .gang | .grid => b
def Names.barrier (n : Names) (b : Barrier) : Barrier := { b with arrived := sortNat (b.arrived.map fun x => n.w (x / 32) * 32 + x % 32) }
def Names.hold (n : Names) : Hold → Hold
  | .bar b p => .bar (n.bar b) p
  | .rearrive b p y => .rearrive (n.bar b) p y
  | h => h
def Names.sender (n : Names) : Sender → Sender
  | .warp w => .warp (if w < 2 ^ 32 then n.w w else 2 ^ 32 + n.w (w - 2 ^ 32))
  | .hart h => .hart h
def Names.ofWarp (n : Names) (w : Warp) : Warp :=
  { w with
    group := n.g w.group
    bar := n.barrier w.bar
    evbind := w.evbind.map fun b => b.map n.bar
    parks := w.parks.map fun p => { p with hold := n.hold p.hold } }
def Names.ofGroup (n : Names) (k : Nat) (g : Group) : Group :=
  { g with
    core := n.g k / 64, entry := n.g k % 64
    bars := g.bars.map n.barrier
    takeQ := g.takeQ.map fun q => (n.w q.1, q.2)
    cbs := g.cbs.map fun c => c.map fun c => { c with
      waiters := c.waiters.map fun q => (n.w q.1, q.2)
      slots := c.slots.map fun x => { x with freedBy := x.freedBy.map n.w } }
    matQ := g.matQ.map fun o => { o with warp := n.w o.warp } }
def Names.use (n : Names) (a : ArrayUse) : ArrayUse := { a with group := n.g a.group }
def Names.ofCore (n : Names) (c : Core) : Core :=
  { c with
    mbOpen := c.mbOpen.map fun p => { p with sender := n.sender p.sender }
    mbWait := c.mbWait.map fun p => { p with sender := n.sender p.sender }
    tileWait := c.tileWait.map fun p => { p with sender := n.sender p.sender }
    array := c.array.map n.use
    pairHold := c.pairHold.map n.use }

/-- A table under new keys. -/
def retab {α : Type} (f : Nat → Nat) (h : Nat → α → α) (t : Tab α) : Tab α := t.foldl (fun r x => tput r (f x.1) (h x.1 x.2)) []

/-- Every name in the state is replaced. -/
def State.rename (s : State) (n : Names) : State :=
  { s with
    warps := retab n.w (fun _ w => n.ofWarp w) s.warps
    groups := retab n.g n.ofGroup s.groups
    gangs := s.gangs.map fun x => (x.1, { x.2 with
      groups := x.2.groups.map n.g, twin := x.2.twin.map n.g, bars := x.2.bars.map n.barrier })
    grids := s.grids.map fun x => (x.1, { x.2 with parent := x.2.parent.map n.g, bars := x.2.bars.map n.barrier })
    cores := s.cores.map fun x => (x.1, n.ofCore x.2)
    saved := retab n.g (fun _ v => { v with mbOpen := v.mbOpen.map fun p => { p with sender := n.sender p.sender } }) s.saved
    commits := s.commits.map fun c => match c.2 with | .warp w m d h => (c.1, .warp (n.w w) m d h) | .hart _ => c
    lock := s.lock.map fun l => { l with warp := n.w l.warp }
    lockQueue := s.lockQueue.map fun q => { q with warp := n.w q.warp }
    slotQueue := s.slotQueue.map fun q => (n.w q.1, q.2)
    remote := s.remote.map fun r => (r.1, { r.2 with warp := n.w r.2.warp, twin := r.2.twin.map n.w }) }

/-! ## The fixed fields of a warp record (R339) -/

/-- Offsets in the record and the bytes that stand there. -/
def State.fixedFields (s : State) (k : Nat) : List (Nat × List Byte) :=
  let w := s.warp k
  let lanes := List.range 32
  [(0x0000, lanes.flatMap fun t => leBytes 8 (w.thread t).pc.toNat),
   (0x0100, lanes.flatMap fun t => leBytes 4 (w.thread t).word),
   (0x0180, w.sregs.toList.flatMap fun v => leBytes 8 v.toNat),
   (0x0680, (List.range 8).flatMap fun n => leBytes 4 (w.rdM n).toNat),
   (0x06A0, (List.range 128).flatMap fun n => leBytes 8 (s.ctlOf k n).toNat),
   (0x0AA0, lanes.flatMap fun t => leBytes 4 (w.thread t).bcur.toNat),
   (0x0B20, lanes.flatMap fun t => leBytes 4 (w.thread t).txretry.toNat),
   (0x1000, (List.range 128).flatMap fun n => lanes.flatMap fun t => leBytes 4 (if w.holdsV n then (w.rdV n t).toNat else 0))]

/-- The address that a PC of a record stands for: bits [63:57] follow bit 56 and bits [1:0] are 0, since a PC is canonical (R12). What an edited
record that says otherwise does is DESIGN CHOICE, log entry 54. -/
def fixedPc (v : W64) : W64 := setFld ((v.setWidth 57).signExtend 64) 0 2 0
/-- A thread as the record has it (log entry 54): $bcur holds 8 bits (R123), and IRR and INTX can only be taken from a thread that is irrevocable. -/
def State.fixedThread (s : State) (a t : Nat) (x : Thread) : Thread :=
  let v := s.getNat (a + 0x0100 + 4 * t) 4
  let r := s.getNat (a + 0x0B20 + 4 * t) 4
  { x with
    pc := fixedPc (s.getW64 (a + 8 * t))
    irr := x.irr && bbit (numW r) 4 && bbit (s.getW64 (a + 0x06A0 + 8 * 0x28)) t
    status := if v % 4 = 0 then .eligible else if v % 4 = 1 then .waiting else if v % 4 = 2 then .exited else x.status
    frozen := v / 4 % 2 = 1
    wait := min 287 (v / 16 % 512)
    bcur := BitVec.ofNat 32 (s.getNat (a + 0x0AA0 + 4 * t) 1)
    retry := r % 16, code := r / 256 % 256, detail := r / 65536 % 256 }

/-- An identity register takes the bits that it has (R17, R19); $depth is never below the grid's own, which bounds the nesting (R101). -/
def State.identityValue (s : State) (k n : Nat) (v : W64) : W64 :=
  if n = 0x00 then v &&& 0x1F
  else if n = 0x01 then v &&& 7
  else if n = 0x02 || n = 0x03 then v &&& 0xFFFFFFFF
  else if n = 0x04 then v &&& 0xF
  else if n = 0x05 then v &&& 0x3F
  else if n = 0x07 then v &&& 0x1F
  else if n = 0x08 then numW (max (s.gridOf k).depth (min 9 (bfld v 0 4)))
  else setFld (setFld v 0 6 0) 57 1 0
/-- The identity registers of a record that differ from what the warp reads: they take effect (R340). -/
def State.fixedIdentity (s : State) (a k : Nat) : Tab W64 :=
  identityCtl.foldl (fun (t : Tab W64) n =>
    let v := s.identityValue k n (s.getW64 (a + 0x06A0 + 8 * n))
    if v = s.ctlOf k n then t else tput t n v) (s.warp k).shown
/-- A gather that a save has stopped goes on with element DONE (R265), as $gprog has it for the oldest. -/
def resumeGath (d : Nat) : List GathOp → List GathOp
  | [] => []
  | o :: r => { o with done := min d o.n, next := min d o.n, got := [] } :: r.map fun x => { x with next := x.done, got := [] }
/-- A warp with the fixed fields of its record: the registers that are the warp's own. $mprog is the group's operation's (R275). -/
def State.fixedWarp (s : State) (a k : Nat) (w : Warp) : Warp :=
  let c := fun n => s.getW64 (a + 0x06A0 + 8 * n)
  let ths : Vector Thread 32 := vtab 32 fun t => s.fixedThread a t (w.thread t)
  let waits := maskOf fun t => (vget Thread.dflt ths t).status = .waiting
  let w1 : Warp := [0x0C, 0x0D, 0x14, 0x2A, 0x30, 0x38, 0x39, 0x3A, 0x3B, 0x3C, 0x42].foldl (fun (w : Warp) n => w.ctlWrite n (c n))
    ((List.range 16).foldl (fun (w : Warp) n => w.ctlWrite (0x18 + n) (c (0x18 + n))) w)
  let w2 : Warp := { w1 with threads := ths }
  let rprog := bfld (c 0x35) 0 8
  { w1 with
    threads := ths
    shown := s.fixedIdentity a k
    rprogPc := if rprog = w.rprog then w.rprogPc else if w.handler then w.trapAt else w2.chosenPc.getD 0
    hset := if w.handler then (c 0x43).setWidth 32 else w.hset
    gathQ := resumeGath (bfld (c 0x34) 0 32) w.gathQ
    parks := w.parks.filterMap fun p => if p.set &&& waits = 0 then none else some { p with set := p.set &&& waits }
    sregs := vtab 160 fun n => s.getW64 (a + 0x0180 + 8 * n)
    mregs := vtab 8 fun n => BitVec.ofNat 32 (s.getNat (a + 0x0680 + 4 * n) 4)
    vregs := vtab 128 fun n => vtab 32 fun t => BitVec.ofNat 32 (s.getNat (a + 0x1000 + 128 * n + 4 * t) 4)
    qcopy := bfld (c 0x0F) 0 16, qgath := bfld (c 0x10) 0 16, qmat := bfld (c 0x11) 0 16, qcoll := bfld (c 0x12) 0 16
    evp := (c 0x13).setWidth 16
    cmask := ((c 0x28) >>> (32 : Nat)).setWidth 32
    mfault := setFld (c 0x31) 0 7 0, mcorr := numW (bfld (c 0x32) 0 32), rprog := rprog
    trapc := numW (bfld (c 0x40) 0 8), trapa := c 0x41, trapm := c 0x43
    acch := c 0x49, vext := (c 0x4A).setWidth 4 }

/-! ## The save (R337, R338) -/

/-- The commits of a warp that has not been served leave the ticket unit (R234). -/
def State.dropCommits (s : State) (k : Nat) : State :=
  { s with commits := s.commits.filter fun c => match c.2 with | .warp w _ _ _ => w != k | .hart _ => true }

/-- A copy that has not begun is saved whole. Where its slot lies in the scratchpad of its group, its lanes are placed again after the restore; the
translations of a slot in device memory stand (R260). A wait for service is given up. -/
def CopyOp.saved (dev : Nat → Bool) (o : CopyOp) : CopyOp :=
  { o with
    wait := none
    lanes := match o.dest with
      | .buf cb _ _ => if dev cb then o.lanes else o.lanes.map fun l => if l.written then l else { l with dst := none }
      | .plain => o.lanes }

/-- A warp at its stop point: what waits at issue or in R338's list is undone, a REP keeps its progress, ordinary transactions abort
with INTERRUPT. -/
def State.stopWarp (s : State) (k : Nat) : State :=
  let s1 := (s.undoWaits k).dropCommits k
  let w := s1.warp k
  let set := w.inTx 0xFFFFFFFF
  let held := w.parks.foldl (fun (m : W32) p => match p.hold with | .ticket _ _ => m ||| p.set | _ => m) 0
  let w1 := { (w.modThreads held fun t => { t with status := .eligible }) with
    parks := w.parks.filter fun p => match p.hold with | .ticket _ _ => false | _ => true }
  let w2 := match w1.cur with
    | some c =>
      if w1.handler then { w1 with cur := if c.idx = 0 then none else some c }
      else { w1 with cur := none, rprog := c.idx, rprogPc := c.pc }
    | none => w1
  let w3 := { w2 with
    service := none, cover := none, readyAt := 0, code := []
    copyQ := w2.copyQ.map (CopyOp.saved fun cb => match s.cb? w.group cb with | some c => c.dev | none => false)
    gathQ := w2.gathQ.map fun o => { o with wait := none } }
  (s1.setWarp k w3).abortSet k set abInterrupt 0

/-- What the warps and engines of a group have begun is complete: R337 steps 1 to 3. -/
def State.saveReady (s : State) (g : Nat) : Bool :=
  let ws := s.groupWarps g
  s.slotState g = 2 && s.stopping g && (tget? s.groups g).isSome &&
  ws.all (fun w => s.ost w = 0 && (s.warp w).flights = [] && (s.warp w).copyQ.all fun o => o.fin || !o.begun) &&
  (s.group g).matQ.all (fun o => !o.started || o.fin || s.needsArray (s.group g).core o.kind) &&
  !ws.any fun w => s.senderWaits (.warp w) || s.senderWaits (.warp (2 ^ 32 + w))

/-- The name a warp takes while its group is saved. -/
def savedName (g i : Nat) : Nat := 2 ^ 30 + g * 64 + i

/-- The tiles of a group with their shape words. -/
def State.tilesOf (s : State) (g : Group) : List (W32 × List Byte) :=
  (bitsOf (g.tilem.setWidth 64)).map fun t => (s.shape g.core t, s.getBytes (tileAddr s.pkg g.core t) 0x8000)

/-- What the core holds for a group. -/
def State.savedOf (s : State) (k : Nat) : Saved :=
  let g := s.group k
  let c := s.core g.core
  let a := s.spad g
  let index := fun slot => ((s.groupWarps k).find? fun w => warpSlot w = slot).map fun w => (s.warp w).index
  { base := BitVec.ofNat 64 g.save, own := g.own, pool := g.pool, poolFree := g.poolFree, passed := g.passed
    tiles := s.tilesOf g
    bands := (bitsOf g.own).map fun b => (b, c.band b, s.getBytes (bankAddr s.pkg g.core b) 0x4000)
    spad := s.getBytes a g.slen
    spadPois := ((List.range (g.slen / 4)).map (4 * ·)).filter fun o => s.poisoned (a + o)
    clk := s.coreClk g.core + g.clkOff
    mail := c.mail.filterMap fun m => (index (m.1 / 4)).map fun i => (i * 4 + m.1 % 4, m.2)
    mbOpen := c.mbOpen.filterMap fun p => (index p.slot).map fun i => { p with slot := i } }

/-- The bytes of a group's save area (R339). -/
def Group.saveBytes (g : Group) : Nat :=
  0x10000 + g.nwarps * 0x108000 + (bitsOf (g.tilem.setWidth 64)).length * 0x8000 + 64 * 18432 + (g.slen + 4095) / 4096 * 4096

/-- The save area is written (R339): the entry and a record for each warp have a fixed layout, the other bytes are free
(log entry 28). -/
def State.writeRecords (s : State) (k : Nat) : State :=
  let g := s.group k
  let e := (s.core g.core).slot g.entry
  let n := g.saveBytes
  let s' := s.sweep g.save n
  let s0 := { s' with mem := Memory.fill s'.mem g.save n fun a => Config.saveByte a s'.time
                      poison := s'.poison.filter fun u => !(g.save ≤ u && u < g.save + n) }
  let s1 := s0.putBytes g.save (wordBytes (e.ctl :: e.bind))
  (s.groupWarps k).foldl (fun (s' : State) w =>
    (s.fixedFields w).foldl (fun (s' : State) f => s'.putBytes (s.recordAt w + f.1) f.2) s') s1

/-- The core gives up what it holds for a saved group. -/
def State.leaveCore (s : State) (k : Nat) : State :=
  let g := s.group k
  let s1 := (s.groupWarps k).foldl (fun (s : State) w => s.dropMail w) s
  let s2 := (bitsOf g.own).foldl (fun (s : State) b => s.modBand g.core b fun _ => Band.zero) s1
  let s3 := (s2.modCore g.core (·.freeOf k)).modCore (pairCore g.core) (·.freeOf k)
  s3.modGroup k fun g => { g with stored := true, own := 0, pool := 0, poolFree := 0, passed := 0, banks := 0 }

/-- A group's context is saved. -/
def State.saveGroup (s : State) (k : Nat) : State :=
  let ws := s.groupWarps k
  let s1 := ws.foldl (fun (s : State) w => s.stopWarp w) s
  let s2 := { s1 with saved := tput s1.saved k (s1.savedOf k) }
  let s3 := (s2.writeRecords k).leaveCore k
  let s4 := s3.rename ⟨ws.map fun w => (w, savedName k (s.warp w).index), []⟩
  ((s4.setSlotState k 4).ticketServe).grantLock

/-! ## Suspect lanes (R106, R358) -/

/-- The entries of the groups that a save has stopped are bound again, so that dispatch resumes them (R154, R413). -/
def State.bindAgain (s : State) (ks : List Nat) : State :=
  ks.foldl (fun (s : State) k =>
    if s.slotState k = 4 then s.modSlot (k / 64) (k % 64) fun e => { e with ctl := numW (bfld e.ctl 32 32 * 2 ^ 32 + 1) } else s) s

/-- A lane is steered out, or its quadrant leaves service when another lane is steered out already; the spare lane is out as long as no other
is, and when it has failed no other can be (R358, R417). -/
def Core.steerLane (c : Core) (x : Nat × Nat) : Core :=
  let k := vget 32 c.skip x.1
  let bad := vget false c.spareBad x.1
  if k = x.2 then (if k = 32 then { c with spareBad := vset c.spareBad x.1 true } else c)
  else if k = 32 && !bad then { c with skip := vset c.skip x.1 x.2 }
  else { c with oos := vset c.oos x.1 true }
/-- Understory acts on the suspect lanes of the quadrants of a core that hold no warp. -/
def State.steer (s : State) (core : Nat) : State :=
  let empty := fun q => (List.range 16).all fun i => (tget? s.warps (core * 64 + q * 16 + i)).isNone
  s.modCore core fun c =>
    let go := c.suspect.filter fun x => empty x.1
    { go.foldl Core.steerLane c with suspect := c.suspect.filter fun x => !empty x.1 }
/-- The groups that were saved for a core's suspect lanes are restored once no lane of it is suspect and all of them are saved (R358). -/
def State.mend (s : State) : State :=
  s.cores.foldl (fun (s : State) c =>
    let ks := (s.core c.1).mending
    if ks = [] || (s.core c.1).suspect != [] || ks.any (fun k => s.slotState k = 2) then s
    else (s.bindAgain ks).modCore c.1 fun x => { x with mending := [] }) s

/-- SAVE_COMPLETE; for a group that is saved for a suspect lane already, Understory looks whether the lane can be steered out (R358). -/
def execSaveComplete (g : Nat) (s : State) : Res :=
  .next (if s.saveReady g then ((s.saveGroup g).steer (g / 64)).mend
    else if (s.core (g / 64)).mending.contains g then (s.steer (g / 64)).mend else s)

/-! ## The restore (R340) -/

/-- Tiles that change their place: core and tile before, tile after. -/
abbrev TileMap := List ((Nat × Nat) × Nat)
def moved (m : TileMap) (core t : Nat) : Nat := ((m.find? fun x => x.1 = (core, t)).map (·.2)).getD t
def MatKind.moveTiles (f : Nat → Nat) : MatKind → MatKind
  | .tld t sh a b => .tld (f t) sh a b
  | .tst t sh a => .tst (f t) sh a
  | .mma a b sa sb k p => .mma (f a) (f b) sa sb k p
  | .mdrnTile k c t sh r h => .mdrnTile k c (f t) sh r h
  | k => k
/-- A retry record names tiles of its leader (R288). -/
def RecEntry.moveTiles (m : TileMap) (core : Nat) (e : RecEntry) : RecEntry :=
  let c := if e.half = 1 then pairCore core else core
  { e with a := moved m c e.a, b := moved m c e.b }

/-- What the core holds for a group is put back, its tiles by their order, its banks by their numbers. Open packets come back without a limit: the spec
says nothing of their room here (R182; DESIGN CHOICE, log entry 60). -/
def State.fillCore (s : State) (g : Group) (old : Nat) (v : Saved) (m : TileMap) : State :=
  let ts := bitsOf (g.tilem.setWidth 64)
  let s1 := (ts.zip v.tiles).foldl (fun (s : State) x =>
    (s.putBytes (tileAddr s.pkg g.core x.1) x.2.2).modCore g.core fun c => { c with shapes := vset c.shapes x.1 x.2.1 }) s
  let s2 := v.bands.foldl (fun (s : State) b =>
    (s.putBytes (bankAddr s.pkg g.core b.1) b.2.2).modBand g.core b.1 fun _ =>
      { b.2.1 with record := b.2.1.record.map (·.moveTiles m old) }) s1
  let s3 := (s2.putBytes (s2.spad g) v.spad).setPoison (v.spadPois.map (s2.spad g + ·))
  let slot := fun i => (bitsOf g.slots).getD i 0
  s3.modCore g.core fun c =>
    { c with
      mail := v.mail.foldl (fun t x => tput t (slot (x.1 / 4) * 4 + x.1 % 4) x.2) c.mail
      mbOpen := c.mbOpen ++ v.mbOpen.map fun p => { p with slot := slot p.slot } }

/-- The banks of a group as the $acc fields of its records have them. One that differs from what the save wrote takes effect, within what the group
held, its base banks and its pool (R340; log entry 54). -/
def State.recordedAcc (s : State) (k : Nat) (b : Group) (v : Saved) : W64 :=
  let vals := (s.groupWarps k).map fun w => s.getW64 (v.base.toNat + 0x10000 + (s.warp w).index * 0x108000 + 0x06A0 + 8 * 0x48)
  ((vals.find? (· != v.own)).getD v.own) &&& (v.own ||| b.banks ||| v.pool)
/-- A lock whose holder's record says that it is irrevocable no more is released. -/
def State.lockRechecked (s : State) : State :=
  match s.lock with
  | some l => if ((s.warp l.warp).thread l.thread).irr then s else s.releaseLock
  | none => s

/-- A saved group k takes the entry `key`, for which `b` holds the bind record's fields. -/
def State.restoreGroup (s : State) (k key : Nat) (b : Group) (tvec : W64) (m : TileMap) : State :=
  let v := tget ⟨0, 0, 0, 0, 0, [], [], [], [], 0, [], []⟩ s.saved k
  let old := s.group k
  let n0 := (s.core b.core).nextOp
  let top := maxOf (old.matQ.map (·.id) ++ (List.range 64).flatMap fun i => (s.warp (savedName k i)).copyQ.map (·.seq) ++ (s.warp (savedName k i)).gathQ.map (·.seq))
  let steps := fun (o : MatOp) => bfld (s.getW64 (v.base.toNat + 0x10000 + (s.warp o.warp).index * 0x108000 + 0x06A0 + 8 * 0x33)) 0 8
  let first := fun (o : MatOp) => (old.matQ.find? fun x => x.warp = o.warp) = some o
  let names : Names := ⟨(List.range 64).map fun i => (savedName k i, b.core * 64 + (bitsOf b.slots).getD i 0), [(k, key)]⟩
  let s0 := s.settleArea v.base.toNat old.saveBytes
  let own := s0.recordedAcc k b v
  let s1 := s0.rename names
  let f := fun g : Group =>
    { g with
      slots := b.slots, banks := b.banks, soff := b.soff, slen := b.slen, tilem := b.tilem, regs := b.regs, xreg := b.xreg
      xacc := b.xacc, handle := b.handle, slice := b.slice, save := b.save, cls := b.cls, stored := false
      own := own, pool := v.pool, poolFree := if own = v.own then v.poolFree else v.pool &&& ~~~own, passed := v.passed &&& own
      clkOff := v.clk - s.coreClk b.core, sliceLeft := b.slice * 1000
      matQ := (old.matQ.zip g.matQ).map fun x =>
        { x.2 with
          id := n0 + x.2.id, kind := x.2.kind.moveTiles (moved m old.core)
          steps := match x.2.kind with
            | .mma _ _ _ _ _ _ | .mrty _ _ => if first x.1 then steps x.1 else x.2.steps
            | _ => x.2.steps } }
  let s2 := ((bitsOf (own &&& ~~~v.own)).foldl (fun (s : State) n => s.zeroBank b.core n) (s1.modGroup key f)).fillCore b old.core v m
  let s3 := (s2.groupWarps key).foldl (fun (s : State) w =>
    s.modWarp w fun x =>
      let y := s.fixedWarp (v.base.toNat + 0x10000 + x.index * 0x108000) w x
      { y with
        tvec := tvec, cls := b.cls, baseRegs := b.regs
        copyQ := y.copyQ.map fun o => { o with seq := n0 + o.seq }
        gathQ := y.gathQ.map fun o => { o with seq := n0 + o.seq } }) (s2.modCore b.core fun c => { c with nextOp := n0 + top + 1 })
  ({ s3 with saved := tdel s3.saved key } : State).lockRechecked

end Sys2Proof.Machine
end

