-- ==== Sys2Proof/Machine/Bind.lean ====
section
/-! DEFINITION. The slot tables and dispatch: binding, starting, restoring, stopping and freeing groups (R22, R91, R105, R152 to R156,
R163, R165, R340). -/

namespace Sys2Proof.Machine

/-! ## The bind record (R153) -/

/-- The group an entry describes. -/
def SlotEntry.group (e : SlotEntry) (key : Nat) : Group :=
  let w := fun i => e.bind.getD i 0
  { Group.none with
    core := key / 64, entry := key % 64, grid := bfld e.ctl 32 32, gang := bfld (w 0) 0 32, index := bfld (w 0) 32 8
    ngroups := bfld (w 0) 40 8, nwarps := bfld (w 0) 48 8, cls := bfld (w 0) 56 8, slots := w 1, banks := w 2
    soff := bfld (w 3) 0 32, slen := bfld (w 3) 32 32, tilem := (w 4).setWidth 16, regs := bfld (w 4) 16 8, xreg := bfld (w 4) 24 8
    xacc := bfld (w 4) 32 8, handle := bfld (w 4) 48 16, slice := (w 5).toNat, save := (w 6).toNat }

def State.entry (s : State) (key : Nat) : SlotEntry := (s.core (key / 64)).slot (key % 64)

/-! ## Writes of Understory (R154) -/

/-- SLOT_BIND: from FREE, or from SAVED to resume the group. The first word is the control word, the others are bytes 8 to 63. -/
def execSlotBind (g : Nat) (rec_ : List W64) (s : State) : Res :=
  let c := rec_.headD 0
  let st := s.slotState g
  if bfld c 0 3 = 1 && (st = 0 || st = 4) then
    .next (s.modSlot (g / 64) (g % 64) fun _ =>
      ⟨numW (bfld c 32 32 * 2 ^ 32 + 1), (List.range 7).map fun i => rec_.getD (i + 1) 0⟩)
  else .next s

/-- The groups that are saved together with a group: its gang, both copies, and in a co-resident grid every gang (R163, R337). -/
def State.savedWith (s : State) (g : Nat) : List Nat :=
  let x := s.group g
  if (s.grid x.grid).coresident then (s.groups.filter fun y => y.2.grid = x.grid).map (·.1)
  else (s.gang x.gangKey).groups ++ (s.gang x.gangKey).twin

/-- SLOT_STOP. -/
def execSlotStop (g : Nat) (s : State) : Res :=
  if s.slotState g = 2 then
    .next ((s.savedWith g).foldl (fun (s : State) k =>
      if s.slotState k = 2 then s.modSlot (k / 64) (k % 64) fun e => { e with ctl := setFld e.ctl 3 1 1 } else s) s)
  else .next s

/-- A grid whose handler table fails: its started gangs are killed and it completes with STATUS 5 (R156, R157). -/
def State.refuseGrid (s : State) (id : Nat) : State :=
  (((s.setStatus id 5).killGangs id 6 (BitVec.ofNat 64 id)).map (·.failGrid id)).out

/-- SLOT_FREE: a DONE entry, or a REFUSED one after its reason has been read. -/
def execSlotFree (g : Nat) (s : State) : Res :=
  let e := s.entry g
  let s1 := s.modSlot (g / 64) (g % 64) fun e => { e with ctl := 0 }
  match s.slotState g with
  | 3 => .next s1
  | 5 => .next (if bfld e.ctl 4 4 = 5 then s1.refuseGrid (bfld e.ctl 32 32) else s1)
  | _ => .next s

/-! ## The checks of R155 -/

/-- Bytes of register file that a group holds (R149). -/
def Group.regBytes (g : Group) : Nat := g.nwarps * g.regs * 128 + g.xreg * 1024
def Group.banksHeld (g : Group) : W64 := g.own ||| g.banks ||| g.pool
/-- Two groups of one core overlap in scratchpad, tiles or banks. -/
def Group.overlaps (a b : Group) : Bool :=
  (a.slen != 0 && b.slen != 0 && a.soff < b.soff + b.slen && b.soff < a.soff + a.slen) ||
  a.tilem &&& b.tilem != 0 || a.banksHeld &&& b.banksHeld != 0

/-- The handler table of a launch (R165): the handlers that HMASK names, or none when the table fails. -/
def State.handlers (s : State) (die ctx : Nat) (r : LaunchRec) : Option (List (Nat × W64 × Nat × Nat)) :=
  ((List.range 16).filter fun n => r.hmask.getLsbD n).mapM fun n =>
    match s.walk die ctx (r.htable + BitVec.ofNat 64 (8 * n)) .read with
    | .ok pa size _ =>
      let v := leW64 (s.bytesAt pa 8)
      if s.agentMay false pa 8 .load && !s.poisonedIn pa 8 && bfld v 0 2 = 0 && canonical v then some (n, v, pa, size) else none
    | _ => none

/-- The entries of the handler tables that dispatch reads for fresh groups. -/
def State.tablePages (s : State) (es : List (Nat × Group)) : List Nat :=
  es.flatMap fun e =>
    let gr := s.grid e.2.grid
    ((List.range 16).filter fun n => gr.lrec.hmask.getLsbD n).filterMap fun n =>
      match s.walk (e.2.core / 48) gr.ctx (gr.lrec.htable + BitVec.ofNat 64 (8 * n)) .read with
      | .ok pa _ _ => if s.place pa = .device then some pa else none
      | _ => none
/-- The lowest-numbered banks for the pool, outside the group's own and those of live groups (R177). -/
def poolBanks (b : Group) (live : List Group) : List Nat :=
  let used := live.foldl (fun (m : W64) x => m ||| x.banksHeld) b.banks
  (bitsOf (~~~used)).take b.xacc

/-- WHY of an entry, 0 when it passes. A record is retained while gangs of its grid have still to retire; an entry whose HANDLE is another grid's
record names none of its own (log entry 55). `live` are the groups that hold resources of its core, `slots` the slots in use, `saved` the
banks that a restored group brings. -/
def State.bindWhy (s : State) (b : Group) (live : List Group) (slots : W64) (saved : Option Saved) : Nat :=
  let gr := (tget? s.grids b.grid).bind fun g => if g.handle = b.handle && g.retired < g.lrec.gangs then some g else none
  let r := (gr.getD Grid.none).lrec
  let b' := match saved with | some v => { b with own := v.own, pool := v.pool } | none => b
  if popW b.slots != b.nwarps || b.slots &&& slots != 0 || b.soff % 256 != 0 || 786432 < b.soff + b.slen ||
      (gr.isSome && (popW (b.tilem.setWidth 64) != r.tiles || popW b.banks != r.acc || b.slen != r.scratch)) then 1
  else if live.any b'.overlaps then 2
  else if 1048576 < b.regBytes + (live.map Group.regBytes).sum || (saved.isNone && (poolBanks b live).length < b.xacc) then 3
  else if gr.isNone then 4
  else if saved.isNone && (s.handlers (b.core / 48) (gr.getD Grid.none).ctx r).isNone then 5
  else 0

/-! ## Which entries stand BOUND -/

/-- The BOUND entries of a gang, with their keys. -/
def State.boundEntries (s : State) (grid gang : Nat) : List (Nat × Group) :=
  (s.cores.flatMap fun c => c.2.slots.map fun e => (c.1 * 64 + e.1, SlotEntry.group e.2 (c.1 * 64 + e.1), bfld e.2.ctl 0 3)).filterMap
    fun x => if x.2.2 = 1 && x.2.1.grid = grid && x.2.1.gang = gang then some (x.1, x.2.1) else none
/-- The grove of a core, over the module. -/
def grove (core : Nat) : Nat := core / 8
/-- The entries of one grove are a whole gang (R154). -/
def wholeGang (es : List (Nat × Group)) : Bool :=
  let n := (es.headD (0, Group.none)).2.ngroups
  n != 0 && es.length = n && (es.all fun e => e.2.ngroups = n) && (List.range n).all fun i => es.any fun e => e.2.index = i
/-- The groves that hold a whole gang. -/
def wholeGroves (es : List (Nat × Group)) : List Nat :=
  (sortNat (es.map fun e => grove e.2.core)).filter fun v => wholeGang (es.filter fun e => grove e.2.core = v)

/-- The saved group that an entry resumes: the one with its context save area. -/
def State.resumes (s : State) (b : Group) : Option Nat :=
  (s.groups.find? fun x => x.2.stored && x.2.grid = b.grid && x.2.gang = b.gang && x.2.index = b.index && x.2.save = b.save).map (·.1)

/-- A quadrant may take warps: no lane of it is suspect and it is in service (R358). -/
def State.quadOk (s : State) (core q : Nat) : Bool :=
  let c := s.core core
  !(vget false c.oos q) && !c.suspect.any fun x => x.1 = q

/-! ## Starting (R22, R91, R105, R155) -/

/-- A warp as dispatch starts it. -/
def Warp.begun (key index : Nat) (b : Group) (r : LaunchRec) (tvec : W64) (hs : List (Nat × W64 × Nat × Nat)) : Warp :=
  { Warp.start with
    group := key, index := index, cls := b.cls, baseRegs := b.regs
    threads := Vector.replicate 32 (Thread.start r.entry)
    evm := r.hmask
    evh := vtab 16 fun n => ((hs.find? fun h => h.1 = n).map (·.2.1)).getD 0
    tvec := tvec
    win := if r.flags / 2 % 2 = 1 then some ⟨0, 0, [], [], 0, false, false, false, false, none, [], false⟩ else none }

/-- The resources of a group are zeroed (R105), the shape words of its tiles reset (R175). -/
def State.zeroGroup (s : State) (b : Group) : State :=
  let s1 := s.zeroBytes (s.spad b) b.slen
  let s2 := (bitsOf b.banks).foldl (fun (s : State) k => s.zeroBank b.core k) s1
  (bitsOf (b.tilem.setWidth 64)).foldl (fun (s : State) t =>
    (s.zeroBytes (tileAddr s.pkg b.core t) 0x8000).modCore b.core fun c => { c with shapes := vset c.shapes t shapeReset }) s2

/-- A fresh group starts in its entry. -/
def State.startGroup (s : State) (key : Nat) (b : Group) (copy : Nat) (live : List Group) : State :=
  let gr := s.grid b.grid
  let r := gr.lrec
  let hs := (s.handlers (b.core / 48) gr.ctx r).getD []
  let s1 := hs.foldl (fun (s : State) h => s.reach ⟨.other, some (b.core / 48), none⟩ false h.2.2.2 false h.2.2.1 8) (s.zeroGroup b)
  let pool := bankMask (poolBanks b live)
  let g := { b with copy := copy, own := b.banks, pool := pool, poolFree := pool, sliceLeft := b.slice * 1000 }
  let s2 := { s1 with groups := tput s1.groups key g }
  let slots := bitsOf b.slots
  let tvec := s.ctxTvec gr.ctx
  let s3 := (List.range slots.length).foldl (fun (s : State) i =>
    s.setWarp (b.core * 64 + slots.getD i 0) (Warp.begun key i b r tvec hs)) s2
  s3.setSlotState key 2

/-! ## GANG_DISPATCH -/

/-- The groups that hold resources of a core. -/
def State.liveOn (s : State) (core : Nat) : List Group := (s.groups.filter fun g => g.2.core = core && !g.2.stored).map (·.2)
/-- The slots of a core that hold a warp. -/
def State.slotsUsed (s : State) (core : Nat) : W64 := bankMask ((List.range 64).filter fun i => (tget? s.warps (core * 64 + i)).isSome)

/-- Check the entries in order; those before an entry count as live for it. -/
def State.checkEntries (s : State) (resume : Bool) : List (Nat × Group) → List Group → List (Nat × Nat)
  | [], _ => []
  | (k, b) :: r, before =>
    let mine := before.filter fun x => x.core = b.core
    let live := s.liveOn b.core ++ mine
    let v := if resume then (s.resumes b).bind (tget? s.saved) else none
    let why := s.bindWhy b live (mine.foldl (fun (m : W64) x => m ||| x.slots) (s.slotsUsed b.core)) v
    let held := match v with
      | some x => { b with own := x.own, pool := x.pool }
      | none => { b with pool := bankMask (poolBanks b live) }
    (k, why) :: s.checkEntries resume r (before ++ [held])

/-- Entries start or resume one after the other at one instant. The entry that a resumed group has left stays SAVED: R154 has no move for it (log entry
17). -/
def State.startEntries (s : State) (resume : Bool) (m : TileMap) (first : Nat) (es : List (Nat × Group)) : State :=
  es.foldl (fun (s : State) e =>
    if resume then
      match s.resumes e.2 with
      | some k =>
        ((s.restoreGroup k e.1 e.2 (s.ctxTvec (s.grid e.2.grid).ctx) m).setSlotState e.1 2).groupIngest e.1
      | none => s
    else s.startGroup e.1 e.2 (if grove e.2.core = first then 0 else 1) (s.liveOn e.2.core)) s

/-- Where the tiles of resumed groups go. -/
def State.tileMap (s : State) (es : List (Nat × Group)) : TileMap :=
  es.flatMap fun e =>
    match s.resumes e.2 with
    | some k =>
      let g := s.group k
      ((bitsOf (g.tilem.setWidth 64)).map fun t => (g.core, t)).zip (bitsOf (e.2.tilem.setWidth 64))
    | none => []

/-- The gang may start afresh, or may be resumed: none when neither holds. -/
def State.gangTurn (s : State) (grid gang : Nat) (es : List (Nat × Group)) : Option Bool :=
  match tget? s.gangs (gangKey grid gang) with
  | none => some false
  | some g =>
    let all := g.groups ++ g.twin
    if all = [] then (if g.killed.isNone && g.retired = 0 then some false else none)
    else if (all.all fun k => (s.group k).stored) && es.all fun e => (s.resumes e.2).isSome then some true
    else none

/-- GANG_DISPATCH: the entries of a gang are checked and started at once; a failing one is REFUSED and the others stay BOUND. -/
def execGangDispatch (grid gang : Nat) (s0 : State) : Res :=
  let all := s0.boundEntries grid gang
  let s := ((dedup (all.map fun e => e.2.core)).foldl (fun (s : State) c => s.steer c) s0).mend
  let groves := wholeGroves all
  let two := (s.grid grid).paired
  let use := groves.take (if two then 2 else 1)
  let es := all.filter fun e => use.contains (grove e.2.core)
  let quads := es.all fun e => (bitsOf e.2.slots).all fun i => s.quadOk e.2.core (i / 16)
  if use = [] || (two && use.length < 2) || !quads || s.ckpt.isSome || s.boot != .up || s.bootMinimal then .next s
  else
    match s.gangTurn grid gang es with
    | none => .next s
    | some resume =>
      let pas := if resume then [] else s.tablePages es
      if pas.any fun pa => s.lockBlocks .other false pa 8 then .next (pas.foldl (fun (s : State) pa => s.seek .other false pa 8) s)
      else
      let s := pas.foldl (fun (s : State) pa => s.settle pa 8) s
      let whys := s.checkEntries resume es []
      if whys.all fun x => x.2 = 0 then
        let first := use.headD 0
        let s1 := s.startEntries resume (s.tileMap es) first es
        let lead := ((es.find? fun e => e.2.index = 0 && grove e.2.core = first).map (·.2.core)).getD 0
        if resume then .next (s1.modGang (gangKey grid gang) fun g => { g with lead := lead })
        else
          let keys := fun own : Bool => (es.filter fun e => (grove e.2.core = first) = own).map (·.1)
          .next (s1.modGang (gangKey grid gang) fun g =>
            { Gang.none with grid := grid, index := gang, lead := lead, groups := keys true, twin := keys false, runs := g.runs })
      else
        .next (whys.foldl (fun (s : State) x =>
          if x.2 = 0 then s
          else s.modSlot (x.1 / 64) (x.1 % 64) fun e => { e with ctl := setFld (setFld e.ctl 0 3 5) 4 4 x.2 }) s)

/-- Every gang of a co-resident grid stands on its cores (R163): until then none of its warps issues. -/
def State.gridTogether (s : State) (id : Nat) : Bool :=
  let g := s.grid id
  !g.coresident ||
  (g.lrec.gangs ≤ (s.gangs.filter fun x => x.1 / 2 ^ 32 = id && (x.2.groups != [] || x.2.retired != 0 || x.2.killed.isSome)).length &&
   !s.groups.any fun x => x.2.grid = id && x.2.stored)

end Sys2Proof.Machine
end

