-- ==== Sys2Proof/Machine/Release.lean ====
section
/-! DEFINITION. Slices, the ends of warps and groups, barriers, relaunch, and the timed releases (R23, R101, R154, R157, R160, R162,
R189, R231, R234, R237, R323, R325, R350 to R352). -/

namespace Sys2Proof.Machine

/-! ## Slices, warps and groups -/

/-- SLICE_EXPIRY: dispatch interrupts Understory; the timer begins again with SLICE (log entry 23). -/
def execSliceExpiry (g : Nat) (s : State) : Res :=
  if s.slotState g = 2 && (tget? s.groups g).isSome && (s.group g).sliceLeft = 0 then
    .next ((s.emit (.interrupt (g / 64) (g % 64))).modGroup g fun x => { x with sliceLeft := x.slice * 1000 })
  else .next s

/-- GROUP_RETIRE. -/
def execGroupRetire (g : Nat) (s : State) : Res := .next (if s.groupDone g then s.retireGroup g else s)

/-- A warp's accesses are performed at core scope: none is under way, no store of it or of its engines waits at a target, and a paired copy holds no
write (R23, R354). -/
def State.storesDone (s : State) (w : Nat) : Bool :=
  (s.warp w).flights = [] && !s.storesWait w && !s.senderWaits (.warp (2 ^ 32 + w)) &&
  (match (s.warp w).win with | some x => x.held = [] && x.drain = [] | none => true)

/-- What a group holds besides its record goes when its last warp has left (R101); banks it received stay until it retires (R311). -/
def State.releaseGroup (s : State) (k : Nat) : State :=
  let g := s.group k
  let own := g.own &&& ~~~g.passed
  let s1 := (bitsOf own).foldl (fun (s : State) b => s.modBand g.core b fun _ => Band.zero) s
  s1.modGroup k fun g =>
    { g with own := g.own &&& g.passed, banks := 0, pool := 0, poolFree := 0, tilem := 0, slen := 0, regs := 0, xreg := 0 }

/-- WARP_SLOT_RELEASE. -/
def execWarpSlotRelease (w : Nat) (s : State) : Res :=
  let x := s.warp w
  if s.live w && x.ended && x.qcopy = 0 && x.qgath = 0 && x.qmat = 0 && x.qcoll = 0 && s.storesDone w then
    let k := x.group
    let s1 := ((s.giveBanks w (bitsOf x.acch)).servePools k).dropWarp w
    .next (if s1.groupWarps k = [] then s1.releaseGroup k else s1)
  else .next s

/-! ## Barriers -/

/-- BARRIER_RELEASE. -/
def execBarrierRelease (b : BarRef) (s : State) : Res := .next (s.barrierCheck b)

/-! ## Relaunch (R350 to R352) -/

/-- A gang is ready to be bound afresh, with its run count raised. -/
def Gang.again (g : Gang) : Gang := { Gang.none with grid := g.grid, index := g.index, runs := g.runs + 1 }
/-- The other gangs of a grid are killed with reason 6. -/
def State.killOthers (s : State) (id : Nat) : State := (s.killGangs id 6 (BitVec.ofNat 64 id)).out

/-- COPPICE_RELAUNCH: what follows a kill for reason 1, 2 or 4. -/
def execCoppiceRelaunch (grid gang : Nat) (s : State) : Res :=
  let k := gangKey grid gang
  let g := s.gang k
  let gr := s.grid grid
  match g.killed with
  | none => .next s
  | some reason =>
    if !(reason = 1 || reason = 2 || reason = 4) || g.kids != [] then .next s
    else
      let mine := s.gangs.filter fun x => x.1 / 2 ^ 32 = grid
      let may := gr.relaunchable && (if gr.coresident then mine.all fun x => x.2.runs < 2 else g.runs < 2)
      if !may then
        let s1 := s.setStatus grid (if reason = 2 then 3 else 2)
        .next ((s1.killOthers grid).failGrid grid)
      else if gr.coresident then
        let s1 := s.killOthers grid
        let s2 := { s1 with gangs := s1.gangs.map fun (x : Nat × Gang) => if x.1 / 2 ^ 32 = grid then (x.1, x.2.again) else x }
        .next (s2.modGrid grid fun x =>
          { x with retired := 0, status := gr.status, bars := Vector.replicate 4 Barrier.start })
      else .next (s.modGang k Gang.again)

/-! ## Timed releases -/

/-- LOCK_LIMIT_EXPIRY (R237): the holder's gang is killed with reason 5. -/
def execLockLimitExpiry (s : State) : Res :=
  match s.lock with
  | none => .next s
  | some l =>
    if l.since + l.limit ≤ s.time then .next (s.killBy l.warp 5 ((s.warp l.warp).thread l.thread).pc 0) else .next s

/-- SLEEP_DEADLINE (R325). -/
def execSleepDeadline (w t : Nat) (s : State) : Res :=
  let due := (s.warp w).parks.any fun p =>
    p.set.getLsbD t && (match p.hold with | .sleep d => decide (d ≤ s.time) | _ => false)
  if s.live w && due then
    .next (s.modWarp w fun x =>
      { (x.modThread t fun y => { y with pc := y.pc + 4, status := .eligible }) with
        parks := x.parks.filterMap fun p => match p.hold with
          | .sleep _ => (let m := p.set &&& ~~~(bit32 t); if m = 0 then none else some { p with set := m })
          | _ => some p })
  else .next s

/-- TICKET_TURN. -/
def execTicketTurn (s : State) : Res := .next s.ticketServe

/-- TX_REVALIDATE_COUNT (R231): a thread whose signature has matched compares its log with memory. -/
def execTxRevalidateCount (w t : Nat) (s : State) : Res :=
  let waits := (s.warp w).parks.any fun p => p.set.getLsbD t && (match p.hold with | .ticket _ _ => true | _ => false)
  match ((s.warp w).thread t).tx with
  | some x =>
    if !x.matched || waits || !s.live w then .next s
    else if s.logsAway w (bit32 t) then .next (s.seekLogs w (bit32 t))
    else
      let s1 := s.settleLog x
      if s1.logHolds x then .next (s1.modWarp w fun y => y.modThread t fun z => { z with tx := some { x with matched := false, age := 0 } })
      else .next (s1.abortSet w (bit32 t) abValidate 0)
  | none => .next s

/-- REMOTE_STORE_COMBINE_END (R204). -/
def execRemoteStoreCombineEnd (n : Nat) (s : State) : Res :=
  .next { s with remote := s.remote.map fun r => if r.1 = n then (n, { r.2 with combining := false }) else r }

/-! ## Translation invalidation (R189) -/

/-- A write of TINVC: discarded while BUSY is 1. -/
def State.startInval (s : State) (core : Nat) (v : W64) : State :=
  if bbit (s.core core).tinvc 63 then s
  else
    let cmd := numW (bfld v 0 18)
    { (s.modCore core fun c => { c with tinvc := setFld cmd 63 1 1 }) with invals := tput s.invals core ⟨(s.core core).tinva, cmd⟩ }

def execTlbInvalidate (core : Nat) (v : W64) (s : State) : Res := .next (s.startInval core v)

/-- An invalidation names a context. -/
def Inval.names (i : Inval) (ctx : Nat) : Bool := bbit i.cmd 16 || ctx = bfld i.cmd 0 16
/-- An invalidation names the page of an address, whose size is 2^size. -/
def Inval.covers (i : Inval) (va size : Nat) : Bool := bbit i.cmd 17 || va / 2 ^ size = i.va.toNat / 2 ^ size
/-- A cached translation that an invalidation names. -/
def Inval.hits (i : Inval) (t : TlbEntry) : Bool :=
  i.names t.ctx &&
  (bbit i.cmd 17 || (t.page ≤ i.va.toNat && i.va.toNat < t.page + 2 ^ t.size))

/-- The physical pages an invalidation concerns: those of the cached translations, and the one the tables give now (log entry 24). -/
def State.invalPages (s : State) (die : Nat) (i : Inval) : List (Nat × Nat) :=
  ((s.tlb.filter fun t => t.die = die && i.hits t).map fun t => (t.pa, t.size)) ++
  (match s.walkFrom i.va.toNat 0 5 (s.root (bfld i.cmd 0 16)) with
   | .ok pa size _ => [(pa / 2 ^ size * 2 ^ size, size)]
   | _ => [])

/-- A copy uses a translation until it retires (R247). -/
def CopyOp.uses (o : CopyOp) (i : Inval) : Bool :=
  o.lanes.any fun l => i.covers l.srcVa l.srcSize || (l.dst.isSome && i.covers l.dstVa l.dstSize)
/-- A matrix or a collective operation that reads or writes memory: it uses its translations until it retires, or its instance closes (R391). -/
def MatKind.inMemory : MatKind → Bool
  | .tld _ _ _ _ | .tst _ _ _ => true
  | _ => false
def CollKind.inMemory : CollKind → Bool
  | .xred _ | .xbc _ => true
  | .xshf | .xside => false
/-- A copy, a gather or a collective operation of a warp uses a translation that it took from a cache of a die, wherever the warp has gone since. -/
def Warp.engineUses (w : Warp) (die : Nat) (i : Inval) : Bool :=
  (w.copyQ.any fun o => o.die = die && o.uses i) || (w.gathQ.any fun o => o.die = die) ||
  w.collQ.any fun o => match o.kind with | .xred j | .xbc j => j.die = die | _ => false
/-- A warp's accesses through translations of its context are not all performed (log entry 24). -/
def State.stillUses (s : State) (k : Nat) : Bool :=
  let w := s.warp k
  w.flights != [] || (w.collQ.any fun o => o.kind.inMemory) ||
  ((s.groupOf k).matQ.any fun o => o.warp = k && o.kind.inMemory) || s.ost k != 0 || s.senderWaits (.warp k) || s.senderWaits (.warp (2 ^ 32 + k))
/-- Some access that used a translation which an invalidation of a die names is still to be performed (R189). -/
def State.invalWaits (s : State) (die : Nat) (i : Inval) : Bool :=
  (s.warps.any fun x => i.names (s.gridOf x.1).ctx &&
    (x.2.engineUses die i || (!savedKey x.1 && warpCore x.1 / 48 = die && s.stillUses x.1))) ||
  (s.instances.any fun x => x.joined.any fun j => j.pkg = s.pkg && j.die = die && i.names j.ctx) ||
  s.remote.any fun r => 2 ^ 40 ≤ r.2.warp && i.names (s.grid (r.2.warp - 2 ^ 40)).ctx
/-- INVALIDATE_COMPLETE. -/
def execInvalidateComplete (core : Nat) (s : State) : Res :=
  match tget? s.invals core with
  | none => .next s
  | some i =>
    let die := core / 48
    let ps := s.invalPages die i
    if s.invalWaits die i then .next s else
    .next { (s.modCore core fun c => { c with tinvc := setFld c.tinvc 63 1 0 }) with
      tlb := s.tlb.filter fun t => !(t.die = die && i.hits t)
      classes := s.classes.filter fun e =>
        !(e.2.die = die && (bbit i.cmd 16 || bbit i.cmd 17 || ps.any fun p => p.1 < e.1 % 2 ^ 53 + e.2.size && e.1 % 2 ^ 53 < p.1 + 2 ^ p.2))
      invals := tdel s.invals core }

end Sys2Proof.Machine
end

