-- ==== Sys2Proof/Machine/Agents.lean ====
section
/-! DEFINITION. What other agents do at the core windows: mailbox stores that arrive, the control page, and window accesses (R172,
R177, R179 to R184). -/

namespace Sys2Proof.Machine

/-! ## Mailboxes (R181, R182) -/

/-- The packet bytes of a store at an offset of a sending area. -/
def areaWrites (off : Nat) (bs : List Byte) : List (Nat × Byte) := (List.range bs.length).map fun i => (off + i, bs.getD i 0)
/-- A store lies within a sending area. -/
def areaOk (w m off : Nat) (bs : List Byte) : Bool := w < 1152 * 64 && m < 4 && bs != [] && off + bs.length ≤ 0x100

/-- MAILBOX_WRITE: a store at an offset of the open area of mailbox m of warp w's slot. -/
def execMailboxWrite (by_ : Sender) (w m off : Nat) (bytes : List Byte) (s : State) : Res :=
  .next (if areaOk w m off bytes then s.mailStore (warpCore w) by_ (warpSlot w) m (areaWrites off bytes) false none else s)
/-- MAILBOX_CLOSE: the same in the closing area. -/
def execMailboxClose (by_ : Sender) (w m off : Nat) (bytes : List Byte) (s : State) : Res :=
  .next (if areaOk w m off bytes then s.mailStore (warpCore w) by_ (warpSlot w) m (areaWrites off bytes) true none else s)
/-- MAILBOX_DISCARD. -/
def execMailboxDiscard (w m : Nat) (s : State) : Res :=
  .next (if w < 1152 * 64 && m < 4 then s.mailDiscard (warpCore w) (warpSlot w * 4 + m) else s)

/-- The store is the oldest of its sender that waits at the core (R182, R197). -/
def Core.oldest (c : Core) (x : WaitStore) : Bool :=
  !(c.mbWait.any fun y => y.sender = x.sender && y.seq < x.seq) && !c.tileWait.any fun y => y.sender = x.sender && y.seq < x.seq
/-- The first store that waits at a mailbox and has room now. -/
def Core.roomFor (c : Core) (slot m : Nat) : Option WaitStore :=
  c.mbWait.find? fun x =>
    x.slot = slot && x.mb = m && c.oldest x && { c with mbWait := [], tileWait := [] }.mailRoom x.sender slot m x.closes

/-- MAILBOX_ROOM: a store that waits for room is performed; its acknowledgement can follow. -/
def execMailboxRoom (w m : Nat) (s : State) : Res :=
  match (s.core (warpCore w)).roomFor (warpSlot w) m with
  | none => .next s
  | some x =>
    .next ((s.modCore (warpCore w) fun c => { c with mbWait := c.mbWait.filter fun y => y.seq != x.seq }).mailPerform (warpCore w) x.sender
      x.slot x.mb x.writes x.closes)

/-! ## The control page (R180) -/

/-- The register at an 8-byte offset of the control page. -/
def State.controlReg (s : State) (core o : Nat) : W64 :=
  let c := s.core core
  if o = 0 then numW (core + s.pkg * 2 ^ 16)
  else if o = 0x100 then c.tinva
  else if o = 0x108 then c.tinvc
  else if o = 0x200 then c.mbdrop
  else if 0x800 ≤ o && o < 0x880 then (vget shapeReset c.shapes ((o - 0x800) / 8)).setWidth 64
  else if 0x1000 ≤ o && o < 0x2000 then
    let e := c.slot ((o - 0x1000) / 64)
    (e.ctl :: e.bind).getD ((o - 0x1000) / 8 % 8) 0
  else 0
def State.controlByte (s : State) (core o : Nat) : Byte := BitVec.ofNat 8 ((s.controlReg core (o / 8 * 8)).toNat / 256 ^ (o % 8))
/-- A register with some of its bytes replaced. -/
def putByte (v : W64) (i : Nat) (b : Byte) : W64 := setFld v (8 * i) 8 b.toNat
/-- A word of a slot-table entry that Understory writes (R154): the bind record of a FREE or SAVED entry; the control word, as it binds, stops or
frees the entry. What the table of moves does not allow is ignored. -/
def State.slotWord (s : State) (core i w : Nat) (v : W64) : State :=
  let g := core * 64 + i
  let st := s.slotState g
  let go := fun (r : Res) => match r with | .next t => t | _ => s
  if w != 0 then
    if st = 0 || st = 4 then s.modSlot core i fun e => { e with bind := lmod e.bind (w - 1) fun _ => v } else s
  else if bfld v 0 3 = 1 then go (execSlotBind g (v :: (s.entry g).bind) s)
  else if st = 2 then (if bbit v 3 then go (execSlotStop g s) else s)
  else if bfld v 0 3 = 0 then go (execSlotFree g s)
  else s
/-- Bytes stored in the control page: TINVA, TINVC and the slot table are written, the rest discards stores. -/
def State.controlStore (s : State) (core o : Nat) (bs : List Byte) : State :=
  let at_ := fun (v : W64) (reg : Nat) =>
    (List.range bs.length).foldl (fun (v : W64) i => if reg ≤ o + i && o + i < reg + 8 then putByte v (o + i - reg) (bs.getD i 0) else v) v
  let touches := fun reg => o < reg + 8 && reg < o + bs.length
  let s1 := if touches 0x100 then s.modCore core fun c => { c with tinva := setFld (at_ c.tinva 0x100) 0 12 0 } else s
  let s2 := if touches 0x108 then s1.startInval core (at_ (s1.core core).tinvc 0x108) else s1
  if o < 0x2000 && 0x1000 < o + bs.length then
    ((List.range (bs.length / 8 + 2)).map fun j => o / 8 * 8 + 8 * j).foldl (fun (s : State) r =>
      if touches r && 0x1000 ≤ r && r < 0x2000 then s.slotWord core ((r - 0x1000) / 64) (r / 8 % 8) (at_ (s.controlReg core r) r) else s) s2
  else s2

/-! ## Accesses of harts and other agents -/

/-- The bytes a load of a hart or another agent finds. -/
def State.agentBytes (s : State) (pa n : Nat) : List Byte :=
  match s.place pa with
  | .control c o => (List.range n).map fun i => s.controlByte c (o + i)
  | _ => s.bytesAt pa n

/-- A store of an agent at a core window; a mailbox store counts as one store of its sender. -/
def State.agentStore (s : State) (by_ : Sender) (pa : Nat) (bs : List Byte) : State :=
  match s.place pa with
  | .mail c o => s.mailWrites c o by_ bs (mailClose o) none
  | .control c o => s.controlStore c o bs
  | _ => s.storePlain by_ pa bs none

/-- The rights of an agent at a core window: a warp's by R173, a hart's by its translation. -/
def State.windowMay (s : State) (by_ : Sender) (pa n : Nat) (e : Eff) : Bool :=
  match by_ with
  | .warp w => (tget? s.warps w).isSome && s.warpMay (s.groupOf w) pa n e
  | .hart _ => s.agentMay true pa n e

/-- CORE_WINDOW_ACCESS: an access that has arrived at its target core, of this module, is performed. A load's data goes back to its sender. -/
def execCoreWindowAccess (by_ : Sender) (pa : Nat) (op : WinOp) (s : State) : Res :=
  if (windowOffset pa).isNone || pa / 2 ^ 48 != s.pkg then .next s
  else
    match op with
    | .load _ => .next s
    | .store bs => .next (if bs != [] && s.windowMay by_ pa bs.length .store then s.agentStore by_ pa bs else s)
    | .atom a md x c =>
      .next (if s.windowMay by_ pa (AtomOp.bytes a) (.atom false) && !s.loadWaits by_ pa then (s.rmw a md pa x.toNat c.toNat).1 else s)

end Sys2Proof.Machine
end

