-- ==== Sys2Proof/Machine/Fabric.lean ====
section
/-! DEFINITION. The directory of the home, its holders, and the requests that arrive over the fabric (R364 to R374, R382, R384 to R386). -/

namespace Sys2Proof.Machine

/-- READS. -/
def execReads (holder line : Nat) (s : State) : Res := .next (s.request holder line .s)
/-- READM. -/
def execReadm (holder line : Nat) (s : State) : Res := .next (s.request holder line .m)
/-- UPGRADE. -/
def execUpgrade (holder line : Nat) (s : State) : Res := .next (s.request holder line .m)

/-- A line's data that another module held reaches memory, with the marks of its sectors (R342, R344). -/
def State.dataHome (s : State) (h line : Nat) (x : Payload) : State :=
  if 32 ≤ h && x.bytes.length = 128 then
    (((s.settle (lineAddr line) 128).observe .other true (lineAddr line) 128).putBytes (lineAddr line) x.bytes).setPoison
      (markedUnits (lineAddr line) 128 x.pois)
  else s

/-- GRANTACK. -/
def execGrantack (holder line : Nat) (s : State) : Res :=
  let u := s.unitKey line
  let e := s.dirEntry u
  .next ((s.setDir u { e with unacked := e.unacked.filter (· != holder) }).dirPump u)

/-- The line is all of its unit. -/
def State.alone (s : State) (line : Nat) : Bool := (s.unitOf line).length = 1
/-- A WriteBack reaches the home: the data are taken if the entry still names the evictor, which gives up a unit of one line (R369, R374). -/
def State.takeBack (s : State) (holder line : Nat) (x : Payload) : State :=
  let u := s.unitKey line
  let e := s.dirEntry u
  if e.state != some (.owned holder) then s
  else
    let s1 := s.dataHome holder line x
    (if s.alone line then s1.setDir u (e.giveUp holder) else s1).dirPump u
/-- The line's data as its holder sends them, and the marks of its sectors. -/
def State.lineData (s : State) (line : Nat) : Payload := ⟨s.getBytes (lineAddr line) 128, s.payloadMarks (lineAddr line) 128⟩
/-- WRITEBACK: a die of this module that has its line in M evicts it and sends its data; another module's reaches the home. The home answers WBAck in either case
(R369). -/
def execWriteback (holder line : Nat) (x : Payload) (s : State) : Res :=
  if s.quarantined holder then .next s
  else if holder < 28 then
    (if tget? s.holders (holderKey holder line) != some .m then .next s
     else
       let d := s.lineData line
       let s1 := { (s.recallActs holder line) with holders := tput s.holders (holderKey holder line) (.writeback d.bytes d.pois) }
       if lineHome line != s.pkg then .next (s1.askHome (.evicted holder line) holder tyWriteBack (lineAddr line) d.bytes d.pois .none)
       else .next ((s1.takeBack holder line d).send (homeDie (lineAddr line)) holder holder tyWBAck (lineAddr line) [] 0))
  else if holder < 32 || lineHome line != s.pkg then .next s
  else .next ((s.takeBack holder line x).reply (holder - 32) tyWBAck (lineAddr line) [] 0)

/-- A recall's answer reaches the home: the first copy of the data is taken, and a holder that has answered for every line gives up the unit. -/
def State.recalled (s : State) (h line : Nat) (x : Payload) : State :=
  let u := s.unitKey line
  let e := s.dirEntry u
  if lineHome line != s.pkg || s.quarantined h || !e.recalls.contains (h, line) then s
  else
    let s1 := if e.state = some (.owned h) then s.dataHome h line x else s
    let rest := e.recalls.filter (· != (h, line))
    (s1.setDir u { (if rest.any (·.1 = h) then e else e.giveUp h) with recalls := rest }).dirPump u
def execRecalldata (holder line : Nat) (x : Payload) (s : State) : Res := .next (s.recalled holder line x)
def execRecallack (holder line : Nat) (s : State) : Res := .next (s.recalled holder line ⟨[], 0⟩)

/-! ## The holders (R365, R368, R369) -/

/-- DATA: data or a grant arrives at a die of this module, with the marks of its sectors, and the die acknowledges it. -/
def execData (holder line : Nat) (excl : Bool) (p : Payload) (s : State) : Res :=
  if 28 ≤ holder then .next s
  else
    let far := lineHome line != s.pkg
    let s0 := { s with asks := s.asks.filter fun a => match a.2.what with | .line _ x _ => x != line | _ => true }
    let s1 := (s0.unitOf line).foldl (fun (s : State) x =>
      { s with holders := tput s.holders (holderKey holder x) (if excl then .m else .s) }) s0
    let s2 := if far && p.bytes.length = 128 then
        (s1.putBytes (lineAddr line) p.bytes).setPoison (markedUnits (lineAddr line) 128 p.pois)
      else s1
    .next (s2.sendHome holder tyGrantAck (lineAddr line) [] 0)

/-- WBACK ends the write-back state. -/
def execWback (holder line : Nat) (s : State) : Res :=
  .next (if isWriteback (tget? s.holders (holderKey holder line)) then
    { s with holders := tdel s.holders (holderKey holder line), asks := s.asks.filter fun a => a.2.what != .evicted holder line } else s)

/-- The lines and dies that a recall of a holder's line covers: for a line homed here its unit at that die, and for another module's, whose home
knows this module alone, the line at every die (R364, R374). -/
def State.recallCovers (s : State) (holder line : Nat) : List (Nat × Nat) :=
  if lineHome line = s.pkg then (s.unitOf line).map fun x => (holder, x) else (s.heldHere line).map fun d => (d, line)
/-- RECALL: a die of this module answers with its data if it holds the unit in M, with the data it has sent if it writes the line back, and with RecallAck
otherwise. -/
def execRecall (holder line : Nat) (s : State) : Res :=
  if 28 ≤ holder then .next s
  else
    let cs := s.recallCovers holder line
    let st := cs.map fun c => tget? s.holders (holderKey c.1 c.2)
    let sent := st.findSome? fun x => match x with | some (.writeback bs ps) => some (⟨bs, ps⟩ : Payload) | _ => none
    let s1 := cs.foldl (fun (s : State) c =>
      let s := s.recallActs c.1 c.2
      if isWriteback (tget? s.holders (holderKey c.1 c.2)) then s else { s with holders := tdel s.holders (holderKey c.1 c.2) }) s
    let owns := sent.isSome || st.contains (some .m)
    let d := if owns && lineHome line != s.pkg then sent.getD (s1.lineData line) else ⟨[], 0⟩
    .next (s1.sendHome holder (if owns then tyRecallData else tyRecallAck) (lineAddr line) d.bytes d.pois)

/-! ## Atomics and uncached requests (R371, R375, R383 to R385) -/

/-- ATOMIC: an atomic of module src reaches its home. It recalls every copy first; while another module still has one it waits. One with N = 1 is
acknowledged, and inside a window of the module it is an atomic of its function with rne, unmerged (R384, R385). -/
def execAtomic (src : Nat) (op : AtomOp) (pa : Nat) (operand cmp : W64) (rnd : Rnd) (nr : Bool) (s : State) : Res :=
  let n := AtomOp.bytes op
  if pa / 2 ^ 48 != s.pkg || pa % n != 0 || s.quarantined (32 + src) || !s.agentMay false pa n (.atom nr) then .next s
  else if s.lockBlocks .other true pa n then .next (s.seek .other true pa n)
  else
    let md := if nr && s.reducing src pa then .rne else rnd
    let x := s.atomAt ⟨.other, none, none⟩ 12 false op md pa operand.toNat cmp.toNat
    .next (if nr then x.1.reply src tyAck pa [] 0 else x.1.reply src tyData pa (leBytes n x.2) (x.1.payloadMarks pa n))

/-- UNCACHED_READ: a read request is served at its target, and its data goes back with the marks of its sectors (R344). -/
def execUncachedRead (src pa size : Nat) (s : State) : Res :=
  if size = 0 || s.quarantined (32 + src) || !s.agentMay false pa size .load then .next s
  else if s.lockBlocks .other false pa size then .next (s.seek .other false pa size)
  else
    let s1 := if s.place pa = .device then ((s.settle pa size).ownLines .other false pa size).observe .other false pa size else s
    .next ((s1.classifyRaw pa size).reply src tyData pa (s1.agentBytes pa size) (s1.payloadMarks pa size))

/-- A write without translation at a physical address, for the fabric and PCIe, with the marks of its sectors. -/
def State.rawWrite (s : State) (by_ : Sender) (pa : Nat) (bs : List Byte) (pois : Nat) : State :=
  let n := bs.length
  let s1 := if s.place pa = .device then ((s.settle pa n).ownLines .other true pa n).observe .other true pa n else s
  let ps := (List.range n).filter fun i => pois.testBit (i / 32)
  let s2 := (s1.classifyRaw pa bs.length).storePlain by_ pa bs none ps
  if s.distant (Sender.agent by_) pa then s2 else s2.setPoison ((markedUnits pa n pois).filter holdsPoison)

/-- The name under which the stores of another module keep their order here. -/
def moduleSender (src : Nat) : Sender := .warp (2 ^ 31 + src)
/-- A store of a sender would wait at its target: for a tile, or for room in a mailbox (R176, R182). -/
def State.storeStands (s : State) (by_ : Sender) (pa n : Nat) : Bool :=
  match s.place pa with
  | .mail c o =>
    if 0x3000 ≤ o % 0x4000 then (s.core c).senderWaits by_
    else (s.mailTargets c (mailSlot o)).any fun t =>
      s.mailLive (t.1 * 64 + t.2) && !(s.core t.1).mailRoom by_ t.2 (mailNum o) (mailClose o)
  | _ => s.storeWaits by_ pa n
/-- UNCACHED_WRITE: a write request is performed at its target, and acknowledged then (R201, R204); until it can be it waits. -/
def execUncachedWrite (src pa : Nat) (bytes : List Byte) (pois : Nat) (s : State) : Res :=
  let n := bytes.length
  if bytes = [] || s.quarantined (32 + src) || !s.agentMay false pa n .store || s.storeStands (moduleSender src) pa n then .next s
  else if s.lockBlocks .other true pa n then .next (s.seek .other true pa n)
  else
    let s1 := match s.place pa with
      | .mail c o => s.mailWrites c o (moduleSender src) bytes (mailClose o) none
      | _ => s.rawWrite (moduleSender src) pa bytes pois
    .next (s1.reply src tyAck pa [] 0)

/-- CONTRIBUTION: one of this module merges into a partial; a partial that another module forwards goes to memory unmerged (R384,
R385). -/
def execContribution (src : Nat) (op : AtomOp) (pa : Nat) (operand : W64) (pois : Bool) (ackIx : Option Nat) (s : State) : Res :=
  let n := AtomOp.bytes op
  if s.place pa != .device || !s.reducing src pa || pa % n != 0 || s.quarantined (32 + src) then .next s
  else if src = s.pkg then .next (s.contribute op pa operand.toNat pois ackIx)
  else if s.lockBlocks .other true pa n then .next (s.seek .other true pa n)
  else
    let s0 := (s.ownLines .other true pa n).observe .other true pa n
    let s1 := match op, AtomOp.narrow op with
      | .flt _ t, true => s0.shadowAdd t .rne pa operand.toNat
      | _, _ => (s0.rmw op .rne pa operand.toNat 0).1
    let s2 := if pois then s1.setPoison [poisonUnit pa] else s1
    .next (s2.reply src tyAck pa [] 0)

/-- PARTIAL_FORWARD_TIMER: a partial goes to its home 1 µs after its first contribution (R385); one that is homed here waits as an atomic does. -/
def execPartialForwardTimer (n : Nat) (s : State) : Res :=
  match tget? s.partials n with
  | some p =>
    let pa := lineAddr p.line
    .next (if s.time < p.since + 1000 then s
      else if lineHome p.line = s.pkg && s.lockBlocks .other true pa 128 then s.seek .other true pa 128
      else s.forwardPartial n)
  | none => .next s

/-- GLADE_PARTIAL_ERROR: a sector of a partial is poisoned (R386). -/
def execGladePartialError (n sector : Nat) (s : State) : Res :=
  match tget? s.partials n with
  | some p =>
    if sector < 4 then
      .next { s with partials := tput s.partials n { p with pois := insertNat sector p.pois }, dxpois := s.dxpois + 1 }
    else .next s
  | none => .next s

/-! ## Acknowledgements (R204) -/

/-- A remote store still waits: it is held for combining, some access of its issue has not been made, or waits for room or a tile at its target or in
a partial, or another module has not acknowledged it. -/
def State.remoteWaits (s : State) (n : Nat) : Bool :=
  (match tget? s.remote n with | some r => r.combining | none => false) ||
  (s.warps.any fun w => (w.2.flights.any fun f => f.remote = some n) ||
    (match w.2.win with | some x => x.drain.any fun h => h.remote = some n | none => false)) ||
  (s.cores.any fun c => (c.2.mbWait.any fun p => p.remote = some n) || c.2.tileWait.any fun t => t.remote = some n) ||
  (s.partials.any fun p => p.2.acks.contains n) || s.asks.any fun a => match a.2.what with | .ack _ l => l.contains n | _ => false

/-- ACK: an acknowledgement of a remote store arrives, and $ost falls; the last of a grid whose gangs have retired completes it (R157). -/
def execAck (n : Nat) (s : State) : Res :=
  .next (if s.remoteWaits n then s
    else
      let s1 := { s with remote := tdel s.remote n }
      match tget? s.remote n with
      | some r => if 2 ^ 40 ≤ r.warp then s1.completeIfDone (r.warp - 2 ^ 40) else s1
      | none => s1)

/-- An agent of a warp's engine or thread. -/
def Agent.ofWarp (a : Agent) (w : Nat) : Bool := match a with | .thread k _ => k = w | _ => false
/-- What another module answers, by TAG: data for a line, a value, or an acknowledgement (R371, R375). A value is kept as the last that the module was told. -/
def State.answered (s : State) (tag : Nat) (bytes : List Byte) (pois : Nat) : Res :=
  match tget? s.asks tag with
  | none => .next s
  | some a =>
    let s1 := { s with asks := tdel s.asks tag }
    match a.what with
    | .line h x excl => execData h x excl ⟨bytes, pois⟩ s1
    | .evicted h x => execWback h x s1
    | .ack _ _ => .next (s1.plans.foldl (fun (s : State) p => s.planCheck p.ctx p.id) s1)
    | .value _ pa n =>
      let us := unitsOf pa n
      let s2 := { s1 with mem := Memory.writeBytes s1.mem pa (bytes.take n), poison := s1.poison.filter fun u => !us.contains u }
      .next { (s2.setPoison (if pois = 0 then [] else us)) with asks := tput s1.asks tag { a with got := some (bytes.take n, pois != 0) } }

/-! ## Modules that no port reaches any more (R380) -/

/-- An access of a warp waits on one of some modules: a store is not acknowledged there, a request is not answered, or an access that has still to be
made, or the line operation of an engine, goes there. -/
def State.waitsOn (s : State) (gone : List Nat) (w : Nat) : Bool :=
  let there := fun (pa : Nat) => gone.contains (pa / 2 ^ 48)
  (s.remote.any fun r => (r.2.warp = w || r.2.twin = some w) && r.2.mods.any gone.contains) ||
  (s.asks.any fun a => gone.contains a.2.dest && match a.2.what with
    | .value who _ _ => who.ofWarp w
    | .ack by_ _ => (Sender.agent by_).ofWarp w
    | _ => false) ||
  ((s.warp w).inFlight.any fun l => l.pieces.any fun x => there x.pa) ||
  (match (s.warp w).copyHead with | some o => o.lanes.any (fun l => !l.written && ((l.data.isNone && there l.src) || l.dst.any there)) | none => false)
/-- The warps with an access that waits on a module that no port reaches any more are killed with reason 4, and what the module was asked for and what stands
for it at the ports is gone; a hart's access raises its access fault when it is tried again (R380). The lines that this module holds of it stay held (log
entry 25). -/
def State.dropModules (s : State) (ms : List Nat) : State :=
  let gone := ms.filter fun m => m != s.pkg && !s.connected m
  if gone = [] then s
  else
    let ws := sortNat ((s.warps.map (·.1)).filter fun w => !savedKey w && s.waitsOn gone w)
    let s1 := ws.foldl (fun (s : State) w => if (tget? s.warps w).isSome then s.killBy w 4 0 0 else s) s
    { (s1.collLose gone) with asks := s1.asks.filter fun a => !gone.contains a.2.dest }

/-! ## Failed parts (R382) -/

/-- What of a module's requests stands in the slots of a port is discarded; its slots are freed. -/
def Port.discard (p : Port) (m : Nat) : Port :=
  let mine := p.slots.filter fun x => x.src = m && x.vc = 0
  { p with
    slots := p.slots.filter fun x => !(x.src = m && x.vc = 0)
    freed := lmod p.freed 0 fun n => (n + mine.length) % 2 ^ 16 }

/-- A home purges an identifier: 0 to 27 a die of this module, 32 + m module m. The window partials that it sent and that are not performed are those in
the slots of the ports. -/
def State.purge (s : State) (id : Nat) : State :=
  let lost := s.dir.filter fun e => e.2.state = some (.owned id)
  let units := lost.flatMap fun e => (s.unitOf e.1).flatMap fun l => unitsOf (lineAddr l) 128
  let s1 := { (s.setPoison units) with
    dxpois := s.dxpois + BitVec.ofNat 64 lost.length
    dir := s.dir.map fun (e : Nat × DirEntry) => (e.1, { e.2.giveUp id with
      unacked := e.2.unacked.filter (· != id), recalls := e.2.recalls.filter (·.1 != id)
      queue := e.2.queue.filter fun q => q.holder != id })
    ports := if 32 ≤ id then s.ports.map fun (p : Nat × Port) => (p.1, p.2.discard (id - 32)) else s.ports }
  let s2 := (s1.warps.filter fun w => id < 24 && (s1.warpPlace w.1).1 / 48 = id).foldl (fun (s : State) w =>
    s.abortSet w.1 ((s.warp w.1).inTx 0xFFFFFFFF) abConflict 0) s1
  let s3 := { s2 with harts := s2.harts.map fun h => if 24 ≤ id && id < 28 && Agent.holder (.hart h.1) = id then (h.1, h.2.abortTx abConflict 0) else h }
  s.dir.foldl (fun (s : State) e => s.dirPump e.1) s3

/-- PURGE. -/
def execPurge (id : Nat) (s : State) : Res := .next ((s.purge id).sendTag 24 id s.replyTo.1 tyPurgeAck 0 [] 0 s.replyTo.2 (.ident id))

/-- The quarantine bit of an identifier. -/
def State.setQuarantine (s : State) (id : Nat) (on : Bool) : State :=
  let put := fun {w : Nat} (v : BitVec w) (i : Nat) => if on then v ||| BitVec.ofNat w (2 ^ i) else v &&& ~~~(BitVec.ofNat w (2 ^ i))
  if id < 24 then { s with dieq := put s.dieq id }
  else if id < 28 then { s with hubq := put s.hubq (id - 24) }
  else if 32 ≤ id && id < 64 then { s with modq := put s.modq (id - 32) }
  else s

/-- PURGEACK: when every home has answered the identifier leaves quarantine. -/
def execPurgeack (id from_ : Nat) (s : State) : Res :=
  match tget? s.purges id with
  | none => .next s
  | some l =>
    let r := l.filter (· != from_)
    .next (if r = [] then { (s.setQuarantine id false) with purges := tdel s.purges id } else { s with purges := tput s.purges id r })

/-- The gangs with a group on a die. -/
def State.gangsOn (s : State) (die : Nat) : List Nat :=
  (s.gangs.filter fun x => (x.2.groups ++ x.2.twin).any fun g => (s.group g).core / 48 = die && !(s.group g).stored).map (·.1)

/-- The caches, the directory and the cores of a die are reset; the gangs that stood on it are killed (log entry 25). -/
def State.resetDie (s : State) (die : Nat) : State :=
  let s1 := (s.killAll ((s.gangsOn die).map fun k => (k, s.causeAt k 4 0))).out
  { s1 with
    cores := s1.cores.filter fun c => c.1 / 48 != die
    dieSince := tput s1.dieSince die s1.cycles
    holders := s1.holders.filter fun h => h.1 / 2 ^ 48 != die
    tlb := s1.tlb.filter fun t => t.die != die
    classes := s1.classes.filter fun e => e.2.die != die
    invals := s1.invals.filter fun i => i.1 / 48 != die
    asks := s1.asks.filter fun a => match a.2.what with | .line h _ _ | .evicted h _ => h != die | _ => true
    dirOrder := s1.dirOrder.filter fun u => homeDie (lineAddr u) != die
    dir := s1.dir.filter fun e => homeDie (lineAddr e.1) != die }

/-- The host cores' cache and the Glade state of a hub die are reset: its partials, its collective instances and the records of closed ones, its
side-information table and its decode buffer. -/
def State.resetHub (s : State) (q : Nat) : State :=
  { s with
    holders := s.holders.filter fun h => h.1 / 2 ^ 48 != 24 + q
    asks := s.asks.filter fun a => match a.2.what with | .line h _ _ | .evicted h _ => h != 24 + q | _ => true
    partials := s.partials.filter fun p => p.2.quarter != q
    instances := s.instances.filter fun i => i.quarter != q
    closedIds := s.closedIds.filter fun c => c.1 != q
    joinWait := s.joinWait.filter fun j => j.id % 4 != q
    side := s.side.filter fun e => e.blk % 4 != q }

/-- FAILED_PART_RECOVERY. -/
def execFailedPartRecovery (id : Nat) (s : State) : Res :=
  if !(id < 28 || (32 ≤ id && id < 64)) || id = 32 + s.pkg then .next s
  else
    let homes := s.pkg :: (List.range 32).filter fun m => m != s.pkg && m + 32 != id && vget 0 s.routes m != 0
    let s1 := if id < 24 then s.resetDie id
      else if id < 28 then s.resetHub (id - 24)
      else s
    let s2 := { (s1.setQuarantine id true) with purges := tput s1.purges id homes }
    let s3 := homes.foldl (fun (s : State) m => s.sendTag 24 (32 + m) 24 tyPurge id [] 0 0 (.ident id)) s2
    let s4 := { s3 with holders := s3.holders.filter fun h => lineHome (h.1 % 2 ^ 48) + 32 != id }
    .next (if 32 ≤ id then s4.dropModules [id - 32] else s3)

end Sys2Proof.Machine
end

