-- ==== Sys2Proof/Machine/Link.lean ====
section
/-! DEFINITION. The ports of the Birmir Link: acknowledgement, replay, credit, what arrives, and failure (R375 to R380).

Idle headers carry sequence numbers like every packet (log entry 26). -/

namespace Sys2Proof.Machine

/-- Numbers modulo 2^n: how far b is past a. -/
def ahead (n a b : Nat) : Nat := (b + 2 ^ n - a % 2 ^ n) % 2 ^ n
/-- The larger of two cumulative counts of 16 bits. -/
def laterCount (a b : Nat) : Nat := if ahead 16 a b < 2 ^ 15 then b % 2 ^ 16 else a

/-- ACK covers every packet up to its number: the unacknowledged packets that stay. -/
def ackDrop (ack : Nat) : List SentPkt → List SentPkt
  | [] => []
  | p :: r => if (p :: r).any fun q => q.seq = ack then (if p.seq = ack then r else ackDrop ack r) else p :: r

/-- The counts of an accepted header take effect (R377, R378). -/
def Port.takeCounts (p : Port) (ack : Nat) (ret : List Nat) (now : Nat) : Port :=
  let left := ackDrop ack p.unacked
  let moved := left.length < p.unacked.length
  { p with
    unacked := left
    resends := if moved then 0 else p.resends
    ackAt := if moved || left = [] then now else p.ackAt
    ret := (List.range 4).map fun i => laterCount (p.ret.getD i 0) (ret.getD i 0) }

/-! ## Sending (R377, R378) -/

/-- The number of the last packet that a port took in order. -/
def Port.lastIn (p : Port) : Nat := (p.expect + 4095) % 4096
/-- What the header of a packet of a port says: its number, the last packet that the port took in order, NAK, and the slots freed (R375). -/
def Port.header (p : Port) (seq : Nat) : Hdr := ⟨seq, p.lastIn, p.nak, p.freed⟩
/-- An idle header. -/
def Pkt.idle : Pkt := ⟨0, 0, 0, 0, 0, 0, 0, [], 0, .none⟩
/-- The flits of a packet leave; NAK has then been said. -/
def State.sendPacket (s : State) (port : Nat) (p : Pkt) (seq : Nat) : State :=
  let h := (s.port port).header seq
  (s.modPort port fun x => { x with nak := false }).emit (.packet port (p.flits s.pkg h))
/-- Every unacknowledged packet is sent again, in order: one resend round. -/
def State.resendAll (s : State) (port : Nat) : State :=
  let p := s.port port
  if p.unacked = [] || p.down then s
  else
    let s1 := p.unacked.foldl (fun (s : State) q => s.sendPacket port q.pkt q.seq) s
    { (s1.modPort port fun x => { x with resends := x.resends + 1, ackAt := s.time }) with linkReplay := (s.linkReplay + 1) % 2 ^ 32 }

/-- A packet takes a sequence number, is kept until an ACK covers it, and leaves. -/
def State.sendNext (s : State) (port : Nat) (q : Pkt) : State :=
  let p := s.port port
  (s.modPort port fun x =>
    { x with nextSeq := (x.nextSeq + 1) % 4096, unacked := x.unacked ++ [⟨p.nextSeq, q⟩]
             ackAt := if x.unacked = [] then s.time else x.ackAt }).sendPacket port q p.nextSeq

/-- The slots of a channel that the other end has free (R378). -/
def Port.credit (p : Port) (vc : Nat) : Nat := 64 - ahead 16 (p.ret.getD vc 0) (p.sent.getD vc 0)
/-- The first packet that waits and whose channel has a slot free is sent: a channel keeps its order (R378, R379). At most 2,047 packets are
unacknowledged at once. -/
def State.transmit (s : State) (port : Nat) : State :=
  let p := s.port port
  match p.queue.find? fun x => 0 < p.credit x.vc with
  | none => s
  | some x =>
    if p.down || 2047 ≤ p.unacked.length then s
    else
      (s.modPort port fun y =>
        { y with
          queue := (y.queue.takeWhile (· != x)) ++ (y.queue.dropWhile (· != x)).drop 1
          sent := lmod y.sent x.vc fun n => (n + 1) % 2 ^ 16 }).sendNext port x

/-- IDLE_TIMER: a port with nothing to send; at most 2,047 packets are unacknowledged at once. -/
def execIdleTimer (port : Nat) (s : State) : Res :=
  .next (if (s.port port).down || 2047 ≤ (s.port port).unacked.length then s else s.sendNext port Pkt.idle)

/-- LINK_REPLAY_TIMEOUT: ACK has not advanced for 2 µs. -/
def execLinkReplayTimeout (port : Nat) (s : State) : Res :=
  .next (if (s.port port).ackAt + 2000 ≤ s.time then s.resendAll port else s)

/-! ## Arrival (R375 to R378) -/

/-- A packet arrives whose sequence number is the next one expected or not; `f` is what an accepted one does. -/
def State.acceptSeq (s : State) (port seq : Nat) (f : State → State) : State :=
  let p := s.port port
  if p.down then s
  else if seq % 4096 = p.expect then f (s.modPort port fun x => { x with expect := (x.expect + 1) % 4096 })
  else s.modPort port fun x => { x with nak := true }
/-- The header of an accepted packet takes effect. -/
def State.takeHeader (s : State) (port : Nat) (h : Hdr) : State :=
  let s1 := s.modPort port fun x => x.takeCounts h.ack h.ret s.time
  if h.nak then s1.resendAll port else s1
/-- A slot of a channel is free again. -/
def Port.freeSlot (p : Port) (vc : Nat) : Port := { p with freed := lmod p.freed vc fun n => (n + 1) % 2 ^ 16 }

/-- IDLE. -/
def execIdle (port : Nat) (h : Hdr) (s : State) : Res := .next (s.acceptSeq port h.seq fun s => s.takeHeader port h)

/-- PACKET_CRC_FAILURE: the packet is dropped. -/
def execPacketCrcFailure (port : Nat) (s : State) : Res :=
  .next (if (s.port port).down then s else s.modPort port fun x => { x with nak := true })

/-- A packet of a reserved type in its turn is discarded and counted; its slot is free at once (R375, R378). -/
def State.reserved (s : State) (port vc : Nat) : State :=
  { (s.modPort port (·.freeSlot vc)) with linkBad := (s.linkBad + 1) % 2 ^ 16 }
/-- RESERVED_TYPE_PACKET: the packet next in turn, on the request channel; the row carries no header, whose counts say nothing new. -/
def execReservedTypePacket (port : Nat) (s : State) : Res :=
  .next (s.acceptSeq port (s.port port).expect fun s => s.reserved port 0)

/-- The flits of a packet are whole: the length that the header tells, and the CRC over bytes 0 to 59 and the payload (R375, R376). -/
def flitsWhole (bs : List Byte) : Bool :=
  let len := recNat bs 13 1
  len ≤ 4 && bs.length = 64 + 64 * len && (crc32 (bs.take 60 ++ bs.drop 64)).toNat = recNat bs 60 4
/-- What the header flit says to the port. -/
def flitsHeader (bs : List Byte) : Hdr :=
  ⟨recNat bs 0 2 % 4096, recNat bs 2 2 % 4096, recNat bs 0 2 / 2 ^ 14 % 2 = 1, (List.range 4).map fun i => recNat bs (4 + 2 * i) 2⟩

/-- What a packet asks for beyond its header. -/
inductive Arrival where
  /-- it stands in a slot until it is served -/
  | row (i : Inbound)
  /-- it answers a request -/
  | answer (bytes : List Byte) (pois : Nat)
  /-- a Purge of an identifier that no home here knows: it is acknowledged -/
  | unknown (id : Nat)
  /-- nothing that it says is known -/
  | nothing
  deriving DecidableEq, Repr

/-- What a packet asks for (R375): lines, atomics and uncached requests of the module that sent it, answers to this one's, and recalls. -/
def flitsArrival (bs : List Byte) : Arrival :=
  let m := recNat bs 24 2 % 32
  let pa := recNat bs 16 8
  let line := pa / 128
  let data := bs.drop 64
  let pois := recNat bs 14 1
  let body := fun ty : Nat => Config.linkBody ty (recNat bs 32 28) data
  match recNat bs 12 1 with
  | 0x01 => .row (.request (32 + m) line .s)
  | 0x02 => .row (.request (32 + m) line .m)
  | 0x03 => .row (.request (32 + m) line .m)
  | 0x04 => .row (.writeback (32 + m) line ⟨data, pois⟩)
  | 0x05 => (match body 0x05 with | some (.atom op md x c nr) => .row (.atomic m op pa x c md nr) | _ => .nothing)
  | 0x06 => (match body 0x06 with | some (.size n) => .row (.read m pa n) | _ => .nothing)
  | 0x07 => (match body 0x07 with | some (.size n) => .row (.write m pa (data.take n) pois) | _ => .nothing)
  | 0x08 => (match body 0x08 with | some (.atom op _ x _ _) => .row (.contribution m op pa x (pois != 0)) | _ => .nothing)
  | 0x10 => .answer data pois
  | 0x11 => .row (.grantAck (32 + m) line)
  | 0x12 | 0x13 => .answer [] 0
  | 0x20 => .row (.giveBack (recNat bs 26 2 / 32 % 32) line)
  | 0x21 => .row (.recalled (32 + m) line ⟨data, pois⟩)
  | 0x22 => .row (.recalled (32 + m) line ⟨[], 0⟩)
  | 0x40 => (match body 0x40 with | some (.ident id) => if id = 32 + m then .row (.purge id) else .unknown id | _ => .nothing)
  | 0x41 => (match body 0x41 with | some (.ident id) => .row (.purgeAck id m) | _ => .nothing)
  | 0x42 => .nothing
  | ty =>
    match body ty with
    | some (.coll (.coded p)) =>
      .row (.coll (.coded { p with
        plan := pa % 2 ^ 32, ctx := pa / 2 ^ 32 % 2 ^ 16, payload := data.take 256, poisoned := (List.range 8).map fun i => pois.testBit i }))
    | some (.coll x) => .row (.coll x)
    | _ => .nothing
/-- The failed port and the ACK of a PortDown packet. -/
def flitsFailed (bs : List Byte) : Option (Nat × Nat) :=
  if recNat bs 12 1 != tyPortDown then none
  else match Config.linkBody tyPortDown (recNat bs 32 28) (bs.drop 64) with | some (.failed p a) => some (p, a) | _ => none

/-! ## Failed ports (R380) -/

/-- The modules that a port reaches. -/
def State.reaches (s : State) (port : Nat) : List Nat :=
  (List.range 32).filter fun m => m != s.pkg && (vget 0 s.routes m).getLsbD port
/-- A surviving port to a neighbour of a failed one. -/
def State.survivor (s : State) (port : Nat) : Option Nat :=
  (s.reaches port).findSome? fun m => (bitsOf (vget 0 s.routes m)).find? fun p => p != port && !(s.port p).down
/-- The event is counted, and a PortDown packet with the failed port's ACK goes out over another, before what waits there. -/
def State.portFails (s : State) (port via : Nat) : State :=
  let ack := (s.port port).lastIn
  let m := ((s.reaches port).headD 0)
  { ((s.modPort port fun x => { x with down := true }).modPort via fun x =>
      { x with queue := ⟨packetVc tyPortDown, tyPortDown, 24, m, 24, 0, 0, [], 0, .failed port ack⟩ :: x.queue }) with
    linkDown := (s.linkDown + 1) % 2 ^ 16 }
/-- PORT_DOWN: a port that resent one packet 16 times goes down and tells its neighbour which packets it has. Without a surviving port its packets are
lost with the modules that it reached. -/
def execPortDown (port : Nat) (s : State) : Res :=
  let p := s.port port
  if p.down || p.resends < 16 then .next s
  else
    match s.survivor port with
    | some q => .next ((s.portFails port q).dropModules (s.reaches port))
    | none =>
      let s1 := { (s.modPort port fun x => { x with down := true, queue := [], unacked := [] }) with linkDown := (s.linkDown + 1) % 2 ^ 16 }
      .next (s1.dropModules (s.reaches port))

/-- PORTDOWN: the neighbour's port `failed` is down and had received up to `ack`: a port that has not failed here does so now and answers. The later packets,
and then those that wait, go over the surviving ports (R377 to R380). -/
def execPortdown (port failed ack : Nat) (s : State) : Res :=
  if (s.port port).down || port = failed then .next s
  else
    let s1 := if (s.port failed).down then s else s.portFails failed port
    let p := s1.port failed
    let s2 := s1.modPort failed fun x => { x with unacked := [], queue := [] }
    let s3 := ((ackDrop ack p.unacked).map (·.pkt) |>.filter (·.ty != 0)) ++ p.queue |>.foldl (fun (s : State) q => s.onPort q) s2
    .next (s3.dropModules (s3.reaches failed))

/-! ## A packet comes in -/

/-- What an accepted packet asks for beside its header: a row that stands in a slot of its channel until it is served, or what is done with it at once. -/
def State.takeIn (s : State) (port vc : Nat) (bs : List Byte) : Res :=
  let m := recNat bs 24 2 % 32
  let die := recNat bs 24 2 / 32 % 32
  let tag := recNat bs 28 4
  let free := fun s : State => s.modPort port (·.freeSlot vc)
  match flitsFailed bs, flitsArrival bs with
  | some x, _ => execPortdown port x.1 x.2 (free s)
  | none, .row i => .next (s.modPort port fun p => { p with slots := p.slots ++ [⟨vc, i, m, die, tag⟩] })
  | none, .answer data pois => (free s).answered tag data pois
  | none, .unknown id => .next ((free s).sendTag 24 (32 + m) die tyPurgeAck 0 [] 0 tag (.ident id))
  | none, .nothing => .next (free s)
/-- The flits of a packet arrive: nothing of them is used before the CRC has passed, and then only in their turn. -/
def State.flits (s : State) (port : Nat) (bs : List Byte) : Res :=
  let h := flitsHeader bs
  let ty := recNat bs 12 1
  let vc := recNat bs 0 2 / 2 ^ 12 % 4
  if !flitsWhole bs then execPacketCrcFailure port s
  else if ty = 0 || (s.port port).down || h.seq != (s.port port).expect then execIdle port h s
  else
    let s1 := s.acceptSeq port h.seq fun s => s.takeHeader port h
    if !linkTypes.contains ty then .next (s1.reserved port vc) else s1.takeIn port vc bs

/-- What a collective message from module m asks for; the TAG of a SideAck names the XSIDE (log entry 51). -/
def State.serveColl (s : State) (m tag : Nat) : CollMsg → Res
  | .join j => execJoin { j with pkg := m } s
  | .joinDone _ opId err => .next (s.joinedAway opId err)
  | .advert ctx blk => execAdvert m ctx blk s
  | .withdraw ctx blk => execWithdraw m ctx blk s
  | .sideAck _ _ => execSideAck 0 tag m s
  | .digest ctx id digest => execPlanDigest ctx id m digest s
  | .coded p => execCodedPacket { p with src := m } s
  | .fallbackReq ctx id xfer => execFallbackreq ctx id xfer m s
  | .transferAck ctx id xfer missed => execTransferack ctx id xfer missed s
  | .transferFail ctx id xfer => execTransferack ctx id xfer true s
/-- A packet is served. -/
def State.serve (s : State) (m tag : Nat) : Inbound → Res
  | .request h x r => .next (s.request h x r)
  | .writeback h x d => execWriteback h x d s
  | .atomic src op pa x c md nr => execAtomic src op pa x c md nr s
  | .read src pa n => execUncachedRead src pa n s
  | .write src pa bs pois => execUncachedWrite src pa bs pois s
  | .contribution src op pa x pois => execContribution src op pa x pois none s
  | .grantAck h x => execGrantack h x s
  | .giveBack d x => execRecall d x s
  | .recalled h x d => .next (s.recalled h x d)
  | .purge id => execPurge id s
  | .purgeAck id src => execPurgeack id src s
  | .coll x => s.serveColl m tag x
/-- A packet in a slot cannot be served yet: the access that it asks for must wait. -/
def State.slotWaits (s : State) (x : Slotted) : Bool :=
  !s.quarantined (32 + x.src) &&
  match x.i with
  | .atomic _ op pa _ _ _ _ | .contribution _ op pa _ _ => s.lockBlocks .other true pa (AtomOp.bytes op)
  | .read _ pa n => s.lockBlocks .other false pa n
  | .write src pa bs _ => s.storeStands (moduleSender src) pa bs.length || s.lockBlocks .other true pa bs.length
  | .coll x => s.collWaits x
  | _ => false
/-- The first packet of a channel in a port's slots is served, but for the time in which a checkpoint is written (R413): its slot is free when it has been, and its answer names its die and TAG (R375, R378). -/
def State.takeSlot (s : State) (port vc : Nat) : Res :=
  match (s.port port).slots.find? fun x => x.vc = vc with
  | none => .next s
  | some x =>
    if s.imaging then .next s
    else
    match { s with replyTo := (x.die, x.tag) }.serve x.src x.tag x.i with
    | .next t =>
      let t := { t with replyTo := (0, 0) }
      .next (if s.slotWaits x then t
        else t.modPort port fun p => { (p.freeSlot vc) with slots := (p.slots.takeWhile (· != x)) ++ (p.slots.dropWhile (· != x)).drop 1 })
    | o => o

end Sys2Proof.Machine
end

