-- ==== Sys2Proof/Machine/Csr.lean ====
section
/-! DEFINITION. The control and status registers of the host harts: their numbers, the mode each needs, and what a read returns (R329,
R349, R361, R373, R381 to R383, R408, R409, R414 to R416, R418). -/

namespace Sys2Proof.Machine

def Mode.rank : Mode → Nat
  | .u => 0
  | .s => 1
  | .m => 3

/-- dxfqst (R329). -/
def State.dxfqst (s : State) : W64 := numW (s.heldFaults.length % 2 ^ 16 * 2 ^ 32 + s.pend % 2 ^ 32)
/-- dxsnapst (R361). -/
def State.dxsnapst (s : State) : W64 := numW (s.snapCount % 2 ^ 32 * 2 ^ 32 + b2n s.snapAt.isSome)
/-- dxjoinst (R382). -/
def State.dxjoinst (s : State) : W64 := numW (s.modq.toNat * 2 ^ 32 + s.hubq.toNat * 2 ^ 28 + s.dieq.toNat)
/-- dxlinkerr (R381). -/
def State.dxlinkerr (s : State) : W64 := numW (s.linkReplay % 2 ^ 32 * 2 ^ 32 + s.linkDown % 2 ^ 16 * 2 ^ 16 + s.linkBad % 2 ^ 16)
/-- dxclkst (R415). -/
def State.dxclkst (s : State) : W64 := numW (s.clkFix.toNat * 2 ^ 32 + s.clkFail % 2 ^ 16 * 2 ^ 16 + s.clkMhz % 2 ^ 10)
/-- dxpwr (R416). -/
def State.dxpwr (s : State) : W64 := numW (b2n s.throttle * 2 ^ 63 + s.amps % 2 ^ 15 * 2 ^ 32 + s.thrEvents % 2 ^ 32)
/-- dxboot (R418). -/
def State.dxboot (s : State) : W64 := numW (s.bootReason % 256 * 256 + s.bootAttempts % 16 * 16 + b2n s.bootMinimal)
/-- The flow that dxflsel selects (R409). -/
def State.selectedFlow (s : State) : Nat := bfld s.dxflsel 6 3 * 64 + bfld s.dxflsel 0 6

/-! ## The registers of RISC-V (R407): PRESUMED, log entry 11 -/

def Mode.ofNum (n : Nat) : Mode := if n = 0 then .u else if n = 1 then .s else .m
/-- Bits of mstatus. -/
def stSIE : Nat := 1
def stMIE : Nat := 3
def stSPIE : Nat := 5
def stMPIE : Nat := 7
def stSPP : Nat := 8
def stVS : Nat := 9
def stMPP : Nat := 11
def stFS : Nat := 13
def stMPRV : Nat := 17
def stSUM : Nat := 18
def stMXR : Nat := 19
def stTVM : Nat := 20
def stTW : Nat := 21
def stTSR : Nat := 22
/-- mstatus as it reads: SD, and 64 bits in S and U. -/
def Hart.status (h : Hart) : W64 :=
  h.mstatus ||| 0xA00000000 ||| (if bfld h.mstatus stFS 2 = 3 || bfld h.mstatus stVS 2 = 3 then 0x8000000000000000 else 0)
/-- The fields that sstatus shows. -/
def sstatusMask : W64 := 0xC6722
/-- A write of mstatus: MPP takes no reserved mode. -/
def Hart.setStatus (h : Hart) (v : W64) : Hart :=
  let w := v &&& 0x7E7FAA
  { h with mstatus := if bfld w stMPP 2 = 2 then setFld w stMPP 2 (bfld h.mstatus stMPP 2) else w }
/-- The bits of a mask are those of v. -/
def masked (old v mask : W64) : W64 := (old &&& ~~~mask) ||| (v &&& mask)

/-- The registers of RISC-V that a hart has. -/
def rvCsr (n : Nat) : Bool :=
  within 1 3 n || within 8 10 n || n = 15 || within 0xC00 0xC22 n ||
  n = 0x100 || within 0x104 0x106 n || n = 0x10A || within 0x140 0x144 n || n = 0x180 ||
  within 0x300 0x306 n || n = 0x30A || n = 0x320 || within 0x323 0x33F n || within 0x340 0x344 n ||
  (within 0x3A0 0x3AF n && n % 2 = 0) || within 0x3B0 0x3EF n || n = 0xB00 || within 0xB02 0xB1F n || within 0xF11 0xF15 n
/-- The lowest mode of a register, and none for a number that names no register. -/
def csrRank (n : Nat) : Option Nat :=
  if n = 0x5C8 || n = 0x5C9 || (0x5E0 ≤ n && n < 0x5F0) then some 3
  else if (0x5C0 ≤ n && n ≤ 0x5CA) || (0x5D0 ≤ n && n < 0x5E0) || (0xDC0 ≤ n && n ≤ 0xDC7) then some 1
  else if rvCsr n then some (n / 256 % 4)
  else none
/-- The register may be accessed in a mode; a read-only one only by reads. -/
def csrMay (md : Mode) (n : Nat) (write : Bool) : Bool :=
  (match csrRank n with | some r => decide (r ≤ Mode.rank md) | none => false) && !(write && 0xC00 ≤ n)
/-- What the state of the hart asks of an access beside its mode: floating-point and vector registers that are on, counters that are let through, and
satp under TVM. -/
def Hart.csrOpen (h : Hart) (n : Nat) : Bool :=
  if within 1 3 n then bfld h.mstatus stFS 2 != 0
  else if within 8 10 n || n = 15 || within 0xC20 0xC22 n then bfld h.mstatus stVS 2 != 0
  else if within 0xC00 0xC1F n then
    h.mode = .m || (bbit h.mcounteren (n % 32) && (h.mode = .s || bbit h.scounteren (n % 32)))
  else if n = 0x180 then !(h.mode = .s && bbit h.mstatus stTVM)
  else true
/-- The register may be accessed by a hart. -/
def Hart.csrMay (h : Hart) (n : Nat) (write : Bool) : Bool := Sys2Proof.Machine.csrMay h.mode n write && h.csrOpen n

/-- The values of RISC-V's registers; the clocks and the time that the counters show are arguments. Registers that RISC-V lets an implementation hold at zero
(the identities, the event counters, physical memory protection) read 0. -/
def Hart.csr (h : Hart) (id cycles time n : Nat) : W64 :=
  if n = 1 then h.fcsr &&& 31
  else if n = 2 then numW (bfld h.fcsr 5 3)
  else if n = 3 then h.fcsr
  else if n = 8 then h.vstart
  else if n = 9 then h.vcsr &&& 1
  else if n = 10 then numW (bfld h.vcsr 1 2)
  else if n = 15 then h.vcsr
  else if n = 0xC20 then h.vl
  else if n = 0xC21 then h.vtype
  else if n = 0xC22 then 32
  else if n = 0xC00 || n = 0xB00 then numW cycles - h.cycleOff
  else if n = 0xC01 then numW time
  else if n = 0xC02 || n = 0xB02 then h.minstret
  else if n = 0x100 then h.status &&& (sstatusMask ||| 0x8000000200000000)
  else if n = 0x104 then h.mie &&& h.mideleg
  else if n = 0x105 then h.stvec
  else if n = 0x106 then h.scounteren
  else if n = 0x10A then h.senvcfg
  else if n = 0x140 then h.sscratch
  else if n = 0x141 then h.sepc
  else if n = 0x142 then h.scause
  else if n = 0x143 then h.stval
  else if n = 0x144 then h.mip &&& h.mideleg
  else if n = 0x180 then h.satp
  else if n = 0x300 then h.status
  else if n = 0x301 then 0x8000000000B4112D
  else if n = 0x302 then h.medeleg
  else if n = 0x303 then h.mideleg
  else if n = 0x304 then h.mie
  else if n = 0x305 then h.mtvec
  else if n = 0x306 then h.mcounteren
  else if n = 0x30A then h.menvcfg
  else if n = 0x340 then h.mscratch
  else if n = 0x341 then h.mepc
  else if n = 0x342 then h.mcause
  else if n = 0x343 then h.mtval
  else if n = 0x344 then h.mip
  else if n = 0xF14 then numW id
  else 0

/-- Floating-point, or vector, registers have changed. -/
def Hart.dirtyF (h : Hart) : Hart := { h with mstatus := setFld h.mstatus stFS 2 3 }
def Hart.dirtyV (h : Hart) : Hart := { h with mstatus := setFld h.mstatus stVS 2 3 }
/-- A vector base takes mode 0 or 1. -/
def tvecOf (v : W64) : W64 := setFld v 1 1 0
/-- Writes of RISC-V's registers. -/
def Hart.writeCsr (h : Hart) (cycles n : Nat) (v : W64) : Hart :=
  if n = 1 then { h with fcsr := setFld h.fcsr 0 5 v.toNat }.dirtyF
  else if n = 2 then { h with fcsr := setFld h.fcsr 5 3 v.toNat }.dirtyF
  else if n = 3 then { h with fcsr := v &&& 255 }.dirtyF
  else if n = 8 then { h with vstart := v &&& 255 }.dirtyV
  else if n = 9 then { h with vcsr := setFld h.vcsr 0 1 v.toNat }.dirtyV
  else if n = 10 then { h with vcsr := setFld h.vcsr 1 2 v.toNat }.dirtyV
  else if n = 15 then { h with vcsr := v &&& 7 }.dirtyV
  else if n = 0xB00 then { h with cycleOff := numW cycles - v }
  else if n = 0xB02 then { h with minstret := v - 1 }
  else if n = 0x100 then h.setStatus (masked h.mstatus v sstatusMask)
  else if n = 0x104 then { h with mie := masked h.mie v h.mideleg }
  else if n = 0x105 then { h with stvec := tvecOf v }
  else if n = 0x106 then { h with scounteren := v &&& 0xFFFFFFFF }
  else if n = 0x10A then { h with senvcfg := v &&& 1 }
  else if n = 0x140 then { h with sscratch := v }
  else if n = 0x141 then { h with sepc := setFld v 0 1 0 }
  else if n = 0x142 then { h with scause := v }
  else if n = 0x143 then { h with stval := v }
  else if n = 0x144 then { h with mip := masked h.mip v (h.mideleg &&& 2) }
  else if n = 0x180 then (if bfld v 60 4 = 0 || bfld v 60 4 = 10 then { h with satp := v } else h)
  else if n = 0x300 then h.setStatus v
  else if n = 0x302 then { h with medeleg := v &&& 0xB3FF }
  else if n = 0x303 then { h with mideleg := v &&& 0xFFFFFFFFFFFF0222 }
  else if n = 0x304 then { h with mie := v &&& 0xFFFFFFFFFFFF0AAA }
  else if n = 0x305 then { h with mtvec := tvecOf v }
  else if n = 0x306 then { h with mcounteren := v &&& 0xFFFFFFFF }
  else if n = 0x30A then { h with menvcfg := v &&& 1 }
  else if n = 0x340 then { h with mscratch := v }
  else if n = 0x341 then { h with mepc := setFld v 0 1 0 }
  else if n = 0x342 then { h with mcause := v }
  else if n = 0x343 then { h with mtval := v }
  else if n = 0x344 then { h with mip := masked h.mip v 0x222 }
  else h

/-- The value a register reads. -/
def State.csrRead (s : State) (h n : Nat) : W64 :=
  if n = 0x5C0 then s.dxctb
  else if n = 0x5C1 then numW (s.hart h).dxctx
  else if n = 0x5C2 then s.dxfq
  else if n = 0x5C3 then s.dxsnap
  else if n = 0x5C4 then s.dxflsel
  else if n = 0x5C5 then numW s.dxrtsel
  else if n = 0x5C6 then vget 0 s.routes s.dxrtsel
  else if n = 0x5C7 then vget 0 (s.flow s.selectedFlow) (bfld s.dxflsel 9 2)
  else if n = 0x5C8 then s.dxboot
  else if n = 0x5C9 then s.dxpcw
  else if n = 0x5CA then s.dxobj
  else if 0x5D0 ≤ n && n < 0x5E0 then vget 0 s.dxrw (n - 0x5D0)
  else if 0x5E0 ≤ n && n < 0x5F0 then vget 0 s.bands (n - 0x5E0)
  else if n = 0xDC0 then s.dxfqst
  else if n = 0xDC1 then s.dxcorr
  else if n = 0xDC2 then s.dxpois
  else if n = 0xDC3 then s.dxsnapst
  else if n = 0xDC4 then s.dxjoinst
  else if n = 0xDC5 then s.dxlinkerr
  else if n = 0xDC6 then s.dxclkst
  else if n = 0xDC7 then s.dxpwr
  else (s.hart h).csr h s.cycles s.time n

end Sys2Proof.Machine
end

