-- ==== Sys2Proof/Machine/Host.lean ====
section
/-! DEFINITION. The host harts: their accesses, exceptions and transactions, and the dx instructions (R46, R47, R151, R159, R209, R225 to
R229, R240, R241, R334 to R336, R343, R407, R413). A dx instruction acts for the hart s.iss.key.

What is RISC-V's (registers, modes, Sv57, exceptions) is PRESUMED, log entry 11. -/

namespace Sys2Proof.Machine

/-! ## Registers and exceptions -/

def Hart.rd (h : Hart) (n : Nat) : W64 := if n = 0 then 0 else vget 0 h.x n
def Hart.wr (h : Hart) (n : Nat) (v : W64) : Hart := if n = 0 then h else { h with x := vset h.x n v }
/-- The hart goes on at the next instruction. -/
def Hart.next (h : Hart) : Hart := { h with pc := h.pc + 4, waiting := none, minstret := h.minstret + 1 }
/-- rd receives a value and the hart goes on. -/
def State.hartDone (s : State) (h d : Nat) (v : W64) : State := s.modHart h fun x => (x.wr d v).next

/-- A trap is taken in S mode: it comes from U or S mode, and is delegated. -/
def Hart.toS (h : Hart) (cause : W64) : Bool := h.mode != .m && bbit (if bbit cause 63 then h.mideleg else h.medeleg) (bfld cause 0 6)
/-- The address at which a handler starts: an interrupt's own under a vectored base. -/
def tvecTo (base cause : W64) : W64 := setFld base 0 2 0 + (if bbit base 0 && bbit cause 63 then 4 * setFld cause 63 1 0 else 0)
/-- A trap of RISC-V, into M mode or, delegated, into S mode. -/
def Hart.enter (h : Hart) (cause tval : W64) : Hart :=
  if h.toS cause then
    { h with
      sepc := h.pc, scause := cause, stval := tval, mode := .s, pc := tvecTo h.stvec cause, waiting := none
      mstatus := setFld (setFld (setFld h.mstatus stSPIE 1 (b2n (bbit h.mstatus stSIE))) stSIE 1 0) stSPP 1 (b2n (h.mode = .s)) }
  else
    { h with
      mepc := h.pc, mcause := cause, mtval := tval, mode := .m, pc := tvecTo h.mtvec cause, waiting := none
      mstatus := setFld (setFld (setFld h.mstatus stMPIE 1 (b2n (bbit h.mstatus stMIE))) stMIE 1 0) stMPP 2 (Mode.rank h.mode) }
/-- The returns from a trap. -/
def Hart.mret (h : Hart) : Hart :=
  let md := Mode.ofNum (bfld h.mstatus stMPP 2)
  let st := setFld (setFld (setFld h.mstatus stMIE 1 (b2n (bbit h.mstatus stMPIE))) stMPIE 1 1) stMPP 2 0
  { h with pc := h.mepc, mode := md, mstatus := if md = .m then st else setFld st stMPRV 1 0, minstret := h.minstret + 1 }
def Hart.sret (h : Hart) : Hart :=
  { h with
    pc := h.sepc, mode := if bbit h.mstatus stSPP then .s else .u, minstret := h.minstret + 1
    mstatus := setFld (setFld (setFld (setFld h.mstatus stSIE 1 (b2n (bbit h.mstatus stSPIE))) stSPIE 1 1) stSPP 1 0) stMPRV 1 0 }
/-- An exception: inside a transaction it is not taken, and aborts it with FAULT (R241). -/
def State.hartRaise (s : State) (h cause : Nat) (tval : W64) : State :=
  s.modHart h fun x => if x.tx.isSome then { (x.abortTx abFault cause) with waiting := none } else x.enter (numW cause) tval
/-- A transaction aborts. -/
def State.hartAbort (s : State) (h code detail : Nat) : State := s.modHart h fun x => { (x.abortTx code detail) with waiting := none }

/-! ## Translation: Sv57 -/

/-- The kinds of a hart's access. -/
inductive HKind where
  | fetch
  | load
  | store
  deriving DecidableEq, Repr

/-- The causes of a page fault, an access fault and a misaligned address. -/
def HKind.page : HKind → Nat
  | .fetch => 12 | .load => 13 | .store => 15
def HKind.access : HKind → Nat
  | .fetch => 1 | .load => 5 | .store => 7
def HKind.misaligned : HKind → Nat
  | .fetch => 0 | .load => 4 | .store => 6

/-- A physical address, or the cause of an exception. -/
inductive HWalk where
  | ok (pa : Nat)
  | trap (cause : Nat)
  deriving DecidableEq, Repr

/-- The mode of an access: under MPRV a load or a store of M mode has that of MPP. -/
def Hart.modeOf (h : Hart) (k : HKind) : Mode :=
  if h.mode = .m && bbit h.mstatus stMPRV && k != .fetch then Mode.ofNum (bfld h.mstatus stMPP 2) else h.mode
/-- A leaf permits an access. -/
def leafMay (h : Hart) (k : HKind) (e : W64) : Bool :=
  (match k with | .fetch => bbit e 3 | .load => bbit e 1 || (bbit h.mstatus stMXR && bbit e 3) | .store => bbit e 2 && bbit e 7) && bbit e 6 &&
  (match h.modeOf k with | .u => bbit e 4 | .s => !bbit e 4 || (bbit h.mstatus stSUM && k != .fetch) | .m => true)
/-- The address is used as it stands. -/
def Hart.bare (h : Hart) (k : HKind) : Bool := h.modeOf k = .m || bfld h.satp 60 4 = 0

/-- The walk of Sv57 from a table at level l - 1 down. -/
def State.sv57 (s : State) (h : Hart) (k : HKind) (va : Nat) : Nat → Nat → HWalk
  | 0, _ => .trap k.page
  | l + 1, table =>
    let ea := table + 8 * (va / 2 ^ (12 + 9 * l) % 512)
    if s.place ea != .device || s.poisoned ea then .trap k.access
    else
      let e := s.rawW64 ea
      if !bbit e 0 || (bbit e 2 && !bbit e 1) || bfld e 54 10 != 0 then .trap k.page
      else if bfld e 1 3 = 0 then
        (if bbit e 4 || bbit e 6 || bbit e 7 then .trap k.page else s.sv57 h k va l (bfld e 10 44 * 4096))
      else if !leafMay h k e || bfld e 10 44 % 2 ^ (9 * l) != 0 then .trap k.page
      else .ok (bfld e 10 44 * 4096 + va % 2 ^ (12 + 9 * l))

/-- The table entries that a walk of Sv57 reads. -/
def State.sv57Path (s : State) (va : Nat) : Nat → Nat → List Nat
  | 0, _ => []
  | l + 1, table =>
    let ea := table + 8 * (va / 2 ^ (12 + 9 * l) % 512)
    let e := s.rawW64 ea
    ea :: (if s.place ea = .device && !s.poisoned ea && bbit e 0 && bfld e 1 3 = 0 then s.sv57Path va l (bfld e 10 44 * 4096) else [])
/-- The reads of a hart's walk (R88, R190). -/
def State.hartTouch (s : State) (h : Nat) (k : HKind) (va : W64) : State :=
  if s.walksUnseen || (s.hart h).bare k then s
  else (s.sv57Path va.toNat 5 (bfld (s.hart h).satp 0 44 * 4096)).foldl (fun (s : State) a => ((s.settle a 8).observe (.hart h) false a 8).classifyRaw a 8) s
/-- A table entry that a hart's walk needs and that is not at hand. -/
def State.hartWalkAway (s : State) (h : Nat) (k : HKind) (va : W64) : Option Nat :=
  if s.linesHere || (s.hart h).bare k then none
  else (s.sv57Path va.toNat 5 (bfld (s.hart h).satp 0 44 * 4096)).find? fun a => s.awaits (.hart h) false a 8
/-- The translation of an address for a hart. -/
def State.hartWalk (s : State) (h : Nat) (k : HKind) (va : W64) : HWalk :=
  let x := s.hart h
  if x.bare k then .ok va.toNat
  else if !canonical va then .trap k.page
  else s.sv57 x k va.toNat 5 (bfld x.satp 0 44 * 4096)

/-- A physical piece of an access: its address, its offset in the access and its length. -/
structure HPiece where
  pa : Nat
  off : Nat
  n : Nat
  deriving DecidableEq, Repr

/-- An access of a hart: its pieces, or the cause and address of an exception. -/
inductive HAcc where
  | ok (ps : List HPiece)
  | trap (cause : Nat) (tval : W64)
  deriving DecidableEq, Repr

/-- The checks of an access: alignment, then each page in turn. -/
def State.hartAccess (s : State) (h : Nat) (k : HKind) (va : W64) (n align : Nat) : HAcc :=
  let m := min n (4096 - va.toNat % 4096)
  let va2 := va + BitVec.ofNat 64 m
  if va.toNat % align != 0 then .trap k.misaligned va
  else
    match s.hartWalk h k va with
    | .trap c => .trap c va
    | .ok a =>
      if m = n then .ok [⟨a, 0, n⟩]
      else
        match s.hartWalk h k va2 with
        | .trap c => .trap c va2
        | .ok b => .ok [⟨a, 0, m⟩, ⟨b, m, n - m⟩]

/-! ## Accesses -/

/-- A transactional access is to device memory homed on this module, outside the reduction windows (R225). -/
def State.hartHome (s : State) (ps : List HPiece) : Bool :=
  ps.all fun x => s.place x.pa = .device && x.pa / 2 ^ 48 = s.pkg && !s.reducing s.pkg x.pa && !s.reducing s.pkg (x.pa + x.n - 1)
/-- The rights of a hart at an address: a management hart's reach the whole of a control page (R152, R180). -/
def State.hartMayAt (s : State) (h pa n : Nat) (e : Eff) : Bool :=
  s.agentMay (decide ((s.hart h).mode ≠ .u)) pa n e ||
  (64 ≤ h && (s.hart h).mode != .u && (match s.place pa, e with | .control _ _, .atom _ => false | .control _ _, _ => true | _, _ => false))
/-- The hart has the rights at the physical addresses. -/
def State.hartMay (s : State) (h : Nat) (ps : List HPiece) (e : Eff) : Bool := ps.all fun x => s.hartMayAt h x.pa x.n e
/-- The piece conflicts with an access of the lock holder's (R237). -/
def State.hartLocked (s : State) (h : Nat) (write : Bool) (x : HPiece) : Bool :=
  s.lockHits (.hart h) (write || s.linePartials x.pa x.n != []) x.pa x.n
/-- The access promotes stores that are not done, or it conflicts with the lock holder's (R203, R237). -/
def State.hartBlocked (s : State) (h : Nat) (write : Bool) (ps : List HPiece) : Bool :=
  ps.any fun x => s.promotes (.hart h) x.pa x.n || s.hartLocked h write x
/-- Something that the access needs is not at hand. -/
def State.hartAwaits (s : State) (h : Nat) (write : Bool) (ps : List HPiece) : Bool :=
  ps.any fun x => s.awaits (.hart h) write x.pa x.n
/-- A load or an atomic at a core window stands behind the hart's own stores that wait there (R197). -/
def State.hartBehind (s : State) (h : Nat) (e : Eff) (ps : List HPiece) : Bool := e != .store && ps.any fun x => s.loadWaits (.hart h) x.pa
/-- What the access waits for is asked for. -/
def State.hartSeek (s : State) (h : Nat) (write : Bool) (ps : List HPiece) : State :=
  ps.foldl (fun (s : State) x => s.seek (.hart h) write x.pa x.n) s

/-- How an access goes on: it has ended the instruction, or it may be performed at its pieces. -/
inductive HGate where
  | stop (s : State)
  | go (s : State) (ps : List HPiece)

/-- What precedes an access: exceptions, the rules of transactions (one that reaches nothing is an exception, and aborts with FAULT), and the waits for a line or the fallback lock; a waiting
access is tried again at the hart's next turn. -/
def State.hartGate (s0 : State) (h : Nat) (k : HKind) (e : Eff) (va : W64) (n align : Nat) : HGate :=
  match (s0.hartWalkAway h k va).or (s0.hartWalkAway h k (va + BitVec.ofNat 64 (n - 1))) with
  | some a => .stop (s0.seek (.hart h) false a 8)
  | none =>
  let s := (s0.hartTouch h k va).hartTouch h k (va + BitVec.ofNat 64 (n - 1))
  let tx := (s.hart h).tx.isSome
  match s.hartAccess h k va n align with
  | .trap c v => .stop (s.hartRaise h c v)
  | .ok ps =>
    let away := e = .atom false && (ps.any fun x => x.pa / 2 ^ 48 != s.pkg)
    if tx && (ps.all fun x => s.place x.pa != .unbacked) && !s.hartHome ps then .stop (s.hartAbort h abRemote 0)
    else if !s.hartMay h ps e then .stop (s.hartRaise h k.access va)
    else if !away && s.hartAwaits h e.writes ps then .stop (s.hartSeek h e.writes ps)
    else if s.hartBehind h e ps then .stop s
    else if s.hartBlocked h e.writes ps then
      .stop (if tx && ps.any fun x => s.hartLocked h e.writes x then s.hartAbort h abConflict 0 else s)
    else .go s ps

def HPiece.addrs (p : HPiece) : List Nat := rangeFrom p.pa p.n
/-- The agent of a hart's access. -/
def hartBy (h : Nat) : By := ⟨.hart h, none, none⟩

/-- The bytes that a hart reads, its own buffered ones first, with the lines entered in its read signature (R228, R241). -/
def State.hartRead (s : State) (h : Nat) (ps : List HPiece) : State × List Byte :=
  let s1 := ps.foldl (fun (s : State) x => s.reach (hartBy h) false 12 false x.pa x.n) s
  let mem := ps.flatMap fun x => s1.agentBytes x.pa x.n
  match (s1.hart h).tx with
  | none => (s1, mem)
  | some t =>
    let as := ps.flatMap HPiece.addrs
    let t' := { t with reads := as.foldl (fun r a => insertNat (a / 128) r) t.reads }
    (s1.modHart h fun y => { y with tx := some t' },
     (as.zip mem).map fun x => ((t.writes.find? fun w => w.1 = x.1).map (·.2)).getD x.2)
/-- The access reads a poisoned byte that the hart has not buffered itself (R343). -/
def State.hartPoison (s : State) (h : Nat) (ps : List HPiece) : Bool :=
  let own := match (s.hart h).tx with | some t => t.writes | none => []
  (ps.flatMap HPiece.addrs).any fun a => s.poisoned a && !own.any fun w => w.1 = a

/-- Bytes that a hart writes: buffered in a transaction, within the capacity of R226, else performed. -/
def State.hartWrite (s : State) (h : Nat) (ps : List HPiece) (bs : List Byte) : State :=
  match (s.hart h).tx with
  | some t =>
    let ws := (ps.flatMap HPiece.addrs).zip bs
    let t' := { t with writes := ws.foldl (fun r w => tput r w.1 w.2) t.writes }
    if (dedup (t'.writes.map fun w => w.1 / 128)).length ≤ 256 then
      (ps.foldl (fun (s : State) x => s.observeBuffered h x.pa x.n) s).modHart h fun y => { y with tx := some t' }
    else s.hartAbort h abCapacity 0
  | none =>
    ps.foldl (fun (s : State) x =>
      (s.reach (hartBy h) true 12 false x.pa x.n).agentStore (.hart h) x.pa ((bs.drop x.off).take x.n)) s
/-- A write that does not end the transaction lets the hart go on with rd written. -/
def State.hartWriteDone (s : State) (h d : Nat) (v : W64) (ps : List HPiece) (bs : List Byte) : State :=
  let s1 := s.hartWrite h ps bs
  if (s.hart h).tx.isSome && (s1.hart h).tx.isNone then s1 else s1.hartDone h d v

/-- A load, and what the instruction does with the bytes. -/
def State.hartLoad (s : State) (h : Nat) (va : W64) (n align : Nat) (f : State → List Byte → State) : Res :=
  match s.hartGate h .load .load va n align with
  | .stop s' => .next s'
  | .go s ps =>
    if s.hartPoison h ps then .next (s.hartRaise h 5 va)
    else
      let r := s.hartRead h ps
      .next (f r.1 r.2)
/-- A store of an instruction. -/
def State.hartStore (s : State) (h : Nat) (va : W64) (align : Nat) (bs : List Byte) (f : State → List HPiece → State) : Res :=
  match s.hartGate h .store .store va bs.length align with
  | .stop s' => .next s'
  | .go s ps => .next (f s ps)

/-- The hart's stores have been performed at system scope: none waits at a mailbox or a tile (R209). -/
def State.hartDrained (s : State) (h : Nat) : Bool :=
  !s.senderWaits (.hart h)

/-! ## Plain instructions (HOST_INSTRUCTION) -/

/-- The atomics of RISC-V. -/
def hostAmo : AtomOp → Bool
  | .int _ t | .swap t => IntTy.w t = 32 || IntTy.w t = 64
  | _ => false
/-- A loaded value in a register. -/
def loaded (n : Nat) (signed : Bool) (bs : List Byte) : W64 :=
  if signed then w64 (sext (8 * n) (leNat bs)) else numW (leNat bs)

/-- AMO: in a transaction a read and a buffered write (R241). It reaches no reduction window (R219, R383). -/
def State.hartAmo (s : State) (h d : Nat) (va : W64) (op : AtomOp) (v : W64) : Res :=
  let n := AtomOp.bytes op
  match s.hartGate h .store (.atom false) va n n with
  | .stop s' => .next s'
  | .go s ps =>
    let pa := (ps.headD ⟨0, 0, 0⟩).pa
    if s.hartPoison h ps || s.reducing s.pkg pa then .next (s.hartRaise h 7 va)
    else if (s.hart h).tx.isSome then
      let r := s.hartRead h ps
      .next (r.1.hartWriteDone h d (loaded n true r.2) ps (leBytes n (AtomOp.apply op .rne (leNat r.2) v.toNat 0)))
    else
      let r := s.atomAt (hartBy h) 12 false op .rne pa v.toNat 0
      if pa / 2 ^ 48 = s.pkg then .next (r.1.hartDone h d (w64 (sext (8 * n) r.2)))
      else
        match s.valueAt (.hart h) pa with
        | some x => .next (if x.2 then (s.useValue (.hart h) pa).hartRaise h 7 va else (s.useValue (.hart h) pa).hartDone h d (loaded n true x.1))
        | none => .next (if s.askedValue (.hart h) pa then s else s.atomAway (.hart h) op .rne pa v.toNat 0 false none)

/-- LR: the line is reserved. -/
def State.hartLr (s : State) (h d : Nat) (va : W64) (n : Nat) : Res :=
  if (s.hart h).tx.isSome then .next (s.hartAbort h abEngine 0)
  else
    match s.hartGate h .load .load va n n with
    | .stop s' => .next s'
    | .go s ps =>
      if s.hartPoison h ps then .next (s.hartRaise h 5 va)
      else
        let r := s.hartRead h ps
        .next ((r.1.hartDone h d (loaded n true r.2)).modHart h fun x => { x with lr := some (ps.headD ⟨0, 0, 0⟩).pa })
/-- SC: it writes while its line is still reserved; rd is 0 when it has written, else 1. -/
def State.hartSc (s : State) (h d : Nat) (va : W64) (n : Nat) (v : W64) : Res :=
  if (s.hart h).tx.isSome then .next (s.hartAbort h abEngine 0)
  else
    s.hartStore h va n (leBytes n v.toNat) fun s ps =>
      let pa := (ps.headD ⟨0, 0, 0⟩).pa
      let held := match (s.hart h).lr with | some a => decide (a / 128 = pa / 128) | none => false
      let s1 := s.modHart h fun x => { x with lr := none }
      if held then (s1.hartWrite h ps (leBytes n v.toNat)).hartDone h d 0 else s1.hartDone h d 1

/-- The size of a host access. -/
def hostSize (n : Nat) : Bool := n = 1 || n = 2 || n = 4 || n = 8

/-- The hart fetches and runs: it neither waits for a ticket nor stands stopped for a checkpoint (R413), and in minimal mode only hub
die 0 has harts (R417). Harts 64 to 67 are the management harts (R407). -/
def State.hartRuns (s : State) (h : Nat) : Bool :=
  h < 68 && !(s.hart h).commit && !(s.bootMinimal && 16 ≤ h && h != 64) &&
  !s.imaging

/-- The effect of a plain instruction. Accesses are performed at once and in program order, but for stores that wait at a core window: a release waits
for those (rl, and a fence with W before it), and aq has nothing to wait for (R209). -/
def State.hostOp (s : State) (h : Nat) (op : HostOp) : Res :=
  match op with
  | .load d a n sg =>
    if !hostSize n then .next (s.hartRaise h 2 0)
    else s.hartLoad h (numW a) n 1 fun s bs => s.hartDone h d (loaded n sg bs)
  | .store a n v =>
    if !hostSize n then .next (s.hartRaise h 2 0)
    else s.hartStore h (numW a) 1 (leBytes n v.toNat) fun s ps => s.hartWriteDone h 0 0 ps (leBytes n v.toNat)
  | .csr d n => if (s.hart h).csrMay n false then .next (s.hartDone h d (s.csrRead h n)) else .next (s.hartRaise h 2 0)
  | .amo d a _ op v _ rl =>
    if rl && !s.hartDrained h then .next s else if hostAmo op then s.hartAmo h d (numW a) op v else .next (s.hartRaise h 2 0)
  | .lr d a n _ rl =>
    if rl && !s.hartDrained h then .next s else if n = 4 || n = 8 then s.hartLr h d (numW a) n else .next (s.hartRaise h 2 0)
  | .sc d a n v _ rl =>
    if rl && !s.hartDrained h then .next s else if n = 4 || n = 8 then s.hartSc h d (numW a) n v else .next (s.hartRaise h 2 0)
  | .fence pred succ => .next (if pred % 2 = 1 && succ % 8 != 0 && !s.hartDrained h then s else s.modHart h Hart.next)
  | .mret =>
    if (s.hart h).mode != .m then .next (s.hartRaise h 2 0)
    else .next (s.modHart h Hart.mret)
  | .barred => .next (if (s.hart h).tx.isSome then s.hartAbort h abEngine 0 else s.modHart h Hart.next)
  | .illegal => .next (s.hartRaise h 2 0)

def execHostInstruction (h : Nat) (op : HostOp) (s : State) : Res :=
  if s.hartRuns h && (s.hart h).waiting.isNone then s.hostOp h op else .next s

/-- An interrupt is enabled: M takes those that it has not delegated, with MIE or in a lower mode; S those that are, with SIE or in U mode. -/
def Hart.enabled (h : Hart) (cause : Nat) : Bool :=
  bbit h.mie cause &&
  (if bbit h.mideleg cause then (h.mode = .u || (h.mode = .s && bbit h.mstatus stSIE)) else (h.mode != .m || bbit h.mstatus stMIE))
/-- The interrupt to be taken, in RISC-V's order: those of M mode before those delegated, external before software before timer, then the platform's
own. -/
def Hart.interrupt (h : Hart) : Option Nat :=
  let order := [11, 3, 7, 9, 1, 5] ++ rangeFrom 16 48
  ((order.filter fun c => !bbit h.mideleg c) ++ order.filter fun c => bbit h.mideleg c).find? fun c => bbit h.mip c && h.enabled c
/-- The hart takes an interrupt: a transaction aborts first (R241), and dx.wait starts afresh after it (R159). The source has no other sign of it: the pending
bit of one that is not software's is taken back (log entry 11). -/
def State.takeInterrupt (s : State) (h : Nat) : State :=
  match (s.hart h).interrupt with
  | some c =>
    if s.imaging then s
    else (s.hartAbort h abInterrupt 0).modHart h fun x => { x with mip := setFld x.mip c 1 0 }.enter (numW (2 ^ 63 + c)) 0
  | none => s
/-- HOST_INTERRUPT: it becomes pending, and is taken as soon as the hart lets it: interrupts stay pending while a checkpoint is written (R413). -/
def execHostInterrupt (h cause : Nat) (s : State) : Res :=
  .next (if 68 ≤ h || 64 ≤ cause then s
    else (s.modHart h fun x => { x with mip := setFld x.mip cause 1 1 }).takeInterrupt h)

/-! ## The dx instructions -/

/-- The hart that executes a dx instruction. -/
def State.me (s : State) : Nat := s.iss.key
def State.rdX (s : State) (n : Nat) : W64 := (s.hart s.me).rd n

/-- The mode check of R47, and the rule that a transaction holds no dx instruction but its own (R241). -/
def State.dxGate (s : State) (rank : Nat) (f : State → Res) : Res :=
  if Mode.rank (s.hart s.me).mode < rank then .next (s.hartRaise s.me 2 0)
  else if (s.hart s.me).tx.isSome then .next (s.hartAbort s.me abEngine 0)
  else f s

/-- dx.launch (R151): a release at system scope. A management hart accepts no launch context (R407): it raises the illegal-instruction exception, log
entry 11. -/
def execDxLaunch (d s1 : Nat) (s : State) : Res :=
  s.dxGate 0 fun s =>
    let h := s.me
    if 64 ≤ h then .next (s.hartRaise h 2 0)
    else if !s.hartDrained h then .next s
    else
    s.hartLoad h (s.rdX s1) 64 64 fun s bs =>
      match s.signalWaits (24 + h / 16) (s.hart h).dxctx bs with
      | some s' => s'
      | none =>
        let r := s.submit (24 + h / 16) (s.hart h).dxctx 0 none bs
        r.1.hartDone h d r.2

/-- dx.wait (R159): the first turn reads rs2 and fixes the deadline; every turn reads the word. -/
def execDxWait (d s1 s2 : Nat) (s : State) : Res :=
  s.dxGate 0 fun s =>
    let h := s.me
    let limit := s.rdX s2
    let due := match (s.hart h).waiting with
      | some w => w.deadline
      | none => if limit = 0xFFFFFFFFFFFFFFFF then none else some (s.time + limit.toNat)
    s.hartLoad h (s.rdX s1) 8 8 fun s bs =>
      let word := leW64 bs
      let late := match due with | some t => decide (t ≤ s.time) | none => false
      if bfld word 0 8 != 0 then s.hartDone h d word
      else if late then s.hartDone h d 0
      else s.modHart h fun x => { x with waiting := some ⟨s.rdX s1, due, d⟩ }

/-- DX_WAIT_TIMEOUT. -/
def execDxWaitTimeout (h : Nat) (s : State) : Res :=
  match (s.hart h).waiting with
  | some w =>
    (match w.deadline with
     | some t => .next (if t ≤ s.time then s.hartDone h w.rd 0 else s)
     | none => .next s)
  | none => .next s

/-- dx.tbegin (R240). The 64 transactions of R226 are one for each host hart: a management hart's exceeds the capacity (log entry 11). -/
def execDxTbegin (d : Nat) (s : State) : Res :=
  let h := s.me
  if (s.hart h).tx.isSome then .next (s.hartAbort h abNest 0)
  else if 64 ≤ h then .next (s.hartDone h d (numW abCapacity))
  else .next (s.modHart h fun x => { ((x.wr d 0).next) with tx := some ⟨[], [], x.pc + 4, d⟩ })

/-- dx.tend (R229, R240): it takes a ticket and waits for its turn. -/
def execDxTend (s : State) : Res :=
  let h := s.me
  if (s.hart h).tx.isNone then .next (s.modHart h Hart.next)
  else if (s.hart h).commit || !s.hartDrained h then .next s
  else
    let old := s.commits.filter fun c => c.2 != Commit.hart h
    let s1 := { s with ticket := s.ticket + 1, commits := old ++ [(s.ticket, Commit.hart h)] }
    .next (s1.modHart h fun x => { x with commit := true }).ticketServe

/-- dx.tabort (R240). -/
def execDxTabort (s1 : Nat) (s : State) : Res :=
  let h := s.me
  if (s.hart h).tx.isSome then .next (s.hartAbort h abUser (bfld (s.rdX s1) 0 8)) else .next (s.modHart h Hart.next)

/-- dx.fqpop (R334). -/
def execDxFqpop (d s1 : Nat) (s : State) : Res :=
  s.dxGate 1 fun s =>
    let h := s.me
    let at_ := s.ringBase + 32 * ((s.ringWritten - s.pend) % s.ringCap)
    if s.pend = 0 then .next (s.hartDone h d 0)
    else
      let s := s.settle at_ 32
      let bs := s.getBytes at_ 32
      s.hartStore h (s.rdX s1) 8 bs fun s ps =>
        let s1 := s.hartWrite h ps bs
        let s2 := if s.poisonedIn at_ 32 then s1.setPoison ((ps.flatMap fun p => unitsOf p.pa p.n).filter holdsPoison) else s1
        let s3 := { s2 with pend := s.pend - 1 }
        (s3.drainHeld s3.heldFaults).hartDone h d (numW s.pend)

/-- An operation that waits for service is released (R335). -/
def EngWait.replay (fail : Bool) : EngWait → EngWait
  | .waiting => .replayed fail
  | w => w
def Warp.replay (w : Warp) (fail : Bool) : Warp :=
  { w with
    service := w.service.map fun x => if x.replayed.isNone then ⟨some fail⟩ else x
    cover := if w.service = some ⟨none⟩ then (if fail then w.cur.map (·.pc) else none) else w.cover
    copyQ := w.copyQ.map fun o => { o with wait := o.wait.map (·.replay fail) }
    gathQ := w.gathQ.map fun o => { o with wait := o.wait.map (·.replay fail) } }
/-- dx.replay (R335). -/
def execDxReplay (s1 : Nat) (s : State) : Res :=
  s.dxGate 1 fun s =>
    let v := s.rdX s1
    if !s.hartDrained s.me then .next s
    else
      .next ({ s with
        warps := s.warps.map fun (w : Nat × Warp) => if !savedKey w.1 && warpCore w.1 = bfld v 0 11 then (w.1, w.2.replay (bbit v 16)) else w
        }.modHart s.me Hart.next)

/-- The grids of a context, the deepest first. -/
def State.ctxGrids (s : State) (ctx : Nat) : List Nat :=
  let mine := s.grids.filter fun g => g.2.ctx = ctx
  ((List.range 10).reverse).flatMap fun n => (mine.filter fun g => g.2.depth = n).map (·.1)
/-- The BOUND entries of grids are refused with WHY 4. -/
def Core.refuseOf (c : Core) (ids : List Nat) : Core :=
  let hit := fun e : SlotEntry => bfld e.ctl 0 3 = 1 && ids.contains (bfld e.ctl 32 32)
  { c with slots := c.slots.map fun e => if hit e.2 then (e.1, { e.2 with ctl := setFld (setFld e.2.ctl 0 3 5) 4 4 4 }) else e }
/-- dx.kill (R336): entries held for room go, every grid of the context ends with its gangs, and its BOUND entries are refused with
WHY 4. -/
def State.killCtx (s : State) (ctx : Nat) : State :=
  let ids := s.ctxGrids ctx
  let s1 := { s with heldFaults := s.heldFaults.filter fun f => f.ctx != ctx }
  let s2 := (ids.foldl (fun (x : Killed) id => x.also fun s => if (tget? s.grids id).isSome then s.killGrid id 3 (numW ctx) else ⟨s, []⟩) ⟨s1, []⟩).out
  { s2 with cores := s2.cores.map fun (c : Nat × Core) => (c.1, c.2.refuseOf ids) }
def execDxKill (s1 : Nat) (s : State) : Res :=
  s.dxGate 1 fun s => .next ((s.killCtx (bfld (s.rdX s1) 0 16)).modHart s.me Hart.next)

/-! ## Checkpoints (R413) -/

/-- An address of this module's device memory. -/
def State.imaged (s : State) (pa : Nat) : Bool := pa / 2 ^ 48 = s.pkg && s.place pa = .device
def Image.none : Image := ⟨false, [], [], [], [], [], [], [], false⟩
def State.image (s : State) (i : Nat) : Image := vget Image.none s.images i
/-- Every shadow is folded and every partial forwarded (R385). -/
def State.writeBack (s : State) : State :=
  let s1 := s.partials.foldl (fun (s : State) p => s.forwardPartial p.1) s
  s1.shadows.foldl (fun (s : State) x => s.foldLine x.1) s1
/-- What device memory holds. -/
def State.takeImage (s : State) : Image :=
  { valid := true, cells := s.mem.filter fun c => s.imaged c.1, pois := s.poison.filter s.imaged, grids := s.grids, gangs := s.gangs
    groups := s.groups, warps := s.warps, saved := s.saved, media := false }
/-- Device memory takes an image; caches and translation caches are empty. -/
def State.putImage (s : State) (m : Image) : State :=
  { s with
    mem := m.cells.foldl (fun (r : List Host.Cell) c => Memory.write r c.1 c.2) (s.mem.filter fun c => !s.imaged c.1)
    poison := m.pois.foldl (fun r u => insertNat u r) (s.poison.filter fun u => !s.imaged u)
    shadows := [], tlb := [], classes := [], dir := s.dir.filter fun e => lineHome e.1 != s.pkg, holders := []
    grids := m.grids, gangs := m.gangs, groups := m.groups, warps := m.warps, saved := m.saved }

/-- A save begins (R413): every group is told to stop, and the slot is not valid until it is written. -/
def State.ckptStart (s : State) (img d : Nat) : State :=
  let s1 := s.groups.foldl (fun (s : State) g =>
    if s.slotState g.1 = 2 then s.modSlot (g.1 / 64) (g.1 % 64) fun e => { e with ctl := setFld e.ctl 3 1 1 } else s) s
  { s1 with ckpt := some ⟨img, s.me, d, (s.groups.filter fun g => s.slotState g.1 = 2).map (·.1)⟩, images := vmod Image.none s1.images img fun m => { m with valid := false } }

/-- dx.ckpt with rs1 as R413 lays it out; a save in progress is waited for. -/
def State.ckptOp (s : State) (d r1 : Nat) : Res :=
  s.dxGate 3 fun s =>
    let v := s.rdX r1
    let img := bfld v 0 3
    let op := bfld v 4 2
    let done := fun n : Nat => Host.Outcome.next (s.hartDone s.me d (numW n))
    if s.ckpt.isSome then .next s
    else if 5 ≤ img || op = 3 || bbit v 3 || bfld v 6 58 != 0 then done 1
    else if op = 0 then .next (s.ckptStart img d)
    else if op = 2 then done (if (s.image img).valid then 0 else 3)
    else if s.grids != [] then done 2
    else if !(s.image img).valid then done 3
    else if (s.image img).media then
      .next ({ s with images := vmod Image.none s.images img fun m => { m with valid := false } }.hartDone s.me d 4)
    else .next ((s.putImage (s.image img)).hartDone s.me d 0)

def execDxCkptSave (d s1 : Nat) (s : State) : Res := s.ckptOp d s1
def execDxCkptRestore (d s1 : Nat) (s : State) : Res := s.ckptOp d s1
def execDxCkptQuery (d s1 : Nat) (s : State) : Res := s.ckptOp d s1

/-- CHECKPOINT_COMPLETE: every group is saved; the partials are forwarded and device memory is written to the slot, an access of another kind for
each class unit (R190). The harts go on, and the groups are bound again. -/
def execCheckpointComplete (mediaError : Bool) (s : State) : Res :=
  match s.ckpt with
  | none => .next s
  | some c =>
    if !s.groups.all fun g => g.2.stored then .next s
    else
      let s0 := s.writeBack
      let s1 := { s0 with classes := s0.classes.map fun (e : Nat × ClassEntry) => if s0.imaged (e.1 % 2 ^ 53) then (e.1, { e.2 with cls := .shared }) else e }
      let img := if mediaError then Image.none else s1.takeImage
      .next (({ s1 with images := vset s1.images c.image img, ckpt := none }.bindAgain c.stopped).hartDone c.hart c.rd (if mediaError then 4 else 0))

end Sys2Proof.Machine
end

