-- ==== Sys2Proof/Machine/Platform.lean ====
section
/-! DEFINITION. The platform: time, PCIe, CSR writes, coherence objects, clock plans, power, snapshots, memory errors and start-up (R329,
R333, R346, R358 to R362, R372, R373, R383, R408, R409, R414 to R419). -/

namespace Sys2Proof.Machine

/-! ## Time (R17, R333) -/

/-- A warp of the core waits for translation service (R332). -/
def State.stalled (s : State) (core : Nat) : Bool :=
  s.warps.any fun w => !savedKey w.1 && warpCore w.1 = core && w.2.service = some ⟨none⟩
/-- The slice timer of a group runs: its core is not stalled, or its context has a warp there that waits for service (R333). -/
def State.sliceRuns (s : State) (g : Group) : Bool :=
  !g.stored &&
  (!s.stalled g.core ||
   s.warps.any fun w => !savedKey w.1 && warpCore w.1 = g.core && w.2.service = some ⟨none⟩ &&
     (s.gridOf w.1).ctx = (s.grid g.grid).ctx)
/-- The word of a warp slot in a core record. -/
def State.snapSlot (s : State) (core i : Nat) : W64 :=
  let k := core * 64 + i
  let w := s.warp k
  let alive := w.threadsWith fun t => t.status != .exited
  if (tget? s.warps k).isNone || alive = 0 then 0
  else
    let waiting := lanesOf (w.threadsWith fun t => t.status = .waiting)
    let pc := (w.chosenPc).getD (w.lowestPc waiting)
    setFld pc 0 2 (if w.handler then 3 else if w.eligibleSet = 0 then 2 else 1)
/-- A core record as its 72 first words. -/
def State.snapRecord (s : State) (t core : Nat) : List W64 :=
  let c := s.core core
  let saving := s.groups.any fun g => g.2.core = core && !g.2.stored && s.stopping g.1
  let stall := b2n (s.stalled core) + b2n saving * 2 + b2n (c.oos.toList.any id) * 4
  [numW t, numW (s.coreClk core), c.issues, numW stall, 0, 0, 0, 0] ++ (List.range 64).map (s.snapSlot core)

/-- The state of the cores at the clock of a snapshot's latch time or the first after it (R360). -/
def State.latch (s : State) : State :=
  match s.snapAt, s.snapLatched with
  | some t, none => if t ≤ s.time then { s with snapLatched := some ((List.range 1152).map fun c => (c, s.snapRecord t c)) } else s
  | _, _ => s
/-- Arithmetic clocks pass without a snapshot's latch. -/
def State.pass (s : State) (n : Nat) : State :=
  let d := n * 1000000 / s.clkMhz
  { s with
    cycles := (s.cycles + n) % 2 ^ 64
    ps := s.ps + d
    groups := s.groups.map fun (g : Nat × Group) =>
      if s.sliceRuns g.2 then (g.1, { g.2 with sliceLeft := g.2.sliceLeft - d }) else g }
/-- The clocks until $time has reached the latch time of a snapshot. -/
def State.untilLatch (s : State) : Option Nat :=
  match s.snapAt, s.snapLatched with
  | some t, none => some (((t * 1000 - s.ps) * s.clkMhz + 999999) / 1000000)
  | _, _ => none
/-- Arithmetic clocks pass; a snapshot is latched at the first of them at which $time has reached its latch time (R360). -/
def State.elapse (s : State) (n : Nat) : State :=
  match s.untilLatch with
  | some j => if j ≤ n then (s.pass j).latch.pass (n - j) else s.pass n
  | none => s.pass n

/-! ## PCIe (R408) -/

/-- The physical address of a BAR0 address. -/
def State.barPa (s : State) (addr : Nat) : Nat := bfld s.dxpcw 36 17 * 2 ^ 36 + addr % 2 ^ 36
/-- A request is served: its address is backed, and the access is one that its place allows. -/
def State.pcieMay (s : State) (pa n : Nat) (e : Eff) : Bool := s.agentMay false pa n e

/-- A request cannot be performed yet. -/
def State.pcieWaits (s : State) : PcieReq → Bool
  | .read pa n => s.imaging || (s.pcieMay pa n .load && s.lockBlocks .other false pa n)
  | .write pa bs _ => s.imaging || (s.pcieMay pa bs.length .store && s.lockBlocks .other true pa bs.length)
/-- What a request waits for is asked for. -/
def State.pcieSeek (s : State) : PcieReq → State
  | .read pa n => s.seek .other false pa n
  | .write pa bs _ => s.seek .other true pa bs.length
/-- A request is performed; a mailbox takes the bytes of a write as a store of a sender of its own. -/
def State.pcieServe (s : State) : PcieReq → State
  | .read pa size =>
    if !s.pcieMay pa size .load then s.emit (.pcie true false [])
    else
      let s1 := if s.place pa = .device then ((s.settle pa size).ownLines .other false pa size).observe .other false pa size else s
      (s1.classifyRaw pa size).emit (.pcie false (s1.poisonedIn pa size) (s1.agentBytes pa size))
  | .write pa bytes ep =>
    if !s.pcieMay pa bytes.length .store then s.emit (.pcie true false [])
    else
      match s.place pa with
      | .mail c o => s.mailWrites c o (.hart 128) bytes (mailClose o) none
      | _ =>
        let s1 := s.rawWrite (.hart 128) pa bytes 0
        if ep then s1.setPoison ((unitsOf pa bytes.length).filter holdsPoison) else s1
/-- The first request that waits is performed once it can be: requests are served in the order of their arrival. -/
def State.pcieTurn (s : State) : State :=
  match s.pcieQ with
  | [] => s
  | r :: rest => if s.imaging then s else if s.pcieWaits r then s.pcieSeek r else { s with pcieQ := rest }.pcieServe r
/-- A request arrives: it is performed at once, or stands behind those that wait. -/
def State.pcieArrive (s : State) (r : PcieReq) : State :=
  if s.pcieQ = [] && !s.pcieWaits r then s.pcieServe r else { s with pcieQ := s.pcieQ ++ [r] }.pcieTurn

/-- PCIE_READ. -/
def execPcieRead (addr size : Nat) (s : State) : Res :=
  .next (if size = 0 || 4096 < size then s else s.pcieArrive (.read (s.barPa addr) size))
/-- PCIE_WRITE. -/
def execPcieWrite (addr : Nat) (bytes : List Byte) (ep : Bool) (s : State) : Res :=
  .next (if bytes = [] || 4096 < bytes.length then s else s.pcieArrive (.write (s.barPa addr) bytes ep))

/-- The message of an MSI-X vector is sent, or its pending bit is set while it is masked (log entry 59). -/
def State.msixRaise (s : State) (n : Nat) : State :=
  let v := vget ⟨0, 0, true, false⟩ s.msix n
  if 64 ≤ n then s
  else if v.masked then { s with msix := vset s.msix n { v with pending := true } }
  else s.emit (.msix v.addr v.data)
/-- The PCIe host writes a vector: one that it unmasks sends the message that was pending. -/
def State.msixSet (s : State) (n : Nat) (addr : W64) (data : W32) (mask : Bool) : State :=
  let v := vget ⟨0, 0, true, false⟩ s.msix n
  if 64 ≤ n then s
  else
    let s1 := { s with msix := vset s.msix n ⟨addr, data, mask, v.pending && mask⟩ }
    if v.pending && !mask then s1.emit (.msix addr data) else s1

/-! ## CSR writes (R9, R329, R361, R381, R383) -/

/-- The fields of a value: those bits of a mask. -/
def fieldsOf (v mask : W64) : W64 := v &&& mask

/-- dxfq: ignored while PEND or HELD is not 0, and for a reserved SZ. -/
def State.writeDxfq (s : State) (v : W64) : State :=
  if s.pend != 0 || s.heldFaults != [] || 8 ≤ bfld v 0 4 then s
  else { s with dxfq := fieldsOf v 0x001FFFFFFFFFF00F, ringWritten := 0 }
def execDxfqWrite (v : W64) (s : State) : Res := .next (s.writeDxfq v)

/-- dxsnap: ignored while BUSY. -/
def State.writeDxsnap (s : State) (v : W64) : State :=
  if s.snapAt.isSome then s else { s with dxsnap := fieldsOf v 0x001FFFFFFFFFF001 }
def execDxsnapWrite (v : W64) (s : State) : Res := .next (s.writeDxsnap v)

/-- dxrwn takes effect once the partials of the old window have gone to their homes. -/
def State.writeDxrw (s : State) (n : Nat) (v : W64) : State :=
  let old := s.partials.filter fun p => s.inWindow n (lineAddr p.2.line)
  let s1 := old.foldl (fun (s : State) p => s.forwardPartial p.1) s
  let v1 := fieldsOf v 0x001FFFFFFFFF03F3
  let size := bfld v1 4 6
  let v2 := if 16 ≤ size && size ≤ 40 then setFld v1 16 (size - 16) 0 else v1
  { s1 with dxrw := vset s1.dxrw n v2 }
def execDxrwWrite (n : Nat) (v : W64) (s : State) : Res := .next (if n < 16 then s.writeDxrw n v else s)

/-- The Glade tables hold another window of another module (R383), once the partials of this module have gone to their homes. -/
def State.nodeWindow (s : State) (m n : Nat) (v : W64) : State :=
  if 32 ≤ m || 16 ≤ n || m = s.pkg then s
  else
    let s1 := s.partials.foldl (fun (s : State) p => s.forwardPartial p.1) s
    { s1 with nodeWins := tput s1.nodeWins (m * 16 + n) v }

/-! ## Coherence objects (R372 to R374) -/

/-- A shape record. -/
structure Shape where
  base : W64
  ctx : Nat
  ndim : Nat
  esize : Nat
  dim : List Nat
  stride : List Nat
  tile : List Nat
  deriving DecidableEq, Repr

def Shape.read (bs : List Byte) : Shape :=
  { base := recW bs 0, ctx := recNat bs 8 2, ndim := recNat bs 10 1, esize := recNat bs 11 1
    dim := (List.range 4).map fun i => recNat bs (16 + 4 * i) 4
    stride := 0 :: (List.range 3).map fun i => recNat bs (32 + 4 * i) 4
    tile := (List.range 4).map fun i => recNat bs (48 + 2 * i) 2 }

/-- The record breaks R372. -/
def Shape.malformed (r : Shape) (bs : List Byte) : Bool :=
  r.base.toNat % 128 != 0 || !canonical r.base || !within 1 4 r.ndim || 4 < r.esize || recNat bs 12 4 != 0 || recNat bs 44 4 != 0 ||
  recNat bs 56 8 != 0 ||
  ((List.range 4).any fun i =>
    let d := r.dim.getD i 0
    let t := r.tile.getD i 0
    let st := r.stride.getD i 0
    if i < r.ndim then !within 1 16777216 d || t = 0 || d % t != 0 || st % 128 != 0 else d != 0 || st != 0 || t != 1) ||
  r.tile.getD 0 0 * 2 ^ r.esize % 128 != 0

/-- Byte offsets of the lines of each tile from BASE. -/
def Shape.tiles (r : Shape) : List (List Nat) :=
  let n := fun i => if i < r.ndim then r.dim.getD i 1 else 1
  let t := fun i => r.tile.getD i 1
  let count := fun i => n i / t i
  let row := t 0 * 2 ^ r.esize
  let st := fun i => r.stride.getD i 0
  (List.range (count 3)).flatMap fun i3 => (List.range (count 2)).flatMap fun i2 => (List.range (count 1)).flatMap fun i1 =>
    (List.range (count 0)).map fun i0 =>
      (List.range (t 3)).flatMap fun j3 => (List.range (t 2)).flatMap fun j2 => (List.range (t 1)).flatMap fun j1 =>
        (List.range (row / 128)).map fun l =>
          (i3 * t 3 + j3) * st 3 + (i2 * t 2 + j2) * st 2 + (i1 * t 1 + j1) * st 1 + i0 * row + l * 128

/-- The object of a record, or the RESULT that refuses it. -/
inductive ObjTry where
  | ok (o : Obj)
  | bad (result : Nat)
  deriving DecidableEq, Repr

/-- The checks of a registration, in the order 1, 4, 2, 3. -/
def State.objTry (s : State) (r : Shape) : ObjTry :=
  let pa := fun off : Nat => (s.walkFrom (r.base.toNat + off) 0 5 (s.root r.ctx)).pa
  let tiles := r.tiles
  match (if s.ctxOk r.ctx then pa 0 else none) with
  | none => .bad 4
  | some p0 =>
    if p0 / 2 ^ 48 != s.pkg || s.place p0 != .device ||
        tiles.any fun t => t.any fun o => pa o != some (p0 + o) || homeDie (p0 + o) != homeDie p0 || s.place (p0 + o) != .device then .bad 4
    else if 4096 ≤ (s.objects.filter fun x => x.die = homeDie p0).length then .bad 2
    else
      let lines := tiles.map fun t => t.map fun o => (p0 + o) / 128
      if s.objects.any fun x => x.tiles.any fun t => t.any fun l => lines.any fun u => u.contains l then .bad 3
      else .ok ⟨r.base, r.ctx, homeDie p0, lines⟩

/-- A tracked unit is recalled from every holder (R373). -/
def State.recallUnits (s : State) (us : List Nat) : State := us.foldl (fun (s : State) u => s.recallUnit u) s

/-- A write of dxobj with OP 01 or 10 begins an operation; one with another OP does nothing but stand. -/
def State.writeDxobj (s : State) (v : W64) : State :=
  let v1 := fieldsOf v 0x001FFFFFFFFFFFC3
  let rec_ := bfld v 6 47 * 64
  let bs := s.getBytes rec_ 64
  let r := Shape.read bs
  let op := bfld v 0 2
  let begin_ := fun (s : State) (reg : Bool) (res : Nat) (o : Obj) (us : List Nat) =>
    ({ s with dxobj := setFld v1 63 1 1, objPending := some ⟨reg, res, o⟩ } : State).recallUnits us
  let no : Obj := ⟨r.base, r.ctx, 0, []⟩
  if bbit s.dxobj 63 then s
  else if op = 1 then
    if s.place rec_ != .device || s.poisonedIn rec_ 64 || r.malformed bs then begin_ s true 1 no []
    else
      match s.objTry r with
      | .bad n => begin_ s true n no []
      | .ok o => begin_ s true 0 o (o.tiles.flatMap id)
  else if op = 2 then
    match s.objects.find? fun o => o.base = r.base && o.ctx = r.ctx with
    | none => begin_ s false 5 no []
    | some o => begin_ s false 0 o (o.tiles.map fun t => t.headD 0)
  else { s with dxobj := setFld v1 60 3 (bfld s.dxobj 60 3) }

def execDxobjRegister (v : W64) (s : State) : Res := .next (s.writeDxobj (setFld v 0 2 1))
def execDxobjRemove (v : W64) (s : State) : Res := .next (s.writeDxobj (setFld v 0 2 2))

/-- DXOBJ_COMPLETE: once no unit of the object has a holder, the table changes, RESULT is set and BUSY clears. -/
def execDxobjComplete (s : State) : Res :=
  match s.objPending with
  | none => .next s
  | some p =>
    let us := if p.result != 0 then [] else if p.register then p.obj.tiles.flatMap id else p.obj.tiles.map fun t => t.headD 0
    let s1 := s.recallUnits us
    if us.any fun u => s1.dirEntry u != DirEntry.none then .next s1
    else
      .next { s1 with
        objects := if p.result != 0 then s1.objects else if p.register then s1.objects ++ [p.obj] else s1.objects.filter (· != p.obj)
        objPending := none
        dxobj := setFld (setFld s1.dxobj 60 3 p.result) 63 1 0 }

/-! ## Flows (R409) -/

/-- The buffer that a binding word names, when it can be bound: its group's number and the buffer. -/
def State.bindable (s : State) (v : W64) : Option (Nat × Cb) :=
  match s.groups.find? fun g => !g.2.stored && g.2.core = flowCore v && g.2.slots.getLsbD (bfld v 46 6) with
  | none => none
  | some g =>
    match s.cb? g.1 (flowCb v) with
    | some c => if s.cbIdle g.1 (flowCb v) && c.dev && 9344 ≤ c.slotBytes then some (g.1, c) else none
    | none => none

/-- A binding ends: its buffer is no longer ingest-bound by this flow. -/
def State.unbind (s : State) (k : Nat) : State :=
  let s1 := { s with flows := tput s.flows k (vset (s.flow k) 0 (setFld (vget 0 (s.flow k) 0) 63 1 0)) }
  match s.flowGroup k with
  | some (g, n) => s1.modCb g n fun c => { c with ingest := c.ingest.filter (· != k) }
  | none => s1

/-- A write of dxfldat: words 1 to 3 are read-only. -/
def State.writeFlow (s : State) (v : W64) : State :=
  let k := s.selectedFlow
  if bfld s.dxflsel 9 2 != 0 then s
  else
    let s1 := s.unbind k
    let v1 := fieldsOf v 0xFFFFFFF00000FFFF
    let put := fun (s : State) (w : W64) => { s with flows := tput s.flows k (vset (s.flow k) 0 w) }
    if !bbit v1 63 then put s1 v1
    else
      match s1.bindable v1 with
      | some (g, _) => put (s1.modCb g (flowCb v1) fun c => { c with ingest := insertNat k c.ingest }) v1
      | none => put s1 (setFld v1 63 1 0)
def execFlowBind (v : W64) (s : State) : Res := .next (s.writeFlow v)

/-! ## Clock plans (R414, R415) -/

/-- A band reaches a multiple of a frequency. -/
def bandReaches (v : W64) (f : Nat) : Bool :=
  bbit v 63 && (List.range 15).any fun i => bfld v 32 31 ≤ (i + 1) * f && (i + 1) * f ≤ bfld v 0 32
/-- An arithmetic clock is accepted. -/
def State.clockOk (s : State) (f : Nat) : Bool := s.bands.toList.all fun v => !bandReaches v f && !bandReaches v (2 * f)
/-- The candidates, nearest 800 MHz first and the lower one on a tie. -/
def clockOrder : List Nat := 800 :: (List.range 40).flatMap fun i => [799 - i, 801 + i]
/-- A write of a band runs the generator. -/
def State.writeBand (s : State) (n : Nat) (v : W64) : State :=
  let s1 := { s with bands := vset s.bands n v }
  let fix := BitVec.ofNat 16 (maskNat (fun i => bbit (vget 0 s1.bands i) 63 && Config.fixedReaches (vget 0 s1.bands i)) 16)
  match clockOrder.find? s1.clockOk with
  | some f => { s1 with clkFix := fix, clkNext := if f = s1.clkMhz then none else some f }
  | none => { s1 with clkFix := fix, clkFail := (s1.clkFail + 1) % 2 ^ 16 }
def execBandWrite (n : Nat) (v : W64) (s : State) : Res := .next (if n < 16 then s.writeBand n v else s)

/-- CLOCK_PLAN_CHANGE: 50 µs pass without an issue. -/
def execClockPlanChange (s : State) : Res :=
  match s.clkNext with
  | some f => .next (({ s with clkMhz := f, clkNext := none } : State).elapse (50 * f))
  | none => .next s

/-! ## BOOT_CLR and CSR_WRITE -/

def execBootClr (s : State) : Res := .next { s with bootAttempts := 0 }

/-- A register takes its fields. -/
def State.csrStore (s : State) (h n : Nat) (v : W64) : State :=
  if n = 0x5C0 then { s with dxctb := fieldsOf v 0x001FFFFFFFFFF001 }
  else if n = 0x5C1 then s.modHart h fun x => { x with dxctx := bfld v 0 16 }
  else if n = 0x5C2 then s.writeDxfq v
  else if n = 0x5C3 then s.writeDxsnap v
  else if n = 0x5C4 then { s with dxflsel := fieldsOf v 0x7FF }
  else if n = 0x5C5 then { s with dxrtsel := bfld v 0 5 }
  else if n = 0x5C6 then { s with routes := vset s.routes s.dxrtsel v }.dropModules [s.dxrtsel]
  else if n = 0x5C7 then s.writeFlow v
  else if n = 0x5C8 then (if bbit v 63 then { s with bootAttempts := 0 } else s)
  else if n = 0x5C9 then { s with dxpcw := fieldsOf v 0x001FFFF000000000 }
  else if n = 0x5CA then s.writeDxobj v
  else if 0x5D0 ≤ n && n < 0x5E0 then s.writeDxrw (n - 0x5D0) v
  else if 0x5E0 ≤ n && n < 0x5F0 then s.writeBand (n - 0x5E0) v
  else s.modHart h fun x => x.writeCsr s.cycles n v

/-- CSR_WRITE by a hart: below the register's mode, and to a read-only register, an illegal instruction. -/
def execCsrWrite (h csr : Nat) (v : W64) (s : State) : Res :=
  if !s.hartRuns h || (s.hart h).waiting.isSome then .next s
  else if (s.hart h).csrMay csr true then .next ((s.csrStore h csr v).modHart h Hart.next)
  else .next (s.hartRaise h 2 0)

/-! ## Power (R416) -/

/-- POWER_SAMPLE: the averages over 1 µs and 100 ms. -/
def execPowerSample (amps watts : Nat) (s : State) : Res :=
  let quiet := amps < 20000 && watts < 15000
  let s1 := { s with
    amps := amps
    quietSince := if quiet then (match s.quietSince with | some t => some t | none => some s.time) else none }
  .next (if !s.throttle && (24000 < amps || 15000 < watts) then
    { s1 with throttle := true, thrEvents := (s1.thrEvents + 1) % 2 ^ 32 } else s1)
/-- THROTTLE_END. -/
def execThrottleEnd (s : State) : Res :=
  match s.throttle, s.quietSince with
  | true, some t => .next (if t + 10000 ≤ s.time then { s with throttle := false } else s)
  | _, _ => .next s

/-! ## Snapshots (R360 to R362, R419) -/

def execSnaptrig (s : State) : Res := .next s.snapTrigger
def execSmbusSnapshot (s : State) : Res := .next s.snapTrigger
/-- What a management bus reads: SMBus the port counters and dxpwr, JTAG dxboot. -/
def State.sideValue (s : State) : SideReg → W64
  | .fcsErrors p => numW (s.ethPort p).fcsErrors
  | .tooLong p => numW (s.ethPort p).tooLong
  | .unmatched p => numW (s.ethPort p).unmatched
  | .power => s.dxpwr
  | .boot => s.dxboot

/-- SNAPSHOT_LATCH. -/
def execSnapshotLatch (s : State) : Res := .next s.latch

/-- Bytes of the snapshot area (R361). -/
def snapBytes : Nat := 1245184
/-- A byte of the snapshot area by its offset: a core record, or the hub dies' (log entry 29). -/
def snapByte (recs : List (Nat × List W64)) (count o : Nat) : Byte :=
  if o < 0x120000 then
    let r := (recs.getD (o / 1024) (0, [])).2
    BitVec.ofNat 8 ((r.getD (o % 1024 / 8) 0).toNat / 256 ^ (o % 8))
  else Config.hubByte count (o - 0x120000)
/-- SNAPSHOT_COMPLETE: the records are in memory, BUSY clears and COUNT rises. -/
def execSnapshotComplete (s : State) : Res :=
  match s.snapLatched with
  | none => .next s
  | some recs =>
    let base := bfld s.dxsnap 12 41 * 4096
    let s1 := s.sweep base snapBytes
    .next { s1 with
      mem := Memory.fill s1.mem base snapBytes fun a => snapByte recs s.snapCount (a - base)
      poison := s1.poison.filter fun u => !(base ≤ u && u < base + snapBytes)
      snapCount := (s.snapCount + 1) % 2 ^ 32, snapAt := none, snapLatched := none }

/-! ## Memory and lane errors (R346, R347, R358) -/

/-- A kill of the gang that owns what an error has struck (R347, R363); an owner that is none is left as it is. -/
def State.eccKill (s : State) (g : Option Nat) : State :=
  match g with
  | some k =>
    let gk := (s.group k).gangKey
    s.kill gk (s.causeAt gk 4 0)
  | none => { s with dxpois := s.dxpois + 1 }
/-- A unit becomes poisoned, and is counted. -/
def State.eccPoison (s : State) (pa : Nat) : State := { s.setPoison [poisonUnit pa] with dxpois := s.dxpois + 1 }
/-- The group of a core that owns a resource of it. -/
def State.ownerBy (s : State) (core : Nat) (f : Group → Bool) : Option Nat :=
  (s.groups.find? fun g => g.2.core = core && !g.2.stored && f g.2).map (·.1)
/-- An error in a code unit of an on-chip memory (R347): a single one is corrected and counted; of a double one the outcome is the table's. -/
def State.ecc (s : State) (double : Bool) (at_ : EccAt) : State :=
  if !double then { s with dxcorr := s.dxcorr + 1 }
  else
    match at_ with
    | .clean => s
    | .dirty pa => if s.place pa = .device then s.eccPoison pa else s
    | .scratch core off =>
      if core < 1152 && off < 0xC0000 then s.eccPoison (windowBase s.pkg core + off) else s
    | .vreg core slot => s.eccKill (s.ownerBy core fun g => g.slots.getLsbD slot)
    | .tile core t => s.eccKill (s.ownerBy core fun g => g.tilem.getLsbD t)
    | .bank core b => s.eccKill (s.ownerBy core fun g => (g.banksHeld).getLsbD b)
/-- A lane that fails the test of a start is steered out; with a second one the quadrant leaves service (R358, R417). -/
def State.laneFails (s : State) (core q lane : Nat) : State :=
  if s.boot = .starting && core < 1152 && q < 4 && lane < 33 then s.modCore core (·.steerLane (q, lane)) else s

/-- The CRC-16 of a sector's bytes (R345). -/
def crc16 (bs : List Byte) : BitVec 16 :=
  let step := fun (x : BitVec 16) => if x.getLsbD 15 then (x <<< (1 : Nat)) ^^^ 0x1021 else x <<< (1 : Nat)
  bs.foldl (fun x b => (List.range 8).foldl (fun y _ => step y) (x ^^^ (BitVec.setWidth 16 b <<< (8 : Nat)))) 0xFFFF
/-- What the side band of the sector at an address carries while the sector has no error (R345). -/
def State.sideBand (s : State) (pa : Nat) : BitVec 16 := crc16 (s.getBytes (pa / 32 * 32) 32)
/-- The product by the element 2 of GF(2^8) with the field polynomial 0x11D (R345). -/
def gfDouble (a : Byte) : Byte := (a <<< (1 : Nat)) ^^^ (if a.getLsbD 7 then 0x1D else 0)
/-- The two parity sectors of the code group at an address, byte position by byte position: the sum of the eight bytes, and their sum weighted by
rising powers of 2, by Horner's rule. The manual gives no generator of the code, and no address reads them: DESIGN CHOICE, log entry 33. -/
def State.parity (s : State) (pa : Nat) : List Byte × List Byte :=
  let at_ := fun i j => Memory.read s.mem (pa / 256 * 256 + 32 * i + j)
  let sum := fun (f : Byte → Byte) j => (List.range 8).foldr (fun i (x : Byte) => at_ i j ^^^ f x) 0
  ((List.range 32).map (sum id), (List.range 32).map (sum gfDouble))

/-- SCRUB of a code group: bits 0 to 9 of `fails` are the sectors that fail their CRC (8 and 9 the parity sectors), bit 10 says that a
rebuilt one fails again. -/
def execScrub (pa fails : Nat) (s : State) : Res :=
  let a := pa / 256 * 256
  let bad := (List.range 10).filter fun i => fails / 2 ^ i % 2 = 1
  if s.place a != .device || a / 2 ^ 48 != s.pkg || bad = [] then .next s
  else if bad.length ≤ 2 && fails / 1024 % 2 = 0 then .next { s with dxcorr := s.dxcorr + BitVec.ofNat 64 bad.length }
  else
    let data := bad.filter fun i => i < 8
    .next { (s.setPoison (data.map fun i => a + 32 * i)) with dxpois := s.dxpois + BitVec.ofNat 64 data.length }

/-- RESIDUE_MISMATCH in a result that the last issue of a warp formed on a physical lane that the quadrant uses: the gang of the warp is killed, the
lane is suspect, the groups on the quadrant are saved before it is steered out, and restored after it. -/
def execResidueMismatch (w lane : Nat) (s : State) : Res :=
  let core := warpCore w
  let q := warpSlot w / 16
  if !s.live w || savedKey w || 32 < lane || !(s.warp w).formed || vget 32 (s.core core).skip q = lane then .next s
  else
    let s1 := s.killBy w 4 0 0
    let s2 := s1.modCore core fun c => if c.suspect.contains (q, lane) then c else { c with suspect := c.suspect ++ [(q, lane)] }
    let here := (s2.groups.filter fun g => !g.2.stored && g.2.core = core && (bitsOf g.2.slots).any fun i => i / 16 = q).map (·.1)
    let all := dedup (here.flatMap s2.savedWith)
    let s3 := all.foldl (fun (s : State) k =>
      if s.slotState k = 2 then s.modSlot (k / 64) (k % 64) fun e => { e with ctl := setFld e.ctl 3 1 1 } else s) s2
    let s4 := s3.modCore core fun c => { c with mending := dedup (c.mending ++ all) }
    .next ((s4.steer core).mend)

/-! ## Start-up (R413, R417, R418) -/

/-- The module resets: what the boot area and Heartwood hold stays, and a start loads Understory and the host firmware from the boot area. After three failed starts it comes up in minimal mode. -/
def State.restart (s : State) : State :=
  let few := decide (3 ≤ s.bootAttempts)
  { State.reset with
    mem := s.bootArea.foldl (fun (r : List Host.Cell) c => Memory.write r c.1 c.2) [], bootArea := s.bootArea
    pkg := s.pkg, images := s.images, bootReason := s.bootReason, bootAttempts := s.bootAttempts, bootMinimal := few
    boot := if few then .up else .starting, moves := s.moves }
/-- A start fails, and the module resets. -/
def State.failStart (s : State) (reason : Nat) : State :=
  { s with bootReason := reason, bootAttempts := min 15 (s.bootAttempts + 1) }.restart

/-- MODULE_START: reason 0 is a reset, another one says which step of the start fails (R418). -/
def execModuleStart (reason : Nat) (s : State) : Res :=
  if reason = 0 then .next s.restart
  else if s.boot = .starting && 2 ≤ reason && reason ≤ 6 then .next (s.failStart reason)
  else .next s
/-- START_TIMEOUT: 30 s. -/
def execStartTimeout (s : State) : Res :=
  .next (if s.boot = .starting && 30000000000 ≤ s.time then s.failStart 1 else s)
/-- START_REACHES_UP. -/
def execStartReachesUp (s : State) : Res :=
  .next (if s.boot = .starting then { s with boot := .up, bootAttempts := 0 } else s)
/-- POWER_LOSS: a save in progress is cut off, its slot is not valid already. -/
def execPowerLoss (s : State) : Res := .next { s with powered := false, ckpt := none }

end Sys2Proof.Machine
end

