-- ==== Sys2Proof/Machine/TwinMatch.lean ====
section
/-! DEFINITION. TWIN_MATCH: both copies of a warp stand at the same point, and their signatures are compared (R354 to R357, R404). -/

namespace Sys2Proof.Machine

/-! ## The writes of a window that has been matched (R356) -/

/-- A held write is performed for both copies, from the buffer of warp k. -/
def State.performHeld (s : State) (k : Nat) (h : HeldWrite) : State :=
  let core := warpCore k
  let by_ : By := ⟨.thread k (if s.place h.pa = .device then 33 else 32), some (core / 48), none⟩
  match s.place h.pa, h.op with
  | .mail c o, _ => s.mailWrites c o (.warp k) h.bytes h.closes h.remote
  | .device, some (op, md) =>
    if s.reducing s.pkg h.pa then s.contribute op h.pa (leNat h.bytes) false h.remote
    else if s.atomsAway h.pa then s.atomAway by_.agent op md h.pa (leNat h.bytes) 0 true h.remote
    else (s.atomAt by_ 12 false op md h.pa (leNat h.bytes) 0).1
  | _, some (op, md) => (s.atomAt by_ 12 false op md h.pa (leNat h.bytes) 0).1
  | _, none =>
    let s1 := s.writeAt by_ 12 false h.pa h.bytes h.remote h.pois
    if s.distant by_.agent h.pa then s1 else s1.setPoison ((h.pois.map fun o => poisonUnit (h.pa + o)).filter holdsPoison)

/-- A held write without the bytes of a range. -/
def HeldWrite.without (h : HeldWrite) (pa n : Nat) : List HeldWrite :=
  let e := h.pa + h.bytes.length
  if e ≤ pa || pa + n ≤ h.pa then [h]
  else if h.op.isSome then (if pa ≤ h.pa && e ≤ pa + n then [] else [h])
  else
    (if h.pa < pa then [{ h with bytes := h.bytes.take (pa - h.pa), pois := h.pois.filter (· < pa - h.pa) }] else []) ++
    (if pa + n < e then
      [{ h with pa := pa + n, bytes := h.bytes.drop (pa + n - h.pa)
                pois := (h.pois.filter (pa + n - h.pa ≤ ·)).map (· - (pa + n - h.pa)) }] else [])
/-- The bytes that a write performs are gone from the earlier held writes of the other warps of its copy: they stand before it in coherence order
(R207, R354). -/
def State.overtake (s : State) (k : Nat) (h : HeldWrite) : State :=
  let trim := fun (g : HeldWrite) =>
    if g.ord < h.ord then (match s.place g.pa with | .mail _ _ => [g] | _ => g.without h.pa h.bytes.length) else [g]
  (s.copyWarps k).foldl (fun (s : State) j =>
    if j = k then s
    else s.modWarp j fun w => { w with win := w.win.map fun x => { x with held := x.held.flatMap trim, drain := x.drain.flatMap trim } }) s

/-- The copies for which a write is a remote store. -/
def State.farFor (s : State) (ws : List Nat) (h : HeldWrite) : List Nat :=
  ws.filter fun w => s.isRemote (warpCore w) h.pa || (h.op.isSome && s.place h.pa = .device && s.reducing s.pkg h.pa)
/-- The issue that made a write has not been counted among the remote stores of a copy yet, and counts (R204). -/
def State.countsNow (s : State) (ws : List Nat) (h : HeldWrite) : Bool := h.issue.isSome && h.remote.isNone && s.farFor ws h != []
/-- A write of a matched window must wait: for the fallback lock or a line that is not at hand, behind a store that waits at the same core, or for room
in the count of remote stores of a copy. -/
def State.heldBlocked (s : State) (k : Nat) (ws : List Nat) (h : HeldWrite) : Bool :=
  (match s.place h.pa with
   | .device => (!(h.op.isSome && s.atomsAway h.pa) && (s.asOf h.remote).lockBlocks (.thread k 33) true h.pa h.bytes.length) ||
     (h.op.isSome && (s.asOf h.remote).promotes .other h.pa h.bytes.length)
   | .mail c o => 0x3000 ≤ o % 0x4000 && (s.core c).senderWaits (.warp k)
   | .scratch c _ => h.op.isSome && (s.core c).senderWaits (.warp k)
   | _ => false) ||
  (s.countsNow ws h && ws.any fun w => 255 ≤ s.ost w)
/-- The writes that drain take the number of a remote store, those of one issue. -/
def Warp.numberDrain (w : Warp) (issue : Option Nat) (n : Nat) : Warp :=
  { w with win := w.win.map fun x => { x with drain := x.drain.map fun h => if h.issue = issue then { h with remote := some n } else h } }
/-- The issue of a write that is performed enters the count of both copies for which it is remote, once (R204). -/
def State.countHeld (s : State) (k : Nat) (ws : List Nat) (h : HeldWrite) : State :=
  if !s.countsNow ws h then s
  else
    let far := s.farFor ws h
    let mods := match (s.warp k).win with
      | some x => (x.drain.filter fun g => g.issue = h.issue).map fun g => g.pa / 2 ^ 48
      | none => []
    { (s.modWarp k (·.numberDrain h.issue s.nextRemote)) with
      remote := tput s.remote s.nextRemote ⟨far.headD k, (far.drop 1).head?, false, h.op.isSome && s.reducing s.pkg h.pa, sortNat (dedup mods)⟩
      nextRemote := s.nextRemote + 1 }
def Warp.dropDrain (w : Warp) : Warp := { w with win := w.win.map fun x => { x with drain := x.drain.drop 1 } }
/-- Nothing of a window is left to perform: the instruction at the point may go on. -/
def Warp.drained (w : Warp) : Warp := { w with win := w.win.map fun x => { x with drain := [], passed := x.due, due := false } }
/-- The writes of a matched window are performed from the buffer of warp k of the first copy, until one of them must wait. -/
def State.drain (k twin : Nat) : Nat → State → State
  | 0, s => s
  | n + 1, s =>
    match (s.warp k).win.bind fun x => x.drain.head? with
    | none => (s.modWarp k Warp.drained).modWarp twin Warp.drained
    | some h =>
      if s.heldBlocked k [k, twin] h then (if h.op.isSome && s.atomsAway h.pa then s else s.seek (.thread k 33) true h.pa h.bytes.length)
      else
        let s1 := s.countHeld k [k, twin] h
        let h1 := ((s1.warp k).win.bind fun x => x.drain.head?).getD h
        let its := ((s1.warp twin).win.bind fun x => x.drain.head?).getD h
        State.drain k twin n (((((s1.overtake k h1).overtake twin its).performHeld k h1).modWarp k Warp.dropDrain).modWarp twin Warp.dropDrain)

/-- A window ends after its first n records: what comes after them opens the next one. A forced point ends there; a release point that the warp has
reached stands until the next match. -/
def PairWin.cut (x : PairWin) (index n : Nat) : PairWin :=
  let rest := x.recs.drop n
  { x with
    sig := x.sig - sigOf index x.recs + sigOf index rest, count := x.count - n, recs := rest
    drain := x.held.filter fun h => h.seq < n
    held := (x.held.filter fun h => n ≤ h.seq).map fun h => { h with seq := h.seq - n }
    points := x.points + 1, atPoint := x.atPoint && !x.forced, forced := false, engine := x.engine && !x.forced }
/-- A window ends at a release point. -/
def PairWin.close (x : PairWin) : PairWin :=
  { x with sig := 0, count := 0, recs := [], held := [], drain := x.held, due := !x.engine
           points := x.points + 1, atPoint := false, passed := false, forced := false, engine := false }
def Warp.cutWindow (w : Warp) (n : Nat) : Warp := { w with win := w.win.map fun x => x.cut w.index n }
def Warp.newWindow (w : Warp) : Warp := { w with win := w.win.map PairWin.close }

/-- The warp stands at a point: at a release or a forced one, or, with all its threads exited, when its engines have
made their last held writes. -/
def State.atPairPoint (s : State) (k : Nat) (x y : PairWin) : Bool :=
  let w := s.warp k
  x.atPoint || (w.ended && w.qcopy = 0 && w.qgath = 0 && w.qmat = 0 && (x.recs != [] || y.recs != []))

/-- How the windows of a warp and its twin meet (R356). -/
inductive Meeting where
  /-- one of them has not come far enough -/
  | early
  | mismatch
  /-- both end after n records, at a forced point -/
  | forced (n : Nat)
  /-- both stand at the same release point -/
  | release
  deriving DecidableEq, Repr

/-- A forced point ends both windows after as many held writes as the warp had made that found the buffer full; a twin at a release point with
fewer has parted from it. -/
def State.meeting (s : State) (w twin : Nat) (x y : PairWin) : Meeting :=
  let px := s.atPairPoint w x y
  let py := s.atPairPoint twin y x
  let part := fun (n : Nat) => sigOf (s.warp w).index (x.recs.take n) = sigOf (s.warp twin).index (y.recs.take n)
  let forcedAt := fun (n m : Nat) (there : Bool) =>
    if n ≤ m then (if part n then Meeting.forced n else .mismatch) else if there then .mismatch else .early
  if x.points != y.points then .early
  else if x.forced && y.forced then forcedAt (min x.count y.count) (max x.count y.count) false
  else if x.forced then forcedAt x.count y.count py
  else if y.forced then forcedAt y.count x.count px
  else if px && py then (if x.sig = y.sig && x.count = y.count then .release else .mismatch)
  else .early

/-- TWIN_MATCH: what a matched window has left to perform comes first; then the two windows are compared. -/
def execTwinMatch (w twin : Nat) (s : State) : Res :=
  match (s.warp w).win, (s.warp twin).win with
  | some x, some y =>
    if s.twinOf w != some twin || !s.live w || !s.live twin then .next s
    else
      let k := if (s.groupOf w).copy = 0 then w else twin
      let j := if k = w then twin else w
      let go := fun (s : State) => State.drain k j (((s.warp k).win.map fun z => z.drain.length).getD 0 + 1) s
      if x.drain != [] || y.drain != [] || x.due || y.due then .next (go s)
      else
        match s.meeting w twin x y with
        | .early => .next s
        | .mismatch =>
          let g := (s.groupOf w).gangKey
          .next (s.kill g (s.causeAt g 2 0))
        | .forced n => .next (go ((s.modWarp w (·.cutWindow n)).modWarp twin (·.cutWindow n)))
        | .release => .next (go ((s.modWarp w Warp.newWindow).modWarp twin Warp.newWindow))
  | _, _ => .next s

end Sys2Proof.Machine
end

