-- ==== Sys2Proof/Machine/Dispatch.lean ====
section
/-! DEFINITION. The dispatch of instructions to their meanings. -/

namespace Sys2Proof.Machine

/-- The effect of an instruction at a state. -/
def exec (i : Instr) (s : State) : Host.Outcome State Fault Refusal :=
  match i with
  | .sadd f => Sys2Proof.Machine.execSadd f s
  | .ssub f => Sys2Proof.Machine.execSsub f s
  | .smul f => Sys2Proof.Machine.execSmul f s
  | .smulh f => Sys2Proof.Machine.execSmulh f s
  | .sdiv f => Sys2Proof.Machine.execSdiv f s
  | .srem f => Sys2Proof.Machine.execSrem f s
  | .sand f => Sys2Proof.Machine.execSand f s
  | .sor f => Sys2Proof.Machine.execSor f s
  | .sxor f => Sys2Proof.Machine.execSxor f s
  | .sshl f => Sys2Proof.Machine.execSshl f s
  | .sshr f => Sys2Proof.Machine.execSshr f s
  | .ssra f => Sys2Proof.Machine.execSsra f s
  | .smin f => Sys2Proof.Machine.execSmin f s
  | .smax f => Sys2Proof.Machine.execSmax f s
  | .sminn f => Sys2Proof.Machine.execSminn f s
  | .smaxn f => Sys2Proof.Machine.execSmaxn f s
  | .sseq f => Sys2Proof.Machine.execSseq f s
  | .ssne f => Sys2Proof.Machine.execSsne f s
  | .sslt f => Sys2Proof.Machine.execSslt f s
  | .ssltn f => Sys2Proof.Machine.execSsltn f s
  | .ssel f => Sys2Proof.Machine.execSsel f s
  | .sbfx f => Sys2Proof.Machine.execSbfx f s
  | .sbfi f => Sys2Proof.Machine.execSbfi f s
  | .sbit d a fn => Sys2Proof.Machine.execSbit d a fn s
  | .sli d imm => Sys2Proof.Machine.execSli d imm s
  | .slis d imm => Sys2Proof.Machine.execSlis d imm s
  | .sld f => Sys2Proof.Machine.execSld f s
  | .sldw f => Sys2Proof.Machine.execSldw f s
  | .sst f => Sys2Proof.Machine.execSst f s
  | .sstw f => Sys2Proof.Machine.execSstw f s
  | .sldk d a off => Sys2Proof.Machine.execSldk d a off s
  | .smovl f => Sys2Proof.Machine.execSmovl f s
  | .sb off => Sys2Proof.Machine.execSb off s
  | .sbz a off => Sys2Proof.Machine.execSbz a off s
  | .sbnz a off => Sys2Proof.Machine.execSbnz a off s
  | .sblt a off => Sys2Proof.Machine.execSblt a off s
  | .sj a => Sys2Proof.Machine.execSj a s
  | .scall off => Sys2Proof.Machine.execScall off s
  | .scallr a => Sys2Proof.Machine.execScallr a s
  | .sret => Sys2Proof.Machine.execSret s
  | .sloop a off => Sys2Proof.Machine.execSloop a off s
  | .fenceRel sc => Sys2Proof.Machine.execFenceRel sc s
  | .fenceAcq sc => Sys2Proof.Machine.execFenceAcq sc s
  | .fenceAr sc => Sys2Proof.Machine.execFenceAr sc s
  | .fenceSc sc => Sys2Proof.Machine.execFenceSc sc s
  | .fenceFetch => Sys2Proof.Machine.execFenceFetch s
  | .tcfg n a => Sys2Proof.Machine.execTcfg n a s
  | .tld n a => Sys2Proof.Machine.execTld n a s
  | .tldS n a b => Sys2Proof.Machine.execTldS n a b s
  | .tst n a => Sys2Proof.Machine.execTst n a s
  | .mma a b s1 => Sys2Proof.Machine.execMma a b s1 s
  | .mmaPair a b s1 => Sys2Proof.Machine.execMmaPair a b s1 s
  | .mdrnTile a clr n row col => Sys2Proof.Machine.execMdrnTile a clr n row col s
  | .mdrnSpad a clr cv b => Sys2Proof.Machine.execMdrnSpad a clr cv b s
  | .mchk a => Sys2Proof.Machine.execMchk a s
  | .mfix a => Sys2Proof.Machine.execMfix a s
  | .mrty d a => Sys2Proof.Machine.execMrty d a s
  | .mstat d => Sys2Proof.Machine.execMstat d s
  | .mstatClo d a => Sys2Proof.Machine.execMstatClo d a s
  | .mstatChi d a => Sys2Proof.Machine.execMstatChi d a s
  | .mzero a => Sys2Proof.Machine.execMzero a s
  | .mgive d a => Sys2Proof.Machine.execMgive d a s
  | .gstr z tok a b => Sys2Proof.Machine.execGstr z tok a b s
  | .cbdef c a b => Sys2Proof.Machine.execCbdef c a b s
  | .cbget d c => Sys2Proof.Machine.execCbget d c s
  | .cbput c a => Sys2Proof.Machine.execCbput c a s
  | .cbqry d c => Sys2Proof.Machine.execCbqry d c s
  | .cblim c a => Sys2Proof.Machine.execCblim c a s
  | .waitq c n => Sys2Proof.Machine.execWaitq c n s
  | .waitk d m => Sys2Proof.Machine.execWaitk d m s
  | .xred a => Sys2Proof.Machine.execXred a s
  | .xbc a => Sys2Proof.Machine.execXbc a s
  | .xshf a => Sys2Proof.Machine.execXshf a s
  | .xside a => Sys2Proof.Machine.execXside a s
  | .xqry d sel => Sys2Proof.Machine.execXqry d sel s
  | .txb off => Sys2Proof.Machine.execTxb off s
  | .txc m => Sys2Proof.Machine.execTxc m s
  | .txa c => Sys2Proof.Machine.execTxa c s
  | .txs d => Sys2Proof.Machine.execTxs d s
  | .barArrive l n => Sys2Proof.Machine.execBarArrive l n s
  | .barWait l n => Sys2Proof.Machine.execBarWait l n s
  | .barSync l n => Sys2Proof.Machine.execBarSync l n s
  | .evb n l b a => Sys2Proof.Machine.execEvb n l b a s
  | .evmWr imm => Sys2Proof.Machine.execEvmWr imm s
  | .evmSet imm => Sys2Proof.Machine.execEvmSet imm s
  | .evmClr imm => Sys2Proof.Machine.execEvmClr imm s
  | .evclr imm => Sys2Proof.Machine.execEvclr imm s
  | .wany imm => Sys2Proof.Machine.execWany imm s
  | .launch d a => Sys2Proof.Machine.execLaunch d a s
  | .takeV m => Sys2Proof.Machine.execTakeV m s
  | .giveV m => Sys2Proof.Machine.execGiveV m s
  | .takeA c => Sys2Proof.Machine.execTakeA c s
  | .giveA c => Sys2Proof.Machine.execGiveA c s
  | .part z => Sys2Proof.Machine.execPart z s
  | .sprf t a off => Sys2Proof.Machine.execSprf t a off s
  | .sget d n => Sys2Proof.Machine.execSget d n s
  | .sset n a => Sys2Proof.Machine.execSset n a s
  | .snop => Sys2Proof.Machine.execSnop s
  | .exit => Sys2Proof.Machine.execExit s
  | .yield => Sys2Proof.Machine.execYield s
  | .trap imm => Sys2Proof.Machine.execTrap imm s
  | .brk => Sys2Proof.Machine.execBrk s
  | .rte => Sys2Proof.Machine.execRte s
  | .snap => Sys2Proof.Machine.execSnap s
  | .sleep a => Sys2Proof.Machine.execSleep a s
  | .add f => Sys2Proof.Machine.execAdd f s
  | .sub f => Sys2Proof.Machine.execSub f s
  | .mul f => Sys2Proof.Machine.execMul f s
  | .mulh f => Sys2Proof.Machine.execMulh f s
  | .mad f => Sys2Proof.Machine.execMad f s
  | .div f => Sys2Proof.Machine.execDiv f s
  | .rem f => Sys2Proof.Machine.execRem f s
  | .min f => Sys2Proof.Machine.execMin f s
  | .max f => Sys2Proof.Machine.execMax f s
  | .and f => Sys2Proof.Machine.execAnd f s
  | .or f => Sys2Proof.Machine.execOr f s
  | .xor f => Sys2Proof.Machine.execXor f s
  | .shl f => Sys2Proof.Machine.execShl f s
  | .shr f => Sys2Proof.Machine.execShr f s
  | .rot f => Sys2Proof.Machine.execRot f s
  | .addc f => Sys2Proof.Machine.execAddc f s
  | .cmpeq f => Sys2Proof.Machine.execCmpeq f s
  | .cmpne f => Sys2Proof.Machine.execCmpne f s
  | .cmplt f => Sys2Proof.Machine.execCmplt f s
  | .cmple f => Sys2Proof.Machine.execCmple f s
  | .sel f => Sys2Proof.Machine.execSel f s
  | .bfx f => Sys2Proof.Machine.execBfx f s
  | .bfi f => Sys2Proof.Machine.execBfi f s
  | .bit fn f => Sys2Proof.Machine.execBit fn f s
  | .prmb f => Sys2Proof.Machine.execPrmb f s
  | .dot4 signed four f => Sys2Proof.Machine.execDot4 signed four f s
  | .moviZ f => Sys2Proof.Machine.execMoviZ f s
  | .moviS f => Sys2Proof.Machine.execMoviS f s
  | .moviHi f => Sys2Proof.Machine.execMoviHi f s
  | .movLane f => Sys2Proof.Machine.execMovLane f s
  | .movU pre d s1 hi => Sys2Proof.Machine.execMovU pre d s1 hi s
  | .movC pre d n => Sys2Proof.Machine.execMovC pre d n s
  | .movTu pre a s1 hi => Sys2Proof.Machine.execMovTu pre a s1 hi s
  | .bsr signed f => Sys2Proof.Machine.execBsr signed f s
  | .bswSet pre b => Sys2Proof.Machine.execBswSet pre b s
  | .bswReload pre d b => Sys2Proof.Machine.execBswReload pre d b s
  | .bswQuery pre d => Sys2Proof.Machine.execBswQuery pre d s
  | .shf fn f => Sys2Proof.Machine.execShf fn f s
  | .vote fn pre m a => Sys2Proof.Machine.execVote fn pre m a s
  | .voteBallot pre d a => Sys2Proof.Machine.execVoteBallot pre d a s
  | .fadd f => Sys2Proof.Machine.execFadd f s
  | .fsub f => Sys2Proof.Machine.execFsub f s
  | .fmul f => Sys2Proof.Machine.execFmul f s
  | .fma f => Sys2Proof.Machine.execFma f s
  | .fmin f => Sys2Proof.Machine.execFmin f s
  | .fmax f => Sys2Proof.Machine.execFmax f s
  | .fdiv f => Sys2Proof.Machine.execFdiv f s
  | .fcmpeq f => Sys2Proof.Machine.execFcmpeq f s
  | .fcmplt f => Sys2Proof.Machine.execFcmplt f s
  | .fcmple f => Sys2Proof.Machine.execFcmple f s
  | .fcmpun f => Sys2Proof.Machine.execFcmpun f s
  | .func fn t pre d a => Sys2Proof.Machine.execFunc fn t pre d a s
  | .cvt src dst pre d a => Sys2Proof.Machine.execCvt src dst pre d a s
  | .cvtbTo t pre d a b => Sys2Proof.Machine.execCvtbTo t pre d a b s
  | .cvtbFrom t pre d a b => Sys2Proof.Machine.execCvtbFrom t pre d a b s
  | .pfma f => Sys2Proof.Machine.execPfma f s
  | .cdot four f => Sys2Proof.Machine.execCdot four f s
  | .tred f => Sys2Proof.Machine.execTred f s
  | .scan f => Sys2Proof.Machine.execScan f s
  | .segr f => Sys2Proof.Machine.execSegr f s
  | .meetOpen pre n off => Sys2Proof.Machine.execMeetOpen pre n off s
  | .meetWait pre n => Sys2Proof.Machine.execMeetWait pre n s
  | .meetLeave pre n => Sys2Proof.Machine.execMeetLeave pre n s
  | .brt pre m off => Sys2Proof.Machine.execBrt pre m off s
  | .brf pre m off => Sys2Proof.Machine.execBrf pre m off s
  | .callv pre off => Sys2Proof.Machine.execCallv pre off s
  | .jmpv pre a => Sys2Proof.Machine.execJmpv pre a s
  | .ld f => Sys2Proof.Machine.execLd f s
  | .st f => Sys2Proof.Machine.execSt f s
  | .lds f => Sys2Proof.Machine.execLds f s
  | .sts f => Sys2Proof.Machine.execSts f s
  | .atom f => Sys2Proof.Machine.execAtom f s
  | .atoms f => Sys2Proof.Machine.execAtoms f s
  | .cpy f => Sys2Proof.Machine.execCpy f s
  | .cpyBuf f => Sys2Proof.Machine.execCpyBuf f s
  | .gath f => Sys2Proof.Machine.execGath f s
  | .dxLaunch d s1 => Sys2Proof.Machine.execDxLaunch d s1 s
  | .dxWait d s1 t => Sys2Proof.Machine.execDxWait d s1 t s
  | .dxTbegin d => Sys2Proof.Machine.execDxTbegin d s
  | .dxTend => Sys2Proof.Machine.execDxTend s
  | .dxTabort s1 => Sys2Proof.Machine.execDxTabort s1 s
  | .dxFqpop d s1 => Sys2Proof.Machine.execDxFqpop d s1 s
  | .dxReplay s1 => Sys2Proof.Machine.execDxReplay s1 s
  | .dxKill s1 => Sys2Proof.Machine.execDxKill s1 s
  | .dxCkptSave d s1 => Sys2Proof.Machine.execDxCkptSave d s1 s
  | .dxCkptRestore d s1 => Sys2Proof.Machine.execDxCkptRestore d s1 s
  | .dxCkptQuery d s1 => Sys2Proof.Machine.execDxCkptQuery d s1 s
  | .mcheckTake w => Sys2Proof.Machine.execMcheckTake w s
  | .gangDispatch grid gang => Sys2Proof.Machine.execGangDispatch grid gang s
  | .slotBind g rec => Sys2Proof.Machine.execSlotBind g rec s
  | .slotStop g => Sys2Proof.Machine.execSlotStop g s
  | .slotFree g => Sys2Proof.Machine.execSlotFree g s
  | .saveComplete g => Sys2Proof.Machine.execSaveComplete g s
  | .sliceExpiry g => Sys2Proof.Machine.execSliceExpiry g s
  | .groupRetire g => Sys2Proof.Machine.execGroupRetire g s
  | .warpSlotRelease w => Sys2Proof.Machine.execWarpSlotRelease w s
  | .barrierRelease b => Sys2Proof.Machine.execBarrierRelease b s
  | .coppiceRelaunch grid gang => Sys2Proof.Machine.execCoppiceRelaunch grid gang s
  | .lockLimitExpiry => Sys2Proof.Machine.execLockLimitExpiry s
  | .sleepDeadline w t => Sys2Proof.Machine.execSleepDeadline w t s
  | .ticketTurn => Sys2Proof.Machine.execTicketTurn s
  | .txRevalidateCount w t => Sys2Proof.Machine.execTxRevalidateCount w t s
  | .remoteStoreCombineEnd n => Sys2Proof.Machine.execRemoteStoreCombineEnd n s
  | .tlbInvalidate core v => Sys2Proof.Machine.execTlbInvalidate core v s
  | .invalidateComplete core => Sys2Proof.Machine.execInvalidateComplete core s
  | .mailboxWrite by_ w m off bytes => Sys2Proof.Machine.execMailboxWrite by_ w m off bytes s
  | .mailboxClose by_ w m off bytes => Sys2Proof.Machine.execMailboxClose by_ w m off bytes s
  | .mailboxDiscard w m => Sys2Proof.Machine.execMailboxDiscard w m s
  | .mailboxRoom w m => Sys2Proof.Machine.execMailboxRoom w m s
  | .coreWindowAccess by_ pa op => Sys2Proof.Machine.execCoreWindowAccess by_ pa op s
  | .copyLine w tagFail => Sys2Proof.Machine.execCopyLine w tagFail s
  | .gatherElement w => Sys2Proof.Machine.execGatherElement w s
  | .engineOpRetire w c => Sys2Proof.Machine.execEngineOpRetire w c s
  | .matrixOpStart core => Sys2Proof.Machine.execMatrixOpStart core s
  | .mmaStep core flip => Sys2Proof.Machine.execMmaStep core flip s
  | .idle port h => Sys2Proof.Machine.execIdle port h s
  | .idleTimer port => Sys2Proof.Machine.execIdleTimer port s
  | .linkReplayTimeout port => Sys2Proof.Machine.execLinkReplayTimeout port s
  | .portDown port => Sys2Proof.Machine.execPortDown port s
  | .portdown port failed ack => Sys2Proof.Machine.execPortdown port failed ack s
  | .reads holder line => Sys2Proof.Machine.execReads holder line s
  | .readm holder line => Sys2Proof.Machine.execReadm holder line s
  | .upgrade holder line => Sys2Proof.Machine.execUpgrade holder line s
  | .writeback holder line bytes => Sys2Proof.Machine.execWriteback holder line bytes s
  | .atomic src op pa operand cmp rnd nr => Sys2Proof.Machine.execAtomic src op pa operand cmp rnd nr s
  | .uncachedRead src pa size => Sys2Proof.Machine.execUncachedRead src pa size s
  | .uncachedWrite src pa bytes pois => Sys2Proof.Machine.execUncachedWrite src pa bytes pois s
  | .contribution src op pa operand pois ackIx => Sys2Proof.Machine.execContribution src op pa operand pois ackIx s
  | .data holder line excl bytes => Sys2Proof.Machine.execData holder line excl bytes s
  | .grantack holder line => Sys2Proof.Machine.execGrantack holder line s
  | .ack n => Sys2Proof.Machine.execAck n s
  | .wback holder line => Sys2Proof.Machine.execWback holder line s
  | .recallLine holder line => Sys2Proof.Machine.execRecall holder line s
  | .recalldata holder line bytes => Sys2Proof.Machine.execRecalldata holder line bytes s
  | .recallack holder line => Sys2Proof.Machine.execRecallack holder line s
  | .purge id => Sys2Proof.Machine.execPurge id s
  | .purgeack id from_ => Sys2Proof.Machine.execPurgeack id from_ s
  | .partialForwardTimer n => Sys2Proof.Machine.execPartialForwardTimer n s
  | .gladePartialError n sector => Sys2Proof.Machine.execGladePartialError n sector s
  | .join j => Sys2Proof.Machine.execJoin j s
  | .collectivePull quarter id => Sys2Proof.Machine.execCollectivePull quarter id s
  | .advert from_ ctx blk => Sys2Proof.Machine.execAdvert from_ ctx blk s
  | .withdraw from_ ctx blk => Sys2Proof.Machine.execWithdraw from_ ctx blk s
  | .sideAck w opId from_ => Sys2Proof.Machine.execSideAck w opId from_ s
  | .planDigest ctx id from_ digest => Sys2Proof.Machine.execPlanDigest ctx id from_ digest s
  | .packetFormation ctx id => Sys2Proof.Machine.execPacketFormation ctx id s
  | .codedPacket p => Sys2Proof.Machine.execCodedPacket p s
  | .fallbackreq ctx id xfer to_ => Sys2Proof.Machine.execFallbackreq ctx id xfer to_ s
  | .transferack ctx id xfer missed => Sys2Proof.Machine.execTransferack ctx id xfer missed s
  | .twinMatch w twin => Sys2Proof.Machine.execTwinMatch w twin s
  | .frameReceive port bytes fcsOk tagFails => Sys2Proof.Machine.execFrameReceive port bytes fcsOk tagFails s
  | .pauseStart port pcp => Sys2Proof.Machine.execPauseStart port pcp s
  | .pauseRepeat port pcp => Sys2Proof.Machine.execPauseRepeat port pcp s
  | .pauseAbandon port pcp => Sys2Proof.Machine.execPauseAbandon port pcp s
  | .pcieRead addr size => Sys2Proof.Machine.execPcieRead addr size s
  | .pcieWrite addr bytes ep => Sys2Proof.Machine.execPcieWrite addr bytes ep s
  | .dxfqWrite v => Sys2Proof.Machine.execDxfqWrite v s
  | .dxsnapWrite v => Sys2Proof.Machine.execDxsnapWrite v s
  | .dxobjRegister v => Sys2Proof.Machine.execDxobjRegister v s
  | .dxobjRemove v => Sys2Proof.Machine.execDxobjRemove v s
  | .dxobjComplete => Sys2Proof.Machine.execDxobjComplete s
  | .dxrwWrite n v => Sys2Proof.Machine.execDxrwWrite n v s
  | .flowBind v => Sys2Proof.Machine.execFlowBind v s
  | .bandWrite n v => Sys2Proof.Machine.execBandWrite n v s
  | .clockPlanChange => Sys2Proof.Machine.execClockPlanChange s
  | .bootClr => Sys2Proof.Machine.execBootClr s
  | .csrWrite h csr v => Sys2Proof.Machine.execCsrWrite h csr v s
  | .powerSample amps watts => Sys2Proof.Machine.execPowerSample amps watts s
  | .throttleEnd => Sys2Proof.Machine.execThrottleEnd s
  | .snaptrig => Sys2Proof.Machine.execSnaptrig s
  | .smbusSnapshot => Sys2Proof.Machine.execSmbusSnapshot s
  | .snapshotLatch => Sys2Proof.Machine.execSnapshotLatch s
  | .snapshotComplete => Sys2Proof.Machine.execSnapshotComplete s
  | .scrub pa fails => Sys2Proof.Machine.execScrub pa fails s
  | .residueMismatch w lane => Sys2Proof.Machine.execResidueMismatch w lane s
  | .moduleStart reason => Sys2Proof.Machine.execModuleStart reason s
  | .startTimeout => Sys2Proof.Machine.execStartTimeout s
  | .powerLoss => Sys2Proof.Machine.execPowerLoss s
  | .dxWaitTimeout h => Sys2Proof.Machine.execDxWaitTimeout h s
  | .hostInstruction h op => Sys2Proof.Machine.execHostInstruction h op s
  | .hostInterrupt h cause => Sys2Proof.Machine.execHostInterrupt h cause s
  | .packetCrcFailure port => Sys2Proof.Machine.execPacketCrcFailure port s
  | .reservedTypePacket port => Sys2Proof.Machine.execReservedTypePacket port s
  | .checkpointComplete mediaError => Sys2Proof.Machine.execCheckpointComplete mediaError s
  | .startReachesUp => Sys2Proof.Machine.execStartReachesUp s
  | .failedPartRecovery id => Sys2Proof.Machine.execFailedPartRecovery id s

end Sys2Proof.Machine
end

