-- ==== Sys2Proof/Decode.lean ====
section
/-! DEFINITION. The decoder of Otmor words and of the dx words, the decode checks of R43, and after them the encoder.

A word is a number below 2^32, bit 0 the least significant. The encoding tables are R27 to R41 of 02_encoding.md with the
entries of 06, 07, 08, 12, 13, 17, 20 and 24, and R46 for the host words. -/

namespace Sys2Proof

/-- Bits [lo + n - 1 : lo] of a word. -/
def fld (w lo n : Nat) : Nat := w / 2 ^ lo % 2 ^ n

/-- A flag bit as a number. -/
def bit01 (b : Bool) : Nat := if b then 1 else 0

/-! ## Codes of the named fields -/

/-- R32, R72. -/
def IntTy.code : IntTy → Nat
  | .i8 => 0 | .i16 => 1 | .i32 => 2 | .i64 => 3 | .n8 => 4 | .n16 => 5 | .n32 => 6 | .n64 => 7
def IntTy.ofCode : Nat → IntTy
  | 0 => .i8 | 1 => .i16 | 2 => .i32 | 3 => .i64 | 4 => .n8 | 5 => .n16 | 6 => .n32 | _ => .n64

/-- R32: codes 110 and 111 are reserved. -/
def FpTy.code : FpTy → Nat
  | .f64 => 0 | .f32 => 1 | .f16 => 2 | .bf16 => 3 | .x2 => 4 | .h2 => 5
def FpTy.ofCode : Nat → Option FpTy
  | 0 => some .f64 | 1 => some .f32 | 2 => some .f16 | 3 => some .bf16 | 4 => some .x2 | 5 => some .h2
  | _ => none

/-- R34: code 15 is reserved. -/
def CvtTy.code : CvtTy → Nat
  | .int t => t.code
  | .f64 => 8 | .f32 => 9 | .f16 => 10 | .bf16 => 11 | .e4m3 => 12 | .e5m2 => 13 | .e2m1 => 14
def CvtTy.ofCode (n : Nat) : Option CvtTy :=
  if n < 8 then some (.int (IntTy.ofCode n)) else
  match n with
  | 8 => some .f64 | 9 => some .f32 | 10 => some .f16 | 11 => some .bf16
  | 12 => some .e4m3 | 13 => some .e5m2 | 14 => some .e2m1
  | _ => none

/-- R144, R145. -/
def BlockTy.code : BlockTy → Nat
  | .e2m1 => 0 | .e4m3 => 1 | .e5m2 => 2
def BlockTy.ofCode : Nat → Option BlockTy
  | 0 => some .e2m1 | 1 => some .e4m3 | 2 => some .e5m2 | _ => none

/-- R38. -/
def Scope.code : Scope → Nat
  | .core => 0 | .gang => 1 | .module => 2 | .node => 3 | .system => 4
def Scope.ofCode : Nat → Option Scope
  | 0 => some .core | 1 => some .gang | 2 => some .module | 3 => some .node | 4 => some .system
  | _ => none

/-- R38. -/
def Hint.code : Hint → Nat
  | .default => 0 | .streaming => 1 | .sticky => 2 | .bypass => 3
def Hint.ofCode : Nat → Hint
  | 0 => .default | 1 => .streaming | 2 => .sticky | _ => .bypass

/-- R38: 111 takes the mode from $fpmode, 110 is reserved. -/
def rndCode : Option Rnd → Nat
  | some .rne => 0 | some .rtz => 1 | some .rup => 2 | some .rdn => 3 | some .rna => 4 | some .rno => 5
  | none => 7
def rndOfCode : Nat → Option (Option Rnd)
  | 0 => some (some .rne) | 1 => some (some .rtz) | 2 => some (some .rup) | 3 => some (some .rdn)
  | 4 => some (some .rna) | 5 => some (some .rno) | 7 => some none
  | _ => none

/-- R35. -/
def IntFn.code : IntFn → Nat
  | .add => 0 | .min => 1 | .max => 2 | .and => 3 | .or => 4 | .xor => 5
def IntFn.ofCode : Nat → Option IntFn
  | 0 => some .add | 1 => some .min | 2 => some .max | 3 => some .and | 4 => some .or | 5 => some .xor
  | _ => none
def FltFn.code : FltFn → Nat
  | .fadd => 8 | .fmin => 9 | .fmax => 10
def FltFn.ofCode : Nat → Option FltFn
  | 8 => some .fadd | 9 => some .fmin | 10 => some .fmax
  | _ => none

/-- R35: integer functions take ty 010, 011, 110 and 111. -/
def wideTy (t : IntTy) : Bool := t = .i32 || t = .i64 || t = .n32 || t = .n64

def RedOp.fn : RedOp → Nat
  | .int f _ => f.code
  | .flt f _ => f.code
def RedOp.ty : RedOp → Nat
  | .int _ t => t.code
  | .flt _ wide => if wide then 0 else 1
def RedOp.ofCodes (fn ty : Nat) : Option RedOp :=
  match IntFn.ofCode fn with
  | some f => if wideTy (IntTy.ofCode ty) then some (.int f (IntTy.ofCode ty)) else none
  | none =>
    match FltFn.ofCode fn with
    | some f => if ty = 0 then some (.flt f true) else if ty = 1 then some (.flt f false) else none
    | none => none

/-- R35: the ty of a memory-side float function. -/
def AtomFp.code : AtomFp → Nat
  | .f64 => 0 | .f32 => 1 | .f16 => 2 | .bf16 => 3 | .e4m3 => 6 | .e5m2 => 7
def AtomFp.ofCode : Nat → Option AtomFp
  | 0 => some .f64 | 1 => some .f32 | 2 => some .f16 | 3 => some .bf16 | 6 => some .e4m3 | 7 => some .e5m2
  | _ => none

def AtomOp.fn : AtomOp → Nat
  | .int f _ => f.code
  | .swap _ => 6
  | .cas _ => 7
  | .flt f _ => f.code
def AtomOp.ty : AtomOp → Nat
  | .int _ t => t.code
  | .swap t => t.code
  | .cas t => t.code
  | .flt _ t => t.code
def AtomOp.ofCodes (fn ty : Nat) : Option AtomOp :=
  let t := IntTy.ofCode ty
  match IntFn.ofCode fn with
  | some f => if wideTy t then some (.int f t) else none
  | none =>
    if fn = 6 then (if wideTy t then some (.swap t) else none)
    else if fn = 7 then (if wideTy t then some (.cas t) else none)
    else
      match FltFn.ofCode fn, AtomFp.ofCode ty with
      | some f, some a => some (.flt f a)
      | _, _ => none

/-- R33. -/
def FunFn.code : FunFn → Nat
  | .abs => 0 | .neg => 1 | .rcp => 2 | .rsq => 3 | .sqrt => 4 | .exp2 => 5 | .log2 => 6 | .sin => 7
  | .cos => 8 | .tanh => 9 | .class => 10 | .rndi => 11
def FunFn.ofCode : Nat → Option FunFn
  | 0 => some .abs | 1 => some .neg | 2 => some .rcp | 3 => some .rsq | 4 => some .sqrt | 5 => some .exp2
  | 6 => some .log2 | 7 => some .sin | 8 => some .cos | 9 => some .tanh | 10 => some .class | 11 => some .rndi
  | _ => none

/-- R117; 111 is sext. -/
def BitFn.code : Option BitFn → Nat
  | some .clz => 0 | some .ctz => 1 | some .pop => 2 | some .brev => 3 | some .neg => 4 | some .abs => 5
  | some .not => 6 | none => 7
def BitFn.ofCode : Nat → Option BitFn
  | 0 => some .clz | 1 => some .ctz | 2 => some .pop | 3 => some .brev | 4 => some .neg | 5 => some .abs
  | 6 => some .not | _ => none

/-- R126. -/
def ShfFn.code : ShfFn → Nat
  | .idx => 0 | .up => 1 | .down => 2 | .xor => 3
def ShfFn.ofCode : Nat → Option ShfFn
  | 0 => some .idx | 1 => some .up | 2 => some .down | 3 => some .xor | _ => none

/-- R127; 010 is ballot. -/
def VoteFn.code : VoteFn → Nat
  | .any => 0 | .all => 1 | .eqv => 3

/-- R306. -/
def Conv.code : Conv → Nat
  | .raw => 0 | .bf16 => 1 | .f16 => 2 | .e4m3 => 3 | .e5m2 => 4 | .i8 => 5 | .n8 => 6
def Conv.ofCode : Nat → Option Conv
  | 0 => some .raw | 1 => some .bf16 | 2 => some .f16 | 3 => some .e4m3 | 4 => some .e5m2 | 5 => some .i8
  | 6 => some .n8 | _ => none

/-- R161. -/
def Level.code : Level → Nat
  | .warp => 0 | .group => 1 | .gang => 2 | .grid => 3
def Level.ofCode : Nat → Level
  | 0 => .warp | 1 => .group | 2 => .gang | _ => .grid
/-- R160: how many barriers a level has. -/
def Level.count : Level → Nat
  | .warp => 1 | .group => 16 | .gang => 8 | .grid => 4

/-- R300. -/
def QClass.code : QClass → Nat
  | .copy => 0 | .gather => 1 | .matrix => 2 | .coll => 3
def QClass.ofCode : Nat → QClass
  | 0 => .copy | 1 => .gather | 2 => .matrix | _ => .coll

/-- R27, R28: a register when bit 0 is 0, else an immediate. -/
def Opnd.code : Opnd → Nat
  | .reg n => n * 2
  | .imm n => n * 2 + 1
/-- Bits [n:0] of a word as an operand. -/
def opnd (w n : Nat) : Opnd := if w % 2 = 0 then .reg (fld w 1 n) else .imm (fld w 1 n)

/-! ## Fields of the forms -/

/-- EXT (R38): none when RND, SCOPE or ATOM holds a reserved code. -/
def extOf (w : Nat) : Option Ext :=
  match rndOfCode (fld w 16 3), Scope.ofCode (fld w 4 3) with
  | some r, some sc =>
    if fld w 0 2 = 3 then none else
    some { mask := fld w 20 3, inv := fld w 19 1 = 1, rnd := r, vc := fld w 9 7, z := fld w 8 1 = 1,
           sat := fld w 7 1 = 1, scope := sc, hint := Hint.ofCode (fld w 2 2), atom := fld w 0 2 }
  | _, _ => none

/-- REP (R41): none when bits [7:0] are not 0. -/
def repOf (w : Nat) : Option Rep :=
  if fld w 0 8 = 0 then some { last := fld w 17 6, sd := fld w 14 3, sa := fld w 11 3, sb := fld w 8 3 } else none

def urOf (w : Nat) : UR := { d := fld w 17 8, a := fld w 9 8, b := opnd w 8 }
def umOf (w : Nat) (e : Option Ext) : UM := { ext := e, d := fld w 17 8, a := fld w 9 8, off := fld w 0 9 }
def lriOf (w : Nat) (p : Pre) : LRI :=
  { pre := p, t := IntTy.ofCode (fld w 22 3), d := fld w 15 7, a := fld w 8 7, b := opnd w 7 }
def lrnOf (w : Nat) (p : Pre) : LRN := { pre := p, d := fld w 15 7, a := fld w 8 7, b := opnd w 7 }
def lmOf (w : Nat) (p : Pre) : LM :=
  { pre := p, t := IntTy.ofCode (fld w 22 3), d := fld w 15 7, a := fld w 8 7, b := opnd w 7 }
def lrfOf (w : Nat) (p : Pre) : Option LRF :=
  match FpTy.ofCode (fld w 22 3) with
  | some t => if w % 2 = 0 then some { pre := p, t := t, d := fld w 15 7, a := fld w 8 7, b := fld w 1 7 } else none
  | none => none
def laOf (w : Nat) (p : Pre) : Option LA :=
  match AtomOp.ofCodes (fld w 3 5) (fld w 22 3) with
  | some op => if fld w 0 2 = 0 then some { pre := p, op := op, d := fld w 15 7, a := fld w 8 7, nr := fld w 2 1 = 1 } else none
  | none => none
def redOf (w : Nat) (p : Pre) : Option Red :=
  match RedOp.ofCodes (fld w 1 6) (fld w 22 3) with
  | some op => if w % 2 = 1 then some { pre := p, op := op, d := fld w 15 7, a := fld w 8 7, excl := fld w 7 1 = 1 } else none
  | none => none
def liOf (w : Nat) (p : Pre) : LI := { pre := p, d := fld w 15 7, v := fld w 22 1 * 32768 + fld w 0 15 }

/-- Keep an instruction only when a condition on the word holds. -/
def guardI (c : Bool) (i : Instr) : Option Instr := if c then some i else none

/-! ## Base words: checks 2 and 3 of R43 on the base word -/

/-- The MFN sub-functions (R308). -/
def mfnOf (w : Nat) : Option Instr :=
  let a := fld w 14 8
  let d := fld w 6 8
  let r := fld w 2 4 = 0
  let s := fld w 0 2
  match fld w 22 3 with
  | 0 => guardI (r && d = 0 && s = 0) (.mchk a)
  | 1 => guardI (r && d = 0 && s = 0) (.mfix a)
  | 2 => guardI (r && s = 0) (.mrty d a)
  | 3 =>
    if s = 0 then guardI (r && a = 0) (.mstat d)
    else if s = 1 then guardI r (.mstatClo d a)
    else if s = 2 then guardI r (.mstatChi d a)
    else none
  | 4 => guardI (r && d = 0 && s = 0) (.mzero a)
  | 5 => guardI (r && s = 0) (.mgive d a)
  | _ => none

/-- The CBOP sub-functions (R297). -/
def cbOf (w : Nat) : Option Instr :=
  let c := fld w 17 5
  let a := fld w 9 8
  let b := fld w 1 8
  if w % 2 = 1 then none else
  match fld w 22 3 with
  | 0 => some (.cbdef c a b)
  | 1 => guardI (b = 0 && a != 159) (.cbget a c)
  | 2 => guardI (b = 0) (.cbput c a)
  | 3 => guardI (b = 0) (.cbqry a c)
  | 4 => guardI (b = 0) (.cblim c a)
  | _ => none

/-- The XOP sub-functions (R387). -/
def xopOf (w : Nat) : Option Instr :=
  let a := fld w 14 8
  let s := fld w 6 8
  if fld w 0 6 != 0 then none else
  match fld w 22 3 with
  | 0 => guardI (s = 0) (.xred a)
  | 1 => guardI (s = 0) (.xbc a)
  | 2 => guardI (s = 0) (.xshf a)
  | 3 => guardI (s = 0) (.xside a)
  | 4 => guardI (s ≤ 1) (.xqry a s)
  | _ => none

/-- The TXOP forms (R232). -/
def txOf (w : Nat) : Option Instr :=
  match fld w 23 2 with
  | 0 => some (.txb (fld w 0 23))
  | 1 => guardI (fld w 0 20 = 0) (.txc (fld w 20 3))
  | 2 => guardI (fld w 8 15 = 0) (.txa (fld w 0 8))
  | _ => guardI (fld w 0 15 = 0) (.txs (fld w 15 8))

/-- BAR (R161). -/
def barOf (w : Nat) : Option Instr :=
  let l := Level.ofCode (fld w 23 2)
  let n := fld w 19 4
  if fld w 0 17 != 0 || l.count ≤ n then none else
  match fld w 17 2 with
  | 1 => some (.barArrive l n)
  | 2 => some (.barWait l n)
  | 3 => some (.barSync l n)
  | _ => none

/-- R166: which level and number an EVB may name. Levels are 0 b, 1 g, 2 d, 3 warp. -/
def evbOk (n l b : Nat) : Bool :=
  if n < 12 then l = 0 && b = 0
  else match l with
    | 0 => b < 16
    | 1 => b < 8
    | 2 => b < 4
    | _ => b = 0 || b = 15

/-- The EVOP forms (R166). -/
def evOf (w : Nat) : Option Instr :=
  match fld w 23 2 with
  | 0 => guardI (fld w 0 5 = 0 && evbOk (fld w 19 4) (fld w 17 2) (fld w 13 4))
      (.evb (fld w 19 4) (fld w 17 2) (fld w 13 4) (fld w 5 8))
  | 1 =>
    if fld w 16 5 != 0 then none else
    match fld w 21 2 with
    | 0 => some (.evmWr (fld w 0 16))
    | 1 => some (.evmSet (fld w 0 16))
    | 2 => some (.evmClr (fld w 0 16))
    | _ => none
  | 2 => guardI (fld w 16 7 = 0) (.evclr (fld w 0 16))
  | _ => none

/-- The RSVOP forms (R168). -/
def rsvOf (w : Nat) : Option Instr :=
  let m := fld w 0 4
  let c := fld w 0 7
  match fld w 23 2 with
  | 0 => guardI (fld w 4 19 = 0 && m != 0) (.takeV m)
  | 1 => guardI (fld w 4 19 = 0 && m != 0) (.giveV m)
  | 2 => guardI (fld w 7 16 = 0 && 1 ≤ c && c ≤ 64) (.takeA c)
  | _ => guardI (fld w 7 16 = 0 && 1 ≤ c && c ≤ 64) (.giveA c)

/-- The SFN sub-functions (R31, R322). -/
def sfnOf (w : Nat) : Option Instr :=
  let x := fld w 14 8
  let n := fld w 6 8
  if fld w 0 6 != 0 then none else
  match fld w 22 3 with
  | 0 => some (.sget x n)
  | 1 => some (.sset n x)
  | 2 =>
    match n with
    | 0 => guardI (x = 0) .snop
    | 1 => guardI (x = 0) .exit
    | 2 => guardI (x = 0) .yield
    | 3 => some (.trap x)
    | 4 => guardI (x = 0) .brk
    | 5 => guardI (x = 0) .rte
    | 6 => guardI (x = 0) .snap
    | 7 => some (.sleep x)
    | _ => none
  | _ => none

/-- FENCE (R222). -/
def fenceOf (w : Nat) : Option Instr :=
  if fld w 0 19 != 0 then none else
  match fld w 22 3, Scope.ofCode (fld w 19 3) with
  | 0, some sc => some (.fenceRel sc)
  | 1, some sc => some (.fenceAcq sc)
  | 2, some sc => some (.fenceAr sc)
  | 3, some sc => some (.fenceSc sc)
  | 4, some .core => some .fenceFetch
  | _, _ => none

/-- MDRN (R306). -/
def mdrnOf (w : Nat) : Option Instr :=
  let a := fld w 17 8
  let c := fld w 15 1 = 1
  if fld w 16 1 = 0 then
    guardI (fld w 12 3 = 0 && fld w 0 3 = 0) (.mdrnTile a c (fld w 8 4) (fld w 5 3) (fld w 3 2))
  else
    match Conv.ofCode (fld w 12 3) with
    | some cv => guardI (fld w 0 4 = 0) (.mdrnSpad a c cv (fld w 4 8))
    | none => none

/-- A U-set base word by its op6 (R30). EXT is given only for SLD, SLDW, SST and SSTW. -/
def uOf (w : Nat) (e : Option Ext) : Option Instr :=
  match fld w 25 6 with
  | 0x00 => some (.sadd (urOf w))
  | 0x01 => some (.ssub (urOf w))
  | 0x02 => some (.smul (urOf w))
  | 0x03 => some (.smulh (urOf w))
  | 0x04 => some (.sdiv (urOf w))
  | 0x05 => some (.srem (urOf w))
  | 0x06 => some (.sand (urOf w))
  | 0x07 => some (.sor (urOf w))
  | 0x08 => some (.sxor (urOf w))
  | 0x09 => some (.sshl (urOf w))
  | 0x0A => some (.sshr (urOf w))
  | 0x0B => some (.ssra (urOf w))
  | 0x0C => some (.smin (urOf w))
  | 0x0D => some (.smax (urOf w))
  | 0x0E => some (.sminn (urOf w))
  | 0x0F => some (.smaxn (urOf w))
  | 0x10 => some (.sseq (urOf w))
  | 0x11 => some (.ssne (urOf w))
  | 0x12 => some (.sslt (urOf w))
  | 0x13 => some (.ssltn (urOf w))
  | 0x14 => some (.ssel (urOf w))
  | 0x15 => guardI (w % 2 = 0 || fld w 8 1 = 0) (.sbfx (urOf w))
  | 0x16 => guardI (w % 2 = 0 || fld w 7 2 = 0) (.sbfi (urOf w))
  | 0x17 => guardI (w % 2 = 1 && fld w 1 8 < 4) (.sbit (fld w 17 8) (fld w 9 8) (fld w 1 8))
  | 0x18 => some (.sli (fld w 17 8) (fld w 0 17))
  | 0x19 => some (.slis (fld w 17 8) (fld w 0 17))
  | 0x1A => some (.sld (umOf w e))
  | 0x1B => some (.sldw (umOf w e))
  | 0x1C => some (.sst (umOf w e))
  | 0x1D => some (.sstw (umOf w e))
  | 0x1E => some (.sldk (fld w 17 8) (fld w 9 8) (fld w 0 9))
  | 0x1F => guardI (fld w 16 1 = 0 && (w % 2 = 0 || fld w 1 8 < 32)) (.smovl (urOf w))
  | 0x20 => some (.sb (fld w 0 25))
  | 0x21 => some (.sbz (fld w 17 8) (fld w 0 17))
  | 0x22 => some (.sbnz (fld w 17 8) (fld w 0 17))
  | 0x23 => some (.sblt (fld w 17 8) (fld w 0 17))
  | 0x24 => guardI (fld w 17 8 = 0 && fld w 0 9 = 0) (.sj (fld w 9 8))
  | 0x25 => some (.scall (fld w 0 25))
  | 0x26 => guardI (fld w 17 8 = 0 && fld w 0 9 = 0) (.scallr (fld w 9 8))
  | 0x27 => guardI (fld w 0 25 = 0) .sret
  | 0x28 => some (.sloop (fld w 17 8) (fld w 0 17))
  | 0x29 => fenceOf w
  | 0x2A => guardI (fld w 0 13 = 0) (.tcfg (fld w 21 4) (fld w 13 8))
  | 0x2B =>
    if fld w 4 1 = 1 then guardI (fld w 0 4 = 0) (.tldS (fld w 21 4) (fld w 13 8) (fld w 5 8))
    else guardI (fld w 0 13 = 0) (.tld (fld w 21 4) (fld w 13 8))
  | 0x2C => guardI (fld w 0 13 = 0) (.tst (fld w 21 4) (fld w 13 8))
  | 0x2D =>
    guardI (fld w 0 8 = 0) (if fld w 8 1 = 1 then .mmaPair (fld w 21 4) (fld w 17 4) (fld w 9 8)
      else .mma (fld w 21 4) (fld w 17 4) (fld w 9 8))
  | 0x2E => mdrnOf w
  | 0x2F => mfnOf w
  | 0x30 => guardI (fld w 0 4 = 0 && fld w 23 2 < 3) (.gstr (fld w 23 2) (fld w 20 3) (fld w 12 8) (fld w 4 8))
  | 0x31 => cbOf w
  | 0x32 => guardI (fld w 0 15 = 0) (.waitq (QClass.ofCode (fld w 23 2)) (fld w 15 8))
  | 0x33 => guardI (fld w 8 9 = 0 && fld w 0 8 != 0) (.waitk (fld w 17 8) (fld w 0 8))
  | 0x34 => xopOf w
  | 0x35 => txOf w
  | 0x36 => barOf w
  | 0x37 => evOf w
  | 0x38 => guardI (fld w 16 9 = 0 && fld w 0 16 != 0) (.wany (fld w 0 16))
  | 0x39 => guardI (fld w 0 9 = 0) (.launch (fld w 17 8) (fld w 9 8))
  | 0x3A => rsvOf w
  | 0x3B => guardI (fld w 3 22 = 0 && 1 ≤ fld w 0 3 && fld w 0 3 ≤ 5) (.part (fld w 0 3))
  | 0x3C => guardI (fld w 19 6 = 0 && fld w 17 2 < 3) (.sprf (fld w 17 2) (fld w 9 8) (fld w 0 9))
  | 0x3E => sfnOf w
  | _ => none

/-- MOV (R33, R121). -/
def movOf (w : Nat) (p : Pre) : Option Instr :=
  match fld w 22 3 with
  | 0 => guardI (w % 2 = 0 || fld w 1 7 < 32) (.movLane (lrnOf w p))
  | 1 => guardI (fld w 2 5 = 0 && w % 2 = 1) (.movU p (fld w 15 7) (fld w 7 8) (fld w 1 1 = 1))
  | 2 => guardI (fld w 1 6 = 0 && w % 2 = 1) (.movC p (fld w 15 7) (fld w 7 8))
  | 3 => guardI (fld w 2 5 = 0 && w % 2 = 1) (.movTu p (fld w 15 7) (fld w 7 8) (fld w 1 1 = 1))
  | _ => none

/-- Whether an immediate of 1 to 32 or a register stands in bits [7:0] (R117, R124). -/
def oneTo32 (w : Nat) : Bool := w % 2 = 0 || (1 ≤ fld w 1 7 && fld w 1 7 ≤ 32)

/-- An LRF opcode whose ty must be below `n` (R33). -/
def fpOf (w : Nat) (p : Pre) (lo hi : Nat) (mk : LRF → Instr) : Option Instr :=
  match lrfOf w p with
  | some f => guardI (lo ≤ fld w 22 3 && fld w 22 3 ≤ hi) (mk f)
  | none => none

/-- An integer opcode that takes only 32-bit and 64-bit types (R33). -/
def wideOf (w : Nat) (p : Pre) (mk : LRI → Instr) : Option Instr := guardI (wideTy (lriOf w p).t) (mk (lriOf w p))

/-- The imm7 of BFX and BFI (R116): bit 6 is 0 and the byte position is below W/8. -/
def bfSpecOk (w : Nat) : Bool :=
  w % 2 = 0 || (fld w 7 1 = 0 && fld w 1 3 < (if fld w 22 1 = 1 then 8 else 4))

/-- An L-set base word by its op6 (R33). -/
def lOf (w : Nat) (p : Pre) : Option Instr :=
  match fld w 25 6 with
  | 0x00 => some (.add (lriOf w p))
  | 0x01 => some (.sub (lriOf w p))
  | 0x02 => some (.mul (lriOf w p))
  | 0x03 => some (.mulh (lriOf w p))
  | 0x04 => some (.mad (lriOf w p))
  | 0x05 => some (.div (lriOf w p))
  | 0x06 => some (.rem (lriOf w p))
  | 0x07 => some (.min (lriOf w p))
  | 0x08 => some (.max (lriOf w p))
  | 0x09 => some (.and (lriOf w p))
  | 0x0A => some (.or (lriOf w p))
  | 0x0B => some (.xor (lriOf w p))
  | 0x0C => some (.shl (lriOf w p))
  | 0x0D => some (.shr (lriOf w p))
  | 0x0E => some (.rot (lriOf w p))
  | 0x0F => guardI (fld w 22 2 = 2) (.addc (lriOf w p))
  | 0x10 => guardI (fld w 18 4 = 0) (.cmpeq (lriOf w p))
  | 0x11 => guardI (fld w 18 4 = 0) (.cmpne (lriOf w p))
  | 0x12 => guardI (fld w 18 4 = 0) (.cmplt (lriOf w p))
  | 0x13 => guardI (fld w 18 4 = 0) (.cmple (lriOf w p))
  | 0x14 => wideOf w p .sel
  | 0x15 => if bfSpecOk w then wideOf w p .bfx else none
  | 0x16 => if bfSpecOk w then wideOf w p .bfi else none
  | 0x17 =>
    match BitFn.ofCode (fld w 22 3) with
    | some fn => guardI (fld w 0 8 = 0) (.bit (some fn) (lrnOf w p))
    | none => guardI (oneTo32 w) (.bit none (lrnOf w p))
  | 0x18 => guardI (fld w 22 3 = 0 && w % 2 = 0) (.prmb (lrnOf w p))
  | 0x19 => guardI (fld w 22 1 = 0 && w % 2 = 0) (.dot4 (fld w 24 1 = 0) (fld w 23 1 = 1) (lrnOf w p))
  | 0x1A =>
    match fld w 23 2 with
    | 0 => some (.moviZ (liOf w p))
    | 1 => some (.moviS (liOf w p))
    | 2 => some (.moviHi (liOf w p))
    | _ => none
  | 0x1B => movOf w p
  | 0x1C => guardI (fld w 23 2 = 0 && oneTo32 w) (.bsr (fld w 22 1 = 1) (lrnOf w p))
  | 0x1D =>
    match fld w 22 3 with
    | 0 => guardI (fld w 8 14 = 0 && w % 2 = 0) (.bswSet p (fld w 1 7))
    | 1 => guardI (fld w 8 7 = 0 && w % 2 = 0) (.bswReload p (fld w 15 7) (fld w 1 7))
    | 2 => guardI (fld w 0 15 = 0) (.bswQuery p (fld w 15 7))
    | _ => none
  | 0x1E =>
    match ShfFn.ofCode (fld w 22 3) with
    | some fn => guardI (w % 2 = 0 || fld w 1 7 < 32) (.shf fn (lrnOf w p))
    | none => none
  | 0x1F =>
    if fld w 0 8 != 0 then none else
    match fld w 22 3 with
    | 0 => guardI (fld w 18 4 = 0) (.vote .any p (fld w 15 3) (fld w 8 7))
    | 1 => guardI (fld w 18 4 = 0) (.vote .all p (fld w 15 3) (fld w 8 7))
    | 2 => some (.voteBallot p (fld w 15 7) (fld w 8 7))
    | 3 => guardI (fld w 18 4 = 0) (.vote .eqv p (fld w 15 3) (fld w 8 7))
    | _ => none
  | 0x20 => fpOf w p 0 5 .fadd
  | 0x21 => fpOf w p 0 5 .fsub
  | 0x22 => fpOf w p 0 5 .fmul
  | 0x23 => fpOf w p 0 5 .fma
  | 0x24 => fpOf w p 0 5 .fmin
  | 0x25 => fpOf w p 0 5 .fmax
  | 0x26 => fpOf w p 0 3 .fdiv
  | 0x27 => if fld w 18 4 = 0 then fpOf w p 0 3 .fcmpeq else none
  | 0x28 => if fld w 18 4 = 0 then fpOf w p 0 3 .fcmplt else none
  | 0x29 => if fld w 18 4 = 0 then fpOf w p 0 3 .fcmple else none
  | 0x2A => if fld w 18 4 = 0 then fpOf w p 0 3 .fcmpun else none
  | 0x2B =>
    match FunFn.ofCode (fld w 1 7), FpTy.ofCode (fld w 22 3) with
    | some fn, some t =>
      guardI (w % 2 = 1 && (fld w 22 3 < 4 || fn = .abs || fn = .neg)) (.func fn t p (fld w 15 7) (fld w 8 7))
    | _, _ => none
  | 0x2C =>
    match CvtTy.ofCode (fld w 7 1 * 8 + fld w 22 3), CvtTy.ofCode (fld w 3 4) with
    | some s, some d => guardI (fld w 0 3 = 1) (.cvt s d p (fld w 15 7) (fld w 8 7))
    | _, _ => none
  | 0x2D =>
    match BlockTy.ofCode (fld w 22 2) with
    | some t =>
      guardI (w % 2 = 0) (if fld w 24 1 = 0 then .cvtbTo t p (fld w 15 7) (fld w 8 7) (fld w 1 7)
        else .cvtbFrom t p (fld w 15 7) (fld w 8 7) (fld w 1 7))
    | none => none
  | 0x2E => fpOf w p 4 5 .pfma
  | 0x2F => guardI (fld w 23 2 = 0 && w % 2 = 0) (.cdot (fld w 22 1 = 1) (lrnOf w p))
  | 0x30 => match redOf w p with | some f => guardI (!f.excl) (.tred f) | none => none
  | 0x31 => match redOf w p with | some f => some (.scan f) | none => none
  | 0x32 => match redOf w p with | some f => guardI (!f.excl) (.segr f) | none => none
  | 0x33 =>
    match fld w 22 3 with
    | 0 => some (.meetOpen p (fld w 19 3) (fld w 0 19))
    | 1 => guardI (fld w 0 19 = 0) (.meetWait p (fld w 19 3))
    | 2 => guardI (fld w 0 19 = 0) (.meetLeave p (fld w 19 3))
    | _ => none
  | 0x34 => some (.brt p (fld w 22 3) (fld w 0 22))
  | 0x35 => some (.brf p (fld w 22 3) (fld w 0 22))
  | 0x36 => guardI (fld w 22 3 = 0) (.callv p (fld w 0 22))
  | 0x37 => guardI (fld w 15 10 = 0 && fld w 0 8 = 0) (.jmpv p (fld w 8 7))
  | 0x38 => some (.ld (lmOf w p))
  | 0x39 => some (.st (lmOf w p))
  | 0x3A => some (.lds (lmOf w p))
  | 0x3B => some (.sts (lmOf w p))
  | 0x3C => match laOf w p with | some f => some (.atom f) | none => none
  | 0x3D => match laOf w p with | some f => some (.atoms f) | none => none
  | 0x3E =>
    if fld w 23 2 = 3 || 5 ≤ fld w 17 3 then none
    else if fld w 17 3 = 0 then
      guardI (fld w 0 5 = 0) (.cpy { pre := p, z := fld w 23 2, tok := fld w 20 3, s := fld w 11 6, d := fld w 5 6 })
    else
      some (.cpyBuf { pre := p, z := fld w 23 2, tok := fld w 20 3, fin := fld w 17 3 = 2 || fld w 17 3 = 4,
                      refill := 3 ≤ fld w 17 3, s := fld w 11 6, o := fld w 5 6, cb := fld w 0 5 })
  | _ =>
    guardI (fld w 23 2 < 3) (.gath { pre := p, z := fld w 23 2, tok := fld w 20 3, base := fld w 14 6, idx := fld w 7 7, o := fld w 0 7 })

/-! ## The words before the base word: checks 3 and 4 of R43 -/

/-- The EXT fields that a base instruction uses (R39). -/
structure ExtUse where
  z : Bool := false
  rnd : Bool := false
  vc : Bool := false
  sat : Bool := false
  mem : Bool := false
  atom : Nat := 0
  /-- whether an EXT word must stand before the base word (R35, cas) -/
  must : Bool := false

/-- Every field that does not apply holds its neutral value (R39, R43 check 3). -/
def ExtUse.ok (u : ExtUse) : Option Ext → Bool
  | none => !u.must
  | some e =>
    (u.z || !e.z) && (u.rnd || e.rnd = none) && (u.vc || e.vc = 0) && (u.sat || !e.sat) &&
    (u.mem || (e.scope = .core && e.hint = .default)) && e.atom ≤ u.atom

/-- A field that REP may step: its value, or none when it names no register. -/
abbrev StepField := Option Nat

/-- R41 and R43: a step is 0 where no register stands, and no stepped number passes `top`. -/
def stepOk (last step top : Nat) : StepField → Bool
  | none => step = 0
  | some n => n + last * step ≤ top

/-- How REP steps an instruction: vd (with its largest number), va and vb. -/
structure RepUse where
  d : StepField := none
  dTop : Nat := 127
  a : StepField := none
  b : StepField := none

def RepUse.ok (u : RepUse) : Option Rep → Bool
  | none => true
  | some r => stepOk r.last r.sd u.dTop u.d && stepOk r.last r.sa 127 u.a && stepOk r.last r.sb 127 u.b

/-- The register an operand names, or none. -/
def Opnd.regField : Opnd → StepField
  | .reg n => some n
  | .imm _ => none

def repLRI (f : LRI) : RepUse := { d := some f.d, a := some f.a, b := f.b.regField }
def repLRIm (f : LRI) : RepUse := { d := some f.d, dTop := 7, a := some f.a, b := f.b.regField }
def repLRF (f : LRF) : RepUse := { d := some f.d, a := some f.a, b := some f.b }
def repLRFm (f : LRF) : RepUse := { d := some f.d, dTop := 7, a := some f.a, b := some f.b }
def repLRN (f : LRN) : RepUse := { d := some f.d, a := some f.a, b := f.b.regField }

/-- How each L-set instruction uses REP and EXT (R110, R134, R212); a U-set instruction uses neither but for SLD to SSTW. -/
def Instr.preUse : Instr → Option (Pre × RepUse × ExtUse)
  | .add f => some (f.pre, repLRI f, { z := true, sat := true })
  | .sub f => some (f.pre, repLRI f, { z := true, sat := true })
  | .mul f => some (f.pre, repLRI f, { z := true, sat := true })
  | .shl f => some (f.pre, repLRI f, { z := true, sat := true })
  | .mad f => some (f.pre, repLRI f, { z := true, sat := true, vc := true })
  | .mulh f => some (f.pre, repLRI f, { z := true })
  | .div f => some (f.pre, repLRI f, { z := true })
  | .rem f => some (f.pre, repLRI f, { z := true })
  | .min f => some (f.pre, repLRI f, { z := true })
  | .max f => some (f.pre, repLRI f, { z := true })
  | .and f => some (f.pre, repLRI f, { z := true })
  | .or f => some (f.pre, repLRI f, { z := true })
  | .xor f => some (f.pre, repLRI f, { z := true })
  | .shr f => some (f.pre, repLRI f, { z := true })
  | .rot f => some (f.pre, repLRI f, { z := true })
  | .addc f => some (f.pre, repLRI f, { z := true })
  | .cmpeq f => some (f.pre, repLRIm f, { z := true })
  | .cmpne f => some (f.pre, repLRIm f, { z := true })
  | .cmplt f => some (f.pre, repLRIm f, { z := true })
  | .cmple f => some (f.pre, repLRIm f, { z := true })
  | .sel f => some (f.pre, repLRI f, { z := true })
  | .bfx f => some (f.pre, repLRI f, { z := true })
  | .bfi f => some (f.pre, repLRI f, { z := true, vc := true })
  | .bit fn f => some (f.pre, { d := some f.d, a := some f.a, b := if fn.isSome then none else f.b.regField }, { z := true })
  | .prmb f => some (f.pre, repLRN f, { z := true })
  | .dot4 _ _ f => some (f.pre, repLRN f, { z := true, sat := true, vc := true })
  | .moviZ f => some (f.pre, { d := some f.d }, { z := true })
  | .moviS f => some (f.pre, { d := some f.d }, { z := true })
  | .moviHi f => some (f.pre, { d := some f.d }, { z := true })
  | .movLane f => some (f.pre, repLRN f, { z := true })
  | .movU p d _ _ => some (p, { d := some d }, { z := true })
  | .movC p d _ => some (p, { d := some d }, { z := true })
  | .movTu p a _ _ => some (p, { d := some a }, {})
  | .bsr _ f => some (f.pre, repLRN f, { z := true })
  | .bswSet p b => some (p, { b := some b }, {})
  | .bswReload p d b => some (p, { d := some d, b := some b }, { z := true })
  | .bswQuery p d => some (p, { d := some d }, { z := true })
  | .shf _ f => some (f.pre, repLRN f, { z := true })
  | .vote _ p m a => some (p, { d := some m, dTop := 7, a := some a }, { z := true })
  | .voteBallot p d a => some (p, { d := some d, a := some a }, { z := true })
  | .fadd f => some (f.pre, repLRF f, { z := true, rnd := true })
  | .fsub f => some (f.pre, repLRF f, { z := true, rnd := true })
  | .fmul f => some (f.pre, repLRF f, { z := true, rnd := true })
  | .fdiv f => some (f.pre, repLRF f, { z := true, rnd := true })
  | .fma f => some (f.pre, repLRF f, { z := true, rnd := true, vc := true })
  | .fmin f => some (f.pre, repLRF f, { z := true })
  | .fmax f => some (f.pre, repLRF f, { z := true })
  | .fcmpeq f => some (f.pre, repLRFm f, { z := true })
  | .fcmplt f => some (f.pre, repLRFm f, { z := true })
  | .fcmple f => some (f.pre, repLRFm f, { z := true })
  | .fcmpun f => some (f.pre, repLRFm f, { z := true })
  | .func fn _ p d a =>
    some (p, { d := some d, a := some a }, { z := true, rnd := fn != .abs && fn != .neg && fn != .class })
  | .cvt _ _ p d a => some (p, { d := some d, a := some a }, { z := true, rnd := true, sat := true })
  | .cvtbTo _ p d a b => some (p, { d := some d, a := some a, b := some b }, { z := true, rnd := true, sat := true })
  | .cvtbFrom _ p d a b => some (p, { d := some d, a := some a, b := some b }, { z := true, rnd := true, sat := true })
  | .pfma f => some (f.pre, repLRF f, { z := true, rnd := true, vc := true })
  | .cdot _ f => some (f.pre, repLRN f, { z := true, sat := true, vc := true })
  | .tred f => some (f.pre, { d := some f.d, a := some f.a }, { z := true, rnd := f.op.fn ≥ 8, sat := f.op.fn = 0 })
  | .scan f => some (f.pre, { d := some f.d, a := some f.a }, { z := true, rnd := f.op.fn ≥ 8, sat := f.op.fn = 0 })
  | .segr f => some (f.pre, { d := some f.d, a := some f.a }, { z := true, rnd := f.op.fn ≥ 8, sat := f.op.fn = 0 })
  | .meetOpen p _ _ => some (p, {}, {})
  | .meetWait p _ => some (p, {}, {})
  | .meetLeave p _ => some (p, {}, {})
  | .brt p _ _ => some (p, {}, {})
  | .brf p _ _ => some (p, {}, {})
  | .callv p _ => some (p, {}, {})
  | .jmpv p _ => some (p, {}, {})
  | .ld f => some (f.pre, { d := some f.d, a := some f.a, b := f.b.regField }, { z := true, mem := true, atom := if f.t = .i64 || f.t = .n64 then 2 else 0 })
  | .st f => some (f.pre, { d := some f.d, a := some f.a, b := f.b.regField }, { mem := true, atom := if f.t = .i64 || f.t = .n64 then 2 else 0 })
  | .lds f => some (f.pre, { d := some f.d, a := some f.a, b := f.b.regField }, { z := true, atom := if f.t = .i64 || f.t = .n64 then 2 else 0 })
  | .sts f => some (f.pre, { d := some f.d, a := some f.a, b := f.b.regField }, { atom := if f.t = .i64 || f.t = .n64 then 2 else 0 })
  | .atom f => some (f.pre, { d := some f.d, a := some f.a },
      { z := !f.nr, rnd := f.op.fn = 8, vc := f.op.fn = 7, must := f.op.fn = 7, mem := true })
  | .atoms f => some (f.pre, { d := some f.d, a := some f.a },
      { z := !f.nr, rnd := f.op.fn = 8, vc := f.op.fn = 7, must := f.op.fn = 7 })
  | .cpy f => some (f.pre, {}, {})
  | .cpyBuf f => some (f.pre, {}, {})
  | .gath f => some (f.pre, {}, {})
  | .sld f => some (⟨none, f.ext⟩, {}, { mem := true, atom := 1 })
  | .sst f => some (⟨none, f.ext⟩, {}, { mem := true, atom := 1 })
  | .sldw f => some (⟨none, f.ext⟩, {}, { mem := true })
  | .sstw f => some (⟨none, f.ext⟩, {}, { mem := true })
  | _ => none

/-- SLD, SLDW, SST and SSTW take no MASK, INV or Z (R52). -/
def Instr.noMask : Instr → Bool
  | .sld f => match f.ext with | some e => e.mask = 0 && !e.inv | none => true
  | .sst f => match f.ext with | some e => e.mask = 0 && !e.inv | none => true
  | .sldw f => match f.ext with | some e => e.mask = 0 && !e.inv | none => true
  | .sstw f => match f.ext with | some e => e.mask = 0 && !e.inv | none => true
  | _ => true

/-- R144: vd and vb of CVTB_TO differ in every issue of a REP. -/
def cvtbApart (r : Option Rep) (d b : Nat) : Bool :=
  match r with
  | none => d != b
  | some r => (List.range (r.last + 1)).all fun i => d + i * r.sd != b + i * r.sb

/-- The REP fields of an instruction are legal (R41; check 3 of R43). -/
def Instr.repOk (i : Instr) : Bool :=
  match i.preUse with
  | some (p, r, _) => r.ok p.rep
  | none => true

/-- The EXT fields of an instruction are legal (R39; check 3 of R43). -/
def Instr.extOk (i : Instr) : Bool :=
  (match i.preUse with
   | some (p, _, e) => e.ok p.ext
   | none => true) && i.noMask

/-- The narrow float additions do not return, swap and cas do, and ATOMS has no narrow float (R35, R217). -/
def atomOk (f : LA) (spad : Bool) : Bool :=
  match f.op with
  | .int _ _ => true
  | .swap _ => !f.nr
  | .cas _ => !f.nr
  | .flt .fadd t => (t = .f64 || t = .f32) || (f.nr && !spad)
  | .flt _ t => t = .f64 || t = .f32

/-- The checks on a base word that depend on more than one field (R144, R217). -/
def Instr.baseOk : Instr → Bool
  | .atom f => atomOk f false
  | .atoms f => atomOk f true
  | .cvtbTo _ p d _ b => cvtbApart p.rep d b
  | _ => true

/-- The control numbers SGET, SSET and MOV.c may name (R36). -/
def ctlWarp (n : Nat) : Bool :=
  n ≤ 0x14 || (0x18 ≤ n && n ≤ 0x2A) || (0x30 ≤ n && n ≤ 0x35) || (0x38 ≤ n && n ≤ 0x3D) ||
  (0x40 ≤ n && n ≤ 0x44) || (0x48 ≤ n && n ≤ 0x4A) || n = 0x51
def ctlLane (n : Nat) : Bool := 0x80 ≤ n && n ≤ 0x83
/-- R36: the registers with access RW. -/
def ctlWritable (n : Nat) : Bool :=
  n = 0x0C || n = 0x0D || n = 0x14 || (0x18 ≤ n && n ≤ 0x27) || n = 0x2A || n = 0x30 || (0x38 ≤ n && n ≤ 0x3C) || n = 0x42

/-- A uniform register number (R29). -/
def sr (n : Nat) : Bool := n < 160
def Opnd.sOk (sr : Nat → Bool) : Opnd → Bool
  | .reg n => sr n
  | .imm _ => true
def UR.ok (sr : Nat → Bool) (f : UR) : Bool := sr f.d && sr f.a && f.b.sOk sr

/-- Every uniform register that an instruction names passes a test, and its control number may be named. -/
def Instr.numsBy (sr : Nat → Bool) : Instr → Bool
  | .sadd f | .ssub f | .smul f | .smulh f | .sdiv f | .srem f | .sand f | .sor f | .sxor f | .sshl f | .sshr f
  | .ssra f | .smin f | .smax f | .sminn f | .smaxn f | .sseq f | .ssne f | .sslt f | .ssltn f | .ssel f | .sbfx f
  | .sbfi f => f.ok sr
  | .smovl f => sr f.d && f.b.sOk sr
  | .sbit d a _ => sr d && sr a
  | .sli d _ | .slis d _ => sr d
  | .sld f | .sldw f | .sst f | .sstw f => sr f.d && sr f.a
  | .sldk d a _ => sr d && sr a
  | .sbz a _ | .sbnz a _ | .sblt a _ | .sloop a _ | .sj a | .scallr a => sr a
  | .tcfg _ a | .tld _ a | .tst _ a => sr a
  | .tldS _ a b => sr a && sr b
  | .mma _ _ s | .mmaPair _ _ s => sr s
  | .mdrnTile a _ _ _ _ => sr a
  | .mdrnSpad a _ _ b => sr a && sr b
  | .mchk a | .mfix a | .mzero a => sr a
  | .mrty d a | .mgive d a | .mstatClo d a | .mstatChi d a => sr d && sr a
  | .mstat d => sr d
  | .gstr _ _ a b | .cbdef _ a b => sr a && sr b
  | .cbget d _ | .cbqry d _ => sr d
  | .cbput _ a | .cblim _ a => sr a
  | .waitk d _ => sr d
  | .xred a | .xbc a | .xshf a | .xside a => sr a
  | .xqry d _ => sr d
  | .txs d => sr d
  | .evb _ _ _ a => sr a
  | .launch d a => sr d && sr a
  | .sprf _ a _ => sr a
  | .sget d n => sr d && ctlWarp n
  | .sset n a => sr a && ctlWarp n && ctlWritable n
  | .sleep a => sr a
  | .movU _ _ s _ | .movTu _ _ s _ => sr s
  | .movC _ _ n => ctlWarp n || ctlLane n
  | _ => true
/-- Check 4 of R43: uniform register numbers and control numbers (R29, R36). -/
def Instr.numsOk (i : Instr) : Bool := i.numsBy sr

/-! ## The decoder -/

/-- Why a list of words is no instruction. -/
inductive DecodeError where
  /-- fewer words than the instruction has -/
  | short
  /-- ILLEGAL, with the word that $trapa receives (R319) -/
  | illegal (word : Nat)
  deriving DecidableEq, Repr

/-- R37: bit 31 is 1 and op6 is 0x3F. -/
def isPre (w : Nat) : Bool := fld w 25 7 = 0x7F
/-- Bit 31 chooses the set (R26). -/
def isU (w : Nat) : Bool := fld w 31 1 = 1

/-- R37: no REP before a U-set word, before the forms LB, LT and LE, or before JMPV. -/
def noRep (w : Nat) : Bool := isU w || (0x33 ≤ fld w 25 6 && fld w 25 6 ≤ 0x37) || 0x3E ≤ fld w 25 6
/-- R37: EXT before a U-set word only for SLD, SLDW, SST and SSTW. -/
def noExt (w : Nat) : Bool := isU w && !(0x1A ≤ fld w 25 6 && fld w 25 6 ≤ 0x1D)

/-- A base word with the words before it, in the order of the checks of R43. Where several words fail the same check, the base word is named first,
then REP, then EXT: R43 gives them no order. DESIGN CHOICE, log entry 50. -/
def decodeBase (rw ew : Option Nat) (w : Nat) : Except DecodeError Instr :=
  match rw, ew with
  | some r, _ => if noRep w then .error (.illegal r) else go (some r) ew
  | none, some e => if noExt w then .error (.illegal e) else go none ew
  | none, none => go none none
where
  go (rw ew : Option Nat) : Except DecodeError Instr :=
    let rep := rw.map repOf
    let ext := ew.map extOf
    let p : Pre := ⟨rep.bind id, ext.bind id⟩
    match if isU w then uOf w p.ext else lOf w p with
    | none => .error (.illegal w)
    | some i =>
      if !i.baseOk then .error (.illegal w)
      else if rep = some none || !i.repOk then .error (.illegal (rw.getD w))
      else if ext = some none || !i.extOk then .error (.illegal (ew.getD w))
      else if !i.numsOk then .error (.illegal w)
      else .ok i

/-- The instruction at the head of a list of words, with the number of words it has (R13, R37). Of two prefixes in a wrong order the later is the one
that $trapa names: DESIGN CHOICE, log entry 50. -/
def decode : List Nat → Except DecodeError (Instr × Nat)
  | [] => .error .short
  | w0 :: r0 =>
    if !isPre w0 then (decodeBase none none w0).map (·, 1)
    else match fld w0 23 2, r0 with
    | 0, [] => .error .short
    | 0, w1 :: _ => if isPre w1 then .error (.illegal w1) else (decodeBase none (some w0) w1).map (·, 2)
    | 1, [] => .error .short
    | 1, w1 :: r1 =>
      if !isPre w1 then (decodeBase (some w0) none w1).map (·, 2)
      else match fld w1 23 2, r1 with
      | 0, [] => .error .short
      | 0, w2 :: _ => if isPre w2 then .error (.illegal w2) else (decodeBase (some w0) (some w1) w2).map (·, 3)
      | _, _ => .error (.illegal w1)
    | _, _ => .error (.illegal w0)

/-- Little-endian words of a list of bytes (R26). -/
def wordsOf : List Byte → List Nat
  | b0 :: b1 :: b2 :: b3 :: r => (b0.toNat + b1.toNat * 256 + b2.toNat * 65536 + b3.toNat * 16777216) :: wordsOf r
  | _ => []

/-- The decoder on any bytes. -/
def decodeBytes (bs : List Byte) : Except DecodeError (Instr × Nat) := decode (wordsOf bs)

/-- A dx word (R46). None is the illegal-instruction exception of R47. A dx.ckpt word stands for three rows, and
what it does follows from rs1 (R413): the decoder gives the first. -/
def decodeHost (w : Nat) : Option Instr :=
  let d := fld w 7 5
  let s := fld w 15 5
  let t := fld w 20 5
  if fld w 0 7 != 0x0B then none else
  match fld w 12 3, fld w 25 7 with
  | 0, 0 => guardI (t = 0) (.dxLaunch d s)
  | 1, 0 => some (.dxWait d s t)
  | 2, 0 => guardI (s = 0 && t = 0) (.dxTbegin d)
  | 2, 1 => guardI (d = 0 && s = 0 && t = 0) .dxTend
  | 2, 2 => guardI (d = 0 && t = 0) (.dxTabort s)
  | 3, 0 => guardI (t = 0) (.dxFqpop d s)
  | 4, 0 => guardI (d = 0 && t = 0) (.dxReplay s)
  | 5, 0 => guardI (d = 0 && t = 0) (.dxKill s)
  | 6, 0 => guardI (t = 0) (.dxCkptSave d s)
  | _, _ => none

/-- The instruction of a table row's word. A dx word is also an Otmor word (bits [6:0] of an L-set word are free), and which of
the two it is depends on the agent that fetches it: here a word that is a dx instruction is taken for a hart's. -/
def decodeTableWord (_nbits w : Nat) : Option Instr :=
  match decodeHost (w % 2 ^ 32) with
  | some i => some i
  | none =>
    match decode [w % 2 ^ 32, w / 2 ^ 32 % 2 ^ 32, w / 2 ^ 64 % 2 ^ 32] with
    | .ok (i, _) => some i
    | .error _ => none

/-! ## The encoder

The words of a well-formed instruction, from the same tables. A step of the hardware has no word. -/

/-- An EXT word (R38). -/
def Ext.word (e : Ext) : Nat :=
  0xFE000000 + e.mask * 2 ^ 20 + bit01 e.inv * 2 ^ 19 + rndCode e.rnd * 2 ^ 16 + e.vc * 2 ^ 9 + bit01 e.z * 2 ^ 8 +
    bit01 e.sat * 2 ^ 7 + e.scope.code * 2 ^ 4 + e.hint.code * 2 ^ 2 + e.atom

/-- A REP word (R41). -/
def Rep.word (r : Rep) : Nat := 0xFE800000 + r.last * 2 ^ 17 + r.sd * 2 ^ 14 + r.sa * 2 ^ 11 + r.sb * 2 ^ 8

/-- The words before a base word: REP and then EXT (R37). -/
def Pre.words (p : Pre) : List Nat :=
  (match p.rep with | some r => [r.word] | none => []) ++ (match p.ext with | some e => [e.word] | none => [])

/-- A U-set base word: op6 and bits [24:0]. -/
def uw (op rest : Nat) : List Nat := [0x80000000 + op * 2 ^ 25 + rest]
def urw (op : Nat) (f : UR) : List Nat := uw op (f.d * 2 ^ 17 + f.a * 2 ^ 9 + f.b.code)
def umw (op : Nat) (f : UM) : List Nat :=
  (match f.ext with | some e => [e.word] | none => []) ++ uw op (f.d * 2 ^ 17 + f.a * 2 ^ 9 + f.off)
/-- An L-set base word: op6, ty, vd, va and bits [7:0], after its prefix words. -/
def lw (p : Pre) (op ty d a low : Nat) : List Nat :=
  p.words ++ [op * 2 ^ 25 + ty * 2 ^ 22 + d * 2 ^ 15 + a * 2 ^ 8 + low]
def lriw (op : Nat) (f : LRI) : List Nat := lw f.pre op f.t.code f.d f.a f.b.code
def lmw (op : Nat) (f : LM) : List Nat := lw f.pre op f.t.code f.d f.a f.b.code
def lrfw (op : Nat) (f : LRF) : List Nat := lw f.pre op f.t.code f.d f.a (f.b * 2)
def lrnw (op ty : Nat) (f : LRN) : List Nat := lw f.pre op ty f.d f.a f.b.code
def law (op : Nat) (f : LA) : List Nat := lw f.pre op f.op.ty f.d f.a (f.op.fn * 8 + bit01 f.nr * 4)
def redw (op : Nat) (f : Red) : List Nat := lw f.pre op f.op.ty f.d f.a (bit01 f.excl * 128 + f.op.fn * 2 + 1)
def liw (k : Nat) (f : LI) : List Nat :=
  f.pre.words ++ [0x1A * 2 ^ 25 + k * 2 ^ 23 + f.v / 32768 * 2 ^ 22 + f.d * 2 ^ 15 + f.v % 32768]
/-- A dx word (R46). -/
def dxw (f3 f7 d s t : Nat) : List Nat := [f7 * 2 ^ 25 + t * 2 ^ 20 + s * 2 ^ 15 + f3 * 2 ^ 12 + d * 2 ^ 7 + 0x0B]
/-- KIND of CPY in the buffer form (R293). -/
def cpyKind (fin refill : Bool) : Nat := 1 + bit01 fin + 2 * bit01 refill

/-- The words of the uniform register operations. -/
def encodeUAlu : Instr → List Nat
  | .sadd f => urw 0x00 f
  | .ssub f => urw 0x01 f
  | .smul f => urw 0x02 f
  | .smulh f => urw 0x03 f
  | .sdiv f => urw 0x04 f
  | .srem f => urw 0x05 f
  | .sand f => urw 0x06 f
  | .sor f => urw 0x07 f
  | .sxor f => urw 0x08 f
  | .sshl f => urw 0x09 f
  | .sshr f => urw 0x0A f
  | .ssra f => urw 0x0B f
  | .smin f => urw 0x0C f
  | .smax f => urw 0x0D f
  | .sminn f => urw 0x0E f
  | .smaxn f => urw 0x0F f
  | .sseq f => urw 0x10 f
  | .ssne f => urw 0x11 f
  | .sslt f => urw 0x12 f
  | .ssltn f => urw 0x13 f
  | .ssel f => urw 0x14 f
  | .sbfx f => urw 0x15 f
  | .sbfi f => urw 0x16 f
  | .sbit d a fn => uw 0x17 (d * 2 ^ 17 + a * 2 ^ 9 + fn * 2 + 1)
  | .sli d imm => uw 0x18 (d * 2 ^ 17 + imm)
  | .slis d imm => uw 0x19 (d * 2 ^ 17 + imm)
  | _ => []

/-- The words of the uniform memory and control. -/
def encodeUMem : Instr → List Nat
  | .sld f => umw 0x1A f
  | .sldw f => umw 0x1B f
  | .sst f => umw 0x1C f
  | .sstw f => umw 0x1D f
  | .sldk d a off => uw 0x1E (d * 2 ^ 17 + a * 2 ^ 9 + off)
  | .smovl f => urw 0x1F f
  | .sb off => uw 0x20 off
  | .sbz a off => uw 0x21 (a * 2 ^ 17 + off)
  | .sbnz a off => uw 0x22 (a * 2 ^ 17 + off)
  | .sblt a off => uw 0x23 (a * 2 ^ 17 + off)
  | .sj a => uw 0x24 (a * 2 ^ 9)
  | .scall off => uw 0x25 off
  | .scallr a => uw 0x26 (a * 2 ^ 9)
  | .sret => uw 0x27 0
  | .sloop a off => uw 0x28 (a * 2 ^ 17 + off)
  | _ => []

/-- The words of the fences, engines, collectives, transactions, barriers and events. -/
def encodeUEngine : Instr → List Nat
  | .fenceRel sc => uw 0x29 (sc.code * 2 ^ 19)
  | .fenceAcq sc => uw 0x29 (1 * 2 ^ 22 + sc.code * 2 ^ 19)
  | .fenceAr sc => uw 0x29 (2 * 2 ^ 22 + sc.code * 2 ^ 19)
  | .fenceSc sc => uw 0x29 (3 * 2 ^ 22 + sc.code * 2 ^ 19)
  | .fenceFetch => uw 0x29 (4 * 2 ^ 22)
  | .tcfg n a => uw 0x2A (n * 2 ^ 21 + a * 2 ^ 13)
  | .tld n a => uw 0x2B (n * 2 ^ 21 + a * 2 ^ 13)
  | .tldS n a b => uw 0x2B (n * 2 ^ 21 + a * 2 ^ 13 + b * 2 ^ 5 + 2 ^ 4)
  | .tst n a => uw 0x2C (n * 2 ^ 21 + a * 2 ^ 13)
  | .mma a b s => uw 0x2D (a * 2 ^ 21 + b * 2 ^ 17 + s * 2 ^ 9)
  | .mmaPair a b s => uw 0x2D (a * 2 ^ 21 + b * 2 ^ 17 + s * 2 ^ 9 + 2 ^ 8)
  | .mdrnTile a clr n row col => uw 0x2E (a * 2 ^ 17 + bit01 clr * 2 ^ 15 + n * 2 ^ 8 + row * 2 ^ 5 + col * 2 ^ 3)
  | .mdrnSpad a clr cv b => uw 0x2E (a * 2 ^ 17 + 2 ^ 16 + bit01 clr * 2 ^ 15 + cv.code * 2 ^ 12 + b * 2 ^ 4)
  | .mchk a => uw 0x2F (a * 2 ^ 14)
  | .mfix a => uw 0x2F (1 * 2 ^ 22 + a * 2 ^ 14)
  | .mrty d a => uw 0x2F (2 * 2 ^ 22 + a * 2 ^ 14 + d * 2 ^ 6)
  | .mstat d => uw 0x2F (3 * 2 ^ 22 + d * 2 ^ 6)
  | .mstatClo d a => uw 0x2F (3 * 2 ^ 22 + a * 2 ^ 14 + d * 2 ^ 6 + 1)
  | .mstatChi d a => uw 0x2F (3 * 2 ^ 22 + a * 2 ^ 14 + d * 2 ^ 6 + 2)
  | .mzero a => uw 0x2F (4 * 2 ^ 22 + a * 2 ^ 14)
  | .mgive d a => uw 0x2F (5 * 2 ^ 22 + a * 2 ^ 14 + d * 2 ^ 6)
  | .gstr z tok a b => uw 0x30 (z * 2 ^ 23 + tok * 2 ^ 20 + a * 2 ^ 12 + b * 2 ^ 4)
  | .cbdef c a b => uw 0x31 (c * 2 ^ 17 + a * 2 ^ 9 + b * 2)
  | .cbget d c => uw 0x31 (1 * 2 ^ 22 + c * 2 ^ 17 + d * 2 ^ 9)
  | .cbput c a => uw 0x31 (2 * 2 ^ 22 + c * 2 ^ 17 + a * 2 ^ 9)
  | .cbqry d c => uw 0x31 (3 * 2 ^ 22 + c * 2 ^ 17 + d * 2 ^ 9)
  | .cblim c a => uw 0x31 (4 * 2 ^ 22 + c * 2 ^ 17 + a * 2 ^ 9)
  | .waitq c n => uw 0x32 (c.code * 2 ^ 23 + n * 2 ^ 15)
  | .waitk d m => uw 0x33 (d * 2 ^ 17 + m)
  | .xred a => uw 0x34 (a * 2 ^ 14)
  | .xbc a => uw 0x34 (1 * 2 ^ 22 + a * 2 ^ 14)
  | .xshf a => uw 0x34 (2 * 2 ^ 22 + a * 2 ^ 14)
  | .xside a => uw 0x34 (3 * 2 ^ 22 + a * 2 ^ 14)
  | .xqry d sel => uw 0x34 (4 * 2 ^ 22 + d * 2 ^ 14 + sel * 2 ^ 6)
  | .txb off => uw 0x35 off
  | .txc m => uw 0x35 (1 * 2 ^ 23 + m * 2 ^ 20)
  | .txa c => uw 0x35 (2 * 2 ^ 23 + c)
  | .txs d => uw 0x35 (3 * 2 ^ 23 + d * 2 ^ 15)
  | .barArrive l n => uw 0x36 (l.code * 2 ^ 23 + n * 2 ^ 19 + 1 * 2 ^ 17)
  | .barWait l n => uw 0x36 (l.code * 2 ^ 23 + n * 2 ^ 19 + 2 * 2 ^ 17)
  | .barSync l n => uw 0x36 (l.code * 2 ^ 23 + n * 2 ^ 19 + 3 * 2 ^ 17)
  | .evb n l b a => uw 0x37 (n * 2 ^ 19 + l * 2 ^ 17 + b * 2 ^ 13 + a * 2 ^ 5)
  | .evmWr imm => uw 0x37 (1 * 2 ^ 23 + imm)
  | .evmSet imm => uw 0x37 (1 * 2 ^ 23 + 1 * 2 ^ 21 + imm)
  | .evmClr imm => uw 0x37 (1 * 2 ^ 23 + 2 * 2 ^ 21 + imm)
  | .evclr imm => uw 0x37 (2 * 2 ^ 23 + imm)
  | .wany imm => uw 0x38 imm
  | _ => []

/-- The words of the launch, resources and the SYS group. -/
def encodeUSys : Instr → List Nat
  | .launch d a => uw 0x39 (d * 2 ^ 17 + a * 2 ^ 9)
  | .takeV m => uw 0x3A m
  | .giveV m => uw 0x3A (1 * 2 ^ 23 + m)
  | .takeA c => uw 0x3A (2 * 2 ^ 23 + c)
  | .giveA c => uw 0x3A (3 * 2 ^ 23 + c)
  | .part z => uw 0x3B z
  | .sprf t a off => uw 0x3C (t * 2 ^ 17 + a * 2 ^ 9 + off)
  | .sget d n => uw 0x3E (d * 2 ^ 14 + n * 2 ^ 6)
  | .sset n a => uw 0x3E (1 * 2 ^ 22 + a * 2 ^ 14 + n * 2 ^ 6)
  | .snop => uw 0x3E (2 * 2 ^ 22)
  | .exit => uw 0x3E (2 * 2 ^ 22 + 1 * 2 ^ 6)
  | .yield => uw 0x3E (2 * 2 ^ 22 + 2 * 2 ^ 6)
  | .trap imm => uw 0x3E (2 * 2 ^ 22 + imm * 2 ^ 14 + 3 * 2 ^ 6)
  | .brk => uw 0x3E (2 * 2 ^ 22 + 4 * 2 ^ 6)
  | .rte => uw 0x3E (2 * 2 ^ 22 + 5 * 2 ^ 6)
  | .snap => uw 0x3E (2 * 2 ^ 22 + 6 * 2 ^ 6)
  | .sleep a => uw 0x3E (2 * 2 ^ 22 + a * 2 ^ 14 + 7 * 2 ^ 6)
  | _ => []

/-- The words of the lane integer instructions, moves, shuffles and votes. -/
def encodeLInt : Instr → List Nat
  | .add f => lriw 0x00 f
  | .sub f => lriw 0x01 f
  | .mul f => lriw 0x02 f
  | .mulh f => lriw 0x03 f
  | .mad f => lriw 0x04 f
  | .div f => lriw 0x05 f
  | .rem f => lriw 0x06 f
  | .min f => lriw 0x07 f
  | .max f => lriw 0x08 f
  | .and f => lriw 0x09 f
  | .or f => lriw 0x0A f
  | .xor f => lriw 0x0B f
  | .shl f => lriw 0x0C f
  | .shr f => lriw 0x0D f
  | .rot f => lriw 0x0E f
  | .addc f => lriw 0x0F f
  | .cmpeq f => lriw 0x10 f
  | .cmpne f => lriw 0x11 f
  | .cmplt f => lriw 0x12 f
  | .cmple f => lriw 0x13 f
  | .sel f => lriw 0x14 f
  | .bfx f => lriw 0x15 f
  | .bfi f => lriw 0x16 f
  | .bit fn f => lrnw 0x17 (BitFn.code fn) f
  | .prmb f => lrnw 0x18 0 f
  | .dot4 signed four f => lrnw 0x19 (bit01 (!signed) * 4 + bit01 four * 2) f
  | .moviZ f => liw 0 f
  | .moviS f => liw 1 f
  | .moviHi f => liw 2 f
  | .movLane f => lrnw 0x1B 0 f
  | .movU p d s hi => lw p 0x1B 1 d 0 (s * 2 ^ 7 + bit01 hi * 2 + 1)
  | .movC p d n => lw p 0x1B 2 d 0 (n * 2 ^ 7 + 1)
  | .movTu p a s hi => lw p 0x1B 3 a 0 (s * 2 ^ 7 + bit01 hi * 2 + 1)
  | .bsr signed f => lrnw 0x1C (bit01 signed) f
  | .bswSet p b => lw p 0x1D 0 0 0 (b * 2)
  | .bswReload p d b => lw p 0x1D 1 d 0 (b * 2)
  | .bswQuery p d => lw p 0x1D 2 d 0 0
  | .shf fn f => lrnw 0x1E fn.code f
  | .vote fn p m a => lw p 0x1F fn.code m a 0
  | .voteBallot p d a => lw p 0x1F 2 d a 0
  | _ => []

/-- The words of the lane float, reductions, lane control, memory and copies. -/
def encodeLRest : Instr → List Nat
  | .fadd f => lrfw 0x20 f
  | .fsub f => lrfw 0x21 f
  | .fmul f => lrfw 0x22 f
  | .fma f => lrfw 0x23 f
  | .fmin f => lrfw 0x24 f
  | .fmax f => lrfw 0x25 f
  | .fdiv f => lrfw 0x26 f
  | .fcmpeq f => lrfw 0x27 f
  | .fcmplt f => lrfw 0x28 f
  | .fcmple f => lrfw 0x29 f
  | .fcmpun f => lrfw 0x2A f
  | .func fn t p d a => lw p 0x2B t.code d a (fn.code * 2 + 1)
  | .cvt src dst p d a => lw p 0x2C (src.code % 8) d a (src.code / 8 * 128 + dst.code * 8 + 1)
  | .cvtbTo t p d a b => lw p 0x2D t.code d a (b * 2)
  | .cvtbFrom t p d a b => lw p 0x2D (4 + t.code) d a (b * 2)
  | .pfma f => lrfw 0x2E f
  | .cdot four f => lrnw 0x2F (bit01 four) f
  | .tred f => redw 0x30 f
  | .scan f => redw 0x31 f
  | .segr f => redw 0x32 f
  | .meetOpen p n off => p.words ++ [0x33 * 2 ^ 25 + n * 2 ^ 19 + off]
  | .meetWait p n => p.words ++ [0x33 * 2 ^ 25 + 1 * 2 ^ 22 + n * 2 ^ 19]
  | .meetLeave p n => p.words ++ [0x33 * 2 ^ 25 + 2 * 2 ^ 22 + n * 2 ^ 19]
  | .brt p m off => p.words ++ [0x34 * 2 ^ 25 + m * 2 ^ 22 + off]
  | .brf p m off => p.words ++ [0x35 * 2 ^ 25 + m * 2 ^ 22 + off]
  | .callv p off => p.words ++ [0x36 * 2 ^ 25 + off]
  | .jmpv p a => lw p 0x37 0 0 a 0
  | .ld f => lmw 0x38 f
  | .st f => lmw 0x39 f
  | .lds f => lmw 0x3A f
  | .sts f => lmw 0x3B f
  | .atom f => law 0x3C f
  | .atoms f => law 0x3D f
  | .cpy f => f.pre.words ++ [0x3E * 2 ^ 25 + f.z * 2 ^ 23 + f.tok * 2 ^ 20 + f.s * 2 ^ 11 + f.d * 2 ^ 5]
  | .cpyBuf f =>
    f.pre.words ++ [0x3E * 2 ^ 25 + f.z * 2 ^ 23 + f.tok * 2 ^ 20 + cpyKind f.fin f.refill * 2 ^ 17 + f.s * 2 ^ 11 + f.o * 2 ^ 5 + f.cb]
  | .gath f => f.pre.words ++ [0x3F * 2 ^ 25 + f.z * 2 ^ 23 + f.tok * 2 ^ 20 + f.base * 2 ^ 14 + f.idx * 2 ^ 7 + f.o]
  | _ => []

/-- The words of the the host's dx instructions. -/
def encodeHost : Instr → List Nat
  | .dxLaunch d s => dxw 0 0 d s 0
  | .dxWait d s t => dxw 1 0 d s t
  | .dxTbegin d => dxw 2 0 d 0 0
  | .dxTend => dxw 2 1 0 0 0
  | .dxTabort s => dxw 2 2 0 s 0
  | .dxFqpop d s => dxw 3 0 d s 0
  | .dxReplay s => dxw 4 0 0 s 0
  | .dxKill s => dxw 5 0 0 s 0
  | .dxCkptSave d s => dxw 6 0 d s 0
  | .dxCkptRestore d s => dxw 6 0 d s 0
  | .dxCkptQuery d s => dxw 6 0 d s 0
  | _ => []

/-- The words of an instruction: each part gives words for its own instructions and none for the others. -/
def encode (i : Instr) : List Nat :=
  encodeUAlu i ++ encodeUMem i ++ encodeUEngine i ++ encodeUSys i ++ encodeLInt i ++ encodeLRest i ++ encodeHost i

end Sys2Proof
end

