-- ==== Sys2Proof/Machine/RvFloat.lean ====
section
/-! DEFINITION. The floating-point functions of a host hart's F, D and V instructions on patterns (R407). A function answers a pattern and flags of fcsr: NX is bit
0, UF 1, OF 2, DZ 3 and NV 4. What RISC-V says of them is PRESUMED, log entry 11. -/

namespace Sys2Proof.Machine

/-! ## Results -/

/-- The canonical NaN of RISC-V. -/
def rvNan (f : Fmt) : Nat := f.inf + 2 ^ (f.frac - 1)
/-- The flags of R80 as fcsr holds them. -/
def rvFlags (fl : Nat) : Nat :=
  maskNat (fun i => fl.testBit (12 - i)) 5
/-- A value delivered in a format: no flush, no saturation. -/
def rvDeliver (f : Fmt) (md : Rnd) (x : FV) (nv dz : Bool) : Nat × Nat :=
  let r := f.deliver ⟨md, false, false⟩ x nv
  (if x.isNan then rvNan f else r.1, rvFlags r.2 ||| (if dz then 8 else 0))
/-- The rounding modes of frm; 5 to 7 name none. -/
def rvRnd (n : Nat) : Option Rnd :=
  match n with
  | 0 => some .rne | 1 => some .rtz | 2 => some .rdn | 3 => some .rup | 4 => some .rna
  | _ => none

/-! ## Arithmetic -/

def rvAdd (f : Fmt) (md : Rnd) (a b : Nat) : Nat × Nat :=
  let r := FV.sum md [f.decode a, f.decode b]
  rvDeliver f md r.1 r.2 false
def rvNeg (f : Fmt) (a : Nat) : Nat := a.xor (f.sign true)
def rvSub (f : Fmt) (md : Rnd) (a b : Nat) : Nat × Nat := rvAdd f md a (rvNeg f b)
def rvMul (f : Fmt) (md : Rnd) (a b : Nat) : Nat × Nat :=
  let r := FV.mul (f.decode a) (f.decode b)
  rvDeliver f md r.1 r.2 false
def rvDiv (f : Fmt) (md : Rnd) (a b : Nat) : Nat × Nat :=
  let r := FV.div (f.decode a) (f.decode b)
  rvDeliver f md r.1 r.2.1 r.2.2
/-- a * b + c, rounded once. -/
def rvFma (f : Fmt) (md : Rnd) (a b c : Nat) : Nat × Nat :=
  let p := FV.mul (f.decode a) (f.decode b)
  let r := FV.sum md [p.1, f.decode c]
  rvDeliver f md r.1 (p.2 || r.2) false
def rvSqrt (f : Fmt) (md : Rnd) (a : Nat) : Nat × Nat :=
  match f.decode a with
  | .nan s => (rvNan f, if s then 16 else 0)
  | .inf n => if n then (rvNan f, 16) else (f.inf, 0)
  | .num n m e => if m = 0 then (a, 0) else if n then (rvNan f, 16) else rvDeliver f md (sqrtMag m e) false false
def rvMinMax (f : Fmt) (big : Bool) (a b : Nat) : Nat × Nat :=
  let r := f.minmax false big a b
  (if (f.decode a).isNan && (f.decode b).isNan then rvNan f else r.1, rvFlags r.2)
/-- Sign injection: kind 0 takes the sign of b, 1 its opposite, 2 the exclusive or. -/
def rvSgnj (f : Fmt) (kind a b : Nat) : Nat :=
  let sa := a.testBit (f.w - 1)
  let sb := b.testBit (f.w - 1)
  a % 2 ^ (f.w - 1) + f.sign (if kind = 0 then sb else if kind = 1 then !sb else sa != sb)
/-- Comparisons: kind 0 is ≤, 1 <, 2 =; ≤ and < are invalid on every NaN, = on signalling ones. -/
def rvCmp (f : Fmt) (kind a b : Nat) : Bool × Nat :=
  let x := f.decode a
  let y := f.decode b
  if x.isNan || y.isNan then (false, if kind != 2 || x.isSig || y.isSig then 16 else 0)
  else (if kind = 0 then x.lt y || x.eq y else if kind = 1 then x.lt y else x.eq y, 0)
def rvClass (f : Fmt) (a : Nat) : Nat :=
  match f.decode a with
  | .nan s => if s then 256 else 512
  | .inf n => if n then 1 else 128
  | .num n m _ =>
    if m = 0 then (if n then 8 else 16) else if f.subnormal a then (if n then 4 else 32) else if n then 2 else 64

/-! ## Conversions -/

/-- To an integer of n bits, as its pattern. -/
def rvToInt (f : Fmt) (md : Rnd) (n : Nat) (signed : Bool) (a : Nat) : Nat × Nat :=
  let lo : Int := if signed then -(2 ^ (n - 1) : Nat) else 0
  let hi : Int := if signed then (2 ^ (n - 1) : Nat) - 1 else (2 ^ n : Nat) - 1
  let pat := fun x : Int => (x % (2 ^ n : Nat)).toNat
  match f.decode a with
  | .nan _ => (pat hi, 16)
  | .inf neg => (pat (if neg then lo else hi), 16)
  | .num neg m e =>
    let r := roundAt md neg m e 0
    let v : Int := if neg then -(r.1 : Int) else r.1
    if v < lo then (pat lo, 16) else if hi < v then (pat hi, 16) else (pat v, if r.2 then 1 else 0)
def rvOfInt (f : Fmt) (md : Rnd) (v : Int) : Nat × Nat := rvDeliver f md (.num (v < 0) v.natAbs 0) false false
/-- Between formats. -/
def rvCvt (f g : Fmt) (md : Rnd) (a : Nat) : Nat × Nat := rvDeliver g md (f.decode a) (f.decode a).isSig false

/-! ## The estimates of V -/

/-- The 7 bits of an estimate of the square root of n / d. -/
def rvRoot7 (n d : Nat) : Nat := (Nat.sqrt (4 * n / d) + 1) / 2 % 128
/-- vfrsqrt7.v. -/
def rvRsqrt7 (f : Fmt) (a : Nat) : Nat × Nat :=
  match f.decode a with
  | .nan s => (rvNan f, if s then 16 else 0)
  | .inf n => if n then (rvNan f, 16) else (0, 0)
  | .num n m e =>
    if m = 0 then (f.sign n + f.inf, 8)
    else if n then (rvNan f, 16)
    else
      let t := topExp m e
      let sig := m * 2 ^ 60 / 2 ^ Nat.log2 m % 2 ^ 60 / 2 ^ 54
      let ex := t + f.bias
      let odd := ex % 2 != 0
      let out := if odd then rvRoot7 8388608 (129 + 2 * sig) else rvRoot7 4194304 (129 + 2 * sig)
      let oe := (3 * (f.bias : Int) - 1 - ex) / 2
      (oe.toNat * 2 ^ f.frac + out * 2 ^ (f.frac - 7), 0)
/-- vfrec7.v: an estimate below the range of normal numbers is subnormal, and of an operand that is too small an overflow. -/
def rvRec7 (f : Fmt) (md : Rnd) (a : Nat) : Nat × Nat :=
  match f.decode a with
  | .nan s => (rvNan f, if s then 16 else 0)
  | .inf n => (f.sign n, 0)
  | .num n m e =>
    if m = 0 then (f.sign n + f.inf, 8)
    else
      let ex := topExp m e + f.bias
      if ex < -1 then (f.overflow md false n, 5)
      else
        let sig := m * 2 ^ 60 / 2 ^ Nat.log2 m % 2 ^ 60 / 2 ^ 53
        let out := (2 * 65536 + (257 + 2 * sig)) / (2 * (257 + 2 * sig)) % 128
        let oe : Int := 2 * f.bias - 1 - ex
        let mant := (128 + out) * 2 ^ (f.frac - 7)
        (f.sign n + (if 1 ≤ oe then (oe.toNat - 1) * 2 ^ f.frac + mant else mant / 2 ^ (1 - oe).toNat), 0)

end Sys2Proof.Machine
end

