-- ==== Sys2Proof/Machine/RvWord.lean ====
section
/-! DEFINITION. The words of RV64 with M, F, D and C that act on registers alone, and the compressed forms (R407). Encodings and effects are RISC-V's: PRESUMED, log
entry 11. -/

namespace Sys2Proof.Machine

/-! ## The 32-bit word of a compressed form -/

def rvI (opc f3 rd rs1 imm : Nat) : Nat := imm % 4096 * 2 ^ 20 + rs1 * 2 ^ 15 + f3 * 2 ^ 12 + rd * 2 ^ 7 + opc
def rvR (opc f3 f7 rd rs1 rs2 : Nat) : Nat := f7 * 2 ^ 25 + rs2 * 2 ^ 20 + rs1 * 2 ^ 15 + f3 * 2 ^ 12 + rd * 2 ^ 7 + opc
def rvS (opc f3 rs1 rs2 imm : Nat) : Nat :=
  imm / 32 % 128 * 2 ^ 25 + rs2 * 2 ^ 20 + rs1 * 2 ^ 15 + f3 * 2 ^ 12 + imm % 32 * 2 ^ 7 + opc
def rvB (f3 rs1 imm : Nat) : Nat :=
  imm / 4096 % 2 * 2 ^ 31 + imm / 32 % 64 * 2 ^ 25 + rs1 * 2 ^ 15 + f3 * 2 ^ 12 + imm / 2 % 16 * 2 ^ 8 + imm / 2048 % 2 * 2 ^ 7 + 0x63
def rvJ (rd imm : Nat) : Nat :=
  imm / 2 ^ 20 % 2 * 2 ^ 31 + imm / 2 % 1024 * 2 ^ 21 + imm / 2 ^ 11 % 2 * 2 ^ 20 + imm / 2 ^ 12 % 256 * 2 ^ 12 + rd * 2 ^ 7 + 0x6F
/-- An n-bit field sign-extended to 32 bits. -/
def sx32 (n v : Nat) : Nat := if v % 2 ^ n < 2 ^ (n - 1) then v % 2 ^ n else v % 2 ^ n + 2 ^ 32 - 2 ^ n

/-- Quadrant 0. -/
def rvQuad0 (c : Nat) : Option Nat :=
  let rd := fld c 2 3 + 8
  let rs := fld c 7 3 + 8
  let w := fld c 10 3 * 8 + fld c 6 1 * 4 + fld c 5 1 * 64
  let d := fld c 10 3 * 8 + fld c 5 2 * 64
  match fld c 13 3 with
  | 0 =>
    let imm := fld c 11 2 * 16 + fld c 7 4 * 64 + fld c 6 1 * 4 + fld c 5 1 * 8
    if imm = 0 then none else some (rvI 0x13 0 rd 2 imm)
  | 1 => some (rvI 0x07 3 rd rs d)
  | 2 => some (rvI 0x03 2 rd rs w)
  | 3 => some (rvI 0x03 3 rd rs d)
  | 5 => some (rvS 0x27 3 rs rd d)
  | 6 => some (rvS 0x23 2 rs rd w)
  | 7 => some (rvS 0x23 3 rs rd d)
  | _ => none
/-- Quadrant 1. -/
def rvQuad1 (c : Nat) : Option Nat :=
  let rd := fld c 7 5
  let rs := fld c 7 3 + 8
  let r2 := fld c 2 3 + 8
  let u := fld c 12 1 * 32 + fld c 2 5
  let imm := sx32 6 u
  match fld c 13 3 with
  | 0 => some (rvI 0x13 0 rd rd imm)
  | 1 => if rd = 0 then none else some (rvI 0x1B 0 rd rd imm)
  | 2 => some (rvI 0x13 0 rd 0 imm)
  | 3 =>
    if rd = 2 then
      let v := fld c 12 1 * 512 + fld c 6 1 * 16 + fld c 5 1 * 64 + fld c 3 2 * 128 + fld c 2 1 * 32
      if v = 0 then none else some (rvI 0x13 0 2 2 (sx32 10 v))
    else if u = 0 then none else some (imm % 2 ^ 20 * 2 ^ 12 + rd * 2 ^ 7 + 0x37)
  | 4 =>
    (match fld c 10 2 with
     | 0 => some (rvI 0x13 5 rs rs u)
     | 1 => some (rvI 0x13 5 rs rs (0x400 + u))
     | 2 => some (rvI 0x13 7 rs rs imm)
     | _ =>
       match fld c 12 1 * 4 + fld c 5 2 with
       | 0 => some (rvR 0x33 0 0x20 rs rs r2)
       | 1 => some (rvR 0x33 4 0 rs rs r2)
       | 2 => some (rvR 0x33 6 0 rs rs r2)
       | 3 => some (rvR 0x33 7 0 rs rs r2)
       | 4 => some (rvR 0x3B 0 0x20 rs rs r2)
       | 5 => some (rvR 0x3B 0 0 rs rs r2)
       | _ => none)
  | 5 =>
    let v := fld c 12 1 * 2048 + fld c 11 1 * 16 + fld c 9 2 * 256 + fld c 8 1 * 1024 + fld c 7 1 * 64 + fld c 6 1 * 128 + fld c 3 3 * 2 +
      fld c 2 1 * 32
    some (rvJ 0 (sx32 12 v))
  | k =>
    let v := fld c 12 1 * 256 + fld c 10 2 * 8 + fld c 5 2 * 64 + fld c 3 2 * 2 + fld c 2 1 * 32
    some (rvB (k - 6) rs (sx32 9 v))
/-- Quadrant 2. -/
def rvQuad2 (c : Nat) : Option Nat :=
  let rd := fld c 7 5
  let r2 := fld c 2 5
  let d := fld c 12 1 * 32 + fld c 5 2 * 8 + fld c 2 3 * 64
  let w := fld c 12 1 * 32 + fld c 4 3 * 4 + fld c 2 2 * 64
  let sd := fld c 10 3 * 8 + fld c 7 3 * 64
  let sw := fld c 9 4 * 4 + fld c 7 2 * 64
  match fld c 13 3 with
  | 0 => some (rvI 0x13 1 rd rd (fld c 12 1 * 32 + r2))
  | 1 => some (rvI 0x07 3 rd 2 d)
  | 2 => if rd = 0 then none else some (rvI 0x03 2 rd 2 w)
  | 3 => if rd = 0 then none else some (rvI 0x03 3 rd 2 d)
  | 4 =>
    if fld c 12 1 = 0 then
      (if r2 = 0 then (if rd = 0 then none else some (rvI 0x67 0 0 rd 0)) else some (rvR 0x33 0 0 rd 0 r2))
    else if r2 = 0 then (if rd = 0 then some 0x00100073 else some (rvI 0x67 0 1 rd 0))
    else some (rvR 0x33 0 0 rd rd r2)
  | 5 => some (rvS 0x27 3 2 r2 sd)
  | 6 => some (rvS 0x23 2 2 r2 sw)
  | _ => some (rvS 0x23 3 2 r2 sd)
/-- The word that a compressed form stands for; none is reserved. -/
def rvExpand (c : Nat) : Option Nat :=
  match fld c 0 2 with
  | 0 => rvQuad0 c
  | 1 => rvQuad1 c
  | 2 => rvQuad2 c
  | _ => none

/-! ## Integer functions -/

/-- A 32-bit result in a register. -/
def sxW (n : Nat) : W64 := w64 (sext 32 n)
/-- OP and OP-IMM: the function and whether it is the other of a pair (SUB, SRA). -/
def rvAlu (f3 : Nat) (alt : Bool) (a b : W64) : W64 :=
  let sh := b.toNat % 64
  match f3 with
  | 0 => if alt then a - b else a + b
  | 1 => a <<< sh
  | 2 => if a.toInt < b.toInt then 1 else 0
  | 3 => if a.toNat < b.toNat then 1 else 0
  | 4 => a ^^^ b
  | 5 => if alt then a.sshiftRight sh else a >>> sh
  | 6 => a ||| b
  | _ => a &&& b
/-- Their 32-bit forms; the functions are ADD, SUB, SLL, SRL and SRA. -/
def rvAluW (f3 : Nat) (alt : Bool) (a b : W64) : W64 :=
  let x := a.toNat % 2 ^ 32
  let sh := b.toNat % 32
  if f3 = 0 then sxW (if alt then (a - b).toNat else (a + b).toNat)
  else if f3 = 1 then sxW (x * 2 ^ sh)
  else if alt then w64 (sext 32 x / (2 ^ sh : Nat)) else sxW (x / 2 ^ sh)
/-- Quotient and remainder toward zero; by zero they are -1 and the dividend. -/
def rvDivInt (a b : Int) : Int := if b = 0 then -1 else a.tdiv b
def rvRemInt (a b : Int) : Int := if b = 0 then a else a.tmod b
/-- M on n-bit operands, as an integer whose low n bits are the result. -/
def rvMulDiv (f3 n : Nat) (a b : Nat) : Int :=
  let x := sext n a
  let y := sext n b
  match f3 with
  | 0 => x * y
  | 1 => x * y / (2 ^ n : Nat)
  | 2 => x * (b : Nat) / (2 ^ n : Nat)
  | 3 => ((a * b / 2 ^ n : Nat) : Int)
  | 4 => rvDivInt x y
  | 5 => if b = 0 then -1 else ((a / b : Nat) : Int)
  | 6 => rvRemInt x y
  | _ => if b = 0 then (a : Int) else ((a % b : Nat) : Int)
/-- A conditional branch is taken; 2 and 3 name none. -/
def rvTaken (f3 : Nat) (a b : W64) : Option Bool :=
  match f3 with
  | 0 => some (a = b)
  | 1 => some (a != b)
  | 4 => some (a.toInt < b.toInt)
  | 5 => some (b.toInt ≤ a.toInt)
  | 6 => some (a.toNat < b.toNat)
  | 7 => some (b.toNat ≤ a.toNat)
  | _ => none

/-! ## Immediates -/

def immI (w : Nat) : W64 := w64 (sext 12 (fld w 20 12))
def immS (w : Nat) : W64 := w64 (sext 12 (fld w 25 7 * 32 + fld w 7 5))
def immB (w : Nat) : W64 := w64 (sext 13 (fld w 31 1 * 4096 + fld w 7 1 * 2048 + fld w 25 6 * 32 + fld w 8 4 * 2))
def immJ (w : Nat) : W64 := w64 (sext 21 (fld w 31 1 * 2 ^ 20 + fld w 12 8 * 4096 + fld w 20 1 * 2048 + fld w 21 10 * 2))
def immU (w : Nat) : W64 := sxW (fld w 12 20 * 4096)

/-! ## Registers -/

/-- The instruction of so many bytes retires. -/
def Hart.go (h : Hart) (len : Nat) : Hart := { h with pc := h.pc + BitVec.ofNat 64 len, waiting := none, minstret := h.minstret + 1 }
/-- A jump. -/
def Hart.jumpTo (h : Hart) (a : W64) : Hart := { h with pc := a, waiting := none, minstret := h.minstret + 1 }
/-- A floating-point register as a pattern of a format: a single is boxed in ones. -/
def Hart.rdF (h : Hart) (f : Fmt) (n : Nat) : Nat :=
  let v := vget 0 h.f n
  if f.w = 64 then v.toNat else if bfld v 32 32 = 0xFFFFFFFF then bfld v 0 32 else rvNan f
def Hart.wrF (h : Hart) (f : Fmt) (n x : Nat) : Hart :=
  { h with f := vset h.f n (numW (if f.w = 64 then x else x % 2 ^ 32 + 0xFFFFFFFF00000000)) }.dirtyF
/-- Flags accrue. -/
def Hart.accrue (h : Hart) (fl : Nat) : Hart := if fl = 0 then h else { h with fcsr := h.fcsr ||| numW (fl % 32) }.dirtyF
/-- Floating-point registers are on. -/
def Hart.fOn (h : Hart) : Bool := bfld h.mstatus stFS 2 != 0
/-- The rounding mode of a field: 7 is that of frm. -/
def Hart.rnd (h : Hart) (rm : Nat) : Option Rnd := rvRnd (if rm = 7 then bfld h.fcsr 5 3 else rm)

/-! ## Floating-point words -/

/-- OP-FP. -/
def Hart.opFp (h : Hart) (w : Nat) : Option Hart :=
  let f := if fld w 25 2 = 1 then fmtF64 else fmtF32
  let g := if fld w 25 2 = 1 then fmtF32 else fmtF64
  let d := fld w 7 5
  let f3 := fld w 12 3
  let s2 := fld w 20 5
  let a := h.rdF f (fld w 15 5)
  let b := h.rdF f s2
  let x := h.rd (fld w 15 5)
  let put := fun (r : Nat × Nat) => (h.wrF f d r.1).accrue r.2
  let rounded := fun (k : Rnd → Nat × Nat) => (h.rnd f3).map fun md => put (k md)
  if 2 ≤ fld w 25 2 then none
  else
    match fld w 27 5 with
    | 0 => rounded fun md => rvAdd f md a b
    | 1 => rounded fun md => rvSub f md a b
    | 2 => rounded fun md => rvMul f md a b
    | 3 => rounded fun md => rvDiv f md a b
    | 11 => if s2 = 0 then rounded fun md => rvSqrt f md a else none
    | 4 => if f3 ≤ 2 then some (h.wrF f d (rvSgnj f f3 a b)) else none
    | 5 => if f3 ≤ 1 then some (put (rvMinMax f (f3 = 1) a b)) else none
    | 8 => if s2 = 1 - fld w 25 1 then rounded fun md => rvCvt g f md (h.rdF g (fld w 15 5)) else none
    | 0x14 =>
      if 3 ≤ f3 then none
      else
        let r := rvCmp f f3 a b
        some ((h.wr d (numW (b2n r.1))).accrue r.2)
    | 0x18 =>
      if 4 ≤ s2 then none
      else
        (h.rnd f3).map fun md =>
          let n := if s2 < 2 then 32 else 64
          let r := rvToInt f md n (s2 % 2 = 0) a
          (h.wr d (w64 (sext n r.1))).accrue r.2
    | 0x1A =>
      if 4 ≤ s2 then none
      else
        let v : Int := match s2 with
          | 0 => sext 32 x.toNat
          | 1 => ((x.toNat % 2 ^ 32 : Nat) : Int)
          | 2 => x.toInt
          | _ => (x.toNat : Int)
        rounded fun md => rvOfInt f md v
    | 0x1C =>
      if s2 != 0 then none
      else if f3 = 0 then some (h.wr d (if f.w = 64 then vget 0 h.f (fld w 15 5) else sxW (bfld (vget 0 h.f (fld w 15 5)) 0 32)))
      else if f3 = 1 then some (h.wr d (numW (rvClass f a)))
      else none
    | 0x1E => if s2 = 0 && f3 = 0 then some (h.wrF f d x.toNat) else none
    | _ => none
/-- FMADD, FMSUB, FNMSUB and FNMADD by the low bits of their opcodes. -/
def Hart.fma (h : Hart) (w : Nat) : Option Hart :=
  let f := if fld w 25 2 = 1 then fmtF64 else fmtF32
  let k := fld w 2 2
  let a := h.rdF f (fld w 15 5)
  let b := h.rdF f (fld w 20 5)
  let c := h.rdF f (fld w 27 5)
  if 2 ≤ fld w 25 2 then none
  else
    (h.rnd (fld w 12 3)).map fun md =>
      let r := rvFma f md (if 2 ≤ k then rvNeg f a else a) b (if k = 1 || k = 3 then rvNeg f c else c)
      (h.wrF f (fld w 7 5) r.1).accrue r.2

/-! ## Words that act on registers alone -/

/-- The hart after such a word of so many bytes; none when the word is none of them. -/
def Hart.regWord (h : Hart) (w len : Nat) : Option Hart :=
  let d := fld w 7 5
  let f3 := fld w 12 3
  let f7 := fld w 25 7
  let a := h.rd (fld w 15 5)
  let b := h.rd (fld w 20 5)
  let put := fun v : W64 => some ((h.wr d v).go len)
  let link := h.pc + BitVec.ofNat 64 len
  match fld w 0 7 with
  | 0x37 => put (immU w)
  | 0x17 => put (h.pc + immU w)
  | 0x6F => some ((h.wr d link).jumpTo (h.pc + immJ w))
  | 0x67 => if f3 = 0 then some ((h.wr d link).jumpTo (setFld (a + immI w) 0 1 0)) else none
  | 0x63 => (rvTaken f3 a b).map fun t => if t then h.jumpTo (h.pc + immB w) else h.go len
  | 0x13 =>
    if f3 = 1 then (if fld w 26 6 = 0 then put (rvAlu 1 false a (immI w)) else none)
    else if f3 = 5 then
      (if fld w 26 6 = 0 then put (rvAlu 5 false a (immI w)) else if fld w 26 6 = 16 then put (rvAlu 5 true a (immI w)) else none)
    else put (rvAlu f3 false a (immI w))
  | 0x1B =>
    if f3 = 0 then put (rvAluW 0 false a (immI w))
    else if f3 = 1 && f7 = 0 then put (rvAluW 1 false a (immI w))
    else if f3 = 5 && (f7 = 0 || f7 = 32) then put (rvAluW 5 (f7 = 32) a (immI w))
    else none
  | 0x33 =>
    if f7 = 0 then put (rvAlu f3 false a b)
    else if f7 = 32 && (f3 = 0 || f3 = 5) then put (rvAlu f3 true a b)
    else if f7 = 1 then put (w64 (rvMulDiv f3 64 a.toNat b.toNat))
    else none
  | 0x3B =>
    if (f7 = 0 && (f3 = 0 || f3 = 1 || f3 = 5)) || (f7 = 32 && (f3 = 0 || f3 = 5)) then put (rvAluW f3 (f7 = 32) a b)
    else if f7 = 1 && (f3 = 0 || 4 ≤ f3) then
      put (w64 (sext 32 (rvMulDiv f3 32 (a.toNat % 2 ^ 32) (b.toNat % 2 ^ 32) % (2 ^ 32 : Nat)).toNat))
    else none
  | 0x53 => if h.fOn then (h.opFp w).map (·.go len) else none
  | 0x43 | 0x47 | 0x4B | 0x4F => if h.fOn then (h.fma w).map (·.go len) else none
  | _ => none

end Sys2Proof.Machine
end

