-- ==== Sys2Proof/Machine/RvVec.lean ====
section
/-! DEFINITION. The vector words of a host hart that act on registers, with VLEN 256 (R407). Encodings and effects are those of RISC-V's V: PRESUMED, log entry 11. Elements of
a tail, and those that a mask leaves out, keep their values; a word that V reserves raises the illegal-instruction exception. -/

namespace Sys2Proof.Machine

/-! ## Type and length -/

/-- SEW, and eight times LMUL; LMUL 4 of the field is reserved. -/
def sewOf (t : W64) : Nat := 8 * 2 ^ bfld t 3 3
def lmul8Of (t : W64) : Nat :=
  match bfld t 0 3 with
  | 0 => 8 | 1 => 16 | 2 => 32 | 3 => 64 | 5 => 1 | 6 => 2 | 7 => 4 | _ => 0
def Hart.sew (h : Hart) : Nat := sewOf h.vtype
def Hart.lmul8 (h : Hart) : Nat := lmul8Of h.vtype
/-- VLMAX. -/
def vlmaxOf (t : W64) : Nat := 32 * lmul8Of t / sewOf t
/-- A type that the hart has. -/
def vtypeOk (t : W64) : Bool := bfld t 8 56 = 0 && bfld t 3 3 ≤ 3 && bfld t 0 3 != 4 && sewOf t ≤ 8 * lmul8Of t
/-- Vector registers are on. -/
def Hart.vOn (h : Hart) : Bool := bfld h.mstatus stVS 2 != 0
/-- A vector word has been done: vstart is 0 again. -/
def Hart.vDone (h : Hart) : Hart := ({ h with vstart := 0 }.dirtyV).go 4
/-- VSETVLI, VSETIVLI and VSETVL. -/
def Hart.vset (h : Hart) (w : Nat) : Option Hart :=
  let d := fld w 7 5
  let r1 := fld w 15 5
  let set := fun (t : W64) (avl : Nat → Nat) =>
    if vtypeOk t then
      let n := min (avl (vlmaxOf t)) (vlmaxOf t)
      some ({ h with vtype := t, vl := numW n }.wr d (numW n)).vDone
    else some ({ h with vtype := 0x8000000000000000, vl := 0 }.wr d 0).vDone
  let avl := fun (m : Nat) => if r1 != 0 then (h.rd r1).toNat else if d != 0 then m else h.vl.toNat
  if fld w 31 1 = 0 then set (numW (fld w 20 11)) avl
  else if fld w 30 2 = 3 then set (numW (fld w 20 10)) fun _ => r1
  else if fld w 25 7 = 64 then set (h.rd (fld w 20 5)) avl
  else none

/-! ## Elements -/

/-- Element i of a register group of elements of so many bits. -/
def Hart.ve (h : Hart) (r n i : Nat) : Nat := (vget 0 h.v (r + i * n / 256)).toNat / 2 ^ (i * n % 256) % 2 ^ n
def Hart.veSet (h : Hart) (r n i x : Nat) : Hart :=
  let k := r + i * n / 256
  let o := i * n % 256
  let old := (vget 0 h.v k).toNat
  { h with v := Sys2Proof.Machine.vset h.v k (BitVec.ofNat 256 (old - old / 2 ^ o % 2 ^ n * 2 ^ o + x % 2 ^ n * 2 ^ o)) }
/-- Bit i of a mask register. -/
def Hart.vbit (h : Hart) (r i : Nat) : Bool := (vget 0 h.v r).getLsbD i
def Hart.vbitSet (h : Hart) (r i : Nat) (b : Bool) : Hart := h.veSet r 1 i (b2n b)
/-- The elements of the body that a mask leaves in: vm is the word's bit for none. -/
def Hart.active (h : Hart) (vm : Bool) (n : Nat) : List Nat :=
  (rangeFrom h.vstart.toNat (n - h.vstart.toNat)).filter fun i => vm || h.vbit 0 i
/-- Flags: the low five of fcsr, and bit 5 for vxsat. -/
def Hart.vFlags (h : Hart) (fl : Nat) : Hart :=
  let x := if fl.testBit 5 then { h with vcsr := h.vcsr ||| 1 } else h
  x.accrue (fl % 32)
/-- Each element of the body gets a value; the functions read the registers as they were. -/
def Hart.vMap (h : Hart) (d n : Nat) (vm : Bool) (g : Nat → Nat × Nat) : Hart :=
  (h.active vm h.vl.toNat).foldl (fun x i => (x.veSet d n i (g i).1).vFlags (g i).2) h
def Hart.vMaskMap (h : Hart) (d : Nat) (vm : Bool) (g : Nat → Bool × Nat) : Hart :=
  (h.active vm h.vl.toNat).foldl (fun x i => (x.vbitSet d i (g i).1).vFlags (g i).2) h
/-- A function without flags. -/
def quietly (g : Nat → Nat) (i : Nat) : Nat × Nat := (g i, 0)

/-! ## Register groups -/

/-- The registers of a group. -/
def vRegs (e : Nat) : Nat := max 1 (e / 8)
/-- A group of eight times its EMUL is one. -/
def vGrp (r e : Nat) : Bool := 1 ≤ e && e ≤ 64 && r % vRegs e = 0 && r + vRegs e ≤ 32
def vApart (d de s se : Nat) : Bool := d + vRegs de ≤ s || s + vRegs se ≤ d
/-- A destination may overlap a source of another width: a narrower one at the lowest registers, a wider one at the highest. -/
def vOver (d de dw s se sw : Nat) : Bool :=
  dw = sw || vApart d de s se || (if dw < sw then d = s else 8 ≤ se && s + vRegs se = d + vRegs de)
/-- A masked destination is not v0. -/
def vFree (vm : Bool) (d : Nat) : Bool := vm || d != 0

/-! ## Fixed point -/

/-- v / 2^k rounded by vxrm. -/
def vRound (rm : Nat) (v : Int) (k : Nat) : Int :=
  let q := v / (2 ^ k : Nat)
  let r := (v % (2 ^ k : Nat)).toNat
  let half := 2 ^ k / 2
  let up := match rm with
    | 0 => k != 0 && half ≤ r
    | 1 => k != 0 && (half < r || (r = half && q % 2 != 0))
    | 2 => false
    | _ => r != 0 && q % 2 = 0
  if up then q + 1 else q
/-- A value clipped to n bits, with vxsat. -/
def vClip (n : Nat) (signed : Bool) (v : Int) : Nat × Nat :=
  let lo : Int := if signed then -(2 ^ (n - 1) : Nat) else 0
  let hi : Int := if signed then (2 ^ (n - 1) : Nat) - 1 else (2 ^ n : Nat) - 1
  let c := max lo (min hi v)
  ((c % (2 ^ n : Nat)).toNat, if c = v then 0 else 32)
/-- The low n bits of an integer. -/
def vPat (n : Nat) (v : Int) : Nat := (v % (2 ^ n : Nat)).toNat

/-! ## Integer functions -/

/-- OPI functions of two elements of n bits: a of vs2, b of the other operand. -/
def vOpi (rm f6 n a b : Nat) : Option (Nat × Nat) :=
  let x := sext n a
  let y := sext n b
  let sh := b % n
  let one := fun v : Nat => some (v % 2 ^ n, 0)
  match f6 with
  | 0 => one (a + b)
  | 2 => one (vPat n (x - y))
  | 3 => one (vPat n (y - x))
  | 4 => one (min a b)
  | 5 => one (vPat n (min x y))
  | 6 => one (max a b)
  | 7 => one (vPat n (max x y))
  | 9 => one (a &&& b)
  | 10 => one (a ||| b)
  | 11 => one (a.xor b)
  | 32 => some (vClip n false (a + b))
  | 33 => some (vClip n true (x + y))
  | 34 => some (vClip n false ((a : Int) - b))
  | 35 => some (vClip n true (x - y))
  | 37 => one (a * 2 ^ sh)
  | 39 => some (vClip n true (vRound rm (x * y) (n - 1)))
  | 40 => one (a / 2 ^ sh)
  | 41 => one (vPat n (x / (2 ^ sh : Nat)))
  | 42 => one (vPat n (vRound rm a sh))
  | 43 => one (vPat n (vRound rm x sh))
  | _ => none
/-- Comparisons 24 to 31. -/
def vCmpi (f6 n a b : Nat) : Bool :=
  let x := sext n a
  let y := sext n b
  match f6 with
  | 24 => a = b
  | 25 => a != b
  | 26 => a < b
  | 27 => x < y
  | 28 => a ≤ b
  | 29 => x ≤ y
  | 30 => b < a
  | _ => y < x
/-- OPM functions of two elements. -/
def vOpm (rm f6 n a b : Nat) : Option Nat :=
  let x := sext n a
  let y := sext n b
  match f6 with
  | 8 => some (vPat n (vRound rm ((a : Int) + b) 1))
  | 9 => some (vPat n (vRound rm (x + y) 1))
  | 10 => some (vPat n (vRound rm ((a : Int) - b) 1))
  | 11 => some (vPat n (vRound rm (x - y) 1))
  | 32 => some (vPat n (rvMulDiv 5 n a b))
  | 33 => some (vPat n (rvMulDiv 4 n a b))
  | 34 => some (vPat n (rvMulDiv 7 n a b))
  | 35 => some (vPat n (rvMulDiv 6 n a b))
  | 36 => some (vPat n (rvMulDiv 3 n a b))
  | 37 => some (vPat n (rvMulDiv 0 n a b))
  | 38 => some (vPat n (rvMulDiv 2 n a b))
  | 39 => some (vPat n (rvMulDiv 1 n a b))
  | _ => none
/-- OPM functions that read their destination c. -/
def vMac (f6 n a b c : Nat) : Option Nat :=
  match f6 with
  | 41 => some (vPat n ((c : Int) * b + a))
  | 43 => some (vPat n ((a : Int) - c * b))
  | 45 => some (vPat n ((c : Int) + b * a))
  | 47 => some (vPat n ((c : Int) - b * a))
  | _ => none
/-- Reductions 0 to 7. -/
def vRed (f6 n a b : Nat) : Nat :=
  let x := sext n a
  let y := sext n b
  match f6 with
  | 0 => (a + b) % 2 ^ n
  | 1 => a &&& b
  | 2 => a ||| b
  | 3 => a.xor b
  | 4 => min a b
  | 5 => vPat n (min x y)
  | 6 => max a b
  | _ => vPat n (max x y)
/-- Widening functions of OPM, 48 to 63: the value of the wide result; a is of vs2 (wide itself for 52 to 55), b of the other operand, c the destination. -/
def vWide (f6 n a b c : Nat) : Option Int :=
  let x := sext n a
  let y := sext n b
  let xw := sext (2 * n) a
  match f6 with
  | 48 => some ((a : Int) + b)
  | 49 => some (x + y)
  | 50 => some ((a : Int) - b)
  | 51 => some (x - y)
  | 52 => some ((a : Int) + b)
  | 53 => some (xw + y)
  | 54 => some ((a : Int) - b)
  | 55 => some (xw - y)
  | 56 => some ((a : Int) * b)
  | 58 => some (x * b)
  | 59 => some (x * y)
  | 60 => some ((c : Int) + a * b)
  | 61 => some ((c : Int) + x * y)
  | 62 => some ((c : Int) + x * b)
  | 63 => some ((c : Int) + a * y)
  | _ => none

/-! ## The fields of a word -/

/-- A vector word's registers, and the operand that is no element of vs2. -/
structure VWord where
  d : Nat
  s2 : Nat
  s1 : Nat
  vm : Bool
  f3 : Nat
  f6 : Nat
  deriving DecidableEq, Repr

def VWord.of (w : Nat) : VWord := ⟨fld w 7 5, fld w 20 5, fld w 15 5, fld w 25 1 = 1, fld w 12 3, fld w 26 6⟩
/-- The operand is a vector. -/
def VWord.vv (v : VWord) : Bool := v.f3 ≤ 2
/-- The scalar operand as n bits: x[rs1], or the immediate, which is unsigned for some functions. -/
def Hart.vScalar (h : Hart) (v : VWord) (n : Nat) (unsigned : Bool) : Nat :=
  if v.f3 = 3 then (if unsigned then v.s1 else vPat n (sext 5 v.s1)) else (h.rd v.s1).toNat % 2 ^ n
/-- The other operand's element of n bits. -/
def Hart.vB (h : Hart) (v : VWord) (n : Nat) (unsigned : Bool) (i : Nat) : Nat := if v.vv then h.ve v.s1 n i else h.vScalar v n unsigned
/-- The group of the other operand, when it is a vector, is one that stands right beside the destination. -/
def VWord.bOk (v : VWord) (de dw e n : Nat) : Bool := !v.vv || (vGrp v.s1 e && vOver v.d de dw v.s1 e n)

/-! ## OPIVV, OPIVX and OPIVI -/

/-- Slides and gathers, a destination apart from its sources. -/
def Hart.vMove (h : Hart) (v : VWord) : Option Hart :=
  let n := h.sew
  let e := h.lmul8
  let m := vlmaxOf h.vtype
  let ok := vGrp v.d e && vGrp v.s2 e && vApart v.d e v.s2 e && vFree v.vm v.d
  let off := if v.f3 = 3 then v.s1 else (h.rd v.s1).toNat
  let at_ := fun i => if i < m then h.ve v.s2 n i else 0
  let map := fun (g : Nat → Nat) => some (h.vMap v.d n v.vm (quietly g))
  if v.f6 = 12 then
    (if !ok || (v.vv && !(vGrp v.s1 e && vApart v.d e v.s1 e)) then none
     else map fun i => at_ (if v.vv then h.ve v.s1 n i else off))
  else if v.f6 = 14 && v.vv then
    (let ie := e * 16 / n
     if !ok || !(vGrp v.s1 ie && vApart v.d e v.s1 ie) then none else map fun i => at_ (h.ve v.s1 16 i))
  else if v.vv then none
  else if v.f6 = 14 then (if ok then map fun i => if off ≤ i then h.ve v.s2 n (i - off) else h.ve v.d n i else none)
  else if vGrp v.d e && vGrp v.s2 e && vFree v.vm v.d then map fun i => at_ (i + off)
  else none

/-- The functions that take a carry, and merges. -/
def Hart.vCarry (h : Hart) (v : VWord) : Option Hart :=
  let n := h.sew
  let e := h.lmul8
  let a := fun i => h.ve v.s2 n i
  let b := fun i => h.vB v n false i
  let cin := fun i => if v.vm then 0 else b2n (h.vbit 0 i)
  let grp := vGrp v.s2 e && v.bOk e n e n
  let masks := grp && vOver v.d 8 1 v.s2 e n && v.bOk 8 1 e n
  match v.f6 with
  | 16 => if !v.vm && v.d != 0 && vGrp v.d e && grp then some (h.vMap v.d n true (quietly fun i => a i + b i + cin i)) else none
  | 18 =>
    if !v.vm && v.d != 0 && vGrp v.d e && grp && v.f3 != 3 then
      some (h.vMap v.d n true (quietly fun i => vPat n ((a i : Int) - b i - cin i)))
    else none
  | 17 => if masks then some (h.vMaskMap v.d true fun i => (decide (2 ^ n ≤ a i + b i + cin i), 0)) else none
  | 19 => if masks && v.f3 != 3 then some (h.vMaskMap v.d true fun i => (decide (a i < b i + cin i), 0)) else none
  | _ =>
    if v.vm then
      (if v.s2 = 0 && vGrp v.d e && v.bOk e n e n then some (h.vMap v.d n true (quietly b)) else none)
    else if v.d != 0 && vGrp v.d e && grp then some (h.vMap v.d n true (quietly fun i => if h.vbit 0 i then b i else a i))
    else none

/-- Narrowing shifts and clips: vs2 is twice as wide. -/
def Hart.vNarrow (h : Hart) (v : VWord) : Option Hart :=
  let n := h.sew
  let e := h.lmul8
  let rm := bfld h.vcsr 1 2
  if 64 ≤ n || !(vGrp v.d e && vGrp v.s2 (2 * e) && vOver v.d e n v.s2 (2 * e) (2 * n) && v.bOk e n e n && vFree v.vm v.d) then none
  else
    some (h.vMap v.d n v.vm fun i =>
      let a := h.ve v.s2 (2 * n) i
      let x := sext (2 * n) a
      let sh := h.vB v n true i % (2 * n)
      match v.f6 with
      | 44 => (a / 2 ^ sh % 2 ^ n, 0)
      | 45 => (vPat n (x / (2 ^ sh : Nat)), 0)
      | 46 => vClip n false (vRound rm a sh)
      | _ => vClip n true (vRound rm x sh))

/-- OPI words. -/
def Hart.vOpI (h : Hart) (v : VWord) : Option Hart :=
  let n := h.sew
  let e := h.lmul8
  let uns := v.f6 = 37 || 40 ≤ v.f6
  let imm := v.f3 = 3
  let absent := (imm && (v.f6 = 2 || within 4 7 v.f6 || v.f6 = 34 || v.f6 = 35 || v.f6 = 26 || v.f6 = 27)) ||
    (v.vv && (v.f6 = 3 || v.f6 = 30 || v.f6 = 31))
  if absent then none
  else if v.f6 = 12 || v.f6 = 14 || v.f6 = 15 then h.vMove v
  else if within 16 19 v.f6 || v.f6 = 23 then h.vCarry v
  else if within 24 31 v.f6 then
    (if vGrp v.s2 e && vOver v.d 8 1 v.s2 e n && v.bOk 8 1 e n then
      some (h.vMaskMap v.d v.vm fun i => (vCmpi v.f6 n (h.ve v.s2 n i) (h.vB v n false i), 0))
     else none)
  else if within 44 47 v.f6 then h.vNarrow v
  else if within 48 49 v.f6 then
    (if !v.vv || h.vstart != 0 || 64 ≤ n || !vGrp v.s2 e then none
     else if h.vl = 0 then some h
     else
       let ext := fun i => if v.f6 = 48 then (h.ve v.s2 n i : Int) else sext n (h.ve v.s2 n i)
       some (h.veSet v.d (2 * n) 0 (vPat (2 * n) ((h.active v.vm h.vl.toNat).foldl (fun acc i => acc + ext i) (h.ve v.s1 (2 * n) 0 : Int)))))
  else if !(vGrp v.d e && vGrp v.s2 e && v.bOk e n e n && vFree v.vm v.d) || (vOpi 0 v.f6 n 0 0).isNone then none
  else
    some (h.vMap v.d n v.vm fun i => (vOpi (bfld h.vcsr 1 2) v.f6 n (h.ve v.s2 n i) (h.vB v n uns i)).getD (0, 0))

/-! ## OPMVV and OPMVX -/

/-- VXUNARY0: extensions of elements of a fraction of SEW. -/
def Hart.vExt (h : Hart) (v : VWord) : Option Hart :=
  let n := h.sew
  let e := h.lmul8
  let k := if v.s1 / 2 = 1 then 8 else if v.s1 / 2 = 2 then 4 else 2
  if !(within 2 7 v.s1) || n < 8 * k || e < k ||
      !(vGrp v.d e && vGrp v.s2 (e / k) && vOver v.d e n v.s2 (e / k) (n / k) && vFree v.vm v.d) then none
  else
    some (h.vMap v.d n v.vm (quietly fun i =>
      let a := h.ve v.s2 (n / k) i
      if v.s1 % 2 = 1 then vPat n (sext (n / k) a) else a))
/-- VMUNARY0: set-before, set-only and set-including the first, iota, and the element's number. -/
def Hart.vMaskUnary (h : Hart) (v : VWord) : Option Hart :=
  let n := h.sew
  let e := h.lmul8
  let act := h.active v.vm h.vl.toNat
  let first := act.find? fun i => h.vbit v.s2 i
  let before := fun i => match first with | some j => decide (i < j) | none => true
  if v.s1 = 17 then (if v.s2 = 0 && vGrp v.d e && vFree v.vm v.d then some (h.vMap v.d n v.vm (quietly id)) else none)
  else if h.vstart != 0 || !vFree v.vm v.d then none
  else if within 1 3 v.s1 then
    (if v.d = v.s2 then none
     else some (h.vMaskMap v.d v.vm fun i =>
       (if v.s1 = 1 then before i else if v.s1 = 2 then first = some i else before i || first = some i, 0)))
  else if v.s1 = 16 then
    (if vGrp v.d e && vApart v.d e v.s2 8 then
      some (h.vMap v.d n v.vm (quietly fun i => (act.filter fun j => j < i && h.vbit v.s2 j).length))
     else none)
  else none
/-- Widening words. -/
def Hart.vWiden (h : Hart) (v : VWord) : Option Hart :=
  let n := h.sew
  let e := h.lmul8
  let se := if within 52 55 v.f6 then 2 * e else e
  let sn := if within 52 55 v.f6 then 2 * n else n
  if 64 ≤ n || !(vGrp v.d (2 * e) && vGrp v.s2 se && vOver v.d (2 * e) (2 * n) v.s2 se sn && v.bOk (2 * e) (2 * n) e n && vFree v.vm v.d) ||
      (vWide v.f6 n 0 0 0).isNone || (v.f6 = 62 && v.vv) then none
  else
    some (h.vMap v.d (2 * n) v.vm (quietly fun i =>
      vPat (2 * n) ((vWide v.f6 n (h.ve v.s2 sn i) (h.vB v n false i) (h.ve v.d (2 * n) i)).getD 0)))
/-- OPM words. -/
def Hart.vOpM (h : Hart) (v : VWord) : Option Hart :=
  let n := h.sew
  let e := h.lmul8
  let act := h.active v.vm h.vl.toNat
  let hits := act.filter fun i => h.vbit v.s2 i
  if v.f6 ≤ 7 then
    (if !v.vv || h.vstart != 0 || !vGrp v.s2 e then none
     else if h.vl = 0 then some h
     else some (h.veSet v.d n 0 (act.foldl (fun acc i => vRed v.f6 n acc (h.ve v.s2 n i)) (h.ve v.s1 n 0))))
  else if v.f6 = 14 || v.f6 = 15 then
    (if v.vv || !(vGrp v.d e && vGrp v.s2 e && vFree v.vm v.d) || (v.f6 = 14 && !vApart v.d e v.s2 e) then none
     else
       let x := (h.rd v.s1).toNat % 2 ^ n
       some (h.vMap v.d n v.vm (quietly fun i =>
         if v.f6 = 14 then (if i = 0 then x else h.ve v.s2 n (i - 1))
         else if i + 1 = h.vl.toNat then x else h.ve v.s2 n (i + 1))))
  else if v.f6 = 16 && v.vv then
    (if v.s1 = 0 && v.vm then some (h.wr v.d (w64 (sext n (h.ve v.s2 n 0))))
     else if h.vstart != 0 then none
     else if v.s1 = 16 then some (h.wr v.d (numW hits.length))
     else if v.s1 = 17 then some (h.wr v.d (match hits with | i :: _ => numW i | [] => -1))
     else none)
  else if v.f6 = 16 then
    (if v.s2 = 0 && v.vm then
      some (if h.vl = 0 || h.vstart.toNat ≥ h.vl.toNat then h else h.veSet v.d n 0 (h.rd v.s1).toNat)
     else none)
  else if v.f6 = 18 then (if v.vv then h.vExt v else none)
  else if v.f6 = 20 then (if v.vv then h.vMaskUnary v else none)
  else if v.f6 = 23 then
    (if !v.vv || !v.vm || h.vstart != 0 || !(vGrp v.d e && vGrp v.s2 e && vApart v.d e v.s2 e && vApart v.d e v.s1 8) then none
     else
       let on := (List.range h.vl.toNat).filter fun i => h.vbit v.s1 i
       some ((on.zip (List.range on.length)).foldl (fun x p => x.veSet v.d n p.2 (h.ve v.s2 n p.1)) h))
  else if within 24 31 v.f6 then
    (if !v.vv || !v.vm then none
     else some (h.vMaskMap v.d true fun i =>
       let a := h.vbit v.s2 i
       let b := h.vbit v.s1 i
       (match v.f6 with
        | 24 => a && !b | 25 => a && b | 26 => a || b | 27 => a != b
        | 28 => a || !b | 29 => !(a && b) | 30 => !(a || b) | _ => a = b, 0)))
  else if 48 ≤ v.f6 then h.vWiden v
  else if !(vGrp v.d e && vGrp v.s2 e && v.bOk e n e n && vFree v.vm v.d) then none
  else if (vOpm 0 v.f6 n 0 0).isSome then
    some (h.vMap v.d n v.vm (quietly fun i => (vOpm (bfld h.vcsr 1 2) v.f6 n (h.ve v.s2 n i) (h.vB v n false i)).getD 0))
  else if (vMac v.f6 n 0 0 0).isSome then
    some (h.vMap v.d n v.vm (quietly fun i => (vMac v.f6 n (h.ve v.s2 n i) (h.vB v n false i) (h.ve v.d n i)).getD 0))
  else none

/-! ## OPFVV and OPFVF -/

/-- The format of elements of 32 or 64 bits. -/
def vFmt (n : Nat) : Fmt := if n = 64 then fmtF64 else fmtF32
/-- The other operand of a floating-point word. -/
def Hart.vBf (h : Hart) (v : VWord) (n i : Nat) : Nat := if v.vv then h.ve v.s1 n i else h.rdF (vFmt n) v.s1
/-- Functions of two elements. -/
def vOpf (f : Fmt) (md : Rnd) (f6 a b : Nat) : Option (Nat × Nat) :=
  match f6 with
  | 0 => some (rvAdd f md a b)
  | 2 => some (rvSub f md a b)
  | 4 => some (rvMinMax f false a b)
  | 6 => some (rvMinMax f true a b)
  | 8 => some (rvSgnj f 0 a b, 0)
  | 9 => some (rvSgnj f 1 a b, 0)
  | 10 => some (rvSgnj f 2 a b, 0)
  | 32 => some (rvDiv f md a b)
  | 33 => some (rvDiv f md b a)
  | 36 => some (rvMul f md a b)
  | 39 => some (rvSub f md b a)
  | _ => none
/-- Fused functions 40 to 47: the low two bits are the signs of the product and of the addend. -/
def vFma (f : Fmt) (md : Rnd) (k x y z : Nat) : Nat × Nat :=
  let p := if k = 1 || k = 3 then rvNeg f x else x
  let c := if k = 1 || k = 2 then rvNeg f z else z
  rvFma f md p y c
/-- VFUNARY0: conversions of one width, to twice and to half of it. -/
def Hart.vCvt (h : Hart) (v : VWord) (md : Rnd) : Option Hart :=
  let n := h.sew
  let e := h.lmul8
  let k := v.s1 % 8
  let kind := v.s1 / 8
  let dn := if kind = 1 then 2 * n else n
  let de := if kind = 1 then 2 * e else e
  let sn := if kind = 2 then 2 * n else n
  let se := if kind = 2 then 2 * e else e
  let ints := k = 2 || k = 3
  let floats := k = 4 || k = 5
  let ok := kind ≤ 2 && dn ≤ 64 && sn ≤ 64 && vGrp v.d de && vGrp v.s2 se && vOver v.d de dn v.s2 se sn && vFree v.vm v.d &&
    (ints || 32 ≤ sn) && (k = 0 || k = 1 || k = 6 || k = 7 || 32 ≤ dn) &&
    (if floats then (kind = 1 && k = 4) || kind = 2 else true)
  if !ok then none
  else
    some (h.vMap v.d dn v.vm fun i =>
      let a := h.ve v.s2 sn i
      if k = 2 then rvOfInt (vFmt dn) md a
      else if k = 3 then rvOfInt (vFmt dn) md (sext sn a)
      else if floats then rvCvt (vFmt sn) (vFmt dn) (if k = 5 then .rno else md) a
      else rvToInt (vFmt sn) (if 6 ≤ k then .rtz else md) dn (k % 2 = 1) a)
/-- Widening floating-point words. -/
def Hart.vWidenF (h : Hart) (v : VWord) (md : Rnd) : Option Hart :=
  let n := h.sew
  let e := h.lmul8
  let wide := v.f6 = 52 || v.f6 = 54
  let sn := if wide then 64 else 32
  let se := if wide then 2 * e else e
  let known := v.f6 = 48 || v.f6 = 50 || wide || v.f6 = 56 || 60 ≤ v.f6
  if n != 32 || !known || !(vGrp v.d (2 * e) && vGrp v.s2 se && vOver v.d (2 * e) 64 v.s2 se sn && v.bOk (2 * e) 64 e n && vFree v.vm v.d) then none
  else
    some (h.vMap v.d 64 v.vm fun i =>
      let a := if wide then (h.ve v.s2 64 i, 0) else rvCvt fmtF32 fmtF64 .rne (h.ve v.s2 32 i)
      let b := rvCvt fmtF32 fmtF64 .rne (h.vBf v 32 i)
      let c := h.ve v.d 64 i
      let r := match v.f6 with
        | 48 | 52 => rvAdd fmtF64 md a.1 b.1
        | 50 | 54 => rvSub fmtF64 md a.1 b.1
        | 56 => rvMul fmtF64 md a.1 b.1
        | k => vFma fmtF64 md (k % 4) a.1 b.1 c
      (r.1, r.2 ||| a.2 ||| b.2))
/-- Floating-point reductions; the unordered sums are taken in order too. -/
def Hart.vRedF (h : Hart) (v : VWord) (md : Rnd) : Option Hart :=
  let n := h.sew
  let wide := 48 ≤ v.f6
  let dn := if wide then 2 * n else n
  let f := vFmt dn
  if !v.vv || h.vstart != 0 || !vGrp v.s2 h.lmul8 || (wide && n != 32) then none
  else if h.vl = 0 then some h
  else
    let r := (h.active v.vm h.vl.toNat).foldl (fun (acc : Nat × Nat) i =>
      let a := if wide then rvCvt fmtF32 fmtF64 .rne (h.ve v.s2 n i) else (h.ve v.s2 n i, 0)
      let y := match v.f6 with
        | 5 => rvMinMax f false acc.1 a.1
        | 7 => rvMinMax f true acc.1 a.1
        | _ => rvAdd f md acc.1 a.1
      (y.1, acc.2 ||| y.2 ||| a.2)) (h.ve v.s1 dn 0, 0)
    some ((h.veSet v.d dn 0 r.1).vFlags r.2)
/-- OPF words: elements are of 32 or 64 bits, but for the integers of a conversion. -/
def Hart.vOpF (h : Hart) (v : VWord) : Option Hart :=
  let n := h.sew
  let e := h.lmul8
  let f := vFmt n
  let two := vGrp v.d e && vGrp v.s2 e && v.bOk e n e n && vFree v.vm v.d
  match h.rnd 7 with
  | none => none
  | some md =>
    if v.f6 = 18 then (if v.vv then h.vCvt v md else none)
    else if n < 32 then none
    else if v.f6 = 1 || v.f6 = 3 || v.f6 = 5 || v.f6 = 7 || v.f6 = 49 || v.f6 = 51 then h.vRedF v md
    else if v.f6 = 14 || v.f6 = 15 then
      (if v.vv || !two || (v.f6 = 14 && !vApart v.d e v.s2 e) then none
       else some (h.vMap v.d n v.vm (quietly fun i =>
         if v.f6 = 14 then (if i = 0 then h.rdF f v.s1 else h.ve v.s2 n (i - 1))
         else if i + 1 = h.vl.toNat then h.rdF f v.s1 else h.ve v.s2 n (i + 1))))
    else if v.f6 = 16 then
      (if !v.vm then none
       else if v.vv then (if v.s1 = 0 then some (h.wrF f v.d (h.ve v.s2 n 0)) else none)
       else if v.s2 = 0 then some (if h.vl.toNat ≤ h.vstart.toNat then h else h.veSet v.d n 0 (h.rdF f v.s1))
       else none)
    else if v.f6 = 19 then
      (if !v.vv || !(vGrp v.d e && vGrp v.s2 e && vFree v.vm v.d) then none
       else
         let map := fun (g : Nat → Nat × Nat) => some (h.vMap v.d n v.vm fun i => g (h.ve v.s2 n i))
         if v.s1 = 0 then map (rvSqrt f md) else if v.s1 = 4 then map (rvRsqrt7 f) else if v.s1 = 5 then map (rvRec7 f md)
         else if v.s1 = 16 then map fun a => (rvClass f a, 0) else none)
    else if v.f6 = 23 then
      (if v.vv || !vGrp v.d e then none
       else if v.vm then (if v.s2 = 0 then some (h.vMap v.d n true (quietly fun _ => h.rdF f v.s1)) else none)
       else if v.d != 0 && vGrp v.s2 e then
         some (h.vMap v.d n true (quietly fun i => if h.vbit 0 i then h.rdF f v.s1 else h.ve v.s2 n i))
       else none)
    else if within 24 31 v.f6 then
      (if v.f6 = 26 || v.f6 = 30 || (v.vv && (v.f6 = 29 || v.f6 = 31)) || !(vGrp v.s2 e && vOver v.d 8 1 v.s2 e n && v.bOk 8 1 e n) then none
       else some (h.vMaskMap v.d v.vm fun i =>
         let a := h.ve v.s2 n i
         let b := h.vBf v n i
         match v.f6 with
         | 24 => rvCmp f 2 a b
         | 25 => rvCmp f 0 a b
         | 27 => rvCmp f 1 a b
         | 28 => (!(rvCmp f 2 a b).1, (rvCmp f 2 a b).2)
         | 29 => rvCmp f 1 b a
         | _ => rvCmp f 0 b a))
    else if 48 ≤ v.f6 then h.vWidenF v md
    else if !two then none
    else if 40 ≤ v.f6 then
      some (h.vMap v.d n v.vm fun i =>
        let a := h.ve v.s2 n i
        let b := h.vBf v n i
        let c := h.ve v.d n i
        if v.f6 < 44 then vFma f md (v.f6 % 4) c b a else vFma f md (v.f6 % 4) a b c)
    else if (vOpf f md v.f6 0 0).isNone || (v.vv && (v.f6 = 33 || v.f6 = 39)) then none
    else some (h.vMap v.d n v.vm fun i => (vOpf f md v.f6 (h.ve v.s2 n i) (h.vBf v n i)).getD (0, 0))

/-! ## Words -/

/-- Whole registers are copied: as many as the immediate says, one more. -/
def Hart.vCopy (h : Hart) (v : VWord) : Option Hart :=
  let k := v.s1 + 1
  if !v.vm || !(k = 1 || k = 2 || k = 4 || k = 8) || v.d % k != 0 || v.s2 % k != 0 then none
  else
    let skip := h.vstart.toNat * (if bbit h.vtype 63 then 8 else h.sew)
    some ((List.range (8 * k)).foldl (fun x i => if 32 * i < skip then x else x.veSet v.d 32 i (h.ve v.s2 32 i)) h)
/-- The hart after a vector word that acts on registers; none when it is none. -/
def Hart.vecWord (h : Hart) (w : Nat) : Option Hart :=
  let v := VWord.of w
  if !h.vOn then none
  else if v.f3 = 7 then h.vset w
  else if v.f3 = 3 && v.f6 = 39 then (h.vCopy v).map Hart.vDone
  else if bbit h.vtype 63 then none
  else
    (match v.f3 with
     | 0 | 3 | 4 => h.vOpI v
     | 2 | 6 => h.vOpM v
     | _ => if h.fOn then h.vOpF v else none).map Hart.vDone

end Sys2Proof.Machine
end

