-- ==== Sys2Proof/Machine/RvStep.lean ====
section
/-! DEFINITION. The words of RISC-V that a host hart executes: loads and stores, atomics, fences, system words and vector accesses (R209, R241, R407). Encodings and
effects are RISC-V's: PRESUMED, log entry 11. -/

namespace Sys2Proof.Machine

/-- An illegal instruction. -/
def State.rvIllegal (s : State) (h raw : Nat) : Res := .next (s.hartRaise h 2 (numW raw))

/-! ## Loads and stores -/

/-- A load of n bytes and what becomes of the hart with them. -/
def State.rvLoad (s : State) (h n : Nat) (va : W64) (f : Hart → List Byte → Hart) : Res :=
  s.hartLoad h va n 1 fun s bs => s.modHart h fun x => f x bs
/-- A store; one that ends the transaction leaves the hart where the abort puts it. -/
def State.rvStore (s : State) (h len : Nat) (va : W64) (bs : List Byte) : Res :=
  s.hartStore h va 1 bs fun s ps =>
    let s1 := s.hartWrite h ps bs
    if (s.hart h).tx.isSome && (s1.hart h).tx.isNone then s1 else s1.modHart h (·.go len)

/-! ## Vector loads and stores -/

/-- A vector access: its elements by number and field, in their order; the bits and the register of each, its address; whether a fault behind the first element
shortens vl instead of being taken. -/
structure VAcc where
  load : Bool
  n : Nat
  first : Bool
  els : List (Nat × Nat)
  reg : Nat → Nat
  at_ : Nat → Nat → W64

/-- The element's access raises an exception. -/
def State.hartFaults (s : State) (h : Nat) (k : HKind) (e : Eff) (va : W64) (n : Nat) : Bool :=
  match s.hartAccess h k va n 1 with
  | .trap _ _ => true
  | .ok ps => !s.hartMay h ps e || (k = .load && s.hartPoison h ps)
/-- The word stops at an element, at which it starts again; one whose transaction has ended does not. -/
def State.vecStop (s0 s : State) (h i : Nat) : State :=
  if (s0.hart h).tx.isSome && (s.hart h).tx.isNone then s else s.modHart h fun x => { x with vstart := numW i }.dirtyV
/-- The elements of an access, one after the other. -/
def State.vecEls (h : Nat) (a : VAcc) : List (Nat × Nat) → State → State
  | [], s => s.modHart h Hart.vDone
  | (i, k) :: r, s =>
    let va := a.at_ i k
    let bytes := a.n / 8
    if a.first && i != 0 && s.hartFaults h .load .load va bytes then s.modHart h fun x => { x with vl := numW i }.vDone
    else if a.load then
      match s.hartGate h .load .load va bytes 1 with
      | .stop s' => s.vecStop s' h i
      | .go s1 ps =>
        if s1.hartPoison h ps then s1.vecStop (s1.hartRaise h 5 va) h i
        else
          let x := s1.hartRead h ps
          State.vecEls h a r (x.1.modHart h (·.veSet (a.reg k) a.n i (leNat x.2)))
    else
      let bs := leBytes bytes ((s.hart h).ve (a.reg k) a.n i)
      match s.hartGate h .store .store va bytes 1 with
      | .stop s' => s.vecStop s' h i
      | .go s1 ps =>
        let s2 := s1.hartWrite h ps bs
        if (s1.hart h).tx.isSome && (s2.hart h).tx.isNone then s2 else State.vecEls h a r s2
/-- The elements that an access makes: those of the body that the mask leaves in, every field of each. -/
def vecBody (els : List Nat) (nf : Nat) : List (Nat × Nat) := els.flatMap fun i => (List.range nf).map fun k => (i, k)
/-- The accesses of a vector word; none when it is reserved. -/
def Hart.vecAcc (x : Hart) (w : Nat) (load : Bool) : Option VAcc :=
  let d := fld w 7 5
  let f3 := fld w 12 3
  let eew := if f3 = 0 then 8 else 8 * 2 ^ (f3 - 4)
  let nf := fld w 29 3 + 1
  let mop := fld w 26 2
  let sub := fld w 20 5
  let vm := fld w 25 1 = 1
  let base := x.rd (fld w 15 5)
  let bad := bbit x.vtype 63
  let e := if mop % 2 = 1 then x.lmul8 else x.lmul8 * eew / x.sew
  let n := if mop % 2 = 1 then x.sew else eew
  let regs := vRegs e
  let reg := fun k => d + k * regs
  let grp := !bad && vGrp d e && nf * regs ≤ 8 && d + nf * regs ≤ 32 && (vm || !load || d != 0)
  let body := vecBody (x.active vm x.vl.toNat) nf
  let off := fun i k step => base + step * BitVec.ofNat 64 i + BitVec.ofNat 64 (k * (n / 8))
  if within 1 4 f3 || fld w 28 1 = 1 then none
  else if mop = 0 && sub = 8 then
    (if !vm || !(nf = 1 || nf = 2 || nf = 4 || nf = 8) || d % nf != 0 || (!load && f3 != 0) then none
     else
       let all := rangeFrom x.vstart.toNat (nf * 256 / eew - x.vstart.toNat)
       some ⟨load, eew, false, vecBody all 1, fun _ => d, fun i _ => base + BitVec.ofNat 64 (i * (eew / 8))⟩)
  else if mop = 0 && sub = 11 then
    (if bad || !vm || nf != 1 || f3 != 0 then none
     else
       let n8 := (x.vl.toNat + 7) / 8
       some ⟨load, 8, false, vecBody (rangeFrom x.vstart.toNat (n8 - x.vstart.toNat)) 1, fun _ => d, fun i _ => base + BitVec.ofNat 64 i⟩)
  else if !grp then none
  else if mop = 0 then
    (if sub = 0 || (sub = 16 && load) then
      some ⟨load, n, sub = 16, body, reg, fun i k => off i k (BitVec.ofNat 64 (nf * (n / 8)))⟩
     else none)
  else if mop = 2 then some ⟨load, n, false, body, reg, fun i k => off i k (x.rd sub)⟩
  else
    let ie := x.lmul8 * eew / x.sew
    if !vGrp sub ie || (load && !(if nf = 1 then vOver d e n sub ie eew else vApart d (8 * nf * regs) sub ie)) then none
    else some ⟨load, n, false, body, reg, fun i k => off i k 0 + BitVec.ofNat 64 (x.ve sub eew i)⟩
/-- A vector load or store. -/
def State.vecMem (s : State) (h w : Nat) (load : Bool) : Res :=
  if !(s.hart h).vOn then s.rvIllegal h w
  else
    match (s.hart h).vecAcc w load with
    | none => s.rvIllegal h w
    | some a => .next (s.vecEls h a a.els)

/-! ## Atomics and system words -/

/-- The integer function of an AMO word. -/
def rvAmoOp (f5 n : Nat) : Option AtomOp :=
  let u : IntTy := if n = 8 then .n64 else .n32
  let i : IntTy := if n = 8 then .i64 else .i32
  match f5 with
  | 0 => some (.int .add u)
  | 1 => some (.swap u)
  | 4 => some (.int .xor u)
  | 8 => some (.int .or u)
  | 12 => some (.int .and u)
  | 16 => some (.int .min i)
  | 20 => some (.int .max i)
  | 24 => some (.int .min u)
  | 28 => some (.int .max u)
  | _ => none
/-- LR, SC and AMO words. -/
def State.rvAtomic (s : State) (h w : Nat) : Res :=
  let x := s.hart h
  let d := fld w 7 5
  let a := (x.rd (fld w 15 5)).toNat
  let v := x.rd (fld w 20 5)
  let aq := fld w 26 1 = 1
  let rl := fld w 25 1 = 1
  let f5 := fld w 27 5
  let n := if fld w 12 3 = 3 then 8 else 4
  if fld w 12 3 != 2 && fld w 12 3 != 3 then s.rvIllegal h w
  else if f5 = 2 then (if fld w 20 5 = 0 then s.hostOp h (.lr d a n aq rl) else s.rvIllegal h w)
  else if f5 = 3 then s.hostOp h (.sc d a n v aq rl)
  else
    match rvAmoOp f5 n with
    | some op => s.hostOp h (.amo d a n op v aq rl)
    | none => s.rvIllegal h w

/-- The CSR instructions: function 1 writes, 2 sets and 3 clears; those of 4 and above take the number of rs1 for a value. -/
def State.rvCsr (s : State) (h w : Nat) : Res :=
  let x := s.hart h
  let n := fld w 20 12
  let f3 := fld w 12 3
  let v := if 4 ≤ f3 then numW (fld w 15 5) else x.rd (fld w 15 5)
  let writes := f3 % 4 = 1 || fld w 15 5 != 0
  if !x.csrMay n writes then s.rvIllegal h w
  else
    let old := s.csrRead h n
    let new := match f3 % 4 with | 1 => v | 2 => old ||| v | _ => old &&& ~~~v
    let s1 := if writes then s.csrStore h n new else s
    .next (s1.modHart h fun y => (y.wr (fld w 7 5) old).go 4)
/-- SYSTEM words. WFI may end at once; SFENCE.VMA has nothing to order, since walks read the tables. -/
def State.rvSystem (s : State) (h w raw : Nat) : Res :=
  let x := s.hart h
  let low := fun bit => x.mode = .u || (x.mode = .s && bbit x.mstatus bit)
  if fld w 12 3 != 0 then (if fld w 12 3 = 4 then s.rvIllegal h raw else s.rvCsr h w)
  else if w = 0x73 then .next (s.hartRaise h (8 + Mode.rank x.mode) 0)
  else if w = 0x00100073 then .next (s.hartRaise h 3 x.pc)
  else if w = 0x10200073 then (if low stTSR then s.rvIllegal h raw else .next (s.modHart h Hart.sret))
  else if w = 0x30200073 then s.hostOp h .mret
  else if w = 0x10500073 then (if x.mode != .m && bbit x.mstatus stTW then s.rvIllegal h raw else s.hostOp h .barred)
  else if fld w 25 7 = 9 && fld w 7 5 = 0 then (if low stTVM then s.rvIllegal h raw else s.hostOp h .barred)
  else s.rvIllegal h raw

/-! ## Words -/

/-- A word that is no dx instruction; `raw` is what was fetched, and `len` its bytes. -/
def State.rvRun (s : State) (h w len raw : Nat) : Res :=
  let x := s.hart h
  let d := fld w 7 5
  let f3 := fld w 12 3
  let r2 := fld w 20 5
  let base := x.rd (fld w 15 5)
  match x.regWord w len with
  | some y => .next (s.modHart h fun _ => y)
  | none =>
    match fld w 0 7 with
    | 0x03 =>
      if f3 = 7 then s.rvIllegal h raw
      else s.rvLoad h (2 ^ (f3 % 4)) (base + immI w) fun y bs => (y.wr d (loaded (2 ^ (f3 % 4)) (f3 < 4) bs)).go len
    | 0x23 =>
      if 4 ≤ f3 then s.rvIllegal h raw else s.rvStore h len (base + immS w) (leBytes (2 ^ f3) (x.rd r2).toNat)
    | 0x07 =>
      if f3 = 2 || f3 = 3 then
        (if x.fOn then
          s.rvLoad h (2 ^ f3) (base + immI w) fun y bs => (y.wrF (if f3 = 3 then fmtF64 else fmtF32) d (leNat bs)).go len
         else s.rvIllegal h raw)
      else s.vecMem h w true
    | 0x27 =>
      if f3 = 2 || f3 = 3 then
        (if x.fOn then s.rvStore h len (base + immS w) (leBytes (2 ^ f3) (vget 0 x.f r2).toNat) else s.rvIllegal h raw)
      else s.vecMem h w false
    | 0x2F => s.rvAtomic h w
    | 0x0F =>
      if f3 = 0 then s.hostOp h (.fence (fld w 24 4) (fld w 20 4)) else if f3 = 1 then s.hostOp h .barred else s.rvIllegal h raw
    | 0x73 => s.rvSystem h w raw
    | 0x57 => (match x.vecWord w with | some y => .next (s.modHart h fun _ => y) | none => s.rvIllegal h raw)
    | _ => s.rvIllegal h raw

/-- What a hart has fetched is run: a compressed form as the word that it stands for. -/
def State.rvWord (s : State) (h raw : Nat) : Res :=
  if fld raw 0 2 = 3 then s.rvRun h raw 4 raw
  else
    match rvExpand raw with
    | some w => s.rvRun h w 2 raw
    | none => s.rvIllegal h raw

end Sys2Proof.Machine
end

