-- ==== Sys2Proof/WellFormed.lean ====
section
/-! DEFINITION. Well-formed instructions: the operand values the encodings admit (R27 to R41), and for the steps of the hardware
the numbers the module has (R2, R4). -/

namespace Sys2Proof

/-- A field of n bits. -/
def bits (n v : Nat) : Bool := v < 2 ^ n

/-- R38. -/
def Ext.wf (e : Ext) : Bool := bits 3 e.mask && bits 7 e.vc && e.atom < 3
/-- R41. -/
def Rep.wf (r : Rep) : Bool := bits 6 r.last && bits 3 r.sd && bits 3 r.sa && bits 3 r.sb
def extWf : Option Ext → Bool
  | some e => e.wf
  | none => true
def Pre.wf (p : Pre) : Bool := (match p.rep with | some r => r.wf | none => true) && extWf p.ext
/-- An LB, LT or LE form and JMPV take no REP (R37). -/
def Pre.wfNoRep (p : Pre) : Bool := p.rep.isNone && extWf p.ext

/-- A register number of n bits or an immediate of n bits below a limit. -/
def Opnd.wf (n lim : Nat) : Opnd → Bool
  | .reg r => bits n r
  | .imm v => v < lim
/-- An operand that is a register. -/
def Opnd.isReg (n : Nat) : Opnd → Bool
  | .reg r => bits n r
  | .imm _ => false
/-- A register, or an immediate of 1 to 32 (R117, R124). -/
def Opnd.oneTo32 : Opnd → Bool
  | .reg r => bits 7 r
  | .imm v => 1 ≤ v && v ≤ 32

def UR.wf (f : UR) (lim : Nat) : Bool := bits 8 f.d && bits 8 f.a && f.b.wf 8 lim
def UM.wf (f : UM) : Bool := bits 8 f.d && bits 8 f.a && bits 9 f.off && extWf f.ext
def LRI.wf (f : LRI) : Bool := f.pre.wf && bits 7 f.d && bits 7 f.a && f.b.wf 7 128
def LRF.wf (f : LRF) (lo hi : Nat) : Bool :=
  f.pre.wf && bits 7 f.d && bits 7 f.a && bits 7 f.b && lo ≤ f.t.code && f.t.code ≤ hi
def LRN.wf (f : LRN) : Bool := f.pre.wf && bits 7 f.d && bits 7 f.a
def LM.wf (f : LM) : Bool := f.pre.wf && bits 7 f.d && bits 7 f.a && f.b.wf 7 128
def RedOp.wf : RedOp → Bool
  | .int _ t => wideTy t
  | .flt _ _ => true
def AtomOp.wf : AtomOp → Bool
  | .int _ t | .swap t | .cas t => wideTy t
  | .flt _ _ => true
def LA.wf (f : LA) : Bool := f.pre.wf && bits 7 f.d && bits 7 f.a && f.op.wf
def Red.wf (f : Red) (scan : Bool) : Bool := f.pre.wf && bits 7 f.d && bits 7 f.a && f.op.wf && (scan || !f.excl)
def LI.wf (f : LI) : Bool := f.pre.wf && bits 7 f.d && bits 16 f.v

/-- The spec immediate of SBFX and SBFI (R57). -/
def UR.specWf (f : UR) (lim : Nat) : Bool := f.wf lim
/-- The spec immediate of BFX and BFI (R116). -/
def LRI.bfWf (f : LRI) : Bool :=
  f.wf && wideTy f.t &&
  (match f.b with
   | .reg _ => true
   | .imm v => v < 64 && v % 8 < (if f.t = .i64 || f.t = .n64 then 8 else 4))
def LRI.maskWf (f : LRI) : Bool := f.wf && f.d < 8
def coreNum (c : Nat) : Bool := c < 1152
def warpNum (w : Nat) : Bool := w < 1152 * 64

/-- The fields of an instruction hold values its encoding admits. -/
def Instr.fieldsOk : Instr → Bool
  | .sadd f | .ssub f | .smul f | .smulh f | .sdiv f | .srem f | .sand f | .sor f | .sxor f | .sshl f | .sshr f | .ssra f
  | .smin f | .smax f | .sminn f | .smaxn f | .sseq f | .ssne f | .sslt f | .ssltn f | .ssel f => f.wf 256
  | .sbfx f => f.specWf 128
  | .sbfi f => f.specWf 64
  | .sbit d a fn => bits 8 d && bits 8 a && fn < 4
  | .sli d imm | .slis d imm => bits 8 d && bits 17 imm
  | .sld f | .sldw f | .sst f | .sstw f => f.wf
  | .sldk d a off => bits 8 d && bits 8 a && bits 9 off
  | .smovl f => bits 8 f.d && bits 7 f.a && f.b.wf 8 32
  | .sb off | .scall off => bits 25 off
  | .sbz a off | .sbnz a off | .sblt a off | .sloop a off => bits 8 a && bits 17 off
  | .sj a | .scallr a => bits 8 a
  | .sret | .fenceFetch => true
  | .fenceRel _ | .fenceAcq _ | .fenceAr _ | .fenceSc _ => true
  | .tcfg n a | .tld n a | .tst n a => bits 4 n && bits 8 a
  | .tldS n a b => bits 4 n && bits 8 a && bits 8 b
  | .mma a b s | .mmaPair a b s => bits 4 a && bits 4 b && bits 8 s
  | .mdrnTile a _ n row col => bits 8 a && bits 4 n && bits 3 row && bits 2 col
  | .mdrnSpad a _ _ b => bits 8 a && bits 8 b
  | .mchk a | .mfix a | .mzero a => bits 8 a
  | .mrty d a | .mgive d a | .mstatClo d a | .mstatChi d a => bits 8 d && bits 8 a
  | .mstat d => bits 8 d
  | .gstr z tok a b => z < 3 && bits 3 tok && bits 8 a && bits 8 b
  | .cbdef c a b => bits 5 c && bits 8 a && bits 8 b
  | .cbget d c => bits 5 c && bits 8 d && d != 159
  | .cbput c a | .cblim c a => bits 5 c && bits 8 a
  | .cbqry d c => bits 5 c && bits 8 d
  | .waitq _ n => bits 8 n
  | .waitk d m => bits 8 d && bits 8 m && m != 0
  | .xred a | .xbc a | .xshf a | .xside a => bits 8 a
  | .xqry d q => bits 8 d && q ≤ 1
  | .txb off => bits 23 off
  | .txc m => bits 3 m
  | .txa c => bits 8 c
  | .txs d => bits 8 d
  | .barArrive l n | .barWait l n | .barSync l n => n < l.count
  | .evb n l b a => bits 4 n && bits 2 l && bits 4 b && bits 8 a && evbOk n l b
  | .evmWr imm | .evmSet imm | .evmClr imm | .evclr imm => bits 16 imm
  | .wany imm => bits 16 imm && imm != 0
  | .launch d a => bits 8 d && bits 8 a
  | .takeV m | .giveV m => bits 4 m && m != 0
  | .takeA c | .giveA c => 1 ≤ c && c ≤ 64
  | .part z => 1 ≤ z && z ≤ 5
  | .sprf t a off => t < 3 && bits 8 a && bits 9 off
  | .sget d n => bits 8 d && bits 8 n
  | .sset n a => bits 8 n && bits 8 a
  | .snop | .exit | .yield | .brk | .rte | .snap => true
  | .trap imm => bits 8 imm
  | .sleep a => bits 8 a
  | .add f | .sub f | .mul f | .mulh f | .mad f | .div f | .rem f | .min f | .max f | .and f | .or f | .xor f | .shl f
  | .shr f | .rot f => f.wf
  | .addc f => f.wf && f.t.code % 4 = 2
  | .cmpeq f | .cmpne f | .cmplt f | .cmple f => f.maskWf
  | .sel f => f.wf && wideTy f.t
  | .bfx f | .bfi f => f.bfWf
  | .bit fn f => f.wf && (if fn.isSome then f.b = .reg 0 else f.b.oneTo32)
  | .prmb f | .dot4 _ _ f | .cdot _ f => f.wf && f.b.isReg 7
  | .moviZ f | .moviS f | .moviHi f => f.wf
  | .movLane f | .shf _ f => f.wf && f.b.wf 7 32
  | .movU p d s _ | .movTu p d s _ => p.wf && bits 7 d && bits 8 s
  | .movC p d n => p.wf && bits 7 d && bits 8 n
  | .bsr _ f => f.wf && f.b.oneTo32
  | .bswSet p b => p.wf && bits 7 b
  | .bswReload p d b => p.wf && bits 7 d && bits 7 b
  | .bswQuery p d => p.wf && bits 7 d
  | .vote _ p m a => p.wf && bits 3 m && bits 7 a
  | .voteBallot p d a => p.wf && bits 7 d && bits 7 a
  | .fadd f | .fsub f | .fmul f | .fma f | .fmin f | .fmax f => f.wf 0 5
  | .fdiv f => f.wf 0 3
  | .fcmpeq f | .fcmplt f | .fcmple f | .fcmpun f => f.wf 0 3 && f.d < 8
  | .func fn t p d a => p.wf && bits 7 d && bits 7 a && (t.code < 4 || fn = .abs || fn = .neg)
  | .cvt _ _ p d a => p.wf && bits 7 d && bits 7 a
  | .cvtbTo _ p d a b | .cvtbFrom _ p d a b => p.wf && bits 7 d && bits 7 a && bits 7 b
  | .pfma f => f.wf 4 5
  | .tred f | .segr f => f.wf false
  | .scan f => f.wf true
  | .meetOpen p n off => p.wfNoRep && bits 3 n && bits 19 off
  | .meetWait p n | .meetLeave p n => p.wfNoRep && bits 3 n
  | .brt p m off | .brf p m off => p.wfNoRep && bits 3 m && bits 22 off
  | .callv p off => p.wfNoRep && bits 22 off
  | .jmpv p a => p.wfNoRep && bits 7 a
  | .ld f | .st f | .lds f | .sts f => f.wf
  | .atom f | .atoms f => f.wf
  | .cpy f => f.pre.wfNoRep && f.z < 3 && bits 3 f.tok && bits 6 f.s && bits 6 f.d
  | .cpyBuf f => f.pre.wfNoRep && f.z < 3 && bits 3 f.tok && bits 6 f.s && bits 6 f.o && bits 5 f.cb
  | .gath f => f.pre.wfNoRep && f.z < 3 && bits 3 f.tok && bits 6 f.base && bits 7 f.idx && bits 7 f.o
  | .dxLaunch d s | .dxFqpop d s | .dxCkptSave d s | .dxCkptRestore d s | .dxCkptQuery d s => bits 5 d && bits 5 s
  | .dxWait d s t => bits 5 d && bits 5 s && bits 5 t
  | .dxTbegin d => bits 5 d
  | .dxTend => true
  | .dxTabort s | .dxReplay s | .dxKill s => bits 5 s
  | .mcheckTake w | .warpSlotRelease w | .copyLine w _ | .gatherElement w | .engineOpRetire w _ => warpNum w
  | .sleepDeadline w t | .txRevalidateCount w t => warpNum w && t < 32
  | .mailboxWrite _ w m _ _ | .mailboxClose _ w m _ _ => warpNum w && m < 4
  | .mailboxDiscard w m | .mailboxRoom w m => warpNum w && m < 4
  | .slotBind g _ | .slotStop g | .slotFree g | .saveComplete g | .sliceExpiry g | .groupRetire g => warpNum g
  | .tlbInvalidate c _ | .invalidateComplete c => coreNum c
  | .matrixOpStart c | .mmaStep c _ => coreNum c
  | .coreWindowAccess _ pa _ => pa < 2 ^ 53
  | .idle port _ | .idleTimer port | .linkReplayTimeout port | .portDown port | .packetCrcFailure port
  | .reservedTypePacket port => port < 64
  | .portdown port failed _ => port < 64 && failed < 64
  | .atomic _ _ pa _ _ _ _ => pa < 2 ^ 53
  | .uncachedRead _ pa _ => pa < 2 ^ 53
  | .uncachedWrite _ pa _ _ => pa < 2 ^ 53
  | .contribution _ _ pa _ _ _ => pa < 2 ^ 53
  | .purge id | .purgeack id _ | .failedPartRecovery id => id < 2 ^ 16
  | .frameReceive port _ _ _ | .pauseStart port _ | .pauseRepeat port _ | .pauseAbandon port _ => port < 8
  | .dxrwWrite n _ | .bandWrite n _ => n < 16
  | .csrWrite h csr _ => h < 68 && csr < 2 ^ 12
  | .dxWaitTimeout h | .hostInstruction h _ | .hostInterrupt h _ => h < 68
  | .residueMismatch w lane => warpNum w && lane < 33
  | .scrub pa fails => pa < 2 ^ 53 && fails < 2 ^ 11
  | .twinMatch w twin => warpNum w && warpNum twin
  | .gangDispatch _ _ | .barrierRelease _ | .coppiceRelaunch _ _ | .lockLimitExpiry | .ticketTurn
  | .remoteStoreCombineEnd _ | .reads _ _ | .readm _ _ | .upgrade _ _ | .writeback _ _ _ | .data _ _ _ _ | .grantack _ _
  | .ack _ | .wback _ _ | .recallLine _ _ | .recalldata _ _ _ | .recallack _ _ | .partialForwardTimer _ | .gladePartialError _ _
  | .join _ | .collectivePull _ _ | .advert _ _ _ | .withdraw _ _ _ | .sideAck _ _ _ | .planDigest _ _ _ _
  | .packetFormation _ _ | .codedPacket _ | .fallbackreq _ _ _ _ | .transferack _ _ _ _ | .pcieRead _ _ | .pcieWrite _ _ _
  | .dxfqWrite _ | .dxsnapWrite _ | .dxobjRegister _ | .dxobjRemove _ | .dxobjComplete | .flowBind _ | .clockPlanChange
  | .bootClr | .powerSample _ _ | .throttleEnd | .snaptrig | .smbusSnapshot | .snapshotLatch | .snapshotComplete
  | .moduleStart _ | .startTimeout | .powerLoss | .checkpointComplete _ | .startReachesUp => true

/-- A well-formed instruction: legal field values, and the checks of R43 pass. -/
def Instr.wf (i : Instr) : Bool := i.fieldsOk && i.baseOk && i.repOk && i.extOk && i.numsOk

end Sys2Proof
end

