-- ==== Sys2Proof/Machine/Sched.lean ====
section
/-! DEFINITION. What moves and how: fetch and decode (R13, R26, R43, R45, R343), the issue of a warp (R93, R96, R332), a quadrant's
choice (R95), a hart's fetch (R46, R47), and the move that comes next (log entry 8). -/

namespace Sys2Proof.Machine

/-! ## Fetch -/

/-- How the fetch of a word ends: the word, or the state in which the warp has trapped or waits. -/
inductive Fetched where
  | word (s : State) (w : Nat)
  | stop (s : State)

/-- The word at an address for the issue in progress: the core's copy of it (R45), or device memory through the tables; a fetch at a core window traps
ACCESS (R172). -/
def State.fetchWord (s : State) (va : W64) : Fetched :=
  match tget? s.w.code va.toNat with
  | some w => .word s w.toNat
  | none =>
    let p : Span := ⟨32, va, 4⟩
    if !canonical va then .stop (s.trap cAccess va)
    else
      match s.checkPages .fetch (some s.iss.set) s.iss.set [p] with
      | some s' => .stop s'
      | none =>
        let pa := s.pa .fetch va
        let who : Agent := .thread s.iss.key (if s.uniLane = 32 then 33 else s.uniLane)
        if s.place pa != .device then .stop (s.trap cAccess va)
        else if s.lockBlocks who false pa 4 then .stop ((s.seek who false pa 4).waitIssue)
        else
          let v := s.withHeld s.iss.key
          if v.poisonedIn pa 4 then .stop (s.killBy s.iss.key 1 s.iss.pc s.iss.set)
          else
            let s1 := (s.touchPages .fetch [p]).fetchReach who pa 4
            .word s1 (leNat ((s1.withHeld s.iss.key).bytesAt pa 4))

/-- More words follow the words fetched: the last of them is a prefix that stands where R37 allows it. -/
def wantsMore (ws : List Nat) : Bool :=
  match ws with
  | [w] => isPre w && fld w 23 2 ≤ 1
  | [v, w] => fld v 23 2 = 1 && isPre w && fld w 23 2 = 0
  | _ => false

/-- The words of an instruction are fetched in order (R13, R37); an instruction has at most three. -/
def State.fetchMore : Nat → State → List Nat → State × Option (List Nat)
  | 0, s, ws => (s, some ws)
  | n + 1, s, ws =>
    if ws != [] && !wantsMore ws then (s, some ws)
    else
      match s.fetchWord (s.iss.pc + BitVec.ofNat 64 (4 * ws.length)) with
      | .stop s' => (s', none)
      | .word s' w => State.fetchMore n s' (ws ++ [w])

/-! ## The scoreboard (R96)

Every instruction but an MRTY or MGIVE that has not retired, and a load or an atomic under way, has its results in place when it has issued. -/

/-- The uniform registers that unretired operations of a warp have still to write (R309, R311). -/
def State.pendingS (s : State) (k : Nat) : List Nat :=
  ((s.groupOf k).matQ.filterMap fun o =>
    if o.warp != k then none
    else match o.kind with
      | .mrty _ d => some d
      | .mgive _ d _ => some d
      | _ => none) ++
  (s.warp k).flights.filterMap fun f => match f.op with | .sload d => some d | _ => none
/-- The instruction names no such register. -/
def Instr.free (i : Instr) (busy : List Nat) : Bool :=
  busy = [] || (i.numsBy (fun n => !busy.contains n) && (match i with | .cbget d _ => !busy.contains (d + 1) | .scall _ | .scallr _ | .sret => !busy.contains 159 | _ => true))

/-! ## The issue of a warp -/

/-- The number of the issue of a REP, which must be one of its issues. -/
def repIndex (i : Instr) (idx : Nat) : Nat :=
  match i.preUse with
  | some (p, _, _) => if idx ≤ p.last then idx else 0
  | none => 0

/-- How an attempt to issue ends. -/
inductive Attempt where
  /-- the warp is not ready -/
  | unready
  /-- the instruction waits at issue: nothing has been issued -/
  | waits (s : State)
  /-- an instruction has issued -/
  | issued (s : State)
  /-- a stop of the model -/
  | ended (r : Res)

/-- The warp that issues stands at the same issue as before: it has not issued. -/
def State.stoodStill (s : State) (k : Nat) (pc : W64) (idx : Nat) : Bool :=
  match tget? s.warps k with
  | none => false
  | some w => match w.cur with | some c => decide (c.pc = pc ∧ c.idx = idx) | none => false

/-- An issue of a warp is one of the 1,024 within which a thread whose signature has matched revalidates (R231). -/
def State.ageTx (s : State) (k : Nat) : State :=
  let hit := fun (f : Tx → Bool) => maskOf fun t => match ((s.warp k).thread t).tx with | some x => x.matched && f x | none => false
  if hit (fun _ => true) = 0 then s
  else
    let s1 := s.modWarp k (·.modThreads 0xFFFFFFFF fun t => { t with tx := t.tx.map fun x => if x.matched then { x with age := x.age + 1 } else x })
    (lanesOf (hit fun x => 1023 ≤ x.age)).foldl (fun (s : State) t =>
      match execTxRevalidateCount k t s with | .next s' => s' | _ => s) s1
/-- A state in which the attempt has ended: with an instruction issued (R362 counts it) or not. -/
def State.attempted (s : State) (k : Nat) (pc : W64) (idx : Nat) : Attempt :=
  if s.stoodStill k pc idx then .waits s
  else .issued ((s.ageTx k).modCore (warpCore k) fun c =>
    { c with issues := c.issues + 1, rr := vset c.rr (warpSlot k / 16) (warpSlot k % 16) })

/-- The module runs warps: it is up (R417). -/
def State.up (s : State) : Bool := s.boot = .up && !s.bootMinimal
/-- A warp may be considered: its slot runs, no write of an issued instruction has still to join its window (R356), its core was not stalled when the clock began, its group is not being saved, and its grid
stands together. -/
def State.considers (s : State) (stall : List Nat) (k : Nat) : Bool :=
  s.up && !savedKey k && s.live k && !(s.warp k).holdsOn && !stall.contains (warpCore k) && !s.stopping (s.warp k).group && (s.warp k).readyAt ≤ s.cycles &&
  s.gridTogether (s.groupOf k).grid

/-- SEL, ADDC and SEGR act on the whole issue set: their mask is no predicate (R40). -/
def noPredicate (w : Nat) : Bool := fld w 25 6 = 0x14 || fld w 25 6 = 0x0F || fld w 25 6 = 0x32
/-- The active threads of an instruction that fails decode: those that its predicate leaves of the issue set, and for a U-set word the issue set
(R44, R317). -/
def State.illegalAct (s : State) (ws : List Nat) : W32 :=
  let base := ws.getLast?.getD 0
  match ws.find? fun w => isPre w && fld w 23 2 = 0 with
  | some e =>
    if isPre base || isU base || noPredicate base then s.iss.set
    else
      let m := s.w.rdM (fld e 20 3)
      s.iss.set &&& (if fld e 19 1 = 1 then ~~~m else m)
  | none => s.iss.set
/-- The lanes check the results that an instruction of the lane set forms, FUN functions 2 to 9 apart (R358). -/
def formsResult (ws : List Nat) : Bool :=
  let w := ws.getLast?.getD 0
  !isU w && !(fld w 25 6 = 0x2B && within 2 9 (fld w 1 7))
def State.formedBy (s : State) (k : Nat) (pc : W64) (idx : Nat) (ws : List Nat) : State :=
  match tget? s.warps k with
  | some w => if s.stoodStill k pc idx then s else s.setWarp k { w with formed := formsResult ws }
  | none => s
/-- The instruction of the issue in progress is decoded and has its effect. -/
def State.issueWords (s : State) (k : Nat) (ws : List Nat) : Attempt :=
  match decode ws with
  | .error (.illegal w) =>
    let s1 := { s with iss := { s.iss with base := s.iss.pc + BitVec.ofNat 64 (4 * (ws.length - 1)) } }
    (s1.trapAct (s.illegalAct ws) cIllegal (BitVec.ofNat 64 w)).attempted k s.iss.pc s.iss.idx
  | .error .short => .unready
  | .ok (i, n) =>
    if !Instr.free i (s.pendingS k) then .unready
    else
      let idx := repIndex i s.iss.idx
      let s1 := { s with iss := { s.iss with base := s.iss.pc + BitVec.ofNat 64 (4 * (n - 1)), words := ws, idx := idx } }
      match exec i s1 with
      | .next s2 => (s2.formedBy k s.iss.pc idx ws).attempted k s.iss.pc idx
      | r => .ended r

/-- The cores that are stalled (R332). -/
def State.stalls (s : State) : List Nat := dedup ((s.warps.map fun w => warpCore w.1).filter s.stalled)

/-- A warp tries to issue: a failed check is taken first (R283), then an event whose handler cannot be entered (R93, R168), then the instruction is fetched, decoded and has its effect. -/
def State.tryIssue (s : State) (stall : List Nat) (k : Nat) : Attempt :=
  if !s.considers stall k then .unready
  else
    match s.mcheck k with
    | some s' => .issued s'
    | none =>
      if s.lateEvent k then .waits (s.eventsChanged k)
      else
      match (s.warp k).begins with
      | none => .unready
      | some (set, elig, pc, idx, ws) =>
        let s1 := { s with iss := ⟨k, set, elig, pc, pc, ws, idx, s.iss.cut⟩ }
        if ws != [] then s1.issueWords k ws
        else
          match State.fetchMore 3 s1 [] with
          | (s2, none) => s2.attempted k pc idx
          | (s2, some ws') => s2.issueWords k ws'

/-- A warp issues by itself: one clock passes with an issue. -/
def Attempt.out (a : Attempt) (s : State) : Res :=
  match a with
  | .unready => .next s
  | .waits s' => .next s'
  | .issued s' => .next (s'.elapse 1)
  | .ended r => r

/-! ## A quadrant's choice (R95) -/

/-- The slots of a quadrant in the order of consideration: class by class, each from the slot after the last issue. -/
def State.quadOrder (s : State) (core q : Nat) : List Nat :=
  let last := vget 15 (s.core core).rr q
  let order := (List.range 16).map fun i => core * 64 + q * 16 + (last + 1 + i) % 16
  let cls := fun k => if (s.warp k).handler then 0 else (s.warp k).cls
  (List.range 4).flatMap fun c => order.filter fun k => (tget? s.warps k).isSome && cls k = c
/-- The first warp that is ready issues; those before it that wait at issue stand at their instruction. -/
def State.quadFirst (stall : List Nat) : List Nat → State → Attempt
  | [], s => .waits s
  | k :: r, s =>
    match s.tryIssue stall k with
    | .unready => State.quadFirst stall r s
    | .waits s' => State.quadFirst stall r s'
    | a => a
/-- The quadrants of one clock: each issues at most one instruction, and a core that one of them stalls stalls from the next clock
on. -/
def State.clockQuads (stall : List Nat) : List Nat → State → Res
  | [], s => .next (s.elapse 1)
  | n :: r, s =>
    match State.quadFirst stall (s.quadOrder (n / 4) (n % 4)) s with
    | .unready => State.clockQuads stall r s
    | .waits s' => State.clockQuads stall r s'
    | .issued s' => State.clockQuads stall r s'
    | .ended o => o

/-! ## Harts -/

/-- The word at a hart's pc, or the exception of its fetch with the address that it names. -/
inductive HFetch where
  | word (w : Nat)
  | trap (cause : Nat) (tval : W64)
  deriving DecidableEq, Repr

/-- The two bytes at an address of a hart's fetch. -/
def State.hartHalf (s : State) (h : Nat) (va : W64) : HFetch :=
  match s.hartAccess h .fetch va 2 2 with
  | .trap c v => .trap c v
  | .ok ps =>
    if ps.any (fun p => s.place p.pa != .device) || !s.hartMay h ps .load || s.hartPoison h ps then .trap 1 va
    else .word (leNat (ps.flatMap fun p => s.agentBytes p.pa p.n))
/-- The instruction at a hart's pc: two bytes for a compressed form, else four. -/
def State.hartFetch (s : State) (h : Nat) : HFetch :=
  match s.hartHalf h (s.hart h).pc with
  | .word a =>
    if a % 4 != 3 then .word a
    else (match s.hartHalf h ((s.hart h).pc + 2) with | .word b => .word (a + b * 2 ^ 16) | t => t)
  | t => t
/-- The line of two bytes of a hart's fetch is brought to it; none while it waits for it or for the tables. -/
def State.hartReach (s : State) (h : Nat) (va : W64) : State ⊕ State :=
  match s.hartWalkAway h .fetch va with
  | some a => .inl (s.seek (.hart h) false a 8)
  | none =>
    let s := s.hartTouch h .fetch va
    match s.hartAccess h .fetch va 2 2 with
    | .trap _ _ => .inr s
    | .ok ps =>
      if s.hartAwaits h false ps then .inl (s.hartSeek h false ps)
      else if s.hartBlocked h false ps then .inl s
      else .inr (ps.foldl (fun (s : State) p => s.fetchReach (.hart h) p.pa p.n) s)
/-- The lines of the whole instruction. -/
def State.hartReachAll (s : State) (h : Nat) : State ⊕ State :=
  match s.hartReach h (s.hart h).pc with
  | .inl s' => .inl s'
  | .inr s1 =>
    (match s1.hartHalf h (s1.hart h).pc with
     | .word a => if a % 4 = 3 then s1.hartReach h ((s1.hart h).pc + 2) else .inr s1
     | .trap _ _ => .inr s1)

/-- A hart takes an interrupt, or fetches and runs an instruction: a dx instruction, or a word of RISC-V's (R407). A custom-0 word that is no dx instruction raises
the illegal-instruction exception (R47). -/
def State.hartStep (s : State) (h : Nat) : Res :=
  if !s.hartRuns h then .next s
  else if (s.hart h).interrupt.isSome then .next (s.takeInterrupt h)
  else
    match s.hartReachAll h with
    | .inl s' => .next s'
    | .inr s =>
    match s.hartFetch h with
    | .trap c v => .next (s.hartRaise h c v)
    | .word w =>
      match decodeHost w with
      | some i => exec i { s with iss := ⟨h, 0, 0, (s.hart h).pc, (s.hart h).pc, [w], 0, 0⟩ }
      | none => s.rvWord h w

/-! ## Copies that the hardware takes in (R45, R189) -/

/-- The permissions that the tables give at an address. -/
def State.permsAt (s : State) (ctx va : Nat) : Nat :=
  maskNat (fun b => match s.walkFrom va (2 ^ b) 5 (s.root ctx) with | .ok _ _ _ => true | _ => false) 3
/-- A translation cache takes in a walk that succeeds. -/
def State.fillTlb (s : State) (die ctx : Nat) (va : W64) : State :=
  match s.walkFrom va.toNat 0 5 (s.root ctx) with
  | .ok pa size nc =>
    let off := va.toNat % 2 ^ size
    if canonical va && s.ctxOk ctx then
      { s with tlb := s.tlb ++ [⟨die, ctx, va.toNat - off, size, pa - off, s.permsAt ctx va.toNat, nc⟩] }
    else s
  | _ => s
/-- An L2 replaces a line with a shadow, which it may do only when all 16 ways of its set hold one (R88, R185): which lines share a set is a hash that
the manual does not give, so 16 shadows at the line's home die are asked for (log entry 12). -/
def State.replaceLine (s : State) (line : Nat) : State :=
  if 16 ≤ (s.shadows.filter fun x => homeDie (x.1 * 128) = homeDie (line * 128)).length then s.foldLine line else s
/-- A core takes in a copy of a code word for a warp. -/
def State.holdCode (s : State) (k : Nat) (va : W64) : State :=
  if !s.live k || !canonical va || va.toNat % 4 != 0 then s
  else
    match s.walk (warpCore k / 48) (s.gridOf k).ctx va .fetch with
    | .ok pa _ _ =>
      if s.place pa = .device && !s.poisonedIn pa 4 then
        s.modWarp k fun w => { w with code := tput w.code va.toNat (BitVec.ofNat 32 (leNat (s.bytesAt pa 4))) }
      else s
    | _ => s

/-! ## Moves -/

/-- The instruction is a step of the hardware: it has no word. -/
def Instr.isStep (i : Instr) : Bool := encode i = []

/-- One move. -/
def State.run (s : State) (m : Move) : Res :=
  let s := { s with iss := { s.iss with cut := 0 } }
  match m with
  | .issue c i => (State.quadFirst s.stalls (s.quadOrder c (i % 64 / 16)) s).out s
  | .lanes c i n => (State.quadFirst s.stalls (s.quadOrder c (i % 64 / 16)) { s with iss := { s.iss with cut := n } }).out s
  | .flights k n => .next (s.fly k n)
  | .clock qs => State.clockQuads s.stalls (sortNat qs) s
  | .hart h => s.hartStep h
  | .hw i => if Instr.isStep i && i.wf then exec i s else .next s
  | .tick n => .next (s.elapse n)
  | .fillTlb d ctx va => .next (s.fillTlb (d % 28) (ctx % 65536) va)
  | .holdCode c i va => .next (s.holdCode (c * 64 + i % 64) va)
  | .winRelease c => .next (s.tileRelease c)
  | .complete g => .next ((match (s.grid g).signalPa with | some pa => s.seek .other true pa 8 | none => s).completeIfDone g)
  | .ringTurn => .next (s.drainHeld s.heldFaults)
  | .serveDir u => .next (s.dirPump u)
  | .replace l => .next (s.replaceLine l)
  | .dropClass k => .next { s with classes := tdel s.classes k }
  | .dropDir u => .next (if 16 ≤ s.dir.length then s.recallUnit u else s)
  | .ecc double at_ => .next (s.ecc double at_)
  | .nodeWindow m n v => .next (s.nodeWindow m n v)
  | .serveFlow k => .next (s.flowServe k 64)
  | .twins w => (match s.twinOf w with | some j => execTwinMatch w j s | none => .next s)
  | .laneFails c q l => .next (s.laneFails c q l)
  | .transmit p => .next (s.transmit p)
  | .flits p bs => s.flits p bs
  | .take p vc => s.takeSlot p vc
  | .answer tag bs pois => s.answered tag bs pois
  | .collRetire w => .next (if savedKey w && (tget? s.warps w).isSome then s.retireColl w else s)
  | .pcie => .next s.pcieTurn
  | .msixSet n a d off => .next (s.msixSet n a d off)
  | .msixRaise n => .next (s.msixRaise n)
  | .sideRead r => .next (s.emit (.side (s.sideValue r)))
  | .mediaError i => .next { s with images := vmod Image.none s.images i fun m => { m with media := true } }
  | .joinDone id err => .next (s.joinedAway id err)
  | .glade n =>
    (match s.instances[n]?, s.plans[n - s.instances.length]? with
     | some i, _ => execCollectivePull i.quarter i.first.id s
     | none, some p => execPacketFormation p.ctx p.id s
     | none, none => .next s)

/-- What passes between the home and the dies of this module for a unit: a grant that a die takes in and acknowledges, and a recall that a die answers (R366,
R368). A die that holds a line in S or M gives it up before it answers. -/
def State.dieMoves (s : State) (unit : Nat) : List Move :=
  let e := s.dirEntry unit
  let grants := (e.unacked.filter (· < 32)).map fun h =>
    let owns : Bool := e.state = some (.owned h)
    let has : Bool := tget? s.holders (holderKey h unit) = some (if owns then .m else .s)
    if h < 28 && !has then Move.hw (.data h unit owns ⟨[], 0⟩) else Move.hw (.grantack h unit)
  let recalls := (e.recalls.filter (·.1 < 32)).map fun x =>
    let gives := (s.unitOf x.2).any fun l => [some .m, some .s].contains (tget? s.holders (holderKey x.1 l))
    if x.1 < 28 && gives then Move.hw (.recallLine x.1 x.2) else Move.hw (.recallack x.1 x.2)
  grants ++ recalls
/-- The home's answers to the dies of this module that write a line of it back (R369). -/
def State.wbackMoves (s : State) : List Move :=
  (s.holders.filter fun x => isWriteback (some x.2) && lineHome (x.1 % 2 ^ 48) = s.pkg).map fun x =>
    Move.hw (.wback (x.1 / 2 ^ 48) (x.1 % 2 ^ 48))
/-- What can move of itself: warps, their engines, barriers and deadlines, their groups, the stores that wait, grids, ports, paired copies, the ticket
unit, acknowledgements, the directory, the Glade's instances and plans, and harts. -/
def State.candidates (s : State) : List Move :=
  let ws := (s.warps.map (·.1)).filter fun k => !savedKey k
  let cores := dedup (ws.map warpCore)
  (ws.map fun k => Move.issue (warpCore k) (warpSlot k)) ++
  ((ws.filter fun k => (s.warp k).flights != []).map fun k => Move.flights k 0) ++
  (ws.flatMap fun k =>
    [.hw (.copyLine k false), .hw (.gatherElement k), .hw (.engineOpRetire k .copy), .hw (.engineOpRetire k .gather),
     .hw (.engineOpRetire k .matrix), .hw (.engineOpRetire k .coll), .hw (.warpSlotRelease k)]) ++
  (cores.flatMap fun c => [.hw (.matrixOpStart c), .hw (.mmaStep c none)]) ++
  (s.groups.map fun g => Move.hw (.groupRetire g.1)) ++ (s.groups.map fun g => Move.hw (.saveComplete g.1)) ++
  (s.remote.map fun r => Move.hw (.ack r.1)) ++
  ((s.cores.filter fun c => c.2.tileWait != []).map fun c => Move.winRelease c.1) ++
  (s.cores.flatMap fun c => c.2.mbWait.map fun x => Move.hw (.mailboxRoom (c.1 * 64 + x.slot) x.mb)) ++
  ((s.warps.filter fun x => savedKey x.1 && x.2.collQ != []).map fun x => Move.collRetire x.1) ++
  (s.grids.map fun g => Move.complete g.1) ++
  ((s.ports.filter fun p => p.2.queue != []).map fun p => Move.transmit p.1) ++
  (s.ports.flatMap fun p => (dedup (p.2.slots.map (·.vc))).map fun vc => Move.take p.1 vc) ++
  ((ws.filter fun k => (s.twinOf k).isSome).map Move.twins) ++
  [.hw .ticketTurn, .ringTurn, .pcie] ++
  (s.eth.flatMap fun p => (dedup (p.2.frames.map (·.flow))).map Move.serveFlow) ++
  ((s.dir.filter fun e => e.2.queue != []).map fun e => Move.serveDir e.1) ++
  (s.dir.flatMap fun e => s.dieMoves e.1) ++ s.wbackMoves ++
  ((List.range (s.instances.length + s.plans.length)).map Move.glade) ++
  (ws.flatMap fun k => (s.barriersOf k).map fun b => Move.hw (.barrierRelease b)) ++
  ((ws.filter fun k => (s.warp k).parks != []).flatMap fun k => (List.range 32).map fun t => Move.hw (.sleepDeadline k t)) ++
  ((List.range 68).map Move.hart)
/-- A move changes more than the record of the last issue. -/
def State.changes (s : State) (m : Move) : Bool :=
  match s.run m with
  | .next s' => decide ({ s' with iss := s.iss } ≠ s)
  | _ => false
/-- The next move: the first of the input, or the first that does something, in an order that turns with the clock; a clock passes
when none does. -/
def State.pick (s : State) : Move :=
  match s.moves with
  | m :: _ => m
  | [] =>
    let cs := s.candidates
    let n := s.cycles % (cs.length + 1)
    ((cs.drop n ++ cs.take n).find? s.changes).getD (.tick 1)

end Sys2Proof.Machine
end

