-- ==== Sys2Proof/Machine/Step.lean ====
section
/-! DEFINITION. One step of the module, and the placing of an instruction where the next step fetches it. -/

namespace Sys2Proof.Machine

/-- The move is a start of the module. -/
def Move.isStart : Move → Bool
  | .hw (.moduleStart r) => r = 0
  | _ => false

/-- A hart's move that no input asks for takes a clock, so that time passes while harts run (log entry 8). -/
def State.paced (s : State) (m : Move) (r : Res) : Res :=
  match m, s.moves, r with
  | .hart _, [], .next t => .next (t.elapse 1)
  | _, _, _ => r
/-- One step: the next move. Without power there is none but a start (R413, R417). -/
def step (s : State) : Host.Outcome State Fault Refusal :=
  let m := s.pick
  if s.powered || m.isStart then s.paced m ({ s with moves := s.moves.drop 1 }.run m) else .fault .unpowered

/-! ## Placing an instruction

A program comes to run through launch, binding and dispatch (log entry 31); what stands below is the end of that: a warp in slot 0 of core
0 with its group, grid and a cached translation of its code page. -/

/-- The place of the instruction. -/
def probePc : Nat := 0x1000

def probeGrid : Grid := { Grid.none with lrec := { LaunchRec.none with entry := BitVec.ofNat 64 probePc } }
def probeGroup : Group := { Group.none with grid := 1, nwarps := 1, ngroups := 1, cls := 2, slots := 1, regs := 8 }
def probeWarp : Warp := { Warp.start with threads := Vector.replicate 32 (Thread.start (BitVec.ofNat 64 probePc)) }

/-- Slot 0 of core 0 holds a running warp at the place. -/
def State.probeWarpPlaced (s : State) : State :=
  { s with
    boot := .up, bootMinimal := false, powered := true, ckpt := none
    warps := tput s.warps 0 probeWarp
    groups := tput s.groups 0 probeGroup
    gangs := tput s.gangs (gangKey 1 0) { Gang.none with grid := 1, groups := [0] }
    grids := tput s.grids 1 probeGrid
    cores := tput s.cores 0 { (s.core 0) with slots := tput (s.core 0).slots 0 ⟨BitVec.ofNat 64 (2 ^ 32 + 2), [2 ^ 40 + 2 ^ 48 + 2 ^ 57, 1, 0, 0, 8 * 2 ^ 16, 0, 0]⟩ }
    tlb := ⟨0, 0, probePc, 12, probePc, 7, false⟩ :: s.tlb
    moves := .issue 0 0 :: s.moves }
/-- Hart 0 fetches at the place in M mode. -/
def State.probeHartPlaced (s : State) : State :=
  { (s.modHart 0 fun h => { h with pc := BitVec.ofNat 64 probePc, mode := .m, waiting := none, commit := false }) with
    boot := .up, bootMinimal := false, powered := true, ckpt := none, moves := .hart 0 :: s.moves }

/-- The state with the instruction whose bits are w where the next step fetches it. -/
def State.withFetchWord (s : State) (nbits w : Nat) : State :=
  let s1 := if (decodeHost (w % 2 ^ 32)).isSome then s.probeHartPlaced else s.probeWarpPlaced
  { s1 with mem := Memory.writeBytes s1.mem probePc (leBytes 12 (w % 2 ^ nbits)) }

end Sys2Proof.Machine
end

