-- ==== Sys2Proof/Safety.lean ====
section
/-! DEFINITION. The words of the statements: completion, what an instruction leaves unchanged, and the invariants of a state.

A statement about a warp's instruction speaks of the issue in progress: s.iss names the warp, the issue set, the address of the base word
and the number of the issue of a REP. -/

namespace Sys2Proof

open Machine

/-- The instruction answers a next state, and the state has a property. -/
def Completes (i : Instr) (s : State) (P : State → Prop) : Prop := ∃ t, exec i s = .next t ∧ P t

/-! ## Memory -/

/-- The memory is in its canonical form: addresses rise, and no byte of value 0 is listed. -/
abbrev MemoryCanonical (s : State) : Prop := Memory.wf s.mem = true

/-! ## Frames -/

/-- Every byte of memory reads as before. -/
def SameMemory (s t : State) : Prop := ∀ a, Memory.read t.mem a = Memory.read s.mem a
/-- Every byte of memory outside a range of addresses reads as before. -/
def SameOutside (s t : State) (pa n : Nat) : Prop :=
  ∀ a, ¬(pa ≤ a ∧ a < pa + n) → Memory.read t.mem a = Memory.read s.mem a

/-- The state with other warps. -/
def Machine.State.withWarps (s : State) (ws : Tab Warp) : State := { s with warps := ws }
/-- Nothing but the record of the issuing warp has changed: no byte of memory, no special register of the module, and no other warp. -/
structure OnlyWarp (s t : State) : Prop where
  memory : SameMemory s t
  rest : t = s.withWarps t.warps
  others : ∀ k, k ≠ s.iss.key → t.warp k = s.warp k

/-- The registers of the issuing warp but those that S, V and M name: V speaks of a register and a lane. -/
structure RegsKept (s t : State) (S : Nat → Prop) (V : Nat → Nat → Prop) (M : Nat → Prop) : Prop where
  uniform : ∀ n, ¬S n → t.rdS n = s.rdS n
  vector : ∀ n L, ¬V n L → t.w.rdV n L = s.w.rdV n L
  mask : ∀ n, ¬M n → t.w.rdM n = s.w.rdM n

def noReg (_ : Nat) : Prop := False
def noLane (_ _ : Nat) : Prop := False

/-- The record of a warp without its registers, its threads, and what the end of an issue always clears: the issue in progress, $rprog,
the wait for service and its cover, and the mark that a paired copy has passed its point. Every special register of the warp is in it. -/
def Machine.Warp.special (w : Warp) : Warp :=
  { w with sregs := Warp.start.sregs, vregs := Warp.start.vregs, mregs := Warp.start.mregs, threads := Warp.start.threads
           cur := none, service := none, cover := none, rprog := 0, win := w.win.map fun x => { x with passed := false } }
/-- A warp with another value of $fpmode. -/
def Machine.Warp.withFpmode (w : Warp) (fp : W64) : Warp := { w with fpmode := fp }
/-- Every special register of the issuing warp is unchanged. -/
def SameSpecial (s t : State) : Prop := t.w.special = s.w.special

/-- A thread without its place and its wait count. -/
def Machine.Thread.placeless (x : Thread) : Thread := { x with pc := 0, wait := 0 }
/-- The threads of a set stand at an address, the others where they stood; nothing else of a thread has changed but wait counts. -/
structure GoOn (s t : State) (set : W32) (pc : W64) : Prop where
  places : ∀ L, L < 32 → (t.w.thread L).pc = if set.getLsbD L then pc else (s.w.thread L).pc
  rest : ∀ L, L < 32 → (t.w.thread L).placeless = (s.w.thread L).placeless

/-- A uniform instruction: sd takes a value, and the issue set goes on at an address. Nothing else changes. -/
structure UniformResult (s t : State) (d : Nat) (v pc : W64) : Prop where
  only : OnlyWarp s t
  value : t.rdS d = v
  regs : RegsKept s t (· = d) noLane noReg
  special : SameSpecial s t
  threads : GoOn s t s.iss.set pc

/-- The issue set goes on at an address; no register but those of S, no special register and no byte of memory changes. -/
structure Moved (s t : State) (S : Nat → Prop) (pc : W64) : Prop where
  only : OnlyWarp s t
  regs : RegsKept s t S noLane noReg
  special : SameSpecial s t
  threads : GoOn s t s.iss.set pc

/-- A signed field of n bits counts words from the base word (R13). -/
def wordTarget (s : State) (n off : Nat) : W64 := s.iss.base + (BitVec.ofNat n off).signExtend 64 * 4

/-! ## Lane instructions -/

/-- More issues of the REP follow this one (R41). -/
def MoreIssues (s : State) (rep : Option Rep) : Prop := ∃ r, rep = some r ∧ s.iss.idx < r.last
/-- The issue is over (R41): the warp stands at the next issue of the REP, or its issue set goes on at the next word. -/
structure IssueEnded (s t : State) (rep : Option Rep) : Prop where
  more : MoreIssues s rep →
    t.w.cur = some ⟨s.iss.set, s.iss.elig, s.iss.pc, s.iss.idx + 1, s.iss.words⟩ ∧ t.w.threads = s.w.threads
  done : ¬MoreIssues s rep → t.w.cur = none ∧ GoOn s t s.iss.set (s.iss.base + 4)

/-- No access under way has still to write a register that the issue uses (R96). -/
def RegsFree (w : Warp) (us : List (Nat × Nat)) : Prop :=
  ∀ u ∈ us, ∀ f ∈ w.flights, ∀ d, f.op.dests = some d → d.1 + d.2 ≤ u.1 ∨ u.1 + u.2 ≤ d.1
/-- Check 5 of R43 passes for the issues that remain: each register use (a number and a width) is aligned and held. The registers of this issue wait
for no access under way (R96). -/
def RegsHeld (s : State) (p : Pre) (uses : Nat → List (Nat × Nat)) : Prop :=
  (∀ j, s.iss.idx ≤ j → j ≤ p.last → ∀ u ∈ uses j, u.1 % u.2 = 0 ∧ ∀ i, i < u.2 → s.w.holdsV (u.1 + i) = true) ∧
  RegsFree s.w (uses s.iss.idx)

/-- A lane instruction changes the registers that S, V and M name and $fpmode, and its issue ends. -/
structure LaneEffect (s t : State) (rep : Option Rep) (S : Nat → Prop) (V : Nat → Nat → Prop) (M : Nat → Prop) (fp : W64) : Prop where
  only : OnlyWarp s t
  regs : RegsKept s t S V M
  special : t.w.special = s.w.special.withFpmode fp
  ended : IssueEnded s t rep

/-- The lanes that a destination takes: the active ones and those that Z zeroes, and none without an active lane (R44, R108). -/
def Written (act zero : W32) (L : Nat) : Prop := act ≠ 0 ∧ (act ||| zero).getLsbD L = true
/-- The lanes of a register, or of a pair, that an issue writes. -/
def LanesOf (wide : Bool) (d : Nat) (act zero : W32) (n L : Nat) : Prop :=
  (n = d ∨ (wide = true ∧ n = d + 1)) ∧ Written act zero L

/-- A lane instruction whose destination is a register, or a pair: each active lane takes its value, the lanes that Z names take 0, and
nothing else changes (R108). -/
structure LaneResult (s t : State) (rep : Option Rep) (act zero : W32) (wide : Bool) (d : Nat) (v : Nat → W64) (fp : W64) : Prop where
  effect : LaneEffect s t rep noReg (LanesOf wide d act zero) noReg fp
  value : ∀ L, L < 32 → act.getLsbD L = true → t.w.rdT wide d L = (v L).toNat % 2 ^ (if wide then 64 else 32)
  zeroed : act ≠ 0 → ∀ L, L < 32 → act.getLsbD L = false → zero.getLsbD L = true → t.w.rdT wide d L = 0

/-- A lane instruction whose destination is a mask: each active lane's bit takes its value, the bits that Z names are cleared, and nothing
else changes (R108). m0 takes nothing. -/
structure LaneMask (s t : State) (rep : Option Rep) (act zero : W32) (d : Nat) (v : Nat → Bool) (fp : W64) : Prop where
  effect : LaneEffect s t rep noReg noLane (· = d) fp
  value : d ≠ 0 → ∀ L, L < 32 → (t.w.rdM d).getLsbD L =
    if act.getLsbD L then v L else if act ≠ 0 ∧ zero.getLsbD L = true then false else (s.w.rdM d).getLsbD L
  top : d = 0 → t.w.rdM d = 0xFFFFFFFF

/-- Type i64 or n64, whose operands are pairs. -/
def IntTy.wide (t : IntTy) : Bool := t = .i64 || t = .n64
/-- The sources a, b and c of an issue of an integer instruction in a lane, as values of its type. -/
def intA (s : State) (f : LRI) (L : Nat) : Int := IntTy.val f.t (s.w.rdT (IntTy.wide f.t) (f.pre.a s.iss.idx f.a) L)
def intB (s : State) (f : LRI) (L : Nat) : Int := IntTy.val f.t (s.w.rdB f.pre s.iss.idx (IntTy.wide f.t) f.b L)
def intC (s : State) (f : LRI) (L : Nat) : Int := IntTy.val f.t (s.w.rdT (IntTy.wide f.t) (f.pre.vc s.iss.idx f.d) L)
/-- Operand b read as a count, a specification or a lane: an immediate, or a single register (R109). -/
def countB (s : State) (p : Pre) (b : Opnd) (L : Nat) : Nat := s.w.rdB p s.iss.idx false b L
/-- The register uses of an integer instruction: vd, va and b with a width for b. -/
def intUses (f : LRI) (bw : Nat) (j : Nat) : List (Nat × Nat) :=
  (f.pre.d j f.d, IntTy.regs f.t) :: (f.pre.a j f.a, IntTy.regs f.t) :: f.b.use f.pre j bw

/-- The state with other bit-stream cursors of a set of threads of the issuing warp (R123). -/
def Machine.State.withCursors (s : State) (set : W32) (c : Nat → W32) : State :=
  s.setWarp s.iss.key
    { s.w with threads := vtab 32 fun L => if set.getLsbD L then { (s.w.thread L) with bcur := c L } else s.w.thread L }

/-! ## Other ends of an issue -/

/-- The issuing warp becomes a given record but for its threads, and its issue set goes on at an address. Nothing else changes. -/
structure WarpBecomes (s t : State) (w : Warp) (pc : W64) : Prop where
  only : OnlyWarp s t
  regs : t.w.sregs = w.sregs ∧ t.w.vregs = w.vregs ∧ t.w.mregs = w.mregs
  special : t.w.special = w.special
  threads : GoOn s t s.iss.set pc

/-- The issuing warp becomes a given record but for its threads, and the threads of the issue set wait. Nothing else changes. -/
structure Waits (s t : State) (w : Warp) : Prop where
  only : OnlyWarp s t
  regs : t.w.sregs = w.sregs ∧ t.w.vregs = w.vregs ∧ t.w.mregs = w.mregs
  special : t.w.special = w.special
  status : ∀ L, L < 32 → (t.w.thread L).status = if s.iss.set.getLsbD L then .waiting else (s.w.thread L).status
  rest : ∀ L, L < 32 → { (t.w.thread L) with status := .eligible, wait := 0 } = { (s.w.thread L) with status := .eligible, wait := 0 }
/-- A warp whose issue set has come to wait. -/
def Machine.State.parked (s : State) (h : Hold) : Warp := { s.w with parks := s.w.parks ++ [⟨s.iss.set, h⟩] }

/-- The instruction waits at issue: the warp stands at it, and nothing else has changed. -/
structure Stalls (s t : State) : Prop where
  only : OnlyWarp s t
  regs : RegsKept s t noReg noLane noReg
  special : SameSpecial s t
  threads : t.w.threads = s.w.threads
  cur : t.w.cur = some ⟨s.iss.set, s.iss.elig, s.iss.pc, s.iss.idx, s.iss.words⟩

/-- No thread of the issue set is in a transaction, and the set is not empty. -/
abbrev NoTx (s : State) : Prop := s.iss.set ≠ 0 ∧ ∀ L, L < 32 → s.iss.set.getLsbD L = true → (s.w.thread L).tx = none
/-- The threads of the issue set stand at the instruction, which has one word. -/
abbrev AtIssue (s : State) : Prop := ∀ L, L < 32 → s.iss.set.getLsbD L = true → (s.w.thread L).pc = s.iss.base
/-- No issue set of the issuing warp waits in a WANY. -/
def NoneAny (s : State) : Prop := ∀ p ∈ s.w.parks, ∀ i, p.hold ≠ .wany i
/-- No die and no other module has a copy of a line, and none waits for one (R364). -/
abbrev NoCopies (s : State) : Prop := s.dir = [] ∧ s.holders = []
/-- Nothing holds a grid's completion back: no remote store is out, the fallback lock is free, no copy of a line is lent, no gang waits for a killed grid that
it launched, and the signal words are this module's and in no other core's private class (R157, R158, R203, R237). -/
abbrev NothingHeld (s : State) : Prop :=
  s.remote = [] ∧ s.lock = none ∧ s.lockQueue = [] ∧ NoCopies s ∧ (∀ x ∈ s.gangs, x.2.kids = []) ∧
  ∀ x ∈ s.grids, ∀ pa, x.2.signalPa = some pa → (∀ i, i < 8 → (pa + i) / 2 ^ 48 = s.pkg) ∧ s.promotes .other pa 8 = false
/-- Nothing of a line is to be brought up to date: no shadow and no partial is open, and no copy is lent (R88, R365, R385). -/
abbrev LinesSettled (s : State) : Prop := s.shadows = [] ∧ s.partials = [] ∧ NoCopies s
/-- No group of the module waits in a TAKE. -/
abbrev NoTakes (s : State) : Prop := s.g.takeQ = []
/-- The issuing warp has no access under way, and makes those of the instruction at once (R214). -/
abbrev Alone (s : State) : Prop := s.w.flights = [] ∧ s.iss.cut = 0
/-- No store of the issuing warp waits at its target core (R176, R182). -/
abbrev NoneWaits (s : State) : Prop := s.senderWaits (.warp s.iss.key) = false
/-- No store of the issuing warp waits at its own core, nor at a tile of another (R176, R182). -/
abbrev NoneNear (s : State) : Prop :=
  (s.core s.coreNum).senderWaits (.warp s.iss.key) = false ∧ ∀ c ∈ s.cores, ∀ x ∈ c.2.tileWait, x.sender ≠ .warp s.iss.key
/-- No remote store of the warp is out (R205). -/
abbrev NoneOut (s : State) : Prop := ∀ r ∈ s.remote, r.2.warp ≠ s.iss.key ∧ r.2.twin ≠ some s.iss.key
/-- No release of the warp has anything to wait for: it has no access under way, no window of a paired copy, no remote store, and no store that waits
at its target (R199, R356). -/
abbrev Released (s : State) : Prop := s.w.flights = [] ∧ s.w.win = none ∧ NoneOut s ∧ NoneWaits s

/-! ## Memory accesses -/

/-- Nothing else in the module has a part in an access: no shadow and no partial is open, the fallback lock is free, no copy of a line is lent, no
thread and no host hart is in a transaction or holds a reservation, no core's remote stores hold a unit of its class back, the issuing
warp is on a core of the module and has no access or store under way, and it is no paired copy. -/
structure Quiet (s : State) : Prop where
  shadows : s.shadows = []
  partials : s.partials = []
  lock : s.lock = none
  lines : NoCopies s
  warps : ∀ x ∈ s.warps, ∀ L, L < 32 → (x.2.thread L).tx = none
  harts : ∀ x ∈ s.harts, x.2.tx = none ∧ x.2.lr = none
  promoted : ∀ who pa n, s.promotes who pa n = false
  waits : NoneWaits s
  flights : Alone s
  core : s.coreNum < 1152
  alone : s.w.win = none ∧ s.gr.paired = false
  set : s.iss.set ≠ 0

/-- Bytes at physical addresses are this module's (R169, R364). -/
abbrev HomedHere (s : State) (pa n : Nat) : Prop := ∀ i, i < n → (pa + i) / 2 ^ 48 = s.pkg
/-- The issuing warp may make an access of a kind to n bytes at an address: the first and the last byte are canonical, every byte translates
with the permission, the entries of the tables are at hand, and the places it reaches are this module's, are backed and allow it (R61, R213). -/
structure Allows (s : State) (k : AKind) (e : Eff) (va : W64) (n : Nat) : Prop where
  canon : canonical va = true ∧ canonical (va + BitVec.ofNat 64 (n - 1)) = true
  walks : ∀ i, i < n → ∃ pa size nc, s.walk (s.coreNum / 48) s.gr.ctx (va + BitVec.ofNat 64 i) k = .ok pa size nc
  may : ∀ x ∈ s.pieces k va n, s.warpMay s.g x.pa x.n e = true
  whole : s.straddles (s.pieces k va n) = false
  here : ∀ x ∈ s.pieces k va n, HomedHere s x.pa x.n
  tables : s.pagesAway k [⟨0, va, n⟩] = none

/-- The physical ranges of an access: address, offset in the access, and length. -/
def Machine.State.ranges (s : State) (k : AKind) (va : W64) (n : Nat) : List (Nat × Nat × Nat) :=
  (s.pieces k va n).map fun x => (x.pa, x.off, x.n)
/-- The bytes that a load of n bytes finds, in the order of their addresses. -/
def Machine.State.bytesFor (s : State) (k : AKind) (va : W64) (n : Nat) : List Byte :=
  (s.ranges k va n).flatMap fun r => s.bytesAt r.1 r.2.2
/-- No byte of an access carries poison. -/
abbrev CleanAt (s : State) (k : AKind) (va : W64) (n : Nat) : Prop :=
  ∀ r ∈ s.ranges k va n, ∀ i, i < r.2.2 → s.poisoned (r.1 + i) = false
/-- Every byte of an access lies in device memory or in a scratchpad. -/
abbrev PlainAt (s : State) (k : AKind) (va : W64) (n : Nat) : Prop :=
  ∀ r ∈ s.ranges k va n, s.place r.1 = .device ∨ ∃ c o, s.place r.1 = .scratch c o
/-- Memory after stores of bytes at virtual addresses, in order. -/
def Machine.State.stored (s : State) (ws : List (W64 × List Byte)) : List Host.Cell :=
  ws.foldl (fun m w => (s.ranges .write w.1 w.2.length).foldl
    (fun m r => Memory.writeBytes m r.1 ((w.2.drop r.2.1).take r.2.2)) m) s.mem
/-- The state after a read of memory, but for the agent that makes it: the classes of its units and the holders of its lines may change. -/
def Machine.State.looked (s t : State) : State := { s with classes := t.classes, dir := t.dir, dirOrder := t.dirOrder, holders := t.holders }
/-- The state after an access, but for the issuing warp: another memory, and what an access may do to poison marks, to the classes of its units,
to the holders of its lines and to the count of remote stores. -/
def Machine.State.accessed (s t : State) (m : List Host.Cell) : State :=
  { (s.looked t) with mem := m, poison := t.poison, remote := t.remote, nextRemote := t.nextRemote }
/-- Stores of the issuing warp: memory takes them in order, no poison mark appears, and $ost counts one more if one of them is
remote (R204, R205). -/
structure StoresDone (s t : State) (ws : List (W64 × List Byte)) : Prop where
  memory : t.mem = s.stored ws
  outside : ∀ a, (∀ w ∈ ws, ∀ r ∈ s.ranges .write w.1 w.2.length, ¬(r.1 ≤ a ∧ a < r.1 + r.2.2)) → Memory.read t.mem a = Memory.read s.mem a
  poison : ∀ u ∈ t.poison, u ∈ s.poison
  remote : if ∃ w ∈ ws, ∃ r ∈ s.ranges .write w.1 w.2.length, s.isRemote s.coreNum r.1 = true
    then ∃ r, tget? t.remote s.nextRemote = some r ∧ r.warp = s.iss.key else t.remote = s.remote
/-- The warp has room in its count of remote stores. -/
abbrev RemoteRoom (s : State) : Prop := (s.remote.filter fun r => r.2.warp = s.iss.key || r.2.twin = some s.iss.key).length < 255

/-! ## Traps -/

/-- A trap of the issuing warp is taken: it has a handler, it is not in one, and no thread of the issue set is in a transaction
(R238, R317, R320, R321). -/
abbrev TrapTakes (s : State) : Prop := s.w.tvec ≠ 0 ∧ s.w.handler = false ∧ s.w.inTx s.iss.set = 0

/-- The issuing warp has entered its trap handler (R317): the trap registers hold the cause, the detail, the address of the instruction
and the masks; the threads of the issue set stand at $tvec and the others are frozen. No register of the program and no byte of memory
has changed, and of the special registers only those a trap writes. -/
structure TrapTaken (s t : State) (act : W32) (cause : Nat) (detail : W64) : Prop where
  only : OnlyWarp s t
  regs : RegsKept s t noReg noLane noReg
  trapc : t.w.trapc = BitVec.ofNat 64 cause
  trapa : t.w.trapa = detail
  trappc : t.w.trappc = s.iss.pc
  trapm : t.w.trapm = act.append s.iss.set
  handler : t.w.handler = true
  rprog : t.w.rprog = s.iss.idx
  set : ∀ L, L < 32 → s.iss.set.getLsbD L = true →
    (t.w.thread L).pc = s.w.tvec ∧ (t.w.thread L).status = .eligible ∧ (t.w.thread L).frozen = (s.w.thread L).frozen
  others : ∀ L, L < 32 → s.iss.set.getLsbD L = false →
    t.w.thread L = if (s.w.thread L).status = .exited then s.w.thread L else { (s.w.thread L) with frozen := true }
  special : { t.w.special with trapc := s.w.trapc, trapa := s.w.trapa, trappc := s.w.trappc, trapm := s.w.trapm, handler := s.w.handler
                               hset := s.w.hset, trapAt := s.w.trapAt, rprogPc := s.w.rprogPc } = s.w.special

/-! ## The host harts -/

/-- Nothing else in the module has a part in an access of the host or of an agent: no shadow and no partial is open, the fallback lock is free,
no copy of a line is lent, no thread and no hart is in a transaction, no hart holds a reservation, no page has a class, and no store of a hart waits at a
core window. -/
structure Calm (s : State) : Prop where
  shadows : s.shadows = []
  partials : s.partials = []
  lock : s.lock = none
  lines : NoCopies s
  warps : ∀ x ∈ s.warps, ∀ L, L < 32 → (x.2.thread L).tx = none
  harts : ∀ x ∈ s.harts, x.2.tx = none ∧ x.2.lr = none
  classes : s.classes = []
  waits : ∀ h, s.senderWaits (.hart h) = false

/-- A hart goes on at the next instruction with a value in rd, in a transaction or none; x0 takes nothing. No other register of it and no other
hart changes. -/
structure HartWent (s t : State) (h d : Nat) (v : W64) (tx : Option HostTx) : Prop where
  reg : ∀ n, n < 32 → (t.hart h).rd n = if n = d ∧ n ≠ 0 then v else (s.hart h).rd n
  rest : t.hart h = { s.hart h with x := (t.hart h).x, pc := (s.hart h).pc + 4, waiting := none, tx := tx, minstret := (s.hart h).minstret + 1 }
  others : ∀ k, k ≠ h → t.hart k = s.hart k
/-- A hart's transaction has aborted (R240): it goes on after dx.tbegin, whose rd holds the code and the detail. -/
structure HartAborted (s t : State) (h : Nat) (x : HostTx) (code detail : Nat) : Prop where
  reg : ∀ n, n < 32 → (t.hart h).rd n = if n = x.rd ∧ n ≠ 0 then BitVec.ofNat 64 (code + detail * 256) else (s.hart h).rd n
  rest : t.hart h = { s.hart h with x := (t.hart h).x, pc := x.pc, waiting := none, tx := none, commit := false }
  others : ∀ k, k ≠ h → t.hart k = s.hart k
/-- A hart has taken an exception or an interrupt, bit 63 of whose cause is set: in S mode when it comes from a lower mode than M and is delegated, else in M mode
(log entry 11). -/
def HartTrapped (s t : State) (h : Nat) (cause tval : W64) : Prop :=
  let me := s.hart h
  let vector := fun (base : W64) =>
    base - BitVec.ofNat 64 (base.toNat % 4) + (if base.getLsbD 0 ∧ cause.getLsbD 63 then 4 * setFld cause 63 1 0 else 0)
  (if me.mode ≠ .m ∧ (if cause.getLsbD 63 then me.mideleg else me.medeleg).getLsbD (cause.toNat % 64) = true then
    t.hart h = { me with
      sepc := me.pc, scause := cause, stval := tval, mode := .s, pc := vector me.stvec, waiting := none
      mstatus := setFld (setFld (setFld me.mstatus 5 1 (if me.mstatus.getLsbD 1 then 1 else 0)) 1 1 0) 8 1 (if me.mode = .s then 1 else 0) }
  else
    t.hart h = { me with
      mepc := me.pc, mcause := cause, mtval := tval, mode := .m, pc := vector me.mtvec, waiting := none
      mstatus := setFld (setFld (setFld me.mstatus 7 1 (if me.mstatus.getLsbD 3 then 1 else 0)) 3 1 0) 11 2
        (match me.mode with | .u => 0 | .s => 1 | .m => 3) }) ∧
  ∀ k, k ≠ h → t.hart k = s.hart k

/-- An aligned access of a hart passes its checks and reaches the pieces ps on this module, which it has the rights to; the entries of its tables are at
hand. -/
def HartReaches (s : State) (h : Nat) (k : HKind) (e : Eff) (va : W64) (n align : Nat) (ps : List HPiece) : Prop :=
  s.hartAccess h k va n align = .ok ps ∧ (∀ x ∈ ps, s.hartMayAt h x.pa x.n e = true ∧ HomedHere s x.pa x.n) ∧
  s.hartWalkAway h k va = none ∧ s.hartWalkAway h k (va + BitVec.ofNat 64 (n - 1)) = none
/-- No byte of the pieces carries poison. -/
abbrev HartClean (s : State) (ps : List HPiece) : Prop := ∀ x ∈ ps, ∀ i, i < x.n → s.poisoned (x.pa + i) = false
/-- The bytes that a hart reads at its pieces. -/
def Machine.State.hartBytes (s : State) (ps : List HPiece) : List Byte := ps.flatMap fun x => s.agentBytes x.pa x.n
/-- Memory after a hart's store of bytes at its pieces. -/
def Machine.State.hartStored (s : State) (ps : List HPiece) (bs : List Byte) : List Host.Cell :=
  ps.foldl (fun m x => Memory.writeBytes m x.pa ((bs.drop x.off).take x.n)) s.mem
/-- No store waits at a mailbox or a tile, and nothing is asked of another module. -/
abbrev HartsDrained (s : State) : Prop := s.asks = [] ∧ ∀ c ∈ s.cores, c.2.mbWait = [] ∧ c.2.tileWait = []

end Sys2Proof
end

