-- ==== Sys2Proof/Certificates/Slice0/Obligations.lean ====
section
/-! DEFINITION. The statements. -/

open Sys2Proof Sys2Proof.Machine

/-! ## Uniform instructions -/

/-- R54: the table of F for the register operations that no operand makes trap. Shift counts are b[5:0]. -/
def Sys2Proof.uniformTable : List ((UR → Instr) × (W64 → W64 → W64)) :=
  [(.sadd, fun a b => a + b), (.ssub, fun a b => a - b), (.smul, fun a b => a * b),
   (.smulh, fun a b => BitVec.ofInt 64 (a.toInt * b.toInt / 2 ^ 64)),
   (.sand, fun a b => a &&& b), (.sor, fun a b => a ||| b), (.sxor, fun a b => a ^^^ b),
   (.sshl, fun a b => a <<< (b.toNat % 64)), (.sshr, fun a b => a >>> (b.toNat % 64)),
   (.ssra, fun a b => a.sshiftRight (b.toNat % 64)),
   (.smin, fun a b => if a.slt b then a else b), (.smax, fun a b => if a.slt b then b else a),
   (.sminn, fun a b => if a.ult b then a else b), (.smaxn, fun a b => if a.ult b then b else a),
   (.sseq, fun a b => if a = b then 1 else 0), (.ssne, fun a b => if a = b then 0 else 1),
   (.sslt, fun a b => if a.slt b then 1 else 0), (.ssltn, fun a b => if a.ult b then 1 else 0)]

/-- R53, R54: each of SADD, SSUB, SMUL, SMULH, SAND, SOR, SXOR, SSHL, SSHR, SSRA, SMIN, SMAX, SMINN, SMAXN, SSEQ, SSNE, SSLT and SSLTN writes
F(s[sa], b) to sd and nothing else, and the issue set goes on at the next word. -/
def Sys2Proof.UniformOperationsWriteTheirResult : Prop :=
  ∀ e ∈ uniformTable, ∀ (f : UR) (s : State), (e.1 f).wf = true →
    Completes (e.1 f) s fun t => UniformResult s t f.d (e.2 (s.rdS f.a) (s.opB f.b)) (s.iss.base + 4)

/-- R55: with a divisor other than 0, SDIV writes the quotient truncated toward zero and SREM the remainder; −2^63 by −1 gives −2^63
and 0. -/
def Sys2Proof.UniformDivisionWritesItsResult : Prop :=
  ∀ (f : UR) (s : State), (Instr.sdiv f).wf = true → s.opB f.b ≠ 0 →
    Completes (.sdiv f) s (fun t => UniformResult s t f.d ((s.rdS f.a).sdiv (s.opB f.b)) (s.iss.base + 4)) ∧
    Completes (.srem f) s (fun t => UniformResult s t f.d ((s.rdS f.a).srem (s.opB f.b)) (s.iss.base + 4))
/-- R58: the functions of SBIT. -/
def Sys2Proof.sbitValue (fn : Nat) (a : W64) : W64 :=
  if fn = 0 then BitVec.ofNat 64 (64 - Nat.log2 (2 * a.toNat))
  else if fn = 1 then BitVec.ofNat 64 (((List.range 64).find? fun i => a.getLsbD i).getD 64)
  else if fn = 2 then BitVec.ofNat 64 ((List.range 64).filter fun i => a.getLsbD i).length
  else a.reverse
/-- R57: sign flag, width and position that a specification names, the width cut at bit 63. -/
def Sys2Proof.uniformField (b : Opnd) (v : W64) : Bool × Nat × Nat :=
  let sx := match b with | .reg _ => v.getLsbD 12 | .imm _ => v.getLsbD 6
  let w := match b with | .reg _ => v.toNat / 64 % 64 + 1 | .imm _ => (v.toNat / 8 % 8 + 1) * 8
  let p := match b with | .reg _ => v.toNat % 64 | .imm _ => v.toNat % 8 * 8
  (sx, if 64 < p + w then 64 - p else w, p)
/-- R56 to R60: SSEL, SBFX, SBFI, SBIT, SLI, SLIS and SMOVL write the value of their rule to sd and nothing else. SMOVL reads any lane of a
register that the warp holds and no access under way has still to write. -/
def Sys2Proof.UniformFieldsAndConstantsWriteTheirResult : Prop :=
  ∀ s : State,
    let done := fun (d : Nat) (v : W64) (t : State) => UniformResult s t d v (s.iss.base + 4)
    (∀ f : UR, (Instr.ssel f).wf = true →
      Completes (.ssel f) s (done f.d (if s.rdS f.d ≠ 0 then s.rdS f.a else s.opB f.b))) ∧
    (∀ f : UR, (Instr.sbfx f).wf = true →
      let (sx, w, p) := uniformField f.b (s.opB f.b)
      Completes (.sbfx f) s (done f.d
        (let x := (s.rdS f.a >>> p).setWidth w
         if sx then x.signExtend 64 else x.setWidth 64))) ∧
    (∀ f : UR, (Instr.sbfi f).wf = true →
      let (_, w, p) := uniformField f.b (s.opB f.b)
      let mask := ((BitVec.allOnes w).setWidth 64) <<< p
      Completes (.sbfi f) s (done f.d ((s.rdS f.d &&& ~~~mask) ||| ((s.rdS f.a <<< p) &&& mask)))) ∧
    (∀ d a fn, (Instr.sbit d a fn).wf = true → Completes (.sbit d a fn) s (done d (sbitValue fn (s.rdS a)))) ∧
    (∀ d imm, (Instr.sli d imm).wf = true → Completes (.sli d imm) s (done d ((BitVec.ofNat 17 imm).signExtend 64))) ∧
    (∀ d imm, (Instr.slis d imm).wf = true →
      Completes (.slis d imm) s (done d ((s.rdS d <<< 17) ||| (BitVec.ofNat 17 imm).setWidth 64))) ∧
    (∀ f : UR, (Instr.smovl f).wf = true → s.w.holdsV f.a = true → RegsFree s.w [(f.a, 1)] →
      Completes (.smovl f) s (done f.d ((s.w.rdV f.a ((s.opB f.b).toNat % 32)).setWidth 64)))
/-- R53, R54, R56 to R60: the uniform register operations, the fields and the constants. -/
def Obligations.UniformInstructionsWriteTheirResult : Prop :=
  UniformOperationsWriteTheirResult ∧ UniformFieldsAndConstantsWriteTheirResult

/-- R13, R66 to R68: SB, SBZ, SBNZ, SBLT, SCALL and SLOOP with a canonical target take it when their condition holds, and otherwise go on
at the next word. SCALL writes s159 and SLOOP its counter; no other register changes. -/
def Sys2Proof.RelativeBranchesGoWhereTheirConditionSays : Prop :=
  ∀ s : State,
    let next := s.iss.base + 4
    let at25 := fun off => wordTarget s 25 off
    let at17 := fun off => wordTarget s 17 off
    (∀ off, canonical (at25 off) = true →
      Completes (.sb off) s (Moved s · noReg (at25 off)) ∧
      Completes (.scall off) s (fun t => UniformResult s t 159 next (at25 off))) ∧
    (∀ a off, canonical (at17 off) = true →
      Completes (.sbz a off) s (Moved s · noReg (if s.rdS a = 0 then at17 off else next)) ∧
      Completes (.sbnz a off) s (Moved s · noReg (if s.rdS a = 0 then next else at17 off)) ∧
      Completes (.sblt a off) s (Moved s · noReg (if (s.rdS a).getLsbD 63 then at17 off else next)) ∧
      ((Instr.sloop a off).wf = true →
        Completes (.sloop a off) s (fun t => UniformResult s t a (s.rdS a - 1) (if s.rdS a = 1 then next else at17 off)))) ∧
    (∀ a off, (s.rdS a ≠ 0 → Completes (.sbz a off) s (Moved s · noReg next)) ∧
      (s.rdS a = 0 → Completes (.sbnz a off) s (Moved s · noReg next)) ∧
      ((s.rdS a).getLsbD 63 = false → Completes (.sblt a off) s (Moved s · noReg next)) ∧
      (s.rdS a = 1 → (Instr.sloop a off).wf = true → Completes (.sloop a off) s (fun t => UniformResult s t a 0 next)))

/-- R66: SJ, SCALLR and SRET take an aligned canonical target from a register; SCALLR reads it before it writes s159. -/
def Sys2Proof.RegisterTransfersTakeTheirTarget : Prop :=
  ∀ s : State,
    (∀ a, (s.rdS a).getLsbD 0 = false → (s.rdS a).getLsbD 1 = false → canonical (s.rdS a) = true →
      Completes (.sj a) s (Moved s · noReg (s.rdS a)) ∧
      Completes (.scallr a) s (fun t => UniformResult s t 159 (s.iss.base + 4) (s.rdS a))) ∧
    ((s.rdS 159).getLsbD 0 = false → (s.rdS 159).getLsbD 1 = false → canonical (s.rdS 159) = true →
      Completes .sret s (Moved s · noReg (s.rdS 159)))
/-- R13, R66 to R68: relative branches and calls, and jumps and returns through a register. -/
def Obligations.TransfersGoToTheirTarget : Prop :=
  RelativeBranchesGoWhereTheirConditionSays ∧ RegisterTransfersTakeTheirTarget

/-- R67: a taken transfer to a register's misaligned target traps ALIGN, and one to a non-canonical target ACCESS, with the target as the
detail. Neither s159 nor the counter of SLOOP is written. -/
def Obligations.TransfersToBadTargetsTrap : Prop :=
  ∀ s : State, TrapTakes s →
    let trap := fun (cause : Nat) (v : W64) (t : State) => TrapTaken s t s.iss.set cause v
    (∀ off, canonical (wordTarget s 25 off) = false →
      Completes (.sb off) s (trap 0x05 (wordTarget s 25 off)) ∧ Completes (.scall off) s (trap 0x05 (wordTarget s 25 off))) ∧
    (∀ a off, canonical (wordTarget s 17 off) = false →
      (s.rdS a = 0 → Completes (.sbz a off) s (trap 0x05 (wordTarget s 17 off))) ∧
      (s.rdS a ≠ 0 → Completes (.sbnz a off) s (trap 0x05 (wordTarget s 17 off))) ∧
      ((s.rdS a).getLsbD 63 = true → Completes (.sblt a off) s (trap 0x05 (wordTarget s 17 off))) ∧
      (s.rdS a ≠ 1 → Completes (.sloop a off) s (trap 0x05 (wordTarget s 17 off)))) ∧
    (∀ v cause, ((v.toNat % 4 ≠ 0 ∧ cause = 0x04) ∨ (v.toNat % 4 = 0 ∧ canonical v = false ∧ cause = 0x05)) →
      (∀ a, s.rdS a = v → Completes (.sj a) s (trap cause v) ∧ Completes (.scallr a) s (trap cause v)) ∧
      (s.rdS 159 = v → Completes .sret s (trap cause v)))

/-- R17, R36: what SGET reads of a control register, by its number, from the state that holds it. -/
def Sys2Proof.controlTable (s : State) : List (Nat × W64) :=
  let w := s.w
  let g := s.g
  let n := fun x : Nat => BitVec.ofNat 64 x
  [(0x00, n w.index), (0x01, n g.index), (0x02, n g.gang), (0x03, n g.grid), (0x04, n g.ngroups), (0x05, n g.nwarps),
   (0x06, n (s.iss.key / 64 + s.iss.key % 64 / 16 * 65536)), (0x07, n s.pkg), (0x08, n s.gr.depth),
   (0x09, n ((s.cycles + 2 ^ 64 - tget 0 s.dieSince (s.iss.key / 64 / 48)) % 2 ^ 64 + g.clkOff)),
   (0x0A, n (s.ps / 1000)), (0x0B, s.gr.lrec.params), (0x0C, w.fpmode), (0x0D, n w.part),
   (0x0E, n (s.remote.filter fun r => r.2.warp = s.iss.key || r.2.twin = some s.iss.key).length), (0x0F, n w.qcopy), (0x10, n w.qgath), (0x11, n w.qmat),
   (0x12, n w.qcoll), (0x13, w.evp.setWidth 64), (0x14, w.evm.setWidth 64), (0x29, n s.ticket), (0x2A, n w.txlim), (0x30, w.mmode),
   (0x31, w.mfault), (0x32, w.mcorr), (0x35, n w.rprog), (0x3D, 0), (0x40, w.trapc), (0x41, w.trapa), (0x42, w.trappc), (0x43, w.trapm),
   (0x44, w.tvec), (0x48, g.own), (0x49, w.acch), (0x4A, w.vext.setWidth 64)] ++
  ((List.range 16).map fun i => (0x18 + i, vget 0 w.evh i)) ++ ((List.range 5).map fun i => (0x38 + i, vget 0 w.mtol i))
/-- R70, R71: SGET writes sd with the value of the control register, for every number of the table, and nothing else; a register whose value was
changed in the warp's save record reads as changed (R340). $txst, $mprog, $gprog
and $lanemap are computed registers and read as the model's ctlOf gives them. -/
def Obligations.ControlReadsWriteTheRegistersValue : Prop :=
  ∀ (d : Nat) (s : State),
    (∀ e ∈ controlTable s, (Instr.sget d e.1).wf = true →
      Completes (.sget d e.1) s fun t => UniformResult s t d (tget e.2 s.w.shown e.1) (s.iss.base + 4)) ∧
    (∀ n ∈ [0x28, 0x33, 0x34, 0x51], (Instr.sget d n).wf = true →
      Completes (.sget d n) s fun t => UniformResult s t d (s.ctlOf s.iss.key n) (s.iss.base + 4))

/-- R80, R98, R165, R239, R282, R318: what SSET makes of a control register, by its number. $fpmode keeps RM when 110 or 111 is written to it,
$part takes tile sizes 1 to 5, an address loses bits [1:0], and a field of $mtol keeps its value when a NaN or an infinity is
written. -/
def Sys2Proof.controlWrites (w : Warp) (v : W64) : List (Nat × Warp) :=
  let f := fun lo len => v.toNat / 2 ^ lo % 2 ^ len
  let mag := fun old new : Nat => if 0x7F800000 ≤ new % 2 ^ 31 then old else new % 2 ^ 31
  let code : W64 := v - BitVec.ofNat 64 (v.toNat % 4)
  let fp := (if f 0 3 < 6 then f 0 3 else w.fpmode.toNat % 8) + f 3 2 * 8 + f 8 5 * 256
  [(0x0C, { w with fpmode := BitVec.ofNat 64 fp }),
   (0x0D, { w with part := if 1 ≤ f 0 3 ∧ f 0 3 ≤ 5 then f 0 3 else w.part }),
   (0x14, { w with evm := v.setWidth 16 }),
   (0x2A, { w with txlim := f 0 4 }), (0x30, { w with mmode := BitVec.ofNat 64 (f 0 2) }), (0x42, { w with trappc := code })] ++
  ((List.range 16).map fun i => (0x18 + i, { w with evh := vset w.evh i code })) ++
  ((List.range 5).map fun i =>
    let o := (vget 0 w.mtol i).toNat
    (0x38 + i, { w with mtol := vset w.mtol i (BitVec.ofNat 64 (mag (o % 2 ^ 32) (f 0 32) + mag (o / 2 ^ 32) (f 32 32) * 2 ^ 32)) }))
/-- R70: SSET writes the control register for the whole warp, and nothing else, while no issue set of the warp waits for an event. -/
def Obligations.ControlWritesChangeTheirRegister : Prop :=
  ∀ (a : Nat) (s : State), NoneAny s → ∀ e ∈ controlWrites s.w (s.rdS a), (Instr.sset e.1 a).wf = true →
    Completes (.sset e.1 a) s fun t =>
      OnlyWarp s t ∧ RegsKept s t noReg noLane noReg ∧ t.w.special = e.2.special ∧ GoOn s t s.iss.set (s.iss.base + 4)

/-! ## Lane integer instructions -/

/-- R111: an operation with its exact function F of a and b, whether SAT applies, and whether b is a shift count. -/
structure Sys2Proof.IntRow where
  make : LRI → Instr
  sat : Bool
  count : Bool
  F : IntTy → Int → Int → Int

/-- R111: the table of F. The bits of AND, OR and XOR are those of two's complement; a shift count is taken modulo the width. -/
def Sys2Proof.intTable : List IntRow :=
  [⟨.add, true, false, fun _ a b => a + b⟩, ⟨.sub, true, false, fun _ a b => a - b⟩, ⟨.mul, true, false, fun _ a b => a * b⟩,
   ⟨.mulh, false, false, fun t a b => a * b / 2 ^ IntTy.w t⟩,
   ⟨.min, false, false, fun _ a b => if a < b then a else b⟩, ⟨.max, false, false, fun _ a b => if a < b then b else a⟩,
   ⟨.and, false, false, fun _ a b => (BitVec.ofInt 64 a &&& BitVec.ofInt 64 b).toInt⟩,
   ⟨.or, false, false, fun _ a b => (BitVec.ofInt 64 a ||| BitVec.ofInt 64 b).toInt⟩,
   ⟨.xor, false, false, fun _ a b => (BitVec.ofInt 64 a ^^^ BitVec.ofInt 64 b).toInt⟩,
   ⟨.shl, true, true, fun t a n => a * 2 ^ (n.toNat % IntTy.w t)⟩,
   ⟨.shr, false, true, fun t a n => a / 2 ^ (n.toNat % IntTy.w t)⟩,
   ⟨.rot, false, true, fun t a n => ((BitVec.ofInt (IntTy.w t) a).rotateLeft (n.toNat % IntTy.w t)).toNat⟩]

/-- R108, R111: each of ADD, SUB, MUL, MULH, MIN, MAX, AND, OR, XOR, SHL, SHR and ROT delivers F(a, b) of every active lane to vd, wrapped to
the type, or saturated under SAT, and changes nothing else. -/
def Sys2Proof.LaneIntegerOperationsWriteTheirResult : Prop :=
  ∀ e ∈ intTable, ∀ (f : LRI) (s : State), (e.make f).wf = true → s.iss.idx ≤ f.pre.last →
    RegsHeld s f.pre (intUses f (if e.count then 1 else IntTy.regs f.t)) →
    Completes (e.make f) s fun t =>
      LaneResult s t f.pre.rep (s.act f.pre) (s.zeroed f.pre) (IntTy.wide f.t) (f.pre.d s.iss.idx f.d)
        (fun L => IntTy.image f.t (e.sat && f.pre.sat)
          (e.F f.t (intA s f L) (if e.count then (countB s f.pre f.b L : Int) else intB s f L))) s.w.fpmode

/-- R111: MAD delivers a × b + c, wrapped or saturated. R112: without a zero divisor in an active lane, DIV delivers the quotient truncated
toward zero and REM the remainder. Each writes vd and nothing else. -/
def Sys2Proof.LaneMultiplyAddAndDivisionWriteTheirResult : Prop :=
  ∀ (f : LRI) (s : State), s.iss.idx ≤ f.pre.last →
    let result := fun (sat : Bool) (F : Nat → Int) (t : State) =>
      LaneResult s t f.pre.rep (s.act f.pre) (s.zeroed f.pre) (IntTy.wide f.t) (f.pre.d s.iss.idx f.d)
        (fun L => IntTy.image f.t sat (F L)) s.w.fpmode
    ((Instr.mad f).wf = true →
      RegsHeld s f.pre (fun j => intUses f (IntTy.regs f.t) j ++ [(f.pre.vc j f.d, IntTy.regs f.t)]) →
      Completes (.mad f) s (result f.pre.sat fun L => intA s f L * intB s f L + intC s f L)) ∧
    (RegsHeld s f.pre (intUses f (IntTy.regs f.t)) → (∀ L, L < 32 → (s.act f.pre).getLsbD L = true → intB s f L ≠ 0) →
      ((Instr.div f).wf = true → Completes (.div f) s (result false fun L => (intA s f L).tdiv (intB s f L))) ∧
      ((Instr.rem f).wf = true → Completes (.rem f) s (result false fun L => (intA s f L).tmod (intB s f L))))
/-- R108, R111, R112: the integer operations of the lanes. -/
def Obligations.LaneArithmeticWritesItsResult : Prop :=
  LaneIntegerOperationsWriteTheirResult ∧ LaneMultiplyAddAndDivisionWriteTheirResult

/-- R55, R112: a zero divisor makes SDIV, SREM, DIV and REM trap DIVZERO; the lane instructions give the lowest such active lane as
the detail. sd and vd keep their values. -/
def Sys2Proof.DivisionByZeroTraps : Prop :=
  ∀ s : State, TrapTakes s →
    (∀ f : UR, s.opB f.b = 0 →
      Completes (.sdiv f) s (TrapTaken s · s.iss.set 0x10 0) ∧ Completes (.srem f) s (TrapTaken s · s.iss.set 0x10 0)) ∧
    (∀ (f : LRI) (L : Nat), s.iss.idx ≤ f.pre.last → RegsHeld s f.pre (intUses f (IntTy.regs f.t)) → L < 32 →
      (s.act f.pre).getLsbD L = true → intB s f L = 0 →
      (∀ K, K < L → (s.act f.pre).getLsbD K = true → intB s f K ≠ 0) →
      Completes (.div f) s (TrapTaken s · (s.act f.pre) 0x10 (BitVec.ofNat 64 L)) ∧
      Completes (.rem f) s (TrapTaken s · (s.act f.pre) 0x10 (BitVec.ofNat 64 L)))

/-- R55, R112: division and remainder of uniform registers, and the trap of a zero divisor in either set. -/
def Obligations.DivisionsTruncateOrTrapOnZero : Prop :=
  UniformDivisionWritesItsResult ∧ DivisionByZeroTraps

/-- R113: ADDC adds a carry bit of the mask that EXT names, m1 by default, read and written through INV, for every thread of the issue set:
vd takes the low 32 bits of the sum, and the mask bit the carry out of n32 or the signed overflow of i32. -/
def Sys2Proof.AddWithCarryWritesSumAndCarry : Prop :=
  ∀ (f : LRI) (s : State), (Instr.addc f).wf = true → s.iss.idx ≤ f.pre.last → RegsHeld s f.pre (intUses f 1) →
    let c := match f.pre.ext with | some e => e.mask | none => 1
    let inv := match f.pre.ext with | some e => e.inv | none => false
    let a := fun L => s.w.rdV (f.pre.a s.iss.idx f.a) L
    let b := fun L => BitVec.ofNat 32 (countB s f.pre f.b L)
    let cin := fun L => (s.w.rdM c).getLsbD L != inv
    let one := fun x : Bool => if x then (1 : Nat) else 0
    let overflows := fun L =>
      if f.t = .i32 then
        decide ((a L).toInt + (b L).toInt + one (cin L) < -2 ^ 31 ∨ 2 ^ 31 ≤ (a L).toInt + (b L).toInt + one (cin L))
      else decide (2 ^ 32 ≤ (a L).toNat + (b L).toNat + one (cin L))
    Completes (.addc f) s fun t =>
      LaneEffect s t f.pre.rep noReg (LanesOf false (f.pre.d s.iss.idx f.d) s.iss.set 0) (· = c) s.w.fpmode ∧
      (∀ L, L < 32 → s.iss.set.getLsbD L = true →
        t.w.rdV (f.pre.d s.iss.idx f.d) L = a L + b L + BitVec.ofNat 32 (one (cin L))) ∧
      (∀ L, L < 32 → c ≠ 0 → (t.w.rdM c).getLsbD L = if s.iss.set.getLsbD L then overflows L != inv else (s.w.rdM c).getLsbD L)

/-- R115: SEL gives every thread of the issue set a where its selector bit is 1 and b where it is 0; the selector is m1, or the mask that EXT
names, read through INV. -/
def Sys2Proof.SelectTakesOneOfTwo : Prop :=
  ∀ (f : LRI) (s : State), (Instr.sel f).wf = true → s.iss.idx ≤ f.pre.last → RegsHeld s f.pre (intUses f (IntTy.regs f.t)) →
    let sel := match f.pre.ext with | some e => (fun L => (s.w.rdM e.mask).getLsbD L != e.inv) | none => fun L => (s.w.rdM 1).getLsbD L
    Completes (.sel f) s fun t =>
      LaneResult s t f.pre.rep s.iss.set 0 (IntTy.wide f.t) (f.pre.d s.iss.idx f.d)
        (fun L => BitVec.ofNat 64 (if sel L then s.w.rdT (IntTy.wide f.t) (f.pre.a s.iss.idx f.a) L
          else s.w.rdB f.pre s.iss.idx (IntTy.wide f.t) f.b L)) s.w.fpmode
/-- R113, R115: ADDC and SEL. -/
def Obligations.AddWithCarryAndSelectReadAMask : Prop :=
  AddWithCarryWritesSumAndCarry ∧ SelectTakesOneOfTwo

/-- R114: the compares of a and b as values of the type. -/
def Sys2Proof.compareTable : List ((LRI → Instr) × (Int → Int → Bool)) :=
  [(.cmpeq, fun a b => a = b), (.cmpne, fun a b => a ≠ b), (.cmplt, fun a b => a < b), (.cmple, fun a b => a ≤ b)]
/-- R108, R114: CMPEQ, CMPNE, CMPLT and CMPLE set bit t of md to the result of active lane t; other bits change only under Z, and m0 takes
nothing. -/
def Obligations.LaneComparesWriteTheirMask : Prop :=
  ∀ e ∈ compareTable, ∀ (f : LRI) (s : State), (e.1 f).wf = true → s.iss.idx ≤ f.pre.last →
    RegsHeld s f.pre (fun j => (f.pre.a j f.a, IntTy.regs f.t) :: f.b.use f.pre j (IntTy.regs f.t)) →
    Completes (e.1 f) s fun t =>
      LaneMask s t f.pre.rep (s.act f.pre) (s.zeroed f.pre) (f.pre.d s.iss.idx f.d) (fun L => e.2 (intA s f L) (intB s f L)) s.w.fpmode

/-- R116: the field of a specification in a value of W bits, or none when it begins at or above bit W: its width, cut at the top, and its
position. -/
def Sys2Proof.fieldOf (W : Nat) (b : Opnd) (v : Nat) : Option (Nat × Nat) :=
  let w := match b with | .reg _ => v / 64 % 64 + 1 | .imm _ => (v / 8 % 8 + 1) * 8
  let p := match b with | .reg _ => v % 64 | .imm _ => v % 8 * 8
  if W ≤ p then none else some (if W < p + w then W - p else w, p)
/-- R116: BFX delivers the field of a, extended by the type, and 0 for an empty field; BFI delivers c with the field replaced by the low bits
of a, and c for an empty field. -/
def Obligations.LaneBitFieldsWriteTheirResult : Prop :=
  ∀ (f : LRI) (s : State), s.iss.idx ≤ f.pre.last →
    let wide := IntTy.wide f.t
    let a := fun L => s.w.rdT wide (f.pre.a s.iss.idx f.a) L
    let c := fun L => s.w.rdT wide (f.pre.vc s.iss.idx f.d) L
    let field := fun L => fieldOf (IntTy.w f.t) f.b (countB s f.pre f.b L)
    ((Instr.bfx f).wf = true → RegsHeld s f.pre (intUses f 1) →
      Completes (.bfx f) s fun t =>
        LaneResult s t f.pre.rep (s.act f.pre) (s.zeroed f.pre) wide (f.pre.d s.iss.idx f.d)
          (fun L => match field L with
            | none => 0
            | some (n, p) =>
              let x := a L / 2 ^ p % 2 ^ n
              if IntTy.signed f.t ∧ 2 ^ (n - 1) ≤ x then BitVec.ofInt 64 ((x : Int) - 2 ^ n) else BitVec.ofNat 64 x) s.w.fpmode) ∧
    ((Instr.bfi f).wf = true → RegsHeld s f.pre (fun j => intUses f 1 j ++ [(f.pre.vc j f.d, IntTy.regs f.t)]) →
      Completes (.bfi f) s fun t =>
        LaneResult s t f.pre.rep (s.act f.pre) (s.zeroed f.pre) wide (f.pre.d s.iss.idx f.d)
          (fun L => match field L with
            | none => BitVec.ofNat 64 (c L)
            | some (n, p) =>
              BitVec.ofNat 64 (c L % 2 ^ p + (a L % 2 ^ n) * 2 ^ p + c L / 2 ^ (p + n) * 2 ^ (p + n))) s.w.fpmode)

/-- R58, R117: the number of 0 bits above the highest 1 bit, or below the lowest, the number of 1 bits, and the bits reversed. -/
def Sys2Proof.leadingZeros (n v : Nat) : Nat := ((List.range n).find? fun i => v.testBit (n - 1 - i)).getD n
def Sys2Proof.trailingZeros (n v : Nat) : Nat := ((List.range n).find? fun i => v.testBit i).getD n
def Sys2Proof.onesIn (n v : Nat) : Nat := ((List.range n).filter fun i => v.testBit i).length

/-- R117: the functions of BIT on a 32-bit value. -/
def Sys2Proof.bitValue (fn : BitFn) (a : W32) : W32 :=
  match fn with
  | .clz => BitVec.ofNat 32 (leadingZeros 32 a.toNat)
  | .ctz => BitVec.ofNat 32 (trailingZeros 32 a.toNat)
  | .pop => BitVec.ofNat 32 (onesIn 32 a.toNat)
  | .brev => a.reverse
  | .neg => 0 - a
  | .abs => if a.slt 0 then 0 - a else a
  | .not => ~~~a
/-- R118: byte k of the eight source bytes of PRMB, and byte j of its result. -/
def Sys2Proof.permSource (a d : W32) (k : Nat) : Nat := (d.append a).toNat / 256 ^ k % 256
def Sys2Proof.permByte (a d : W32) (b j : Nat) : Nat :=
  let x := permSource a d (b / 16 ^ j % 8)
  if b / 16 ^ j % 16 < 8 then x else if 128 ≤ x then 0xFF else 0
/-- R74: element j of a packed register whose elements have k bits. -/
def Sys2Proof.packed (signed : Bool) (k : Nat) (x : W32) (j : Nat) : Int :=
  let e := x.toNat / 2 ^ (k * j) % 2 ^ k
  if signed ∧ 2 ^ (k - 1) ≤ e then (e : Int) - 2 ^ k else e
/-- R117 to R119: BIT, PRMB and DOT4 deliver the value of each active lane to vd. -/
def Obligations.LaneBitFunctionsWriteTheirResult : Prop :=
  ∀ (f : LRN) (s : State), s.iss.idx ≤ f.pre.last →
    let rd := fun n L => s.w.rdV n L
    let a := fun L => rd (f.pre.a s.iss.idx f.a) L
    let b := fun L => countB s f.pre f.b L
    let result := fun (v : Nat → W32) (t : State) =>
      LaneResult s t f.pre.rep (s.act f.pre) (s.zeroed f.pre) false (f.pre.d s.iss.idx f.d) (fun L => (v L).setWidth 64) s.w.fpmode
    (∀ fn, (Instr.bit (some fn) f).wf = true → RegsHeld s f.pre (fun j => [(f.pre.d j f.d, 1), (f.pre.a j f.a, 1)]) →
      Completes (.bit (some fn) f) s (result fun L => bitValue fn (a L))) ∧
    ((Instr.bit none f).wf = true → RegsHeld s f.pre (fun j => (f.pre.d j f.d, 1) :: (f.pre.a j f.a, 1) :: f.b.use f.pre j 1) →
      Completes (.bit none f) s (result fun L =>
        let n := match f.b with | .imm v => v | .reg _ => if b L % 32 = 0 then 32 else b L % 32
        ((a L).setWidth n).signExtend 32)) ∧
    ((Instr.prmb f).wf = true → RegsHeld s f.pre (fun j => (f.pre.d j f.d, 1) :: (f.pre.a j f.a, 1) :: f.b.use f.pre j 1) →
      Completes (.prmb f) s (result fun L =>
        let x := permByte (a L) (rd (f.pre.d s.iss.idx f.d) L) (b L)
        BitVec.ofNat 32 (x 0 + x 1 * 256 + x 2 * 65536 + x 3 * 16777216))) ∧
    (∀ signed four, (Instr.dot4 signed four f).wf = true →
      RegsHeld s f.pre (fun j => (f.pre.d j f.d, 1) :: (f.pre.a j f.a, 1) :: (f.b.use f.pre j 1 ++ [(f.pre.vc j f.d, 1)])) →
      Completes (.dot4 signed four f) s (result fun L =>
        let k := if four then 4 else 8
        let ty := if signed then IntTy.i32 else IntTy.n32
        let c := rd (f.pre.vc s.iss.idx f.d) L
        let x := (if signed then c.toInt else (c.toNat : Int)) +
          ((List.range (32 / k)).map fun j => packed signed k (a L) j * packed signed k (BitVec.ofNat 32 (b L)) j).sum
        (IntTy.image ty f.pre.sat x).setWidth 32))

/-- R120, R121: MOVI.z, MOVI.s, MOVI.hi, MOV.lane, MOV.u, MOV.c and MOV.tu write the value of their row of the tables. MOV.tu
writes one uniform register, from the lowest active lane. -/
def Obligations.MovesWriteTheirValue : Prop :=
  ∀ s : State,
    let result := fun (p : Pre) (d : Nat) (v : Nat → W32) (t : State) =>
      LaneResult s t p.rep (s.act p) (s.zeroed p) false d (fun L => (v L).setWidth 64) s.w.fpmode
    (∀ f : LI, (Instr.moviZ f).wf = true → s.iss.idx ≤ f.pre.last → RegsHeld s f.pre (fun j => [(f.pre.d j f.d, 1)]) →
      let d := f.pre.d s.iss.idx f.d
      Completes (.moviZ f) s (result f.pre d fun _ => BitVec.ofNat 32 f.v) ∧
      Completes (.moviS f) s (result f.pre d fun _ => (BitVec.ofNat 16 f.v).signExtend 32) ∧
      Completes (.moviHi f) s (result f.pre d fun L => (BitVec.ofNat 16 f.v).append ((s.w.rdV d L).setWidth 16))) ∧
    (∀ f : LRN, (Instr.movLane f).wf = true → s.iss.idx ≤ f.pre.last →
      RegsHeld s f.pre (fun j => (f.pre.d j f.d, 1) :: (f.pre.a j f.a, 1) :: f.b.use f.pre j 1) →
      Completes (.movLane f) s (result f.pre (f.pre.d s.iss.idx f.d) fun L =>
        s.w.rdV (f.pre.a s.iss.idx f.a) (countB s f.pre f.b L % 32))) ∧
    (∀ (p : Pre) (d n : Nat), s.iss.idx ≤ p.last → RegsHeld s p (fun j => [(p.d j d, 1)]) →
      (∀ hi, (Instr.movU p d n hi).wf = true →
        Completes (.movU p d n hi) s (result p (p.d s.iss.idx d) fun _ =>
          if hi then (s.rdS n).extractLsb' 32 32 else (s.rdS n).extractLsb' 0 32)) ∧
      ((Instr.movC p d n).wf = true →
        Completes (.movC p d n) s (result p (p.d s.iss.idx d) fun L => s.ctlLane s.iss.key n L)) ∧
      (∀ hi L, (Instr.movTu p d n hi).wf = true → L < 32 → (s.act p).getLsbD L = true → (∀ K, K < L → (s.act p).getLsbD K = false) →
        Completes (.movTu p d n hi) s fun t =>
          LaneEffect s t p.rep (· = n) noLane noReg s.w.fpmode ∧
          t.rdS n = if hi then (s.w.rdV (p.d s.iss.idx d) L).append ((s.rdS n).setWidth 32)
            else (s.w.rdV (p.d s.iss.idx d) L).setWidth 64))

/-- R123, R124, R125: BSR delivers n bits of the window at the cursor and moves the cursor; BSW.set sets it, BSW.reload shifts the window by a
word when the cursor has passed 32, and BSW.query reads $bcur. The cursors of other threads stand. -/
def Obligations.BitStreamsReadAndMoveTheirCursor : Prop :=
  ∀ (s : State) (p : Pre), s.iss.idx ≤ p.last →
    let act := s.act p
    let cursor := fun L => (s.w.thread L).bcur
    let cur := fun L => (cursor L).toNat % 128
    let result := fun (c : Nat → W32) (wide : Bool) (d : Nat) (v : Nat → W64) (t : State) =>
      LaneResult (s.withCursors act c) t p.rep act (s.zeroed p) wide d v s.w.fpmode
    (∀ (signed : Bool) (d a : Nat) (b : Opnd), (Instr.bsr signed ⟨p, d, a, b⟩).wf = true →
      RegsHeld s p (fun j => (p.d j d, 1) :: (p.a j a, 2) :: b.use p j 1) →
      let n := fun L => match b with | .imm v => v | .reg _ => Nat.min (countB s p b L % 64) 32
      let x := fun L => (s.w.rdV64 (p.a s.iss.idx a) L).toNat / 2 ^ cur L % 2 ^ n L
      Completes (.bsr signed ⟨p, d, a, b⟩) s
        (result (fun L => BitVec.ofNat 32 (Nat.min (cur L + n L) 64 + if 64 < cur L + n L ∨ (cursor L).getLsbD 7 then 128 else 0))
          false (p.d s.iss.idx d)
          fun L => ((if signed then (BitVec.ofNat (n L) (x L)).signExtend 32 else BitVec.ofNat 32 (x L)) : W32).setWidth 64)) ∧
    (∀ b, (Instr.bswSet p b).wf = true → RegsHeld s p (fun j => [(p.b j b, 1)]) →
      Completes (.bswSet p b) s fun t =>
        let v := fun L => (s.w.rdV (p.b s.iss.idx b) L).toNat
        LaneEffect (s.withCursors act fun L => BitVec.ofNat 32 (Nat.min (v L % 128) 64 + v L / 128 % 2 * 128)) t p.rep
          noReg noLane noReg s.w.fpmode) ∧
    (∀ d b, (Instr.bswReload p d b).wf = true → RegsHeld s p (fun j => [(p.d j d, 2), (p.b j b, 1)]) →
      Completes (.bswReload p d b) s
        (result (fun L => if 32 ≤ cur L then cursor L - 32 else cursor L) true (p.d s.iss.idx d)
          fun L => if 32 ≤ cur L then (s.w.rdV (p.b s.iss.idx b) L).append (s.w.rdV (p.d s.iss.idx d + 1) L)
            else s.w.rdV64 (p.d s.iss.idx d) L)) ∧
    (∀ d, (Instr.bswQuery p d).wf = true → RegsHeld s p (fun j => [(p.d j d, 1)]) →
      Completes (.bswQuery p d) s fun t =>
        LaneResult s t p.rep act (s.zeroed p) false (p.d s.iss.idx d) (fun L => (cursor L).setWidth 64) s.w.fpmode)

/-- R126: the source lane of a shuffle in tiles of z lanes. -/
def Sys2Proof.sourceLane (fn : ShfFn) (z L n : Nat) : Nat :=
  match fn with
  | .idx => L / z * z + n % z
  | .up => if n ≤ L % z then L - n else L
  | .down => if L % z + n < z then L + n else L
  | .xor => L / z * z + (L % z ^^^ (n &&& (z - 1)))
/-- R98, R126, R127: SHF gives each active lane the register of its source lane in its tile; VOTE.any, .all and .eqv give its mask bit the vote
of the active lanes of its tile, and VOTE.ballot gives its register the votes of its tile from bit 0 up. -/
def Obligations.ShufflesAndVotesCrossTheirTile : Prop :=
  ∀ s : State, 1 ≤ s.w.part → s.w.part ≤ 5 →
    let z := 2 ^ s.w.part
    (∀ (fn : ShfFn) (f : LRN), (Instr.shf fn f).wf = true → s.iss.idx ≤ f.pre.last →
      RegsHeld s f.pre (fun j => (f.pre.d j f.d, 1) :: (f.pre.a j f.a, 1) :: f.b.use f.pre j 1) →
      Completes (.shf fn f) s fun t =>
        LaneResult s t f.pre.rep (s.act f.pre) (s.zeroed f.pre) false (f.pre.d s.iss.idx f.d)
          (fun L => (s.w.rdV (f.pre.a s.iss.idx f.a) (sourceLane fn z L (countB s f.pre f.b L % 32))).setWidth 64) s.w.fpmode) ∧
    (∀ (p : Pre) (a : Nat), s.iss.idx ≤ p.last →
      let v := fun L => s.w.rdV (p.a s.iss.idx a) L
      let votes := fun K => (s.act p).getLsbD K = true ∧ v K ≠ 0
      let mate := fun L K => K / z = L / z ∧ (s.act p).getLsbD K = true
      (∀ (fn : VoteFn) (m : Nat), (Instr.vote fn p m a).wf = true → RegsHeld s p (fun j => [(p.a j a, 1)]) →
        Completes (.vote fn p m a) s fun t => ∃ bit : Nat → Bool,
          LaneMask s t p.rep (s.act p) (s.zeroed p) (p.d s.iss.idx m) bit s.w.fpmode ∧
          ∀ L, L < 32 → (s.act p).getLsbD L = true → (bit L = true ↔
            match fn with
            | .any => ∃ K, mate L K ∧ votes K
            | .all => ∀ K, mate L K → votes K
            | .eqv => ∀ K, mate L K → v K = v L)) ∧
      (∀ d, (Instr.voteBallot p d a).wf = true → RegsHeld s p (fun j => [(p.d j d, 1), (p.a j a, 1)]) →
        Completes (.voteBallot p d a) s fun t => ∃ word : Nat → W32,
          LaneResult s t p.rep (s.act p) (s.zeroed p) false (p.d s.iss.idx d) (fun L => (word L).setWidth 64) s.w.fpmode ∧
          ∀ L i, L < 32 → i < 32 → ((word L).getLsbD i = true ↔ i < z ∧ votes (L / z * z + i))))

/-! ## Lane floating point and reductions -/

/-- R135 to R137: the float operations, whether they read c, and their function of the exact sources of one element. -/
def Sys2Proof.floatTable : List ((LRF → Instr) × Bool × (FEnv → Fmt → List Nat → Nat × Nat)) :=
  [(.fadd, false, fAddE), (.fsub, false, fSubE), (.fmul, false, fMulE), (.fma, true, fMaE), (.fmin, false, fMinE), (.fmax, false, fMaxE),
   (.fdiv, false, fDivE)]
/-- R138: the float compares, whether a quiet NaN raises NV, and their condition. -/
def Sys2Proof.floatCompareTable : List ((LRF → Instr) × Bool × (FV → FV → Bool)) :=
  [(.fcmpeq, false, FV.eq), (.fcmplt, true, FV.lt), (.fcmple, true, fun a b => a.lt b || a.eq b), (.fcmpun, false, fun a b => a.isNan || b.isNan)]
/-- $fpmode with the flags of the active lanes recorded (R81). -/
def Sys2Proof.fpmodeWith (s : State) (act : W32) (flags : Nat → Nat) : W64 :=
  s.w.fpmode ||| BitVec.ofNat 64 ((List.range 32).foldl (fun x L => if act.getLsbD L then x ||| flags L else x) 0)

/-- R81, R135 to R138: FADD, FSUB, FMUL, FMA, FMIN, FMAX and FDIV deliver their function of each active lane's sources to vd; FCMPEQ, FCMPLT,
FCMPLE and FCMPUN deliver their condition to md; the flags of the active lanes are recorded in $fpmode, and nothing else changes. -/
def Obligations.LaneFloatOperationsWriteTheirResult : Prop :=
  ∀ (f : LRF) (s : State), s.iss.idx ≤ f.pre.last →
    let p := f.pre
    let i := s.iss.idx
    let wide := f.t = .f64
    let r := if wide then 2 else 1
    let src := fun n L => s.w.rdT wide n L
    (∀ e ∈ floatTable, (e.1 f).wf = true →
      RegsHeld s p (fun j => [(p.d j f.d, r), (p.a j f.a, r), (p.b j f.b, r)] ++ (if e.2.1 then [(p.vc j f.d, r)] else [])) →
      let res := fun L => fpMap f.t (e.2.2 (s.w.fenv p (fpFmt f.t))) [src (p.a i f.a) L, src (p.b i f.b) L, src (p.vc i f.d) L]
      Completes (e.1 f) s fun t =>
        LaneResult s t p.rep (s.act p) (s.zeroed p) wide (p.d i f.d) (fun L => BitVec.ofNat 64 (res L).1)
          (fpmodeWith s (s.act p) fun L => (res L).2)) ∧
    (∀ e ∈ floatCompareTable, (e.1 f).wf = true → RegsHeld s p (fun j => [(p.a j f.a, r), (p.b j f.b, r)]) →
      let fm := fpFmt f.t
      let val := fun n L => fm.source (s.w.flush fm) (src n L % 2 ^ fm.w)
      let nv := fun L =>
        (val (p.a i f.a) L).isSig || (val (p.b i f.b) L).isSig || (e.2.1 && ((val (p.a i f.a) L).isNan || (val (p.b i f.b) L).isNan))
      Completes (e.1 f) s fun t =>
        LaneMask s t p.rep (s.act p) (s.zeroed p) (p.d i f.d) (fun L => e.2.2 (val (p.a i f.a) L) (val (p.b i f.b) L))
          (fpmodeWith s (s.act p) fun L => if nv L then flNV else 0))

/-- R139 to R147: FUN, CVT, CVTB, PFMA and CDOT deliver the function of their entries of each active lane's sources, and record the lanes'
flags. CVTB to a block writes the block's scale to every active lane's vb. -/
def Obligations.LaneFloatFunctionsAndConversionsWriteTheirResult : Prop :=
  ∀ (s : State) (p : Pre) (d a : Nat), s.iss.idx ≤ p.last →
    let i := s.iss.idx
    let act := s.act p
    let z := s.zeroed p
    (∀ (fn : FunFn) (ty : FpTy), (Instr.func fn ty p d a).wf = true →
      let wide := ty = .f64
      let dw := wide && fn != .class
      RegsHeld s p (fun j => [(p.d j d, if dw then 2 else 1), (p.a j a, if wide then 2 else 1)]) →
      let res := fun L => fpMap ty (funElem fn ty (s.w.fenv p (fpFmt ty))) [s.w.rdT wide (p.a i a) L]
      Completes (.func fn ty p d a) s fun t =>
        LaneResult s t p.rep act z dw (p.d i d) (fun L => BitVec.ofNat 64 (res L).1) (fpmodeWith s act fun L => (res L).2)) ∧
    (∀ (from_ ty : CvtTy), (Instr.cvt from_ ty p d a).wf = true →
      RegsHeld s p (fun j => [(p.d j d, cvtRegs ty), (p.a j a, cvtRegs from_)]) →
      let res := fun L => cvtElem from_ ty (s.w.mode p.ext) p.sat s.w.flush (s.w.rdT (cvtRegs from_ = 2) (p.a i a) L)
      Completes (.cvt from_ ty p d a) s fun t =>
        LaneResult s t p.rep act z (cvtRegs ty = 2) (p.d i d) (fun L => (res L).1) (fpmodeWith s act fun L => (res L).2)) ∧
    (∀ (ty : BlockTy) (b : Nat), RegsHeld s p (fun j => [(p.d j d, 1), (p.a j a, 1), (p.b j b, 1)]) →
      ((Instr.cvtbTo ty p d a b).wf = true →
        let src := fun L => fmtF32.source (s.w.flush fmtF32) (s.w.rdV (p.a i a) L).toNat
        let X := blockX ty ((lanesOf act).map src)
        let res := fun L => floatToFloat (blockFmt ty) ⟨s.w.mode p.ext, false, true⟩ ((src L).scale (-X))
        Completes (.cvtbTo ty p d a b) s fun t =>
          LaneEffect s t p.rep noReg (fun n L => (n = p.d i d ∨ n = p.b i b) ∧ Written act z L) noReg (fpmodeWith s act fun L => (res L).2) ∧
          ∀ L, L < 32 → act.getLsbD L = true →
            t.w.rdV (p.d i d) L = BitVec.ofNat 32 (res L).1 ∧ t.w.rdV (p.b i b) L = BitVec.ofInt 32 (X + 127)) ∧
      ((Instr.cvtbFrom ty p d a b).wf = true →
        let res := fun L =>
          let c := (s.w.rdV (p.b i b) L).toNat % 256
          if c = 255 then (fmtF32.nan, flNV)
          else floatToFloat fmtF32 (s.w.fenv p fmtF32)
            (((blockFmt ty).decode ((s.w.rdV (p.a i a) L).toNat % 2 ^ (blockFmt ty).w)).scale (c - 127))
        Completes (.cvtbFrom ty p d a b) s fun t =>
          LaneResult s t p.rep act z false (p.d i d) (fun L => BitVec.ofNat 64 (res L).1) (fpmodeWith s act fun L => (res L).2))) ∧
    (∀ (ty : FpTy) (b : Nat), (Instr.pfma ⟨p, ty, d, a, b⟩).wf = true →
      RegsHeld s p (fun j => [(p.d j d, 1), (p.a j a, 1), (p.b j b, 1), (p.vc j d, 1)]) →
      let fm := fpFmt ty
      let v := s.w.fenv p fmtF32
      let half := fun n L k => fm.source (s.w.flush fm) ((s.w.rdV n L).toNat / 65536 ^ k % 65536)
      let prod := fun L k => (half (p.a i a) L k).mul (half (p.b i b) L k)
      let res := fun L =>
        let r := FV.sum v.md [(prod L 0).1, (prod L 1).1, fmtF32.source v.ftz (s.w.rdV (p.vc i d) L).toNat]
        fmtF32.deliver v r.1 ((prod L 0).2 || (prod L 1).2 || r.2)
      Completes (.pfma ⟨p, ty, d, a, b⟩) s fun t =>
        LaneResult s t p.rep act z false (p.d i d) (fun L => BitVec.ofNat 64 (res L).1) (fpmodeWith s act fun L => (res L).2)) ∧
    (∀ (four : Bool) (b : Opnd), (Instr.cdot four ⟨p, d, a, b⟩).wf = true →
      RegsHeld s p (fun j => (p.d j d, 2) :: (p.a j a, 1) :: (b.use p j 1 ++ [(p.vc j d, 2)])) →
      let k := if four then 4 else 8
      let x := fun L j => packed true k (s.w.rdV (p.a i a) L) j
      let y := fun L j => packed true k (BitVec.ofNat 32 (countB s p b L)) j
      let pairs := List.range (32 / (2 * k))
      let re := fun L => (pairs.map fun j => x L (2 * j) * y L (2 * j) - x L (2 * j + 1) * y L (2 * j + 1)).sum
      let im := fun L => (pairs.map fun j => x L (2 * j) * y L (2 * j + 1) + x L (2 * j + 1) * y L (2 * j)).sum
      let part := fun n L (v : Int) => (IntTy.image .i32 p.sat ((s.w.rdV n L).toInt + v)).setWidth 32
      Completes (.cdot four ⟨p, d, a, b⟩) s fun t =>
        LaneResult s t p.rep act z true (p.d i d)
          (fun L => ((part (p.vc i d + 1) L (im L)).append (part (p.vc i d) L (re L)) : BitVec (32 + 32))) s.w.fpmode)

/-- R128, R129: TRED gives each active lane the combination of the active lanes of its tile in ascending order, SCAN that of the lanes at or
below it (below it, with .excl), and SEGR, in every thread of the issue set, that of its segment. -/
def Obligations.LaneReductionsWriteTheirCombination : Prop :=
  ∀ (f : Red) (s : State), s.iss.idx ≤ f.pre.last →
    let p := f.pre
    let i := s.iss.idx
    let wide := RedOp.wide f.op
    let n := if wide then 2 else 1
    let res := fun (lanes : Nat → List Nat) (L : Nat) =>
      combine f.op p.sat (s.w.fenv p (if wide then fmtF64 else fmtF32)) ((lanes L).map fun K => s.w.rdT wide (p.a i f.a) K)
    let result := fun (act z : W32) (lanes : Nat → List Nat) (t : State) =>
      LaneResult s t p.rep act z wide (p.d i f.d) (fun L => (res lanes L).1) (fpmodeWith s act fun L => (res lanes L).2)
    let mates := fun L => (s.w.tileOf L).filter fun K => (s.act p).getLsbD K
    RegsHeld s p (fun j => [(p.d j f.d, n), (p.a j f.a, n)]) →
    ((Instr.tred f).wf = true → Completes (.tred f) s (result (s.act p) (s.zeroed p) mates)) ∧
    ((Instr.scan f).wf = true →
      Completes (.scan f) s (result (s.act p) (s.zeroed p) fun L => (mates L).filter fun K => if f.excl then decide (K < L) else decide (K ≤ L))) ∧
    ((Instr.segr f).wf = true → Completes (.segr f) s (result s.iss.set 0 (s.segment (s.selector p))))

/-! ## Rounding, NaNs and subnormals

The rules of R75 to R83, R128 and R133 to R143 in integers alone: a finite source is a number of units, the unit of a format being its smallest subnormal. -/

/-- R75: a format: fraction bits p, exponent bits q, the pattern of its largest finite magnitude, and whether it has an infinity, which is the next one. -/
structure Sys2Proof.FloatShape where
  p : Nat
  q : Nat
  big : Nat
  hasInf : Bool
/-- R75: the formats of the lane types and of the conversions. -/
def Sys2Proof.ieeeShape (p q : Nat) : FloatShape := ⟨p, q, (2 ^ q - 1) * 2 ^ p - 1, true⟩
def Sys2Proof.shapeOf : FpTy → FloatShape
  | .f64 => ieeeShape 52 11 | .f32 => ieeeShape 23 8 | .f16 | .h2 => ieeeShape 10 5 | .bf16 | .x2 => ieeeShape 7 8
def Sys2Proof.cvtShape : CvtTy → Option FloatShape
  | .int _ => none
  | .f64 => some (ieeeShape 52 11) | .f32 => some (ieeeShape 23 8) | .f16 => some (ieeeShape 10 5) | .bf16 => some (ieeeShape 7 8)
  | .e5m2 => some (ieeeShape 2 5) | .e4m3 => some ⟨3, 4, 126, false⟩ | .e2m1 => some ⟨1, 2, 7, false⟩
/-- One unit is 2 to minus this number. -/
def Sys2Proof.unitExp (h : FloatShape) : Nat := 2 ^ (h.q - 1) + h.p - 2
/-- R75: the magnitude of a pattern without its sign, in units. It goes on above the largest finite pattern, as with an unbounded exponent. -/
def Sys2Proof.unitsOfPattern (p k : Nat) : Nat := if k < 2 ^ p then k else (2 ^ p + k % 2 ^ p) * 2 ^ (k / 2 ^ p - 1)
/-- What a source pattern stands for: NaN, signalling, infinity, the sign, and the number of units of a finite one. -/
structure Sys2Proof.FloatSource where
  nan : Bool
  sig : Bool
  inf : Bool
  neg : Bool
  u : Nat
/-- R75, R78, R82: the source that a pattern is, a subnormal being a zero of its sign under the flush bit. -/
def Sys2Proof.sourceOf (h : FloatShape) (flush : Bool) (x : Nat) : FloatSource :=
  let k := x % 2 ^ (h.p + h.q)
  let inf := h.hasInf && decide (k = h.big + 1)
  let nan := decide (h.big < k) && !inf
  ⟨nan, nan && decide (16 ≤ h.p + h.q + 1) && !x.testBit (h.p - 1), inf, x.testBit (h.p + h.q),
   if flush && decide (k < 2 ^ h.p) then 0 else unitsOfPattern h.p k⟩
def Sys2Proof.FloatSource.val (x : FloatSource) : Int := if x.neg then -x.u else x.u
def Sys2Proof.FloatSource.zero (x : FloatSource) : Bool := !x.nan && !x.inf && decide (x.u = 0)
/-- R79: the pattern that a magnitude of N / S units rounds to: the lower of the two that bracket it, or the higher, by the mode. -/
def Sys2Proof.RoundsTo (mag : Nat → Nat) (md : Rnd) (neg : Bool) (N S j : Nat) : Prop :=
  ∃ k, mag k * S ≤ N ∧ N < mag (k + 1) * S ∧
    let middle := (mag k + mag (k + 1)) * S
    j = if mag k * S = N then k else
      match md with
      | .rtz => k
      | .rup => if neg then k else k + 1
      | .rdn => if neg then k + 1 else k
      | .rne => if 2 * N < middle then k else if middle < 2 * N then k + 1 else k + k % 2
      | .rna => if 2 * N < middle then k else k + 1
      | .rno => k + 1 - k % 2
/-- R81: a magnitude, rounded to the precision of the format with an unbounded exponent, lies below the smallest normal: scaled up until it is normal,
it rounds to less than the scaled smallest normal. -/
def Sys2Proof.IsTiny (p : Nat) (md : Rnd) (neg : Bool) (N S : Nat) : Prop :=
  ∃ c j, 2 ^ p * S ≤ N * 2 ^ c ∧ RoundsTo (unitsOfPattern p) md neg (N * 2 ^ c) S j ∧ unitsOfPattern p j < 2 ^ (p + c)
/-- R79, R81, R82: a result of a nonzero magnitude of N / S units, delivered with its flags. -/
def Sys2Proof.Delivered (h : FloatShape) (md : Rnd) (flush sat neg : Bool) (N S r fl : Nat) : Prop :=
  let sign := if neg then 2 ^ (h.p + h.q) else 0
  let outward := match md with | .rne | .rna => true | .rup => !neg | .rdn => neg | .rtz | .rno => false
  (flush = true → IsTiny h.p md neg N S → r = sign ∧ fl = flUF ||| flNX) ∧
  (¬(flush = true ∧ IsTiny h.p md neg N S) → ∃ j, RoundsTo (unitsOfPattern h.p) md neg N S j ∧
    (h.big < j → r = sign + (if h.hasInf && outward && !sat then h.big + 1 else h.big) ∧ fl = flOF ||| flNX) ∧
    (j ≤ h.big → r = sign + j ∧
      (unitsOfPattern h.p j * S = N → fl = 0) ∧
      (unitsOfPattern h.p j * S ≠ N → (IsTiny h.p md neg N S → fl = flUF ||| flNX) ∧ (¬IsTiny h.p md neg N S → fl = flNX))))
/-- R78, R136: the answer of an operation: the canonical NaN, an infinity, a zero of a sign, or E / S units, delivered. -/
def Sys2Proof.FloatAnswer (h : FloatShape) (md : Rnd) (flush nan nv : Bool) (inf : Option Bool) (dz zneg : Bool) (E : Int) (S r fl : Nat) : Prop :=
  let sign := fun n : Bool => if n then 2 ^ (h.p + h.q) else 0
  if nan then r = 2 ^ (h.p + h.q) - 1 ∧ fl = if nv then flNV else 0
  else match inf with
    | some n => r = sign n + h.big + 1 ∧ fl = if dz then flDZ else 0
    | none => if E = 0 then r = sign zneg ∧ fl = 0 else Delivered h md flush false (decide (E < 0)) E.natAbs S r fl
/-- R136: FADD, and with minus FSUB. -/
def Sys2Proof.SumRule (minus : Bool) (h : FloatShape) (md : Rnd) (flush : Bool) (x y : Nat) (r fl : Nat) : Prop :=
  let a := sourceOf h flush x
  let b := sourceOf h flush y
  let bn := b.neg != minus
  let bad := a.inf && b.inf && (a.neg != bn)
  FloatAnswer h md flush (a.nan || b.nan || bad) (a.sig || b.sig || bad) (if a.inf then some a.neg else if b.inf then some bn else none) false
    (if a.neg = bn then bn else decide (md = .rdn)) (a.val + if minus then -b.val else b.val) 1 r fl
/-- R136: FMUL. -/
def Sys2Proof.ProductRule (h : FloatShape) (md : Rnd) (flush : Bool) (x y _z : Nat) (r fl : Nat) : Prop :=
  let a := sourceOf h flush x
  let b := sourceOf h flush y
  let bad := (a.inf && b.zero) || (a.zero && b.inf)
  FloatAnswer h md flush (a.nan || b.nan || bad) (a.sig || b.sig || bad) (if a.inf || b.inf then some (a.neg != b.neg) else none) false
    (a.neg != b.neg) (a.val * b.val) (2 ^ unitExp h) r fl
/-- R135, R136: FMA, rounded once. -/
def Sys2Proof.FusedRule (h : FloatShape) (md : Rnd) (flush : Bool) (x y z : Nat) (r fl : Nat) : Prop :=
  let a := sourceOf h flush x
  let b := sourceOf h flush y
  let c := sourceOf h flush z
  let pn := a.neg != b.neg
  let pinf := a.inf || b.inf
  let bad := (a.inf && b.zero) || (a.zero && b.inf) || (!a.nan && !b.nan && pinf && c.inf && (pn != c.neg))
  FloatAnswer h md flush (a.nan || b.nan || c.nan || bad) (a.sig || b.sig || c.sig || bad)
    (if pinf then some pn else if c.inf then some c.neg else none) false
    (if pn = c.neg then pn else decide (md = .rdn)) (a.val * b.val + c.val * 2 ^ unitExp h) (2 ^ unitExp h) r fl
/-- R136: FDIV. -/
def Sys2Proof.QuotientRule (h : FloatShape) (md : Rnd) (flush : Bool) (a b : FloatSource) (r fl : Nat) : Prop :=
  let n := a.neg != b.neg
  let bad := (a.inf && b.inf) || (a.zero && b.zero)
  FloatAnswer h md flush (a.nan || b.nan || bad) (a.sig || b.sig || bad) (if a.inf || b.zero then some n else none) (!a.inf && b.zero)
    n (if b.inf then 0 else (if n then -1 else 1) * (a.u * 2 ^ unitExp h : Nat)) b.u r fl
/-- R137: FMIN, and with greater FMAX. The sources are compared as read, −0 below +0; the sign comes before the magnitude, and magnitudes rise with
their patterns. -/
def Sys2Proof.ExtremeRule (greater : Bool) (h : FloatShape) (_md : Rnd) (flush : Bool) (x y : Nat) (r fl : Nat) : Prop :=
  let a := sourceOf h flush x
  let b := sourceOf h flush y
  let read := fun x : Nat => if flush && decide (x % 2 ^ (h.p + h.q) < 2 ^ h.p) then (if x.testBit (h.p + h.q) then 2 ^ (h.p + h.q) else 0) else x
  let key := fun x : Nat => if x.testBit (h.p + h.q) then -(read x % 2 ^ (h.p + h.q) : Nat) - (1 : Int) else (read x % 2 ^ (h.p + h.q) : Nat)
  (r = if a.nan && b.nan then 2 ^ (h.p + h.q) - 1 else if a.nan then read y else if b.nan then read x
    else if decide (key x < key y) != greater then read x else read y) ∧
  fl = if a.sig || b.sig then flNV else 0
/-- R135 to R137: the arithmetic instructions with their rules, and whether they read c. -/
def Sys2Proof.floatRules : List ((LRF → Instr) × Bool × (FloatShape → Rnd → Bool → Nat → Nat → Nat → Nat → Nat → Prop)) :=
  [(.fadd, false, fun h md ftz x y _ => SumRule false h md ftz x y), (.fsub, false, fun h md ftz x y _ => SumRule true h md ftz x y),
   (.fmul, false, ProductRule), (.fma, true, FusedRule),
   (.fmin, false, fun h md ftz x y _ => ExtremeRule false h md ftz x y), (.fmax, false, fun h md ftz x y _ => ExtremeRule true h md ftz x y),
   (.fdiv, false, fun h md ftz x y _ => QuotientRule h md ftz (sourceOf h ftz x) (sourceOf h ftz y))]
/-- R79, R80: the mode of an instruction: the one that EXT's RND names, or that of $fpmode.RM. -/
def Sys2Proof.modeOf (s : State) (p : Pre) : Rnd :=
  match p.ext.bind (fun e => e.rnd) with
  | some m => m
  | none => match s.w.fpmode.toNat % 8 with | 0 => .rne | 1 => .rtz | 2 => .rup | 3 => .rdn | 4 => .rna | _ => .rno
/-- R80, R82: FTZ64 for f64, and FTZ for the narrower types. -/
def Sys2Proof.flushOf (s : State) (wide : Bool) : Bool := if wide then s.w.fpmode.getLsbD 4 else s.w.fpmode.getLsbD 3
/-- Element k of a lane's value, of w bits. -/
def Sys2Proof.element (x w k : Nat) : Nat := x / 65536 ^ k % 2 ^ w

/-- R78 to R82, R133, R135 to R138: each element of FADD, FSUB, FMUL, FMA, FMIN, FMAX and FDIV is what its rule delivers, with its flags; FCMPEQ, FCMPLT and
FCMPLE compare numbers of units, and FCMPUN answers whether a source is a NaN. -/
def Sys2Proof.LaneFloatArithmeticFollowsItsRule : Prop :=
  ∀ (f : LRF) (s : State), s.iss.idx ≤ f.pre.last →
    let p := f.pre
    let i := s.iss.idx
    let wide := decide (f.t = .f64)
    let r := if wide then 2 else 1
    let h := shapeOf f.t
    let w := h.p + h.q + 1
    let n := if f.t = .x2 ∨ f.t = .h2 then 2 else 1
    let ftz := flushOf s wide
    let at_ := fun reg L k => element (s.w.rdT wide reg L) w k
    (∀ e ∈ floatRules, (e.1 f).wf = true →
      RegsHeld s p (fun j => [(p.d j f.d, r), (p.a j f.a, r), (p.b j f.b, r)] ++ (if e.2.1 then [(p.vc j f.d, r)] else [])) →
      Completes (e.1 f) s fun t => ∃ fl : Nat → Nat → Nat,
        (∀ L, L < 32 → (s.act p).getLsbD L = true → t.w.rdT wide (p.d i f.d) L < 2 ^ (if n = 2 then 32 else w) ∧ ∀ k, k < n →
          e.2.2 h (modeOf s p) ftz (at_ (p.a i f.a) L k) (at_ (p.b i f.b) L k) (at_ (p.vc i f.d) L k)
            (element (t.w.rdT wide (p.d i f.d) L) w k) (fl L k)) ∧
        t.w.fpmode = fpmodeWith s (s.act p) fun L => if n = 2 then fl L 0 ||| fl L 1 else fl L 0) ∧
    (∀ c ∈ [(Instr.fcmpeq, 0), (Instr.fcmplt, 1), (Instr.fcmple, 2), (Instr.fcmpun, 3)], (c.1 f).wf = true →
      RegsHeld s p (fun j => [(p.a j f.a, r), (p.b j f.b, r)]) →
      let a := fun L => sourceOf h ftz (at_ (p.a i f.a) L 0)
      let b := fun L => sourceOf h ftz (at_ (p.b i f.b) L 0)
      let unordered := fun L => (a L).nan || (b L).nan
      let holds := fun L => if c.2 = 3 then unordered L = true else unordered L = false ∧
        (if c.2 = 0 then (a L).val = (b L).val else if c.2 = 1 then (a L).val < (b L).val else (a L).val ≤ (b L).val)
      Completes (c.1 f) s fun t =>
        (∀ L, L < 32 → p.d i f.d ≠ 0 → (s.act p).getLsbD L = true → ((t.w.rdM (p.d i f.d)).getLsbD L = true ↔ holds L)) ∧
        t.w.fpmode = fpmodeWith s (s.act p) fun L =>
          if (a L).sig || (b L).sig || ((c.2 = 1 || c.2 = 2) && unordered L) then flNV else 0)

/-- R83: a conversion between float formats. -/
def Sys2Proof.ConvertRule (a h : FloatShape) (md : Rnd) (fa fh sat : Bool) (x r fl : Nat) : Prop :=
  let v := sourceOf a fa x
  let sign := if v.neg then 2 ^ (h.p + h.q) else 0
  if v.nan then (if h.q = 2 then r = 0 ∧ fl = flNV else r = 2 ^ (h.p + h.q) - 1 ∧ fl = if v.sig then flNV else 0)
  else if v.inf then (if h.hasInf && !sat then r = sign + h.big + 1 ∧ fl = 0 else r = sign + h.big ∧ fl = flNV)
  else if v.u = 0 then r = sign ∧ fl = 0
  else Delivered h md fh sat v.neg (v.u * 2 ^ (unitExp h - unitExp a)) (2 ^ (unitExp a - unitExp h)) r fl
/-- R83: a conversion of a float to an integer of the range lo to hi. -/
def Sys2Proof.ToIntegerRule (a : FloatShape) (md : Rnd) (fa : Bool) (x : Nat) (lo hi v : Int) (fl : Nat) : Prop :=
  let y := sourceOf a fa x
  if y.nan then v = 0 ∧ fl = flNV
  else if y.inf then v = (if y.neg then lo else hi) ∧ fl = flNV
  else ∃ j, RoundsTo (fun k => k) md y.neg y.u (2 ^ unitExp a) j ∧
    let z : Int := if y.neg then -j else j
    if z < lo then v = lo ∧ fl = flNV else if hi < z then v = hi ∧ fl = flNV
    else v = z ∧ fl = if j * 2 ^ unitExp a = y.u then 0 else flNX
/-- R83, R139 to R143: CVT delivers what the rules of its formats give; for rno to an integer the model's choice of log entry 45 stands and this says nothing. FUN
of a NaN delivers the canonical NaN, with NV for a signalling one; abs clears the sign and neg changes it; rcp is 1 divided by the source. -/
def Sys2Proof.LaneConversionsFollowTheirRule : Prop :=
  ∀ (s : State) (p : Pre) (d a : Nat), s.iss.idx ≤ p.last →
    let i := s.iss.idx
    let flag := fun (t : State) (fl : Nat → Nat) => t.w.fpmode = fpmodeWith s (s.act p) fl
    (∀ (from_ ty : CvtTy), (Instr.cvt from_ ty p d a).wf = true →
      RegsHeld s p (fun j => [(p.d j d, cvtRegs ty), (p.a j a, cvtRegs from_)]) →
      let x := fun L => s.w.rdT (cvtRegs from_ = 2) (p.a i a) L
      let flushes := fun c : CvtTy => match c with | .f64 => flushOf s true | .f32 | .f16 | .bf16 => flushOf s false | _ => false
      Completes (.cvt from_ ty p d a) s fun t => ∃ fl : Nat → Nat, flag t fl ∧
        ∀ L, L < 32 → (s.act p).getLsbD L = true →
          let y := t.w.rdT (cvtRegs ty = 2) (p.d i d) L
          (∀ g h, cvtShape from_ = some g → cvtShape ty = some h →
            ConvertRule g h (modeOf s p) (flushes from_) (flushes ty) p.sat (x L) y (fl L)) ∧
          (∀ t1 h, from_ = .int t1 → cvtShape ty = some h →
            let v := IntTy.val t1 (x L)
            if v = 0 then y = 0 ∧ fl L = 0
            else Delivered h (modeOf s p) (flushes ty) p.sat (decide (v < 0)) (v.natAbs * 2 ^ unitExp h) 1 y (fl L)) ∧
          (∀ g t2, cvtShape from_ = some g → ty = .int t2 → modeOf s p ≠ .rno → ∃ v : Int,
            ToIntegerRule g (modeOf s p) (flushes from_) (x L) (IntTy.lo t2) (IntTy.hi t2) v (fl L) ∧
            y = (BitVec.ofInt (if cvtRegs ty = 2 then 64 else 32) v).toNat)) ∧
    (∀ (fn : FunFn) (ty : FpTy), (Instr.func fn ty p d a).wf = true →
      let wide := decide (ty = .f64)
      let h := shapeOf ty
      let w := h.p + h.q + 1
      let n := if ty = .x2 ∨ ty = .h2 then 2 else 1
      RegsHeld s p (fun j => [(p.d j d, if wide && fn != .class then 2 else 1), (p.a j a, if wide then 2 else 1)]) →
      Completes (.func fn ty p d a) s fun t => ∃ fl : Nat → Nat, flag t fl ∧
        ∀ L, L < 32 → (s.act p).getLsbD L = true → ∀ k, k < n →
          let x := element (s.w.rdT wide (p.a i a) L) w k
          let y := element (t.w.rdT (wide && fn != .class) (p.d i d) L) w k
          let v := sourceOf h (flushOf s wide) x
          (fn = .abs → y = x % 2 ^ (w - 1) ∧ fl L = 0) ∧
          (fn = .neg → y % 2 ^ (w - 1) = x % 2 ^ (w - 1) ∧ y.testBit (w - 1) = !x.testBit (w - 1) ∧ fl L = 0) ∧
          (fn ≠ .abs → fn ≠ .neg → fn ≠ .class → v.nan = true → y = 2 ^ (w - 1) - 1 ∧ fl L = if v.sig then flNV else 0) ∧
          (fn = .rcp → QuotientRule h (modeOf s p) (flushOf s wide) ⟨false, false, false, false, 2 ^ unitExp h⟩ v y (fl L)))

/-- R128: contributions after the first, combined in order with one rounding each. -/
def Sys2Proof.Chained (rule : Nat → Nat → Nat → Nat → Prop) : List Nat → Nat → Nat → Nat → Nat → Prop
  | [], acc, f, r, fl => r = acc ∧ fl = f
  | x :: xs, acc, f, r, fl => ∃ y g, rule acc x y g ∧ Chained rule xs y (f ||| g) r fl
/-- R128, R129: a float TRED, SCAN or SEGR combines its contributions in ascending lane order by the rule of FADD, FMIN or FMAX; one contribution
alone is delivered under the rules of its format, and none is the identity. -/
def Sys2Proof.FloatReductionsFollowTheirRule : Prop :=
  ∀ (f : Red) (s : State) (fn : FltFn) (wide : Bool), f.op = .flt fn wide → s.iss.idx ≤ f.pre.last →
    let p := f.pre
    let i := s.iss.idx
    let h := if wide then ieeeShape 52 11 else ieeeShape 23 8
    let w := h.p + h.q + 1
    let ftz := flushOf s wide
    let rule := fun x y r fl => match fn with
      | .fadd => SumRule false h (modeOf s p) ftz x y r fl
      | .fmin => ExtremeRule false h (modeOf s p) ftz x y r fl
      | .fmax => ExtremeRule true h (modeOf s p) ftz x y r fl
    let combined := fun (xs : List Nat) (r fl : Nat) => match xs with
      | [] => fl = 0 ∧ r = (match fn with | .fadd => 2 ^ (w - 1) | .fmin => h.big + 1 | .fmax => 2 ^ (w - 1) + h.big + 1)
      | x :: xs => let v := sourceOf h ftz x
        Chained rule xs (if v.nan then 2 ^ (w - 1) - 1 else if v.zero then (if v.neg then 2 ^ (w - 1) else 0) else x) (if v.sig then flNV else 0) r fl
    let mates := fun L => (s.w.tileOf L).filter fun K => (s.act p).getLsbD K
    let result := fun (act : W32) (lanes : Nat → List Nat) (t : State) => ∃ fl : Nat → Nat,
      t.w.fpmode = fpmodeWith s act fl ∧ ∀ L, L < 32 → act.getLsbD L = true →
        combined ((lanes L).map fun K => s.w.rdT wide (p.a i f.a) K) (t.w.rdT wide (p.d i f.d) L) (fl L)
    RegsHeld s p (fun j => [(p.d j f.d, if wide then 2 else 1), (p.a j f.a, if wide then 2 else 1)]) →
    ((Instr.tred f).wf = true → Completes (.tred f) s (result (s.act p) mates)) ∧
    ((Instr.scan f).wf = true →
      Completes (.scan f) s (result (s.act p) fun L => (mates L).filter fun K => if f.excl then decide (K < L) else decide (K ≤ L))) ∧
    ((Instr.segr f).wf = true → Completes (.segr f) s (result s.iss.set (s.segment (s.selector p))))
/-- R78 to R83, R128, R133 to R143: rounding, flags, NaNs, infinities, signed zeros and subnormals of the lane float instructions, said without the model's float
functions. -/
def Obligations.FloatResultsAreRoundedAndNaNsAreCanonical : Prop :=
  LaneFloatArithmeticFollowsItsRule ∧ LaneConversionsFollowTheirRule ∧ FloatReductionsFollowTheirRule

/-! ## The SYS group, traps and exit -/

/-- R65, R98, R199, R224, R322, R324, R325, R328, R360: SNOP, SPRF, FENCE.acq, FENCE.fetch, YIELD, PART, SLEEP and SNAP. SPRF may bring a line to the
die, and changes no register, no special register and, where no copy of the line is out, no byte of memory and no class. FENCE.acq waits for the accesses of
the warp under way. SNAP latches a snapshot 2 µs later when none is in progress and dxsnap allows it; SLEEP of 0 goes on at once, and another waits until
$time has passed the number of nanoseconds. Nothing else changes. -/
def Obligations.PlainSysInstructionsGoOn : Prop :=
  ∀ s : State,
    let next := s.iss.base + 4
    Completes .snop s (WarpBecomes s · s.w next) ∧
    (∀ k a off, Completes (.sprf k a off) s fun t =>
      RegsKept s t noReg noLane noReg ∧ SameSpecial s t ∧ GoOn s t s.iss.set next ∧
      (s.shadows = [] → NoCopies s → SameMemory s t ∧ t.classes = s.classes)) ∧
    (∀ sc, (s.w.flights = [] → Completes (.fenceAcq sc) s (WarpBecomes s · s.w next)) ∧
      (s.w.flights ≠ [] → Completes (.fenceAcq sc) s (Stalls s))) ∧
    Completes .fenceFetch s (WarpBecomes s · { s.w with code := [] } next) ∧
    Completes .yield s (WarpBecomes s · { s.w with readyAt := s.cycles + 5 } next) ∧
    (∀ z, z < 8 → Completes (.part z) s (WarpBecomes s · { s.w with part := if 1 ≤ z ∧ z ≤ 5 then z else s.w.part } next)) ∧
    (s.ctxSnapOk s.gr.ctx = true →
      Completes .snap s (WarpBecomes
        (if s.dxsnap.getLsbD 0 = true ∧ s.snapAt = none then { s with snapAt := some (s.ps / 1000 + 2000) } else s) · s.w next)) ∧
    (∀ a, NoTx s →
      (s.rdS a = 0 → Completes (.sleep a) s (WarpBecomes s · s.w next)) ∧
      (s.rdS a ≠ 0 → Completes (.sleep a) s (Waits s · (s.parked (.sleep (s.ps / 1000 + (s.rdS a).toNat))))))

/-- R317, R326: TRAP and BRK make their warp enter its handler, TRAP with its immediate as the detail. RTE outside a handler and SNAP in a
context that does not allow it trap PRIV. -/
def Sys2Proof.TrapInstructionsEnterTheHandler : Prop :=
  ∀ s : State, TrapTakes s →
    (∀ imm, Completes (.trap imm) s (TrapTaken s · s.iss.set 0x0D (BitVec.ofNat 64 imm))) ∧
    Completes .brk s (TrapTaken s · s.iss.set 0x0C 0) ∧
    Completes .rte s (TrapTaken s · s.iss.set 0x03 0) ∧
    (s.ctxSnapOk s.gr.ctx = false → Completes .snap s (TrapTaken s · s.iss.set 0x03 0))

/-- The gang of the issuing warp has been killed (R321): none of its groups is left and their entries are DONE. When the grid has other gangs to run, it
counts this one as retired and has failed, and the gang's record says that a trap has killed it. -/
structure Sys2Proof.GangEnded (s t : State) : Prop where
  groups : ∀ k ∈ (s.gang s.g.gangKey).groups ++ (s.gang s.g.gangKey).twin, tget? t.groups k = none ∧ t.slotState k = 3
  grid : s.gr.retired + 1 < s.gr.lrec.gangs →
    (t.gang s.g.gangKey).killed = some 0 ∧ (t.grid s.g.grid).retired = s.gr.retired + 1 ∧ (t.grid s.g.grid).status ≠ 0
/-- R320, R321, R327: a trap of a warp without a handler or in its handler kills its gang: TRAP and BRK do, and RTE to an address that is not canonical.
The gang's groups have launched no grid that still runs. -/
def Sys2Proof.TrapsWithoutAHandlerEndTheGang : Prop :=
  ∀ s : State, s.w.inTx s.iss.set = 0 → (tget? s.grids s.g.grid).isSome → s.g.gang < 2 ^ 32 → (s.gang s.g.gangKey).grid = s.g.grid →
    (∀ k ∈ (s.gang s.g.gangKey).groups ++ (s.gang s.g.gangKey).twin, (s.group k).children = []) →
    (s.w.tvec = 0 ∨ s.w.handler = true → (∀ imm, Completes (.trap imm) s (GangEnded s)) ∧ Completes .brk s (GangEnded s)) ∧
    (s.w.handler = true → canonical s.w.trappc = false → Completes .rte s (GangEnded s))

/-- R327: RTE in a handler restores what the trap took: the threads of the handler set that have not exited stand at $trappc, the others are
no longer frozen, and $rprog keeps the progress of a REP if $trappc is still the address of the trap. No register and no byte of memory
changes, while no thread of the handler set waits in a hold. -/
def Sys2Proof.ReturnFromTrapRestoresTheThreads : Prop :=
  ∀ s : State, s.w.handler = true → canonical s.w.trappc = true → (∀ p ∈ s.w.parks, p.set &&& s.w.hset = 0) →
    Completes .rte s fun t =>
      OnlyWarp s t ∧ RegsKept s t noReg noLane noReg ∧ t.w.special = { s.w.special with handler := false } ∧
      t.w.rprog = (if s.w.trappc = s.w.trapAt then s.w.rprog else 0) ∧
      ∀ L, L < 32 →
        let x := s.w.thread L
        { (t.w.thread L) with wait := 0 } =
          (if s.w.hset.getLsbD L then
            (if x.status = .exited then { x with wait := 0 } else { x with pc := s.w.trappc, status := .eligible, wait := 0 })
          else { x with frozen := false, wait := 0 })
/-- R317, R320, R321, R326, R327: entering the trap handler by an instruction, the traps that have no handler to enter, and leaving it. -/
def Obligations.TrapsEnterTheHandlerAndReturnsLeaveIt : Prop :=
  TrapInstructionsEnterTheHandler ∧ TrapsWithoutAHandlerEndTheGang ∧ ReturnFromTrapRestoresTheThreads

/-- R323: EXIT outside a handler and a transaction ends the threads of its issue set. While a thread of the warp remains, no register, no byte of memory
and, with no meet open, nothing else of the warp changes. When none remains, the warp gives up its extended registers and its banks, whose records are
emptied, and what stands in its mailboxes is discarded. In the fallback lock it traps TXMISUSE. -/
def Obligations.ExitEndsItsThreads : Prop :=
  ∀ s : State,
    let alive := fun L => (s.w.thread L).status ≠ .exited
    let here := fun L => s.iss.set.getLsbD L = true
    let exited := fun (t : State) => ∀ L, L < 32 → here L → { (s.w.thread L) with status := .exited, wait := 0 } = t.w.thread L
    (s.w.handler = false → (∀ L, L < 32 → here L → (s.w.thread L).tx = none ∧ (s.w.thread L).irr = false) →
      ((∃ L, L < 32 ∧ s.iss.set.getLsbD L = false ∧ alive L) →
        Completes .exit s fun t =>
          OnlyWarp s t ∧ RegsKept s t noReg noLane noReg ∧ exited t ∧
          ((∀ m ∈ s.w.meets.toList, m.opened = false) →
            { t.w.special with meets := s.w.meets } = s.w.special ∧
            ∀ L, L < 32 → s.iss.set.getLsbD L = false → { (t.w.thread L) with wait := 0 } = { (s.w.thread L) with wait := 0 })) ∧
      ((∀ L, L < 32 → alive L → here L) → s.w.win = none → NoTakes s → s.g.matQ = [] → s.iss.key < 2 ^ 30 →
        Completes .exit s fun t =>
          SameMemory s t ∧ exited t ∧ (∀ L, L < 32 → (t.w.thread L).status = .exited) ∧ t.w.vext = 0 ∧ t.w.acch = 0 ∧
          t.g.own = s.g.own &&& ~~~s.w.acch ∧ t.g.poolFree = s.g.poolFree ||| s.w.acch ∧
          (∀ b, s.w.acch.getLsbD b = true → (t.core s.g.core).band b = Band.zero) ∧
          (∀ x ∈ (t.core s.coreNum).mail, x.1 / 4 ≠ s.iss.key % 64) ∧ (∀ x ∈ (t.core s.coreNum).mbOpen, x.slot ≠ s.iss.key % 64) ∧
          ∀ x ∈ (t.core s.coreNum).mbWait, x.slot ≠ s.iss.key % 64)) ∧
    (TrapTakes s → s.iss.set ≠ 0 → (∃ L, L < 32 ∧ here L ∧ (s.w.thread L).irr = true) →
      Completes .exit s (TrapTaken s · s.iss.set 0x0F 0))

/-- R182, R199, R222, R223: at core scope FENCE.rel, FENCE.ar and FENCE.sc go on when the warp has no access under way and no store of it waits at its own core
or at a tile; at a wider scope when no store of it waits anywhere and it has no remote store that is not acknowledged. Otherwise they wait at issue. -/
def Obligations.ReleasingFencesWaitForRemoteStores : Prop :=
  ∀ s : State, s.w.win = none → ∀ f ∈ [Instr.fenceRel, Instr.fenceAr, Instr.fenceSc],
    let near := s.w.flights = [] ∧ NoneNear s
    let done := s.w.flights = [] ∧ NoneWaits s ∧ NoneOut s
    (near → Completes (f .core) s (WarpBecomes s · s.w (s.iss.base + 4))) ∧
    (¬near → Completes (f .core) s (Stalls s)) ∧
    ∀ sc, sc ≠ .core →
      (done → Completes (f sc) s (WarpBecomes s · s.w (s.iss.base + 4))) ∧
      (¬done → Completes (f sc) s (Stalls s))

/-! ## Meets, lane branches and barriers -/

/-- R97, R130: MEET.OPEN makes the eligible threads, frozen ones with them, and those that wait at the meet, its members; MEET.WAIT holds the active members until all
members have arrived or exited, and then releases them to the label; MEET.LEAVE takes the active threads out. An inactive thread, one that is no
member, and every thread at a closed meet goes on. -/
def Obligations.MeetsGatherTheirMembers : Prop :=
  ∀ (s : State) (p : Pre) (n : Nat), n < 8 →
    let act := s.act p
    let next := s.iss.base + 4
    let meet := fun (w : Warp) => vget ⟨false, 0, 0, 0⟩ w.meets n
    let m := meet s.w
    let alive := fun L => (s.w.thread L).status ≠ .exited
    let kept := fun t : State => OnlyWarp s t ∧ RegsKept s t noReg noLane noReg
    (∀ off, act ≠ 0 → canonical (wordTarget s 19 off) = true →
      Completes (.meetOpen p n off) s fun t =>
        kept t ∧ GoOn s t s.iss.set next ∧
        t.w.special = { s.w.special with meets := vset s.w.meets n ⟨true, wordTarget s 19 off, (meet t.w).members, m.arrived⟩ } ∧
        ∀ L, L < 32 → ((meet t.w).members.getLsbD L = true ↔
          (s.w.thread L).status = .eligible ∨ ∃ q ∈ s.w.parks, q.hold = .meet n ∧ q.set.getLsbD L = true)) ∧
    (NoTx s →
      ((m.opened = false ∨ act &&& m.members = 0) → Completes (.meetWait p n) s (WarpBecomes s · s.w next)) ∧
      (m.opened = true → act &&& m.members ≠ 0 →
        let come := fun L => (act &&& m.members).getLsbD L = true
        let all := ∀ L, L < 32 → m.members.getLsbD L = true → alive L → m.arrived.getLsbD L = true ∨ come L
        Completes (.meetWait p n) s fun t =>
          kept t ∧ (∀ L, L < 32 → s.iss.set.getLsbD L = true → ¬come L → m.arrived.getLsbD L = false → (t.w.thread L).pc = next) ∧
          (all → (meet t.w).opened = false ∧
            ∀ L, L < 32 → come L ∨ (m.arrived.getLsbD L = true ∧ alive L) →
              (t.w.thread L).pc = m.label ∧ (t.w.thread L).status = .eligible) ∧
          (¬all → (meet t.w).opened = true ∧ ∀ L, L < 32 → come L → (t.w.thread L).status = .waiting))) ∧
    (act ≠ 0 → m.opened = false →
      Completes (.meetLeave p n) s fun t =>
        kept t ∧ GoOn s t s.iss.set next ∧ ∀ L, L < 32 → act.getLsbD L = true → (meet t.w).members.getLsbD L = false)

/-- R131, R132: BRT and BRF send the active threads whose mask bit is 1, or 0, to the target; CALLV sends the active threads there and leaves the low
half of the return address in v127; JMPV sends each active thread to the address its lane holds in the 4 GiB of the instruction. The other
threads of the issue set go on at the next word. -/
def Sys2Proof.LaneBranchesMoveTheirThreads : Prop :=
  ∀ (s : State) (p : Pre),
    let act := s.act p
    let next := s.iss.base + 4
    let moved := fun (taken : Nat → Prop) (at_ : Nat → W64) (V : Nat → Nat → Prop) (t : State) =>
      OnlyWarp s t ∧ RegsKept s t noReg V noReg ∧ SameSpecial s t ∧
      ∀ L, L < 32 → (t.w.thread L).placeless = (s.w.thread L).placeless ∧
        (taken L → (t.w.thread L).pc = at_ L) ∧
        (¬taken L → (t.w.thread L).pc = if s.iss.set.getLsbD L then next else (s.w.thread L).pc)
    (∀ m off,
      let to_ := wordTarget s 22 off
      let takes := fun L => act.getLsbD L = true ∧ (s.w.rdM m).getLsbD L = true
      (canonical to_ = true ∨ ∀ L, L < 32 → ¬takes L) → Completes (.brt p m off) s (moved takes (fun _ => to_) noLane)) ∧
    (∀ m off,
      let to_ := wordTarget s 22 off
      let takes := fun L => act.getLsbD L = true ∧ (s.w.rdM m).getLsbD L = false
      (canonical to_ = true ∨ ∀ L, L < 32 → ¬takes L) → Completes (.brf p m off) s (moved takes (fun _ => to_) noLane)) ∧
    (∀ off,
      let to_ := wordTarget s 22 off
      s.w.holdsV 127 = true → RegsFree s.w [(127, 1)] → (act = 0 ∨ (canonical to_ = true ∧ to_.toNat / 2 ^ 32 = next.toNat / 2 ^ 32)) →
        Completes (.callv p off) s fun t =>
          moved (fun L => act.getLsbD L = true) (fun _ => to_) (fun n L => n = 127 ∧ act.getLsbD L = true) t ∧
          ∀ L, L < 32 → act.getLsbD L = true → t.w.rdV 127 L = next.setWidth 32) ∧
    (∀ a, s.w.holdsV a = true → RegsFree s.w [(a, 1)] → (∀ L, L < 32 → act.getLsbD L = true → (s.w.rdV a L).toNat % 4 = 0) →
      Completes (.jmpv p a) s (moved (fun L => act.getLsbD L = true)
        (fun L => ((s.iss.base.extractLsb' 32 32).append (s.w.rdV a L) : BitVec (32 + 32))) noLane))
/-- R69, R131, R132: BRT and BRF that some thread takes, and CALLV of an active thread, trap ACCESS at a target that is not canonical, CALLV also at one in another
4 GiB than the return address; JMPV traps ALIGN at the misaligned target of the lowest such lane. CALLV and JMPV trap ILLREG when the warp does not
hold their register. No thread moves and v127 is not written. -/
def Sys2Proof.LaneBranchesToBadTargetsTrap : Prop :=
  ∀ (s : State) (p : Pre), TrapTakes s →
    let act := s.act p
    let trap := fun (cause : Nat) (v : W64) (t : State) => TrapTaken s t act cause v
    (∀ m off, canonical (wordTarget s 22 off) = false →
      ((∃ L, L < 32 ∧ act.getLsbD L = true ∧ (s.w.rdM m).getLsbD L = true) → Completes (.brt p m off) s (trap 0x05 (wordTarget s 22 off))) ∧
      ((∃ L, L < 32 ∧ act.getLsbD L = true ∧ (s.w.rdM m).getLsbD L = false) → Completes (.brf p m off) s (trap 0x05 (wordTarget s 22 off)))) ∧
    (∀ off, (s.w.holdsV 127 = false → Completes (.callv p off) s (trap 0x02 127)) ∧
      (s.w.holdsV 127 = true → RegsFree s.w [(127, 1)] → act ≠ 0 →
        (canonical (wordTarget s 22 off) = false ∨ (wordTarget s 22 off).toNat / 2 ^ 32 ≠ (s.iss.base + 4).toNat / 2 ^ 32) →
        Completes (.callv p off) s (trap 0x05 (wordTarget s 22 off)))) ∧
    (∀ a, a < 128 → (s.w.holdsV a = false → Completes (.jmpv p a) s (trap 0x02 (BitVec.ofNat 64 a))) ∧
      ∀ L, L < 32 → s.w.holdsV a = true → RegsFree s.w [(a, 1)] → act.getLsbD L = true → (s.w.rdV a L).toNat % 4 ≠ 0 →
        (∀ K, K < L → act.getLsbD K = true → (s.w.rdV a K).toNat % 4 = 0) →
        Completes (.jmpv p a) s (trap 0x04 ((s.iss.base.extractLsb' 32 32).append (s.w.rdV a L) : BitVec (32 + 32))))
/-- R69, R131, R132: the lane branches and calls, and their traps. -/
def Obligations.LaneBranchesMoveTheirThreadsOrTrap : Prop :=
  LaneBranchesMoveTheirThreads ∧ LaneBranchesToBadTargetsTrap

/-- R160, R161: the barrier that a level and a number name for the issuing warp. -/
def Sys2Proof.barrierNamed (s : State) (l : Level) (n : Nat) : BarRef :=
  match l with
  | .warp => ⟨.warp, s.iss.key, 0⟩
  | .group => ⟨.group, s.w.group, n⟩
  | .gang => ⟨.gang, s.g.grid * 2 ^ 32 + s.g.gang, n + 8 * s.g.copy⟩
  | .grid => ⟨.grid, s.g.grid, n⟩
/-- R160 to R162: with no thread of the issue set arrived already, BAR arrive counts its threads at the barrier and goes on, BAR sync counts
them and waits for the phase, and BAR wait goes on; when all of them have arrived, BAR wait waits for the phase. The other barriers and the phase
stand. -/
def Sys2Proof.BarriersCountTheirArrivals : Prop :=
  ∀ (s : State) (l : Level) (n : Nat), (Instr.barArrive l n).wf = true → s.gr.lrec.flags / 4 % 2 = 1 ∨ l ≠ .grid → Released s →
    s.iss.set ≠ 0 → (l = .gang → s.g.copy ≤ 1) →
    let b := barrierNamed s l n
    let here := fun L => L < 32 ∧ s.iss.set.getLsbD L = true
    let come := fun L => (s.barrier b).arrived.contains (s.iss.key * 32 + L)
    let counted := fun t : State =>
      SameMemory s t ∧ RegsKept s t noReg noLane noReg ∧ (t.barrier b).phase = (s.barrier b).phase ∧
      (∀ x, x ∈ (t.barrier b).arrived ↔ x ∈ (s.barrier b).arrived ∨ ∃ L, here L ∧ x = s.iss.key * 32 + L) ∧
      (∀ c, c ≠ b → (c.level = .warp → c.num = 0) → t.barrier c = s.barrier c) ∧ ∀ k, k ≠ s.iss.key → t.warp k = s.warp k
    ((∀ L, here L → come L = false) →
      Completes (.barArrive l n) s (fun t => counted t ∧ GoOn s t s.iss.set (s.iss.base + 4)) ∧
      (NoTx s → Completes (.barWait l n) s (WarpBecomes s · s.w (s.iss.base + 4)) ∧
        Completes (.barSync l n) s fun t =>
          counted t ∧ t.w.parks = s.w.parks ++ [⟨s.iss.set, .bar b (s.barrier b).phase⟩] ∧
          ∀ L, here L → (t.w.thread L).status = .waiting ∧ (t.w.thread L).pc = (s.w.thread L).pc)) ∧
    (NoTx s → (∀ L, here L → come L = true) →
      Completes (.barWait l n) s (Waits s · (s.parked (.bar b (s.barrier b).phase))))
/-- R161: BAR on a grid barrier in a grid that is not co-resident traps ILLEGAL, with the instruction word as the detail. -/
def Sys2Proof.GridBarriersNeedACoResidentGrid : Prop :=
  ∀ (s : State) (n : Nat), TrapTakes s → s.gr.lrec.flags / 4 % 2 = 0 → NoTx s →
    let trap := fun t : State => TrapTaken s t s.iss.set 0x01 (BitVec.ofNat 64 (s.iss.words.getLastD 0))
    Completes (.barArrive .grid n) s trap ∧ Completes (.barWait .grid n) s trap ∧ Completes (.barSync .grid n) s trap
/-- R160 to R162: barriers, and the grid barrier in a grid that is not co-resident. -/
def Obligations.BarriersCountTheirArrivalsAndTrapOutsideTheirGrid : Prop :=
  BarriersCountTheirArrivals ∧ GridBarriersNeedACoResidentGrid

/-! ## Events and waits -/

/-- R165, R166: EVB binds a handler, and events 12 to 15 to a barrier; EVM.wr, .set and .clr change $evm, and EVCLR clears bits of $evp, while no
issue set of the warp waits in a WANY. -/
def Sys2Proof.EventInstructionsChangeTheirRegister : Prop :=
  ∀ s : State, NoneAny s →
    let next := s.iss.base + 4
    let bits := fun imm => BitVec.ofNat 16 imm
    (∀ n l b a, (Instr.evb n l b a).wf = true → (s.rdS a).toNat % 4 = 0 → canonical (s.rdS a) = true →
      let bar :=
        if l = 0 then some (barrierNamed s .group b) else if l = 1 then some (barrierNamed s .gang b)
        else if l = 2 then some (barrierNamed s .grid b) else if b = 15 then none else some (barrierNamed s .warp 0)
      Completes (.evb n l b a) s (WarpBecomes s ·
        { s.w with evh := vset s.w.evh n (s.rdS a), evbind := if 12 ≤ n then vset s.w.evbind (n - 12) bar else s.w.evbind } next)) ∧
    (∀ imm, Completes (.evmWr imm) s (WarpBecomes s · { s.w with evm := bits imm } next) ∧
      Completes (.evmSet imm) s (WarpBecomes s · { s.w with evm := s.w.evm ||| bits imm } next) ∧
      Completes (.evmClr imm) s (WarpBecomes s · { s.w with evm := s.w.evm &&& ~~~(bits imm) } next) ∧
      Completes (.evclr imm) s (WarpBecomes s · { s.w with evp := s.w.evp &&& ~~~(bits imm) } next))

/-- R167: WANY with no event of its mask enabled and bound traps ILLEGAL; with one pending, the issue set goes to the handler of the first in the
order 12 to 15, then 0 to 11, and that bit of $evp is cleared; with none pending it waits. -/
def Sys2Proof.WaitForAnyDeliversTheFirstEvent : Prop :=
  ∀ (s : State) (imm : Nat), NoTx s →
    let takes := fun n => n < 16 ∧ imm.testBit n = true ∧ s.w.evm.getLsbD n = true ∧ vget 0 s.w.evh n ≠ 0
    ((∀ n, ¬takes n) → TrapTakes s →
      Completes (.wany imm) s (TrapTaken s · s.iss.set 0x01 (BitVec.ofNat 64 (s.iss.words.getLastD 0)))) ∧
    (∀ n, takes n → s.w.evp.getLsbD n = true → (∀ k, takes k → s.w.evp.getLsbD k = true → (n + 4) % 16 ≤ (k + 4) % 16) →
      canonical (vget 0 s.w.evh n) = true →
      Completes (.wany imm) s
        (WarpBecomes s · { s.w with evp := s.w.evp &&& ~~~(BitVec.ofNat 16 (2 ^ n)) } (vget 0 s.w.evh n))) ∧
    ((∃ n, takes n) → (∀ n, takes n → s.w.evp.getLsbD n = false) → Completes (.wany imm) s (Waits s · (s.parked (.wany imm))))
/-- R165 to R167: the event instructions and WANY. -/
def Obligations.EventsAreBoundMaskedAndDelivered : Prop :=
  EventInstructionsChangeTheirRegister ∧ WaitForAnyDeliversTheFirstEvent

/-- R244, R300, R301, R400: WAITQ goes on when at most n operations of its class are outstanding, and WAITK when no token of its mask has one; WAITK
writes the ERR bits of its tokens to sd and clears them. Otherwise they wait. A WAITQ of the collective class with a miss report traps
DECODEMISS. -/
def Obligations.EngineWaitsGoOnWhenTheirCountIsReached : Prop :=
  ∀ s : State, NoTx s →
    let next := s.iss.base + 4
    let count := fun c : QClass => match c with | .copy => s.w.qcopy | .gather => s.w.qgath | .matrix => s.w.qmat | .coll => s.w.qcoll
    (∀ c n, (count c ≤ n → (c = .coll → s.w.reports = []) → Completes (.waitq c n) s (WarpBecomes s · s.w next)) ∧
      (n < count c → Completes (.waitq c n) s (Waits s · (s.parked (.waitq c n))))) ∧
    (∀ n p m, s.w.qcoll ≤ n → s.w.reports = [(p, m)] → TrapTakes s →
      Completes (.waitq .coll n) s fun t => t.w.handler = true ∧ t.w.trapc = 0x0E ∧ t.w.trapa = BitVec.ofNat 64 (p * 2 ^ 32 + m) ∧ t.w.reports = []) ∧
    (∀ d m, (Instr.waitk d m).wf = true →
      let idle := ∀ n, n < 8 → m.testBit n = true → vget 0 s.w.tokPend n = 0
      let mask := BitVec.ofNat 8 m
      (idle → Completes (.waitk d m) s (WarpBecomes s ·
        { s.w with sregs := vset s.w.sregs d ((s.w.tokErr &&& mask).setWidth 64), tokErr := s.w.tokErr &&& ~~~mask } next)) ∧
      (¬idle → Completes (.waitk d m) s (Waits s · (s.parked (.waitk d m)))))

/-! ## Taking and giving -/

/-- The number of 1 bits. -/
def Sys2Proof.ones {n : Nat} (v : BitVec n) : Nat := ((List.range n).filter fun i => v.getLsbD i).length
/-- Bit i is among the lowest, or the highest, c one bits of v. -/
def Sys2Proof.amongLowest (v : W64) (c i : Nat) : Bool := v.getLsbD i && decide (((List.range i).filter fun j => v.getLsbD j).length < c)
def Sys2Proof.amongHighest (v : W64) (c i : Nat) : Bool :=
  v.getLsbD i && decide (((List.range 64).filter fun j => decide (i < j) && v.getLsbD j).length < c)
/-- R103, R168, R314: with no request waiting, TAKE.V gains the blocks of its mask that the warp lacks, zeroed, when the group's pool has room
for them, and TAKE.A the lowest free banks of the pool, zeroed; GIVE.V gives blocks up, and GIVE.A the highest banks of the warp that no matrix
operation names. -/
def Obligations.TakesAndGivesMoveBlocksAndBanks : Prop :=
  ∀ s : State, NoTakes s → AtIssue s → MemoryCanonical s →
    let next := s.iss.base + 4
    let goes := fun t : State => ∀ L, L < 32 → s.iss.set.getLsbD L = true →
      (t.w.thread L).pc = next ∧ (t.w.thread L).status = .eligible
    (∀ m, NoTx s →
      let need := BitVec.ofNat 4 m &&& ~~~s.w.vext
      let held := ((s.groupWarps s.g.key).map fun k => ones (s.warp k).vext).sum
      ones need ≤ s.g.xreg → held + ones need ≤ s.g.xreg →
      Completes (.takeV m) s fun t =>
        SameMemory s t ∧ goes t ∧ t.w.vext = s.w.vext ||| BitVec.ofNat 4 m ∧
        (∀ n L, n < 128 → t.w.rdV n L = if 96 ≤ n ∧ need.getLsbD ((n - 96) / 8) = true then 0 else s.w.rdV n L) ∧
        (∀ n, t.rdS n = s.rdS n) ∧ (∀ n, t.w.rdM n = s.w.rdM n)) ∧
    (∀ c, NoTx s → c ≤ ones s.g.pool → c ≤ ones s.g.poolFree →
      Completes (.takeA c) s fun t =>
        goes t ∧ RegsKept s t noReg noLane noReg ∧
        (∀ i, i < 64 → let taken := amongLowest s.g.poolFree c i
          (t.w.acch.getLsbD i = (s.w.acch.getLsbD i || taken)) ∧ (t.g.own.getLsbD i = (s.g.own.getLsbD i || taken)) ∧
          (t.g.poolFree.getLsbD i = (s.g.poolFree.getLsbD i && !taken))) ∧
        ∀ a,
          let bank := windowBase s.pkg s.g.core + 0x100000
          let inside := ∃ i, i < 64 ∧ amongLowest s.g.poolFree c i = true ∧ bank + i * 0x4000 ≤ a ∧ a < bank + (i + 1) * 0x4000
          (inside → Memory.read t.mem a = 0) ∧ (¬inside → Memory.read t.mem a = Memory.read s.mem a)) ∧
    (∀ m, s.w.flights = [] → Completes (.giveV m) s (WarpBecomes s · { s.w with vext := s.w.vext &&& ~~~(BitVec.ofNat 4 m) } next)) ∧
    (∀ c, s.w.flights = [] → (∀ o ∈ s.g.matQ, ∀ b ∈ o.kind.bands, amongHighest s.w.acch c (b % 64) = false) →
      Completes (.giveA c) s fun t =>
        SameMemory s t ∧ RegsKept s t noReg noLane noReg ∧ GoOn s t s.iss.set next ∧
        ∀ i, i < 64 → let given := amongHighest s.w.acch c i
          (t.w.acch.getLsbD i = (s.w.acch.getLsbD i && !given)) ∧ (t.g.own.getLsbD i = (s.g.own.getLsbD i && !given)) ∧
          (t.g.poolFree.getLsbD i = (s.g.poolFree.getLsbD i || given)))

/-! ## Transactions -/

/-- The lanes of a mask in ascending order. -/
def Sys2Proof.activeLanes (act : W32) : List Nat := (List.range 32).filter fun L => act.getLsbD L
/-- The warp is in its handler for a TXMISUSE of the issue set (R238, R317): the transactions of the set are over, and no register and no byte of memory has
changed. -/
structure Sys2Proof.MisuseTaken (s t : State) : Prop where
  memory : SameMemory s t
  regs : RegsKept s t noReg noLane noReg
  cause : t.w.trapc = 0x0F ∧ t.w.trapa = 0 ∧ t.w.trappc = s.iss.pc ∧ t.w.trapm = s.iss.set.append s.iss.set ∧ t.w.handler = true
  threads : ∀ L, L < 32 → s.iss.set.getLsbD L = true →
    { (t.w.thread L) with wait := 0 } = { (s.w.thread L) with tx := none, pc := s.w.tvec, status := .eligible, wait := 0 }
/-- R230, R235, R238: TXB of a set with a thread in an ordinary transaction, TXC and TXA of one with a thread in a transaction and a thread in none, and TXA of one with
an irrevocable thread, trap TXMISUSE. -/
def Sys2Proof.MisusedTransactionsEnd : Prop :=
  ∀ s : State, s.w.tvec ≠ 0 → s.w.handler = false → s.slotQueue = [] → s.iss.set ≠ 0 →
    let some_ := fun (p : Thread → Prop) => ∃ L, L < 32 ∧ s.iss.set.getLsbD L = true ∧ p (s.w.thread L)
    let inside := some_ fun x => x.tx ≠ none
    let outside := some_ fun x => x.tx = none ∧ x.irr = false
    (inside → ∀ off, Completes (.txb off) s (MisuseTaken s)) ∧
    (inside → outside → (∀ m, Completes (.txc m) s (MisuseTaken s)) ∧ ∀ c, Completes (.txa c) s (MisuseTaken s)) ∧
    ((some_ fun x => x.irr = true ∧ x.tx = none) → ∀ c, Completes (.txa c) s (MisuseTaken s))

/-- R226, R233, R237: TXB gives each thread of its issue set a transaction with the label and the lowest free slot, and each thread whose
RETRY has reached $txlim the fallback lock when it is free; TXB in a transaction or in a paired grid traps TXMISUSE, and TXC and TXA
outside one. -/
def Sys2Proof.TransactionsBegin : Prop :=
  ∀ (s : State) (off : Nat), AtIssue s → s.iss.set ≠ 0 →
    let label := wordTarget s 23 off
    let here := fun L => L < 32 ∧ s.iss.set.getLsbD L = true
    let free := ∀ L, here L → (s.w.thread L).tx = none ∧ (s.w.thread L).irr = false
    (free → s.gr.paired = false → canonical label = true →
      (s.slotQueue = [] → s.txSlots.length < 1024 → s.lockQueue = [] → (∀ p ∈ s.w.parks, p.set ≠ s.iss.set) → (∀ L, here L → (s.w.thread L).retry < s.w.txlim) →
        Completes (.txb off) s fun t =>
          SameMemory s t ∧ RegsKept s t noReg noLane noReg ∧ ∃ slot,
            slot ∉ s.txSlots ∧ (∀ i, i < slot → i ∈ s.txSlots) ∧ (∀ i, i ∈ t.txSlots ↔ i ∈ s.txSlots ∨ i = slot) ∧
            ∀ L, here L → (t.w.thread L).tx = some ⟨label, slot, [], [], false, 0⟩ ∧ (t.w.thread L).pc = s.iss.base + 4 ∧
              (t.w.thread L).status = .eligible) ∧
      (∀ L, here L → s.iss.set = BitVec.ofNat 32 (2 ^ L) → s.w.txlim ≤ (s.w.thread L).retry → s.lock = none → s.lockQueue = [] →
        Completes (.txb off) s fun t =>
          SameMemory s t ∧ t.lock = some ⟨s.iss.key, L, s.ps / 1000, s.g.slice, []⟩ ∧ (t.w.thread L).irr = true ∧
          (t.w.thread L).tx = none ∧ (t.w.thread L).pc = s.iss.base + 4 ∧ (t.w.thread L).status = .eligible)) ∧
    (TrapTakes s →
      ((s.gr.paired = true ∨ ∃ L, here L ∧ (s.w.thread L).irr = true) → Completes (.txb off) s (TrapTaken s · s.iss.set 0x0F 0)) ∧
      (free → (∀ m, Completes (.txc m) s (TrapTaken s · s.iss.set 0x0F 0)) ∧
        ∀ c, Completes (.txa c) s (TrapTaken s · s.iss.set 0x0F 0)))

/-- R226, R230, R233, R235, R237, R238: TXB, and the transaction instructions that are not allowed where they stand. -/
def Obligations.TransactionsBeginAndMisuseTraps : Prop :=
  TransactionsBegin ∧ MisusedTransactionsEnd

/-- R234, R236, R237, R239: TXC of a thread whose logged words all equal memory performs its buffered writes at once, sets its bit of md and
ends its transaction; with a word changed it aborts to its label with VALIDATE. TXC of the holder of the fallback lock commits and frees it.
TXA aborts every thread of the set with USER and its detail; TXS reads which threads are in a transaction. -/
def Sys2Proof.TransactionsOfAThreadCommitOrAbort : Prop :=
  ∀ (s : State) (L : Nat), L < 32 → s.iss.set = BitVec.ofNat 32 (2 ^ L) → AtIssue s →
    let x := s.w.thread L
    let holds := fun (tx : Tx) => ∀ l ∈ tx.log, s.getW64 l.1 = l.2 ∧ s.poisonedIn l.1 8 = false
    (∀ m tx, m < 8 → x.tx = some tx → x.irr = false → tx.matched = false → s.commits = [] → s.lock = none → Released s → s.lockQueue = [] →
      s.slotQueue = [] → LinesSettled s → (∀ l ∈ tx.log, HomedHere s l.1 8) → (∀ b ∈ tx.buf, HomedHere s b.1 1) →
      (holds tx → Completes (.txc m) s fun t =>
        t.mem = tx.buf.foldl (fun c b => Memory.write c b.1 b.2) s.mem ∧
        (t.w.thread L).tx = none ∧ (t.w.thread L).retry = 0 ∧ (t.w.thread L).pc = s.iss.base + 4 ∧ (t.w.thread L).status = .eligible ∧
        (m ≠ 0 → (t.w.rdM m).getLsbD L = true) ∧ t.w.cmask.getLsbD L = true ∧ t.ticket = s.ticket + 1 ∧
        (∀ n, t.rdS n = s.rdS n) ∧ ∀ n K, t.w.rdV n K = s.w.rdV n K) ∧
      (¬holds tx → Completes (.txc m) s fun t =>
        SameMemory s t ∧ (t.w.thread L).tx = none ∧ (t.w.thread L).pc = tx.label ∧ (t.w.thread L).code = 1 ∧
        (t.w.thread L).retry = Nat.min 15 (x.retry + 1) ∧ (t.w.thread L).status = .eligible ∧
        (m ≠ 0 → (t.w.rdM m).getLsbD L = false) ∧ t.w.cmask.getLsbD L = false)) ∧
    (∀ m, m < 8 → x.tx = none → x.irr = true → Released s → s.lockQueue = [] → s.lock ≠ none →
      Completes (.txc m) s fun t =>
        SameMemory s t ∧ t.lock = none ∧ (t.w.thread L).irr = false ∧ (t.w.thread L).retry = 0 ∧
        (t.w.thread L).pc = s.iss.base + 4 ∧ (m ≠ 0 → (t.w.rdM m).getLsbD L = true) ∧ t.w.cmask = s.iss.set) ∧
    (∀ c tx, c < 256 → x.tx = some tx → s.slotQueue = [] →
      Completes (.txa c) s fun t =>
        SameMemory s t ∧ RegsKept s t noReg noLane noReg ∧
        { (t.w.thread L) with wait := 0 } =
          { x with tx := none, pc := tx.label, retry := Nat.min 15 (x.retry + 1), code := 7, detail := c, wait := 0 }) ∧
    (∀ d, (Instr.txs d).wf = true →
      Completes (.txs d) s (fun t => UniformResult s t d
        (if x.tx ≠ none then BitVec.ofNat 64 (2 ^ L) + (if x.irr then BitVec.ofNat 64 (2 ^ (32 + L)) else 0)
          else if x.irr then BitVec.ofNat 64 (2 ^ (32 + L)) else 0) (s.iss.base + 4)))

/-- R234: the threads of a set, in ascending order, commit one after the other: memory after them, and those that have committed. A thread commits when every word it
has logged is as it was. -/
def Sys2Proof.commits (w : Warp) : List Nat → List Host.Cell → List Host.Cell × List Nat
  | [], m => (m, [])
  | L :: r, m =>
    match (w.thread L).tx with
    | some tx =>
      if tx.log.all fun l => decide (leNat (Memory.readBytes m l.1 8) = l.2.toNat) then
        let q := commits w r (tx.buf.foldl (fun c b => Memory.write c b.1 b.2) m)
        (q.1, L :: q.2)
      else commits w r m
    | none => commits w r m
/-- R234 to R236, R239: TXC of a set whose threads are all in ordinary transactions commits them in ascending order, each at one instant: a thread whose logged words
still stand writes what it has buffered and goes on; another aborts to its label with VALIDATE. Their bits of md and of the commit mask tell which. TXA aborts every
thread of the set with USER, and TXS reads which threads of the set are in a transaction and which hold the lock. -/
def Sys2Proof.TransactionsOfASetCommitOrAbort : Prop :=
  ∀ s : State, s.iss.set ≠ 0 →
    let here := fun L => L < 32 ∧ s.iss.set.getLsbD L = true
    let inside := ∀ L, here L → (s.w.thread L).tx ≠ none
    (∀ m, m < 8 → AtIssue s → inside → s.commits = [] → s.lock = none → Released s → s.lockQueue = [] → s.slotQueue = [] → LinesSettled s →
      (∀ L tx, here L → (s.w.thread L).tx = some tx → (s.w.thread L).irr = false ∧ tx.matched = false ∧
        (∀ l ∈ tx.log, HomedHere s l.1 8 ∧ s.poisonedIn l.1 8 = false) ∧ ∀ b ∈ tx.buf, HomedHere s b.1 1) →
      let r := commits s.w (activeLanes s.iss.set) s.mem
      Completes (.txc m) s fun t =>
        t.mem = r.1 ∧ t.ticket = s.ticket + 1 ∧ (∀ n, t.rdS n = s.rdS n) ∧ (∀ n K, t.w.rdV n K = s.w.rdV n K) ∧
        (∀ L, here L → (t.w.thread L).tx = none ∧ (t.w.thread L).status = .eligible ∧
          (L ∈ r.2 → (t.w.thread L).pc = s.iss.base + 4 ∧ (t.w.thread L).retry = 0) ∧
          (L ∉ r.2 → (∀ tx, (s.w.thread L).tx = some tx → (t.w.thread L).pc = tx.label) ∧ (t.w.thread L).code = 1 ∧
            (t.w.thread L).retry = Nat.min 15 ((s.w.thread L).retry + 1)) ∧
          (m ≠ 0 → ((t.w.rdM m).getLsbD L = true ↔ L ∈ r.2))) ∧
        ∀ L, L < 32 → (t.w.cmask.getLsbD L = true ↔ L ∈ r.2)) ∧
    (∀ c, c < 256 → inside → s.slotQueue = [] →
      Completes (.txa c) s fun t =>
        SameMemory s t ∧ RegsKept s t noReg noLane noReg ∧
        ∀ L tx, here L → (s.w.thread L).tx = some tx → { (t.w.thread L) with wait := 0 } =
          { (s.w.thread L) with tx := none, pc := tx.label, retry := Nat.min 15 ((s.w.thread L).retry + 1), code := 7, detail := c, wait := 0 }) ∧
    (∀ d, (Instr.txs d).wf = true → Completes (.txs d) s fun t => ∃ v : W64,
      UniformResult s t d v (s.iss.base + 4) ∧
      ∀ L, L < 32 → (v.getLsbD L = true ↔ here L ∧ (s.w.thread L).tx ≠ none) ∧
        (v.getLsbD (32 + L) = true ↔ here L ∧ (s.w.thread L).irr = true))
/-- R234 to R237, R239: TXC, TXA and TXS of one thread and of a set of threads. -/
def Obligations.TransactionsCommitOrAbort : Prop :=
  TransactionsOfAThreadCommitOrAbort ∧ TransactionsOfASetCommitOrAbort

/-- R230: the abort code of an instruction without lanes that aborts the transactions of its issue set. -/
def Sys2Proof.abortsWith (i : Instr) : Option Nat :=
  match i with
  | .sld _ | .sldw _ | .sst _ | .sstw _ | .launch _ _ | .gstr _ _ _ _ | .cbdef _ _ _ | .cbget _ _ | .cbput _ _ | .cbqry _ _ | .cblim _ _
  | .tcfg _ _ | .tld _ _ | .tldS _ _ _ | .tst _ _ | .mma _ _ _ | .mmaPair _ _ _ | .mdrnTile _ _ _ _ _ | .mdrnSpad _ _ _ _ | .mchk _ | .mfix _
  | .mrty _ _ | .mstat _ | .mstatClo _ _ | .mstatChi _ _ | .mzero _ | .mgive _ _ | .xred _ | .xbc _ | .xshf _ | .xside _ | .xqry _ _ => some 5
  | .wany _ | .barWait _ _ | .barSync _ _ | .takeV _ | .takeA _ | .waitq _ _ | .waitk _ _ | .sleep _ => some 6
  | _ => none
/-- R236: the threads of the issue set, all in ordinary transactions, have aborted with a code: each stands at its label, with the code in $txretry. Nothing else has
changed but what they had under way. -/
structure Sys2Proof.AllAborted (code : Nat) (s t : State) : Prop where
  memory : SameMemory s t
  regs : RegsKept s t noReg noLane noReg
  special : t.w.special = (s.w.dropFlights s.iss.set).special
  threads : ∀ L, L < 32 →
    let x := s.w.thread L
    { (t.w.thread L) with wait := 0 } =
      match (if s.iss.set.getLsbD L then x.tx else none) with
      | some tx => { x with tx := none, pc := tx.label, retry := Nat.min 15 (x.retry + 1), code := code, detail := 0, wait := 0 }
      | none => { x with wait := 0 }
/-- R230, R236: such an instruction, issued by threads that are all in ordinary transactions, aborts them with ENGINE or HOLD and has no other
effect. So do CPY, GATH, an ATOM with a narrow sum and MEET.WAIT whose threads are all active, once their registers have been checked. -/
def Obligations.InstructionsAbortTransactions : Prop :=
  ∀ s : State, s.iss.set ≠ 0 → s.slotQueue = [] → (∀ L, L < 32 → s.iss.set.getLsbD L = true → (s.w.thread L).tx ≠ none) →
    let all := fun p : Pre => s.act p = s.iss.set
    let held := fun us : List (Nat × Nat) => RegsFree s.w us ∧ ∀ u ∈ us, ∀ i, i < u.2 → s.w.holdsV (u.1 + i) = true
    (∀ i code, abortsWith i = some code → Completes i s (AllAborted code s)) ∧
    (∀ f : CpyF, all f.pre → held [(2 * f.s, 2), (2 * f.d, 2)] → Completes (.cpy f) s (AllAborted 5 s)) ∧
    (∀ f : CpyBufF, all f.pre → held [(2 * f.s, 2), (f.o, 1)] → Completes (.cpyBuf f) s (AllAborted 5 s)) ∧
    (∀ f : GathF, all f.pre → held [(2 * f.base, 2), (f.idx, 1), (f.o, 1)] → Completes (.gath f) s (AllAborted 5 s)) ∧
    (∀ f : LA, all f.pre → AtomOp.narrow f.op = true → s.iss.idx ≤ f.pre.last →
      RegsHeld s f.pre (fun j => [(f.pre.d j f.d, 1), (f.pre.a j f.a, 2)]) → Completes (.atom f) s (AllAborted 5 s)) ∧
    (∀ p n, all p → Completes (.meetWait p n) s (AllAborted 6 s))

/-! ## Memory -/

/-- The address of a uniform access (R30, R61). -/
def Sys2Proof.uniformAddr (s : State) (f : UM) (size : Nat) : W64 :=
  s.rdS f.a + (BitVec.ofNat 9 f.off).signExtend 64 * BitVec.ofNat 64 size
/-- R62 to R64: SLD, SLDW and SLDK read 8 or 4 bytes, or 8 of the parameter block, into sd, zero-extended; no byte of memory and no other
register changes. -/
def Sys2Proof.UniformLoadsReadMemory : Prop :=
  ∀ s : State, Quiet s →
    let loads := fun (d : Nat) (va : W64) (n : Nat) (t : State) =>
      UniformResult (s.looked t) t d (leW64 (s.bytesFor .read va n)) (s.iss.base + 4)
    (∀ e ∈ [(Instr.sld, 8), (Instr.sldw, 4)], ∀ f : UM, (e.1 f).wf = true →
      let va := uniformAddr s f e.2
      Allows s .read .load va e.2 → CleanAt s .read va e.2 → (∀ x, f.ext = some x → x.atom = 1 → va.toNat % 8 = 0) →
      Completes (e.1 f) s (loads f.d va e.2)) ∧
    (∀ d a off, (Instr.sldk d a off).wf = true →
      let pr := s.ctlOf s.iss.key 0x0B
      let o := (s.rdS a).toInt + (BitVec.ofNat 9 off).toInt * 8
      let va := paramBase pr + BitVec.ofInt 64 o
      0 ≤ o → o % 8 = 0 → o + 8 ≤ paramLen pr → Allows s .read .load va 8 → CleanAt s .read va 8 →
      Completes (.sldk d a off) s (loads d va 8))

/-- R61, R63: SST and SSTW store the low 8 or 4 bytes of sd, little-endian, at their address. Every other byte of memory and every register stands. -/
def Sys2Proof.UniformStoresWriteMemory : Prop :=
  ∀ s : State, Quiet s → MemoryCanonical s → RemoteRoom s →
    ∀ e ∈ [(Instr.sst, 8), (Instr.sstw, 4)], ∀ f : UM, (e.1 f).wf = true →
      let va := uniformAddr s f e.2
      Allows s .write .store va e.2 → PlainAt s .write va e.2 → (∀ x, f.ext = some x → x.atom = 1 → va.toNat % 8 = 0) →
      Completes (e.1 f) s fun t =>
        StoresDone s t [(va, leBytes e.2 (s.rdS f.d).toNat)] ∧
        WarpBecomes (s.accessed t t.mem) t s.w (s.iss.base + 4)
/-- R61 to R64: uniform loads and stores. -/
def Obligations.UniformAccessesReachMemory : Prop :=
  UniformLoadsReadMemory ∧ UniformStoresWriteMemory

/-- R211: the address of a lane's access, its offset being a signed number of elements, or the register of the lane. -/
def Sys2Proof.laneOffset (s : State) (f : LM) (L : Nat) : Int :=
  match f.b with
  | .imm v => (BitVec.ofNat 7 v).toInt * lmSize f
  | .reg n => (s.w.rdV (f.pre.b s.iss.idx n) L).toInt
def Sys2Proof.laneAddr (s : State) (f : LM) (L : Nat) : W64 :=
  s.w.rdV64 (f.pre.a s.iss.idx f.a) L + BitVec.ofInt 64 (laneOffset s f L)
/-- The offset of a lane's access in the group's scratchpad. -/
def Sys2Proof.localOffset (s : State) (f : LM) (L : Nat) : Int := (s.w.rdV (f.pre.a s.iss.idx f.a) L).toNat + laneOffset s f L
/-- The registers of an access of n bytes. -/
def Sys2Proof.regsOf (n : Nat) : Nat := if n = 16 then 4 else if n = 8 then 2 else 1
/-- R72, R215: register j of a lane that has loaded bytes. -/
def Sys2Proof.loaded (t : IntTy) (bs : List Byte) (j : Nat) : W32 :=
  if bs.length ≤ 4 then
    (if IntTy.signed t then (BitVec.ofNat (8 * bs.length) (leNat bs)).signExtend 32 else BitVec.ofNat 32 (leNat bs))
  else BitVec.ofNat 32 (leNat ((bs.drop (4 * j)).take 4))
/-- The bytes that a lane stores. -/
def Sys2Proof.stores (s : State) (d n L : Nat) : List Byte :=
  leBytes n ((List.range (regsOf n)).map fun j => (s.w.rdV (d + j) L).toNat * 2 ^ (32 * j)).sum
/-- The register uses of a lane access. -/
def Sys2Proof.accessUses (f : LM) (aw j : Nat) : List (Nat × Nat) := (f.pre.d j f.d, regsOf (lmSize f)) :: (f.pre.a j f.a, aw) :: f.b.use f.pre j 1

/-- R211, R215: LD gives each active lane the bytes at its address, extended by the type to a register or filling a pair or a quadruple. No
byte of memory and no other register changes. -/
def Sys2Proof.LaneLoadsReadMemory : Prop :=
  ∀ (f : LM) (s : State), (Instr.ld f).wf = true → s.iss.idx ≤ f.pre.last → Quiet s → RegsHeld s f.pre (accessUses f 2) →
    let act := s.act f.pre
    let n := lmSize f
    let d := f.pre.d s.iss.idx f.d
    (∀ L, L < 32 → act.getLsbD L = true → Allows s .read .load (laneAddr s f L) n ∧ CleanAt s .read (laneAddr s f L) n ∧
      ∀ x, f.pre.ext = some x → x.atom ≠ 0 → (laneAddr s f L).toNat % n = 0) →
    Completes (.ld f) s fun t =>
      LaneEffect (s.looked t) t f.pre.rep noReg
        (fun k L => d ≤ k ∧ k < d + regsOf n ∧ Written act (s.zeroed f.pre) L) noReg s.w.fpmode ∧
      ∀ L j, L < 32 → j < regsOf n →
        (act.getLsbD L = true → t.w.rdV (d + j) L = loaded f.t (s.bytesFor .read (laneAddr s f L) n) j) ∧
        (act ≠ 0 → act.getLsbD L = false → (s.zeroed f.pre).getLsbD L = true → t.w.rdV (d + j) L = 0)

/-- R211, R214: ST stores the low bytes of each active lane's register, pair or quadruple at its address, in the order of the lanes. Every other
byte of memory and every register stands. -/
def Sys2Proof.LaneStoresWriteMemory : Prop :=
  ∀ (f : LM) (s : State), (Instr.st f).wf = true → s.iss.idx ≤ f.pre.last → Quiet s → MemoryCanonical s → RemoteRoom s →
    RegsHeld s f.pre (accessUses f 2) →
    let act := s.act f.pre
    let n := lmSize f
    (∀ L, L < 32 → act.getLsbD L = true → Allows s .write .store (laneAddr s f L) n ∧ PlainAt s .write (laneAddr s f L) n ∧
      ∀ x, f.pre.ext = some x → x.atom ≠ 0 → (laneAddr s f L).toNat % n = 0) →
    Completes (.st f) s fun t =>
      StoresDone s t ((activeLanes act).map fun L => (laneAddr s f L, stores s (f.pre.d s.iss.idx f.d) n L)) ∧
      LaneEffect (s.accessed t t.mem) t f.pre.rep noReg noLane noReg s.w.fpmode
/-- R211, R214, R215: lane loads and stores. -/
def Obligations.LaneAccessesReachMemory : Prop :=
  LaneLoadsReadMemory ∧ LaneStoresWriteMemory

/-- R211: LDS and STS read and write the group's own scratchpad at their lanes' offsets. LDS changes no byte of memory, and STS none outside the
bytes it stores. -/
def Obligations.LocalAccessesReachTheGroupsScratchpad : Prop :=
  ∀ (f : LM) (s : State), s.iss.idx ≤ f.pre.last → RegsHeld s f.pre (accessUses f 1) → NoneWaits s → Alone s →
    let act := s.act f.pre
    let n := lmSize f
    let d := f.pre.d s.iss.idx f.d
    let at_ := fun L => windowBase s.pkg s.coreNum + s.g.soff + (localOffset s f L).toNat
    (∀ L, L < 32 → act.getLsbD L = true → 0 ≤ localOffset s f L ∧ localOffset s f L + n ≤ s.g.slen ∧
      ∀ x, f.pre.ext = some x → x.atom ≠ 0 → localOffset s f L % n = 0) →
    ((Instr.lds f).wf = true → (∀ L i, L < 32 → act.getLsbD L = true → i < n → (s.withHeld s.iss.key).poisoned (at_ L + i) = false) →
      Completes (.lds f) s fun t =>
        LaneEffect s t f.pre.rep noReg (fun k L => d ≤ k ∧ k < d + regsOf n ∧ Written act (s.zeroed f.pre) L) noReg s.w.fpmode ∧
        ∀ L j, L < 32 → j < regsOf n → act.getLsbD L = true → t.w.rdV (d + j) L = loaded f.t (s.getBytes (at_ L) n) j) ∧
    ((Instr.sts f).wf = true → MemoryCanonical s →
      Completes (.sts f) s fun t =>
        t.mem = (activeLanes act).foldl (fun m L => Memory.writeBytes m (at_ L) (stores s d n L)) s.mem ∧
        (∀ a, (∀ L, L < 32 → act.getLsbD L = true → ¬(at_ L ≤ a ∧ a < at_ L + n)) → Memory.read t.mem a = Memory.read s.mem a) ∧
        LaneEffect { s with mem := t.mem, poison := t.poison } t f.pre.rep noReg noLane noReg s.w.fpmode)

/-- R217, R218: atomics at physical addresses in ascending lane order: memory after them, and the old value that each lane finds. -/
def Sys2Proof.atomics (op : AtomOp) (md : Rnd) : List (Nat × Nat × Nat) → List Host.Cell → List Host.Cell × List Nat
  | [], m => (m, [])
  | (pa, x, c) :: r, m =>
    let n := AtomOp.bytes op
    let old := leNat (Memory.readBytes m pa n)
    let q := atomics op md r (Memory.writeBytes m pa (leBytes n (AtomOp.apply op md old x c)))
    (q.1, old :: q.2)
/-- R217 to R219: ATOM and ATOMS replace the element of each active lane, in ascending order, by the function of it and the lane's operand, and
with N = 0 give the lane the old value, extended by its type. Every other byte of memory and every other register stands. -/
def Obligations.AtomicsReadModifyWrite : Prop :=
  ∀ (f : LA) (s : State), s.iss.idx ≤ f.pre.last →
    let act := s.act f.pre
    let n := AtomOp.bytes f.op
    let i := s.iss.idx
    let d := f.pre.d i f.d
    let wide := n = 8
    let w := if wide then 2 else 1
    let uses := fun aw j => (f.pre.d j f.d, w) :: (f.pre.a j f.a, aw) :: (match f.op with | .cas _ => [(f.pre.vc j f.d, w)] | _ => [])
    let arg := fun L => (s.w.rdT wide d L, s.w.rdT wide (f.pre.vc i f.d) L)
    let md := s.w.mode f.pre.ext
    let image := fun old => match f.op with
      | .int _ t | .swap t | .cas t => IntTy.image t false (IntTy.val t old)
      | .flt _ _ => BitVec.ofNat 64 old
    let result := fun (s' t : State) (pa : Nat → Nat) =>
      let r := atomics f.op md ((activeLanes act).map fun L => (pa L, arg L)) s.mem
      t.mem = r.1 ∧
      (∀ a, (∀ L, L < 32 → act.getLsbD L = true → ¬(pa L ≤ a ∧ a < pa L + n)) → Memory.read t.mem a = Memory.read s.mem a) ∧
      (if f.nr then LaneEffect s' t f.pre.rep noReg noLane noReg s.w.fpmode
       else LaneEffect s' t f.pre.rep noReg (LanesOf wide d act (s.zeroed f.pre)) noReg s.w.fpmode ∧
        ∀ e ∈ (activeLanes act).zip r.2, t.w.rdT wide d e.1 = (image e.2).toNat % 2 ^ (if wide then 64 else 32))
    MemoryCanonical s →
    ((Instr.atom f).wf = true → Quiet s → RemoteRoom s → RegsHeld s f.pre (uses 2) → AtomOp.narrow f.op = false →
      let va := fun L => s.w.rdV64 (f.pre.a i f.a) L
      (∀ L, L < 32 → act.getLsbD L = true → Allows s .atomic (.atom f.nr) (va L) n ∧ PlainAt s .atomic (va L) n ∧ (va L).toNat % n = 0 ∧
        (f.nr = false → CleanAt s .atomic (va L) n) ∧ s.reducing s.pkg (s.tr .atomic (va L)).1 = false) →
      Completes (.atom f) s fun t => result (s.accessed t t.mem) t fun L => (s.tr .atomic (va L)).1) ∧
    ((Instr.atoms f).wf = true → RegsHeld s f.pre (uses 1) → NoneWaits s → Alone s → s.coreNum < 1152 → s.g.soff + s.g.slen ≤ 0xC0000 →
      let o := fun L => (s.w.rdV (f.pre.a i f.a) L).toNat
      let pa := fun L => windowBase s.pkg s.coreNum + s.g.soff + o L
      (∀ L, L < 32 → act.getLsbD L = true → o L + n ≤ s.g.slen ∧ o L % n = 0 ∧
        (f.nr = false → ∀ k, k < n → (s.withHeld s.iss.key).poisoned (pa L + k) = false)) →
      Completes (.atoms f) s fun t => result { s with mem := t.mem } t pa)

/-- R61, R64, R213: an access whose first or last byte is not canonical traps ACCESS, a misaligned ATOM, or LD, ST, SLD, SLDW, SST or SSTW that
must be aligned, ALIGN, with the address of the lowest such lane as the detail. An offset outside the allocation makes LDS, STS and ATOMS trap ACCESS
and a misaligned one ALIGN, with the offset. SLDK traps ALIGN when its offset is no multiple of 8, and ACCESS outside the parameter block. No byte
of memory changes. -/
def Obligations.BadAddressesTrap : Prop :=
  ∀ (s : State) (L : Nat), TrapTakes s → s.iss.set ≠ 0 → L < 32 →
    let spans := fun (va : W64) (n : Nat) => canonical va = true ∧ canonical (va + BitVec.ofNat 64 (n - 1)) = true
    let every := fun (act : W32) (P : Nat → Prop) => ∀ K, K < 32 → act.getLsbD K = true → P K
    let lowest := fun (act : W32) (P : Nat → Prop) => act.getLsbD L = true ∧ ¬P L ∧ ∀ K, K < L → act.getLsbD K = true → P K
    (∀ f : LM, s.iss.idx ≤ f.pre.last →
      let act := s.act f.pre
      let n := lmSize f
      let ok := fun K => spans (laneAddr s f K) n
      let in_ := fun K => 0 ≤ localOffset s f K ∧ localOffset s f K + n ≤ s.g.slen
      let must := ∃ x, f.pre.ext = some x ∧ x.atom ≠ 0
      (RegsHeld s f.pre (accessUses f 2) → lowest act ok →
        Completes (.ld f) s (TrapTaken s · act 0x05 (laneAddr s f L)) ∧ Completes (.st f) s (TrapTaken s · act 0x05 (laneAddr s f L))) ∧
      (RegsHeld s f.pre (accessUses f 2) → must → every act ok → lowest act (fun K => (laneAddr s f K).toNat % n = 0) →
        Completes (.ld f) s (TrapTaken s · act 0x04 (laneAddr s f L)) ∧ Completes (.st f) s (TrapTaken s · act 0x04 (laneAddr s f L))) ∧
      (RegsHeld s f.pre (accessUses f 1) → lowest act in_ →
        Completes (.lds f) s (TrapTaken s · act 0x05 (BitVec.ofInt 64 (localOffset s f L))) ∧
        Completes (.sts f) s (TrapTaken s · act 0x05 (BitVec.ofInt 64 (localOffset s f L)))) ∧
      (RegsHeld s f.pre (accessUses f 1) → must → every act in_ → lowest act (fun K => localOffset s f K % n = 0) →
        Completes (.lds f) s (TrapTaken s · act 0x04 (BitVec.ofInt 64 (localOffset s f L))) ∧
        Completes (.sts f) s (TrapTaken s · act 0x04 (BitVec.ofInt 64 (localOffset s f L))))) ∧
    (∀ f : LA, s.iss.idx ≤ f.pre.last →
      let act := s.act f.pre
      let n := AtomOp.bytes f.op
      let w := if n = 8 then 2 else 1
      let uses := fun aw j => (f.pre.d j f.d, w) :: (f.pre.a j f.a, aw) :: (match f.op with | .cas _ => [(f.pre.vc j f.d, w)] | _ => [])
      let va := fun K => s.w.rdV64 (f.pre.a s.iss.idx f.a) K
      let ok := fun K => spans (va K) n
      let o := fun K => (s.w.rdV (f.pre.a s.iss.idx f.a) K).toNat
      let in_ := fun K => o K + n ≤ s.g.slen
      (RegsHeld s f.pre (uses 2) → lowest act ok → Completes (.atom f) s (TrapTaken s · act 0x05 (va L))) ∧
      (RegsHeld s f.pre (uses 2) → every act ok → lowest act (fun K => (va K).toNat % n = 0) →
        Completes (.atom f) s (TrapTaken s · act 0x04 (va L))) ∧
      (RegsHeld s f.pre (uses 1) → lowest act in_ → Completes (.atoms f) s (TrapTaken s · act 0x05 (BitVec.ofNat 64 (o L)))) ∧
      (RegsHeld s f.pre (uses 1) → every act in_ → lowest act (fun K => o K % n = 0) →
        Completes (.atoms f) s (TrapTaken s · act 0x04 (BitVec.ofNat 64 (o L))))) ∧
    (∀ e ∈ [(Instr.sld, 8), (Instr.sldw, 4), (Instr.sst, 8), (Instr.sstw, 4)], ∀ f : UM,
      let va := uniformAddr s f e.2
      (¬spans va e.2 → Completes (e.1 f) s (TrapTaken s · s.iss.set 0x05 va)) ∧
      (spans va e.2 → (∃ x, f.ext = some x ∧ x.atom = 1) → va.toNat % 8 ≠ 0 → Completes (e.1 f) s (TrapTaken s · s.iss.set 0x04 va))) ∧
    (∀ d a off,
      let pr := s.ctlOf s.iss.key 0x0B
      let o := (s.rdS a).toInt + (BitVec.ofNat 9 off).toInt * 8
      let va := paramBase pr + BitVec.ofInt 64 o
      (o % 8 ≠ 0 → Completes (.sldk d a off) s (TrapTaken s · s.iss.set 0x04 va)) ∧
      (o % 8 = 0 → (o < 0 ∨ (paramLen pr : Int) < o + 8) → Completes (.sldk d a off) s (TrapTaken s · s.iss.set 0x05 va)))

/-! ## Launch -/

/-- R19, R148, R149, R353: the causes of code 1. -/
def Sys2Proof.RecordBroken (s : State) (die ctx : Nat) (bs : List Byte) : Prop :=
  let at_ := fun n k => leNat ((bs.drop n).take k)
  let word := fun n => BitVec.ofNat 64 (at_ n 8)
  let outside := fun n lo hi => at_ n 1 < lo ∨ hi < at_ n 1
  canonical (word 0) = false ∨ at_ 0 8 % 4 ≠ 0 ∨
  (word 8).getLsbD 57 = true ∨ at_ 8 8 % 64 ≠ 0 ∨
  canonical (word 16) = false ∨ at_ 16 8 % 8 ≠ 0 ∨
  (word 16 ≠ 0 ∧ ∀ pa size nc, s.walk die ctx (word 16) .write = .ok pa size nc → s.place pa ≠ .device) ∨
  at_ 24 4 = 0 ∨ outside 28 1 8 ∨ outside 29 1 32 ∨ outside 30 1 3 ∨ 8 ≤ at_ 31 1 ∨ (at_ 31 1 / 2 % 2 = 1 ∧ at_ 31 1 / 4 % 2 = 1) ∨
  at_ 32 1 % 8 ≠ 0 ∨ outside 32 8 96 ∨ outside 33 0 16 ∨ outside 34 0 64 ∨ outside 35 0 (4 * at_ 29 1) ∨
  at_ 36 4 % 4 ≠ 0 ∨ 786432 < at_ 36 4 ∨ 64 < at_ 34 1 + at_ 40 1 ∨ outside 41 2 4 ∨
  (at_ 42 2 ≠ 0 ∧ (at_ 48 8 % 8 ≠ 0 ∨ canonical (word 48) = false)) ∨ at_ 44 4 ≠ 0 ∨ at_ 56 8 ≠ 0
/-- R149, R163, R353: the causes of code 2. k is the number of groups that one core holds at once. -/
def Sys2Proof.RecordUnplaceable (bs : List Byte) : Prop :=
  let at_ := fun n k => leNat ((bs.drop n).take k)
  let bytes := at_ 29 1 * at_ 32 1 * 128 + at_ 35 1 * 1024
  let least := fun (need have_ rest : Nat) => if need = 0 then rest else min (have_ / need) rest
  let k := least (at_ 29 1) 64 (least bytes 1048576 (least (at_ 33 1) 16 (least (at_ 34 1 + at_ 40 1) 64 (least (at_ 36 4) 786432 64))))
  1048576 < bytes ∨ (at_ 31 1 / 4 % 2 = 1 ∧ 144 * (8 * k / at_ 28 1) < at_ 24 4) ∨ (at_ 31 1 / 2 % 2 = 1 ∧ 8 * k < at_ 28 1)
/-- R149: the code of a record, the lowest whose cause it meets, or 0 when it is accepted; 4,096 records that are not yet placed fill the queue. -/
def Sys2Proof.RecordCode (s : State) (die ctx : Nat) (bs : List Byte) (code : Nat) : Prop :=
  let waiting := (s.grids.filter fun g => (s.gangs.filter fun x => x.1 / 2 ^ 32 = g.1).length < g.2.lrec.gangs).length
  let broken := RecordBroken s die ctx bs
  let unplaceable := RecordUnplaceable bs
  (code = 1 ↔ broken) ∧ (code = 2 ↔ ¬broken ∧ unplaceable) ∧ (code = 3 ↔ ¬broken ∧ ¬unplaceable ∧ 4096 ≤ waiting) ∧ code < 4

/-- R148, R149, R150: LAUNCH of an accepted record makes a grid of it one level deeper, a child of the group, and gives sd its identifier, one that no grid has;
of a refused record it gives sd 2^63 plus the code of its cause, and makes none. -/
def Sys2Proof.LaunchSubmitsItsRecord : Prop :=
  ∀ (d a : Nat) (s : State), (Instr.launch d a).wf = true → Quiet s → Released s → s.ctlOf s.iss.key 0x08 ≠ 9 → s.grids.length < 2 ^ 30 →
    let va := s.rdS a
    let bs := s.bytesFor .read va 64
    let die := s.coreNum / 48
    va.toNat % 64 = 0 → Allows s .read .load va 64 → CleanAt s .read va 64 → s.ctxOk s.gr.ctx = true →
    (∀ pa, recW bs 16 ≠ 0 → s.signalPa die s.gr.ctx (recW bs 16) = some pa → HomedHere s pa 8) →
    ∀ code, RecordCode s die s.gr.ctx bs code →
    (code ≠ 0 → Completes (.launch d a) s fun t =>
      UniformResult (s.looked t) t d (BitVec.ofNat 64 (2 ^ 63 + code)) (s.iss.base + 4)) ∧
    (code = 0 → Completes (.launch d a) s fun t => ∃ id,
      t.rdS d = BitVec.ofNat 64 id ∧ 0 < id ∧ id < 2 ^ 32 ∧ tget? s.grids id = none ∧
      (t.grid id).lrec = LaunchRec.read bs ∧ (t.grid id).depth = (s.ctlOf s.iss.key 0x08).toNat + 1 ∧ (t.grid id).ctx = s.gr.ctx ∧
      (t.grid id).parent = some s.w.group ∧ (t.grid id).retired = 0 ∧ (∀ k, k ≠ id → t.grid k = s.grid k) ∧
      t.g.children = s.g.children ++ [id] ∧ (∀ k, k ≠ d → t.rdS k = s.rdS k) ∧ GoOn s t s.iss.set (s.iss.base + 4) ∧
      (recW bs 16 = 0 → SameMemory s t))
/-- R101, R150: LAUNCH in a grid of depth 9 traps NEST. -/
def Sys2Proof.LaunchAtTheDeepestLevelTraps : Prop :=
  ∀ (d a : Nat) (s : State), TrapTakes s → NoTx s → s.ctlOf s.iss.key 0x08 = 9 → Completes (.launch d a) s (TrapTaken s · s.iss.set 0x0B 0)
/-- R101, R148, R149, R150: LAUNCH, the records it refuses, and LAUNCH at the deepest level. -/
def Obligations.LaunchSubmitsItsRecordOrTraps : Prop :=
  LaunchSubmitsItsRecord ∧ LaunchAtTheDeepestLevelTraps

/-! ## Copies, gathers and circular buffers -/

/-- The state with another number for the core's next operation. -/
def Sys2Proof.nextOpOf (s : State) : State := s.modCore s.coreNum fun c => { c with nextOp := c.nextOp + 1 }
/-- R246, R247, R248, R294: CPY enqueues one operation with its active lanes, their source and destination addresses and translations, and counts it
in $qcopy and under its token. Nothing is copied yet. -/
def Sys2Proof.CopiesAreEnqueued : Prop :=
  ∀ s : State, Quiet s → s.w.qcopy < 255 →
    let reads := fun (src : Nat → W64) z (act : W32) => ∀ L, L < 32 → act.getLsbD L = true →
      (src L).toNat % z = 0 ∧ canonical (src L) = true ∧ canonical (src L + BitVec.ofNat 64 (z - 1)) = true ∧
      (∀ i, i < z → ∃ pa size nc, s.walk (s.coreNum / 48) s.gr.ctx (src L + BitVec.ofNat 64 i) .engRead = .ok pa size nc) ∧
      s.pagesAway .engRead [⟨0, src L, z⟩] = none ∧ ∀ r ∈ s.ranges .engRead (src L) z, s.agentMay false r.1 r.2.2 .load = true
    let queued := fun (op : CopyOp) (tok : Nat) (s' t : State) =>
      let pend := vset s.w.tokPend tok (vget 0 s.w.tokPend tok + 1)
      WarpBecomes s' t { s.w with copyQ := s.w.copyQ ++ [op], qcopy := s.w.qcopy + 1, tokPend := pend } (s.iss.base + 4)
    (∀ f : CpyF, (Instr.cpy f).wf = true →
      let act := s.act f.pre
      let z : Nat := 4 * 2 ^ f.z
      let src := s.w.rdV64 (2 * f.s)
      let dst := s.w.rdV64 (2 * f.d)
      (∀ n ∈ [2 * f.s, 2 * f.s + 1, 2 * f.d, 2 * f.d + 1], s.w.holdsV n = true) → act ≠ 0 → reads src z act →
      (∀ L, L < 32 → act.getLsbD L = true → (dst L).toNat % z = 0 ∧ canonical (dst L) = true ∧
        canonical (dst L + BitVec.ofNat 64 (z - 1)) = true ∧
        (∀ i, i < z → ∃ pa size nc, s.walk (s.coreNum / 48) s.gr.ctx (dst L + BitVec.ofNat 64 i) .engWrite = .ok pa size nc) ∧
        s.pagesAway .engWrite [⟨0, dst L, z⟩] = none ∧ ∀ r ∈ s.ranges .engWrite (dst L) z, s.agentMay false r.1 r.2.2 .store = true) →
      Completes (.cpy f) s fun t => queued
        { seq := (s.core s.coreNum).nextOp, die := s.coreNum / 48, z := z, tok := f.tok, dest := .plain
          lanes := (activeLanes act).map fun L =>
            { lane := L, srcVa := (src L).toNat, src := (s.tr .engRead (src L)).1, srcSize := (s.tr .engRead (src L)).2.1
              off := (dst L).toNat, dstVa := (dst L).toNat, dst := some (s.tr .engWrite (dst L)).1, dstSize := (s.tr .engWrite (dst L)).2.1
              data := none, written := false }
          claimed := none, err := false, wait := none, fin := false, held := 0 } f.tok (nextOpOf (s.looked t)) t) ∧
    (∀ f : CpyBufF, (Instr.cpyBuf f).wf = true →
      let act := s.act f.pre
      let z : Nat := 4 * 2 ^ f.z
      let src := s.w.rdV64 (2 * f.s)
      let off := fun L => (s.w.rdV f.o L).toNat
      ∀ c, vget none s.g.cbs f.cb = some c → c.ingest = [] →
      (∀ n ∈ [2 * f.s, 2 * f.s + 1, f.o], s.w.holdsV n = true) → act ≠ 0 → reads src z act →
      (∀ L, L < 32 → act.getLsbD L = true → off L % z = 0 ∧ off L + z ≤ c.slotBytes) →
      Completes (.cpyBuf f) s fun t =>
        t.w.copyQ = s.w.copyQ ++ [
          { seq := (s.core s.coreNum).nextOp, die := s.coreNum / 48, z := z, tok := f.tok, dest := .buf f.cb f.fin f.refill
            lanes := (activeLanes act).map fun L =>
              { lane := L, srcVa := (src L).toNat, src := (s.tr .engRead (src L)).1, srcSize := (s.tr .engRead (src L)).2.1
                off := off L, dstVa := 0, dst := none, dstSize := 12, data := none, written := false }
            claimed := none, err := false, wait := none, fin := false, held := 0 }] ∧
        t.w.qcopy = s.w.qcopy + 1 ∧ vget 0 t.w.tokPend f.tok = vget 0 s.w.tokPend f.tok + 1 ∧
        SameMemory s t ∧ RegsKept s t noReg noLane noReg ∧ GoOn s t s.iss.set (s.iss.base + 4))

/-- R261, R262, R295, R296: GSTR enqueues a gather of n elements from the index list at io to dof, with the fields of its descriptor; GATH enqueues one of
its active lanes, with the base of the lowest. They are counted in $qgath and under their token. -/
def Sys2Proof.GathersAreEnqueued : Prop :=
  ∀ s : State, Quiet s → s.w.qgath < 255 →
    let queued := fun (op : GathOp) (s' t : State) =>
      let pend := vset s.w.tokPend op.tok (vget 0 s.w.tokPend op.tok + 1)
      WarpBecomes s' t { s.w with gathQ := s.w.gathQ ++ [op], qgath := s.w.qgath + 1, tokPend := pend } (s.iss.base + 4)
    (∀ z tok a b, (Instr.gstr z tok a b).wf = true →
      let k : Nat := 4 * 2 ^ z
      let io := (s.rdS b).toNat % 2 ^ 20
      let dof := (s.rdS b).toNat / 2 ^ 20 % 2 ^ 20
      let n := (s.rdS b).toNat / 2 ^ 40 % 2 ^ 20
      io % 4 = 0 → dof % k = 0 → (s.rdS a).toNat % k = 0 → io + 4 * n ≤ s.g.slen → dof + n * k ≤ s.g.slen →
      Completes (.gstr z tok a b) s (queued
        ⟨(s.core s.coreNum).nextOp, s.coreNum / 48, k, tok, s.rdS a, io, dof, n, none, 0, 0, false, none, decide (n = 0), []⟩ (nextOpOf s))) ∧
    (∀ f : GathF, (Instr.gath f).wf = true →
      let act := s.act f.pre
      let k : Nat := 4 * 2 ^ f.z
      ∀ low, low < 32 → act.getLsbD low = true → (∀ K, K < low → act.getLsbD K = false) →
      let base := s.w.rdV64 (2 * f.base) low
      let dof := (s.w.rdV f.o low).toNat
      let src := fun L => base + BitVec.ofInt 64 ((s.w.rdV f.idx L).toInt * k)
      (∀ n ∈ [2 * f.base, 2 * f.base + 1, f.idx, f.o], s.w.holdsV n = true) →
      (∀ L, L < 32 → act.getLsbD L = true → (src L).toNat % k = 0 ∧ (dof + L * k) % k = 0 ∧ dof + L * k + k ≤ s.g.slen ∧
        canonical (src L) = true ∧ canonical (src L + BitVec.ofNat 64 (k - 1)) = true ∧
        (∀ i, i < k → ∃ pa size nc, s.walk (s.coreNum / 48) s.gr.ctx (src L + BitVec.ofNat 64 i) .engRead = .ok pa size nc) ∧
        s.pagesAway .engRead [⟨0, src L, k⟩] = none ∧ ∀ r ∈ s.ranges .engRead (src L) k, s.agentMay false r.1 r.2.2 .load = true) →
      Completes (.gath f) s fun t => queued
        ⟨(s.core s.coreNum).nextOp, s.coreNum / 48, k, f.tok, base, 0, dof, (activeLanes act).length,
          some ((activeLanes act).map fun L => (L, (s.tr .engRead (src L)).1, (s.tr .engRead (src L)).2.1)), 0, 0, false, none, false, []⟩
        (nextOpOf (s.looked t)) t)
/-- The copy and the gather engine. -/
def Obligations.CopiesAndGathersAreEnqueued : Prop :=
  CopiesAreEnqueued ∧ GathersAreEnqueued

/-- R252 to R255, R258, R259, R297 to R299: CBDEF defines a buffer by its descriptor, its first slots FREE up to the smallest depth, and zeroes one in
scratchpad; CBGET obtains the oldest FILLED slot, or waits; CBPUT frees the oldest slots that have been put, in order; CBQRY samples the buffer, or reads 0;
CBLIM sets limits for the next lap. -/
def Obligations.CircularBuffersHandOutTheirSlots : Prop :=
  ∀ (s : State) (n : Nat), NoTx s → n < 32 →
    let next := s.iss.base + 4
    let cb := fun t : State => vget none t.g.cbs n
    let kept := fun t : State => SameMemory s t ∧ RegsKept s t noReg noLane noReg ∧ GoOn s t s.iss.set next
    (∀ a b, s.cbBad s.w.group n (s.rdS a) (s.rdS b) = false → (s.rdS a).toNat % 128 = 0 → MemoryCanonical s →
      let v := (s.rdS b).toNat
      let dev := v % 2 = 1
      let stages := v / 2 ^ 12 % 16 + 1
      let mins := v / 2 ^ 16 % 16 + 1
      let bytes := (v / 2 ^ 20 % 512 + 1) * 128
      let base := windowBase s.pkg s.coreNum + s.g.soff + (s.rdS a).toNat
      (dev ∨ (s.rdS a).toNat + stages * bytes ≤ s.g.slen) →
      Completes (.cbdef n a b) s fun t =>
        (∃ c, cb t = some c ∧ c.dev = decide dev ∧ c.base = s.rdS a ∧ c.slotBytes = bytes ∧ c.stages = stages ∧ c.mins = mins ∧ c.maxs = stages ∧
          c.depth = mins ∧ c.fcur = 0 ∧ c.order = [] ∧ c.slots.length = stages ∧
          ∀ i, i < stages → (c.slot i).state = if i < mins then .free else .retired) ∧
        (∀ x, (¬dev ∧ base ≤ x ∧ x < base + stages * bytes → Memory.read t.mem x = 0) ∧
          (¬(¬dev ∧ base ≤ x ∧ x < base + stages * bytes) → Memory.read t.mem x = Memory.read s.mem x)) ∧
        RegsKept s t noReg noLane noReg ∧ GoOn s t s.iss.set next) ∧
    (∀ c, cb s = some c →
      (∀ d i older newer, (Instr.cbget d n).wf = true → s.w.flights = [] → c.order = older ++ i :: newer → (c.slot i).state = .filled →
        (∀ j ∈ older, (c.slot j).state ≠ .filled) →
        Completes (.cbget d n) s fun t =>
          t.rdS d = c.base + BitVec.ofNat 64 (i * c.slotBytes) ∧ t.rdS (d + 1) = BitVec.ofNat 64 i ∧
          (∃ c', cb t = some c' ∧ (c'.slot i).state = .held ∧ c'.order = c.order ∧ ∀ j, j ≠ i → c'.slot j = c.slot j) ∧
          SameMemory s t ∧ RegsKept s t (fun k => k = d ∨ k = d + 1) noLane noReg ∧ GoOn s t s.iss.set next) ∧
      (∀ d, (Instr.cbget d n).wf = true → s.w.flights = [] → (∀ i ∈ c.order, (c.slot i).state ≠ .filled) →
        Completes (.cbget d n) s fun t =>
          (∃ c', cb t = some c' ∧ c'.waiters = c.waiters ++ [(s.iss.key, s.iss.set, d)] ∧ c'.order = c.order ∧ c'.slots = c.slots) ∧
          t.w.parks = s.w.parks ++ [⟨s.iss.set, .cbget d n⟩] ∧ SameMemory s t ∧
          ∀ L, L < 32 → s.iss.set.getLsbD L = true → (t.w.thread L).status = .waiting ∧ (t.w.thread L).pc = (s.w.thread L).pc) ∧
      (∀ a, c.ingest = [] →
        let i := (s.rdS a).toNat % 16
        let done := fun j => (c.slot j).state = .held ∧ (c.slot j).put = true
        (c.slot i).state = .held →
        (∀ rest, c.order = i :: rest → i ∉ rest → (∀ j, rest.head? = some j → ¬done j) →
          Completes (.cbput n a) s fun t => kept t ∧
            ∃ c', cb t = some c' ∧ c'.order = rest ∧ (c'.slot i).state = if i < c.depth then .free else .retired) ∧
        (∀ h rest, c.order = h :: rest → h ≠ i → ¬done h →
          Completes (.cbput n a) s fun t => kept t ∧
            ∃ c', cb t = some c' ∧ c'.order = c.order ∧ (c'.slot i).state = .held ∧ (c'.slot i).put = true)) ∧
      (∀ a, let lo := (s.rdS a).toNat % 32
        let hi := (s.rdS a).toNat / 256 % 32
        1 ≤ lo → lo ≤ hi → hi ≤ c.stages →
        Completes (.cblim n a) s fun t => kept t ∧ cb t = some { c with nextLimits := some (lo, hi) })) ∧
    (∀ d, (Instr.cbqry d n).wf = true →
      Completes (.cbqry d n) s fun t => UniformResult s t d
        (match cb s with
         | none => 0
         | some c => BitVec.ofNat 64 (c.depth + c.mins * 2 ^ 6 + c.maxs * 2 ^ 11 +
             ((List.range c.depth).filter fun i => (c.slot i).state = .free).length * 2 ^ 16 +
             (c.order.filter fun i => (c.slot i).state = .filled).length * 2 ^ 21 + c.fcur * 2 ^ 26 +
             ((c.order.find? fun i => (c.slot i).state != .held).getD c.fcur) * 2 ^ 30 +
             ((c.order.filter fun i => (c.slot i).state = .faulted).headD 0) * 2 ^ 34 +
             (if (c.order.any fun i => (c.slot i).state = .faulted) then 1 else 0) * 2 ^ 38 + 2 ^ 39)) next)

/-! ## Tiles and the matrix engine -/

/-- R175: the fields of a shape word: rows, row bytes and format. -/
def Sys2Proof.shapeRows (v : W32) : Nat := v.toNat / 16 % 256 + 1
def Sys2Proof.shapeBytes (v : W32) : Nat := (v.toNat / 4096 % 8 + 1) * 16
def Sys2Proof.shapeFormat (v : W32) : Nat := v.toNat % 16
/-- R268, R269: a matrix operation joins the queue of its group and is counted in $qmat. -/
def Sys2Proof.MatQueued (s t : State) (kind : MatKind) : Prop :=
  let op : MatOp := ⟨(s.core s.coreNum).nextOp, s.iss.key, kind, false, 0, false, 0⟩
  WarpBecomes ((nextOpOf s).modG fun g => { g with matQ := g.matQ ++ [op] }) t { s.w with qmat := s.w.qmat + 1 } (s.iss.base + 4)
/-- R268, R303 to R306, R308, R310: TLD, TLD.s, TST, MMA, MMA.pair, MDRN, MCHK, MRTY, MZERO and MGIVE with the tiles and banks that their group holds
are enqueued with their operands, read now. Nothing else changes yet. -/
def Obligations.MatrixOperationsAreEnqueued : Prop :=
  ∀ s : State, NoTx s → s.w.qmat < 255 → s.g.giving = false →
    let u := fun n => (s.rdS n).toNat
    let tile := fun n t v => s.g.tile n = some t ∧ s.shape s.coreNum t = v
    let owns := fun k => s.g.own.getLsbD k = true
    (∀ n a t v, tile n t v → u a % 16 = 0 → (∀ x ∈ tileChunks v, u a + x.2.1 + x.2.2 ≤ s.g.slen) →
      Completes (.tld n a) s (MatQueued s · (.tld t v (u a) none)) ∧ Completes (.tst n a) s (MatQueued s · (.tst t v (u a))) ∧
      ∀ b, shapeFormat v = 4 → u b % 8 = 0 → u b + 8 * shapeRows v ≤ s.g.slen →
        Completes (.tldS n a b) s (MatQueued s · (.tld t v (u a) (some (u b))))) ∧
    (∀ a b sa ta tb va vb, tile a ta va → tile b tb vb →
      let k := u sa % 64
      let nb := (shapeRows va + 31) / 32
      (∀ q, q < nb → owns (k + q)) → k + nb ≤ 64 →
      (mmaBad va vb false = false → Completes (.mma a b sa) s (MatQueued s · (.mma ta tb va vb k false))) ∧
      (mmaBad va vb true = false → s.coreNum % 2 = 0 →
        (∀ q, q < nb → ∃ g, s.ownerOf (s.coreNum + 1) (k + q) = some g ∧ g.grid = s.g.grid ∧ g.gang = s.g.gang) →
        Completes (.mmaPair a b sa) s (MatQueued s · (.mma ta tb va vb k true)))) ∧
    (∀ a, let k := u a % 64
      owns k →
      (∀ clr n row col t v, tile n t v → shapeFormat v ∈ [0, 1, 2, 3, 5, 6] → 32 * row + 31 < shapeRows v →
        Completes (.mdrnTile a clr n row col) s (MatQueued s · (.mdrnTile k clr t v row col))) ∧
      (∀ clr cv b, u b % 16 = 0 → u b + 4096 * (match cv with | .raw => 4 | .bf16 | .f16 => 2 | _ => 1) ≤ s.g.slen →
        Completes (.mdrnSpad a clr cv b) s (MatQueued s · (.mdrnSpad k clr cv (u b)))) ∧
      Completes (.mchk a) s (MatQueued s · (.mchk k)) ∧ Completes (.mzero a) s (MatQueued s · (.mzero k)) ∧
      ∀ d, Completes (.mrty d a) s (MatQueued s · (.mrty k d)) ∧ Completes (.mgive d a) s (MatQueued s · (.mgive k d (u a / 256 % 64))))

/-- R302, R309, R312: TCFG writes the shape word of a tile that no operation uses; MFIX writes the corrected value of a located failure into the band, and
otherwise changes nothing; MSTAT reads the matrix status and clears it, and MSTAT.clo and .chi read the column mask of a band. -/
def Sys2Proof.MatrixInstructionsThatActAtIssue : Prop :=
  ∀ s : State, NoTx s →
    let next := s.iss.base + 4
    let u := fun n => (s.rdS n).toNat
    let band := fun k => (s.core s.coreNum).band k
    (∀ n a t, s.g.tile n = some t → s.g.usesTile t = false → s.tileLocked s.coreNum t = false →
      let v := (s.rdS a).setWidth 32 &&& 0x3F7FFF
      shapeFormat v < 11 → (shapeFormat v = 4 → shapeRows v * shapeBytes v ≤ 30720) →
      Completes (.tcfg n a) s (WarpBecomes (s.modCore s.coreNum fun c => { c with shapes := vset c.shapes t v }) · s.w next)) ∧
    (∀ d, (Instr.mstat d).wf = true →
      Completes (.mstat d) s fun t => UniformResult (s.modG fun g => { g with mstat := 0 }) t d s.g.mstat next) ∧
    (∀ a, s.g.giving = false → s.g.own.getLsbD (u a % 64) = true →
      let k := u a % 64
      (∀ d, (Instr.mstatClo d a).wf = true →
        Completes (.mstatClo d a) s (fun t => UniformResult s t d ((band k).colMask.extractLsb' 0 64) next) ∧
        Completes (.mstatChi d a) s (fun t => UniformResult s t d ((band k).colMask.extractLsb' 64 64) next)) ∧
      ((∀ r c v, ¬((band k).state = .faulted ∧ (band k).located = some (r, c, v))) →
        Completes (.mfix a) s (WarpBecomes s · s.w next)) ∧
      (∀ r c v, (band k).state = .faulted → (band k).located = some (r, c, v) → MemoryCanonical s →
        let at_ := windowBase s.pkg s.coreNum + 0x100000 + k * 0x4000 + r * 512 + c * 4
        Completes (.mfix a) s fun t =>
          t.getNat at_ 4 = v.toNat ∧ SameOutside s t at_ 4 ∧ ((t.core s.coreNum).band k).state = .checked ∧
          ((t.core s.coreNum).band k).record = (band k).record ∧ t.w.mcorr = BitVec.ofNat 64 ((s.w.mcorr.toNat + 1) % 2 ^ 32) ∧
          t.g.mstat = s.g.mstat ||| 16 ∧ RegsKept s t noReg noLane noReg ∧ GoOn s t s.iss.set next))

/-- R277, R291, R292: an operation on a bank that its group does not own traps ACCOWNER when another group of the core owns it, and ACCUNALLOC otherwise, with
the bank as the detail; a tile number that the group does not hold traps ILLREG. -/
def Sys2Proof.TilesAndBanksAreChecked : Prop :=
  ∀ s : State, TrapTakes s → NoTx s →
    let trap := fun (cause : Nat) (v : W64) (t : State) => TrapTaken s t s.iss.set cause v
    (∀ a, s.g.giving = false → s.g.own.getLsbD ((s.rdS a).toNat % 64) = false →
      let k := (s.rdS a).toNat % 64
      let cause := if (s.ownerOf s.coreNum k).isSome then 0x09 else 0x08
      ∀ i ∈ [Instr.mchk a, .mfix a, .mzero a] ++
          ((List.range 160).flatMap fun d => [Instr.mrty d a, .mgive d a, .mstatClo d a, .mstatChi d a]),
        Completes i s (trap cause (BitVec.ofNat 64 k))) ∧
    (∀ n a, s.g.tile n = none → ∀ i ∈ [Instr.tcfg n a, .tld n a, .tst n a, .tldS n a a, .mma n a a, .mmaPair n a a], Completes i s (trap 0x02 0))
/-- The matrix instructions that act at issue, and the checks of tiles and banks. -/
def Obligations.MatrixInstructionsActAtIssueAndAreChecked : Prop :=
  MatrixInstructionsThatActAtIssue ∧ TilesAndBanksAreChecked

/-! ## Collectives -/

/-- R388: the descriptor of a collective instruction can be read, and the instruction has nothing to wait for. -/
structure Sys2Proof.DescriptorReads (s : State) (a : Nat) : Prop where
  quiet : Quiet s
  released : Released s
  room : s.w.qcoll < 255
  aligned : (s.rdS a).toNat % 64 = 0
  allowed : Allows s .read .load (s.rdS a) 64
  clean : CleanAt s .read (s.rdS a) 64
/-- An operation of the issuing warp is counted in $qcoll, and its issue set goes on. No byte of memory and no register changes. -/
def Sys2Proof.CollQueued (s t : State) (kind : CollKind → Prop) (id : Nat) : Prop :=
  SameMemory s t ∧ RegsKept s t noReg noLane noReg ∧ GoOn s t s.iss.set (s.iss.base + 4) ∧ t.w.qcoll = s.w.qcoll + 1 ∧ t.nextOp = s.nextOp + 1 ∧
  t.w.collQ.length = s.w.collQ.length + 1 ∧ ∃ o, t.w.collQ.getLast? = some o ∧ o.opId = s.nextOp ∧ kind o.kind ∧ o.id = id
/-- R388, R390, R391: XRED and XBC with a good descriptor are enqueued; a Join of this module's home enters its instance, and another is sent to its home. XSHF
and XSIDE are enqueued too. -/
def Sys2Proof.CollectivesAreEnqueued : Prop :=
  ∀ (a : Nat) (s : State),
    let bs := s.bytesFor .read (s.rdS a) 64
    DescriptorReads s a →
    (∀ xred : Bool,
      let i := if xred then Instr.xred a else Instr.xbc a
      let j := joinRead bs xred
      let n := joinBytes j
      s.joinBad j bs = false →
      s.collPages (if joinPulled j then areaSpans (recW bs 24) n else []) (if recW bs 32 = 0 then [] else areaSpans (recW bs 32) n) = none →
      Completes i s fun t =>
        CollQueued s t (fun k => ∃ j', k = (if xred then .xred j' else .xbc j') ∧ j'.id = j.id ∧ j'.index = j.index) j.id ∧
        (j.home = s.pkg → s.closedIds.contains (j.id % 4, j.id) = false → (∀ x ∈ s.instances, x.first.id ≠ j.id) →
          (s.instances.filter fun x => x.quarter = j.id % 4).length < 256 →
          ∃ j', t.instances = s.instances ++ [⟨j.id % 4, j', [j'], 0, [], []⟩] ∧ j'.index = j.index ∧ j'.opId = s.nextOp) ∧
        (j.home ≠ s.pkg → ∃ j', t.outbox = s.outbox ++ [s.collMsg j.home (.join j')] ∧ j'.id = j.id ∧ j'.index = j.index)) ∧
    (let list := recW bs 8
     let n := recNat bs 0 4 * 16
     let spans := areaSpans list n
     s.remote = [] → HartsDrained s →
     let ls := spans.flatMap fun p => s.bytesFor .read p.va p.n
     sideBad bs = false → s.lockStalls .read false spans = false → s.checkPages .read (some s.iss.set) s.iss.set spans = none → s.placeCheck .read .load s.iss.set spans = none →
     s.poisonIn .read (fun _ _ => false) spans = none →
     (∀ i, i < recNat bs 0 4 → recNat ls (16 * i + 4) 4 = 0 ∧
       (recNat bs 4 1 ≠ 3 → recNat ls (16 * i + 8) 8 % 256 = 0 ∧ canonical (recW ls (16 * i + 8)) = true)) →
     s.collPages (if recNat bs 4 1 = 3 then [] else (List.range (recNat bs 0 4)).map fun i => ⟨32, recW ls (16 * i + 8), 256⟩) [] = none →
     Completes (.xside a) s fun t => CollQueued s t (· = .xside) 0) ∧
    (let nt := recNat bs 4 4
     let spans := areaSpans (s.rdS a + 64) (nt * 16)
     s.remote = [] → HartsDrained s →
     let ls := spans.flatMap fun p => s.bytesFor .read p.va p.n
     let mine := (List.range nt).filter fun i => recNat ls (16 * i + 5) 1 = s.pkg
     planBad bs = false → s.lockStalls .read false spans = false → s.checkPages .read (some s.iss.set) s.iss.set spans = none → s.placeCheck .read .load s.iss.set spans = none →
     s.poisonIn .read (fun _ _ => false) spans = none → (∀ i, i < nt → xferBad s.pkg ls (16 * i) = false) →
     s.collPages [] ((mine.map fun i => ⟨32, recW ls (16 * i + 8), 256⟩) ++
       (if recW bs 16 = 0 then [] else areaSpans (recW bs 16) (recNat bs 24 4 * 16))) = none →
     Completes (.xshf a) s fun t => CollQueued s t (· = .xshf) (recNat bs 0 4))
/-- R401, R402: XQRY reads the status of the last collective operation that retired, or with SEL 1 the counts of coded packets and of misses. -/
def Sys2Proof.CollectiveStatusIsRead : Prop :=
  ∀ (d sel : Nat) (s : State), (Instr.xqry d sel).wf = true → NoTx s →
    Completes (.xqry d sel) s fun t => UniformResult s t d
      (if sel = 0 then s.w.xstat else BitVec.ofNat 64 (s.xqCoded * 2 ^ 32 + s.xqMisses)) (s.iss.base + 4)
/-- The collective instructions and XQRY. -/
def Obligations.CollectivesAreEnqueuedAndTheirStatusIsRead : Prop :=
  CollectivesAreEnqueued ∧ CollectiveStatusIsRead

/-! ## Host instructions -/

/-- R148, R149, R151: dx.launch submits the record at rs1 as a grid of depth 0 in the context of dxctx, and gives rd its identifier, or 2^63 plus the reason
of its refusal. On a management hart, which has no launch context, it raises the illegal-instruction exception: the model's choice, log entry 11. -/
def Sys2Proof.HostLaunchSubmitsItsRecord : Prop :=
  ∀ (s : State) (d a : Nat) (ps : List HPiece), (Instr.dxLaunch d a).wf = true → Calm s →
    let h := s.iss.key
    (64 ≤ h → Completes (.dxLaunch d a) s fun t => SameMemory s t ∧ HartTrapped s t h 2 0) ∧
    (h < 64 → HartReaches s h .load .load ((s.hart h).rd a) 64 64 ps → HartClean s ps →
    let bs := s.hartBytes ps
    let ctx := (s.hart h).dxctx
    s.ctxOk ctx = true → (∀ pa, recW bs 16 ≠ 0 → s.signalPa (24 + h / 16) ctx (recW bs 16) = some pa → HomedHere s pa 8) →
    ∀ code, RecordCode s (24 + h / 16) ctx bs code →
    (code ≠ 0 → Completes (.dxLaunch d a) s fun t =>
      HartWent s t h d (BitVec.ofNat 64 (2 ^ 63 + code)) none ∧ SameMemory s t ∧ t.grids = s.grids) ∧
    (code = 0 → s.grids.length < 2 ^ 30 → Completes (.dxLaunch d a) s fun t => ∃ id,
      HartWent s t h d (BitVec.ofNat 64 id) none ∧ 0 < id ∧ id < 2 ^ 32 ∧ tget? s.grids id = none ∧
      (t.grid id).lrec = LaunchRec.read bs ∧ (t.grid id).depth = 0 ∧ (t.grid id).ctx = ctx ∧ (t.grid id).parent = none ∧
      (t.grid id).retired = 0 ∧ (∀ k, k ≠ id → t.grid k = s.grid k) ∧ (recW bs 16 = 0 → SameMemory s t)))

/-- R159: dx.wait gives rd the aligned word at rs1 when its STATUS is not 0; otherwise it waits, until rs2 nanoseconds have passed and rd
receives 0. A limit of 2^64 − 1 never passes. -/
def Sys2Proof.HostWaitsReadTheirWord : Prop :=
  ∀ (s : State) (h : Nat),
    (∀ (d a b : Nat) (ps : List HPiece), h = s.iss.key → (Instr.dxWait d a b).wf = true → Calm s → (s.hart h).waiting = none →
      HartReaches s h .load .load ((s.hart h).rd a) 8 8 ps → HartClean s ps →
      let word := leW64 (s.hartBytes ps)
      let limit := (s.hart h).rd b
      Completes (.dxWait d a b) s fun t => SameMemory s t ∧
        if word.toNat % 256 ≠ 0 then HartWent s t h d word none
        else if limit = 0 then HartWent s t h d 0 none
        else
          let due := if limit = BitVec.allOnes 64 then none else some (s.ps / 1000 + limit.toNat)
          t.hart h = { s.hart h with waiting := some ⟨(s.hart h).rd a, due, d⟩ } ∧ ∀ k, k ≠ h → t.hart k = s.hart k) ∧
    (∀ w n, (s.hart h).waiting = some w → w.deadline = some n → w.rd < 32 →
      Completes (.dxWaitTimeout h) s fun t => SameMemory s t ∧
        if n ≤ s.ps / 1000 then HartWent s t h w.rd 0 (s.hart h).tx else t = s)

/-- R226, R229, R240, R241: dx.tbegin begins a transaction and gives rd 0, or 3 on a management hart, whose transaction the module has no room for (log entry 11), or aborts the one in progress with NEST; dx.tend performs the buffered writes at one
instant; dx.tabort aborts with USER and rs1[7:0]. Outside a transaction the last two have no effect. Another dx instruction aborts one
with ENGINE. -/
def Sys2Proof.HostTransactionsBeginCommitAndAbort : Prop :=
  ∀ s : State,
    let h := s.iss.key
    let me := s.hart h
    (me.tx = none →
      (∀ d, (Instr.dxTbegin d).wf = true → Completes (.dxTbegin d) s fun t =>
        SameMemory s t ∧ if h < 64 then HartWent s t h d 0 (some ⟨[], [], me.pc + 4, d⟩) else HartWent s t h d 3 none) ∧
      Completes .dxTend s (fun t => SameMemory s t ∧ HartWent s t h 0 0 none) ∧
      ∀ a, Completes (.dxTabort a) s (fun t => SameMemory s t ∧ HartWent s t h 0 0 none)) ∧
    (∀ x, me.tx = some x → x.rd < 32 →
      (∀ d, Completes (.dxTbegin d) s fun t => SameMemory s t ∧ HartAborted s t h x 10 0) ∧
      (∀ a, Completes (.dxTabort a) s fun t => SameMemory s t ∧ HartAborted s t h x 7 ((me.rd a).toNat % 256)) ∧
      (me.commit = false → HartsDrained s → LinesSettled s → s.commits = [] → s.lock = none → (∀ b ∈ x.writes, HomedHere s b.1 1) →
        Completes .dxTend s fun t =>
          t.mem = x.writes.foldl (fun m b => Memory.write m b.1 b.2) s.mem ∧
          t.hart h = { me with tx := none, commit := false, pc := me.pc + 4, minstret := me.minstret + 1 } ∧ t.ticket = s.ticket + 1 ∧ t.commits = []) ∧
      ∀ d a b, ∀ i ∈ [Instr.dxLaunch d a, .dxWait d a b] ++ (if me.mode = .u then [] else [Instr.dxFqpop d a, .dxReplay a, .dxKill a]) ++
          (if me.mode = .m then [Instr.dxCkptSave d a, .dxCkptRestore d a, .dxCkptQuery d a] else []),
        Completes i s fun t => SameMemory s t ∧ HartAborted s t h x 5 0)

/-- R334: dx.fqpop with entries in the ring writes the oldest to the 32 bytes at rs1 and gives rd the number that PEND held; with none it gives
rd 0. R335: dx.replay releases what waits for service on the core of rs1[10:0]. R336: dx.kill ends every grid of a context and drops its held
entries. R46, R47: in a lower mode each, and dx.ckpt, takes an illegal-instruction exception. -/
def Sys2Proof.HostServiceInstructionsActOnTheModule : Prop :=
  ∀ s : State,
    let h := s.iss.key
    let me := s.hart h
    me.tx = none →
    (me.mode ≠ .u →
      (∀ d a ps, (Instr.dxFqpop d a).wf = true → Calm s → HartReaches s h .store .store (me.rd a) 32 8 ps →
        (s.pend = 0 → Completes (.dxFqpop d a) s fun t => SameMemory s t ∧ HartWent s t h d 0 none) ∧
        (s.pend ≠ 0 → s.heldFaults = [] → (∀ x ∈ ps, s.place x.pa = .device) →
          let size := 256 * 2 ^ (s.dxfq.toNat % 16)
          let at_ := s.dxfq.toNat / 2 ^ 12 % 2 ^ 41 * 2 ^ 12 + 32 * ((s.ringWritten - s.pend) % size)
          (∀ i, i < 32 → s.poisoned (at_ + i) = false) →
          Completes (.dxFqpop d a) s fun t =>
            HartWent s t h d (BitVec.ofNat 64 s.pend) none ∧ t.pend = s.pend - 1 ∧ t.mem = s.hartStored ps (s.getBytes at_ 32))) ∧
      (∀ a, HartsDrained s →
        let core := (me.rd a).toNat % 2 ^ 11
        let fail := (me.rd a).getLsbD 16
        let go := fun w : Option EngWait => if w = some .waiting then some (EngWait.replayed fail) else w
        Completes (.dxReplay a) s fun t =>
          SameMemory s t ∧ HartWent s t h 0 0 none ∧
          ∀ k, t.warp k =
            if k < 2 ^ 30 ∧ k / 64 = core then
              let w := s.warp k
              { w with service := if w.service = some ⟨none⟩ then some ⟨some fail⟩ else w.service
                       cover := if w.service = some ⟨none⟩ then (if fail then w.cur.map (·.pc) else none) else w.cover
                       copyQ := w.copyQ.map fun o => { o with wait := go o.wait }, gathQ := w.gathQ.map fun o => { o with wait := go o.wait } }
            else s.warp k) ∧
      (∀ a, NothingHeld s → (∀ x ∈ s.gangs, x.2.grid = x.1 / 2 ^ 32) → Completes (.dxKill a) s fun t =>
        let ctx := (me.rd a).toNat % 2 ^ 16
        HartWent s t h 0 0 none ∧ (∃ new, t.heldFaults = (s.heldFaults.filter fun f => f.ctx ≠ ctx) ++ new) ∧
        ∀ id g, id ≠ 0 → tget? s.grids id = some g → g.ctx = ctx → g.depth ≤ 9 → tget? t.grids id = none)) ∧
    (∀ d a, ∀ i ∈ (if me.mode = .u then [Instr.dxFqpop d a, .dxReplay a, .dxKill a] else []) ++
        (if me.mode = .m then [] else [Instr.dxCkptSave d a, .dxCkptRestore d a, .dxCkptQuery d a]),
      Completes i s fun t => SameMemory s t ∧ HartTrapped s t h 2 0)

/-- R413: dx.ckpt in M mode gives rd 1 for a bad rs1, and for a query whether the slot is valid; a restore gives 2 while a grid is live and 3 for an invalid
slot, 4 when its medium fails, and otherwise puts the slot's bytes back; a save marks the slot invalid, tells every running group to stop, and holds the hart. -/
def Sys2Proof.CheckpointsAreSavedRestoredAndQueried : Prop :=
  ∀ (s : State) (d a : Nat),
    let h := s.iss.key
    let v := (s.hart h).rd a
    let img := v.toNat % 8
    let op := v.toNat / 16 % 4
    let slot := vget Image.none s.images img
    (s.hart h).tx = none → (s.hart h).mode = .m → s.ckpt = none → d < 32 →
    ∀ i ∈ [Instr.dxCkptSave d a, .dxCkptRestore d a, .dxCkptQuery d a],
      let gives := fun n : Nat => Completes i s fun t => SameMemory s t ∧ HartWent s t h d (BitVec.ofNat 64 n) none
      (4 < img ∨ op = 3 ∨ v.toNat / 8 % 2 ≠ 0 ∨ v.toNat / 64 ≠ 0 → gives 1) ∧
      (v.toNat = img + op * 16 → img ≤ 4 →
        (op = 2 → gives (if slot.valid then 0 else 3)) ∧
        (op = 1 → (s.grids ≠ [] → gives 2) ∧ (s.grids = [] → slot.valid = false → gives 3) ∧
          (s.grids = [] → slot.valid = true → slot.media = true → gives 4) ∧
          (s.grids = [] → slot.valid = true → slot.media = false → MemoryCanonical s → Memory.wf slot.cells = true → (∀ c ∈ slot.cells, s.imaged c.1 = true) →
            Completes i s fun t =>
              HartWent s t h d 0 none ∧ t.saved = slot.saved ∧ t.tlb = [] ∧
              ∀ x, Memory.read t.mem x = if s.imaged x = true then Memory.read slot.cells x else Memory.read s.mem x)) ∧
        (op = 0 → Completes i s fun t =>
          SameMemory s t ∧ t.ckpt = some ⟨img, h, d, (s.groups.filter fun g => s.slotState g.1 = 2).map (·.1)⟩ ∧ (vget Image.none t.images img).valid = false ∧ t.harts = s.harts ∧
          ∀ g ∈ s.groups, s.slotState g.1 = 2 → t.stopping g.1 = true))

/-- R46, R47, R149, R151, R159, R229, R240, R241, R334 to R336, R413: the dx instructions. -/
def Obligations.HostInstructionsActForTheirHart : Prop :=
  HostLaunchSubmitsItsRecord ∧ HostWaitsReadTheirWord ∧ HostTransactionsBeginCommitAndAbort ∧ HostServiceInstructionsActOnTheModule ∧
  CheckpointsAreSavedRestoredAndQueried

/-! ## Slots, dispatch and releases: the hardware's own steps -/

/-- R152, R154, R337: SLOT_BIND fills a FREE or SAVED entry, SLOT_STOP asks for the save of the groups that are saved together, and SLOT_FREE empties a DONE or a
REFUSED entry; an entry refused with WHY 5 ends its grid. -/
def Sys2Proof.SlotsAreBoundStoppedAndFreed : Prop :=
  ∀ (s : State) (g : Nat),
    let st := s.slotState g
    let only := fun (t : State) (e : SlotEntry) => SameMemory s t ∧ t.entry g = e ∧ ∀ k, k ≠ g → t.entry k = s.entry k
    (∀ rec : List W64,
      let c := (rec.headD 0).toNat
      (c % 8 = 1 → st = 0 ∨ st = 4 → Completes (.slotBind g rec) s
        (only · ⟨BitVec.ofNat 64 (c / 2 ^ 32 * 2 ^ 32 + 1), (List.range 7).map fun i => rec.getD (i + 1) 0⟩)) ∧
      (¬(c % 8 = 1 ∧ (st = 0 ∨ st = 4)) → Completes (.slotBind g rec) s (· = s))) ∧
    (st = 2 → Completes (.slotStop g) s fun t =>
      SameMemory s t ∧ (∀ k ∈ s.savedWith g, s.slotState k = 2 → t.stopping k = true ∧ t.slotState k = 2) ∧
      ∀ k, k ∉ s.savedWith g ∨ s.slotState k ≠ 2 → t.entry k = s.entry k) ∧
    (st ≠ 2 → Completes (.slotStop g) s (· = s)) ∧
    (let why := (s.entry g).ctl.toNat / 16 % 16
     (st = 3 ∨ (st = 5 ∧ why ≠ 5) → Completes (.slotFree g) s (only · { s.entry g with ctl := 0 })) ∧
     (st = 5 → why = 5 → NothingHeld s → Completes (.slotFree g) s fun t => tget? t.grids ((s.entry g).ctl.toNat / 2 ^ 32) = none) ∧
     (st ≠ 3 → st ≠ 5 → Completes (.slotFree g) s (· = s)))

/-- R22, R91, R105, R155, R156: GANG_DISPATCH of a gang that has never been started and stands BOUND, whole, in one grove starts every group at once when all of its
entries pass; otherwise the failing entries are REFUSED with WHY, and the others stay BOUND. R340 (SAVE_COMPLETE): a group whose work has ended leaves
its core, and its entry becomes SAVED. -/
def Sys2Proof.GangsAreDispatchedAndSaved : Prop :=
  ∀ s : State,
    (∀ grid gang v,
      let es := s.boundEntries grid gang
      let gr := s.grid grid
      let whys := s.checkEntries false es []
      wholeGroves es = [v] → (∀ e ∈ es, e.2.core / 8 = v ∧ s.slotState e.1 = 1) → (es.map (·.1)).Nodup → gr.paired = false → tget? s.gangs (grid * 2 ^ 32 + gang) = none →
      s.ckpt = none → s.boot = .up → s.bootMinimal = false → LinesSettled s → s.lock = none → s.classes = [] → (∀ c, (s.core c).suspect = [] ∧ (s.core c).mending = [] ∧ ∀ q, vget false (s.core c).oos q = false) →
      (∀ pa ∈ s.tablePages es, HomedHere s pa 8) →
      ((∀ x ∈ whys, x.2 = 0) →
        Completes (.gangDispatch grid gang) s fun t =>
          (t.gang (grid * 2 ^ 32 + gang)).groups = es.map (·.1) ∧
          ∀ e ∈ es, t.slotState e.1 = 2 ∧ (t.group e.1).grid = grid ∧ (t.group e.1).gang = gang ∧ (t.group e.1).stored = false ∧
            (t.group e.1).own = e.2.banks ∧ (t.group e.1).sliceLeft = e.2.slice * 1000 ∧
            ∀ i, i < (bitsOf e.2.slots).length →
              let w := t.warp (e.2.core * 64 + (bitsOf e.2.slots).getD i 0)
              { w with evh := Warp.start.evh, tvec := 0 } =
                { Warp.start with group := e.1, index := i, cls := e.2.cls, baseRegs := e.2.regs
                                  threads := Vector.replicate 32 (Thread.start gr.lrec.entry), evm := gr.lrec.hmask }) ∧
      ((∃ x ∈ whys, x.2 ≠ 0) →
        Completes (.gangDispatch grid gang) s fun t =>
          SameMemory s t ∧ t.warps = s.warps ∧ t.gangs = s.gangs ∧
          ∀ x ∈ whys, if x.2 = 0 then t.slotState x.1 = 1 else t.slotState x.1 = 5 ∧ (t.entry x.1).ctl.toNat / 16 % 16 = x.2)) ∧
    (∀ g, s.saveReady g = true → (∀ c, (s.core c).mending = []) → (s.groups.map (·.1)).Pairwise (· < ·) → (s.group g).stored = false → (s.group g).core < 1152 →
      Completes (.saveComplete g) s fun t =>
        t.slotState g = 4 ∧ (t.group g).stored = true ∧ (tget? t.saved g).isSome = true ∧
        ∀ w ∈ s.groupWarps g, tget? t.warps w = none) ∧
    (∀ g, s.saveReady g = false → (s.core (g / 64)).mending = [] → Completes (.saveComplete g) s (· = s))

/-- R339, R340: GANG_DISPATCH of a gang of one group that is saved, whose BOUND entry passes, restores it there: the registers, masks and addresses of each warp are
those that its record holds in memory, the scratchpad takes the saved bytes, the entry runs, and the saved context is gone. -/
def Sys2Proof.GangsAreRestored : Prop :=
  ∀ (s : State) (grid gang key k : Nat) (b : Group) (v : Saved) (g : Gang),
    s.boundEntries grid gang = [(key, b)] → b.ngroups = 1 → b.index = 0 → (s.grid grid).paired = false →
    tget? s.gangs (grid * 2 ^ 32 + gang) = some g → g.groups = [k] → g.twin = [] → s.resumes b = some k → tget? s.saved k = some v →
    s.bindWhy b (s.liveOn b.core) (s.slotsUsed b.core) (some v) = 0 →
    s.ckpt = none → s.boot = .up → s.bootMinimal = false → LinesSettled s → s.lock = none → MemoryCanonical s →
    (∀ c, (s.core c).suspect = [] ∧ (s.core c).mending = [] ∧ ∀ q, vget false (s.core c).oos q = false) →
    (∀ n c, vget none (s.group k).cbs n = some c → c.ingest = []) →
    (∀ i, (tget? s.warps (2 ^ 30 + k * 64 + i)).isSome = true → i < 64 → i < b.nwarps) →
    Completes (.gangDispatch grid gang) s fun t =>
      t.slotState key = 2 ∧ (t.group key).stored = false ∧ tget? t.saved key = none ∧ (t.gang (grid * 2 ^ 32 + gang)).groups = [key] ∧
      t.getBytes (windowBase s.pkg b.core + b.soff) v.spad.length = v.spad ∧
      ∀ i y, i < b.nwarps → tget? s.warps (2 ^ 30 + k * 64 + i) = some y → y.group = k →
        let w := t.warp (b.core * 64 + (bitsOf b.slots).getD i 0)
        let a := v.base.toNat + 0x10000 + y.index * 0x108000
        w.group = key ∧ w.index = y.index ∧ w.baseRegs = b.regs ∧ w.cls = b.cls ∧
        (∀ n, n < 160 → vget 0 w.sregs n = t.getW64 (a + 0x180 + 8 * n)) ∧
        (∀ n, n < 8 → vget 0 w.mregs n = BitVec.ofNat 32 (t.getNat (a + 0x680 + 4 * n) 4)) ∧
        (∀ n L, n < 128 → L < 32 → vget 0 (vget (Vector.replicate 32 0) w.vregs n) L = BitVec.ofNat 32 (t.getNat (a + 0x1000 + 128 * n + 4 * L) 4)) ∧
        ∀ L, L < 32 →
          let pc := t.getW64 (a + 8 * L)
          let word := t.getNat (a + 0x100 + 4 * L) 4
          (canonical pc = true → pc.toNat % 4 = 0 → (w.thread L).pc = pc) ∧
          (word % 4 < 3 → (w.thread L).status = if word % 4 = 0 then .eligible else if word % 4 = 1 then .waiting else .exited) ∧
          (w.thread L).frozen = decide (word / 4 % 2 = 1)

/-- R152, R154 to R156, R337, R339, R340: gangs and groups. -/
def Obligations.DispatchStepsBindStartAndSaveGroups : Prop :=
  SlotsAreBoundStoppedAndFreed ∧ GangsAreDispatchedAndSaved ∧ GangsAreRestored

/-- R23, R157, R160: SLICE_EXPIRY interrupts Understory; GROUP_RETIRE of a group whose warps and child grids have ended makes its entry DONE, and with the last
group of the last gang completes the grid, whose SIGNAL word is written; WARP_SLOT_RELEASE frees the slot of an ended warp, and with the last one the
group's resources; BARRIER_RELEASE completes a phase at which every thread of the scope has arrived. -/
def Sys2Proof.GroupsWarpsAndBarriersComplete : Prop :=
  ∀ s : State,
    (∀ g, let x := s.group g
      s.slotState g = 2 → (tget? s.groups g).isSome = true → x.sliceLeft = 0 →
      Completes (.sliceExpiry g) s fun t =>
        SameMemory s t ∧ t.outbox = s.outbox ++ [.interrupt (g / 64) (g % 64)] ∧ t.group g = { x with sliceLeft := x.slice * 1000 }) ∧
    (∀ g, let x := s.group g
      let id := x.grid
      s.slotState g = 2 → (tget? s.groups g).isSome = true → x.children = [] → s.groupWarps g = [] →
      Completes (.groupRetire g) s fun t =>
        t.slotState g = 3 ∧ tget? t.groups g = none ∧
        ∀ gr, NothingHeld s → x.gang < 2 ^ 32 → id < 2 ^ 32 → tget? s.grids id = some gr → (s.gang (id * 2 ^ 32 + x.gang)).groups = [g] →
          (s.gang (id * 2 ^ 32 + x.gang)).twin = [] → gr.lrec.gangs ≤ gr.retired + 1 → MemoryCanonical s →
          tget? t.grids id = none ∧
          ∀ pa, gr.signalPa = some pa → ∃ runs, runs < 256 ∧
            t.getNat pa 8 = id * 2 ^ 32 + runs * 256 + (if gr.status = 0 then 1 else gr.status) % 256) ∧
    (∀ w, let x := s.warp w
      let k := x.group
      s.live w = true → x.ended = true → x.qcopy = 0 → x.qgath = 0 → x.qmat = 0 → x.qcoll = 0 → s.storesDone w = true → (s.group k).takeQ = [] →
      Completes (.warpSlotRelease w) s fun t =>
        SameMemory s t ∧ tget? t.warps w = none ∧
        (s.groupWarps k = [w] → s.slotQueue = [] → s.lockQueue = [] → (t.group k).slen = 0 ∧ (t.group k).regs = 0 ∧ (t.group k).tilem = 0 ∧ (t.group k).pool = 0)) ∧
    (∀ b : BarRef,
      let x := s.barrier b
      let ws := s.scopeWarps b
      (x.arrived ≠ [] → (∀ y ∈ s.scopeThreads b, y ∈ x.arrived) → (∃ y ∈ s.scopeThreads b, y ∈ x.arrived) →
        (∀ k ∈ ws, k < 2 ^ 30 ∧ (∀ i, vget none (s.warp k).evbind i ≠ some b) ∧
          ∀ p ∈ (s.warp k).parks, ∀ y, p.hold ≠ .rearrive b x.phase y) →
        Completes (.barrierRelease b) s fun t =>
          SameMemory s t ∧ t.barrier b = ⟨x.phase + 1, []⟩ ∧
          ∀ k ∈ ws, ∀ L, L < 32 →
            let y := (s.warp k).thread L
            (t.warp k).thread L =
              if ∃ p ∈ (s.warp k).parks, p.hold = .bar b x.phase ∧ p.set.getLsbD L = true then { y with pc := y.pc + 4, status := .eligible }
              else y) ∧
      ((∃ y ∈ s.scopeThreads b, y ∉ x.arrived) → Completes (.barrierRelease b) s (· = s)))

/-- R283, R317: MCHECK_TAKE makes a warp enter its handler with cause MCHECK. R325: SLEEP_DEADLINE lets a thread go on whose time has passed. R231:
TX_REVALIDATE_COUNT compares a thread's log with memory and aborts it with VALIDATE when a word has changed. R204: REMOTE_STORE_COMBINE_END ends the combining of
a remote store. -/
def Sys2Proof.WarpsAreReleasedInTime : Prop :=
  ∀ (s : State) (w : Nat), s.live w = true →
    let x := s.warp w
    let others := fun t : State => SameMemory s t ∧ ∀ k, k ≠ w → t.warp k = s.warp k
    (∀ m r h p i, x.mchecks = m :: r → x.handler = false → x.service = none → x.tvec ≠ 0 →
      ((∃ c, x.cur = some c ∧ (0 < c.idx ∨ c.words ≠ []) ∧ h = c.set &&& x.setAt c.pc ∧ h ≠ 0 ∧ p = c.pc ∧ i = c.idx) ∨
        ((∀ c, x.cur = some c → c.idx = 0 ∧ c.words = []) ∧ x.chosenPc = some p ∧ h = x.setAt p ∧ i = if x.rprogPc = p then x.rprog else 0)) →
      (∀ L, L < 32 → h.getLsbD L = true → (x.thread L).tx = none) →
      Completes (.mcheckTake w) s fun t =>
        let y := t.warp w
        others t ∧ y.trapc = 0x0A ∧ y.trapa = 0 ∧ y.trappc = p ∧ y.trapm = h.append h ∧ y.handler = true ∧ y.mfault = m.mfault ∧ y.mchecks = r ∧ y.rprog = i ∧
        y.sregs = x.sregs ∧ y.vregs = x.vregs ∧ y.mregs = x.mregs ∧
        ∀ L, L < 32 → h.getLsbD L = true → (y.thread L).pc = x.tvec ∧ (y.thread L).status = .eligible) ∧
    (∀ L d, L < 32 → (∃ q ∈ x.parks, q.set.getLsbD L = true ∧ q.hold = .sleep d ∧ d ≤ s.ps / 1000) →
      Completes (.sleepDeadline w L) s fun t =>
        others t ∧ ∀ K, K < 32 → (t.warp w).thread K =
          if K = L then { (x.thread L) with pc := (x.thread L).pc + 4, status := .eligible } else x.thread K) ∧
    (∀ L tx, L < 32 → LinesSettled s → (x.thread L).tx = some tx → tx.matched = true → (∀ q ∈ x.parks, q.set.getLsbD L = true → ∀ n m, q.hold ≠ .ticket n m) → (∀ l ∈ tx.log, HomedHere s l.1 8) →
      let holds := ∀ l ∈ tx.log, s.getW64 l.1 = l.2 ∧ s.poisonedIn l.1 8 = false
      (holds → Completes (.txRevalidateCount w L) s fun t =>
        others t ∧ (t.warp w).thread L = { (x.thread L) with tx := some { tx with matched := false, age := 0 } }) ∧
      (¬holds → s.slotQueue = [] → Completes (.txRevalidateCount w L) s fun t =>
        others t ∧ (t.warp w).thread L =
          { (x.thread L) with tx := none, pc := tx.label, retry := Nat.min 15 ((x.thread L).retry + 1), code := 1, detail := 0 })) ∧
    (∀ n r, tget? s.remote n = some r → Completes (.remoteStoreCombineEnd n) s fun t =>
      SameMemory s t ∧ t.warps = s.warps ∧ tget? t.remote n = some { r with combining := false } ∧
      ∀ k, k ≠ n → tget? t.remote k = tget? s.remote k)

/-- R234: TICKET_TURN serves the oldest commit while the fallback lock is free, a hart's or a lane's. R237: LOCK_LIMIT_EXPIRY kills the gang of a holder that has
kept the lock too long. R189: TLB_INVALIDATE starts an invalidation, and INVALIDATE_COMPLETE, when no access that used one waits, drops the cached
translations it names. -/
def Sys2Proof.CommitsLocksAndInvalidationsAreServed : Prop :=
  ∀ s : State,
    (∀ n r h tx, s.commits = (n, .hart h) :: r → s.lock = none → (s.hart h).tx = some tx → (s.hart h).commit = true → LinesSettled s → (∀ b ∈ tx.writes, HomedHere s b.1 1) →
      Completes .ticketTurn s fun t =>
        t.mem = tx.writes.foldl (fun m b => Memory.write m b.1 b.2) s.mem ∧ t.commits = r ∧ t.served = n + 1 ∧
        t.hart h = { s.hart h with tx := none, commit := false, pc := (s.hart h).pc + 4, minstret := (s.hart h).minstret + 1 }) ∧
    (∀ n r k L m u tx, s.commits = (n, .warp k (BitVec.ofNat 32 (2 ^ L)) m u) :: r → s.lock = none → s.slotQueue = [] → L < 32 → m < 8 → LinesSettled s →
      ((s.warp k).thread L).tx = some tx → (s.warp k).flights = [] → s.ost k = 0 → s.senderWaits (.warp k) = false →
      (∀ l ∈ tx.log, HomedHere s l.1 8) → (∀ b ∈ tx.buf, HomedHere s b.1 1) →
      Completes .ticketTurn s fun t =>
        t.commits = r ∧ t.served = n + 1 ∧ ((t.warp k).thread L).tx = none ∧ ((t.warp k).thread L).status = .eligible ∧
        if ∀ l ∈ tx.log, s.getW64 l.1 = l.2 ∧ s.poisonedIn l.1 8 = false then
          t.mem = tx.buf.foldl (fun c b => Memory.write c b.1 b.2) s.mem ∧ ((t.warp k).thread L).pc = ((s.warp k).thread L).pc + 4 ∧
          (m ≠ 0 → ((t.warp k).rdM m).getLsbD L = true)
        else
          SameMemory s t ∧ ((t.warp k).thread L).pc = tx.label ∧ ((t.warp k).thread L).code = 1 ∧ (m ≠ 0 → ((t.warp k).rdM m).getLsbD L = false)) ∧
    (s.commits ≠ [] → s.lock ≠ none → Completes .ticketTurn s (· = s)) ∧
    (∀ l, s.lock = some l →
      let g := (s.groupOf l.warp).grid * 2 ^ 32 + (s.groupOf l.warp).gang
      (l.since + l.limit ≤ s.ps / 1000 →
        Completes .lockLimitExpiry s fun t => tget? t.grids (g / 2 ^ 32) = none ∨ (t.gang g).killed = some 5) ∧
      (s.ps / 1000 < l.since + l.limit → Completes .lockLimitExpiry s (· = s))) ∧
    (∀ core v,
      let c := s.core core
      let cmd := BitVec.ofNat 64 (v.toNat % 2 ^ 18)
      (c.tinvc.getLsbD 63 = false → Completes (.tlbInvalidate core v) s fun t =>
        SameMemory s t ∧ t.core core = { c with tinvc := BitVec.ofNat 64 (2 ^ 63 + v.toNat % 2 ^ 18) } ∧ tget? t.invals core = some ⟨c.tinva, cmd⟩) ∧
      (c.tinvc.getLsbD 63 = true → Completes (.tlbInvalidate core v) s (· = s))) ∧
    (∀ core i, tget? s.invals core = some i → s.invalWaits (core / 48) i = false → Completes (.invalidateComplete core) s fun t =>
      SameMemory s t ∧ (t.core core).tinvc.getLsbD 63 = false ∧ tget? t.invals core = none ∧
      ∀ e, e ∈ t.tlb ↔ e ∈ s.tlb ∧ ¬(e.die = core / 48 ∧ (i.cmd.getLsbD 16 = true ∨ e.ctx = i.cmd.toNat % 2 ^ 16) ∧
        (i.cmd.getLsbD 17 = true ∨ (e.page ≤ i.va.toNat ∧ i.va.toNat < e.page + 2 ^ e.size))))

/-- R350 to R352: COPPICE_RELAUNCH of a gang killed for reason 1, 2 or 4 makes it, or every gang of a co-resident grid, ready to be bound again when the launch
allows it and it has run once; otherwise the grid completes. -/
def Sys2Proof.KilledGangsAreRelaunchedOrEndTheirGrid : Prop :=
  ∀ (s : State) (grid gang reason : Nat),
    let k := grid * 2 ^ 32 + gang
    let gr := s.grid grid
    let g := s.gang k
    let mine := s.gangs.filter fun x => x.1 / 2 ^ 32 = grid
    let again := fun x : Gang => { Gang.none with grid := x.grid, index := x.index, runs := x.runs + 1 }
    g.killed = some reason → reason = 1 ∨ reason = 2 ∨ reason = 4 →
    (gr.relaunchable = true → gr.coresident = false → g.runs < 2 → g.kids = [] →
      Completes (.coppiceRelaunch grid gang) s fun t =>
        SameMemory s t ∧ t.gang k = again g ∧ ∀ j, j ≠ k → t.gang j = s.gang j) ∧
    (gr.relaunchable = true → gr.coresident = true → g.kids = [] → (∀ x ∈ mine, x.2.runs < 2) → (∀ x ∈ s.groups, x.2.children = []) →
      Completes (.coppiceRelaunch grid gang) s fun t =>
        (t.grid grid).retired = 0 ∧ ∀ j x, j / 2 ^ 32 = grid → tget? s.gangs j = some x → t.gang j = again x) ∧
    (NothingHeld s → gr.relaunchable = false ∨ (gr.coresident = false ∧ 2 ≤ g.runs) ∨ (gr.coresident = true ∧ ∃ x ∈ mine, 2 ≤ x.2.runs) →
      Completes (.coppiceRelaunch grid gang) s fun t =>
        tget? t.grids grid = none ∧
        (grid < 2 ^ 32 → MemoryCanonical s → (∀ x ∈ mine, x.2.groups = []) → ∀ y pa, tget? s.grids grid = some y → y.signalPa = some pa →
          ∃ runs, runs < 256 ∧ t.getNat pa 8 =
            grid * 2 ^ 32 + runs * 256 + (if y.status ≠ 0 then y.status else if reason = 2 then 3 else 2) % 256))

/-- R23, R157, R160, R189, R204, R231, R234, R237, R283, R325, R350 to R352: what ends, is released, or starts again. -/
def Obligations.ReleaseStepsEndAndReleaseWhatHasCompleted : Prop :=
  GroupsWarpsAndBarriersComplete ∧ WarpsAreReleasedInTime ∧ CommitsLocksAndInvalidationsAreServed ∧ KilledGangsAreRelaunchedOrEndTheirGrid

/-! ## Mailboxes, core windows and engines: the hardware's own steps -/

/-- R181 to R184: MAILBOX_WRITE adds bytes to the sender's open packet, and MAILBOX_CLOSE closes it and raises event 8 + m in the owner; without room the
store waits, as it does behind an earlier one of its sender, and for a slot without a running warp it is dropped and counted. MAILBOX_DISCARD drops the head
packet, and MAILBOX_ROOM performs the oldest waiting store of its sender. The grid of the owner is not paired. -/
def Sys2Proof.MailboxesTakePacketsAndEvents : Prop :=
  ∀ (s : State) (w m : Nat), w < 1152 * 64 → m < 4 → (s.gridOf w).paired = false →
    let core := w / 64
    let slot := w % 64
    let c := s.core core
    let key := slot * 4 + m
    let box := tget [] c.mail key
    let put := fun (by_ : Sender) (writes : List (Nat × Byte)) =>
      writes.foldl (fun b x => tput b x.1 x.2)
        (((c.mbOpen.find? fun p => p.sender = by_ ∧ p.slot = slot ∧ p.mb = m).map (·.bytes)).getD [])
    let rest := fun by_ : Sender => c.mbOpen.filter fun p => ¬(p.sender = by_ ∧ p.slot = slot ∧ p.mb = m)
    let handled := ∀ n, canonical (vget 0 (s.warp w).evh n) = true
    let room := fun (by_ : Sender) (closes : Prop) =>
      (closes ∨ c.mbOpen.length < 16 ∨ ∃ p ∈ c.mbOpen, p.sender = by_ ∧ p.slot = slot ∧ p.mb = m) ∧ (closes → box.length < 4)
    let first := fun by_ : Sender => (∀ p ∈ c.mbWait, p.sender ≠ by_) ∧ ∀ p ∈ c.tileWait, p.sender ≠ by_
    (∀ (by_ : Sender) (off : Nat) (bytes : List Byte), bytes ≠ [] → off + bytes.length ≤ 256 →
      let writes := (List.range bytes.length).map fun i => (off + i, bytes.getD i 0)
      (s.mailLive w = true → first by_ → room by_ False → Completes (.mailboxWrite by_ w m off bytes) s fun t =>
        SameMemory s t ∧ t.core core = { c with mbOpen := rest by_ ++ [⟨by_, slot, m, put by_ writes⟩] }) ∧
      (s.mailLive w = true → handled → first by_ → room by_ True → Completes (.mailboxClose by_ w m off bytes) s fun t =>
        SameMemory s t ∧ t.core core = { c with mbOpen := rest by_, mail := tput c.mail key (box ++ [put by_ writes]) } ∧
        ((∀ p ∈ (s.warp w).parks, ∀ i, p.hold ≠ .wany i) → t.warp w = { s.warp w with evp := (s.warp w).evp ||| BitVec.ofNat 16 (2 ^ (8 + m)) })) ∧
      (s.mailLive w = true → ¬(first by_ ∧ room by_ False) → Completes (.mailboxWrite by_ w m off bytes) s fun t =>
        SameMemory s t ∧ t.core core = { c with mbWait := c.mbWait ++ [⟨by_, slot, m, writes, false, none, c.waitSeq⟩] }) ∧
      (s.mailLive w = true → ¬(first by_ ∧ room by_ True) → Completes (.mailboxClose by_ w m off bytes) s fun t =>
        SameMemory s t ∧ t.core core = { c with mbWait := c.mbWait ++ [⟨by_, slot, m, writes, true, none, c.waitSeq⟩] }) ∧
      (s.mailLive w = false → ∀ i ∈ [Instr.mailboxWrite by_ w m off bytes, .mailboxClose by_ w m off bytes], Completes i s fun t =>
        SameMemory s t ∧ t.core core = { c with mbdrop := c.mbdrop + 1 })) ∧
    Completes (.mailboxDiscard w m) s (fun t => SameMemory s t ∧
      t.core core = if s.mailLive w then { c with mail := tput c.mail key (box.drop 1) } else { c with mbdrop := c.mbdrop + 1 }) ∧
    (∀ before x after, c.mbWait = before ++ x :: after → (∀ y ∈ before, ¬(y.slot = slot ∧ y.mb = m)) → x.slot = slot → x.mb = m →
      (∀ y ∈ before ++ after, y.seq ≠ x.seq ∧ (y.sender = x.sender → x.seq < y.seq)) → (∀ y ∈ c.tileWait, y.sender = x.sender → x.seq < y.seq) →
      s.mailLive w = true → handled → room x.sender (x.closes = true) → Completes (.mailboxRoom w m) s fun t =>
        SameMemory s t ∧ (t.core core).mbWait = before ++ after ∧
        if x.closes then (t.core core).mbOpen = rest x.sender ∧ (t.core core).mail = tput c.mail key (box ++ [put x.sender x.writes])
        else (t.core core).mbOpen = rest x.sender ++ [⟨x.sender, slot, m, put x.sender x.writes⟩] ∧ (t.core core).mail = c.mail)

/-- R172, R173, R176, R177, R179 to R182, R197: CORE_WINDOW_ACCESS at every part of a core window. A load, and an access without the rights, change nothing. A store to
the scratchpad, the accumulator banks or the tiles writes its bytes, one to a bank leaves the bands it touches UNCHECKED, and one to the vector registers writes those that a
warp of the slot holds; a store behind a waiting one of its sender, or at a tile that is busy, locked or waited for, waits. A store to a mailbox is that mailbox's write,
close or discard. At the control page TINVA and TINVC take a host's store, and the registers that are not writable discard it. An atomic acts on the scratchpad alone. -/
def Sys2Proof.WindowAccessesReachTheirPlace : Prop :=
  ∀ (s : State) (by_ : Sender) (pa core o : Nat),
    let c := s.core core
    let stores := fun (bs : List Byte) (P : State → Prop) => Completes (.coreWindowAccess by_ pa (.store bs)) s P
    (∀ n, Completes (.coreWindowAccess by_ pa (.load n)) s (· = s)) ∧
    (∀ bs, s.windowMay by_ pa bs.length .store = false → stores bs (· = s)) ∧
    (∀ op md x y, s.windowMay by_ pa (AtomOp.bytes op) (.atom false) = false → Completes (.coreWindowAccess by_ pa (.atom op md x y)) s (· = s)) ∧
    (∀ bs, bs ≠ [] → s.windowMay by_ pa bs.length .store = true →
      let n := bs.length
      let inTile := s.place pa = .tile core o
      let tileTaken := (∃ t ∈ [o / 0x8000, (o + n - 1) / 0x8000], s.tileBusy core t = true ∨ s.tileLocked core t = true) ∨
        ∃ x ∈ c.tileWait, pa / 0x8000 * 0x8000 ≤ x.pa ∧ x.pa < pa / 0x8000 * 0x8000 + 0x8000
      let plain := s.place pa = .scratch core o ∨ s.place pa = .acc core o ∨ s.place pa = .vreg core o
      let waits := c.senderWaits by_ = true ∨ (inTile ∧ tileTaken)
      (plain ∨ inTile → waits → stores bs fun t =>
        SameMemory s t ∧ (∀ k, k ≠ core → t.core k = s.core k) ∧
        ∃ x, t.core core = { c with tileWait := c.tileWait ++ [x] } ∧ x.sender = by_ ∧ x.pa = pa ∧ x.bytes = bs) ∧
      (s.place pa = .scratch core o ∨ inTile → ¬waits → stores bs (·.mem = Memory.writeBytes s.mem pa bs)) ∧
      (s.place pa = .acc core o → ¬waits → stores bs fun t =>
        t.mem = Memory.writeBytes s.mem pa bs ∧ ∀ k, (t.core core).band k =
          if k = o / 0x4000 ∨ k = (o + n - 1) / 0x4000 then { c.band k with state := .unchecked, record := [], complete := false, located := none }
          else c.band k) ∧
      (s.place pa = .vreg core o → ¬waits → stores bs fun t =>
        SameMemory s t ∧ ∀ a, a < 0x100000 →
          let k := core * 64 + a / 0x4000
          t.vregByte core a =
            if o ≤ a ∧ a < o + n ∧ (tget? s.warps k).isSome = true ∧ (s.warp k).holdsV (a % 0x4000 / 128) = true then bs.getD (a - o) 0
            else s.vregByte core a) ∧
      (s.place pa = .mail core o →
        let w := core * 64 + o / 0x10000
        let m := o / 0x4000 % 4
        let x := o % 0x4000
        let as_ := fun i => ∃ t, Sys2Proof.Machine.exec (.coreWindowAccess by_ pa (.store bs)) s = .next t ∧ Sys2Proof.Machine.exec i s = .next t
        (x < 0x1000 → as_ (.mailboxWrite by_ w m x bs)) ∧
        (0x1000 ≤ x → x < 0x2000 → as_ (.mailboxClose by_ w m (x - 0x1000) bs)) ∧
        (0x3000 ≤ x → as_ (.mailboxDiscard w m))) ∧
      (s.place pa = .control core o →
        (o = 0x100 → n = 8 → stores bs fun t =>
          SameMemory s t ∧ t.core core = { c with tinva := BitVec.ofNat 64 (leNat bs / 4096 * 4096) } ∧ t.invals = s.invals) ∧
        (o = 0x108 → n = 8 → ∃ t, Sys2Proof.Machine.exec (.coreWindowAccess by_ pa (.store bs)) s = .next t ∧
          Sys2Proof.Machine.exec (.tlbInvalidate core (BitVec.ofNat 64 (leNat bs))) s = .next t) ∧
        (o + n ≤ 0x100 ∨ 0x110 ≤ o → stores bs (· = s)))) ∧
    (∀ op md (x y : W64), let n := AtomOp.bytes op
      s.windowMay by_ pa n (.atom false) = true → s.place pa = .scratch core o →
      (c.senderWaits by_ = false → Completes (.coreWindowAccess by_ pa (.atom op md x y)) s fun t =>
        t.mem = Memory.writeBytes s.mem pa (leBytes n (AtomOp.apply op md (leNat (Memory.readBytes s.mem pa n)) x.toNat y.toNat))) ∧
      (c.senderWaits by_ = true → Completes (.coreWindowAccess by_ pa (.atom op md x y)) s (· = s)))

/-- R243 to R248, R251: COPY_LINE reads one source line of the head of the queue in turn, and when all are read writes one destination line; the copy is complete
with its last line. GATHER_ELEMENT moves the next element to the scratchpad. No byte carries poison here, the grid is not paired, the bytes are this module's, and no
copy of the warp waits for a slot. -/
def Sys2Proof.CopyAndGatherEnginesMoveTheirLines : Prop :=
  ∀ (s : State) (w : Nat), Calm { s with classes := [] } → s.live w = true → (s.warp w).win = none → (s.gridOf w).paired = false → MemoryCanonical s →
    let c := s.core (w / 64)
    (∀ o, (s.warp w).copyHead = some o → o.dest = .plain → (s.warp w).copyNext = none →
      (∀ l ∈ o.lanes, HomedHere s l.src o.z ∧ HomedHere s l.to o.z) → inTurn c.copyRR (fun i => s.copyReady (w / 64 * 64 + i)) = some (w % 64) →
      (o.readLanes ≠ [] → (o.lanes.map (·.lane)).Nodup → ((s.warp w).copyQ.map (·.seq)).Nodup → (∀ l ∈ o.lanes, ∀ i, i < o.z → s.poisoned (l.src + i) = false) →
        Completes (.copyLine w false) s fun t =>
          let take := fun y : CopyLane => if o.readLanes.contains y then { y with data := some (s.bytesAt y.src o.z, []) } else y
          SameMemory s t ∧ (t.core (w / 64)).copyRR = w % 64 ∧ (t.warp w).copyHead = some { o with lanes := o.lanes.map take }) ∧
      (o.readLanes = [] → ((s.warp w).copyQ.map (·.seq)).Nodup → HartsDrained s → (∀ l ∈ o.lanes, ∃ bs, l.data = some (bs, []) ∧ bs ≠ []) →
        let ls := o.writeLanes
        let bytes := lineBytes ls
        (∀ a, tget? bytes a ≠ none → s.place a = .device ∨ ∃ c o, s.place a = .scratch c o) → ls ≠ [] →
        Completes (.copyLine w false) s fun t =>
          (∀ a, Memory.read t.mem a = match tget? bytes a with | some x => x.1 | none => Memory.read s.mem a) ∧
          let mark := fun y : CopyLane => if (ls.map (·.lane)).contains y.lane then { y with written := true } else y
          let lanes := o.lanes.map mark
          { o with lanes := lanes, fin := lanes.all (·.written) } ∈ (t.warp w).copyQ)) ∧
    (∀ o pa dst, (s.warp w).gathHead = some o → inTurn c.gathRR (fun i => s.gathReady (w / 64 * 64 + i)) = some (w % 64) →
      ((∃ size, s.gathNext w o = (.pa pa size, dst)) ∨
        ∃ a size nc, s.gathNext w o = (.va a, dst) ∧ canonical a = true ∧ canonical (a + BitVec.ofNat 64 (o.z - 1)) = true ∧
          s.walk (w / 64 / 48) (s.gridOf w).ctx a .engRead = .ok pa size nc ∧ s.agentMay false pa o.z .load = true) →
      HomedHere s pa o.z → (∀ i, i < o.z → s.poisoned (pa + i) = false) → (∃ c x, s.place dst = .scratch c x) → o.got = [] → o.next < o.n → HartsDrained s →
      Completes (.gatherElement w) s fun t =>
        t.mem = Memory.writeBytes s.mem dst (s.bytesAt pa o.z) ∧ (t.core (w / 64)).gathRR = w % 64 ∧
        ∃ got, { o with next := o.next + 1, done := if o.done = o.next then o.next + 1 else o.done, wait := none, fin := decide (o.next + 1 = o.n)
                        got := got } ∈ (t.warp w).gathQ)

/-- R206, R246, R268: ENGINE_OP_RETIRE takes the oldest operation of a class off its queue when it is complete: its count falls, a token's pending count falls, ERR is set,
and at 0 the token's event is raised; an MRTY or MGIVE writes its register, and a collective operation leaves its status. No issue set of the warp
waits. -/
def Sys2Proof.EngineOperationsRetire : Prop :=
  ∀ (s : State) (w : Nat), s.live w = true → w < 2 ^ 30 → (s.warp w).parks = [] →
    let x := s.warp w
    let others := fun t : State => SameMemory s t ∧ ∀ k, k ≠ w → t.warp k = s.warp k
    let token := fun (y : Warp) (tok : Nat) (err : Bool) =>
      let n := vget 0 x.tokPend tok - 1
      { y with tokPend := vset x.tokPend tok n, tokErr := if err then x.tokErr ||| BitVec.ofNat 8 (2 ^ tok) else x.tokErr
               evp := if n = 0 then x.evp ||| BitVec.ofNat 16 (2 ^ tok) else x.evp }
    (∀ o r, x.copyQ = o :: r → o.fin = true → o.tok < 8 → (s.gridOf w).paired = false →
      Completes (.engineOpRetire w .copy) s fun t => others t ∧ t.warp w = token { x with copyQ := r, qcopy := x.qcopy - 1 } o.tok o.err) ∧
    (∀ o r, x.gathQ = o :: r → o.fin = true → o.tok < 8 →
      Completes (.engineOpRetire w .gather) s fun t => others t ∧ t.warp w = token { x with gathQ := r, qgath := x.qgath - 1 } o.tok o.err) ∧
    (∀ o, let g := s.group x.group
      (tget? s.groups x.group).isSome = true → (g.matQ.find? fun p => p.warp = w) = some o → o.fin = true →
      (∀ p ∈ g.matQ, p.warp = w → p.started = false ∨ p.fin = true) → (∀ c, (s.core c).tileWait = []) →
      Completes (.engineOpRetire w .matrix) s fun t =>
        others t ∧ t.group x.group = { g with matQ := g.matQ.filter fun p => p.id ≠ o.id } ∧
        t.warp w = { x with qmat := x.qmat - 1
                            sregs := match o.kind with
                              | .mrty _ d | .mgive _ d _ => vset x.sregs d (BitVec.ofNat 64 o.out)
                              | _ => x.sregs }) ∧
    (∀ o r, x.collQ = o :: r → o.fin = true →
      Completes (.engineOpRetire w .coll) s fun t =>
        others t ∧ (t.warp w).collQ = r ∧ (t.warp w).qcoll = x.qcoll - 1 ∧ (t.warp w).xstat = o.status)

/-- R269, R270: MATRIX_OP_START with one queue on the pair and one operation in it starts that operation; an MMA takes the free array and meets its bands. R274, R279:
MMA_STEP makes one step of a float or a real integer MMA: every element of a band's rows gains the products of the step, and the array becomes free
with the last step. -/
def Sys2Proof.MatrixOperationsStartAndStep : Prop :=
  ∀ (s : State) (core g : Nat),
    let x := s.group g
    s.slotState g = 2 → s.stopping g = false → x.core = core →
    (∀ pos o, s.queues (core / 2 * 2) = [(pos, g)] → x.matQ = [o] → o.started = false → o.fin = false →
      s.onFaulted core o.kind = false → s.lockedFor core o.kind = false → (s.warp o.warp).flights = [] → HartsDrained s →
      let begun := { x with matQ := [{ o with started := true }] }
      ((∀ a b sa sb k p, o.kind ≠ .mma a b sa sb k p) → (∀ k d, o.kind ≠ .mrty k d) →
        Completes (.matrixOpStart core) s fun t => SameMemory s t ∧ t.warps = s.warps ∧ t.group g = begun) ∧
      (∀ a b sa sb k, o.kind = .mma a b sa sb k false → (s.core core).array = none → (s.core (core / 2 * 2)).pairHold = none →
        Completes (.matrixOpStart core) s fun t =>
          SameMemory s t ∧ t.group g = begun ∧ (t.core core).array = some ⟨g, o.id⟩ ∧ (t.core (core / 2 * 2)).arrayLast = pos ∧
          ∀ q, q < (shapeRows sa + 31) / 32 → (t.core core).band (k + q) = ((s.core core).band (k + q)).mmaStart ⟨a, b, sa, sb, 32 * q, 0, false⟩)) ∧
    (∀ o a b sa sb k, (s.core core).array = some ⟨g, o.id⟩ → (x.matQ.find? fun p => p.id = o.id) = some o → o.kind = .mma a b sa sb k false →
      core < 1152 → k + (shapeRows sa + 31) / 32 ≤ 64 → a < 16 → b < 16 → MemoryCanonical s →
      let n := o.steps
      let el := fun (m : List Host.Cell) q r c => leNat (Memory.readBytes m (bankAddr s.pkg core (k + q) + r * 512 + c * 4) 4)
      Completes (.mmaStep core none) s fun t =>
        (∃ p ∈ (t.group g).matQ, p = { o with steps := n + 1, fin := decide ((shapeBytes sa + 63) / 64 ≤ n + 1) }) ∧
        ((shapeBytes sa + 63) / 64 ≤ n + 1 → (t.core core).array = none) ∧
        ∀ q r c, 32 * q + r < shapeRows sa → r < 32 → c < 128 →
          (shapeRows sb ≤ c → shapeFormat sa < 9 → el t.mem q r c = el s.mem q r c) ∧
          (c < shapeRows sb → shapeFormat sa < 5 → el t.mem q r c =
            roundSum .rne (fmtF32.decode (el s.mem q r c) ::
              dotTerms (s.stepFloats core a sa n (32 * q + r)) (s.stepFloats core b sb n c))) ∧
          (c < shapeRows sb → 5 ≤ shapeFormat sa → shapeFormat sa < 9 → (el t.mem q r c : Int) =
            (el s.mem q r c + (cDot (s.stepInts core a sa n (32 * q + r)) (s.stepInts core b sb n c)).1) % 2 ^ 32))

/-- R172 to R184, R206, R243 to R251, R268 to R279: mailboxes, windows and engines at work. -/
def Obligations.EngineStepsMoveComputeAndRetire : Prop :=
  MailboxesTakePacketsAndEvents ∧ WindowAccessesReachTheirPlace ∧ CopyAndGatherEnginesMoveTheirLines ∧ EngineOperationsRetire ∧
  MatrixOperationsStartAndStep

/-! ## Links, the directory and requests of other modules: the hardware's own steps -/

/-- No warp has an access that waits on one of some modules, and no collective operation, instance or plan has a participant there. -/
def Sys2Proof.NothingThere (s : State) (ms : List Nat) : Prop :=
  (∀ x ∈ s.warps, s.waitsOn ms x.1 = false ∧ ∀ o ∈ x.2.collQ, o.fin = true ∨ o.loses ms = false) ∧
  (∀ i ∈ s.instances, ∀ j ∈ i.joined, j.pkg ∉ ms) ∧ ∀ p ∈ s.plans, ∀ m ∈ p.named, m ∉ ms

/-- R375 to R378, R380: a port that is up accepts the idle header it expects, whose ACK covers every packet up to its number, and says NAK to another or to a failed
CRC; it sends an idle header with the next number and a CRC, sends again what is not acknowledged after 2 µs, goes down after 16 resends, and hands the packets of a
failed port to the surviving ones; a packet of a reserved type is dropped and counted, and its slot is free. -/
def Sys2Proof.PortsAcknowledgeResendAndFail : Prop :=
  ∀ (s : State) (n : Nat),
    let p := s.port n
    p.down = false →
    let last := (p.expect + 4095) % 4096
    let only := fun (t : State) (q : Port) => SameMemory s t ∧ t.port n = q ∧ ∀ k, k ≠ n → t.port k = s.port k
    let resent := fun ack : Nat => s.outbox ++ (List.range p.unacked.length).map fun i =>
      let q := p.unacked.getD i ⟨0, Pkt.idle⟩
      Out.packet n (q.pkt.flits s.pkg ⟨q.seq, ack, p.nak && i == 0, p.freed⟩)
    let reached := (List.range 32).filter fun m => m ≠ s.pkg ∧ (vget 0 s.routes m).getLsbD n = true
    (∀ h : Hdr,
      (h.seq % 4096 = p.expect → h.nak = false → Completes (.idle n h) s fun t =>
        SameMemory s t ∧ (t.port n).expect = (p.expect + 1) % 4096 ∧ t.outbox = s.outbox ∧ (∀ k, k ≠ n → t.port k = s.port k) ∧
        (∀ a q b, p.unacked = a ++ q :: b → q.seq = h.ack → (∀ x ∈ a, x.seq ≠ h.ack) → (t.port n).unacked = b ∧ (t.port n).resends = 0) ∧
        ((∀ q ∈ p.unacked, q.seq ≠ h.ack) → (t.port n).unacked = p.unacked ∧ (t.port n).resends = p.resends)) ∧
      (h.seq % 4096 = p.expect → h.nak = true → p.unacked ≠ [] → (∀ q ∈ p.unacked, q.seq ≠ h.ack) → Completes (.idle n h) s fun t =>
        t.outbox = resent p.expect ∧ (t.port n).resends = p.resends + 1 ∧ (t.port n).unacked = p.unacked ∧ t.linkReplay = (s.linkReplay + 1) % 2 ^ 32) ∧
      (h.seq % 4096 ≠ p.expect → Completes (.idle n h) s (only · { p with nak := true }))) ∧
    (p.unacked.length < 2047 → p.nextSeq < 4096 → Completes (.idleTimer n) s fun t =>
      only t { p with nextSeq := (p.nextSeq + 1) % 4096, unacked := p.unacked ++ [⟨p.nextSeq, Pkt.idle⟩], nak := false
                      ackAt := if p.unacked = [] then s.time else p.ackAt } ∧
      ∃ bs, t.outbox = s.outbox ++ [.packet n bs] ∧ bs.length = 64 ∧
        leNat (bs.take 2) = p.nextSeq + (if p.nak then 2 ^ 14 else 0) ∧ leNat ((bs.drop 2).take 2) = last ∧
        (∀ i, i < 4 → leNat ((bs.drop (4 + 2 * i)).take 2) = p.freed.getD i 0 % 2 ^ 16) ∧ leNat ((bs.drop 12).take 2) = 0 ∧
        leNat (bs.drop 60) = (crc32 (bs.take 60)).toNat) ∧
    (p.unacked ≠ [] → p.ackAt + 2000 ≤ s.time → Completes (.linkReplayTimeout n) s fun t =>
      only t { p with resends := p.resends + 1, ackAt := s.time, nak := false } ∧ t.outbox = resent last ∧ t.linkReplay = (s.linkReplay + 1) % 2 ^ 32) ∧
    (s.time < p.ackAt + 2000 → Completes (.linkReplayTimeout n) s (· = s)) ∧
    (16 ≤ p.resends → NothingThere s reached →
      (∀ k, s.survivor n = some k → Completes (.portDown n) s fun t =>
        SameMemory s t ∧ t.linkDown = (s.linkDown + 1) % 2 ^ 16 ∧ t.port n = { p with down := true } ∧
        ∃ q, (t.port k).queue = q :: (s.port k).queue ∧ q.ty = 0x42 ∧ q.args = .failed n last) ∧
      (s.survivor n = none → Completes (.portDown n) s fun t =>
        SameMemory s t ∧ t.linkDown = (s.linkDown + 1) % 2 ^ 16 ∧ t.port n = { p with down := true, queue := [], unacked := [] })) ∧
    (p.resends < 16 → Completes (.portDown n) s (· = s)) ∧
    (∀ f ack, f ≠ n → NothingThere s ((List.range 32).filter fun m => m ≠ s.pkg ∧ (vget 0 s.routes m).getLsbD f = true) →
      let late := ((ackDrop ack (s.port f).unacked).map (·.pkt)).filter (·.ty ≠ 0) ++ (s.port f).queue
      (∀ q ∈ late, ∃ k, k < 64 ∧ k ≠ f ∧ (vget 0 s.routes q.dest).getLsbD k = true ∧ (s.port k).down = false) →
      Completes (.portdown n f ack) s fun t =>
        SameMemory s t ∧ (t.port f).down = true ∧ (t.port f).unacked = [] ∧ (t.port f).queue = [] ∧
        (∀ q ∈ late, ∃ k, k ≠ f ∧ q ∈ (t.port k).queue) ∧
        t.linkDown = if (s.port f).down then s.linkDown else (s.linkDown + 1) % 2 ^ 16) ∧
    Completes (.packetCrcFailure n) s (only · { p with nak := true }) ∧
    (p.expect < 4096 → Completes (.reservedTypePacket n) s fun t =>
      only t { p with expect := (p.expect + 1) % 4096, freed := lmod p.freed 0 fun c => (c + 1) % 2 ^ 16 } ∧ t.linkBad = (s.linkBad + 1) % 2 ^ 16)

/-- R364 to R370, R374, R383: the home grants READS and READM or UPGRADE when no copy stands in the way, and otherwise recalls the copies that do, line by line at another
module; where the directory has no room the entry used longest ago gives way. GRANTACK, WRITEBACK, RECALLDATA and RECALLACK change the entry, data of another module reaching
memory with the marks of its sectors. A holder sends its own data as it evicts, takes DATA, answers a RECALL, and ends its write-back on WBACK. -/
def Sys2Proof.TheDirectoryGrantsAndRecalls : Prop :=
  ∀ (s : State) (h line : Nat),
    let u := s.unitKey line
    let e := s.dirEntry u
    let at_ := line * 128
    let die := homeDie at_
    let home := 32 + line / 2 ^ 41
    let key := fun d x => d * 2 ^ 48 + x
    let sends := fun (t : State) (o : Out) => t.outbox = s.outbox ++ [o]
    let far := 32 ≤ h
    (line / 2 ^ 41 = s.pkg → s.quarantined h = false → s.shadows = [] → s.partials = [] → s.lock = none →
      let answer := fun t : State => sends t (s.msg die h s.replyTo.1 0x10 at_ (if far then s.getBytes at_ 128 else []) (if far then s.payloadMarks at_ 128 else 0))
      (s.inOwnWindow s.pkg at_ = true →
        Completes (.reads h line) s (fun t => SameMemory s t ∧ t.dir = s.dir ∧ answer t) ∧
        ∀ i ∈ [Instr.readm h line, .upgrade h line], Completes i s (· = s)) ∧
      (s.inOwnWindow s.pkg at_ = false → e.recalls = [] → e.queue = [] →
        let granted := fun (st : DirState) (t : State) => SameMemory s t ∧ t.dirEntry u = ⟨some st, insertNat h e.unacked, [], []⟩ ∧ answer t
        let recalls := fun (r : DirReq) (hs : List Nat) (t : State) =>
          let asked := hs.flatMap fun o => (if 32 ≤ o then s.unitOf u else [u]).map fun x => (o, x)
          SameMemory s t ∧ t.dirEntry u = { e with recalls := asked, queue := [⟨h, r, line, s.replyTo.1, s.replyTo.2⟩] } ∧
          t.outbox = s.outbox ++ asked.map fun q => s.msg (homeDie (q.2 * 128)) q.1 (homeDie (q.2 * 128)) 0x20 (q.2 * 128) [] 0
        (e.state = none → s.dir.length < 15 → Completes (.reads h line) s (granted (.shared [h]))) ∧
        (∀ hs, e.state = some (.shared hs) → Completes (.reads h line) s (granted (.shared (insertNat h hs)))) ∧
        (e.state = some (.owned h) → Completes (.reads h line) s (granted (.owned h))) ∧
        (∀ o, e.state = some (.owned o) → o ≠ h → o ∉ e.unacked → Completes (.reads h line) s (recalls .s [o])) ∧
        (∀ i ∈ [Instr.readm h line, .upgrade h line],
          ((e.state = none ∧ s.dir.length < 15) ∨ e.state = some (.owned h) ∨ e.state = some (.shared [h]) → Completes i s (granted (.owned h))) ∧
          (∀ o, e.state = some (.owned o) → o ≠ h → o ∉ e.unacked → Completes i s (recalls .m [o])) ∧
          (∀ hs, e.state = some (.shared hs) → (∃ o ∈ hs, o ≠ h) → (∀ o ∈ hs, o ≠ h → o ∉ e.unacked) →
            Completes i s (recalls .m (hs.filter (· ≠ h)))) ∧
          (∀ v, e.state = none → s.victim u = some v → (s.dirEntry v).queue = [] → (s.dirEntry v).recalls = [] → (s.dirEntry v).held ≠ [] →
            (∀ o ∈ (s.dirEntry v).held, o < 32 ∧ o ∉ (s.dirEntry v).unacked) → Completes i s fun t => SameMemory s t ∧ (t.dirEntry v).state = none)))) ∧
    (e.queue = [] → Completes (.grantack h line) s fun t =>
      SameMemory s t ∧ t.dirEntry u = { e with unacked := e.unacked.filter (· ≠ h) } ∧ t.outbox = s.outbox) ∧
    (∀ bytes pois, Calm { s with dir := [], holders := [], classes := [] } → s.quarantined h = false →
      let became := fun (m : List Host.Cell) (x : DirEntry) (t : State) => t.mem = m ∧ t.dirEntry u = x
      let written := if far ∧ bytes.length = 128 then Memory.writeBytes s.mem at_ bytes else s.mem
      (h < 28 →
        (tget? s.holders (key h line) ≠ some .m → Completes (.writeback h line ⟨bytes, pois⟩) s (· = s)) ∧
        (tget? s.holders (key h line) = some .m →
          let left := some (.writeback (s.getBytes at_ 128) (s.payloadMarks at_ 128))
          let runs := fun P => Completes (.writeback h line ⟨bytes, pois⟩) s fun t => SameMemory s t ∧ tget? t.holders (key h line) = left ∧ P t
          (line / 2 ^ 41 = s.pkg → e.state = some (.owned h) → s.unitOf line = [line] → e.queue = [] → runs fun t =>
            t.dirEntry u = { e with state := none } ∧ sends t (s.msg die h h 0x13 at_ [] 0)) ∧
          (line / 2 ^ 41 = s.pkg → e.state ≠ some (.owned h) → runs fun t => t.dirEntry u = e ∧ sends t (s.msg die h h 0x13 at_ [] 0)) ∧
          (line / 2 ^ 41 ≠ s.pkg → runs fun t => sends t (s.msg h home die 0x04 at_ (s.getBytes at_ 128) (s.payloadMarks at_ 128))))) ∧
      (far → line / 2 ^ 41 = s.pkg →
        let ack := s.msg die h s.replyTo.1 0x13 at_ [] 0
        (e.state = some (.owned h) → s.unitOf line = [line] → e.queue = [] → Completes (.writeback h line ⟨bytes, pois⟩) s fun t =>
          became written { e with state := none } t ∧ sends t ack) ∧
        (e.state ≠ some (.owned h) → Completes (.writeback h line ⟨bytes, pois⟩) s fun t => became s.mem e t ∧ sends t ack)) ∧
      (line / 2 ^ 41 = s.pkg → e.state = some (.owned h) → (h, line) ∈ e.recalls → e.queue = [] →
        let rest := e.recalls.filter (· ≠ (h, line))
        let left := { e with state := if ∃ q ∈ rest, q.1 = h then e.state else none, recalls := rest }
        Completes (.recalldata h line ⟨bytes, pois⟩) s (became written left) ∧ Completes (.recallack h line) s (became s.mem left))) ∧
    (h < 28 →
      (∀ excl bytes pois, Completes (.data h line excl ⟨bytes, pois⟩) s fun t =>
        (∀ x ∈ s.unitOf line, tget? t.holders (key h x) = some (if excl then .m else .s)) ∧
        t.mem = (if line / 2 ^ 41 ≠ s.pkg ∧ bytes.length = 128 then Memory.writeBytes s.mem at_ bytes else s.mem) ∧
        sends t (s.msg h home die 0x11 at_ [] 0)) ∧
      (s.shadows = [] →
        let covered := if line / 2 ^ 41 = s.pkg then (s.unitOf line).map fun x => (h, x) else ((List.range 28).filter fun d => tget? s.holders (key d line) ≠ none).map fun d => (d, line)
        let at? := fun q : Nat × Nat => tget? s.holders (key q.1 q.2)
        let back := fun q => ∃ bs ps, at? q = some (.writeback bs ps)
        let answers := fun (ty : Nat) (bytes : List Byte) (pois : Nat) => Completes (.recallLine h line) s fun t =>
          SameMemory s t ∧ sends t (s.msg h home die ty at_ bytes pois) ∧
          ∀ q ∈ covered, (back q → tget? t.holders (key q.1 q.2) = at? q) ∧ (¬back q → tget? t.holders (key q.1 q.2) = none)
        (line / 2 ^ 41 = s.pkg → (∃ q ∈ covered, at? q = some .m ∨ back q) → answers 0x21 [] 0) ∧
        (line / 2 ^ 41 ≠ s.pkg → (∃ q ∈ covered, at? q = some .m) → (∀ q ∈ covered, ¬back q) → answers 0x21 (s.getBytes at_ 128) (s.payloadMarks at_ 128)) ∧
        (∀ d bs ps, line / 2 ^ 41 ≠ s.pkg → covered = [(d, line)] → at? (d, line) = some (.writeback bs ps) → answers 0x21 bs ps) ∧
        ((∀ q ∈ covered, at? q ≠ some .m ∧ ¬back q) → answers 0x22 [] 0))) ∧
    (∀ bs ps, tget? s.holders (key h line) = some (.writeback bs ps) → Completes (.wback h line) s fun t =>
      SameMemory s t ∧ tget? t.holders (key h line) = none ∧ ∀ k, k ≠ key h line → tget? t.holders k = tget? s.holders k)

/-- R204, R371, R375, R383 to R386: an atomic, an uncached read or write and a contribution of another module are performed at their home and answered with the die and TAG
of the request; a partial is forwarded 1 µs after its first contribution, one of another module's window in packets to its home, and an error poisons its sector; an
acknowledgement ends a remote store that no longer waits. -/
def Sys2Proof.RequestsOfOtherModulesArePerformed : Prop :=
  ∀ (s : State) (src pa : Nat), Calm s → s.quarantined (32 + src) = false →
    let sends := fun (t : State) (ty : Nat) (bytes : List Byte) (pois : Nat) =>
      t.outbox = s.outbox ++ [s.msg (homeDie pa) (32 + src) s.replyTo.1 ty pa bytes pois]
    (s.place pa = .device → pa / 2 ^ 48 = s.pkg →
      (∀ op x c md nr, AtomOp.narrow op = false → pa % AtomOp.bytes op = 0 →
        Completes (.atomic src op pa x c md nr) s fun t =>
          let n := AtomOp.bytes op
          let old := leNat (Memory.readBytes s.mem pa n)
          (if nr = true then sends t 0x12 [] 0 else sends t 0x10 (leBytes n old) (s.payloadMarks pa n)) ∧
          t.mem = Memory.writeBytes s.mem pa
            (leBytes n (AtomOp.apply op (if nr = true ∧ s.reducing src pa = true then .rne else md) old x.toNat c.toNat)))) ∧
    (∀ n, n ≠ 0 → HomedHere s pa n → s.agentMay false pa n .load = true → Completes (.uncachedRead src pa n) s fun t =>
      SameMemory s t ∧ sends t 0x10 (s.agentBytes pa n) (s.payloadMarks pa n)) ∧
    (∀ bytes pois, bytes ≠ [] → bytes.length ≤ 128 → s.place pa = .device → HomedHere s pa bytes.length → s.agentMay false pa bytes.length .store = true →
      Completes (.uncachedWrite src pa bytes pois) s fun t =>
        sends t 0x12 [] 0 ∧ t.mem = Memory.writeBytes s.mem pa bytes ∧
        ∀ i, i < bytes.length → pois / 2 ^ (i / 32) % 2 = 1 → t.poisoned (pa + i) = true) ∧
    (∀ op (x : W64) pois ix, s.place pa = .device → s.reducing src pa = true → pa % AtomOp.bytes op = 0 → AtomOp.narrow op = false →
      (src = s.pkg → Completes (.contribution src op pa x pois ix) s fun t =>
        SameMemory s t ∧ ∃ n p, tget? t.partials n = some p ∧ p.line = pa / 128 ∧ p.op = op ∧ p.since = s.time ∧
          tget? p.vals (pa % 128) = some x ∧ (pois = true → pa % 128 / 32 ∈ p.pois) ∧ ∀ a, ix = some a → a ∈ p.acks) ∧
      (src ≠ s.pkg → Completes (.contribution src op pa x pois ix) s fun t =>
        let n := AtomOp.bytes op
        sends t 0x12 [] 0 ∧ t.mem = Memory.writeBytes s.mem pa (leBytes n (AtomOp.apply op .rne (leNat (Memory.readBytes s.mem pa n)) x.toNat 0)))) ∧
    (∀ n p o (v : W64), p.vals = [(o, v)] → AtomOp.narrow p.op = false →
      let s' := { s with partials := [(n, p)] }
      let at_ := p.line * 128 + o
      let k := AtomOp.bytes p.op
      let poisoned := if o / 32 ∈ p.pois then 1 else 0
      (p.since + 1000 ≤ s.time → p.line / 2 ^ 41 = s.pkg → s.place at_ = .device → Completes (.partialForwardTimer n) s' fun t =>
        t.partials = [] ∧ t.mem = Memory.writeBytes s.mem at_ (leBytes k (AtomOp.apply p.op .rne (leNat (Memory.readBytes s.mem at_ k)) v.toNat 0))) ∧
      (p.since + 1000 ≤ s.time → p.line / 2 ^ 41 ≠ s.pkg → o < 128 → Completes (.partialForwardTimer n) s' fun t =>
        SameMemory s t ∧ t.partials = [] ∧
        t.outbox = s.outbox ++ [s.msg (24 + p.quarter) (32 + at_ / 2 ^ 48) (homeDie at_) 0x08 at_ [] poisoned] ∧
        ∃ tag, (tget? t.asks tag).map (·.what) = some (.ack (.hart 129) p.acks)) ∧
      (s.time < p.since + 1000 → Completes (.partialForwardTimer n) s' (· = s')) ∧
      ∀ sector, sector < 4 → Completes (.gladePartialError n sector) s' fun t =>
        SameMemory s t ∧ t.dxpois = s.dxpois + 1 ∧ t.partials = [(n, { p with pois := insertNat sector p.pois })]) ∧
    (∀ n, (s.remoteWaits n = false → (∀ r, tget? s.remote n = some r → r.warp < 2 ^ 40) → Completes (.ack n) s fun t => SameMemory s t ∧ tget? t.remote n = none ∧ ∀ k, k ≠ n → tget? t.remote k = tget? s.remote k) ∧
      (s.remoteWaits n = true → Completes (.ack n) s (· = s)))

/-- R382: PURGE drops an identifier from the directory and answers; PURGEACK ends the quarantine of an identifier when every home has answered; FAILED_PART_RECOVERY
quarantines a failed module, die or hub die, resets what the die or hub die holds, and asks every home to purge it. -/
def Sys2Proof.FailedPartsArePurged : Prop :=
  ∀ (s : State) (id : Nat),
    ((∀ e ∈ s.dir, e.2.queue = []) → (s.dir.map (·.1)).Pairwise (· < ·) → s.slotQueue = [] → Completes (.purge id) s fun t =>
      SameMemory s t ∧ t.outbox = s.outbox ++ [s.msg 24 id s.replyTo.1 0x41 0 [] 0] ∧
      ∀ e ∈ t.dir, e.2.state ≠ some (.owned id) ∧ (∀ hs, e.2.state = some (.shared hs) → id ∉ hs) ∧ id ∉ e.2.unacked ∧ ∀ q ∈ e.2.recalls, q.1 ≠ id) ∧
    (∀ l from_, tget? s.purges id = some l →
      ((∃ x ∈ l, x ≠ from_) → Completes (.purgeack id from_) s fun t => SameMemory s t ∧ tget? t.purges id = some (l.filter (· ≠ from_)) ∧ t.modq = s.modq) ∧
      ((∀ x ∈ l, x = from_) → Completes (.purgeack id from_) s fun t =>
        SameMemory s t ∧ tget? t.purges id = none ∧ (id < 24 ∨ (24 ≤ id ∧ id < 28) ∨ (32 ≤ id ∧ id < 64) → t.quarantined id = false))) ∧
    (let homes := s.pkg :: (List.range 32).filter fun m => m ≠ s.pkg ∧ m + 32 ≠ id ∧ vget 0 s.routes m ≠ 0
     let asked := fun t : State => t.quarantined id = true ∧ tget? t.purges id = some homes ∧
       t.outbox = s.outbox ++ homes.map fun m => s.msg 24 (32 + m) 24 0x40 id [] 0
     (32 ≤ id → id < 64 → id ≠ 32 + s.pkg → NothingThere s [id - 32] → Completes (.failedPartRecovery id) s fun t => SameMemory s t ∧ asked t) ∧
     (id < 24 → (∀ x ∈ s.gangs, ∀ g ∈ x.2.groups ++ x.2.twin, (s.group g).core / 48 ≠ id ∨ (s.group g).stored = true) →
       Completes (.failedPartRecovery id) s fun t =>
         SameMemory s t ∧ asked t ∧ (∀ c, t.core c = if c / 48 = id then Core.reset else s.core c) ∧ (∀ x ∈ t.holders, x.1 / 2 ^ 48 ≠ id) ∧
         ∀ e ∈ t.dir, homeDie (e.1 * 128) ≠ id) ∧
     (24 ≤ id → id < 28 → Completes (.failedPartRecovery id) s fun t =>
       SameMemory s t ∧ asked t ∧ (∀ x ∈ t.holders, x.1 / 2 ^ 48 ≠ id) ∧ (∀ p ∈ t.partials, p.2.quarter ≠ id - 24) ∧
       (∀ i ∈ t.instances, i.quarter ≠ id - 24) ∧ ∀ x ∈ t.side, x.blk % 4 ≠ id - 24))

/-- R204, R364 to R386: links, directory, requests of other modules, and failed parts. -/
def Obligations.FabricStepsKeepLinesAndAnswerRequests : Prop :=
  PortsAcknowledgeResendAndFail ∧ TheDirectoryGrantsAndRecalls ∧ RequestsOfOtherModulesArePerformed ∧ FailedPartsArePurged

/-! ## Collectives, shuffles and twins: the hardware's own steps -/

/-- R382, R391, R392: JOIN opens an instance, joins one that agrees, waits for a full quarter, or is refused with ERR 1 or 6, and one of a quarantined module is dropped;
COLLECTIVE_PULL of a full instance combines a chunk, writes it to every receiver, and with the last chunk closes the instance. A receiver that joins after the first
chunk gets those that it has missed first. -/
def Sys2Proof.InstancesGatherPullAndClose : Prop :=
  ∀ s : State,
    (∀ j : JoinPkt,
      let q := j.id % 4
      let mine := { j with warp := none }
      let refused := fun err => Completes (.join j) s fun t =>
        SameMemory s t ∧ t.outbox = s.outbox ++ [s.collMsg j.pkg (.joinDone j.id j.opId err)] ∧ t.instances = s.instances
      let found := s.instances.find? fun i => i.first.id = j.id
      (s.quarantined (32 + j.pkg) = true → Completes (.join j) s (· = s)) ∧
      (s.quarantined (32 + j.pkg) = false →
        ((q, j.id) ∈ s.closedIds → refused 6) ∧
        ((q, j.id) ∉ s.closedIds →
          (∀ i, found = some i → joinSame i.first mine = false → refused 1) ∧
          (∀ i, found = some i → joinSame i.first mine = true → Completes (.join j) s fun t =>
            let enters := fun x : Instance =>
              let missed := x.chunk ≠ 0 ∧ j.dst ≠ [] ∧ (x.first.mode % 2 = 1 ∨ j.index = x.first.root)
              { x with joined := x.joined ++ [mine], late := if missed then x.late ++ [(mine, 0)] else x.late }
            SameMemory s t ∧ t.instances = s.instances.map fun x => if x.first.id = j.id then enters x else x) ∧
          (found = none →
            ((s.instances.filter fun i => i.quarter = q).length < 256 → Completes (.join j) s fun t =>
              SameMemory s t ∧ t.instances = s.instances ++ [⟨q, mine, [mine], 0, [], []⟩]) ∧
            (256 ≤ (s.instances.filter fun i => i.quarter = q).length → Completes (.join j) s fun t =>
              SameMemory s t ∧ t.instances = s.instances ∧ t.joinWait = s.joinWait ++ [mine]))))) ∧
    (∀ q id i, (s.instances.find? fun i => i.quarter = q && i.first.id = id) = some i → (∀ x ∈ s.instances, x.first.id = id → x = i) →
      (∀ ix, ix < i.first.p → ∃ j ∈ i.joined, j.index = ix) → Calm s →
      let n := Nat.min 256 (joinBytes i.first - 256 * i.chunk)
      let r := s.chunkResult i n
      let to_ := i.joined.filter fun j => j.dst ≠ [] ∧ (i.first.mode % 2 = 1 ∨ j.index = i.first.root)
      let at_ := fun (j : JoinPkt) c => j.dst.getD c 0
      s.joinWait = [] →
      (i.late = [] → (∀ j ∈ to_, s.place (at_ j i.chunk) = .device ∧ HomedHere s (at_ j i.chunk) n) →
        (∀ j ∈ i.joined, j.xred = true ∨ j.index = j.root → HomedHere s (j.src.getD i.chunk 0) n) → 256 * i.chunk < joinBytes i.first → Completes (.collectivePull q id) s fun t =>
        t.mem = to_.foldl (fun m j => Memory.writeBytes m (at_ j i.chunk) r.1) s.mem ∧
        if 256 * (i.chunk + 1) < joinBytes i.first then
          t.instances = s.instances.map fun x => if x.first.id = id then { x with chunk := x.chunk + 1, out := x.out ++ [r] } else x
        else
          t.instances = (s.instances.filter fun x => x.first.id ≠ id) ∧ (q, id) ∈ t.closedIds ∧
          (∀ j ∈ i.joined, j.warp = none → s.collMsg j.pkg (.joinDone j.id j.opId 0) ∈ t.outbox) ∧
          ∀ j ∈ i.joined, j.warp ≠ none → ∀ k, ∀ o ∈ (t.warp k).collQ, o.opId = j.opId → o.fin = true) ∧
      (∀ j c rest, i.late = (j, c) :: rest → 256 * i.chunk < joinBytes i.first → (i.out.getD c ([], [])).1.length ≤ 256 →
        s.place (at_ j c) = .device → HomedHere s (at_ j c) 256 →
        Completes (.collectivePull q id) s fun t =>
          t.mem = Memory.writeBytes s.mem (at_ j c) (i.out.getD c ([], [])).1 ∧
          t.instances = s.instances.map fun x =>
            if x.first.id = id then { x with late := (if c + 1 < i.chunk then [(j, c + 1)] else []) ++ rest } else x))

/-- R382, R393 to R395, R405: ADVERT and WITHDRAW set and clear the HOLD bit of a module, and are acknowledged, unless the module is quarantined; SIDE_ACK completes an XSIDE
with the last of the acknowledgements that it waits for. -/
def Sys2Proof.SideInformationIsAdvertised : Prop :=
  ∀ (s : State) (m ctx blk : Nat), m < 32 →
    let bit := BitVec.ofNat 32 (2 ^ m)
    let done := fun (t : State) (e : Option SideEntry) =>
      SameMemory s t ∧ t.sideEntry ctx blk = e ∧ t.outbox = s.outbox ++ [s.collMsg m (.sideAck ctx blk)] ∧
      ∀ c b, (c ≠ ctx ∨ b ≠ blk) → t.sideEntry c b = s.sideEntry c b
    (s.quarantined (32 + m) = true → ∀ i ∈ [Instr.advert m ctx blk, .withdraw m ctx blk], Completes i s (· = s)) ∧
    (s.quarantined (32 + m) = false →
      (∀ e, s.sideEntry ctx blk = some e →
        Completes (.advert m ctx blk) s (done · (some { e with hold := e.hold ||| bit })) ∧
        Completes (.withdraw m ctx blk) s (done ·
          (if e.hold &&& ~~~bit = 0 ∧ e.kind = .none then none else some { e with hold := e.hold &&& ~~~bit }))) ∧
      (s.sideEntry ctx blk = none →
        ((s.side.filter fun e => e.blk % 4 = blk % 4).length < 65536 → Completes (.advert m ctx blk) s (done · (some ⟨ctx, blk, bit, .none⟩))) ∧
        (65536 ≤ (s.side.filter fun e => e.blk % 4 = blk % 4).length → Completes (.advert m ctx blk) s (done · none)) ∧
        Completes (.withdraw m ctx blk) s (done · none))) ∧
    (∀ w opId, Completes (.sideAck w opId m) s fun t =>
      SameMemory s t ∧ ∀ k, (t.warp k).collQ = (s.warp k).collQ.map fun o =>
        if o.opId = opId ∧ o.kind = .xside then
          { o with left := o.left.erase m, fin := o.fin || decide (o.left.erase m = []) }
        else o)

/-- R396 to R400, R405, R406: PLAN_DIGEST keeps a digest, and one that differs ends the plan with ERR 1; PACKET_FORMATION sends the first transfer of an agreed plan that is not
sent, or tells its destination that the block is missing; CODED_PACKET decodes this module's transfer and writes it once, or counts a miss; FALLBACKREQ sends a block again,
and TRANSFERACK notes an acknowledgement. -/
def Sys2Proof.PlansSendDecodeAndAcknowledge : Prop :=
  ∀ (s : State) (ctx id : Nat),
    let state := fun (t : State) (i : Nat) (st : XferState) =>
      ∀ p, t.plan? ctx id = some p → ∀ x, p.xfers[i]? = some x → x.state = st
    let block := fun blk bs ps =>
      s.blockBytes ctx blk = some (bs, ps) ∧ bs.length = 256 ∧ ps.length = 8 ∧ ∀ pa, s.sideKind ctx blk = .mem pa → HomedHere s pa 256
    (∀ m d, (ctx, id, m) ∈ s.digestsDue → Completes (.planDigest ctx id m d) s fun t => t = { s with digestsDue := s.digestsDue.erase (ctx, id, m) }) ∧
    (s.plan? ctx id = none → ∀ m d, (ctx, id, m) ∉ s.digestsDue → Completes (.planDigest ctx id m d) s fun t =>
      SameMemory s t ∧ t.plans = s.plans ∧ (ctx, id, m, d) ∈ t.digests) ∧
    (∀ p, s.plan? ctx id = some p →
      (∀ m d, (ctx, id, m) ∉ s.digestsDue → m ∈ p.named → m ≠ s.pkg → d ≠ p.digest → Completes (.planDigest ctx id m d) s fun t =>
        SameMemory s t ∧ t.plan? ctx id = none ∧ ∀ o ∈ p.ops, ∀ k, ∀ c ∈ (t.warp k).collQ, c.opId = o → c.fin = true) ∧
      (∀ m, (ctx, id, m) ∉ s.digestsDue → (∀ y ∈ p.digests, y.2 = p.digest) → (∃ x ∈ p.xfers, x.src = s.pkg ∧ x.state = .waiting) →
        Completes (.planDigest ctx id m p.digest) s fun t =>
          SameMemory s t ∧ ∃ p', t.plan? ctx id = some p' ∧ tget? p'.digests m = some p.digest ∧ p'.xfers = p.xfers) ∧
      (∀ i x, p.agreed s.pkg = true → p.xfers[i]? = some x → x.src = s.pkg → x.state = .waiting →
        (∀ k y, k < i → p.xfers[k]? = some y → ¬(y.src = s.pkg ∧ y.state = .waiting)) →
        (∀ bs ps, Calm s → p.nocode = true → block x.blk bs ps → Completes (.packetFormation ctx id) s fun t =>
          SameMemory s t ∧ t.outbox = s.outbox ++ [s.collMsg x.dst (.coded ⟨ctx, id, s.pkg, [(x.blk, i)], bs, ps⟩)] ∧ state t i .sent) ∧
        (s.sideKind ctx x.blk = .none → Completes (.packetFormation ctx id) s fun t =>
          SameMemory s t ∧ t.outbox = s.outbox ++ [s.collMsg x.dst (.transferFail ctx id i)] ∧ state t i .failed)) ∧
      (∀ i x to_, p.xfers[i]? = some x → x.src ≠ s.pkg ∨ x.state ≠ .sent ∨ p.agreed s.pkg = false → Completes (.fallbackreq ctx id i to_) s (· = s)) ∧
      (∀ i x to_, p.xfers[i]? = some x → x.src = s.pkg → x.state = .sent → p.agreed s.pkg = true →
        (∀ bs ps, Calm s → block x.blk bs ps → Completes (.fallbackreq ctx id i to_) s fun t =>
          SameMemory s t ∧ t.outbox = s.outbox ++ [s.collMsg x.dst (.coded ⟨ctx, id, s.pkg, [(x.blk, i)], bs, ps⟩)] ∧ state t i .sent) ∧
        (s.sideKind ctx x.blk = .none → Completes (.fallbackreq ctx id i to_) s fun t =>
          SameMemory s t ∧ t.outbox = s.outbox ++ [s.collMsg x.dst (.transferFail ctx id i)] ∧ state t i .failed)) ∧
      (∀ i x missed, p.xfers[i]? = some x → (x.src = s.pkg → x.state ≠ .failed → Completes (.transferack ctx id i missed) s fun t =>
          SameMemory s t ∧ state t i .acked) ∧
        (x.src ≠ s.pkg → x.dst = s.pkg → x.state.takeDone = false → Completes (.transferack ctx id i missed) s fun t =>
          SameMemory s t ∧ state t i .failed)) ∧
      (∀ (k : CodedPkt) i x, k.ctx = ctx → k.plan = id → p.xfers[i]? = some x → x.dst = s.pkg → x.state.takeDone = false →
        (k.blocks.find? fun b => (p.xfers.getD b.2 ⟨0, 0, 32, 0, .waiting⟩).dst = s.pkg) = some (x.blk, i) → s.pkg < 32 →
        let others := k.blocks.filter fun c => c.2 ≠ i
        ((∀ c ∈ others, s.sideKind ctx c.1 ≠ .none ∧ ∀ pa, s.sideKind ctx c.1 = .mem pa → HomedHere s pa 256) → Calm s → s.place x.dpa = .device →
          HomedHere s x.dpa 256 → Completes (.codedPacket k) s fun t =>
          let sum := (others.filterMap fun c => s.blockBytes ctx c.1).foldl (fun acc c => (xorBytes acc.1 c.1, orFlags acc.2 c.2)) (k.payload, k.poisoned)
          t.mem = Memory.writeBytes s.mem x.dpa sum.1 ∧ t.outbox = s.outbox ++ [s.collMsg k.src (.transferAck ctx id i false)] ∧ state t i .written) ∧
        ((∃ c ∈ others, s.sideKind ctx c.1 = .none) → p.missCap = 0 → Completes (.codedPacket k) s fun t =>
          SameMemory s t ∧ t.xqMisses = (s.xqMisses + 1) % 2 ^ 32 ∧
          (p.strict = true → t.outbox = s.outbox ++ [s.collMsg k.src (.transferAck ctx id i true)] ∧ state t i .missed) ∧
          (p.strict = false → t.outbox = s.outbox ++ [s.collMsg k.src (.fallbackReq ctx id i)] ∧ state t i x.state))))

/-- R354 to R357: at TWIN_MATCH two copies that stand at the same release point with different signatures have their gang killed with reason 2; with equal ones the writes that
were held are performed once, and both windows begin anew. At a forced point both windows end after as many records as the copy that forced it has, or the one of two with fewer:
the signatures of those decide, and what comes after them stands in the next windows. -/
def Sys2Proof.TwinsMatchOrAreKilled : Prop :=
  ∀ (s : State) (w v : Nat) (x y : PairWin), (s.warp w).win = some x → (s.warp v).win = some y → s.twinOf w = some v → w ≠ v →
    s.live w = true → s.live v = true → x.points = y.points → x.drain = [] → y.drain = [] → x.due = false → y.due = false →
    let g := (s.groupOf w).grid * 2 ^ 32 + (s.groupOf w).gang
    let killed := Completes (.twinMatch w v) s fun t => tget? t.grids (g / 2 ^ 32) = none ∨ (t.gang g).killed = some 2
    let first := if (s.groupOf w).copy = 0 then x else y
    let done := fun (hs : List HeldWrite) (mine its : PairWin) => Calm s → (∀ k ∈ [w, v], s.ost k + hs.length ≤ 255) →
      (∀ h ∈ hs, h.op = none ∧ s.place h.pa = .device ∧ HomedHere s h.pa h.bytes.length) →
      Completes (.twinMatch w v) s fun t =>
        t.mem = hs.foldl (fun m h => Memory.writeBytes m h.pa h.bytes) s.mem ∧ (t.warp w).win = some mine ∧ (t.warp v).win = some its
    (x.forced = false → y.forced = false → x.atPoint = true → y.atPoint = true →
      (x.sig ≠ y.sig ∨ x.count ≠ y.count → killed) ∧
      (x.sig = y.sig → x.count = y.count →
        let fresh := fun (z : PairWin) => { z with sig := 0, count := 0, recs := [], held := [], points := z.points + 1, atPoint := false
                                                   passed := !z.engine, forced := false, engine := false }
        done first.held (fresh x) (fresh y))) ∧
    (∀ n, (x.forced = true ∧ y.forced = true ∧ n = Nat.min x.count y.count) ∨ (x.forced = true ∧ y.forced = false ∧ n = x.count ∧ n ≤ y.count) ∨
        (x.forced = false ∧ y.forced = true ∧ n = y.count ∧ n ≤ x.count) →
      let part := fun (k : Nat) (z : PairWin) => sigOf (s.warp k).index (z.recs.take n)
      (part w x ≠ part v y → killed) ∧
      let after := fun (k : Nat) (z : PairWin) => { z.cut (s.warp k).index n with drain := [], passed := false }
      (part w x = part v y → done (first.held.filter fun h => h.seq < n) (after w x) (after v y))) ∧
    (x.forced = true → y.forced = false → y.count < x.count → y.atPoint = true → killed) ∧
    (x.forced = false → y.forced = true → x.count < y.count → x.atPoint = true → killed)

/-- R89, R354 to R357, R391 to R406: collectives, side information, shuffle plans and twins. -/
def Obligations.CollectiveStepsCombineSendAndMatch : Prop :=
  InstancesGatherPullAndClose ∧ SideInformationIsAdvertised ∧ PlansSendDecodeAndAcknowledge ∧ TwinsMatchOrAreKilled


/-! ## The platform -/

/-- R410 to R412: a frame that fails its FCS, is longer than 9,216 bytes or matches no flow is discarded and counted; a frame of a flow takes the FREE slot at the fill
cursor, which is FAULTED when its tag check fails, waits in the port, or is dropped and counted; a pause follows 2 µs of starvation, is repeated each 20 µs, and ends after
1 ms with what waits dropped. -/
def Sys2Proof.FramesFillSlotsWaitOrPause : Prop :=
  ∀ (s : State) (port : Nat),
    let e := s.ethPort port
    let port_ := fun (t : State) (e' : EthPort) => t = { s with eth := t.eth } ∧ t.ethPort port = e' ∧ ∀ p, p ≠ port → t.ethPort p = s.ethPort p
    let counted := fun (t : State) (k word n : Nat) =>
      vget 0 (t.flow k) word = vget 0 (s.flow k) word + BitVec.ofNat 64 n
    (∀ bytes fails, Completes (.frameReceive port bytes false fails) s (port_ · { e with fcsErrors := e.fcsErrors + 1 })) ∧
    (∀ bytes fails, 9216 < bytes.length → Completes (.frameReceive port bytes true fails) s (port_ · { e with tooLong := e.tooLong + 1 })) ∧
    (∀ bytes fails, bytes.length ≤ 9216 → (∀ f, f < 64 → flowMatches (vget 0 (s.flow (port * 64 + f)) 0) bytes = false) →
      Completes (.frameReceive port bytes true fails) s (port_ · { e with unmatched := e.unmatched + 1 })) ∧
    (∀ bytes fails f, bytes.length ≤ 9216 → f < 64 → (∀ j, j < 64 → flowMatches (vget 0 (s.flow (port * 64 + j)) 0) bytes = true → f ≤ j) →
      flowMatches (vget 0 (s.flow (port * 64 + f)) 0) bytes = true →
      let k := port * 64 + f
      let bad := (List.range 73).filter fun n => fails.testBit (n + 1)
      let stands := fun slot : Option Nat => (⟨k, bytes, s.time, fails != 0, bad, slot⟩ : Frame)
      let drops := Completes (.frameReceive port bytes true fails) s fun t => t = { s with flows := t.flows } ∧ counted t k 2 1
      (s.flowFree k = false → k ∈ e.abandoned → drops) ∧ (8388608 < e.bytes + bytes.length → drops) ∧
      (s.flowFree k = false → k ∉ e.abandoned → e.bytes + bytes.length ≤ 8388608 → (∀ x ∈ e.frames, x.flow = k → x.slot = none) →
        Completes (.frameReceive port bytes true fails) s fun t =>
          t = { s with eth := t.eth } ∧ (t.ethPort port).frames = e.frames ++ [stands none] ∧
          tget? (t.ethPort port).starve k = some ((tget? e.starve k).getD s.time)) ∧
      (∀ g b c i c', s.flowGroup k = some (g, b) → s.cb? g b = some c → (c.slot c.fcur).state = .free → c.fcur < c.slots.length →
        s.flowReady k = true → c.reach true = some (i, c') → e.bytes + bytes.length ≤ 8388608 → (∀ x ∈ e.frames, x.flow ≠ k) → tget? e.starve k = none → Calm s →
        let va := c.address i
        let n := 64 + bytes.length
        ∀ pa size nc, s.walk ((s.group g).core / 48) (s.grid (s.group g).grid).ctx va .engWrite = .ok pa size nc → va.toNat % 4096 + n ≤ 4096 →
          s.agentMay false pa n .store = true → s.place pa = .device → HomedHere s pa n →
          Completes (.frameReceive port bytes true fails) s fun t =>
            t.mem = Memory.writeBytes s.mem pa (frameHead (stands none) false ++ bytes) ∧
            (fails = 0 → counted t k 1 1) ∧
            (fails ≠ 0 → (t.ethPort port).frames = e.frames ++ [stands (some i)] ∧ ∃ x, t.cb? g b = some x ∧ (x.slot i).state = .faulted))) ∧
    (∀ pcp, let ks := s.starving port pcp
      let pauses := fun (t : State) q => t = { s with eth := t.eth, flows := t.flows, outbox := s.outbox ++ [.pause port pcp q] } ∧ ∀ k ∈ ks, counted t k 3 1
      ks.Nodup →
      (tget? e.paused pcp = none → (∃ k ∈ ks, tget 0 e.starve k + 2000 ≤ s.time) → Completes (.pauseStart port pcp) s fun t =>
        pauses t 0xFFFF ∧ tget? (t.ethPort port).paused pcp = some s.time) ∧
      ((∀ k ∈ ks, s.time < tget 0 e.starve k + 2000) → Completes (.pauseStart port pcp) s (· = s)) ∧
      (∀ u, tget? e.paused pcp = some u → ks ≠ [] →
        (u + 20000 ≤ s.time → Completes (.pauseRepeat port pcp) s fun t => pauses t 0xFFFF ∧ tget? (t.ethPort port).paused pcp = some s.time) ∧
        (s.time < u + 20000 → Completes (.pauseRepeat port pcp) s (· = s))) ∧
      let old := ks.filter fun k => tget 0 e.starve k + 1000000 ≤ s.time
      (old ≠ [] → Completes (.pauseAbandon port pcp) s fun t =>
        t = { s with eth := t.eth, flows := t.flows, outbox := s.outbox ++ [.pause port pcp 0] } ∧
        (t.ethPort port).frames = (e.frames.filter fun x => x.flow ∉ old) ∧ (t.ethPort port).abandoned = e.abandoned ++ old ∧
        ∀ k ∈ old, counted t k 2 (e.frames.filter fun x => x.flow = k).length ∧ counted t k 3 1))

/-- R408, R413: a PCIe request reaches the physical map at the base that dxpcw holds. A read answers the bytes, with EP for poison; a write is performed, and with EP poisons what
it writes; one whose address is unbacked, or that its place does not allow, answers Unsupported Request. One that arrives while others wait, or while a checkpoint is written,
stands behind them. -/
def Sys2Proof.PcieReadsAndWritesTheMap : Prop :=
  ∀ (s : State) (addr : Nat),
    let pa := s.dxpcw.toNat / 2 ^ 36 % 2 ^ 17 * 2 ^ 36 + addr % 2 ^ 36
    let free := s.pcieQ = [] ∧ s.imaging = false
    (∀ n, 0 < n → n ≤ 4096 →
      (free → s.agentMay false pa n .load = false → Completes (.pcieRead addr n) s fun t => t = { s with outbox := s.outbox ++ [.pcie true false []] }) ∧
      (free → s.agentMay false pa n .load = true → HomedHere s pa n → Calm s → Completes (.pcieRead addr n) s fun t =>
        t = { s with outbox := s.outbox ++ [.pcie false (s.poisonedIn pa n) (s.agentBytes pa n)] }) ∧
      (s.imaging = true → Completes (.pcieRead addr n) s fun t => t = { s with pcieQ := s.pcieQ ++ [.read pa n] })) ∧
    (∀ bytes ep, bytes ≠ [] → bytes.length ≤ 4096 →
      (free → s.agentMay false pa bytes.length .store = false → Completes (.pcieWrite addr bytes ep) s fun t =>
        t = { s with outbox := s.outbox ++ [.pcie true false []] }) ∧
      (free → s.agentMay false pa bytes.length .store = true → HomedHere s pa bytes.length → Calm s → s.place pa = .device →
        Completes (.pcieWrite addr bytes ep) s fun t =>
          t.mem = Memory.writeBytes s.mem pa bytes ∧ t.outbox = s.outbox ∧
          (ep = true → ∀ i, i < bytes.length → holdsPoison (pa + i) = true → t.poisoned (pa + i) = true)) ∧
      (s.imaging = true → Completes (.pcieWrite addr bytes ep) s fun t => t = { s with pcieQ := s.pcieQ ++ [.write pa bytes ep] }))

/-- R414: an arithmetic clock is accepted: no multiple of it, and none of twice it, up to the fifteenth, lies within an enabled band. -/
def Sys2Proof.ClockAccepted (bands : Vector W64 16) (f : Nat) : Prop :=
  ∀ v ∈ bands.toList, v.getLsbD 63 = true → ∀ k, 1 ≤ k → k ≤ 15 → ∀ g ∈ [f, 2 * f], ¬(v.toNat / 2 ^ 32 % 2 ^ 31 ≤ k * g ∧ k * g ≤ v.toNat % 2 ^ 32)

/-- R329, R361, R383, R409, R414, R418: the registers that a hart of sufficient mode writes keep the fields of their layouts: dxfq only without entries and with a size of its ring,
dxsnap only without a snapshot in progress. A write of a band runs the generator, which chooses the accepted clock nearest 800 MHz, the lower one on a tie. -/
def Sys2Proof.ConfigurationRegistersTakeTheirFields : Prop :=
  ∀ (s : State) (v : W64),
    (if s.pend = 0 ∧ s.heldFaults = [] ∧ v.toNat % 16 < 8
      then Completes (.dxfqWrite v) s fun t => t = { s with dxfq := v &&& 0x001FFFFFFFFFF00F, ringWritten := 0 }
      else Completes (.dxfqWrite v) s (· = s)) ∧
    (if s.snapAt = none then Completes (.dxsnapWrite v) s fun t => t = { s with dxsnap := v &&& 0x001FFFFFFFFFF001 }
      else Completes (.dxsnapWrite v) s (· = s)) ∧
    (∀ n, n < 16 → s.partials = [] → Completes (.dxrwWrite n v) s fun t =>
      t = { s with dxrw := t.dxrw } ∧ (∀ m, m < 16 → m ≠ n → vget 0 t.dxrw m = vget 0 s.dxrw m) ∧
      let size := v.toNat / 16 % 64
      let w := vget 0 t.dxrw n
      w &&& 0xFFFF = v &&& 0x3F3 ∧ w.toNat / 2 ^ 16 =
        if 16 ≤ size ∧ size ≤ 40 then v.toNat % 2 ^ 53 / 2 ^ size * 2 ^ (size - 16) else v.toNat % 2 ^ 53 / 2 ^ 16) ∧
    (∀ n, n < 16 →
      let bs := vset s.bands n v
      let band := fun t : State => SameMemory s t ∧ t.bands = bs ∧ t.clkMhz = s.clkMhz
      (∀ f, 760 ≤ f → f ≤ 840 → ClockAccepted bs f →
        (∀ g, 760 ≤ g → g ≤ 840 → ClockAccepted bs g →
          (f - 800) + (800 - f) < (g - 800) + (800 - g) ∨ (f - 800) + (800 - f) = (g - 800) + (800 - g) ∧ f ≤ g) →
        Completes (.bandWrite n v) s fun t => band t ∧ t.clkFail = s.clkFail ∧ t.clkNext = if f = s.clkMhz then none else some f) ∧
      ((∀ f, 760 ≤ f → f ≤ 840 → ¬ClockAccepted bs f) →
        Completes (.bandWrite n v) s fun t => band t ∧ t.clkFail = (s.clkFail + 1) % 2 ^ 16 ∧ t.clkNext = s.clkNext)) ∧
    (∀ f, s.clkNext = some f → 0 < f → s.untilLatch = none → Completes .clockPlanChange s fun t =>
      SameMemory s t ∧ t.clkMhz = f ∧ t.clkNext = none ∧ t.ps = s.ps + 50000000 ∧ t.cycles = (s.cycles + 50 * f) % 2 ^ 64) ∧
    Completes .bootClr s (fun t => t = { s with bootAttempts := 0 }) ∧
    (let k := s.selectedFlow
     let word := fun (t : State) (w : W64) => vget 0 (t.flow k) 0 = w ∧ (∀ i, 0 < i → i < 4 → vget 0 (t.flow k) i = vget 0 (s.flow k) i) ∧ SameMemory s t
     let v1 := v &&& 0xFFFFFFF00000FFFF
     (s.dxflsel.toNat / 2 ^ 9 % 4 ≠ 0 → Completes (.flowBind v) s (· = s)) ∧
     (s.dxflsel.toNat / 2 ^ 9 % 4 = 0 → v.getLsbD 63 = false →
       Completes (.flowBind v) s fun t => word t v1 ∧ ∀ g b c, s.flowGroup k = some (g, b) → t.cb? g b = some c → k ∉ c.ingest) ∧
     (s.dxflsel.toNat / 2 ^ 9 % 4 = 0 → (vget 0 (s.flow k) 0).getLsbD 63 = false → s.flowGroup k = none →
       (∀ g c, s.bindable v1 = some (g, c) → v.getLsbD 63 = true → Completes (.flowBind v) s fun t =>
         word t v1 ∧ ∃ c', t.cb? g (flowCb v1) = some c' ∧ k ∈ c'.ingest) ∧
       (s.bindable v1 = none → v.getLsbD 63 = true → Completes (.flowBind v) s (word · (v1 &&& 0x7FFFFFFFFFFFFFFF))))) ∧
    (∀ h n, h < 68 → s.hartRuns h = true → (s.hart h).waiting = none → (s.hart h).tx = none →
      let mode := (s.hart h).mode
      let super := (0x5C0 ≤ n ∧ n ≤ 0x5C7) ∨ n = 0x5CA ∨ (0x5D0 ≤ n ∧ n ≤ 0x5DF)
      let machine := n = 0x5C8 ∨ n = 0x5C9 ∨ (0x5E0 ≤ n ∧ n ≤ 0x5EF)
      ((super ∧ mode = .u) ∨ (machine ∧ mode ≠ .m) ∨ (0xDC0 ≤ n ∧ n ≤ 0xDC7) →
        Completes (.csrWrite h n v) s fun t => SameMemory s t ∧ HartTrapped s t h 2 0) ∧
      ((super ∧ mode ≠ .u) ∨ (machine ∧ mode = .m) → (n = 0x5CA ∨ 0x5D0 ≤ n ∧ n ≤ 0x5DF → Calm s) → (n = 0x5C6 → NothingThere s [s.dxrtsel]) →
        Completes (.csrWrite h n v) s fun t =>
        (∀ k, k ≠ h → t.hart k = s.hart k) ∧
        t.hart h = { s.hart h with pc := (s.hart h).pc + 4, waiting := none, minstret := (s.hart h).minstret + 1, dxctx := if n = 0x5C1 then v.toNat % 2 ^ 16 else (s.hart h).dxctx } ∧
        (n = 0x5C0 → t.dxctb = v &&& 0x001FFFFFFFFFF001) ∧ (n = 0x5C4 → t.dxflsel = v &&& 0x7FF) ∧ (n = 0x5C5 → t.dxrtsel = v.toNat % 32) ∧
        (n = 0x5C6 → s.dxrtsel < 32 → vget 0 t.routes s.dxrtsel = v) ∧ (n = 0x5C8 → t.bootAttempts = if v.getLsbD 63 then 0 else s.bootAttempts) ∧
        (n = 0x5C9 → t.dxpcw = v &&& 0x001FFFF000000000)))

/-- R372, R373: dxobj is ignored while BUSY; a write of it with OP 01 or 10 sets BUSY, and notes the result that the checks give; once no unit of the object has a holder the table changes,
RESULT is set and BUSY clears. -/
def Sys2Proof.ObjectsAreRegisteredAndRemoved : Prop :=
  ∀ (s : State) (v : W64),
    let rec_ := v.toNat / 64 % 2 ^ 47 * 64
    let bs := s.getBytes rec_ 64
    let r := Shape.read bs
    let began := fun (op : Nat) (reg : Bool) (res : Nat) (t : State) =>
      t.dxobj = (v &&& 0x001FFFFFFFFFFFC0) + BitVec.ofNat 64 op + 0x8000000000000000 ∧ t.objects = s.objects ∧ t.mem = s.mem ∧
      ∃ p, t.objPending = some p ∧ p.register = reg ∧ p.result = res
    (s.dxobj.getLsbD 63 = true → Completes (.dxobjRegister v) s (· = s) ∧ Completes (.dxobjRemove v) s (· = s)) ∧
    (s.dxobj.getLsbD 63 = false → Calm s → s.place rec_ = .device → s.poisonedIn rec_ 64 = false →
      (r.malformed bs = true → Completes (.dxobjRegister v) s (began 1 true 1)) ∧
      (r.malformed bs = false → ∀ n, s.objTry r = .bad n → Completes (.dxobjRegister v) s (began 1 true n)) ∧
      (r.malformed bs = false → ∀ o, s.objTry r = .ok o → Completes (.dxobjRegister v) s fun t => began 1 true 0 t ∧ t.objPending = some ⟨true, 0, o⟩) ∧
      ((∀ o ∈ s.objects, ¬(o.base = r.base ∧ o.ctx = r.ctx)) → Completes (.dxobjRemove v) s (began 2 false 5)) ∧
      (∀ o, (s.objects.find? fun o => o.base = r.base && o.ctx = r.ctx) = some o →
        Completes (.dxobjRemove v) s fun t => began 2 false 0 t ∧ t.objPending = some ⟨false, 0, o⟩)) ∧
    (∀ p, s.objPending = some p → p.result ≠ 0 ∨ Calm s → p.result < 8 → Completes .dxobjComplete s fun t =>
      t.objPending = none ∧ t.dxobj.getLsbD 63 = false ∧ t.dxobj.toNat / 2 ^ 60 % 8 = p.result ∧ t.mem = s.mem ∧
      t.objects = if p.result ≠ 0 then s.objects else if p.register then s.objects ++ [p.obj] else s.objects.filter (· ≠ p.obj))

/-- R329, R361, R372, R373, R383, R408 to R418: ingest, PCIe, the configuration registers, coherence objects and the clock plan. -/
def Obligations.PlatformInterfacesActAsConfigured : Prop :=
  FramesFillSlotsWaitOrPause ∧ PcieReadsAndWritesTheMap ∧ ConfigurationRegistersTakeTheirFields ∧ ObjectsAreRegisteredAndRemoved

/-- R416: above 24,000 A or 15 kW the throttle starts and is counted; it ends once both have stayed below 20,000 A and 15 kW for 10 µs. -/
def Sys2Proof.PowerThrottles : Prop :=
  ∀ s : State,
    (∀ a w, Completes (.powerSample a w) s fun t =>
      t = { s with amps := a, throttle := t.throttle, thrEvents := t.thrEvents, quietSince := t.quietSince } ∧
      t.quietSince = (if a < 20000 ∧ w < 15000 then some (s.quietSince.getD s.time) else none) ∧
      if s.throttle = false ∧ (24000 < a ∨ 15000 < w) then t.throttle = true ∧ t.thrEvents = (s.thrEvents + 1) % 2 ^ 32
      else t.throttle = s.throttle ∧ t.thrEvents = s.thrEvents) ∧
    Completes .throttleEnd s (fun t =>
      t = { s with throttle := s.throttle && !((s.quietSince.map fun u => decide (u + 10000 ≤ s.time)).getD false) })

/-- R360 to R362, R419: a trigger with EN and not BUSY starts a snapshot 2 µs ahead; at that time the record of each core is latched; with the records in memory BUSY
clears and COUNT rises. -/
def Sys2Proof.SnapshotsAreLatchedAndWritten : Prop :=
  ∀ s : State,
    (∀ i ∈ [Instr.snaptrig, .smbusSnapshot], Completes i s fun t =>
      t = { s with snapAt := if s.dxsnap.getLsbD 0 = true ∧ s.snapAt = none then some (s.time + 2000) else s.snapAt }) ∧
    (∀ T, s.snapAt = some T → s.snapLatched = none → if s.time < T then Completes .snapshotLatch s (· = s) else
      Completes .snapshotLatch s fun t => t = { s with snapLatched := t.snapLatched } ∧ ∃ recs, t.snapLatched = some recs ∧ recs.length = 1152 ∧
        ∀ c, c < 1152 → ∃ ws, recs[c]? = some (c, ws) ∧ ws.length = 72 ∧
          ws[0]? = some (BitVec.ofNat 64 T) ∧ ws[1]? = some (BitVec.ofNat 64 (s.coreClk c)) ∧ ws[2]? = some (s.core c).issues ∧
          (∀ x, ws[3]? = some x → (x.getLsbD 0 = s.stalled c) ∧ (x.getLsbD 1 = true ↔ ∃ g ∈ s.groups, g.2.core = c ∧ g.2.stored = false ∧ s.stopping g.1 = true) ∧
            (x.getLsbD 2 = true ↔ true ∈ (s.core c).oos.toList)) ∧
          ∀ i, i < 64 → ∃ x, ws[8 + i]? = some x ∧
            let w := s.warp (c * 64 + i)
            let alive := (tget? s.warps (c * 64 + i)).isSome = true ∧ ∃ L, L < 32 ∧ (w.thread L).status ≠ .exited
            (¬alive → x = 0) ∧ (alive → x.toNat % 4 = if w.handler = true then 3 else if w.eligibleSet = 0 then 2 else 1) ∧
            (alive → ∀ p, w.chosenPc = some p → x.toNat / 4 = p.toNat / 4)) ∧
    (∀ recs, s.snapLatched = some recs → Calm s → MemoryCanonical s → Completes .snapshotComplete s fun t =>
      let base := s.dxsnap.toNat / 2 ^ 12 % 2 ^ 41 * 2 ^ 12
      t.snapCount = (s.snapCount + 1) % 2 ^ 32 ∧ t.snapAt = none ∧ t.snapLatched = none ∧ SameOutside s t base 1245184 ∧
      ∀ o, o < 1152 * 1024 → Memory.read t.mem (base + o) =
        BitVec.ofNat 8 ((((recs.getD (o / 1024) (0, [])).2.getD (o % 1024 / 8) 0).toNat / 256 ^ (o % 8))))

/-- R346, R348, R358: one or two failing sectors of a code group are rebuilt and counted in dxcorr; with more, or a rebuilt one that fails again, every failing data sector is poisoned and counted in
dxpois. A residue mismatch kills the gang of the warp with reason 4, and its lane is steered out, or its quadrant leaves service, once the quadrant holds no warp. -/
def Sys2Proof.HardwareErrorsAreRepairedOrContained : Prop :=
  ∀ s : State,
    (∀ pa fails, let a := pa / 256 * 256
      let bad := (List.range 10).filter fun i => fails.testBit i
      s.place a = .device → a / 2 ^ 48 = s.pkg →
      (bad = [] → Completes (.scrub pa fails) s (· = s)) ∧
      (bad ≠ [] → bad.length ≤ 2 → fails.testBit 10 = false → Completes (.scrub pa fails) s fun t =>
        t = { s with dxcorr := s.dxcorr + BitVec.ofNat 64 bad.length }) ∧
      (bad ≠ [] → 2 < bad.length ∨ fails.testBit 10 = true → Completes (.scrub pa fails) s fun t =>
        let data := bad.filter (· < 8)
        t = { s with poison := t.poison, dxpois := s.dxpois + BitVec.ofNat 64 data.length } ∧
        (∀ i ∈ data, ∀ j, j < 32 → t.poisoned (a + 32 * i + j) = true) ∧ ∀ u ∈ s.poison, u ∈ t.poison)) ∧
    (∀ w lane, s.live w = true → w < 2 ^ 30 → lane ≤ 32 → (s.warp w).formed = true → vget 32 (s.core (w / 64)).skip (w % 64 / 16) ≠ lane →
      (tget? s.gangs (s.groupOf w).gangKey).isSome = true → Completes (.residueMismatch w lane) s fun t =>
      let g := (s.groupOf w).gangKey
      let core := w / 64
      let q := w % 64 / 16
      (tget? t.grids (g / 2 ^ 32) = none ∨ (t.gang g).killed = some 4) ∧
      if ∃ i ∈ List.range 16, (tget? t.warps (core * 64 + q * 16 + i)).isSome = true then (q, lane) ∈ (t.core core).suspect
      else vget 32 (t.core core).skip q = lane ∨ vget false (t.core core).oos q = true)

/-- R413, R417, R418: a reset keeps the slots of Heartwood and the boot area, and starts the module, after three failed starts in minimal mode; a failed start notes its reason and counts; a start that
reaches up clears the count; a start that takes 30 s fails with reason 1; without power nothing stands but what the memories keep. -/
def Sys2Proof.StartsSucceedFailOrTimeOut : Prop :=
  ∀ s : State,
    let fresh := fun (reason attempts : Nat) (t : State) =>
      t = { State.reset with mem := s.bootArea.foldl (fun (m : List Host.Cell) c => Memory.write m c.1 c.2) [], bootArea := s.bootArea, pkg := s.pkg, images := s.images, moves := s.moves, bootReason := reason, bootAttempts := attempts
                             bootMinimal := decide (3 ≤ attempts), boot := if 3 ≤ attempts then .up else .starting }
    let failed := fun reason => fresh reason (min 15 (s.bootAttempts + 1))
    Completes (.moduleStart 0) s (fresh s.bootReason s.bootAttempts) ∧
    (∀ r, 2 ≤ r → r ≤ 6 → if s.boot = .starting then Completes (.moduleStart r) s (failed r) else Completes (.moduleStart r) s (· = s)) ∧
    (if s.boot = .starting ∧ 30000000000 ≤ s.time then Completes .startTimeout s (failed 1) else Completes .startTimeout s (· = s)) ∧
    (s.boot = .starting → Completes .startReachesUp s fun t => t = { s with boot := .up, bootAttempts := 0 }) ∧
    Completes .powerLoss s (fun t => t = { s with powered := false, ckpt := none })

/-- Log entry 11, R46, R219, R241, R343: a plain instruction of a hart: loads, stores, atomics, reservations, CSR reads, fences, the return of a trap, and one that is illegal.
A release (R209) waits while a store of the hart waits at a core window. -/
def Sys2Proof.HartsRunPlainInstructions : Prop :=
  ∀ (s : State) (h : Nat), h < 68 → s.hartRuns h = true → (s.hart h).waiting = none →
    let me := s.hart h
    let mayGo := fun rl : Bool => rl = true → s.senderWaits (.hart h) = false
    let does := fun (op : HostOp) (P : State → Prop) => Completes (.hostInstruction h op) s P
    (me.tx = none →
      (∀ d a n sg ps, d < 32 → n ∈ [1, 2, 4, 8] → Calm s → HartReaches s h .load .load a n 1 ps → HartClean s ps →
        let x := leNat (s.hartBytes ps)
        does (.load d a.toNat n sg) fun t => SameMemory s t ∧
          HartWent s t h d (if sg = true then (BitVec.ofNat (8 * n) x).signExtend 64 else BitVec.ofNat 64 x) none) ∧
      (∀ a n v ps, n ∈ [1, 2, 4, 8] → Calm s → HartReaches s h .store .store a n 1 ps → (∀ x ∈ ps, s.place x.pa = .device) →
        does (.store a.toNat n v) fun t => HartWent s t h 0 0 none ∧ t.mem = s.hartStored ps (leBytes n v.toNat)) ∧
      (∀ d a op v aq rl p, d < 32 → hostAmo op = true → Calm s → HartReaches s h .store (.atom false) a (AtomOp.bytes op) (AtomOp.bytes op) [p] →
        HartClean s [p] → s.place p.pa = .device → s.reducing s.pkg p.pa = false →
        let n := AtomOp.bytes op
        let old := leNat (s.bytesAt p.pa n)
        does (.amo d a.toNat n op v aq rl) fun t => HartWent s t h d ((BitVec.ofNat (8 * n) old).signExtend 64) none ∧
          t.mem = Memory.writeBytes s.mem p.pa (leBytes n (AtomOp.apply op .rne old v.toNat 0))) ∧
      (∀ d a n aq rl p, d < 32 → n ∈ [4, 8] → Calm s → HartReaches s h .load .load a n n [p] → HartClean s [p] →
        does (.lr d a.toNat n aq rl) fun t => SameMemory s t ∧ (t.hart h).lr = some p.pa ∧ (t.hart h).pc = me.pc + 4 ∧
          ((t.hart h).rd d = if d = 0 then 0 else (BitVec.ofNat (8 * n) (leNat (s.hartBytes [p]))).signExtend 64)) ∧
      (∀ d a n v aq rl p, d < 32 → n ∈ [4, 8] → HartReaches s h .store .store a n n [p] → s.place p.pa = .device →
        let s' := s.modHart h fun x => { x with lr := none }
        let held := ∃ r, me.lr = some r ∧ r / 128 = p.pa / 128
        Calm s' → does (.sc d a.toNat n v aq rl) fun t =>
          (held → HartWent s' t h d 0 none ∧ t.mem = Memory.writeBytes s.mem p.pa (leBytes n v.toNat)) ∧ (¬held → HartWent s' t h d 1 none ∧ t.mem = s.mem)) ∧
      (∀ d n, d < 32 → does (.csr d n) fun t => SameMemory s t ∧
        if me.csrMay n false = true then HartWent s t h d (s.csrRead h n) none else HartTrapped s t h 2 0) ∧
      (s.senderWaits (.hart h) = true → ∀ d a n op v aq, ∀ i ∈ [HostOp.amo d a n op v aq true, .lr d a n aq true, .sc d a n v aq true], does i (· = s)) ∧
      (∀ pred succ, let orders := pred % 2 = 1 ∧ succ % 8 ≠ 0
        (¬orders ∨ s.senderWaits (.hart h) = false → does (.fence pred succ) fun t => SameMemory s t ∧ HartWent s t h 0 0 none) ∧
        (orders → s.senderWaits (.hart h) = true → does (.fence pred succ) (· = s))) ∧
      does .mret (fun t => SameMemory s t ∧
        if me.mode = .m then
          let st := me.mstatus
          let back : Mode := match st.toNat / 2 ^ 11 % 4 with | 0 => .u | 1 => .s | _ => .m
          let st1 := setFld (setFld (setFld st 3 1 (st.toNat / 2 ^ 7 % 2)) 7 1 1) 11 2 0
          t.hart h = { me with pc := me.mepc, mode := back, mstatus := if back = .m then st1 else setFld st1 17 1 0, minstret := me.minstret + 1 } ∧
          ∀ k, k ≠ h → t.hart k = s.hart k
        else HartTrapped s t h 2 0) ∧
      does .barred (fun t => SameMemory s t ∧ HartWent s t h 0 0 none) ∧
      does .illegal (fun t => SameMemory s t ∧ HartTrapped s t h 2 0)) ∧
    (∀ x, me.tx = some x → x.rd < 32 →
      does .barred (fun t => SameMemory s t ∧ HartAborted s t h x 5 0) ∧ (∀ d a n aq rl, n ∈ [4, 8] → mayGo rl → does (.lr d a n aq rl) fun t => SameMemory s t ∧ HartAborted s t h x 5 0) ∧
      does .illegal (fun t => SameMemory s t ∧ HartAborted s t h x 9 2))

/-- Log entry 11, R241, R413: an interrupt of a hart becomes pending; one that is enabled aborts the hart's transaction and is taken, but not while a checkpoint is written.
A save ends with the slot holding what device memory holds, or with a media error, and the hart that began it goes on. -/
def Sys2Proof.InterruptsAreTakenAndSavesComplete : Prop :=
  ∀ s : State,
    (∀ h cause, h < 68 → cause ∈ [1, 3, 5, 7, 9, 11] ∨ 16 ≤ cause → cause < 64 → (s.hart h).mip = 0 →
      let me := s.hart h
      let open_ := me.mie.getLsbD cause = true ∧
        if me.mideleg.getLsbD cause = true then me.mode = .u ∨ (me.mode = .s ∧ me.mstatus.getLsbD 1 = true) else me.mode ≠ .m ∨ me.mstatus.getLsbD 3 = true
      (s.imaging = true ∨ ¬open_ → Completes (.hostInterrupt h cause) s fun t =>
        SameMemory s t ∧ t.hart h = { me with mip := BitVec.ofNat 64 (2 ^ cause) } ∧ ∀ k, k ≠ h → t.hart k = s.hart k) ∧
      (s.imaging = false → open_ →
        (me.tx = none → Completes (.hostInterrupt h cause) s fun t => SameMemory s t ∧ HartTrapped s t h (BitVec.ofNat 64 (2 ^ 63 + cause)) 0) ∧
        (∀ x, me.tx = some x → x.rd < 32 → Completes (.hostInterrupt h cause) s fun t => SameMemory s t ∧
          ∃ u, HartAborted s u h x 8 0 ∧ HartTrapped u t h (BitVec.ofNat 64 (2 ^ 63 + cause)) 0))) ∧
    (∀ c err, s.ckpt = some c → (∀ g ∈ s.groups, g.2.stored = true) → s.partials = [] → s.shadows = [] → c.image < 5 → c.rd < 32 → c.hart < 64 → MemoryCanonical s →
      Completes (.checkpointComplete err) s fun t =>
        let slot := vget Image.none t.images c.image
        SameMemory s t ∧ t.ckpt = none ∧ HartWent s t c.hart c.rd (if err = true then 4 else 0) (s.hart c.hart).tx ∧ slot.valid = !err ∧
        (∀ k ∈ c.stopped, s.slotState k = 4 → t.slotState k = 1) ∧
        (∀ i, i < 5 → i ≠ c.image → vget Image.none t.images i = vget Image.none s.images i) ∧
        (err = false → slot.saved = s.saved ∧ ∀ a, s.imaged a = true → Memory.read slot.cells a = Memory.read s.mem a))

/-- R241, R346, R358, R360 to R362, R413, R416 to R419: power, snapshots, hardware errors, starts, and the harts. -/
def Obligations.MachineryAndHartsActAsDescribed : Prop :=
  PowerThrottles ∧ SnapshotsAreLatchedAndWritten ∧ HardwareErrorsAreRepairedOrContained ∧ StartsSucceedFailOrTimeOut ∧ HartsRunPlainInstructions ∧
    InterruptsAreTakenAndSavesComplete

/-! ## Completion of the rarer forms -/

/-- R97, R130, R323: EXIT ends its threads; MEET.OPEN takes its label, MEET.WAIT at a closed meet goes on and at an open one holds the threads that must wait, and MEET.LEAVE
takes the active threads out of an open or a closed meet. -/
def Sys2Proof.ExitAndMeetsComplete : Prop :=
  ∀ (s : State) (p : Pre) (n : Nat), n < 8 →
    let act := s.act p
    let meet := fun (w : Warp) => vget ⟨false, 0, 0, 0⟩ w.meets n
    (s.w.handler = false → (∀ L, L < 32 → s.iss.set.getLsbD L = true → (s.w.thread L).tx = none ∧ (s.w.thread L).irr = false) →
      s.w.win = none → NoTakes s →
      ∃ t, Sys2Proof.Machine.exec .exit s = .next t ∧ SameMemory s t ∧ ∀ L, L < 32 → s.iss.set.getLsbD L = true → (t.w.thread L).status = .exited) ∧
    (∀ off, act ≠ 0 → canonical (wordTarget s 19 off) = true →
      ∃ t, Sys2Proof.Machine.exec (.meetOpen p n off) s = .next t ∧ OnlyWarp s t ∧ (meet t.w).opened = true ∧ (meet t.w).label = wordTarget s 19 off ∧
        ∀ L, L < 32 → (s.w.thread L).status = .eligible → (meet t.w).members.getLsbD L = true) ∧
    (NoTx s → (meet s.w).opened = false →
      ∃ t, Sys2Proof.Machine.exec (.meetWait p n) s = .next t ∧ OnlyWarp s t ∧ GoOn s t s.iss.set (s.iss.base + 4)) ∧
    (NoTx s → (meet s.w).opened = true → (∃ L, L < 32 ∧ (meet s.w).members.getLsbD L = true ∧ (s.w.thread L).status ≠ .exited ∧
        (meet s.w).arrived.getLsbD L = false ∧ act.getLsbD L = false) →
      ∃ t, Sys2Proof.Machine.exec (.meetWait p n) s = .next t ∧ OnlyWarp s t ∧
        ∀ L, L < 32 → act.getLsbD L = true → (meet s.w).members.getLsbD L = true → (t.w.thread L).status = .waiting) ∧
    (act ≠ 0 →
      ∃ t, Sys2Proof.Machine.exec (.meetLeave p n) s = .next t ∧ OnlyWarp s t ∧
        (∀ L, L < 32 → act.getLsbD L = true → (meet t.w).members.getLsbD L = false) ∧
        ∀ L, L < 32 → s.iss.set.getLsbD L = true → (meet s.w).arrived.getLsbD L = false → (t.w.thread L).pc = s.iss.base + 4)

/-- R391, R392, R394, R405: a Join opens an instance; COLLECTIVE_PULL delivers the next chunk of a full one; ADVERT and WITHDRAW set and clear a HOLD bit; SIDE_ACK takes a module off
an XSIDE's list. -/
def Sys2Proof.CollectiveFormsComplete : Prop :=
  ∀ s : State,
    (∀ j : JoinPkt, let mine := { j with warp := none }
      (j.id % 4, j.id) ∉ s.closedIds → (∀ i ∈ s.instances, i.first.id ≠ j.id) → (s.instances.filter fun i => i.quarter = j.id % 4).length < 256 →
      s.quarantined (32 + j.pkg) = false →
      ∃ t, Sys2Proof.Machine.exec (.join j) s = .next t ∧ SameMemory s t ∧ t.instances = s.instances ++ [⟨j.id % 4, mine, [mine], 0, [], []⟩]) ∧
    (∀ q id i, (s.instances.find? fun i => i.quarter = q && i.first.id = id) = some i → (∀ x ∈ s.instances, x.first.id = id → x = i) → i.late = [] →
      (∀ ix, ix < i.first.p → ∃ j ∈ i.joined, j.index = ix) → Calm s →
      let to_ := i.joined.filter fun j => j.dst ≠ [] ∧ (i.first.mode % 2 = 1 ∨ j.index = i.first.root)
      (∀ j ∈ to_, s.place (j.dst.getD i.chunk 0) = .device ∧ HomedHere s (j.dst.getD i.chunk 0) 256) →
      (∀ j ∈ i.joined, j.xred = true ∨ j.index = j.root → HomedHere s (j.src.getD i.chunk 0) 256) → 256 * (i.chunk + 1) < joinBytes i.first →
      ∃ t, Sys2Proof.Machine.exec (.collectivePull q id) s = .next t ∧
        t.mem = to_.foldl (fun m j => Memory.writeBytes m (j.dst.getD i.chunk 0) (s.chunkResult i 256).1) s.mem ∧
        t.instances = s.instances.map fun x => if x.first.id = id then { x with chunk := x.chunk + 1, out := x.out ++ [s.chunkResult i 256] } else x) ∧
    (∀ m ctx blk e, m < 32 → s.quarantined (32 + m) = false → s.sideEntry ctx blk = some e →
      let bit := BitVec.ofNat 32 (2 ^ m)
      (∃ t, Sys2Proof.Machine.exec (.advert m ctx blk) s = .next t ∧ SameMemory s t ∧ t.sideEntry ctx blk = some { e with hold := e.hold ||| bit }) ∧
      (e.kind ≠ .none →
        ∃ t, Sys2Proof.Machine.exec (.withdraw m ctx blk) s = .next t ∧ SameMemory s t ∧ t.sideEntry ctx blk = some { e with hold := e.hold &&& ~~~bit })) ∧
    (∀ w opId m, ∃ t, Sys2Proof.Machine.exec (.sideAck w opId m) s = .next t ∧ SameMemory s t ∧
      ∀ k, ∀ o ∈ (t.warp k).collQ, o.opId = opId → o.kind = .xside →
        ∃ p ∈ (s.warp k).collQ, p.opId = opId ∧ o.left = p.left.erase m)

/-- R396 to R399, R405: a digest of a plan that is not open is kept; PACKET_FORMATION and FALLBACKREQ send a block; CODED_PACKET writes a transfer; TRANSFERACK notes the
acknowledgement. -/
def Sys2Proof.PlanFormsComplete : Prop :=
  ∀ (s : State) (ctx id : Nat),
    (∀ m d, s.plan? ctx id = none → (ctx, id, m) ∉ s.digestsDue →
      ∃ t, Sys2Proof.Machine.exec (.planDigest ctx id m d) s = .next t ∧ SameMemory s t ∧ (ctx, id, m, d) ∈ t.digests) ∧
    (∀ p i x bs ps, s.plan? ctx id = some p → p.xfers[i]? = some x → Calm s → x.src = s.pkg → s.blockBytes ctx x.blk = some (bs, ps) → bs.length = 256 →
      ps.length = 8 → (∀ pa, s.sideKind ctx x.blk = .mem pa → HomedHere s pa 256) → p.agreed s.pkg = true →
      let sent := fun t : State => s.collMsg x.dst (.coded ⟨ctx, id, s.pkg, [(x.blk, i)], bs, ps⟩) ∈ t.outbox
      (p.nocode = true → x.state = .waiting → (∀ k y, k < i → p.xfers[k]? = some y → ¬(y.src = s.pkg ∧ y.state = .waiting)) →
        ∃ t, Sys2Proof.Machine.exec (.packetFormation ctx id) s = .next t ∧ SameMemory s t ∧ sent t) ∧
      (x.state = .sent → ∀ to_, ∃ t, Sys2Proof.Machine.exec (.fallbackreq ctx id i to_) s = .next t ∧ SameMemory s t ∧ sent t)) ∧
    (∀ (k : CodedPkt) p i x, k.ctx = ctx → k.plan = id → k.blocks = [(x.blk, i)] → s.plan? ctx id = some p → p.xfers[i]? = some x → x.dst = s.pkg →
      x.state.takeDone = false → s.pkg < 32 → Calm s → s.place x.dpa = .device → HomedHere s x.dpa 256 →
      ∃ t, Sys2Proof.Machine.exec (.codedPacket k) s = .next t ∧ t.mem = Memory.writeBytes s.mem x.dpa k.payload ∧
        s.collMsg k.src (.transferAck ctx id i false) ∈ t.outbox) ∧
    (∀ p i x missed, s.plan? ctx id = some p → p.xfers[i]? = some x → x.src = s.pkg → x.state ≠ .failed →
      ∃ t, Sys2Proof.Machine.exec (.transferack ctx id i missed) s = .next t ∧ SameMemory s t ∧
        ∀ q, t.plan? ctx id = some q → ∀ y, q.xfers[i]? = some y → y.state = .acked)

/-- R354 to R357: at a release point that both copies have reached with equal signatures, TWIN_MATCH performs the held writes once and opens new windows. -/
def Sys2Proof.TwinsComplete : Prop :=
  ∀ (s : State) (w v : Nat) (x y : PairWin), (s.warp w).win = some x → (s.warp v).win = some y → s.twinOf w = some v → w ≠ v →
    s.live w = true → s.live v = true → x.points = y.points → x.forced = false → y.forced = false → x.atPoint = true → y.atPoint = true →
    x.sig = y.sig → x.count = y.count → x.drain = [] → y.drain = [] → x.due = false → y.due = false → Calm s →
    let hs := if (s.groupOf w).copy = 0 then x.held else y.held
    (∀ k ∈ [w, v], s.ost k + hs.length ≤ 255) → (∀ h ∈ hs, h.op = none ∧ s.place h.pa = .device ∧ HomedHere s h.pa h.bytes.length) →
    ∃ t, Sys2Proof.Machine.exec (.twinMatch w v) s = .next t ∧ t.mem = hs.foldl (fun m h => Memory.writeBytes m h.pa h.bytes) s.mem ∧
      ∀ k ∈ [w, v], ∃ z, (t.warp k).win = some z ∧ z.sig = 0 ∧ z.held = [] ∧ z.points = x.points + 1 ∧ z.atPoint = false

/-- R97, R130, R323, R354 to R357, R391 to R399, R405: exits, meets, and the steps of collectives, plans and twins answer a next state that holds their effect. -/
def Obligations.ExitsMeetsAndCollectiveFormsComplete : Prop :=
  ExitAndMeetsComplete ∧ CollectiveFormsComplete ∧ PlanFormsComplete ∧ TwinsComplete

/-! ## Encodings -/

/-- R24, R42, R45, R46, R59: words that the spec writes out decode to the instructions it gives, and the sequences it calls ILLEGAL to none. -/
def Obligations.WordsOfTheSpecDecodeAsItSays : Prop :=
  (∀ e ∈ ([(0xBC820001, .sldk 65 0 1), (0xC2820007, .sbz 65 7), (0xB4028000, .sld ⟨none, 1, 64, 0⟩), (0xCA000007, .scall 7),
      (0x80868602, .sadd ⟨67, 67, .reg 1⟩), (0x80808011, .sadd ⟨64, 64, .imm 8⟩), (0x82828203, .ssub ⟨65, 65, .imm 1⟩),
      (0xC483FFFB, .sbnz 65 (2 ^ 17 - 5)), (0xB8868400, .sst ⟨none, 67, 66, 0⟩), (0xFC800040, .exit), (0x84020202, .smul ⟨1, 1, .reg 1⟩),
      (0xCE000000, .sret), (0xB228D159, .slis 20 0xD159), (0xFC800000, .snop),
      (0x00000000, .add ⟨⟨none, none⟩, .i8, 0, 0, .reg 0⟩)] : List (Nat × Instr)),
    decode [e.1] = .ok (e.2, 1)) ∧
  decode [0xFE864800, 0xFE211000, 0x464A2878] =
    .ok (.fma ⟨⟨some ⟨3, 1, 1, 0⟩, some ⟨2, false, some .rtz, 8, false, false, .core, .default, 0⟩⟩, .f32, 20, 40, 60⟩, 3) ∧
  (∀ ws ∈ [[0xFFFFFFFF], [0xFF000000], [0xFA000000], [0xFC800200], [0xFC004540], [0x41808206], [0xFE070000, 0x80000000]],
    ∃ w, decode ws = .error (.illegal w)) ∧
  decodeHost 0x0005850B = some (.dxLaunch 10 11) ∧ decodeHost 0x0005E50B = some (.dxCkptSave 10 11)

/-- R26 to R47: every well-formed instruction that a warp fetches decodes from the words that encode it, whatever follows them; every dx instruction
decodes from its word, the three forms of dx.ckpt to the first of them. -/
def Obligations.EncodedInstructionsDecodeToThemselves : Prop :=
  ∀ i : Instr, i.wf = true → encode i ≠ [] →
    if encodeHost i = [] then ∀ rest, decode (encode i ++ rest) = .ok (i, (encode i).length)
    else ∃ w, encode i = [w] ∧ w < 2 ^ 32 ∧ decodeHost w =
      some (match i with | .dxCkptRestore d a | .dxCkptQuery d a => .dxCkptSave d a | i => i)

/-- R26 to R43: what decodes is well-formed, and its words are the ones that encode it: no two words of 32 bits have the same meaning. -/
def Obligations.DecodedInstructionsEncodeToTheirWords : Prop :=
  ∀ (ws : List Nat) (i : Instr) (n : Nat), (∀ w ∈ ws, w < 2 ^ 32) → decode ws = .ok (i, n) →
    i.wf = true ∧ n ≤ 3 ∧ encode i = ws.take n

/-! ## Steps -/

/-- A word of code at an address of the issuing warp can be fetched from device memory at pa: its translation, its place and its bytes allow it. -/
structure Sys2Proof.FetchesWord (s : State) (k : Nat) (va : W64) (pa w : Nat) : Prop where
  canon : canonical va = true
  fetched : ∃ size nc, s.walk (warpCore k / 48) (s.gridOf k).ctx va .fetch = .ok pa size nc ∧ s.place pa = .device ∧
    s.warpMay (s.groupOf k) pa 4 .load = true ∧ s.poisonedIn pa 4 = false ∧ leNat (s.bytesAt pa 4) = w
  here : HomedHere s pa 4
  tables : ∀ a ∈ s.walkPath va.toNat 5 (s.root (s.gridOf k).ctx), HomedHere s a 8

/-- Two bytes of code that a hart can fetch at an address: their translation, their place and their bytes allow it. -/
def Sys2Proof.FetchesHalf (s : State) (h : Nat) (va : W64) (w : Nat) : Prop :=
  ∃ ps, s.hartAccess h .fetch va 2 2 = .ok ps ∧ (∀ x ∈ ps, s.place x.pa = .device ∧ s.hartMayAt h x.pa x.n .load = true) ∧ HartClean s ps ∧
    leNat (s.hartBytes ps) = w

/-- The warp is not ready: it may not be considered, or it has nothing to take and no thread that could issue. -/
def Sys2Proof.NotReady (s : State) (k : Nat) : Prop :=
  s.considers s.stalls k = false ∨ (s.mcheck k = none ∧ s.lateEvent k = false ∧ (s.warp k).begins = none)

/-- R13, R26, R43, R45 to R47, R93, R95: the next move of the module. The first warp of a quadrant that is ready issues the instruction that its words at the chosen PC decode to, for the threads that stand
there; the fetch takes the lines of the words, the issue counts for its core, and one clock passes; an instruction
that waits at issue gives the turn to the warps after it. A hart without a pending interrupt fetches the two halves of the word at its pc and runs the dx instruction that it is. A step of the hardware has its effect. Without power only a reset moves. -/
def Obligations.StepRunsTheNextInstruction : Prop :=
  ∀ (s : State) (ms : List Move),
    let s0 := { s with moves := ms, iss := { s.iss with cut := 0 } }
    (s.powered = true →
      (∀ c i ins ws set elig pc idx, s.moves = .issue c i :: ms →
        let k := c * 64 + i % 64
        let n := ws.length
        ∀ (before after pas : List Nat), s0.quadOrder c (i % 64 / 16) = before ++ k :: after → (∀ j ∈ before, NotReady s0 j) → pas.length = n →
        let at_ := fun j => pc + BitVec.ofNat 64 (4 * j)
        let s1 := (List.range n).foldl (fun (u : State) j => (u.touchPages .fetch [⟨32, at_ j, 4⟩]).fetchReach (.thread k 33) (pas.getD j 0) 4)
          { s0 with iss := ⟨k, set, elig, pc, pc, [], idx, 0⟩ }
        Calm s → s0.lateEvent k = false → s0.considers s0.stalls k = true → s0.mcheck k = none → (s.warp k).begins = some (set, elig, pc, idx, []) → pc.toNat % 4 = 0 →
        (s.warp k).code = [] → (s.warp k).win = none → (∀ j w, ws[j]? = some w → FetchesWord s k (at_ j) (pas.getD j 0) w) →
        decode ws = .ok (ins, n) → s0.pendingS k = [] →
        let idx' := repIndex ins idx
        ∀ t, exec ins { s1 with iss := ⟨k, set, elig, pc, pc + BitVec.ofNat 64 (4 * (n - 1)), ws, idx', 0⟩ } = .next t →
          step s = if t.stoodStill k pc idx' = true then (State.quadFirst s0.stalls after t).out s0
            else .next ((((t.formedBy k pc idx' ws).ageTx k).modCore (warpCore k) fun c => { c with issues := c.issues + 1, rr := vset c.rr (warpSlot k / 16) (warpSlot k % 16) }).elapse 1)) ∧
      (∀ h a b ins s1 s2, s.moves = .hart h :: ms → s.hartRuns h = true → (s.hart h).interrupt = none →
        let pc := (s.hart h).pc
        s0.hartReach h pc = .inr s1 → s1.hartReach h (pc + 2) = .inr s2 → s1.hart h = s.hart h → s2.hart h = s.hart h →
        FetchesHalf s1 h pc a → FetchesHalf s2 h pc a → FetchesHalf s2 h (pc + 2) b → decodeHost (a + b * 2 ^ 16) = some ins →
        step s = exec ins { s2 with iss := ⟨h, 0, 0, pc, pc, [a + b * 2 ^ 16], 0, 0⟩ }) ∧
      (∀ ins, s.moves = .hw ins :: ms → encode ins = [] → ins.wf = true → step s = exec ins s0) ∧
      (∀ n, s.moves = .tick n :: ms → ∃ t, step s = .next t ∧ t.cycles = (s.cycles + n) % 2 ^ 64 ∧ SameMemory s t)) ∧
    (s.powered = false →
      (s.moves = .hw (.moduleStart 0) :: ms → step s = exec (.moduleStart 0) s0) ∧
      (∀ m, s.moves = m :: ms → m ≠ .hw (.moduleStart 0) → step s = .fault .unpowered))

/-- No instruction and no step of the hardware stops the model: each answers a next state in every state. -/
def Obligations.EveryInstructionAnswersANextState : Prop :=
  ∀ (i : Instr) (s : State), ∃ t, exec i s = .next t

/-- Log entry 1: every step keeps the memory in its canonical form. -/
def Obligations.StepsKeepMemoryCanonical : Prop :=
  ∀ s t : State, MemoryCanonical s → step s = .next t → MemoryCanonical t

/-- R39, R108: m0 reads all ones and takes no write; so x0 of a hart, which reads 0 (log entry 11). -/
def Obligations.ConstantRegistersReadTheirValue : Prop :=
  (∀ (w : Warp) (v : W32), w.rdM 0 = 0xFFFFFFFF ∧ w.wrM 0 v = w) ∧ (∀ (h : Hart) (v : W64), h.rd 0 = 0 ∧ h.wr 0 v = h)

/-- Log entry 1: the memory of the reset module is canonical, and each of its bytes reads 0. -/
def Obligations.ResetMemoryIsCanonical : Prop :=
  MemoryCanonical State.reset ∧ ∀ a, Memory.read State.reset.mem a = 0

/-- R106, R152, R175, R329, R349, R361, R373, R377, R381 to R383, R402, R409, R415 to R418: the registers hold at reset what the column Reset of their layouts gives: a window of 64 KiB for
each dxrwn, 800 MHz, SKIP 32, and 0 in the others that have a value there; slots are FREE, and the module is not up. -/
def Obligations.ResetHoldsTheValuesOfTheLayouts : Prop :=
  (∀ n ∈ [0x5C0, 0x5C1, 0x5C2, 0x5C3, 0x5CA, 0xDC0, 0xDC1, 0xDC2, 0xDC3, 0xDC5, 0xDC7, 0x5C8], ∀ h, State.reset.csrRead h n = 0) ∧
  (∀ n h, 0x5D0 ≤ n → n < 0x5E0 → State.reset.csrRead h n = 0x100) ∧ (∀ h, State.reset.csrRead h 0xDC6 = 800) ∧
  (∀ c q, q < 4 → vget 32 (State.reset.core c).skip q = 32) ∧ (∀ g, State.reset.slotState g = 0) ∧
  (∀ c n, n < 16 → vget 0 (State.reset.core c).shapes n = 0x7FF0) ∧ State.reset.xqCoded = 0 ∧ State.reset.xqMisses = 0 ∧
  State.reset.boot = .starting ∧ State.reset.harts = [] ∧ State.reset.warps = []
end

