-- ==== Sys2Proof/Laws/Tables.lean ====
section
/-! SUPPORT. Laws of tables, register files and lane masks: a read after a write. -/

namespace Sys2Proof.Laws

open Machine

/-! ## Tables -/

@[simp] theorem tget?_nil {α : Type} (k : Nat) : tget? ([] : Tab α) k = none := rfl
@[simp] theorem tget?_tput_self {α : Type} (t : Tab α) (k : Nat) (a : α) : tget? (tput t k a) k = some a := by
  induction t with
  | nil => simp [tput, tget?]
  | cons x r ih => obtain ⟨i, b⟩ := x; simp only [tput]; grind [tget?]
theorem tget?_tput_ne {α : Type} (t : Tab α) {k j : Nat} (a : α) (h : j ≠ k) : tget? (tput t k a) j = tget? t j := by
  induction t with
  | nil => simp [tput, tget?, h.symm]
  | cons x r ih => obtain ⟨i, b⟩ := x; simp only [tput]; grind [tget?]
theorem tget?_tput {α : Type} (t : Tab α) (k j : Nat) (a : α) : tget? (tput t k a) j = if j = k then some a else tget? t j := by
  split
  · next h => subst h; simp
  · next h => exact tget?_tput_ne t a h
@[simp] theorem tget_tput_self {α : Type} (d : α) (t : Tab α) (k : Nat) (a : α) : tget d (tput t k a) k = a := by simp [tget]
theorem tget_tput_ne {α : Type} (d : α) (t : Tab α) {k j : Nat} (a : α) (h : j ≠ k) : tget d (tput t k a) j = tget d t j := by
  simp [tget, tget?_tput_ne t a h]
theorem tget?_tdel {α : Type} (t : Tab α) (k j : Nat) : tget? (tdel t k) j = if j = k then none else tget? t j := by
  induction t with
  | nil => simp [tdel, tget?]
  | cons x r ih => obtain ⟨i, b⟩ := x; simp only [tdel]; grind [tget?]

/-! ## Register files -/

theorem vget_vset {α : Type} {n : Nat} (d : α) (v : Vector α n) (i j : Nat) (a : α) :
    vget d (vset v i a) j = if i = j ∧ i < n then a else vget d v j := by
  simp [vget, vset, List.getD_eq_getElem?_getD, List.getElem?_set]; grind
theorem vget_vmod {α : Type} {n : Nat} (d : α) (v : Vector α n) (i j : Nat) (f : α → α) :
    vget d (vmod d v i f) j = if i = j ∧ i < n then f (vget d v i) else vget d v j := vget_vset d v i j _
theorem vget_vtab {α : Type} (d : α) (n : Nat) (f : Nat → α) (j : Nat) : vget d (vtab n f) j = if j < n then f j else d := by
  simp [vget, vtab, List.getD_eq_getElem?_getD]; split <;> simp_all

/-! ## Masks -/

theorem testBit_maskNat (p : Nat → Bool) (n L : Nat) : (maskNat p n).testBit L = (decide (L < n) && p L) ∧ maskNat p n < 2 ^ n := by
  induction n with
  | zero => simp [maskNat]
  | succ n ih =>
    obtain ⟨h1, h2⟩ := ih
    simp only [maskNat]
    cases hp : p n with
    | false =>
      simp only [Bool.false_eq_true, if_false, Nat.add_zero, h1]
      refine ⟨?_, by rw [Nat.pow_succ]; omega⟩
      by_cases hL : L = n
      · subst hL; simp [hp]
      · congr 1; simp; omega
    | true =>
      simp only [if_true]
      rw [Nat.add_comm]
      refine ⟨?_, by rw [Nat.pow_succ]; omega⟩
      by_cases hL : L = n
      · subst hL; rw [Nat.testBit_two_pow_add_eq, h1]; simp [hp]
      · by_cases h3 : L < n
        · rw [Nat.testBit_two_pow_add_gt h3, h1]; simp [h3]; omega
        · rw [Nat.testBit_lt_two_pow]
          · simp; omega
          · have : 2 ^ (n + 1) ≤ 2 ^ L := Nat.pow_le_pow_right (by decide) (by omega)
            rw [Nat.pow_succ] at this; omega
theorem getLsbD_maskOf (p : Nat → Bool) (L : Nat) (h : L < 32) : (maskOf p).getLsbD L = p L := by
  simp only [maskOf, BitVec.getLsbD_ofNat, (testBit_maskNat p 32 L).1, h, decide_true, Bool.true_and]
theorem mem_lanesOf (m : W32) (L : Nat) : L ∈ lanesOf m ↔ L < 32 ∧ m.getLsbD L = true := by simp [lanesOf]
theorem mem_bitsOf (v : W64) (i : Nat) : i ∈ bitsOf v ↔ i < 64 ∧ v.getLsbD i = true := by simp [bitsOf]
theorem mem_rangeFrom (a n i : Nat) : i ∈ rangeFrom a n ↔ a ≤ i ∧ i < a + n := by
  simp only [rangeFrom, List.mem_map, List.mem_range]
  exact ⟨by rintro ⟨k, hk, rfl⟩; omega, fun h => ⟨i - a, by omega, by omega⟩⟩
theorem mem_insertNat (a b : Nat) (l : List Nat) : a ∈ insertNat b l ↔ a = b ∨ a ∈ l := by
  induction l with
  | nil => simp [insertNat]
  | cons c r ih => simp only [insertNat]; grind
theorem mem_dedup (a : Nat) (l : List Nat) : a ∈ dedup l ↔ a ∈ l := by
  induction l with
  | nil => simp [dedup]
  | cons c r ih => simp only [dedup]; grind

/-! ## Bytes -/

@[simp] theorem length_leBytes (n v : Nat) : (leBytes n v).length = n := by
  induction n generalizing v with
  | zero => rfl
  | succ n ih => simp [leBytes, ih]
theorem leNat_lt (bs : List Byte) : leNat bs < 256 ^ bs.length := by
  induction bs with
  | nil => simp [leNat]
  | cons b r ih => simp only [leNat, List.length_cons, Nat.pow_succ]; have := b.isLt; omega
theorem leNat_leBytes (n v : Nat) : leNat (leBytes n v) = v % 256 ^ n := by
  induction n generalizing v with
  | zero => simp [leBytes, leNat, Nat.mod_one]
  | succ n ih =>
    simp only [leBytes, leNat, ih]
    have e : 256 ^ (n + 1) = 256 * 256 ^ n := Nat.pow_succ'
    rw [e, Nat.mod_mul, BitVec.toNat_ofNat]

end Sys2Proof.Laws
end

