-- ==== Sys2Proof/Laws/Memory.lean ====
section
/-! SUPPORT. Laws of memory: what a byte reads after a write, and that every operation on the list of cells keeps its canonical form. -/

namespace Sys2Proof.Laws

open Machine

/-! ## One byte -/

theorem wfFrom_mono {lo lo' : Nat} {m : List Host.Cell} (h : Memory.wfFrom lo m = true) (hl : lo' ≤ lo) : Memory.wfFrom lo' m = true := by
  cases m with
  | nil => rfl
  | cons c r => obtain ⟨k, b⟩ := c; simp_all [Memory.wfFrom]; omega
theorem read_below {lo : Nat} {m : List Host.Cell} (h : Memory.wfFrom lo m = true) {a : Nat} (ha : a < lo) : Memory.read m a = 0 := by
  cases m with
  | nil => rfl
  | cons c r =>
    obtain ⟨k, b⟩ := c
    simp only [Memory.wfFrom, Bool.and_eq_true, decide_eq_true_eq] at h
    simp [Memory.read, show k ≠ a by omega, show a < k by omega]
/-- A byte reads what was written to it, and every other byte what it read before. -/
theorem read_write {lo : Nat} {m : List Host.Cell} (h : Memory.wfFrom lo m = true) (a x : Nat) (b : Byte) :
    Memory.read (Memory.write m a b) x = if x = a then b else Memory.read m x := by
  induction m generalizing lo with
  | nil =>
    rw [Memory.write]
    by_cases hz : b = 0
    · rw [if_pos hz, hz]; simp [Memory.read]
    · rw [if_neg hz]
      by_cases hx : x = a
      · simp [hx, Memory.read]
      · simp [hx, Ne.symm hx, Memory.read]
  | cons c r ih =>
    obtain ⟨k, d⟩ := c
    simp only [Memory.wfFrom, Bool.and_eq_true, decide_eq_true_eq] at h
    have hr := ih h.2
    simp only [Memory.write]
    rcases Nat.lt_trichotomy a k with h1 | h1 | h1
    · rw [if_pos h1]
      by_cases hz : b = 0
      · rw [if_pos hz]
        by_cases hx : x = a
        · subst hx; simp [Memory.read, hz, h1, Nat.ne_of_gt h1]
        · rw [if_neg hx]
      · rw [if_neg hz, Memory.read]
        by_cases hx : x = a
        · simp [hx]
        · rw [if_neg (Ne.symm hx), if_neg hx]
          split
          · simp [Memory.read, show k ≠ x by omega, show x < k by omega]
          · rfl
    · subst h1
      rw [if_neg (Nat.lt_irrefl a), if_pos rfl]
      by_cases hz : b = 0
      · rw [if_pos hz, Memory.read]
        by_cases hx : x = a
        · rw [if_pos hx, hx, read_below h.2 (Nat.lt_succ_self a), hz]
        · rw [if_neg hx, if_neg (Ne.symm hx)]
          split
          · exact read_below h.2 (by omega)
          · rfl
      · rw [if_neg hz, Memory.read, Memory.read]
        by_cases hx : x = a
        · simp [hx]
        · simp [hx, Ne.symm hx]
    · rw [if_neg (by omega), if_neg (by omega), Memory.read, Memory.read, hr]
      by_cases hx : x = a
      · subst hx; rw [if_neg (by omega), if_neg (by omega), if_pos rfl, if_pos rfl]
      · simp only [if_neg hx]
theorem wfFrom_write {lo : Nat} {m : List Host.Cell} (h : Memory.wfFrom lo m = true) {a : Nat} (ha : lo ≤ a) (b : Byte) :
    Memory.wfFrom lo (Memory.write m a b) = true := by
  induction m generalizing lo with
  | nil => simp only [Memory.write]; split <;> simp_all [Memory.wfFrom]
  | cons c r ih =>
    obtain ⟨k, d⟩ := c
    simp only [Memory.wfFrom, Bool.and_eq_true, decide_eq_true_eq] at h
    simp only [Memory.write]
    by_cases h1 : a < k
    · by_cases hz : b = 0 <;> simp_all [Memory.wfFrom]
    · by_cases h2 : a = k
      · by_cases hz : b = 0
        · simp_all; exact wfFrom_mono h.2 (by omega)
        · simp_all [Memory.wfFrom]
      · simp only [h1, h2, if_false, Memory.wfFrom, Bool.and_eq_true, decide_eq_true_eq]
        exact ⟨h.1, ih h.2 (by omega)⟩
theorem wf_write {m : List Host.Cell} (h : Memory.wf m = true) (a : Nat) (b : Byte) : Memory.wf (Memory.write m a b) = true :=
  wfFrom_write h (Nat.zero_le a) b

/-! ## Bytes -/

theorem wf_writeBytes {m : List Host.Cell} (h : Memory.wf m = true) (a : Nat) (bs : List Byte) : Memory.wf (Memory.writeBytes m a bs) = true := by
  induction bs generalizing m a with
  | nil => exact h
  | cons b r ih => exact ih (wf_write h a b) (a + 1)
/-- The bytes written read as written, and every other byte as before. -/
theorem read_writeBytes {m : List Host.Cell} (h : Memory.wf m = true) (a x : Nat) (bs : List Byte) :
    Memory.read (Memory.writeBytes m a bs) x = if a ≤ x ∧ x < a + bs.length then bs.getD (x - a) 0 else Memory.read m x := by
  induction bs generalizing m a with
  | nil => rw [if_neg (by simp)]; rfl
  | cons b r ih =>
    simp only [Memory.writeBytes, ih (wf_write h a b), read_write h, List.length_cons]
    by_cases h1 : a + 1 ≤ x ∧ x < a + 1 + r.length
    · have e : x - a = (x - (a + 1)) + 1 := by omega
      rw [if_pos h1, if_pos (by omega), e]; simp
    · rw [if_neg h1]
      by_cases h2 : x = a
      · subst h2; simp
      · rw [if_neg h2, if_neg (by omega)]
theorem readBytes_writeBytes {m : List Host.Cell} (h : Memory.wf m = true) (a : Nat) (bs : List Byte) :
    Memory.readBytes (Memory.writeBytes m a bs) a bs.length = bs := by
  apply List.ext_getElem
  · simp [Memory.readBytes]
  · intro i h1 h2; simp only [Memory.readBytes, List.getElem_map, List.getElem_range, read_writeBytes h]; grind

/-! ## Filters and fills -/

theorem wfFrom_filter {lo : Nat} {m : List Host.Cell} (h : Memory.wfFrom lo m = true) (p : Host.Cell → Bool) : Memory.wfFrom lo (m.filter p) = true := by
  induction m generalizing lo with
  | nil => rfl
  | cons c r ih =>
    obtain ⟨k, b⟩ := c
    simp only [Memory.wfFrom, Bool.and_eq_true, decide_eq_true_eq] at h
    simp only [List.filter]
    split
    · simp only [Memory.wfFrom, h.1.1, ih h.2, decide_true, Bool.and_true, Bool.true_and, decide_eq_true_eq]; exact h.1.2
    · exact wfFrom_mono (ih h.2) (by omega)
theorem wf_filter {m : List Host.Cell} (h : Memory.wf m = true) (p : Host.Cell → Bool) : Memory.wf (m.filter p) = true := wfFrom_filter h p
/-- A filter on addresses leaves the bytes it keeps and makes the others read 0. -/
theorem read_filter {lo : Nat} {m : List Host.Cell} (h : Memory.wfFrom lo m = true) (p : Nat → Bool) (x : Nat) :
    Memory.read (m.filter fun c => p c.1) x = if p x then Memory.read m x else 0 := by
  induction m generalizing lo with
  | nil => simp [Memory.read]
  | cons c r ih =>
    obtain ⟨k, b⟩ := c
    simp only [Memory.wfFrom, Bool.and_eq_true, decide_eq_true_eq] at h
    have hr := ih h.2
    simp only [List.filter]
    by_cases hx : x = k
    · subst hx
      have hb := read_below (wfFrom_filter h.2 fun c => p c.1) (a := x) (by omega)
      cases hp : p x <;> simp_all [Memory.read]
    · by_cases hl : x < k
      · have hb := read_below (wfFrom_filter h.2 fun c => p c.1) (a := x) (by omega)
        cases hp : p k <;> simp [Memory.read, Ne.symm hx, hl, hb]
      · cases hp : p k <;> simp [Memory.read, Ne.symm hx, hl, hr]

/-- Cells below an address, then cells from it on. -/
theorem wfFrom_append {lo mid : Nat} {m r : List Host.Cell} (h : Memory.wfFrom lo m = true) (hb : ∀ c ∈ m, c.1 < mid) (hl : lo ≤ mid)
    (hr : Memory.wfFrom mid r = true) : Memory.wfFrom lo (m ++ r) = true := by
  induction m generalizing lo with
  | nil => exact wfFrom_mono hr hl
  | cons c m ih =>
    obtain ⟨k, b⟩ := c
    simp only [Memory.wfFrom, Bool.and_eq_true, decide_eq_true_eq] at h
    have hk := hb (k, b) (by simp)
    simp only [List.cons_append, Memory.wfFrom, Bool.and_eq_true, decide_eq_true_eq]
    exact ⟨h.1, ih h.2 (fun c hc => hb c (by simp [hc])) (by simpa using hk)⟩
theorem wfFrom_atLeast {lo : Nat} {m : List Host.Cell} (h : Memory.wfFrom lo m = true) {n : Nat} (hn : ∀ c ∈ m, n ≤ c.1) : Memory.wfFrom n m = true := by
  cases m with
  | nil => rfl
  | cons c r =>
    obtain ⟨k, b⟩ := c
    have := hn (k, b) (by simp)
    simp_all [Memory.wfFrom]
theorem wfFrom_new (a n : Nat) (f : Nat → Byte) :
    Memory.wfFrom a ((List.range n).filterMap fun i => if f (a + i) = 0 then none else some (a + i, f (a + i))) = true := by
  induction n generalizing a with
  | zero => rfl
  | succ n ih =>
    rw [List.range_succ_eq_map, List.filterMap_cons, List.filterMap_map]
    have e : (fun i => if f (a + i) = 0 then none else some (a + i, f (a + i))) ∘ Nat.succ =
        fun i => if f (a + 1 + i) = 0 then none else some (a + 1 + i, f (a + 1 + i)) := by
      funext i; simp only [Function.comp, Nat.succ_eq_add_one, Nat.add_comm i 1, Nat.add_assoc]
    rw [e]
    by_cases h : f a = 0
    · simp only [Nat.add_zero, if_pos h]; exact wfFrom_mono (ih (a + 1)) (Nat.le_succ a)
    · simp only [Nat.add_zero, if_neg h, Memory.wfFrom, Nat.le_refl, decide_true, Bool.true_and, Bool.and_eq_true, decide_eq_true_eq]
      exact ⟨h, ih (a + 1)⟩
theorem wf_fill {m : List Host.Cell} (h : Memory.wf m = true) (a n : Nat) (f : Nat → Byte) : Memory.wf (Memory.fill m a n f) = true := by
  unfold Memory.wf Memory.fill
  rw [List.append_assoc]
  refine wfFrom_append (mid := a) (wfFrom_filter h _) (by simp) (Nat.zero_le _) ?_
  refine wfFrom_append (mid := a + n) (wfFrom_new a n f) ?_ (by omega) (wfFrom_atLeast (wfFrom_filter h _) (by simp))
  intro c hc
  simp only [List.mem_filterMap, List.mem_range] at hc
  obtain ⟨i, hi, hc⟩ := hc
  split at hc <;> simp at hc
  subst hc; simpa using hi

/-- Two canonical memories that read alike are equal. -/
theorem wf_ext {lo : Nat} {m m' : List Host.Cell} (h : Memory.wfFrom lo m = true) (h' : Memory.wfFrom lo m' = true)
    (e : ∀ a, Memory.read m a = Memory.read m' a) : m = m' := by
  induction m generalizing lo m' with
  | nil =>
    cases m' with
    | nil => rfl
    | cons c r =>
      obtain ⟨k, b⟩ := c
      have := e k
      simp_all [Memory.wfFrom, Memory.read]
  | cons c r ih =>
    obtain ⟨k, b⟩ := c
    simp only [Memory.wfFrom, Bool.and_eq_true, decide_eq_true_eq] at h
    cases m' with
    | nil => have := e k; simp_all [Memory.read]
    | cons c' r' =>
      obtain ⟨k', b'⟩ := c'
      simp only [Memory.wfFrom, Bool.and_eq_true, decide_eq_true_eq] at h'
      have hk : k = k' := by
        have e1 := e k
        have e2 := e k'
        simp only [Memory.read] at e1 e2
        rcases Nat.lt_trichotomy k k' with hl | hl | hl
        · simp [hl, Nat.ne_of_gt hl] at e1; exact absurd e1 h.1.2
        · exact hl
        · simp [hl, Nat.ne_of_gt hl] at e2; exact absurd e2.symm h'.1.2
      subst hk
      have hb : b = b' := by have := e k; simpa [Memory.read] using this
      subst hb
      rw [ih h.2 h'.2 fun a => ?_]
      have := e a
      simp only [Memory.read] at this
      by_cases h1 : k = a
      · subst h1; rw [read_below h.2 (by omega), read_below h'.2 (by omega)]
      · by_cases h2 : a < k
        · rw [read_below h.2 (by omega), read_below h'.2 (by omega)]
        · simpa [h1, h2] using this

end Sys2Proof.Laws
end

