-- ==== Sys2Proof/Laws/Canonical.lean ====
section
/-! SUPPORT. The shared operations that change memory keep its canonical form (log entry 1). Every change of memory goes through one of
them. -/

namespace Sys2Proof.Laws

open Machine

/-- A state whose memory is another's is canonical with it. -/
theorem canonical_of_mem {s t : State} (h : MemoryCanonical s) (e : t.mem = s.mem) : MemoryCanonical t := by
  unfold MemoryCanonical; rw [e]; exact h
/-- A fold keeps the form when each of its steps does. -/
theorem canonical_foldl {α : Type} {f : State → α → State} (hf : ∀ s x, MemoryCanonical s → MemoryCanonical (f s x)) :
    ∀ (l : List α) (s : State), MemoryCanonical s → MemoryCanonical (l.foldl f s)
  | [], _, h => h
  | x :: r, s, h => canonical_foldl hf r (f s x) (hf s x h)

theorem poke_canonical {s : State} (h : MemoryCanonical s) (pa : Nat) (bs : List Byte) : MemoryCanonical (s.poke pa bs) :=
  wf_writeBytes h pa bs
theorem putBytes_canonical {s : State} (h : MemoryCanonical s) (pa : Nat) (bs : List Byte) : MemoryCanonical (s.putBytes pa bs) :=
  wf_writeBytes h pa bs
theorem putNat_canonical {s : State} (h : MemoryCanonical s) (pa n v : Nat) : MemoryCanonical (s.putNat pa n v) :=
  putBytes_canonical h pa _
theorem setPoison_canonical {s : State} (h : MemoryCanonical s) (us : List Nat) : MemoryCanonical (s.setPoison us) := h
theorem zeroBytes_canonical {s : State} (h : MemoryCanonical s) (pa n : Nat) : MemoryCanonical (s.zeroBytes pa n) := wf_filter h _
theorem zeroBank_canonical {s : State} (h : MemoryCanonical s) (core k : Nat) : MemoryCanonical (s.zeroBank core k) := wf_filter h _
theorem modBand_canonical {s : State} (h : MemoryCanonical s) (core b : Nat) (f : Band → Band) : MemoryCanonical (s.modBand core b f) :=
  canonical_of_mem h rfl
theorem modGroup_canonical {s : State} (h : MemoryCanonical s) (g : Nat) (f : Group → Group) : MemoryCanonical (s.modGroup g f) :=
  canonical_of_mem h rfl
theorem returnBanks_canonical {s : State} (h : MemoryCanonical s) (k : Nat) : MemoryCanonical (s.returnBanks k) := by
  unfold State.returnBanks
  apply canonical_foldl
  · intro t b ht
    split
    · exact modGroup_canonical ht _ _
    · split
      · exact modGroup_canonical ht _ _
      · exact ht
  · apply canonical_foldl
    · intro t b ht
      exact wf_filter (m := t.mem) ht _
    · exact canonical_foldl (fun t b ht => modBand_canonical ht _ _ _) _ _ h
theorem putImage_canonical {s : State} (h : MemoryCanonical s) (m : Image) : MemoryCanonical (s.putImage m) := by
  have hf : ∀ (l : List Host.Cell) (r : List Host.Cell), Memory.wf r = true →
      Memory.wf (l.foldl (fun (r : List Host.Cell) c => Memory.write r c.1 c.2) r) = true := by
    intro l
    induction l with
    | nil => exact fun _ h => h
    | cons c l ih => exact fun r h => ih _ (wf_write h c.1 c.2)
  exact hf m.cells _ (wf_filter h _)
theorem observe_mem (s : State) (who : Agent) (write : Bool) (pa n : Nat) : (s.observe who write pa n).mem = s.mem := rfl
theorem foldLine_canonical {s : State} (h : MemoryCanonical s) (line : Nat) : MemoryCanonical (s.foldLine line) := by
  unfold State.foldLine
  split
  · exact h
  · exact canonical_of_mem (canonical_foldl (fun t v ht => poke_canonical ht _ _) _ _ h) rfl
theorem foldLines_canonical {s : State} (h : MemoryCanonical s) (pa n : Nat) : MemoryCanonical (s.foldLines pa n) :=
  canonical_foldl (fun _ l ht => foldLine_canonical ht l) _ _ h
theorem shadowAdd_canonical {s : State} (h : MemoryCanonical s) (ty : AtomFp) (md : Rnd) (pa x : Nat) : MemoryCanonical (s.shadowAdd ty md pa x) := by
  have hf : MemoryCanonical (s.shadowFor (pa / 128) ty) := by
    unfold State.shadowFor
    split
    · split
      · exact h
      · exact canonical_of_mem (foldLine_canonical h _) rfl
    · exact canonical_of_mem h rfl
  exact canonical_of_mem hf rfl
theorem rmw_canonical {s : State} (h : MemoryCanonical s) (op : AtomOp) (md : Rnd) (pa x c : Nat) : MemoryCanonical (s.rmw op md pa x c).1 := by
  unfold State.rmw
  dsimp only
  split
  · exact shadowAdd_canonical h _ _ _ _
  · exact poke_canonical (foldLines_canonical h _ _) _ _
  · exact poke_canonical h _ _
theorem sendTag_mem (s : State) (src dest die ty addr : Nat) (bs : List Byte) (p tag : Nat) (x : LinkArgs) :
    (s.sendTag src dest die ty addr bs p tag x).mem = s.mem := by
  unfold State.sendTag
  split
  · rfl
  · simp only [State.onPort]; repeat' (first | rfl | split)
theorem setDir_mem (s : State) (u : Nat) (e : DirEntry) : (s.setDir u e).mem = s.mem := by unfold State.setDir; split <;> rfl
theorem recallActs_canonical {s : State} (h : MemoryCanonical s) (d x : Nat) : MemoryCanonical (s.recallActs d x) := by
  unfold State.recallActs
  dsimp only
  split <;> exact canonical_of_mem (foldLine_canonical h x) rfl
/-- A copy that is given up. -/
theorem dropCopy_canonical {s : State} (h : MemoryCanonical s) (d x : Nat) (l : Tab LineState) :
    MemoryCanonical { (s.recallActs d x) with holders := l } := canonical_of_mem (recallActs_canonical h d x) rfl
theorem recallOwn_canonical {s : State} (h : MemoryCanonical s) (u d : Nat) : MemoryCanonical (s.recallOwn u d) := by
  unfold State.recallOwn
  exact canonical_of_mem (canonical_foldl (fun t x ht => dropCopy_canonical ht d x (tdel t.holders (holderKey d x))) (s.unitOf u) s h)
    (setDir_mem _ _ _)
theorem takeHome_canonical {s : State} (h : MemoryCanonical s) (u : Nat) : MemoryCanonical (s.takeHome u) := by
  unfold State.takeHome
  dsimp only
  split
  · exact h
  · exact canonical_foldl (fun _ d ht => recallOwn_canonical ht u d) _ _ h
theorem sendRecall_canonical {s : State} (h : MemoryCanonical s) (u d : Nat) : MemoryCanonical (s.sendRecall u d) := by
  unfold State.sendRecall
  exact canonical_foldl (fun t x ht => canonical_of_mem ht ((sendTag_mem _ _ _ _ _ _ _ _ _ _).trans (setDir_mem _ _ _))) _ _ h
theorem askBack_canonical {s : State} (h : MemoryCanonical s) (u : Nat) : MemoryCanonical (s.askBack u) := by
  unfold State.askBack
  dsimp only
  split
  · exact h
  · exact canonical_foldl (fun _ d ht => sendRecall_canonical ht u d) _ _ h
theorem makeRoom_canonical {s : State} (h : MemoryCanonical s) (u : Nat) : MemoryCanonical (s.makeRoom u) := by
  unfold State.makeRoom
  split
  · exact askBack_canonical (takeHome_canonical h _) _
  · exact h
theorem ownLine_canonical {s : State} (h : MemoryCanonical s) (d : Nat) (r : DirReq) (x : Nat) : MemoryCanonical (s.ownLine d r x) := by
  unfold State.ownLine
  dsimp only
  split
  · split
    · unfold State.ownForeign
      dsimp only
      split
      · exact h
      · split
        · refine canonical_of_mem (canonical_foldl (fun t d ht => dropCopy_canonical ht d x (tdel t.holders (holderKey d x)))
            ((s.heldHere x).filter (· != d)) s h) rfl
        · exact canonical_of_mem h rfl
    · exact h
  · split
    · exact h
    · have k := canonical_foldl (fun _ o ht => recallOwn_canonical ht (s.unitKey x) o) ((s.dirEntry (s.unitKey x)).inTheWay d r) s h
      split
      · exact k
      · refine canonical_foldl ?_ _ _ (canonical_of_mem (makeRoom_canonical k _) (setDir_mem _ _ _))
        intro t y ht
        exact canonical_of_mem (t := { t with holders := tput t.holders (holderKey d y) (if r = .m then .m else .s) }) ht rfl
theorem ownLines_canonical {s : State} (h : MemoryCanonical s) (who : Agent) (write : Bool) (pa n : Nat) :
    MemoryCanonical (s.ownLines who write pa n) := canonical_foldl (fun _ x ht => ownLine_canonical ht _ _ x) _ _ h
theorem forwardPartial_canonical {s : State} (h : MemoryCanonical s) (n : Nat) : MemoryCanonical (s.forwardPartial n) := by
  unfold State.forwardPartial
  split
  · exact h
  · dsimp only
    split
    · unfold State.partialAway
      refine canonical_foldl (fun t v ht => ?_) _ _ (canonical_of_mem (t := { s with partials := tdel s.partials n }) h rfl)
      exact canonical_of_mem ht (sendTag_mem _ _ _ _ _ _ _ _ _ _)
    · unfold State.partialHome
      dsimp only
      refine setPoison_canonical (canonical_foldl ?_ _ _ (ownLines_canonical (canonical_of_mem (t := { s with partials := tdel s.partials n }) h rfl) _ _ _ _)) _
      intro t v ht
      have ho := fun pa k => canonical_of_mem ht (observe_mem t .other true pa k)
      split
      · exact shadowAdd_canonical (ho _ _) _ _ _ _
      · exact rmw_canonical (ho _ _) _ _ _ _ _
theorem settle_canonical {s : State} (h : MemoryCanonical s) (pa n : Nat) : MemoryCanonical (s.settle pa n) :=
  foldLines_canonical (canonical_foldl (fun _ p ht => forwardPartial_canonical ht p.1) _ _ h) _ _
theorem settleArea_canonical {s : State} (h : MemoryCanonical s) (pa n : Nat) : MemoryCanonical (s.settleArea pa n) :=
  canonical_foldl (fun _ x ht => foldLine_canonical ht x.1) _ _ (canonical_foldl (fun _ p ht => forwardPartial_canonical ht p.1) _ _ h)
theorem sweep_canonical {s : State} (h : MemoryCanonical s) (pa n : Nat) : MemoryCanonical (s.sweep pa n) :=
  canonical_of_mem (settleArea_canonical h pa n) rfl
theorem writeRaw_canonical {s : State} (h : MemoryCanonical s) (pa : Nat) (bs : List Byte) : MemoryCanonical (s.writeRaw pa bs) :=
  putBytes_canonical (canonical_of_mem (settle_canonical h pa bs.length) rfl) _ _
theorem writeRecords_canonical {s : State} (h : MemoryCanonical s) (k : Nat) : MemoryCanonical (s.writeRecords k) := by
  unfold State.writeRecords
  refine canonical_foldl (fun t w ht => canonical_foldl (fun t f ht => putBytes_canonical ht _ _) _ _ ht) _ _ (putBytes_canonical ?_ _ _)
  unfold MemoryCanonical
  dsimp only
  exact wf_fill (sweep_canonical h _ _) (s.group k).save (s.group k).saveBytes _
theorem withFetchWord_canonical {s : State} (h : MemoryCanonical s) (nbits w : Nat) : MemoryCanonical (s.withFetchWord nbits w) := by
  unfold State.withFetchWord
  refine wf_writeBytes ?_ _ _
  split
  · exact h
  · exact h

end Sys2Proof.Laws
end

