-- ==== Sys2Proof/Laws/State.lean ====
section
/-! SUPPORT. Laws of the state's updates: what each leaves unchanged, field by field, and what reads back. -/

namespace Sys2Proof.Laws

open Machine

/-! ## What reads back -/

@[simp] theorem warp_setWarp (s : State) (k : Nat) (w : Warp) : (s.setWarp k w).warp k = w := by simp [State.warp, State.setWarp]
theorem warp_setWarp_ne (s : State) {k j : Nat} (w : Warp) (h : j ≠ k) : (s.setWarp k w).warp j = s.warp j := by
  simp [State.warp, State.setWarp, tget_tput_ne _ _ _ h]
@[simp] theorem warp_modWarp (s : State) (k : Nat) (f : Warp → Warp) : (s.modWarp k f).warp k = f (s.warp k) := warp_setWarp s k _
theorem warp_modWarp_ne (s : State) {k j : Nat} (f : Warp → Warp) (h : j ≠ k) : (s.modWarp k f).warp j = s.warp j := warp_setWarp_ne s _ h
@[simp] theorem w_modW (s : State) (f : Warp → Warp) : (s.modW f).w = f s.w := warp_setWarp s s.iss.key _
@[simp] theorem w_setW (s : State) (w : Warp) : (s.setWarp s.iss.key w).w = w := warp_setWarp s s.iss.key w
@[simp] theorem group_modGroup (s : State) (k : Nat) (f : Group → Group) : (s.modGroup k f).group k = f (s.group k) := by
  simp [State.group, State.modGroup, State.setGroup]
theorem group_modGroup_ne (s : State) {k j : Nat} (f : Group → Group) (h : j ≠ k) : (s.modGroup k f).group j = s.group j := by
  simp [State.group, State.modGroup, State.setGroup, tget_tput_ne _ _ _ h]
@[simp] theorem gang_modGang (s : State) (k : Nat) (f : Gang → Gang) : (s.modGang k f).gang k = f (s.gang k) := by
  simp [State.gang, State.modGang]
theorem gang_modGang_ne (s : State) {k j : Nat} (f : Gang → Gang) (h : j ≠ k) : (s.modGang k f).gang j = s.gang j := by
  simp [State.gang, State.modGang, tget_tput_ne _ _ _ h]
@[simp] theorem grid_modGrid (s : State) (k : Nat) (f : Grid → Grid) : (s.modGrid k f).grid k = f (s.grid k) := by
  simp [State.grid, State.modGrid]
theorem grid_modGrid_ne (s : State) {k j : Nat} (f : Grid → Grid) (h : j ≠ k) : (s.modGrid k f).grid j = s.grid j := by
  simp [State.grid, State.modGrid, tget_tput_ne _ _ _ h]
@[simp] theorem core_modCore (s : State) (k : Nat) (f : Core → Core) : (s.modCore k f).core k = f (s.core k) := by
  simp [State.core, State.modCore]
theorem core_modCore_ne (s : State) {k j : Nat} (f : Core → Core) (h : j ≠ k) : (s.modCore k f).core j = s.core j := by
  simp [State.core, State.modCore, tget_tput_ne _ _ _ h]
@[simp] theorem hart_modHart (s : State) (k : Nat) (f : Hart → Hart) : (s.modHart k f).hart k = f (s.hart k) := by
  simp [State.hart, State.modHart]
theorem hart_modHart_ne (s : State) {k j : Nat} (f : Hart → Hart) (h : j ≠ k) : (s.modHart k f).hart j = s.hart j := by
  simp [State.hart, State.modHart, tget_tput_ne _ _ _ h]
@[simp] theorem port_modPort (s : State) (k : Nat) (f : Port → Port) : (s.modPort k f).port k = f (s.port k) := by
  simp [State.port, State.modPort]

/-! ## setWarp -/

section
variable (s : State) (k : Nat) (w : Warp)
@[simp] theorem setWarp_mem : (s.setWarp k w).mem = s.mem := rfl
@[simp] theorem setWarp_poison : (s.setWarp k w).poison = s.poison := rfl
@[simp] theorem setWarp_shadows : (s.setWarp k w).shadows = s.shadows := rfl
@[simp] theorem setWarp_classes : (s.setWarp k w).classes = s.classes := rfl
@[simp] theorem setWarp_tlb : (s.setWarp k w).tlb = s.tlb := rfl
@[simp] theorem setWarp_invals : (s.setWarp k w).invals = s.invals := rfl
@[simp] theorem setWarp_pkg : (s.setWarp k w).pkg = s.pkg := rfl
@[simp] theorem setWarp_ps : (s.setWarp k w).ps = s.ps := rfl
@[simp] theorem setWarp_cycles : (s.setWarp k w).cycles = s.cycles := rfl
@[simp] theorem setWarp_dieSince : (s.setWarp k w).dieSince = s.dieSince := rfl
@[simp] theorem setWarp_nextGrid : (s.setWarp k w).nextGrid = s.nextGrid := rfl
@[simp] theorem setWarp_grids : (s.setWarp k w).grids = s.grids := rfl
@[simp] theorem setWarp_gangs : (s.setWarp k w).gangs = s.gangs := rfl
@[simp] theorem setWarp_groups : (s.setWarp k w).groups = s.groups := rfl
@[simp] theorem setWarp_cores : (s.setWarp k w).cores = s.cores := rfl
@[simp] theorem setWarp_saved : (s.setWarp k w).saved = s.saved := rfl
@[simp] theorem setWarp_ticket : (s.setWarp k w).ticket = s.ticket := rfl
@[simp] theorem setWarp_served : (s.setWarp k w).served = s.served := rfl
@[simp] theorem setWarp_commits : (s.setWarp k w).commits = s.commits := rfl
@[simp] theorem setWarp_lock : (s.setWarp k w).lock = s.lock := rfl
@[simp] theorem setWarp_lockQueue : (s.setWarp k w).lockQueue = s.lockQueue := rfl
@[simp] theorem setWarp_txSlots : (s.setWarp k w).txSlots = s.txSlots := rfl
@[simp] theorem setWarp_slotQueue : (s.setWarp k w).slotQueue = s.slotQueue := rfl
@[simp] theorem setWarp_remote : (s.setWarp k w).remote = s.remote := rfl
@[simp] theorem setWarp_nextRemote : (s.setWarp k w).nextRemote = s.nextRemote := rfl
@[simp] theorem setWarp_dxctb : (s.setWarp k w).dxctb = s.dxctb := rfl
@[simp] theorem setWarp_dxfq : (s.setWarp k w).dxfq = s.dxfq := rfl
@[simp] theorem setWarp_pend : (s.setWarp k w).pend = s.pend := rfl
@[simp] theorem setWarp_heldFaults : (s.setWarp k w).heldFaults = s.heldFaults := rfl
@[simp] theorem setWarp_ringWritten : (s.setWarp k w).ringWritten = s.ringWritten := rfl
@[simp] theorem setWarp_faultSeq : (s.setWarp k w).faultSeq = s.faultSeq := rfl
@[simp] theorem setWarp_dxcorr : (s.setWarp k w).dxcorr = s.dxcorr := rfl
@[simp] theorem setWarp_dxpois : (s.setWarp k w).dxpois = s.dxpois := rfl
@[simp] theorem setWarp_dxsnap : (s.setWarp k w).dxsnap = s.dxsnap := rfl
@[simp] theorem setWarp_snapCount : (s.setWarp k w).snapCount = s.snapCount := rfl
@[simp] theorem setWarp_snapAt : (s.setWarp k w).snapAt = s.snapAt := rfl
@[simp] theorem setWarp_snapLatched : (s.setWarp k w).snapLatched = s.snapLatched := rfl
@[simp] theorem setWarp_dxobj : (s.setWarp k w).dxobj = s.dxobj := rfl
@[simp] theorem setWarp_objPending : (s.setWarp k w).objPending = s.objPending := rfl
@[simp] theorem setWarp_objects : (s.setWarp k w).objects = s.objects := rfl
@[simp] theorem setWarp_dxrtsel : (s.setWarp k w).dxrtsel = s.dxrtsel := rfl
@[simp] theorem setWarp_routes : (s.setWarp k w).routes = s.routes := rfl
@[simp] theorem setWarp_linkReplay : (s.setWarp k w).linkReplay = s.linkReplay := rfl
@[simp] theorem setWarp_linkDown : (s.setWarp k w).linkDown = s.linkDown := rfl
@[simp] theorem setWarp_linkBad : (s.setWarp k w).linkBad = s.linkBad := rfl
@[simp] theorem setWarp_modq : (s.setWarp k w).modq = s.modq := rfl
@[simp] theorem setWarp_hubq : (s.setWarp k w).hubq = s.hubq := rfl
@[simp] theorem setWarp_dieq : (s.setWarp k w).dieq = s.dieq := rfl
@[simp] theorem setWarp_purges : (s.setWarp k w).purges = s.purges := rfl
@[simp] theorem setWarp_dxrw : (s.setWarp k w).dxrw = s.dxrw := rfl
@[simp] theorem setWarp_nodeWins : (s.setWarp k w).nodeWins = s.nodeWins := rfl
@[simp] theorem setWarp_partials : (s.setWarp k w).partials = s.partials := rfl
@[simp] theorem setWarp_ports : (s.setWarp k w).ports = s.ports := rfl
@[simp] theorem setWarp_dir : (s.setWarp k w).dir = s.dir := rfl
@[simp] theorem setWarp_dirOrder : (s.setWarp k w).dirOrder = s.dirOrder := rfl
@[simp] theorem setWarp_holders : (s.setWarp k w).holders = s.holders := rfl
@[simp] theorem setWarp_asks : (s.setWarp k w).asks = s.asks := rfl
@[simp] theorem setWarp_nextTag : (s.setWarp k w).nextTag = s.nextTag := rfl
@[simp] theorem setWarp_replyTo : (s.setWarp k w).replyTo = s.replyTo := rfl
@[simp] theorem setWarp_instances : (s.setWarp k w).instances = s.instances := rfl
@[simp] theorem setWarp_closedIds : (s.setWarp k w).closedIds = s.closedIds := rfl
@[simp] theorem setWarp_joinWait : (s.setWarp k w).joinWait = s.joinWait := rfl
@[simp] theorem setWarp_side : (s.setWarp k w).side = s.side := rfl
@[simp] theorem setWarp_sideUse : (s.setWarp k w).sideUse = s.sideUse := rfl
@[simp] theorem setWarp_plans : (s.setWarp k w).plans = s.plans := rfl
@[simp] theorem setWarp_digests : (s.setWarp k w).digests = s.digests := rfl
@[simp] theorem setWarp_digestsDue : (s.setWarp k w).digestsDue = s.digestsDue := rfl
@[simp] theorem setWarp_xqCoded : (s.setWarp k w).xqCoded = s.xqCoded := rfl
@[simp] theorem setWarp_xqMisses : (s.setWarp k w).xqMisses = s.xqMisses := rfl
@[simp] theorem setWarp_nextOp : (s.setWarp k w).nextOp = s.nextOp := rfl
@[simp] theorem setWarp_dxflsel : (s.setWarp k w).dxflsel = s.dxflsel := rfl
@[simp] theorem setWarp_flows : (s.setWarp k w).flows = s.flows := rfl
@[simp] theorem setWarp_eth : (s.setWarp k w).eth = s.eth := rfl
@[simp] theorem setWarp_dxpcw : (s.setWarp k w).dxpcw = s.dxpcw := rfl
@[simp] theorem setWarp_pcieQ : (s.setWarp k w).pcieQ = s.pcieQ := rfl
@[simp] theorem setWarp_msix : (s.setWarp k w).msix = s.msix := rfl
@[simp] theorem setWarp_images : (s.setWarp k w).images = s.images := rfl
@[simp] theorem setWarp_ckpt : (s.setWarp k w).ckpt = s.ckpt := rfl
@[simp] theorem setWarp_bands : (s.setWarp k w).bands = s.bands := rfl
@[simp] theorem setWarp_clkMhz : (s.setWarp k w).clkMhz = s.clkMhz := rfl
@[simp] theorem setWarp_clkNext : (s.setWarp k w).clkNext = s.clkNext := rfl
@[simp] theorem setWarp_clkFail : (s.setWarp k w).clkFail = s.clkFail := rfl
@[simp] theorem setWarp_clkFix : (s.setWarp k w).clkFix = s.clkFix := rfl
@[simp] theorem setWarp_throttle : (s.setWarp k w).throttle = s.throttle := rfl
@[simp] theorem setWarp_amps : (s.setWarp k w).amps = s.amps := rfl
@[simp] theorem setWarp_thrEvents : (s.setWarp k w).thrEvents = s.thrEvents := rfl
@[simp] theorem setWarp_quietSince : (s.setWarp k w).quietSince = s.quietSince := rfl
@[simp] theorem setWarp_bootReason : (s.setWarp k w).bootReason = s.bootReason := rfl
@[simp] theorem setWarp_bootAttempts : (s.setWarp k w).bootAttempts = s.bootAttempts := rfl
@[simp] theorem setWarp_bootMinimal : (s.setWarp k w).bootMinimal = s.bootMinimal := rfl
@[simp] theorem setWarp_boot : (s.setWarp k w).boot = s.boot := rfl
@[simp] theorem setWarp_bootArea : (s.setWarp k w).bootArea = s.bootArea := rfl
@[simp] theorem setWarp_powered : (s.setWarp k w).powered = s.powered := rfl
@[simp] theorem setWarp_outbox : (s.setWarp k w).outbox = s.outbox := rfl
@[simp] theorem setWarp_harts : (s.setWarp k w).harts = s.harts := rfl
@[simp] theorem setWarp_moves : (s.setWarp k w).moves = s.moves := rfl
@[simp] theorem setWarp_iss : (s.setWarp k w).iss = s.iss := rfl
end

/-! ## modWarp -/

section
variable (s : State) (k : Nat) (f : Warp → Warp)
@[simp] theorem modWarp_mem : (s.modWarp k f).mem = s.mem := rfl
@[simp] theorem modWarp_poison : (s.modWarp k f).poison = s.poison := rfl
@[simp] theorem modWarp_shadows : (s.modWarp k f).shadows = s.shadows := rfl
@[simp] theorem modWarp_classes : (s.modWarp k f).classes = s.classes := rfl
@[simp] theorem modWarp_tlb : (s.modWarp k f).tlb = s.tlb := rfl
@[simp] theorem modWarp_invals : (s.modWarp k f).invals = s.invals := rfl
@[simp] theorem modWarp_pkg : (s.modWarp k f).pkg = s.pkg := rfl
@[simp] theorem modWarp_ps : (s.modWarp k f).ps = s.ps := rfl
@[simp] theorem modWarp_cycles : (s.modWarp k f).cycles = s.cycles := rfl
@[simp] theorem modWarp_dieSince : (s.modWarp k f).dieSince = s.dieSince := rfl
@[simp] theorem modWarp_nextGrid : (s.modWarp k f).nextGrid = s.nextGrid := rfl
@[simp] theorem modWarp_grids : (s.modWarp k f).grids = s.grids := rfl
@[simp] theorem modWarp_gangs : (s.modWarp k f).gangs = s.gangs := rfl
@[simp] theorem modWarp_groups : (s.modWarp k f).groups = s.groups := rfl
@[simp] theorem modWarp_cores : (s.modWarp k f).cores = s.cores := rfl
@[simp] theorem modWarp_saved : (s.modWarp k f).saved = s.saved := rfl
@[simp] theorem modWarp_ticket : (s.modWarp k f).ticket = s.ticket := rfl
@[simp] theorem modWarp_served : (s.modWarp k f).served = s.served := rfl
@[simp] theorem modWarp_commits : (s.modWarp k f).commits = s.commits := rfl
@[simp] theorem modWarp_lock : (s.modWarp k f).lock = s.lock := rfl
@[simp] theorem modWarp_lockQueue : (s.modWarp k f).lockQueue = s.lockQueue := rfl
@[simp] theorem modWarp_txSlots : (s.modWarp k f).txSlots = s.txSlots := rfl
@[simp] theorem modWarp_slotQueue : (s.modWarp k f).slotQueue = s.slotQueue := rfl
@[simp] theorem modWarp_remote : (s.modWarp k f).remote = s.remote := rfl
@[simp] theorem modWarp_nextRemote : (s.modWarp k f).nextRemote = s.nextRemote := rfl
@[simp] theorem modWarp_dxctb : (s.modWarp k f).dxctb = s.dxctb := rfl
@[simp] theorem modWarp_dxfq : (s.modWarp k f).dxfq = s.dxfq := rfl
@[simp] theorem modWarp_pend : (s.modWarp k f).pend = s.pend := rfl
@[simp] theorem modWarp_heldFaults : (s.modWarp k f).heldFaults = s.heldFaults := rfl
@[simp] theorem modWarp_ringWritten : (s.modWarp k f).ringWritten = s.ringWritten := rfl
@[simp] theorem modWarp_faultSeq : (s.modWarp k f).faultSeq = s.faultSeq := rfl
@[simp] theorem modWarp_dxcorr : (s.modWarp k f).dxcorr = s.dxcorr := rfl
@[simp] theorem modWarp_dxpois : (s.modWarp k f).dxpois = s.dxpois := rfl
@[simp] theorem modWarp_dxsnap : (s.modWarp k f).dxsnap = s.dxsnap := rfl
@[simp] theorem modWarp_snapCount : (s.modWarp k f).snapCount = s.snapCount := rfl
@[simp] theorem modWarp_snapAt : (s.modWarp k f).snapAt = s.snapAt := rfl
@[simp] theorem modWarp_snapLatched : (s.modWarp k f).snapLatched = s.snapLatched := rfl
@[simp] theorem modWarp_dxobj : (s.modWarp k f).dxobj = s.dxobj := rfl
@[simp] theorem modWarp_objPending : (s.modWarp k f).objPending = s.objPending := rfl
@[simp] theorem modWarp_objects : (s.modWarp k f).objects = s.objects := rfl
@[simp] theorem modWarp_dxrtsel : (s.modWarp k f).dxrtsel = s.dxrtsel := rfl
@[simp] theorem modWarp_routes : (s.modWarp k f).routes = s.routes := rfl
@[simp] theorem modWarp_linkReplay : (s.modWarp k f).linkReplay = s.linkReplay := rfl
@[simp] theorem modWarp_linkDown : (s.modWarp k f).linkDown = s.linkDown := rfl
@[simp] theorem modWarp_linkBad : (s.modWarp k f).linkBad = s.linkBad := rfl
@[simp] theorem modWarp_modq : (s.modWarp k f).modq = s.modq := rfl
@[simp] theorem modWarp_hubq : (s.modWarp k f).hubq = s.hubq := rfl
@[simp] theorem modWarp_dieq : (s.modWarp k f).dieq = s.dieq := rfl
@[simp] theorem modWarp_purges : (s.modWarp k f).purges = s.purges := rfl
@[simp] theorem modWarp_dxrw : (s.modWarp k f).dxrw = s.dxrw := rfl
@[simp] theorem modWarp_nodeWins : (s.modWarp k f).nodeWins = s.nodeWins := rfl
@[simp] theorem modWarp_partials : (s.modWarp k f).partials = s.partials := rfl
@[simp] theorem modWarp_ports : (s.modWarp k f).ports = s.ports := rfl
@[simp] theorem modWarp_dir : (s.modWarp k f).dir = s.dir := rfl
@[simp] theorem modWarp_dirOrder : (s.modWarp k f).dirOrder = s.dirOrder := rfl
@[simp] theorem modWarp_holders : (s.modWarp k f).holders = s.holders := rfl
@[simp] theorem modWarp_asks : (s.modWarp k f).asks = s.asks := rfl
@[simp] theorem modWarp_nextTag : (s.modWarp k f).nextTag = s.nextTag := rfl
@[simp] theorem modWarp_replyTo : (s.modWarp k f).replyTo = s.replyTo := rfl
@[simp] theorem modWarp_instances : (s.modWarp k f).instances = s.instances := rfl
@[simp] theorem modWarp_closedIds : (s.modWarp k f).closedIds = s.closedIds := rfl
@[simp] theorem modWarp_joinWait : (s.modWarp k f).joinWait = s.joinWait := rfl
@[simp] theorem modWarp_side : (s.modWarp k f).side = s.side := rfl
@[simp] theorem modWarp_sideUse : (s.modWarp k f).sideUse = s.sideUse := rfl
@[simp] theorem modWarp_plans : (s.modWarp k f).plans = s.plans := rfl
@[simp] theorem modWarp_digests : (s.modWarp k f).digests = s.digests := rfl
@[simp] theorem modWarp_digestsDue : (s.modWarp k f).digestsDue = s.digestsDue := rfl
@[simp] theorem modWarp_xqCoded : (s.modWarp k f).xqCoded = s.xqCoded := rfl
@[simp] theorem modWarp_xqMisses : (s.modWarp k f).xqMisses = s.xqMisses := rfl
@[simp] theorem modWarp_nextOp : (s.modWarp k f).nextOp = s.nextOp := rfl
@[simp] theorem modWarp_dxflsel : (s.modWarp k f).dxflsel = s.dxflsel := rfl
@[simp] theorem modWarp_flows : (s.modWarp k f).flows = s.flows := rfl
@[simp] theorem modWarp_eth : (s.modWarp k f).eth = s.eth := rfl
@[simp] theorem modWarp_dxpcw : (s.modWarp k f).dxpcw = s.dxpcw := rfl
@[simp] theorem modWarp_pcieQ : (s.modWarp k f).pcieQ = s.pcieQ := rfl
@[simp] theorem modWarp_msix : (s.modWarp k f).msix = s.msix := rfl
@[simp] theorem modWarp_images : (s.modWarp k f).images = s.images := rfl
@[simp] theorem modWarp_ckpt : (s.modWarp k f).ckpt = s.ckpt := rfl
@[simp] theorem modWarp_bands : (s.modWarp k f).bands = s.bands := rfl
@[simp] theorem modWarp_clkMhz : (s.modWarp k f).clkMhz = s.clkMhz := rfl
@[simp] theorem modWarp_clkNext : (s.modWarp k f).clkNext = s.clkNext := rfl
@[simp] theorem modWarp_clkFail : (s.modWarp k f).clkFail = s.clkFail := rfl
@[simp] theorem modWarp_clkFix : (s.modWarp k f).clkFix = s.clkFix := rfl
@[simp] theorem modWarp_throttle : (s.modWarp k f).throttle = s.throttle := rfl
@[simp] theorem modWarp_amps : (s.modWarp k f).amps = s.amps := rfl
@[simp] theorem modWarp_thrEvents : (s.modWarp k f).thrEvents = s.thrEvents := rfl
@[simp] theorem modWarp_quietSince : (s.modWarp k f).quietSince = s.quietSince := rfl
@[simp] theorem modWarp_bootReason : (s.modWarp k f).bootReason = s.bootReason := rfl
@[simp] theorem modWarp_bootAttempts : (s.modWarp k f).bootAttempts = s.bootAttempts := rfl
@[simp] theorem modWarp_bootMinimal : (s.modWarp k f).bootMinimal = s.bootMinimal := rfl
@[simp] theorem modWarp_boot : (s.modWarp k f).boot = s.boot := rfl
@[simp] theorem modWarp_bootArea : (s.modWarp k f).bootArea = s.bootArea := rfl
@[simp] theorem modWarp_powered : (s.modWarp k f).powered = s.powered := rfl
@[simp] theorem modWarp_outbox : (s.modWarp k f).outbox = s.outbox := rfl
@[simp] theorem modWarp_harts : (s.modWarp k f).harts = s.harts := rfl
@[simp] theorem modWarp_moves : (s.modWarp k f).moves = s.moves := rfl
@[simp] theorem modWarp_iss : (s.modWarp k f).iss = s.iss := rfl
end

/-! ## modW -/

section
variable (s : State) (f : Warp → Warp)
@[simp] theorem modW_mem : (s.modW f).mem = s.mem := rfl
@[simp] theorem modW_poison : (s.modW f).poison = s.poison := rfl
@[simp] theorem modW_shadows : (s.modW f).shadows = s.shadows := rfl
@[simp] theorem modW_classes : (s.modW f).classes = s.classes := rfl
@[simp] theorem modW_tlb : (s.modW f).tlb = s.tlb := rfl
@[simp] theorem modW_invals : (s.modW f).invals = s.invals := rfl
@[simp] theorem modW_pkg : (s.modW f).pkg = s.pkg := rfl
@[simp] theorem modW_ps : (s.modW f).ps = s.ps := rfl
@[simp] theorem modW_cycles : (s.modW f).cycles = s.cycles := rfl
@[simp] theorem modW_dieSince : (s.modW f).dieSince = s.dieSince := rfl
@[simp] theorem modW_nextGrid : (s.modW f).nextGrid = s.nextGrid := rfl
@[simp] theorem modW_grids : (s.modW f).grids = s.grids := rfl
@[simp] theorem modW_gangs : (s.modW f).gangs = s.gangs := rfl
@[simp] theorem modW_groups : (s.modW f).groups = s.groups := rfl
@[simp] theorem modW_cores : (s.modW f).cores = s.cores := rfl
@[simp] theorem modW_saved : (s.modW f).saved = s.saved := rfl
@[simp] theorem modW_ticket : (s.modW f).ticket = s.ticket := rfl
@[simp] theorem modW_served : (s.modW f).served = s.served := rfl
@[simp] theorem modW_commits : (s.modW f).commits = s.commits := rfl
@[simp] theorem modW_lock : (s.modW f).lock = s.lock := rfl
@[simp] theorem modW_lockQueue : (s.modW f).lockQueue = s.lockQueue := rfl
@[simp] theorem modW_txSlots : (s.modW f).txSlots = s.txSlots := rfl
@[simp] theorem modW_slotQueue : (s.modW f).slotQueue = s.slotQueue := rfl
@[simp] theorem modW_remote : (s.modW f).remote = s.remote := rfl
@[simp] theorem modW_nextRemote : (s.modW f).nextRemote = s.nextRemote := rfl
@[simp] theorem modW_dxctb : (s.modW f).dxctb = s.dxctb := rfl
@[simp] theorem modW_dxfq : (s.modW f).dxfq = s.dxfq := rfl
@[simp] theorem modW_pend : (s.modW f).pend = s.pend := rfl
@[simp] theorem modW_heldFaults : (s.modW f).heldFaults = s.heldFaults := rfl
@[simp] theorem modW_ringWritten : (s.modW f).ringWritten = s.ringWritten := rfl
@[simp] theorem modW_faultSeq : (s.modW f).faultSeq = s.faultSeq := rfl
@[simp] theorem modW_dxcorr : (s.modW f).dxcorr = s.dxcorr := rfl
@[simp] theorem modW_dxpois : (s.modW f).dxpois = s.dxpois := rfl
@[simp] theorem modW_dxsnap : (s.modW f).dxsnap = s.dxsnap := rfl
@[simp] theorem modW_snapCount : (s.modW f).snapCount = s.snapCount := rfl
@[simp] theorem modW_snapAt : (s.modW f).snapAt = s.snapAt := rfl
@[simp] theorem modW_snapLatched : (s.modW f).snapLatched = s.snapLatched := rfl
@[simp] theorem modW_dxobj : (s.modW f).dxobj = s.dxobj := rfl
@[simp] theorem modW_objPending : (s.modW f).objPending = s.objPending := rfl
@[simp] theorem modW_objects : (s.modW f).objects = s.objects := rfl
@[simp] theorem modW_dxrtsel : (s.modW f).dxrtsel = s.dxrtsel := rfl
@[simp] theorem modW_routes : (s.modW f).routes = s.routes := rfl
@[simp] theorem modW_linkReplay : (s.modW f).linkReplay = s.linkReplay := rfl
@[simp] theorem modW_linkDown : (s.modW f).linkDown = s.linkDown := rfl
@[simp] theorem modW_linkBad : (s.modW f).linkBad = s.linkBad := rfl
@[simp] theorem modW_modq : (s.modW f).modq = s.modq := rfl
@[simp] theorem modW_hubq : (s.modW f).hubq = s.hubq := rfl
@[simp] theorem modW_dieq : (s.modW f).dieq = s.dieq := rfl
@[simp] theorem modW_purges : (s.modW f).purges = s.purges := rfl
@[simp] theorem modW_dxrw : (s.modW f).dxrw = s.dxrw := rfl
@[simp] theorem modW_nodeWins : (s.modW f).nodeWins = s.nodeWins := rfl
@[simp] theorem modW_partials : (s.modW f).partials = s.partials := rfl
@[simp] theorem modW_ports : (s.modW f).ports = s.ports := rfl
@[simp] theorem modW_dir : (s.modW f).dir = s.dir := rfl
@[simp] theorem modW_dirOrder : (s.modW f).dirOrder = s.dirOrder := rfl
@[simp] theorem modW_holders : (s.modW f).holders = s.holders := rfl
@[simp] theorem modW_asks : (s.modW f).asks = s.asks := rfl
@[simp] theorem modW_nextTag : (s.modW f).nextTag = s.nextTag := rfl
@[simp] theorem modW_replyTo : (s.modW f).replyTo = s.replyTo := rfl
@[simp] theorem modW_instances : (s.modW f).instances = s.instances := rfl
@[simp] theorem modW_closedIds : (s.modW f).closedIds = s.closedIds := rfl
@[simp] theorem modW_joinWait : (s.modW f).joinWait = s.joinWait := rfl
@[simp] theorem modW_side : (s.modW f).side = s.side := rfl
@[simp] theorem modW_sideUse : (s.modW f).sideUse = s.sideUse := rfl
@[simp] theorem modW_plans : (s.modW f).plans = s.plans := rfl
@[simp] theorem modW_digests : (s.modW f).digests = s.digests := rfl
@[simp] theorem modW_digestsDue : (s.modW f).digestsDue = s.digestsDue := rfl
@[simp] theorem modW_xqCoded : (s.modW f).xqCoded = s.xqCoded := rfl
@[simp] theorem modW_xqMisses : (s.modW f).xqMisses = s.xqMisses := rfl
@[simp] theorem modW_nextOp : (s.modW f).nextOp = s.nextOp := rfl
@[simp] theorem modW_dxflsel : (s.modW f).dxflsel = s.dxflsel := rfl
@[simp] theorem modW_flows : (s.modW f).flows = s.flows := rfl
@[simp] theorem modW_eth : (s.modW f).eth = s.eth := rfl
@[simp] theorem modW_dxpcw : (s.modW f).dxpcw = s.dxpcw := rfl
@[simp] theorem modW_pcieQ : (s.modW f).pcieQ = s.pcieQ := rfl
@[simp] theorem modW_msix : (s.modW f).msix = s.msix := rfl
@[simp] theorem modW_images : (s.modW f).images = s.images := rfl
@[simp] theorem modW_ckpt : (s.modW f).ckpt = s.ckpt := rfl
@[simp] theorem modW_bands : (s.modW f).bands = s.bands := rfl
@[simp] theorem modW_clkMhz : (s.modW f).clkMhz = s.clkMhz := rfl
@[simp] theorem modW_clkNext : (s.modW f).clkNext = s.clkNext := rfl
@[simp] theorem modW_clkFail : (s.modW f).clkFail = s.clkFail := rfl
@[simp] theorem modW_clkFix : (s.modW f).clkFix = s.clkFix := rfl
@[simp] theorem modW_throttle : (s.modW f).throttle = s.throttle := rfl
@[simp] theorem modW_amps : (s.modW f).amps = s.amps := rfl
@[simp] theorem modW_thrEvents : (s.modW f).thrEvents = s.thrEvents := rfl
@[simp] theorem modW_quietSince : (s.modW f).quietSince = s.quietSince := rfl
@[simp] theorem modW_bootReason : (s.modW f).bootReason = s.bootReason := rfl
@[simp] theorem modW_bootAttempts : (s.modW f).bootAttempts = s.bootAttempts := rfl
@[simp] theorem modW_bootMinimal : (s.modW f).bootMinimal = s.bootMinimal := rfl
@[simp] theorem modW_boot : (s.modW f).boot = s.boot := rfl
@[simp] theorem modW_bootArea : (s.modW f).bootArea = s.bootArea := rfl
@[simp] theorem modW_powered : (s.modW f).powered = s.powered := rfl
@[simp] theorem modW_outbox : (s.modW f).outbox = s.outbox := rfl
@[simp] theorem modW_harts : (s.modW f).harts = s.harts := rfl
@[simp] theorem modW_moves : (s.modW f).moves = s.moves := rfl
@[simp] theorem modW_iss : (s.modW f).iss = s.iss := rfl
end

/-! ## setGroup -/

section
variable (s : State) (k : Nat) (g : Group)
@[simp] theorem setGroup_mem : (s.setGroup k g).mem = s.mem := rfl
@[simp] theorem setGroup_poison : (s.setGroup k g).poison = s.poison := rfl
@[simp] theorem setGroup_shadows : (s.setGroup k g).shadows = s.shadows := rfl
@[simp] theorem setGroup_classes : (s.setGroup k g).classes = s.classes := rfl
@[simp] theorem setGroup_tlb : (s.setGroup k g).tlb = s.tlb := rfl
@[simp] theorem setGroup_invals : (s.setGroup k g).invals = s.invals := rfl
@[simp] theorem setGroup_pkg : (s.setGroup k g).pkg = s.pkg := rfl
@[simp] theorem setGroup_ps : (s.setGroup k g).ps = s.ps := rfl
@[simp] theorem setGroup_cycles : (s.setGroup k g).cycles = s.cycles := rfl
@[simp] theorem setGroup_dieSince : (s.setGroup k g).dieSince = s.dieSince := rfl
@[simp] theorem setGroup_nextGrid : (s.setGroup k g).nextGrid = s.nextGrid := rfl
@[simp] theorem setGroup_grids : (s.setGroup k g).grids = s.grids := rfl
@[simp] theorem setGroup_gangs : (s.setGroup k g).gangs = s.gangs := rfl
@[simp] theorem setGroup_warps : (s.setGroup k g).warps = s.warps := rfl
@[simp] theorem setGroup_cores : (s.setGroup k g).cores = s.cores := rfl
@[simp] theorem setGroup_saved : (s.setGroup k g).saved = s.saved := rfl
@[simp] theorem setGroup_ticket : (s.setGroup k g).ticket = s.ticket := rfl
@[simp] theorem setGroup_served : (s.setGroup k g).served = s.served := rfl
@[simp] theorem setGroup_commits : (s.setGroup k g).commits = s.commits := rfl
@[simp] theorem setGroup_lock : (s.setGroup k g).lock = s.lock := rfl
@[simp] theorem setGroup_lockQueue : (s.setGroup k g).lockQueue = s.lockQueue := rfl
@[simp] theorem setGroup_txSlots : (s.setGroup k g).txSlots = s.txSlots := rfl
@[simp] theorem setGroup_slotQueue : (s.setGroup k g).slotQueue = s.slotQueue := rfl
@[simp] theorem setGroup_remote : (s.setGroup k g).remote = s.remote := rfl
@[simp] theorem setGroup_nextRemote : (s.setGroup k g).nextRemote = s.nextRemote := rfl
@[simp] theorem setGroup_dxctb : (s.setGroup k g).dxctb = s.dxctb := rfl
@[simp] theorem setGroup_dxfq : (s.setGroup k g).dxfq = s.dxfq := rfl
@[simp] theorem setGroup_pend : (s.setGroup k g).pend = s.pend := rfl
@[simp] theorem setGroup_heldFaults : (s.setGroup k g).heldFaults = s.heldFaults := rfl
@[simp] theorem setGroup_ringWritten : (s.setGroup k g).ringWritten = s.ringWritten := rfl
@[simp] theorem setGroup_faultSeq : (s.setGroup k g).faultSeq = s.faultSeq := rfl
@[simp] theorem setGroup_dxcorr : (s.setGroup k g).dxcorr = s.dxcorr := rfl
@[simp] theorem setGroup_dxpois : (s.setGroup k g).dxpois = s.dxpois := rfl
@[simp] theorem setGroup_dxsnap : (s.setGroup k g).dxsnap = s.dxsnap := rfl
@[simp] theorem setGroup_snapCount : (s.setGroup k g).snapCount = s.snapCount := rfl
@[simp] theorem setGroup_snapAt : (s.setGroup k g).snapAt = s.snapAt := rfl
@[simp] theorem setGroup_snapLatched : (s.setGroup k g).snapLatched = s.snapLatched := rfl
@[simp] theorem setGroup_dxobj : (s.setGroup k g).dxobj = s.dxobj := rfl
@[simp] theorem setGroup_objPending : (s.setGroup k g).objPending = s.objPending := rfl
@[simp] theorem setGroup_objects : (s.setGroup k g).objects = s.objects := rfl
@[simp] theorem setGroup_dxrtsel : (s.setGroup k g).dxrtsel = s.dxrtsel := rfl
@[simp] theorem setGroup_routes : (s.setGroup k g).routes = s.routes := rfl
@[simp] theorem setGroup_linkReplay : (s.setGroup k g).linkReplay = s.linkReplay := rfl
@[simp] theorem setGroup_linkDown : (s.setGroup k g).linkDown = s.linkDown := rfl
@[simp] theorem setGroup_linkBad : (s.setGroup k g).linkBad = s.linkBad := rfl
@[simp] theorem setGroup_modq : (s.setGroup k g).modq = s.modq := rfl
@[simp] theorem setGroup_hubq : (s.setGroup k g).hubq = s.hubq := rfl
@[simp] theorem setGroup_dieq : (s.setGroup k g).dieq = s.dieq := rfl
@[simp] theorem setGroup_purges : (s.setGroup k g).purges = s.purges := rfl
@[simp] theorem setGroup_dxrw : (s.setGroup k g).dxrw = s.dxrw := rfl
@[simp] theorem setGroup_nodeWins : (s.setGroup k g).nodeWins = s.nodeWins := rfl
@[simp] theorem setGroup_partials : (s.setGroup k g).partials = s.partials := rfl
@[simp] theorem setGroup_ports : (s.setGroup k g).ports = s.ports := rfl
@[simp] theorem setGroup_dir : (s.setGroup k g).dir = s.dir := rfl
@[simp] theorem setGroup_dirOrder : (s.setGroup k g).dirOrder = s.dirOrder := rfl
@[simp] theorem setGroup_holders : (s.setGroup k g).holders = s.holders := rfl
@[simp] theorem setGroup_asks : (s.setGroup k g).asks = s.asks := rfl
@[simp] theorem setGroup_nextTag : (s.setGroup k g).nextTag = s.nextTag := rfl
@[simp] theorem setGroup_replyTo : (s.setGroup k g).replyTo = s.replyTo := rfl
@[simp] theorem setGroup_instances : (s.setGroup k g).instances = s.instances := rfl
@[simp] theorem setGroup_closedIds : (s.setGroup k g).closedIds = s.closedIds := rfl
@[simp] theorem setGroup_joinWait : (s.setGroup k g).joinWait = s.joinWait := rfl
@[simp] theorem setGroup_side : (s.setGroup k g).side = s.side := rfl
@[simp] theorem setGroup_sideUse : (s.setGroup k g).sideUse = s.sideUse := rfl
@[simp] theorem setGroup_plans : (s.setGroup k g).plans = s.plans := rfl
@[simp] theorem setGroup_digests : (s.setGroup k g).digests = s.digests := rfl
@[simp] theorem setGroup_digestsDue : (s.setGroup k g).digestsDue = s.digestsDue := rfl
@[simp] theorem setGroup_xqCoded : (s.setGroup k g).xqCoded = s.xqCoded := rfl
@[simp] theorem setGroup_xqMisses : (s.setGroup k g).xqMisses = s.xqMisses := rfl
@[simp] theorem setGroup_nextOp : (s.setGroup k g).nextOp = s.nextOp := rfl
@[simp] theorem setGroup_dxflsel : (s.setGroup k g).dxflsel = s.dxflsel := rfl
@[simp] theorem setGroup_flows : (s.setGroup k g).flows = s.flows := rfl
@[simp] theorem setGroup_eth : (s.setGroup k g).eth = s.eth := rfl
@[simp] theorem setGroup_dxpcw : (s.setGroup k g).dxpcw = s.dxpcw := rfl
@[simp] theorem setGroup_pcieQ : (s.setGroup k g).pcieQ = s.pcieQ := rfl
@[simp] theorem setGroup_msix : (s.setGroup k g).msix = s.msix := rfl
@[simp] theorem setGroup_images : (s.setGroup k g).images = s.images := rfl
@[simp] theorem setGroup_ckpt : (s.setGroup k g).ckpt = s.ckpt := rfl
@[simp] theorem setGroup_bands : (s.setGroup k g).bands = s.bands := rfl
@[simp] theorem setGroup_clkMhz : (s.setGroup k g).clkMhz = s.clkMhz := rfl
@[simp] theorem setGroup_clkNext : (s.setGroup k g).clkNext = s.clkNext := rfl
@[simp] theorem setGroup_clkFail : (s.setGroup k g).clkFail = s.clkFail := rfl
@[simp] theorem setGroup_clkFix : (s.setGroup k g).clkFix = s.clkFix := rfl
@[simp] theorem setGroup_throttle : (s.setGroup k g).throttle = s.throttle := rfl
@[simp] theorem setGroup_amps : (s.setGroup k g).amps = s.amps := rfl
@[simp] theorem setGroup_thrEvents : (s.setGroup k g).thrEvents = s.thrEvents := rfl
@[simp] theorem setGroup_quietSince : (s.setGroup k g).quietSince = s.quietSince := rfl
@[simp] theorem setGroup_bootReason : (s.setGroup k g).bootReason = s.bootReason := rfl
@[simp] theorem setGroup_bootAttempts : (s.setGroup k g).bootAttempts = s.bootAttempts := rfl
@[simp] theorem setGroup_bootMinimal : (s.setGroup k g).bootMinimal = s.bootMinimal := rfl
@[simp] theorem setGroup_boot : (s.setGroup k g).boot = s.boot := rfl
@[simp] theorem setGroup_bootArea : (s.setGroup k g).bootArea = s.bootArea := rfl
@[simp] theorem setGroup_powered : (s.setGroup k g).powered = s.powered := rfl
@[simp] theorem setGroup_outbox : (s.setGroup k g).outbox = s.outbox := rfl
@[simp] theorem setGroup_harts : (s.setGroup k g).harts = s.harts := rfl
@[simp] theorem setGroup_moves : (s.setGroup k g).moves = s.moves := rfl
@[simp] theorem setGroup_iss : (s.setGroup k g).iss = s.iss := rfl
end

/-! ## modGroup -/

section
variable (s : State) (k : Nat) (f : Group → Group)
@[simp] theorem modGroup_mem : (s.modGroup k f).mem = s.mem := rfl
@[simp] theorem modGroup_poison : (s.modGroup k f).poison = s.poison := rfl
@[simp] theorem modGroup_shadows : (s.modGroup k f).shadows = s.shadows := rfl
@[simp] theorem modGroup_classes : (s.modGroup k f).classes = s.classes := rfl
@[simp] theorem modGroup_tlb : (s.modGroup k f).tlb = s.tlb := rfl
@[simp] theorem modGroup_invals : (s.modGroup k f).invals = s.invals := rfl
@[simp] theorem modGroup_pkg : (s.modGroup k f).pkg = s.pkg := rfl
@[simp] theorem modGroup_ps : (s.modGroup k f).ps = s.ps := rfl
@[simp] theorem modGroup_cycles : (s.modGroup k f).cycles = s.cycles := rfl
@[simp] theorem modGroup_dieSince : (s.modGroup k f).dieSince = s.dieSince := rfl
@[simp] theorem modGroup_nextGrid : (s.modGroup k f).nextGrid = s.nextGrid := rfl
@[simp] theorem modGroup_grids : (s.modGroup k f).grids = s.grids := rfl
@[simp] theorem modGroup_gangs : (s.modGroup k f).gangs = s.gangs := rfl
@[simp] theorem modGroup_warps : (s.modGroup k f).warps = s.warps := rfl
@[simp] theorem modGroup_cores : (s.modGroup k f).cores = s.cores := rfl
@[simp] theorem modGroup_saved : (s.modGroup k f).saved = s.saved := rfl
@[simp] theorem modGroup_ticket : (s.modGroup k f).ticket = s.ticket := rfl
@[simp] theorem modGroup_served : (s.modGroup k f).served = s.served := rfl
@[simp] theorem modGroup_commits : (s.modGroup k f).commits = s.commits := rfl
@[simp] theorem modGroup_lock : (s.modGroup k f).lock = s.lock := rfl
@[simp] theorem modGroup_lockQueue : (s.modGroup k f).lockQueue = s.lockQueue := rfl
@[simp] theorem modGroup_txSlots : (s.modGroup k f).txSlots = s.txSlots := rfl
@[simp] theorem modGroup_slotQueue : (s.modGroup k f).slotQueue = s.slotQueue := rfl
@[simp] theorem modGroup_remote : (s.modGroup k f).remote = s.remote := rfl
@[simp] theorem modGroup_nextRemote : (s.modGroup k f).nextRemote = s.nextRemote := rfl
@[simp] theorem modGroup_dxctb : (s.modGroup k f).dxctb = s.dxctb := rfl
@[simp] theorem modGroup_dxfq : (s.modGroup k f).dxfq = s.dxfq := rfl
@[simp] theorem modGroup_pend : (s.modGroup k f).pend = s.pend := rfl
@[simp] theorem modGroup_heldFaults : (s.modGroup k f).heldFaults = s.heldFaults := rfl
@[simp] theorem modGroup_ringWritten : (s.modGroup k f).ringWritten = s.ringWritten := rfl
@[simp] theorem modGroup_faultSeq : (s.modGroup k f).faultSeq = s.faultSeq := rfl
@[simp] theorem modGroup_dxcorr : (s.modGroup k f).dxcorr = s.dxcorr := rfl
@[simp] theorem modGroup_dxpois : (s.modGroup k f).dxpois = s.dxpois := rfl
@[simp] theorem modGroup_dxsnap : (s.modGroup k f).dxsnap = s.dxsnap := rfl
@[simp] theorem modGroup_snapCount : (s.modGroup k f).snapCount = s.snapCount := rfl
@[simp] theorem modGroup_snapAt : (s.modGroup k f).snapAt = s.snapAt := rfl
@[simp] theorem modGroup_snapLatched : (s.modGroup k f).snapLatched = s.snapLatched := rfl
@[simp] theorem modGroup_dxobj : (s.modGroup k f).dxobj = s.dxobj := rfl
@[simp] theorem modGroup_objPending : (s.modGroup k f).objPending = s.objPending := rfl
@[simp] theorem modGroup_objects : (s.modGroup k f).objects = s.objects := rfl
@[simp] theorem modGroup_dxrtsel : (s.modGroup k f).dxrtsel = s.dxrtsel := rfl
@[simp] theorem modGroup_routes : (s.modGroup k f).routes = s.routes := rfl
@[simp] theorem modGroup_linkReplay : (s.modGroup k f).linkReplay = s.linkReplay := rfl
@[simp] theorem modGroup_linkDown : (s.modGroup k f).linkDown = s.linkDown := rfl
@[simp] theorem modGroup_linkBad : (s.modGroup k f).linkBad = s.linkBad := rfl
@[simp] theorem modGroup_modq : (s.modGroup k f).modq = s.modq := rfl
@[simp] theorem modGroup_hubq : (s.modGroup k f).hubq = s.hubq := rfl
@[simp] theorem modGroup_dieq : (s.modGroup k f).dieq = s.dieq := rfl
@[simp] theorem modGroup_purges : (s.modGroup k f).purges = s.purges := rfl
@[simp] theorem modGroup_dxrw : (s.modGroup k f).dxrw = s.dxrw := rfl
@[simp] theorem modGroup_nodeWins : (s.modGroup k f).nodeWins = s.nodeWins := rfl
@[simp] theorem modGroup_partials : (s.modGroup k f).partials = s.partials := rfl
@[simp] theorem modGroup_ports : (s.modGroup k f).ports = s.ports := rfl
@[simp] theorem modGroup_dir : (s.modGroup k f).dir = s.dir := rfl
@[simp] theorem modGroup_dirOrder : (s.modGroup k f).dirOrder = s.dirOrder := rfl
@[simp] theorem modGroup_holders : (s.modGroup k f).holders = s.holders := rfl
@[simp] theorem modGroup_asks : (s.modGroup k f).asks = s.asks := rfl
@[simp] theorem modGroup_nextTag : (s.modGroup k f).nextTag = s.nextTag := rfl
@[simp] theorem modGroup_replyTo : (s.modGroup k f).replyTo = s.replyTo := rfl
@[simp] theorem modGroup_instances : (s.modGroup k f).instances = s.instances := rfl
@[simp] theorem modGroup_closedIds : (s.modGroup k f).closedIds = s.closedIds := rfl
@[simp] theorem modGroup_joinWait : (s.modGroup k f).joinWait = s.joinWait := rfl
@[simp] theorem modGroup_side : (s.modGroup k f).side = s.side := rfl
@[simp] theorem modGroup_sideUse : (s.modGroup k f).sideUse = s.sideUse := rfl
@[simp] theorem modGroup_plans : (s.modGroup k f).plans = s.plans := rfl
@[simp] theorem modGroup_digests : (s.modGroup k f).digests = s.digests := rfl
@[simp] theorem modGroup_digestsDue : (s.modGroup k f).digestsDue = s.digestsDue := rfl
@[simp] theorem modGroup_xqCoded : (s.modGroup k f).xqCoded = s.xqCoded := rfl
@[simp] theorem modGroup_xqMisses : (s.modGroup k f).xqMisses = s.xqMisses := rfl
@[simp] theorem modGroup_nextOp : (s.modGroup k f).nextOp = s.nextOp := rfl
@[simp] theorem modGroup_dxflsel : (s.modGroup k f).dxflsel = s.dxflsel := rfl
@[simp] theorem modGroup_flows : (s.modGroup k f).flows = s.flows := rfl
@[simp] theorem modGroup_eth : (s.modGroup k f).eth = s.eth := rfl
@[simp] theorem modGroup_dxpcw : (s.modGroup k f).dxpcw = s.dxpcw := rfl
@[simp] theorem modGroup_pcieQ : (s.modGroup k f).pcieQ = s.pcieQ := rfl
@[simp] theorem modGroup_msix : (s.modGroup k f).msix = s.msix := rfl
@[simp] theorem modGroup_images : (s.modGroup k f).images = s.images := rfl
@[simp] theorem modGroup_ckpt : (s.modGroup k f).ckpt = s.ckpt := rfl
@[simp] theorem modGroup_bands : (s.modGroup k f).bands = s.bands := rfl
@[simp] theorem modGroup_clkMhz : (s.modGroup k f).clkMhz = s.clkMhz := rfl
@[simp] theorem modGroup_clkNext : (s.modGroup k f).clkNext = s.clkNext := rfl
@[simp] theorem modGroup_clkFail : (s.modGroup k f).clkFail = s.clkFail := rfl
@[simp] theorem modGroup_clkFix : (s.modGroup k f).clkFix = s.clkFix := rfl
@[simp] theorem modGroup_throttle : (s.modGroup k f).throttle = s.throttle := rfl
@[simp] theorem modGroup_amps : (s.modGroup k f).amps = s.amps := rfl
@[simp] theorem modGroup_thrEvents : (s.modGroup k f).thrEvents = s.thrEvents := rfl
@[simp] theorem modGroup_quietSince : (s.modGroup k f).quietSince = s.quietSince := rfl
@[simp] theorem modGroup_bootReason : (s.modGroup k f).bootReason = s.bootReason := rfl
@[simp] theorem modGroup_bootAttempts : (s.modGroup k f).bootAttempts = s.bootAttempts := rfl
@[simp] theorem modGroup_bootMinimal : (s.modGroup k f).bootMinimal = s.bootMinimal := rfl
@[simp] theorem modGroup_boot : (s.modGroup k f).boot = s.boot := rfl
@[simp] theorem modGroup_bootArea : (s.modGroup k f).bootArea = s.bootArea := rfl
@[simp] theorem modGroup_powered : (s.modGroup k f).powered = s.powered := rfl
@[simp] theorem modGroup_outbox : (s.modGroup k f).outbox = s.outbox := rfl
@[simp] theorem modGroup_harts : (s.modGroup k f).harts = s.harts := rfl
@[simp] theorem modGroup_moves : (s.modGroup k f).moves = s.moves := rfl
@[simp] theorem modGroup_iss : (s.modGroup k f).iss = s.iss := rfl
end

/-! ## modGang -/

section
variable (s : State) (k : Nat) (f : Gang → Gang)
@[simp] theorem modGang_mem : (s.modGang k f).mem = s.mem := rfl
@[simp] theorem modGang_poison : (s.modGang k f).poison = s.poison := rfl
@[simp] theorem modGang_shadows : (s.modGang k f).shadows = s.shadows := rfl
@[simp] theorem modGang_classes : (s.modGang k f).classes = s.classes := rfl
@[simp] theorem modGang_tlb : (s.modGang k f).tlb = s.tlb := rfl
@[simp] theorem modGang_invals : (s.modGang k f).invals = s.invals := rfl
@[simp] theorem modGang_pkg : (s.modGang k f).pkg = s.pkg := rfl
@[simp] theorem modGang_ps : (s.modGang k f).ps = s.ps := rfl
@[simp] theorem modGang_cycles : (s.modGang k f).cycles = s.cycles := rfl
@[simp] theorem modGang_dieSince : (s.modGang k f).dieSince = s.dieSince := rfl
@[simp] theorem modGang_nextGrid : (s.modGang k f).nextGrid = s.nextGrid := rfl
@[simp] theorem modGang_grids : (s.modGang k f).grids = s.grids := rfl
@[simp] theorem modGang_groups : (s.modGang k f).groups = s.groups := rfl
@[simp] theorem modGang_warps : (s.modGang k f).warps = s.warps := rfl
@[simp] theorem modGang_cores : (s.modGang k f).cores = s.cores := rfl
@[simp] theorem modGang_saved : (s.modGang k f).saved = s.saved := rfl
@[simp] theorem modGang_ticket : (s.modGang k f).ticket = s.ticket := rfl
@[simp] theorem modGang_served : (s.modGang k f).served = s.served := rfl
@[simp] theorem modGang_commits : (s.modGang k f).commits = s.commits := rfl
@[simp] theorem modGang_lock : (s.modGang k f).lock = s.lock := rfl
@[simp] theorem modGang_lockQueue : (s.modGang k f).lockQueue = s.lockQueue := rfl
@[simp] theorem modGang_txSlots : (s.modGang k f).txSlots = s.txSlots := rfl
@[simp] theorem modGang_slotQueue : (s.modGang k f).slotQueue = s.slotQueue := rfl
@[simp] theorem modGang_remote : (s.modGang k f).remote = s.remote := rfl
@[simp] theorem modGang_nextRemote : (s.modGang k f).nextRemote = s.nextRemote := rfl
@[simp] theorem modGang_dxctb : (s.modGang k f).dxctb = s.dxctb := rfl
@[simp] theorem modGang_dxfq : (s.modGang k f).dxfq = s.dxfq := rfl
@[simp] theorem modGang_pend : (s.modGang k f).pend = s.pend := rfl
@[simp] theorem modGang_heldFaults : (s.modGang k f).heldFaults = s.heldFaults := rfl
@[simp] theorem modGang_ringWritten : (s.modGang k f).ringWritten = s.ringWritten := rfl
@[simp] theorem modGang_faultSeq : (s.modGang k f).faultSeq = s.faultSeq := rfl
@[simp] theorem modGang_dxcorr : (s.modGang k f).dxcorr = s.dxcorr := rfl
@[simp] theorem modGang_dxpois : (s.modGang k f).dxpois = s.dxpois := rfl
@[simp] theorem modGang_dxsnap : (s.modGang k f).dxsnap = s.dxsnap := rfl
@[simp] theorem modGang_snapCount : (s.modGang k f).snapCount = s.snapCount := rfl
@[simp] theorem modGang_snapAt : (s.modGang k f).snapAt = s.snapAt := rfl
@[simp] theorem modGang_snapLatched : (s.modGang k f).snapLatched = s.snapLatched := rfl
@[simp] theorem modGang_dxobj : (s.modGang k f).dxobj = s.dxobj := rfl
@[simp] theorem modGang_objPending : (s.modGang k f).objPending = s.objPending := rfl
@[simp] theorem modGang_objects : (s.modGang k f).objects = s.objects := rfl
@[simp] theorem modGang_dxrtsel : (s.modGang k f).dxrtsel = s.dxrtsel := rfl
@[simp] theorem modGang_routes : (s.modGang k f).routes = s.routes := rfl
@[simp] theorem modGang_linkReplay : (s.modGang k f).linkReplay = s.linkReplay := rfl
@[simp] theorem modGang_linkDown : (s.modGang k f).linkDown = s.linkDown := rfl
@[simp] theorem modGang_linkBad : (s.modGang k f).linkBad = s.linkBad := rfl
@[simp] theorem modGang_modq : (s.modGang k f).modq = s.modq := rfl
@[simp] theorem modGang_hubq : (s.modGang k f).hubq = s.hubq := rfl
@[simp] theorem modGang_dieq : (s.modGang k f).dieq = s.dieq := rfl
@[simp] theorem modGang_purges : (s.modGang k f).purges = s.purges := rfl
@[simp] theorem modGang_dxrw : (s.modGang k f).dxrw = s.dxrw := rfl
@[simp] theorem modGang_nodeWins : (s.modGang k f).nodeWins = s.nodeWins := rfl
@[simp] theorem modGang_partials : (s.modGang k f).partials = s.partials := rfl
@[simp] theorem modGang_ports : (s.modGang k f).ports = s.ports := rfl
@[simp] theorem modGang_dir : (s.modGang k f).dir = s.dir := rfl
@[simp] theorem modGang_dirOrder : (s.modGang k f).dirOrder = s.dirOrder := rfl
@[simp] theorem modGang_holders : (s.modGang k f).holders = s.holders := rfl
@[simp] theorem modGang_asks : (s.modGang k f).asks = s.asks := rfl
@[simp] theorem modGang_nextTag : (s.modGang k f).nextTag = s.nextTag := rfl
@[simp] theorem modGang_replyTo : (s.modGang k f).replyTo = s.replyTo := rfl
@[simp] theorem modGang_instances : (s.modGang k f).instances = s.instances := rfl
@[simp] theorem modGang_closedIds : (s.modGang k f).closedIds = s.closedIds := rfl
@[simp] theorem modGang_joinWait : (s.modGang k f).joinWait = s.joinWait := rfl
@[simp] theorem modGang_side : (s.modGang k f).side = s.side := rfl
@[simp] theorem modGang_sideUse : (s.modGang k f).sideUse = s.sideUse := rfl
@[simp] theorem modGang_plans : (s.modGang k f).plans = s.plans := rfl
@[simp] theorem modGang_digests : (s.modGang k f).digests = s.digests := rfl
@[simp] theorem modGang_digestsDue : (s.modGang k f).digestsDue = s.digestsDue := rfl
@[simp] theorem modGang_xqCoded : (s.modGang k f).xqCoded = s.xqCoded := rfl
@[simp] theorem modGang_xqMisses : (s.modGang k f).xqMisses = s.xqMisses := rfl
@[simp] theorem modGang_nextOp : (s.modGang k f).nextOp = s.nextOp := rfl
@[simp] theorem modGang_dxflsel : (s.modGang k f).dxflsel = s.dxflsel := rfl
@[simp] theorem modGang_flows : (s.modGang k f).flows = s.flows := rfl
@[simp] theorem modGang_eth : (s.modGang k f).eth = s.eth := rfl
@[simp] theorem modGang_dxpcw : (s.modGang k f).dxpcw = s.dxpcw := rfl
@[simp] theorem modGang_pcieQ : (s.modGang k f).pcieQ = s.pcieQ := rfl
@[simp] theorem modGang_msix : (s.modGang k f).msix = s.msix := rfl
@[simp] theorem modGang_images : (s.modGang k f).images = s.images := rfl
@[simp] theorem modGang_ckpt : (s.modGang k f).ckpt = s.ckpt := rfl
@[simp] theorem modGang_bands : (s.modGang k f).bands = s.bands := rfl
@[simp] theorem modGang_clkMhz : (s.modGang k f).clkMhz = s.clkMhz := rfl
@[simp] theorem modGang_clkNext : (s.modGang k f).clkNext = s.clkNext := rfl
@[simp] theorem modGang_clkFail : (s.modGang k f).clkFail = s.clkFail := rfl
@[simp] theorem modGang_clkFix : (s.modGang k f).clkFix = s.clkFix := rfl
@[simp] theorem modGang_throttle : (s.modGang k f).throttle = s.throttle := rfl
@[simp] theorem modGang_amps : (s.modGang k f).amps = s.amps := rfl
@[simp] theorem modGang_thrEvents : (s.modGang k f).thrEvents = s.thrEvents := rfl
@[simp] theorem modGang_quietSince : (s.modGang k f).quietSince = s.quietSince := rfl
@[simp] theorem modGang_bootReason : (s.modGang k f).bootReason = s.bootReason := rfl
@[simp] theorem modGang_bootAttempts : (s.modGang k f).bootAttempts = s.bootAttempts := rfl
@[simp] theorem modGang_bootMinimal : (s.modGang k f).bootMinimal = s.bootMinimal := rfl
@[simp] theorem modGang_boot : (s.modGang k f).boot = s.boot := rfl
@[simp] theorem modGang_bootArea : (s.modGang k f).bootArea = s.bootArea := rfl
@[simp] theorem modGang_powered : (s.modGang k f).powered = s.powered := rfl
@[simp] theorem modGang_outbox : (s.modGang k f).outbox = s.outbox := rfl
@[simp] theorem modGang_harts : (s.modGang k f).harts = s.harts := rfl
@[simp] theorem modGang_moves : (s.modGang k f).moves = s.moves := rfl
@[simp] theorem modGang_iss : (s.modGang k f).iss = s.iss := rfl
end

/-! ## modGrid -/

section
variable (s : State) (k : Nat) (f : Grid → Grid)
@[simp] theorem modGrid_mem : (s.modGrid k f).mem = s.mem := rfl
@[simp] theorem modGrid_poison : (s.modGrid k f).poison = s.poison := rfl
@[simp] theorem modGrid_shadows : (s.modGrid k f).shadows = s.shadows := rfl
@[simp] theorem modGrid_classes : (s.modGrid k f).classes = s.classes := rfl
@[simp] theorem modGrid_tlb : (s.modGrid k f).tlb = s.tlb := rfl
@[simp] theorem modGrid_invals : (s.modGrid k f).invals = s.invals := rfl
@[simp] theorem modGrid_pkg : (s.modGrid k f).pkg = s.pkg := rfl
@[simp] theorem modGrid_ps : (s.modGrid k f).ps = s.ps := rfl
@[simp] theorem modGrid_cycles : (s.modGrid k f).cycles = s.cycles := rfl
@[simp] theorem modGrid_dieSince : (s.modGrid k f).dieSince = s.dieSince := rfl
@[simp] theorem modGrid_nextGrid : (s.modGrid k f).nextGrid = s.nextGrid := rfl
@[simp] theorem modGrid_gangs : (s.modGrid k f).gangs = s.gangs := rfl
@[simp] theorem modGrid_groups : (s.modGrid k f).groups = s.groups := rfl
@[simp] theorem modGrid_warps : (s.modGrid k f).warps = s.warps := rfl
@[simp] theorem modGrid_cores : (s.modGrid k f).cores = s.cores := rfl
@[simp] theorem modGrid_saved : (s.modGrid k f).saved = s.saved := rfl
@[simp] theorem modGrid_ticket : (s.modGrid k f).ticket = s.ticket := rfl
@[simp] theorem modGrid_served : (s.modGrid k f).served = s.served := rfl
@[simp] theorem modGrid_commits : (s.modGrid k f).commits = s.commits := rfl
@[simp] theorem modGrid_lock : (s.modGrid k f).lock = s.lock := rfl
@[simp] theorem modGrid_lockQueue : (s.modGrid k f).lockQueue = s.lockQueue := rfl
@[simp] theorem modGrid_txSlots : (s.modGrid k f).txSlots = s.txSlots := rfl
@[simp] theorem modGrid_slotQueue : (s.modGrid k f).slotQueue = s.slotQueue := rfl
@[simp] theorem modGrid_remote : (s.modGrid k f).remote = s.remote := rfl
@[simp] theorem modGrid_nextRemote : (s.modGrid k f).nextRemote = s.nextRemote := rfl
@[simp] theorem modGrid_dxctb : (s.modGrid k f).dxctb = s.dxctb := rfl
@[simp] theorem modGrid_dxfq : (s.modGrid k f).dxfq = s.dxfq := rfl
@[simp] theorem modGrid_pend : (s.modGrid k f).pend = s.pend := rfl
@[simp] theorem modGrid_heldFaults : (s.modGrid k f).heldFaults = s.heldFaults := rfl
@[simp] theorem modGrid_ringWritten : (s.modGrid k f).ringWritten = s.ringWritten := rfl
@[simp] theorem modGrid_faultSeq : (s.modGrid k f).faultSeq = s.faultSeq := rfl
@[simp] theorem modGrid_dxcorr : (s.modGrid k f).dxcorr = s.dxcorr := rfl
@[simp] theorem modGrid_dxpois : (s.modGrid k f).dxpois = s.dxpois := rfl
@[simp] theorem modGrid_dxsnap : (s.modGrid k f).dxsnap = s.dxsnap := rfl
@[simp] theorem modGrid_snapCount : (s.modGrid k f).snapCount = s.snapCount := rfl
@[simp] theorem modGrid_snapAt : (s.modGrid k f).snapAt = s.snapAt := rfl
@[simp] theorem modGrid_snapLatched : (s.modGrid k f).snapLatched = s.snapLatched := rfl
@[simp] theorem modGrid_dxobj : (s.modGrid k f).dxobj = s.dxobj := rfl
@[simp] theorem modGrid_objPending : (s.modGrid k f).objPending = s.objPending := rfl
@[simp] theorem modGrid_objects : (s.modGrid k f).objects = s.objects := rfl
@[simp] theorem modGrid_dxrtsel : (s.modGrid k f).dxrtsel = s.dxrtsel := rfl
@[simp] theorem modGrid_routes : (s.modGrid k f).routes = s.routes := rfl
@[simp] theorem modGrid_linkReplay : (s.modGrid k f).linkReplay = s.linkReplay := rfl
@[simp] theorem modGrid_linkDown : (s.modGrid k f).linkDown = s.linkDown := rfl
@[simp] theorem modGrid_linkBad : (s.modGrid k f).linkBad = s.linkBad := rfl
@[simp] theorem modGrid_modq : (s.modGrid k f).modq = s.modq := rfl
@[simp] theorem modGrid_hubq : (s.modGrid k f).hubq = s.hubq := rfl
@[simp] theorem modGrid_dieq : (s.modGrid k f).dieq = s.dieq := rfl
@[simp] theorem modGrid_purges : (s.modGrid k f).purges = s.purges := rfl
@[simp] theorem modGrid_dxrw : (s.modGrid k f).dxrw = s.dxrw := rfl
@[simp] theorem modGrid_nodeWins : (s.modGrid k f).nodeWins = s.nodeWins := rfl
@[simp] theorem modGrid_partials : (s.modGrid k f).partials = s.partials := rfl
@[simp] theorem modGrid_ports : (s.modGrid k f).ports = s.ports := rfl
@[simp] theorem modGrid_dir : (s.modGrid k f).dir = s.dir := rfl
@[simp] theorem modGrid_dirOrder : (s.modGrid k f).dirOrder = s.dirOrder := rfl
@[simp] theorem modGrid_holders : (s.modGrid k f).holders = s.holders := rfl
@[simp] theorem modGrid_asks : (s.modGrid k f).asks = s.asks := rfl
@[simp] theorem modGrid_nextTag : (s.modGrid k f).nextTag = s.nextTag := rfl
@[simp] theorem modGrid_replyTo : (s.modGrid k f).replyTo = s.replyTo := rfl
@[simp] theorem modGrid_instances : (s.modGrid k f).instances = s.instances := rfl
@[simp] theorem modGrid_closedIds : (s.modGrid k f).closedIds = s.closedIds := rfl
@[simp] theorem modGrid_joinWait : (s.modGrid k f).joinWait = s.joinWait := rfl
@[simp] theorem modGrid_side : (s.modGrid k f).side = s.side := rfl
@[simp] theorem modGrid_sideUse : (s.modGrid k f).sideUse = s.sideUse := rfl
@[simp] theorem modGrid_plans : (s.modGrid k f).plans = s.plans := rfl
@[simp] theorem modGrid_digests : (s.modGrid k f).digests = s.digests := rfl
@[simp] theorem modGrid_digestsDue : (s.modGrid k f).digestsDue = s.digestsDue := rfl
@[simp] theorem modGrid_xqCoded : (s.modGrid k f).xqCoded = s.xqCoded := rfl
@[simp] theorem modGrid_xqMisses : (s.modGrid k f).xqMisses = s.xqMisses := rfl
@[simp] theorem modGrid_nextOp : (s.modGrid k f).nextOp = s.nextOp := rfl
@[simp] theorem modGrid_dxflsel : (s.modGrid k f).dxflsel = s.dxflsel := rfl
@[simp] theorem modGrid_flows : (s.modGrid k f).flows = s.flows := rfl
@[simp] theorem modGrid_eth : (s.modGrid k f).eth = s.eth := rfl
@[simp] theorem modGrid_dxpcw : (s.modGrid k f).dxpcw = s.dxpcw := rfl
@[simp] theorem modGrid_pcieQ : (s.modGrid k f).pcieQ = s.pcieQ := rfl
@[simp] theorem modGrid_msix : (s.modGrid k f).msix = s.msix := rfl
@[simp] theorem modGrid_images : (s.modGrid k f).images = s.images := rfl
@[simp] theorem modGrid_ckpt : (s.modGrid k f).ckpt = s.ckpt := rfl
@[simp] theorem modGrid_bands : (s.modGrid k f).bands = s.bands := rfl
@[simp] theorem modGrid_clkMhz : (s.modGrid k f).clkMhz = s.clkMhz := rfl
@[simp] theorem modGrid_clkNext : (s.modGrid k f).clkNext = s.clkNext := rfl
@[simp] theorem modGrid_clkFail : (s.modGrid k f).clkFail = s.clkFail := rfl
@[simp] theorem modGrid_clkFix : (s.modGrid k f).clkFix = s.clkFix := rfl
@[simp] theorem modGrid_throttle : (s.modGrid k f).throttle = s.throttle := rfl
@[simp] theorem modGrid_amps : (s.modGrid k f).amps = s.amps := rfl
@[simp] theorem modGrid_thrEvents : (s.modGrid k f).thrEvents = s.thrEvents := rfl
@[simp] theorem modGrid_quietSince : (s.modGrid k f).quietSince = s.quietSince := rfl
@[simp] theorem modGrid_bootReason : (s.modGrid k f).bootReason = s.bootReason := rfl
@[simp] theorem modGrid_bootAttempts : (s.modGrid k f).bootAttempts = s.bootAttempts := rfl
@[simp] theorem modGrid_bootMinimal : (s.modGrid k f).bootMinimal = s.bootMinimal := rfl
@[simp] theorem modGrid_boot : (s.modGrid k f).boot = s.boot := rfl
@[simp] theorem modGrid_bootArea : (s.modGrid k f).bootArea = s.bootArea := rfl
@[simp] theorem modGrid_powered : (s.modGrid k f).powered = s.powered := rfl
@[simp] theorem modGrid_outbox : (s.modGrid k f).outbox = s.outbox := rfl
@[simp] theorem modGrid_harts : (s.modGrid k f).harts = s.harts := rfl
@[simp] theorem modGrid_moves : (s.modGrid k f).moves = s.moves := rfl
@[simp] theorem modGrid_iss : (s.modGrid k f).iss = s.iss := rfl
end

/-! ## modCore -/

section
variable (s : State) (k : Nat) (f : Core → Core)
@[simp] theorem modCore_mem : (s.modCore k f).mem = s.mem := rfl
@[simp] theorem modCore_poison : (s.modCore k f).poison = s.poison := rfl
@[simp] theorem modCore_shadows : (s.modCore k f).shadows = s.shadows := rfl
@[simp] theorem modCore_classes : (s.modCore k f).classes = s.classes := rfl
@[simp] theorem modCore_tlb : (s.modCore k f).tlb = s.tlb := rfl
@[simp] theorem modCore_invals : (s.modCore k f).invals = s.invals := rfl
@[simp] theorem modCore_pkg : (s.modCore k f).pkg = s.pkg := rfl
@[simp] theorem modCore_ps : (s.modCore k f).ps = s.ps := rfl
@[simp] theorem modCore_cycles : (s.modCore k f).cycles = s.cycles := rfl
@[simp] theorem modCore_dieSince : (s.modCore k f).dieSince = s.dieSince := rfl
@[simp] theorem modCore_nextGrid : (s.modCore k f).nextGrid = s.nextGrid := rfl
@[simp] theorem modCore_grids : (s.modCore k f).grids = s.grids := rfl
@[simp] theorem modCore_gangs : (s.modCore k f).gangs = s.gangs := rfl
@[simp] theorem modCore_groups : (s.modCore k f).groups = s.groups := rfl
@[simp] theorem modCore_warps : (s.modCore k f).warps = s.warps := rfl
@[simp] theorem modCore_saved : (s.modCore k f).saved = s.saved := rfl
@[simp] theorem modCore_ticket : (s.modCore k f).ticket = s.ticket := rfl
@[simp] theorem modCore_served : (s.modCore k f).served = s.served := rfl
@[simp] theorem modCore_commits : (s.modCore k f).commits = s.commits := rfl
@[simp] theorem modCore_lock : (s.modCore k f).lock = s.lock := rfl
@[simp] theorem modCore_lockQueue : (s.modCore k f).lockQueue = s.lockQueue := rfl
@[simp] theorem modCore_txSlots : (s.modCore k f).txSlots = s.txSlots := rfl
@[simp] theorem modCore_slotQueue : (s.modCore k f).slotQueue = s.slotQueue := rfl
@[simp] theorem modCore_remote : (s.modCore k f).remote = s.remote := rfl
@[simp] theorem modCore_nextRemote : (s.modCore k f).nextRemote = s.nextRemote := rfl
@[simp] theorem modCore_dxctb : (s.modCore k f).dxctb = s.dxctb := rfl
@[simp] theorem modCore_dxfq : (s.modCore k f).dxfq = s.dxfq := rfl
@[simp] theorem modCore_pend : (s.modCore k f).pend = s.pend := rfl
@[simp] theorem modCore_heldFaults : (s.modCore k f).heldFaults = s.heldFaults := rfl
@[simp] theorem modCore_ringWritten : (s.modCore k f).ringWritten = s.ringWritten := rfl
@[simp] theorem modCore_faultSeq : (s.modCore k f).faultSeq = s.faultSeq := rfl
@[simp] theorem modCore_dxcorr : (s.modCore k f).dxcorr = s.dxcorr := rfl
@[simp] theorem modCore_dxpois : (s.modCore k f).dxpois = s.dxpois := rfl
@[simp] theorem modCore_dxsnap : (s.modCore k f).dxsnap = s.dxsnap := rfl
@[simp] theorem modCore_snapCount : (s.modCore k f).snapCount = s.snapCount := rfl
@[simp] theorem modCore_snapAt : (s.modCore k f).snapAt = s.snapAt := rfl
@[simp] theorem modCore_snapLatched : (s.modCore k f).snapLatched = s.snapLatched := rfl
@[simp] theorem modCore_dxobj : (s.modCore k f).dxobj = s.dxobj := rfl
@[simp] theorem modCore_objPending : (s.modCore k f).objPending = s.objPending := rfl
@[simp] theorem modCore_objects : (s.modCore k f).objects = s.objects := rfl
@[simp] theorem modCore_dxrtsel : (s.modCore k f).dxrtsel = s.dxrtsel := rfl
@[simp] theorem modCore_routes : (s.modCore k f).routes = s.routes := rfl
@[simp] theorem modCore_linkReplay : (s.modCore k f).linkReplay = s.linkReplay := rfl
@[simp] theorem modCore_linkDown : (s.modCore k f).linkDown = s.linkDown := rfl
@[simp] theorem modCore_linkBad : (s.modCore k f).linkBad = s.linkBad := rfl
@[simp] theorem modCore_modq : (s.modCore k f).modq = s.modq := rfl
@[simp] theorem modCore_hubq : (s.modCore k f).hubq = s.hubq := rfl
@[simp] theorem modCore_dieq : (s.modCore k f).dieq = s.dieq := rfl
@[simp] theorem modCore_purges : (s.modCore k f).purges = s.purges := rfl
@[simp] theorem modCore_dxrw : (s.modCore k f).dxrw = s.dxrw := rfl
@[simp] theorem modCore_nodeWins : (s.modCore k f).nodeWins = s.nodeWins := rfl
@[simp] theorem modCore_partials : (s.modCore k f).partials = s.partials := rfl
@[simp] theorem modCore_ports : (s.modCore k f).ports = s.ports := rfl
@[simp] theorem modCore_dir : (s.modCore k f).dir = s.dir := rfl
@[simp] theorem modCore_dirOrder : (s.modCore k f).dirOrder = s.dirOrder := rfl
@[simp] theorem modCore_holders : (s.modCore k f).holders = s.holders := rfl
@[simp] theorem modCore_asks : (s.modCore k f).asks = s.asks := rfl
@[simp] theorem modCore_nextTag : (s.modCore k f).nextTag = s.nextTag := rfl
@[simp] theorem modCore_replyTo : (s.modCore k f).replyTo = s.replyTo := rfl
@[simp] theorem modCore_instances : (s.modCore k f).instances = s.instances := rfl
@[simp] theorem modCore_closedIds : (s.modCore k f).closedIds = s.closedIds := rfl
@[simp] theorem modCore_joinWait : (s.modCore k f).joinWait = s.joinWait := rfl
@[simp] theorem modCore_side : (s.modCore k f).side = s.side := rfl
@[simp] theorem modCore_sideUse : (s.modCore k f).sideUse = s.sideUse := rfl
@[simp] theorem modCore_plans : (s.modCore k f).plans = s.plans := rfl
@[simp] theorem modCore_digests : (s.modCore k f).digests = s.digests := rfl
@[simp] theorem modCore_digestsDue : (s.modCore k f).digestsDue = s.digestsDue := rfl
@[simp] theorem modCore_xqCoded : (s.modCore k f).xqCoded = s.xqCoded := rfl
@[simp] theorem modCore_xqMisses : (s.modCore k f).xqMisses = s.xqMisses := rfl
@[simp] theorem modCore_nextOp : (s.modCore k f).nextOp = s.nextOp := rfl
@[simp] theorem modCore_dxflsel : (s.modCore k f).dxflsel = s.dxflsel := rfl
@[simp] theorem modCore_flows : (s.modCore k f).flows = s.flows := rfl
@[simp] theorem modCore_eth : (s.modCore k f).eth = s.eth := rfl
@[simp] theorem modCore_dxpcw : (s.modCore k f).dxpcw = s.dxpcw := rfl
@[simp] theorem modCore_pcieQ : (s.modCore k f).pcieQ = s.pcieQ := rfl
@[simp] theorem modCore_msix : (s.modCore k f).msix = s.msix := rfl
@[simp] theorem modCore_images : (s.modCore k f).images = s.images := rfl
@[simp] theorem modCore_ckpt : (s.modCore k f).ckpt = s.ckpt := rfl
@[simp] theorem modCore_bands : (s.modCore k f).bands = s.bands := rfl
@[simp] theorem modCore_clkMhz : (s.modCore k f).clkMhz = s.clkMhz := rfl
@[simp] theorem modCore_clkNext : (s.modCore k f).clkNext = s.clkNext := rfl
@[simp] theorem modCore_clkFail : (s.modCore k f).clkFail = s.clkFail := rfl
@[simp] theorem modCore_clkFix : (s.modCore k f).clkFix = s.clkFix := rfl
@[simp] theorem modCore_throttle : (s.modCore k f).throttle = s.throttle := rfl
@[simp] theorem modCore_amps : (s.modCore k f).amps = s.amps := rfl
@[simp] theorem modCore_thrEvents : (s.modCore k f).thrEvents = s.thrEvents := rfl
@[simp] theorem modCore_quietSince : (s.modCore k f).quietSince = s.quietSince := rfl
@[simp] theorem modCore_bootReason : (s.modCore k f).bootReason = s.bootReason := rfl
@[simp] theorem modCore_bootAttempts : (s.modCore k f).bootAttempts = s.bootAttempts := rfl
@[simp] theorem modCore_bootMinimal : (s.modCore k f).bootMinimal = s.bootMinimal := rfl
@[simp] theorem modCore_boot : (s.modCore k f).boot = s.boot := rfl
@[simp] theorem modCore_bootArea : (s.modCore k f).bootArea = s.bootArea := rfl
@[simp] theorem modCore_powered : (s.modCore k f).powered = s.powered := rfl
@[simp] theorem modCore_outbox : (s.modCore k f).outbox = s.outbox := rfl
@[simp] theorem modCore_harts : (s.modCore k f).harts = s.harts := rfl
@[simp] theorem modCore_moves : (s.modCore k f).moves = s.moves := rfl
@[simp] theorem modCore_iss : (s.modCore k f).iss = s.iss := rfl
end

/-! ## modHart -/

section
variable (s : State) (k : Nat) (f : Hart → Hart)
@[simp] theorem modHart_mem : (s.modHart k f).mem = s.mem := rfl
@[simp] theorem modHart_poison : (s.modHart k f).poison = s.poison := rfl
@[simp] theorem modHart_shadows : (s.modHart k f).shadows = s.shadows := rfl
@[simp] theorem modHart_classes : (s.modHart k f).classes = s.classes := rfl
@[simp] theorem modHart_tlb : (s.modHart k f).tlb = s.tlb := rfl
@[simp] theorem modHart_invals : (s.modHart k f).invals = s.invals := rfl
@[simp] theorem modHart_pkg : (s.modHart k f).pkg = s.pkg := rfl
@[simp] theorem modHart_ps : (s.modHart k f).ps = s.ps := rfl
@[simp] theorem modHart_cycles : (s.modHart k f).cycles = s.cycles := rfl
@[simp] theorem modHart_dieSince : (s.modHart k f).dieSince = s.dieSince := rfl
@[simp] theorem modHart_nextGrid : (s.modHart k f).nextGrid = s.nextGrid := rfl
@[simp] theorem modHart_grids : (s.modHart k f).grids = s.grids := rfl
@[simp] theorem modHart_gangs : (s.modHart k f).gangs = s.gangs := rfl
@[simp] theorem modHart_groups : (s.modHart k f).groups = s.groups := rfl
@[simp] theorem modHart_warps : (s.modHart k f).warps = s.warps := rfl
@[simp] theorem modHart_cores : (s.modHart k f).cores = s.cores := rfl
@[simp] theorem modHart_saved : (s.modHart k f).saved = s.saved := rfl
@[simp] theorem modHart_ticket : (s.modHart k f).ticket = s.ticket := rfl
@[simp] theorem modHart_served : (s.modHart k f).served = s.served := rfl
@[simp] theorem modHart_commits : (s.modHart k f).commits = s.commits := rfl
@[simp] theorem modHart_lock : (s.modHart k f).lock = s.lock := rfl
@[simp] theorem modHart_lockQueue : (s.modHart k f).lockQueue = s.lockQueue := rfl
@[simp] theorem modHart_txSlots : (s.modHart k f).txSlots = s.txSlots := rfl
@[simp] theorem modHart_slotQueue : (s.modHart k f).slotQueue = s.slotQueue := rfl
@[simp] theorem modHart_remote : (s.modHart k f).remote = s.remote := rfl
@[simp] theorem modHart_nextRemote : (s.modHart k f).nextRemote = s.nextRemote := rfl
@[simp] theorem modHart_dxctb : (s.modHart k f).dxctb = s.dxctb := rfl
@[simp] theorem modHart_dxfq : (s.modHart k f).dxfq = s.dxfq := rfl
@[simp] theorem modHart_pend : (s.modHart k f).pend = s.pend := rfl
@[simp] theorem modHart_heldFaults : (s.modHart k f).heldFaults = s.heldFaults := rfl
@[simp] theorem modHart_ringWritten : (s.modHart k f).ringWritten = s.ringWritten := rfl
@[simp] theorem modHart_faultSeq : (s.modHart k f).faultSeq = s.faultSeq := rfl
@[simp] theorem modHart_dxcorr : (s.modHart k f).dxcorr = s.dxcorr := rfl
@[simp] theorem modHart_dxpois : (s.modHart k f).dxpois = s.dxpois := rfl
@[simp] theorem modHart_dxsnap : (s.modHart k f).dxsnap = s.dxsnap := rfl
@[simp] theorem modHart_snapCount : (s.modHart k f).snapCount = s.snapCount := rfl
@[simp] theorem modHart_snapAt : (s.modHart k f).snapAt = s.snapAt := rfl
@[simp] theorem modHart_snapLatched : (s.modHart k f).snapLatched = s.snapLatched := rfl
@[simp] theorem modHart_dxobj : (s.modHart k f).dxobj = s.dxobj := rfl
@[simp] theorem modHart_objPending : (s.modHart k f).objPending = s.objPending := rfl
@[simp] theorem modHart_objects : (s.modHart k f).objects = s.objects := rfl
@[simp] theorem modHart_dxrtsel : (s.modHart k f).dxrtsel = s.dxrtsel := rfl
@[simp] theorem modHart_routes : (s.modHart k f).routes = s.routes := rfl
@[simp] theorem modHart_linkReplay : (s.modHart k f).linkReplay = s.linkReplay := rfl
@[simp] theorem modHart_linkDown : (s.modHart k f).linkDown = s.linkDown := rfl
@[simp] theorem modHart_linkBad : (s.modHart k f).linkBad = s.linkBad := rfl
@[simp] theorem modHart_modq : (s.modHart k f).modq = s.modq := rfl
@[simp] theorem modHart_hubq : (s.modHart k f).hubq = s.hubq := rfl
@[simp] theorem modHart_dieq : (s.modHart k f).dieq = s.dieq := rfl
@[simp] theorem modHart_purges : (s.modHart k f).purges = s.purges := rfl
@[simp] theorem modHart_dxrw : (s.modHart k f).dxrw = s.dxrw := rfl
@[simp] theorem modHart_nodeWins : (s.modHart k f).nodeWins = s.nodeWins := rfl
@[simp] theorem modHart_partials : (s.modHart k f).partials = s.partials := rfl
@[simp] theorem modHart_ports : (s.modHart k f).ports = s.ports := rfl
@[simp] theorem modHart_dir : (s.modHart k f).dir = s.dir := rfl
@[simp] theorem modHart_dirOrder : (s.modHart k f).dirOrder = s.dirOrder := rfl
@[simp] theorem modHart_holders : (s.modHart k f).holders = s.holders := rfl
@[simp] theorem modHart_asks : (s.modHart k f).asks = s.asks := rfl
@[simp] theorem modHart_nextTag : (s.modHart k f).nextTag = s.nextTag := rfl
@[simp] theorem modHart_replyTo : (s.modHart k f).replyTo = s.replyTo := rfl
@[simp] theorem modHart_instances : (s.modHart k f).instances = s.instances := rfl
@[simp] theorem modHart_closedIds : (s.modHart k f).closedIds = s.closedIds := rfl
@[simp] theorem modHart_joinWait : (s.modHart k f).joinWait = s.joinWait := rfl
@[simp] theorem modHart_side : (s.modHart k f).side = s.side := rfl
@[simp] theorem modHart_sideUse : (s.modHart k f).sideUse = s.sideUse := rfl
@[simp] theorem modHart_plans : (s.modHart k f).plans = s.plans := rfl
@[simp] theorem modHart_digests : (s.modHart k f).digests = s.digests := rfl
@[simp] theorem modHart_digestsDue : (s.modHart k f).digestsDue = s.digestsDue := rfl
@[simp] theorem modHart_xqCoded : (s.modHart k f).xqCoded = s.xqCoded := rfl
@[simp] theorem modHart_xqMisses : (s.modHart k f).xqMisses = s.xqMisses := rfl
@[simp] theorem modHart_nextOp : (s.modHart k f).nextOp = s.nextOp := rfl
@[simp] theorem modHart_dxflsel : (s.modHart k f).dxflsel = s.dxflsel := rfl
@[simp] theorem modHart_flows : (s.modHart k f).flows = s.flows := rfl
@[simp] theorem modHart_eth : (s.modHart k f).eth = s.eth := rfl
@[simp] theorem modHart_dxpcw : (s.modHart k f).dxpcw = s.dxpcw := rfl
@[simp] theorem modHart_pcieQ : (s.modHart k f).pcieQ = s.pcieQ := rfl
@[simp] theorem modHart_msix : (s.modHart k f).msix = s.msix := rfl
@[simp] theorem modHart_images : (s.modHart k f).images = s.images := rfl
@[simp] theorem modHart_ckpt : (s.modHart k f).ckpt = s.ckpt := rfl
@[simp] theorem modHart_bands : (s.modHart k f).bands = s.bands := rfl
@[simp] theorem modHart_clkMhz : (s.modHart k f).clkMhz = s.clkMhz := rfl
@[simp] theorem modHart_clkNext : (s.modHart k f).clkNext = s.clkNext := rfl
@[simp] theorem modHart_clkFail : (s.modHart k f).clkFail = s.clkFail := rfl
@[simp] theorem modHart_clkFix : (s.modHart k f).clkFix = s.clkFix := rfl
@[simp] theorem modHart_throttle : (s.modHart k f).throttle = s.throttle := rfl
@[simp] theorem modHart_amps : (s.modHart k f).amps = s.amps := rfl
@[simp] theorem modHart_thrEvents : (s.modHart k f).thrEvents = s.thrEvents := rfl
@[simp] theorem modHart_quietSince : (s.modHart k f).quietSince = s.quietSince := rfl
@[simp] theorem modHart_bootReason : (s.modHart k f).bootReason = s.bootReason := rfl
@[simp] theorem modHart_bootAttempts : (s.modHart k f).bootAttempts = s.bootAttempts := rfl
@[simp] theorem modHart_bootMinimal : (s.modHart k f).bootMinimal = s.bootMinimal := rfl
@[simp] theorem modHart_boot : (s.modHart k f).boot = s.boot := rfl
@[simp] theorem modHart_bootArea : (s.modHart k f).bootArea = s.bootArea := rfl
@[simp] theorem modHart_powered : (s.modHart k f).powered = s.powered := rfl
@[simp] theorem modHart_outbox : (s.modHart k f).outbox = s.outbox := rfl
@[simp] theorem modHart_moves : (s.modHart k f).moves = s.moves := rfl
@[simp] theorem modHart_iss : (s.modHart k f).iss = s.iss := rfl
end

/-! ## modPort -/

section
variable (s : State) (k : Nat) (f : Port → Port)
@[simp] theorem modPort_mem : (s.modPort k f).mem = s.mem := rfl
@[simp] theorem modPort_poison : (s.modPort k f).poison = s.poison := rfl
@[simp] theorem modPort_shadows : (s.modPort k f).shadows = s.shadows := rfl
@[simp] theorem modPort_classes : (s.modPort k f).classes = s.classes := rfl
@[simp] theorem modPort_tlb : (s.modPort k f).tlb = s.tlb := rfl
@[simp] theorem modPort_invals : (s.modPort k f).invals = s.invals := rfl
@[simp] theorem modPort_pkg : (s.modPort k f).pkg = s.pkg := rfl
@[simp] theorem modPort_ps : (s.modPort k f).ps = s.ps := rfl
@[simp] theorem modPort_cycles : (s.modPort k f).cycles = s.cycles := rfl
@[simp] theorem modPort_dieSince : (s.modPort k f).dieSince = s.dieSince := rfl
@[simp] theorem modPort_nextGrid : (s.modPort k f).nextGrid = s.nextGrid := rfl
@[simp] theorem modPort_grids : (s.modPort k f).grids = s.grids := rfl
@[simp] theorem modPort_gangs : (s.modPort k f).gangs = s.gangs := rfl
@[simp] theorem modPort_groups : (s.modPort k f).groups = s.groups := rfl
@[simp] theorem modPort_warps : (s.modPort k f).warps = s.warps := rfl
@[simp] theorem modPort_cores : (s.modPort k f).cores = s.cores := rfl
@[simp] theorem modPort_saved : (s.modPort k f).saved = s.saved := rfl
@[simp] theorem modPort_ticket : (s.modPort k f).ticket = s.ticket := rfl
@[simp] theorem modPort_served : (s.modPort k f).served = s.served := rfl
@[simp] theorem modPort_commits : (s.modPort k f).commits = s.commits := rfl
@[simp] theorem modPort_lock : (s.modPort k f).lock = s.lock := rfl
@[simp] theorem modPort_lockQueue : (s.modPort k f).lockQueue = s.lockQueue := rfl
@[simp] theorem modPort_txSlots : (s.modPort k f).txSlots = s.txSlots := rfl
@[simp] theorem modPort_slotQueue : (s.modPort k f).slotQueue = s.slotQueue := rfl
@[simp] theorem modPort_remote : (s.modPort k f).remote = s.remote := rfl
@[simp] theorem modPort_nextRemote : (s.modPort k f).nextRemote = s.nextRemote := rfl
@[simp] theorem modPort_dxctb : (s.modPort k f).dxctb = s.dxctb := rfl
@[simp] theorem modPort_dxfq : (s.modPort k f).dxfq = s.dxfq := rfl
@[simp] theorem modPort_pend : (s.modPort k f).pend = s.pend := rfl
@[simp] theorem modPort_heldFaults : (s.modPort k f).heldFaults = s.heldFaults := rfl
@[simp] theorem modPort_ringWritten : (s.modPort k f).ringWritten = s.ringWritten := rfl
@[simp] theorem modPort_faultSeq : (s.modPort k f).faultSeq = s.faultSeq := rfl
@[simp] theorem modPort_dxcorr : (s.modPort k f).dxcorr = s.dxcorr := rfl
@[simp] theorem modPort_dxpois : (s.modPort k f).dxpois = s.dxpois := rfl
@[simp] theorem modPort_dxsnap : (s.modPort k f).dxsnap = s.dxsnap := rfl
@[simp] theorem modPort_snapCount : (s.modPort k f).snapCount = s.snapCount := rfl
@[simp] theorem modPort_snapAt : (s.modPort k f).snapAt = s.snapAt := rfl
@[simp] theorem modPort_snapLatched : (s.modPort k f).snapLatched = s.snapLatched := rfl
@[simp] theorem modPort_dxobj : (s.modPort k f).dxobj = s.dxobj := rfl
@[simp] theorem modPort_objPending : (s.modPort k f).objPending = s.objPending := rfl
@[simp] theorem modPort_objects : (s.modPort k f).objects = s.objects := rfl
@[simp] theorem modPort_dxrtsel : (s.modPort k f).dxrtsel = s.dxrtsel := rfl
@[simp] theorem modPort_routes : (s.modPort k f).routes = s.routes := rfl
@[simp] theorem modPort_linkReplay : (s.modPort k f).linkReplay = s.linkReplay := rfl
@[simp] theorem modPort_linkDown : (s.modPort k f).linkDown = s.linkDown := rfl
@[simp] theorem modPort_linkBad : (s.modPort k f).linkBad = s.linkBad := rfl
@[simp] theorem modPort_modq : (s.modPort k f).modq = s.modq := rfl
@[simp] theorem modPort_hubq : (s.modPort k f).hubq = s.hubq := rfl
@[simp] theorem modPort_dieq : (s.modPort k f).dieq = s.dieq := rfl
@[simp] theorem modPort_purges : (s.modPort k f).purges = s.purges := rfl
@[simp] theorem modPort_dxrw : (s.modPort k f).dxrw = s.dxrw := rfl
@[simp] theorem modPort_nodeWins : (s.modPort k f).nodeWins = s.nodeWins := rfl
@[simp] theorem modPort_partials : (s.modPort k f).partials = s.partials := rfl
@[simp] theorem modPort_dir : (s.modPort k f).dir = s.dir := rfl
@[simp] theorem modPort_dirOrder : (s.modPort k f).dirOrder = s.dirOrder := rfl
@[simp] theorem modPort_holders : (s.modPort k f).holders = s.holders := rfl
@[simp] theorem modPort_asks : (s.modPort k f).asks = s.asks := rfl
@[simp] theorem modPort_nextTag : (s.modPort k f).nextTag = s.nextTag := rfl
@[simp] theorem modPort_replyTo : (s.modPort k f).replyTo = s.replyTo := rfl
@[simp] theorem modPort_instances : (s.modPort k f).instances = s.instances := rfl
@[simp] theorem modPort_closedIds : (s.modPort k f).closedIds = s.closedIds := rfl
@[simp] theorem modPort_joinWait : (s.modPort k f).joinWait = s.joinWait := rfl
@[simp] theorem modPort_side : (s.modPort k f).side = s.side := rfl
@[simp] theorem modPort_sideUse : (s.modPort k f).sideUse = s.sideUse := rfl
@[simp] theorem modPort_plans : (s.modPort k f).plans = s.plans := rfl
@[simp] theorem modPort_digests : (s.modPort k f).digests = s.digests := rfl
@[simp] theorem modPort_digestsDue : (s.modPort k f).digestsDue = s.digestsDue := rfl
@[simp] theorem modPort_xqCoded : (s.modPort k f).xqCoded = s.xqCoded := rfl
@[simp] theorem modPort_xqMisses : (s.modPort k f).xqMisses = s.xqMisses := rfl
@[simp] theorem modPort_nextOp : (s.modPort k f).nextOp = s.nextOp := rfl
@[simp] theorem modPort_dxflsel : (s.modPort k f).dxflsel = s.dxflsel := rfl
@[simp] theorem modPort_flows : (s.modPort k f).flows = s.flows := rfl
@[simp] theorem modPort_eth : (s.modPort k f).eth = s.eth := rfl
@[simp] theorem modPort_dxpcw : (s.modPort k f).dxpcw = s.dxpcw := rfl
@[simp] theorem modPort_pcieQ : (s.modPort k f).pcieQ = s.pcieQ := rfl
@[simp] theorem modPort_msix : (s.modPort k f).msix = s.msix := rfl
@[simp] theorem modPort_images : (s.modPort k f).images = s.images := rfl
@[simp] theorem modPort_ckpt : (s.modPort k f).ckpt = s.ckpt := rfl
@[simp] theorem modPort_bands : (s.modPort k f).bands = s.bands := rfl
@[simp] theorem modPort_clkMhz : (s.modPort k f).clkMhz = s.clkMhz := rfl
@[simp] theorem modPort_clkNext : (s.modPort k f).clkNext = s.clkNext := rfl
@[simp] theorem modPort_clkFail : (s.modPort k f).clkFail = s.clkFail := rfl
@[simp] theorem modPort_clkFix : (s.modPort k f).clkFix = s.clkFix := rfl
@[simp] theorem modPort_throttle : (s.modPort k f).throttle = s.throttle := rfl
@[simp] theorem modPort_amps : (s.modPort k f).amps = s.amps := rfl
@[simp] theorem modPort_thrEvents : (s.modPort k f).thrEvents = s.thrEvents := rfl
@[simp] theorem modPort_quietSince : (s.modPort k f).quietSince = s.quietSince := rfl
@[simp] theorem modPort_bootReason : (s.modPort k f).bootReason = s.bootReason := rfl
@[simp] theorem modPort_bootAttempts : (s.modPort k f).bootAttempts = s.bootAttempts := rfl
@[simp] theorem modPort_bootMinimal : (s.modPort k f).bootMinimal = s.bootMinimal := rfl
@[simp] theorem modPort_boot : (s.modPort k f).boot = s.boot := rfl
@[simp] theorem modPort_bootArea : (s.modPort k f).bootArea = s.bootArea := rfl
@[simp] theorem modPort_powered : (s.modPort k f).powered = s.powered := rfl
@[simp] theorem modPort_outbox : (s.modPort k f).outbox = s.outbox := rfl
@[simp] theorem modPort_harts : (s.modPort k f).harts = s.harts := rfl
@[simp] theorem modPort_moves : (s.modPort k f).moves = s.moves := rfl
@[simp] theorem modPort_iss : (s.modPort k f).iss = s.iss := rfl
end

/-! ## emit -/

section
variable (s : State) (o : Out)
@[simp] theorem emit_mem : (s.emit o).mem = s.mem := rfl
@[simp] theorem emit_poison : (s.emit o).poison = s.poison := rfl
@[simp] theorem emit_shadows : (s.emit o).shadows = s.shadows := rfl
@[simp] theorem emit_classes : (s.emit o).classes = s.classes := rfl
@[simp] theorem emit_tlb : (s.emit o).tlb = s.tlb := rfl
@[simp] theorem emit_invals : (s.emit o).invals = s.invals := rfl
@[simp] theorem emit_pkg : (s.emit o).pkg = s.pkg := rfl
@[simp] theorem emit_ps : (s.emit o).ps = s.ps := rfl
@[simp] theorem emit_cycles : (s.emit o).cycles = s.cycles := rfl
@[simp] theorem emit_dieSince : (s.emit o).dieSince = s.dieSince := rfl
@[simp] theorem emit_nextGrid : (s.emit o).nextGrid = s.nextGrid := rfl
@[simp] theorem emit_grids : (s.emit o).grids = s.grids := rfl
@[simp] theorem emit_gangs : (s.emit o).gangs = s.gangs := rfl
@[simp] theorem emit_groups : (s.emit o).groups = s.groups := rfl
@[simp] theorem emit_warps : (s.emit o).warps = s.warps := rfl
@[simp] theorem emit_cores : (s.emit o).cores = s.cores := rfl
@[simp] theorem emit_saved : (s.emit o).saved = s.saved := rfl
@[simp] theorem emit_ticket : (s.emit o).ticket = s.ticket := rfl
@[simp] theorem emit_served : (s.emit o).served = s.served := rfl
@[simp] theorem emit_commits : (s.emit o).commits = s.commits := rfl
@[simp] theorem emit_lock : (s.emit o).lock = s.lock := rfl
@[simp] theorem emit_lockQueue : (s.emit o).lockQueue = s.lockQueue := rfl
@[simp] theorem emit_txSlots : (s.emit o).txSlots = s.txSlots := rfl
@[simp] theorem emit_slotQueue : (s.emit o).slotQueue = s.slotQueue := rfl
@[simp] theorem emit_remote : (s.emit o).remote = s.remote := rfl
@[simp] theorem emit_nextRemote : (s.emit o).nextRemote = s.nextRemote := rfl
@[simp] theorem emit_dxctb : (s.emit o).dxctb = s.dxctb := rfl
@[simp] theorem emit_dxfq : (s.emit o).dxfq = s.dxfq := rfl
@[simp] theorem emit_pend : (s.emit o).pend = s.pend := rfl
@[simp] theorem emit_heldFaults : (s.emit o).heldFaults = s.heldFaults := rfl
@[simp] theorem emit_ringWritten : (s.emit o).ringWritten = s.ringWritten := rfl
@[simp] theorem emit_faultSeq : (s.emit o).faultSeq = s.faultSeq := rfl
@[simp] theorem emit_dxcorr : (s.emit o).dxcorr = s.dxcorr := rfl
@[simp] theorem emit_dxpois : (s.emit o).dxpois = s.dxpois := rfl
@[simp] theorem emit_dxsnap : (s.emit o).dxsnap = s.dxsnap := rfl
@[simp] theorem emit_snapCount : (s.emit o).snapCount = s.snapCount := rfl
@[simp] theorem emit_snapAt : (s.emit o).snapAt = s.snapAt := rfl
@[simp] theorem emit_snapLatched : (s.emit o).snapLatched = s.snapLatched := rfl
@[simp] theorem emit_dxobj : (s.emit o).dxobj = s.dxobj := rfl
@[simp] theorem emit_objPending : (s.emit o).objPending = s.objPending := rfl
@[simp] theorem emit_objects : (s.emit o).objects = s.objects := rfl
@[simp] theorem emit_dxrtsel : (s.emit o).dxrtsel = s.dxrtsel := rfl
@[simp] theorem emit_routes : (s.emit o).routes = s.routes := rfl
@[simp] theorem emit_linkReplay : (s.emit o).linkReplay = s.linkReplay := rfl
@[simp] theorem emit_linkDown : (s.emit o).linkDown = s.linkDown := rfl
@[simp] theorem emit_linkBad : (s.emit o).linkBad = s.linkBad := rfl
@[simp] theorem emit_modq : (s.emit o).modq = s.modq := rfl
@[simp] theorem emit_hubq : (s.emit o).hubq = s.hubq := rfl
@[simp] theorem emit_dieq : (s.emit o).dieq = s.dieq := rfl
@[simp] theorem emit_purges : (s.emit o).purges = s.purges := rfl
@[simp] theorem emit_dxrw : (s.emit o).dxrw = s.dxrw := rfl
@[simp] theorem emit_nodeWins : (s.emit o).nodeWins = s.nodeWins := rfl
@[simp] theorem emit_partials : (s.emit o).partials = s.partials := rfl
@[simp] theorem emit_ports : (s.emit o).ports = s.ports := rfl
@[simp] theorem emit_dir : (s.emit o).dir = s.dir := rfl
@[simp] theorem emit_dirOrder : (s.emit o).dirOrder = s.dirOrder := rfl
@[simp] theorem emit_holders : (s.emit o).holders = s.holders := rfl
@[simp] theorem emit_asks : (s.emit o).asks = s.asks := rfl
@[simp] theorem emit_nextTag : (s.emit o).nextTag = s.nextTag := rfl
@[simp] theorem emit_replyTo : (s.emit o).replyTo = s.replyTo := rfl
@[simp] theorem emit_instances : (s.emit o).instances = s.instances := rfl
@[simp] theorem emit_closedIds : (s.emit o).closedIds = s.closedIds := rfl
@[simp] theorem emit_joinWait : (s.emit o).joinWait = s.joinWait := rfl
@[simp] theorem emit_side : (s.emit o).side = s.side := rfl
@[simp] theorem emit_sideUse : (s.emit o).sideUse = s.sideUse := rfl
@[simp] theorem emit_plans : (s.emit o).plans = s.plans := rfl
@[simp] theorem emit_digests : (s.emit o).digests = s.digests := rfl
@[simp] theorem emit_digestsDue : (s.emit o).digestsDue = s.digestsDue := rfl
@[simp] theorem emit_xqCoded : (s.emit o).xqCoded = s.xqCoded := rfl
@[simp] theorem emit_xqMisses : (s.emit o).xqMisses = s.xqMisses := rfl
@[simp] theorem emit_nextOp : (s.emit o).nextOp = s.nextOp := rfl
@[simp] theorem emit_dxflsel : (s.emit o).dxflsel = s.dxflsel := rfl
@[simp] theorem emit_flows : (s.emit o).flows = s.flows := rfl
@[simp] theorem emit_eth : (s.emit o).eth = s.eth := rfl
@[simp] theorem emit_dxpcw : (s.emit o).dxpcw = s.dxpcw := rfl
@[simp] theorem emit_pcieQ : (s.emit o).pcieQ = s.pcieQ := rfl
@[simp] theorem emit_msix : (s.emit o).msix = s.msix := rfl
@[simp] theorem emit_images : (s.emit o).images = s.images := rfl
@[simp] theorem emit_ckpt : (s.emit o).ckpt = s.ckpt := rfl
@[simp] theorem emit_bands : (s.emit o).bands = s.bands := rfl
@[simp] theorem emit_clkMhz : (s.emit o).clkMhz = s.clkMhz := rfl
@[simp] theorem emit_clkNext : (s.emit o).clkNext = s.clkNext := rfl
@[simp] theorem emit_clkFail : (s.emit o).clkFail = s.clkFail := rfl
@[simp] theorem emit_clkFix : (s.emit o).clkFix = s.clkFix := rfl
@[simp] theorem emit_throttle : (s.emit o).throttle = s.throttle := rfl
@[simp] theorem emit_amps : (s.emit o).amps = s.amps := rfl
@[simp] theorem emit_thrEvents : (s.emit o).thrEvents = s.thrEvents := rfl
@[simp] theorem emit_quietSince : (s.emit o).quietSince = s.quietSince := rfl
@[simp] theorem emit_bootReason : (s.emit o).bootReason = s.bootReason := rfl
@[simp] theorem emit_bootAttempts : (s.emit o).bootAttempts = s.bootAttempts := rfl
@[simp] theorem emit_bootMinimal : (s.emit o).bootMinimal = s.bootMinimal := rfl
@[simp] theorem emit_boot : (s.emit o).boot = s.boot := rfl
@[simp] theorem emit_bootArea : (s.emit o).bootArea = s.bootArea := rfl
@[simp] theorem emit_powered : (s.emit o).powered = s.powered := rfl
@[simp] theorem emit_harts : (s.emit o).harts = s.harts := rfl
@[simp] theorem emit_moves : (s.emit o).moves = s.moves := rfl
@[simp] theorem emit_iss : (s.emit o).iss = s.iss := rfl
end

/-! ## setPoison -/

section
variable (s : State) (l : List Nat)
@[simp] theorem setPoison_mem : (s.setPoison l).mem = s.mem := rfl
@[simp] theorem setPoison_shadows : (s.setPoison l).shadows = s.shadows := rfl
@[simp] theorem setPoison_classes : (s.setPoison l).classes = s.classes := rfl
@[simp] theorem setPoison_tlb : (s.setPoison l).tlb = s.tlb := rfl
@[simp] theorem setPoison_invals : (s.setPoison l).invals = s.invals := rfl
@[simp] theorem setPoison_pkg : (s.setPoison l).pkg = s.pkg := rfl
@[simp] theorem setPoison_ps : (s.setPoison l).ps = s.ps := rfl
@[simp] theorem setPoison_cycles : (s.setPoison l).cycles = s.cycles := rfl
@[simp] theorem setPoison_dieSince : (s.setPoison l).dieSince = s.dieSince := rfl
@[simp] theorem setPoison_nextGrid : (s.setPoison l).nextGrid = s.nextGrid := rfl
@[simp] theorem setPoison_grids : (s.setPoison l).grids = s.grids := rfl
@[simp] theorem setPoison_gangs : (s.setPoison l).gangs = s.gangs := rfl
@[simp] theorem setPoison_groups : (s.setPoison l).groups = s.groups := rfl
@[simp] theorem setPoison_warps : (s.setPoison l).warps = s.warps := rfl
@[simp] theorem setPoison_cores : (s.setPoison l).cores = s.cores := rfl
@[simp] theorem setPoison_saved : (s.setPoison l).saved = s.saved := rfl
@[simp] theorem setPoison_ticket : (s.setPoison l).ticket = s.ticket := rfl
@[simp] theorem setPoison_served : (s.setPoison l).served = s.served := rfl
@[simp] theorem setPoison_commits : (s.setPoison l).commits = s.commits := rfl
@[simp] theorem setPoison_lock : (s.setPoison l).lock = s.lock := rfl
@[simp] theorem setPoison_lockQueue : (s.setPoison l).lockQueue = s.lockQueue := rfl
@[simp] theorem setPoison_txSlots : (s.setPoison l).txSlots = s.txSlots := rfl
@[simp] theorem setPoison_slotQueue : (s.setPoison l).slotQueue = s.slotQueue := rfl
@[simp] theorem setPoison_remote : (s.setPoison l).remote = s.remote := rfl
@[simp] theorem setPoison_nextRemote : (s.setPoison l).nextRemote = s.nextRemote := rfl
@[simp] theorem setPoison_dxctb : (s.setPoison l).dxctb = s.dxctb := rfl
@[simp] theorem setPoison_dxfq : (s.setPoison l).dxfq = s.dxfq := rfl
@[simp] theorem setPoison_pend : (s.setPoison l).pend = s.pend := rfl
@[simp] theorem setPoison_heldFaults : (s.setPoison l).heldFaults = s.heldFaults := rfl
@[simp] theorem setPoison_ringWritten : (s.setPoison l).ringWritten = s.ringWritten := rfl
@[simp] theorem setPoison_faultSeq : (s.setPoison l).faultSeq = s.faultSeq := rfl
@[simp] theorem setPoison_dxcorr : (s.setPoison l).dxcorr = s.dxcorr := rfl
@[simp] theorem setPoison_dxpois : (s.setPoison l).dxpois = s.dxpois := rfl
@[simp] theorem setPoison_dxsnap : (s.setPoison l).dxsnap = s.dxsnap := rfl
@[simp] theorem setPoison_snapCount : (s.setPoison l).snapCount = s.snapCount := rfl
@[simp] theorem setPoison_snapAt : (s.setPoison l).snapAt = s.snapAt := rfl
@[simp] theorem setPoison_snapLatched : (s.setPoison l).snapLatched = s.snapLatched := rfl
@[simp] theorem setPoison_dxobj : (s.setPoison l).dxobj = s.dxobj := rfl
@[simp] theorem setPoison_objPending : (s.setPoison l).objPending = s.objPending := rfl
@[simp] theorem setPoison_objects : (s.setPoison l).objects = s.objects := rfl
@[simp] theorem setPoison_dxrtsel : (s.setPoison l).dxrtsel = s.dxrtsel := rfl
@[simp] theorem setPoison_routes : (s.setPoison l).routes = s.routes := rfl
@[simp] theorem setPoison_linkReplay : (s.setPoison l).linkReplay = s.linkReplay := rfl
@[simp] theorem setPoison_linkDown : (s.setPoison l).linkDown = s.linkDown := rfl
@[simp] theorem setPoison_linkBad : (s.setPoison l).linkBad = s.linkBad := rfl
@[simp] theorem setPoison_modq : (s.setPoison l).modq = s.modq := rfl
@[simp] theorem setPoison_hubq : (s.setPoison l).hubq = s.hubq := rfl
@[simp] theorem setPoison_dieq : (s.setPoison l).dieq = s.dieq := rfl
@[simp] theorem setPoison_purges : (s.setPoison l).purges = s.purges := rfl
@[simp] theorem setPoison_dxrw : (s.setPoison l).dxrw = s.dxrw := rfl
@[simp] theorem setPoison_nodeWins : (s.setPoison l).nodeWins = s.nodeWins := rfl
@[simp] theorem setPoison_partials : (s.setPoison l).partials = s.partials := rfl
@[simp] theorem setPoison_ports : (s.setPoison l).ports = s.ports := rfl
@[simp] theorem setPoison_dir : (s.setPoison l).dir = s.dir := rfl
@[simp] theorem setPoison_dirOrder : (s.setPoison l).dirOrder = s.dirOrder := rfl
@[simp] theorem setPoison_holders : (s.setPoison l).holders = s.holders := rfl
@[simp] theorem setPoison_asks : (s.setPoison l).asks = s.asks := rfl
@[simp] theorem setPoison_nextTag : (s.setPoison l).nextTag = s.nextTag := rfl
@[simp] theorem setPoison_replyTo : (s.setPoison l).replyTo = s.replyTo := rfl
@[simp] theorem setPoison_instances : (s.setPoison l).instances = s.instances := rfl
@[simp] theorem setPoison_closedIds : (s.setPoison l).closedIds = s.closedIds := rfl
@[simp] theorem setPoison_joinWait : (s.setPoison l).joinWait = s.joinWait := rfl
@[simp] theorem setPoison_side : (s.setPoison l).side = s.side := rfl
@[simp] theorem setPoison_sideUse : (s.setPoison l).sideUse = s.sideUse := rfl
@[simp] theorem setPoison_plans : (s.setPoison l).plans = s.plans := rfl
@[simp] theorem setPoison_digests : (s.setPoison l).digests = s.digests := rfl
@[simp] theorem setPoison_digestsDue : (s.setPoison l).digestsDue = s.digestsDue := rfl
@[simp] theorem setPoison_xqCoded : (s.setPoison l).xqCoded = s.xqCoded := rfl
@[simp] theorem setPoison_xqMisses : (s.setPoison l).xqMisses = s.xqMisses := rfl
@[simp] theorem setPoison_nextOp : (s.setPoison l).nextOp = s.nextOp := rfl
@[simp] theorem setPoison_dxflsel : (s.setPoison l).dxflsel = s.dxflsel := rfl
@[simp] theorem setPoison_flows : (s.setPoison l).flows = s.flows := rfl
@[simp] theorem setPoison_eth : (s.setPoison l).eth = s.eth := rfl
@[simp] theorem setPoison_dxpcw : (s.setPoison l).dxpcw = s.dxpcw := rfl
@[simp] theorem setPoison_pcieQ : (s.setPoison l).pcieQ = s.pcieQ := rfl
@[simp] theorem setPoison_msix : (s.setPoison l).msix = s.msix := rfl
@[simp] theorem setPoison_images : (s.setPoison l).images = s.images := rfl
@[simp] theorem setPoison_ckpt : (s.setPoison l).ckpt = s.ckpt := rfl
@[simp] theorem setPoison_bands : (s.setPoison l).bands = s.bands := rfl
@[simp] theorem setPoison_clkMhz : (s.setPoison l).clkMhz = s.clkMhz := rfl
@[simp] theorem setPoison_clkNext : (s.setPoison l).clkNext = s.clkNext := rfl
@[simp] theorem setPoison_clkFail : (s.setPoison l).clkFail = s.clkFail := rfl
@[simp] theorem setPoison_clkFix : (s.setPoison l).clkFix = s.clkFix := rfl
@[simp] theorem setPoison_throttle : (s.setPoison l).throttle = s.throttle := rfl
@[simp] theorem setPoison_amps : (s.setPoison l).amps = s.amps := rfl
@[simp] theorem setPoison_thrEvents : (s.setPoison l).thrEvents = s.thrEvents := rfl
@[simp] theorem setPoison_quietSince : (s.setPoison l).quietSince = s.quietSince := rfl
@[simp] theorem setPoison_bootReason : (s.setPoison l).bootReason = s.bootReason := rfl
@[simp] theorem setPoison_bootAttempts : (s.setPoison l).bootAttempts = s.bootAttempts := rfl
@[simp] theorem setPoison_bootMinimal : (s.setPoison l).bootMinimal = s.bootMinimal := rfl
@[simp] theorem setPoison_boot : (s.setPoison l).boot = s.boot := rfl
@[simp] theorem setPoison_bootArea : (s.setPoison l).bootArea = s.bootArea := rfl
@[simp] theorem setPoison_powered : (s.setPoison l).powered = s.powered := rfl
@[simp] theorem setPoison_outbox : (s.setPoison l).outbox = s.outbox := rfl
@[simp] theorem setPoison_harts : (s.setPoison l).harts = s.harts := rfl
@[simp] theorem setPoison_moves : (s.setPoison l).moves = s.moves := rfl
@[simp] theorem setPoison_iss : (s.setPoison l).iss = s.iss := rfl
end

/-! ## putBytes -/

section
variable (s : State) (k : Nat) (l : List Byte)
@[simp] theorem putBytes_shadows : (s.putBytes k l).shadows = s.shadows := rfl
@[simp] theorem putBytes_classes : (s.putBytes k l).classes = s.classes := rfl
@[simp] theorem putBytes_tlb : (s.putBytes k l).tlb = s.tlb := rfl
@[simp] theorem putBytes_invals : (s.putBytes k l).invals = s.invals := rfl
@[simp] theorem putBytes_pkg : (s.putBytes k l).pkg = s.pkg := rfl
@[simp] theorem putBytes_ps : (s.putBytes k l).ps = s.ps := rfl
@[simp] theorem putBytes_cycles : (s.putBytes k l).cycles = s.cycles := rfl
@[simp] theorem putBytes_dieSince : (s.putBytes k l).dieSince = s.dieSince := rfl
@[simp] theorem putBytes_nextGrid : (s.putBytes k l).nextGrid = s.nextGrid := rfl
@[simp] theorem putBytes_grids : (s.putBytes k l).grids = s.grids := rfl
@[simp] theorem putBytes_gangs : (s.putBytes k l).gangs = s.gangs := rfl
@[simp] theorem putBytes_groups : (s.putBytes k l).groups = s.groups := rfl
@[simp] theorem putBytes_warps : (s.putBytes k l).warps = s.warps := rfl
@[simp] theorem putBytes_cores : (s.putBytes k l).cores = s.cores := rfl
@[simp] theorem putBytes_saved : (s.putBytes k l).saved = s.saved := rfl
@[simp] theorem putBytes_ticket : (s.putBytes k l).ticket = s.ticket := rfl
@[simp] theorem putBytes_served : (s.putBytes k l).served = s.served := rfl
@[simp] theorem putBytes_commits : (s.putBytes k l).commits = s.commits := rfl
@[simp] theorem putBytes_lock : (s.putBytes k l).lock = s.lock := rfl
@[simp] theorem putBytes_lockQueue : (s.putBytes k l).lockQueue = s.lockQueue := rfl
@[simp] theorem putBytes_txSlots : (s.putBytes k l).txSlots = s.txSlots := rfl
@[simp] theorem putBytes_slotQueue : (s.putBytes k l).slotQueue = s.slotQueue := rfl
@[simp] theorem putBytes_remote : (s.putBytes k l).remote = s.remote := rfl
@[simp] theorem putBytes_nextRemote : (s.putBytes k l).nextRemote = s.nextRemote := rfl
@[simp] theorem putBytes_dxctb : (s.putBytes k l).dxctb = s.dxctb := rfl
@[simp] theorem putBytes_dxfq : (s.putBytes k l).dxfq = s.dxfq := rfl
@[simp] theorem putBytes_pend : (s.putBytes k l).pend = s.pend := rfl
@[simp] theorem putBytes_heldFaults : (s.putBytes k l).heldFaults = s.heldFaults := rfl
@[simp] theorem putBytes_ringWritten : (s.putBytes k l).ringWritten = s.ringWritten := rfl
@[simp] theorem putBytes_faultSeq : (s.putBytes k l).faultSeq = s.faultSeq := rfl
@[simp] theorem putBytes_dxcorr : (s.putBytes k l).dxcorr = s.dxcorr := rfl
@[simp] theorem putBytes_dxpois : (s.putBytes k l).dxpois = s.dxpois := rfl
@[simp] theorem putBytes_dxsnap : (s.putBytes k l).dxsnap = s.dxsnap := rfl
@[simp] theorem putBytes_snapCount : (s.putBytes k l).snapCount = s.snapCount := rfl
@[simp] theorem putBytes_snapAt : (s.putBytes k l).snapAt = s.snapAt := rfl
@[simp] theorem putBytes_snapLatched : (s.putBytes k l).snapLatched = s.snapLatched := rfl
@[simp] theorem putBytes_dxobj : (s.putBytes k l).dxobj = s.dxobj := rfl
@[simp] theorem putBytes_objPending : (s.putBytes k l).objPending = s.objPending := rfl
@[simp] theorem putBytes_objects : (s.putBytes k l).objects = s.objects := rfl
@[simp] theorem putBytes_dxrtsel : (s.putBytes k l).dxrtsel = s.dxrtsel := rfl
@[simp] theorem putBytes_routes : (s.putBytes k l).routes = s.routes := rfl
@[simp] theorem putBytes_linkReplay : (s.putBytes k l).linkReplay = s.linkReplay := rfl
@[simp] theorem putBytes_linkDown : (s.putBytes k l).linkDown = s.linkDown := rfl
@[simp] theorem putBytes_linkBad : (s.putBytes k l).linkBad = s.linkBad := rfl
@[simp] theorem putBytes_modq : (s.putBytes k l).modq = s.modq := rfl
@[simp] theorem putBytes_hubq : (s.putBytes k l).hubq = s.hubq := rfl
@[simp] theorem putBytes_dieq : (s.putBytes k l).dieq = s.dieq := rfl
@[simp] theorem putBytes_purges : (s.putBytes k l).purges = s.purges := rfl
@[simp] theorem putBytes_dxrw : (s.putBytes k l).dxrw = s.dxrw := rfl
@[simp] theorem putBytes_nodeWins : (s.putBytes k l).nodeWins = s.nodeWins := rfl
@[simp] theorem putBytes_partials : (s.putBytes k l).partials = s.partials := rfl
@[simp] theorem putBytes_ports : (s.putBytes k l).ports = s.ports := rfl
@[simp] theorem putBytes_dir : (s.putBytes k l).dir = s.dir := rfl
@[simp] theorem putBytes_dirOrder : (s.putBytes k l).dirOrder = s.dirOrder := rfl
@[simp] theorem putBytes_holders : (s.putBytes k l).holders = s.holders := rfl
@[simp] theorem putBytes_asks : (s.putBytes k l).asks = s.asks := rfl
@[simp] theorem putBytes_nextTag : (s.putBytes k l).nextTag = s.nextTag := rfl
@[simp] theorem putBytes_replyTo : (s.putBytes k l).replyTo = s.replyTo := rfl
@[simp] theorem putBytes_instances : (s.putBytes k l).instances = s.instances := rfl
@[simp] theorem putBytes_closedIds : (s.putBytes k l).closedIds = s.closedIds := rfl
@[simp] theorem putBytes_joinWait : (s.putBytes k l).joinWait = s.joinWait := rfl
@[simp] theorem putBytes_side : (s.putBytes k l).side = s.side := rfl
@[simp] theorem putBytes_sideUse : (s.putBytes k l).sideUse = s.sideUse := rfl
@[simp] theorem putBytes_plans : (s.putBytes k l).plans = s.plans := rfl
@[simp] theorem putBytes_digests : (s.putBytes k l).digests = s.digests := rfl
@[simp] theorem putBytes_digestsDue : (s.putBytes k l).digestsDue = s.digestsDue := rfl
@[simp] theorem putBytes_xqCoded : (s.putBytes k l).xqCoded = s.xqCoded := rfl
@[simp] theorem putBytes_xqMisses : (s.putBytes k l).xqMisses = s.xqMisses := rfl
@[simp] theorem putBytes_nextOp : (s.putBytes k l).nextOp = s.nextOp := rfl
@[simp] theorem putBytes_dxflsel : (s.putBytes k l).dxflsel = s.dxflsel := rfl
@[simp] theorem putBytes_flows : (s.putBytes k l).flows = s.flows := rfl
@[simp] theorem putBytes_eth : (s.putBytes k l).eth = s.eth := rfl
@[simp] theorem putBytes_dxpcw : (s.putBytes k l).dxpcw = s.dxpcw := rfl
@[simp] theorem putBytes_pcieQ : (s.putBytes k l).pcieQ = s.pcieQ := rfl
@[simp] theorem putBytes_msix : (s.putBytes k l).msix = s.msix := rfl
@[simp] theorem putBytes_images : (s.putBytes k l).images = s.images := rfl
@[simp] theorem putBytes_ckpt : (s.putBytes k l).ckpt = s.ckpt := rfl
@[simp] theorem putBytes_bands : (s.putBytes k l).bands = s.bands := rfl
@[simp] theorem putBytes_clkMhz : (s.putBytes k l).clkMhz = s.clkMhz := rfl
@[simp] theorem putBytes_clkNext : (s.putBytes k l).clkNext = s.clkNext := rfl
@[simp] theorem putBytes_clkFail : (s.putBytes k l).clkFail = s.clkFail := rfl
@[simp] theorem putBytes_clkFix : (s.putBytes k l).clkFix = s.clkFix := rfl
@[simp] theorem putBytes_throttle : (s.putBytes k l).throttle = s.throttle := rfl
@[simp] theorem putBytes_amps : (s.putBytes k l).amps = s.amps := rfl
@[simp] theorem putBytes_thrEvents : (s.putBytes k l).thrEvents = s.thrEvents := rfl
@[simp] theorem putBytes_quietSince : (s.putBytes k l).quietSince = s.quietSince := rfl
@[simp] theorem putBytes_bootReason : (s.putBytes k l).bootReason = s.bootReason := rfl
@[simp] theorem putBytes_bootAttempts : (s.putBytes k l).bootAttempts = s.bootAttempts := rfl
@[simp] theorem putBytes_bootMinimal : (s.putBytes k l).bootMinimal = s.bootMinimal := rfl
@[simp] theorem putBytes_boot : (s.putBytes k l).boot = s.boot := rfl
@[simp] theorem putBytes_bootArea : (s.putBytes k l).bootArea = s.bootArea := rfl
@[simp] theorem putBytes_powered : (s.putBytes k l).powered = s.powered := rfl
@[simp] theorem putBytes_outbox : (s.putBytes k l).outbox = s.outbox := rfl
@[simp] theorem putBytes_harts : (s.putBytes k l).harts = s.harts := rfl
@[simp] theorem putBytes_moves : (s.putBytes k l).moves = s.moves := rfl
@[simp] theorem putBytes_iss : (s.putBytes k l).iss = s.iss := rfl
end

/-! ## finish -/

section
variable (s : State) 
@[simp] theorem finish_mem : (s.finish).mem = s.mem := rfl
@[simp] theorem finish_poison : (s.finish).poison = s.poison := rfl
@[simp] theorem finish_shadows : (s.finish).shadows = s.shadows := rfl
@[simp] theorem finish_classes : (s.finish).classes = s.classes := rfl
@[simp] theorem finish_tlb : (s.finish).tlb = s.tlb := rfl
@[simp] theorem finish_invals : (s.finish).invals = s.invals := rfl
@[simp] theorem finish_pkg : (s.finish).pkg = s.pkg := rfl
@[simp] theorem finish_ps : (s.finish).ps = s.ps := rfl
@[simp] theorem finish_cycles : (s.finish).cycles = s.cycles := rfl
@[simp] theorem finish_dieSince : (s.finish).dieSince = s.dieSince := rfl
@[simp] theorem finish_nextGrid : (s.finish).nextGrid = s.nextGrid := rfl
@[simp] theorem finish_grids : (s.finish).grids = s.grids := rfl
@[simp] theorem finish_gangs : (s.finish).gangs = s.gangs := rfl
@[simp] theorem finish_groups : (s.finish).groups = s.groups := rfl
@[simp] theorem finish_cores : (s.finish).cores = s.cores := rfl
@[simp] theorem finish_saved : (s.finish).saved = s.saved := rfl
@[simp] theorem finish_ticket : (s.finish).ticket = s.ticket := rfl
@[simp] theorem finish_served : (s.finish).served = s.served := rfl
@[simp] theorem finish_commits : (s.finish).commits = s.commits := rfl
@[simp] theorem finish_lock : (s.finish).lock = s.lock := rfl
@[simp] theorem finish_lockQueue : (s.finish).lockQueue = s.lockQueue := rfl
@[simp] theorem finish_txSlots : (s.finish).txSlots = s.txSlots := rfl
@[simp] theorem finish_slotQueue : (s.finish).slotQueue = s.slotQueue := rfl
@[simp] theorem finish_remote : (s.finish).remote = s.remote := rfl
@[simp] theorem finish_nextRemote : (s.finish).nextRemote = s.nextRemote := rfl
@[simp] theorem finish_dxctb : (s.finish).dxctb = s.dxctb := rfl
@[simp] theorem finish_dxfq : (s.finish).dxfq = s.dxfq := rfl
@[simp] theorem finish_pend : (s.finish).pend = s.pend := rfl
@[simp] theorem finish_heldFaults : (s.finish).heldFaults = s.heldFaults := rfl
@[simp] theorem finish_ringWritten : (s.finish).ringWritten = s.ringWritten := rfl
@[simp] theorem finish_faultSeq : (s.finish).faultSeq = s.faultSeq := rfl
@[simp] theorem finish_dxcorr : (s.finish).dxcorr = s.dxcorr := rfl
@[simp] theorem finish_dxpois : (s.finish).dxpois = s.dxpois := rfl
@[simp] theorem finish_dxsnap : (s.finish).dxsnap = s.dxsnap := rfl
@[simp] theorem finish_snapCount : (s.finish).snapCount = s.snapCount := rfl
@[simp] theorem finish_snapAt : (s.finish).snapAt = s.snapAt := rfl
@[simp] theorem finish_snapLatched : (s.finish).snapLatched = s.snapLatched := rfl
@[simp] theorem finish_dxobj : (s.finish).dxobj = s.dxobj := rfl
@[simp] theorem finish_objPending : (s.finish).objPending = s.objPending := rfl
@[simp] theorem finish_objects : (s.finish).objects = s.objects := rfl
@[simp] theorem finish_dxrtsel : (s.finish).dxrtsel = s.dxrtsel := rfl
@[simp] theorem finish_routes : (s.finish).routes = s.routes := rfl
@[simp] theorem finish_linkReplay : (s.finish).linkReplay = s.linkReplay := rfl
@[simp] theorem finish_linkDown : (s.finish).linkDown = s.linkDown := rfl
@[simp] theorem finish_linkBad : (s.finish).linkBad = s.linkBad := rfl
@[simp] theorem finish_modq : (s.finish).modq = s.modq := rfl
@[simp] theorem finish_hubq : (s.finish).hubq = s.hubq := rfl
@[simp] theorem finish_dieq : (s.finish).dieq = s.dieq := rfl
@[simp] theorem finish_purges : (s.finish).purges = s.purges := rfl
@[simp] theorem finish_dxrw : (s.finish).dxrw = s.dxrw := rfl
@[simp] theorem finish_nodeWins : (s.finish).nodeWins = s.nodeWins := rfl
@[simp] theorem finish_partials : (s.finish).partials = s.partials := rfl
@[simp] theorem finish_ports : (s.finish).ports = s.ports := rfl
@[simp] theorem finish_dir : (s.finish).dir = s.dir := rfl
@[simp] theorem finish_dirOrder : (s.finish).dirOrder = s.dirOrder := rfl
@[simp] theorem finish_holders : (s.finish).holders = s.holders := rfl
@[simp] theorem finish_asks : (s.finish).asks = s.asks := rfl
@[simp] theorem finish_nextTag : (s.finish).nextTag = s.nextTag := rfl
@[simp] theorem finish_replyTo : (s.finish).replyTo = s.replyTo := rfl
@[simp] theorem finish_instances : (s.finish).instances = s.instances := rfl
@[simp] theorem finish_closedIds : (s.finish).closedIds = s.closedIds := rfl
@[simp] theorem finish_joinWait : (s.finish).joinWait = s.joinWait := rfl
@[simp] theorem finish_side : (s.finish).side = s.side := rfl
@[simp] theorem finish_sideUse : (s.finish).sideUse = s.sideUse := rfl
@[simp] theorem finish_plans : (s.finish).plans = s.plans := rfl
@[simp] theorem finish_digests : (s.finish).digests = s.digests := rfl
@[simp] theorem finish_digestsDue : (s.finish).digestsDue = s.digestsDue := rfl
@[simp] theorem finish_xqCoded : (s.finish).xqCoded = s.xqCoded := rfl
@[simp] theorem finish_xqMisses : (s.finish).xqMisses = s.xqMisses := rfl
@[simp] theorem finish_nextOp : (s.finish).nextOp = s.nextOp := rfl
@[simp] theorem finish_dxflsel : (s.finish).dxflsel = s.dxflsel := rfl
@[simp] theorem finish_flows : (s.finish).flows = s.flows := rfl
@[simp] theorem finish_eth : (s.finish).eth = s.eth := rfl
@[simp] theorem finish_dxpcw : (s.finish).dxpcw = s.dxpcw := rfl
@[simp] theorem finish_pcieQ : (s.finish).pcieQ = s.pcieQ := rfl
@[simp] theorem finish_msix : (s.finish).msix = s.msix := rfl
@[simp] theorem finish_images : (s.finish).images = s.images := rfl
@[simp] theorem finish_ckpt : (s.finish).ckpt = s.ckpt := rfl
@[simp] theorem finish_bands : (s.finish).bands = s.bands := rfl
@[simp] theorem finish_clkMhz : (s.finish).clkMhz = s.clkMhz := rfl
@[simp] theorem finish_clkNext : (s.finish).clkNext = s.clkNext := rfl
@[simp] theorem finish_clkFail : (s.finish).clkFail = s.clkFail := rfl
@[simp] theorem finish_clkFix : (s.finish).clkFix = s.clkFix := rfl
@[simp] theorem finish_throttle : (s.finish).throttle = s.throttle := rfl
@[simp] theorem finish_amps : (s.finish).amps = s.amps := rfl
@[simp] theorem finish_thrEvents : (s.finish).thrEvents = s.thrEvents := rfl
@[simp] theorem finish_quietSince : (s.finish).quietSince = s.quietSince := rfl
@[simp] theorem finish_bootReason : (s.finish).bootReason = s.bootReason := rfl
@[simp] theorem finish_bootAttempts : (s.finish).bootAttempts = s.bootAttempts := rfl
@[simp] theorem finish_bootMinimal : (s.finish).bootMinimal = s.bootMinimal := rfl
@[simp] theorem finish_boot : (s.finish).boot = s.boot := rfl
@[simp] theorem finish_bootArea : (s.finish).bootArea = s.bootArea := rfl
@[simp] theorem finish_powered : (s.finish).powered = s.powered := rfl
@[simp] theorem finish_outbox : (s.finish).outbox = s.outbox := rfl
@[simp] theorem finish_harts : (s.finish).harts = s.harts := rfl
@[simp] theorem finish_moves : (s.finish).moves = s.moves := rfl
@[simp] theorem finish_iss : (s.finish).iss = s.iss := rfl
end

/-! ## jump -/

section
variable (s : State) (pc : W64)
@[simp] theorem jump_mem : (s.jump pc).mem = s.mem := rfl
@[simp] theorem jump_poison : (s.jump pc).poison = s.poison := rfl
@[simp] theorem jump_shadows : (s.jump pc).shadows = s.shadows := rfl
@[simp] theorem jump_classes : (s.jump pc).classes = s.classes := rfl
@[simp] theorem jump_tlb : (s.jump pc).tlb = s.tlb := rfl
@[simp] theorem jump_invals : (s.jump pc).invals = s.invals := rfl
@[simp] theorem jump_pkg : (s.jump pc).pkg = s.pkg := rfl
@[simp] theorem jump_ps : (s.jump pc).ps = s.ps := rfl
@[simp] theorem jump_cycles : (s.jump pc).cycles = s.cycles := rfl
@[simp] theorem jump_dieSince : (s.jump pc).dieSince = s.dieSince := rfl
@[simp] theorem jump_nextGrid : (s.jump pc).nextGrid = s.nextGrid := rfl
@[simp] theorem jump_grids : (s.jump pc).grids = s.grids := rfl
@[simp] theorem jump_gangs : (s.jump pc).gangs = s.gangs := rfl
@[simp] theorem jump_groups : (s.jump pc).groups = s.groups := rfl
@[simp] theorem jump_cores : (s.jump pc).cores = s.cores := rfl
@[simp] theorem jump_saved : (s.jump pc).saved = s.saved := rfl
@[simp] theorem jump_ticket : (s.jump pc).ticket = s.ticket := rfl
@[simp] theorem jump_served : (s.jump pc).served = s.served := rfl
@[simp] theorem jump_commits : (s.jump pc).commits = s.commits := rfl
@[simp] theorem jump_lock : (s.jump pc).lock = s.lock := rfl
@[simp] theorem jump_lockQueue : (s.jump pc).lockQueue = s.lockQueue := rfl
@[simp] theorem jump_txSlots : (s.jump pc).txSlots = s.txSlots := rfl
@[simp] theorem jump_slotQueue : (s.jump pc).slotQueue = s.slotQueue := rfl
@[simp] theorem jump_remote : (s.jump pc).remote = s.remote := rfl
@[simp] theorem jump_nextRemote : (s.jump pc).nextRemote = s.nextRemote := rfl
@[simp] theorem jump_dxctb : (s.jump pc).dxctb = s.dxctb := rfl
@[simp] theorem jump_dxfq : (s.jump pc).dxfq = s.dxfq := rfl
@[simp] theorem jump_pend : (s.jump pc).pend = s.pend := rfl
@[simp] theorem jump_heldFaults : (s.jump pc).heldFaults = s.heldFaults := rfl
@[simp] theorem jump_ringWritten : (s.jump pc).ringWritten = s.ringWritten := rfl
@[simp] theorem jump_faultSeq : (s.jump pc).faultSeq = s.faultSeq := rfl
@[simp] theorem jump_dxcorr : (s.jump pc).dxcorr = s.dxcorr := rfl
@[simp] theorem jump_dxpois : (s.jump pc).dxpois = s.dxpois := rfl
@[simp] theorem jump_dxsnap : (s.jump pc).dxsnap = s.dxsnap := rfl
@[simp] theorem jump_snapCount : (s.jump pc).snapCount = s.snapCount := rfl
@[simp] theorem jump_snapAt : (s.jump pc).snapAt = s.snapAt := rfl
@[simp] theorem jump_snapLatched : (s.jump pc).snapLatched = s.snapLatched := rfl
@[simp] theorem jump_dxobj : (s.jump pc).dxobj = s.dxobj := rfl
@[simp] theorem jump_objPending : (s.jump pc).objPending = s.objPending := rfl
@[simp] theorem jump_objects : (s.jump pc).objects = s.objects := rfl
@[simp] theorem jump_dxrtsel : (s.jump pc).dxrtsel = s.dxrtsel := rfl
@[simp] theorem jump_routes : (s.jump pc).routes = s.routes := rfl
@[simp] theorem jump_linkReplay : (s.jump pc).linkReplay = s.linkReplay := rfl
@[simp] theorem jump_linkDown : (s.jump pc).linkDown = s.linkDown := rfl
@[simp] theorem jump_linkBad : (s.jump pc).linkBad = s.linkBad := rfl
@[simp] theorem jump_modq : (s.jump pc).modq = s.modq := rfl
@[simp] theorem jump_hubq : (s.jump pc).hubq = s.hubq := rfl
@[simp] theorem jump_dieq : (s.jump pc).dieq = s.dieq := rfl
@[simp] theorem jump_purges : (s.jump pc).purges = s.purges := rfl
@[simp] theorem jump_dxrw : (s.jump pc).dxrw = s.dxrw := rfl
@[simp] theorem jump_nodeWins : (s.jump pc).nodeWins = s.nodeWins := rfl
@[simp] theorem jump_partials : (s.jump pc).partials = s.partials := rfl
@[simp] theorem jump_ports : (s.jump pc).ports = s.ports := rfl
@[simp] theorem jump_dir : (s.jump pc).dir = s.dir := rfl
@[simp] theorem jump_dirOrder : (s.jump pc).dirOrder = s.dirOrder := rfl
@[simp] theorem jump_holders : (s.jump pc).holders = s.holders := rfl
@[simp] theorem jump_asks : (s.jump pc).asks = s.asks := rfl
@[simp] theorem jump_nextTag : (s.jump pc).nextTag = s.nextTag := rfl
@[simp] theorem jump_replyTo : (s.jump pc).replyTo = s.replyTo := rfl
@[simp] theorem jump_instances : (s.jump pc).instances = s.instances := rfl
@[simp] theorem jump_closedIds : (s.jump pc).closedIds = s.closedIds := rfl
@[simp] theorem jump_joinWait : (s.jump pc).joinWait = s.joinWait := rfl
@[simp] theorem jump_side : (s.jump pc).side = s.side := rfl
@[simp] theorem jump_sideUse : (s.jump pc).sideUse = s.sideUse := rfl
@[simp] theorem jump_plans : (s.jump pc).plans = s.plans := rfl
@[simp] theorem jump_digests : (s.jump pc).digests = s.digests := rfl
@[simp] theorem jump_digestsDue : (s.jump pc).digestsDue = s.digestsDue := rfl
@[simp] theorem jump_xqCoded : (s.jump pc).xqCoded = s.xqCoded := rfl
@[simp] theorem jump_xqMisses : (s.jump pc).xqMisses = s.xqMisses := rfl
@[simp] theorem jump_nextOp : (s.jump pc).nextOp = s.nextOp := rfl
@[simp] theorem jump_dxflsel : (s.jump pc).dxflsel = s.dxflsel := rfl
@[simp] theorem jump_flows : (s.jump pc).flows = s.flows := rfl
@[simp] theorem jump_eth : (s.jump pc).eth = s.eth := rfl
@[simp] theorem jump_dxpcw : (s.jump pc).dxpcw = s.dxpcw := rfl
@[simp] theorem jump_pcieQ : (s.jump pc).pcieQ = s.pcieQ := rfl
@[simp] theorem jump_msix : (s.jump pc).msix = s.msix := rfl
@[simp] theorem jump_images : (s.jump pc).images = s.images := rfl
@[simp] theorem jump_ckpt : (s.jump pc).ckpt = s.ckpt := rfl
@[simp] theorem jump_bands : (s.jump pc).bands = s.bands := rfl
@[simp] theorem jump_clkMhz : (s.jump pc).clkMhz = s.clkMhz := rfl
@[simp] theorem jump_clkNext : (s.jump pc).clkNext = s.clkNext := rfl
@[simp] theorem jump_clkFail : (s.jump pc).clkFail = s.clkFail := rfl
@[simp] theorem jump_clkFix : (s.jump pc).clkFix = s.clkFix := rfl
@[simp] theorem jump_throttle : (s.jump pc).throttle = s.throttle := rfl
@[simp] theorem jump_amps : (s.jump pc).amps = s.amps := rfl
@[simp] theorem jump_thrEvents : (s.jump pc).thrEvents = s.thrEvents := rfl
@[simp] theorem jump_quietSince : (s.jump pc).quietSince = s.quietSince := rfl
@[simp] theorem jump_bootReason : (s.jump pc).bootReason = s.bootReason := rfl
@[simp] theorem jump_bootAttempts : (s.jump pc).bootAttempts = s.bootAttempts := rfl
@[simp] theorem jump_bootMinimal : (s.jump pc).bootMinimal = s.bootMinimal := rfl
@[simp] theorem jump_boot : (s.jump pc).boot = s.boot := rfl
@[simp] theorem jump_bootArea : (s.jump pc).bootArea = s.bootArea := rfl
@[simp] theorem jump_powered : (s.jump pc).powered = s.powered := rfl
@[simp] theorem jump_outbox : (s.jump pc).outbox = s.outbox := rfl
@[simp] theorem jump_harts : (s.jump pc).harts = s.harts := rfl
@[simp] theorem jump_moves : (s.jump pc).moves = s.moves := rfl
@[simp] theorem jump_iss : (s.jump pc).iss = s.iss := rfl
end

/-! ## advance -/

section
variable (s : State) 
@[simp] theorem advance_mem : (s.advance).mem = s.mem := rfl
@[simp] theorem advance_poison : (s.advance).poison = s.poison := rfl
@[simp] theorem advance_shadows : (s.advance).shadows = s.shadows := rfl
@[simp] theorem advance_classes : (s.advance).classes = s.classes := rfl
@[simp] theorem advance_tlb : (s.advance).tlb = s.tlb := rfl
@[simp] theorem advance_invals : (s.advance).invals = s.invals := rfl
@[simp] theorem advance_pkg : (s.advance).pkg = s.pkg := rfl
@[simp] theorem advance_ps : (s.advance).ps = s.ps := rfl
@[simp] theorem advance_cycles : (s.advance).cycles = s.cycles := rfl
@[simp] theorem advance_dieSince : (s.advance).dieSince = s.dieSince := rfl
@[simp] theorem advance_nextGrid : (s.advance).nextGrid = s.nextGrid := rfl
@[simp] theorem advance_grids : (s.advance).grids = s.grids := rfl
@[simp] theorem advance_gangs : (s.advance).gangs = s.gangs := rfl
@[simp] theorem advance_groups : (s.advance).groups = s.groups := rfl
@[simp] theorem advance_cores : (s.advance).cores = s.cores := rfl
@[simp] theorem advance_saved : (s.advance).saved = s.saved := rfl
@[simp] theorem advance_ticket : (s.advance).ticket = s.ticket := rfl
@[simp] theorem advance_served : (s.advance).served = s.served := rfl
@[simp] theorem advance_commits : (s.advance).commits = s.commits := rfl
@[simp] theorem advance_lock : (s.advance).lock = s.lock := rfl
@[simp] theorem advance_lockQueue : (s.advance).lockQueue = s.lockQueue := rfl
@[simp] theorem advance_txSlots : (s.advance).txSlots = s.txSlots := rfl
@[simp] theorem advance_slotQueue : (s.advance).slotQueue = s.slotQueue := rfl
@[simp] theorem advance_remote : (s.advance).remote = s.remote := rfl
@[simp] theorem advance_nextRemote : (s.advance).nextRemote = s.nextRemote := rfl
@[simp] theorem advance_dxctb : (s.advance).dxctb = s.dxctb := rfl
@[simp] theorem advance_dxfq : (s.advance).dxfq = s.dxfq := rfl
@[simp] theorem advance_pend : (s.advance).pend = s.pend := rfl
@[simp] theorem advance_heldFaults : (s.advance).heldFaults = s.heldFaults := rfl
@[simp] theorem advance_ringWritten : (s.advance).ringWritten = s.ringWritten := rfl
@[simp] theorem advance_faultSeq : (s.advance).faultSeq = s.faultSeq := rfl
@[simp] theorem advance_dxcorr : (s.advance).dxcorr = s.dxcorr := rfl
@[simp] theorem advance_dxpois : (s.advance).dxpois = s.dxpois := rfl
@[simp] theorem advance_dxsnap : (s.advance).dxsnap = s.dxsnap := rfl
@[simp] theorem advance_snapCount : (s.advance).snapCount = s.snapCount := rfl
@[simp] theorem advance_snapAt : (s.advance).snapAt = s.snapAt := rfl
@[simp] theorem advance_snapLatched : (s.advance).snapLatched = s.snapLatched := rfl
@[simp] theorem advance_dxobj : (s.advance).dxobj = s.dxobj := rfl
@[simp] theorem advance_objPending : (s.advance).objPending = s.objPending := rfl
@[simp] theorem advance_objects : (s.advance).objects = s.objects := rfl
@[simp] theorem advance_dxrtsel : (s.advance).dxrtsel = s.dxrtsel := rfl
@[simp] theorem advance_routes : (s.advance).routes = s.routes := rfl
@[simp] theorem advance_linkReplay : (s.advance).linkReplay = s.linkReplay := rfl
@[simp] theorem advance_linkDown : (s.advance).linkDown = s.linkDown := rfl
@[simp] theorem advance_linkBad : (s.advance).linkBad = s.linkBad := rfl
@[simp] theorem advance_modq : (s.advance).modq = s.modq := rfl
@[simp] theorem advance_hubq : (s.advance).hubq = s.hubq := rfl
@[simp] theorem advance_dieq : (s.advance).dieq = s.dieq := rfl
@[simp] theorem advance_purges : (s.advance).purges = s.purges := rfl
@[simp] theorem advance_dxrw : (s.advance).dxrw = s.dxrw := rfl
@[simp] theorem advance_nodeWins : (s.advance).nodeWins = s.nodeWins := rfl
@[simp] theorem advance_partials : (s.advance).partials = s.partials := rfl
@[simp] theorem advance_ports : (s.advance).ports = s.ports := rfl
@[simp] theorem advance_dir : (s.advance).dir = s.dir := rfl
@[simp] theorem advance_dirOrder : (s.advance).dirOrder = s.dirOrder := rfl
@[simp] theorem advance_holders : (s.advance).holders = s.holders := rfl
@[simp] theorem advance_asks : (s.advance).asks = s.asks := rfl
@[simp] theorem advance_nextTag : (s.advance).nextTag = s.nextTag := rfl
@[simp] theorem advance_replyTo : (s.advance).replyTo = s.replyTo := rfl
@[simp] theorem advance_instances : (s.advance).instances = s.instances := rfl
@[simp] theorem advance_closedIds : (s.advance).closedIds = s.closedIds := rfl
@[simp] theorem advance_joinWait : (s.advance).joinWait = s.joinWait := rfl
@[simp] theorem advance_side : (s.advance).side = s.side := rfl
@[simp] theorem advance_sideUse : (s.advance).sideUse = s.sideUse := rfl
@[simp] theorem advance_plans : (s.advance).plans = s.plans := rfl
@[simp] theorem advance_digests : (s.advance).digests = s.digests := rfl
@[simp] theorem advance_digestsDue : (s.advance).digestsDue = s.digestsDue := rfl
@[simp] theorem advance_xqCoded : (s.advance).xqCoded = s.xqCoded := rfl
@[simp] theorem advance_xqMisses : (s.advance).xqMisses = s.xqMisses := rfl
@[simp] theorem advance_nextOp : (s.advance).nextOp = s.nextOp := rfl
@[simp] theorem advance_dxflsel : (s.advance).dxflsel = s.dxflsel := rfl
@[simp] theorem advance_flows : (s.advance).flows = s.flows := rfl
@[simp] theorem advance_eth : (s.advance).eth = s.eth := rfl
@[simp] theorem advance_dxpcw : (s.advance).dxpcw = s.dxpcw := rfl
@[simp] theorem advance_pcieQ : (s.advance).pcieQ = s.pcieQ := rfl
@[simp] theorem advance_msix : (s.advance).msix = s.msix := rfl
@[simp] theorem advance_images : (s.advance).images = s.images := rfl
@[simp] theorem advance_ckpt : (s.advance).ckpt = s.ckpt := rfl
@[simp] theorem advance_bands : (s.advance).bands = s.bands := rfl
@[simp] theorem advance_clkMhz : (s.advance).clkMhz = s.clkMhz := rfl
@[simp] theorem advance_clkNext : (s.advance).clkNext = s.clkNext := rfl
@[simp] theorem advance_clkFail : (s.advance).clkFail = s.clkFail := rfl
@[simp] theorem advance_clkFix : (s.advance).clkFix = s.clkFix := rfl
@[simp] theorem advance_throttle : (s.advance).throttle = s.throttle := rfl
@[simp] theorem advance_amps : (s.advance).amps = s.amps := rfl
@[simp] theorem advance_thrEvents : (s.advance).thrEvents = s.thrEvents := rfl
@[simp] theorem advance_quietSince : (s.advance).quietSince = s.quietSince := rfl
@[simp] theorem advance_bootReason : (s.advance).bootReason = s.bootReason := rfl
@[simp] theorem advance_bootAttempts : (s.advance).bootAttempts = s.bootAttempts := rfl
@[simp] theorem advance_bootMinimal : (s.advance).bootMinimal = s.bootMinimal := rfl
@[simp] theorem advance_boot : (s.advance).boot = s.boot := rfl
@[simp] theorem advance_bootArea : (s.advance).bootArea = s.bootArea := rfl
@[simp] theorem advance_powered : (s.advance).powered = s.powered := rfl
@[simp] theorem advance_outbox : (s.advance).outbox = s.outbox := rfl
@[simp] theorem advance_harts : (s.advance).harts = s.harts := rfl
@[simp] theorem advance_moves : (s.advance).moves = s.moves := rfl
@[simp] theorem advance_iss : (s.advance).iss = s.iss := rfl
end

end Sys2Proof.Laws
end

