-- ==== Sys2Proof/Laws/Hart.lean ====
section
/-! SUPPORT. Laws of the host harts: how an instruction ends, an exception, and an aborted transaction. -/

namespace Sys2Proof.Laws

open Machine

theorem rd_wr {d : Nat} (hd : d < 32) (h : Hart) (v : W64) (n : Nat) : (h.wr d v).rd n = if n = d ∧ n ≠ 0 then v else h.rd n := by
  unfold Hart.wr Hart.rd
  by_cases h0 : d = 0
  · subst h0; by_cases hn : n = 0 <;> simp [hn]
  · by_cases hn : n = 0
    · simp [hn]
    · simp only [h0, hn, if_false, vget_vset, hd, and_true, ne_eq, not_false_eq_true]
      by_cases e : d = n
      · simp [e]
      · simp [e, Ne.symm e]
theorem setFld_low (v : W64) : setFld v 0 2 0 = v - BitVec.ofNat 64 (v.toNat % 4) := by
  apply BitVec.eq_of_toNat_eq
  have h := v.isLt
  simp only [setFld, bfld, BitVec.toNat_ofNat, BitVec.toNat_sub]
  omega

/-- rd receives its value and the hart goes on. -/
theorem hartWent_hartDone (s : State) (h : Nat) {d : Nat} (hd : d < 32) (v : W64) : HartWent s (s.hartDone h d v) h d v (s.hart h).tx := by
  refine ⟨fun n _ => ?_, ?_, fun k hk => hart_modHart_ne s _ hk⟩
  · rw [State.hartDone, hart_modHart]; exact rd_wr hd _ _ _
  · rw [State.hartDone, hart_modHart]; unfold Hart.next Hart.wr; split <;> rfl
theorem bfld_six (v : W64) : bfld v 0 6 = v.toNat % 64 := by simp [bfld]
theorem tvecTo_eq (b c : W64) :
    tvecTo b c = b - BitVec.ofNat 64 (b.toNat % 4) + (if b.getLsbD 0 ∧ c.getLsbD 63 then 4 * setFld c 63 1 0 else 0) := by
  simp only [tvecTo, setFld_low, bbit, Bool.and_eq_true]
theorem enter_eq (me : Hart) (cause tval : W64) :
    let vector := fun (base : W64) =>
      base - BitVec.ofNat 64 (base.toNat % 4) + (if base.getLsbD 0 ∧ cause.getLsbD 63 then 4 * setFld cause 63 1 0 else 0)
    me.enter cause tval = if me.mode ≠ .m ∧ (if cause.getLsbD 63 then me.mideleg else me.medeleg).getLsbD (cause.toNat % 64) = true then
      { me with
        sepc := me.pc, scause := cause, stval := tval, mode := .s, pc := vector me.stvec, waiting := none
        mstatus := setFld (setFld (setFld me.mstatus 5 1 (if me.mstatus.getLsbD 1 then 1 else 0)) 1 1 0) 8 1 (if me.mode = .s then 1 else 0) }
    else
      { me with
        mepc := me.pc, mcause := cause, mtval := tval, mode := .m, pc := vector me.mtvec, waiting := none
        mstatus := setFld (setFld (setFld me.mstatus 7 1 (if me.mstatus.getLsbD 3 then 1 else 0)) 3 1 0) 11 2
          (match me.mode with | .u => 0 | .s => 1 | .m => 3) } := by
  intro vector
  have hv : ∀ b, tvecTo b cause = vector b := fun b => tvecTo_eq b cause
  have hs : me.toS cause = true ↔
      me.mode ≠ .m ∧ (if cause.getLsbD 63 then me.mideleg else me.medeleg).getLsbD (cause.toNat % 64) = true := by
    simp only [Hart.toS, bbit, bfld_six, Bool.and_eq_true, bne_iff_ne]
    exact Iff.rfl
  unfold Hart.enter
  by_cases h : me.toS cause = true
  · rw [if_pos h, if_pos (hs.mp h)]
    simp only [hv, stSPIE, stSIE, stSPP, bbit, b2n, decide_eq_true_eq]; rfl
  · rw [if_neg h, if_neg (fun x => h (hs.mpr x))]
    simp only [hv, stMPIE, stMIE, stMPP, bbit, b2n]
    cases me.mode <;> rfl
theorem eq_cases_of_eq_ite {α : Type} {c : Prop} [Decidable c] {x a b : α} (h : x = if c then a else b) : if c then x = a else x = b := by
  by_cases hc : c
  · rw [if_pos hc] at h ⊢; exact h
  · rw [if_neg hc] at h ⊢; exact h
/-- An exception outside a transaction enters M mode, or S mode where it is delegated. -/
theorem hartTrapped_hartRaise {s : State} {h : Nat} (ht : (s.hart h).tx = none) (cause : Nat) (tval : W64) :
    HartTrapped s (s.hartRaise h cause tval) h (BitVec.ofNat 64 cause) tval := by
  refine ⟨?_, fun k hk => hart_modHart_ne s _ hk⟩
  have e : (s.hartRaise h cause tval).hart h = (s.hart h).enter (numW cause) tval := by
    rw [State.hartRaise, hart_modHart, if_neg (by simp [ht])]
  have d : numW cause = BitVec.ofNat 64 cause := rfl
  rw [d] at e
  exact eq_cases_of_eq_ite (e.trans ((enter_eq ..).trans rfl))
/-- A transaction that aborts. -/
theorem hartAborted_hartAbort {s : State} {h : Nat} {x : HostTx} (ht : (s.hart h).tx = some x) (hx : x.rd < 32) {code detail : Nat}
    (hd : detail < 256) : HartAborted s (s.hartAbort h code detail) h x code detail := by
  have e : (s.hartAbort h code detail).hart h = { ((s.hart h).abortTx code detail) with waiting := none } := hart_modHart s h _
  have a : (s.hart h).abortTx code detail = { ((s.hart h).wr x.rd (BitVec.ofNat 64 (code + detail * 256))) with tx := none, pc := x.pc, commit := false } := by
    simp only [Hart.abortTx, ht, Nat.mod_eq_of_lt hd, Hart.wr]; split <;> rfl
  refine ⟨fun n _ => ?_, ?_, fun k hk => hart_modHart_ne s _ hk⟩
  · rw [e, a]; exact rd_wr hx _ _ _
  · rw [e, a]; unfold Hart.wr; split <;> rfl
theorem hartRaise_in_tx {s : State} {h : Nat} {x : HostTx} (ht : (s.hart h).tx = some x) (cause : Nat) (tval : W64) :
    s.hartRaise h cause tval = s.hartAbort h abFault cause := by
  simp only [State.hartRaise, State.hartAbort, State.modHart, ht, Option.isSome_some, if_true]

end Sys2Proof.Laws
end

