-- ==== Sys2Proof/Laws/Warp.lean ====
section
/-! SUPPORT. Laws of the issuing warp: what changes only its record, where its threads stand when an instruction ends, and the shared
shape of a uniform result. -/

namespace Sys2Proof.Laws

open Machine

/-! ## Only the warp changes -/

theorem onlyWarp_modW (s : State) (f : Warp → Warp) : OnlyWarp s (s.modW f) :=
  ⟨fun _ => rfl, rfl, fun _ h => warp_setWarp_ne s _ h⟩
theorem onlyWarp_setW (s : State) (w : Warp) : OnlyWarp s (s.setWarp s.iss.key w) :=
  ⟨fun _ => rfl, rfl, fun _ h => warp_setWarp_ne s _ h⟩
theorem onlyWarp_iss {s t : State} (h : OnlyWarp s t) : t.iss = s.iss := by rw [h.rest]; rfl
theorem onlyWarp_trans {s t u : State} (h : OnlyWarp s t) (g : OnlyWarp t u) : OnlyWarp s u := by
  refine ⟨fun a => (g.memory a).trans (h.memory a), ?_, fun k e => (g.others k (by rwa [onlyWarp_iss h])).trans (h.others k e)⟩
  have := g.rest
  rw [h.rest] at this
  exact this
theorem onlyWarp_modW_of {s t : State} (h : OnlyWarp s t) (f : Warp → Warp) : OnlyWarp s (t.modW f) := onlyWarp_trans h (onlyWarp_modW t f)
theorem onlyWarp_finish {s t : State} (h : OnlyWarp s t) : OnlyWarp s t.finish := by unfold State.finish; exact onlyWarp_modW_of h _
theorem onlyWarp_advance {s t : State} (h : OnlyWarp s t) : OnlyWarp s t.advance := by
  unfold State.advance; exact onlyWarp_finish (onlyWarp_modW_of h _)
theorem onlyWarp_jump {s t : State} (h : OnlyWarp s t) (pc : W64) : OnlyWarp s (t.jump pc) := by
  unfold State.jump; exact onlyWarp_finish (onlyWarp_modW_of h _)
theorem onlyWarp_refl (s : State) : OnlyWarp s s := ⟨fun _ => rfl, rfl, fun _ _ => rfl⟩

/-! ## Threads -/
@[simp] theorem thread_vtab (w : Warp) (f : Nat → Thread) (L : Nat) (h : L < 32) : ({ w with threads := vtab 32 f } : Warp).thread L = f L := by
  simp [Warp.thread, vget_vtab, h]
theorem modThreads_thread (w : Warp) (set : W32) (f : Thread → Thread) (L : Nat) (h : L < 32) :
    (w.modThreads set f).thread L = if set.getLsbD L then f (w.thread L) else w.thread L := by
  simp [Warp.modThreads, Warp.thread, vget_vtab, h]
@[simp] theorem countWaits_pc (w : Warp) (e m : W32) (L : Nat) (h : L < 32) : ((w.countWaits e m).thread L).pc = (w.thread L).pc := by
  simp only [Warp.countWaits, Warp.thread, vget_vtab, h, if_true]; by_cases hf : (vget Thread.dflt w.threads L).frozen = true <;> simp [hf]
@[simp] theorem countWaits_placeless (w : Warp) (e m : W32) (L : Nat) (h : L < 32) :
    ((w.countWaits e m).thread L).placeless = (w.thread L).placeless := by
  simp only [Warp.countWaits, Warp.thread, vget_vtab, h, if_true]; by_cases hf : (vget Thread.dflt w.threads L).frozen = true <;> simp [hf, Thread.placeless]

/-- What finish leaves in the warp. -/
theorem finish_w (s : State) : s.finish.w = { (s.w.countWaits s.iss.elig s.iss.set) with
    cur := none, service := none, rprog := if s.w.handler then s.w.rprog else 0, cover := s.w.cover.filter fun a => a != s.iss.pc
    win := s.w.win.map fun x => { x with passed := false } } := by
  simp only [State.finish, w_modW]

theorem goOn_jump (s t : State) (pc : W64) (hi : t.iss = s.iss) (ht : t.w.threads = s.w.threads) : GoOn s (t.jump pc) s.iss.set pc := by
  have hth : ∀ L, t.w.thread L = s.w.thread L := fun L => by simp [Warp.thread, ht]
  constructor <;> intro L h <;> simp only [State.jump, finish_w, w_modW]
  · show ((Warp.countWaits _ _ _).thread L).pc = _
    rw [countWaits_pc _ _ _ _ h]
    simp only [Warp.setPcs, modThreads_thread _ _ _ _ h, hi, hth]; split <;> rfl
  · show ((Warp.countWaits _ _ _).thread L).placeless = _
    rw [countWaits_placeless _ _ _ _ h]
    simp only [Warp.setPcs, modThreads_thread _ _ _ _ h, hi, hth]; split <;> rfl

theorem advance_eq_jump (s : State) : s.advance = s.jump s.nextPc := rfl

theorem jump_rdS (s : State) (pc : W64) (n : Nat) : (s.jump pc).rdS n = s.rdS n := by
  simp only [State.rdS, State.jump, finish_w, w_modW]; rfl
theorem jump_rdV (s : State) (pc : W64) (n L : Nat) : (s.jump pc).w.rdV n L = s.w.rdV n L := by
  simp only [State.jump, finish_w, w_modW]; rfl
theorem jump_rdM (s : State) (pc : W64) (n : Nat) : (s.jump pc).w.rdM n = s.w.rdM n := by
  simp only [State.jump, finish_w, w_modW]; rfl
theorem jump_special (s : State) (pc : W64) : (s.jump pc).w.special = s.w.special := by
  simp only [State.jump, finish_w, w_modW]
  simp only [Warp.special, Warp.countWaits, Warp.setPcs, Warp.modThreads, Option.map_map]; rfl

theorem rdS_wrS (s : State) (d n : Nat) (v : W64) (h : d < 160) : (s.wrS d v).rdS n = if n = d then v else s.rdS n := by
  simp only [State.rdS, State.wrS, w_modW, Warp.wrS, vget_vset]; grind

theorem uniformResult (s : State) (d : Nat) (v pc : W64) (h : d < 160) : UniformResult s ((s.wrS d v).jump pc) d v pc := by
  refine ⟨onlyWarp_jump (onlyWarp_modW s _) _, ?_, ⟨?_, ?_, ?_⟩, ?_, goOn_jump _ _ _ rfl (by simp only [State.wrS, w_modW]; rfl)⟩
  · rw [jump_rdS, rdS_wrS _ _ _ _ h, if_pos rfl]
  · intro n hn; rw [jump_rdS, rdS_wrS _ _ _ _ h, if_neg hn]
  · intro n L _; rw [jump_rdV]; simp only [State.wrS, w_modW]; rfl
  · intro n _; rw [jump_rdM]; simp only [State.wrS, w_modW]; rfl
  · unfold SameSpecial; rw [jump_special]; simp only [State.wrS, w_modW]; rfl

end Sys2Proof.Laws
end

