-- ==== Sys2Proof/Laws/Lane.lean ====
section
/-! SUPPORT. Laws of lane instructions: the checks that precede an issue, what an issue leaves, and the two shapes of a result, a register or
pair and a mask. -/

namespace Sys2Proof.Laws

open Machine

/-! ## Lanes -/
theorem firstBad_eq_none {w : Warp} {i last : Nat} {uses : Nat → List RUse}
    (h : ∀ j, i ≤ j → j ≤ last → ∀ u ∈ uses j, u.1 % u.2 = 0 ∧ ∀ k, k < u.2 → w.holdsV (u.1 + k) = true) : w.firstBad i last uses = none := by
  simp only [Warp.firstBad, List.findSome?_eq_none_iff, Option.map_eq_none_iff, List.find?_eq_none]
  intro j hj u hu
  simp only [rangeFrom, List.mem_map, List.mem_range] at hj
  obtain ⟨k, hk, rfl⟩ := hj
  have := h (i + k) (by omega) (by omega) u hu
  simp [Warp.regBad, this.1]
  exact this.2

theorem setPcs_zero (w : Warp) (pc : W64) : (w.setPcs 0 pc).threads = vtab 32 (w.thread) := by simp [Warp.setPcs, Warp.modThreads]

theorem regWaits_of_free {w : Warp} {us : List RUse} (h : RegsFree w us) : us.any w.regWaits = false := by
  simp only [List.any_eq_false, Warp.regWaits, Bool.not_eq_true]
  intro u hu f hf
  cases hd : f.op.dests with
  | none => rfl
  | some d => have := h u hu f hf d hd; simp; omega
/-- One issue of a lane instruction that only changes the warp. -/
theorem laneW_eq {s : State} {p : Pre} {act : W32} {uses : Nat → List RUse} {f : Nat → Warp} (h : RegsHeld s p uses) :
    s.laneW p act uses f = .next ((if act = 0 then s else s.setWarp s.iss.key (f s.iss.idx)).endIssue p.rep) := by
  simp only [State.laneW, State.lane, firstBad_eq_none h.1, regWaits_of_free h.2, Bool.false_eq_true, if_false]
  split <;> rfl

theorem goOn_advance (s t : State) (hi : t.iss = s.iss) (ht : t.w.threads = s.w.threads) : GoOn s t.advance s.iss.set (s.iss.base + 4) := by
  have h := goOn_jump s t t.nextPc hi ht
  have e : t.nextPc = s.iss.base + 4 := by rw [State.nextPc, hi]
  rw [advance_eq_jump, e]; rwa [e] at h

theorem endIssue_of_more {s t : State} {rep : Option Rep} (hi : t.iss = s.iss) {r : Rep} (hr : rep = some r) (hl : s.iss.idx < r.last) :
    t.endIssue rep = t.modW fun w => { w with cur := some ⟨s.iss.set, s.iss.elig, s.iss.pc, s.iss.idx + 1, s.iss.words⟩, service := none, win := w.win.map fun x => { x with passed := false } } := by
  simp [State.endIssue, hr, hi, hl]
theorem endIssue_of_last {s t : State} {rep : Option Rep} (hi : t.iss = s.iss) (h : ¬MoreIssues s rep) :
    t.endIssue rep = t.advance := by
  cases rep with
  | none => rfl
  | some r =>
    have : ¬ (s.iss.idx < r.last) := fun hl => h ⟨r, rfl, hl⟩
    simp [State.endIssue, hi, this]

theorem rdS_endIssue (t : State) (rep : Option Rep) (n : Nat) : (t.endIssue rep).rdS n = t.rdS n := by
  unfold State.endIssue; split
  · rw [advance_eq_jump, jump_rdS]
  · split
    · simp only [State.rdS, w_modW]
    · rw [advance_eq_jump, jump_rdS]
theorem rdV_endIssue (t : State) (rep : Option Rep) (n L : Nat) : (t.endIssue rep).w.rdV n L = t.w.rdV n L := by
  unfold State.endIssue; split
  · rw [advance_eq_jump, jump_rdV]
  · split
    · simp only [w_modW]; rfl
    · rw [advance_eq_jump, jump_rdV]
theorem rdM_endIssue (t : State) (rep : Option Rep) (n : Nat) : (t.endIssue rep).w.rdM n = t.w.rdM n := by
  unfold State.endIssue; split
  · rw [advance_eq_jump, jump_rdM]
  · split
    · simp only [w_modW]; rfl
    · rw [advance_eq_jump, jump_rdM]
theorem special_endIssue (t : State) (rep : Option Rep) : (t.endIssue rep).w.special = t.w.special := by
  unfold State.endIssue; split
  · rw [advance_eq_jump, jump_special]
  · split
    · simp only [w_modW, Warp.special, Option.map_map]; rfl
    · rw [advance_eq_jump, jump_special]
theorem onlyWarp_endIssue {s t : State} (h : OnlyWarp s t) (rep : Option Rep) : OnlyWarp s (t.endIssue rep) := by
  unfold State.endIssue; split
  · exact onlyWarp_advance h
  · split
    · exact onlyWarp_modW_of h _
    · exact onlyWarp_advance h
theorem issueEnded {s t : State} (hi : t.iss = s.iss) (ht : t.w.threads = s.w.threads) (rep : Option Rep) : IssueEnded s (t.endIssue rep) rep := by
  constructor
  · rintro ⟨r, hr, hl⟩
    rw [endIssue_of_more hi hr hl]; simp [ht]
  · intro h
    rw [endIssue_of_last hi h]
    exact ⟨by simp [State.advance, finish_w], goOn_advance s t hi ht⟩

/-- The effect of an issue whose warp has become w before the issue ends. -/
theorem laneEffect {s : State} {rep : Option Rep} {w : Warp} {S M : Nat → Prop} {V : Nat → Nat → Prop} {fp : W64}
    (hS : ∀ n, ¬S n → vget 0 w.sregs n = vget 0 s.w.sregs n) (hV : ∀ n L, ¬V n L → w.rdV n L = s.w.rdV n L)
    (hM : ∀ n, ¬M n → w.rdM n = s.w.rdM n) (hs : w.special = s.w.special.withFpmode fp) (ht : w.threads = s.w.threads) :
    LaneEffect s ((s.setWarp s.iss.key w).endIssue rep) rep S V M fp := by
  refine ⟨onlyWarp_endIssue (onlyWarp_setW s w) rep, ⟨?_, ?_, ?_⟩, ?_, issueEnded (s := s) (t := s.setWarp s.iss.key w) rfl (by rw [w_setW, ht]) rep⟩
  · intro n h; rw [rdS_endIssue]; simp [State.rdS]; exact hS n h
  · intro n L h; rw [rdV_endIssue, w_setW, hV n L h]
  · intro n h; rw [rdM_endIssue, w_setW, hM n h]
  · rw [special_endIssue, w_setW, hs]
theorem laneEffect_none {s : State} {rep : Option Rep} {S M : Nat → Prop} {V : Nat → Nat → Prop} :
    LaneEffect s (s.endIssue rep) rep S V M s.w.fpmode := by
  refine ⟨onlyWarp_endIssue (onlyWarp_refl s) rep, ⟨?_, ?_, ?_⟩, ?_, issueEnded rfl rfl rep⟩
  · intro n h; rw [rdS_endIssue]
  · intro n L h; rw [rdV_endIssue]
  · intro n h; rw [rdM_endIssue]
  · rw [special_endIssue]; rfl

/-! ## Lane writes -/
theorem rdV_wrLanes (w : Warp) (d : Nat) (m : W32) (f : Nat → W32) (n L : Nat) (h : d < 128) :
    (w.wrLanes d m f).rdV n L = if n = d ∧ L < 32 ∧ m.getLsbD L = true then f L else w.rdV n L := by
  simp only [Warp.wrLanes, Warp.wrV, Warp.rdV, vget_vset]
  by_cases hn : d = n
  · subst hn
    simp only [h, and_self, if_true, vget_vtab, true_and]
    by_cases hL : L < 32 <;> by_cases hm : m.getLsbD L = true <;> simp [hL, hm]
    all_goals (simp only [vget, List.getD_eq_getElem?_getD]; rw [List.getElem?_eq_none (by simp; omega)]; rfl)
  · have h2 : ¬(n = d) := fun e => hn e.symm
    simp [hn, h2]
theorem rdV_wrZ (w : Warp) (d : Nat) (act z : W32) (f : Nat → W32) (n L : Nat) (h : d < 128) :
    (w.wrZ d act z f).rdV n L = if n = d ∧ L < 32 ∧ (act ||| z).getLsbD L = true then (if act.getLsbD L then f L else 0) else w.rdV n L := by
  simp only [Warp.wrZ, rdV_wrLanes _ _ _ _ _ _ h]
theorem holdsV_lt {w : Warp} {n : Nat} (h : w.holdsV n = true) : n < 128 := by
  simp only [Warp.holdsV] at h
  split at h
  · omega
  · refine Nat.lt_of_not_le fun hc => ?_
    have : 4 ≤ (n - 96) / 8 := by omega
    rw [BitVec.getLsbD_of_ge _ _ this] at h; exact absurd h (by simp)

theorem wrZ_sregs (w : Warp) (d : Nat) (a z : W32) (f : Nat → W32) : (w.wrZ d a z f).sregs = w.sregs := rfl
theorem wrZ_rdM (w : Warp) (d : Nat) (a z : W32) (f : Nat → W32) (n : Nat) : (w.wrZ d a z f).rdM n = w.rdM n := rfl
theorem wrZ_special (w : Warp) (d : Nat) (a z : W32) (f : Nat → W32) : (w.wrZ d a z f).special = w.special := rfl
theorem wrZ_threads (w : Warp) (d : Nat) (a z : W32) (f : Nat → W32) : (w.wrZ d a z f).threads = w.threads := rfl
theorem special_withFp (w : Warp) : w.special.withFpmode w.fpmode = w.special := rfl

theorem append_halves (x : W64) : ((x >>> 32).setWidth 32 : W32).append (x.setWidth 32 : W32) = x := by
  show ((x >>> 32).setWidth 32 : W32) ++ (x.setWidth 32 : W32) = x
  ext i hi
  simp only [BitVec.getElem_append, BitVec.getElem_setWidth, BitVec.getLsbD_ushiftRight]
  split <;> simp_all [BitVec.getLsbD_eq_getElem]

/-- A destination of one register or a pair. -/
theorem laneResult {s : State} {p : Pre} {act z : W32} {uses : Nat → List RUse} {wide : Bool} {d : Nat} {v : Nat → W64}
    {f : Nat → Warp} (h : RegsHeld s p uses) (hd : d < 128) (hd2 : wide = true → d + 1 < 128)
    (hf : f s.iss.idx = s.w.wrT wide d act z v) :
    ∃ t, s.laneW p act uses f = .next t ∧ LaneResult s t p.rep act z wide d v s.w.fpmode := by
  refine ⟨_, laneW_eq h, ?_⟩
  by_cases ha : act = 0
  · subst ha
    simp only [if_true]
    exact ⟨laneEffect_none, fun L _ hL => by simp at hL, fun hh => absurd rfl hh⟩
  · simp only [if_neg ha, hf]
    cases wide with
    | false =>
      simp only [Warp.wrT, Bool.false_eq_true, if_false]
      refine ⟨laneEffect (fun _ _ => rfl) ?_ (fun _ _ => rfl) rfl rfl, ?_, ?_⟩
      · intro n L hn
        rw [rdV_wrZ _ _ _ _ _ _ _ hd, if_neg]
        rintro ⟨h1, h2, h3⟩; exact hn ⟨.inl h1, ha, h3⟩
      · intro L hL hx
        simp only [Warp.rdT, Bool.false_eq_true, if_false, rdV_endIssue, w_setW, rdV_wrZ _ _ _ _ _ _ _ hd]
        simp [hL, hx]
      · intro _ L hL hx hz
        simp only [Warp.rdT, Bool.false_eq_true, if_false, rdV_endIssue, w_setW, rdV_wrZ _ _ _ _ _ _ _ hd]
        simp only [hL, hz, hx, BitVec.getLsbD_or, Bool.or_true, and_self, if_true, if_false, Bool.false_eq_true]; rfl
    | true =>
      have hd2 := hd2 rfl
      simp only [Warp.wrT, if_true]
      refine ⟨laneEffect (fun _ _ => rfl) ?_ (fun _ _ => rfl) rfl rfl, ?_, ?_⟩
      · intro n L hn
        rw [rdV_wrZ _ _ _ _ _ _ _ hd2, if_neg, rdV_wrZ _ _ _ _ _ _ _ hd, if_neg]
        · rintro ⟨h1, h2, h3⟩; exact hn ⟨.inl h1, ha, h3⟩
        · rintro ⟨h1, h2, h3⟩; exact hn ⟨.inr ⟨rfl, h1⟩, ha, h3⟩
      · intro L hL hx
        simp only [Warp.rdT, if_true, Warp.rdV64, rdV_endIssue, w_setW, rdV_wrZ _ _ _ _ _ _ _ hd2, rdV_wrZ _ _ _ _ _ _ _ hd]
        have e : ¬(d = d + 1) := by omega
        simp only [hL, hx, BitVec.getLsbD_or, e, Bool.true_or, and_self, and_true, if_true, if_false]
        rw [append_halves]; exact (Nat.mod_eq_of_lt (v L).isLt).symm
      · intro _ L hL hx hz
        simp only [Warp.rdT, if_true, Warp.rdV64, rdV_endIssue, w_setW, rdV_wrZ _ _ _ _ _ _ _ hd2, rdV_wrZ _ _ _ _ _ _ _ hd]
        have e : ¬(d = d + 1) := by omega
        simp only [hL, hz, hx, BitVec.getLsbD_or, e, Bool.or_true, and_self, and_true, if_true, if_false, Bool.false_eq_true]
        rfl

theorem rdM_wrMZ (w : Warp) (d : Nat) (act z : W32) (v : Nat → Bool) (hd : d < 8) (L : Nat) (hL : L < 32) (h0 : d ≠ 0) :
    ((w.wrMZ d act z v).rdM d).getLsbD L = if act.getLsbD L then v L else if z.getLsbD L then false else (w.rdM d).getLsbD L := by
  simp only [Warp.wrMZ, Warp.wrM, h0, if_false, Warp.rdM, vget_vset, hd, and_self, if_true]
  simp only [BitVec.getLsbD_or, BitVec.getLsbD_and, BitVec.getLsbD_not, getLsbD_maskOf _ L hL, hL, decide_true, Bool.true_and]
  cases act.getLsbD L <;> cases z.getLsbD L <;> cases (vget 0 w.mregs d).getLsbD L <;> cases v L <;> rfl
theorem laneMask {s : State} {p : Pre} {act z : W32} {uses : Nat → List RUse} {d : Nat} {v : Nat → Bool}
    {f : Nat → Warp} (h : RegsHeld s p uses) (hd : d < 8) (hf : f s.iss.idx = s.w.wrMZ d act z v) :
    ∃ t, s.laneW p act uses f = .next t ∧ LaneMask s t p.rep act z d v s.w.fpmode := by
  refine ⟨_, laneW_eq h, ?_⟩
  by_cases ha : act = 0
  · subst ha
    simp only [if_true]
    exact ⟨laneEffect_none, fun _ L _ => by simp [rdM_endIssue], fun hh => by simp [hh, Warp.rdM]⟩
  · simp only [if_neg ha, hf]
    refine ⟨laneEffect ?_ (fun _ _ _ => ?_) ?_ ?_ ?_, ?_, ?_⟩
    · intro n _; unfold Warp.wrMZ Warp.wrM; split <;> rfl
    · unfold Warp.wrMZ Warp.wrM; split <;> rfl
    · intro n hn; unfold Warp.wrMZ Warp.wrM; split
      · rfl
      · simp only [Warp.rdM, vget_vset]; simp [Ne.symm hn]
    · unfold Warp.wrMZ Warp.wrM; split <;> rfl
    · unfold Warp.wrMZ Warp.wrM; split <;> rfl
    · intro h0 L hL
      rw [rdM_endIssue, w_setW, rdM_wrMZ _ _ _ _ _ hd _ hL h0]; simp only [ne_eq, ha, not_false_eq_true, true_and]
    · intro h0; rw [rdM_endIssue, w_setW]; simp [Warp.rdM, h0]

end Sys2Proof.Laws
end

