-- ==== Sys2Proof/Laws/PerInstr.lean ====
section
/-! SUPPORT. Laws per instruction. EncodeFits: an instruction has at most three words of 32 bits. -/

set_option linter.unusedSimpArgs false
set_option linter.unusedTactic false
set_option linter.unreachableTactic false

namespace Sys2Proof.Laws.EncodeFits

/-- At most three words, each of 32 bits (R26, R37). -/
def Fits (ws : List Nat) : Prop := ws.length ≤ 3 ∧ ∀ w ∈ ws, w < 2 ^ 32
/-- The words of a well-formed instruction fit. -/
def Statement (i : Instr) : Prop := i.wf = true → Fits (encode i)

/-! ## Codes -/

theorem intTy_lt (t : IntTy) : t.code < 8 := by cases t <;> decide
theorem fpTy_lt (t : FpTy) : t.code < 6 := by cases t <;> decide
theorem scope_lt (s : Scope) : s.code < 5 := by cases s <;> decide
theorem hint_lt (s : Hint) : s.code < 4 := by cases s <;> decide
theorem rnd_lt (r : Option Rnd) : rndCode r < 8 := by
  cases r with
  | none => decide
  | some r => cases r <;> decide
theorem bit01_lt (b : Bool) : bit01 b < 2 := by cases b <;> decide
theorem conv_lt (c : Conv) : c.code < 8 := by cases c <;> decide
theorem qclass_lt (c : QClass) : c.code < 4 := by cases c <;> decide
theorem level_lt (l : Level) : l.code < 4 := by cases l <;> decide
theorem funFn_lt (f : FunFn) : f.code < 16 := by cases f <;> decide
theorem cvtTy_lt (t : CvtTy) : t.code < 16 := by
  cases t with
  | int t => cases t <;> decide
  | _ => decide
theorem blockTy_lt (t : BlockTy) : t.code < 4 := by cases t <;> decide
theorem shfFn_lt (f : ShfFn) : f.code < 8 := by cases f <;> decide
theorem voteFn_lt (f : VoteFn) : f.code < 8 := by cases f <;> decide
theorem bitFn_lt (f : Option BitFn) : BitFn.code f < 8 := by
  cases f with
  | none => decide
  | some f => cases f <;> decide
theorem atomOp_lt (o : AtomOp) : o.ty < 8 ∧ o.fn < 16 := by
  rcases o with ⟨f, t⟩ | t | t | ⟨f, t⟩ <;> first | (cases f <;> cases t <;> decide) | (cases t <;> decide)
theorem redOp_lt (o : RedOp) : o.ty < 8 ∧ o.fn < 16 := by
  rcases o with ⟨f, t⟩ | ⟨f, t⟩ <;> cases f <;> cases t <;> decide

/-! ## Words -/

theorem ext_lt {e : Ext} (h : e.wf = true) : e.word < 2 ^ 32 := by
  have h1 := bit01_lt e.inv; have h2 := rnd_lt e.rnd; have h3 := bit01_lt e.z; have h4 := bit01_lt e.sat
  have h5 := scope_lt e.scope; have h6 := hint_lt e.hint
  simp only [Ext.wf, bits, Bool.and_eq_true, decide_eq_true_eq] at h
  unfold Ext.word
  omega
theorem rep_lt {r : Rep} (h : r.wf = true) : r.word < 2 ^ 32 := by
  simp only [Rep.wf, bits, Bool.and_eq_true, decide_eq_true_eq] at h
  unfold Rep.word
  omega
theorem fits_uw {op rest : Nat} (ho : op < 64) (hr : rest < 2 ^ 25) : Fits (uw op rest) := by
  refine ⟨by simp [uw], fun w hw => ?_⟩
  simp only [uw, List.mem_singleton] at hw
  omega
theorem fits_um {e : Option Ext} {op rest : Nat} (he : extWf e = true) (ho : op < 64) (hr : rest < 2 ^ 25) :
    Fits ((match e with | some e => [e.word] | none => []) ++ uw op rest) := by
  cases e with
  | none => exact fits_uw ho hr
  | some e =>
    refine ⟨by simp [uw], fun w hw => ?_⟩
    simp only [List.cons_append, List.nil_append, List.mem_cons] at hw
    rcases hw with rfl | hw
    · exact ext_lt he
    · exact (fits_uw ho hr).2 w hw
theorem fits_pre {p : Pre} {w : Nat} (hp : p.wf = true) (hw : w < 2 ^ 32) : Fits (p.words ++ [w]) := by
  obtain ⟨r, e⟩ := p
  simp only [Pre.wf, Bool.and_eq_true] at hp
  rcases r with _ | r <;> rcases e with _ | e <;> refine ⟨by simp [Pre.words], ?_⟩ <;>
    simp only [Pre.words, List.nil_append, List.cons_append, List.forall_mem_cons, List.not_mem_nil, false_imp_iff, implies_true, and_true]
  · exact hw
  · exact ⟨ext_lt hp.2, hw⟩
  · exact ⟨rep_lt hp.1, hw⟩
  · exact ⟨rep_lt hp.1, ext_lt hp.2, hw⟩
theorem wf_of_noRep {p : Pre} (h : p.wfNoRep = true) : p.wf = true := by
  obtain ⟨r, e⟩ := p
  simp only [Pre.wfNoRep, Pre.wf, Bool.and_eq_true, Option.isNone_iff_eq_none] at *
  obtain ⟨rfl, h⟩ := h
  exact ⟨rfl, h⟩
theorem fits_lw {p : Pre} {op ty d a low : Nat} (hp : p.wf = true) (ho : op < 64) (ht : ty < 8) (hd : d < 128) (ha : a < 128) (hl : low < 256) :
    Fits (lw p op ty d a low) := fits_pre hp (by omega)
theorem fits_dxw {f3 f7 d s t : Nat} (h3 : f3 < 8) (h7 : f7 < 8) (hd : d < 32) (hs : s < 32) (ht : t < 32) : Fits (dxw f3 f7 d s t) := by
  refine ⟨by simp [dxw], fun w hw => ?_⟩
  simp only [dxw, List.mem_singleton] at hw
  omega
theorem fieldsOk_of_wf {i : Instr} (h : i.wf = true) : i.fieldsOk = true := by
  simp only [Instr.wf, Bool.and_eq_true] at h
  exact h.1.1.1.1
theorem fits_nil : Fits [] := ⟨by simp, by simp⟩

/-! ## Instructions -/

theorem sadd (f : UR) : Statement (.sadd f) := by
  intro h
  have w : (f.wf 256) = true := fieldsOk_of_wf h
  rw [show encode (.sadd f) = urw 0x00 f from rfl]
  obtain ⟨d, a, b⟩ := f
  rcases b with b | b
  all_goals simp only [UR.wf, UR.specWf, UM.wf, LRI.wf, LRI.bfWf, LRI.maskWf, LRF.wf, LRN.wf, LM.wf, LA.wf, Red.wf, LI.wf, Opnd.wf, Opnd.isReg, Opnd.oneTo32, bits, Bool.and_eq_true, decide_eq_true_eq, Bool.false_eq_true, and_false, false_and] at w
  all_goals exact fits_uw (by decide) (by (try simp only [Opnd.code]); omega)
theorem ssub (f : UR) : Statement (.ssub f) := by
  intro h
  have w : (f.wf 256) = true := fieldsOk_of_wf h
  rw [show encode (.ssub f) = urw 0x01 f from rfl]
  obtain ⟨d, a, b⟩ := f
  rcases b with b | b
  all_goals simp only [UR.wf, UR.specWf, UM.wf, LRI.wf, LRI.bfWf, LRI.maskWf, LRF.wf, LRN.wf, LM.wf, LA.wf, Red.wf, LI.wf, Opnd.wf, Opnd.isReg, Opnd.oneTo32, bits, Bool.and_eq_true, decide_eq_true_eq, Bool.false_eq_true, and_false, false_and] at w
  all_goals exact fits_uw (by decide) (by (try simp only [Opnd.code]); omega)
theorem smul (f : UR) : Statement (.smul f) := by
  intro h
  have w : (f.wf 256) = true := fieldsOk_of_wf h
  rw [show encode (.smul f) = urw 0x02 f from rfl]
  obtain ⟨d, a, b⟩ := f
  rcases b with b | b
  all_goals simp only [UR.wf, UR.specWf, UM.wf, LRI.wf, LRI.bfWf, LRI.maskWf, LRF.wf, LRN.wf, LM.wf, LA.wf, Red.wf, LI.wf, Opnd.wf, Opnd.isReg, Opnd.oneTo32, bits, Bool.and_eq_true, decide_eq_true_eq, Bool.false_eq_true, and_false, false_and] at w
  all_goals exact fits_uw (by decide) (by (try simp only [Opnd.code]); omega)
theorem smulh (f : UR) : Statement (.smulh f) := by
  intro h
  have w : (f.wf 256) = true := fieldsOk_of_wf h
  rw [show encode (.smulh f) = urw 0x03 f from rfl]
  obtain ⟨d, a, b⟩ := f
  rcases b with b | b
  all_goals simp only [UR.wf, UR.specWf, UM.wf, LRI.wf, LRI.bfWf, LRI.maskWf, LRF.wf, LRN.wf, LM.wf, LA.wf, Red.wf, LI.wf, Opnd.wf, Opnd.isReg, Opnd.oneTo32, bits, Bool.and_eq_true, decide_eq_true_eq, Bool.false_eq_true, and_false, false_and] at w
  all_goals exact fits_uw (by decide) (by (try simp only [Opnd.code]); omega)
theorem sdiv (f : UR) : Statement (.sdiv f) := by
  intro h
  have w : (f.wf 256) = true := fieldsOk_of_wf h
  rw [show encode (.sdiv f) = urw 0x04 f from rfl]
  obtain ⟨d, a, b⟩ := f
  rcases b with b | b
  all_goals simp only [UR.wf, UR.specWf, UM.wf, LRI.wf, LRI.bfWf, LRI.maskWf, LRF.wf, LRN.wf, LM.wf, LA.wf, Red.wf, LI.wf, Opnd.wf, Opnd.isReg, Opnd.oneTo32, bits, Bool.and_eq_true, decide_eq_true_eq, Bool.false_eq_true, and_false, false_and] at w
  all_goals exact fits_uw (by decide) (by (try simp only [Opnd.code]); omega)
theorem srem (f : UR) : Statement (.srem f) := by
  intro h
  have w : (f.wf 256) = true := fieldsOk_of_wf h
  rw [show encode (.srem f) = urw 0x05 f from rfl]
  obtain ⟨d, a, b⟩ := f
  rcases b with b | b
  all_goals simp only [UR.wf, UR.specWf, UM.wf, LRI.wf, LRI.bfWf, LRI.maskWf, LRF.wf, LRN.wf, LM.wf, LA.wf, Red.wf, LI.wf, Opnd.wf, Opnd.isReg, Opnd.oneTo32, bits, Bool.and_eq_true, decide_eq_true_eq, Bool.false_eq_true, and_false, false_and] at w
  all_goals exact fits_uw (by decide) (by (try simp only [Opnd.code]); omega)
theorem sand (f : UR) : Statement (.sand f) := by
  intro h
  have w : (f.wf 256) = true := fieldsOk_of_wf h
  rw [show encode (.sand f) = urw 0x06 f from rfl]
  obtain ⟨d, a, b⟩ := f
  rcases b with b | b
  all_goals simp only [UR.wf, UR.specWf, UM.wf, LRI.wf, LRI.bfWf, LRI.maskWf, LRF.wf, LRN.wf, LM.wf, LA.wf, Red.wf, LI.wf, Opnd.wf, Opnd.isReg, Opnd.oneTo32, bits, Bool.and_eq_true, decide_eq_true_eq, Bool.false_eq_true, and_false, false_and] at w
  all_goals exact fits_uw (by decide) (by (try simp only [Opnd.code]); omega)
theorem sor (f : UR) : Statement (.sor f) := by
  intro h
  have w : (f.wf 256) = true := fieldsOk_of_wf h
  rw [show encode (.sor f) = urw 0x07 f from rfl]
  obtain ⟨d, a, b⟩ := f
  rcases b with b | b
  all_goals simp only [UR.wf, UR.specWf, UM.wf, LRI.wf, LRI.bfWf, LRI.maskWf, LRF.wf, LRN.wf, LM.wf, LA.wf, Red.wf, LI.wf, Opnd.wf, Opnd.isReg, Opnd.oneTo32, bits, Bool.and_eq_true, decide_eq_true_eq, Bool.false_eq_true, and_false, false_and] at w
  all_goals exact fits_uw (by decide) (by (try simp only [Opnd.code]); omega)
theorem sxor (f : UR) : Statement (.sxor f) := by
  intro h
  have w : (f.wf 256) = true := fieldsOk_of_wf h
  rw [show encode (.sxor f) = urw 0x08 f from rfl]
  obtain ⟨d, a, b⟩ := f
  rcases b with b | b
  all_goals simp only [UR.wf, UR.specWf, UM.wf, LRI.wf, LRI.bfWf, LRI.maskWf, LRF.wf, LRN.wf, LM.wf, LA.wf, Red.wf, LI.wf, Opnd.wf, Opnd.isReg, Opnd.oneTo32, bits, Bool.and_eq_true, decide_eq_true_eq, Bool.false_eq_true, and_false, false_and] at w
  all_goals exact fits_uw (by decide) (by (try simp only [Opnd.code]); omega)
theorem sshl (f : UR) : Statement (.sshl f) := by
  intro h
  have w : (f.wf 256) = true := fieldsOk_of_wf h
  rw [show encode (.sshl f) = urw 0x09 f from rfl]
  obtain ⟨d, a, b⟩ := f
  rcases b with b | b
  all_goals simp only [UR.wf, UR.specWf, UM.wf, LRI.wf, LRI.bfWf, LRI.maskWf, LRF.wf, LRN.wf, LM.wf, LA.wf, Red.wf, LI.wf, Opnd.wf, Opnd.isReg, Opnd.oneTo32, bits, Bool.and_eq_true, decide_eq_true_eq, Bool.false_eq_true, and_false, false_and] at w
  all_goals exact fits_uw (by decide) (by (try simp only [Opnd.code]); omega)
theorem sshr (f : UR) : Statement (.sshr f) := by
  intro h
  have w : (f.wf 256) = true := fieldsOk_of_wf h
  rw [show encode (.sshr f) = urw 0x0A f from rfl]
  obtain ⟨d, a, b⟩ := f
  rcases b with b | b
  all_goals simp only [UR.wf, UR.specWf, UM.wf, LRI.wf, LRI.bfWf, LRI.maskWf, LRF.wf, LRN.wf, LM.wf, LA.wf, Red.wf, LI.wf, Opnd.wf, Opnd.isReg, Opnd.oneTo32, bits, Bool.and_eq_true, decide_eq_true_eq, Bool.false_eq_true, and_false, false_and] at w
  all_goals exact fits_uw (by decide) (by (try simp only [Opnd.code]); omega)
theorem ssra (f : UR) : Statement (.ssra f) := by
  intro h
  have w : (f.wf 256) = true := fieldsOk_of_wf h
  rw [show encode (.ssra f) = urw 0x0B f from rfl]
  obtain ⟨d, a, b⟩ := f
  rcases b with b | b
  all_goals simp only [UR.wf, UR.specWf, UM.wf, LRI.wf, LRI.bfWf, LRI.maskWf, LRF.wf, LRN.wf, LM.wf, LA.wf, Red.wf, LI.wf, Opnd.wf, Opnd.isReg, Opnd.oneTo32, bits, Bool.and_eq_true, decide_eq_true_eq, Bool.false_eq_true, and_false, false_and] at w
  all_goals exact fits_uw (by decide) (by (try simp only [Opnd.code]); omega)
theorem smin (f : UR) : Statement (.smin f) := by
  intro h
  have w : (f.wf 256) = true := fieldsOk_of_wf h
  rw [show encode (.smin f) = urw 0x0C f from rfl]
  obtain ⟨d, a, b⟩ := f
  rcases b with b | b
  all_goals simp only [UR.wf, UR.specWf, UM.wf, LRI.wf, LRI.bfWf, LRI.maskWf, LRF.wf, LRN.wf, LM.wf, LA.wf, Red.wf, LI.wf, Opnd.wf, Opnd.isReg, Opnd.oneTo32, bits, Bool.and_eq_true, decide_eq_true_eq, Bool.false_eq_true, and_false, false_and] at w
  all_goals exact fits_uw (by decide) (by (try simp only [Opnd.code]); omega)
theorem smax (f : UR) : Statement (.smax f) := by
  intro h
  have w : (f.wf 256) = true := fieldsOk_of_wf h
  rw [show encode (.smax f) = urw 0x0D f from rfl]
  obtain ⟨d, a, b⟩ := f
  rcases b with b | b
  all_goals simp only [UR.wf, UR.specWf, UM.wf, LRI.wf, LRI.bfWf, LRI.maskWf, LRF.wf, LRN.wf, LM.wf, LA.wf, Red.wf, LI.wf, Opnd.wf, Opnd.isReg, Opnd.oneTo32, bits, Bool.and_eq_true, decide_eq_true_eq, Bool.false_eq_true, and_false, false_and] at w
  all_goals exact fits_uw (by decide) (by (try simp only [Opnd.code]); omega)
theorem sminn (f : UR) : Statement (.sminn f) := by
  intro h
  have w : (f.wf 256) = true := fieldsOk_of_wf h
  rw [show encode (.sminn f) = urw 0x0E f from rfl]
  obtain ⟨d, a, b⟩ := f
  rcases b with b | b
  all_goals simp only [UR.wf, UR.specWf, UM.wf, LRI.wf, LRI.bfWf, LRI.maskWf, LRF.wf, LRN.wf, LM.wf, LA.wf, Red.wf, LI.wf, Opnd.wf, Opnd.isReg, Opnd.oneTo32, bits, Bool.and_eq_true, decide_eq_true_eq, Bool.false_eq_true, and_false, false_and] at w
  all_goals exact fits_uw (by decide) (by (try simp only [Opnd.code]); omega)
theorem smaxn (f : UR) : Statement (.smaxn f) := by
  intro h
  have w : (f.wf 256) = true := fieldsOk_of_wf h
  rw [show encode (.smaxn f) = urw 0x0F f from rfl]
  obtain ⟨d, a, b⟩ := f
  rcases b with b | b
  all_goals simp only [UR.wf, UR.specWf, UM.wf, LRI.wf, LRI.bfWf, LRI.maskWf, LRF.wf, LRN.wf, LM.wf, LA.wf, Red.wf, LI.wf, Opnd.wf, Opnd.isReg, Opnd.oneTo32, bits, Bool.and_eq_true, decide_eq_true_eq, Bool.false_eq_true, and_false, false_and] at w
  all_goals exact fits_uw (by decide) (by (try simp only [Opnd.code]); omega)
theorem sseq (f : UR) : Statement (.sseq f) := by
  intro h
  have w : (f.wf 256) = true := fieldsOk_of_wf h
  rw [show encode (.sseq f) = urw 0x10 f from rfl]
  obtain ⟨d, a, b⟩ := f
  rcases b with b | b
  all_goals simp only [UR.wf, UR.specWf, UM.wf, LRI.wf, LRI.bfWf, LRI.maskWf, LRF.wf, LRN.wf, LM.wf, LA.wf, Red.wf, LI.wf, Opnd.wf, Opnd.isReg, Opnd.oneTo32, bits, Bool.and_eq_true, decide_eq_true_eq, Bool.false_eq_true, and_false, false_and] at w
  all_goals exact fits_uw (by decide) (by (try simp only [Opnd.code]); omega)
theorem ssne (f : UR) : Statement (.ssne f) := by
  intro h
  have w : (f.wf 256) = true := fieldsOk_of_wf h
  rw [show encode (.ssne f) = urw 0x11 f from rfl]
  obtain ⟨d, a, b⟩ := f
  rcases b with b | b
  all_goals simp only [UR.wf, UR.specWf, UM.wf, LRI.wf, LRI.bfWf, LRI.maskWf, LRF.wf, LRN.wf, LM.wf, LA.wf, Red.wf, LI.wf, Opnd.wf, Opnd.isReg, Opnd.oneTo32, bits, Bool.and_eq_true, decide_eq_true_eq, Bool.false_eq_true, and_false, false_and] at w
  all_goals exact fits_uw (by decide) (by (try simp only [Opnd.code]); omega)
theorem sslt (f : UR) : Statement (.sslt f) := by
  intro h
  have w : (f.wf 256) = true := fieldsOk_of_wf h
  rw [show encode (.sslt f) = urw 0x12 f from rfl]
  obtain ⟨d, a, b⟩ := f
  rcases b with b | b
  all_goals simp only [UR.wf, UR.specWf, UM.wf, LRI.wf, LRI.bfWf, LRI.maskWf, LRF.wf, LRN.wf, LM.wf, LA.wf, Red.wf, LI.wf, Opnd.wf, Opnd.isReg, Opnd.oneTo32, bits, Bool.and_eq_true, decide_eq_true_eq, Bool.false_eq_true, and_false, false_and] at w
  all_goals exact fits_uw (by decide) (by (try simp only [Opnd.code]); omega)
theorem ssltn (f : UR) : Statement (.ssltn f) := by
  intro h
  have w : (f.wf 256) = true := fieldsOk_of_wf h
  rw [show encode (.ssltn f) = urw 0x13 f from rfl]
  obtain ⟨d, a, b⟩ := f
  rcases b with b | b
  all_goals simp only [UR.wf, UR.specWf, UM.wf, LRI.wf, LRI.bfWf, LRI.maskWf, LRF.wf, LRN.wf, LM.wf, LA.wf, Red.wf, LI.wf, Opnd.wf, Opnd.isReg, Opnd.oneTo32, bits, Bool.and_eq_true, decide_eq_true_eq, Bool.false_eq_true, and_false, false_and] at w
  all_goals exact fits_uw (by decide) (by (try simp only [Opnd.code]); omega)
theorem ssel (f : UR) : Statement (.ssel f) := by
  intro h
  have w : (f.wf 256) = true := fieldsOk_of_wf h
  rw [show encode (.ssel f) = urw 0x14 f from rfl]
  obtain ⟨d, a, b⟩ := f
  rcases b with b | b
  all_goals simp only [UR.wf, UR.specWf, UM.wf, LRI.wf, LRI.bfWf, LRI.maskWf, LRF.wf, LRN.wf, LM.wf, LA.wf, Red.wf, LI.wf, Opnd.wf, Opnd.isReg, Opnd.oneTo32, bits, Bool.and_eq_true, decide_eq_true_eq, Bool.false_eq_true, and_false, false_and] at w
  all_goals exact fits_uw (by decide) (by (try simp only [Opnd.code]); omega)
theorem sbfx (f : UR) : Statement (.sbfx f) := by
  intro h
  have w : (f.specWf 128) = true := fieldsOk_of_wf h
  rw [show encode (.sbfx f) = urw 0x15 f from rfl]
  obtain ⟨d, a, b⟩ := f
  rcases b with b | b
  all_goals simp only [UR.wf, UR.specWf, UM.wf, LRI.wf, LRI.bfWf, LRI.maskWf, LRF.wf, LRN.wf, LM.wf, LA.wf, Red.wf, LI.wf, Opnd.wf, Opnd.isReg, Opnd.oneTo32, bits, Bool.and_eq_true, decide_eq_true_eq, Bool.false_eq_true, and_false, false_and] at w
  all_goals exact fits_uw (by decide) (by (try simp only [Opnd.code]); omega)
theorem sbfi (f : UR) : Statement (.sbfi f) := by
  intro h
  have w : (f.specWf 64) = true := fieldsOk_of_wf h
  rw [show encode (.sbfi f) = urw 0x16 f from rfl]
  obtain ⟨d, a, b⟩ := f
  rcases b with b | b
  all_goals simp only [UR.wf, UR.specWf, UM.wf, LRI.wf, LRI.bfWf, LRI.maskWf, LRF.wf, LRN.wf, LM.wf, LA.wf, Red.wf, LI.wf, Opnd.wf, Opnd.isReg, Opnd.oneTo32, bits, Bool.and_eq_true, decide_eq_true_eq, Bool.false_eq_true, and_false, false_and] at w
  all_goals exact fits_uw (by decide) (by (try simp only [Opnd.code]); omega)
theorem sbit (d : Nat) (a : Nat) (fn : Nat) : Statement (.sbit d a fn) := by
  intro h
  have w : (bits 8 d && bits 8 a && fn < 4) = true := fieldsOk_of_wf h
  rw [show encode (.sbit d a fn) = uw 0x17 (d * 2 ^ 17 + a * 2 ^ 9 + fn * 2 + 1) from rfl]
  simp only [UR.wf, UR.specWf, UM.wf, LRI.wf, LRI.bfWf, LRI.maskWf, LRF.wf, LRN.wf, LM.wf, LA.wf, Red.wf, LI.wf, Opnd.wf, Opnd.isReg, Opnd.oneTo32, bits, Bool.and_eq_true, decide_eq_true_eq, Bool.false_eq_true, and_false, false_and] at w
  exact fits_uw (by decide) (by omega)
theorem sli (d : Nat) (imm : Nat) : Statement (.sli d imm) := by
  intro h
  have w : (bits 8 d && bits 17 imm) = true := fieldsOk_of_wf h
  rw [show encode (.sli d imm) = uw 0x18 (d * 2 ^ 17 + imm) from rfl]
  simp only [UR.wf, UR.specWf, UM.wf, LRI.wf, LRI.bfWf, LRI.maskWf, LRF.wf, LRN.wf, LM.wf, LA.wf, Red.wf, LI.wf, Opnd.wf, Opnd.isReg, Opnd.oneTo32, bits, Bool.and_eq_true, decide_eq_true_eq, Bool.false_eq_true, and_false, false_and] at w
  exact fits_uw (by decide) (by omega)
theorem slis (d : Nat) (imm : Nat) : Statement (.slis d imm) := by
  intro h
  have w : (bits 8 d && bits 17 imm) = true := fieldsOk_of_wf h
  rw [show encode (.slis d imm) = uw 0x19 (d * 2 ^ 17 + imm) from rfl]
  simp only [UR.wf, UR.specWf, UM.wf, LRI.wf, LRI.bfWf, LRI.maskWf, LRF.wf, LRN.wf, LM.wf, LA.wf, Red.wf, LI.wf, Opnd.wf, Opnd.isReg, Opnd.oneTo32, bits, Bool.and_eq_true, decide_eq_true_eq, Bool.false_eq_true, and_false, false_and] at w
  exact fits_uw (by decide) (by omega)
theorem sld (f : UM) : Statement (.sld f) := by
  intro h
  have w : (f.wf) = true := fieldsOk_of_wf h
  rw [show encode (.sld f) = umw 0x1A f ++ [] ++ [] ++ [] ++ [] ++ [] from rfl]
  simp only [List.append_nil]
  obtain ⟨ext, d, a, off⟩ := f
  simp only [UR.wf, UR.specWf, UM.wf, LRI.wf, LRI.bfWf, LRI.maskWf, LRF.wf, LRN.wf, LM.wf, LA.wf, Red.wf, LI.wf, Opnd.wf, Opnd.isReg, Opnd.oneTo32, bits, Bool.and_eq_true, decide_eq_true_eq, Bool.false_eq_true, and_false, false_and] at w
  exact fits_um w.2 (by decide) (by (try dsimp only); omega)
theorem sldw (f : UM) : Statement (.sldw f) := by
  intro h
  have w : (f.wf) = true := fieldsOk_of_wf h
  rw [show encode (.sldw f) = umw 0x1B f ++ [] ++ [] ++ [] ++ [] ++ [] from rfl]
  simp only [List.append_nil]
  obtain ⟨ext, d, a, off⟩ := f
  simp only [UR.wf, UR.specWf, UM.wf, LRI.wf, LRI.bfWf, LRI.maskWf, LRF.wf, LRN.wf, LM.wf, LA.wf, Red.wf, LI.wf, Opnd.wf, Opnd.isReg, Opnd.oneTo32, bits, Bool.and_eq_true, decide_eq_true_eq, Bool.false_eq_true, and_false, false_and] at w
  exact fits_um w.2 (by decide) (by (try dsimp only); omega)
theorem sst (f : UM) : Statement (.sst f) := by
  intro h
  have w : (f.wf) = true := fieldsOk_of_wf h
  rw [show encode (.sst f) = umw 0x1C f ++ [] ++ [] ++ [] ++ [] ++ [] from rfl]
  simp only [List.append_nil]
  obtain ⟨ext, d, a, off⟩ := f
  simp only [UR.wf, UR.specWf, UM.wf, LRI.wf, LRI.bfWf, LRI.maskWf, LRF.wf, LRN.wf, LM.wf, LA.wf, Red.wf, LI.wf, Opnd.wf, Opnd.isReg, Opnd.oneTo32, bits, Bool.and_eq_true, decide_eq_true_eq, Bool.false_eq_true, and_false, false_and] at w
  exact fits_um w.2 (by decide) (by (try dsimp only); omega)
theorem sstw (f : UM) : Statement (.sstw f) := by
  intro h
  have w : (f.wf) = true := fieldsOk_of_wf h
  rw [show encode (.sstw f) = umw 0x1D f ++ [] ++ [] ++ [] ++ [] ++ [] from rfl]
  simp only [List.append_nil]
  obtain ⟨ext, d, a, off⟩ := f
  simp only [UR.wf, UR.specWf, UM.wf, LRI.wf, LRI.bfWf, LRI.maskWf, LRF.wf, LRN.wf, LM.wf, LA.wf, Red.wf, LI.wf, Opnd.wf, Opnd.isReg, Opnd.oneTo32, bits, Bool.and_eq_true, decide_eq_true_eq, Bool.false_eq_true, and_false, false_and] at w
  exact fits_um w.2 (by decide) (by (try dsimp only); omega)
theorem sldk (d : Nat) (a : Nat) (off : Nat) : Statement (.sldk d a off) := by
  intro h
  have w : (bits 8 d && bits 8 a && bits 9 off) = true := fieldsOk_of_wf h
  rw [show encode (.sldk d a off) = uw 0x1E (d * 2 ^ 17 + a * 2 ^ 9 + off) from rfl]
  simp only [UR.wf, UR.specWf, UM.wf, LRI.wf, LRI.bfWf, LRI.maskWf, LRF.wf, LRN.wf, LM.wf, LA.wf, Red.wf, LI.wf, Opnd.wf, Opnd.isReg, Opnd.oneTo32, bits, Bool.and_eq_true, decide_eq_true_eq, Bool.false_eq_true, and_false, false_and] at w
  exact fits_uw (by decide) (by omega)
theorem smovl (f : UR) : Statement (.smovl f) := by
  intro h
  have w : (bits 8 f.d && bits 7 f.a && f.b.wf 8 32) = true := fieldsOk_of_wf h
  rw [show encode (.smovl f) = urw 0x1F f from rfl]
  obtain ⟨d, a, b⟩ := f
  rcases b with b | b
  all_goals simp only [UR.wf, UR.specWf, UM.wf, LRI.wf, LRI.bfWf, LRI.maskWf, LRF.wf, LRN.wf, LM.wf, LA.wf, Red.wf, LI.wf, Opnd.wf, Opnd.isReg, Opnd.oneTo32, bits, Bool.and_eq_true, decide_eq_true_eq, Bool.false_eq_true, and_false, false_and] at w
  all_goals exact fits_uw (by decide) (by (try simp only [Opnd.code]); omega)
theorem sb (off : Nat) : Statement (.sb off) := by
  intro h
  have w : (bits 25 off) = true := fieldsOk_of_wf h
  rw [show encode (.sb off) = uw 0x20 off from rfl]
  simp only [UR.wf, UR.specWf, UM.wf, LRI.wf, LRI.bfWf, LRI.maskWf, LRF.wf, LRN.wf, LM.wf, LA.wf, Red.wf, LI.wf, Opnd.wf, Opnd.isReg, Opnd.oneTo32, bits, Bool.and_eq_true, decide_eq_true_eq, Bool.false_eq_true, and_false, false_and] at w
  exact fits_uw (by decide) (by omega)
theorem sbz (a : Nat) (off : Nat) : Statement (.sbz a off) := by
  intro h
  have w : (bits 8 a && bits 17 off) = true := fieldsOk_of_wf h
  rw [show encode (.sbz a off) = uw 0x21 (a * 2 ^ 17 + off) from rfl]
  simp only [UR.wf, UR.specWf, UM.wf, LRI.wf, LRI.bfWf, LRI.maskWf, LRF.wf, LRN.wf, LM.wf, LA.wf, Red.wf, LI.wf, Opnd.wf, Opnd.isReg, Opnd.oneTo32, bits, Bool.and_eq_true, decide_eq_true_eq, Bool.false_eq_true, and_false, false_and] at w
  exact fits_uw (by decide) (by omega)
theorem sbnz (a : Nat) (off : Nat) : Statement (.sbnz a off) := by
  intro h
  have w : (bits 8 a && bits 17 off) = true := fieldsOk_of_wf h
  rw [show encode (.sbnz a off) = uw 0x22 (a * 2 ^ 17 + off) from rfl]
  simp only [UR.wf, UR.specWf, UM.wf, LRI.wf, LRI.bfWf, LRI.maskWf, LRF.wf, LRN.wf, LM.wf, LA.wf, Red.wf, LI.wf, Opnd.wf, Opnd.isReg, Opnd.oneTo32, bits, Bool.and_eq_true, decide_eq_true_eq, Bool.false_eq_true, and_false, false_and] at w
  exact fits_uw (by decide) (by omega)
theorem sblt (a : Nat) (off : Nat) : Statement (.sblt a off) := by
  intro h
  have w : (bits 8 a && bits 17 off) = true := fieldsOk_of_wf h
  rw [show encode (.sblt a off) = uw 0x23 (a * 2 ^ 17 + off) from rfl]
  simp only [UR.wf, UR.specWf, UM.wf, LRI.wf, LRI.bfWf, LRI.maskWf, LRF.wf, LRN.wf, LM.wf, LA.wf, Red.wf, LI.wf, Opnd.wf, Opnd.isReg, Opnd.oneTo32, bits, Bool.and_eq_true, decide_eq_true_eq, Bool.false_eq_true, and_false, false_and] at w
  exact fits_uw (by decide) (by omega)
theorem sj (a : Nat) : Statement (.sj a) := by
  intro h
  have w : (bits 8 a) = true := fieldsOk_of_wf h
  rw [show encode (.sj a) = uw 0x24 (a * 2 ^ 9) from rfl]
  simp only [UR.wf, UR.specWf, UM.wf, LRI.wf, LRI.bfWf, LRI.maskWf, LRF.wf, LRN.wf, LM.wf, LA.wf, Red.wf, LI.wf, Opnd.wf, Opnd.isReg, Opnd.oneTo32, bits, Bool.and_eq_true, decide_eq_true_eq, Bool.false_eq_true, and_false, false_and] at w
  exact fits_uw (by decide) (by omega)
theorem scall (off : Nat) : Statement (.scall off) := by
  intro h
  have w : (bits 25 off) = true := fieldsOk_of_wf h
  rw [show encode (.scall off) = uw 0x25 off from rfl]
  simp only [UR.wf, UR.specWf, UM.wf, LRI.wf, LRI.bfWf, LRI.maskWf, LRF.wf, LRN.wf, LM.wf, LA.wf, Red.wf, LI.wf, Opnd.wf, Opnd.isReg, Opnd.oneTo32, bits, Bool.and_eq_true, decide_eq_true_eq, Bool.false_eq_true, and_false, false_and] at w
  exact fits_uw (by decide) (by omega)
theorem scallr (a : Nat) : Statement (.scallr a) := by
  intro h
  have w : (bits 8 a) = true := fieldsOk_of_wf h
  rw [show encode (.scallr a) = uw 0x26 (a * 2 ^ 9) from rfl]
  simp only [UR.wf, UR.specWf, UM.wf, LRI.wf, LRI.bfWf, LRI.maskWf, LRF.wf, LRN.wf, LM.wf, LA.wf, Red.wf, LI.wf, Opnd.wf, Opnd.isReg, Opnd.oneTo32, bits, Bool.and_eq_true, decide_eq_true_eq, Bool.false_eq_true, and_false, false_and] at w
  exact fits_uw (by decide) (by omega)
theorem sret : Statement .sret := by
  intro h
  have w : (true) = true := fieldsOk_of_wf h
  rw [show encode (.sret) = uw 0x27 0 from rfl]
  simp only [UR.wf, UR.specWf, UM.wf, LRI.wf, LRI.bfWf, LRI.maskWf, LRF.wf, LRN.wf, LM.wf, LA.wf, Red.wf, LI.wf, Opnd.wf, Opnd.isReg, Opnd.oneTo32, bits, Bool.and_eq_true, decide_eq_true_eq, Bool.false_eq_true, and_false, false_and] at w
  exact fits_uw (by decide) (by omega)
theorem sloop (a : Nat) (off : Nat) : Statement (.sloop a off) := by
  intro h
  have w : (bits 8 a && bits 17 off) = true := fieldsOk_of_wf h
  rw [show encode (.sloop a off) = uw 0x28 (a * 2 ^ 17 + off) from rfl]
  simp only [UR.wf, UR.specWf, UM.wf, LRI.wf, LRI.bfWf, LRI.maskWf, LRF.wf, LRN.wf, LM.wf, LA.wf, Red.wf, LI.wf, Opnd.wf, Opnd.isReg, Opnd.oneTo32, bits, Bool.and_eq_true, decide_eq_true_eq, Bool.false_eq_true, and_false, false_and] at w
  exact fits_uw (by decide) (by omega)
theorem fenceRel (sc : Scope) : Statement (.fenceRel sc) := by
  intro h
  have w : (true) = true := fieldsOk_of_wf h
  rw [show encode (.fenceRel sc) = uw 0x29 (sc.code * 2 ^ 19) from rfl]
  have c0 := scope_lt sc
  simp only [UR.wf, UR.specWf, UM.wf, LRI.wf, LRI.bfWf, LRI.maskWf, LRF.wf, LRN.wf, LM.wf, LA.wf, Red.wf, LI.wf, Opnd.wf, Opnd.isReg, Opnd.oneTo32, bits, Bool.and_eq_true, decide_eq_true_eq, Bool.false_eq_true, and_false, false_and] at w
  exact fits_uw (by decide) (by omega)
theorem fenceAcq (sc : Scope) : Statement (.fenceAcq sc) := by
  intro h
  have w : (true) = true := fieldsOk_of_wf h
  rw [show encode (.fenceAcq sc) = uw 0x29 (1 * 2 ^ 22 + sc.code * 2 ^ 19) from rfl]
  have c0 := scope_lt sc
  simp only [UR.wf, UR.specWf, UM.wf, LRI.wf, LRI.bfWf, LRI.maskWf, LRF.wf, LRN.wf, LM.wf, LA.wf, Red.wf, LI.wf, Opnd.wf, Opnd.isReg, Opnd.oneTo32, bits, Bool.and_eq_true, decide_eq_true_eq, Bool.false_eq_true, and_false, false_and] at w
  exact fits_uw (by decide) (by omega)
theorem fenceAr (sc : Scope) : Statement (.fenceAr sc) := by
  intro h
  have w : (true) = true := fieldsOk_of_wf h
  rw [show encode (.fenceAr sc) = uw 0x29 (2 * 2 ^ 22 + sc.code * 2 ^ 19) from rfl]
  have c0 := scope_lt sc
  simp only [UR.wf, UR.specWf, UM.wf, LRI.wf, LRI.bfWf, LRI.maskWf, LRF.wf, LRN.wf, LM.wf, LA.wf, Red.wf, LI.wf, Opnd.wf, Opnd.isReg, Opnd.oneTo32, bits, Bool.and_eq_true, decide_eq_true_eq, Bool.false_eq_true, and_false, false_and] at w
  exact fits_uw (by decide) (by omega)
theorem fenceSc (sc : Scope) : Statement (.fenceSc sc) := by
  intro h
  have w : (true) = true := fieldsOk_of_wf h
  rw [show encode (.fenceSc sc) = uw 0x29 (3 * 2 ^ 22 + sc.code * 2 ^ 19) from rfl]
  have c0 := scope_lt sc
  simp only [UR.wf, UR.specWf, UM.wf, LRI.wf, LRI.bfWf, LRI.maskWf, LRF.wf, LRN.wf, LM.wf, LA.wf, Red.wf, LI.wf, Opnd.wf, Opnd.isReg, Opnd.oneTo32, bits, Bool.and_eq_true, decide_eq_true_eq, Bool.false_eq_true, and_false, false_and] at w
  exact fits_uw (by decide) (by omega)
theorem fenceFetch : Statement .fenceFetch := by
  intro h
  have w : (true) = true := fieldsOk_of_wf h
  rw [show encode (.fenceFetch) = uw 0x29 (4 * 2 ^ 22) from rfl]
  simp only [UR.wf, UR.specWf, UM.wf, LRI.wf, LRI.bfWf, LRI.maskWf, LRF.wf, LRN.wf, LM.wf, LA.wf, Red.wf, LI.wf, Opnd.wf, Opnd.isReg, Opnd.oneTo32, bits, Bool.and_eq_true, decide_eq_true_eq, Bool.false_eq_true, and_false, false_and] at w
  exact fits_uw (by decide) (by omega)
theorem tcfg (n : Nat) (a : Nat) : Statement (.tcfg n a) := by
  intro h
  have w : (bits 4 n && bits 8 a) = true := fieldsOk_of_wf h
  rw [show encode (.tcfg n a) = uw 0x2A (n * 2 ^ 21 + a * 2 ^ 13) from rfl]
  simp only [UR.wf, UR.specWf, UM.wf, LRI.wf, LRI.bfWf, LRI.maskWf, LRF.wf, LRN.wf, LM.wf, LA.wf, Red.wf, LI.wf, Opnd.wf, Opnd.isReg, Opnd.oneTo32, bits, Bool.and_eq_true, decide_eq_true_eq, Bool.false_eq_true, and_false, false_and] at w
  exact fits_uw (by decide) (by omega)
theorem tld (n : Nat) (a : Nat) : Statement (.tld n a) := by
  intro h
  have w : (bits 4 n && bits 8 a) = true := fieldsOk_of_wf h
  rw [show encode (.tld n a) = uw 0x2B (n * 2 ^ 21 + a * 2 ^ 13) from rfl]
  simp only [UR.wf, UR.specWf, UM.wf, LRI.wf, LRI.bfWf, LRI.maskWf, LRF.wf, LRN.wf, LM.wf, LA.wf, Red.wf, LI.wf, Opnd.wf, Opnd.isReg, Opnd.oneTo32, bits, Bool.and_eq_true, decide_eq_true_eq, Bool.false_eq_true, and_false, false_and] at w
  exact fits_uw (by decide) (by omega)
theorem tldS (n : Nat) (a : Nat) (b : Nat) : Statement (.tldS n a b) := by
  intro h
  have w : (bits 4 n && bits 8 a && bits 8 b) = true := fieldsOk_of_wf h
  rw [show encode (.tldS n a b) = uw 0x2B (n * 2 ^ 21 + a * 2 ^ 13 + b * 2 ^ 5 + 2 ^ 4) from rfl]
  simp only [UR.wf, UR.specWf, UM.wf, LRI.wf, LRI.bfWf, LRI.maskWf, LRF.wf, LRN.wf, LM.wf, LA.wf, Red.wf, LI.wf, Opnd.wf, Opnd.isReg, Opnd.oneTo32, bits, Bool.and_eq_true, decide_eq_true_eq, Bool.false_eq_true, and_false, false_and] at w
  exact fits_uw (by decide) (by omega)
theorem tst (n : Nat) (a : Nat) : Statement (.tst n a) := by
  intro h
  have w : (bits 4 n && bits 8 a) = true := fieldsOk_of_wf h
  rw [show encode (.tst n a) = uw 0x2C (n * 2 ^ 21 + a * 2 ^ 13) from rfl]
  simp only [UR.wf, UR.specWf, UM.wf, LRI.wf, LRI.bfWf, LRI.maskWf, LRF.wf, LRN.wf, LM.wf, LA.wf, Red.wf, LI.wf, Opnd.wf, Opnd.isReg, Opnd.oneTo32, bits, Bool.and_eq_true, decide_eq_true_eq, Bool.false_eq_true, and_false, false_and] at w
  exact fits_uw (by decide) (by omega)
theorem mma (a : Nat) (b : Nat) (s : Nat) : Statement (.mma a b s) := by
  intro h
  have w : (bits 4 a && bits 4 b && bits 8 s) = true := fieldsOk_of_wf h
  rw [show encode (.mma a b s) = uw 0x2D (a * 2 ^ 21 + b * 2 ^ 17 + s * 2 ^ 9) from rfl]
  simp only [UR.wf, UR.specWf, UM.wf, LRI.wf, LRI.bfWf, LRI.maskWf, LRF.wf, LRN.wf, LM.wf, LA.wf, Red.wf, LI.wf, Opnd.wf, Opnd.isReg, Opnd.oneTo32, bits, Bool.and_eq_true, decide_eq_true_eq, Bool.false_eq_true, and_false, false_and] at w
  exact fits_uw (by decide) (by omega)
theorem mmaPair (a : Nat) (b : Nat) (s : Nat) : Statement (.mmaPair a b s) := by
  intro h
  have w : (bits 4 a && bits 4 b && bits 8 s) = true := fieldsOk_of_wf h
  rw [show encode (.mmaPair a b s) = uw 0x2D (a * 2 ^ 21 + b * 2 ^ 17 + s * 2 ^ 9 + 2 ^ 8) from rfl]
  simp only [UR.wf, UR.specWf, UM.wf, LRI.wf, LRI.bfWf, LRI.maskWf, LRF.wf, LRN.wf, LM.wf, LA.wf, Red.wf, LI.wf, Opnd.wf, Opnd.isReg, Opnd.oneTo32, bits, Bool.and_eq_true, decide_eq_true_eq, Bool.false_eq_true, and_false, false_and] at w
  exact fits_uw (by decide) (by omega)
theorem mdrnTile (a : Nat) (clr : Bool) (n : Nat) (row : Nat) (col : Nat) : Statement (.mdrnTile a clr n row col) := by
  intro h
  have w : (bits 8 a && bits 4 n && bits 3 row && bits 2 col) = true := fieldsOk_of_wf h
  rw [show encode (.mdrnTile a clr n row col) = uw 0x2E (a * 2 ^ 17 + bit01 clr * 2 ^ 15 + n * 2 ^ 8 + row * 2 ^ 5 + col * 2 ^ 3) from rfl]
  have c0 := bit01_lt clr
  simp only [UR.wf, UR.specWf, UM.wf, LRI.wf, LRI.bfWf, LRI.maskWf, LRF.wf, LRN.wf, LM.wf, LA.wf, Red.wf, LI.wf, Opnd.wf, Opnd.isReg, Opnd.oneTo32, bits, Bool.and_eq_true, decide_eq_true_eq, Bool.false_eq_true, and_false, false_and] at w
  exact fits_uw (by decide) (by omega)
theorem mdrnSpad (a : Nat) (clr : Bool) (cv : Conv) (b : Nat) : Statement (.mdrnSpad a clr cv b) := by
  intro h
  have w : (bits 8 a && bits 8 b) = true := fieldsOk_of_wf h
  rw [show encode (.mdrnSpad a clr cv b) = uw 0x2E (a * 2 ^ 17 + 2 ^ 16 + bit01 clr * 2 ^ 15 + cv.code * 2 ^ 12 + b * 2 ^ 4) from rfl]
  have c0 := bit01_lt clr
  have c1 := conv_lt cv
  simp only [UR.wf, UR.specWf, UM.wf, LRI.wf, LRI.bfWf, LRI.maskWf, LRF.wf, LRN.wf, LM.wf, LA.wf, Red.wf, LI.wf, Opnd.wf, Opnd.isReg, Opnd.oneTo32, bits, Bool.and_eq_true, decide_eq_true_eq, Bool.false_eq_true, and_false, false_and] at w
  exact fits_uw (by decide) (by omega)
theorem mchk (a : Nat) : Statement (.mchk a) := by
  intro h
  have w : (bits 8 a) = true := fieldsOk_of_wf h
  rw [show encode (.mchk a) = uw 0x2F (a * 2 ^ 14) from rfl]
  simp only [UR.wf, UR.specWf, UM.wf, LRI.wf, LRI.bfWf, LRI.maskWf, LRF.wf, LRN.wf, LM.wf, LA.wf, Red.wf, LI.wf, Opnd.wf, Opnd.isReg, Opnd.oneTo32, bits, Bool.and_eq_true, decide_eq_true_eq, Bool.false_eq_true, and_false, false_and] at w
  exact fits_uw (by decide) (by omega)
theorem mfix (a : Nat) : Statement (.mfix a) := by
  intro h
  have w : (bits 8 a) = true := fieldsOk_of_wf h
  rw [show encode (.mfix a) = uw 0x2F (1 * 2 ^ 22 + a * 2 ^ 14) from rfl]
  simp only [UR.wf, UR.specWf, UM.wf, LRI.wf, LRI.bfWf, LRI.maskWf, LRF.wf, LRN.wf, LM.wf, LA.wf, Red.wf, LI.wf, Opnd.wf, Opnd.isReg, Opnd.oneTo32, bits, Bool.and_eq_true, decide_eq_true_eq, Bool.false_eq_true, and_false, false_and] at w
  exact fits_uw (by decide) (by omega)
theorem mrty (d : Nat) (a : Nat) : Statement (.mrty d a) := by
  intro h
  have w : (bits 8 d && bits 8 a) = true := fieldsOk_of_wf h
  rw [show encode (.mrty d a) = uw 0x2F (2 * 2 ^ 22 + a * 2 ^ 14 + d * 2 ^ 6) from rfl]
  simp only [UR.wf, UR.specWf, UM.wf, LRI.wf, LRI.bfWf, LRI.maskWf, LRF.wf, LRN.wf, LM.wf, LA.wf, Red.wf, LI.wf, Opnd.wf, Opnd.isReg, Opnd.oneTo32, bits, Bool.and_eq_true, decide_eq_true_eq, Bool.false_eq_true, and_false, false_and] at w
  exact fits_uw (by decide) (by omega)
theorem mstat (d : Nat) : Statement (.mstat d) := by
  intro h
  have w : (bits 8 d) = true := fieldsOk_of_wf h
  rw [show encode (.mstat d) = uw 0x2F (3 * 2 ^ 22 + d * 2 ^ 6) from rfl]
  simp only [UR.wf, UR.specWf, UM.wf, LRI.wf, LRI.bfWf, LRI.maskWf, LRF.wf, LRN.wf, LM.wf, LA.wf, Red.wf, LI.wf, Opnd.wf, Opnd.isReg, Opnd.oneTo32, bits, Bool.and_eq_true, decide_eq_true_eq, Bool.false_eq_true, and_false, false_and] at w
  exact fits_uw (by decide) (by omega)
theorem mstatClo (d : Nat) (a : Nat) : Statement (.mstatClo d a) := by
  intro h
  have w : (bits 8 d && bits 8 a) = true := fieldsOk_of_wf h
  rw [show encode (.mstatClo d a) = uw 0x2F (3 * 2 ^ 22 + a * 2 ^ 14 + d * 2 ^ 6 + 1) from rfl]
  simp only [UR.wf, UR.specWf, UM.wf, LRI.wf, LRI.bfWf, LRI.maskWf, LRF.wf, LRN.wf, LM.wf, LA.wf, Red.wf, LI.wf, Opnd.wf, Opnd.isReg, Opnd.oneTo32, bits, Bool.and_eq_true, decide_eq_true_eq, Bool.false_eq_true, and_false, false_and] at w
  exact fits_uw (by decide) (by omega)
theorem mstatChi (d : Nat) (a : Nat) : Statement (.mstatChi d a) := by
  intro h
  have w : (bits 8 d && bits 8 a) = true := fieldsOk_of_wf h
  rw [show encode (.mstatChi d a) = uw 0x2F (3 * 2 ^ 22 + a * 2 ^ 14 + d * 2 ^ 6 + 2) from rfl]
  simp only [UR.wf, UR.specWf, UM.wf, LRI.wf, LRI.bfWf, LRI.maskWf, LRF.wf, LRN.wf, LM.wf, LA.wf, Red.wf, LI.wf, Opnd.wf, Opnd.isReg, Opnd.oneTo32, bits, Bool.and_eq_true, decide_eq_true_eq, Bool.false_eq_true, and_false, false_and] at w
  exact fits_uw (by decide) (by omega)
theorem mzero (a : Nat) : Statement (.mzero a) := by
  intro h
  have w : (bits 8 a) = true := fieldsOk_of_wf h
  rw [show encode (.mzero a) = uw 0x2F (4 * 2 ^ 22 + a * 2 ^ 14) from rfl]
  simp only [UR.wf, UR.specWf, UM.wf, LRI.wf, LRI.bfWf, LRI.maskWf, LRF.wf, LRN.wf, LM.wf, LA.wf, Red.wf, LI.wf, Opnd.wf, Opnd.isReg, Opnd.oneTo32, bits, Bool.and_eq_true, decide_eq_true_eq, Bool.false_eq_true, and_false, false_and] at w
  exact fits_uw (by decide) (by omega)
theorem mgive (d : Nat) (a : Nat) : Statement (.mgive d a) := by
  intro h
  have w : (bits 8 d && bits 8 a) = true := fieldsOk_of_wf h
  rw [show encode (.mgive d a) = uw 0x2F (5 * 2 ^ 22 + a * 2 ^ 14 + d * 2 ^ 6) from rfl]
  simp only [UR.wf, UR.specWf, UM.wf, LRI.wf, LRI.bfWf, LRI.maskWf, LRF.wf, LRN.wf, LM.wf, LA.wf, Red.wf, LI.wf, Opnd.wf, Opnd.isReg, Opnd.oneTo32, bits, Bool.and_eq_true, decide_eq_true_eq, Bool.false_eq_true, and_false, false_and] at w
  exact fits_uw (by decide) (by omega)
theorem gstr (z : Nat) (tok : Nat) (a : Nat) (b : Nat) : Statement (.gstr z tok a b) := by
  intro h
  have w : (z < 3 && bits 3 tok && bits 8 a && bits 8 b) = true := fieldsOk_of_wf h
  rw [show encode (.gstr z tok a b) = uw 0x30 (z * 2 ^ 23 + tok * 2 ^ 20 + a * 2 ^ 12 + b * 2 ^ 4) from rfl]
  simp only [UR.wf, UR.specWf, UM.wf, LRI.wf, LRI.bfWf, LRI.maskWf, LRF.wf, LRN.wf, LM.wf, LA.wf, Red.wf, LI.wf, Opnd.wf, Opnd.isReg, Opnd.oneTo32, bits, Bool.and_eq_true, decide_eq_true_eq, Bool.false_eq_true, and_false, false_and] at w
  exact fits_uw (by decide) (by omega)
theorem cbdef (c : Nat) (a : Nat) (b : Nat) : Statement (.cbdef c a b) := by
  intro h
  have w : (bits 5 c && bits 8 a && bits 8 b) = true := fieldsOk_of_wf h
  rw [show encode (.cbdef c a b) = uw 0x31 (c * 2 ^ 17 + a * 2 ^ 9 + b * 2) from rfl]
  simp only [UR.wf, UR.specWf, UM.wf, LRI.wf, LRI.bfWf, LRI.maskWf, LRF.wf, LRN.wf, LM.wf, LA.wf, Red.wf, LI.wf, Opnd.wf, Opnd.isReg, Opnd.oneTo32, bits, Bool.and_eq_true, decide_eq_true_eq, Bool.false_eq_true, and_false, false_and] at w
  exact fits_uw (by decide) (by omega)
theorem cbget (d : Nat) (c : Nat) : Statement (.cbget d c) := by
  intro h
  have w : (bits 5 c && bits 8 d && d != 159) = true := fieldsOk_of_wf h
  rw [show encode (.cbget d c) = uw 0x31 (1 * 2 ^ 22 + c * 2 ^ 17 + d * 2 ^ 9) from rfl]
  simp only [UR.wf, UR.specWf, UM.wf, LRI.wf, LRI.bfWf, LRI.maskWf, LRF.wf, LRN.wf, LM.wf, LA.wf, Red.wf, LI.wf, Opnd.wf, Opnd.isReg, Opnd.oneTo32, bits, Bool.and_eq_true, decide_eq_true_eq, Bool.false_eq_true, and_false, false_and] at w
  exact fits_uw (by decide) (by omega)
theorem cbput (c : Nat) (a : Nat) : Statement (.cbput c a) := by
  intro h
  have w : (bits 5 c && bits 8 a) = true := fieldsOk_of_wf h
  rw [show encode (.cbput c a) = uw 0x31 (2 * 2 ^ 22 + c * 2 ^ 17 + a * 2 ^ 9) from rfl]
  simp only [UR.wf, UR.specWf, UM.wf, LRI.wf, LRI.bfWf, LRI.maskWf, LRF.wf, LRN.wf, LM.wf, LA.wf, Red.wf, LI.wf, Opnd.wf, Opnd.isReg, Opnd.oneTo32, bits, Bool.and_eq_true, decide_eq_true_eq, Bool.false_eq_true, and_false, false_and] at w
  exact fits_uw (by decide) (by omega)
theorem cbqry (d : Nat) (c : Nat) : Statement (.cbqry d c) := by
  intro h
  have w : (bits 5 c && bits 8 d) = true := fieldsOk_of_wf h
  rw [show encode (.cbqry d c) = uw 0x31 (3 * 2 ^ 22 + c * 2 ^ 17 + d * 2 ^ 9) from rfl]
  simp only [UR.wf, UR.specWf, UM.wf, LRI.wf, LRI.bfWf, LRI.maskWf, LRF.wf, LRN.wf, LM.wf, LA.wf, Red.wf, LI.wf, Opnd.wf, Opnd.isReg, Opnd.oneTo32, bits, Bool.and_eq_true, decide_eq_true_eq, Bool.false_eq_true, and_false, false_and] at w
  exact fits_uw (by decide) (by omega)
theorem cblim (c : Nat) (a : Nat) : Statement (.cblim c a) := by
  intro h
  have w : (bits 5 c && bits 8 a) = true := fieldsOk_of_wf h
  rw [show encode (.cblim c a) = uw 0x31 (4 * 2 ^ 22 + c * 2 ^ 17 + a * 2 ^ 9) from rfl]
  simp only [UR.wf, UR.specWf, UM.wf, LRI.wf, LRI.bfWf, LRI.maskWf, LRF.wf, LRN.wf, LM.wf, LA.wf, Red.wf, LI.wf, Opnd.wf, Opnd.isReg, Opnd.oneTo32, bits, Bool.and_eq_true, decide_eq_true_eq, Bool.false_eq_true, and_false, false_and] at w
  exact fits_uw (by decide) (by omega)
theorem waitq (c : QClass) (n : Nat) : Statement (.waitq c n) := by
  intro h
  have w : (bits 8 n) = true := fieldsOk_of_wf h
  rw [show encode (.waitq c n) = uw 0x32 (c.code * 2 ^ 23 + n * 2 ^ 15) from rfl]
  have c0 := qclass_lt c
  simp only [UR.wf, UR.specWf, UM.wf, LRI.wf, LRI.bfWf, LRI.maskWf, LRF.wf, LRN.wf, LM.wf, LA.wf, Red.wf, LI.wf, Opnd.wf, Opnd.isReg, Opnd.oneTo32, bits, Bool.and_eq_true, decide_eq_true_eq, Bool.false_eq_true, and_false, false_and] at w
  exact fits_uw (by decide) (by omega)
theorem waitk (d : Nat) (m : Nat) : Statement (.waitk d m) := by
  intro h
  have w : (bits 8 d && bits 8 m && m != 0) = true := fieldsOk_of_wf h
  rw [show encode (.waitk d m) = uw 0x33 (d * 2 ^ 17 + m) from rfl]
  simp only [UR.wf, UR.specWf, UM.wf, LRI.wf, LRI.bfWf, LRI.maskWf, LRF.wf, LRN.wf, LM.wf, LA.wf, Red.wf, LI.wf, Opnd.wf, Opnd.isReg, Opnd.oneTo32, bits, Bool.and_eq_true, decide_eq_true_eq, Bool.false_eq_true, and_false, false_and] at w
  exact fits_uw (by decide) (by omega)
theorem xred (a : Nat) : Statement (.xred a) := by
  intro h
  have w : (bits 8 a) = true := fieldsOk_of_wf h
  rw [show encode (.xred a) = uw 0x34 (a * 2 ^ 14) from rfl]
  simp only [UR.wf, UR.specWf, UM.wf, LRI.wf, LRI.bfWf, LRI.maskWf, LRF.wf, LRN.wf, LM.wf, LA.wf, Red.wf, LI.wf, Opnd.wf, Opnd.isReg, Opnd.oneTo32, bits, Bool.and_eq_true, decide_eq_true_eq, Bool.false_eq_true, and_false, false_and] at w
  exact fits_uw (by decide) (by omega)
theorem xbc (a : Nat) : Statement (.xbc a) := by
  intro h
  have w : (bits 8 a) = true := fieldsOk_of_wf h
  rw [show encode (.xbc a) = uw 0x34 (1 * 2 ^ 22 + a * 2 ^ 14) from rfl]
  simp only [UR.wf, UR.specWf, UM.wf, LRI.wf, LRI.bfWf, LRI.maskWf, LRF.wf, LRN.wf, LM.wf, LA.wf, Red.wf, LI.wf, Opnd.wf, Opnd.isReg, Opnd.oneTo32, bits, Bool.and_eq_true, decide_eq_true_eq, Bool.false_eq_true, and_false, false_and] at w
  exact fits_uw (by decide) (by omega)
theorem xshf (a : Nat) : Statement (.xshf a) := by
  intro h
  have w : (bits 8 a) = true := fieldsOk_of_wf h
  rw [show encode (.xshf a) = uw 0x34 (2 * 2 ^ 22 + a * 2 ^ 14) from rfl]
  simp only [UR.wf, UR.specWf, UM.wf, LRI.wf, LRI.bfWf, LRI.maskWf, LRF.wf, LRN.wf, LM.wf, LA.wf, Red.wf, LI.wf, Opnd.wf, Opnd.isReg, Opnd.oneTo32, bits, Bool.and_eq_true, decide_eq_true_eq, Bool.false_eq_true, and_false, false_and] at w
  exact fits_uw (by decide) (by omega)
theorem xside (a : Nat) : Statement (.xside a) := by
  intro h
  have w : (bits 8 a) = true := fieldsOk_of_wf h
  rw [show encode (.xside a) = uw 0x34 (3 * 2 ^ 22 + a * 2 ^ 14) from rfl]
  simp only [UR.wf, UR.specWf, UM.wf, LRI.wf, LRI.bfWf, LRI.maskWf, LRF.wf, LRN.wf, LM.wf, LA.wf, Red.wf, LI.wf, Opnd.wf, Opnd.isReg, Opnd.oneTo32, bits, Bool.and_eq_true, decide_eq_true_eq, Bool.false_eq_true, and_false, false_and] at w
  exact fits_uw (by decide) (by omega)
theorem xqry (d : Nat) (sel : Nat) : Statement (.xqry d sel) := by
  intro h
  have w : (bits 8 d && sel ≤ 1) = true := fieldsOk_of_wf h
  rw [show encode (.xqry d sel) = uw 0x34 (4 * 2 ^ 22 + d * 2 ^ 14 + sel * 2 ^ 6) from rfl]
  simp only [UR.wf, UR.specWf, UM.wf, LRI.wf, LRI.bfWf, LRI.maskWf, LRF.wf, LRN.wf, LM.wf, LA.wf, Red.wf, LI.wf, Opnd.wf, Opnd.isReg, Opnd.oneTo32, bits, Bool.and_eq_true, decide_eq_true_eq, Bool.false_eq_true, and_false, false_and] at w
  exact fits_uw (by decide) (by omega)
theorem txb (off : Nat) : Statement (.txb off) := by
  intro h
  have w : (bits 23 off) = true := fieldsOk_of_wf h
  rw [show encode (.txb off) = uw 0x35 off from rfl]
  simp only [UR.wf, UR.specWf, UM.wf, LRI.wf, LRI.bfWf, LRI.maskWf, LRF.wf, LRN.wf, LM.wf, LA.wf, Red.wf, LI.wf, Opnd.wf, Opnd.isReg, Opnd.oneTo32, bits, Bool.and_eq_true, decide_eq_true_eq, Bool.false_eq_true, and_false, false_and] at w
  exact fits_uw (by decide) (by omega)
theorem txc (m : Nat) : Statement (.txc m) := by
  intro h
  have w : (bits 3 m) = true := fieldsOk_of_wf h
  rw [show encode (.txc m) = uw 0x35 (1 * 2 ^ 23 + m * 2 ^ 20) from rfl]
  simp only [UR.wf, UR.specWf, UM.wf, LRI.wf, LRI.bfWf, LRI.maskWf, LRF.wf, LRN.wf, LM.wf, LA.wf, Red.wf, LI.wf, Opnd.wf, Opnd.isReg, Opnd.oneTo32, bits, Bool.and_eq_true, decide_eq_true_eq, Bool.false_eq_true, and_false, false_and] at w
  exact fits_uw (by decide) (by omega)
theorem txa (c : Nat) : Statement (.txa c) := by
  intro h
  have w : (bits 8 c) = true := fieldsOk_of_wf h
  rw [show encode (.txa c) = uw 0x35 (2 * 2 ^ 23 + c) from rfl]
  simp only [UR.wf, UR.specWf, UM.wf, LRI.wf, LRI.bfWf, LRI.maskWf, LRF.wf, LRN.wf, LM.wf, LA.wf, Red.wf, LI.wf, Opnd.wf, Opnd.isReg, Opnd.oneTo32, bits, Bool.and_eq_true, decide_eq_true_eq, Bool.false_eq_true, and_false, false_and] at w
  exact fits_uw (by decide) (by omega)
theorem txs (d : Nat) : Statement (.txs d) := by
  intro h
  have w : (bits 8 d) = true := fieldsOk_of_wf h
  rw [show encode (.txs d) = uw 0x35 (3 * 2 ^ 23 + d * 2 ^ 15) from rfl]
  simp only [UR.wf, UR.specWf, UM.wf, LRI.wf, LRI.bfWf, LRI.maskWf, LRF.wf, LRN.wf, LM.wf, LA.wf, Red.wf, LI.wf, Opnd.wf, Opnd.isReg, Opnd.oneTo32, bits, Bool.and_eq_true, decide_eq_true_eq, Bool.false_eq_true, and_false, false_and] at w
  exact fits_uw (by decide) (by omega)
theorem barArrive (l : Level) (n : Nat) : Statement (.barArrive l n) := by
  intro h
  have w : (decide (n < l.count)) = true := fieldsOk_of_wf h
  have c8 : l.count ≤ 16 := by cases l <;> decide
  rw [show encode (.barArrive l n) = uw 0x36 (l.code * 2 ^ 23 + n * 2 ^ 19 + 1 * 2 ^ 17) from rfl]
  have c0 := level_lt l
  simp only [UR.wf, UR.specWf, UM.wf, LRI.wf, LRI.bfWf, LRI.maskWf, LRF.wf, LRN.wf, LM.wf, LA.wf, Red.wf, LI.wf, Opnd.wf, Opnd.isReg, Opnd.oneTo32, bits, Bool.and_eq_true, decide_eq_true_eq, Bool.false_eq_true, and_false, false_and] at w
  exact fits_uw (by decide) (by omega)
theorem barWait (l : Level) (n : Nat) : Statement (.barWait l n) := by
  intro h
  have w : (decide (n < l.count)) = true := fieldsOk_of_wf h
  have c8 : l.count ≤ 16 := by cases l <;> decide
  rw [show encode (.barWait l n) = uw 0x36 (l.code * 2 ^ 23 + n * 2 ^ 19 + 2 * 2 ^ 17) from rfl]
  have c0 := level_lt l
  simp only [UR.wf, UR.specWf, UM.wf, LRI.wf, LRI.bfWf, LRI.maskWf, LRF.wf, LRN.wf, LM.wf, LA.wf, Red.wf, LI.wf, Opnd.wf, Opnd.isReg, Opnd.oneTo32, bits, Bool.and_eq_true, decide_eq_true_eq, Bool.false_eq_true, and_false, false_and] at w
  exact fits_uw (by decide) (by omega)
theorem barSync (l : Level) (n : Nat) : Statement (.barSync l n) := by
  intro h
  have w : (decide (n < l.count)) = true := fieldsOk_of_wf h
  have c8 : l.count ≤ 16 := by cases l <;> decide
  rw [show encode (.barSync l n) = uw 0x36 (l.code * 2 ^ 23 + n * 2 ^ 19 + 3 * 2 ^ 17) from rfl]
  have c0 := level_lt l
  simp only [UR.wf, UR.specWf, UM.wf, LRI.wf, LRI.bfWf, LRI.maskWf, LRF.wf, LRN.wf, LM.wf, LA.wf, Red.wf, LI.wf, Opnd.wf, Opnd.isReg, Opnd.oneTo32, bits, Bool.and_eq_true, decide_eq_true_eq, Bool.false_eq_true, and_false, false_and] at w
  exact fits_uw (by decide) (by omega)
theorem evb (n : Nat) (l : Nat) (b : Nat) (a : Nat) : Statement (.evb n l b a) := by
  intro h
  have w : (bits 4 n && bits 2 l && bits 4 b && bits 8 a && evbOk n l b) = true := fieldsOk_of_wf h
  rw [show encode (.evb n l b a) = uw 0x37 (n * 2 ^ 19 + l * 2 ^ 17 + b * 2 ^ 13 + a * 2 ^ 5) from rfl]
  simp only [UR.wf, UR.specWf, UM.wf, LRI.wf, LRI.bfWf, LRI.maskWf, LRF.wf, LRN.wf, LM.wf, LA.wf, Red.wf, LI.wf, Opnd.wf, Opnd.isReg, Opnd.oneTo32, bits, Bool.and_eq_true, decide_eq_true_eq, Bool.false_eq_true, and_false, false_and] at w
  exact fits_uw (by decide) (by omega)
theorem evmWr (imm : Nat) : Statement (.evmWr imm) := by
  intro h
  have w : (bits 16 imm) = true := fieldsOk_of_wf h
  rw [show encode (.evmWr imm) = uw 0x37 (1 * 2 ^ 23 + imm) from rfl]
  simp only [UR.wf, UR.specWf, UM.wf, LRI.wf, LRI.bfWf, LRI.maskWf, LRF.wf, LRN.wf, LM.wf, LA.wf, Red.wf, LI.wf, Opnd.wf, Opnd.isReg, Opnd.oneTo32, bits, Bool.and_eq_true, decide_eq_true_eq, Bool.false_eq_true, and_false, false_and] at w
  exact fits_uw (by decide) (by omega)
theorem evmSet (imm : Nat) : Statement (.evmSet imm) := by
  intro h
  have w : (bits 16 imm) = true := fieldsOk_of_wf h
  rw [show encode (.evmSet imm) = uw 0x37 (1 * 2 ^ 23 + 1 * 2 ^ 21 + imm) from rfl]
  simp only [UR.wf, UR.specWf, UM.wf, LRI.wf, LRI.bfWf, LRI.maskWf, LRF.wf, LRN.wf, LM.wf, LA.wf, Red.wf, LI.wf, Opnd.wf, Opnd.isReg, Opnd.oneTo32, bits, Bool.and_eq_true, decide_eq_true_eq, Bool.false_eq_true, and_false, false_and] at w
  exact fits_uw (by decide) (by omega)
theorem evmClr (imm : Nat) : Statement (.evmClr imm) := by
  intro h
  have w : (bits 16 imm) = true := fieldsOk_of_wf h
  rw [show encode (.evmClr imm) = uw 0x37 (1 * 2 ^ 23 + 2 * 2 ^ 21 + imm) from rfl]
  simp only [UR.wf, UR.specWf, UM.wf, LRI.wf, LRI.bfWf, LRI.maskWf, LRF.wf, LRN.wf, LM.wf, LA.wf, Red.wf, LI.wf, Opnd.wf, Opnd.isReg, Opnd.oneTo32, bits, Bool.and_eq_true, decide_eq_true_eq, Bool.false_eq_true, and_false, false_and] at w
  exact fits_uw (by decide) (by omega)
theorem evclr (imm : Nat) : Statement (.evclr imm) := by
  intro h
  have w : (bits 16 imm) = true := fieldsOk_of_wf h
  rw [show encode (.evclr imm) = uw 0x37 (2 * 2 ^ 23 + imm) from rfl]
  simp only [UR.wf, UR.specWf, UM.wf, LRI.wf, LRI.bfWf, LRI.maskWf, LRF.wf, LRN.wf, LM.wf, LA.wf, Red.wf, LI.wf, Opnd.wf, Opnd.isReg, Opnd.oneTo32, bits, Bool.and_eq_true, decide_eq_true_eq, Bool.false_eq_true, and_false, false_and] at w
  exact fits_uw (by decide) (by omega)
theorem wany (imm : Nat) : Statement (.wany imm) := by
  intro h
  have w : (bits 16 imm && imm != 0) = true := fieldsOk_of_wf h
  rw [show encode (.wany imm) = uw 0x38 imm from rfl]
  simp only [UR.wf, UR.specWf, UM.wf, LRI.wf, LRI.bfWf, LRI.maskWf, LRF.wf, LRN.wf, LM.wf, LA.wf, Red.wf, LI.wf, Opnd.wf, Opnd.isReg, Opnd.oneTo32, bits, Bool.and_eq_true, decide_eq_true_eq, Bool.false_eq_true, and_false, false_and] at w
  exact fits_uw (by decide) (by omega)
theorem launch (d : Nat) (a : Nat) : Statement (.launch d a) := by
  intro h
  have w : (bits 8 d && bits 8 a) = true := fieldsOk_of_wf h
  rw [show encode (.launch d a) = uw 0x39 (d * 2 ^ 17 + a * 2 ^ 9) from rfl]
  simp only [UR.wf, UR.specWf, UM.wf, LRI.wf, LRI.bfWf, LRI.maskWf, LRF.wf, LRN.wf, LM.wf, LA.wf, Red.wf, LI.wf, Opnd.wf, Opnd.isReg, Opnd.oneTo32, bits, Bool.and_eq_true, decide_eq_true_eq, Bool.false_eq_true, and_false, false_and] at w
  exact fits_uw (by decide) (by omega)
theorem takeV (m : Nat) : Statement (.takeV m) := by
  intro h
  have w : (bits 4 m && m != 0) = true := fieldsOk_of_wf h
  rw [show encode (.takeV m) = uw 0x3A m from rfl]
  simp only [UR.wf, UR.specWf, UM.wf, LRI.wf, LRI.bfWf, LRI.maskWf, LRF.wf, LRN.wf, LM.wf, LA.wf, Red.wf, LI.wf, Opnd.wf, Opnd.isReg, Opnd.oneTo32, bits, Bool.and_eq_true, decide_eq_true_eq, Bool.false_eq_true, and_false, false_and] at w
  exact fits_uw (by decide) (by omega)
theorem giveV (m : Nat) : Statement (.giveV m) := by
  intro h
  have w : (bits 4 m && m != 0) = true := fieldsOk_of_wf h
  rw [show encode (.giveV m) = uw 0x3A (1 * 2 ^ 23 + m) from rfl]
  simp only [UR.wf, UR.specWf, UM.wf, LRI.wf, LRI.bfWf, LRI.maskWf, LRF.wf, LRN.wf, LM.wf, LA.wf, Red.wf, LI.wf, Opnd.wf, Opnd.isReg, Opnd.oneTo32, bits, Bool.and_eq_true, decide_eq_true_eq, Bool.false_eq_true, and_false, false_and] at w
  exact fits_uw (by decide) (by omega)
theorem takeA (c : Nat) : Statement (.takeA c) := by
  intro h
  have w : (1 ≤ c && c ≤ 64) = true := fieldsOk_of_wf h
  rw [show encode (.takeA c) = uw 0x3A (2 * 2 ^ 23 + c) from rfl]
  simp only [UR.wf, UR.specWf, UM.wf, LRI.wf, LRI.bfWf, LRI.maskWf, LRF.wf, LRN.wf, LM.wf, LA.wf, Red.wf, LI.wf, Opnd.wf, Opnd.isReg, Opnd.oneTo32, bits, Bool.and_eq_true, decide_eq_true_eq, Bool.false_eq_true, and_false, false_and] at w
  exact fits_uw (by decide) (by omega)
theorem giveA (c : Nat) : Statement (.giveA c) := by
  intro h
  have w : (1 ≤ c && c ≤ 64) = true := fieldsOk_of_wf h
  rw [show encode (.giveA c) = uw 0x3A (3 * 2 ^ 23 + c) from rfl]
  simp only [UR.wf, UR.specWf, UM.wf, LRI.wf, LRI.bfWf, LRI.maskWf, LRF.wf, LRN.wf, LM.wf, LA.wf, Red.wf, LI.wf, Opnd.wf, Opnd.isReg, Opnd.oneTo32, bits, Bool.and_eq_true, decide_eq_true_eq, Bool.false_eq_true, and_false, false_and] at w
  exact fits_uw (by decide) (by omega)
theorem part (z : Nat) : Statement (.part z) := by
  intro h
  have w : (1 ≤ z && z ≤ 5) = true := fieldsOk_of_wf h
  rw [show encode (.part z) = uw 0x3B z from rfl]
  simp only [UR.wf, UR.specWf, UM.wf, LRI.wf, LRI.bfWf, LRI.maskWf, LRF.wf, LRN.wf, LM.wf, LA.wf, Red.wf, LI.wf, Opnd.wf, Opnd.isReg, Opnd.oneTo32, bits, Bool.and_eq_true, decide_eq_true_eq, Bool.false_eq_true, and_false, false_and] at w
  exact fits_uw (by decide) (by omega)
theorem sprf (t : Nat) (a : Nat) (off : Nat) : Statement (.sprf t a off) := by
  intro h
  have w : (t < 3 && bits 8 a && bits 9 off) = true := fieldsOk_of_wf h
  rw [show encode (.sprf t a off) = uw 0x3C (t * 2 ^ 17 + a * 2 ^ 9 + off) from rfl]
  simp only [UR.wf, UR.specWf, UM.wf, LRI.wf, LRI.bfWf, LRI.maskWf, LRF.wf, LRN.wf, LM.wf, LA.wf, Red.wf, LI.wf, Opnd.wf, Opnd.isReg, Opnd.oneTo32, bits, Bool.and_eq_true, decide_eq_true_eq, Bool.false_eq_true, and_false, false_and] at w
  exact fits_uw (by decide) (by omega)
theorem sget (d : Nat) (n : Nat) : Statement (.sget d n) := by
  intro h
  have w : (bits 8 d && bits 8 n) = true := fieldsOk_of_wf h
  rw [show encode (.sget d n) = uw 0x3E (d * 2 ^ 14 + n * 2 ^ 6) from rfl]
  simp only [UR.wf, UR.specWf, UM.wf, LRI.wf, LRI.bfWf, LRI.maskWf, LRF.wf, LRN.wf, LM.wf, LA.wf, Red.wf, LI.wf, Opnd.wf, Opnd.isReg, Opnd.oneTo32, bits, Bool.and_eq_true, decide_eq_true_eq, Bool.false_eq_true, and_false, false_and] at w
  exact fits_uw (by decide) (by omega)
theorem sset (n : Nat) (a : Nat) : Statement (.sset n a) := by
  intro h
  have w : (bits 8 n && bits 8 a) = true := fieldsOk_of_wf h
  rw [show encode (.sset n a) = uw 0x3E (1 * 2 ^ 22 + a * 2 ^ 14 + n * 2 ^ 6) from rfl]
  simp only [UR.wf, UR.specWf, UM.wf, LRI.wf, LRI.bfWf, LRI.maskWf, LRF.wf, LRN.wf, LM.wf, LA.wf, Red.wf, LI.wf, Opnd.wf, Opnd.isReg, Opnd.oneTo32, bits, Bool.and_eq_true, decide_eq_true_eq, Bool.false_eq_true, and_false, false_and] at w
  exact fits_uw (by decide) (by omega)
theorem snop : Statement .snop := by
  intro h
  have w : (true) = true := fieldsOk_of_wf h
  rw [show encode (.snop) = uw 0x3E (2 * 2 ^ 22) from rfl]
  simp only [UR.wf, UR.specWf, UM.wf, LRI.wf, LRI.bfWf, LRI.maskWf, LRF.wf, LRN.wf, LM.wf, LA.wf, Red.wf, LI.wf, Opnd.wf, Opnd.isReg, Opnd.oneTo32, bits, Bool.and_eq_true, decide_eq_true_eq, Bool.false_eq_true, and_false, false_and] at w
  exact fits_uw (by decide) (by omega)
theorem exit : Statement .exit := by
  intro h
  have w : (true) = true := fieldsOk_of_wf h
  rw [show encode (.exit) = uw 0x3E (2 * 2 ^ 22 + 1 * 2 ^ 6) from rfl]
  simp only [UR.wf, UR.specWf, UM.wf, LRI.wf, LRI.bfWf, LRI.maskWf, LRF.wf, LRN.wf, LM.wf, LA.wf, Red.wf, LI.wf, Opnd.wf, Opnd.isReg, Opnd.oneTo32, bits, Bool.and_eq_true, decide_eq_true_eq, Bool.false_eq_true, and_false, false_and] at w
  exact fits_uw (by decide) (by omega)
theorem yield : Statement .yield := by
  intro h
  have w : (true) = true := fieldsOk_of_wf h
  rw [show encode (.yield) = uw 0x3E (2 * 2 ^ 22 + 2 * 2 ^ 6) from rfl]
  simp only [UR.wf, UR.specWf, UM.wf, LRI.wf, LRI.bfWf, LRI.maskWf, LRF.wf, LRN.wf, LM.wf, LA.wf, Red.wf, LI.wf, Opnd.wf, Opnd.isReg, Opnd.oneTo32, bits, Bool.and_eq_true, decide_eq_true_eq, Bool.false_eq_true, and_false, false_and] at w
  exact fits_uw (by decide) (by omega)
theorem trap (imm : Nat) : Statement (.trap imm) := by
  intro h
  have w : (bits 8 imm) = true := fieldsOk_of_wf h
  rw [show encode (.trap imm) = uw 0x3E (2 * 2 ^ 22 + imm * 2 ^ 14 + 3 * 2 ^ 6) from rfl]
  simp only [UR.wf, UR.specWf, UM.wf, LRI.wf, LRI.bfWf, LRI.maskWf, LRF.wf, LRN.wf, LM.wf, LA.wf, Red.wf, LI.wf, Opnd.wf, Opnd.isReg, Opnd.oneTo32, bits, Bool.and_eq_true, decide_eq_true_eq, Bool.false_eq_true, and_false, false_and] at w
  exact fits_uw (by decide) (by omega)
theorem brk : Statement .brk := by
  intro h
  have w : (true) = true := fieldsOk_of_wf h
  rw [show encode (.brk) = uw 0x3E (2 * 2 ^ 22 + 4 * 2 ^ 6) from rfl]
  simp only [UR.wf, UR.specWf, UM.wf, LRI.wf, LRI.bfWf, LRI.maskWf, LRF.wf, LRN.wf, LM.wf, LA.wf, Red.wf, LI.wf, Opnd.wf, Opnd.isReg, Opnd.oneTo32, bits, Bool.and_eq_true, decide_eq_true_eq, Bool.false_eq_true, and_false, false_and] at w
  exact fits_uw (by decide) (by omega)
theorem rte : Statement .rte := by
  intro h
  have w : (true) = true := fieldsOk_of_wf h
  rw [show encode (.rte) = uw 0x3E (2 * 2 ^ 22 + 5 * 2 ^ 6) from rfl]
  simp only [UR.wf, UR.specWf, UM.wf, LRI.wf, LRI.bfWf, LRI.maskWf, LRF.wf, LRN.wf, LM.wf, LA.wf, Red.wf, LI.wf, Opnd.wf, Opnd.isReg, Opnd.oneTo32, bits, Bool.and_eq_true, decide_eq_true_eq, Bool.false_eq_true, and_false, false_and] at w
  exact fits_uw (by decide) (by omega)
theorem snap : Statement .snap := by
  intro h
  have w : (true) = true := fieldsOk_of_wf h
  rw [show encode (.snap) = uw 0x3E (2 * 2 ^ 22 + 6 * 2 ^ 6) from rfl]
  simp only [UR.wf, UR.specWf, UM.wf, LRI.wf, LRI.bfWf, LRI.maskWf, LRF.wf, LRN.wf, LM.wf, LA.wf, Red.wf, LI.wf, Opnd.wf, Opnd.isReg, Opnd.oneTo32, bits, Bool.and_eq_true, decide_eq_true_eq, Bool.false_eq_true, and_false, false_and] at w
  exact fits_uw (by decide) (by omega)
theorem sleep (a : Nat) : Statement (.sleep a) := by
  intro h
  have w : (bits 8 a) = true := fieldsOk_of_wf h
  rw [show encode (.sleep a) = uw 0x3E (2 * 2 ^ 22 + a * 2 ^ 14 + 7 * 2 ^ 6) from rfl]
  simp only [UR.wf, UR.specWf, UM.wf, LRI.wf, LRI.bfWf, LRI.maskWf, LRF.wf, LRN.wf, LM.wf, LA.wf, Red.wf, LI.wf, Opnd.wf, Opnd.isReg, Opnd.oneTo32, bits, Bool.and_eq_true, decide_eq_true_eq, Bool.false_eq_true, and_false, false_and] at w
  exact fits_uw (by decide) (by omega)
theorem add (f : LRI) : Statement (.add f) := by
  intro h
  have w : (f.wf) = true := fieldsOk_of_wf h
  rw [show encode (.add f) = lriw 0x00 f ++ [] ++ [] from rfl]
  simp only [List.append_nil]
  obtain ⟨pre, t, d, a, b⟩ := f
  have c0 := intTy_lt t
  rcases b with b | b
  all_goals simp only [UR.wf, UR.specWf, UM.wf, LRI.wf, LRI.bfWf, LRI.maskWf, LRF.wf, LRN.wf, LM.wf, LA.wf, Red.wf, LI.wf, Opnd.wf, Opnd.isReg, Opnd.oneTo32, bits, Bool.and_eq_true, decide_eq_true_eq, Bool.false_eq_true, and_false, false_and] at w
  all_goals exact fits_lw (by simp only [w]) (by decide) (by (try dsimp only); omega) (by (try dsimp only); omega) (by (try dsimp only); omega) (by (try simp only [Opnd.code]); omega)
theorem sub (f : LRI) : Statement (.sub f) := by
  intro h
  have w : (f.wf) = true := fieldsOk_of_wf h
  rw [show encode (.sub f) = lriw 0x01 f ++ [] ++ [] from rfl]
  simp only [List.append_nil]
  obtain ⟨pre, t, d, a, b⟩ := f
  have c0 := intTy_lt t
  rcases b with b | b
  all_goals simp only [UR.wf, UR.specWf, UM.wf, LRI.wf, LRI.bfWf, LRI.maskWf, LRF.wf, LRN.wf, LM.wf, LA.wf, Red.wf, LI.wf, Opnd.wf, Opnd.isReg, Opnd.oneTo32, bits, Bool.and_eq_true, decide_eq_true_eq, Bool.false_eq_true, and_false, false_and] at w
  all_goals exact fits_lw (by simp only [w]) (by decide) (by (try dsimp only); omega) (by (try dsimp only); omega) (by (try dsimp only); omega) (by (try simp only [Opnd.code]); omega)
theorem mul (f : LRI) : Statement (.mul f) := by
  intro h
  have w : (f.wf) = true := fieldsOk_of_wf h
  rw [show encode (.mul f) = lriw 0x02 f ++ [] ++ [] from rfl]
  simp only [List.append_nil]
  obtain ⟨pre, t, d, a, b⟩ := f
  have c0 := intTy_lt t
  rcases b with b | b
  all_goals simp only [UR.wf, UR.specWf, UM.wf, LRI.wf, LRI.bfWf, LRI.maskWf, LRF.wf, LRN.wf, LM.wf, LA.wf, Red.wf, LI.wf, Opnd.wf, Opnd.isReg, Opnd.oneTo32, bits, Bool.and_eq_true, decide_eq_true_eq, Bool.false_eq_true, and_false, false_and] at w
  all_goals exact fits_lw (by simp only [w]) (by decide) (by (try dsimp only); omega) (by (try dsimp only); omega) (by (try dsimp only); omega) (by (try simp only [Opnd.code]); omega)
theorem mulh (f : LRI) : Statement (.mulh f) := by
  intro h
  have w : (f.wf) = true := fieldsOk_of_wf h
  rw [show encode (.mulh f) = lriw 0x03 f ++ [] ++ [] from rfl]
  simp only [List.append_nil]
  obtain ⟨pre, t, d, a, b⟩ := f
  have c0 := intTy_lt t
  rcases b with b | b
  all_goals simp only [UR.wf, UR.specWf, UM.wf, LRI.wf, LRI.bfWf, LRI.maskWf, LRF.wf, LRN.wf, LM.wf, LA.wf, Red.wf, LI.wf, Opnd.wf, Opnd.isReg, Opnd.oneTo32, bits, Bool.and_eq_true, decide_eq_true_eq, Bool.false_eq_true, and_false, false_and] at w
  all_goals exact fits_lw (by simp only [w]) (by decide) (by (try dsimp only); omega) (by (try dsimp only); omega) (by (try dsimp only); omega) (by (try simp only [Opnd.code]); omega)
theorem mad (f : LRI) : Statement (.mad f) := by
  intro h
  have w : (f.wf) = true := fieldsOk_of_wf h
  rw [show encode (.mad f) = lriw 0x04 f ++ [] ++ [] from rfl]
  simp only [List.append_nil]
  obtain ⟨pre, t, d, a, b⟩ := f
  have c0 := intTy_lt t
  rcases b with b | b
  all_goals simp only [UR.wf, UR.specWf, UM.wf, LRI.wf, LRI.bfWf, LRI.maskWf, LRF.wf, LRN.wf, LM.wf, LA.wf, Red.wf, LI.wf, Opnd.wf, Opnd.isReg, Opnd.oneTo32, bits, Bool.and_eq_true, decide_eq_true_eq, Bool.false_eq_true, and_false, false_and] at w
  all_goals exact fits_lw (by simp only [w]) (by decide) (by (try dsimp only); omega) (by (try dsimp only); omega) (by (try dsimp only); omega) (by (try simp only [Opnd.code]); omega)
theorem div (f : LRI) : Statement (.div f) := by
  intro h
  have w : (f.wf) = true := fieldsOk_of_wf h
  rw [show encode (.div f) = lriw 0x05 f ++ [] ++ [] from rfl]
  simp only [List.append_nil]
  obtain ⟨pre, t, d, a, b⟩ := f
  have c0 := intTy_lt t
  rcases b with b | b
  all_goals simp only [UR.wf, UR.specWf, UM.wf, LRI.wf, LRI.bfWf, LRI.maskWf, LRF.wf, LRN.wf, LM.wf, LA.wf, Red.wf, LI.wf, Opnd.wf, Opnd.isReg, Opnd.oneTo32, bits, Bool.and_eq_true, decide_eq_true_eq, Bool.false_eq_true, and_false, false_and] at w
  all_goals exact fits_lw (by simp only [w]) (by decide) (by (try dsimp only); omega) (by (try dsimp only); omega) (by (try dsimp only); omega) (by (try simp only [Opnd.code]); omega)
theorem rem (f : LRI) : Statement (.rem f) := by
  intro h
  have w : (f.wf) = true := fieldsOk_of_wf h
  rw [show encode (.rem f) = lriw 0x06 f ++ [] ++ [] from rfl]
  simp only [List.append_nil]
  obtain ⟨pre, t, d, a, b⟩ := f
  have c0 := intTy_lt t
  rcases b with b | b
  all_goals simp only [UR.wf, UR.specWf, UM.wf, LRI.wf, LRI.bfWf, LRI.maskWf, LRF.wf, LRN.wf, LM.wf, LA.wf, Red.wf, LI.wf, Opnd.wf, Opnd.isReg, Opnd.oneTo32, bits, Bool.and_eq_true, decide_eq_true_eq, Bool.false_eq_true, and_false, false_and] at w
  all_goals exact fits_lw (by simp only [w]) (by decide) (by (try dsimp only); omega) (by (try dsimp only); omega) (by (try dsimp only); omega) (by (try simp only [Opnd.code]); omega)
theorem min (f : LRI) : Statement (.min f) := by
  intro h
  have w : (f.wf) = true := fieldsOk_of_wf h
  rw [show encode (.min f) = lriw 0x07 f ++ [] ++ [] from rfl]
  simp only [List.append_nil]
  obtain ⟨pre, t, d, a, b⟩ := f
  have c0 := intTy_lt t
  rcases b with b | b
  all_goals simp only [UR.wf, UR.specWf, UM.wf, LRI.wf, LRI.bfWf, LRI.maskWf, LRF.wf, LRN.wf, LM.wf, LA.wf, Red.wf, LI.wf, Opnd.wf, Opnd.isReg, Opnd.oneTo32, bits, Bool.and_eq_true, decide_eq_true_eq, Bool.false_eq_true, and_false, false_and] at w
  all_goals exact fits_lw (by simp only [w]) (by decide) (by (try dsimp only); omega) (by (try dsimp only); omega) (by (try dsimp only); omega) (by (try simp only [Opnd.code]); omega)
theorem max (f : LRI) : Statement (.max f) := by
  intro h
  have w : (f.wf) = true := fieldsOk_of_wf h
  rw [show encode (.max f) = lriw 0x08 f ++ [] ++ [] from rfl]
  simp only [List.append_nil]
  obtain ⟨pre, t, d, a, b⟩ := f
  have c0 := intTy_lt t
  rcases b with b | b
  all_goals simp only [UR.wf, UR.specWf, UM.wf, LRI.wf, LRI.bfWf, LRI.maskWf, LRF.wf, LRN.wf, LM.wf, LA.wf, Red.wf, LI.wf, Opnd.wf, Opnd.isReg, Opnd.oneTo32, bits, Bool.and_eq_true, decide_eq_true_eq, Bool.false_eq_true, and_false, false_and] at w
  all_goals exact fits_lw (by simp only [w]) (by decide) (by (try dsimp only); omega) (by (try dsimp only); omega) (by (try dsimp only); omega) (by (try simp only [Opnd.code]); omega)
theorem and (f : LRI) : Statement (.and f) := by
  intro h
  have w : (f.wf) = true := fieldsOk_of_wf h
  rw [show encode (.and f) = lriw 0x09 f ++ [] ++ [] from rfl]
  simp only [List.append_nil]
  obtain ⟨pre, t, d, a, b⟩ := f
  have c0 := intTy_lt t
  rcases b with b | b
  all_goals simp only [UR.wf, UR.specWf, UM.wf, LRI.wf, LRI.bfWf, LRI.maskWf, LRF.wf, LRN.wf, LM.wf, LA.wf, Red.wf, LI.wf, Opnd.wf, Opnd.isReg, Opnd.oneTo32, bits, Bool.and_eq_true, decide_eq_true_eq, Bool.false_eq_true, and_false, false_and] at w
  all_goals exact fits_lw (by simp only [w]) (by decide) (by (try dsimp only); omega) (by (try dsimp only); omega) (by (try dsimp only); omega) (by (try simp only [Opnd.code]); omega)
theorem or (f : LRI) : Statement (.or f) := by
  intro h
  have w : (f.wf) = true := fieldsOk_of_wf h
  rw [show encode (.or f) = lriw 0x0A f ++ [] ++ [] from rfl]
  simp only [List.append_nil]
  obtain ⟨pre, t, d, a, b⟩ := f
  have c0 := intTy_lt t
  rcases b with b | b
  all_goals simp only [UR.wf, UR.specWf, UM.wf, LRI.wf, LRI.bfWf, LRI.maskWf, LRF.wf, LRN.wf, LM.wf, LA.wf, Red.wf, LI.wf, Opnd.wf, Opnd.isReg, Opnd.oneTo32, bits, Bool.and_eq_true, decide_eq_true_eq, Bool.false_eq_true, and_false, false_and] at w
  all_goals exact fits_lw (by simp only [w]) (by decide) (by (try dsimp only); omega) (by (try dsimp only); omega) (by (try dsimp only); omega) (by (try simp only [Opnd.code]); omega)
theorem xor (f : LRI) : Statement (.xor f) := by
  intro h
  have w : (f.wf) = true := fieldsOk_of_wf h
  rw [show encode (.xor f) = lriw 0x0B f ++ [] ++ [] from rfl]
  simp only [List.append_nil]
  obtain ⟨pre, t, d, a, b⟩ := f
  have c0 := intTy_lt t
  rcases b with b | b
  all_goals simp only [UR.wf, UR.specWf, UM.wf, LRI.wf, LRI.bfWf, LRI.maskWf, LRF.wf, LRN.wf, LM.wf, LA.wf, Red.wf, LI.wf, Opnd.wf, Opnd.isReg, Opnd.oneTo32, bits, Bool.and_eq_true, decide_eq_true_eq, Bool.false_eq_true, and_false, false_and] at w
  all_goals exact fits_lw (by simp only [w]) (by decide) (by (try dsimp only); omega) (by (try dsimp only); omega) (by (try dsimp only); omega) (by (try simp only [Opnd.code]); omega)
theorem shl (f : LRI) : Statement (.shl f) := by
  intro h
  have w : (f.wf) = true := fieldsOk_of_wf h
  rw [show encode (.shl f) = lriw 0x0C f ++ [] ++ [] from rfl]
  simp only [List.append_nil]
  obtain ⟨pre, t, d, a, b⟩ := f
  have c0 := intTy_lt t
  rcases b with b | b
  all_goals simp only [UR.wf, UR.specWf, UM.wf, LRI.wf, LRI.bfWf, LRI.maskWf, LRF.wf, LRN.wf, LM.wf, LA.wf, Red.wf, LI.wf, Opnd.wf, Opnd.isReg, Opnd.oneTo32, bits, Bool.and_eq_true, decide_eq_true_eq, Bool.false_eq_true, and_false, false_and] at w
  all_goals exact fits_lw (by simp only [w]) (by decide) (by (try dsimp only); omega) (by (try dsimp only); omega) (by (try dsimp only); omega) (by (try simp only [Opnd.code]); omega)
theorem shr (f : LRI) : Statement (.shr f) := by
  intro h
  have w : (f.wf) = true := fieldsOk_of_wf h
  rw [show encode (.shr f) = lriw 0x0D f ++ [] ++ [] from rfl]
  simp only [List.append_nil]
  obtain ⟨pre, t, d, a, b⟩ := f
  have c0 := intTy_lt t
  rcases b with b | b
  all_goals simp only [UR.wf, UR.specWf, UM.wf, LRI.wf, LRI.bfWf, LRI.maskWf, LRF.wf, LRN.wf, LM.wf, LA.wf, Red.wf, LI.wf, Opnd.wf, Opnd.isReg, Opnd.oneTo32, bits, Bool.and_eq_true, decide_eq_true_eq, Bool.false_eq_true, and_false, false_and] at w
  all_goals exact fits_lw (by simp only [w]) (by decide) (by (try dsimp only); omega) (by (try dsimp only); omega) (by (try dsimp only); omega) (by (try simp only [Opnd.code]); omega)
theorem rot (f : LRI) : Statement (.rot f) := by
  intro h
  have w : (f.wf) = true := fieldsOk_of_wf h
  rw [show encode (.rot f) = lriw 0x0E f ++ [] ++ [] from rfl]
  simp only [List.append_nil]
  obtain ⟨pre, t, d, a, b⟩ := f
  have c0 := intTy_lt t
  rcases b with b | b
  all_goals simp only [UR.wf, UR.specWf, UM.wf, LRI.wf, LRI.bfWf, LRI.maskWf, LRF.wf, LRN.wf, LM.wf, LA.wf, Red.wf, LI.wf, Opnd.wf, Opnd.isReg, Opnd.oneTo32, bits, Bool.and_eq_true, decide_eq_true_eq, Bool.false_eq_true, and_false, false_and] at w
  all_goals exact fits_lw (by simp only [w]) (by decide) (by (try dsimp only); omega) (by (try dsimp only); omega) (by (try dsimp only); omega) (by (try simp only [Opnd.code]); omega)
theorem addc (f : LRI) : Statement (.addc f) := by
  intro h
  have w : (f.wf && f.t.code % 4 = 2) = true := fieldsOk_of_wf h
  rw [show encode (.addc f) = lriw 0x0F f ++ [] ++ [] from rfl]
  simp only [List.append_nil]
  obtain ⟨pre, t, d, a, b⟩ := f
  have c0 := intTy_lt t
  rcases b with b | b
  all_goals simp only [UR.wf, UR.specWf, UM.wf, LRI.wf, LRI.bfWf, LRI.maskWf, LRF.wf, LRN.wf, LM.wf, LA.wf, Red.wf, LI.wf, Opnd.wf, Opnd.isReg, Opnd.oneTo32, bits, Bool.and_eq_true, decide_eq_true_eq, Bool.false_eq_true, and_false, false_and] at w
  all_goals exact fits_lw (by simp only [w]) (by decide) (by (try dsimp only); omega) (by (try dsimp only); omega) (by (try dsimp only); omega) (by (try simp only [Opnd.code]); omega)
theorem cmpeq (f : LRI) : Statement (.cmpeq f) := by
  intro h
  have w : (f.maskWf) = true := fieldsOk_of_wf h
  rw [show encode (.cmpeq f) = lriw 0x10 f ++ [] ++ [] from rfl]
  simp only [List.append_nil]
  obtain ⟨pre, t, d, a, b⟩ := f
  have c0 := intTy_lt t
  rcases b with b | b
  all_goals simp only [UR.wf, UR.specWf, UM.wf, LRI.wf, LRI.bfWf, LRI.maskWf, LRF.wf, LRN.wf, LM.wf, LA.wf, Red.wf, LI.wf, Opnd.wf, Opnd.isReg, Opnd.oneTo32, bits, Bool.and_eq_true, decide_eq_true_eq, Bool.false_eq_true, and_false, false_and] at w
  all_goals exact fits_lw (by simp only [w]) (by decide) (by (try dsimp only); omega) (by (try dsimp only); omega) (by (try dsimp only); omega) (by (try simp only [Opnd.code]); omega)
theorem cmpne (f : LRI) : Statement (.cmpne f) := by
  intro h
  have w : (f.maskWf) = true := fieldsOk_of_wf h
  rw [show encode (.cmpne f) = lriw 0x11 f ++ [] ++ [] from rfl]
  simp only [List.append_nil]
  obtain ⟨pre, t, d, a, b⟩ := f
  have c0 := intTy_lt t
  rcases b with b | b
  all_goals simp only [UR.wf, UR.specWf, UM.wf, LRI.wf, LRI.bfWf, LRI.maskWf, LRF.wf, LRN.wf, LM.wf, LA.wf, Red.wf, LI.wf, Opnd.wf, Opnd.isReg, Opnd.oneTo32, bits, Bool.and_eq_true, decide_eq_true_eq, Bool.false_eq_true, and_false, false_and] at w
  all_goals exact fits_lw (by simp only [w]) (by decide) (by (try dsimp only); omega) (by (try dsimp only); omega) (by (try dsimp only); omega) (by (try simp only [Opnd.code]); omega)
theorem cmplt (f : LRI) : Statement (.cmplt f) := by
  intro h
  have w : (f.maskWf) = true := fieldsOk_of_wf h
  rw [show encode (.cmplt f) = lriw 0x12 f ++ [] ++ [] from rfl]
  simp only [List.append_nil]
  obtain ⟨pre, t, d, a, b⟩ := f
  have c0 := intTy_lt t
  rcases b with b | b
  all_goals simp only [UR.wf, UR.specWf, UM.wf, LRI.wf, LRI.bfWf, LRI.maskWf, LRF.wf, LRN.wf, LM.wf, LA.wf, Red.wf, LI.wf, Opnd.wf, Opnd.isReg, Opnd.oneTo32, bits, Bool.and_eq_true, decide_eq_true_eq, Bool.false_eq_true, and_false, false_and] at w
  all_goals exact fits_lw (by simp only [w]) (by decide) (by (try dsimp only); omega) (by (try dsimp only); omega) (by (try dsimp only); omega) (by (try simp only [Opnd.code]); omega)
theorem cmple (f : LRI) : Statement (.cmple f) := by
  intro h
  have w : (f.maskWf) = true := fieldsOk_of_wf h
  rw [show encode (.cmple f) = lriw 0x13 f ++ [] ++ [] from rfl]
  simp only [List.append_nil]
  obtain ⟨pre, t, d, a, b⟩ := f
  have c0 := intTy_lt t
  rcases b with b | b
  all_goals simp only [UR.wf, UR.specWf, UM.wf, LRI.wf, LRI.bfWf, LRI.maskWf, LRF.wf, LRN.wf, LM.wf, LA.wf, Red.wf, LI.wf, Opnd.wf, Opnd.isReg, Opnd.oneTo32, bits, Bool.and_eq_true, decide_eq_true_eq, Bool.false_eq_true, and_false, false_and] at w
  all_goals exact fits_lw (by simp only [w]) (by decide) (by (try dsimp only); omega) (by (try dsimp only); omega) (by (try dsimp only); omega) (by (try simp only [Opnd.code]); omega)
theorem sel (f : LRI) : Statement (.sel f) := by
  intro h
  have w : (f.wf && wideTy f.t) = true := fieldsOk_of_wf h
  rw [show encode (.sel f) = lriw 0x14 f ++ [] ++ [] from rfl]
  simp only [List.append_nil]
  obtain ⟨pre, t, d, a, b⟩ := f
  have c0 := intTy_lt t
  rcases b with b | b
  all_goals simp only [UR.wf, UR.specWf, UM.wf, LRI.wf, LRI.bfWf, LRI.maskWf, LRF.wf, LRN.wf, LM.wf, LA.wf, Red.wf, LI.wf, Opnd.wf, Opnd.isReg, Opnd.oneTo32, bits, Bool.and_eq_true, decide_eq_true_eq, Bool.false_eq_true, and_false, false_and] at w
  all_goals exact fits_lw (by simp only [w]) (by decide) (by (try dsimp only); omega) (by (try dsimp only); omega) (by (try dsimp only); omega) (by (try simp only [Opnd.code]); omega)
theorem bfx (f : LRI) : Statement (.bfx f) := by
  intro h
  have w : (f.bfWf) = true := fieldsOk_of_wf h
  rw [show encode (.bfx f) = lriw 0x15 f ++ [] ++ [] from rfl]
  simp only [List.append_nil]
  obtain ⟨pre, t, d, a, b⟩ := f
  have c0 := intTy_lt t
  rcases b with b | b
  all_goals simp only [UR.wf, UR.specWf, UM.wf, LRI.wf, LRI.bfWf, LRI.maskWf, LRF.wf, LRN.wf, LM.wf, LA.wf, Red.wf, LI.wf, Opnd.wf, Opnd.isReg, Opnd.oneTo32, bits, Bool.and_eq_true, decide_eq_true_eq, Bool.false_eq_true, and_false, false_and] at w
  all_goals exact fits_lw (by simp only [w]) (by decide) (by (try dsimp only); omega) (by (try dsimp only); omega) (by (try dsimp only); omega) (by (try simp only [Opnd.code]); omega)
theorem bfi (f : LRI) : Statement (.bfi f) := by
  intro h
  have w : (f.bfWf) = true := fieldsOk_of_wf h
  rw [show encode (.bfi f) = lriw 0x16 f ++ [] ++ [] from rfl]
  simp only [List.append_nil]
  obtain ⟨pre, t, d, a, b⟩ := f
  have c0 := intTy_lt t
  rcases b with b | b
  all_goals simp only [UR.wf, UR.specWf, UM.wf, LRI.wf, LRI.bfWf, LRI.maskWf, LRF.wf, LRN.wf, LM.wf, LA.wf, Red.wf, LI.wf, Opnd.wf, Opnd.isReg, Opnd.oneTo32, bits, Bool.and_eq_true, decide_eq_true_eq, Bool.false_eq_true, and_false, false_and] at w
  all_goals exact fits_lw (by simp only [w]) (by decide) (by (try dsimp only); omega) (by (try dsimp only); omega) (by (try dsimp only); omega) (by (try simp only [Opnd.code]); omega)
theorem bit (fn : Option BitFn) (f : LRN) : Statement (.bit fn f) := by
  intro h
  have w : (f.wf && (if fn.isSome then f.b = .reg 0 else f.b.oneTo32)) = true := fieldsOk_of_wf h
  rw [show encode (.bit fn f) = lrnw 0x17 (BitFn.code fn) f ++ [] ++ [] from rfl]
  simp only [List.append_nil]
  obtain ⟨pre, d, a, b⟩ := f
  have c0 := bitFn_lt fn
  rcases fn with _ | fn
  all_goals rcases b with b | b
  all_goals simp only [UR.wf, UR.specWf, UM.wf, LRI.wf, LRI.bfWf, LRI.maskWf, LRF.wf, LRN.wf, LM.wf, LA.wf, Red.wf, LI.wf, Opnd.wf, Opnd.isReg, Opnd.oneTo32, bits, Bool.and_eq_true, decide_eq_true_eq, Bool.false_eq_true, and_false, false_and] at w
  all_goals exact fits_lw (by simp only [w]) (by decide) (bitFn_lt _) (by (try dsimp only); omega) (by (try dsimp only); omega) (by dsimp only [Opnd.code]; first | omega | (simp at w <;> omega))
theorem prmb (f : LRN) : Statement (.prmb f) := by
  intro h
  have w : (f.wf && f.b.isReg 7) = true := fieldsOk_of_wf h
  rw [show encode (.prmb f) = lrnw 0x18 0 f ++ [] ++ [] from rfl]
  simp only [List.append_nil]
  obtain ⟨pre, d, a, b⟩ := f
  rcases b with b | b
  all_goals simp only [UR.wf, UR.specWf, UM.wf, LRI.wf, LRI.bfWf, LRI.maskWf, LRF.wf, LRN.wf, LM.wf, LA.wf, Red.wf, LI.wf, Opnd.wf, Opnd.isReg, Opnd.oneTo32, bits, Bool.and_eq_true, decide_eq_true_eq, Bool.false_eq_true, and_false, false_and] at w
  all_goals exact fits_lw (by simp only [w]) (by decide) (by (try dsimp only); omega) (by (try dsimp only); omega) (by (try dsimp only); omega) (by (try simp only [Opnd.code]); omega)
theorem dot4 (signed : Bool) (four : Bool) (f : LRN) : Statement (.dot4 signed four f) := by
  intro h
  have w : (f.wf && f.b.isReg 7) = true := fieldsOk_of_wf h
  rw [show encode (.dot4 signed four f) = lrnw 0x19 (bit01 (!signed) * 4 + bit01 four * 2) f ++ [] ++ [] from rfl]
  simp only [List.append_nil]
  obtain ⟨pre, d, a, b⟩ := f
  have c0 := bit01_lt signed
  have c1 := bit01_lt four
  have c9 := bit01_lt (!signed)
  rcases b with b | b
  all_goals simp only [UR.wf, UR.specWf, UM.wf, LRI.wf, LRI.bfWf, LRI.maskWf, LRF.wf, LRN.wf, LM.wf, LA.wf, Red.wf, LI.wf, Opnd.wf, Opnd.isReg, Opnd.oneTo32, bits, Bool.and_eq_true, decide_eq_true_eq, Bool.false_eq_true, and_false, false_and] at w
  all_goals exact fits_lw (by simp only [w]) (by decide) (by (try dsimp only); omega) (by (try dsimp only); omega) (by (try dsimp only); omega) (by (try simp only [Opnd.code]); omega)
theorem moviZ (f : LI) : Statement (.moviZ f) := by
  intro h
  have w : (f.wf) = true := fieldsOk_of_wf h
  rw [show encode (.moviZ f) = liw 0 f ++ [] ++ [] from rfl]
  simp only [List.append_nil]
  obtain ⟨pre, d, v⟩ := f
  simp only [UR.wf, UR.specWf, UM.wf, LRI.wf, LRI.bfWf, LRI.maskWf, LRF.wf, LRN.wf, LM.wf, LA.wf, Red.wf, LI.wf, Opnd.wf, Opnd.isReg, Opnd.oneTo32, bits, Bool.and_eq_true, decide_eq_true_eq, Bool.false_eq_true, and_false, false_and] at w
  exact fits_pre (by simp only [w]) (by (try simp only [cpyKind]); omega)
theorem moviS (f : LI) : Statement (.moviS f) := by
  intro h
  have w : (f.wf) = true := fieldsOk_of_wf h
  rw [show encode (.moviS f) = liw 1 f ++ [] ++ [] from rfl]
  simp only [List.append_nil]
  obtain ⟨pre, d, v⟩ := f
  simp only [UR.wf, UR.specWf, UM.wf, LRI.wf, LRI.bfWf, LRI.maskWf, LRF.wf, LRN.wf, LM.wf, LA.wf, Red.wf, LI.wf, Opnd.wf, Opnd.isReg, Opnd.oneTo32, bits, Bool.and_eq_true, decide_eq_true_eq, Bool.false_eq_true, and_false, false_and] at w
  exact fits_pre (by simp only [w]) (by (try simp only [cpyKind]); omega)
theorem moviHi (f : LI) : Statement (.moviHi f) := by
  intro h
  have w : (f.wf) = true := fieldsOk_of_wf h
  rw [show encode (.moviHi f) = liw 2 f ++ [] ++ [] from rfl]
  simp only [List.append_nil]
  obtain ⟨pre, d, v⟩ := f
  simp only [UR.wf, UR.specWf, UM.wf, LRI.wf, LRI.bfWf, LRI.maskWf, LRF.wf, LRN.wf, LM.wf, LA.wf, Red.wf, LI.wf, Opnd.wf, Opnd.isReg, Opnd.oneTo32, bits, Bool.and_eq_true, decide_eq_true_eq, Bool.false_eq_true, and_false, false_and] at w
  exact fits_pre (by simp only [w]) (by (try simp only [cpyKind]); omega)
theorem movLane (f : LRN) : Statement (.movLane f) := by
  intro h
  have w : (f.wf && f.b.wf 7 32) = true := fieldsOk_of_wf h
  rw [show encode (.movLane f) = lrnw 0x1B 0 f ++ [] ++ [] from rfl]
  simp only [List.append_nil]
  obtain ⟨pre, d, a, b⟩ := f
  rcases b with b | b
  all_goals simp only [UR.wf, UR.specWf, UM.wf, LRI.wf, LRI.bfWf, LRI.maskWf, LRF.wf, LRN.wf, LM.wf, LA.wf, Red.wf, LI.wf, Opnd.wf, Opnd.isReg, Opnd.oneTo32, bits, Bool.and_eq_true, decide_eq_true_eq, Bool.false_eq_true, and_false, false_and] at w
  all_goals exact fits_lw (by simp only [w]) (by decide) (by (try dsimp only); omega) (by (try dsimp only); omega) (by (try dsimp only); omega) (by (try simp only [Opnd.code]); omega)
theorem movU (pre : Pre) (d : Nat) (s : Nat) (hi : Bool) : Statement (.movU pre d s hi) := by
  intro h
  have w : (pre.wf && bits 7 d && bits 8 s) = true := fieldsOk_of_wf h
  rw [show encode (.movU pre d s hi) = lw pre 0x1B 1 d 0 (s * 2 ^ 7 + bit01 hi * 2 + 1) ++ [] ++ [] from rfl]
  simp only [List.append_nil]
  have c0 := bit01_lt hi
  simp only [UR.wf, UR.specWf, UM.wf, LRI.wf, LRI.bfWf, LRI.maskWf, LRF.wf, LRN.wf, LM.wf, LA.wf, Red.wf, LI.wf, Opnd.wf, Opnd.isReg, Opnd.oneTo32, bits, Bool.and_eq_true, decide_eq_true_eq, Bool.false_eq_true, and_false, false_and] at w
  exact fits_pre (by simp only [w]) (by omega)
theorem movC (pre : Pre) (d : Nat) (n : Nat) : Statement (.movC pre d n) := by
  intro h
  have w : (pre.wf && bits 7 d && bits 8 n) = true := fieldsOk_of_wf h
  rw [show encode (.movC pre d n) = lw pre 0x1B 2 d 0 (n * 2 ^ 7 + 1) ++ [] ++ [] from rfl]
  simp only [List.append_nil]
  simp only [UR.wf, UR.specWf, UM.wf, LRI.wf, LRI.bfWf, LRI.maskWf, LRF.wf, LRN.wf, LM.wf, LA.wf, Red.wf, LI.wf, Opnd.wf, Opnd.isReg, Opnd.oneTo32, bits, Bool.and_eq_true, decide_eq_true_eq, Bool.false_eq_true, and_false, false_and] at w
  exact fits_pre (by simp only [w]) (by omega)
theorem movTu (pre : Pre) (a : Nat) (s : Nat) (hi : Bool) : Statement (.movTu pre a s hi) := by
  intro h
  have w : (pre.wf && bits 7 a && bits 8 s) = true := fieldsOk_of_wf h
  rw [show encode (.movTu pre a s hi) = lw pre 0x1B 3 a 0 (s * 2 ^ 7 + bit01 hi * 2 + 1) ++ [] ++ [] from rfl]
  simp only [List.append_nil]
  have c0 := bit01_lt hi
  simp only [UR.wf, UR.specWf, UM.wf, LRI.wf, LRI.bfWf, LRI.maskWf, LRF.wf, LRN.wf, LM.wf, LA.wf, Red.wf, LI.wf, Opnd.wf, Opnd.isReg, Opnd.oneTo32, bits, Bool.and_eq_true, decide_eq_true_eq, Bool.false_eq_true, and_false, false_and] at w
  exact fits_pre (by simp only [w]) (by omega)
theorem bsr (signed : Bool) (f : LRN) : Statement (.bsr signed f) := by
  intro h
  have w : (f.wf && f.b.oneTo32) = true := fieldsOk_of_wf h
  rw [show encode (.bsr signed f) = lrnw 0x1C (bit01 signed) f ++ [] ++ [] from rfl]
  simp only [List.append_nil]
  obtain ⟨pre, d, a, b⟩ := f
  have c0 := bit01_lt signed
  rcases b with b | b
  all_goals simp only [UR.wf, UR.specWf, UM.wf, LRI.wf, LRI.bfWf, LRI.maskWf, LRF.wf, LRN.wf, LM.wf, LA.wf, Red.wf, LI.wf, Opnd.wf, Opnd.isReg, Opnd.oneTo32, bits, Bool.and_eq_true, decide_eq_true_eq, Bool.false_eq_true, and_false, false_and] at w
  all_goals exact fits_lw (by simp only [w]) (by decide) (by (try dsimp only); omega) (by (try dsimp only); omega) (by (try dsimp only); omega) (by (try simp only [Opnd.code]); omega)
theorem bswSet (pre : Pre) (b : Nat) : Statement (.bswSet pre b) := by
  intro h
  have w : (pre.wf && bits 7 b) = true := fieldsOk_of_wf h
  rw [show encode (.bswSet pre b) = lw pre 0x1D 0 0 0 (b * 2) ++ [] ++ [] from rfl]
  simp only [List.append_nil]
  simp only [UR.wf, UR.specWf, UM.wf, LRI.wf, LRI.bfWf, LRI.maskWf, LRF.wf, LRN.wf, LM.wf, LA.wf, Red.wf, LI.wf, Opnd.wf, Opnd.isReg, Opnd.oneTo32, bits, Bool.and_eq_true, decide_eq_true_eq, Bool.false_eq_true, and_false, false_and] at w
  exact fits_lw (by simp only [w]) (by decide) (by (try dsimp only); omega) (by (try dsimp only); omega) (by (try dsimp only); omega) (by (try simp only [Opnd.code]); omega)
theorem bswReload (pre : Pre) (d : Nat) (b : Nat) : Statement (.bswReload pre d b) := by
  intro h
  have w : (pre.wf && bits 7 d && bits 7 b) = true := fieldsOk_of_wf h
  rw [show encode (.bswReload pre d b) = lw pre 0x1D 1 d 0 (b * 2) ++ [] ++ [] from rfl]
  simp only [List.append_nil]
  simp only [UR.wf, UR.specWf, UM.wf, LRI.wf, LRI.bfWf, LRI.maskWf, LRF.wf, LRN.wf, LM.wf, LA.wf, Red.wf, LI.wf, Opnd.wf, Opnd.isReg, Opnd.oneTo32, bits, Bool.and_eq_true, decide_eq_true_eq, Bool.false_eq_true, and_false, false_and] at w
  exact fits_lw (by simp only [w]) (by decide) (by (try dsimp only); omega) (by (try dsimp only); omega) (by (try dsimp only); omega) (by (try simp only [Opnd.code]); omega)
theorem bswQuery (pre : Pre) (d : Nat) : Statement (.bswQuery pre d) := by
  intro h
  have w : (pre.wf && bits 7 d) = true := fieldsOk_of_wf h
  rw [show encode (.bswQuery pre d) = lw pre 0x1D 2 d 0 0 ++ [] ++ [] from rfl]
  simp only [List.append_nil]
  simp only [UR.wf, UR.specWf, UM.wf, LRI.wf, LRI.bfWf, LRI.maskWf, LRF.wf, LRN.wf, LM.wf, LA.wf, Red.wf, LI.wf, Opnd.wf, Opnd.isReg, Opnd.oneTo32, bits, Bool.and_eq_true, decide_eq_true_eq, Bool.false_eq_true, and_false, false_and] at w
  exact fits_lw (by simp only [w]) (by decide) (by (try dsimp only); omega) (by (try dsimp only); omega) (by (try dsimp only); omega) (by (try simp only [Opnd.code]); omega)
theorem shf (fn : ShfFn) (f : LRN) : Statement (.shf fn f) := by
  intro h
  have w : (f.wf && f.b.wf 7 32) = true := fieldsOk_of_wf h
  rw [show encode (.shf fn f) = lrnw 0x1E fn.code f ++ [] ++ [] from rfl]
  simp only [List.append_nil]
  obtain ⟨pre, d, a, b⟩ := f
  have c0 := shfFn_lt fn
  rcases b with b | b
  all_goals simp only [UR.wf, UR.specWf, UM.wf, LRI.wf, LRI.bfWf, LRI.maskWf, LRF.wf, LRN.wf, LM.wf, LA.wf, Red.wf, LI.wf, Opnd.wf, Opnd.isReg, Opnd.oneTo32, bits, Bool.and_eq_true, decide_eq_true_eq, Bool.false_eq_true, and_false, false_and] at w
  all_goals exact fits_lw (by simp only [w]) (by decide) (by (try dsimp only); omega) (by (try dsimp only); omega) (by (try dsimp only); omega) (by (try simp only [Opnd.code]); omega)
theorem vote (fn : VoteFn) (pre : Pre) (m : Nat) (a : Nat) : Statement (.vote fn pre m a) := by
  intro h
  have w : (pre.wf && bits 3 m && bits 7 a) = true := fieldsOk_of_wf h
  rw [show encode (.vote fn pre m a) = lw pre 0x1F fn.code m a 0 ++ [] ++ [] from rfl]
  simp only [List.append_nil]
  have c0 := voteFn_lt fn
  simp only [UR.wf, UR.specWf, UM.wf, LRI.wf, LRI.bfWf, LRI.maskWf, LRF.wf, LRN.wf, LM.wf, LA.wf, Red.wf, LI.wf, Opnd.wf, Opnd.isReg, Opnd.oneTo32, bits, Bool.and_eq_true, decide_eq_true_eq, Bool.false_eq_true, and_false, false_and] at w
  exact fits_lw (by simp only [w]) (by decide) (by (try dsimp only); omega) (by (try dsimp only); omega) (by (try dsimp only); omega) (by (try simp only [Opnd.code]); omega)
theorem voteBallot (pre : Pre) (d : Nat) (a : Nat) : Statement (.voteBallot pre d a) := by
  intro h
  have w : (pre.wf && bits 7 d && bits 7 a) = true := fieldsOk_of_wf h
  rw [show encode (.voteBallot pre d a) = lw pre 0x1F 2 d a 0 ++ [] ++ [] from rfl]
  simp only [List.append_nil]
  simp only [UR.wf, UR.specWf, UM.wf, LRI.wf, LRI.bfWf, LRI.maskWf, LRF.wf, LRN.wf, LM.wf, LA.wf, Red.wf, LI.wf, Opnd.wf, Opnd.isReg, Opnd.oneTo32, bits, Bool.and_eq_true, decide_eq_true_eq, Bool.false_eq_true, and_false, false_and] at w
  exact fits_lw (by simp only [w]) (by decide) (by (try dsimp only); omega) (by (try dsimp only); omega) (by (try dsimp only); omega) (by (try simp only [Opnd.code]); omega)
theorem fadd (f : LRF) : Statement (.fadd f) := by
  intro h
  have w : (f.wf 0 5) = true := fieldsOk_of_wf h
  rw [show encode (.fadd f) = lrfw 0x20 f ++ [] from rfl]
  simp only [List.append_nil]
  obtain ⟨pre, t, d, a, b⟩ := f
  have c0 := fpTy_lt t
  simp only [UR.wf, UR.specWf, UM.wf, LRI.wf, LRI.bfWf, LRI.maskWf, LRF.wf, LRN.wf, LM.wf, LA.wf, Red.wf, LI.wf, Opnd.wf, Opnd.isReg, Opnd.oneTo32, bits, Bool.and_eq_true, decide_eq_true_eq, Bool.false_eq_true, and_false, false_and] at w
  exact fits_lw (by simp only [w]) (by decide) (by (try dsimp only); omega) (by (try dsimp only); omega) (by (try dsimp only); omega) (by (try simp only [Opnd.code]); omega)
theorem fsub (f : LRF) : Statement (.fsub f) := by
  intro h
  have w : (f.wf 0 5) = true := fieldsOk_of_wf h
  rw [show encode (.fsub f) = lrfw 0x21 f ++ [] from rfl]
  simp only [List.append_nil]
  obtain ⟨pre, t, d, a, b⟩ := f
  have c0 := fpTy_lt t
  simp only [UR.wf, UR.specWf, UM.wf, LRI.wf, LRI.bfWf, LRI.maskWf, LRF.wf, LRN.wf, LM.wf, LA.wf, Red.wf, LI.wf, Opnd.wf, Opnd.isReg, Opnd.oneTo32, bits, Bool.and_eq_true, decide_eq_true_eq, Bool.false_eq_true, and_false, false_and] at w
  exact fits_lw (by simp only [w]) (by decide) (by (try dsimp only); omega) (by (try dsimp only); omega) (by (try dsimp only); omega) (by (try simp only [Opnd.code]); omega)
theorem fmul (f : LRF) : Statement (.fmul f) := by
  intro h
  have w : (f.wf 0 5) = true := fieldsOk_of_wf h
  rw [show encode (.fmul f) = lrfw 0x22 f ++ [] from rfl]
  simp only [List.append_nil]
  obtain ⟨pre, t, d, a, b⟩ := f
  have c0 := fpTy_lt t
  simp only [UR.wf, UR.specWf, UM.wf, LRI.wf, LRI.bfWf, LRI.maskWf, LRF.wf, LRN.wf, LM.wf, LA.wf, Red.wf, LI.wf, Opnd.wf, Opnd.isReg, Opnd.oneTo32, bits, Bool.and_eq_true, decide_eq_true_eq, Bool.false_eq_true, and_false, false_and] at w
  exact fits_lw (by simp only [w]) (by decide) (by (try dsimp only); omega) (by (try dsimp only); omega) (by (try dsimp only); omega) (by (try simp only [Opnd.code]); omega)
theorem fma (f : LRF) : Statement (.fma f) := by
  intro h
  have w : (f.wf 0 5) = true := fieldsOk_of_wf h
  rw [show encode (.fma f) = lrfw 0x23 f ++ [] from rfl]
  simp only [List.append_nil]
  obtain ⟨pre, t, d, a, b⟩ := f
  have c0 := fpTy_lt t
  simp only [UR.wf, UR.specWf, UM.wf, LRI.wf, LRI.bfWf, LRI.maskWf, LRF.wf, LRN.wf, LM.wf, LA.wf, Red.wf, LI.wf, Opnd.wf, Opnd.isReg, Opnd.oneTo32, bits, Bool.and_eq_true, decide_eq_true_eq, Bool.false_eq_true, and_false, false_and] at w
  exact fits_lw (by simp only [w]) (by decide) (by (try dsimp only); omega) (by (try dsimp only); omega) (by (try dsimp only); omega) (by (try simp only [Opnd.code]); omega)
theorem fmin (f : LRF) : Statement (.fmin f) := by
  intro h
  have w : (f.wf 0 5) = true := fieldsOk_of_wf h
  rw [show encode (.fmin f) = lrfw 0x24 f ++ [] from rfl]
  simp only [List.append_nil]
  obtain ⟨pre, t, d, a, b⟩ := f
  have c0 := fpTy_lt t
  simp only [UR.wf, UR.specWf, UM.wf, LRI.wf, LRI.bfWf, LRI.maskWf, LRF.wf, LRN.wf, LM.wf, LA.wf, Red.wf, LI.wf, Opnd.wf, Opnd.isReg, Opnd.oneTo32, bits, Bool.and_eq_true, decide_eq_true_eq, Bool.false_eq_true, and_false, false_and] at w
  exact fits_lw (by simp only [w]) (by decide) (by (try dsimp only); omega) (by (try dsimp only); omega) (by (try dsimp only); omega) (by (try simp only [Opnd.code]); omega)
theorem fmax (f : LRF) : Statement (.fmax f) := by
  intro h
  have w : (f.wf 0 5) = true := fieldsOk_of_wf h
  rw [show encode (.fmax f) = lrfw 0x25 f ++ [] from rfl]
  simp only [List.append_nil]
  obtain ⟨pre, t, d, a, b⟩ := f
  have c0 := fpTy_lt t
  simp only [UR.wf, UR.specWf, UM.wf, LRI.wf, LRI.bfWf, LRI.maskWf, LRF.wf, LRN.wf, LM.wf, LA.wf, Red.wf, LI.wf, Opnd.wf, Opnd.isReg, Opnd.oneTo32, bits, Bool.and_eq_true, decide_eq_true_eq, Bool.false_eq_true, and_false, false_and] at w
  exact fits_lw (by simp only [w]) (by decide) (by (try dsimp only); omega) (by (try dsimp only); omega) (by (try dsimp only); omega) (by (try simp only [Opnd.code]); omega)
theorem fdiv (f : LRF) : Statement (.fdiv f) := by
  intro h
  have w : (f.wf 0 3) = true := fieldsOk_of_wf h
  rw [show encode (.fdiv f) = lrfw 0x26 f ++ [] from rfl]
  simp only [List.append_nil]
  obtain ⟨pre, t, d, a, b⟩ := f
  have c0 := fpTy_lt t
  simp only [UR.wf, UR.specWf, UM.wf, LRI.wf, LRI.bfWf, LRI.maskWf, LRF.wf, LRN.wf, LM.wf, LA.wf, Red.wf, LI.wf, Opnd.wf, Opnd.isReg, Opnd.oneTo32, bits, Bool.and_eq_true, decide_eq_true_eq, Bool.false_eq_true, and_false, false_and] at w
  exact fits_lw (by simp only [w]) (by decide) (by (try dsimp only); omega) (by (try dsimp only); omega) (by (try dsimp only); omega) (by (try simp only [Opnd.code]); omega)
theorem fcmpeq (f : LRF) : Statement (.fcmpeq f) := by
  intro h
  have w : (f.wf 0 3 && f.d < 8) = true := fieldsOk_of_wf h
  rw [show encode (.fcmpeq f) = lrfw 0x27 f ++ [] from rfl]
  simp only [List.append_nil]
  obtain ⟨pre, t, d, a, b⟩ := f
  have c0 := fpTy_lt t
  simp only [UR.wf, UR.specWf, UM.wf, LRI.wf, LRI.bfWf, LRI.maskWf, LRF.wf, LRN.wf, LM.wf, LA.wf, Red.wf, LI.wf, Opnd.wf, Opnd.isReg, Opnd.oneTo32, bits, Bool.and_eq_true, decide_eq_true_eq, Bool.false_eq_true, and_false, false_and] at w
  exact fits_lw (by simp only [w]) (by decide) (by (try dsimp only); omega) (by (try dsimp only); omega) (by (try dsimp only); omega) (by (try simp only [Opnd.code]); omega)
theorem fcmplt (f : LRF) : Statement (.fcmplt f) := by
  intro h
  have w : (f.wf 0 3 && f.d < 8) = true := fieldsOk_of_wf h
  rw [show encode (.fcmplt f) = lrfw 0x28 f ++ [] from rfl]
  simp only [List.append_nil]
  obtain ⟨pre, t, d, a, b⟩ := f
  have c0 := fpTy_lt t
  simp only [UR.wf, UR.specWf, UM.wf, LRI.wf, LRI.bfWf, LRI.maskWf, LRF.wf, LRN.wf, LM.wf, LA.wf, Red.wf, LI.wf, Opnd.wf, Opnd.isReg, Opnd.oneTo32, bits, Bool.and_eq_true, decide_eq_true_eq, Bool.false_eq_true, and_false, false_and] at w
  exact fits_lw (by simp only [w]) (by decide) (by (try dsimp only); omega) (by (try dsimp only); omega) (by (try dsimp only); omega) (by (try simp only [Opnd.code]); omega)
theorem fcmple (f : LRF) : Statement (.fcmple f) := by
  intro h
  have w : (f.wf 0 3 && f.d < 8) = true := fieldsOk_of_wf h
  rw [show encode (.fcmple f) = lrfw 0x29 f ++ [] from rfl]
  simp only [List.append_nil]
  obtain ⟨pre, t, d, a, b⟩ := f
  have c0 := fpTy_lt t
  simp only [UR.wf, UR.specWf, UM.wf, LRI.wf, LRI.bfWf, LRI.maskWf, LRF.wf, LRN.wf, LM.wf, LA.wf, Red.wf, LI.wf, Opnd.wf, Opnd.isReg, Opnd.oneTo32, bits, Bool.and_eq_true, decide_eq_true_eq, Bool.false_eq_true, and_false, false_and] at w
  exact fits_lw (by simp only [w]) (by decide) (by (try dsimp only); omega) (by (try dsimp only); omega) (by (try dsimp only); omega) (by (try simp only [Opnd.code]); omega)
theorem fcmpun (f : LRF) : Statement (.fcmpun f) := by
  intro h
  have w : (f.wf 0 3 && f.d < 8) = true := fieldsOk_of_wf h
  rw [show encode (.fcmpun f) = lrfw 0x2A f ++ [] from rfl]
  simp only [List.append_nil]
  obtain ⟨pre, t, d, a, b⟩ := f
  have c0 := fpTy_lt t
  simp only [UR.wf, UR.specWf, UM.wf, LRI.wf, LRI.bfWf, LRI.maskWf, LRF.wf, LRN.wf, LM.wf, LA.wf, Red.wf, LI.wf, Opnd.wf, Opnd.isReg, Opnd.oneTo32, bits, Bool.and_eq_true, decide_eq_true_eq, Bool.false_eq_true, and_false, false_and] at w
  exact fits_lw (by simp only [w]) (by decide) (by (try dsimp only); omega) (by (try dsimp only); omega) (by (try dsimp only); omega) (by (try simp only [Opnd.code]); omega)
theorem func (fn : FunFn) (t : FpTy) (pre : Pre) (d : Nat) (a : Nat) : Statement (.func fn t pre d a) := by
  intro h
  have w : (pre.wf && bits 7 d && bits 7 a && (t.code < 4 || fn = .abs || fn = .neg)) = true := fieldsOk_of_wf h
  rw [show encode (.func fn t pre d a) = lw pre 0x2B t.code d a (fn.code * 2 + 1) ++ [] from rfl]
  simp only [List.append_nil]
  have c0 := funFn_lt fn
  have c1 := fpTy_lt t
  simp only [UR.wf, UR.specWf, UM.wf, LRI.wf, LRI.bfWf, LRI.maskWf, LRF.wf, LRN.wf, LM.wf, LA.wf, Red.wf, LI.wf, Opnd.wf, Opnd.isReg, Opnd.oneTo32, bits, Bool.and_eq_true, decide_eq_true_eq, Bool.false_eq_true, and_false, false_and] at w
  exact fits_lw (by simp only [w]) (by decide) (by (try dsimp only); omega) (by (try dsimp only); omega) (by (try dsimp only); omega) (by (try simp only [Opnd.code]); omega)
theorem cvt (src : CvtTy) (dst : CvtTy) (pre : Pre) (d : Nat) (a : Nat) : Statement (.cvt src dst pre d a) := by
  intro h
  have w : (pre.wf && bits 7 d && bits 7 a) = true := fieldsOk_of_wf h
  rw [show encode (.cvt src dst pre d a) = lw pre 0x2C (src.code % 8) d a (src.code / 8 * 128 + dst.code * 8 + 1) ++ [] from rfl]
  simp only [List.append_nil]
  have c0 := cvtTy_lt src
  have c1 := cvtTy_lt dst
  simp only [UR.wf, UR.specWf, UM.wf, LRI.wf, LRI.bfWf, LRI.maskWf, LRF.wf, LRN.wf, LM.wf, LA.wf, Red.wf, LI.wf, Opnd.wf, Opnd.isReg, Opnd.oneTo32, bits, Bool.and_eq_true, decide_eq_true_eq, Bool.false_eq_true, and_false, false_and] at w
  exact fits_lw (by simp only [w]) (by decide) (by (try dsimp only); omega) (by (try dsimp only); omega) (by (try dsimp only); omega) (by (try simp only [Opnd.code]); omega)
theorem cvtbTo (t : BlockTy) (pre : Pre) (d : Nat) (a : Nat) (b : Nat) : Statement (.cvtbTo t pre d a b) := by
  intro h
  have w : (pre.wf && bits 7 d && bits 7 a && bits 7 b) = true := fieldsOk_of_wf h
  rw [show encode (.cvtbTo t pre d a b) = lw pre 0x2D t.code d a (b * 2) ++ [] from rfl]
  simp only [List.append_nil]
  have c0 := blockTy_lt t
  simp only [UR.wf, UR.specWf, UM.wf, LRI.wf, LRI.bfWf, LRI.maskWf, LRF.wf, LRN.wf, LM.wf, LA.wf, Red.wf, LI.wf, Opnd.wf, Opnd.isReg, Opnd.oneTo32, bits, Bool.and_eq_true, decide_eq_true_eq, Bool.false_eq_true, and_false, false_and] at w
  exact fits_lw (by simp only [w]) (by decide) (by (try dsimp only); omega) (by (try dsimp only); omega) (by (try dsimp only); omega) (by (try simp only [Opnd.code]); omega)
theorem cvtbFrom (t : BlockTy) (pre : Pre) (d : Nat) (a : Nat) (b : Nat) : Statement (.cvtbFrom t pre d a b) := by
  intro h
  have w : (pre.wf && bits 7 d && bits 7 a && bits 7 b) = true := fieldsOk_of_wf h
  rw [show encode (.cvtbFrom t pre d a b) = lw pre 0x2D (4 + t.code) d a (b * 2) ++ [] from rfl]
  simp only [List.append_nil]
  have c0 := blockTy_lt t
  simp only [UR.wf, UR.specWf, UM.wf, LRI.wf, LRI.bfWf, LRI.maskWf, LRF.wf, LRN.wf, LM.wf, LA.wf, Red.wf, LI.wf, Opnd.wf, Opnd.isReg, Opnd.oneTo32, bits, Bool.and_eq_true, decide_eq_true_eq, Bool.false_eq_true, and_false, false_and] at w
  exact fits_lw (by simp only [w]) (by decide) (by (try dsimp only); omega) (by (try dsimp only); omega) (by (try dsimp only); omega) (by (try simp only [Opnd.code]); omega)
theorem pfma (f : LRF) : Statement (.pfma f) := by
  intro h
  have w : (f.wf 4 5) = true := fieldsOk_of_wf h
  rw [show encode (.pfma f) = lrfw 0x2E f ++ [] from rfl]
  simp only [List.append_nil]
  obtain ⟨pre, t, d, a, b⟩ := f
  have c0 := fpTy_lt t
  simp only [UR.wf, UR.specWf, UM.wf, LRI.wf, LRI.bfWf, LRI.maskWf, LRF.wf, LRN.wf, LM.wf, LA.wf, Red.wf, LI.wf, Opnd.wf, Opnd.isReg, Opnd.oneTo32, bits, Bool.and_eq_true, decide_eq_true_eq, Bool.false_eq_true, and_false, false_and] at w
  exact fits_lw (by simp only [w]) (by decide) (by (try dsimp only); omega) (by (try dsimp only); omega) (by (try dsimp only); omega) (by (try simp only [Opnd.code]); omega)
theorem cdot (four : Bool) (f : LRN) : Statement (.cdot four f) := by
  intro h
  have w : (f.wf && f.b.isReg 7) = true := fieldsOk_of_wf h
  rw [show encode (.cdot four f) = lrnw 0x2F (bit01 four) f ++ [] from rfl]
  simp only [List.append_nil]
  obtain ⟨pre, d, a, b⟩ := f
  have c0 := bit01_lt four
  rcases b with b | b
  all_goals simp only [UR.wf, UR.specWf, UM.wf, LRI.wf, LRI.bfWf, LRI.maskWf, LRF.wf, LRN.wf, LM.wf, LA.wf, Red.wf, LI.wf, Opnd.wf, Opnd.isReg, Opnd.oneTo32, bits, Bool.and_eq_true, decide_eq_true_eq, Bool.false_eq_true, and_false, false_and] at w
  all_goals exact fits_lw (by simp only [w]) (by decide) (by (try dsimp only); omega) (by (try dsimp only); omega) (by (try dsimp only); omega) (by (try simp only [Opnd.code]); omega)
theorem tred (f : Red) : Statement (.tred f) := by
  intro h
  have w : (f.wf false) = true := fieldsOk_of_wf h
  rw [show encode (.tred f) = redw 0x30 f ++ [] from rfl]
  simp only [List.append_nil]
  obtain ⟨pre, op, d, a, excl⟩ := f
  have c0 := redOp_lt op
  have c1 := bit01_lt excl
  simp only [UR.wf, UR.specWf, UM.wf, LRI.wf, LRI.bfWf, LRI.maskWf, LRF.wf, LRN.wf, LM.wf, LA.wf, Red.wf, LI.wf, Opnd.wf, Opnd.isReg, Opnd.oneTo32, bits, Bool.and_eq_true, decide_eq_true_eq, Bool.false_eq_true, and_false, false_and] at w
  exact fits_lw (by simp only [w]) (by decide) (by (try dsimp only); omega) (by (try dsimp only); omega) (by (try dsimp only); omega) (by (try simp only [Opnd.code]); omega)
theorem scan (f : Red) : Statement (.scan f) := by
  intro h
  have w : (f.wf true) = true := fieldsOk_of_wf h
  rw [show encode (.scan f) = redw 0x31 f ++ [] from rfl]
  simp only [List.append_nil]
  obtain ⟨pre, op, d, a, excl⟩ := f
  have c0 := redOp_lt op
  have c1 := bit01_lt excl
  simp only [UR.wf, UR.specWf, UM.wf, LRI.wf, LRI.bfWf, LRI.maskWf, LRF.wf, LRN.wf, LM.wf, LA.wf, Red.wf, LI.wf, Opnd.wf, Opnd.isReg, Opnd.oneTo32, bits, Bool.and_eq_true, decide_eq_true_eq, Bool.false_eq_true, and_false, false_and] at w
  exact fits_lw (by simp only [w]) (by decide) (by (try dsimp only); omega) (by (try dsimp only); omega) (by (try dsimp only); omega) (by (try simp only [Opnd.code]); omega)
theorem segr (f : Red) : Statement (.segr f) := by
  intro h
  have w : (f.wf false) = true := fieldsOk_of_wf h
  rw [show encode (.segr f) = redw 0x32 f ++ [] from rfl]
  simp only [List.append_nil]
  obtain ⟨pre, op, d, a, excl⟩ := f
  have c0 := redOp_lt op
  have c1 := bit01_lt excl
  simp only [UR.wf, UR.specWf, UM.wf, LRI.wf, LRI.bfWf, LRI.maskWf, LRF.wf, LRN.wf, LM.wf, LA.wf, Red.wf, LI.wf, Opnd.wf, Opnd.isReg, Opnd.oneTo32, bits, Bool.and_eq_true, decide_eq_true_eq, Bool.false_eq_true, and_false, false_and] at w
  exact fits_lw (by simp only [w]) (by decide) (by (try dsimp only); omega) (by (try dsimp only); omega) (by (try dsimp only); omega) (by (try simp only [Opnd.code]); omega)
theorem meetOpen (pre : Pre) (n : Nat) (off : Nat) : Statement (.meetOpen pre n off) := by
  intro h
  have w : (pre.wfNoRep && bits 3 n && bits 19 off) = true := fieldsOk_of_wf h
  rw [show encode (.meetOpen pre n off) = (pre.words ++ [0x33 * 2 ^ 25 + n * 2 ^ 19 + off]) ++ [] from rfl]
  simp only [List.append_nil]
  simp only [UR.wf, UR.specWf, UM.wf, LRI.wf, LRI.bfWf, LRI.maskWf, LRF.wf, LRN.wf, LM.wf, LA.wf, Red.wf, LI.wf, Opnd.wf, Opnd.isReg, Opnd.oneTo32, bits, Bool.and_eq_true, decide_eq_true_eq, Bool.false_eq_true, and_false, false_and] at w
  exact fits_pre (wf_of_noRep (by simp only [w])) (by (try simp only [cpyKind]); omega)
theorem meetWait (pre : Pre) (n : Nat) : Statement (.meetWait pre n) := by
  intro h
  have w : (pre.wfNoRep && bits 3 n) = true := fieldsOk_of_wf h
  rw [show encode (.meetWait pre n) = (pre.words ++ [0x33 * 2 ^ 25 + 1 * 2 ^ 22 + n * 2 ^ 19]) ++ [] from rfl]
  simp only [List.append_nil]
  simp only [UR.wf, UR.specWf, UM.wf, LRI.wf, LRI.bfWf, LRI.maskWf, LRF.wf, LRN.wf, LM.wf, LA.wf, Red.wf, LI.wf, Opnd.wf, Opnd.isReg, Opnd.oneTo32, bits, Bool.and_eq_true, decide_eq_true_eq, Bool.false_eq_true, and_false, false_and] at w
  exact fits_pre (wf_of_noRep (by simp only [w])) (by (try simp only [cpyKind]); omega)
theorem meetLeave (pre : Pre) (n : Nat) : Statement (.meetLeave pre n) := by
  intro h
  have w : (pre.wfNoRep && bits 3 n) = true := fieldsOk_of_wf h
  rw [show encode (.meetLeave pre n) = (pre.words ++ [0x33 * 2 ^ 25 + 2 * 2 ^ 22 + n * 2 ^ 19]) ++ [] from rfl]
  simp only [List.append_nil]
  simp only [UR.wf, UR.specWf, UM.wf, LRI.wf, LRI.bfWf, LRI.maskWf, LRF.wf, LRN.wf, LM.wf, LA.wf, Red.wf, LI.wf, Opnd.wf, Opnd.isReg, Opnd.oneTo32, bits, Bool.and_eq_true, decide_eq_true_eq, Bool.false_eq_true, and_false, false_and] at w
  exact fits_pre (wf_of_noRep (by simp only [w])) (by (try simp only [cpyKind]); omega)
theorem brt (pre : Pre) (m : Nat) (off : Nat) : Statement (.brt pre m off) := by
  intro h
  have w : (pre.wfNoRep && bits 3 m && bits 22 off) = true := fieldsOk_of_wf h
  rw [show encode (.brt pre m off) = (pre.words ++ [0x34 * 2 ^ 25 + m * 2 ^ 22 + off]) ++ [] from rfl]
  simp only [List.append_nil]
  simp only [UR.wf, UR.specWf, UM.wf, LRI.wf, LRI.bfWf, LRI.maskWf, LRF.wf, LRN.wf, LM.wf, LA.wf, Red.wf, LI.wf, Opnd.wf, Opnd.isReg, Opnd.oneTo32, bits, Bool.and_eq_true, decide_eq_true_eq, Bool.false_eq_true, and_false, false_and] at w
  exact fits_pre (wf_of_noRep (by simp only [w])) (by (try simp only [cpyKind]); omega)
theorem brf (pre : Pre) (m : Nat) (off : Nat) : Statement (.brf pre m off) := by
  intro h
  have w : (pre.wfNoRep && bits 3 m && bits 22 off) = true := fieldsOk_of_wf h
  rw [show encode (.brf pre m off) = (pre.words ++ [0x35 * 2 ^ 25 + m * 2 ^ 22 + off]) ++ [] from rfl]
  simp only [List.append_nil]
  simp only [UR.wf, UR.specWf, UM.wf, LRI.wf, LRI.bfWf, LRI.maskWf, LRF.wf, LRN.wf, LM.wf, LA.wf, Red.wf, LI.wf, Opnd.wf, Opnd.isReg, Opnd.oneTo32, bits, Bool.and_eq_true, decide_eq_true_eq, Bool.false_eq_true, and_false, false_and] at w
  exact fits_pre (wf_of_noRep (by simp only [w])) (by (try simp only [cpyKind]); omega)
theorem callv (pre : Pre) (off : Nat) : Statement (.callv pre off) := by
  intro h
  have w : (pre.wfNoRep && bits 22 off) = true := fieldsOk_of_wf h
  rw [show encode (.callv pre off) = (pre.words ++ [0x36 * 2 ^ 25 + off]) ++ [] from rfl]
  simp only [List.append_nil]
  simp only [UR.wf, UR.specWf, UM.wf, LRI.wf, LRI.bfWf, LRI.maskWf, LRF.wf, LRN.wf, LM.wf, LA.wf, Red.wf, LI.wf, Opnd.wf, Opnd.isReg, Opnd.oneTo32, bits, Bool.and_eq_true, decide_eq_true_eq, Bool.false_eq_true, and_false, false_and] at w
  exact fits_pre (wf_of_noRep (by simp only [w])) (by (try simp only [cpyKind]); omega)
theorem jmpv (pre : Pre) (a : Nat) : Statement (.jmpv pre a) := by
  intro h
  have w : (pre.wfNoRep && bits 7 a) = true := fieldsOk_of_wf h
  rw [show encode (.jmpv pre a) = lw pre 0x37 0 0 a 0 ++ [] from rfl]
  simp only [List.append_nil]
  simp only [UR.wf, UR.specWf, UM.wf, LRI.wf, LRI.bfWf, LRI.maskWf, LRF.wf, LRN.wf, LM.wf, LA.wf, Red.wf, LI.wf, Opnd.wf, Opnd.isReg, Opnd.oneTo32, bits, Bool.and_eq_true, decide_eq_true_eq, Bool.false_eq_true, and_false, false_and] at w
  exact fits_lw (wf_of_noRep (by simp only [w])) (by decide) (by (try dsimp only); omega) (by (try dsimp only); omega) (by (try dsimp only); omega) (by (try simp only [Opnd.code]); omega)
theorem ld (f : LM) : Statement (.ld f) := by
  intro h
  have w : (f.wf) = true := fieldsOk_of_wf h
  rw [show encode (.ld f) = lmw 0x38 f ++ [] from rfl]
  simp only [List.append_nil]
  obtain ⟨pre, t, d, a, b⟩ := f
  have c0 := intTy_lt t
  rcases b with b | b
  all_goals simp only [UR.wf, UR.specWf, UM.wf, LRI.wf, LRI.bfWf, LRI.maskWf, LRF.wf, LRN.wf, LM.wf, LA.wf, Red.wf, LI.wf, Opnd.wf, Opnd.isReg, Opnd.oneTo32, bits, Bool.and_eq_true, decide_eq_true_eq, Bool.false_eq_true, and_false, false_and] at w
  all_goals exact fits_lw (by simp only [w]) (by decide) (by (try dsimp only); omega) (by (try dsimp only); omega) (by (try dsimp only); omega) (by (try simp only [Opnd.code]); omega)
theorem st (f : LM) : Statement (.st f) := by
  intro h
  have w : (f.wf) = true := fieldsOk_of_wf h
  rw [show encode (.st f) = lmw 0x39 f ++ [] from rfl]
  simp only [List.append_nil]
  obtain ⟨pre, t, d, a, b⟩ := f
  have c0 := intTy_lt t
  rcases b with b | b
  all_goals simp only [UR.wf, UR.specWf, UM.wf, LRI.wf, LRI.bfWf, LRI.maskWf, LRF.wf, LRN.wf, LM.wf, LA.wf, Red.wf, LI.wf, Opnd.wf, Opnd.isReg, Opnd.oneTo32, bits, Bool.and_eq_true, decide_eq_true_eq, Bool.false_eq_true, and_false, false_and] at w
  all_goals exact fits_lw (by simp only [w]) (by decide) (by (try dsimp only); omega) (by (try dsimp only); omega) (by (try dsimp only); omega) (by (try simp only [Opnd.code]); omega)
theorem lds (f : LM) : Statement (.lds f) := by
  intro h
  have w : (f.wf) = true := fieldsOk_of_wf h
  rw [show encode (.lds f) = lmw 0x3A f ++ [] from rfl]
  simp only [List.append_nil]
  obtain ⟨pre, t, d, a, b⟩ := f
  have c0 := intTy_lt t
  rcases b with b | b
  all_goals simp only [UR.wf, UR.specWf, UM.wf, LRI.wf, LRI.bfWf, LRI.maskWf, LRF.wf, LRN.wf, LM.wf, LA.wf, Red.wf, LI.wf, Opnd.wf, Opnd.isReg, Opnd.oneTo32, bits, Bool.and_eq_true, decide_eq_true_eq, Bool.false_eq_true, and_false, false_and] at w
  all_goals exact fits_lw (by simp only [w]) (by decide) (by (try dsimp only); omega) (by (try dsimp only); omega) (by (try dsimp only); omega) (by (try simp only [Opnd.code]); omega)
theorem sts (f : LM) : Statement (.sts f) := by
  intro h
  have w : (f.wf) = true := fieldsOk_of_wf h
  rw [show encode (.sts f) = lmw 0x3B f ++ [] from rfl]
  simp only [List.append_nil]
  obtain ⟨pre, t, d, a, b⟩ := f
  have c0 := intTy_lt t
  rcases b with b | b
  all_goals simp only [UR.wf, UR.specWf, UM.wf, LRI.wf, LRI.bfWf, LRI.maskWf, LRF.wf, LRN.wf, LM.wf, LA.wf, Red.wf, LI.wf, Opnd.wf, Opnd.isReg, Opnd.oneTo32, bits, Bool.and_eq_true, decide_eq_true_eq, Bool.false_eq_true, and_false, false_and] at w
  all_goals exact fits_lw (by simp only [w]) (by decide) (by (try dsimp only); omega) (by (try dsimp only); omega) (by (try dsimp only); omega) (by (try simp only [Opnd.code]); omega)
theorem atom (f : LA) : Statement (.atom f) := by
  intro h
  have w : (f.wf) = true := fieldsOk_of_wf h
  rw [show encode (.atom f) = law 0x3C f ++ [] from rfl]
  simp only [List.append_nil]
  obtain ⟨pre, op, d, a, nr⟩ := f
  have c0 := atomOp_lt op
  have c1 := bit01_lt nr
  simp only [UR.wf, UR.specWf, UM.wf, LRI.wf, LRI.bfWf, LRI.maskWf, LRF.wf, LRN.wf, LM.wf, LA.wf, Red.wf, LI.wf, Opnd.wf, Opnd.isReg, Opnd.oneTo32, bits, Bool.and_eq_true, decide_eq_true_eq, Bool.false_eq_true, and_false, false_and] at w
  exact fits_lw (by simp only [w]) (by decide) (by (try dsimp only); omega) (by (try dsimp only); omega) (by (try dsimp only); omega) (by (try simp only [Opnd.code]); omega)
theorem atoms (f : LA) : Statement (.atoms f) := by
  intro h
  have w : (f.wf) = true := fieldsOk_of_wf h
  rw [show encode (.atoms f) = law 0x3D f ++ [] from rfl]
  simp only [List.append_nil]
  obtain ⟨pre, op, d, a, nr⟩ := f
  have c0 := atomOp_lt op
  have c1 := bit01_lt nr
  simp only [UR.wf, UR.specWf, UM.wf, LRI.wf, LRI.bfWf, LRI.maskWf, LRF.wf, LRN.wf, LM.wf, LA.wf, Red.wf, LI.wf, Opnd.wf, Opnd.isReg, Opnd.oneTo32, bits, Bool.and_eq_true, decide_eq_true_eq, Bool.false_eq_true, and_false, false_and] at w
  exact fits_lw (by simp only [w]) (by decide) (by (try dsimp only); omega) (by (try dsimp only); omega) (by (try dsimp only); omega) (by (try simp only [Opnd.code]); omega)
theorem cpy (f : CpyF) : Statement (.cpy f) := by
  intro h
  have w : (f.pre.wfNoRep && f.z < 3 && bits 3 f.tok && bits 6 f.s && bits 6 f.d) = true := fieldsOk_of_wf h
  rw [show encode (.cpy f) = (f.pre.words ++ [0x3E * 2 ^ 25 + f.z * 2 ^ 23 + f.tok * 2 ^ 20 + f.s * 2 ^ 11 + f.d * 2 ^ 5]) ++ [] from rfl]
  simp only [List.append_nil]
  obtain ⟨pre, z, tok, s, d⟩ := f
  simp only [UR.wf, UR.specWf, UM.wf, LRI.wf, LRI.bfWf, LRI.maskWf, LRF.wf, LRN.wf, LM.wf, LA.wf, Red.wf, LI.wf, Opnd.wf, Opnd.isReg, Opnd.oneTo32, bits, Bool.and_eq_true, decide_eq_true_eq, Bool.false_eq_true, and_false, false_and] at w
  exact fits_pre (wf_of_noRep (by simp only [w])) (by (try simp only [cpyKind]); omega)
theorem cpyBuf (f : CpyBufF) : Statement (.cpyBuf f) := by
  intro h
  have w : (f.pre.wfNoRep && f.z < 3 && bits 3 f.tok && bits 6 f.s && bits 6 f.o && bits 5 f.cb) = true := fieldsOk_of_wf h
  rw [show encode (.cpyBuf f) = (f.pre.words ++ [0x3E * 2 ^ 25 + f.z * 2 ^ 23 + f.tok * 2 ^ 20 + cpyKind f.fin f.refill * 2 ^ 17 + f.s * 2 ^ 11 + f.o * 2 ^ 5 + f.cb]) ++ [] from rfl]
  simp only [List.append_nil]
  obtain ⟨pre, z, tok, fin, refill, s, o, cb⟩ := f
  have c0 := bit01_lt fin
  have c1 := bit01_lt refill
  simp only [UR.wf, UR.specWf, UM.wf, LRI.wf, LRI.bfWf, LRI.maskWf, LRF.wf, LRN.wf, LM.wf, LA.wf, Red.wf, LI.wf, Opnd.wf, Opnd.isReg, Opnd.oneTo32, bits, Bool.and_eq_true, decide_eq_true_eq, Bool.false_eq_true, and_false, false_and] at w
  exact fits_pre (wf_of_noRep (by simp only [w])) (by (try simp only [cpyKind]); omega)
theorem gath (f : GathF) : Statement (.gath f) := by
  intro h
  have w : (f.pre.wfNoRep && f.z < 3 && bits 3 f.tok && bits 6 f.base && bits 7 f.idx && bits 7 f.o) = true := fieldsOk_of_wf h
  rw [show encode (.gath f) = (f.pre.words ++ [0x3F * 2 ^ 25 + f.z * 2 ^ 23 + f.tok * 2 ^ 20 + f.base * 2 ^ 14 + f.idx * 2 ^ 7 + f.o]) ++ [] from rfl]
  simp only [List.append_nil]
  obtain ⟨pre, z, tok, base, idx, o⟩ := f
  simp only [UR.wf, UR.specWf, UM.wf, LRI.wf, LRI.bfWf, LRI.maskWf, LRF.wf, LRN.wf, LM.wf, LA.wf, Red.wf, LI.wf, Opnd.wf, Opnd.isReg, Opnd.oneTo32, bits, Bool.and_eq_true, decide_eq_true_eq, Bool.false_eq_true, and_false, false_and] at w
  exact fits_pre (wf_of_noRep (by simp only [w])) (by (try simp only [cpyKind]); omega)
theorem dxLaunch (d : Nat) (s : Nat) : Statement (.dxLaunch d s) := by
  intro h
  have w : (bits 5 d && bits 5 s) = true := fieldsOk_of_wf h
  rw [show encode (.dxLaunch d s) = dxw 0 0 d s 0 from rfl]
  simp only [UR.wf, UR.specWf, UM.wf, LRI.wf, LRI.bfWf, LRI.maskWf, LRF.wf, LRN.wf, LM.wf, LA.wf, Red.wf, LI.wf, Opnd.wf, Opnd.isReg, Opnd.oneTo32, bits, Bool.and_eq_true, decide_eq_true_eq, Bool.false_eq_true, and_false, false_and] at w
  exact fits_dxw (by decide) (by decide) (by omega) (by omega) (by omega)
theorem dxWait (d : Nat) (s : Nat) (t : Nat) : Statement (.dxWait d s t) := by
  intro h
  have w : (bits 5 d && bits 5 s && bits 5 t) = true := fieldsOk_of_wf h
  rw [show encode (.dxWait d s t) = dxw 1 0 d s t from rfl]
  simp only [UR.wf, UR.specWf, UM.wf, LRI.wf, LRI.bfWf, LRI.maskWf, LRF.wf, LRN.wf, LM.wf, LA.wf, Red.wf, LI.wf, Opnd.wf, Opnd.isReg, Opnd.oneTo32, bits, Bool.and_eq_true, decide_eq_true_eq, Bool.false_eq_true, and_false, false_and] at w
  exact fits_dxw (by decide) (by decide) (by omega) (by omega) (by omega)
theorem dxTbegin (d : Nat) : Statement (.dxTbegin d) := by
  intro h
  have w : (bits 5 d) = true := fieldsOk_of_wf h
  rw [show encode (.dxTbegin d) = dxw 2 0 d 0 0 from rfl]
  simp only [UR.wf, UR.specWf, UM.wf, LRI.wf, LRI.bfWf, LRI.maskWf, LRF.wf, LRN.wf, LM.wf, LA.wf, Red.wf, LI.wf, Opnd.wf, Opnd.isReg, Opnd.oneTo32, bits, Bool.and_eq_true, decide_eq_true_eq, Bool.false_eq_true, and_false, false_and] at w
  exact fits_dxw (by decide) (by decide) (by omega) (by omega) (by omega)
theorem dxTend : Statement .dxTend := by
  intro h
  have w : (true) = true := fieldsOk_of_wf h
  rw [show encode (.dxTend) = dxw 2 1 0 0 0 from rfl]
  simp only [UR.wf, UR.specWf, UM.wf, LRI.wf, LRI.bfWf, LRI.maskWf, LRF.wf, LRN.wf, LM.wf, LA.wf, Red.wf, LI.wf, Opnd.wf, Opnd.isReg, Opnd.oneTo32, bits, Bool.and_eq_true, decide_eq_true_eq, Bool.false_eq_true, and_false, false_and] at w
  exact fits_dxw (by decide) (by decide) (by omega) (by omega) (by omega)
theorem dxTabort (s : Nat) : Statement (.dxTabort s) := by
  intro h
  have w : (bits 5 s) = true := fieldsOk_of_wf h
  rw [show encode (.dxTabort s) = dxw 2 2 0 s 0 from rfl]
  simp only [UR.wf, UR.specWf, UM.wf, LRI.wf, LRI.bfWf, LRI.maskWf, LRF.wf, LRN.wf, LM.wf, LA.wf, Red.wf, LI.wf, Opnd.wf, Opnd.isReg, Opnd.oneTo32, bits, Bool.and_eq_true, decide_eq_true_eq, Bool.false_eq_true, and_false, false_and] at w
  exact fits_dxw (by decide) (by decide) (by omega) (by omega) (by omega)
theorem dxFqpop (d : Nat) (s : Nat) : Statement (.dxFqpop d s) := by
  intro h
  have w : (bits 5 d && bits 5 s) = true := fieldsOk_of_wf h
  rw [show encode (.dxFqpop d s) = dxw 3 0 d s 0 from rfl]
  simp only [UR.wf, UR.specWf, UM.wf, LRI.wf, LRI.bfWf, LRI.maskWf, LRF.wf, LRN.wf, LM.wf, LA.wf, Red.wf, LI.wf, Opnd.wf, Opnd.isReg, Opnd.oneTo32, bits, Bool.and_eq_true, decide_eq_true_eq, Bool.false_eq_true, and_false, false_and] at w
  exact fits_dxw (by decide) (by decide) (by omega) (by omega) (by omega)
theorem dxReplay (s : Nat) : Statement (.dxReplay s) := by
  intro h
  have w : (bits 5 s) = true := fieldsOk_of_wf h
  rw [show encode (.dxReplay s) = dxw 4 0 0 s 0 from rfl]
  simp only [UR.wf, UR.specWf, UM.wf, LRI.wf, LRI.bfWf, LRI.maskWf, LRF.wf, LRN.wf, LM.wf, LA.wf, Red.wf, LI.wf, Opnd.wf, Opnd.isReg, Opnd.oneTo32, bits, Bool.and_eq_true, decide_eq_true_eq, Bool.false_eq_true, and_false, false_and] at w
  exact fits_dxw (by decide) (by decide) (by omega) (by omega) (by omega)
theorem dxKill (s : Nat) : Statement (.dxKill s) := by
  intro h
  have w : (bits 5 s) = true := fieldsOk_of_wf h
  rw [show encode (.dxKill s) = dxw 5 0 0 s 0 from rfl]
  simp only [UR.wf, UR.specWf, UM.wf, LRI.wf, LRI.bfWf, LRI.maskWf, LRF.wf, LRN.wf, LM.wf, LA.wf, Red.wf, LI.wf, Opnd.wf, Opnd.isReg, Opnd.oneTo32, bits, Bool.and_eq_true, decide_eq_true_eq, Bool.false_eq_true, and_false, false_and] at w
  exact fits_dxw (by decide) (by decide) (by omega) (by omega) (by omega)
theorem dxCkptSave (d : Nat) (s : Nat) : Statement (.dxCkptSave d s) := by
  intro h
  have w : (bits 5 d && bits 5 s) = true := fieldsOk_of_wf h
  rw [show encode (.dxCkptSave d s) = dxw 6 0 d s 0 from rfl]
  simp only [UR.wf, UR.specWf, UM.wf, LRI.wf, LRI.bfWf, LRI.maskWf, LRF.wf, LRN.wf, LM.wf, LA.wf, Red.wf, LI.wf, Opnd.wf, Opnd.isReg, Opnd.oneTo32, bits, Bool.and_eq_true, decide_eq_true_eq, Bool.false_eq_true, and_false, false_and] at w
  exact fits_dxw (by decide) (by decide) (by omega) (by omega) (by omega)
theorem dxCkptRestore (d : Nat) (s : Nat) : Statement (.dxCkptRestore d s) := by
  intro h
  have w : (bits 5 d && bits 5 s) = true := fieldsOk_of_wf h
  rw [show encode (.dxCkptRestore d s) = dxw 6 0 d s 0 from rfl]
  simp only [UR.wf, UR.specWf, UM.wf, LRI.wf, LRI.bfWf, LRI.maskWf, LRF.wf, LRN.wf, LM.wf, LA.wf, Red.wf, LI.wf, Opnd.wf, Opnd.isReg, Opnd.oneTo32, bits, Bool.and_eq_true, decide_eq_true_eq, Bool.false_eq_true, and_false, false_and] at w
  exact fits_dxw (by decide) (by decide) (by omega) (by omega) (by omega)
theorem dxCkptQuery (d : Nat) (s : Nat) : Statement (.dxCkptQuery d s) := by
  intro h
  have w : (bits 5 d && bits 5 s) = true := fieldsOk_of_wf h
  rw [show encode (.dxCkptQuery d s) = dxw 6 0 d s 0 from rfl]
  simp only [UR.wf, UR.specWf, UM.wf, LRI.wf, LRI.bfWf, LRI.maskWf, LRF.wf, LRN.wf, LM.wf, LA.wf, Red.wf, LI.wf, Opnd.wf, Opnd.isReg, Opnd.oneTo32, bits, Bool.and_eq_true, decide_eq_true_eq, Bool.false_eq_true, and_false, false_and] at w
  exact fits_dxw (by decide) (by decide) (by omega) (by omega) (by omega)
theorem mcheckTake (w : Nat) : Statement (.mcheckTake w) := fun _ => fits_nil
theorem gangDispatch (grid : Nat) (gang : Nat) : Statement (.gangDispatch grid gang) := fun _ => fits_nil
theorem slotBind (g : Nat) (rec : List W64) : Statement (.slotBind g rec) := fun _ => fits_nil
theorem slotStop (g : Nat) : Statement (.slotStop g) := fun _ => fits_nil
theorem slotFree (g : Nat) : Statement (.slotFree g) := fun _ => fits_nil
theorem saveComplete (g : Nat) : Statement (.saveComplete g) := fun _ => fits_nil
theorem sliceExpiry (g : Nat) : Statement (.sliceExpiry g) := fun _ => fits_nil
theorem groupRetire (g : Nat) : Statement (.groupRetire g) := fun _ => fits_nil
theorem warpSlotRelease (w : Nat) : Statement (.warpSlotRelease w) := fun _ => fits_nil
theorem barrierRelease (b : BarRef) : Statement (.barrierRelease b) := fun _ => fits_nil
theorem coppiceRelaunch (grid : Nat) (gang : Nat) : Statement (.coppiceRelaunch grid gang) := fun _ => fits_nil
theorem lockLimitExpiry : Statement .lockLimitExpiry := fun _ => fits_nil
theorem sleepDeadline (w : Nat) (t : Nat) : Statement (.sleepDeadline w t) := fun _ => fits_nil
theorem ticketTurn : Statement .ticketTurn := fun _ => fits_nil
theorem txRevalidateCount (w : Nat) (t : Nat) : Statement (.txRevalidateCount w t) := fun _ => fits_nil
theorem remoteStoreCombineEnd (n : Nat) : Statement (.remoteStoreCombineEnd n) := fun _ => fits_nil
theorem tlbInvalidate (core : Nat) (v : W64) : Statement (.tlbInvalidate core v) := fun _ => fits_nil
theorem invalidateComplete (core : Nat) : Statement (.invalidateComplete core) := fun _ => fits_nil
theorem mailboxWrite (by_ : Sender) (w : Nat) (m : Nat) (off : Nat) (bytes : List Byte) : Statement (.mailboxWrite by_ w m off bytes) := fun _ => fits_nil
theorem mailboxClose (by_ : Sender) (w : Nat) (m : Nat) (off : Nat) (bytes : List Byte) : Statement (.mailboxClose by_ w m off bytes) := fun _ => fits_nil
theorem mailboxDiscard (w : Nat) (m : Nat) : Statement (.mailboxDiscard w m) := fun _ => fits_nil
theorem mailboxRoom (w : Nat) (m : Nat) : Statement (.mailboxRoom w m) := fun _ => fits_nil
theorem coreWindowAccess (by_ : Sender) (pa : Nat) (op : WinOp) : Statement (.coreWindowAccess by_ pa op) := fun _ => fits_nil
theorem copyLine (w : Nat) (tagFail : Bool) : Statement (.copyLine w tagFail) := fun _ => fits_nil
theorem gatherElement (w : Nat) : Statement (.gatherElement w) := fun _ => fits_nil
theorem engineOpRetire (w : Nat) (c : QClass) : Statement (.engineOpRetire w c) := fun _ => fits_nil
theorem matrixOpStart (core : Nat) : Statement (.matrixOpStart core) := fun _ => fits_nil
theorem mmaStep (core : Nat) (flip : Option (Nat × Nat × Nat × Nat)) : Statement (.mmaStep core flip) := fun _ => fits_nil
theorem idle (port : Nat) (h : Hdr) : Statement (.idle port h) := fun _ => fits_nil
theorem idleTimer (port : Nat) : Statement (.idleTimer port) := fun _ => fits_nil
theorem linkReplayTimeout (port : Nat) : Statement (.linkReplayTimeout port) := fun _ => fits_nil
theorem portDown (port : Nat) : Statement (.portDown port) := fun _ => fits_nil
theorem portdown (port : Nat) (failed : Nat) (ack : Nat) : Statement (.portdown port failed ack) := fun _ => fits_nil
theorem reads (holder : Nat) (line : Nat) : Statement (.reads holder line) := fun _ => fits_nil
theorem readm (holder : Nat) (line : Nat) : Statement (.readm holder line) := fun _ => fits_nil
theorem upgrade (holder : Nat) (line : Nat) : Statement (.upgrade holder line) := fun _ => fits_nil
theorem writeback (holder : Nat) (line : Nat) (bytes : Payload) : Statement (.writeback holder line bytes) := fun _ => fits_nil
theorem atomic (src : Nat) (op : AtomOp) (pa : Nat) (operand : W64) (cmp : W64) (rnd : Rnd) (nr : Bool) : Statement (.atomic src op pa operand cmp rnd nr) := fun _ => fits_nil
theorem uncachedRead (src : Nat) (pa : Nat) (size : Nat) : Statement (.uncachedRead src pa size) := fun _ => fits_nil
theorem uncachedWrite (src : Nat) (pa : Nat) (bytes : List Byte) (pois : Nat) : Statement (.uncachedWrite src pa bytes pois) := fun _ => fits_nil
theorem contribution (src : Nat) (op : AtomOp) (pa : Nat) (operand : W64) (pois : Bool) (ackIx : Option Nat) : Statement (.contribution src op pa operand pois ackIx) := fun _ => fits_nil
theorem data (holder : Nat) (line : Nat) (excl : Bool) (bytes : Payload) : Statement (.data holder line excl bytes) := fun _ => fits_nil
theorem grantack (holder : Nat) (line : Nat) : Statement (.grantack holder line) := fun _ => fits_nil
theorem ack (n : Nat) : Statement (.ack n) := fun _ => fits_nil
theorem wback (holder : Nat) (line : Nat) : Statement (.wback holder line) := fun _ => fits_nil
theorem recallLine (holder : Nat) (line : Nat) : Statement (.recallLine holder line) := fun _ => fits_nil
theorem recalldata (holder : Nat) (line : Nat) (bytes : Payload) : Statement (.recalldata holder line bytes) := fun _ => fits_nil
theorem recallack (holder : Nat) (line : Nat) : Statement (.recallack holder line) := fun _ => fits_nil
theorem purge (id : Nat) : Statement (.purge id) := fun _ => fits_nil
theorem purgeack (id : Nat) (from_ : Nat) : Statement (.purgeack id from_) := fun _ => fits_nil
theorem partialForwardTimer (n : Nat) : Statement (.partialForwardTimer n) := fun _ => fits_nil
theorem gladePartialError (n : Nat) (sector : Nat) : Statement (.gladePartialError n sector) := fun _ => fits_nil
theorem join (j : JoinPkt) : Statement (.join j) := fun _ => fits_nil
theorem collectivePull (quarter : Nat) (id : Nat) : Statement (.collectivePull quarter id) := fun _ => fits_nil
theorem advert (from_ : Nat) (ctx : Nat) (blk : Nat) : Statement (.advert from_ ctx blk) := fun _ => fits_nil
theorem withdraw (from_ : Nat) (ctx : Nat) (blk : Nat) : Statement (.withdraw from_ ctx blk) := fun _ => fits_nil
theorem sideAck (w : Nat) (opId : Nat) (from_ : Nat) : Statement (.sideAck w opId from_) := fun _ => fits_nil
theorem planDigest (ctx : Nat) (id : Nat) (from_ : Nat) (digest : Nat) : Statement (.planDigest ctx id from_ digest) := fun _ => fits_nil
theorem packetFormation (ctx : Nat) (id : Nat) : Statement (.packetFormation ctx id) := fun _ => fits_nil
theorem codedPacket (p : CodedPkt) : Statement (.codedPacket p) := fun _ => fits_nil
theorem fallbackreq (ctx : Nat) (id : Nat) (xfer : Nat) (to_ : Nat) : Statement (.fallbackreq ctx id xfer to_) := fun _ => fits_nil
theorem transferack (ctx : Nat) (id : Nat) (xfer : Nat) (missed : Bool) : Statement (.transferack ctx id xfer missed) := fun _ => fits_nil
theorem twinMatch (w : Nat) (twin : Nat) : Statement (.twinMatch w twin) := fun _ => fits_nil
theorem frameReceive (port : Nat) (bytes : List Byte) (fcsOk : Bool) (tagFails : Nat) : Statement (.frameReceive port bytes fcsOk tagFails) := fun _ => fits_nil
theorem pauseStart (port : Nat) (pcp : Nat) : Statement (.pauseStart port pcp) := fun _ => fits_nil
theorem pauseRepeat (port : Nat) (pcp : Nat) : Statement (.pauseRepeat port pcp) := fun _ => fits_nil
theorem pauseAbandon (port : Nat) (pcp : Nat) : Statement (.pauseAbandon port pcp) := fun _ => fits_nil
theorem pcieRead (addr : Nat) (size : Nat) : Statement (.pcieRead addr size) := fun _ => fits_nil
theorem pcieWrite (addr : Nat) (bytes : List Byte) (ep : Bool) : Statement (.pcieWrite addr bytes ep) := fun _ => fits_nil
theorem dxfqWrite (v : W64) : Statement (.dxfqWrite v) := fun _ => fits_nil
theorem dxsnapWrite (v : W64) : Statement (.dxsnapWrite v) := fun _ => fits_nil
theorem dxobjRegister (v : W64) : Statement (.dxobjRegister v) := fun _ => fits_nil
theorem dxobjRemove (v : W64) : Statement (.dxobjRemove v) := fun _ => fits_nil
theorem dxobjComplete : Statement .dxobjComplete := fun _ => fits_nil
theorem dxrwWrite (n : Nat) (v : W64) : Statement (.dxrwWrite n v) := fun _ => fits_nil
theorem flowBind (v : W64) : Statement (.flowBind v) := fun _ => fits_nil
theorem bandWrite (n : Nat) (v : W64) : Statement (.bandWrite n v) := fun _ => fits_nil
theorem clockPlanChange : Statement .clockPlanChange := fun _ => fits_nil
theorem bootClr : Statement .bootClr := fun _ => fits_nil
theorem csrWrite (h : Nat) (csr : Nat) (v : W64) : Statement (.csrWrite h csr v) := fun _ => fits_nil
theorem powerSample (amps : Nat) (watts : Nat) : Statement (.powerSample amps watts) := fun _ => fits_nil
theorem throttleEnd : Statement .throttleEnd := fun _ => fits_nil
theorem snaptrig : Statement .snaptrig := fun _ => fits_nil
theorem smbusSnapshot : Statement .smbusSnapshot := fun _ => fits_nil
theorem snapshotLatch : Statement .snapshotLatch := fun _ => fits_nil
theorem snapshotComplete : Statement .snapshotComplete := fun _ => fits_nil
theorem scrub (pa : Nat) (fails : Nat) : Statement (.scrub pa fails) := fun _ => fits_nil
theorem residueMismatch (w : Nat) (lane : Nat) : Statement (.residueMismatch w lane) := fun _ => fits_nil
theorem moduleStart (reason : Nat) : Statement (.moduleStart reason) := fun _ => fits_nil
theorem startTimeout : Statement .startTimeout := fun _ => fits_nil
theorem powerLoss : Statement .powerLoss := fun _ => fits_nil
theorem dxWaitTimeout (h : Nat) : Statement (.dxWaitTimeout h) := fun _ => fits_nil
theorem hostInstruction (h : Nat) (op : HostOp) : Statement (.hostInstruction h op) := fun _ => fits_nil
theorem hostInterrupt (h : Nat) (cause : Nat) : Statement (.hostInterrupt h cause) := fun _ => fits_nil
theorem packetCrcFailure (port : Nat) : Statement (.packetCrcFailure port) := fun _ => fits_nil
theorem reservedTypePacket (port : Nat) : Statement (.reservedTypePacket port) := fun _ => fits_nil
theorem checkpointComplete (mediaError : Bool) : Statement (.checkpointComplete mediaError) := fun _ => fits_nil
theorem startReachesUp : Statement .startReachesUp := fun _ => fits_nil
theorem failedPartRecovery (id : Nat) : Statement (.failedPartRecovery id) := fun _ => fits_nil

end Sys2Proof.Laws.EncodeFits
end

