-- ==== Sys2Proof/Laws/Quiet.lean ====
section
/-! SUPPORT. Laws of an access while nothing else in the module has a part in it: no partial, no shadow, no lock, no transaction, no
reservation, every line at hand. -/

namespace Sys2Proof.Laws

open Machine

theorem forwardLines_of_none {s : State} (h : s.partials = []) (pa n : Nat) : s.forwardLines pa n = s := by
  simp [State.forwardLines, State.linePartials, h]
theorem foldLine_of_none {s : State} (h : s.shadows = []) (l : Nat) : s.foldLine l = s := by simp [State.foldLine, h]
theorem foldLines_of_none {s : State} (h : s.shadows = []) (pa n : Nat) : s.foldLines pa n = s := by
  unfold State.foldLines
  induction linesOf pa n with
  | nil => rfl
  | cons l r ih => rw [List.foldl_cons, foldLine_of_none h]; exact ih
theorem hart_observe_of_none {h : Hart} (ht : h.tx = none) (hl : h.lr = none) (write : Bool) (ls : List Nat) : h.observe write ls = h := by
  simp [Hart.observe, ht, hl]
theorem vtab_thread (w : Warp) : vtab 32 w.thread = w.threads := by
  apply Vector.ext
  intro i hi
  simp [vtab, Warp.thread, vget, List.getD_eq_getElem?_getD, hi]
theorem warp_observe_of_none {w : Warp} (h : ∀ L, L < 32 → (w.thread L).tx = none) (skip : Option Nat) (ls : List Nat) : w.observe skip ls = w := by
  have e : (vtab 32 fun t => if skip = some t then w.thread t else (w.thread t).observe ls) = w.threads := by
    rw [← vtab_thread w]
    apply Vector.ext
    intro i hi
    have := h i hi
    simp [vtab, Thread.observe, this]
  simp [Warp.observe, e]
theorem map_fst_of_fixed {α : Type} (l : List (Nat × α)) (f : Nat × α → Nat × α) (h : ∀ x ∈ l, f x = x) : l.map f = l := by
  induction l with
  | nil => rfl
  | cons x r ih => rw [List.map_cons, h x (by simp), ih fun y hy => h y (by simp [hy])]
/-- An access is seen by no transaction and no reservation. -/
theorem observe_of_none {s : State} (hw : ∀ x ∈ s.warps, ∀ L, L < 32 → (x.2.thread L).tx = none)
    (hh : ∀ x ∈ s.harts, x.2.tx = none ∧ x.2.lr = none) (who : Agent) (write : Bool) (pa n : Nat) : s.observe who write pa n = s := by
  unfold State.observe
  have e1 : (s.harts.map fun x => if who = .hart x.1 then x else (x.1, x.2.observe write (linesOf pa n))) = s.harts := by
    apply map_fst_of_fixed
    intro x hx
    split
    · rfl
    · rw [hart_observe_of_none (hh x hx).1 (hh x hx).2]
  have e2 : ∀ g : Nat → Option Nat, (s.warps.map fun x => (x.1, x.2.observe (g x.1) (linesOf pa n))) = s.warps := by
    intro g
    apply map_fst_of_fixed
    intro x hx
    rw [warp_observe_of_none (hw x hx)]
  simp only [e1]
  cases write with
  | false => rfl
  | true =>
    have e3 : ∀ g : Nat → Option Nat,
        ({ s with warps := s.warps.map fun x => (x.1, x.2.observe (g x.1) (linesOf pa n)) } : State) = s := fun g => by rw [e2 g]
    cases who with
    | thread w t => exact e3 fun k => if w = k then some t else none
    | hart _ => exact e3 fun _ => none
    | other => exact e3 fun _ => none
theorem lockInsert_of_free {s : State} (h : s.lock = none) (who : Agent) (write : Bool) (pa n : Nat) : s.lockInsert who write pa n = s := by
  simp [State.lockInsert, h]
theorem promotes_of_none {s : State} (h : s.classes = []) (who : Agent) (pa n : Nat) : s.promotes who pa n = false := by simp [State.promotes, h]

/-! ## What an access may change besides bytes: classes, entries of the directory, and holders -/

/-- An entry of the directory that serves nobody and that no other module has a part in. -/
structure EntryAtHand (e : DirEntry) : Prop where
  queue : e.queue = []
  recalls : e.recalls = []
  unacked : e.unacked = []
  held : ∀ h ∈ e.held, h < 32
/-- Every line homed on this module is at hand, and no line of another is on its way back. -/
structure AtHand (s : State) : Prop where
  entries : ∀ u, EntryAtHand (s.dirEntry u)
  holders : ∀ k, isWriteback (tget? s.holders k) = false
/-- No hart is in a transaction or holds a reservation. -/
def HartsIdle (s : State) : Prop := ∀ x ∈ s.harts, x.2.tx = none ∧ x.2.lr = none
/-- Nothing but the directory has a part in what happens to a line. -/
structure Idle (s : State) : Prop where
  harts : HartsIdle s
  shadows : s.shadows = []
  hand : AtHand s
/-- An operation changes only classes, entries of the directory and holders, and leaves every line at hand. -/
structure Keeps (s t : State) : Prop where
  looked : t = s.looked t
  hand : AtHand t

theorem looked_self (s : State) : s = s.looked s := rfl
theorem looked_trans {s t u : State} (h1 : t = s.looked t) (h2 : u = t.looked u) : u = s.looked u := by
  rw [h2, h1]; rfl
theorem Keeps.idle {s t : State} (h : Idle s) (k : Keeps s t) : Idle t :=
  ⟨by rw [k.looked]; exact h.harts, by rw [k.looked]; exact h.shadows, k.hand⟩
theorem keeps_self {s : State} (h : Idle s) : Keeps s s := ⟨looked_self s, h.hand⟩
theorem keeps_trans {s t u : State} (h1 : Keeps s t) (h2 : Keeps t u) : Keeps s u := ⟨looked_trans h1.looked h2.looked, h2.hand⟩
/-- A fold keeps what each of its steps keeps. -/
theorem keeps_foldl {α : Type} {f : State → α → State} (hf : ∀ s x, Idle s → Keeps s (f s x)) :
    ∀ (l : List α) (s : State), Idle s → Keeps s (l.foldl f s)
  | [], _, h => keeps_self h
  | x :: r, s, h => keeps_trans (hf s x h) (keeps_foldl hf r _ ((hf s x h).idle h))

theorem entryAtHand_none : EntryAtHand DirEntry.none := ⟨rfl, rfl, rfl, fun _ h => absurd h (by simp [DirEntry.held, DirEntry.none])⟩
theorem atHand_of_noCopies {s : State} (h : NoCopies s) : AtHand s :=
  ⟨fun u => by rw [show s.dirEntry u = DirEntry.none by simp [State.dirEntry, h.1, tget]]; exact entryAtHand_none,
    fun k => by rw [h.2]; rfl⟩
theorem dirEntry_setDir (s : State) (u v : Nat) (e : DirEntry) : (s.setDir u e).dirEntry v = if v = u then e else s.dirEntry v := by
  unfold State.setDir State.dirEntry
  split
  · next h => simp only [tget, tget?_tdel]; split <;> simp [h]
  · simp only [tget, tget?_tput]; split <;> simp
theorem setDir_keeps {s : State} (h : Idle s) (u : Nat) {e : DirEntry} (he : EntryAtHand e) : Keeps s (s.setDir u e) := by
  refine ⟨by unfold State.setDir; split <;> rfl, fun v => ?_, fun k => ?_⟩
  · rw [dirEntry_setDir]; split
    · exact he
    · exact h.hand.entries v
  · rw [show (s.setDir u e).holders = s.holders by unfold State.setDir; split <;> rfl]; exact h.hand.holders k
theorem putHolder_keeps {s : State} (h : Idle s) (k : Nat) {l : LineState} (hl : isWriteback (some l) = false) :
    Keeps s { s with holders := tput s.holders k l } := by
  refine ⟨rfl, h.hand.entries, fun j => ?_⟩
  show isWriteback (tget? (tput s.holders k l) j) = false
  rw [tget?_tput]; split
  · exact hl
  · exact h.hand.holders j
theorem delHolder_keeps {s : State} (h : Idle s) (k : Nat) : Keeps s { s with holders := tdel s.holders k } := by
  refine ⟨rfl, h.hand.entries, fun j => ?_⟩
  show isWriteback (tget? (tdel s.holders k) j) = false
  rw [tget?_tdel]; split
  · rfl
  · exact h.hand.holders j

/-! ## Recalls within the module -/

theorem recallActs_keeps {s : State} (h : Idle s) (holder line : Nat) : Keeps s (s.recallActs holder line) := by
  have e : (s.harts.map fun x => if holder = Agent.holder (.hart x.1) then (x.1, x.2.observe true [line]) else x) = s.harts := by
    refine (List.map_congr_left fun x hx => ?_).trans (List.map_id s.harts)
    split
    · rw [hart_observe_of_none (h.harts x hx).1 (h.harts x hx).2]; rfl
    · rfl
  unfold State.recallActs
  rw [foldLine_of_none h.shadows]
  dsimp only
  rw [e]
  split <;> exact ⟨rfl, h.hand.entries, h.hand.holders⟩
theorem giveUp_atHand {e : DirEntry} (h : EntryAtHand e) (n : Nat) : EntryAtHand (e.giveUp n) := by
  refine ⟨h.queue, h.recalls, h.unacked, fun x hx => h.held x ?_⟩
  revert hx
  unfold DirEntry.giveUp DirEntry.held
  rcases e.state with _ | hs | o
  · simp
  · by_cases hl : (hs.filter fun x => x != n) = []
    · simp only [hl, if_true]; simp
    · simp only [hl, if_false]; intro hx; exact (List.mem_filter.mp hx).1
  · by_cases ho : o = n <;> simp [ho]
theorem recallOwn_keeps {s : State} (h : Idle s) (u holder : Nat) : Keeps s (s.recallOwn u holder) := by
  have k := keeps_foldl (f := fun (s : State) x => { (s.recallActs holder x) with holders := tdel s.holders (holderKey holder x) })
    (fun t x ht => ?_) (s.unitOf u) s h
  · unfold State.recallOwn
    exact keeps_trans k (setDir_keeps (k.idle h) u (giveUp_atHand (k.hand.entries u) holder))
  · have a := recallActs_keeps ht holder x
    have e : (t.recallActs holder x).holders = t.holders := by
      unfold State.recallActs
      rw [foldLine_of_none ht.shadows]
      dsimp only; split <;> rfl
    have d := delHolder_keeps (a.idle ht) (holderKey holder x)
    rw [e] at d
    exact keeps_trans a d
theorem takeHome_keeps {s : State} (h : Idle s) (u : Nat) : Keeps s (s.takeHome u) := by
  unfold State.takeHome
  dsimp only
  split
  · exact keeps_self h
  · exact keeps_foldl (fun t x ht => recallOwn_keeps ht u x) _ s h
theorem askBack_of_atHand {s : State} (h : AtHand s) (u : Nat) : s.askBack u = s := by
  have e : (s.dirEntry u).held.filter (32 ≤ ·) = [] := by
    rw [List.filter_eq_nil_iff]
    intro x hx
    have := (h.entries u).held x hx
    simp; omega
  unfold State.askBack
  dsimp only
  rw [e]
  split <;> rfl
theorem recallUnit_keeps {s : State} (h : Idle s) (u : Nat) : Keeps s (s.recallUnit u) := by
  have k := takeHome_keeps h u
  unfold State.recallUnit
  rw [askBack_of_atHand k.hand]; exact k
theorem makeRoom_keeps {s : State} (h : Idle s) (u : Nat) : Keeps s (s.makeRoom u) := by
  unfold State.makeRoom
  split
  · exact recallUnit_keeps h _
  · exact keeps_self h
theorem roomWaits_of_atHand {s : State} (h : AtHand s) (u : Nat) : s.roomWaits u = false := by
  unfold State.roomWaits
  split
  · next v _ =>
    have e := h.entries v
    simp only [e.queue, e.recalls, e.unacked, bne_self_eq_false, Bool.false_or, List.any_eq_false]
    intro x hx
    have := e.held x hx
    simp; omega
  · rfl

/-! ## Accesses -/

theorem grant_atHand {e : DirEntry} (h : EntryAtHand e) {n : Nat} (hn : n < 32) (r : DirReq) : EntryAtHand { e.grant n r with unacked := e.unacked } := by
  refine ⟨h.queue, h.recalls, h.unacked, fun x hx => ?_⟩
  have hh := h.held
  revert hx hh
  unfold DirEntry.grant DirEntry.held
  rcases r with _ | _ <;> rcases e.state with _ | hs | o <;> dsimp only <;> intro hx hh
  case s.some.owned =>
    by_cases ho : o = n <;> simp only [ho, if_true, if_false, List.mem_singleton] at hx <;> omega
  case s.some.shared =>
    rw [mem_insertNat] at hx
    rcases hx with rfl | hx
    exacts [hn, hh x hx]
  all_goals (simp only [List.mem_singleton] at hx; omega)
theorem ownForeign_keeps {s : State} (h : Idle s) (holder : Nat) (r : DirReq) (x : Nat) : Keeps s (s.ownForeign holder r x) := by
  have g : ∀ (ds : List Nat), Keeps s (ds.foldl (fun (s : State) d => { (s.recallActs d x) with holders := tdel s.holders (holderKey d x) }) s) := by
    intro ds
    refine keeps_foldl (fun t d ht => ?_) ds s h
    have a := recallActs_keeps ht d x
    have e : (t.recallActs d x).holders = t.holders := by
      unfold State.recallActs
      rw [foldLine_of_none ht.shadows]
      dsimp only; split <;> rfl
    have k := delHolder_keeps (a.idle ht) (holderKey d x)
    rw [e] at k
    exact keeps_trans a k
  unfold State.ownForeign
  dsimp only
  split
  · exact keeps_self h
  · split
    · exact keeps_trans (g _) (putHolder_keeps ((g _).idle h) _ rfl)
    · exact putHolder_keeps h _ rfl
/-- A holder of this module that takes a line changes the directory, the holders and the classes. -/
theorem ownLine_keeps {s : State} (h : Idle s) {holder : Nat} (hn : holder < 32) (r : DirReq) (line : Nat) : Keeps s (s.ownLine holder r line) := by
  unfold State.ownLine
  dsimp only
  split
  · split
    · exact ownForeign_keeps h holder r line
    · exact keeps_self h
  · split
    · exact keeps_self h
    · have k1 := keeps_foldl (fun t o ht => recallOwn_keeps ht (s.unitKey line) o) ((s.dirEntry (s.unitKey line)).inTheWay holder r) s h
      split
      · exact k1
      · have k2 := keeps_trans k1 (makeRoom_keeps (k1.idle h) (s.unitKey line))
        have k3 := keeps_trans k2 (setDir_keeps (k2.idle h) (s.unitKey line) (grant_atHand (k2.hand.entries (s.unitKey line)) hn r))
        refine keeps_trans k3 (keeps_foldl (fun t x ht => putHolder_keeps ht _ ?_) _ _ (k3.idle h))
        split <;> rfl
theorem ownLines_keeps {s : State} (h : Idle s) {who : Agent} (hn : who.holder < 32) (write : Bool) (pa n : Nat) :
    Keeps s (s.ownLines who write pa n) :=
  keeps_foldl (fun _ x ht => ownLine_keeps ht hn _ x) _ s h
theorem classify_keeps {s : State} (h : Idle s) (b : By) (size : Nat) (nc : Bool) (pa : Nat) : Keeps s (s.classify b size nc pa) := by
  unfold State.classify
  dsimp only
  split
  · exact ⟨rfl, h.hand.entries, h.hand.holders⟩
  · split <;> exact ⟨rfl, h.hand.entries, h.hand.holders⟩
theorem classifyRaw_keeps {s : State} (h : Idle s) (pa n : Nat) : Keeps s (s.classifyRaw pa n) := ⟨rfl, h.hand.entries, h.hand.holders⟩
theorem distant_of_home {s : State} {pa : Nat} (h : pa / 2 ^ 48 = s.pkg) (who : Agent) : s.distant who pa = false := by
  unfold State.distant
  rw [h]; simp

/-- An access at this module's memory changes nothing but the classes and the holders of its lines. -/
theorem reach_keeps {s : State} (h : Idle s) (hp : s.partials = []) (hl : s.lock = none)
    (hw : ∀ x ∈ s.warps, ∀ L, L < 32 → (x.2.thread L).tx = none) {b : By} (hn : b.agent.holder < 32)
    (write : Bool) (size : Nat) (nc : Bool) {pa : Nat} (hpa : pa / 2 ^ 48 = s.pkg) (n : Nat) : Keeps s (s.reach b write size nc pa n) := by
  unfold State.reach
  split
  · have e0 : s.settle pa n = s := by rw [State.settle, forwardLines_of_none hp, foldLines_of_none h.shadows]
    simp only [e0]
    have k1 := ownLines_keeps h hn write pa n
    have k2 := keeps_trans k1 (classify_keeps (k1.idle h) b size nc pa)
    have k3 := keeps_trans k2 (classify_keeps (k2.idle h) b size nc (pa + n - 1))
    generalize ((s.ownLines b.agent write pa n).classify b size nc pa).classify b size nc (pa + n - 1) = t at k3 ⊢
    have hw' : ∀ x ∈ t.warps, ∀ L, L < 32 → (x.2.thread L).tx = none := by rw [k3.looked]; exact hw
    have hl' : t.lock = none := by rw [k3.looked]; exact hl
    rw [observe_of_none hw' (k3.idle h).harts, lockInsert_of_free hl', distant_of_home hpa, Bool.and_false]
    exact k3
  · rw [distant_of_home hpa, Bool.and_false]
    exact keeps_self h

/-! ## Nothing waits -/

theorem inTheWay_held {e : DirEntry} {h : Nat} {r : DirReq} {x : Nat} (hx : x ∈ e.inTheWay h r) : x ∈ e.held := by
  revert hx
  unfold DirEntry.inTheWay DirEntry.held
  rcases e.state with _ | _ | _ <;> rcases r with _ | _ <;> dsimp only
  all_goals first | (intro hx; exact absurd hx List.not_mem_nil) | (intro hx; exact (List.mem_filter.mp hx).1) | (intro hx; split at hx; exacts [absurd hx List.not_mem_nil, hx])
theorem lineAway_of_atHand {s : State} (h : AtHand s) (who : Agent) (write : Bool) {x : Nat} (hx : lineHome x = s.pkg) :
    s.lineAway who write x = false := by
  have e := h.entries (s.unitKey x)
  have w : ((s.dirEntry (s.unitKey x)).inTheWay who.holder (askFor write)).any
      (fun h => 32 ≤ h || (s.dirEntry (s.unitKey x)).unacked.contains h) = false := by
    rw [List.any_eq_false]
    intro y hy
    have := e.held y (inTheWay_held hy)
    simp [e.unacked]; omega
  unfold State.lineAway
  rw [if_pos hx]
  dsimp only
  rw [w, e.queue, e.recalls, h.holders, roomWaits_of_atHand h]
  simp
theorem lineHome_of_homed {s : State} {pa n x : Nat} (h : HomedHere s pa n) (hx : x ∈ linesOf pa n) : lineHome x = s.pkg := by
  simp only [linesOf, mem_dedup, List.mem_map, List.mem_range] at hx
  obtain ⟨i, hi, rfl⟩ := hx
  have := h i hi
  unfold lineHome
  omega
theorem awaits_of_atHand {s : State} (h : AtHand s) (who : Agent) (write : Bool) {pa n : Nat} (hn : 0 < n) (hh : HomedHere s pa n) :
    s.awaits who write pa n = false := by
  have e : ((linesOf pa n).any fun x => s.lineAway who write x) = false := by
    rw [List.any_eq_false]
    intro x hx
    rw [lineAway_of_atHand h who write (lineHome_of_homed hh hx)]; simp
  unfold State.awaits
  rw [e, distant_of_home (by simpa using hh 0 hn)]
  simp
theorem lockBlocks_of_free {s : State} (h : AtHand s) (hl : s.lock = none) (hp : ∀ who pa n, s.promotes who pa n = false)
    (who : Agent) (write : Bool) {pa n : Nat} (hn : 0 < n) (hh : HomedHere s pa n) : s.lockBlocks who write pa n = false := by
  simp [State.lockBlocks, awaits_of_atHand h who write hn hh, State.lockHits, hl, hp]

/-! ## What the words Calm and Quiet give -/

theorem idle_of_calm {s : State} (h : Calm s) : Idle s := ⟨h.harts, h.shadows, atHand_of_noCopies h.lines⟩
theorem idle_of_quiet {s : State} (h : Quiet s) : Idle s := ⟨h.harts, h.shadows, atHand_of_noCopies h.lines⟩
theorem observe_of_calm {s : State} (h : Calm s) (who : Agent) (write : Bool) (pa n : Nat) : s.observe who write pa n = s :=
  observe_of_none h.warps h.harts who write pa n
theorem lockBlocks_of_calm {s : State} (h : Calm s) (who : Agent) (write : Bool) {pa n : Nat} (hn : 0 < n) (hh : HomedHere s pa n) :
    s.lockBlocks who write pa n = false :=
  lockBlocks_of_free (atHand_of_noCopies h.lines) h.lock (promotes_of_none h.classes) who write hn hh
theorem reach_of_calm {s : State} (h : Calm s) {b : By} (hn : b.agent.holder < 32) (write : Bool) (size : Nat) (nc : Bool) {pa : Nat}
    (hpa : pa / 2 ^ 48 = s.pkg) (n : Nat) : Keeps s (s.reach b write size nc pa n) :=
  reach_keeps (idle_of_calm h) h.partials h.lock h.warps hn write size nc hpa n
theorem walksUnseen_of_calm {s : State} (h : Calm s) : s.walksUnseen = true := by
  simp only [State.walksUnseen, h.shadows, h.partials, h.classes, decide_true, Bool.true_and, List.all_eq_true]
  intro x hx
  simp [(h.harts x hx).1]
theorem hartTouch_of_calm {s : State} (h : Calm s) (n : Nat) (k : HKind) (va : W64) : s.hartTouch n k va = s := by
  simp [State.hartTouch, walksUnseen_of_calm h]
theorem observe_of_quiet {s : State} (h : Quiet s) (who : Agent) (write : Bool) (pa n : Nat) : s.observe who write pa n = s :=
  observe_of_none h.warps h.harts who write pa n
theorem lockBlocks_of_quiet {s : State} (h : Quiet s) (who : Agent) (write : Bool) {pa n : Nat} (hn : 0 < n) (hh : HomedHere s pa n) :
    s.lockBlocks who write pa n = false :=
  lockBlocks_of_free (atHand_of_noCopies h.lines) h.lock h.promoted who write hn hh
theorem reach_of_quiet {s : State} (h : Quiet s) {b : By} (hn : b.agent.holder < 32) (write : Bool) (size : Nat) (nc : Bool) {pa : Nat}
    (hpa : pa / 2 ^ 48 = s.pkg) (n : Nat) : Keeps s (s.reach b write size nc pa n) :=
  reach_keeps (idle_of_quiet h) h.partials h.lock h.warps hn write size nc hpa n
/-- The reads of a walk leave every line at hand. -/
theorem touchPages_of_quiet {s : State} (h : Quiet s) (k : AKind) (ps : List Span) : Keeps s (s.touchPages k ps) := by
  have one : ∀ (t : State) (a : Nat), Idle t ∧ t.partials = [] ∧ (∀ x ∈ t.warps, ∀ L, L < 32 → (x.2.thread L).tx = none) → Keeps t (t.readRaw a 8) := by
    rintro t a ⟨hi, hp, hw⟩
    unfold State.readRaw
    rw [State.settle, forwardLines_of_none hp, foldLines_of_none hi.shadows, observe_of_none hw hi.harts]
    exact classifyRaw_keeps hi a 8
  have rest : ∀ (l : List Nat) (t : State), Idle t ∧ t.partials = [] ∧ (∀ x ∈ t.warps, ∀ L, L < 32 → (x.2.thread L).tx = none) →
      Keeps t (l.foldl (fun (s : State) a => s.readRaw a 8) t) := by
    intro l
    induction l with
    | nil => exact fun t ht => keeps_self ht.1
    | cons a r ih =>
      intro t ht
      have k := one t a ht
      exact keeps_trans k (ih _ ⟨k.idle ht.1, by rw [k.looked]; exact ht.2.1, by rw [k.looked]; exact ht.2.2⟩)
  have walk : ∀ (l : List Nat) (t : State), Idle t ∧ t.partials = [] ∧ (∀ x ∈ t.warps, ∀ L, L < 32 → (x.2.thread L).tx = none) →
      Keeps t (l.foldl (fun (s : State) p => s.touchWalk (s.coreNum / 48) s.gr.ctx (BitVec.ofNat 64 (p * 4096)) k) t) := by
    intro l
    induction l with
    | nil => exact fun t ht => keeps_self ht.1
    | cons p r ih =>
      intro t ht
      have k1 : Keeps t (t.touchWalk (t.coreNum / 48) t.gr.ctx (BitVec.ofNat 64 (p * 4096)) k) := by
        unfold State.touchWalk
        split
        · exact keeps_self ht.1
        · exact rest _ t ht
      exact keeps_trans k1 (ih _ ⟨k1.idle ht.1, by rw [k1.looked]; exact ht.2.1, by rw [k1.looked]; exact ht.2.2⟩)
  unfold State.touchPages
  split
  · exact keeps_self (idle_of_quiet h)
  · exact walk _ s ⟨idle_of_quiet h, h.partials, h.warps⟩
theorem classifyRaw_of_calm {s : State} (h : Calm s) (pa n : Nat) : s.classifyRaw pa n = s := by simp [State.classifyRaw, h.classes]; rw [← h.classes]

end Sys2Proof.Laws
end

