-- ==== Sys2Proof/Laws/Trap.lean ====
section
/-! SUPPORT. Laws of the ends of an issue: transfers and their targets, waits and stalls, the guard of transactions, and taking a trap. -/

namespace Sys2Proof.Laws

open Machine

/-! ## Transfers -/

theorem moved_jump_of {s t : State} (pc : W64) (h : OnlyWarp s t) (hr : RegsKept s t noReg noLane noReg) (hs : t.w.special = s.w.special)
    (ht : t.w.threads = s.w.threads) : Moved s (t.jump pc) noReg pc := by
  refine ⟨onlyWarp_jump h _, ⟨fun n hn => ?_, fun n L hn => ?_, fun n hn => ?_⟩, ?_, goOn_jump _ _ _ (onlyWarp_iss h) ht⟩
  · rw [jump_rdS]; exact hr.uniform n hn
  · rw [jump_rdV]; exact hr.vector n L hn
  · rw [jump_rdM]; exact hr.mask n hn
  · unfold SameSpecial; rw [jump_special, hs]
/-- A taken transfer changes nothing but where the threads of the issue set stand. -/
theorem moved_jump (s : State) (pc : W64) : Moved s (s.jump pc) noReg pc :=
  moved_jump_of pc (onlyWarp_refl s) ⟨fun _ _ => rfl, fun _ _ _ => rfl, fun _ _ => rfl⟩ rfl rfl
theorem moved_advance (s : State) : Moved s s.advance noReg (s.iss.base + 4) := moved_jump s _

theorem toInt_ofNat_eq_sext {n : Nat} (hn : 0 < n) (v : Nat) : (BitVec.ofNat n v).toInt = sext n v := by
  have e : 2 ^ n = 2 * 2 ^ (n - 1) := by rw [← Nat.pow_succ']; congr 1; omega
  simp only [BitVec.toInt, BitVec.toNat_ofNat, sext]
  split <;> split <;> first | rfl | omega
theorem target_eq {n : Nat} (hn : 0 < n) (s : State) (off : Nat) : s.target n off = wordTarget s n off := by
  unfold State.target wordTarget
  congr 1
  rw [scaled, w64, BitVec.ofInt_mul, BitVec.signExtend, toInt_ofNat_eq_sext hn]
  rfl

/-! ## Transactions -/

theorem getLsbD_inTx (w : Warp) (set : W32) (L : Nat) (h : L < 32) : (w.inTx set).getLsbD L = (set.getLsbD L && (w.thread L).tx.isSome) :=
  getLsbD_maskOf _ L h
theorem inTx_eq_zero {w : Warp} {set : W32} (h : ∀ L, L < 32 → set.getLsbD L = true → (w.thread L).tx = none) : w.inTx set = 0 := by
  apply BitVec.eq_of_getLsbD_eq
  intro i hi
  rw [getLsbD_inTx w set i hi]
  cases hs : set.getLsbD i with
  | false => simp
  | true => simp [h i hi hs]
/-- Without a transaction the guard does nothing. -/
theorem txGuard_of_noTx {s : State} (h : NoTx s) (code : Nat) : s.txGuard code = s := by
  simp [State.txGuard, inTx_eq_zero h.2]
theorem txGuardAct_of_noTx {s : State} {act : W32} (h : ∀ L, L < 32 → act.getLsbD L = true → (s.w.thread L).tx = none) (code : Nat) :
    s.txGuardAct act code = s := by simp [State.txGuardAct, inTx_eq_zero h]
theorem emptied_of_noTx {s : State} (h : NoTx s) : s.emptied = false := by simpa [State.emptied] using h.1

theorem modThreads_of_zero (w : Warp) (f : Thread → Thread) : w.modThreads 0 f = w := by
  have e : (vtab 32 fun t => if (0 : W32).getLsbD t = true then f (w.thread t) else w.thread t) = w.threads := by
    rw [show (fun t => if (0 : W32).getLsbD t = true then f (w.thread t) else w.thread t) = w.thread from by funext t; simp]
    apply Vector.ext
    intro i hi
    simp [vtab, Warp.thread, vget, List.getD_eq_getElem?_getD, hi]
  simp only [Warp.modThreads, e]
theorem dropFlights_of_zero (w : Warp) : w.dropFlights 0 = w := if_pos rfl
theorem endTx_of_zero (s : State) : s.endTx s.iss.key 0 = s.setWarp s.iss.key s.w := by
  simp only [State.endTx, modThreads_of_zero, dropFlights_of_zero, State.releaseSlots, warp_setWarp]
  rw [if_pos]
  · rfl
  · simp

/-! ## Waits and stalls -/

theorem stalls_stall (s : State) : Stalls s s.stall := by
  refine ⟨onlyWarp_modW s _, ⟨fun n _ => ?_, fun n L _ => ?_, fun n _ => ?_⟩, ?_, ?_, ?_⟩
  · simp only [State.rdS, State.stall, w_modW]
  · simp only [State.stall, w_modW]; rfl
  · simp only [State.stall, w_modW]; rfl
  · simp only [SameSpecial, State.stall, w_modW, Warp.special]
  · simp only [State.stall, w_modW]
  · simp only [State.stall, w_modW]

/-! ## Traps -/

theorem enterTrap_thread (w : Warp) (h act : W32) (p : W64) (c : Nat) (d : W64) (L : Nat) (hL : L < 32) :
    (w.enterTrap h act p c d).thread L =
      if h.getLsbD L then { (w.thread L) with pc := w.tvec, wait := 0, status := .eligible }
      else if (w.thread L).status = .exited then w.thread L else { (w.thread L) with frozen := true } := by
  simp [Warp.enterTrap, Warp.thread, vget_vtab, hL]
theorem takeTrap_of_takes {t : State} {k : Nat} (htv : (t.warp k).tvec ≠ 0) (hh : (t.warp k).handler = false) (h act : W32) (p : W64) (c : Nat)
    (d : W64) : t.takeTrap k h act p c d = t.setWarp k ((t.warp k).enterTrap h act p c d) := by
  unfold State.takeTrap
  rw [if_neg (by simp only [htv, hh, decide_false, Bool.or_self, Bool.false_eq_true, not_false_eq_true])]
/-- The warp that takes a trap notes where its REP stands. -/
theorem trapAct_eq {s : State} (h : TrapTakes s) (act : W32) (cause : Nat) (detail : W64) :
    s.trapAct act cause detail = ((s.setWarp s.iss.key s.w).setWarp s.iss.key { s.w with rprog := s.iss.idx, rprogPc := s.iss.pc }).setWarp s.iss.key
      (Warp.enterTrap { s.w with rprog := s.iss.idx, rprogPc := s.iss.pc } s.iss.set act s.iss.pc cause detail) := by
  obtain ⟨htv, hh, htx⟩ := h
  have c : (cause != cTxMisuse && s.iss.set != 0 && decide (s.w.inTx s.iss.set = s.iss.set)) = false := by
    rw [htx]
    by_cases hz : s.iss.set = 0 <;> simp [hz]
    intro _ _ h0; exact hz h0.symm
  have m : (s.setWarp s.iss.key s.w).modW (fun w => if w.handler then w else { w with rprog := s.iss.idx, rprogPc := s.iss.pc }) =
      (s.setWarp s.iss.key s.w).setWarp s.iss.key { s.w with rprog := s.iss.idx, rprogPc := s.iss.pc } := by
    unfold State.modW State.modWarp
    rw [setWarp_iss, warp_setWarp]
    exact congrArg ((s.setWarp s.iss.key s.w).setWarp s.iss.key) (if_neg (by simp [hh]))
  unfold State.trapAct
  simp only [c, Bool.false_eq_true, if_false]
  rw [htx, endTx_of_zero, m, takeTrap_of_takes (by rw [warp_setWarp]; exact htv) (by rw [warp_setWarp]; exact hh), warp_setWarp]

/-- A synchronous trap outside transactions, with a handler and outside it, enters the handler. -/
theorem trapTaken_trapAct {s : State} (h : TrapTakes s) (act : W32) (cause : Nat) (detail : W64) :
    TrapTaken s (s.trapAct act cause detail) act cause detail := by
  rw [trapAct_eq h]
  have e : ∀ (u : State) (w w' : Warp), u.iss = s.iss → ((u.setWarp s.iss.key w).setWarp s.iss.key w').w = w' := by
    intro u w w' hu
    show ((u.setWarp s.iss.key w).setWarp s.iss.key w').warp ((u.setWarp s.iss.key w).setWarp s.iss.key w').iss.key = w'
    rw [setWarp_iss, setWarp_iss, hu, warp_setWarp]
  generalize hw : Warp.enterTrap _ _ _ _ _ _ = w'
  have hw2 := e (s.setWarp s.iss.key s.w) { s.w with rprog := s.iss.idx, rprogPc := s.iss.pc } w' rfl
  refine ⟨?_, ⟨fun n _ => ?_, fun n L _ => ?_, fun n _ => ?_⟩, ?_, ?_, ?_, ?_, ?_, ?_, ?_, ?_, ?_⟩
  · exact onlyWarp_trans (onlyWarp_trans (onlyWarp_setW s s.w) (onlyWarp_setW (s.setWarp s.iss.key s.w) _)) (onlyWarp_setW ((s.setWarp s.iss.key s.w).setWarp s.iss.key _) w')
  all_goals try (first | rw [State.rdS, hw2] | rw [hw2]); subst hw
  · rfl
  · rfl
  · rfl
  · rfl
  · rfl
  · rfl
  · rfl
  · rfl
  · rfl
  · intro L hL hs
    rw [enterTrap_thread _ _ _ _ _ _ _ hL, if_pos hs]; exact ⟨rfl, rfl, rfl⟩
  · intro L hL hs
    rw [enterTrap_thread _ _ _ _ _ _ _ hL, if_neg (by simp [hs])]; rfl
  · rfl

end Sys2Proof.Laws
end

