-- ==== Sys2Proof/Tests/Slice0.lean ====
section
/-! SUPPORT. Tests: ill-formed terms that WellFormed refuses, words written out from the encodings of the spec, worked examples of the
spec, and for each statement with hypotheses states and operands that meet them. -/

open Sys2Proof Sys2Proof.Machine
set_option maxRecDepth 4000
set_option Elab.async false

namespace Sys2Proof.Tests

/-! ## States -/

def p0 : Pre := ⟨none, none⟩
/-- The low 2^40 bytes translate to themselves on die 0. -/
def idMap : TlbEntry := ⟨0, 0, 0, 40, 0, 7, false⟩
/-- A warp in slot 0 of core 0, in a group with 64 KiB of scratchpad, two banks and a pool of two, stands at 0x1000 with a trap handler at
0x2000; all of its threads issue. -/
def base : State :=
  let s := State.reset.probeWarpPlaced
  { s with
    tlb := [idMap], moves := []
    iss := ⟨0, 0xFFFFFFFF, 0xFFFFFFFF, 0x1000, 0x1000, [0], 0, 0⟩
    warps := [(0, { probeWarp with tvec := 0x2000, vext := 8 })]
    groups := [(0, { probeGroup with slen := 0x10000, xreg := 4, xacc := 4, tilem := 0xF, own := 3, pool := 12, poolFree := 12 })] }
def withW (f : Warp → Warp) : State := base.modW f
def withG (f : Group → Group) : State := base.modG f
/-- A uniform register holds a value. -/
def withS (n : Nat) (v : W64) : State := withW fun w => { w with sregs := vset w.sregs n v }
/-- Two uniform registers hold values. -/
def withSS (n : Nat) (v : W64) (m : Nat) (u : W64) : State := withW fun w => { w with sregs := vset (vset w.sregs n v) m u }
/-- A lane register holds a value in every lane. -/
def withV (n : Nat) (v : W32) : State := withW fun w => { w with vregs := vset w.vregs n (Vector.replicate 32 v) }
/-- The issue set is thread 0. -/
def single (s : State) : State := { s with iss := { s.iss with set := 1, elig := 1 } }
/-- Thread 0 has another record. -/
def thread0 (f : Thread → Thread) : State := single (withW fun w => { w with threads := vset w.threads 0 (f (w.thread 0)) })

/-! ## Deciding the hypotheses -/

theorem regsHeld_of {s : State} {p : Pre} {uses : Nat → List (Nat × Nat)}
    (h : (∀ j, j < p.last + 1 → s.iss.idx ≤ j → ∀ u ∈ uses j, u.1 % u.2 = 0 ∧ ∀ i, i < u.2 → s.w.holdsV (u.1 + i) = true) ∧ s.w.flights = []) :
    RegsHeld s p uses := ⟨fun j h1 h2 => h.1 j (by omega) h1, by rw [RegsFree, h.2]; intro u _ f hf; cases hf⟩
theorem uses_of {i l : Nat} {Q : Nat → Prop} (h : ∀ j, j < l + 1 → i ≤ j → Q j) : ∀ j, i ≤ j → j ≤ l → Q j := fun j a b => h j (by omega) a
theorem regsFree_of {w : Warp} (us : List (Nat × Nat)) (h : w.flights = []) : RegsFree w us := by
  rw [RegsFree, h]; intro u _ f hf; cases hf
def walkOk : Walk → Bool
  | .ok _ _ _ => true
  | _ => false
theorem walkOk_iff {w : Walk} (h : walkOk w = true) : ∃ pa size nc, w = .ok pa size nc := by
  cases w <;> simp_all [walkOk]
/-- What Allows asks, as a proposition that can be decided. -/
abbrev allowsD (s : State) (k : AKind) (e : Eff) (va : W64) (n : Nat) : Prop :=
  canonical va = true ∧ canonical (va + BitVec.ofNat 64 (n - 1)) = true ∧
    (∀ i, i < n → walkOk (s.walk (s.coreNum / 48) s.gr.ctx (va + BitVec.ofNat 64 i) k) = true) ∧
    (∀ x ∈ s.pieces k va n, s.warpMay s.g x.pa x.n e = true) ∧ s.straddles (s.pieces k va n) = false ∧
    (∀ x ∈ s.pieces k va n, HomedHere s x.pa x.n) ∧ s.pagesAway k [⟨0, va, n⟩] = none
theorem allows_of {s : State} {k : AKind} {e : Eff} {va : W64} {n : Nat} (h : allowsD s k e va n) : Allows s k e va n :=
  ⟨⟨h.1, h.2.1⟩, fun i hi => walkOk_iff (h.2.2.1 i hi), h.2.2.2.1, h.2.2.2.2.1, h.2.2.2.2.2.1, h.2.2.2.2.2.2⟩
/-- No unit has a class, so that no access promotes one. -/
theorem promotes_of_none {s : State} (h : s.classes = []) (who : Agent) (pa n : Nat) : s.promotes who pa n = false := by simp [State.promotes, h]
/-- What Quiet asks, as a proposition that can be decided: without a class no access promotes one. -/
abbrev quietD (s : State) : Prop :=
  s.shadows = [] ∧ s.partials = [] ∧ s.lock = none ∧ (s.dir = [] ∧ s.holders = []) ∧ (∀ x ∈ s.warps, ∀ L, L < 32 → (x.2.thread L).tx = none) ∧
    (∀ x ∈ s.harts, x.2.tx = none ∧ x.2.lr = none) ∧ s.classes = [] ∧ NoneWaits s ∧ Alone s ∧ s.coreNum < 1152 ∧ (s.w.win = none ∧ s.gr.paired = false) ∧ s.iss.set ≠ 0
theorem quiet_of {s : State} (h : quietD s) : Quiet s :=
  have ⟨a, b, c, d, e, f, g, w, x, y, z, v⟩ := h
  ⟨a, b, c, d, e, f, promotes_of_none g, w, x, y, z, v⟩
theorem senderWaits_of {s : State} (h : HartsDrained s) (b : Sender) : s.senderWaits b = false := by
  simp only [State.senderWaits, h.1, List.any_nil, Bool.or_false, List.any_eq_false, Core.senderWaits]
  intro c hc
  simp [(h.2 c hc).1, (h.2 c hc).2]
/-- What Calm asks, as a proposition that can be decided: no store waits at a core. -/
abbrev calmD (s : State) : Prop :=
  s.shadows = [] ∧ s.partials = [] ∧ s.lock = none ∧ (s.dir = [] ∧ s.holders = []) ∧ (∀ x ∈ s.warps, ∀ L, L < 32 → (x.2.thread L).tx = none) ∧
    (∀ x ∈ s.harts, x.2.tx = none ∧ x.2.lr = none) ∧ s.classes = [] ∧ HartsDrained s
theorem calm_of {s : State} (h : calmD s) : Calm s :=
  have ⟨a, b, c, d, e, f, g, w⟩ := h
  ⟨a, b, c, d, e, f, g, fun k => senderWaits_of w (.hart k)⟩
theorem quiet_base : Quiet base := quiet_of (by decide +kernel)
theorem trap_base : TrapTakes base := by unfold TrapTakes; decide +kernel
theorem noTx_base : NoTx base := by unfold NoTx; decide +kernel
/-! ## Well-formedness: an ill-formed term for each check -/

/-- A register number, an immediate, an offset or a code that its field does not hold (R27 to R36), uniform instructions. -/
theorem test_wf_uniform_fields : ∀ i ∈ ([.sadd ⟨256, 0, .reg 0⟩, .ssub ⟨0, 256, .reg 0⟩, .smul ⟨0, 0, .reg 256⟩, .ssel ⟨0, 0, .imm 256⟩,
    .sbfx ⟨0, 0, .imm 128⟩, .sbfi ⟨0, 0, .imm 64⟩, .sbit 0 0 4, .sbit 256 0 0, .sli 0 (2 ^ 17), .slis 256 0, .sld ⟨none, 256, 0, 0⟩,
    .sldw ⟨none, 0, 256, 0⟩, .sst ⟨none, 0, 0, 512⟩, .sstw ⟨some ⟨8, false, none, 0, false, false, .core, .default, 0⟩, 0, 0, 0⟩,
    .sldk 0 0 512, .smovl ⟨0, 128, .imm 0⟩, .smovl ⟨0, 0, .imm 32⟩, .sb (2 ^ 25), .scall (2 ^ 25), .sbz 0 (2 ^ 17), .sbnz 256 0,
    .sblt 0 (2 ^ 17), .sloop 256 0, .sj 256, .scallr 256, .sprf 3 0 0, .sprf 0 256 0, .sprf 0 0 512, .sget 256 0, .sset 256 0, .trap 256,
    .sleep 256, .launch 256 0, .part 0, .part 6] : List Instr), i.wf = false := by decide +kernel
/-- The same for engines, buffers, collectives, transactions, barriers and events. -/
theorem test_wf_engine_fields : ∀ i ∈ ([.tcfg 16 0, .tld 0 256, .tst 16 0, .tldS 0 0 256, .mma 16 0 0, .mmaPair 0 16 0, .mma 0 0 256,
    .mdrnTile 0 false 16 0 0, .mdrnTile 0 false 0 8 0, .mdrnTile 0 false 0 0 4, .mdrnSpad 256 false .raw 0, .mdrnSpad 0 false .raw 256, .mchk 256,
    .mfix 256, .mzero 256, .mrty 256 0, .mgive 0 256, .mstatClo 256 0, .mstatChi 0 256, .mstat 256, .gstr 3 0 0 0, .gstr 0 8 0 0, .gstr 0 0 256 0,
    .cbdef 32 0 0, .cbget 0 32, .cbget 159 0, .cbput 32 0, .cbqry 256 0, .cblim 0 256, .waitq .copy 256, .waitk 0 0, .waitk 0 256, .xred 256,
    .xbc 256, .xshf 256, .xside 256, .xqry 0 2, .xqry 256 0, .txb (2 ^ 23), .txc 8, .txa 256, .txs 256, .barArrive .warp 1, .barWait .group 16,
    .barSync .gang 8, .barArrive .grid 4, .evb 16 0 0 0, .evb 0 1 0 0, .evb 12 1 8 0, .evb 13 2 4 0, .evb 14 3 1 0, .evb 0 0 0 256,
    .evmWr (2 ^ 16), .evmSet (2 ^ 16), .evmClr (2 ^ 16), .evclr (2 ^ 16), .wany 0, .wany (2 ^ 16), .takeV 0, .giveV 16, .takeA 0, .giveA 65]
    : List Instr), i.wf = false := by decide +kernel
/-- The same for lane instructions. -/
theorem test_wf_lane_fields : ∀ i ∈ ([.add ⟨p0, .i8, 128, 0, .reg 0⟩, .sub ⟨p0, .i8, 0, 128, .reg 0⟩, .mul ⟨p0, .i8, 0, 0, .reg 128⟩,
    .rot ⟨p0, .i8, 0, 0, .imm 128⟩, .addc ⟨p0, .i64, 0, 0, .reg 0⟩, .cmpeq ⟨p0, .i8, 8, 0, .reg 0⟩, .sel ⟨p0, .i16, 0, 0, .reg 0⟩,
    .bfx ⟨p0, .i8, 0, 0, .reg 0⟩, .bfx ⟨p0, .i32, 0, 0, .imm 4⟩, .bfi ⟨p0, .i64, 0, 0, .imm 64⟩, .bit (some .clz) ⟨p0, 0, 0, .reg 1⟩,
    .bit none ⟨p0, 0, 0, .imm 0⟩, .bit none ⟨p0, 0, 0, .imm 33⟩, .prmb ⟨p0, 0, 0, .imm 0⟩, .dot4 true true ⟨p0, 0, 0, .imm 0⟩,
    .cdot true ⟨p0, 0, 0, .imm 0⟩, .moviZ ⟨p0, 128, 0⟩, .moviS ⟨p0, 0, 2 ^ 16⟩, .movLane ⟨p0, 0, 0, .imm 32⟩, .shf .idx ⟨p0, 0, 0, .imm 32⟩,
    .movU p0 128 0 false, .movTu p0 0 256 false, .movC p0 0 256, .bsr true ⟨p0, 0, 0, .imm 33⟩, .bswSet p0 128, .bswReload p0 0 128,
    .bswQuery p0 128, .vote .any p0 8 0, .voteBallot p0 0 128, .fadd ⟨p0, .f32, 128, 0, 0⟩, .fdiv ⟨p0, .x2, 0, 0, 0⟩,
    .fcmpeq ⟨p0, .h2, 0, 0, 0⟩, .fcmplt ⟨p0, .f32, 8, 0, 0⟩, .func .rcp .x2 p0 0 0, .cvt .f32 .f32 p0 128 0, .cvtbTo .e4m3 p0 0 0 128,
    .cvtbFrom .e4m3 p0 128 0 0, .pfma ⟨p0, .f32, 0, 0, 0⟩, .tred ⟨p0, .int .add .i8, 0, 0, false⟩, .tred ⟨p0, .int .add .i32, 0, 0, true⟩,
    .segr ⟨p0, .int .add .i32, 0, 0, true⟩, .scan ⟨p0, .int .add .n16, 0, 0, true⟩, .meetOpen p0 8 0, .meetOpen p0 0 (2 ^ 19), .meetWait p0 8,
    .meetLeave p0 8, .brt p0 8 0, .brf p0 0 (2 ^ 22), .callv p0 (2 ^ 22), .jmpv p0 128, .ld ⟨p0, .i8, 128, 0, .reg 0⟩,
    .sts ⟨p0, .i8, 0, 0, .imm 128⟩, .atom ⟨p0, .int .add .i8, 0, 0, false⟩, .cpy ⟨p0, 3, 0, 0, 0⟩, .cpy ⟨p0, 0, 8, 0, 0⟩, .cpy ⟨p0, 0, 0, 64, 0⟩,
    .cpyBuf ⟨p0, 0, 0, false, false, 0, 64, 0⟩, .cpyBuf ⟨p0, 0, 0, false, false, 0, 0, 32⟩, .gath ⟨p0, 0, 0, 64, 0, 0⟩,
    .gath ⟨p0, 0, 0, 0, 128, 0⟩] : List Instr), i.wf = false := by decide +kernel
/-- Prefix words: fields too wide, REP before LB, LT and LE forms and JMPV (R37, R38, R41). -/
theorem test_wf_prefixes : ∀ i ∈ ([.add ⟨⟨some ⟨64, 0, 0, 0⟩, none⟩, .i8, 0, 0, .reg 0⟩, .add ⟨⟨some ⟨0, 8, 0, 0⟩, none⟩, .i8, 0, 0, .reg 0⟩,
    .add ⟨⟨none, some ⟨0, false, none, 128, false, false, .core, .default, 0⟩⟩, .i8, 0, 0, .reg 0⟩,
    .ld ⟨⟨none, some ⟨0, false, none, 0, false, false, .core, .default, 3⟩⟩, .i8, 0, 0, .reg 0⟩,
    .brt ⟨some ⟨0, 0, 0, 0⟩, none⟩ 0 0, .meetWait ⟨some ⟨0, 0, 0, 0⟩, none⟩ 0, .jmpv ⟨some ⟨0, 0, 0, 0⟩, none⟩ 0,
    .cpy ⟨⟨some ⟨0, 0, 0, 0⟩, none⟩, 0, 0, 0, 0⟩, .callv ⟨some ⟨0, 0, 0, 0⟩, none⟩ 0] : List Instr), i.wf = false := by decide +kernel
/-- Checks 1 to 4 of R43: a combination that R35 reserves, a REP past v127, an EXT field that the instruction does not take, and a register
or control number without a register. -/
theorem test_wf_static_checks : ∀ i ∈ ([.atom ⟨p0, .swap .i32, 0, 0, true⟩, .atom ⟨p0, .flt .fadd .e4m3, 0, 0, false⟩,
    .atoms ⟨p0, .flt .fadd .f16, 0, 0, true⟩, .atom ⟨p0, .cas .i32, 0, 0, false⟩, .cvtbTo .e4m3 p0 5 0 5,
    .add ⟨⟨some ⟨63, 7, 0, 0⟩, none⟩, .i32, 0, 0, .reg 0⟩, .add ⟨⟨some ⟨1, 1, 0, 0⟩, none⟩, .i32, 127, 127, .reg 127⟩,
    .add ⟨⟨none, some ⟨0, false, some .rtz, 0, false, false, .core, .default, 0⟩⟩, .i32, 0, 0, .reg 0⟩,
    .sadd ⟨160, 0, .reg 0⟩, .sadd ⟨0, 0, .reg 255⟩, .sget 0 0x15, .sget 0 0x80, .sset 0x13 0, .movC p0 0 0x84, .txs 160] : List Instr),
    i.wf = false := by decide +kernel
/-- Numbers that the module does not have (R2, R4), in dx instructions and in the hardware's steps. -/
theorem test_wf_hardware_numbers : ∀ i ∈ ([.dxLaunch 32 0, .dxWait 0 0 32, .dxTbegin 32, .dxTabort 32, .dxFqpop 0 32, .dxReplay 32, .dxKill 32,
    .dxCkptSave 32 0, .dxCkptRestore 0 32, .dxCkptQuery 32 0, .mcheckTake 73728, .warpSlotRelease 73728, .copyLine 73728 false,
    .gatherElement 73728, .engineOpRetire 73728 .copy, .sleepDeadline 0 32, .txRevalidateCount 73728 0, .mailboxWrite (.warp 0) 0 4 0 [],
    .mailboxClose (.warp 0) 73728 0 0 [], .mailboxDiscard 0 4, .mailboxRoom 73728 0, .slotBind 73728 [], .slotStop 73728, .slotFree 73728,
    .saveComplete 73728, .sliceExpiry 73728, .groupRetire 73728, .tlbInvalidate 1152 0, .invalidateComplete 1152, .matrixOpStart 1152,
    .mmaStep 1152 none, .coreWindowAccess (.warp 0) (2 ^ 53) (.load 1), .idle 64 ⟨0, 0, false, []⟩, .idleTimer 64, .linkReplayTimeout 64,
    .portDown 64, .packetCrcFailure 64, .reservedTypePacket 64, .portdown 0 64 0, .atomic 0 (.swap .i32) (2 ^ 53) 0 0 .rne false,
    .uncachedRead 0 (2 ^ 53) 1, .uncachedWrite 0 (2 ^ 53) [] 0, .contribution 0 (.int .add .i32) (2 ^ 53) 0 false none, .purge (2 ^ 16),
    .purgeack (2 ^ 16) 0, .failedPartRecovery (2 ^ 16), .frameReceive 8 [] true 0, .pauseStart 8 0, .pauseRepeat 8 0, .pauseAbandon 8 0,
    .dxrwWrite 16 0, .bandWrite 16 0, .csrWrite 68 0 0, .csrWrite 0 4096 0, .dxWaitTimeout 68, .hostInstruction 68 .mret, .hostInterrupt 68 0,
    .residueMismatch 0 33, .scrub 0 (2 ^ 11), .scrub (2 ^ 53) 0, .twinMatch 0 73728] : List Instr), i.wf = false := by decide +kernel
/-- Words of uniform arithmetic and constants (R28 to R30), written from the rows of the opcode table, field by field. -/
theorem test_decode_uniform_words : ∀ e ∈ ([(0b1_000000_10011111_01000010_10000001_0, .sadd ⟨159, 66, .reg 129⟩),
     (0b1_000001_01000001_10011110_11111110_1, .ssub ⟨65, 158, .imm 254⟩),
     (0b1_000010_10011111_01000100_01111111_0, .smul ⟨159, 68, .reg 127⟩),
     (0b1_000011_01000011_10011110_11111100_1, .smulh ⟨67, 158, .imm 252⟩),
     (0b1_000100_10011111_01000110_01111101_0, .sdiv ⟨159, 70, .reg 125⟩),
     (0b1_000101_01000101_10011110_11111010_1, .srem ⟨69, 158, .imm 250⟩),
     (0b1_000110_10011111_01001000_01111011_0, .sand ⟨159, 72, .reg 123⟩),
     (0b1_000111_01000111_10011110_11111000_1, .sor ⟨71, 158, .imm 248⟩),
     (0b1_001000_10011111_01001010_01111001_0, .sxor ⟨159, 74, .reg 121⟩),
     (0b1_001001_01001001_10011110_11110110_1, .sshl ⟨73, 158, .imm 246⟩),
     (0b1_001010_10011111_01001100_01110111_0, .sshr ⟨159, 76, .reg 119⟩),
     (0b1_001011_01001011_10011110_11110100_1, .ssra ⟨75, 158, .imm 244⟩),
     (0b1_001100_10011111_01001110_01110101_0, .smin ⟨159, 78, .reg 117⟩),
     (0b1_001101_01001101_10011110_11110010_1, .smax ⟨77, 158, .imm 242⟩),
     (0b1_001110_10011111_01010000_01110011_0, .sminn ⟨159, 80, .reg 115⟩),
     (0b1_001111_01001111_10011110_11110000_1, .smaxn ⟨79, 158, .imm 240⟩),
     (0b1_010000_10011111_01010010_01110001_0, .sseq ⟨159, 82, .reg 113⟩),
     (0b1_010001_01010001_10011110_11101110_1, .ssne ⟨81, 158, .imm 238⟩),
     (0b1_010010_10011111_01010100_01101111_0, .sslt ⟨159, 84, .reg 111⟩),
     (0b1_010011_01010011_10011110_11101100_1, .ssltn ⟨83, 158, .imm 236⟩),
     (0b1_010100_10011111_01010110_01101101_0, .ssel ⟨159, 86, .reg 109⟩),
     (0b1_010101_00000011_00000101_01111001_1, .sbfx ⟨3, 5, .imm 0x79⟩),
     (0b1_010110_00000011_00000101_10011100_0, .sbfi ⟨3, 5, .reg 0x9C⟩),
     (0b1_010111_00010001_01100011_00000010_1, .sbit 17 99 2),
     (0b1_011000_01100100_11111111111111111, .sli 100 0x1FFFF),
     (0b1_011001_01100101_10000000000000001, .slis 101 0x10001),
     (0b1_011010_01000000_01010000_111111111, .sld ⟨none, 64, 80, 511⟩),
     (0b1_011011_01000001_01010001_111111110, .sldw ⟨none, 65, 81, 510⟩),
     (0b1_011100_01000010_01010010_111111101, .sst ⟨none, 66, 82, 509⟩),
     (0b1_011101_01000011_01010011_111111100, .sstw ⟨none, 67, 83, 508⟩),
     (0b1_011110_01000110_01000111_100000000, .sldk 70 71 0x100),
     (0b1_011111_01000110_0_1111111_00011111_1, .smovl ⟨70, 127, .imm 31⟩)] : List (Nat × Instr)), (decode [e.1]).toOption = some (e.2, 1) := by decide +kernel
/-- Words of uniform branches and fences, written from the rows of the opcode table, field by field. -/
theorem test_decode_branch_words : ∀ e ∈ ([(0b1_100000_1111111111111111111111110, .sb 0x1FFFFFE),
     (0b1_100001_01011010_10000000000000000, .sbz 90 65536),
     (0b1_100010_01011011_10000000000000001, .sbnz 91 65537),
     (0b1_100011_01011100_10000000000000010, .sblt 92 65538),
     (0b1_100100_00000000_01001101_000000000, .sj 77),
     (0b1_100101_1000000000000000000000001, .scall 0x1000001),
     (0b1_100110_00000000_01001110_000000000, .scallr 78),
     (0b1_100111_0000000000000000000000000, .sret),
     (0b1_101000_01011101_10000000000000011, .sloop 93 65539),
     (0b1_101001_000_000_0000000000000000000, .fenceRel .core),
     (0b1_101001_001_001_0000000000000000000, .fenceAcq .gang),
     (0b1_101001_010_010_0000000000000000000, .fenceAr .module),
     (0b1_101001_011_100_0000000000000000000, .fenceSc .system),
     (0b1_101001_1000000000000000000000000, .fenceFetch)] : List (Nat × Instr)), (decode [e.1]).toOption = some (e.2, 1) := by decide +kernel
/-- Words of tiles, the matrix engine, gathers, buffers and waits, written from the rows of the opcode table, field by field. -/
theorem test_decode_engine_words : ∀ e ∈ ([(0b1_101010_1111_01111000_0000000000000, .tcfg 15 120),
     (0b1_101011_1110_01111001_0000000000000, .tld 14 121),
     (0b1_101011_1001_00100001_00101100_10000, .tldS 9 33 44),
     (0b1_101100_1101_01111010_0000000000000, .tst 13 122),
     (0b1_101101_0101_1010_01000100_000000000, .mma 5 10 68),
     (0b1_101101_0110_1001_01000101_100000000, .mmaPair 6 9 69),
     (0b1_101110_01000001_0_1_000_1101_110_10_000, .mdrnTile 65 true 13 6 2),
     (0b1_101110_01000010_1_0_100_01000011_0000, .mdrnSpad 66 false .e5m2 67),
     (0b1_101111_000_01010001_00000000000000, .mchk 81),
     (0b1_101111_001_01010010_00000000000000, .mfix 82),
     (0b1_101111_010_01010001_10001100_000000, .mrty 140 81),
     (0b1_101111_01100000000_10010110_000000, .mstat 150),
     (0b1_101111_011_01010010_10001101_000001, .mstatClo 141 82),
     (0b1_101111_011_01010011_10001110_000010, .mstatChi 142 83),
     (0b1_101111_100_01010011_00000000000000, .mzero 83),
     (0b1_101111_101_01010100_10001111_000000, .mgive 143 84),
     (0b1_110000_10_101_00111100_00111101_0000, .gstr 2 5 60 61),
     (0b1_110001_000_10101_00111100_00111101_0, .cbdef 21 60 61),
     (0b1_110001_001_10110_00111110_000000000, .cbget 62 22),
     (0b1_110001_010_10111_00111111_000000000, .cbput 23 63),
     (0b1_110001_011_11000_01000000_000000000, .cbqry 64 24),
     (0b1_110001_100_11001_01000001_000000000, .cblim 25 65),
     (0b1_110010_10_11001000_000000000000000, .waitq .matrix 200),
     (0b1_110011_00000101_000000000_10000001, .waitk 5 0x81)] : List (Nat × Instr)), (decode [e.1]).toOption = some (e.2, 1) := by decide +kernel
/-- Words of collectives, transactions, barriers, events and launch, written from the rows of the opcode table, field by field. -/
theorem test_decode_sync_words : ∀ e ∈ ([(0b1_110100_000_01100100_00000000000000, .xred 100),
     (0b1_110100_001_01100101_00000000000000, .xbc 101),
     (0b1_110100_010_01100110_00000000000000, .xshf 102),
     (0b1_110100_011_01100111_00000000000000, .xside 103),
     (0b1_110100_100_00011110_00000001_000000, .xqry 30 1),
     (0b1_110101_00_11111111111111111111111, .txb 0x7FFFFF),
     (0b1_110101_01_101_00000000000000000000, .txc 5),
     (0b1_110101_10000000000000000_10100101, .txa 0xA5),
     (0b1_110101_11_01011000_000000000000000, .txs 88),
     (0b1_110110_01_1111_0100000000000000000, .barArrive .group 15),
     (0b1_110110_10_0111_1000000000000000000, .barWait .gang 7),
     (0b1_110110_11_0011_1100000000000000000, .barSync .grid 3),
     (0b1_110111_00_1101_01_0110_00110111_00000, .evb 13 1 6 55),
     (0b1_110111_010000000_1000000000000001, .evmWr 32769),
     (0b1_110111_010100000_1000000000010001, .evmSet 32785),
     (0b1_110111_011000000_1000000000100001, .evmClr 32801),
     (0b1_110111_100000000_1000000000110001, .evclr 32817),
     (0b1_111000_000000000_1000000001000001, .wany 32833),
     (0b1_111001_00010011_00010100_000000000, .launch 19 20),
     (0b1_111010_000000000000000000000_1001, .takeV 9),
     (0b1_111010_010000000000000000000_0110, .giveV 6),
     (0b1_111010_100000000000000000_1000000, .takeA 64),
     (0b1_111010_110000000000000000_0000001, .giveA 1),
     (0b1_111011_0000000000000000000000_101, .part 5)] : List (Nat × Instr)), (decode [e.1]).toOption = some (e.2, 1) := by decide +kernel
/-- Words of prefetch and the SYS group, written from the rows of the opcode table, field by field. -/
theorem test_decode_sys_words : ∀ e ∈ ([(0b1_111100_000000_10_00100010_101010101, .sprf 2 34 0x155),
     (0b1_111110_000_00101000_01001010_000000, .sget 40 0x4A),
     (0b1_111110_001_00101001_00101010_000000, .sset 0x2A 41),
     (0b1_111110_0100000000000000000000000, .snop),
     (0b1_111110_0100000000000000001000000, .exit),
     (0b1_111110_0100000000000000010000000, .yield),
     (0b1_111110_010_11111110_00000011000000, .trap 0xFE),
     (0b1_111110_0100000000000000100000000, .brk),
     (0b1_111110_0100000000000000101000000, .rte),
     (0b1_111110_0100000000000000110000000, .snap),
     (0b1_111110_010_00001100_00000111000000, .sleep 12)] : List (Nat × Instr)), (decode [e.1]).toOption = some (e.2, 1) := by decide +kernel
/-- Words of lane integer instructions (R27, R32, R33), written from the rows of the opcode table, field by field. -/
theorem test_decode_lane_words : ∀ e ∈ ([(0b0_000000_000_1000000_1111111_0011110_0, .add ⟨⟨none, none⟩, .i8, 64, 127, .reg 30⟩),
     (0b0_000001_001_1000001_1111110_1111110_1, .sub ⟨⟨none, none⟩, .i16, 65, 126, .imm 126⟩),
     (0b0_000010_010_1000010_1111101_0100000_0, .mul ⟨⟨none, none⟩, .i32, 66, 125, .reg 32⟩),
     (0b0_000011_011_1000010_1111100_1111100_1, .mulh ⟨⟨none, none⟩, .i64, 66, 124, .imm 124⟩),
     (0b0_000100_100_1000100_1111011_0100010_0, .mad ⟨⟨none, none⟩, .n8, 68, 123, .reg 34⟩),
     (0b0_000101_101_1000101_1111010_1111010_1, .div ⟨⟨none, none⟩, .n16, 69, 122, .imm 122⟩),
     (0b0_000110_110_1000110_1111001_0100100_0, .rem ⟨⟨none, none⟩, .n32, 70, 121, .reg 36⟩),
     (0b0_000111_111_1000110_1111000_1111000_1, .min ⟨⟨none, none⟩, .n64, 70, 120, .imm 120⟩),
     (0b0_001000_000_1001000_1110111_0100110_0, .max ⟨⟨none, none⟩, .i8, 72, 119, .reg 38⟩),
     (0b0_001001_001_1001001_1110110_1110110_1, .and ⟨⟨none, none⟩, .i16, 73, 118, .imm 118⟩),
     (0b0_001010_010_1001010_1110101_0101000_0, .or ⟨⟨none, none⟩, .i32, 74, 117, .reg 40⟩),
     (0b0_001011_011_1001010_1110100_1110100_1, .xor ⟨⟨none, none⟩, .i64, 74, 116, .imm 116⟩),
     (0b0_001100_100_1001100_1110011_0101010_0, .shl ⟨⟨none, none⟩, .n8, 76, 115, .reg 42⟩),
     (0b0_001101_101_1001101_1110010_1110010_1, .shr ⟨⟨none, none⟩, .n16, 77, 114, .imm 114⟩),
     (0b0_001110_110_1001110_1110001_0101100_0, .rot ⟨⟨none, none⟩, .n32, 78, 113, .reg 44⟩),
     (0b0_001111_1_10_0000111_0001000_0001001_0, .addc ⟨⟨none, none⟩, .n32, 7, 8, .reg 9⟩),
     (0b0_010000_000_0000_111_0101000_1100011_0, .cmpeq ⟨⟨none, none⟩, .i8, 7, 40, .reg 99⟩),
     (0b0_010001_010_0000_110_0101001_1100100_1, .cmpne ⟨⟨none, none⟩, .i32, 6, 41, .imm 100⟩),
     (0b0_010010_100_0000_101_0101010_1100101_0, .cmplt ⟨⟨none, none⟩, .n8, 5, 42, .reg 101⟩),
     (0b0_010011_110_0000_100_0101011_1100110_1, .cmple ⟨⟨none, none⟩, .n32, 4, 43, .imm 102⟩),
     (0b0_010100_010_0000001_0000010_0000011_1, .sel ⟨⟨none, none⟩, .i32, 1, 2, .imm 3⟩),
     (0b0_010101_110_0000001_0000010_0011011_1, .bfx ⟨⟨none, none⟩, .n32, 1, 2, .imm 0x1B⟩),
     (0b0_010110_010_0000001_0000010_1011011_0, .bfi ⟨⟨none, none⟩, .i32, 1, 2, .reg 0x5B⟩),
     (0b0_010111_010_0001010_0001011_0000000_0, .bit (some .pop) ⟨⟨none, none⟩, 10, 11, .reg 0⟩),
     (0b0_010111_111_0001010_0001011_0100000_1, .bit none ⟨⟨none, none⟩, 10, 11, .imm 32⟩),
     (0b0_011000_000_0001010_0001011_0001100_0, .prmb ⟨⟨none, none⟩, 10, 11, .reg 12⟩),
     (0b0_011001_000_0001010_0001011_0001100_0, .dot4 true false ⟨⟨none, none⟩, 10, 11, .reg 12⟩),
     (0b0_011001_110_0001010_0001011_0001100_0, .dot4 false true ⟨⟨none, none⟩, 10, 11, .reg 12⟩),
     (0b0_011010_00_1_0010100_111111111111110, .moviZ ⟨⟨none, none⟩, 20, 0xFFFE⟩),
     (0b0_011010_01_1_0010100_000000000000001, .moviS ⟨⟨none, none⟩, 20, 0x8001⟩),
     (0b0_011010_10_0_0010101_001001000110100, .moviHi ⟨⟨none, none⟩, 21, 0x1234⟩),
     (0b0_011011_000_0010110_0010111_0011111_1, .movLane ⟨⟨none, none⟩, 22, 23, .imm 31⟩),
     (0b0_011011_001_0011000_10011111_00000_1_1, .movU ⟨none, none⟩ 24 159 true),
     (0b0_011011_010_0011001_10000011_0000001, .movC ⟨none, none⟩ 25 0x83),
     (0b0_011011_011_0011010_01100100_00000_0_1, .movTu ⟨none, none⟩ 26 100 false),
     (0b0_011100_00_1_0011011_0011100_0100000_1, .bsr true ⟨⟨none, none⟩, 27, 28, .imm 32⟩),
     (0b0_011101_00000000000000000_0011101_0, .bswSet ⟨none, none⟩ 29),
     (0b0_011101_001_0011110_0000000_0011111_0, .bswReload ⟨none, none⟩ 30 31),
     (0b0_011101_010_0100000_000000000000000, .bswQuery ⟨none, none⟩ 32),
     (0b0_011110_0_10_0100001_0100010_0100011_0, .shf .down ⟨⟨none, none⟩, 33, 34, .reg 35⟩),
     (0b0_011111_0_11_0000_101_0100100_00000000, .vote .eqv ⟨none, none⟩ 5 36),
     (0b0_011111_010_0100101_0100110_00000000, .voteBallot ⟨none, none⟩ 37 38)] : List (Nat × Instr)), (decode [e.1]).toOption = some (e.2, 1) := by decide +kernel
/-- Words of lane floating point and reductions (R32 to R35), written from the rows of the opcode table, field by field. -/
theorem test_decode_float_words : ∀ e ∈ ([(0b0_100000_000_0101000_0111100_1010000_0, .fadd ⟨⟨none, none⟩, .f64, 40, 60, 80⟩),
     (0b0_100001_001_0101010_0111110_1010010_0, .fsub ⟨⟨none, none⟩, .f32, 42, 62, 82⟩),
     (0b0_100010_010_0101100_1000000_1010100_0, .fmul ⟨⟨none, none⟩, .f16, 44, 64, 84⟩),
     (0b0_100011_011_0101110_1000010_1010110_0, .fma ⟨⟨none, none⟩, .bf16, 46, 66, 86⟩),
     (0b0_100100_100_0110000_1000100_1011000_0, .fmin ⟨⟨none, none⟩, .x2, 48, 68, 88⟩),
     (0b0_100101_101_0110010_1000110_1011010_0, .fmax ⟨⟨none, none⟩, .h2, 50, 70, 90⟩),
     (0b0_100110_0_10_0000001_0000010_0000011_0, .fdiv ⟨⟨none, none⟩, .f16, 1, 2, 3⟩),
     (0b0_100111_0_00_0000_011_0001010_0010100_0, .fcmpeq ⟨⟨none, none⟩, .f64, 3, 10, 20⟩),
     (0b0_101000_0_01_0000_100_0001100_0010110_0, .fcmplt ⟨⟨none, none⟩, .f32, 4, 12, 22⟩),
     (0b0_101001_0_10_0000_101_0001110_0011000_0, .fcmple ⟨⟨none, none⟩, .f16, 5, 14, 24⟩),
     (0b0_101010_0_11_0000_110_0010000_0011010_0, .fcmpun ⟨⟨none, none⟩, .bf16, 6, 16, 26⟩),
     (0b0_101011_001_0000101_0000110_0001001_1, .func .tanh .f32 ⟨none, none⟩ 5 6),
     (0b0_101100_100_0000111_0001000_1_0011_001, .cvt .e4m3 (.int .i64) ⟨none, none⟩ 7 8),
     (0b0_101101_0_10_0000001_0000010_0000011_0, .cvtbTo .e5m2 ⟨none, none⟩ 1 2 3),
     (0b0_101101_1_00_0000001_0000010_0000011_0, .cvtbFrom .e2m1 ⟨none, none⟩ 1 2 3),
     (0b0_101110_10_1_0000001_0000010_0000011_0, .pfma ⟨⟨none, none⟩, .h2, 1, 2, 3⟩),
     (0b0_101111_00_1_0000100_0000101_0000110_0, .cdot true ⟨⟨none, none⟩, 4, 5, .reg 6⟩),
     (0b0_110000_010_0000111_0001000_0_000001_1, .tred ⟨⟨none, none⟩, .int .min .i32, 7, 8, false⟩),
     (0b0_110001_000_0001000_0001010_1_001000_1, .scan ⟨⟨none, none⟩, .flt .fadd true, 8, 10, true⟩),
     (0b0_110010_110_0001001_0001010_0_000101_1, .segr ⟨⟨none, none⟩, .int .xor .n32, 9, 10, false⟩)] : List (Nat × Instr)), (decode [e.1]).toOption = some (e.2, 1) := by decide +kernel
/-- Words of meets, lane branches, memory and copies, written from the rows of the opcode table, field by field. -/
theorem test_decode_memory_words : ∀ e ∈ ([(0b0_110011_000_110_1111111111111111111, .meetOpen ⟨none, none⟩ 6 0x7FFFF),
     (0b0_110011_001_111_0000000000000000000, .meetWait ⟨none, none⟩ 7),
     (0b0_110011_010_001_0000000000000000000, .meetLeave ⟨none, none⟩ 1),
     (0b0_110100_101_1111111111111111111111, .brt ⟨none, none⟩ 5 0x3FFFFF),
     (0b0_110101_010_1000000000000000000000, .brf ⟨none, none⟩ 2 0x200000),
     (0b0_110110_000_0100100011010001010110, .callv ⟨none, none⟩ 0x123456),
     (0b0_110111_0000000000_1100011_00000000, .jmpv ⟨none, none⟩ 99),
     (0b0_111000_000_0111100_1000110_1111111_1, .ld ⟨⟨none, none⟩, .i8, 60, 70, .imm 127⟩),
     (0b0_111001_101_0111110_1001000_1111110_0, .st ⟨⟨none, none⟩, .n16, 62, 72, .reg 126⟩),
     (0b0_111010_010_1000000_1001010_1111101_1, .lds ⟨⟨none, none⟩, .i32, 64, 74, .imm 125⟩),
     (0b0_111011_111_1000010_1001100_1111100_0, .sts ⟨⟨none, none⟩, .n64, 66, 76, .reg 124⟩),
     (0b0_111100_011_0110010_0110100_00110_0_00, .atom ⟨⟨none, none⟩, .swap .i64, 50, 52, false⟩),
     (0b0_111100_111_0110010_0110100_01000_1_00, .atom ⟨⟨none, none⟩, .flt .fadd .e5m2, 50, 52, true⟩),
     (0b0_111101_110_0110011_0110101_00010_1_00, .atoms ⟨⟨none, none⟩, .int .max .n32, 51, 53, true⟩),
     (0b0_111110_01_110_000_100001_101100_00000, .cpy ⟨⟨none, none⟩, 1, 6, 33, 44⟩),
     (0b0_111110_10_011_100_100001_101100_10001, .cpyBuf ⟨⟨none, none⟩, 2, 3, true, true, 33, 44, 17⟩),
     (0b0_111110_00_011_001_100001_101100_10001, .cpyBuf ⟨⟨none, none⟩, 0, 3, false, false, 33, 44, 17⟩),
     (0b0_111111_10_100_011111_1100011_1100100, .gath ⟨⟨none, none⟩, 2, 4, 31, 99, 100⟩)] : List (Nat × Instr)), (decode [e.1]).toOption = some (e.2, 1) := by decide +kernel
/-- Words of the dx instructions (R46, R47), field by field. The three forms of dx.ckpt share their words. -/
theorem test_decode_host_words : ∀ e ∈ ([(0b0000000_00000_01011_000_01010_0001011, .dxLaunch 10 11),
     (0b0000000_11111_01100_001_00101_0001011, .dxWait 5 12 31),
     (0b0000000_00000_00000_010_00110_0001011, .dxTbegin 6),
     (0b0000001_00000_00000_010_00000_0001011, .dxTend),
     (0b0000010_00000_00111_010_00000_0001011, .dxTabort 7),
     (0b0000000_00000_01000_011_01001_0001011, .dxFqpop 9 8),
     (0b0000000_00000_01101_100_00000_0001011, .dxReplay 13),
     (0b0000000_00000_01110_101_00000_0001011, .dxKill 14),
     (0b0000000_00000_01111_110_10000_0001011, .dxCkptSave 16 15)] : List (Nat × Instr)), decodeHost e.1 = some e.2 := by decide +kernel
/-- The words that the spec gives as examples beside its assembly forms (R65, R150, R159, R161, R166, R168, R98, R293 to R306). -/
theorem test_decode_spec_examples : ∀ e ∈ ([(0xF8020802, .sprf 1 4 2), (0xF20A0800, .launch 5 4), (0xEC860000, .barSync .group 0),
    (0xED140000, .barWait .gang 2), (0xEE688280, .evb 13 0 4 20), (0xEEA01001, .evmSet 0x1001), (0xEF000100, .evclr 0x100), (0xF4000008, .takeV 8),
    (0xF5000004, .takeA 4), (0xF6000003, .part 3), (0x7D102940, .cpy ⟨p0, 2, 1, 5, 10⟩), (0x7D2428C3, .cpyBuf ⟨p0, 2, 2, true, false, 5, 6, 3⟩),
    (0x7EB0848C, .gath ⟨p0, 1, 3, 2, 9, 12⟩), (0xE0004050, .gstr 0 0 4 5), (0xE4000000, .waitq .copy 0), (0xE5010000, .waitq .matrix 2),
    (0xE60E0002, .waitk 7 2), (0xD4214000, .tcfg 1 10), (0xD6016000, .tld 0 11), (0xDA020C00, .mma 0 1 6), (0xDA020D00, .mmaPair 0 1 6),
    (0xDC0D80E0, .mdrnSpad 6 true .raw 14), (0xDC0C0230, .mdrnTile 6 false 2 1 2)] : List (Nat × Instr)),
    (decode [e.1]).toOption = some (e.2, 1) := by decide +kernel
/-- dx.wait a0, a1, a2 (R159). -/
theorem test_decode_dx_wait : decodeHost 0x00C5950B = some (.dxWait 10 11 12) := by decide +kernel
/-- A REP word and an EXT word before ADD, and an EXT word before SLD, field by field (R37, R38, R41). -/
theorem test_decode_prefixes :
    (decode [0b1_111111_01_000010_001_010_000_00000000, 0b1_111111_00_101_1_111_0000000_1_1_000_00_00,
      0b0_000000_010_0000100_0000101_0000110_1]).toOption =
      some (.add ⟨⟨some ⟨2, 1, 2, 0⟩, some ⟨5, true, none, 0, true, true, .core, .default, 0⟩⟩, .i32, 4, 5, .imm 6⟩, 3) ∧
    (decode [0b1_111111_00_000_0_111_0000000_0_0_010_11_01, 0b1_011010_00000111_00001000_111111110]).toOption =
      some (.sld ⟨some ⟨0, false, none, 0, false, false, .module, .bypass, 1⟩, 7, 8, 510⟩, 2) := by decide +kernel
/-! ## Witnesses: uniform instructions -/

theorem witness_uniform_operations : ∀ e ∈ uniformTable, (e.1 ⟨159, 159, .imm 255⟩).wf = true ∧ (e.1 ⟨0, 159, .reg 159⟩).wf = true := by decide +kernel
theorem witness_uniform_division : (Instr.sdiv ⟨159, 159, .reg 5⟩).wf = true ∧ (withS 5 (BitVec.allOnes 64)).opB (.reg 5) ≠ 0 := by decide +kernel
theorem witness_uniform_fields : (Instr.ssel ⟨159, 159, .imm 255⟩).wf = true ∧ (Instr.sbfx ⟨159, 159, .imm 127⟩).wf = true ∧
    (Instr.sbfi ⟨159, 159, .imm 63⟩).wf = true ∧ (Instr.sbit 159 159 3).wf = true ∧ (Instr.sli 159 0x1FFFF).wf = true ∧
    (Instr.slis 159 0x1FFFF).wf = true ∧ (Instr.smovl ⟨159, 127, .imm 31⟩).wf = true ∧ base.w.holdsV 127 = true ∧ RegsFree base.w [(127, 1)] := by
  repeat' apply And.intro
  all_goals first | decide +kernel | exact regsFree_of _ rfl
theorem witness_relative_branches : canonical (wordTarget base 25 0x1FFFFFF) = true ∧ canonical (wordTarget base 17 5) = true ∧
    (Instr.sloop 159 5).wf = true ∧ (withS 5 1).rdS 5 ≠ 0 ∧ base.rdS 5 = 0 ∧ (base.rdS 5).getLsbD 63 = false ∧ (withS 5 1).rdS 5 = 1 ∧
    (Instr.sloop 5 0x10000).wf = true := by decide +kernel
theorem witness_register_transfers :
    (((withS 5 0x4000).rdS 5).getLsbD 0 = false ∧ ((withS 5 0x4000).rdS 5).getLsbD 1 = false ∧ canonical ((withS 5 0x4000).rdS 5) = true) ∧
    ((withS 159 0x4000).rdS 159).getLsbD 0 = false ∧ ((withS 159 0x4000).rdS 159).getLsbD 1 = false ∧
    canonical ((withS 159 0x4000).rdS 159) = true := by decide +kernel
/-- The warp's code ends where the addresses do. -/
def edge (s : State) : State := { s with iss := { s.iss with pc := 0x00FFFFFFFFFFFFFC, base := 0x00FFFFFFFFFFFFFC } }
theorem witness_bad_transfers : TrapTakes (edge base) ∧ TrapTakes (edge (withS 5 0x8000000000000000)) ∧ TrapTakes (withS 5 2) ∧
    TrapTakes (withS 159 0x0100000000000000) ∧ canonical (wordTarget (edge base) 25 1) = false ∧ canonical (wordTarget (edge base) 17 1) = false ∧
    (edge base).rdS 5 = 0 ∧ (edge base).rdS 5 ≠ 1 ∧ ((edge (withS 5 0x8000000000000000)).rdS 5).getLsbD 63 = true ∧
    (edge (withS 5 0x8000000000000000)).rdS 5 ≠ 0 ∧ (withS 5 2).rdS 5 = 2 ∧ (2 : W64).toNat % 4 ≠ 0 ∧
    (withS 159 0x0100000000000000).rdS 159 = 0x0100000000000000 ∧ (0x0100000000000000 : W64).toNat % 4 = 0 ∧
    canonical 0x0100000000000000 = false := by decide +kernel
theorem witness_control_reads : (∀ e ∈ controlTable base, (Instr.sget 159 e.1).wf = true) ∧
    ∀ n ∈ [0x28, 0x33, 0x34, 0x51], (Instr.sget 159 n).wf = true := by decide +kernel
theorem witness_control_writes : NoneAny base ∧ ∀ e ∈ controlWrites base.w (base.rdS 159), (Instr.sset e.1 159).wf = true := by
  refine ⟨?_, by decide +kernel⟩
  intro p hp; cases hp

/-! ## Witnesses: lane instructions -/

/-- An i64 add in its registers, the second and last issue of a REP. -/
def fWide (b : Opnd) : LRI := ⟨⟨some ⟨1, 2, 2, 0⟩, none⟩, .i64, 0, 2, b⟩
def second (s : State) : State := { s with iss := { s.iss with idx := 1 } }
theorem witness_lane_integer : (∀ e ∈ intTable, (e.make (fWide (.reg 6))).wf = true) ∧ (second base).iss.idx ≤ (fWide (.reg 6)).pre.last ∧
    RegsHeld (second base) (fWide (.reg 6)).pre (intUses (fWide (.reg 6)) 1) ∧
    RegsHeld (second base) (fWide (.reg 6)).pre (intUses (fWide (.reg 6)) 2) := by
  repeat' apply And.intro
  all_goals first | decide +kernel | exact uses_of (by decide +kernel) | exact regsFree_of _ rfl

theorem witness_lane_mad_and_division : (Instr.mad (fWide (.imm 127))).wf = true ∧ (Instr.div (fWide (.imm 127))).wf = true ∧
    (Instr.rem (fWide (.imm 127))).wf = true ∧ (second base).iss.idx ≤ (fWide (.imm 127)).pre.last ∧
    RegsHeld (second base) (fWide (.imm 127)).pre (fun j => intUses (fWide (.imm 127)) 2 j ++ [((fWide (.imm 127)).pre.vc j 0, 2)]) ∧
    RegsHeld (second base) (fWide (.imm 127)).pre (intUses (fWide (.imm 127)) 2) ∧
    ∀ L, L < 32 → ((second base).act (fWide (.imm 127)).pre).getLsbD L = true → intB (second base) (fWide (.imm 127)) L ≠ 0 := by
  repeat' apply And.intro
  all_goals first | decide +kernel | exact uses_of (by decide +kernel) | exact regsFree_of _ rfl

theorem witness_division_by_zero : TrapTakes base ∧ base.opB (.reg 159) = 0 ∧ RegsHeld base p0 (intUses ⟨p0, .i32, 7, 7, .reg 7⟩ 1) ∧
    (base.act p0).getLsbD 0 = true ∧ intB base ⟨p0, .i32, 7, 7, .reg 7⟩ 0 = 0 ∧
    ∀ K, K < 0 → (base.act p0).getLsbD K = true → intB base ⟨p0, .i32, 7, 7, .reg 7⟩ K ≠ 0 := by
  repeat' apply And.intro
  all_goals first | decide +kernel | exact uses_of (by decide +kernel) | exact regsFree_of _ rfl

/-- An EXT word that names m7, inverted. -/
def eMask : Ext := ⟨7, true, none, 0, false, false, .core, .default, 0⟩
def pMask : Pre := ⟨none, some eMask⟩
theorem witness_addc_and_sel : (Instr.addc ⟨pMask, .n32, 7, 7, .reg 7⟩).wf = true ∧ (Instr.sel ⟨pMask, .i64, 6, 6, .reg 6⟩).wf = true ∧
    RegsHeld base pMask (intUses ⟨pMask, .n32, 7, 7, .reg 7⟩ 1) ∧ RegsHeld base pMask (intUses ⟨pMask, .i64, 6, 6, .reg 6⟩ 2) ∧
    base.iss.idx ≤ pMask.last := by
  repeat' apply And.intro
  all_goals first | decide +kernel | exact uses_of (by decide +kernel) | exact regsFree_of _ rfl

theorem witness_lane_compares : (∀ e ∈ compareTable, (e.1 ⟨p0, .n64, 7, 6, .reg 6⟩).wf = true) ∧
    RegsHeld base p0 (fun j => (p0.a j 6, 2) :: (Opnd.reg 6).use p0 j 2) := ⟨by decide +kernel, regsHeld_of (by decide +kernel)⟩
theorem witness_lane_bit_fields : (Instr.bfx ⟨p0, .n64, 6, 6, .imm 63⟩).wf = true ∧ (Instr.bfi ⟨p0, .i32, 7, 7, .reg 7⟩).wf = true ∧
    RegsHeld base p0 (intUses ⟨p0, .n64, 6, 6, .imm 63⟩ 1) ∧
    RegsHeld base p0 (fun j => intUses ⟨p0, .i32, 7, 7, .reg 7⟩ 1 j ++ [(p0.vc j 7, 1)]) := by
  repeat' apply And.intro
  all_goals first | decide +kernel | exact uses_of (by decide +kernel) | exact regsFree_of _ rfl

theorem witness_lane_bit_functions : (∀ fn ∈ [BitFn.clz, .ctz, .pop, .brev, .neg, .abs, .not], (Instr.bit (some fn) ⟨p0, 7, 7, .reg 0⟩).wf = true) ∧
    (Instr.bit none ⟨p0, 7, 7, .imm 32⟩).wf = true ∧ (Instr.bit none ⟨p0, 7, 7, .reg 7⟩).wf = true ∧ (Instr.prmb ⟨p0, 7, 7, .reg 7⟩).wf = true ∧
    (Instr.dot4 true true ⟨p0, 7, 7, .reg 7⟩).wf = true ∧ RegsHeld base p0 (fun j => [(p0.d j 7, 1), (p0.a j 7, 1)]) ∧
    RegsHeld base p0 (fun j => (p0.d j 7, 1) :: (p0.a j 7, 1) :: (Opnd.reg 7).use p0 j 1) ∧
    RegsHeld base p0 (fun j => (p0.d j 7, 1) :: (p0.a j 7, 1) :: ((Opnd.reg 7).use p0 j 1 ++ [(p0.vc j 7, 1)])) := by
  repeat' apply And.intro
  all_goals first | decide +kernel | exact uses_of (by decide +kernel) | exact regsFree_of _ rfl

theorem witness_moves : (Instr.moviZ ⟨p0, 7, 0xFFFF⟩).wf = true ∧ (Instr.movLane ⟨p0, 7, 7, .imm 31⟩).wf = true ∧ (Instr.movU p0 7 159 true).wf = true ∧
    (Instr.movC p0 7 0x83).wf = true ∧ (Instr.movTu p0 7 159 true).wf = true ∧ RegsHeld base p0 (fun j => [(p0.d j 7, 1)]) ∧
    RegsHeld base p0 (fun j => (p0.d j 7, 1) :: (p0.a j 7, 1) :: (Opnd.imm 31).use p0 j 1) ∧ (base.act p0).getLsbD 0 = true ∧
    ∀ K, K < 0 → (base.act p0).getLsbD K = false := by
  repeat' apply And.intro
  all_goals first | decide +kernel | exact uses_of (by decide +kernel) | exact regsFree_of _ rfl

theorem witness_bit_streams : (Instr.bsr true ⟨p0, 7, 6, .imm 32⟩).wf = true ∧ (Instr.bswSet p0 7).wf = true ∧ (Instr.bswReload p0 6 7).wf = true ∧
    (Instr.bswQuery p0 7).wf = true ∧ RegsHeld base p0 (fun j => (p0.d j 7, 1) :: (p0.a j 6, 2) :: (Opnd.imm 32).use p0 j 1) ∧
    RegsHeld base p0 (fun j => [(p0.b j 7, 1)]) ∧ RegsHeld base p0 (fun j => [(p0.d j 6, 2), (p0.b j 7, 1)]) ∧
    RegsHeld base p0 (fun j => [(p0.d j 7, 1)]) := by
  repeat' apply And.intro
  all_goals first | decide +kernel | exact uses_of (by decide +kernel) | exact regsFree_of _ rfl

theorem witness_shuffles_and_votes : 1 ≤ base.w.part ∧ base.w.part ≤ 5 ∧ (Instr.shf .xor ⟨p0, 7, 7, .imm 31⟩).wf = true ∧
    (Instr.vote .eqv p0 7 7).wf = true ∧ (Instr.voteBallot p0 7 7).wf = true ∧
    RegsHeld base p0 (fun j => (p0.d j 7, 1) :: (p0.a j 7, 1) :: (Opnd.imm 31).use p0 j 1) ∧ RegsHeld base p0 (fun j => [(p0.a j 7, 1)]) ∧
    RegsHeld base p0 (fun j => [(p0.d j 7, 1), (p0.a j 7, 1)]) := by
  repeat' apply And.intro
  all_goals first | decide +kernel | exact uses_of (by decide +kernel) | exact regsFree_of _ rfl

theorem witness_float_operations : (∀ e ∈ floatTable, (e.1 ⟨p0, .f64, 6, 6, 6⟩).wf = true) ∧
    (∀ e ∈ floatCompareTable, (e.1 ⟨p0, .f64, 7, 6, 6⟩).wf = true) ∧
    RegsHeld base p0 (fun j => [(p0.d j 6, 2), (p0.a j 6, 2), (p0.b j 6, 2)] ++ [(p0.vc j 6, 2)]) ∧
    RegsHeld base p0 (fun j => [(p0.a j 6, 2), (p0.b j 6, 2)]) := by
  repeat' apply And.intro
  all_goals first | decide +kernel | exact uses_of (by decide +kernel) | exact regsFree_of _ rfl

theorem witness_float_functions : (Instr.func .rndi .f64 p0 6 6).wf = true ∧ (Instr.cvt .f64 (.int .i64) p0 6 6).wf = true ∧
    (Instr.cvtbTo .e2m1 p0 7 7 6).wf = true ∧ (Instr.cvtbFrom .e5m2 p0 7 7 6).wf = true ∧ (Instr.pfma ⟨p0, .x2, 7, 7, 7⟩).wf = true ∧
    (Instr.cdot true ⟨p0, 6, 7, .reg 7⟩).wf = true ∧ RegsHeld base p0 (fun j => [(p0.d j 6, 2), (p0.a j 6, 2)]) ∧
    RegsHeld base p0 (fun j => [(p0.d j 7, 1), (p0.a j 7, 1), (p0.b j 6, 1)]) ∧
    RegsHeld base p0 (fun j => [(p0.d j 7, 1), (p0.a j 7, 1), (p0.b j 7, 1), (p0.vc j 7, 1)]) ∧
    RegsHeld base p0 (fun j => (p0.d j 6, 2) :: (p0.a j 7, 1) :: ((Opnd.reg 7).use p0 j 1 ++ [(p0.vc j 6, 2)])) := by
  repeat' apply And.intro
  all_goals first | decide +kernel | exact uses_of (by decide +kernel) | exact regsFree_of _ rfl

theorem witness_lane_reductions : (Instr.tred ⟨p0, .flt .fmax true, 6, 6, false⟩).wf = true ∧ (Instr.scan ⟨p0, .int .xor .n64, 6, 6, true⟩).wf = true ∧
    (Instr.segr ⟨p0, .int .add .i64, 6, 6, false⟩).wf = true ∧ RegsHeld base p0 (fun j => [(p0.d j 6, 2), (p0.a j 6, 2)]) := by
  repeat' apply And.intro
  all_goals first | decide +kernel | exact uses_of (by decide +kernel) | exact regsFree_of _ rfl


/-! ## Witnesses: the SYS group, traps, barriers and events -/

/-- A context whose descriptor, in device memory at 0x10000, allows snapshots. -/
def withCtx : State := { base with dxctb := 0x10001, mem := [(0x10010, 1)] }
theorem witness_plain_sys : base.ctxSnapOk base.gr.ctx = false ∧ withCtx.ctxSnapOk withCtx.gr.ctx = true ∧ NoTx base ∧ base.rdS 5 = 0 ∧
    NoTx (withS 5 1) ∧ (withS 5 1).rdS 5 ≠ 0 := by decide +kernel
theorem witness_traps : TrapTakes base ∧ base.ctxSnapOk base.gr.ctx = false := ⟨trap_base, by decide +kernel⟩
/-- The warp is in its handler, with thread 0 in the handler set. -/
def inHandler : State := withW fun w => { w with handler := true, hset := 1, trappc := 0x1004, trapAt := 0x1004 }
/-- It has no handler, or returns to an address that is not canonical. -/
def noHandler : State := withW fun w => { w with tvec := 0 }
def badReturn : State := inHandler.modW fun w => { w with trappc := 0x8000000000000000 }
theorem witness_traps_that_end : (∀ s ∈ [noHandler, inHandler, badReturn], s.w.inTx s.iss.set = 0 ∧ (tget? s.grids s.g.grid).isSome ∧ s.g.gang < 2 ^ 32 ∧
      (s.gang s.g.gangKey).grid = s.g.grid ∧ ∀ k ∈ (s.gang s.g.gangKey).groups ++ (s.gang s.g.gangKey).twin, (s.group k).children = []) ∧
    noHandler.w.tvec = 0 ∧ inHandler.w.handler = true ∧ badReturn.w.handler = true ∧ canonical badReturn.w.trappc = false := by decide +kernel
theorem witness_return_from_trap : inHandler.w.handler = true ∧ canonical inHandler.w.trappc = true ∧
    ∀ p ∈ inHandler.w.parks, p.set &&& inHandler.w.hset = 0 := by decide +kernel
theorem witness_exit : base.w.handler = false ∧
    (∀ L, L < 32 → base.iss.set.getLsbD L = true → (base.w.thread L).tx = none ∧ (base.w.thread L).irr = false) ∧
    (∃ L, L < 32 ∧ (single base).iss.set.getLsbD L = false ∧ ((single base).w.thread L).status ≠ .exited) ∧
    (∀ m ∈ (single base).w.meets.toList, m.opened = false) ∧
    (∀ L, L < 32 → (base.w.thread L).status ≠ .exited → base.iss.set.getLsbD L = true) ∧ base.w.win = none ∧ NoTakes base ∧ base.g.matQ = [] ∧ base.iss.key < 2 ^ 30 ∧
    TrapTakes (thread0 fun x => { x with irr := true }) ∧ (thread0 fun x => { x with irr := true }).iss.set ≠ 0 ∧
    ∃ L, L < 32 ∧ (thread0 fun x => { x with irr := true }).iss.set.getLsbD L = true ∧
      ((thread0 fun x => { x with irr := true }).w.thread L).irr = true := by decide +kernel
/-- The warp has a remote store that is not acknowledged. -/
def withRemote : State := { base with remote := [(0, ⟨0, none, false, false, []⟩)], nextRemote := 1 }
/-- A load of it is under way. -/
def inFlight : State := withW fun w => { w with flights := [⟨.sload 5, 0xFFFFFFFF, 0, none, [], [], false, 0⟩] }
theorem witness_fences : base.w.win = none ∧ base.w.flights = [] ∧ NoneNear base ∧ NoneWaits base ∧ NoneOut base ∧ withRemote.w.win = none ∧ ¬NoneOut withRemote ∧
    NoneNear withRemote ∧ inFlight.w.win = none ∧ ¬(inFlight.w.flights = [] ∧ NoneNear inFlight) ∧
    ¬(inFlight.w.flights = [] ∧ NoneWaits inFlight ∧ NoneOut inFlight) ∧ Scope.gang ≠ .core := by decide +kernel
/-- Meet 7 is open with the threads 0 and 1. -/
def withMeet : State := withW fun w => { w with meets := vset w.meets 7 ⟨true, 0x1800, 3, 0⟩ }
theorem witness_meets : base.act p0 ≠ 0 ∧ canonical (wordTarget base 19 0x7FFFF) = true ∧ NoTx base ∧
    (vget ⟨false, 0, 0, 0⟩ base.w.meets 7).opened = false ∧ NoTx withMeet ∧ (vget ⟨false, 0, 0, 0⟩ withMeet.w.meets 7).opened = true ∧
    withMeet.act p0 &&& (vget ⟨false, 0, 0, 0⟩ withMeet.w.meets 7).members ≠ 0 ∧
    (∀ L, L < 32 → (vget ⟨false, 0, 0, 0⟩ withMeet.w.meets 7).members.getLsbD L = true →
      (withMeet.act p0 &&& (vget ⟨false, 0, 0, 0⟩ withMeet.w.meets 7).members).getLsbD L = true) ∧
    ((single withMeet).act p0 &&& (vget ⟨false, 0, 0, 0⟩ withMeet.w.meets 7).members).getLsbD 1 = false := by decide +kernel
theorem witness_lane_branches : canonical (wordTarget base 22 0x3FFFFF) = true ∧ base.w.holdsV 127 = true ∧
    (wordTarget base 22 1).toNat / 2 ^ 32 = (base.iss.base + 4).toNat / 2 ^ 32 ∧ canonical (wordTarget base 22 1) = true ∧
    (∀ L, L < 32 → (base.act p0).getLsbD L = true → (base.w.rdV 127 L).toNat % 4 = 0) ∧
    (∀ L, L < 32 → ¬((edge base).act p0).getLsbD L = true ∨ ¬((edge base).w.rdM 1).getLsbD L = true) ∧
    canonical (wordTarget (edge base) 22 1) = false ∧ base.w.flights = [] := by decide +kernel
/-- The first word of the 4 GiB after the warp's code. -/
def edge32 : State := { base with iss := { base.iss with pc := 0xFFFFFFF8, base := 0xFFFFFFF8 } }
/-- The warp holds no extended registers; v127 holds an odd address in lane 31 alone. -/
def fewRegs : State := withW fun w => { w with vext := 0 }
def oddTarget : State := withW fun w => { w with vregs := vset w.vregs 127 (vset (Vector.replicate 32 0) 31 2) }
theorem witness_bad_lane_branches : TrapTakes (edge base) ∧ canonical (wordTarget (edge base) 22 1) = false ∧ ((edge base).act p0).getLsbD 0 = true ∧
    (base.w.rdM 0).getLsbD 0 = true ∧ (base.w.rdM 1).getLsbD 0 = false ∧ TrapTakes fewRegs ∧ fewRegs.w.holdsV 127 = false ∧
    (edge base).w.holdsV 127 = true ∧ (edge base).w.flights = [] ∧ (edge base).act p0 ≠ 0 ∧ TrapTakes edge32 ∧
    (wordTarget edge32 22 2).toNat / 2 ^ 32 ≠ (edge32.iss.base + 4).toNat / 2 ^ 32 ∧ TrapTakes oddTarget ∧ oddTarget.w.holdsV 127 = true ∧
    oddTarget.w.flights = [] ∧ (oddTarget.act p0).getLsbD 31 = true ∧ (oddTarget.w.rdV 127 31).toNat % 4 ≠ 0 ∧
    ∀ K, K < 31 → (oddTarget.act p0).getLsbD K = true → (oddTarget.w.rdV 127 K).toNat % 4 = 0 := by decide +kernel
/-- The grid is co-resident. -/
def coResident : State := { base with grids := [(1, { probeGrid with lrec := { probeGrid.lrec with flags := 4 } })] }
/-- Every thread has arrived at barrier 15 of the group. -/
def arrived : State := withG fun g => { g with bars := vset g.bars 15 ⟨7, List.range 32⟩ }
theorem witness_barriers : (Instr.barArrive .group 15).wf = true ∧ (Instr.barArrive .gang 7).wf = true ∧ (Instr.barArrive .grid 3).wf = true ∧
    (Instr.barArrive .warp 0).wf = true ∧ coResident.gr.lrec.flags / 4 % 2 = 1 ∧ Released coResident ∧ coResident.iss.set ≠ 0 ∧
    coResident.g.copy ≤ 1 ∧ NoTx coResident ∧
    (∀ b ∈ [barrierNamed coResident .group 15, barrierNamed coResident .gang 7, barrierNamed coResident .grid 3, barrierNamed coResident .warp 0],
      ∀ L, L < 32 → (coResident.barrier b).arrived.contains (coResident.iss.key * 32 + L) = false) ∧
    Released arrived ∧ arrived.iss.set ≠ 0 ∧ NoTx arrived ∧
    (∀ L, L < 32 → (arrived.barrier (barrierNamed arrived .group 15)).arrived.contains (arrived.iss.key * 32 + L) = true) := by decide +kernel
theorem witness_grid_barrier_traps : TrapTakes base ∧ base.gr.lrec.flags / 4 % 2 = 0 ∧ NoTx base := ⟨trap_base, by decide +kernel, noTx_base⟩
theorem witness_event_instructions : (Instr.evb 15 3 15 159).wf = true ∧ (Instr.evb 0 0 0 159).wf = true ∧ (base.rdS 159).toNat % 4 = 0 ∧
    canonical (base.rdS 159) = true := by decide +kernel
/-- Event 15 is enabled and bound. -/
def bound15 : State := withW fun w => { w with evm := 0x8000, evh := vset w.evh 15 0x1400 }
/-- And pending. -/
def pending15 : State := withW fun w => { w with evm := 0x8001, evp := 0x8001, evh := vset (vset w.evh 15 0x1400) 0 0x1500 }
theorem witness_wany : NoTx base ∧ TrapTakes base ∧
    (∀ n, n < 16 → ¬(Nat.testBit 0xFFFF n = true ∧ base.w.evm.getLsbD n = true ∧ vget 0 base.w.evh n ≠ 0)) ∧
    NoTx pending15 ∧ (Nat.testBit 0x8001 15 = true ∧ pending15.w.evm.getLsbD 15 = true ∧ vget 0 pending15.w.evh 15 ≠ 0 ∧
      pending15.w.evp.getLsbD 15 = true ∧ canonical (vget 0 pending15.w.evh 15) = true ∧
      ∀ k, k < 16 → pending15.w.evp.getLsbD k = true → (15 + 4) % 16 ≤ (k + 4) % 16) ∧
    NoTx bound15 ∧ (Nat.testBit 0x8000 15 = true ∧ bound15.w.evm.getLsbD 15 = true ∧ vget 0 bound15.w.evh 15 ≠ 0) ∧
    ∀ n, n < 16 → bound15.w.evp.getLsbD n = false := by decide +kernel
/-- Three copies are outstanding, one of them under token 7. -/
def withCopies : State := withW fun w => { w with qcopy := 3, tokPend := vset w.tokPend 7 1 }
def withReport : State := withW fun w => { w with reports := [(5, 2)] }
theorem witness_engine_waits : NoTx base ∧ base.w.qcoll ≤ 0 ∧ base.w.reports = [] ∧ NoTx withCopies ∧ 2 < withCopies.w.qcopy ∧
    NoTx withReport ∧ withReport.w.qcoll ≤ 255 ∧ withReport.w.reports = [(5, 2)] ∧ TrapTakes withReport ∧ (Instr.waitk 159 0x80).wf = true ∧
    (∀ n, n < 8 → Nat.testBit 0x80 n = true → vget 0 base.w.tokPend n = 0) ∧
    ¬∀ n, n < 8 → Nat.testBit 0x80 n = true → vget 0 withCopies.w.tokPend n = 0 := by decide +kernel
theorem witness_takes_and_gives : NoTakes base ∧ AtIssue base ∧ MemoryCanonical base ∧ NoTx base ∧
    (ones (BitVec.ofNat 4 7 &&& ~~~base.w.vext) ≤ base.g.xreg ∧
      ((base.groupWarps base.g.key).map fun k => ones (base.warp k).vext).sum + ones (BitVec.ofNat 4 7 &&& ~~~base.w.vext) ≤ base.g.xreg) ∧
    (2 ≤ ones base.g.pool ∧ 2 ≤ ones base.g.poolFree) ∧ ∀ o ∈ base.g.matQ, ∀ b ∈ o.kind.bands, amongHighest base.w.acch 1 (b % 64) = false := by decide +kernel
/-! ## Witnesses: transactions -/

/-- Thread 0 is in a transaction that has read a word of 0x5000 and written a byte of 0x6000. -/
def inTx (seen : W64) : State := thread0 fun x => { x with tx := some ⟨0x1400, 0, [(0x5000, seen)], [(0x6000, 1)], false, 0⟩ }
/-- Thread 0 holds the fallback lock. -/
def lockHeld : State := { thread0 (fun x => { x with irr := true }) with lock := some ⟨0, 0, 0, 100, []⟩ }
/-- Thread 0 has aborted four times. -/
def tired : State := thread0 fun x => { x with retry := 4 }
theorem witness_transactions_begin : AtIssue base ∧ base.iss.set ≠ 0 ∧
    (∀ L, L < 32 → (base.w.thread L).tx = none ∧ (base.w.thread L).irr = false ∧ (base.w.thread L).retry < base.w.txlim) ∧
    base.gr.paired = false ∧ canonical (wordTarget base 23 0x7FFFFF) = true ∧ base.slotQueue = [] ∧ base.txSlots.length < 1024 ∧
    base.lockQueue = [] ∧ (∀ p ∈ base.w.parks, p.set ≠ base.iss.set) ∧ AtIssue tired ∧ tired.iss.set = BitVec.ofNat 32 (2 ^ 0) ∧
    tired.w.txlim ≤ (tired.w.thread 0).retry ∧ (tired.w.thread 0).tx = none ∧ (tired.w.thread 0).irr = false ∧ tired.lock = none ∧
    TrapTakes base ∧ TrapTakes lockHeld ∧ AtIssue lockHeld ∧ lockHeld.iss.set.getLsbD 0 = true ∧ (lockHeld.w.thread 0).irr = true := by decide +kernel
/-- A grid of paired gangs. -/
def pairedGrid : State := { base with grids := [(1, { probeGrid with lrec := { probeGrid.lrec with flags := 2 } })] }
theorem witness_transactions_paired : TrapTakes pairedGrid ∧ AtIssue pairedGrid ∧ pairedGrid.gr.paired = true := by decide +kernel
/-- Threads 0 and 1 issue: the first in a transaction and the second not, or both. -/
def pairOf (f g : Thread → Thread) : State :=
  { withW (fun w => { w with threads := vset (vset w.threads 0 (f (w.thread 0))) 1 (g (w.thread 1)) }) with iss := { base.iss with set := 3, elig := 3 } }
def began (seen : W64) (x : Thread) : Thread := { x with tx := some ⟨0x1400, 0, [(0x5000, seen)], [(0x6000, 1)], false, 0⟩ }
def mixedTx : State := pairOf (began 0) id
def bothTx : State := pairOf (began 0) (began 1)
theorem witness_misused_transactions : (∀ s ∈ [inTx 0, mixedTx, lockHeld], s.w.tvec ≠ 0 ∧ s.w.handler = false ∧ s.slotQueue = [] ∧ s.iss.set ≠ 0) ∧
    ((inTx 0).iss.set.getLsbD 0 = true ∧ ((inTx 0).w.thread 0).tx ≠ none) ∧ (mixedTx.iss.set.getLsbD 0 = true ∧ (mixedTx.w.thread 0).tx ≠ none) ∧
    (mixedTx.iss.set.getLsbD 1 = true ∧ (mixedTx.w.thread 1).tx = none ∧ (mixedTx.w.thread 1).irr = false) ∧
    (lockHeld.iss.set.getLsbD 0 = true ∧ (lockHeld.w.thread 0).irr = true ∧ (lockHeld.w.thread 0).tx = none) := by decide +kernel
/-- What the statement of a set asks of the words of each transaction. -/
abbrev homedD (s : State) (tx : Tx) : Prop := (∀ l ∈ tx.log, HomedHere s l.1 8 ∧ s.poisonedIn l.1 8 = false) ∧ ∀ b ∈ tx.buf, HomedHere s b.1 1
theorem witness_transactions_of_a_set : bothTx.iss.set ≠ 0 ∧ AtIssue bothTx ∧
    (∀ L, L < 32 → bothTx.iss.set.getLsbD L = true → (bothTx.w.thread L).tx ≠ none ∧ (bothTx.w.thread L).irr = false) ∧
    (bothTx.w.thread 0).tx = some ⟨0x1400, 0, [(0x5000, 0)], [(0x6000, 1)], false, 0⟩ ∧
    (bothTx.w.thread 1).tx = some ⟨0x1400, 0, [(0x5000, 1)], [(0x6000, 1)], false, 0⟩ ∧
    homedD bothTx ⟨0x1400, 0, [(0x5000, 0)], [(0x6000, 1)], false, 0⟩ ∧ homedD bothTx ⟨0x1400, 0, [(0x5000, 1)], [(0x6000, 1)], false, 0⟩ ∧ bothTx.commits = [] ∧ bothTx.lock = none ∧ Released bothTx ∧
    bothTx.lockQueue = [] ∧ bothTx.slotQueue = [] ∧ LinesSettled bothTx ∧ (Instr.txs 159).wf = true := by decide +kernel
theorem witness_transactions_commit : (inTx 0).iss.set = BitVec.ofNat 32 (2 ^ 0) ∧ AtIssue (inTx 0) ∧
    ((inTx 0).w.thread 0).tx = some ⟨0x1400, 0, [(0x5000, 0)], [(0x6000, 1)], false, 0⟩ ∧ ((inTx 0).w.thread 0).irr = false ∧
    (inTx 0).commits = [] ∧ (inTx 0).lock = none ∧ Released (inTx 0) ∧ (inTx 0).lockQueue = [] ∧ (inTx 0).slotQueue = [] ∧ LinesSettled (inTx 0) ∧
    homedD (inTx 0) ⟨0x1400, 0, [(0x5000, 0)], [(0x6000, 1)], false, 0⟩ ∧ (∀ l ∈ [((0x5000 : Nat), (0 : W64))], (inTx 0).getW64 l.1 = l.2 ∧ (inTx 0).poisonedIn l.1 8 = false) ∧
    ¬(∀ l ∈ [((0x5000 : Nat), (1 : W64))], (inTx 1).getW64 l.1 = l.2 ∧ (inTx 1).poisonedIn l.1 8 = false) := by decide +kernel
theorem witness_transactions_changed_word : (inTx 1).iss.set = BitVec.ofNat 32 (2 ^ 0) ∧ AtIssue (inTx 1) ∧
    ((inTx 1).w.thread 0).tx = some ⟨0x1400, 0, [(0x5000, 1)], [(0x6000, 1)], false, 0⟩ ∧ ((inTx 1).w.thread 0).irr = false ∧
    (inTx 1).commits = [] ∧ (inTx 1).lock = none ∧ Released (inTx 1) ∧ (inTx 1).lockQueue = [] ∧ (inTx 1).slotQueue = [] ∧
    LinesSettled (inTx 1) ∧ homedD (inTx 1) ⟨0x1400, 0, [(0x5000, 1)], [(0x6000, 1)], false, 0⟩ := by decide +kernel
theorem witness_transactions_locked_commit : lockHeld.iss.set = BitVec.ofNat 32 (2 ^ 0) ∧ AtIssue lockHeld ∧ (lockHeld.w.thread 0).tx = none ∧
    (lockHeld.w.thread 0).irr = true ∧ Released lockHeld ∧ lockHeld.lockQueue = [] ∧ lockHeld.lock ≠ none ∧ (Instr.txs 159).wf = true := by decide +kernel
theorem witness_instructions_abort : abortsWith (.launch 159 159) = some 5 ∧ abortsWith (.waitk 159 255) = some 6 ∧ (inTx 0).iss.set ≠ 0 ∧
    (inTx 0).slotQueue = [] ∧ (∀ L, L < 32 → (inTx 0).iss.set.getLsbD L = true → ((inTx 0).w.thread L).tx ≠ none) ∧ (inTx 0).act p0 = (inTx 0).iss.set ∧
    (inTx 0).w.flights = [] ∧ (∀ n ∈ [0, 1, 2, 3, 6, 7], (inTx 0).w.holdsV n = true) ∧ AtomOp.narrow (.flt .fadd .f16) = true ∧ (inTx 0).iss.idx ≤ p0.last ∧
    RegsHeld (inTx 0) p0 (fun j => [(p0.d j 7, 1), (p0.a j 6, 2)]) := by
  repeat' apply And.intro
  all_goals first | decide +kernel | exact uses_of (by decide +kernel) | exact regsFree_of _ rfl

/-! ## Witnesses: memory -/

theorem cleanAt_of {s : State} {k : AKind} {va : W64} {n : Nat} (h : ∀ r ∈ s.ranges k va n, ∀ i, i < r.2.2 → s.poisoned (r.1 + i) = false) :
    CleanAt s k va n := h
/-- Every byte lies in device memory. -/
theorem plainAt_of {s : State} {k : AKind} {va : W64} {n : Nat} (h : ∀ r ∈ s.ranges k va n, s.place r.1 = .device) : PlainAt s k va n :=
  fun r hr => .inl (h r hr)
theorem witness_uniform_loads : Quiet base ∧ (Instr.sld ⟨none, 159, 159, 255⟩).wf = true ∧ (Instr.sldw ⟨none, 159, 159, 255⟩).wf = true ∧
    Allows base .read .load (uniformAddr base ⟨none, 159, 159, 255⟩ 8) 8 ∧ CleanAt base .read (uniformAddr base ⟨none, 159, 159, 255⟩ 8) 8 ∧
    Allows base .read .load (uniformAddr base ⟨none, 159, 159, 255⟩ 4) 4 ∧ CleanAt base .read (uniformAddr base ⟨none, 159, 159, 255⟩ 4) 4 ∧
    (Instr.sldk 159 159 7).wf = true ∧
    (let o := (base.rdS 159).toInt + (BitVec.ofNat 9 7).toInt * 8
     let va := paramBase (base.ctlOf base.iss.key 0x0B) + BitVec.ofInt 64 o
     0 ≤ o ∧ o % 8 = 0 ∧ o + 8 ≤ paramLen (base.ctlOf base.iss.key 0x0B) ∧ Allows base .read .load va 8 ∧ CleanAt base .read va 8) := by
  repeat' apply And.intro
  all_goals first | decide +kernel | exact quiet_of (by decide +kernel) | exact allows_of (by decide +kernel)

theorem witness_uniform_stores : Quiet base ∧ MemoryCanonical base ∧ RemoteRoom base ∧ (Instr.sst ⟨none, 159, 159, 255⟩).wf = true ∧
    (Instr.sstw ⟨none, 159, 159, 255⟩).wf = true ∧ Allows base .write .store (uniformAddr base ⟨none, 159, 159, 255⟩ 8) 8 ∧
    PlainAt base .write (uniformAddr base ⟨none, 159, 159, 255⟩ 8) 8 ∧ Allows base .write .store (uniformAddr base ⟨none, 159, 159, 255⟩ 4) 4 ∧
    PlainAt base .write (uniformAddr base ⟨none, 159, 159, 255⟩ 4) 4 := by
  repeat' apply And.intro
  all_goals first | decide +kernel | exact quiet_of (by decide +kernel) | exact allows_of (by decide +kernel) | exact plainAt_of (by decide +kernel)

/-- A lane access of 8 bytes to the pair v6 at the pair v4. -/
def fMem : LM := ⟨p0, .i64, 6, 4, .imm 63⟩
theorem witness_lane_loads : (Instr.ld fMem).wf = true ∧ base.iss.idx ≤ fMem.pre.last ∧ Quiet base ∧ RegsHeld base fMem.pre (accessUses fMem 2) ∧
    ∀ L, L < 32 → (base.act fMem.pre).getLsbD L = true → Allows base .read .load (laneAddr base fMem L) (lmSize fMem) ∧
      CleanAt base .read (laneAddr base fMem L) (lmSize fMem) ∧
      ∀ x, fMem.pre.ext = some x → x.atom ≠ 0 → (laneAddr base fMem L).toNat % lmSize fMem = 0 := by
  refine ⟨by decide +kernel, by decide +kernel, quiet_base, regsHeld_of (by decide +kernel), fun L h _ => ?_⟩
  have h1 : ∀ L, L < 32 → allowsD base .read .load (laneAddr base fMem L) (lmSize fMem) := by decide +kernel
  have h2 : ∀ L, L < 32 → ∀ r ∈ base.ranges .read (laneAddr base fMem L) (lmSize fMem), ∀ i, i < r.2.2 → base.poisoned (r.1 + i) = false := by
    decide +kernel
  exact ⟨allows_of (h1 L h), h2 L h, nofun⟩
theorem witness_lane_stores : (Instr.st fMem).wf = true ∧ MemoryCanonical base ∧ RemoteRoom base ∧ RegsHeld base fMem.pre (accessUses fMem 2) ∧
    ∀ L, L < 32 → (base.act fMem.pre).getLsbD L = true → Allows base .write .store (laneAddr base fMem L) (lmSize fMem) ∧
      PlainAt base .write (laneAddr base fMem L) (lmSize fMem) ∧
      ∀ x, fMem.pre.ext = some x → x.atom ≠ 0 → (laneAddr base fMem L).toNat % lmSize fMem = 0 := by
  refine ⟨by decide +kernel, by decide +kernel, by decide +kernel, regsHeld_of (by decide +kernel),
    fun L h _ => ?_⟩
  have h1 : ∀ L, L < 32 → allowsD base .write .store (laneAddr base fMem L) (lmSize fMem) := by decide +kernel
  have h2 : ∀ L, L < 32 → ∀ r ∈ base.ranges .write (laneAddr base fMem L) (lmSize fMem), base.place r.1 = .device := by decide +kernel
  exact ⟨allows_of (h1 L h), plainAt_of (h2 L h), nofun⟩
theorem witness_local_accesses : RegsHeld base fMem.pre (accessUses fMem 1) ∧ NoneWaits base ∧ Alone base ∧ (Instr.lds fMem).wf = true ∧ (Instr.sts fMem).wf = true ∧
    (∀ L, L < 32 → (base.act fMem.pre).getLsbD L = true → 0 ≤ localOffset base fMem L ∧ localOffset base fMem L + lmSize fMem ≤ base.g.slen) ∧
    (∀ L i, L < 32 → (base.act fMem.pre).getLsbD L = true → i < lmSize fMem →
      (base.withHeld base.iss.key).poisoned (windowBase base.pkg base.coreNum + base.g.soff + (localOffset base fMem L).toNat + i) = false) ∧ MemoryCanonical base := by
  refine ⟨regsHeld_of (by decide +kernel), by decide +kernel, by decide +kernel, by decide +kernel, by decide +kernel, by decide +kernel, ?_, by decide +kernel⟩
  intro L i _ _ _
  simp only [State.poisoned, show (base.withHeld base.iss.key).poison = [] from rfl, List.contains_nil]
/-- An atomic of 8 bytes with the pair v6, at the pair v4, and one at the offset in v7. -/
def fAtom : LA := ⟨p0, .int .max .n64, 6, 4, false⟩
def fAtomS : LA := ⟨p0, .int .max .n64, 6, 7, false⟩
theorem witness_atomics : base.iss.idx ≤ p0.last ∧ MemoryCanonical base ∧ (Instr.atom fAtom).wf = true ∧ Quiet base ∧ RemoteRoom base ∧
    RegsHeld base p0 (fun j => [(p0.d j 6, 2), (p0.a j 4, 2)]) ∧ AtomOp.narrow fAtom.op = false ∧ NoneWaits base ∧ Alone base ∧
    (∀ L, L < 32 → (base.act p0).getLsbD L = true →
      Allows base .atomic (.atom false) (base.w.rdV64 (p0.a 0 4) L) 8 ∧ PlainAt base .atomic (base.w.rdV64 (p0.a 0 4) L) 8 ∧
      (base.w.rdV64 (p0.a 0 4) L).toNat % 8 = 0 ∧ CleanAt base .atomic (base.w.rdV64 (p0.a 0 4) L) 8 ∧
      base.reducing base.pkg (base.tr .atomic (base.w.rdV64 (p0.a 0 4) L)).1 = false) ∧
    (Instr.atoms fAtomS).wf = true ∧ RegsHeld base p0 (fun j => [(p0.d j 6, 2), (p0.a j 7, 1)]) ∧ base.coreNum < 1152 ∧
    base.g.soff + base.g.slen ≤ 0xC0000 ∧
    (∀ L, L < 32 → (base.act p0).getLsbD L = true → (base.w.rdV (p0.a 0 7) L).toNat + 8 ≤ base.g.slen ∧ (base.w.rdV (p0.a 0 7) L).toNat % 8 = 0) ∧
    (base.withHeld base.iss.key).poison = [] := by
  refine ⟨by decide +kernel, by decide +kernel, by decide +kernel, quiet_base, by decide +kernel,
    regsHeld_of (by decide +kernel), by decide +kernel, by decide +kernel, by decide +kernel, fun L h _ => ?_, by decide +kernel, regsHeld_of (by decide +kernel), by decide +kernel,
    by decide +kernel, by decide +kernel, rfl⟩
  have h1 : ∀ L, L < 32 → allowsD base .atomic (.atom false) (base.w.rdV64 (p0.a 0 4) L) 8 := by decide +kernel
  have h2 : ∀ L, L < 32 → ∀ r ∈ base.ranges .atomic (base.w.rdV64 (p0.a 0 4) L) 8,
      base.place r.1 = .device ∧ ∀ i, i < r.2.2 → base.poisoned (r.1 + i) = false := by decide +kernel
  have h3 : ∀ L, L < 32 → (base.w.rdV64 (p0.a 0 4) L).toNat % 8 = 0 ∧
      base.reducing base.pkg (base.tr .atomic (base.w.rdV64 (p0.a 0 4) L)).1 = false := by decide +kernel
  exact ⟨allows_of (h1 L h), plainAt_of fun r hr => (h2 L h r hr).1, (h3 L h).1, fun r hr => (h2 L h r hr).2, (h3 L h).2⟩
/-- The high half of every lane's address is not canonical; the scratchpad offset lies outside; the address or the offset is odd. -/
def badHigh : State := withV 5 0x01000000
def badOffset : State := withV 4 0x10000
def oddAddress : State := withV 4 4
/-- An access that must be aligned. -/
def mustAlign : Pre := ⟨none, some ⟨0, false, none, 0, false, false, .core, .default, 1⟩⟩
def fMemA : LM := ⟨mustAlign, .i64, 6, 4, .imm 0⟩
theorem witness_bad_lane_addresses : TrapTakes badHigh ∧ badHigh.iss.set ≠ 0 ∧ RegsHeld badHigh p0 (accessUses fMem 2) ∧ (badHigh.act p0).getLsbD 0 = true ∧
    canonical (laneAddr badHigh fMem 0) = false ∧ TrapTakes badOffset ∧ RegsHeld badOffset p0 (accessUses fMem 1) ∧
    (badOffset.act p0).getLsbD 0 = true ∧ ¬(localOffset badOffset fMem 0 + lmSize fMem ≤ badOffset.g.slen) ∧ TrapTakes oddAddress ∧
    RegsHeld oddAddress mustAlign (accessUses fMemA 2) ∧ (oddAddress.act mustAlign).getLsbD 0 = true ∧
    (∀ K, K < 32 → canonical (laneAddr oddAddress fMemA K) = true ∧ canonical (laneAddr oddAddress fMemA K + 7) = true) ∧
    (laneAddr oddAddress fMemA 0).toNat % 8 ≠ 0 ∧ RegsHeld oddAddress mustAlign (accessUses fMemA 1) ∧
    (∀ K, K < 32 → 0 ≤ localOffset oddAddress fMemA K ∧ localOffset oddAddress fMemA K + 8 ≤ oddAddress.g.slen) ∧
    localOffset oddAddress fMemA 0 % 8 ≠ 0 := by
  repeat' apply And.intro
  all_goals first | decide +kernel | exact uses_of (by decide +kernel) | exact regsFree_of _ rfl
theorem witness_bad_atomic_addresses : RegsHeld badHigh p0 (fun j => [(p0.d j 6, 2), (p0.a j 4, 2)]) ∧ canonical (badHigh.w.rdV64 (p0.a 0 4) 0) = false ∧
    RegsHeld oddAddress p0 (fun j => [(p0.d j 6, 2), (p0.a j 4, 2)]) ∧ (oddAddress.act p0).getLsbD 0 = true ∧
    (∀ K, K < 32 → canonical (oddAddress.w.rdV64 (p0.a 0 4) K) = true ∧ canonical (oddAddress.w.rdV64 (p0.a 0 4) K + 7) = true) ∧
    (oddAddress.w.rdV64 (p0.a 0 4) 0).toNat % 8 ≠ 0 ∧ RegsHeld badOffset p0 (fun j => [(p0.d j 6, 2), (p0.a j 4, 1)]) ∧
    ¬((badOffset.w.rdV (p0.a 0 4) 0).toNat + 8 ≤ badOffset.g.slen) ∧ RegsHeld oddAddress p0 (fun j => [(p0.d j 6, 2), (p0.a j 4, 1)]) ∧
    (∀ K, K < 32 → (oddAddress.w.rdV (p0.a 0 4) K).toNat + 8 ≤ oddAddress.g.slen) ∧ (oddAddress.w.rdV (p0.a 0 4) 0).toNat % 8 ≠ 0 := by
  repeat' apply And.intro
  all_goals first | decide +kernel | exact uses_of (by decide +kernel) | exact regsFree_of _ rfl
/-- The extension that asks a uniform access to be aligned. -/
def eAlign : Ext := ⟨0, false, none, 0, false, false, .core, .default, 1⟩
theorem witness_bad_uniform_addresses : TrapTakes (withS 5 0x0100000000000000) ∧ canonical (uniformAddr (withS 5 0x0100000000000000) ⟨none, 6, 5, 0⟩ 8) = false ∧
    TrapTakes (withS 5 4) ∧ canonical (uniformAddr (withS 5 4) ⟨some eAlign, 6, 5, 0⟩ 8) = true ∧
    canonical (uniformAddr (withS 5 4) ⟨some eAlign, 6, 5, 0⟩ 8 + 7) = true ∧ (uniformAddr (withS 5 4) ⟨some eAlign, 6, 5, 0⟩ 8).toNat % 8 ≠ 0 ∧
    ((withS 5 4).rdS 5).toInt % 8 ≠ 0 ∧ TrapTakes (withS 5 0x10000) ∧ ((withS 5 0x10000).rdS 5).toInt % 8 = 0 ∧
    (paramLen ((withS 5 0x10000).ctlOf 0 0x0B) : Int) < ((withS 5 0x10000).rdS 5).toInt + 8 := by decide +kernel
/-! ## Witnesses: launch, copies, buffers -/

/-- A launch record at 0x4000 for one group of one warp at 0x8000, with a completion word at 0x5000; context 0 exists. -/
def withRecord : State :=
  { base with
    dxctb := 0x10001
    mem := [(0x4001, 0x80), (0x4011, 0x50), (0x4018, 1), (0x401C, 1), (0x401D, 1), (0x401E, 1), (0x4020, 8), (0x4029, 2), (0x10000, 1)]
    warps := [(0, { probeWarp with sregs := vset probeWarp.sregs 5 0x4000 })] }
/-- Its register names a record of zeros; the record asks for more co-resident gangs than the module holds; 4,096 other records wait. -/
def withRefused : State := withRecord.modW fun w => { w with sregs := vset w.sregs 5 0x40000 }
def withUnplaceable : State := { withRecord with mem := [(0x4001, 0x80), (0x4018, 1), (0x401A, 2), (0x401C, 1), (0x401D, 1), (0x401E, 1), (0x401F, 4), (0x4020, 8), (0x4029, 2), (0x10000, 1)] }
def withQueue : State :=
  { withRecord with
    grids := (1, probeGrid) :: (List.range 4096).map fun i => (i + 2, { probeGrid with lrec := { probeGrid.lrec with gangs := 1 } }) }
/-- The 64 bytes of the record. -/
def recordOf (s : State) : List Byte := s.bytesFor .read (s.rdS 5) 64
theorem broken_of {s : State} {die ctx : Nat} {bs : List Byte} (h : leNat ((bs.drop 24).take 4) = 0) : RecordBroken s die ctx bs := by
  unfold RecordBroken
  intro at_
  simp only [at_, h, true_or, or_true]
/-- The completion word of a record lies in device memory. -/
theorem signal_of {s : State} (pa size : Nat) (nc : Bool) (h : s.walk 0 0 (BitVec.ofNat 64 (leNat (((recordOf s).drop 16).take 8))) .write = .ok pa size nc)
    (hp : s.place pa = .device) :
    (∀ pa size nc, s.walk 0 0 (BitVec.ofNat 64 (leNat (((recordOf s).drop 16).take 8))) .write = .ok pa size nc → s.place pa ≠ .device) = False :=
  eq_false fun x => x pa size nc h hp
theorem unbroken : ¬RecordBroken withRecord 0 0 (recordOf withRecord) := by
  simp only [RecordBroken, signal_of (s := withRecord) 0x5000 40 false (by decide +kernel) (by decide +kernel)]
  decide +kernel
theorem unbroken_unplaceable : ¬RecordBroken withUnplaceable 0 0 (recordOf withUnplaceable) := by
  simp only [RecordBroken, signal_of (s := withUnplaceable) 0 40 false (by decide +kernel) (by decide +kernel)]
  decide +kernel
theorem unbroken_queue : ¬RecordBroken withQueue 0 0 (recordOf withQueue) := by
  simp only [RecordBroken, signal_of (s := withQueue) 0x5000 40 false (by decide +kernel) (by decide +kernel)]
  decide +kernel
theorem code0_of {s : State} {die ctx : Nat} {bs : List Byte} (h : ¬RecordBroken s die ctx bs) (u : ¬RecordUnplaceable bs)
    (q : (s.grids.filter fun g => (s.gangs.filter fun x => x.1 / 2 ^ 32 = g.1).length < g.2.lrec.gangs).length < 4096) : RecordCode s die ctx bs 0 := by
  simpa [RecordCode, h, u] using q
theorem code1_of {s : State} {die ctx : Nat} {bs : List Byte} (h : RecordBroken s die ctx bs) : RecordCode s die ctx bs 1 := by simp [RecordCode, h]
theorem witness_record_codes : RecordCode withRecord 0 0 (recordOf withRecord) 0 ∧ RecordCode withRefused 0 0 (recordOf withRefused) 1 ∧
    RecordCode withUnplaceable 0 0 (recordOf withUnplaceable) 2 ∧ RecordCode withQueue 0 0 (recordOf withQueue) 3 := by
  refine ⟨code0_of unbroken (by simp only [RecordUnplaceable]; decide +kernel) (by decide +kernel), code1_of (broken_of (by decide +kernel)), ?_, ?_⟩
  · have u : RecordUnplaceable (recordOf withUnplaceable) := by simp only [RecordUnplaceable]; decide +kernel
    simp [RecordCode, unbroken_unplaceable, u]
  · have u : ¬RecordUnplaceable (recordOf withQueue) := by simp only [RecordUnplaceable]; decide +kernel
    have q : 4096 ≤ (withQueue.grids.filter fun g => (withQueue.gangs.filter fun x => x.1 / 2 ^ 32 = g.1).length < g.2.lrec.gangs).length := by
      decide +kernel
    simpa [RecordCode, unbroken_queue, u] using q
theorem quiet_record : Quiet withRecord := quiet_of (by decide +kernel)
/-- What LAUNCH asks of the state and of its record's address. -/
abbrev launchesD (s : State) : Prop :=
  s.ctlOf s.iss.key 0x08 ≠ 9 ∧ s.grids.length < 2 ^ 30 ∧ (s.rdS 5).toNat % 64 = 0 ∧ allowsD s .read .load (s.rdS 5) 64 ∧ CleanAt s .read (s.rdS 5) 64 ∧
    s.ctxOk s.gr.ctx = true ∧ ∀ pa ∈ [(0x5000 : Nat)], HomedHere s pa 8
theorem witness_launch : (Instr.launch 159 5).wf = true ∧ Quiet withRecord ∧ Released withRecord ∧ launchesD withRecord ∧
    withRecord.signalPa 0 0 (recW (recordOf withRecord) 16) = some 0x5000 ∧ Quiet withRefused ∧ Released withRefused ∧ launchesD withRefused ∧
    recW (recordOf withRefused) 16 = 0 := by
  repeat' apply And.intro
  all_goals first | decide +kernel | exact quiet_of (by decide +kernel)

def deepest : State := { base with grids := [(1, { probeGrid with depth := 9 })] }
theorem witness_launch_too_deep : TrapTakes deepest ∧ NoTx deepest ∧ deepest.ctlOf deepest.iss.key 0x08 = 9 := by decide +kernel
/-- The pair v0 and v1, or v2 and v3, at 0; v6 holds an offset of 0. -/
def fCpy : CpyF := ⟨p0, 2, 7, 0, 1⟩
def fCpyBuf : CpyBufF := ⟨p0, 2, 7, true, false, 0, 6, 31⟩
/-- Buffer 31 has four slots of 128 bytes, 0 and 1 claimed, the first FILLED, or both HELD. -/
def cbWith (a b : SlotState) (order : List Nat) : Cb :=
  { Cb.read 0 0x33000 with order := order, slots := [⟨a, true, 0, false, false, false, none⟩, ⟨b, true, 0, false, false, false, none⟩, .free, .free] }
def withCb (c : Cb) : State := withG fun g => { g with cbs := vset g.cbs 31 (some c) }
def filledCb : State := withCb (cbWith .filled .filled [0, 1])
def heldCb : State := withCb (cbWith .held .held [0, 1])
theorem quiet_filled : Quiet filledCb := quiet_of (by decide +kernel)
/-- What a copy's or a gather's source asks. -/
abbrev readsD (s : State) (src : Nat → W64) (z : Nat) : Prop :=
  ∀ L, L < 32 → (src L).toNat % z = 0 ∧ canonical (src L) = true ∧ canonical (src L + BitVec.ofNat 64 (z - 1)) = true ∧
    (∀ i, i < z → walkOk (s.walk (s.coreNum / 48) s.gr.ctx (src L + BitVec.ofNat 64 i) .engRead) = true) ∧ s.pagesAway .engRead [⟨0, src L, z⟩] = none ∧
    ∀ r ∈ s.ranges .engRead (src L) z, s.agentMay false r.1 r.2.2 .load = true
theorem witness_copies : Quiet base ∧ base.w.qcopy < 255 ∧ (Instr.cpy fCpy).wf = true ∧ (∀ n ∈ [0, 1, 2, 3], base.w.holdsV n = true) ∧
    base.act p0 ≠ 0 ∧ readsD base (base.w.rdV64 0) 16 ∧
    (∀ L, L < 32 → (base.w.rdV64 2 L).toNat % 16 = 0 ∧ canonical (base.w.rdV64 2 L) = true ∧ canonical (base.w.rdV64 2 L + 15) = true ∧
      (∀ i, i < 16 → walkOk (base.walk (base.coreNum / 48) base.gr.ctx (base.w.rdV64 2 L + BitVec.ofNat 64 i) .engWrite) = true) ∧
      base.pagesAway .engWrite [⟨0, base.w.rdV64 2 L, 16⟩] = none ∧ ∀ r ∈ base.ranges .engWrite (base.w.rdV64 2 L) 16, base.agentMay false r.1 r.2.2 .store = true) ∧
    Quiet filledCb ∧ filledCb.w.qcopy < 255 ∧ (Instr.cpyBuf fCpyBuf).wf = true ∧ vget none filledCb.g.cbs 31 = some (cbWith .filled .filled [0, 1]) ∧
    (cbWith .filled .filled [0, 1]).ingest = [] ∧ (∀ n ∈ [0, 1, 6], filledCb.w.holdsV n = true) ∧ filledCb.act p0 ≠ 0 ∧
    readsD filledCb (filledCb.w.rdV64 0) 16 ∧
    ∀ L, L < 32 → (filledCb.w.rdV 6 L).toNat % 16 = 0 ∧ (filledCb.w.rdV 6 L).toNat + 16 ≤ (cbWith .filled .filled [0, 1]).slotBytes := by
  repeat' apply And.intro
  all_goals first | decide +kernel | exact quiet_of (by decide +kernel)

/-- s5 asks for a gather of four elements of 16 bytes, with the list at 0 and the destination at 64. -/
def gathering : State := withS 5 0x0000040004000000
theorem quiet_gathering : Quiet gathering := quiet_of (by decide +kernel)
theorem witness_gathers : Quiet gathering ∧ gathering.w.qgath < 255 ∧ (Instr.gstr 2 7 0 5).wf = true ∧
    (let v := (gathering.rdS 5).toNat
     v % 2 ^ 20 % 4 = 0 ∧ v / 2 ^ 20 % 2 ^ 20 = 64 ∧ v / 2 ^ 40 % 2 ^ 20 = 4 ∧ (gathering.rdS 0).toNat % 16 = 0 ∧
     v % 2 ^ 20 + 4 * 4 ≤ gathering.g.slen ∧ 64 + 4 * 16 ≤ gathering.g.slen) ∧
    Quiet base ∧ (Instr.gath ⟨p0, 2, 7, 0, 6, 7⟩).wf = true ∧ (base.act p0).getLsbD 0 = true ∧ (∀ n ∈ [0, 1, 6, 7], base.w.holdsV n = true) ∧
    readsD base (fun L => base.w.rdV64 0 0 + BitVec.ofInt 64 ((base.w.rdV 6 L).toInt * 16)) 16 ∧
    ∀ L, L < 32 → ((base.w.rdV 7 0).toNat + L * 16) % 16 = 0 ∧ (base.w.rdV 7 0).toNat + L * 16 + 16 ≤ base.g.slen := by
  repeat' apply And.intro
  all_goals first | decide +kernel | exact quiet_of (by decide +kernel)

/-- s4 and s5 describe a buffer in scratchpad of four slots of 128 bytes, or one in device memory at module scope. -/
def defining (d : W64) : State := withS 5 d
theorem witness_buffers : NoTx (defining 0x33000) ∧ (defining 0x33000).cbBad (defining 0x33000).w.group 31 ((defining 0x33000).rdS 4) ((defining 0x33000).rdS 5) = false ∧
    ((defining 0x33000).rdS 4).toNat % 128 = 0 ∧ MemoryCanonical (defining 0x33000) ∧ ((defining 0x33000).rdS 4).toNat + 4 * 128 ≤ (defining 0x33000).g.slen ∧
    (defining 0x33005).cbBad (defining 0x33005).w.group 31 ((defining 0x33005).rdS 4) ((defining 0x33005).rdS 5) = false ∧
    ((defining 0x33005).rdS 5).toNat % 2 = 1 ∧
    NoTx filledCb ∧ vget none filledCb.g.cbs 31 = some (cbWith .filled .filled [0, 1]) ∧ (Instr.cbget 158 31).wf = true ∧
    ((cbWith .filled .filled [0, 1]).order = [] ++ 0 :: [1] ∧ ((cbWith .filled .filled [0, 1]).slot 0).state = .filled) ∧
    NoTx heldCb ∧ vget none heldCb.g.cbs 31 = some (cbWith .held .held [0, 1]) ∧
    (∀ i ∈ (cbWith .held .held [0, 1]).order, ((cbWith .held .held [0, 1]).slot i).state ≠ .filled) ∧ (cbWith .held .held [0, 1]).ingest = [] ∧ filledCb.w.flights = [] ∧ heldCb.w.flights = [] ∧
    (heldCb.rdS 4).toNat % 16 = 0 ∧ ((cbWith .held .held [0, 1]).slot 0).state = .held ∧ ((cbWith .held .held [0, 1]).slot 1).put = false ∧
    ((cbWith .held .held [1, 0]).order = 1 :: [0] ∧ (1 : Nat) ≠ 0 ∧ ((cbWith .held .held [1, 0]).slot 1).put = false) ∧
    (let v := ((withS 4 0x0401).rdS 4).toNat
     1 ≤ v % 32 ∧ v % 32 ≤ v / 256 % 32 ∧ v / 256 % 32 ≤ (cbWith .held .held [0, 1]).stages) ∧ (Instr.cbqry 159 31).wf = true := by decide +kernel

/-! ## Witnesses: the matrix engine -/

/-- Tiles 0 and 1 have 32 rows of 64 bytes of f16; s6 names bank 0. -/
def shaped (v : W32) : State := { base with cores := base.cores.map fun c => (c.1, { c.2 with shapes := vset (vset c.2.shapes 0 v) 1 v }) }
def tiles16 : W32 := 0x31F1
def scaled : W32 := 0x31F4
theorem witness_matrix_operations : NoTx (shaped tiles16) ∧ (shaped tiles16).w.qmat < 255 ∧ (shaped tiles16).g.giving = false ∧
    (shaped tiles16).g.tile 0 = some 0 ∧ (shaped tiles16).shape (shaped tiles16).coreNum 0 = tiles16 ∧ (shaped tiles16).g.tile 1 = some 1 ∧
    (shaped tiles16).shape (shaped tiles16).coreNum 1 = tiles16 ∧ ((shaped tiles16).rdS 5).toNat % 16 = 0 ∧
    (∀ x ∈ tileChunks tiles16, ((shaped tiles16).rdS 5).toNat + x.2.1 + x.2.2 ≤ (shaped tiles16).g.slen) ∧
    shapeFormat scaled = 4 ∧ (shaped scaled).shape (shaped scaled).coreNum 0 = scaled ∧
    ((shaped scaled).rdS 5).toNat + 8 * shapeRows scaled ≤ (shaped scaled).g.slen ∧
    (∀ q, q < (shapeRows tiles16 + 31) / 32 → (shaped tiles16).g.own.getLsbD (0 + q) = true) ∧ 0 + (shapeRows tiles16 + 31) / 32 ≤ 64 ∧
    mmaBad tiles16 tiles16 false = false ∧ mmaBad tiles16 tiles16 true = false ∧ (shaped tiles16).coreNum % 2 = 0 ∧
    shapeFormat tiles16 ∈ [0, 1, 2, 3, 5, 6] ∧ 32 * 0 + 31 < shapeRows tiles16 ∧
    ((shaped tiles16).rdS 5).toNat + 4096 * 4 ≤ (shaped tiles16).g.slen := by decide +kernel
/-- The other core of the pair has a group of the same gang that owns bank 0. -/
def pairOwned : State :=
  { shaped tiles16 with groups := (shaped tiles16).groups ++ [(64, { probeGroup with core := 1, own := 1 })] }
theorem witness_pair_mma : NoTx pairOwned ∧ pairOwned.w.qmat < 255 ∧ pairOwned.g.giving = false ∧ pairOwned.g.tile 0 = some 0 ∧
    pairOwned.shape pairOwned.coreNum 0 = tiles16 ∧ pairOwned.coreNum % 2 = 0 ∧
    pairOwned.ownerOf (pairOwned.coreNum + 1) 0 = some { probeGroup with core := 1, own := 1 } := by decide +kernel
/-- Band 0 is FAULTED, with a located failure at row 31 and column 127. -/
def located : State :=
  { base with cores := base.cores.map fun c => (c.1, { c.2 with bands := [(0, { Band.zero with state := .faulted, located := some (31, 127, 9) })] }) }
theorem witness_matrix_at_issue : NoTx base ∧ base.g.tile 3 = some 3 ∧ base.g.usesTile 3 = false ∧ base.tileLocked base.coreNum 3 = false ∧
    shapeFormat ((base.rdS 5).setWidth 32 &&& 0x3F7FFF) < 11 ∧ (Instr.mstat 159).wf = true ∧ base.g.giving = false ∧
    base.g.own.getLsbD ((base.rdS 5).toNat % 64) = true ∧ (Instr.mstatClo 159 5).wf = true ∧
    ((base.core base.coreNum).band 0).state ≠ .faulted ∧ NoTx located ∧ located.g.giving = false ∧ located.g.own.getLsbD 0 = true ∧
    ((located.core located.coreNum).band 0).state = .faulted ∧ ((located.core located.coreNum).band 0).located = some (31, 127, 9) ∧
    MemoryCanonical located := by decide +kernel
/-- Bank 63 belongs to another group of the core, bank 62 to none. -/
def foreignBank : State :=
  { withS 5 63 with groups := base.groups ++ [(1, { probeGroup with own := 0x8000000000000000 })] }
theorem witness_tiles_and_banks : TrapTakes foreignBank ∧ NoTx foreignBank ∧ foreignBank.g.giving = false ∧
    foreignBank.g.own.getLsbD ((foreignBank.rdS 5).toNat % 64) = false ∧ (foreignBank.ownerOf foreignBank.coreNum 63).isSome = true ∧
    TrapTakes (withS 5 62) ∧ NoTx (withS 5 62) ∧ (withS 5 62).g.own.getLsbD (((withS 5 62).rdS 5).toNat % 64) = false ∧
    ((withS 5 62).ownerOf (withS 5 62).coreNum 62).isSome = false ∧ base.g.tile 4 = none := by decide +kernel

/-! ## Witnesses: collectives -/

/-- s5 names the descriptor at 0x4000. -/
def withDesc (m : List Host.Cell) : State := { withS 5 0x4000 with mem := m }
theorem reads_of {s : State} {a : Nat} (q : Quiet s) (r : Released s)
    (h : s.w.qcoll < 255 ∧ (s.rdS a).toNat % 64 = 0 ∧ allowsD s .read .load (s.rdS a) 64 ∧
      ∀ x ∈ s.ranges .read (s.rdS a) 64, ∀ i, i < x.2.2 → s.poisoned (x.1 + i) = false) : DescriptorReads s a :=
  ⟨q, r, h.1, h.2.1, allows_of h.2.2.1, h.2.2.2⟩
/-- A reduction of one element of two participants, and a broadcast of one byte, by instance 5; of this module's home, or of module 1's. -/
def reduces : State := withDesc [(0x4000, 5), (0x4004, 2), (0x4009, 7), (0x4010, 1), (0x4019, 0x50), (0x4021, 0x60)]
def broadcasts : State := withDesc [(0x4000, 5), (0x4004, 2), (0x400A, 1), (0x4010, 1), (0x4019, 0x50), (0x4021, 0x60)]
def reducesThere : State :=
  { withDesc [(0x4000, 5), (0x4004, 2), (0x4009, 7), (0x400B, 1), (0x4010, 1), (0x4019, 0x50), (0x4021, 0x60)] with routes := vset base.routes 1 1 }
theorem quiet_reduces : Quiet reduces ∧ Quiet broadcasts ∧ Quiet reducesThere :=
  ⟨quiet_of (by decide +kernel), quiet_of (by decide +kernel), quiet_of (by decide +kernel)⟩
/-- What the statement asks of a Join's descriptor. -/
abbrev joinD (s : State) (xred : Bool) : Prop :=
  let bs := s.bytesFor .read (s.rdS 5) 64
  let j := joinRead bs xred
  let n := joinBytes j
  s.joinBad j bs = false ∧
  (s.collPages (if joinPulled j then areaSpans (recW bs 24) n else []) (if recW bs 32 = 0 then [] else areaSpans (recW bs 32) n)).isNone = true
theorem witness_joins : DescriptorReads reduces 5 ∧ joinD reduces true ∧ DescriptorReads broadcasts 5 ∧ joinD broadcasts false ∧
    DescriptorReads reducesThere 5 ∧ joinD reducesThere true ∧
    (joinRead (reduces.bytesFor .read (reduces.rdS 5) 64) true).home = reduces.pkg ∧ reduces.closedIds = [] ∧ reduces.instances = [] ∧
    (joinRead (reducesThere.bytesFor .read (reducesThere.rdS 5) 64) true).home ≠ reducesThere.pkg := by
  repeat' apply And.intro
  all_goals first | decide +kernel | exact reads_of quiet_reduces.1 (by decide +kernel) (by decide +kernel) | exact reads_of quiet_reduces.2.1 (by decide +kernel) (by decide +kernel) | exact reads_of quiet_reduces.2.2 (by decide +kernel) (by decide +kernel)

/-- Side information about one block at 0x6000, and a plan of one transfer from module 1 to this one. -/
def sides : State := withDesc [(0x4000, 1), (0x4004, 1), (0x4009, 0x50), (0x5000, 7), (0x5009, 0x60)]
def shuffles : State := withDesc [(0x4000, 5), (0x4004, 1), (0x4040, 7), (0x4044, 1), (0x4049, 0x60)]
theorem quiet_sides : Quiet sides ∧ Quiet shuffles := ⟨quiet_of (by decide +kernel), quiet_of (by decide +kernel)⟩
theorem witness_side_information : DescriptorReads sides 5 ∧ sides.remote = [] ∧ HartsDrained sides ∧
    (let bs := sides.bytesFor .read (sides.rdS 5) 64
     let spans := areaSpans (recW bs 8) (recNat bs 0 4 * 16)
     let ls := spans.flatMap fun p => sides.bytesFor .read p.va p.n
     sideBad bs = false ∧ sides.lockStalls .read false spans = false ∧ (sides.checkPages .read (some sides.iss.set) sides.iss.set spans).isNone = true ∧
     (sides.placeCheck .read .load sides.iss.set spans).isNone = true ∧ sides.poisonIn .read (fun _ _ => false) spans = none ∧
     (∀ i, i < recNat bs 0 4 → recNat ls (16 * i + 4) 4 = 0 ∧
       (recNat bs 4 1 ≠ 3 → recNat ls (16 * i + 8) 8 % 256 = 0 ∧ canonical (recW ls (16 * i + 8)) = true)) ∧
     (sides.collPages (if recNat bs 4 1 = 3 then [] else (List.range (recNat bs 0 4)).map fun i => ⟨32, recW ls (16 * i + 8), 256⟩) []).isNone = true) :=
  ⟨reads_of quiet_sides.1 (by decide +kernel) (by decide +kernel), rfl, by decide +kernel, by decide +kernel⟩
theorem witness_shuffle_plan : DescriptorReads shuffles 5 ∧ shuffles.remote = [] ∧ HartsDrained shuffles ∧
    (let bs := shuffles.bytesFor .read (shuffles.rdS 5) 64
     let nt := recNat bs 4 4
     let spans := areaSpans (shuffles.rdS 5 + 64) (nt * 16)
     let ls := spans.flatMap fun p => shuffles.bytesFor .read p.va p.n
     let mine := (List.range nt).filter fun i => recNat ls (16 * i + 5) 1 = shuffles.pkg
     planBad bs = false ∧ shuffles.lockStalls .read false spans = false ∧ (shuffles.checkPages .read (some shuffles.iss.set) shuffles.iss.set spans).isNone = true ∧
     (shuffles.placeCheck .read .load shuffles.iss.set spans).isNone = true ∧ shuffles.poisonIn .read (fun _ _ => false) spans = none ∧
     (∀ i, i < nt → xferBad shuffles.pkg ls (16 * i) = false) ∧ mine = [0] ∧
     (shuffles.collPages [] ((mine.map fun i => ⟨32, recW ls (16 * i + 8), 256⟩) ++
       (if recW bs 16 = 0 then [] else areaSpans (recW bs 16) (recNat bs 24 4 * 16)))).isNone = true) :=
  ⟨reads_of quiet_sides.2 (by decide +kernel) (by decide +kernel), rfl, by decide +kernel, by decide +kernel⟩
theorem witness_collective_status : (Instr.xqry 159 1).wf = true ∧ (Instr.xqry 159 0).wf = true ∧ NoTx base := ⟨by decide +kernel, by decide +kernel, noTx_base⟩
/-! ## Witnesses: the host -/

theorem vget_replicate {α : Type} (d : α) (n i : Nat) : vget d (Vector.replicate n d) i = d := by
  unfold vget
  rw [List.getD_eq_getElem?_getD, Vector.toList_replicate]
  rcases Nat.lt_or_ge i n with h | h
  · rw [List.getElem?_replicate_of_lt h, Option.getD_some]
  · rw [List.getElem?_eq_none (by simpa using h), Option.getD_none]
theorem core_cases {s : State} {x : Core} (h : s.cores = [(0, x)]) (c : Nat) : s.core c = x ∨ s.core c = Core.reset := by
  simp only [State.core, h]
  rcases Nat.eq_zero_or_pos c with rfl | hc
  · exact .inl rfl
  · exact .inr (by simp [tget, tget?, Nat.ne_of_lt hc])
/-- Hart 0 runs with x5 at a value. -/
def hartAt (v : W64) (f : Hart → Hart := id) (s : State := base) : State := s.modHart 0 fun h => f { h with x := vset h.x 5 v }
def hartRecord : State := hartAt 0x4000 id { withRecord with tlb := [idMap, { idMap with die := 24 }] }
theorem calm_base : Calm base := calm_of (by decide +kernel)
/-- A management hart runs. -/
def managing : State := { base with iss := { base.iss with key := 64 } }
def hartRefused : State := hartAt 0x40000 id hartRecord
theorem unbroken_host : ¬RecordBroken hartRecord 24 0 (hartRecord.hartBytes [⟨0x4000, 0, 64⟩]) := by
  have h : (∀ pa size nc, hartRecord.walk 24 0 (BitVec.ofNat 64 (leNat (((hartRecord.hartBytes [⟨0x4000, 0, 64⟩]).drop 16).take 8))) .write = .ok pa size nc →
      hartRecord.place pa ≠ .device) = False := eq_false fun x => x 0x5000 40 false (by decide +kernel) (by decide +kernel)
  simp only [RecordBroken, h]
  decide +kernel
theorem witness_host_launch : (Instr.dxLaunch 31 5).wf = true ∧ Calm managing ∧ 64 ≤ managing.iss.key ∧ Calm hartRecord ∧ hartRecord.iss.key < 64 ∧
    HartReaches hartRecord 0 .load .load ((hartRecord.hart 0).rd 5) 64 64 [⟨0x4000, 0, 64⟩] ∧ HartClean hartRecord [⟨0x4000, 0, 64⟩] ∧
    hartRecord.ctxOk (hartRecord.hart 0).dxctx = true ∧ (hartRecord.hart 0).dxctx = 0 ∧
    hartRecord.signalPa 24 0 (recW (hartRecord.hartBytes [⟨0x4000, 0, 64⟩]) 16) = some 0x5000 ∧ HomedHere hartRecord 0x5000 8 ∧
    RecordCode hartRecord 24 0 (hartRecord.hartBytes [⟨0x4000, 0, 64⟩]) 0 ∧ hartRecord.grids.length < 2 ^ 30 ∧ Calm hartRefused ∧
    HartReaches hartRefused 0 .load .load ((hartRefused.hart 0).rd 5) 64 64 [⟨0x40000, 0, 64⟩] ∧ HartClean hartRefused [⟨0x40000, 0, 64⟩] ∧
    hartRefused.ctxOk (hartRefused.hart 0).dxctx = true ∧ recW (hartRefused.hartBytes [⟨0x40000, 0, 64⟩]) 16 = 0 ∧
    RecordCode hartRefused 24 0 (hartRefused.hartBytes [⟨0x40000, 0, 64⟩]) 1 := by
  have c0 : RecordCode hartRecord 24 0 (hartRecord.hartBytes [⟨0x4000, 0, 64⟩]) 0 :=
    code0_of unbroken_host (by simp only [RecordUnplaceable]; decide +kernel) (by decide +kernel)
  have c1 : RecordCode hartRefused 24 0 (hartRefused.hartBytes [⟨0x40000, 0, 64⟩]) 1 := code1_of (broken_of (by decide +kernel))
  refine ⟨?_, ?_, ?_, ?_, ?_, ?_, ?_, ?_, ?_, ?_, ?_, c0, ?_, ?_, ?_, ?_, ?_, ?_, c1⟩
  all_goals repeat' apply And.intro
  all_goals first | decide +kernel | exact calm_of (by decide +kernel)

/-- Hart 0 waits for the word at 0x4000 until 1000 ns. -/
def hartWaits : State := hartAt 0x4000 fun h => { h with waiting := some ⟨0x4000, some 1000, 31⟩ }
theorem witness_host_waits : (Instr.dxWait 31 5 6).wf = true ∧ Calm (hartAt 0x4000) ∧ ((hartAt 0x4000).hart 0).waiting = none ∧
    HartReaches (hartAt 0x4000) 0 .load .load (((hartAt 0x4000).hart 0).rd 5) 8 8 [⟨0x4000, 0, 8⟩] ∧ HartClean (hartAt 0x4000) [⟨0x4000, 0, 8⟩] ∧
    (hartWaits.hart 0).waiting = some ⟨0x4000, some 1000, 31⟩ ∧ (31 : Nat) < 32 ∧ (managing.hart 64).tx = none ∧ (Instr.dxTbegin 31).wf = true := by
  repeat' apply And.intro
  all_goals first | decide +kernel | exact calm_of (by decide +kernel)

/-- Hart 0 is in a transaction that has written a byte of 0x5000. -/
def hartInTx : State := hartAt 0x4000 fun h => { h with tx := some ⟨[], [(0x5000, 7)], 0x104, 31⟩ }
theorem witness_host_transactions : (base.hart 0).tx = none ∧ (Instr.dxTbegin 31).wf = true ∧
    (hartInTx.hart 0).tx = some ⟨[], [(0x5000, 7)], 0x104, 31⟩ ∧ (hartInTx.hart 0).commit = false ∧ HartsDrained hartInTx ∧
    hartInTx.commits = [] ∧ hartInTx.lock = none ∧ LinesSettled hartInTx ∧ HomedHere hartInTx 0x5000 1 ∧ (hartInTx.hart 0).mode = .m := by decide +kernel
/-- One entry in the ring at 0x20000. -/
def withEntry : State := { hartAt 0x4000 with dxfq := 0x20000, pend := 1, ringWritten := 1 }
theorem witness_host_service : (base.hart 0).tx = none ∧ (base.hart 0).mode ≠ .u ∧ (Instr.dxFqpop 31 5).wf = true ∧ Calm withEntry ∧
    HartReaches withEntry 0 .store .store ((withEntry.hart 0).rd 5) 32 8 [⟨0x4000, 0, 32⟩] ∧ withEntry.pend ≠ 0 ∧ withEntry.heldFaults = [] ∧
    (∀ x ∈ [(⟨0x4000, 0, 32⟩ : HPiece)], withEntry.place x.pa = .device) ∧ (∀ i, i < 32 → withEntry.poisoned (0x20000 + i) = false) ∧
    (hartAt 0x4000).pend = 0 ∧ Calm (hartAt 0x4000) ∧
    HartReaches (hartAt 0x4000) 0 .store .store (((hartAt 0x4000).hart 0).rd 5) 32 8 [⟨0x4000, 0, 32⟩] ∧
    HartsDrained base ∧ NothingHeld base ∧ (∀ x ∈ base.gangs, x.2.grid = x.1 / 2 ^ 32) ∧ ((hartAt 0 fun h => { h with mode := .u }).hart 0).mode = .u ∧
    ((hartAt 0 fun h => { h with mode := .u }).hart 0).tx = none := by
  repeat' apply And.intro
  all_goals first | decide +kernel | exact calm_of (by decide +kernel)

/-- No grid is live, and slot 4 of Heartwood holds a byte. -/
def withImage : State :=
  { hartAt 0x14 id { State.reset with boot := .up } with images := vset State.reset.images 4 { Image.none with valid := true, cells := [(0x5000, 1)] } }
/-- Its medium fails. -/
def brokenImage : State := { withImage with images := vset withImage.images 4 { vget Image.none withImage.images 4 with media := true } }
theorem witness_checkpoints : (withImage.hart 0).tx = none ∧ (withImage.hart 0).mode = .m ∧ withImage.ckpt = none ∧
    ((withImage.hart 0).rd 5).toNat = 4 + 1 * 16 ∧ withImage.grids = [] ∧ (vget Image.none withImage.images 4).valid = true ∧
    MemoryCanonical withImage ∧ Memory.wf (vget Image.none withImage.images 4).cells = true ∧
    (∀ c ∈ (vget Image.none withImage.images 4).cells, withImage.imaged c.1 = true) ∧ (vget Image.none withImage.images 0).valid = false ∧
    ((hartAt 0x10).hart 0).mode = .m ∧ (hartAt 0x10).grids ≠ [] ∧ (((hartAt 0x10).hart 0).rd 5).toNat = 0 + 1 * 16 ∧
    (((hartAt 0x34).hart 0).rd 5).toNat / 16 % 4 = 3 ∧ (((hartAt 0x24).hart 0).rd 5).toNat = 4 + 2 * 16 ∧ (((hartAt 4).hart 0).rd 5).toNat = 4 + 0 * 16 ∧ (vget Image.none withImage.images 4).media = false ∧
    (vget Image.none brokenImage.images 4).valid = true ∧ (vget Image.none brokenImage.images 4).media = true ∧ brokenImage.grids = [] ∧
    (brokenImage.hart 0).mode = .m ∧ brokenImage.ckpt = none := by decide +kernel

/-! ## Witnesses: slots, dispatch and releases -/

/-- The entry of slot 0 of core 0 has another control word. -/
def slotIs (c : W64) (s : State := base) : State := s.modSlot 0 0 fun e => { e with ctl := c }
theorem witness_slots : ((1 : W64).toNat % 8 = 1 ∧ State.reset.slotState 73727 = 0) ∧ (slotIs 4).slotState 0 = 4 ∧ base.slotState 0 = 2 ∧
    (slotIs 3).slotState 0 = 3 ∧ ((slotIs 0x25).slotState 0 = 5 ∧ ((slotIs 0x25).entry 0).ctl.toNat / 16 % 16 ≠ 5) ∧
    ((slotIs 0x100000055).slotState 0 = 5 ∧ ((slotIs 0x100000055).entry 0).ctl.toNat / 16 % 16 = 5 ∧ NothingHeld (slotIs 0x100000055)) := by decide +kernel
/-- A gang of one group of one warp stands BOUND in slot 0 of core 0; nothing runs. -/
def boundGang : State :=
  { State.reset with
    boot := .up, grids := [(1, probeGrid)]
    cores := [(0, { Core.reset with slots := [(0, ⟨0x100000001, [2 ^ 40 + 2 ^ 48 + 2 ^ 57, 1, 0, 0, 8 * 2 ^ 16, 0, 0]⟩)] })] }
/-- The same with a grid that has no record. -/
def boundNowhere : State := { boundGang with grids := [] }
theorem clear_core (s : State) (x : Core) (h : s.cores = [(0, { Core.reset with slots := x.slots })]) :
    ∀ c, (s.core c).suspect = [] ∧ (s.core c).mending = [] ∧ ∀ q, vget false (s.core c).oos q = false := by
  intro c
  have hc : (s.core c).suspect = [] ∧ (s.core c).mending = [] ∧ (s.core c).oos = Vector.replicate 4 false := by
    simp only [State.core, h]
    rcases Nat.eq_zero_or_pos c with rfl | hc
    · exact ⟨rfl, rfl, rfl⟩
    · have : tget Core.reset [(0, { Core.reset with slots := x.slots })] c = Core.reset := by
        simp [tget, tget?, Nat.ne_of_lt hc]
      rw [this]; exact ⟨rfl, rfl, rfl⟩
  exact ⟨hc.1, hc.2.1, fun q => hc.2.2 ▸ vget_replicate false 4 q⟩
theorem witness_gang_dispatch : wholeGroves (boundGang.boundEntries 1 0) = [0] ∧
    (∀ e ∈ boundGang.boundEntries 1 0, e.2.core / 8 = 0 ∧ boundGang.slotState e.1 = 1) ∧ ((boundGang.boundEntries 1 0).map (·.1)).Nodup ∧
    (boundGang.grid 1).paired = false ∧ tget? boundGang.gangs (1 * 2 ^ 32 + 0) = none ∧ boundGang.ckpt = none ∧ boundGang.boot = .up ∧
    boundGang.bootMinimal = false ∧ LinesSettled boundGang ∧ boundGang.lock = none ∧ boundGang.classes = [] ∧ (∀ c, (boundGang.core c).suspect = [] ∧ (boundGang.core c).mending = [] ∧ ∀ q, vget false (boundGang.core c).oos q = false) ∧
    (∀ pa ∈ boundGang.tablePages (boundGang.boundEntries 1 0), HomedHere boundGang pa 8) ∧
    (∀ x ∈ boundGang.checkEntries false (boundGang.boundEntries 1 0) [], x.2 = 0) ∧
    wholeGroves (boundNowhere.boundEntries 1 0) = [0] ∧
    (∃ x ∈ boundNowhere.checkEntries false (boundNowhere.boundEntries 1 0) [], x.2 ≠ 0) ∧ boundGang.boundEntries 1 0 ≠ [] := by
  repeat' apply And.intro
  all_goals first | decide +kernel | exact clear_core _ { Core.reset with slots := (boundGang.core 0).slots } rfl

/-- The same with its group saved: slot 5 held it, and its context is at 0x100000. -/
def savedGang : State :=
  { boundGang with
    groups := [(5, { probeGroup with stored := true })], gangs := [(gangKey 1 0, { Gang.none with grid := 1, groups := [5] })]
    saved := [(5, ⟨0x100000, 0, 0, 0, 0, [], [], [7], [], 0, [], []⟩)], warps := [(2 ^ 30 + 5 * 64, { probeWarp with group := 5 })] }
def savedEntry : Group := SlotEntry.group ⟨0x100000001, [2 ^ 40 + 2 ^ 48 + 2 ^ 57, 1, 0, 0, 8 * 2 ^ 16, 0, 0]⟩ 0
theorem witness_gang_restored : savedGang.boundEntries 1 0 = [(0, savedEntry)] ∧ savedEntry.ngroups = 1 ∧ savedEntry.index = 0 ∧
    (savedGang.grid 1).paired = false ∧ (savedGang.gang (1 * 2 ^ 32 + 0)).groups = [5] ∧ (savedGang.gang (1 * 2 ^ 32 + 0)).twin = [] ∧
    (tget? savedGang.gangs (1 * 2 ^ 32 + 0)).isSome = true ∧ savedGang.resumes savedEntry = some 5 ∧
    tget? savedGang.saved 5 = some ⟨0x100000, 0, 0, 0, 0, [], [], [7], [], 0, [], []⟩ ∧
    savedGang.bindWhy savedEntry (savedGang.liveOn savedEntry.core) (savedGang.slotsUsed savedEntry.core) (tget? savedGang.saved 5) = 0 ∧
    savedGang.ckpt = none ∧ savedGang.boot = .up ∧ savedGang.bootMinimal = false ∧ LinesSettled savedGang ∧ savedGang.lock = none ∧ MemoryCanonical savedGang ∧
    (∀ c, (savedGang.core c).suspect = [] ∧ (savedGang.core c).mending = [] ∧ ∀ q, vget false (savedGang.core c).oos q = false) ∧
    (∀ n c, vget none (savedGang.group 5).cbs n = some c → c.ingest = []) ∧
    (∀ i, i < 64 → (tget? savedGang.warps (2 ^ 30 + 5 * 64 + i)).isSome = true → i < savedEntry.nwarps) ∧ 0 < savedEntry.nwarps ∧
    tget? savedGang.warps (2 ^ 30 + 5 * 64 + 0) = some { probeWarp with group := 5 } := by
  have hc : (savedGang.group 5).cbs = Vector.replicate 32 none := by decide +kernel
  repeat' apply And.intro
  any_goals decide +kernel
  · exact clear_core _ { Core.reset with slots := (savedGang.core 0).slots } rfl
  · intro n c h
    rw [hc, vget_replicate] at h; cases h
theorem witness_group_saved : (slotIs 0x10000000A).saveReady 0 = true ∧ (∀ c, ((slotIs 0x10000000A).core c).mending = []) ∧
    ((slotIs 0x10000000A).groups.map (·.1)).Pairwise (· < ·) ∧ ((slotIs 0x10000000A).group 0).stored = false ∧
    ((slotIs 0x10000000A).group 0).core < 1152 ∧ base.saveReady 0 = false ∧ (base.core (0 / 64)).mending = [] := by
  have hc : (slotIs 0x10000000A).cores = [(0, (slotIs 0x10000000A).core 0)] := by rfl
  have hm : ((slotIs 0x10000000A).core 0).mending = [] := by decide +kernel
  repeat' apply And.intro
  all_goals first | decide +kernel | exact fun c => (core_cases hc c).elim (fun h => h ▸ hm) fun h => h ▸ rfl
/-- The group's warp has left, and the grid names a completion word at 0x5000. -/
def lastGroup : State := { base with warps := [], grids := [(1, { probeGrid with signalPa := some 0x5000 })] }
/-- Every thread of the warp has exited. -/
def endedWarp : State := withW fun w => { w with threads := Vector.replicate 32 { Thread.start 0x1000 with status := .exited } }
theorem witness_groups_complete : (base.slotState 0 = 2 ∧ (tget? base.groups 0).isSome = true ∧ (base.group 0).sliceLeft = 0) ∧
    (lastGroup.slotState 0 = 2 ∧ (tget? lastGroup.groups 0).isSome = true ∧ (lastGroup.group 0).children = [] ∧ lastGroup.groupWarps 0 = [] ∧
      (lastGroup.group 0).gang < 2 ^ 32 ∧ (lastGroup.group 0).grid < 2 ^ 32 ∧ (tget? lastGroup.grids 1).isSome = true ∧
      (lastGroup.gang (1 * 2 ^ 32 + 0)).groups = [0] ∧ (lastGroup.gang (1 * 2 ^ 32 + 0)).twin = [] ∧
      (lastGroup.grid 1).lrec.gangs ≤ (lastGroup.grid 1).retired + 1 ∧ NothingHeld lastGroup ∧ MemoryCanonical lastGroup ∧ (lastGroup.grid 1).signalPa = some 0x5000) ∧
    (endedWarp.live 0 = true ∧ (endedWarp.warp 0).ended = true ∧ (endedWarp.warp 0).qcopy = 0 ∧ (endedWarp.warp 0).qgath = 0 ∧
      (endedWarp.warp 0).qmat = 0 ∧ (endedWarp.warp 0).qcoll = 0 ∧ endedWarp.storesDone 0 = true ∧ (endedWarp.group 0).takeQ = [] ∧
      endedWarp.groupWarps 0 = [0] ∧ endedWarp.slotQueue = [] ∧ endedWarp.lockQueue = []) := by decide +kernel
theorem witness_barrier_release :
    let b : BarRef := ⟨.group, 0, 15⟩
    (arrived.barrier b).arrived ≠ [] ∧ (∀ y ∈ arrived.scopeThreads b, y ∈ (arrived.barrier b).arrived) ∧
    (∃ y ∈ arrived.scopeThreads b, y ∈ (arrived.barrier b).arrived) ∧
    (∀ k ∈ arrived.scopeWarps b, k < 2 ^ 30 ∧ (∀ i, vget none (arrived.warp k).evbind i ≠ some b) ∧
      ∀ p ∈ (arrived.warp k).parks, ∀ y, p.hold ≠ .rearrive b (arrived.barrier b).phase y) ∧
    ∃ y ∈ base.scopeThreads b, y ∉ (base.barrier b).arrived := by
  intro b
  have hw : arrived.scopeWarps b = [0] := by decide +kernel
  have he : (arrived.warp 0).evbind = Vector.replicate 4 none := by decide +kernel
  have hp : (arrived.warp 0).parks = [] := by decide +kernel
  refine ⟨by decide +kernel, by decide +kernel, by decide +kernel, ?_, by decide +kernel⟩
  intro k hk
  rw [hw, List.mem_singleton] at hk
  subst hk
  refine ⟨by decide, fun i => ?_, fun p h => ?_⟩
  · rw [he, vget_replicate]; simp
  · rw [hp] at h; cases h
/-- A failed check waits; a thread sleeps; a thread's transaction is to be compared with memory again. -/
def checkFailed : State := withW fun w => { w with mchecks := [⟨9⟩] }
def checkFailedInRep : State := withW fun w => { w with mchecks := [⟨9⟩], cur := some ⟨1, 1, 0x1000, 3, []⟩ }
def asleep : State := { withW (fun w => { w with parks := [⟨1, .sleep 5⟩] }) with ps := 5000 }
def matched (seen : W64) : State := thread0 fun x => { x with tx := some ⟨0x1400, 0, [(0x5000, seen)], [], true, 0⟩ }
theorem witness_warps_released : checkFailed.live 0 = true ∧ (checkFailed.warp 0).mchecks = ⟨9⟩ :: [] ∧ (checkFailed.warp 0).handler = false ∧
    (checkFailed.warp 0).service = none ∧ (checkFailed.warp 0).tvec ≠ 0 ∧ (checkFailed.warp 0).cur = none ∧
    (checkFailed.warp 0).chosenPc = some 0x1000 ∧
    (∀ L, L < 32 → ((checkFailed.warp 0).setAt 0x1000).getLsbD L = true → ((checkFailed.warp 0).thread L).tx = none) ∧ checkFailedInRep.live 0 = true ∧ (checkFailedInRep.warp 0).mchecks = ⟨9⟩ :: [] ∧
    (checkFailedInRep.warp 0).cur = some ⟨1, 1, 0x1000, 3, []⟩ ∧ 1 &&& (checkFailedInRep.warp 0).setAt 0x1000 ≠ 0 ∧ asleep.live 0 = true ∧
    (∃ q ∈ (asleep.warp 0).parks, q.set.getLsbD 0 = true ∧ q.hold = .sleep 5 ∧ 5 ≤ asleep.ps / 1000) ∧ (matched 0).live 0 = true ∧
    ((matched 0).warp 0).parks = [] ∧ (((matched 0).warp 0).thread 0).tx = some ⟨0x1400, 0, [(0x5000, 0)], [], true, 0⟩ ∧
    ((matched 0).getW64 0x5000 = 0 ∧ (matched 0).poisonedIn 0x5000 8 = false) ∧
    (((matched 1).warp 0).thread 0).tx = some ⟨0x1400, 0, [(0x5000, 1)], [], true, 0⟩ ∧ (matched 1).getW64 0x5000 ≠ 1 ∧ (matched 1).slotQueue = [] ∧
    LinesSettled (matched 0) ∧ LinesSettled (matched 1) ∧ HomedHere base 0x5000 8 ∧ HomedHere base 0x6000 1 ∧
    withRemote.live 0 = true ∧ tget? withRemote.remote 0 = some ⟨0, none, false, false, []⟩ := by decide +kernel
/-- The oldest commit is a hart's, or a lane's; the lock's limit has passed; an invalidation is in progress. -/
def hartCommits : State := { hartAt 0x4000 (fun h => { h with tx := some ⟨[], [(0x5000, 7)], 0x104, 31⟩, commit := true }) with commits := [(3, .hart 0)] }
def laneCommits (seen : W64) : State := { inTx seen with commits := [(3, .warp 0 (BitVec.ofNat 32 (2 ^ 0)) 7 0x1000)] }
def invalidating : State := { base with invals := [(0, ⟨0x5000, 0x30000⟩)], cores := base.cores.map fun c => (c.1, { c.2 with tinvc := 0x8000000000030000 }) }
theorem witness_commits_and_locks : hartCommits.commits = (3, .hart 0) :: [] ∧ hartCommits.lock = none ∧
    (hartCommits.hart 0).tx = some ⟨[], [(0x5000, 7)], 0x104, 31⟩ ∧ (hartCommits.hart 0).commit = true ∧ LinesSettled hartCommits ∧ LinesSettled (laneCommits 0) ∧ LinesSettled (laneCommits 1) ∧
    (laneCommits 0).commits = (3, .warp 0 (BitVec.ofNat 32 (2 ^ 0)) 7 0x1000) :: [] ∧ (laneCommits 0).lock = none ∧ (laneCommits 0).slotQueue = [] ∧
    ((laneCommits 0).warp 0).flights = [] ∧ (laneCommits 0).ost 0 = 0 ∧ (laneCommits 0).senderWaits (.warp 0) = false ∧
    ((laneCommits 1).warp 0).flights = [] ∧ (laneCommits 1).ost 0 = 0 ∧ (laneCommits 1).senderWaits (.warp 0) = false ∧
    (((laneCommits 0).warp 0).thread 0).tx = some ⟨0x1400, 0, [(0x5000, 0)], [(0x6000, 1)], false, 0⟩ ∧
    (((laneCommits 1).warp 0).thread 0).tx = some ⟨0x1400, 0, [(0x5000, 1)], [(0x6000, 1)], false, 0⟩ ∧ (laneCommits 1).getW64 0x5000 ≠ 1 ∧
    ({ laneCommits 0 with lock := lockHeld.lock } : State).commits ≠ [] ∧ ({ laneCommits 0 with lock := lockHeld.lock } : State).lock ≠ none ∧
    lockHeld.lock = some ⟨0, 0, 0, 100, []⟩ ∧ lockHeld.ps / 1000 < 0 + 100 ∧ 0 + 100 ≤ ({ lockHeld with ps := 100000 } : State).ps / 1000 ∧
    (base.core 1151).tinvc.getLsbD 63 = false ∧ (invalidating.core 0).tinvc.getLsbD 63 = true ∧
    tget? invalidating.invals 0 = some ⟨0x5000, 0x30000⟩ ∧ invalidating.invalWaits 0 ⟨0x5000, 0x30000⟩ = false := by decide +kernel
/-- Gang 0 of grid 1 has been killed for reason 4, in a grid with given flags, after a number of runs. -/
def killedGang (flags runs : Nat) : State :=
  { base with
    grids := [(1, { probeGrid with lrec := { probeGrid.lrec with flags := flags }, signalPa := some 0x5000 })]
    gangs := [(gangKey 1 0, { Gang.none with grid := 1, killed := some 4, runs := runs })] }
theorem witness_killed_gangs : (∀ g ∈ [killedGang 1 1, killedGang 5 1], (g.gang (1 * 2 ^ 32 + 0)).kids = []) ∧ ((killedGang 1 1).gang (1 * 2 ^ 32 + 0)).killed = some 4 ∧ ((killedGang 1 1).grid 1).relaunchable = true ∧
    ((killedGang 1 1).grid 1).coresident = false ∧ ((killedGang 1 1).gang (1 * 2 ^ 32 + 0)).runs < 2 ∧
    ((killedGang 5 1).gang (1 * 2 ^ 32 + 0)).killed = some 4 ∧ ((killedGang 5 1).grid 1).relaunchable = true ∧ ((killedGang 5 1).grid 1).coresident = true ∧
    (∀ x ∈ (killedGang 5 1).gangs, x.2.runs < 2) ∧ (∀ x ∈ (killedGang 5 1).groups, x.2.children = []) ∧
    ((killedGang 0 0).grid 1).relaunchable = false ∧ (((killedGang 1 2).grid 1).coresident = false ∧ 2 ≤ ((killedGang 1 2).gang (1 * 2 ^ 32 + 0)).runs) ∧
    (((killedGang 5 2).grid 1).coresident = true ∧ ∃ x ∈ (killedGang 5 2).gangs.filter fun x => x.1 / 2 ^ 32 = 1, 2 ≤ x.2.runs) ∧
    NothingHeld (killedGang 0 0) ∧ NothingHeld (killedGang 1 2) ∧ NothingHeld (killedGang 5 2) ∧ MemoryCanonical (killedGang 0 0) ∧ (∀ x ∈ (killedGang 0 0).gangs, x.2.groups = []) ∧ ((killedGang 0 0).grid 1).signalPa = some 0x5000 := by decide +kernel
/-! ## Witnesses: mailboxes, windows and engines -/

theorem mem_of_tget {α : Type} {a : Nat} : ∀ {t : Tab α}, tget? t a ≠ none → a ∈ t.map (·.1)
  | [], h => absurd rfl h
  | (k, v) :: r, h => by
    rcases Decidable.em (k = a) with e | e
    · simp [e]
    · simp only [tget?, e, if_false] at h
      exact List.mem_cons_of_mem _ (mem_of_tget h)
/-- Core 0 with another record. -/
def withCore (f : Core → Core) (s : State := base) : State := s.modCore 0 f
/-- Warp 5 of another core has an open packet for mailbox 3 of slot 0, whose closed packets are four. -/
def fullMail : State :=
  withCore fun c => { c with mbOpen := [⟨.warp 5, 0, 3, [(0, 1)]⟩], mail := [(3, [[], [], [], []])] }
def mailWaits : State := withCore fun c => { c with mbWait := [⟨.hart 0, 0, 3, [(0, 1)], true, none, 0⟩] }
/-- A second store of the same sender waits behind it, and one at a tile between the two. -/
def waitsTwice : State :=
  withCore fun c =>
    { c with mbWait := [⟨.hart 0, 0, 3, [(0, 1)], true, none, 0⟩, ⟨.hart 0, 0, 3, [(9, 2)], false, none, 2⟩]
             tileWait := [⟨.hart 0, windowBase 0 0 + 0x200000, [1], none, 1, 0⟩] }
/-- The handlers of a warp are canonical. -/
abbrev handledD (w : Warp) : Prop := w.evh = Vector.replicate 16 0
theorem handled_of {w : Warp} (h : handledD w) (n : Nat) : canonical (vget 0 w.evh n) = true := by
  rw [show w.evh = _ from h, vget_replicate]; decide
/-- There is room for bytes of a sender in mailbox 3 of slot 0. -/
abbrev roomD (s : State) (by_ : Sender) (closes : Prop) : Prop :=
  (closes ∨ (s.core 0).mbOpen.length < 16 ∨ ∃ p ∈ (s.core 0).mbOpen, p.sender = by_ ∧ p.slot = 0 ∧ p.mb = 3) ∧
    (closes → (tget [] (s.core 0).mail 3).length < 4)
/-- No store of a sender waits at core 0. -/
abbrev firstD (s : State) (by_ : Sender) : Prop := (∀ p ∈ (s.core 0).mbWait, p.sender ≠ by_) ∧ ∀ p ∈ (s.core 0).tileWait, p.sender ≠ by_
theorem witness_mailboxes : (base.gridOf 0).paired = false ∧ base.mailLive 0 = true ∧ handledD (base.warp 0) ∧ (255 + [(1 : Byte)].length ≤ 256) ∧
    firstD base (.hart 0) ∧ roomD base (.hart 0) False ∧ roomD base (.hart 0) True ∧ base.mailLive 63 = false ∧ (base.gridOf 63).paired = false ∧
    fullMail.mailLive 0 = true ∧ (fullMail.gridOf 0).paired = false ∧ ¬(firstD fullMail (.hart 0) ∧ roomD fullMail (.hart 0) True) ∧
    mailWaits.mailLive 0 = true ∧ (mailWaits.gridOf 0).paired = false ∧ handledD (mailWaits.warp 0) ∧
    ¬(firstD mailWaits (.hart 0) ∧ roomD mailWaits (.hart 0) False) ∧ (base.warp 0).parks = [] ∧
    (mailWaits.core 0).mbWait = [] ++ ⟨.hart 0, 0, 3, [(0, 1)], true, none, 0⟩ :: [] ∧ (mailWaits.core 0).tileWait = [] ∧
    roomD mailWaits (.hart 0) True ∧ (waitsTwice.core 0).mbWait = [] ++ ⟨.hart 0, 0, 3, [(0, 1)], true, none, 0⟩ :: [⟨.hart 0, 0, 3, [(9, 2)], false, none, 2⟩] ∧
    (∀ y ∈ [] ++ [(⟨.hart 0, 0, 3, [(9, 2)], false, none, 2⟩ : WaitStore)], y.seq ≠ 0 ∧ (y.sender = .hart 0 → 0 < y.seq)) ∧
    (∀ y ∈ (waitsTwice.core 0).tileWait, y.sender = .hart 0 → 0 < y.seq) ∧ waitsTwice.mailLive 0 = true ∧ (waitsTwice.gridOf 0).paired = false ∧
    handledD (waitsTwice.warp 0) ∧ roomD waitsTwice (.hart 0) True := by
  repeat' apply And.intro
  all_goals decide +kernel
def spad0 : Nat := windowBase 0 0
/-- Tile 0 is locked by the retry record of a band; or another store waits there. -/
def tileLocked : State := withCore fun c => { c with bands := [(0, { Band.zero with record := [⟨0, 1, 0, 0, 0, 0, false⟩] })] }
def tileQueued : State := withCore fun c => { c with tileWait := [⟨.hart 9, spad0 + 0x207000, [1], none, 0, 0⟩] }
/-- What the statement asks of a store to the tile of an address. -/
abbrev tileTakenD (s : State) (o n : Nat) (pa : Nat) : Prop :=
  (∃ t ∈ [o / 0x8000, (o + n - 1) / 0x8000], s.tileBusy 0 t = true ∨ s.tileLocked 0 t = true) ∨
    ∃ x ∈ (s.core 0).tileWait, pa / 0x8000 * 0x8000 ≤ x.pa ∧ x.pa < pa / 0x8000 * 0x8000 + 0x8000
theorem witness_windows :
    (base.place spad0 = .scratch 0 0 ∧ base.windowMay (.warp 0) spad0 8 .store = true ∧ base.windowMay (.warp 1) spad0 1 .store = false ∧
      base.windowMay (.warp 1) spad0 8 (.atom false) = false ∧ (base.core 0).senderWaits (.warp 0) = false) ∧
    (mailWaits.place spad0 = .scratch 0 0 ∧ mailWaits.windowMay (.hart 0) spad0 1 .store = true ∧ (mailWaits.core 0).senderWaits (.hart 0) = true) ∧
    (base.place (spad0 + 0x207FF8) = .tile 0 0x7FF8 ∧ base.windowMay (.hart 0) (spad0 + 0x207FF8) 8 .store = true ∧
      ¬tileTakenD base 0x7FF8 8 (spad0 + 0x207FF8) ∧ (base.core 0).senderWaits (.hart 0) = false) ∧
    (tileLocked.place (spad0 + 0x207FF8) = .tile 0 0x7FF8 ∧ tileLocked.windowMay (.hart 0) (spad0 + 0x207FF8) 8 .store = true ∧
      tileTakenD tileLocked 0x7FF8 8 (spad0 + 0x207FF8)) ∧
    (tileQueued.windowMay (.hart 0) (spad0 + 0x200000) 8 .store = true ∧ tileTakenD tileQueued 0 8 (spad0 + 0x200000)) ∧
    (base.place (spad0 + 0x1FFFF8) = .acc 0 0xFFFF8 ∧ base.windowMay (.hart 0) (spad0 + 0x1FFFF8) 8 .store = true) ∧
    (base.place (spad0 + 0x300000) = .vreg 0 0 ∧ base.windowMay (.hart 0) (spad0 + 0x300000) 4 .store = true) ∧
    (base.place (spad0 + 0x400000) = .mail 0 0 ∧ base.windowMay (.hart 0) (spad0 + 0x400000) 8 .store = true) ∧
    (base.place (spad0 + 0x401000) = .mail 0 0x1000 ∧ base.windowMay (.hart 0) (spad0 + 0x401000) 8 .store = true) ∧
    (base.place (spad0 + 0x403008) = .mail 0 0x3008 ∧ base.windowMay (.hart 0) (spad0 + 0x403008) 8 .store = true) ∧
    (base.place (spad0 + 0x3F00100) = .control 0 0x100 ∧ base.windowMay (.hart 0) (spad0 + 0x3F00100) 8 .store = true) ∧
    (base.place (spad0 + 0x3F00108) = .control 0 0x108 ∧ base.windowMay (.hart 0) (spad0 + 0x3F00108) 8 .store = true) ∧
    (base.place (spad0 + 0x3F00000) = .control 0 0 ∧ base.windowMay (.hart 0) (spad0 + 0x3F00000) 8 .store = true) ∧
    (base.place (spad0 + 0x3F00110) = .control 0 0x110 ∧ base.windowMay (.hart 0) (spad0 + 0x3F00110) 8 .store = true) ∧
    (base.windowMay (.warp 0) spad0 8 (.atom false) = true ∧ mailWaits.windowMay (.hart 0) spad0 8 (.atom false) = true) := by decide +kernel
/-- A copy of 4 bytes from 0x5000 to 0x6000, before and after its source is read. -/
def copyOp (data : Option (List Byte × List Nat)) (fin : Bool) : CopyOp :=
  ⟨0, 0, 4, 7, .plain, [⟨0, 0x5000, 0x5000, 12, 0, 0x6000, some 0x6000, 12, data, fin⟩], none, false, none, fin, 0⟩
def copying (data : Option (List Byte × List Nat)) (fin : Bool := false) : State := withW fun w => { w with copyQ := [copyOp data fin], qcopy := 1 }
/-- A gather of one element from 0x5000, with its lanes, or from a list of indices. -/
def gathOp (lanes : Option (List (Nat × Nat × Nat))) (fin : Bool) : GathOp := ⟨0, 0, 16, 7, 0x5000, 0, 64, 1, lanes, 0, 0, false, none, fin, []⟩
def gathers (lanes : Option (List (Nat × Nat × Nat))) (fin : Bool := false) : State := withW fun w => { w with gathQ := [gathOp lanes fin], qgath := 1 }
theorem witness_copy_lines : Calm { copying none with classes := [] } ∧ (copyOp none false).dest = .plain ∧
    ((copying none).warp 0).copyNext = none ∧ (∀ l ∈ (copyOp none false).lanes, HomedHere (copying none) l.src 4 ∧ HomedHere (copying none) l.to 4) ∧
    (((copying none).warp 0).copyQ.map (·.seq)).Nodup ∧ (copying none).live 0 = true ∧ ((copying none).warp 0).win = none ∧
    ((copying none).gridOf 0).paired = false ∧ MemoryCanonical (copying none) ∧ ((copying none).warp 0).copyHead = some (copyOp none false) ∧
    inTurn ((copying none).core 0).copyRR (fun i => (copying none).copyReady (0 * 64 + i)) = some 0 ∧ (copyOp none false).readLanes ≠ [] ∧
    (((copyOp none false).lanes.map (·.lane)).Nodup ∧ ∀ l ∈ (copyOp none false).lanes, ∀ i, i < 4 → (copying none).poisoned (l.src + i) = false) ∧
    (let d : Option (List Byte × List Nat) := some ([1, 2, 3, 4], [])
     Calm { copying d with classes := [] } ∧ HartsDrained (copying d) ∧ ((copying d).warp 0).copyNext = none ∧
     (∀ l ∈ (copyOp d false).lanes, HomedHere (copying d) l.src 4 ∧ HomedHere (copying d) l.to 4) ∧ (((copying d).warp 0).copyQ.map (·.seq)).Nodup ∧ (copying d).live 0 = true ∧ ((copying d).warp 0).copyHead = some (copyOp d false) ∧
     inTurn ((copying d).core 0).copyRR (fun i => (copying d).copyReady (0 * 64 + i)) = some 0 ∧ (copyOp d false).readLanes = [] ∧
     (∀ l ∈ (copyOp d false).lanes, ∃ bs, l.data = some (bs, []) ∧ bs ≠ []) ∧ (copyOp d false).writeLanes ≠ [] ∧
     ∀ a, tget? (lineBytes (copyOp d false).writeLanes) a ≠ none → (copying d).place a = .device) := by
  have all : ∀ a ∈ (lineBytes (copyOp (some ([1, 2, 3, 4], [])) false).writeLanes).map (·.1),
      (copying (some ([1, 2, 3, 4], []))).place a = .device := by decide +kernel
  repeat' apply And.intro
  any_goals decide +kernel
  · exact calm_of (by decide +kernel)
  · exact calm_of (by decide +kernel)
  · exact fun l hl => ⟨[1, 2, 3, 4], by simp_all [copyOp], by decide⟩
  · exact fun a h => all a (mem_of_tget h)
theorem witness_gather_elements : Calm { gathers none with classes := [] } ∧ (gathers none).live 0 = true ∧
    ((gathers none).warp 0).gathHead = some (gathOp none false) ∧
    inTurn ((gathers none).core 0).gathRR (fun i => (gathers none).gathReady (0 * 64 + i)) = some 0 ∧
    (gathers none).gathNext 0 (gathOp none false) = (.va 0x5000, spad0 + 64) ∧ canonical 0x5000 = true ∧ canonical (0x5000 + 15) = true ∧
    HomedHere (gathers none) 0x5000 16 ∧ HartsDrained (gathers none) ∧ (gathOp none false).got = [] ∧ (gathOp none false).next < (gathOp none false).n ∧
    walkOk ((gathers none).walk (0 / 64 / 48) ((gathers none).gridOf 0).ctx 0x5000 .engRead) = true ∧
    (gathers none).agentMay false 0x5000 16 .load = true ∧ (∀ i, i < 16 → (gathers none).poisoned (0x5000 + i) = false) ∧
    (gathers none).place (spad0 + 64) = .scratch 0 64 ∧
    (gathers (some [(0, 0x5000, 12)])).gathNext 0 (gathOp (some [(0, 0x5000, 12)]) false) = (.pa 0x5000 12, spad0 + 64) ∧
    ((gathers (some [(0, 0x5000, 12)])).warp 0).gathHead = some (gathOp (some [(0, 0x5000, 12)]) false) := by
  repeat' apply And.intro
  all_goals first | decide +kernel | exact calm_of (by decide +kernel)

/-- The group's queue holds one operation of its warp. -/
def matOp (k : MatKind) (started fin : Bool) : MatOp := ⟨9, 0, k, started, 0, fin, 0⟩
def queued (k : MatKind) (started : Bool := false) (fin : Bool := false) : State :=
  withG fun g => { g with matQ := [matOp k started fin] }
def collDone (s : State) : State := s.modW fun w => { w with collQ := [⟨4, .xside, 0, 0, 0, [], none, true⟩], qcoll := 1 }
theorem witness_engine_retire : (copying none true).live 0 = true ∧ ((copying none true).warp 0).parks = [] ∧
    ((copying none true).warp 0).copyQ = copyOp none true :: [] ∧ (copyOp none true).fin = true ∧ (copyOp none true).tok < 8 ∧
    ((copying none true).gridOf 0).paired = false ∧ ((gathers none true).warp 0).gathQ = gathOp none true :: [] ∧ (gathers none true).live 0 = true ∧
    ((gathers none true).warp 0).parks = [] ∧ (queued (.mrty 0 159) true true).live 0 = true ∧ ((queued (.mrty 0 159) true true).warp 0).parks = [] ∧
    (tget? (queued (.mrty 0 159) true true).groups 0).isSome = true ∧
    (((queued (.mrty 0 159) true true).group 0).matQ.find? fun p => p.warp = 0) = some (matOp (.mrty 0 159) true true) ∧
    (∀ p ∈ ((queued (.mrty 0 159) true true).group 0).matQ, p.warp = 0 → p.started = false ∨ p.fin = true) ∧
    (∀ c, ((queued (.mrty 0 159) true true).core c).tileWait = []) ∧ (collDone base).live 0 = true ∧
    ((collDone base).warp 0).collQ = ⟨4, .xside, 0, 0, 0, [], none, true⟩ :: [] ∧ ((collDone base).warp 0).parks = [] := by
  have hc : (queued (.mrty 0 159) true true).cores = [(0, (queued (.mrty 0 159) true true).core 0)] := by rfl
  have ht : ((queued (.mrty 0 159) true true).core 0).tileWait = [] := by decide +kernel
  repeat' apply And.intro
  all_goals first | decide +kernel | exact fun c => (core_cases hc c).elim (fun h => h ▸ ht) fun h => h ▸ rfl
def mmaKind : MatKind := .mma 0 1 tiles16 tiles16 0 false
/-- The array runs the MMA of the queue. -/
def onArray : State := (queued mmaKind true).modCore 0 fun c => { c with array := some ⟨0, 9⟩ }
theorem witness_matrix_steps : (queued (.mchk 0)).slotState 0 = 2 ∧ (queued (.mchk 0)).stopping 0 = false ∧ ((queued (.mchk 0)).group 0).core = 0 ∧
    (queued (.mchk 0)).queues 0 = [(0, 0)] ∧ ((queued (.mchk 0)).group 0).matQ = [matOp (.mchk 0) false false] ∧
    (queued (.mchk 0)).onFaulted 0 (.mchk 0) = false ∧ (queued (.mchk 0)).lockedFor 0 (.mchk 0) = false ∧
    ((queued (.mchk 0)).warp 0).flights = [] ∧ HartsDrained (queued (.mchk 0)) ∧ ((queued mmaKind).warp 0).flights = [] ∧ HartsDrained (queued mmaKind) ∧
    (queued mmaKind).queues 0 = [(0, 0)] ∧ ((queued mmaKind).group 0).matQ = [matOp mmaKind false false] ∧ (queued mmaKind).onFaulted 0 mmaKind = false ∧
    (queued mmaKind).lockedFor 0 mmaKind = false ∧ ((queued mmaKind).core 0).array = none ∧ ((queued mmaKind).core 0).pairHold = none ∧
    (onArray.core 0).array = some ⟨0, 9⟩ ∧ ((onArray.group 0).matQ.find? fun p => p.id = 9) = some (matOp mmaKind true false) ∧
    onArray.slotState 0 = 2 ∧ onArray.stopping 0 = false ∧ (0 + (shapeRows tiles16 + 31) / 32 ≤ 64) ∧ MemoryCanonical onArray := by decide +kernel

/-! ## Witnesses: links, the directory, other modules -/

/-- Port 63 has sent packet 5 and had no answer; module 1 is reached over ports 0 and 63, and module 2 over port 63 alone. -/
def toModule (m : Nat) : Pkt := ⟨0, 2, 24, m, 24, 0, 0, [], 0, .none⟩
def onPort (f : Port → Port) : State :=
  { base with ports := [(63, f { Port.reset with unacked := [⟨5, toModule 1⟩] })], ps := 2000000 }
def routed (f : Port → Port) : State := { onPort f with routes := vset base.routes 1 0x8000000000000001 }
def routedNowhere (f : Port → Port) : State := { onPort f with routes := vset base.routes 2 0x8000000000000000 }
def broken (p : Port) : Port := { p with resends := 16 }
abbrev reachedD (s : State) (n : Nat) : List Nat := (List.range 32).filter fun m => m ≠ s.pkg ∧ (vget 0 s.routes m).getLsbD n = true
theorem witness_ports : (base.port 63).down = false ∧ (base.port 63).expect = 0 ∧ (base.port 63).unacked.length < 2047 ∧ (base.port 63).nextSeq < 4096 ∧
    ((⟨0, 5, false, []⟩ : Hdr).seq % 4096 = ((onPort id).port 63).expect ∧ ((onPort id).port 63).unacked = [] ++ ⟨5, toModule 1⟩ :: []) ∧
    ((onPort id).port 63).down = false ∧ ((onPort id).port 63).unacked ≠ [] ∧ (∀ q ∈ ((onPort id).port 63).unacked, q.seq ≠ 9) ∧
    ((onPort id).port 63).ackAt + 2000 ≤ (onPort id).time ∧ base.time < (base.port 63).ackAt + 2000 ∧
    16 ≤ ((routed broken).port 63).resends ∧ ((routed broken).port 63).down = false ∧ NothingThere (routed broken) (reachedD (routed broken) 63) ∧
    (routed broken).survivor 63 = some 0 ∧ 16 ≤ ((routedNowhere broken).port 63).resends ∧
    NothingThere (routedNowhere broken) (reachedD (routedNowhere broken) 63) ∧ (routedNowhere broken).survivor 63 = none ∧
    ((onPort id).port 63).resends < 16 ∧ (63 : Nat) ≠ 0 ∧ ((routed id).port 0).down = false ∧
    (((ackDrop 9 ((routed id).port 63).unacked).map (·.pkt)).filter (·.ty ≠ 0) ++ ((routed id).port 63).queue = [toModule 1]) ∧
    (0 < 64 ∧ 0 ≠ 63 ∧ (vget 0 (routed id).routes (toModule 1).dest).getLsbD 0 = true) ∧ (base.port 63).expect < 4096 := by
  repeat' apply And.intro
  all_goals decide +kernel
/-- The unit of line 0x40 has an entry. -/
def dirIs (st : Option DirState) (recalls : List (Nat × Nat) := []) : State := { base with dir := [(0x40, ⟨st, [], recalls, []⟩)], dirOrder := [0x40] }
def away : Nat := 2 ^ 41 + 0x40
/-- Die 5 holds a line. -/
def holds (l : LineState) (line : Nat := away) (s : State := base) : State := { s with holders := [(5 * 2 ^ 48 + line, l)] }
/-- The low 64 KiB are a reduction window of this module. -/
def inWindow : State := { base with dxrw := vset base.dxrw 0 0x101 }
def fullLine : List Byte := List.replicate 128 7
theorem witness_directory : (0x40 / 2 ^ 41 = base.pkg ∧ base.quarantined 5 = false ∧ base.shadows = [] ∧ base.partials = [] ∧ base.lock = none ∧
      base.inOwnWindow base.pkg (0x40 * 128) = false ∧ inWindow.inOwnWindow inWindow.pkg (0x40 * 128) = true ∧ inWindow.quarantined 5 = false) ∧
    (base.unitKey 0x40 = 0x40 ∧ (base.dirEntry 0x40).recalls = [] ∧ (base.dirEntry 0x40).queue = [] ∧ (base.dirEntry 0x40).state = none ∧ base.dir.length < 15) ∧
    (((dirIs (some (.shared [7]))).dirEntry 0x40).state = some (.shared [7]) ∧ (∃ o ∈ [7], o ≠ 5) ∧
      ∀ o ∈ [7], o ≠ 5 → o ∉ ((dirIs (some (.shared [7]))).dirEntry 0x40).unacked) ∧
    (((dirIs (some (.owned 7))).dirEntry 0x40).state = some (.owned 7) ∧ (7 : Nat) ≠ 5 ∧ 7 ∉ ((dirIs (some (.owned 7))).dirEntry 0x40).unacked) ∧
    ((dirIs (some (.owned 5))).dirEntry 0x40).state = some (.owned 5) ∧ ((dirIs (some (.shared [5]))).dirEntry 0x40).state = some (.shared [5]) := by
  repeat' apply And.intro
  all_goals decide +kernel
theorem witness_written_back : Calm { base with dir := [], holders := [], classes := [] } ∧ tget? base.holders (5 * 2 ^ 48 + 0x40) ≠ some .m ∧ (5 : Nat) < 28 ∧
    (tget? (holds .m 0x40 (dirIs (some (.owned 5)))).holders (5 * 2 ^ 48 + 0x40) = some .m ∧ ((holds .m 0x40 (dirIs (some (.owned 5)))).dirEntry 0x40).state = some (.owned 5) ∧
      (holds .m 0x40 (dirIs (some (.owned 5)))).unitOf 0x40 = [0x40] ∧ ((holds .m 0x40 (dirIs (some (.owned 5)))).dirEntry 0x40).queue = []) ∧
    ((holds .m 0x40).dirEntry 0x40).state ≠ some (.owned 5) ∧ away / 2 ^ 41 ≠ base.pkg ∧ tget? (holds .m).holders (5 * 2 ^ 48 + away) = some .m ∧
    Calm { holds .m with dir := [], holders := [], classes := [] } ∧ Calm { dirIs (some (.owned 33)) [(33, 0x40)] with dir := [], holders := [], classes := [] } ∧
    ((dirIs (some (.owned 33)) [(33, 0x40)]).dirEntry 0x40).state = some (.owned 33) ∧ (dirIs (some (.owned 33)) [(33, 0x40)]).unitOf 0x40 = [0x40] ∧
    (33, 0x40) ∈ ((dirIs (some (.owned 33)) [(33, 0x40)]).dirEntry 0x40).recalls ∧ ((dirIs (some (.owned 33)) [(33, 0x40)]).dirEntry 0x40).queue = [] ∧
    (dirIs (some (.owned 33)) [(33, 0x40)]).quarantined 33 = false ∧ (32 : Nat) ≤ 33 ∧ fullLine.length = 128 ∧ (base.dirEntry 0x40).state ≠ some (.owned 33) := by
  repeat' apply And.intro
  all_goals first | decide +kernel | exact calm_of (by decide +kernel)
/-- The dies of this module that hold a line of another. -/
abbrev coveredD (s : State) : List (Nat × Nat) :=
  ((List.range 28).filter fun d => tget? s.holders (d * 2 ^ 48 + away) ≠ none).map fun d => (d, away)
theorem witness_recalled : (holds .m 0x40).shadows = [] ∧ ((holds .m 0x40).unitOf 0x40).map (fun x => (5, x)) = [(5, 0x40)] ∧
    tget? (holds .m 0x40).holders (5 * 2 ^ 48 + 0x40) = some .m ∧ tget? (holds (.writeback fullLine 0) 0x40).holders (5 * 2 ^ 48 + 0x40) = some (.writeback fullLine 0) ∧
    coveredD (holds .m) = [(5, away)] ∧ tget? (holds .m).holders (5 * 2 ^ 48 + away) = some .m ∧ coveredD (holds (.writeback fullLine 1)) = [(5, away)] ∧
    tget? (holds (.writeback fullLine 1)).holders (5 * 2 ^ 48 + away) = some (.writeback fullLine 1) ∧ coveredD (holds .s) = [(5, away)] ∧
    tget? (holds .s).holders (5 * 2 ^ 48 + away) = some .s := by
  repeat' apply And.intro
  all_goals decide +kernel
/-- A set that is full: sixteen entries and the order of their use; die 7 holds the unit that was used longest ago. -/
def fullSet (v : Nat) : State :=
  { base with dir := List.replicate 16 (v, ⟨some (.owned 7), [], [], []⟩), dirOrder := List.replicate 16 v }
theorem two_in_one_set : ∃ u v, u ≠ v ∧ homeDie (lineAddr u) = homeDie (lineAddr v) ∧ Config.dirSet u = Config.dirSet v ∧ u < 1000 ∧ v < 1000 := by
  obtain ⟨x, y, h, e⟩ := Fintype.exists_ne_map_eq_of_card_lt (fun x : Fin 1000 => Config.dirSet x.1) (by simp)
  have die : ∀ x : Fin 1000, homeDie (lineAddr x.1) = 0 := by decide +kernel
  exact ⟨x.1, y.1, fun c => h (Fin.ext c), by rw [die, die], e, x.2, y.2⟩
theorem witness_directory_room : ∃ u v, (fullSet v).unitKey u = u ∧ ((fullSet v).dirEntry u).state = none ∧ (fullSet v).victim u = some v ∧
    ((fullSet v).dirEntry v).queue = [] ∧ ((fullSet v).dirEntry v).recalls = [] ∧ ((fullSet v).dirEntry v).held ≠ [] ∧
    (∀ o ∈ ((fullSet v).dirEntry v).held, o < 32 ∧ o ∉ ((fullSet v).dirEntry v).unacked) ∧ u / 2 ^ 41 = (fullSet v).pkg := by
  obtain ⟨u, v, ne, die, set, hu, -⟩ := two_in_one_set
  have ev : (fullSet v).dirEntry v = ⟨some (.owned 7), [], [], []⟩ := by simp [State.dirEntry, fullSet, List.replicate, tget, tget?]
  have eu : (fullSet v).dirEntry u = DirEntry.none := by simp [State.dirEntry, fullSet, List.replicate, tget, tget?, Ne.symm ne]
  have od : (fullSet v).dirOrder = List.replicate 16 v := rfl
  have dl : (fullSet v).dir.length = 16 := rfl
  refine ⟨u, v, ?_, by rw [eu]; rfl, ?_, by rw [ev], by rw [ev], by rw [ev]; decide, by rw [ev]; decide, ?_⟩
  · simp [State.unitKey, State.unitOf, show (fullSet v).objects = [] from rfl]
  · simp [State.victim, dl, eu, od, List.replicate, DirEntry.none, ev, Ne.symm ne, die, set]
  · rw [show (fullSet v).pkg = 0 from rfl]; omega

/-- The low 64 KiB are a reduction window, for other modules too; a partial waits; a remote store combines. -/
def window : State := { base with dxrw := vset base.dxrw 0 0x103 }
def late : State := { base with ps := 1000000 }
def combining : State := { base with remote := [(0, ⟨0, none, true, false, []⟩)], nextRemote := 1 }
theorem witness_requests : Calm base ∧ base.quarantined (32 + 1) = false ∧ base.place 0x5000 = .device ∧ 0x5000 / 2 ^ 48 = base.pkg ∧
    AtomOp.narrow (.cas .i64) = false ∧ 0x5000 % AtomOp.bytes (.cas .i64) = 0 ∧ base.reducing 1 0x5000 = false ∧
    HomedHere base 0x5000 64 ∧ base.agentMay false 0x5000 64 .load = true ∧ HomedHere base 0x5000 128 ∧ base.agentMay false 0x5000 128 .store = true ∧
    Calm window ∧ window.reducing 0 0x5000 = true ∧
    window.reducing 1 0x5000 = true ∧ window.pkg = 0 ∧ window.place 0x5000 = .device ∧ window.quarantined 32 = false ∧ window.quarantined 33 = false ∧
    AtomOp.narrow (.int .add .i64) = false ∧ base.place (0xA0 * 128 + 8) = .device ∧ Calm late ∧ 0 + 1000 ≤ late.time ∧ 0xA0 / 2 ^ 41 = late.pkg ∧
    (2 ^ 41 + 0xA0) / 2 ^ 41 ≠ late.pkg ∧ late.quarantined 33 = false ∧ (120 : Nat) < 128 ∧ (3 : Nat) < 4 ∧
    base.time < 0 + 1000 ∧ withRemote.remoteWaits 0 = false ∧ (∀ r, tget? withRemote.remote 0 = some r → r.warp < 2 ^ 40) ∧
    combining.remoteWaits 0 = true ∧ Calm withRemote ∧ Calm combining := by
  repeat' apply And.intro
  all_goals first | decide +kernel | exact calm_of (by decide +kernel)

def purging : State := { base with purges := [(33, [0, 2])], modq := 2 }
theorem witness_failed_parts : (∀ e ∈ (dirIs (some (.shared [33, 7]))).dir, e.2.queue = []) ∧
    ((dirIs (some (.shared [33, 7]))).dir.map (·.1)).Pairwise (· < ·) ∧ (dirIs (some (.shared [33, 7]))).slotQueue = [] ∧
    tget? purging.purges 33 = some [0, 2] ∧ (∃ x ∈ [0, 2], x ≠ 0) ∧ (∀ x ∈ [0], x = 0) ∧
    tget? ({ purging with purges := [(33, [0])] } : State).purges 33 = some [0] ∧ 32 ≤ 63 ∧ 63 < 64 ∧ 63 ≠ 32 + base.pkg ∧ NothingThere base [63 - 32] ∧
    ((23 : Nat) < 24 ∧ ∀ x ∈ base.gangs, ∀ g ∈ x.2.groups ++ x.2.twin, (base.group g).core / 48 ≠ 23 ∨ (base.group g).stored = true) ∧
    (24 : Nat) ≤ 27 ∧ (27 : Nat) < 28 := by
  repeat' apply And.intro
  all_goals decide +kernel

/-! ## Witnesses: collectives and twins -/

def join (index : Nat) : JoinPkt := ⟨1, true, 5, 2, index, 0, 7, 1, 0, 0, 1, [0x5000], [0x6000], none, 0, 0, 0⟩
def opened (js : List JoinPkt) : State := { base with instances := [⟨1, join 0, js, 0, [], []⟩] }
/-- Every participant of an instance of 1,024 elements has joined. -/
def longJoin (index : Nat) : JoinPkt := { join index with count := 1024, src := [0x5000, 0x5100], dst := [0x6000, 0x6100] }
def gathered : State := { base with instances := [⟨1, longJoin 0, [longJoin 0, longJoin 1], 0, [], []⟩] }
/-- The second has joined after the first chunk. -/
def lately : Instance := ⟨1, longJoin 0, [longJoin 0, longJoin 1], 1, [(List.replicate 256 3, [])], [(longJoin 1, 0)]⟩
def joinedLate : State := { base with instances := [lately] }
/-- Quarter 1 holds 256 instances of other identifiers. -/
def crowded : State := { base with instances := List.replicate 256 ⟨1, { join 0 with id := 9 }, [], 0, [], []⟩ }
/-- Module 1 is quarantined. -/
def quarantining : State := { base with modq := 2 }
theorem witness_instances : quarantining.quarantined (32 + (join 0).pkg) = true ∧ base.quarantined (32 + (join 0).pkg) = false ∧
    (1, 5) ∈ ({ base with closedIds := [(1, 5)] } : State).closedIds ∧ (1, 5) ∉ base.closedIds ∧
    ((opened [join 0]).instances.find? fun i => i.first.id = (join 1).id) = some ⟨1, join 0, [join 0], 0, [], []⟩ ∧
    joinSame (join 0) { join 1 with warp := none } = true ∧ joinSame (join 0) { { join 1 with count := 2 } with warp := none } = false ∧
    (base.instances.find? fun i => i.first.id = (join 0).id) = none ∧ (base.instances.filter fun i => i.quarter = 1).length < 256 ∧
    (crowded.instances.find? fun i => i.first.id = (join 0).id) = none ∧ 256 ≤ (crowded.instances.filter fun i => i.quarter = 1).length := by
  repeat' apply And.intro
  all_goals decide +kernel
/-- What the statement asks of an instance that is pulled. -/
abbrev pullD (s : State) (i : Instance) : Prop :=
  (s.instances.find? fun i => i.quarter = 1 && i.first.id = 5) = some i ∧ (∀ x ∈ s.instances, x.first.id = 5 → x = i) ∧
    (∀ ix, ix < i.first.p → ∃ j ∈ i.joined, j.index = ix) ∧ s.joinWait = [] ∧ 256 * i.chunk < joinBytes i.first
theorem witness_pulls : pullD (opened [join 0, join 1]) ⟨1, join 0, [join 0, join 1], 0, [], []⟩ ∧ Calm (opened [join 0, join 1]) ∧
    (∀ j ∈ [join 0, join 1], (opened [join 0, join 1]).place (j.dst.getD 0 0) = .device ∧ HomedHere (opened [join 0, join 1]) (j.dst.getD 0 0) 4 ∧
      HomedHere (opened [join 0, join 1]) (j.src.getD 0 0) 4) ∧ 256 * (0 + 1) ≥ joinBytes (join 0) ∧
    pullD gathered ⟨1, longJoin 0, [longJoin 0, longJoin 1], 0, [], []⟩ ∧ Calm gathered ∧
    (∀ j ∈ [longJoin 0, longJoin 1], gathered.place (j.dst.getD 0 0) = .device ∧ HomedHere gathered (j.dst.getD 0 0) 256 ∧ HomedHere gathered (j.src.getD 0 0) 256) ∧
    256 * (0 + 1) < joinBytes (longJoin 0) ∧ pullD joinedLate lately ∧ Calm joinedLate ∧ lately.late = (longJoin 1, 0) :: [] ∧
    (lately.out.getD 0 ([], [])).1.length ≤ 256 ∧ joinedLate.place 0x6000 = .device ∧ HomedHere joinedLate 0x6000 256 := by
  repeat' apply And.intro
  all_goals first | decide +kernel | exact calm_of (by decide +kernel)

def sideOf (k : SideKind) : State := { base with side := [⟨3, 8, 6, k⟩] }
/-- Hub die 0's table is full with blocks of another context. -/
def sideFull : State := { base with side := List.replicate 65536 ⟨4, 8, 6, .none⟩ }
theorem witness_side_tables : quarantining.quarantined (32 + 1) = true ∧ (1 : Nat) < 32 ∧ (sideOf .none).quarantined (32 + 31) = false ∧ (31 : Nat) < 32 ∧
    (sideOf .none).sideEntry 3 8 = some ⟨3, 8, 6, .none⟩ ∧ base.sideEntry 3 8 = none ∧
    (base.side.filter fun e => e.blk % 4 = 8 % 4).length < 65536 ∧ sideFull.sideEntry 3 8 = none ∧
    65536 ≤ (sideFull.side.filter fun e => e.blk % 4 = 8 % 4).length := by
  repeat' apply And.intro
  all_goals decide +kernel

/-- An open plan of one transfer, of this module or to it, with all digests. -/
def planOf (src dst : Nat) (st : XferState) (nocode strict : Bool) : Plan :=
  ⟨3, 5, strict, nocode, 0, 0, [], [⟨8, src, dst, 0x6000, st⟩], 0, [], 0, 77, [(1, 77)], [2]⟩
def planned (src dst : Nat) (st : XferState) (nocode strict : Bool) (side : List SideEntry) : State :=
  { base with plans := [planOf src dst st nocode strict], side := side }
def block : List Byte × List Bool := (List.replicate 256 1, List.replicate 8 false)
/-- A block that this module has in memory lies in its own memory. -/
theorem memHomed_of {s : State} {ctx blk : Nat} (h : (match s.sideKind ctx blk with | .mem pa => decide (HomedHere s pa 256) | _ => true) = true) :
    ∀ pa, s.sideKind ctx blk = .mem pa → HomedHere s pa 256 := by
  intro pa e; rw [e] at h; simpa using h
theorem witness_plans :
    let side : List SideEntry := [⟨3, 8, 0, .buf block.1 block.2 0⟩]
    let s := planned 0 1 .waiting true false side
    let p := planOf 0 1 .waiting true false
    (3, 5, 1) ∈ ({ base with digestsDue := [(3, 5, 1)] } : State).digestsDue ∧ (3, 5, 1) ∉ base.digestsDue ∧ (3, 5, 1) ∉ s.digestsDue ∧
    base.plan? 3 5 = none ∧ s.plan? 3 5 = some p ∧ (1 ∈ p.named ∧ 1 ≠ s.pkg ∧ 78 ≠ p.digest) ∧ (∀ y ∈ p.digests, y.2 = p.digest) ∧
    (∃ x ∈ p.xfers, x.src = s.pkg ∧ x.state = .waiting) ∧ p.agreed s.pkg = true ∧ p.xfers[0]? = some ⟨8, 0, 1, 0x6000, .waiting⟩ ∧
    (s.blockBytes 3 8 = some block ∧ block.1.length = 256 ∧ block.2.length = 8) ∧
    ((planned 0 1 .waiting true false []).sideKind 3 8 = .none ∧ (planned 0 1 .waiting true false []).plan? 3 5 = some p) ∧
    (planned 0 1 .sent true false side).plan? 3 5 = some (planOf 0 1 .sent true false) ∧ (planOf 0 1 .sent true false).agreed s.pkg = true ∧
    (planned 0 1 .sent true false []).sideKind 3 8 = .none ∧ (planned 0 1 .sent true false []).plan? 3 5 = some (planOf 0 1 .sent true false) ∧
    (planned 1 0 .waiting false true side).plan? 3 5 = some (planOf 1 0 .waiting false true) ∧ XferState.takeDone .waiting = false ∧
    XferState.sent ≠ .failed ∧ (planOf 1 0 .waiting false true).xfers[0]? = some ⟨8, 1, 0, 0x6000, .waiting⟩ := by decide +kernel
theorem witness_plan_blocks :
    let side : List SideEntry := [⟨3, 8, 0, .buf block.1 block.2 0⟩]
    let mem : List SideEntry := [⟨3, 8, 0, .mem 0x6000⟩]
    Calm (planned 0 1 .waiting true false side) ∧ Calm (planned 0 1 .sent true false mem) ∧
    (∃ b ps, (planned 0 1 .sent true false mem).blockBytes 3 8 = some (b, ps) ∧ b.length = 256 ∧ ps.length = 8) ∧
    (∀ pa, (planned 0 1 .waiting true false side).sideKind 3 8 = .mem pa → HomedHere (planned 0 1 .waiting true false side) pa 256) ∧
    (∀ pa, (planned 0 1 .sent true false mem).sideKind 3 8 = .mem pa → HomedHere (planned 0 1 .sent true false mem) pa 256) :=
  ⟨calm_of (by decide +kernel), calm_of (by decide +kernel), ⟨List.replicate 256 0, List.replicate 8 false, by decide +kernel⟩,
    memHomed_of (by decide +kernel), memHomed_of (by decide +kernel)⟩
/-- A packet that codes this module's block 8 with block 12. -/
def coded : CodedPkt := ⟨3, 5, 1, [(8, 0), (12, 1)], List.replicate 256 2, List.replicate 8 false⟩
theorem witness_coded_packets :
    let side : List SideEntry := [⟨3, 12, 0, .buf block.1 block.2 0⟩]
    let s := planned 1 0 .waiting false true side
    s.plan? 3 5 = some (planOf 1 0 .waiting false true) ∧ (planOf 1 0 .waiting false true).xfers[0]? = some ⟨8, 1, 0, 0x6000, .waiting⟩ ∧
    (coded.blocks.find? fun b => ((planOf 1 0 .waiting false true).xfers.getD b.2 ⟨0, 0, 32, 0, .waiting⟩).dst = s.pkg) = some (8, 0) ∧ s.pkg < 32 ∧
    (coded.blocks.filter fun c => c.2 ≠ 0) = [(12, 1)] ∧ s.sideKind 3 12 ≠ .none ∧ s.place 0x6000 = .device ∧ HomedHere s 0x6000 256 ∧
    (∃ c ∈ coded.blocks.filter fun c => c.2 ≠ 0, (planned 1 0 .waiting false true []).sideKind 3 c.1 = .none) ∧
    (planOf 1 0 .waiting false true).missCap = 0 ∧ (planOf 1 0 .waiting false false).strict = false := by decide +kernel
theorem witness_coded_calm : Calm (planned 1 0 .waiting false true [⟨3, 12, 0, .buf block.1 block.2 0⟩]) ∧
    (∀ pa, (planned 1 0 .waiting false true [⟨3, 12, 0, .buf block.1 block.2 0⟩]).sideKind 3 12 = .mem pa →
      HomedHere (planned 1 0 .waiting false true [⟨3, 12, 0, .buf block.1 block.2 0⟩]) pa 256) :=
  ⟨calm_of (by decide +kernel), memHomed_of (by decide +kernel)⟩
/-- Warps 0 and 512 are the two copies of a warp of a paired grid; both stand at a point, with given signatures. -/
def win (sig : W64) (forced : Bool := false) (byte : Byte := 1) : PairWin :=
  ⟨sig, 1, [(0x5000, 0, [byte])], [⟨0, 0, 0x5000, [byte], none, false, [], some 0, none⟩], 0, true, false, forced, false, none, [], false⟩
/-- A window without a record. -/
def emptyWin (forced : Bool := false) : PairWin := { win 0 forced with count := 0, recs := [], held := [] }
def twins (x y : PairWin) : State :=
  { pairedGrid with
    warps := [(0, { probeWarp with win := some x }), (512, { probeWarp with group := 512, win := some y })]
    groups := [(0, probeGroup), (512, { probeGroup with core := 8, copy := 1 })]
    gangs := [(gangKey 1 0, { Gang.none with grid := 1, groups := [0], twin := [512] })]
    cores := pairedGrid.cores ++ [(8, pairedGrid.core 0)] }
/-- What the statement asks of two copies. -/
abbrev twinsD (x y : PairWin) : Prop :=
  ((twins x y).warp 0).win = some x ∧ ((twins x y).warp 512).win = some y ∧ (twins x y).twinOf 0 = some 512 ∧ (0 : Nat) ≠ 512 ∧
    (twins x y).live 0 = true ∧ (twins x y).live 512 = true ∧ x.points = y.points ∧ x.drain = [] ∧ y.drain = [] ∧ x.due = false ∧ y.due = false
/-- The signature of the first record of a warp's window. -/
abbrev partD (x y : PairWin) (k : Nat) (z : PairWin) : W64 := sigOf ((twins x y).warp k).index (z.recs.take 1)
/-- Two copies in whose windows nothing stands in the way. -/
abbrev twinsCalm (x y : PairWin) : Prop :=
  (∀ k ∈ [0, 512], (twins x y).ost k + x.held.length ≤ 255) ∧
    ∀ h ∈ x.held, h.op = none ∧ (twins x y).place h.pa = .device ∧ HomedHere (twins x y) h.pa h.bytes.length
theorem witness_twins : twinsD (win 1) (win 2) ∧ (win 1).forced = false ∧ (win 1).atPoint = true ∧ (win 1).sig ≠ (win 2).sig ∧ twinsD (win 1) (win 1) ∧
    (win 1).count = (win 1).count ∧ twinsCalm (win 1) (win 1) ∧ Calm (twins (win 1) (win 1)) := by
  repeat' apply And.intro
  all_goals first | decide +kernel | exact calm_of (by decide +kernel)
theorem witness_forced_twins : twinsD (win 1 true) (win 2 true 2) ∧ partD (win 1 true) (win 2 true 2) 0 (win 1 true) ≠ partD (win 1 true) (win 2 true 2) 512 (win 2 true 2) ∧
    (win 1 true).forced = true ∧ Nat.min (win 1 true).count (win 2 true 2).count = 1 ∧ twinsD (win 1 true) (win 2) ∧ (win 1 true).count ≤ (win 2).count ∧
    twinsD (win 1) (win 2 true) ∧ (win 2 true).count ≤ (win 1).count ∧ twinsCalm (win 1 true) (win 2) ∧
    partD (win 1 true) (win 2) 0 (win 1 true) = partD (win 1 true) (win 2) 512 (win 2) ∧ Calm (twins (win 1 true) (win 2)) ∧
    (twinsD (win 1 true) emptyWin ∧ emptyWin.count < (win 1 true).count ∧ emptyWin.atPoint = true ∧ emptyWin.forced = false) ∧
    twinsD emptyWin (win 1 true) := by
  repeat' apply And.intro
  all_goals first | decide +kernel | exact calm_of (by decide +kernel)
/-! ## Witnesses: the platform -/

/-- Flow 0 takes every frame for a buffer of group 0, whose slot at the fill cursor has a state. -/
def ingestCb (st : SlotState) : Cb := { cbWith st .free (if st = .free then [] else [0]) with ingest := [0], slotBytes := 9344 }
def withFlow (st : SlotState := .free) (port : EthPort := .none) : State :=
  { withG (fun g => { g with cbs := vset g.cbs 0 (some (ingestCb st)) }) with
    flows := [(0, #v[0x8000000000000000, 0, 0, 0])], eth := [(0, port)], ps := 3000000 }
/-- The flow has starved since a time, with a pause in force or not. -/
def starved (since : Nat) (paused : Tab Nat) : State := withFlow .filled { EthPort.none with starve := [(0, since)], paused := paused }
def frameBytes : List Byte := List.replicate 60 0
theorem witness_frames : (∀ f, f < 64 → flowMatches (vget 0 (base.flow (0 * 64 + f)) 0) frameBytes = false) ∧ frameBytes.length ≤ 9216 ∧
    flowMatches (vget 0 (withFlow.flow (0 * 64 + 0)) 0) frameBytes = true ∧
    ((withFlow .filled).flowFree 0 = false ∧ 0 ∉ ((withFlow .filled).ethPort 0).abandoned ∧ ∀ x ∈ ((withFlow .filled).ethPort 0).frames, x.flow = 0 → x.slot = none) ∧
    ((withFlow .filled { EthPort.none with abandoned := [0] }).flowFree 0 = false ∧
      0 ∈ ((withFlow .filled { EthPort.none with abandoned := [0] }).ethPort 0).abandoned) ∧
    ((withFlow .filled).ethPort 0).bytes + frameBytes.length ≤ 8388608 ∧
    withFlow.flowGroup 0 = some (0, 0) ∧ withFlow.cb? 0 0 = some (ingestCb .free) ∧ ((ingestCb .free).slot (ingestCb .free).fcur).state = .free ∧
    (ingestCb .free).fcur < (ingestCb .free).slots.length ∧ ((ingestCb .free).reach true).map (·.1) = some 0 ∧ withFlow.flowReady 0 = true ∧
    (withFlow.ethPort 0).bytes + frameBytes.length ≤ 8388608 ∧ (∀ x ∈ (withFlow.ethPort 0).frames, x.flow ≠ 0) ∧
    tget? (withFlow.ethPort 0).starve 0 = none ∧ Calm withFlow ∧
    walkOk (withFlow.walk ((withFlow.group 0).core / 48) (withFlow.grid (withFlow.group 0).grid).ctx ((ingestCb .free).address 0) .engWrite) = true ∧
    ((ingestCb .free).address 0).toNat % 4096 + (64 + frameBytes.length) ≤ 4096 ∧
    withFlow.agentMay false ((ingestCb .free).address 0).toNat (64 + frameBytes.length) .store = true ∧
    withFlow.place ((ingestCb .free).address 0).toNat = .device ∧ HomedHere withFlow ((ingestCb .free).address 0).toNat (64 + frameBytes.length) := by
  repeat' apply And.intro
  all_goals first | decide +kernel | exact calm_of (by decide +kernel)

/-- Frames of any total length can wait in a port. -/
theorem witness_full_port (n : Nat) : ({ EthPort.none with frames := [⟨1, List.replicate n 0, 0, false, [], none⟩] } : EthPort).bytes = n := by
  simp [EthPort.bytes]
theorem witness_pauses : (starved 500 []).starving 0 0 = [0] ∧ tget? ((starved 500 []).ethPort 0).paused 0 = none ∧
    (∃ k ∈ (starved 500 []).starving 0 0, tget 0 ((starved 500 []).ethPort 0).starve k + 2000 ≤ (starved 500 []).time) ∧
    (∀ k ∈ (starved 1001 []).starving 0 0, (starved 1001 []).time < tget 0 ((starved 1001 []).ethPort 0).starve k + 2000) ∧
    tget? ((starved 500 [(0, 2500)]).ethPort 0).paused 0 = some 2500 ∧ (starved 500 [(0, 2500)]).time < 2500 + 20000 ∧
    2500 + 20000 ≤ ({ starved 500 [(0, 2500)] with ps := 22500000 } : State).time ∧
    (({ starved 500 [] with ps := 1000500000 } : State).starving 0 0).filter (fun k =>
      tget 0 (({ starved 500 [] with ps := 1000500000 } : State).ethPort 0).starve k + 1000000 ≤ ({ starved 500 [] with ps := 1000500000 } : State).time) ≠ [] ∧
    ((starved 500 []).starving 0 0).Nodup := by decide +kernel
/-- A checkpoint is being written. -/
def imagingNow : State := { base with ckpt := some ⟨4, 63, 31, [0]⟩, groups := [(0, { base.group 0 with stored := true })] }
theorem witness_pcie : (base.pcieQ = [] ∧ base.imaging = false) ∧ HomedHere base 0x5000 4096 ∧ imagingNow.imaging = true ∧
    (({ base with dxpcw := 0x001FFFF000000000 } : State).pcieQ = [] ∧ ({ base with dxpcw := 0x001FFFF000000000 } : State).imaging = false) ∧ base.dxpcw.toNat = 0 ∧ base.agentMay false 0x5000 4096 .load = true ∧ base.agentMay false 0x5000 1 .store = true ∧
    base.agentMay false 0x1000000000 1 .load = true ∧ Calm base ∧ base.place 0x5000 = .device ∧ holdsPoison 0x5000 = true ∧
    ({ base with dxpcw := 0x001FFFF000000000 } : State).agentMay false (0x1FFFF * 2 ^ 36) 1 .load = false ∧
    ({ base with dxpcw := 0x001FFFF000000000 } : State).agentMay false (0x1FFFF * 2 ^ 36) 1 .store = false := by
  repeat' apply And.intro
  all_goals first | decide +kernel | exact calm_of (by decide +kernel)

theorem bands_off : (State.reset.bands.toList.all fun v => !v.getLsbD 63) = true := by decide +kernel
theorem accepted_none (f : Nat) : ClockAccepted State.reset.bands f := by
  intro v hv h
  have := List.all_eq_true.mp bands_off v hv
  rw [h] at this; cases this
/-- One band from 0 Hz takes every clock away. -/
theorem accepted_never (f : Nat) (h : f ≤ 840) : ¬ClockAccepted (vset State.reset.bands 0 0x80000000FFFFFFFF) f := by
  intro x
  have hm : (0x80000000FFFFFFFF : W64) ∈ (vset State.reset.bands 0 0x80000000FFFFFFFF).toList := by decide +kernel
  refine x _ hm (by decide) 1 (by decide) (by decide) f (by simp) ⟨?_, ?_⟩
  · rw [show (0x80000000FFFFFFFF : W64).toNat / 2 ^ 32 % 2 ^ 31 = 0 by decide]; exact Nat.zero_le _
  · rw [show (0x80000000FFFFFFFF : W64).toNat % 2 ^ 32 = 4294967295 by decide]; omega
def userHart : State := hartAt 0 fun h => { h with mode := .u }
theorem witness_configuration : (base.pend = 0 ∧ base.heldFaults = [] ∧ (7 : W64).toNat % 16 < 8) ∧ ¬((8 : W64).toNat % 16 < 8) ∧ base.partials = [] ∧
    base.snapAt = none ∧ ClockAccepted State.reset.bands 800 ∧ (∀ f, 760 ≤ f → f ≤ 840 → ¬ClockAccepted (vset State.reset.bands 0 0x80000000FFFFFFFF) f) ∧
    (({ base with clkNext := some 801 } : State).clkNext = some 801 ∧ ({ base with clkNext := some 801 } : State).untilLatch = none) ∧ ({ base with dxflsel := 0x200 } : State).dxflsel.toNat / 2 ^ 9 % 4 ≠ 0 ∧
    base.dxflsel.toNat / 2 ^ 9 % 4 = 0 ∧ (vget 0 (base.flow base.selectedFlow) 0).getLsbD 63 = false ∧
    base.flowGroup base.selectedFlow = none ∧
    base.bindable (0x8000000000000000 &&& 0xFFFFFFF00000FFFF) = none ∧
    ((withG fun g => { g with cbs := vset g.cbs 0 (some { cbWith .free .free [] with slotBytes := 9344, dev := true }) }).bindable
      (0x8000000000000000 &&& 0xFFFFFFF00000FFFF)).isSome = true ∧
    base.hartRuns 0 = true ∧ (base.hart 0).waiting = none ∧ (base.hart 0).tx = none ∧ (base.hart 0).mode = .m ∧ Calm base ∧
    NothingThere base [base.dxrtsel] ∧ (0x5C6 ≠ 0x5CA ∧ ¬(0x5D0 ≤ 0x5C6)) ∧ (base.hartRuns 67 = true ∧ (base.hart 67).mode = .m) ∧
    (userHart.hartRuns 0 = true ∧ (userHart.hart 0).mode = .u ∧ (userHart.hart 0).waiting = none ∧ (userHart.hart 0).tx = none) := by
  repeat' apply And.intro
  any_goals decide +kernel
  · exact accepted_none 800
  · exact fun f _ h => accepted_never f h
  · exact calm_base
/-- The table entries that translate virtual address 0 of context 0 to itself, and a record at 0x40000 of one element of 128 bytes there. -/
def shapeBytes : List Byte := [0,0,0,0,0,0,0,0, 0,0, 1, 3, 0,0,0,0, 16,0,0,0, 0,0,0,0, 0,0,0,0, 0,0,0,0, 0,0,0,0, 0,0,0,0, 0,0,0,0, 0,0,0,0, 16,0, 1,0, 1,0, 1,0, 0,0,0,0,0,0,0,0]
def withShape (objs : List Obj) : State :=
  { base with
    mem := Memory.writeBytes [] 0x40000 shapeBytes
    objects := objs }
def obj0 : Obj := ⟨0, 0, 0, []⟩
/-- The same with a context table at 0x10000 whose context 0 maps the low GiB to itself. -/
def mapped (objs : List Obj) : State :=
  { withShape objs with
    dxctb := 0x10001
    mem := [(0x10000, 0x11001), (0x11000, 0x12001), (0x12000, 0x13001), (0x13000, 0xF)].foldl (fun m x => Memory.writeBytes m x.1 (leBytes 8 x.2)) (withShape []).mem }
theorem witness_registration : (mapped []).objTry (Shape.read ((mapped []).getBytes 0x40000 64)) = .ok ⟨0, 0, 0, [[0]]⟩ ∧
    (Shape.read ((mapped []).getBytes 0x40000 64)).malformed ((mapped []).getBytes 0x40000 64) = false ∧ Calm (mapped []) ∧
    (mapped []).place 0x40000 = .device ∧ (mapped []).poisonedIn 0x40000 64 = false ∧ (mapped []).dxobj.getLsbD 63 = false ∧
    ({ base with objPending := some ⟨true, 7, ⟨0, 0, 0, []⟩⟩ } : State).objPending = some ⟨true, 7, ⟨0, 0, 0, []⟩⟩ ∧ (7 : Nat) ≠ 0 := by
  repeat' apply And.intro
  all_goals first | decide +kernel | exact calm_of (by decide +kernel)
theorem witness_objects : base.dxobj.getLsbD 63 = false ∧ ({ base with dxobj := 0x8000000000000000 } : State).dxobj.getLsbD 63 = true ∧
    Calm (withShape []) ∧ (withShape []).place 0x40000 = .device ∧ (withShape []).poisonedIn 0x40000 64 = false ∧
    ((0x40001 : W64).toNat / 64 % 2 ^ 47 * 64 = 0x40000) ∧
    (Shape.read ((withShape []).getBytes 0x40000 64)).malformed ((withShape []).getBytes 0x40000 64) = false ∧
    (Shape.read (base.getBytes 0x40000 64)).malformed (base.getBytes 0x40000 64) = true ∧
    (match (withShape []).objTry (Shape.read ((withShape []).getBytes 0x40000 64)) with | .bad 4 => true | _ => false) = true ∧
    (∀ o ∈ (withShape []).objects, ¬(o.base = 0 ∧ o.ctx = 0)) ∧
    ((withShape [obj0]).objects.find? fun o => o.base = (Shape.read ((withShape []).getBytes 0x40000 64)).base &&
      o.ctx = (Shape.read ((withShape []).getBytes 0x40000 64)).ctx) = some obj0 ∧
    ({ base with objPending := some ⟨true, 0, obj0⟩ } : State).objPending = some ⟨true, 0, obj0⟩ ∧ Calm { base with objPending := some ⟨true, 0, obj0⟩ } := by
  repeat' apply And.intro
  all_goals first | decide +kernel | exact calm_of (by decide +kernel)


/-! ## Witnesses: machinery and harts -/

theorem witness_snapshots : (2000 ≤ ({ base with snapAt := some 2000, ps := 2000000 } : State).time ∧
    ({ base with snapAt := some 2000, ps := 2000000 } : State).snapLatched = none) ∧ ({ base with snapAt := some 2000 } : State).snapAt = some 2000 ∧ ({ base with snapAt := some 2000 } : State).snapLatched = none ∧
    ({ base with snapLatched := some [] } : State).snapLatched = some [] ∧ Calm base ∧ MemoryCanonical base := by
  repeat' apply And.intro
  all_goals first | decide +kernel | exact calm_of (by decide +kernel)

theorem witness_hardware_errors : base.place (0x5000 / 256 * 256) = .device ∧ 0x5000 / 256 * 256 / 2 ^ 48 = base.pkg ∧
    ((List.range 10).filter fun i => (0 : Nat).testBit i) = [] ∧ ((List.range 10).filter fun i => (3 : Nat).testBit i) = [0, 1] ∧
    ((List.range 10).filter fun i => (7 : Nat).testBit i) = [0, 1, 2] ∧ (0x401 : Nat).testBit 10 = true ∧
    ((List.range 10).filter fun i => (0x401 : Nat).testBit i) = [0] ∧ base.live 0 = true ∧
    (tget? base.gangs (base.groupOf 0).gangKey).isSome = true ∧ (withW fun w => { w with formed := true }).live 0 = true ∧
    ((withW fun w => { w with formed := true }).warp 0).formed = true ∧ vget 32 ((withW fun w => { w with formed := true }).core 0).skip 0 ≠ 31 ∧
    (tget? (withW fun w => { w with formed := true }).gangs ((withW fun w => { w with formed := true }).groupOf 0).gangKey).isSome = true := by decide +kernel
/-- Hart 0 in a transaction, or with a reservation. -/
def hartHolds (r : Nat) : State := hartAt 0x4000 fun h => { h with lr := some r }
theorem witness_reaches : HartReaches base 0 .load .load 0x4000 8 1 [⟨0x4000, 0, 8⟩] ∧ HartReaches base 0 .store .store 0x4000 1 1 [⟨0x4000, 0, 1⟩] ∧
    HartReaches base 0 .load .load 0x4FFD 8 1 [⟨0x4FFD, 0, 3⟩, ⟨0x5000, 3, 5⟩] ∧ HartReaches base 0 .load .load 0x4000 4 4 [⟨0x4000, 0, 4⟩] ∧
    HartReaches base 0 .store .store 0x4000 8 8 [⟨0x4000, 0, 8⟩] ∧
    HartReaches base 0 .store (.atom false) 0x4000 (AtomOp.bytes (.int .add .i64)) (AtomOp.bytes (.int .add .i64)) [⟨0x4000, 0, 8⟩] := by
  repeat' apply And.intro
  all_goals decide +kernel

theorem witness_harts : base.hartRuns 0 = true ∧ (base.hart 0).waiting = none ∧ (base.hart 0).tx = none ∧ HartClean base [⟨0x4000, 0, 8⟩] ∧
    base.place 0x4000 = .device ∧ hostAmo (.int .add .i64) = true ∧ base.reducing base.pkg 0x4000 = false ∧ HartsDrained base ∧
    (base.hart 0).csrMay 0xDC0 false = true ∧ (base.hart 0).csrMay 0xDC8 false = false ∧
    HartReaches (hartHolds 0x4001) 0 .store .store 0x4000 8 8 [⟨0x4000, 0, 8⟩] ∧
    Calm ((hartHolds 0x4001).modHart 0 fun x => { x with lr := none }) ∧ ((hartHolds 0x4001).hart 0).lr = some 0x4001 ∧
    mailWaits.hartRuns 0 = true ∧ (mailWaits.hart 0).waiting = none ∧ (mailWaits.hart 0).tx = none ∧ mailWaits.senderWaits (.hart 0) = true ∧
    base.senderWaits (.hart 0) = false ∧ (1 % 2 = 1 ∧ 3 % 8 ≠ 0) ∧ ¬(2 % 2 = 1 ∧ 3 % 8 ≠ 0) ∧
    (hartInTx.hart 0).tx = some ⟨[], [(0x5000, 7)], 0x104, 31⟩ ∧ hartInTx.hartRuns 0 = true ∧ (hartInTx.hart 0).waiting = none ∧
    (base.hart 0).mode = .m ∧ (userHart.hart 0).mode ≠ .m := by
  repeat' apply And.intro
  all_goals first | decide +kernel | exact calm_of (by decide +kernel)

/-- A save to slot 4 is in progress. -/
def saving : State := ({ base with ckpt := some ⟨4, 63, 31, [0]⟩, groups := [(0, { base.group 0 with stored := true })] } : State).setSlotState 0 4
/-- Interrupt 7 is enabled, in M mode or, delegated, in S mode; hart 0 may be in a transaction. -/
def enabled (f : Hart → Hart) : State := hartAt 0 fun h => f { h with mie := 0x80, mstatus := 8 }
theorem witness_interrupts : ((base.hart 0).mip = 0 ∧ (base.hart 0).mie.getLsbD 7 = false ∧ base.imaging = false) ∧ imagingNow.imaging = true ∧
    (((enabled id).hart 0).mip = 0 ∧ ((enabled id).hart 0).mie.getLsbD 7 = true ∧ ((enabled id).hart 0).mideleg.getLsbD 7 = false ∧
      ((enabled id).hart 0).mstatus.getLsbD 3 = true ∧ ((enabled id).hart 0).tx = none ∧ (enabled id).imaging = false) ∧
    (let s := enabled fun h => { h with mideleg := 0x80, mode := .s, mstatus := 2 }
     (s.hart 0).mip = 0 ∧ (s.hart 0).mie.getLsbD 7 = true ∧ (s.hart 0).mideleg.getLsbD 7 = true ∧ (s.hart 0).mode = .s ∧ (s.hart 0).mstatus.getLsbD 1 = true) ∧
    ((enabled fun h => { h with tx := some ⟨[], [], 0x104, 31⟩ }).hart 0).tx = some ⟨[], [], 0x104, 31⟩ := by decide +kernel
theorem witness_saves : saving.ckpt = some ⟨4, 63, 31, [0]⟩ ∧ saving.slotState 0 = 4 ∧ (∀ g ∈ saving.groups, g.2.stored = true) ∧
    saving.partials = [] ∧ saving.shadows = [] ∧ MemoryCanonical saving ∧ (4 : Nat) < 5 ∧ (31 : Nat) < 32 ∧ (63 : Nat) < 64 := by decide +kernel
theorem witness_starts : State.reset.boot = .starting ∧ 30000000000 ≤ ({ State.reset with ps := 30000000000000 } : State).time ∧
    State.reset.bootAttempts = 0 ∧ ({ State.reset with powered := false } : State).powered = false := by decide +kernel

/-! ## Witnesses: encodings and steps -/

theorem witness_encodings : Instr.exit.wf = true ∧ encode .exit ≠ [] ∧ encodeHost .exit = [] ∧ (Instr.dxLaunch 31 5).wf = true ∧
    encode (.dxLaunch 31 5) ≠ [] ∧ encodeHost (.dxLaunch 31 5) ≠ [] ∧ (decode [0xFC800040]).toOption = some (.exit, 1) := by decide +kernel
/-- Warp 0 is to issue SLDK $s65, 1, which stands at 0x1000. -/
def stepState : State := { base with moves := [.issue 0 0], mem := Memory.writeBytes [] 0x1000 [1, 0, 0x82, 0xBC] }
/-- The state in which the step looks for the first ready warp of a quadrant. -/
def afterMove (s : State) : State := { s with moves := [], iss := { s.iss with cut := 0 } }
theorem witness_fetches : FetchesWord (afterMove stepState) (0 * 64 + 0 % 64) (0x1000 + BitVec.ofNat 64 (4 * 0)) 0x1000 0xBC820001 :=
  ⟨by decide +kernel, ⟨40, false, by decide +kernel⟩, by decide +kernel, by decide +kernel⟩
/-- The turn of a quadrant begins with warp 0. -/
theorem witness_turn : (afterMove stepState).quadOrder 0 (0 % 64 / 16) =
    [] ++ 0 :: ((afterMove stepState).quadOrder 0 0).tail ∧ (afterMove stepState).lateEvent 0 = false ∧
    ([0x1000] : List Nat).length = 1 := by decide +kernel
/-- Behind a warp that has left no thread to issue, and one that may not be considered. -/
theorem witness_not_ready : NotReady endedWarp 0 ∧ NotReady base 1 :=
  ⟨.inr (by decide +kernel), .inl (by decide +kernel)⟩
/-- The instruction answers a next state where the step runs it. -/
theorem witness_step : stepState.powered = true ∧ stepState.moves = .issue 0 0 :: [] ∧ Calm stepState ∧
    (afterMove stepState).considers (afterMove stepState).stalls 0 = true ∧ ((afterMove stepState).mcheck 0).isNone = true ∧
    (stepState.warp 0).begins = some (0xFFFFFFFF, 0xFFFFFFFF, 0x1000, 0, []) ∧ (0x1000 : W64).toNat % 4 = 0 ∧ (stepState.warp 0).code = [] ∧
    (stepState.warp 0).win = none ∧ (decode [0xBC820001]).toOption = some (.sldk 65 0 1, 1) ∧ (afterMove stepState).pendingS 0 = [] ∧
    (match exec (.sldk 65 0 1)
        { (((afterMove stepState).touchPages .fetch [⟨32, 0x1000, 4⟩]).fetchReach (.thread 0 33) 0x1000 4) with
          iss := ⟨0, 0xFFFFFFFF, 0xFFFFFFFF, 0x1000, 0x1000, [0xBC820001], repIndex (.sldk 65 0 1) 0, 0⟩ } with
      | .next _ => true
      | _ => false) = true := by
  repeat' apply And.intro
  all_goals first | decide +kernel | exact calm_of (by decide +kernel)

/-- Hart 0 is to execute dx.launch x10, (x11), which stands at 0x1000. -/
def hartStep : State := { hartAt 0 (fun h => { h with pc := 0x1000 }) with moves := [.hart 0], mem := Memory.writeBytes [] 0x1000 [0x0B, 0x85, 5, 0] }
/-- What hartReach answers when it goes on. -/
def went : State ⊕ State → Option State
  | .inr t => some t
  | .inl _ => none
theorem went_iff {x : State ⊕ State} {t : State} (h : went x = some t) : x = .inr t := by
  cases x <;> simp_all [went]
def hartStep1 : State := (went ((afterMove hartStep).hartReach 0 0x1000)).getD base
def hartStep2 : State := (went (hartStep1.hartReach 0 0x1002)).getD base
theorem witness_hart_step : hartStep.moves = .hart 0 :: [] ∧ hartStep.hartRuns 0 = true ∧ (hartStep.hart 0).interrupt = none ∧ (hartStep.hart 0).pc = 0x1000 ∧
    (afterMove hartStep).hartReach 0 0x1000 = .inr hartStep1 ∧ hartStep1.hartReach 0 (0x1000 + 2) = .inr hartStep2 ∧
    hartStep1.hart 0 = hartStep.hart 0 ∧ hartStep2.hart 0 = hartStep.hart 0 ∧
    FetchesHalf hartStep1 0 0x1000 0x850B ∧ FetchesHalf hartStep2 0 0x1000 0x850B ∧ FetchesHalf hartStep2 0 (0x1000 + 2) 0x0005 ∧
    decodeHost (0x850B + 0x0005 * 2 ^ 16) = some (.dxLaunch 10 11) := by
  refine ⟨by decide +kernel, by decide +kernel, by decide +kernel, by decide +kernel, went_iff (by decide +kernel), went_iff (by decide +kernel),
    by decide +kernel, by decide +kernel, ⟨[⟨0x1000, 0, 2⟩], ?_⟩, ⟨[⟨0x1000, 0, 2⟩], ?_⟩, ⟨[⟨0x1002, 0, 2⟩], ?_⟩, by decide +kernel⟩
  all_goals decide +kernel

theorem witness_other_moves : encode (.moduleStart 0) = [] ∧ (Instr.moduleStart 0).wf = true ∧ MemoryCanonical State.reset ∧
    (match step State.reset with | .next _ => true | _ => false) = true := by decide +kernel
/-! ## Witnesses: the completion of the rarer forms -/

def arriving : State := single withMeet
theorem witness_rarer_forms : (base.w.handler = false ∧ (∀ L, L < 32 → base.iss.set.getLsbD L = true → (base.w.thread L).tx = none ∧ (base.w.thread L).irr = false) ∧
      base.w.win = none ∧ NoTakes base) ∧
    (base.act p0 ≠ 0 ∧ canonical (wordTarget base 19 0x7FFFF) = true ∧ (7 : Nat) < 8) ∧
    (NoTx base ∧ (vget ⟨false, 0, 0, 0⟩ base.w.meets 7).opened = false) ∧
    (NoTx arriving ∧ (vget ⟨false, 0, 0, 0⟩ arriving.w.meets 7).opened = true ∧ ∃ L, L < 32 ∧ (vget ⟨false, 0, 0, 0⟩ arriving.w.meets 7).members.getLsbD L = true ∧
      (arriving.w.thread L).status ≠ .exited ∧ (vget ⟨false, 0, 0, 0⟩ arriving.w.meets 7).arrived.getLsbD L = false ∧ (arriving.act p0).getLsbD L = false) ∧
    (((join 0).id % 4, (join 0).id) ∉ base.closedIds ∧ (∀ i ∈ base.instances, i.first.id ≠ (join 0).id) ∧
      (base.instances.filter fun i => i.quarter = (join 0).id % 4).length < 256 ∧ base.quarantined (32 + (join 0).pkg) = false) ∧
    ((gathered.instances.find? fun i => i.quarter = 1 && i.first.id = 5) = some ⟨1, longJoin 0, [longJoin 0, longJoin 1], 0, [], []⟩ ∧
      (∀ x ∈ gathered.instances, x.first.id = 5 → x = ⟨1, longJoin 0, [longJoin 0, longJoin 1], 0, [], []⟩) ∧
      (∀ ix, ix < (longJoin 0).p → ∃ j ∈ [longJoin 0, longJoin 1], j.index = ix) ∧
      (∀ j ∈ [longJoin 0, longJoin 1], gathered.place (j.dst.getD 0 0) = .device ∧ HomedHere gathered (j.dst.getD 0 0) 256 ∧
        HomedHere gathered (j.src.getD 0 0) 256) ∧ 256 * (0 + 1) < joinBytes (longJoin 0)) ∧
    Calm gathered ∧ ((sideOf (.mem 0x6000)).sideEntry 3 8 = some ⟨3, 8, 6, .mem 0x6000⟩ ∧ SideKind.mem 0x6000 ≠ .none ∧ (1 : Nat) < 32 ∧ (sideOf (.mem 0x6000)).quarantined (32 + 1) = false) := by
  repeat' apply And.intro
  all_goals first | decide +kernel | exact calm_of (by decide +kernel)

/-- A packet of block 8 alone. -/
def single8 : CodedPkt := ⟨3, 5, 1, [(8, 0)], List.replicate 256 2, List.replicate 8 false⟩
theorem witness_rarer_plans :
    let side : List SideEntry := [⟨3, 8, 0, .buf block.1 block.2 0⟩]
    let s := planned 0 1 .waiting true false side
    let p := planOf 0 1 .waiting true false
    let u := planned 1 0 .waiting false true []
    base.plan? 3 5 = none ∧ (3, 5, 1) ∉ base.digestsDue ∧ (∀ pa, s.sideKind 3 8 = .mem pa → HomedHere s pa 256) ∧ s.plan? 3 5 = some p ∧ p.xfers[0]? = some ⟨8, 0, 1, 0x6000, .waiting⟩ ∧ Calm s ∧
    (s.blockBytes 3 8 = some block ∧ block.1.length = 256 ∧ block.2.length = 8) ∧ p.agreed s.pkg = true ∧ p.nocode = true ∧
    single8.blocks = [(8, 0)] ∧ u.plan? 3 5 = some (planOf 1 0 .waiting false true) ∧
    (planOf 1 0 .waiting false true).xfers[0]? = some ⟨8, 1, 0, 0x6000, .waiting⟩ ∧ XferState.waiting.takeDone = false ∧ u.pkg = 0 ∧
    u.place 0x6000 = .device ∧ HomedHere u 0x6000 256 ∧ Calm u ∧ XferState.waiting ≠ .failed ∧
    (planned 0 1 .sent true false side).plan? 3 5 = some (planOf 0 1 .sent true false) ∧ (planOf 0 1 .sent true false).agreed 0 = true := by
  repeat' apply And.intro
  all_goals first | exact memHomed_of (by decide +kernel) | decide +kernel | exact calm_of (by decide +kernel)

/-! ## Worked examples of the spec, one instruction each -/

/-- The instruction that the words encode answers a next state that satisfies a test. -/
def runs (ws : List Nat) (s : State) (p : State → Bool) : Bool :=
  match decode ws with
  | .ok (i, _) => match exec i { s with iss := { s.iss with words := ws } } with
    | .next t => p t
    | _ => false
  | _ => false
/-- The same of a term. -/
def does (i : Instr) (s : State) (p : State → Bool) : Bool :=
  match exec i s with
  | .next t => p t
  | _ => false
/-- R55: −7 SDIV 2 is −3, and −7 SREM 2 is −1. -/
theorem test_sdiv : does (.sdiv ⟨6, 5, .imm 2⟩) (withS 5 (-7)) (fun t => t.rdS 6 = -3) = true := by decide +kernel
theorem test_srem : does (.srem ⟨6, 5, .imm 2⟩) (withS 5 (-7)) (fun t => t.rdS 6 = -1) = true := by decide +kernel
/-- R114: DIV.i8 of 0x80 by 0xFF delivers −128, with no trap. -/
theorem test_div_i8 : does (.div ⟨p0, .i8, 4, 1, .reg 2⟩)
    (withW fun w => { w with vregs := vset (vset w.vregs 1 (Vector.replicate 32 0x80)) 2 (Vector.replicate 32 0xFF) })
    (fun t => t.w.rdV 4 31 = 0xFFFFFF80 ∧ t.w.handler = false) = true := by decide +kernel
/-- R120: the word of MOVI.z v3, 7. -/
theorem test_movi : runs [0x34018007] base (fun t => t.w.rdV 3 0 = 7 ∧ t.w.rdV 3 31 = 7) = true := by decide +kernel
/-- R141: CVT.i8.f32 v4, v2 with v2 = 127.5 delivers 127 and sets NV. -/
theorem test_cvt : runs [0x58420281] (single (withV 2 0x42FF0000)) (fun t => t.w.rdV 4 0 = 127 ∧ t.w.fpmode ≠ base.w.fpmode) = true := by
  decide +kernel
/-- R147: the example of CDOT.ci8 v10, v2, v3. -/
theorem test_cdot : runs [0x5E050206]
    (single (withW fun w =>
      let v := vset (vset w.vregs 2 (Vector.replicate 32 0x0401FE03)) 3 (Vector.replicate 32 0x01FF0502)
      { w with baseRegs := 32, vregs := vset (vset v 10 (Vector.replicate 32 100)) 11 (Vector.replicate 32 (-7)) }))
    (fun t => t.w.rdV 10 0 = 111 ∧ t.w.rdV 11 0 = 1 ∧ t.w.fpmode = base.w.fpmode) = true := by decide +kernel
/-- R220: lanes 0 to 3 add lane + 1 to a word that holds 10. -/
theorem test_atom : runs [0xFE270000, 0x78828800]
    { withW (fun w => { w with baseRegs := 32, vregs := vset (vset w.vregs 8 (Vector.replicate 32 0x5000)) 5 (Vector.ofFn fun i : Fin 32 => BitVec.ofNat 32 (i + 1))
                               mregs := vset w.mregs 2 0xF }) with
      mem := Memory.writeBytes [] 0x5000 [10] }
    (fun t => t.w.rdV 5 0 = 10 ∧ t.w.rdV 5 1 = 11 ∧ t.w.rdV 5 2 = 13 ∧ t.w.rdV 5 3 = 16 ∧ t.w.rdV 5 4 = 5 ∧
      Memory.read t.mem 0x5000 = 20) = true := by decide +kernel
/-- R169: PART 8 writes TS 011. -/
theorem test_part : runs [0xF6000003] base (fun t => t.w.part = 3) = true := by decide +kernel
/-- R168: TAKE.V 0b1000 grants block 3. -/
theorem test_take : runs [0xF4000008] (withW fun w => { w with vext := 0 }) (fun t => t.w.holdsV 120 ∧ t.w.holdsV 127) = true := by decide +kernel
/-- R256: with rows of 128 bytes and chunks of 16, offset 420 is written at 404, and 36 stays. -/
theorem test_swizzle : let c : Cb := { cbWith .free .free [] with swe := true, swc := 16, swf := 0, swrb := 128 }
    c.place 420 = 404 ∧ c.place 36 = 36 := by decide +kernel
/-- R414: one band of 11,950 to 12,050 MHz gives 796 MHz. -/
theorem test_band : does (.bandWrite 0 (BitVec.ofNat 64 (2 ^ 63 + 11950 * 2 ^ 32 + 12050))) base (fun t => t.clkNext = some 796) = true := by
  decide +kernel
/-- R3: the window of core 13 of compute die 5. -/
theorem test_window : windowBase 0 253 = 0x7F0534000000 ∧ base.place (0x7F0534000000 + 0xC0000) = .unbacked := by decide +kernel

end Sys2Proof.Tests
end

section
/-! # Steps keep the memory canonical -/

namespace Sys2Proof.Proofs

open Machine Laws

/-! O57. A function that a step runs has a lemma here, `<function>_canonical`, in the order of the model's own text: its answer is canonical
when the state it starts from is. The lemma cites those of the functions it calls; bytes change only through the operations of `Laws` that
write, fill and filter the cells. An instruction that is one call of a shared operation has its case in `exec_canonical` alone. -/

/-! ## The form of an answer -/

/-- The next state of an outcome is canonical; an outcome without one says nothing. -/
def NextCanonical : Res → Prop
  | .next t => MemoryCanonical t
  | _ => True
/-- The state that a check answers, where it answers one. -/
def SomeCanonical : Option State → Prop
  | some t => MemoryCanonical t
  | none => True
/-- The state in which a hart waits, or with which it goes on. -/
def SumCanonical : State ⊕ State → Prop
  | .inl t => MemoryCanonical t
  | .inr t => MemoryCanonical t
/-- The state in which a fetch ends. -/
def FetchedCanonical : Fetched → Prop
  | .word t _ => MemoryCanonical t
  | .stop t => MemoryCanonical t
/-- The state in which a check of a band ends. -/
def CheckCanonical : CheckEnd → Prop
  | .pass t => MemoryCanonical t
  | .fail t => MemoryCanonical t
/-- The state in which the access of a hart stops, or with which it goes on. -/
def GateCanonical : HGate → Prop
  | .stop t => MemoryCanonical t
  | .go t _ => MemoryCanonical t
/-- The state in which an attempt to issue ends; a warp that is not ready changes none. -/
def AttemptCanonical : Attempt → Prop
  | .unready => True
  | .waits t => MemoryCanonical t
  | .issued t => MemoryCanonical t
  | .ended r => NextCanonical r

theorem nextCanonical_of_eq {r : Res} {t : State} (h : NextCanonical r) (e : r = .next t) : MemoryCanonical t := by subst e; exact h
theorem someCanonical_of_eq {o : Option State} {t : State} (h : SomeCanonical o) (e : o = some t) : MemoryCanonical t := by subst e; exact h
theorem sumCanonical_of_inl {o : State ⊕ State} {t : State} (h : SumCanonical o) (e : o = .inl t) : MemoryCanonical t := by subst e; exact h
theorem sumCanonical_of_inr {o : State ⊕ State} {t : State} (h : SumCanonical o) (e : o = .inr t) : MemoryCanonical t := by subst e; exact h
theorem fetchedCanonical_of_word {o : Fetched} {t : State} {w : Nat} (h : FetchedCanonical o) (e : o = .word t w) : MemoryCanonical t := by
  subst e; exact h
theorem fetchedCanonical_of_stop {o : Fetched} {t : State} (h : FetchedCanonical o) (e : o = .stop t) : MemoryCanonical t := by subst e; exact h
theorem checkCanonical_of_pass {o : CheckEnd} {t : State} (h : CheckCanonical o) (e : o = .pass t) : MemoryCanonical t := by subst e; exact h
theorem checkCanonical_of_fail {o : CheckEnd} {t : State} (h : CheckCanonical o) (e : o = .fail t) : MemoryCanonical t := by subst e; exact h
theorem gateCanonical_of_stop {o : HGate} {t : State} (h : GateCanonical o) (e : o = .stop t) : MemoryCanonical t := by subst e; exact h
theorem gateCanonical_of_go {o : HGate} {t : State} {ps : List HPiece} (h : GateCanonical o) (e : o = .go t ps) : MemoryCanonical t := by
  subst e; exact h
theorem attemptCanonical_of_waits {a : Attempt} {t : State} (h : AttemptCanonical a) (e : a = .waits t) : MemoryCanonical t := by subst e; exact h
theorem attemptCanonical_of_issued {a : Attempt} {t : State} (h : AttemptCanonical a) (e : a = .issued t) : MemoryCanonical t := by
  subst e; exact h
theorem attemptCanonical_of_ended {a : Attempt} {r : Res} (h : AttemptCanonical a) (e : a = .ended r) : NextCanonical r := by subst e; exact h
theorem fstCanonical_of_eq {α : Type} {p : State × α} {t : State} {x : α} (h : MemoryCanonical p.1) (e : p = (t, x)) : MemoryCanonical t := by
  subst e; exact h

/-! ## Branches and folds -/

section
variable {c : Prop} {d : Decidable c}
theorem canonical_ite {s t : State} (hs : MemoryCanonical s) (ht : MemoryCanonical t) : MemoryCanonical (@ite _ c d s t) := by
  split <;> assumption
theorem fstCanonical_ite {α : Type} {p q : State × α} (hp : MemoryCanonical p.1) (hq : MemoryCanonical q.1) :
    MemoryCanonical (@ite _ c d p q).1 := by
  split <;> assumption
theorem killedCanonical_ite {x y : Killed} (hx : MemoryCanonical x.after) (hy : MemoryCanonical y.after) :
    MemoryCanonical (@ite _ c d x y).after := by
  split <;> assumption
theorem nextCanonical_ite {r q : Res} (hr : NextCanonical r) (hq : NextCanonical q) : NextCanonical (@ite _ c d r q) := by
  split <;> assumption
theorem someCanonical_ite {o p : Option State} (ho : SomeCanonical o) (hp : SomeCanonical p) : SomeCanonical (@ite _ c d o p) := by
  split <;> assumption
theorem sumCanonical_ite {o p : State ⊕ State} (ho : SumCanonical o) (hp : SumCanonical p) : SumCanonical (@ite _ c d o p) := by
  split <;> assumption
theorem fetchedCanonical_ite {o p : Fetched} (ho : FetchedCanonical o) (hp : FetchedCanonical p) : FetchedCanonical (@ite _ c d o p) := by
  split <;> assumption
theorem checkCanonical_ite {o p : CheckEnd} (ho : CheckCanonical o) (hp : CheckCanonical p) : CheckCanonical (@ite _ c d o p) := by
  split <;> assumption
theorem gateCanonical_ite {o p : HGate} (ho : GateCanonical o) (hp : GateCanonical p) : GateCanonical (@ite _ c d o p) := by
  split <;> assumption
theorem attemptCanonical_ite {a b : Attempt} (ha : AttemptCanonical a) (hb : AttemptCanonical b) : AttemptCanonical (@ite _ c d a b) := by
  split <;> assumption
end

theorem foldl_canonical {α : Type} {f : State → α → State} {l : List α} {s : State} (hs : MemoryCanonical s)
    (hf : ∀ {t x}, MemoryCanonical t → MemoryCanonical (f t x)) : MemoryCanonical (l.foldl f s) :=
  canonical_foldl (fun _ _ => hf) l s hs
theorem foldl_fstCanonical {α β : Type} {f : State × β → α → State × β} {l : List α} {p : State × β} (hp : MemoryCanonical p.1)
    (hf : ∀ {q x}, MemoryCanonical q.1 → MemoryCanonical (f q x).1) : MemoryCanonical (l.foldl f p).1 :=
  List.foldlRecOn (motive := fun q => MemoryCanonical q.1) l f hp fun _ h _ _ => hf h
theorem foldl_killedCanonical {α : Type} {f : Killed → α → Killed} {l : List α} {x : Killed} (hx : MemoryCanonical x.after)
    (hf : ∀ {y a}, MemoryCanonical y.after → MemoryCanonical (f y a).after) : MemoryCanonical (l.foldl f x).after :=
  List.foldlRecOn (motive := fun y => MemoryCanonical y.after) l f hx fun _ h _ _ => hf h

section
variable {s : State}

/-! ### Accessors of the state and the end of an issue -/

theorem setWarp_canonical {k w} (hs : MemoryCanonical s) : MemoryCanonical (s.setWarp k w) := hs
theorem modWarp_canonical {k f} (hs : MemoryCanonical s) : MemoryCanonical (s.modWarp k f) := setWarp_canonical hs
theorem modGang_canonical {k f} (hs : MemoryCanonical s) : MemoryCanonical (s.modGang k f) := hs
theorem modGrid_canonical {k f} (hs : MemoryCanonical s) : MemoryCanonical (s.modGrid k f) := hs
theorem modCore_canonical {c f} (hs : MemoryCanonical s) : MemoryCanonical (s.modCore c f) := hs
theorem modSlot_canonical {c i f} (hs : MemoryCanonical s) : MemoryCanonical (s.modSlot c i f) := modCore_canonical hs
theorem modHart_canonical {h f} (hs : MemoryCanonical s) : MemoryCanonical (s.modHart h f) := hs
theorem modPort_canonical {p f} (hs : MemoryCanonical s) : MemoryCanonical (s.modPort p f) := hs
theorem emit_canonical {o} (hs : MemoryCanonical s) : MemoryCanonical (s.emit o) := hs
theorem recordThreads_canonical {w set} (hs : MemoryCanonical s) : MemoryCanonical (s.recordThreads w set) :=
  foldl_canonical hs fun ht => putNat_canonical (putNat_canonical ht _ _ _) _ _ _
theorem modW_canonical {f} (hs : MemoryCanonical s) : MemoryCanonical (s.modW f) := modWarp_canonical hs
theorem modG_canonical {f} (hs : MemoryCanonical s) : MemoryCanonical (s.modG f) := modGroup_canonical hs _ _
theorem wrS_canonical {n v} (hs : MemoryCanonical s) : MemoryCanonical (s.wrS n v) := modW_canonical hs
theorem finish_canonical (hs : MemoryCanonical s) : MemoryCanonical (s.finish) := modW_canonical hs
theorem advance_canonical (hs : MemoryCanonical s) : MemoryCanonical (s.advance) := finish_canonical (modW_canonical hs)
theorem jump_canonical {pc} (hs : MemoryCanonical s) : MemoryCanonical (s.jump pc) := finish_canonical (modW_canonical hs)
theorem hold_canonical {set h} (hs : MemoryCanonical s) : MemoryCanonical (s.hold set h) := modW_canonical hs
theorem stall_canonical (hs : MemoryCanonical s) : MemoryCanonical (s.stall) := modW_canonical hs
theorem waitIssue_canonical (hs : MemoryCanonical s) : MemoryCanonical (s.waitIssue) := modW_canonical hs
theorem endIssue_canonical {rep} (hs : MemoryCanonical s) : MemoryCanonical (s.endIssue rep) := by
  unfold State.endIssue
  split
  · exact advance_canonical hs
  · exact canonical_ite (modW_canonical hs) (advance_canonical hs)

/-! ### Packets and what other modules are asked for -/

theorem onPort_canonical {p} (hs : MemoryCanonical s) : MemoryCanonical (s.onPort p) := by
  unfold State.onPort
  split
  · exact modPort_canonical hs
  · exact hs
theorem sendTag_canonical {src dest die ty addr bytes pois tag args} (hs : MemoryCanonical s) :
    MemoryCanonical (s.sendTag src dest die ty addr bytes pois tag args) :=
  emit_canonical (canonical_ite hs (onPort_canonical hs))
theorem send_canonical {src dest die ty addr bytes pois} (hs : MemoryCanonical s) : MemoryCanonical (s.send src dest die ty addr bytes pois) :=
  sendTag_canonical hs
theorem sendHome_canonical {src ty addr bytes pois} (hs : MemoryCanonical s) : MemoryCanonical (s.sendHome src ty addr bytes pois) :=
  send_canonical hs
theorem reply_canonical {m ty addr bytes pois} (hs : MemoryCanonical s) : MemoryCanonical (s.reply m ty addr bytes pois) := sendTag_canonical hs
theorem sendColl_canonical {m x tag} (hs : MemoryCanonical s) : MemoryCanonical (s.sendColl m x tag) := emit_canonical (onPort_canonical hs)
theorem askHome_canonical {what src ty addr bytes pois args} (hs : MemoryCanonical s) :
    MemoryCanonical (s.askHome what src ty addr bytes pois args) :=
  sendTag_canonical hs
theorem useValue_canonical {who pa} (hs : MemoryCanonical s) : MemoryCanonical (s.useValue who pa) := hs
theorem writeAway_canonical {by_ pa bs ps stores} (hs : MemoryCanonical s) : MemoryCanonical (s.writeAway by_ pa bs ps stores) :=
  foldl_canonical hs askHome_canonical

/-! ### Stores at a physical address -/

theorem putVregByte_canonical {core off b} (hs : MemoryCanonical s) : MemoryCanonical (s.putVregByte core off b) :=
  canonical_ite (modWarp_canonical hs) hs
theorem storeNow_canonical {pa bs} (hs : MemoryCanonical s) : MemoryCanonical (s.storeNow pa bs) := by
  unfold State.storeNow
  split
  · exact foldl_canonical hs putVregByte_canonical
  · exact putBytes_canonical (foldl_canonical hs fun ht => modBand_canonical ht _ _ _) _ _
  · exact putBytes_canonical hs _ _
theorem tileRelease_canonical {core} (hs : MemoryCanonical s) : MemoryCanonical (s.tileRelease core) :=
  foldl_canonical hs fun ht => canonical_ite (storeNow_canonical (modCore_canonical ht)) ht
theorem storePlain_canonical {by_ pa bs remote ps} (hs : MemoryCanonical s) : MemoryCanonical (s.storePlain by_ pa bs remote ps) :=
  canonical_ite (writeAway_canonical hs) (canonical_ite (modCore_canonical hs) (storeNow_canonical hs))

/-! ### Transactions: conflicts, aborts, the fallback lock -/

theorem grantSlots_canonical {l} (hs : MemoryCanonical s) : MemoryCanonical (s.grantSlots l) := by
  induction l generalizing s with
  | nil => exact hs
  | cons x r ih =>
    rw [State.grantSlots]
    exact canonical_ite (ih hs) hs
theorem releaseSlots_canonical {k before} (hs : MemoryCanonical s) : MemoryCanonical (s.releaseSlots k before) :=
  canonical_ite hs (grantSlots_canonical hs)
theorem abortSet_canonical {k set code detail} (hs : MemoryCanonical s) : MemoryCanonical (s.abortSet k set code detail) :=
  releaseSlots_canonical (setWarp_canonical hs)
theorem endTx_canonical {k set} (hs : MemoryCanonical s) : MemoryCanonical (s.endTx k set) := releaseSlots_canonical (setWarp_canonical hs)
theorem grantLock_canonical (hs : MemoryCanonical s) : MemoryCanonical (s.grantLock) := by
  unfold State.grantLock
  split <;> exact hs
theorem releaseLock_canonical (hs : MemoryCanonical s) : MemoryCanonical (s.releaseLock) := grantLock_canonical hs
theorem txGuard_canonical {code} (hs : MemoryCanonical s) : MemoryCanonical (s.txGuard code) := canonical_ite hs (abortSet_canonical hs)

/-! ### Classes and shadows -/

theorem observe_canonical {who write pa n} (hs : MemoryCanonical s) : MemoryCanonical (s.observe who write pa n) := hs
theorem observeBuffered_canonical {h pa n} (hs : MemoryCanonical s) : MemoryCanonical (s.observeBuffered h pa n) := hs
theorem classifyRaw_canonical {pa n} (hs : MemoryCanonical s) : MemoryCanonical (s.classifyRaw pa n) := hs

/-! ### The directory: lines, recalls, partials -/

theorem setDir_canonical {unit e} (hs : MemoryCanonical s) : MemoryCanonical (s.setDir unit e) := canonical_ite hs hs
theorem recallUnit_canonical {unit} (hs : MemoryCanonical s) : MemoryCanonical (s.recallUnit unit) :=
  askBack_canonical (takeHome_canonical hs _) _
theorem seekLine_canonical {who write x} (hs : MemoryCanonical s) : MemoryCanonical (s.seekLine who write x) :=
  canonical_ite hs (canonical_ite (canonical_ite (askBack_canonical hs _) (makeRoom_canonical hs _))
    (canonical_ite hs (canonical_ite hs (askHome_canonical hs))))
theorem seek_canonical {who write pa n} (hs : MemoryCanonical s) : MemoryCanonical (s.seek who write pa n) := by
  unfold State.seek
  extract_lets s1
  have hs1 : MemoryCanonical s1 := foldl_canonical hs seekLine_canonical
  exact canonical_ite (askHome_canonical hs1) hs1
theorem forwardLines_canonical {pa n} (hs : MemoryCanonical s) : MemoryCanonical (s.forwardLines pa n) :=
  foldl_canonical hs fun ht => forwardPartial_canonical ht _
theorem readRaw_canonical {pa n} (hs : MemoryCanonical s) : MemoryCanonical (s.readRaw pa n) :=
  classifyRaw_canonical (observe_canonical (settle_canonical hs _ _))
/-- The home serves the queue of a line until a holder is in the way. -/
theorem dirServe_canonical {unit n} (hs : MemoryCanonical s) : MemoryCanonical (State.dirServe unit n s) := by
  induction n generalizing s with
  | zero => exact hs
  | succ n ih =>
    rw [State.dirServe]
    split
    · exact setDir_canonical hs
    · have h0 := makeRoom_canonical hs unit
      refine canonical_ite hs ?_
      split
      · have h1 := settle_canonical h0
        exact canonical_ite h0 (ih (sendTag_canonical (setDir_canonical (canonical_ite (observe_canonical (h1 _ _)) (h1 _ _)))))
      · exact canonical_ite hs (foldl_canonical hs fun ht => sendRecall_canonical ht _ _)
theorem dirPump_canonical {unit} (hs : MemoryCanonical s) : MemoryCanonical (s.dirPump unit) := dirServe_canonical hs
theorem request_canonical {h line r} (hs : MemoryCanonical s) : MemoryCanonical (s.request h line r) := by
  unfold State.request
  extract_lets _ _ s1
  have hs1 : MemoryCanonical s1 := settle_canonical hs _ _
  exact canonical_ite hs (canonical_ite (canonical_ite hs (sendTag_canonical hs1)) (dirPump_canonical (setDir_canonical hs)))
theorem writeHome_canonical {pa bs} (hs : MemoryCanonical s) : MemoryCanonical (s.writeHome pa bs) :=
  canonical_ite (writeAway_canonical hs) (writeRaw_canonical (ownLines_canonical hs _ _ _ _) _ _)

/-! ### The fault ring -/

theorem ringStore_canonical {ws} (hs : MemoryCanonical s) : MemoryCanonical (s.ringStore ws) := writeHome_canonical hs
theorem faultEntry_canonical {f} (hs : MemoryCanonical s) : MemoryCanonical (s.faultEntry f) := canonical_ite (ringStore_canonical hs) hs
theorem drainHeld_canonical {l} (hs : MemoryCanonical s) : MemoryCanonical (s.drainHeld l) := by
  induction l generalizing s with
  | nil => exact hs
  | cons x r ih =>
    rw [State.drainHeld]
    exact canonical_ite (ih (ringStore_canonical hs)) (seek_canonical hs)

/-! ### Grids, gangs and groups: completion, removal, kills -/

theorem completeGrid_canonical {id} (hs : MemoryCanonical s) : MemoryCanonical (s.completeGrid id) := by
  unfold State.completeGrid
  split
  · exact hs
  · extract_lets _ _ s1 s2
    have hs1 : MemoryCanonical s1 := by
      unfold s1
      split
      · exact writeHome_canonical hs
      · exact hs
    have hs2 : MemoryCanonical s2 := by
      unfold s2
      split
      · exact canonical_ite (modGroup_canonical hs1 _ _) hs1
      · exact hs1
    exact hs2
theorem completeIfDone_canonical {id} (hs : MemoryCanonical s) : MemoryCanonical (s.completeIfDone id) := by
  unfold State.completeIfDone
  split
  · exact canonical_ite (completeGrid_canonical hs) hs
  · exact hs
theorem failGrid_canonical {id} (hs : MemoryCanonical s) : MemoryCanonical (s.failGrid id) :=
  canonical_ite (completeIfDone_canonical (modGrid_canonical hs)) hs
theorem setStatus_canonical {id st} (hs : MemoryCanonical s) : MemoryCanonical (s.setStatus id st) := canonical_ite (modGrid_canonical hs) hs
theorem dropMail_canonical {w} (hs : MemoryCanonical s) : MemoryCanonical (s.dropMail w) := canonical_ite hs (modCore_canonical hs)
theorem orphanPackets_canonical {w} (hs : MemoryCanonical s) : MemoryCanonical (s.orphanPackets w) := hs
theorem dropArrivals_canonical {w} (hs : MemoryCanonical s) : MemoryCanonical (s.dropArrivals w) := hs
theorem dropWarp_canonical {w} (hs : MemoryCanonical s) : MemoryCanonical (s.dropWarp w) := by
  unfold State.dropWarp
  extract_lets _ s1 _ s3
  have hs1 : MemoryCanonical s1 := dropArrivals_canonical (orphanPackets_canonical (dropMail_canonical hs))
  have hs3 : MemoryCanonical s3 := grantSlots_canonical hs1
  split
  · exact canonical_ite (releaseLock_canonical hs3) hs3
  · exact hs3
theorem abandonStores_canonical {w} (hs : MemoryCanonical s) : MemoryCanonical (s.abandonStores w) := hs
theorem setSlotState_canonical {g st} (hs : MemoryCanonical s) : MemoryCanonical (s.setSlotState g st) := modSlot_canonical hs
theorem removeGroup_canonical {k} (hs : MemoryCanonical s) : MemoryCanonical (s.removeGroup k) := by
  unfold State.removeGroup
  extract_lets _ s1 s2 _ s4
  have hs1 : MemoryCanonical s1 := foldl_canonical hs fun ht => dropWarp_canonical (abandonStores_canonical ht)
  have hs2 : MemoryCanonical s2 := canonical_ite hs1 (returnBanks_canonical hs1 _)
  have hs4 : MemoryCanonical s4 := setSlotState_canonical (modCore_canonical (modCore_canonical hs2))
  exact hs4
theorem killGang_canonical {k c} (hs : MemoryCanonical s) : MemoryCanonical (s.killGang k c).after := by
  unfold State.killGang
  extract_lets _ _ s1 _ s2 s3
  have hs1 : MemoryCanonical s1 := foldl_canonical hs removeGroup_canonical
  have hs2 : MemoryCanonical s2 := canonical_ite hs1 hs1
  have hs3 : MemoryCanonical s3 := modGang_canonical hs2
  exact canonical_ite hs3 (setStatus_canonical (modGrid_canonical hs3))
theorem Killed_also_canonical {f} (hs : MemoryCanonical x.after) (hf : ∀ {t}, MemoryCanonical t → MemoryCanonical (f t).after) :
    MemoryCanonical (Killed.also x f).after :=
  hf hs
theorem Killed_map_canonical {f} (hs : MemoryCanonical x.after) (hf : ∀ {t}, MemoryCanonical t → MemoryCanonical (f t)) :
    MemoryCanonical (Killed.map x f).after :=
  hf hs
theorem killTree_canonical {n k c} (hs : MemoryCanonical s) : MemoryCanonical (State.killTree n s k c).after := by
  induction n generalizing s k c with
  | zero => exact killGang_canonical hs
  | succ n ih =>
    refine Killed_map_canonical (Killed_also_canonical (foldl_killedCanonical hs fun ht => ?_) killGang_canonical) id
    exact Killed_map_canonical (foldl_killedCanonical ht fun hu => Killed_also_canonical hu ih) fun hu => failGrid_canonical
      (setStatus_canonical hu)
theorem killAll_canonical {ks} (hs : MemoryCanonical s) : MemoryCanonical (s.killAll ks).after :=
  foldl_killedCanonical hs fun ht => Killed_map_canonical (Killed_also_canonical ht killTree_canonical) completeIfDone_canonical
theorem Killed_out_canonical {x : Killed} (hx : MemoryCanonical x.after) : MemoryCanonical x.out := foldl_canonical hx faultEntry_canonical
theorem kill_canonical {k c} (hs : MemoryCanonical s) : MemoryCanonical (s.kill k c) := Killed_out_canonical (killAll_canonical hs)
theorem killBy_canonical {w reason va mask} (hs : MemoryCanonical s) : MemoryCanonical (s.killBy w reason va mask) := kill_canonical hs
theorem killGangs_canonical {id reason va} (hs : MemoryCanonical s) : MemoryCanonical (s.killGangs id reason va).after :=
  foldl_killedCanonical hs fun ht => Killed_also_canonical ht killTree_canonical
theorem killGrid_canonical {id reason va} (hs : MemoryCanonical s) : MemoryCanonical (s.killGrid id reason va).after :=
  Killed_map_canonical (killGangs_canonical hs) fun ht => failGrid_canonical (setStatus_canonical ht)
theorem retireGroup_canonical {k} (hs : MemoryCanonical s) : MemoryCanonical (s.retireGroup k) := by
  unfold State.retireGroup
  extract_lets _ _ _ _ s2
  have hs2 : MemoryCanonical s2 := modGang_canonical (removeGroup_canonical hs)
  exact canonical_ite (completeIfDone_canonical (modGrid_canonical hs2)) hs2

/-! ### Traps, events, barriers -/

theorem takeTrap_canonical {k h act p cause detail} (hs : MemoryCanonical s) : MemoryCanonical (s.takeTrap k h act p cause detail) :=
  canonical_ite (killBy_canonical hs) (setWarp_canonical hs)
theorem trapAct_canonical {act cause detail} (hs : MemoryCanonical s) : MemoryCanonical (s.trapAct act cause detail) :=
  canonical_ite (finish_canonical (abortSet_canonical (modW_canonical hs))) (takeTrap_canonical (modW_canonical (endTx_canonical hs)))
theorem trap_canonical {cause detail} (hs : MemoryCanonical s) : MemoryCanonical (s.trap cause detail) := trapAct_canonical hs
theorem unpark_canonical {k set} (hs : MemoryCanonical s) : MemoryCanonical (s.unpark k set) := by
  unfold State.unpark
  split
  · exact hs
  · extract_lets _ _ s2
    have hs2 : MemoryCanonical s2 := modGroup_canonical (modWarp_canonical hs) _ _
    exact hs2
theorem deliver_canonical {k set n} (hs : MemoryCanonical s) : MemoryCanonical (s.deliver k set n) :=
  canonical_ite (canonical_ite hs (takeTrap_canonical (setWarp_canonical hs))) (setWarp_canonical hs)
theorem deliverParked_canonical {k l} (hs : MemoryCanonical s) : MemoryCanonical (s.deliverParked k l) := by
  induction l generalizing s with
  | nil => exact hs
  | cons p r ih =>
    rw [State.deliverParked]
    split
    · split
      · exact ih (deliver_canonical hs)
      · exact ih hs
    · exact ih hs
theorem eventsChanged_canonical {k} (hs : MemoryCanonical s) : MemoryCanonical (s.eventsChanged k) := deliverParked_canonical hs
theorem raise_canonical {k n} (hs : MemoryCanonical s) : MemoryCanonical (s.raise k n) :=
  canonical_ite (putNat_canonical (modWarp_canonical hs) _ _ _) (canonical_ite (eventsChanged_canonical (modWarp_canonical hs)) hs)
theorem setBarrier_canonical {b x} (hs : MemoryCanonical s) : MemoryCanonical (s.setBarrier b x) := by
  unfold State.setBarrier
  split
  · exact modWarp_canonical hs
  · exact modGroup_canonical hs _ _
  · exact modGang_canonical hs
  · exact modGrid_canonical hs
theorem completePhase_canonical {b} (hs : MemoryCanonical s) : MemoryCanonical (s.completePhase b) := by
  unfold State.completePhase
  extract_lets _ _ r
  have hr : MemoryCanonical r.1 := foldl_fstCanonical hs fun ht => by
    extract_lets _ _ s1
    have hs1 : MemoryCanonical s1 := setWarp_canonical ht
    exact canonical_ite (recordThreads_canonical hs1) hs1
  exact foldl_canonical (setBarrier_canonical hr) fun ht => foldl_canonical ht fun ht => canonical_ite (raise_canonical ht) ht
theorem barrierCheck_canonical {b} (hs : MemoryCanonical s) : MemoryCanonical (s.barrierCheck b) := by
  unfold State.barrierCheck
  split
  · extract_lets s1
    have hs1 : MemoryCanonical s1 := completePhase_canonical hs
    exact canonical_ite (completePhase_canonical hs1) hs1
  · exact hs
theorem arriveAt_canonical {k set b} (hs : MemoryCanonical s) : MemoryCanonical (s.arriveAt k set b) := setBarrier_canonical hs

/-! ### Translation checks of an access -/

theorem touchWalk_canonical {die ctx va k} (hs : MemoryCanonical s) : MemoryCanonical (s.touchWalk die ctx va k) :=
  canonical_ite hs (foldl_canonical hs readRaw_canonical)
theorem touchPages_canonical {k ps} (hs : MemoryCanonical s) : MemoryCanonical (s.touchPages k ps) :=
  canonical_ite hs (foldl_canonical hs touchWalk_canonical)
theorem waitService_canonical (hs : MemoryCanonical s) : MemoryCanonical (s.waitService) := modW_canonical hs
theorem checkPages_canonical {k set act ps eng} (hs : MemoryCanonical s) : SomeCanonical (s.checkPages k set act ps eng) := by
  unfold State.checkPages
  split
  · exact waitIssue_canonical (seek_canonical hs)
  · extract_lets t
    have ht : MemoryCanonical t := touchPages_canonical hs
    split
    · trivial
    · exact trapAct_canonical ht
    · exact killBy_canonical ht
    · exact someCanonical_ite (trapAct_canonical ht) (waitService_canonical (foldl_canonical ht faultEntry_canonical))

/-! ### Mailboxes -/

theorem mailDiscard_canonical {core key} (hs : MemoryCanonical s) : MemoryCanonical (s.mailDiscard core key) :=
  foldl_canonical hs fun ht => canonical_ite (modCore_canonical ht) (modCore_canonical ht)
theorem mailPerform_canonical {core by_ slot mb writes closes} (hs : MemoryCanonical s) :
    MemoryCanonical (s.mailPerform core by_ slot mb writes closes) := by
  unfold State.mailPerform
  split
  · extract_lets s'
    have hs' : MemoryCanonical s' := modCore_canonical hs
    exact canonical_ite (raise_canonical hs') hs'
  · exact modCore_canonical hs
theorem mailArrive_canonical {core by_ slot mb writes closes remote} (hs : MemoryCanonical s) :
    MemoryCanonical (s.mailArrive core by_ slot mb writes closes remote) :=
  canonical_ite (modCore_canonical hs) (mailPerform_canonical hs)
theorem mailStore_canonical {core by_ slot mb writes closes remote} (hs : MemoryCanonical s) :
    MemoryCanonical (s.mailStore core by_ slot mb writes closes remote) :=
  foldl_canonical hs mailArrive_canonical

/-! ### Lane and uniform instructions -/

theorem lane_canonical {p act uses body} (hs : MemoryCanonical s) (hbody : ∀ {i}, NextCanonical (body i)) :
    NextCanonical (s.lane p act uses body) := by
  unfold State.lane
  split
  · exact trapAct_canonical hs
  · exact nextCanonical_ite (waitIssue_canonical hs) (nextCanonical_ite (endIssue_canonical hs) hbody)
theorem laneW_canonical {p act uses f} (hs : MemoryCanonical s) : NextCanonical (s.laneW p act uses f) :=
  lane_canonical hs (endIssue_canonical (setWarp_canonical hs))
theorem intOp_canonical {f sat bwide F} (hs : MemoryCanonical s) : NextCanonical (s.intOp f sat bwide F) := laneW_canonical hs
theorem divOp_canonical {f F} (hs : MemoryCanonical s) : NextCanonical (s.divOp f F) := by
  unfold State.divOp
  refine lane_canonical hs fun {i} => ?_
  extract_lets
  split
  · exact trapAct_canonical hs
  · exact endIssue_canonical (setWarp_canonical hs)
theorem cmpOp_canonical {f F} (hs : MemoryCanonical s) : NextCanonical (s.cmpOp f F) := laneW_canonical hs
theorem moviOp_canonical {f F} (hs : MemoryCanonical s) : NextCanonical (s.moviOp f F) := laneW_canonical hs
theorem uniOp_canonical {f F} (hs : MemoryCanonical s) : NextCanonical (s.uniOp f F) := advance_canonical (wrS_canonical hs)
theorem uniDiv_canonical {f F} (hs : MemoryCanonical s) : NextCanonical (s.uniDiv f F) :=
  nextCanonical_ite (trap_canonical hs) (uniOp_canonical hs)
theorem execSmovl_canonical {f} (hs : MemoryCanonical s) : NextCanonical (execSmovl f s) :=
  nextCanonical_ite (trap_canonical hs) (nextCanonical_ite (waitIssue_canonical hs) (advance_canonical (wrS_canonical hs)))
theorem transfer_canonical {target before} (hs : MemoryCanonical s) (hbefore : ∀ {t}, MemoryCanonical t → MemoryCanonical (before t)) :
    NextCanonical (s.transfer target before) :=
  nextCanonical_ite (trap_canonical hs) (jump_canonical (hbefore hs))
theorem transferReg_canonical {target before} (hs : MemoryCanonical s) (hbefore : ∀ {t}, MemoryCanonical t → MemoryCanonical (before t)) :
    NextCanonical (s.transferReg target before) :=
  nextCanonical_ite (trap_canonical hs) (transfer_canonical hs (fun ht => hbefore ht))
theorem link_canonical (hs : MemoryCanonical s) : MemoryCanonical (s.link) := wrS_canonical hs
theorem branch_canonical {taken off} (hs : MemoryCanonical s) : NextCanonical (s.branch taken off) :=
  nextCanonical_ite (transfer_canonical hs id) (advance_canonical hs)
theorem execSloop_canonical {a off} (hs : MemoryCanonical s) : NextCanonical (execSloop a off s) :=
  nextCanonical_ite (transfer_canonical hs wrS_canonical) (advance_canonical (wrS_canonical hs))

/-! ### Logs and commits -/

theorem lockInsert_canonical {who write pa n} (hs : MemoryCanonical s) : MemoryCanonical (s.lockInsert who write pa n) := by
  unfold State.lockInsert
  split
  · exact hs
  · exact canonical_ite hs hs
theorem settleLog_canonical {x} (hs : MemoryCanonical s) : MemoryCanonical (s.settleLog x) := foldl_canonical hs fun ht => settle_canonical ht _ _
theorem seekLogs_canonical {k set} (hs : MemoryCanonical s) : MemoryCanonical (s.seekLogs k set) := by
  unfold State.seekLogs
  refine foldl_canonical hs fun ht => ?_
  split
  · exact foldl_canonical ht seek_canonical
  · exact ht
theorem commitSeek_canonical {c} (hs : MemoryCanonical s) : MemoryCanonical (s.commitSeek c) :=
  foldl_canonical hs fun ht => foldl_canonical (foldl_canonical ht seek_canonical) seek_canonical
theorem commitByte_canonical {who a b} (hs : MemoryCanonical s) : MemoryCanonical (s.commitByte who a b) :=
  putBytes_canonical (observe_canonical (ownLines_canonical (settle_canonical hs _ _) _ _ _ _)) _ _
theorem commitThread_canonical {k t} (hs : MemoryCanonical s) : MemoryCanonical (s.commitThread k t) := by
  unfold State.commitThread
  split
  · exact hs
  · exact modWarp_canonical (foldl_canonical hs commitByte_canonical)
theorem commitLane_canonical {k md t} (hs : MemoryCanonical s) : MemoryCanonical (s.commitLane k md t) := by
  unfold State.commitLane
  split
  · exact hs
  · extract_lets t
    have ht : MemoryCanonical t := settleLog_canonical hs
    exact canonical_ite (modWarp_canonical (commitThread_canonical ht)) (modWarp_canonical ht)
theorem commitHart_canonical {h} (hs : MemoryCanonical s) : MemoryCanonical (s.commitHart h) := by
  unfold State.commitHart
  split
  · exact hs
  · exact canonical_ite hs (modHart_canonical (foldl_canonical hs commitByte_canonical))
theorem ticketServe_canonical (hs : MemoryCanonical s) : MemoryCanonical (s.ticketServe) := by
  unfold State.ticketServe
  split
  · refine canonical_ite (commitSeek_canonical hs) ?_
    extract_lets s1
    have hs1 : MemoryCanonical s1 := by
      unfold s1
      split
      · exact releaseSlots_canonical (modWarp_canonical (foldl_canonical hs commitLane_canonical))
      · exact commitHart_canonical hs
    exact hs1
  · exact hs
  · exact hs

/-! ### Meets, barriers, events, pools -/

theorem txGuardAct_canonical {act code} (hs : MemoryCanonical s) : MemoryCanonical (s.txGuardAct act code) :=
  canonical_ite hs (abortSet_canonical hs)
theorem pairGate_canonical (hs : MemoryCanonical s) : SomeCanonical (s.pairGate) := by
  unfold State.pairGate
  split
  · trivial
  · exact someCanonical_ite trivial (someCanonical_ite (stall_canonical hs) (stall_canonical (modW_canonical hs)))
theorem relWait_canonical {wide} (hs : MemoryCanonical s) : SomeCanonical (s.relWait wide) := by
  unfold State.relWait
  split
  · next e => exact someCanonical_of_eq (pairGate_canonical hs) e
  · exact someCanonical_ite (stall_canonical hs) trivial
theorem holdAll_canonical {h} (hs : MemoryCanonical s) : MemoryCanonical (s.holdAll h) := finish_canonical (hold_canonical hs)
theorem execMeetOpen_canonical {p n off} (hs : MemoryCanonical s) : NextCanonical (execMeetOpen p n off s) :=
  nextCanonical_ite (advance_canonical hs) (nextCanonical_ite (trapAct_canonical hs) (advance_canonical (modW_canonical hs)))
theorem execMeetWait_canonical {p n} (hs : MemoryCanonical s) : NextCanonical (execMeetWait p n s) := by
  unfold execMeetWait
  extract_lets _ t
  have ht : MemoryCanonical t := txGuardAct_canonical hs
  exact nextCanonical_ite (finish_canonical ht) (nextCanonical_ite (advance_canonical ht)
    (modW_canonical (finish_canonical (hold_canonical (modW_canonical ht)))))
theorem execMeetLeave_canonical {p n} (hs : MemoryCanonical s) : NextCanonical (execMeetLeave p n s) :=
  nextCanonical_ite (advance_canonical hs) (modW_canonical (advance_canonical (modW_canonical hs)))
theorem split_canonical {taken target} (hs : MemoryCanonical s) : MemoryCanonical (s.split taken target) := finish_canonical (modW_canonical hs)
theorem laneBranch_canonical {p taken off} (hs : MemoryCanonical s) : NextCanonical (s.laneBranch p taken off) :=
  nextCanonical_ite (trapAct_canonical hs) (split_canonical hs)
theorem execCallv_canonical {p off} (hs : MemoryCanonical s) : NextCanonical (execCallv p off s) :=
  nextCanonical_ite (trapAct_canonical hs) (nextCanonical_ite (waitIssue_canonical hs)
    (nextCanonical_ite (advance_canonical hs) (nextCanonical_ite (trapAct_canonical hs) (split_canonical (modW_canonical hs)))))
theorem execJmpv_canonical {p a} (hs : MemoryCanonical s) : NextCanonical (execJmpv p a s) := by
  unfold execJmpv
  extract_lets
  refine nextCanonical_ite (trapAct_canonical hs) (nextCanonical_ite (waitIssue_canonical hs) ?_)
  split
  · exact trapAct_canonical hs
  · exact finish_canonical (modW_canonical hs)
theorem arrive_canonical {b sync} (hs : MemoryCanonical s) : MemoryCanonical (s.arrive b sync) := by
  unfold State.arrive
  extract_lets _ _ _ _ s1 s2 s3
  have hs1 : MemoryCanonical s1 := arriveAt_canonical hs
  have hs2 : MemoryCanonical s2 := canonical_ite hs1 (hold_canonical hs1)
  have hs3 : MemoryCanonical s3 := canonical_ite hs2 (canonical_ite (hold_canonical hs2) (modW_canonical hs2))
  exact finish_canonical hs3
theorem execBarArrive_canonical {l n} (hs : MemoryCanonical s) : NextCanonical (execBarArrive l n s) := by
  unfold execBarArrive
  refine nextCanonical_ite (trap_canonical hs) ?_
  split
  · next e => exact someCanonical_of_eq (relWait_canonical hs) e
  · exact arrive_canonical hs
theorem execBarWait_canonical {l n} (hs : MemoryCanonical s) : NextCanonical (execBarWait l n s) := by
  unfold execBarWait
  extract_lets t _ _ s1
  have ht : MemoryCanonical t := txGuard_canonical hs
  have hs1 : MemoryCanonical s1 := modW_canonical ht
  exact nextCanonical_ite (finish_canonical ht) (nextCanonical_ite (trap_canonical ht)
    (nextCanonical_ite (waitIssue_canonical ht) (canonical_ite (finish_canonical hs1) (finish_canonical (hold_canonical hs1)))))
theorem execBarSync_canonical {l n} (hs : MemoryCanonical s) : NextCanonical (execBarSync l n s) := by
  unfold execBarSync
  extract_lets t
  have ht : MemoryCanonical t := txGuard_canonical hs
  refine nextCanonical_ite (finish_canonical ht) (nextCanonical_ite (trap_canonical ht) ?_)
  split
  · next e => exact someCanonical_of_eq (relWait_canonical ht) e
  · exact arrive_canonical ht
theorem execEvb_canonical {n l b a} (hs : MemoryCanonical s) : NextCanonical (execEvb n l b a s) :=
  nextCanonical_ite (trap_canonical hs) (nextCanonical_ite (trap_canonical hs) (eventsChanged_canonical (advance_canonical (modW_canonical hs))))
theorem evSet_canonical {f} (hs : MemoryCanonical s) : NextCanonical (s.evSet f) :=
  eventsChanged_canonical (advance_canonical (modW_canonical hs))
theorem execWany_canonical {imm} (hs : MemoryCanonical s) : NextCanonical (execWany imm s) := by
  unfold execWany
  extract_lets t
  have ht : MemoryCanonical t := txGuard_canonical hs
  refine nextCanonical_ite (finish_canonical ht) (nextCanonical_ite (trap_canonical ht) ?_)
  split
  · exact nextCanonical_ite (trap_canonical ht) (jump_canonical (modW_canonical ht))
  · exact holdAll_canonical ht
theorem execWaitq_canonical {c n} (hs : MemoryCanonical s) : NextCanonical (execWaitq c n s) := by
  unfold execWaitq
  extract_lets t
  have ht : MemoryCanonical t := txGuard_canonical hs
  refine nextCanonical_ite (finish_canonical ht) ?_
  split
  · split
    · exact trap_canonical (modW_canonical ht)
    · exact advance_canonical ht
  · exact holdAll_canonical ht
theorem execWaitk_canonical {d m} (hs : MemoryCanonical s) : NextCanonical (execWaitk d m s) := by
  unfold execWaitk
  extract_lets t
  have ht : MemoryCanonical t := txGuard_canonical hs
  exact nextCanonical_ite (finish_canonical ht) (nextCanonical_ite (advance_canonical (modW_canonical ht)) (holdAll_canonical ht))
theorem engineWaits_canonical {k} (hs : MemoryCanonical s) : MemoryCanonical (s.engineWaits k) := modWarp_canonical hs
theorem zeroPoint_canonical {core k} (hs : MemoryCanonical s) : MemoryCanonical (s.zeroPoint core k) :=
  modBand_canonical (zeroBank_canonical hs _ _) _ _ _
theorem grant_canonical {gk k set r} (hs : MemoryCanonical s) : MemoryCanonical (s.grant gk k set r) := by
  unfold State.grant
  extract_lets _ s1
  have hs1 : MemoryCanonical s1 := by
    unfold s1
    split
    · exact modWarp_canonical hs
    · exact modWarp_canonical (modGroup_canonical (foldl_canonical hs fun ht => zeroBank_canonical ht _ _) _ _)
  exact modWarp_canonical hs1
theorem grantTakes_canonical {gk l bv ba} (hs : MemoryCanonical s) : MemoryCanonical (s.grantTakes gk l bv ba) := by
  induction l generalizing s bv ba with
  | nil => exact hs
  | cons x r ih =>
    unfold State.grantTakes
    exact canonical_ite (ih hs) (canonical_ite (ih (modGroup_canonical (grant_canonical hs) _ _)) (ih hs))
theorem servePools_canonical {gk} (hs : MemoryCanonical s) : MemoryCanonical (s.servePools gk) := grantTakes_canonical hs
theorem take_canonical {r size limit detail} (hs : MemoryCanonical s) : NextCanonical (s.take r size limit detail) := by
  unfold State.take
  extract_lets t s1
  have ht : MemoryCanonical t := txGuard_canonical hs
  have hs1 : MemoryCanonical s1 := modG_canonical (holdAll_canonical ht)
  exact nextCanonical_ite (finish_canonical ht) (nextCanonical_ite (trap_canonical ht) (servePools_canonical hs1))
theorem execTakeV_canonical {m} (hs : MemoryCanonical s) : NextCanonical (execTakeV m s) := by
  unfold execTakeV
  exact take_canonical hs
theorem execTakeA_canonical {c} (hs : MemoryCanonical s) : NextCanonical (execTakeA c s) := take_canonical hs
theorem execGiveV_canonical {m} (hs : MemoryCanonical s) : NextCanonical (execGiveV m s) :=
  nextCanonical_ite (waitIssue_canonical hs) (servePools_canonical (advance_canonical (modW_canonical hs)))
theorem giveBanks_canonical {k bs} (hs : MemoryCanonical s) : MemoryCanonical (s.giveBanks k bs) :=
  modWarp_canonical (modGroup_canonical (foldl_canonical hs fun ht => modBand_canonical ht _ _ _) _ _)
theorem execGiveA_canonical {c} (hs : MemoryCanonical s) : NextCanonical (execGiveA c s) :=
  nextCanonical_ite (waitIssue_canonical hs) (servePools_canonical (advance_canonical (giveBanks_canonical hs)))
theorem fltOp_canonical {f three F} (hs : MemoryCanonical s) : NextCanonical (s.fltOp f three F) := laneW_canonical hs
theorem fcmpOp_canonical {f quietNv F} (hs : MemoryCanonical s) : NextCanonical (s.fcmpOp f quietNv F) := laneW_canonical hs
theorem redOp_canonical {f act z from_} (hs : MemoryCanonical s) : NextCanonical (s.redOp f act z from_) := laneW_canonical hs

/-! ### EXIT, fences, transactions -/

theorem endWarp_canonical {k} (hs : MemoryCanonical s) : MemoryCanonical (s.endWarp k) :=
  servePools_canonical (dropMail_canonical (giveBanks_canonical (modWarp_canonical hs)))
theorem exitSet_canonical (hs : MemoryCanonical s) : MemoryCanonical (s.exitSet) := by
  unfold State.exitSet
  extract_lets s1
  have hs1 : MemoryCanonical s1 := modW_canonical (finish_canonical hs)
  exact canonical_ite (endWarp_canonical hs1) hs1
theorem execExit_canonical (hs : MemoryCanonical s) : NextCanonical (execExit s) := by
  unfold execExit
  extract_lets _ last
  have hp : SomeCanonical (if last then s.pairGate else none) := someCanonical_ite (pairGate_canonical hs) trivial
  refine nextCanonical_ite (trap_canonical hs) (nextCanonical_ite (trap_canonical hs) ?_)
  split
  · next e => exact someCanonical_of_eq hp e
  · exact exitSet_canonical hs
theorem execRte_canonical (hs : MemoryCanonical s) : NextCanonical (execRte s) :=
  nextCanonical_ite (trap_canonical hs) (nextCanonical_ite (trap_canonical hs) (modW_canonical (unpark_canonical (finish_canonical hs))))
theorem snapTrigger_canonical (hs : MemoryCanonical s) : MemoryCanonical (s.snapTrigger) := canonical_ite hs hs
theorem execSnap_canonical (hs : MemoryCanonical s) : NextCanonical (execSnap s) :=
  nextCanonical_ite (trap_canonical hs) (advance_canonical (snapTrigger_canonical hs))
theorem execSleep_canonical {a} (hs : MemoryCanonical s) : NextCanonical (execSleep a s) := by
  unfold execSleep
  extract_lets t
  have ht : MemoryCanonical t := txGuard_canonical hs
  exact nextCanonical_ite (finish_canonical ht) (nextCanonical_ite (advance_canonical ht) (holdAll_canonical ht))
theorem fenceRelOp_canonical {sc} (hs : MemoryCanonical s) : NextCanonical (s.fenceRelOp sc) := by
  unfold State.fenceRelOp
  split
  · next e => exact someCanonical_of_eq (relWait_canonical hs) e
  · exact advance_canonical hs
theorem execFenceAcq_canonical {_sc} (hs : MemoryCanonical s) : NextCanonical (execFenceAcq _sc s) :=
  canonical_ite (stall_canonical hs) (advance_canonical hs)
theorem execTxb_canonical {off} (hs : MemoryCanonical s) : NextCanonical (execTxb off s) := by
  unfold execTxb
  extract_lets _ _ _ _ _ s1 s2 s3 _ s4
  have hs1 : MemoryCanonical s1 := canonical_ite hs (hold_canonical hs)
  have hs2 : MemoryCanonical s2 := canonical_ite hs1 (hold_canonical hs1)
  have hs3 : MemoryCanonical s3 := finish_canonical hs2
  have hs4 : MemoryCanonical s4 := canonical_ite hs3 (grantSlots_canonical hs3)
  exact nextCanonical_ite (trap_canonical hs) (nextCanonical_ite (trap_canonical hs) (grantLock_canonical hs4))
theorem commitIrr_canonical {md irr} (hs : MemoryCanonical s) : MemoryCanonical (s.commitIrr md irr) :=
  canonical_ite hs (releaseLock_canonical (modW_canonical hs))
theorem revalidate_canonical {set} (hs : MemoryCanonical s) : MemoryCanonical (s.revalidate set) := by
  unfold State.revalidate
  extract_lets _ u _ _ _ s2
  have hu : MemoryCanonical u := foldl_canonical hs fun ht => by
    split
    · exact canonical_ite (settleLog_canonical ht) ht
    · exact ht
  have hs2 : MemoryCanonical s2 := abortSet_canonical (modW_canonical hu)
  exact canonical_ite hu hs2
theorem execTxc_canonical {md} (hs : MemoryCanonical s) : NextCanonical (execTxc md s) := by
  unfold execTxc
  refine nextCanonical_ite (waitIssue_canonical (seekLogs_canonical hs)) ?_
  extract_lets t _ _ _ s1 s2
  have ht : MemoryCanonical t := canonical_ite (revalidate_canonical hs) hs
  have hs1 : MemoryCanonical s1 := commitIrr_canonical (modW_canonical ht)
  have hs2 : MemoryCanonical s2 := finish_canonical (hold_canonical hs1)
  exact nextCanonical_ite (finish_canonical ht) (nextCanonical_ite (trap_canonical ht)
    (nextCanonical_ite (waitIssue_canonical ht) (nextCanonical_ite (stall_canonical ht)
    (nextCanonical_ite (finish_canonical hs1) (ticketServe_canonical hs2)))))
theorem execTxa_canonical {c} (hs : MemoryCanonical s) : NextCanonical (execTxa c s) :=
  nextCanonical_ite (trap_canonical hs) (finish_canonical (abortSet_canonical hs))

/-! ### Performing accesses at a physical address -/

theorem classify_canonical {b size nc pa} (hs : MemoryCanonical s) : MemoryCanonical (s.classify b size nc pa) := by
  unfold State.classify
  extract_lets
  split
  · exact hs
  · exact canonical_ite hs hs
theorem contribute_canonical {op pa x pois ack} (hs : MemoryCanonical s) : MemoryCanonical (s.contribute op pa x pois ack) := by
  unfold State.contribute
  extract_lets _ _ _ s1
  have hs1 : MemoryCanonical s1 := by
    unfold s1
    split
    · exact canonical_ite hs (forwardPartial_canonical hs _)
    · exact hs
  exact hs1
theorem reach_canonical {b write size nc pa n} (hs : MemoryCanonical s) : MemoryCanonical (s.reach b write size nc pa n) := by
  unfold State.reach
  split
  · extract_lets _ _ s3
    have hs3 : MemoryCanonical s3 := lockInsert_canonical (observe_canonical
      (classify_canonical (classify_canonical (ownLines_canonical (settle_canonical hs _ _) _ _ _ _))))
    exact canonical_ite (useValue_canonical hs3) hs3
  · exact canonical_ite (useValue_canonical hs) hs
theorem fetchReach_canonical {who pa n} (hs : MemoryCanonical s) : MemoryCanonical (s.fetchReach who pa n) :=
  canonical_ite (classifyRaw_canonical (lockInsert_canonical (observe_canonical (ownLines_canonical (settle_canonical hs _ _) _ _ _ _)))) hs
theorem readAt_canonical {b size nc pa n} (hs : MemoryCanonical s) : MemoryCanonical (s.readAt b size nc pa n).1 := reach_canonical hs
theorem writeAt_canonical {b size nc pa bs remote ps} (hs : MemoryCanonical s) : MemoryCanonical (s.writeAt b size nc pa bs remote ps) :=
  storePlain_canonical (reach_canonical hs)
theorem atomAway_canonical {who op md pa x c nr remote} (hs : MemoryCanonical s) : MemoryCanonical (s.atomAway who op md pa x c nr remote) :=
  askHome_canonical hs
theorem atomAt_canonical {b size nc op md pa x c} (hs : MemoryCanonical s) : MemoryCanonical (s.atomAt b size nc op md pa x c).1 :=
  fstCanonical_ite (rmw_canonical (lockInsert_canonical (observe_canonical
    (classify_canonical (ownLines_canonical (forwardLines_canonical hs) _ _ _ _)))) _ _ _ _ _) (rmw_canonical hs _ _ _ _ _)
theorem mailWrites_canonical {core off by_ bs closes remote} (hs : MemoryCanonical s) :
    MemoryCanonical (s.mailWrites core off by_ bs closes remote) :=
  canonical_ite (mailDiscard_canonical hs) (mailStore_canonical hs)

/-! ### Held stores of a pair -/

theorem addHeld_canonical {k va kind bs ws} (hs : MemoryCanonical s) : MemoryCanonical (s.addHeld k va kind bs ws) := modWarp_canonical hs

/-! ### Memory instructions under way -/

theorem memCheck_canonical {k set act ps align} (hs : MemoryCanonical s) : SomeCanonical (s.memCheck k set act ps align) := by
  unfold State.memCheck
  split
  · exact trapAct_canonical hs
  · split
    · exact trapAct_canonical hs
    · exact checkPages_canonical hs
theorem placeCheck_canonical {k e act ps} (hs : MemoryCanonical s) : SomeCanonical (s.placeCheck k e act ps) := by
  unfold State.placeCheck
  split
  · exact trapAct_canonical hs
  · trivial
theorem lineWait_canonical {k write ps} (hs : MemoryCanonical s) : MemoryCanonical (s.lineWait k write ps) :=
  waitIssue_canonical (foldl_canonical hs fun ht => foldl_canonical ht seek_canonical)
theorem addRemote_canonical {yes combining contribution pas} (hs : MemoryCanonical s) :
    MemoryCanonical (s.addRemote yes combining contribution pas).1 :=
  fstCanonical_ite hs hs
theorem plainLoad_canonical {k t va n} (hs : MemoryCanonical s) : MemoryCanonical (s.plainLoad k t va n).1 := by
  unfold State.plainLoad
  refine foldl_fstCanonical hs fun ht => ?_
  exact reach_canonical ht
theorem txSet_canonical {t x} (hs : MemoryCanonical s) : MemoryCanonical (s.txSet t x) :=
  canonical_ite (modW_canonical hs) (abortSet_canonical hs)
theorem txLoad_canonical {l} (hs : MemoryCanonical s) : MemoryCanonical (s.txLoad l).1 := txSet_canonical (foldl_canonical hs reach_canonical)
theorem txStore_canonical {l bs} (hs : MemoryCanonical s) : MemoryCanonical (s.txStore l bs) := txSet_canonical hs
theorem dropTx_canonical {set code} (hs : MemoryCanonical s) : MemoryCanonical (s.dropTx set code) := txGuardAct_canonical hs
theorem localCheck_canonical {act off n align} (hs : MemoryCanonical s) : SomeCanonical (s.localCheck act off n align) := by
  unfold State.localCheck
  split
  · exact trapAct_canonical hs
  · split
    · exact trapAct_canonical hs
    · trivial
theorem laneLoad_canonical {l} (hs : MemoryCanonical s) : MemoryCanonical (s.laneLoad l).1 :=
  fstCanonical_ite hs (foldl_fstCanonical hs fun ht => (reach_canonical ht))
theorem mailPiece_canonical {f rest x} (hs : MemoryCanonical s) : MemoryCanonical (s.mailPiece f rest x) := by
  unfold State.mailPiece
  exact canonical_ite (mailDiscard_canonical hs) (canonical_ite hs (mailStore_canonical hs))
theorem storePieces_canonical {f l ps rest} (hs : MemoryCanonical s) : MemoryCanonical (s.storePieces f l ps rest) := by
  induction ps generalizing s with
  | nil => exact hs
  | cons x r ih =>
    rw [State.storePieces]
    refine ih (canonical_ite hs ?_)
    split
    · exact mailPiece_canonical hs
    · exact writeAt_canonical hs
theorem holdLane_canonical {f rest l op} (hs : MemoryCanonical s) : MemoryCanonical (s.holdLane f rest l op) := by
  unfold State.holdLane
  extract_lets xs
  clear_value xs
  cases xs with
  | nil => exact hs
  | cons x r => exact addHeld_canonical hs
theorem laneStore_canonical {f rest l} (hs : MemoryCanonical s) : MemoryCanonical (s.laneStore f rest l) :=
  canonical_ite (foldl_canonical hs fun ht => putBytes_canonical ht _ _) (holdLane_canonical (storePieces_canonical hs))
theorem laneAtom_canonical {f op nr md l} (hs : MemoryCanonical s) : MemoryCanonical (s.laneAtom f op nr md l).1 := by
  unfold State.laneAtom
  split
  · exact hs
  · exact fstCanonical_ite (rmw_canonical hs _ _ _ _ _) (fstCanonical_ite (contribute_canonical hs)
      (fstCanonical_ite (fstCanonical_ite (atomAway_canonical hs) (useValue_canonical hs)) (atomAt_canonical hs)))
theorem twinLane_canonical {l f} (hs : MemoryCanonical s) : MemoryCanonical (s.twinLane l f) := by
  unfold State.twinLane
  split
  · exact modWarp_canonical hs
  · exact hs
theorem flyTx_canonical {f l} (hs : MemoryCanonical s) : MemoryCanonical (s.flyTx f l) := by
  unfold State.flyTx
  extract_lets t r
  have ht : MemoryCanonical t := revalidate_canonical hs
  have hr : MemoryCanonical r.1 := txLoad_canonical ht
  refine canonical_ite ht ?_
  split
  · exact txStore_canonical ht
  · exact canonical_ite (modW_canonical hr) hr
  · refine canonical_ite hr ?_
    extract_lets s1
    have hs1 : MemoryCanonical s1 := txStore_canonical hr
    exact canonical_ite (modW_canonical hs1) hs1
  · exact ht
theorem flyLane_canonical {f rest l} (hs : MemoryCanonical s) : MemoryCanonical (s.flyLane f rest l) := by
  unfold State.flyLane
  refine canonical_ite (flyTx_canonical hs) ?_
  split
  · exact modW_canonical (laneLoad_canonical hs)
  · exact wrS_canonical (laneLoad_canonical hs)
  · exact laneStore_canonical hs
  · exact canonical_ite (holdLane_canonical hs) (laneAtom_canonical hs)
  · extract_lets r
    have hr : MemoryCanonical r.1 := laneAtom_canonical hs
    exact canonical_ite (twinLane_canonical (modW_canonical hr)) (modW_canonical hr)
theorem flyLanes_canonical {f before n kept l} (hs : MemoryCanonical s) : MemoryCanonical (State.flyLanes f before n kept l s).1 := by
  induction l generalizing s n kept with
  | nil => exact hs
  | cons x r ih =>
    rw [State.flyLanes]
    exact fstCanonical_ite (ih hs) (fstCanonical_ite (ih hs) (ih (flyLane_canonical hs)))
theorem askLane_canonical {f l} (hs : MemoryCanonical s) : MemoryCanonical (s.askLane f l) := by
  unfold State.askLane
  extract_lets _ s1
  have hs1 : MemoryCanonical s1 := canonical_ite (seekLogs_canonical hs) hs
  refine foldl_canonical hs1 fun ht => ?_
  refine canonical_ite ht ?_
  split
  · exact canonical_ite ht (atomAway_canonical ht)
  · exact seek_canonical ht
theorem askFlight_canonical {f before ls} (hs : MemoryCanonical s) : MemoryCanonical (s.askFlight f before ls) := by
  unfold State.askFlight
  extract_lets s1
  have hs1 : MemoryCanonical s1 := foldl_canonical hs fun ht => by
    split
    · exact canonical_ite ht (askLane_canonical ht)
    · exact ht
  split
  · exact canonical_ite hs1 (canonical_ite (modW_canonical hs1) (modW_canonical hs1))
  · exact hs1
theorem flyOne_canonical {f before n} (hs : MemoryCanonical s) : MemoryCanonical (s.flyOne f before n).1 := by
  unfold State.flyOne
  extract_lets r s1
  have hr : MemoryCanonical r.1 := flyLanes_canonical hs
  have hs1 : MemoryCanonical s1 := askFlight_canonical hr
  exact canonical_ite (modW_canonical hs1) hs1
theorem flyAll_canonical {n kept l} (hs : MemoryCanonical s) : MemoryCanonical (State.flyAll n kept l s) := by
  induction l generalizing s kept with
  | nil => exact modW_canonical hs
  | cons f r ih =>
    rw [State.flyAll]
    split
    · exact killBy_canonical hs
    · exact ih (flyOne_canonical hs)
theorem fly_canonical {k n} (hs : MemoryCanonical s) : MemoryCanonical (s.fly k n) := canonical_ite hs (flyAll_canonical hs)
theorem launchFlight_canonical {f fin} (hs : MemoryCanonical s) (hfin : ∀ {t}, MemoryCanonical t → MemoryCanonical (fin t)) :
    NextCanonical (s.launchFlight f fin) := by
  unfold State.launchFlight
  split
  · exact killBy_canonical hs
  · extract_lets x
    have hx : MemoryCanonical x.1 := flyOne_canonical hs
    exact hfin (canonical_ite hx (modW_canonical hx))
theorem memGo_canonical {e scope f ps fin} (hs : MemoryCanonical s) (hfin : ∀ {t}, MemoryCanonical t → MemoryCanonical (fin t)) :
    NextCanonical (s.memGo e scope f ps fin) :=
  nextCanonical_ite (waitIssue_canonical hs) (launchFlight_canonical (addRemote_canonical hs) (fun ht => hfin ht))
theorem memEnd_canonical {p} (hs : MemoryCanonical s) : MemoryCanonical (State.memEnd p s) :=
  canonical_ite (finish_canonical hs) (endIssue_canonical hs)
theorem laneMem_canonical {m p act0 spans op data} (hs : MemoryCanonical s) : NextCanonical (s.laneMem m p act0 spans op data) := by
  unfold State.laneMem
  extract_lets t _ _ s1 _ s2
  have ht : MemoryCanonical t := canonical_ite (dropTx_canonical hs) hs
  have hs1 : MemoryCanonical s1 := dropTx_canonical ht
  have hs2 : MemoryCanonical s2 := modW_canonical (touchPages_canonical hs1)
  split
  · exact finish_canonical ht
  · refine nextCanonical_ite (endIssue_canonical ht) ?_
    split
    · next e => exact someCanonical_of_eq (memCheck_canonical ht) e
    · refine nextCanonical_ite (finish_canonical hs1) ?_
      split
      · next e => exact someCanonical_of_eq (placeCheck_canonical hs1) e
      · exact nextCanonical_ite (endIssue_canonical hs1) (memGo_canonical hs2 memEnd_canonical)
theorem localMem_canonical {p act off n op data} (hs : MemoryCanonical s) : NextCanonical (s.localMem p act off n op data) :=
  launchFlight_canonical (modW_canonical hs) endIssue_canonical
theorem execLds_canonical {f} (hs : MemoryCanonical s) : NextCanonical (execLds f s) := by
  unfold execLds
  refine lane_canonical hs fun {i} => ?_
  split
  · next e => exact someCanonical_of_eq (localCheck_canonical hs) e
  · exact localMem_canonical hs
theorem execSts_canonical {f} (hs : MemoryCanonical s) : NextCanonical (execSts f s) := by
  unfold execSts
  refine lane_canonical hs fun {i} => ?_
  split
  · next e => exact someCanonical_of_eq (localCheck_canonical hs) e
  · exact localMem_canonical hs
theorem execAtoms_canonical {f} (hs : MemoryCanonical s) : NextCanonical (execAtoms f s) := by
  unfold execAtoms
  refine lane_canonical hs fun {i} => ?_
  split
  · next e => exact someCanonical_of_eq (localCheck_canonical hs) e
  · exact localMem_canonical hs
theorem uniMem_canonical {op va n align scope bs} (hs : MemoryCanonical s) : NextCanonical (s.uniMem op va n align scope bs) := by
  unfold State.uniMem
  extract_lets _ s1
  have hs1 : MemoryCanonical s1 := touchPages_canonical hs
  split
  · next e => exact someCanonical_of_eq (memCheck_canonical hs) e
  · split
    · next e => exact someCanonical_of_eq (placeCheck_canonical hs) e
    · exact memGo_canonical hs1 advance_canonical
theorem uniLoad_canonical {d va n align} (hs : MemoryCanonical s) : NextCanonical (s.uniLoad d va n align) := uniMem_canonical hs
theorem uniLd_canonical {f n} (hs : MemoryCanonical s) : NextCanonical (s.uniLd f n) := by
  unfold State.uniLd
  extract_lets t
  have ht : MemoryCanonical t := txGuard_canonical hs
  exact nextCanonical_ite (finish_canonical ht) (uniLoad_canonical ht)
theorem uniSt_canonical {f n} (hs : MemoryCanonical s) : NextCanonical (s.uniSt f n) := by
  unfold State.uniSt
  extract_lets t
  have ht : MemoryCanonical t := txGuard_canonical hs
  exact nextCanonical_ite (finish_canonical ht) (uniMem_canonical ht)
theorem execSldk_canonical {d a off} (hs : MemoryCanonical s) : NextCanonical (execSldk d a off s) :=
  nextCanonical_ite (trap_canonical hs) (nextCanonical_ite (trap_canonical hs) (uniLoad_canonical hs))
theorem prefetch_canonical {pa} (hs : MemoryCanonical s) : MemoryCanonical (s.prefetch pa) :=
  canonical_ite (seek_canonical hs) (canonical_ite (foldLines_canonical hs _ _) (ownLines_canonical (foldLines_canonical hs _ _) _ _ _ _))
theorem execSprf_canonical {_t a off} (hs : MemoryCanonical s) : NextCanonical (execSprf _t a off s) := by
  unfold execSprf
  extract_lets
  split
  · exact advance_canonical (canonical_ite (prefetch_canonical hs) hs)
  · exact advance_canonical hs

/-! ### Launches -/

theorem submit_canonical {die ctx depth parent bs} (hs : MemoryCanonical s) : MemoryCanonical (s.submit die ctx depth parent bs).1 := by
  unfold State.submit
  extract_lets _ _ _ _ _ sig _ _ s1 s2
  have hs1 : MemoryCanonical s1 := hs
  have hs2 : MemoryCanonical s2 := by
    unfold s2
    clear_value sig
    cases sig with
    | none => exact hs1
    | some pa => exact writeHome_canonical hs1
  refine fstCanonical_ite hs ?_
  cases parent with
  | none => exact hs2
  | some p => exact modGroup_canonical hs2 _ _
theorem signalWaits_canonical {die ctx bs} (hs : MemoryCanonical s) : SomeCanonical (s.signalWaits die ctx bs) := by
  unfold State.signalWaits
  extract_lets
  split
  · trivial
  · split
    · exact someCanonical_ite (seek_canonical hs) trivial
    · trivial
theorem execLaunch_canonical {d a} (hs : MemoryCanonical s) : NextCanonical (execLaunch d a s) := by
  unfold execLaunch
  extract_lets t _ _ _ x y s1
  have ht : MemoryCanonical t := txGuard_canonical hs
  have hx : MemoryCanonical x.1 := plainLoad_canonical ht
  have hy : MemoryCanonical y.1 := submit_canonical hx
  have hs1 : MemoryCanonical s1 := by
    unfold s1
    split
    · exact modWarp_canonical hy
    · exact hy
  refine nextCanonical_ite (finish_canonical ht) (nextCanonical_ite (trap_canonical ht) (nextCanonical_ite (trap_canonical ht) ?_))
  refine nextCanonical_ite (trap_canonical ht) ?_
  split
  · next e => exact someCanonical_of_eq (checkPages_canonical ht) e
  · split
    · next e => exact someCanonical_of_eq (placeCheck_canonical ht) e
    · split
      · next e => exact someCanonical_of_eq (relWait_canonical ht) e
      · refine nextCanonical_ite (lineWait_canonical ht) ?_
        split
        · next e => exact waitIssue_canonical (someCanonical_of_eq (signalWaits_canonical ht) e)
        · split
          · exact killBy_canonical ht
          · exact advance_canonical (wrS_canonical (modW_canonical ht))
          · exact advance_canonical (wrS_canonical hs1)

/-! ### Buffers -/

theorem setCb_canonical {g n c} (hs : MemoryCanonical s) : MemoryCanonical (s.setCb g n c) := modGroup_canonical hs _ _
theorem modCb_canonical {g n f} (hs : MemoryCanonical s) : MemoryCanonical (s.modCb g n f) := by
  unfold State.modCb
  split
  · exact setCb_canonical hs
  · exact hs
theorem serveGets_canonical {g n l} (hs : MemoryCanonical s) : MemoryCanonical (s.serveGets g n l) := by
  induction l generalizing s with
  | nil => exact hs
  | cons x r ih =>
    rw [State.serveGets]
    split
    · exact hs
    · split
      · exact hs
      · exact ih (modWarp_canonical (setCb_canonical hs))
theorem cbServe_canonical {g n} (hs : MemoryCanonical s) : MemoryCanonical (s.cbServe g n) := by
  unfold State.cbServe
  split
  · exact serveGets_canonical hs
  · exact hs
theorem noteWaits_canonical {g} (hs : MemoryCanonical s) : MemoryCanonical (s.noteWaits g) := by
  unfold State.noteWaits
  refine foldl_canonical hs fun ht => ?_
  split
  · split
    · exact modCb_canonical ht
    · exact ht
  · exact ht
theorem engTrap_canonical {cause} (hs : MemoryCanonical s) : NextCanonical (s.engTrap cause) := trap_canonical hs
theorem execCbdef_canonical {n a b} (hs : MemoryCanonical s) : NextCanonical (execCbdef n a b s) := by
  unfold execCbdef
  extract_lets t _ _ _ s1
  have ht : MemoryCanonical t := txGuard_canonical hs
  have hs1 : MemoryCanonical s1 := canonical_ite ht (zeroBytes_canonical ht _ _)
  exact nextCanonical_ite (finish_canonical ht) (nextCanonical_ite (engTrap_canonical ht)
    (nextCanonical_ite (engTrap_canonical ht) (nextCanonical_ite (engTrap_canonical ht) (advance_canonical (setCb_canonical hs1)))))
theorem execCbget_canonical {d n} (hs : MemoryCanonical s) : NextCanonical (execCbget d n s) := by
  unfold execCbget
  extract_lets t
  have ht : MemoryCanonical t := txGuard_canonical hs
  refine nextCanonical_ite (finish_canonical ht) ?_
  split
  · exact engTrap_canonical ht
  · refine nextCanonical_ite (waitIssue_canonical ht) ?_
    extract_lets
    split
    · exact advance_canonical (wrS_canonical (wrS_canonical (setCb_canonical ht)))
    · exact holdAll_canonical (setCb_canonical ht)
theorem execCbqry_canonical {d n} (hs : MemoryCanonical s) : NextCanonical (execCbqry d n s) := by
  unfold execCbqry
  extract_lets t
  have ht : MemoryCanonical t := txGuard_canonical hs
  exact nextCanonical_ite (finish_canonical ht) (advance_canonical (wrS_canonical ht))
theorem execCblim_canonical {n a} (hs : MemoryCanonical s) : NextCanonical (execCblim n a s) := by
  unfold execCblim
  extract_lets t
  have ht : MemoryCanonical t := txGuard_canonical hs
  refine nextCanonical_ite (finish_canonical ht) ?_
  split
  · exact engTrap_canonical ht
  · exact nextCanonical_ite (engTrap_canonical ht) (advance_canonical (setCb_canonical ht))

/-! ### Flows and frames -/

theorem flowCount_canonical {k word n} (hs : MemoryCanonical s) : MemoryCanonical (s.flowCount k word n) := hs
theorem modEth_canonical {p f} (hs : MemoryCanonical s) : MemoryCanonical (s.modEth p f) := hs
theorem slotWrite_canonical {die ctx va bs} (hs : MemoryCanonical s) : MemoryCanonical (s.slotWrite die ctx va bs) := by
  unfold State.slotWrite
  refine foldl_canonical hs fun ht => ?_
  extract_lets
  split
  · exact canonical_ite (writeAt_canonical ht) ht
  · exact ht
theorem frameBytes_canonical {g c i f err} (hs : MemoryCanonical s) : MemoryCanonical (s.frameBytes g c i f err) := slotWrite_canonical hs
theorem slotPoison_canonical {g c i lines} (hs : MemoryCanonical s) : MemoryCanonical (s.slotPoison g c i lines) := by
  unfold State.slotPoison
  refine foldl_canonical hs fun ht => ?_
  split
  · exact setPoison_canonical ht _
  · exact ht
theorem slotSeek_canonical {die ctx va n} (hs : MemoryCanonical s) : MemoryCanonical (s.slotSeek die ctx va n) := by
  unfold State.slotSeek
  refine foldl_canonical hs fun ht => ?_
  extract_lets
  split
  · exact seek_canonical ht
  · exact ht
theorem sendPause_canonical {port pcp quanta flows} (hs : MemoryCanonical s) : MemoryCanonical (s.sendPause port pcp quanta flows) :=
  emit_canonical (foldl_canonical hs flowCount_canonical)
theorem endStarve_canonical {k} (hs : MemoryCanonical s) : MemoryCanonical (s.endStarve k) := by
  unfold State.endStarve
  extract_lets _ _ s1
  have hs1 : MemoryCanonical s1 := modEth_canonical hs
  exact canonical_ite (canonical_ite (sendPause_canonical (modEth_canonical hs1)) hs1) hs
theorem startStarve_canonical {k} (hs : MemoryCanonical s) : MemoryCanonical (s.startStarve k) := modEth_canonical hs
theorem frameRewrite_canonical {g n c i f} (hs : MemoryCanonical s) : MemoryCanonical (s.frameRewrite g n c i f) :=
  modEth_canonical (flowCount_canonical (cbServe_canonical (modCb_canonical (slotPoison_canonical (frameBytes_canonical (setCb_canonical hs))))))
theorem frameWrite_canonical {g n c f} (hs : MemoryCanonical s) : MemoryCanonical (s.frameWrite g n c f) := by
  unfold State.frameWrite
  split
  · exact hs
  · extract_lets s1
    have hs1 : MemoryCanonical s1 := frameBytes_canonical (setCb_canonical hs)
    exact canonical_ite (modEth_canonical (modCb_canonical hs1)) (modEth_canonical
      (flowCount_canonical (cbServe_canonical (modCb_canonical hs1))))
theorem flowServe_canonical {k n} (hs : MemoryCanonical s) : MemoryCanonical (State.flowServe k n s) := by
  induction n generalizing s with
  | zero => exact hs
  | succ n ih =>
    rw [State.flowServe]
    split
    · exact canonical_ite (endStarve_canonical hs) hs
    · split
      · exact canonical_ite (slotSeek_canonical hs) (canonical_ite hs (ih (frameRewrite_canonical hs)))
      · refine canonical_ite (startStarve_canonical hs) ?_
        extract_lets s1
        have hs1 : MemoryCanonical s1 := endStarve_canonical hs
        split
        · split
          · exact canonical_ite (slotSeek_canonical hs1) (canonical_ite (frameWrite_canonical hs1) (ih (frameWrite_canonical hs1)))
          · exact hs1
        · exact hs1
theorem ingestServe_canonical {g n} (hs : MemoryCanonical s) : MemoryCanonical (s.ingestServe g n) := by
  unfold State.ingestServe
  split
  · exact foldl_canonical hs flowServe_canonical
  · exact hs
theorem groupIngest_canonical {g} (hs : MemoryCanonical s) : MemoryCanonical (s.groupIngest g) := foldl_canonical hs ingestServe_canonical
theorem execFrameReceive_canonical {port bytes fcsOk fails} (hs : MemoryCanonical s) :
    NextCanonical (execFrameReceive port bytes fcsOk fails s) := by
  unfold execFrameReceive
  refine nextCanonical_ite (modEth_canonical hs) (nextCanonical_ite (modEth_canonical hs) ?_)
  split
  · exact modEth_canonical hs
  · exact nextCanonical_ite (flowCount_canonical hs) (nextCanonical_ite (flowCount_canonical hs) (flowServe_canonical (modEth_canonical hs)))
theorem execPauseStart_canonical {port pcp} (hs : MemoryCanonical s) : NextCanonical (execPauseStart port pcp s) :=
  nextCanonical_ite (sendPause_canonical (modEth_canonical hs)) hs
theorem execPauseRepeat_canonical {port pcp} (hs : MemoryCanonical s) : NextCanonical (execPauseRepeat port pcp s) := by
  unfold execPauseRepeat
  extract_lets
  split
  · exact nextCanonical_ite (sendPause_canonical (modEth_canonical hs)) hs
  · exact hs
theorem execPauseAbandon_canonical {port pcp} (hs : MemoryCanonical s) : NextCanonical (execPauseAbandon port pcp s) :=
  nextCanonical_ite hs (sendPause_canonical (modEth_canonical (foldl_canonical hs flowCount_canonical)))
theorem execCbput_canonical {n a} (hs : MemoryCanonical s) : NextCanonical (execCbput n a s) := by
  unfold execCbput
  extract_lets t
  have ht : MemoryCanonical t := txGuard_canonical hs
  refine nextCanonical_ite (finish_canonical ht) ?_
  split
  · exact engTrap_canonical ht
  · exact nextCanonical_ite (engTrap_canonical ht) (ingestServe_canonical (advance_canonical (setCb_canonical ht)))

/-! ### The copy engine -/

theorem engLane_canonical {p uses body} (hs : MemoryCanonical s) (hbody : ∀ {t x}, MemoryCanonical t → NextCanonical (body t x)) :
    NextCanonical (s.engLane p uses body) := by
  unfold State.engLane
  extract_lets _ s1
  have hs1 : MemoryCanonical s1 := txGuardAct_canonical hs
  refine nextCanonical_ite (trapAct_canonical hs) (nextCanonical_ite (waitIssue_canonical hs) ?_)
  exact nextCanonical_ite (finish_canonical hs1) (nextCanonical_ite (advance_canonical hs1) (hbody hs1))
theorem enqueueCopy_canonical {z tok dest lanes} (hs : MemoryCanonical s) : MemoryCanonical (s.enqueueCopy z tok dest lanes) :=
  modW_canonical (modCore_canonical hs)
theorem execCpy_canonical {f} (hs : MemoryCanonical s) : NextCanonical (execCpy f s) := by
  unfold execCpy
  refine engLane_canonical hs fun ht => ?_
  extract_lets
  split
  · exact trapAct_canonical ht
  · split
    · exact trapAct_canonical ht
    · split
      · next e => exact someCanonical_of_eq (checkPages_canonical ht) e
      · next e => exact someCanonical_of_eq (checkPages_canonical ht) e
      · split
        · exact trapAct_canonical ht
        · exact nextCanonical_ite (waitIssue_canonical ht) (advance_canonical
            (enqueueCopy_canonical (touchPages_canonical (touchPages_canonical ht))))
theorem execCpyBuf_canonical {f} (hs : MemoryCanonical s) : NextCanonical (execCpyBuf f s) := by
  unfold execCpyBuf
  refine engLane_canonical hs fun ht => ?_
  extract_lets
  split
  · exact trapAct_canonical ht
  · split
    · exact trapAct_canonical ht
    · split
      · next e => exact someCanonical_of_eq (checkPages_canonical ht) e
      · split
        · exact trapAct_canonical ht
        · exact nextCanonical_ite (waitIssue_canonical ht) (noteWaits_canonical
            (advance_canonical (enqueueCopy_canonical (touchPages_canonical ht))))
/-- A translation that has to wait has recorded its fault, and no more. -/
theorem engTranslate_wait_canonical {w k va eff n wt t} (hs : MemoryCanonical s) (e : s.engTranslate w k va eff n wt = .wait t) :
    MemoryCanonical t := by
  unfold State.engTranslate at e
  extract_lets at e
  split at e
  · split at e <;> cases e
  · cases e
  · cases e
  · split at e
    · cases e
    · cases e
      exact faultEntry_canonical hs
theorem copyPlace_canonical {w seq l} (hs : MemoryCanonical s) : MemoryCanonical (s.copyPlace w seq l) := by
  induction l generalizing s with
  | nil => exact hs
  | cons x r ih =>
    rw [State.copyPlace]
    split
    · exact hs
    · extract_lets
      split
      · refine canonical_ite ?_ (ih (modWarp_canonical hs))
        extract_lets s1
        have hs1 : MemoryCanonical s1 := touchWalk_canonical hs
        split
        · exact ih (modWarp_canonical hs1)
        · exact ih (modWarp_canonical hs1)
        · next e => exact modWarp_canonical (engTranslate_wait_canonical hs1 e)
        · exact killBy_canonical hs1
      · exact ih hs
theorem copyPlaced_canonical {w seq} (hs : MemoryCanonical s) : MemoryCanonical (s.copyPlaced w seq) := by
  unfold State.copyPlaced
  split
  · exact canonical_ite hs (copyPlace_canonical hs)
  · exact hs
theorem copyClaims_canonical {w n} (hs : MemoryCanonical s) : MemoryCanonical (State.copyClaims w n s) := by
  induction n generalizing s with
  | zero => exact hs
  | succ n ih =>
    rw [State.copyClaims]
    split
    · split
      · refine canonical_ite ?_ hs
        split
        · exact ih (copyPlaced_canonical (modWarp_canonical (setCb_canonical hs)))
        · exact hs
      · exact hs
    · exact hs
theorem copyRefill_canonical {w cb fin} (hs : MemoryCanonical s) : MemoryCanonical (s.copyRefill w cb fin) := by
  unfold State.copyRefill
  extract_lets
  split
  · exact copyPlaced_canonical (modWarp_canonical (setCb_canonical hs))
  · exact modWarp_canonical hs
theorem copyRead_canonical {w ls} (hs : MemoryCanonical s) : MemoryCanonical (s.copyRead w ls) := by
  unfold State.copyRead
  refine foldl_canonical hs fun ht => ?_
  exact modWarp_canonical (readAt_canonical ht)
theorem engPut_canonical {w size pa bs ps} (hs : MemoryCanonical s) : MemoryCanonical (s.engPut w size pa bs ps) := by
  unfold State.engPut
  extract_lets s1
  have hs1 : MemoryCanonical s1 := writeAt_canonical hs
  exact canonical_ite hs1 (setPoison_canonical hs1 _)
theorem copyMail_canonical {w o runs last} (hs : MemoryCanonical s) : MemoryCanonical (s.copyMail w o runs last) := by
  unfold State.copyMail
  split
  · exact hs
  · split
    · exact canonical_ite (mailDiscard_canonical hs) (mailStore_canonical hs)
    · exact hs
theorem copyWrite_canonical {w o ls tagFail} (hs : MemoryCanonical s) : MemoryCanonical (s.copyWrite w o ls tagFail) := by
  unfold State.copyWrite
  extract_lets _ _ _ _ _ _ _ s1
  have hs1 : MemoryCanonical s1 := foldl_canonical hs engPut_canonical
  split
  · exact killBy_canonical hs
  · refine canonical_ite (modWarp_canonical (canonical_ite (modWarp_canonical hs) hs)) ?_
    split
    · exact modWarp_canonical (copyMail_canonical hs)
    · exact modWarp_canonical (canonical_ite (setPoison_canonical hs1 _) hs1)
theorem slotDone_canonical {g o} (hs : MemoryCanonical s) : MemoryCanonical (s.slotDone g o) := by
  unfold State.slotDone
  split
  · exact cbServe_canonical (modCb_canonical hs)
  · exact hs
theorem copyEnd_canonical {w} (hs : MemoryCanonical s) : MemoryCanonical (s.copyEnd w) := by
  unfold State.copyEnd
  extract_lets _ s1
  have hs1 : MemoryCanonical s1 := modWarp_canonical hs
  split
  · exact canonical_ite (canonical_ite hs1 (slotDone_canonical hs1)) hs
  · exact hs
theorem copyLine_canonical {w tagFail} (hs : MemoryCanonical s) : MemoryCanonical (s.copyLine w tagFail) := by
  unfold State.copyLine
  extract_lets s1
  have hs1 : MemoryCanonical s1 := copyPlaced_canonical hs
  split
  · exact hs1
  · refine canonical_ite hs1 ?_
    split
    · exact copyEnd_canonical hs1
    · refine canonical_ite hs1 ?_
      extract_lets s2
      have hs2 : MemoryCanonical s2 := copyWrite_canonical hs1
      exact canonical_ite (copyEnd_canonical hs2) hs2
    · exact copyRead_canonical hs1
theorem copyStep_canonical {w tagFail} (hs : MemoryCanonical s) : MemoryCanonical (s.copyStep w tagFail) := by
  unfold State.copyStep
  extract_lets _ s1
  have hs1 : MemoryCanonical s1 := by
    unfold s1
    split
    · exact copyRefill_canonical hs
    · exact copyClaims_canonical hs
  exact noteWaits_canonical (canonical_ite (copyLine_canonical hs1) hs1)
theorem copySeek_canonical {w} (hs : MemoryCanonical s) : MemoryCanonical (s.copySeek w) := by
  unfold State.copySeek
  split
  · exact hs
  · extract_lets
    split
    · exact seek_canonical hs
    · exact foldl_canonical hs fun ht => canonical_ite ht (seek_canonical ht)
    · exact foldl_canonical hs fun ht => canonical_ite ht (seek_canonical ht)
    · exact hs
theorem execCopyLine_canonical {w tagFail} (hs : MemoryCanonical s) : NextCanonical (execCopyLine w tagFail s) :=
  nextCanonical_ite (copyStep_canonical (modCore_canonical hs)) (copySeek_canonical hs)

/-! ### The gather engine -/

theorem enqueueGath_canonical {op} (hs : MemoryCanonical s) : MemoryCanonical (s.enqueueGath op) := modW_canonical (modCore_canonical hs)
theorem execGstr_canonical {z tok a b} (hs : MemoryCanonical s) : NextCanonical (execGstr z tok a b s) := by
  unfold execGstr
  extract_lets t
  have ht : MemoryCanonical t := txGuard_canonical hs
  exact nextCanonical_ite (finish_canonical ht) (nextCanonical_ite (engTrap_canonical ht)
    (nextCanonical_ite (engTrap_canonical ht) (nextCanonical_ite (waitIssue_canonical ht) (advance_canonical (enqueueGath_canonical ht)))))
theorem execGath_canonical {f} (hs : MemoryCanonical s) : NextCanonical (execGath f s) := by
  unfold execGath
  refine engLane_canonical hs fun ht => ?_
  extract_lets
  split
  · exact trapAct_canonical ht
  · split
    · exact trapAct_canonical ht
    · split
      · next e => exact someCanonical_of_eq (checkPages_canonical ht) e
      · split
        · exact trapAct_canonical ht
        · exact nextCanonical_ite (waitIssue_canonical ht) (advance_canonical (enqueueGath_canonical (touchPages_canonical ht)))
theorem modGathHead_canonical {w f} (hs : MemoryCanonical s) : MemoryCanonical (s.modGathHead w f) := modWarp_canonical hs
theorem gathFetch_canonical {w o pa size} (hs : MemoryCanonical s) : MemoryCanonical (s.gathFetch w o pa size) :=
  modGathHead_canonical (foldl_canonical hs reach_canonical)
theorem gathMove_canonical {w o pa size dst} (hs : MemoryCanonical s) : MemoryCanonical (s.gathMove w o pa size dst) :=
  engPut_canonical (canonical_ite hs (gathFetch_canonical hs))
theorem gathStep_canonical {w} (hs : MemoryCanonical s) : MemoryCanonical (s.gathStep w) := by
  unfold State.gathStep
  split
  · exact hs
  · extract_lets
    split
    · exact modGathHead_canonical (gathMove_canonical hs)
    · exact modGathHead_canonical (setPoison_canonical hs _)
    · refine canonical_ite (modGathHead_canonical hs) ?_
      extract_lets s1
      have hs1 : MemoryCanonical s1 := touchWalk_canonical hs
      split
      · exact modGathHead_canonical (gathMove_canonical hs1)
      · exact modGathHead_canonical hs1
      · next e => exact modGathHead_canonical (engTranslate_wait_canonical hs1 e)
      · exact killBy_canonical hs1
theorem gathSeek_canonical {w} (hs : MemoryCanonical s) : MemoryCanonical (s.gathSeek w) := by
  unfold State.gathSeek
  extract_lets
  split
  · exact hs
  · extract_lets
    split
    · exact canonical_ite hs (seek_canonical hs)
    · exact hs
    · split
      · exact seek_canonical hs
      · exact canonical_ite hs (seek_canonical hs)
      · exact hs
theorem execGatherElement_canonical {w} (hs : MemoryCanonical s) : NextCanonical (execGatherElement w s) :=
  nextCanonical_ite (gathStep_canonical (modCore_canonical hs)) (gathSeek_canonical hs)

/-! ### Machine checks -/

theorem undoWaits_canonical {k} (hs : MemoryCanonical s) : MemoryCanonical (s.undoWaits k) := by
  unfold State.undoWaits
  extract_lets _ _ _ _ _ s1
  have hs1 : MemoryCanonical s1 := modGroup_canonical (setWarp_canonical hs) _ _
  exact hs1
theorem mcheck_canonical {k} (hs : MemoryCanonical s) : SomeCanonical (s.mcheck k) := by
  unfold State.mcheck
  extract_lets _ s1
  have hs1 : MemoryCanonical s1 := canonical_ite (undoWaits_canonical hs) hs
  split
  · trivial
  · split
    · trivial
    · split
      · trivial
      · exact someCanonical_ite (abortSet_canonical hs1) (takeTrap_canonical (modWarp_canonical (endTx_canonical hs1)))
/-- A check that may answer no state, with the state before in its place. -/
theorem getD_canonical {o : Option State} (ho : SomeCanonical o) (hs : MemoryCanonical s) : MemoryCanonical (o.getD s) := by
  cases o with
  | none => exact hs
  | some t => exact ho
theorem execMcheckTake_canonical {w} (hs : MemoryCanonical s) : NextCanonical (execMcheckTake w s) :=
  canonical_ite (getD_canonical (mcheck_canonical hs) hs) hs

/-! ### Matrix operations: issue -/

theorem engUni_canonical {body} (hs : MemoryCanonical s) (hbody : ∀ {t}, MemoryCanonical t → NextCanonical (body t)) :
    NextCanonical (s.engUni body) := by
  unfold State.engUni
  extract_lets t
  have ht : MemoryCanonical t := txGuard_canonical hs
  exact nextCanonical_ite (finish_canonical ht) (hbody ht)
theorem withTile_canonical {n body} (hs : MemoryCanonical s) (hbody : ∀ {i}, NextCanonical (body i)) : NextCanonical (s.withTile n body) := by
  unfold State.withTile
  split
  · exact hbody
  · exact engTrap_canonical hs
theorem withBanks_canonical {own follow body} (hs : MemoryCanonical s) (hbody : NextCanonical body) :
    NextCanonical (s.withBanks own follow body) := by
  unfold State.withBanks
  refine nextCanonical_ite (waitIssue_canonical hs) ?_
  split
  · exact trap_canonical hs
  · exact hbody
theorem enqueueMat_canonical {k} (hs : MemoryCanonical s) : NextCanonical (s.enqueueMat k) :=
  nextCanonical_ite (waitIssue_canonical hs) (advance_canonical (modW_canonical (modG_canonical (modCore_canonical hs))))
theorem execTcfg_canonical {n a} (hs : MemoryCanonical s) : NextCanonical (execTcfg n a s) :=
  engUni_canonical hs fun ht => withTile_canonical ht (nextCanonical_ite (engTrap_canonical ht)
    (nextCanonical_ite (waitIssue_canonical ht) (advance_canonical (modCore_canonical ht))))
theorem tileMove_canonical {v src scales k} (hs : MemoryCanonical s) : NextCanonical (s.tileMove v src scales k) :=
  nextCanonical_ite (engTrap_canonical hs) (nextCanonical_ite (engTrap_canonical hs) (enqueueMat_canonical hs))
theorem execTld_canonical {n a} (hs : MemoryCanonical s) : NextCanonical (execTld n a s) :=
  engUni_canonical hs fun ht => withTile_canonical ht (tileMove_canonical ht)
theorem execTldS_canonical {n a b} (hs : MemoryCanonical s) : NextCanonical (execTldS n a b s) :=
  engUni_canonical hs fun ht => withTile_canonical ht (nextCanonical_ite (engTrap_canonical ht) (tileMove_canonical ht))
theorem execTst_canonical {n a} (hs : MemoryCanonical s) : NextCanonical (execTst n a s) :=
  engUni_canonical hs fun ht => withTile_canonical ht (tileMove_canonical ht)
theorem mmaOp_canonical {a b sa pair} (hs : MemoryCanonical s) : NextCanonical (s.mmaOp a b sa pair) := by
  unfold State.mmaOp
  refine engUni_canonical hs fun ht => withTile_canonical ht (withTile_canonical ht (withBanks_canonical ht ?_))
  exact nextCanonical_ite (engTrap_canonical ht) (enqueueMat_canonical ht)
theorem execMdrnTile_canonical {a clr n row col} (hs : MemoryCanonical s) : NextCanonical (execMdrnTile a clr n row col s) := by
  unfold execMdrnTile
  refine engUni_canonical hs fun ht => withTile_canonical ht (withBanks_canonical ht ?_)
  exact nextCanonical_ite (engTrap_canonical ht) (enqueueMat_canonical ht)
theorem execMdrnSpad_canonical {a clr cv b} (hs : MemoryCanonical s) : NextCanonical (execMdrnSpad a clr cv b s) := by
  unfold execMdrnSpad
  refine engUni_canonical hs fun ht => withBanks_canonical ht ?_
  exact nextCanonical_ite (engTrap_canonical ht) (nextCanonical_ite (engTrap_canonical ht) (enqueueMat_canonical ht))
theorem bankOp_canonical {a body} (hs : MemoryCanonical s) (hbody : ∀ {t x}, MemoryCanonical t → NextCanonical (body t x)) :
    NextCanonical (s.bankOp a body) :=
  engUni_canonical hs fun ht => withBanks_canonical ht (hbody ht)
theorem mstatSet_canonical {g bits} (hs : MemoryCanonical s) : MemoryCanonical (s.mstatSet g bits) := modGroup_canonical hs _ _
theorem execMfix_canonical {a} (hs : MemoryCanonical s) : NextCanonical (execMfix a s) := by
  unfold execMfix
  refine bankOp_canonical hs fun ht => ?_
  extract_lets
  split
  · exact advance_canonical (mstatSet_canonical (modW_canonical (modBand_canonical (poke_canonical ht _ _) _ _ _)))
  · exact advance_canonical ht
theorem execMstat_canonical {d} (hs : MemoryCanonical s) : NextCanonical (execMstat d s) :=
  engUni_canonical hs fun ht => advance_canonical (modG_canonical (wrS_canonical ht))
theorem execMstatClo_canonical {d a} (hs : MemoryCanonical s) : NextCanonical (execMstatClo d a s) :=
  bankOp_canonical hs fun ht => advance_canonical (wrS_canonical ht)
theorem execMstatChi_canonical {d a} (hs : MemoryCanonical s) : NextCanonical (execMstatChi d a s) :=
  bankOp_canonical hs fun ht => advance_canonical (wrS_canonical ht)

/-! ### Matrix operations: start and steps -/

theorem putBandRow_canonical {core k r xs} (hs : MemoryCanonical s) : MemoryCanonical (s.putBandRow core k r xs) := poke_canonical hs _ _
theorem bandStep_canonical {g core k e n sums} (hs : MemoryCanonical s) : MemoryCanonical (s.bandStep g core k e n sums) := by
  unfold State.bandStep
  extract_lets _ _ _ _ r s1 _ _ r'
  have hr : MemoryCanonical r.1 := foldl_fstCanonical hs putBandRow_canonical
  have hs1 : MemoryCanonical s1 := modBand_canonical hr _ _ _
  have hr' : MemoryCanonical r'.1 := foldl_fstCanonical hs putBandRow_canonical
  exact canonical_ite (canonical_ite (mstatSet_canonical hs1) hs1) (mstatSet_canonical (modBand_canonical (hr') _ _ _))
theorem retryZero_canonical {core k} (hs : MemoryCanonical s) : MemoryCanonical (s.retryZero core k) :=
  modBand_canonical (zeroBank_canonical hs _ _) _ _ _
theorem modOp_canonical {g id f} (hs : MemoryCanonical s) : MemoryCanonical (s.modOp g id f) := modGroup_canonical hs _ _
theorem startOp_canonical {g o} (hs : MemoryCanonical s) : MemoryCanonical (s.startOp g o) := by
  unfold State.startOp
  extract_lets _ s1
  have hs1 : MemoryCanonical s1 := modOp_canonical hs
  split
  · exact foldl_canonical hs1 modCore_canonical
  · split
    · exact foldl_canonical (foldl_canonical hs1 fun ht => modBand_canonical ht _ _ _) modCore_canonical
    · extract_lets _ s2
      have hs2 : MemoryCanonical s2 := retryZero_canonical hs1
      exact canonical_ite (modOp_canonical hs1) (canonical_ite (modOp_canonical hs1)
        (canonical_ite (modOp_canonical (modBand_canonical hs2 _ _ _)) (modCore_canonical hs2)))
    · exact hs1
theorem startArray_canonical {leader l} (hs : MemoryCanonical s) : MemoryCanonical (s.startArray leader l) := by
  induction l generalizing s with
  | nil => exact hs
  | cons x r ih =>
    rw [State.startArray]
    refine canonical_ite (ih hs) (canonical_ite ?_ (canonical_ite ?_ (ih hs)))
    · exact startOp_canonical (foldl_canonical (modCore_canonical hs) modCore_canonical)
    · exact ih (foldl_canonical hs modCore_canonical)
theorem execMatrixOpStart_canonical {core} (hs : MemoryCanonical s) : NextCanonical (execMatrixOpStart core s) := by
  unfold execMatrixOpStart
  extract_lets _ _ plain
  clear_value plain
  split
  · exact startOp_canonical hs
  · exact startArray_canonical (foldl_canonical hs fun ht => canonical_ite ht (modCore_canonical ht))
theorem freeArray_canonical {g id core} (hs : MemoryCanonical s) : MemoryCanonical (s.freeArray g id core) := modCore_canonical hs
theorem freeArrays_canonical {g id} (hs : MemoryCanonical s) : MemoryCanonical (s.freeArrays g id) := freeArray_canonical (freeArray_canonical hs)
theorem matStep_canonical {g o} (hs : MemoryCanonical s) : MemoryCanonical (s.matStep g o) := by
  unfold State.matStep
  extract_lets
  split
  · extract_lets _ s1 _ s2
    have hs1 : MemoryCanonical s1 := foldl_canonical hs bandStep_canonical
    have hs2 : MemoryCanonical s2 := modOp_canonical hs1
    exact canonical_ite (freeArray_canonical hs2) hs2
  · extract_lets
    split
    · extract_lets _ _ s2
      have hs2 : MemoryCanonical s2 := modOp_canonical (bandStep_canonical (modBand_canonical hs _ _ _))
      exact canonical_ite (freeArray_canonical (modBand_canonical hs2 _ _ _)) hs2
    · exact freeArray_canonical (modOp_canonical hs)
  · exact hs
theorem softError_canonical {core flip} (hs : MemoryCanonical s) : MemoryCanonical (s.softError core flip) := by
  unfold State.softError
  split
  · exact hs
  · exact poke_canonical hs _ _
theorem execMmaStep_canonical {core flip} (hs : MemoryCanonical s) : NextCanonical (execMmaStep core flip s) := by
  unfold execMmaStep
  split
  · exact hs
  · refine nextCanonical_ite hs ?_
    split
    · exact softError_canonical (matStep_canonical hs)
    · exact hs

/-! ### Completion and retirement of engine operations -/

theorem checkFails_canonical {g core k w v kind} (hs : MemoryCanonical s) : MemoryCanonical (s.checkFails g core k w v kind) := by
  unfold State.checkFails
  extract_lets _ s1
  have hs1 : MemoryCanonical s1 := mstatSet_canonical (modBand_canonical hs _ _ _)
  exact canonical_ite (killBy_canonical hs1) (modWarp_canonical hs1)
theorem passed_canonical {core k clr} (hs : MemoryCanonical s) : MemoryCanonical (s.passed core k clr) :=
  canonical_ite (zeroPoint_canonical hs) (modBand_canonical hs _ _ _)
theorem checkBand_canonical {g core k w} (hs : MemoryCanonical s) : CheckCanonical (s.checkBand g core k w) := by
  unfold State.checkBand
  refine checkCanonical_ite (checkCanonical_ite (checkFails_canonical ?_) ?_) (checkCanonical_ite hs ?_)
  · exact mstatSet_canonical hs
  · exact mstatSet_canonical hs
  · split
    · exact checkCanonical_ite (checkFails_canonical hs) (mstatSet_canonical (modWarp_canonical (poke_canonical hs _ _)))
    · exact checkFails_canonical hs
theorem drainTile_canonical {g core w k clr t sh row ch} (hs : MemoryCanonical s) :
    MemoryCanonical (s.drainTile g core w k clr t sh row ch) := by
  unfold State.drainTile
  have hc := checkBand_canonical (g := g) (core := core) (k := k) (w := w) hs
  split
  · next e => exact checkCanonical_of_fail hc e
  · next e => exact passed_canonical (foldl_canonical (checkCanonical_of_pass hc e) fun ht => poke_canonical ht _ _)
theorem drainSpad_canonical {g core w k clr cv dst} (hs : MemoryCanonical s) : MemoryCanonical (s.drainSpad g core w k clr cv dst) := by
  unfold State.drainSpad
  have hc := checkBand_canonical (g := g) (core := core) (k := k) (w := w) hs
  split
  · next e => exact checkCanonical_of_fail hc e
  · next e => exact passed_canonical (foldl_canonical (checkCanonical_of_pass hc e) fun ht => putBytes_canonical ht _ _)
theorem loadTile_canonical {g core w t sh src scales} (hs : MemoryCanonical s) : MemoryCanonical (s.loadTile g core w t sh src scales) := by
  unfold State.loadTile
  extract_lets _ _ s1
  have hs1 : MemoryCanonical s1 := foldl_canonical hs fun ht => poke_canonical ht _ _
  split
  · exact killBy_canonical hs
  · split
    · exact poke_canonical hs1 _ _
    · exact hs1
theorem storeTile_canonical {g core t sh dst} (hs : MemoryCanonical s) : MemoryCanonical (s.storeTile g core t sh dst) :=
  foldl_canonical hs fun ht => putBytes_canonical ht _ _
theorem passBank_canonical {g h k core} (hs : MemoryCanonical s) : MemoryCanonical (s.passBank g h k core) :=
  modBand_canonical (modGroup_canonical (foldl_canonical (modGroup_canonical hs _ _) modWarp_canonical) _ _) _ _ _
/-- The drains, checks and loads of an engine operation that uses no array. -/
theorem completeOp_canonical {g o} (hs : MemoryCanonical s) : MemoryCanonical (s.completeOp g o) := by
  unfold State.completeOp
  extract_lets
  split
  · exact canonical_ite (modOp_canonical (loadTile_canonical hs)) (loadTile_canonical hs)
  · exact modOp_canonical (storeTile_canonical hs)
  · exact canonical_ite (modOp_canonical (drainTile_canonical hs)) (drainTile_canonical hs)
  · exact canonical_ite (modOp_canonical (drainSpad_canonical hs)) (drainSpad_canonical hs)
  · split
    · next e => exact modOp_canonical (passed_canonical (checkCanonical_of_pass (checkBand_canonical hs) e))
    · next e =>
      have ht := checkCanonical_of_fail (checkBand_canonical hs) e
      exact canonical_ite (modOp_canonical ht) ht
  · exact modOp_canonical (zeroPoint_canonical hs)
  · exact modOp_canonical (canonical_ite (passBank_canonical hs) hs)
  · exact modOp_canonical (freeArray_canonical hs)
  · exact hs
theorem tokenDone_canonical {w tok err} (hs : MemoryCanonical s) : MemoryCanonical (s.tokenDone w tok err) := by
  unfold State.tokenDone
  extract_lets s1
  have hs1 : MemoryCanonical s1 := modWarp_canonical hs
  exact canonical_ite (raise_canonical hs1) hs1
theorem holdLine_canonical {w o ls last} (hs : MemoryCanonical s) : MemoryCanonical (s.holdLine w o ls last) := addHeld_canonical hs
theorem holdLines_canonical {w o all n} (hs : MemoryCanonical s) : MemoryCanonical (State.holdLines w o all n s) := by
  induction n generalizing s with
  | zero => exact hs
  | succ n ih =>
    rw [State.holdLines]
    exact canonical_ite (modWarp_canonical hs) (ih (modWarp_canonical (holdLine_canonical hs)))
theorem retireCopy_canonical {w} (hs : MemoryCanonical s) : MemoryCanonical (s.retireCopy w) := by
  unfold State.retireCopy
  split
  · refine canonical_ite hs ?_
    extract_lets _ s1 s2
    have hs1 : MemoryCanonical s1 := canonical_ite hs (holdLines_canonical hs)
    have hs2 : MemoryCanonical s2 := canonical_ite (slotDone_canonical hs1) hs1
    exact canonical_ite hs1 (engineWaits_canonical (tokenDone_canonical (modWarp_canonical hs2)))
  · exact hs
theorem retireGath_canonical {w} (hs : MemoryCanonical s) : MemoryCanonical (s.retireGath w) := by
  unfold State.retireGath
  split
  · exact canonical_ite hs (engineWaits_canonical (tokenDone_canonical (modWarp_canonical hs)))
  · exact hs
theorem retireMat_canonical {w} (hs : MemoryCanonical s) : MemoryCanonical (s.retireMat w) := by
  unfold State.retireMat
  extract_lets _ _ s1 s2
  have hs1 : MemoryCanonical s1 := by
    unfold s1
    split
    · exact completeOp_canonical hs
    · exact hs
  have hs2 : MemoryCanonical s2 := by
    unfold s2
    split
    · exact canonical_ite (engineWaits_canonical (modWarp_canonical (modGroup_canonical (freeArrays_canonical hs1) _ _))) hs1
    · exact hs1
  exact canonical_ite hs1 (tileRelease_canonical (tileRelease_canonical hs2))

/-! ### Collectives -/

theorem modColl_canonical {opId f} (hs : MemoryCanonical s) : MemoryCanonical (s.modColl opId f) := hs
theorem collDone_canonical {opId err} (hs : MemoryCanonical s) : MemoryCanonical (s.collDone opId err) := modColl_canonical hs
theorem enqueueColl_canonical {o} (hs : MemoryCanonical s) : MemoryCanonical (s.enqueueColl o) := by
  unfold State.enqueueColl
  extract_lets _ s2
  have hs2 : MemoryCanonical s2 := modW_canonical hs
  split
  · exact modWarp_canonical hs2
  · exact hs2
theorem joinedAway_canonical {opId err} (hs : MemoryCanonical s) : MemoryCanonical (s.joinedAway opId err) := by
  unfold State.joinedAway
  split
  · exact canonical_ite (collDone_canonical hs) hs
  · exact hs
theorem retireColl_canonical {w} (hs : MemoryCanonical s) : MemoryCanonical (s.retireColl w) := by
  unfold State.retireColl
  split
  · split
    · extract_lets s1
      have hs1 : MemoryCanonical s1 := modWarp_canonical hs
      exact canonical_ite (putNat_canonical hs1 _ _ _) (engineWaits_canonical hs1)
    · exact hs
  · exact hs
theorem execEngineOpRetire_canonical {w c} (hs : MemoryCanonical s) : NextCanonical (execEngineOpRetire w c s) := by
  unfold execEngineOpRetire
  refine nextCanonical_ite hs ?_
  split
  · exact canonical_ite (retireCopy_canonical hs) hs
  · exact canonical_ite (retireGath_canonical hs) hs
  · exact canonical_ite (retireMat_canonical hs) hs
  · exact retireColl_canonical hs
theorem peek_canonical {ps} (hs : MemoryCanonical s) : MemoryCanonical (s.peek ps).1 := by
  unfold State.peek
  refine foldl_fstCanonical hs fun ht => ?_
  exact plainLoad_canonical ht
theorem collRead_canonical {ps body} (hs : MemoryCanonical s) (hbody : ∀ {t x}, MemoryCanonical t → NextCanonical (body t x)) :
    NextCanonical (s.collRead ps body) := by
  unfold State.collRead
  split
  · next e => exact someCanonical_of_eq (checkPages_canonical hs) e
  · split
    · next e => exact someCanonical_of_eq (placeCheck_canonical hs) e
    · extract_lets
      refine nextCanonical_ite (lineWait_canonical hs) (nextCanonical_ite (waitIssue_canonical hs) ?_)
      split
      · exact killBy_canonical hs
      · exact hbody (peek_canonical hs)
theorem collDesc_canonical {a body} (hs : MemoryCanonical s) (hbody : ∀ {t x y}, MemoryCanonical t → NextCanonical (body t x y)) :
    NextCanonical (s.collDesc a body) := by
  unfold State.collDesc
  extract_lets u
  have hu : MemoryCanonical u := txGuard_canonical hs
  exact nextCanonical_ite (finish_canonical hu) (nextCanonical_ite (trap_canonical hu)
    (nextCanonical_ite (trap_canonical hu) (collRead_canonical hu hbody)))
theorem collPages_canonical {rd wr} (hs : MemoryCanonical s) : SomeCanonical (s.collPages rd wr) := by
  unfold State.collPages
  split
  · exact waitIssue_canonical (seek_canonical hs)
  · extract_lets s1 items
    have hs1 : MemoryCanonical s1 := touchPages_canonical (touchPages_canonical hs)
    split
    · generalize List.find? _ items = x
      cases x with
      | none => trivial
      | some x => exact trap_canonical hs1
    · exact trapAct_canonical hs1
    · exact killBy_canonical hs1
    · exact someCanonical_ite (trapAct_canonical hs1) (waitService_canonical (foldl_canonical hs1 faultEntry_canonical))
theorem collRelease_canonical {bs} (hs : MemoryCanonical s) : SomeCanonical (s.collRelease bs) := by
  unfold State.collRelease
  extract_lets
  split
  · exact someCanonical_ite (someCanonical_ite (stall_canonical hs) trivial)
      (someCanonical_ite (stall_canonical hs) (stall_canonical (modW_canonical hs)))
  · exact someCanonical_ite (stall_canonical hs) trivial
theorem collIssue_canonical {bs act} (hs : MemoryCanonical s) (hact : ∀ {t}, MemoryCanonical t → MemoryCanonical (act t)) :
    NextCanonical (s.collIssue bs act) := by
  unfold State.collIssue
  refine nextCanonical_ite (waitIssue_canonical hs) ?_
  split
  · next e => exact someCanonical_of_eq (collRelease_canonical hs) e
  · split
    · exact advance_canonical (modW_canonical hs)
    · exact advance_canonical (hact hs)
theorem joinDone_canonical {j err} (hs : MemoryCanonical s) : MemoryCanonical (s.joinDone j err) := by
  unfold State.joinDone
  split
  · exact collDone_canonical hs
  · exact sendColl_canonical hs
theorem joinArrive_canonical {j} (hs : MemoryCanonical s) : MemoryCanonical (s.joinArrive j) := by
  unfold State.joinArrive
  extract_lets
  refine canonical_ite (joinDone_canonical hs) ?_
  split
  · exact canonical_ite (joinDone_canonical hs) hs
  · exact canonical_ite hs hs
theorem execJoin_canonical {j} (hs : MemoryCanonical s) : NextCanonical (execJoin j s) := canonical_ite hs (joinArrive_canonical hs)
theorem gladeSeeks_canonical {write pas n} (hs : MemoryCanonical s) : MemoryCanonical (s.gladeSeeks write pas n) :=
  foldl_canonical hs seek_canonical
theorem gladeReads_canonical {pas n} (hs : MemoryCanonical s) : MemoryCanonical (s.gladeReads pas n) := foldl_canonical hs readAt_canonical
theorem gladeWrite_canonical {pa bs sectors} (hs : MemoryCanonical s) : MemoryCanonical (s.gladeWrite pa bs sectors) := by
  unfold State.gladeWrite
  extract_lets s1
  have hs1 : MemoryCanonical s1 := writeAt_canonical hs
  exact canonical_ite hs1 (setPoison_canonical hs1 _)
theorem joinRetry_canonical {q} (hs : MemoryCanonical s) : MemoryCanonical (s.joinRetry q) := foldl_canonical hs joinArrive_canonical
theorem modInstance_canonical {id f} (hs : MemoryCanonical s) : MemoryCanonical (s.modInstance id f) := hs
theorem closeInstance_canonical {i err} (hs : MemoryCanonical s) : MemoryCanonical (s.closeInstance i err) :=
  joinRetry_canonical (foldl_canonical hs joinDone_canonical)
theorem instanceEnd_canonical {id} (hs : MemoryCanonical s) : MemoryCanonical (s.instanceEnd id) := by
  unfold State.instanceEnd
  split
  · exact canonical_ite hs (closeInstance_canonical hs)
  · exact hs
theorem lateDeliver_canonical {i j c} (hs : MemoryCanonical s) : MemoryCanonical (s.lateDeliver i j c) :=
  canonical_ite (gladeSeeks_canonical hs) (instanceEnd_canonical (modInstance_canonical (gladeWrite_canonical hs)))
theorem execCollectivePull_canonical {quarter id} (hs : MemoryCanonical s) : NextCanonical (execCollectivePull quarter id s) := by
  unfold execCollectivePull
  split
  · exact hs
  · refine nextCanonical_ite hs ?_
    split
    · exact lateDeliver_canonical hs
    · extract_lets _ _ _ s0 _ s1
      have hs0 : MemoryCanonical s0 := gladeReads_canonical hs
      have hs1 : MemoryCanonical s1 := foldl_canonical hs0 gladeWrite_canonical
      exact nextCanonical_ite (instanceEnd_canonical hs) (nextCanonical_ite (gladeSeeks_canonical (gladeSeeks_canonical hs))
        (instanceEnd_canonical (modInstance_canonical hs1)))
theorem collOp_canonical {a xred} (hs : MemoryCanonical s) : NextCanonical (s.collOp a xred) := by
  unfold State.collOp
  refine collDesc_canonical hs fun ht => ?_
  extract_lets
  refine nextCanonical_ite (trap_canonical ht) ?_
  split
  · next e => exact someCanonical_of_eq (collPages_canonical ht) e
  · refine collIssue_canonical ht fun hu => ?_
    exact canonical_ite (joinArrive_canonical (enqueueColl_canonical hu)) (sendColl_canonical (enqueueColl_canonical hu))
theorem setSide_canonical {e} (hs : MemoryCanonical s) : MemoryCanonical (s.setSide e) := hs
theorem withdrawAll_canonical {ctx blk tag} (hs : MemoryCanonical s) : MemoryCanonical (s.withdrawAll ctx blk tag) :=
  foldl_canonical hs sendColl_canonical
theorem evictSlot_canonical {blk} (hs : MemoryCanonical s) : MemoryCanonical (s.evictSlot blk) := by
  unfold State.evictSlot
  extract_lets
  refine canonical_ite hs ?_
  split
  · exact hs
  · split
    · exact withdrawAll_canonical (setSide_canonical hs)
    · exact hs
theorem SideRun_record_canonical {x : SideRun} {ctx op tag blk pa} (hx : MemoryCanonical x.s) :
    MemoryCanonical (x.record ctx op tag blk pa).s := by
  unfold SideRun.record
  extract_lets s1 old _ inBuf s2 kind s3
  have hs1 : MemoryCanonical s1 := hx
  have hs2 : MemoryCanonical s2 := canonical_ite (gladeReads_canonical (canonical_ite hs1 (evictSlot_canonical hs1))) hs1
  have hs3 : MemoryCanonical s3 := setSide_canonical hs2
  clear_value old
  split
  · refine withdrawAll_canonical ?_
    split
    · exact setSide_canonical hs1
    · exact hs1
  · split
    · exact hx
    · split
      · exact hx
      · exact foldl_canonical hs3 sendColl_canonical
theorem execXside_canonical {a} (hs : MemoryCanonical s) : NextCanonical (execXside a s) := by
  unfold execXside
  refine collDesc_canonical hs fun ht => nextCanonical_ite (trap_canonical ht) (collRead_canonical ht fun hu => ?_)
  extract_lets
  refine nextCanonical_ite (trap_canonical hu) ?_
  split
  · next e => exact someCanonical_of_eq (collPages_canonical hu) e
  · refine nextCanonical_ite (waitIssue_canonical (gladeSeeks_canonical hu)) (collIssue_canonical hu fun hv => enqueueColl_canonical ?_)
    exact List.foldlRecOn (motive := fun x : SideRun => MemoryCanonical x.s) _ _ hv fun _ hx _ _ => SideRun_record_canonical hx
theorem execSideAck_canonical {_w opId from_} (hs : MemoryCanonical s) : NextCanonical (execSideAck _w opId from_ s) := modColl_canonical hs
theorem execAdvert_canonical {from_ ctx blk} (hs : MemoryCanonical s) : NextCanonical (execAdvert from_ ctx blk s) := by
  unfold execAdvert
  refine nextCanonical_ite hs ?_
  extract_lets s1
  have hs1 : MemoryCanonical s1 := by
    unfold s1
    split
    · exact setSide_canonical hs
    · exact canonical_ite (setSide_canonical hs) hs
  exact sendColl_canonical hs1
theorem execWithdraw_canonical {from_ ctx blk} (hs : MemoryCanonical s) : NextCanonical (execWithdraw from_ ctx blk s) := by
  unfold execWithdraw
  refine nextCanonical_ite hs ?_
  extract_lets s1
  have hs1 : MemoryCanonical s1 := by
    unfold s1
    split
    · exact setSide_canonical hs
    · exact hs
  exact sendColl_canonical hs1
theorem modPlan_canonical {ctx id f} (hs : MemoryCanonical s) : MemoryCanonical (s.modPlan ctx id f) := hs
theorem dropPlan_canonical {ctx id} (hs : MemoryCanonical s) : MemoryCanonical (s.dropPlan ctx id) := hs
theorem planCheck_canonical {ctx id} (hs : MemoryCanonical s) : MemoryCanonical (s.planCheck ctx id) := by
  unfold State.planCheck
  split
  · exact hs
  · exact canonical_ite (foldl_canonical (dropPlan_canonical hs) modColl_canonical) hs
theorem failPlan_canonical {p err} (hs : MemoryCanonical s) : MemoryCanonical (s.failPlan p err) := foldl_canonical hs collDone_canonical
theorem planDigests_canonical {ctx id} (hs : MemoryCanonical s) : MemoryCanonical (s.planDigests ctx id) := by
  unfold State.planDigests
  split
  · exact hs
  · exact canonical_ite (failPlan_canonical hs) (planCheck_canonical hs)
theorem execPlanDigest_canonical {ctx id from_ digest} (hs : MemoryCanonical s) : NextCanonical (execPlanDigest ctx id from_ digest s) := by
  unfold execPlanDigest
  refine nextCanonical_ite hs ?_
  split
  · exact planDigests_canonical (modPlan_canonical hs)
  · exact hs
theorem openPlan_canonical {ctx bs ls opId} (hs : MemoryCanonical s) : MemoryCanonical (s.openPlan ctx bs ls opId) :=
  planDigests_canonical (foldl_canonical hs sendColl_canonical)
theorem execXshf_canonical {a} (hs : MemoryCanonical s) : NextCanonical (execXshf a s) := by
  unfold execXshf
  refine collDesc_canonical hs fun ht => nextCanonical_ite (trap_canonical ht) (collRead_canonical ht fun hu => ?_)
  refine nextCanonical_ite (trap_canonical hu) ?_
  extract_lets
  split
  · next e => exact someCanonical_of_eq (collPages_canonical hu) e
  · refine collIssue_canonical hu fun hv => ?_
    extract_lets _ s1
    have hs1 : MemoryCanonical s1 := enqueueColl_canonical hv
    split
    · exact modPlan_canonical hs1
    · exact openPlan_canonical hs1
theorem failXfer_canonical {ctx id i} (hs : MemoryCanonical s) : MemoryCanonical (s.failXfer ctx id i) := by
  unfold State.failXfer
  split
  · exact hs
  · exact planCheck_canonical (sendColl_canonical (modPlan_canonical hs))
theorem sendCoded_canonical {ctx id p is_} (hs : MemoryCanonical s) : MemoryCanonical (s.sendCoded ctx id p is_) := by
  unfold State.sendCoded
  extract_lets _ _ s1 _ _ _ _ s2 s3
  have hs1 : MemoryCanonical s1 := gladeReads_canonical hs
  have hs3 : MemoryCanonical s3 := modPlan_canonical (foldl_canonical hs1 sendColl_canonical)
  exact canonical_ite (gladeSeeks_canonical hs) (canonical_ite hs3 hs3)
theorem execPacketFormation_canonical {ctx id} (hs : MemoryCanonical s) : NextCanonical (execPacketFormation ctx id s) := by
  unfold execPacketFormation
  split
  · exact hs
  · refine nextCanonical_ite hs ?_
    extract_lets unsent
    clear_value unsent
    split
    · exact hs
    · exact nextCanonical_ite (failXfer_canonical hs) (sendCoded_canonical hs)
theorem useBlock_canonical {ctx blk} (hs : MemoryCanonical s) : MemoryCanonical (s.useBlock ctx blk) := by
  unfold State.useBlock
  split
  · split <;> exact hs
  · exact hs
theorem decodeMiss_canonical {p i blk} (hs : MemoryCanonical s) : MemoryCanonical (s.decodeMiss p i blk) :=
  canonical_ite (gladeWrite_canonical hs) hs
theorem execCodedPacket_canonical {k} (hs : MemoryCanonical s) : NextCanonical (execCodedPacket k s) := by
  unfold execCodedPacket
  split
  · exact hs
  · split
    · exact hs
    · refine nextCanonical_ite hs (nextCanonical_ite (gladeSeeks_canonical (gladeSeeks_canonical hs)) ?_)
      split
      · refine nextCanonical_ite ?_ (sendColl_canonical (decodeMiss_canonical hs))
        exact planCheck_canonical (sendColl_canonical (modPlan_canonical (decodeMiss_canonical hs)))
      · refine planCheck_canonical (sendColl_canonical (modPlan_canonical (gladeWrite_canonical ?_)))
        exact foldl_canonical (gladeReads_canonical hs) useBlock_canonical
theorem execFallbackreq_canonical {ctx id xfer _to} (hs : MemoryCanonical s) : NextCanonical (execFallbackreq ctx id xfer _to s) := by
  unfold execFallbackreq
  split
  · exact hs
  · exact nextCanonical_ite hs (nextCanonical_ite (failXfer_canonical hs) (sendCoded_canonical hs))
theorem execTransferack_canonical {ctx id xfer _missed} (hs : MemoryCanonical s) : NextCanonical (execTransferack ctx id xfer _missed s) :=
  planCheck_canonical (modPlan_canonical hs)
theorem collLose_canonical {gone} (hs : MemoryCanonical s) : MemoryCanonical (s.collLose gone) :=
  foldl_canonical (foldl_canonical (foldl_canonical hs collDone_canonical) closeInstance_canonical) failPlan_canonical
theorem execXqry_canonical {d sel} (hs : MemoryCanonical s) : NextCanonical (execXqry d sel s) := by
  unfold execXqry
  extract_lets t
  have ht : MemoryCanonical t := txGuard_canonical hs
  exact nextCanonical_ite (finish_canonical ht) (advance_canonical (wrS_canonical ht))

/-! ### Saves and restores -/

theorem rename_canonical {n} (hs : MemoryCanonical s) : MemoryCanonical (s.rename n) := hs
theorem dropCommits_canonical {k} (hs : MemoryCanonical s) : MemoryCanonical (s.dropCommits k) := hs
theorem stopWarp_canonical {k} (hs : MemoryCanonical s) : MemoryCanonical (s.stopWarp k) :=
  abortSet_canonical (setWarp_canonical (dropCommits_canonical (undoWaits_canonical hs)))
theorem leaveCore_canonical {k} (hs : MemoryCanonical s) : MemoryCanonical (s.leaveCore k) := by
  unfold State.leaveCore
  extract_lets _ s1 s2
  have hs1 : MemoryCanonical s1 := foldl_canonical hs dropMail_canonical
  have hs2 : MemoryCanonical s2 := foldl_canonical hs1 fun ht => modBand_canonical ht _ _ _
  exact modGroup_canonical (modCore_canonical (modCore_canonical hs2)) _ _
theorem saveGroup_canonical {k} (hs : MemoryCanonical s) : MemoryCanonical (s.saveGroup k) := by
  unfold State.saveGroup
  extract_lets _ s1 s2 s3
  have hs1 : MemoryCanonical s1 := foldl_canonical hs stopWarp_canonical
  have hs2 : MemoryCanonical s2 := hs1
  have hs3 : MemoryCanonical s3 := leaveCore_canonical (writeRecords_canonical hs2 _)
  exact grantLock_canonical (ticketServe_canonical (setSlotState_canonical (rename_canonical hs3)))
theorem bindAgain_canonical {ks} (hs : MemoryCanonical s) : MemoryCanonical (s.bindAgain ks) :=
  foldl_canonical hs fun ht => canonical_ite (modSlot_canonical ht) ht
theorem steer_canonical {core} (hs : MemoryCanonical s) : MemoryCanonical (s.steer core) := modCore_canonical hs
theorem mend_canonical (hs : MemoryCanonical s) : MemoryCanonical (s.mend) :=
  foldl_canonical hs fun ht => canonical_ite ht (modCore_canonical (bindAgain_canonical ht))
theorem execSaveComplete_canonical {g} (hs : MemoryCanonical s) : NextCanonical (execSaveComplete g s) :=
  canonical_ite (mend_canonical (steer_canonical (saveGroup_canonical hs))) (canonical_ite (mend_canonical (steer_canonical hs)) hs)
theorem fillCore_canonical {g old v m} (hs : MemoryCanonical s) : MemoryCanonical (s.fillCore g old v m) := by
  unfold State.fillCore
  extract_lets _ s1 s2
  have hs1 : MemoryCanonical s1 := foldl_canonical hs fun ht => modCore_canonical (putBytes_canonical ht _ _)
  have hs2 : MemoryCanonical s2 := foldl_canonical hs1 fun ht => modBand_canonical (putBytes_canonical ht _ _) _ _ _
  exact modCore_canonical (setPoison_canonical (putBytes_canonical hs2 _ _) _)
theorem lockRechecked_canonical (hs : MemoryCanonical s) : MemoryCanonical (s.lockRechecked) := by
  unfold State.lockRechecked
  split
  · exact canonical_ite hs (releaseLock_canonical hs)
  · exact hs
theorem restoreGroup_canonical {k key b tvec m} (hs : MemoryCanonical s) : MemoryCanonical (s.restoreGroup k key b tvec m) := by
  unfold State.restoreGroup
  extract_lets _ _ _ _ _ _ _ s0 _ _ _ s2 s3
  have hs0 : MemoryCanonical s0 := settleArea_canonical hs _ _
  have hs2 : MemoryCanonical s2 := fillCore_canonical (foldl_canonical
    (modGroup_canonical (rename_canonical hs0) _ _) fun ht => zeroBank_canonical ht _ _)
  have hs3 : MemoryCanonical s3 := foldl_canonical (modCore_canonical hs2) modWarp_canonical
  exact lockRechecked_canonical hs3

/-! ### Binding and dispatch -/

theorem execSlotBind_canonical {g rec_} (hs : MemoryCanonical s) : NextCanonical (execSlotBind g rec_ s) :=
  nextCanonical_ite (modSlot_canonical hs) hs
theorem execSlotStop_canonical {g} (hs : MemoryCanonical s) : NextCanonical (execSlotStop g s) :=
  nextCanonical_ite (foldl_canonical hs fun ht => canonical_ite (modSlot_canonical ht) ht) hs
theorem refuseGrid_canonical {id} (hs : MemoryCanonical s) : MemoryCanonical (s.refuseGrid id) :=
  Killed_out_canonical (Killed_map_canonical (killGangs_canonical (setStatus_canonical hs)) failGrid_canonical)
theorem execSlotFree_canonical {g} (hs : MemoryCanonical s) : NextCanonical (execSlotFree g s) := by
  unfold execSlotFree
  extract_lets _ s1
  have hs1 : MemoryCanonical s1 := modSlot_canonical hs
  split
  · exact hs1
  · exact canonical_ite (refuseGrid_canonical hs1) hs1
  · exact hs
theorem zeroGroup_canonical {b} (hs : MemoryCanonical s) : MemoryCanonical (s.zeroGroup b) := by
  unfold State.zeroGroup
  extract_lets _ s2
  have hs2 : MemoryCanonical s2 := foldl_canonical (zeroBytes_canonical hs _ _) fun ht => zeroBank_canonical ht _ _
  exact foldl_canonical hs2 fun ht => modCore_canonical (zeroBytes_canonical ht _ _)
theorem startGroup_canonical {key b copy live} (hs : MemoryCanonical s) : MemoryCanonical (s.startGroup key b copy live) :=
  setSlotState_canonical (foldl_canonical (foldl_canonical (zeroGroup_canonical hs) reach_canonical) setWarp_canonical)
theorem startEntries_canonical {resume m first es} (hs : MemoryCanonical s) : MemoryCanonical (s.startEntries resume m first es) := by
  unfold State.startEntries
  refine foldl_canonical hs fun ht => ?_
  split
  · split
    · exact groupIngest_canonical (setSlotState_canonical (restoreGroup_canonical ht))
    · exact ht
  · exact startGroup_canonical ht
theorem execGangDispatch_canonical {grid gang} (hs : MemoryCanonical s) : NextCanonical (execGangDispatch grid gang s) := by
  unfold execGangDispatch
  extract_lets _ s1
  have hs1 : MemoryCanonical s1 := mend_canonical (foldl_canonical hs steer_canonical)
  refine nextCanonical_ite hs1 ?_
  split
  · exact hs1
  · extract_lets _ s2 _ s3
    have hs2 : MemoryCanonical s2 := foldl_canonical hs1 fun ht => settle_canonical ht _ _
    have hs3 : MemoryCanonical s3 := startEntries_canonical hs2
    refine nextCanonical_ite (foldl_canonical hs1 seek_canonical) (nextCanonical_ite ?_ ?_)
    · exact nextCanonical_ite (modGang_canonical hs3) (modGang_canonical hs3)
    · exact foldl_canonical hs2 fun ht => canonical_ite ht (modSlot_canonical ht)

/-! ### Releases -/

theorem execSliceExpiry_canonical {g} (hs : MemoryCanonical s) : NextCanonical (execSliceExpiry g s) :=
  nextCanonical_ite (modGroup_canonical (emit_canonical hs) _ _) hs
theorem execGroupRetire_canonical {g} (hs : MemoryCanonical s) : NextCanonical (execGroupRetire g s) :=
  canonical_ite (retireGroup_canonical hs) hs
theorem releaseGroup_canonical {k} (hs : MemoryCanonical s) : MemoryCanonical (s.releaseGroup k) :=
  modGroup_canonical (foldl_canonical hs fun ht => modBand_canonical ht _ _ _) _ _
theorem execWarpSlotRelease_canonical {w} (hs : MemoryCanonical s) : NextCanonical (execWarpSlotRelease w s) := by
  unfold execWarpSlotRelease
  extract_lets _ _ s1
  have hs1 : MemoryCanonical s1 := dropWarp_canonical (servePools_canonical (giveBanks_canonical hs))
  exact nextCanonical_ite (canonical_ite (releaseGroup_canonical hs1) hs1) hs
theorem killOthers_canonical {id} (hs : MemoryCanonical s) : MemoryCanonical (s.killOthers id) := Killed_out_canonical (killGangs_canonical hs)
theorem execCoppiceRelaunch_canonical {grid gang} (hs : MemoryCanonical s) : NextCanonical (execCoppiceRelaunch grid gang s) := by
  unfold execCoppiceRelaunch
  extract_lets _ _ _ _ _ s1
  have hs1 : MemoryCanonical s1 := killOthers_canonical hs
  split
  · exact hs
  · exact nextCanonical_ite hs (nextCanonical_ite (failGrid_canonical (killOthers_canonical (setStatus_canonical hs)))
      (nextCanonical_ite (modGrid_canonical hs1) (modGang_canonical hs)))
theorem execLockLimitExpiry_canonical (hs : MemoryCanonical s) : NextCanonical (execLockLimitExpiry s) := by
  unfold execLockLimitExpiry
  split
  · exact hs
  · exact nextCanonical_ite (killBy_canonical hs) hs
theorem execSleepDeadline_canonical {w t} (hs : MemoryCanonical s) : NextCanonical (execSleepDeadline w t s) :=
  nextCanonical_ite (modWarp_canonical hs) hs
theorem execTxRevalidateCount_canonical {w t} (hs : MemoryCanonical s) : NextCanonical (execTxRevalidateCount w t s) := by
  unfold execTxRevalidateCount
  extract_lets
  split
  · refine nextCanonical_ite hs (nextCanonical_ite (seekLogs_canonical hs) ?_)
    extract_lets s1
    have hs1 : MemoryCanonical s1 := settleLog_canonical hs
    exact nextCanonical_ite (modWarp_canonical hs1) (abortSet_canonical hs1)
  · exact hs
theorem startInval_canonical {core v} (hs : MemoryCanonical s) : MemoryCanonical (s.startInval core v) := canonical_ite hs hs
theorem execInvalidateComplete_canonical {core} (hs : MemoryCanonical s) : NextCanonical (execInvalidateComplete core s) := by
  unfold execInvalidateComplete
  split
  · exact hs
  · exact nextCanonical_ite hs hs

/-! ### Accesses of other agents -/

theorem execMailboxWrite_canonical {by_ w m off bytes} (hs : MemoryCanonical s) : NextCanonical (execMailboxWrite by_ w m off bytes s) :=
  canonical_ite (mailStore_canonical hs) hs
theorem execMailboxClose_canonical {by_ w m off bytes} (hs : MemoryCanonical s) : NextCanonical (execMailboxClose by_ w m off bytes s) :=
  canonical_ite (mailStore_canonical hs) hs
theorem execMailboxDiscard_canonical {w m} (hs : MemoryCanonical s) : NextCanonical (execMailboxDiscard w m s) :=
  canonical_ite (mailDiscard_canonical hs) hs
theorem execMailboxRoom_canonical {w m} (hs : MemoryCanonical s) : NextCanonical (execMailboxRoom w m s) := by
  unfold execMailboxRoom
  split
  · exact hs
  · exact mailPerform_canonical (modCore_canonical hs)
theorem slotWord_canonical {core i w v} (hs : MemoryCanonical s) : MemoryCanonical (s.slotWord core i w v) := by
  unfold State.slotWord
  extract_lets _ _ go
  have hgo : ∀ {r}, NextCanonical r → MemoryCanonical (go r) := by
    intro r hr
    cases r with
    | next t => exact hr
    | _ => exact hs
  refine canonical_ite (canonical_ite (modSlot_canonical hs) hs) (canonical_ite (hgo (execSlotBind_canonical hs)) ?_)
  exact canonical_ite (canonical_ite (hgo (execSlotStop_canonical hs)) hs) (canonical_ite (hgo (execSlotFree_canonical hs)) hs)
theorem controlStore_canonical {core o bs} (hs : MemoryCanonical s) : MemoryCanonical (s.controlStore core o bs) := by
  unfold State.controlStore
  extract_lets _ _ s1 s2
  have hs1 : MemoryCanonical s1 := canonical_ite (modCore_canonical hs) hs
  have hs2 : MemoryCanonical s2 := canonical_ite (startInval_canonical hs1) hs1
  exact canonical_ite (foldl_canonical hs2 fun ht => canonical_ite (slotWord_canonical ht) ht) hs2
theorem agentStore_canonical {by_ pa bs} (hs : MemoryCanonical s) : MemoryCanonical (s.agentStore by_ pa bs) := by
  unfold State.agentStore
  split
  · exact mailWrites_canonical hs
  · exact controlStore_canonical hs
  · exact storePlain_canonical hs
theorem execCoreWindowAccess_canonical {by_ pa op} (hs : MemoryCanonical s) : NextCanonical (execCoreWindowAccess by_ pa op s) := by
  unfold execCoreWindowAccess
  refine nextCanonical_ite hs ?_
  split
  · exact hs
  · exact canonical_ite (agentStore_canonical hs) hs
  · exact canonical_ite (rmw_canonical hs _ _ _ _ _) hs

/-! ### The fabric: recalls, answers, lost parts -/

theorem dataHome_canonical {h line x} (hs : MemoryCanonical s) : MemoryCanonical (s.dataHome h line x) :=
  canonical_ite (setPoison_canonical (putBytes_canonical (observe_canonical (settle_canonical hs _ _)) _ _) _) hs
theorem execGrantack_canonical {holder line} (hs : MemoryCanonical s) : NextCanonical (execGrantack holder line s) :=
  dirPump_canonical (setDir_canonical hs)
theorem takeBack_canonical {holder line x} (hs : MemoryCanonical s) : MemoryCanonical (s.takeBack holder line x) := by
  unfold State.takeBack
  extract_lets _ _ s1
  have hs1 : MemoryCanonical s1 := dataHome_canonical hs
  exact canonical_ite hs (dirPump_canonical (canonical_ite (setDir_canonical hs1) hs1))
theorem execWriteback_canonical {holder line x} (hs : MemoryCanonical s) : NextCanonical (execWriteback holder line x s) := by
  unfold execWriteback
  refine nextCanonical_ite hs ?_
  split
  · refine nextCanonical_ite hs ?_
    extract_lets _ _ s1
    have hs1 : MemoryCanonical s1 := recallActs_canonical hs _ _
    exact nextCanonical_ite (askHome_canonical hs1) (send_canonical (takeBack_canonical hs1))
  · exact nextCanonical_ite hs (reply_canonical (takeBack_canonical hs))
theorem recalled_canonical {h line x} (hs : MemoryCanonical s) : MemoryCanonical (s.recalled h line x) :=
  canonical_ite hs (dirPump_canonical (setDir_canonical (canonical_ite (dataHome_canonical hs) hs)))
theorem execData_canonical {holder line excl p} (hs : MemoryCanonical s) : NextCanonical (execData holder line excl p s) := by
  unfold execData
  refine nextCanonical_ite hs ?_
  extract_lets _ _ s1 s2
  have hs1 : MemoryCanonical s1 := foldl_canonical hs fun ht => ht
  have hs2 : MemoryCanonical s2 := canonical_ite (setPoison_canonical (putBytes_canonical hs1 _ _) _) hs1
  exact sendHome_canonical hs2
theorem execWback_canonical {holder line} (hs : MemoryCanonical s) : NextCanonical (execWback holder line s) := canonical_ite hs hs
theorem execRecall_canonical {holder line} (hs : MemoryCanonical s) : NextCanonical (execRecall holder line s) := by
  unfold execRecall
  refine nextCanonical_ite hs (sendHome_canonical (foldl_canonical hs fun ht => ?_))
  have hr := recallActs_canonical ht
  exact canonical_ite (hr _ _) (hr _ _)
theorem execAtomic_canonical {src op pa operand cmp rnd nr} (hs : MemoryCanonical s) :
    NextCanonical (execAtomic src op pa operand cmp rnd nr s) := by
  unfold execAtomic
  extract_lets _ _ x
  have hx : MemoryCanonical x.1 := atomAt_canonical hs
  exact nextCanonical_ite hs (nextCanonical_ite (seek_canonical hs) (canonical_ite (reply_canonical hx) (reply_canonical hx)))
theorem execUncachedRead_canonical {src pa size} (hs : MemoryCanonical s) : NextCanonical (execUncachedRead src pa size s) := by
  unfold execUncachedRead
  refine nextCanonical_ite hs (nextCanonical_ite (seek_canonical hs) ?_)
  extract_lets s1
  have hs1 : MemoryCanonical s1 := canonical_ite (observe_canonical (ownLines_canonical (settle_canonical hs _ _) _ _ _ _)) hs
  exact reply_canonical (classifyRaw_canonical hs1)
theorem rawWrite_canonical {by_ pa bs pois} (hs : MemoryCanonical s) : MemoryCanonical (s.rawWrite by_ pa bs pois) := by
  unfold State.rawWrite
  extract_lets _ s1 _ s2
  have hs1 : MemoryCanonical s1 := canonical_ite (observe_canonical (ownLines_canonical (settle_canonical hs _ _) _ _ _ _)) hs
  have hs2 : MemoryCanonical s2 := storePlain_canonical (classifyRaw_canonical hs1)
  exact canonical_ite hs2 (setPoison_canonical hs2 _)
theorem execUncachedWrite_canonical {src pa bytes pois} (hs : MemoryCanonical s) : NextCanonical (execUncachedWrite src pa bytes pois s) := by
  unfold execUncachedWrite
  extract_lets _ s1
  have hs1 : MemoryCanonical s1 := by
    unfold s1
    split
    · exact mailWrites_canonical hs
    · exact rawWrite_canonical hs
  exact nextCanonical_ite hs (nextCanonical_ite (seek_canonical hs) (reply_canonical hs1))
theorem execContribution_canonical {src op pa operand pois ackIx} (hs : MemoryCanonical s) :
    NextCanonical (execContribution src op pa operand pois ackIx s) := by
  unfold execContribution
  extract_lets _ s0 s1 s2
  have hs0 : MemoryCanonical s0 := observe_canonical (ownLines_canonical hs _ _ _ _)
  have hs1 : MemoryCanonical s1 := by
    unfold s1
    split
    · exact shadowAdd_canonical hs0 _ _ _ _
    · exact rmw_canonical hs0 _ _ _ _ _
  have hs2 : MemoryCanonical s2 := canonical_ite (setPoison_canonical hs1 _) hs1
  exact nextCanonical_ite hs (nextCanonical_ite (contribute_canonical hs) (nextCanonical_ite (seek_canonical hs) (reply_canonical hs2)))
theorem execPartialForwardTimer_canonical {n} (hs : MemoryCanonical s) : NextCanonical (execPartialForwardTimer n s) := by
  unfold execPartialForwardTimer
  split
  · exact canonical_ite hs (canonical_ite (seek_canonical hs) (forwardPartial_canonical hs _))
  · exact hs
theorem execGladePartialError_canonical {n sector} (hs : MemoryCanonical s) : NextCanonical (execGladePartialError n sector s) := by
  unfold execGladePartialError
  split
  · exact nextCanonical_ite hs hs
  · exact hs
theorem execAck_canonical {n} (hs : MemoryCanonical s) : NextCanonical (execAck n s) := by
  unfold execAck
  split
  · exact hs
  · extract_lets
    split
    · exact canonical_ite (completeIfDone_canonical hs) hs
    · exact hs
theorem answered_canonical {tag bytes pois} (hs : MemoryCanonical s) : NextCanonical (s.answered tag bytes pois) := by
  unfold State.answered
  split
  · exact hs
  · extract_lets s1
    have hs1 : MemoryCanonical s1 := hs
    split
    · exact execData_canonical hs1
    · exact execWback_canonical hs1
    · exact foldl_canonical hs1 planCheck_canonical
    · exact wf_writeBytes hs1 _ _
theorem dropModules_canonical {ms} (hs : MemoryCanonical s) : MemoryCanonical (s.dropModules ms) :=
  canonical_ite hs (collLose_canonical (foldl_canonical hs fun ht => canonical_ite (killBy_canonical ht) ht))
theorem purge_canonical {id} (hs : MemoryCanonical s) : MemoryCanonical (s.purge id) :=
  foldl_canonical (foldl_canonical hs abortSet_canonical) dirPump_canonical
theorem execPurge_canonical {id} (hs : MemoryCanonical s) : NextCanonical (execPurge id s) := sendTag_canonical (purge_canonical hs)
theorem setQuarantine_canonical {id on} (hs : MemoryCanonical s) : MemoryCanonical (s.setQuarantine id on) :=
  canonical_ite hs (canonical_ite hs (canonical_ite hs hs))
theorem execPurgeack_canonical {id from_} (hs : MemoryCanonical s) : NextCanonical (execPurgeack id from_ s) := by
  unfold execPurgeack
  split
  · exact hs
  · exact canonical_ite (setQuarantine_canonical hs) hs
theorem resetDie_canonical {die} (hs : MemoryCanonical s) : MemoryCanonical (s.resetDie die) := Killed_out_canonical (killAll_canonical hs)
theorem resetHub_canonical {q} (hs : MemoryCanonical s) : MemoryCanonical (s.resetHub q) := hs
theorem execFailedPartRecovery_canonical {id} (hs : MemoryCanonical s) : NextCanonical (execFailedPartRecovery id s) := by
  unfold execFailedPartRecovery
  refine nextCanonical_ite hs ?_
  extract_lets _ s1 _ _ s3
  have hs1 : MemoryCanonical s1 := canonical_ite (resetDie_canonical hs) (canonical_ite (resetHub_canonical hs) hs)
  have hs3 : MemoryCanonical s3 := foldl_canonical (setQuarantine_canonical hs1) sendTag_canonical
  exact canonical_ite (dropModules_canonical hs3) hs3

/-! ### Links and packets that come in -/

theorem sendPacket_canonical {port p seq} (hs : MemoryCanonical s) : MemoryCanonical (s.sendPacket port p seq) :=
  emit_canonical (modPort_canonical hs)
theorem resendAll_canonical {port} (hs : MemoryCanonical s) : MemoryCanonical (s.resendAll port) :=
  canonical_ite hs (foldl_canonical hs sendPacket_canonical)
theorem sendNext_canonical {port q} (hs : MemoryCanonical s) : MemoryCanonical (s.sendNext port q) := sendPacket_canonical (modPort_canonical hs)
theorem transmit_canonical {port} (hs : MemoryCanonical s) : MemoryCanonical (s.transmit port) := by
  unfold State.transmit
  extract_lets
  split
  · exact hs
  · exact canonical_ite hs (sendNext_canonical (modPort_canonical hs))
theorem execIdleTimer_canonical {port} (hs : MemoryCanonical s) : NextCanonical (execIdleTimer port s) := canonical_ite hs (sendNext_canonical hs)
theorem execLinkReplayTimeout_canonical {port} (hs : MemoryCanonical s) : NextCanonical (execLinkReplayTimeout port s) :=
  canonical_ite (resendAll_canonical hs) hs
theorem acceptSeq_canonical {port seq f} (hs : MemoryCanonical s) (hf : ∀ {t}, MemoryCanonical t → MemoryCanonical (f t)) :
    MemoryCanonical (s.acceptSeq port seq f) :=
  canonical_ite hs (canonical_ite (hf (modPort_canonical hs)) (modPort_canonical hs))
theorem takeHeader_canonical {port h} (hs : MemoryCanonical s) : MemoryCanonical (s.takeHeader port h) := by
  unfold State.takeHeader
  extract_lets s1
  have hs1 : MemoryCanonical s1 := modPort_canonical hs
  exact canonical_ite (resendAll_canonical hs1) hs1
theorem execIdle_canonical {port h} (hs : MemoryCanonical s) : NextCanonical (execIdle port h s) := acceptSeq_canonical hs takeHeader_canonical
theorem execPacketCrcFailure_canonical {port} (hs : MemoryCanonical s) : NextCanonical (execPacketCrcFailure port s) :=
  canonical_ite hs (modPort_canonical hs)
theorem reserved_canonical {port vc} (hs : MemoryCanonical s) : MemoryCanonical (s.reserved port vc) := hs
theorem portFails_canonical {port via} (hs : MemoryCanonical s) : MemoryCanonical (s.portFails port via) := hs
theorem execPortDown_canonical {port} (hs : MemoryCanonical s) : NextCanonical (execPortDown port s) := by
  unfold execPortDown
  extract_lets
  refine nextCanonical_ite hs ?_
  split
  · exact dropModules_canonical (portFails_canonical hs)
  · exact dropModules_canonical hs
theorem execPortdown_canonical {port failed ack} (hs : MemoryCanonical s) : NextCanonical (execPortdown port failed ack s) :=
  nextCanonical_ite hs (dropModules_canonical (foldl_canonical (modPort_canonical (canonical_ite hs (portFails_canonical hs))) onPort_canonical))
theorem takeIn_canonical {port vc bs} (hs : MemoryCanonical s) : NextCanonical (s.takeIn port vc bs) := by
  unfold State.takeIn
  extract_lets
  split
  · exact execPortdown_canonical (modPort_canonical hs)
  · exact modPort_canonical hs
  · exact answered_canonical (modPort_canonical hs)
  · exact sendTag_canonical (modPort_canonical hs)
  · exact modPort_canonical hs
theorem flits_canonical {port bs} (hs : MemoryCanonical s) : NextCanonical (s.flits port bs) := by
  unfold State.flits
  extract_lets _ _ _ s1
  have hs1 : MemoryCanonical s1 := acceptSeq_canonical hs takeHeader_canonical
  exact nextCanonical_ite (execPacketCrcFailure_canonical hs) (nextCanonical_ite (execIdle_canonical hs)
    (nextCanonical_ite (reserved_canonical hs1) (takeIn_canonical hs1)))
theorem serveColl_canonical {m tag a} (hs : MemoryCanonical s) : NextCanonical (s.serveColl m tag a) := by
  unfold State.serveColl
  split
  · exact execJoin_canonical hs
  · exact joinedAway_canonical hs
  · exact execAdvert_canonical hs
  · exact execWithdraw_canonical hs
  · exact execSideAck_canonical hs
  · exact execPlanDigest_canonical hs
  · exact execCodedPacket_canonical hs
  · exact execFallbackreq_canonical hs
  · exact execTransferack_canonical hs
  · exact execTransferack_canonical hs
theorem serve_canonical {m tag a} (hs : MemoryCanonical s) : NextCanonical (s.serve m tag a) := by
  unfold State.serve
  split
  · exact request_canonical hs
  · exact execWriteback_canonical hs
  · exact execAtomic_canonical hs
  · exact execUncachedRead_canonical hs
  · exact execUncachedWrite_canonical hs
  · exact execContribution_canonical hs
  · exact execGrantack_canonical hs
  · exact execRecall_canonical hs
  · exact recalled_canonical hs
  · exact execPurge_canonical hs
  · exact execPurgeack_canonical hs
  · exact serveColl_canonical hs
theorem takeSlot_canonical {port vc} (hs : MemoryCanonical s) : NextCanonical (s.takeSlot port vc) := by
  unfold State.takeSlot
  split
  · exact hs
  · refine nextCanonical_ite hs ?_
    have hr {src tag i p} : NextCanonical (State.serve { s with replyTo := p } src tag i) := serve_canonical hs
    split
    · next e =>
      have ht := nextCanonical_of_eq hr e
      exact canonical_ite ht (modPort_canonical ht)
    · exact hr

/-! ### Harts: registers, translation, accesses -/

theorem hartDone_canonical {h d v} (hs : MemoryCanonical s) : MemoryCanonical (s.hartDone h d v) := modHart_canonical hs
theorem hartRaise_canonical {h cause tval} (hs : MemoryCanonical s) : MemoryCanonical (s.hartRaise h cause tval) := modHart_canonical hs
theorem hartAbort_canonical {h code detail} (hs : MemoryCanonical s) : MemoryCanonical (s.hartAbort h code detail) := modHart_canonical hs
theorem hartTouch_canonical {h k va} (hs : MemoryCanonical s) : MemoryCanonical (s.hartTouch h k va) :=
  canonical_ite hs (foldl_canonical hs fun ht => classifyRaw_canonical (observe_canonical (settle_canonical ht _ _)))
theorem hartSeek_canonical {h write ps} (hs : MemoryCanonical s) : MemoryCanonical (s.hartSeek h write ps) := foldl_canonical hs seek_canonical
theorem hartRead_canonical {h ps} (hs : MemoryCanonical s) : MemoryCanonical (s.hartRead h ps).1 := by
  unfold State.hartRead
  extract_lets s1
  have hs1 : MemoryCanonical s1 := foldl_canonical hs reach_canonical
  split
  · exact hs1
  · exact modHart_canonical hs1
theorem hartWrite_canonical {h ps bs} (hs : MemoryCanonical s) : MemoryCanonical (s.hartWrite h ps bs) := by
  unfold State.hartWrite
  split
  · exact canonical_ite (modHart_canonical (foldl_canonical hs observeBuffered_canonical)) (hartAbort_canonical hs)
  · exact foldl_canonical hs fun ht => agentStore_canonical (reach_canonical ht)
theorem hartWriteDone_canonical {h d v ps bs} (hs : MemoryCanonical s) : MemoryCanonical (s.hartWriteDone h d v ps bs) := by
  unfold State.hartWriteDone
  extract_lets s1
  have hs1 : MemoryCanonical s1 := hartWrite_canonical hs
  exact canonical_ite hs1 (hartDone_canonical hs1)
/-- The checks of the access of a hart, before it reads or writes. -/
theorem hartGate_canonical {h k e va n align} (hs : MemoryCanonical s) : GateCanonical (s.hartGate h k e va n align) := by
  unfold State.hartGate
  split
  · exact seek_canonical hs
  · extract_lets s1
    have hs1 : MemoryCanonical s1 := hartTouch_canonical (hartTouch_canonical hs)
    split
    · exact hartRaise_canonical hs1
    · extract_lets
      refine gateCanonical_ite (hartAbort_canonical hs1) (gateCanonical_ite (hartRaise_canonical hs1) ?_)
      refine gateCanonical_ite (hartSeek_canonical hs1) (gateCanonical_ite hs1 (gateCanonical_ite ?_ hs1))
      exact canonical_ite (hartAbort_canonical hs1) hs1
theorem hartLoad_canonical {h va n align f} (hs : MemoryCanonical s) (hf : ∀ {t x}, MemoryCanonical t → MemoryCanonical (f t x)) :
    NextCanonical (s.hartLoad h va n align f) := by
  unfold State.hartLoad
  split
  · next e => exact gateCanonical_of_stop (hartGate_canonical hs) e
  · next e =>
    have ht := gateCanonical_of_go (hartGate_canonical hs) e
    exact nextCanonical_ite (hartRaise_canonical ht) (hf (hartRead_canonical ht))
theorem hartStore_canonical {h va align bs f} (hs : MemoryCanonical s) (hf : ∀ {t x}, MemoryCanonical t → MemoryCanonical (f t x)) :
    NextCanonical (s.hartStore h va align bs f) := by
  unfold State.hartStore
  split
  · next e => exact gateCanonical_of_stop (hartGate_canonical hs) e
  · next e => exact hf (gateCanonical_of_go (hartGate_canonical hs) e)
theorem hartAmo_canonical {h d va op v} (hs : MemoryCanonical s) : NextCanonical (s.hartAmo h d va op v) := by
  unfold State.hartAmo
  extract_lets
  split
  · next e => exact gateCanonical_of_stop (hartGate_canonical hs) e
  · next t ps e =>
    have ht := gateCanonical_of_go (hartGate_canonical hs) e
    have ha : MemoryCanonical (t.atomAt (hartBy h) 12 false op .rne (ps.headD ⟨0, 0, 0⟩).pa v.toNat 0).1 := atomAt_canonical ht
    refine nextCanonical_ite (hartRaise_canonical ht) (nextCanonical_ite (hartWriteDone_canonical (hartRead_canonical ht)) ?_)
    refine nextCanonical_ite (hartDone_canonical ha) ?_
    split
    · exact canonical_ite (hartRaise_canonical (useValue_canonical ht)) (hartDone_canonical (useValue_canonical ht))
    · exact canonical_ite ht (atomAway_canonical ht)
theorem hartLr_canonical {h d va n} (hs : MemoryCanonical s) : NextCanonical (s.hartLr h d va n) := by
  unfold State.hartLr
  refine nextCanonical_ite (hartAbort_canonical hs) ?_
  split
  · next e => exact gateCanonical_of_stop (hartGate_canonical hs) e
  · next e =>
    have ht := gateCanonical_of_go (hartGate_canonical hs) e
    exact nextCanonical_ite (hartRaise_canonical ht) (modHart_canonical (hartDone_canonical (hartRead_canonical ht)))
theorem hartSc_canonical {h d va n v} (hs : MemoryCanonical s) : NextCanonical (s.hartSc h d va n v) := by
  unfold State.hartSc
  refine nextCanonical_ite (hartAbort_canonical hs) (hartStore_canonical hs fun ht => ?_)
  extract_lets _ _ s1
  have hs1 : MemoryCanonical s1 := modHart_canonical ht
  exact canonical_ite (hartDone_canonical (hartWrite_canonical hs1)) (hartDone_canonical hs1)
theorem hostOp_canonical {h op} (hs : MemoryCanonical s) : NextCanonical (s.hostOp h op) := by
  unfold State.hostOp
  split
  · exact nextCanonical_ite (hartRaise_canonical hs) (hartLoad_canonical hs hartDone_canonical)
  · exact nextCanonical_ite (hartRaise_canonical hs) (hartStore_canonical hs hartWriteDone_canonical)
  · exact nextCanonical_ite (hartDone_canonical hs) (hartRaise_canonical hs)
  · exact nextCanonical_ite hs (nextCanonical_ite (hartAmo_canonical hs) (hartRaise_canonical hs))
  · exact nextCanonical_ite hs (nextCanonical_ite (hartLr_canonical hs) (hartRaise_canonical hs))
  · exact nextCanonical_ite hs (nextCanonical_ite (hartSc_canonical hs) (hartRaise_canonical hs))
  · exact canonical_ite hs (modHart_canonical hs)
  · exact nextCanonical_ite (hartRaise_canonical hs) (modHart_canonical hs)
  · exact canonical_ite (hartAbort_canonical hs) (modHart_canonical hs)
  · exact hartRaise_canonical hs
theorem execHostInstruction_canonical {h op} (hs : MemoryCanonical s) : NextCanonical (execHostInstruction h op s) :=
  nextCanonical_ite (hostOp_canonical hs) hs
theorem takeInterrupt_canonical {h} (hs : MemoryCanonical s) : MemoryCanonical (s.takeInterrupt h) := by
  unfold State.takeInterrupt
  split
  · exact canonical_ite hs (modHart_canonical (hartAbort_canonical hs))
  · exact hs
theorem execHostInterrupt_canonical {h cause} (hs : MemoryCanonical s) : NextCanonical (execHostInterrupt h cause s) :=
  canonical_ite hs (takeInterrupt_canonical (modHart_canonical hs))
theorem dxGate_canonical {rank f} (hs : MemoryCanonical s) (hf : ∀ {t}, MemoryCanonical t → NextCanonical (f t)) :
    NextCanonical (s.dxGate rank f) :=
  nextCanonical_ite (hartRaise_canonical hs) (nextCanonical_ite (hartAbort_canonical hs) (hf hs))
theorem execDxLaunch_canonical {d s1} (hs : MemoryCanonical s) : NextCanonical (execDxLaunch d s1 s) := by
  unfold execDxLaunch
  refine dxGate_canonical hs fun ht => nextCanonical_ite (hartRaise_canonical ht) (nextCanonical_ite ht (hartLoad_canonical ht fun ht => ?_))
  split
  · next e => exact someCanonical_of_eq (signalWaits_canonical ht) e
  · exact hartDone_canonical (submit_canonical ht)
theorem execDxWait_canonical {d s1 s2} (hs : MemoryCanonical s) : NextCanonical (execDxWait d s1 s2 s) :=
  dxGate_canonical hs fun ht => hartLoad_canonical ht fun ht => canonical_ite (hartDone_canonical ht)
    (canonical_ite (hartDone_canonical ht) (modHart_canonical ht))
theorem execDxWaitTimeout_canonical {h} (hs : MemoryCanonical s) : NextCanonical (execDxWaitTimeout h s) := by
  unfold execDxWaitTimeout
  split
  · split
    · exact canonical_ite (hartDone_canonical hs) hs
    · exact hs
  · exact hs
theorem execDxTbegin_canonical {d} (hs : MemoryCanonical s) : NextCanonical (execDxTbegin d s) :=
  nextCanonical_ite (hartAbort_canonical hs) (nextCanonical_ite (hartDone_canonical hs) (modHart_canonical hs))
theorem execDxTend_canonical (hs : MemoryCanonical s) : NextCanonical (execDxTend s) :=
  nextCanonical_ite (modHart_canonical hs) (nextCanonical_ite hs (ticketServe_canonical (modHart_canonical hs)))
theorem execDxTabort_canonical {s1} (hs : MemoryCanonical s) : NextCanonical (execDxTabort s1 s) :=
  nextCanonical_ite (hartAbort_canonical hs) (modHart_canonical hs)
theorem execDxFqpop_canonical {d s1} (hs : MemoryCanonical s) : NextCanonical (execDxFqpop d s1 s) := by
  unfold execDxFqpop
  refine dxGate_canonical hs fun ht => nextCanonical_ite (hartDone_canonical ht) (hartStore_canonical (settle_canonical ht _ _) fun hu => ?_)
  have hw {h ps bs} := hartWrite_canonical (h := h) (ps := ps) (bs := bs) hu
  exact hartDone_canonical (drainHeld_canonical (canonical_ite (setPoison_canonical hw _) hw))
theorem execDxReplay_canonical {s1} (hs : MemoryCanonical s) : NextCanonical (execDxReplay s1 s) :=
  dxGate_canonical hs fun ht => nextCanonical_ite ht (modHart_canonical ht)
theorem killCtx_canonical {ctx} (hs : MemoryCanonical s) : MemoryCanonical (s.killCtx ctx) := by
  unfold State.killCtx
  extract_lets _ _ s2
  have hs2 : MemoryCanonical s2 := Killed_out_canonical (foldl_killedCanonical hs fun ht => Killed_also_canonical ht
    (fun ht => killedCanonical_ite (killGrid_canonical ht) ht))
  exact hs2
theorem execDxKill_canonical {s1} (hs : MemoryCanonical s) : NextCanonical (execDxKill s1 s) :=
  dxGate_canonical hs fun ht => modHart_canonical (killCtx_canonical ht)
theorem writeBack_canonical (hs : MemoryCanonical s) : MemoryCanonical (s.writeBack) :=
  foldl_canonical (foldl_canonical hs fun ht => forwardPartial_canonical ht _) fun ht => foldLine_canonical ht _
theorem ckptStart_canonical {img d} (hs : MemoryCanonical s) : MemoryCanonical (s.ckptStart img d) :=
  foldl_canonical hs fun ht => canonical_ite (modSlot_canonical ht) ht
theorem ckptOp_canonical {d r1} (hs : MemoryCanonical s) : NextCanonical (s.ckptOp d r1) :=
  dxGate_canonical hs fun ht => nextCanonical_ite ht (nextCanonical_ite (hartDone_canonical ht)
    (nextCanonical_ite (ckptStart_canonical ht) (nextCanonical_ite (hartDone_canonical ht)
    (nextCanonical_ite (hartDone_canonical ht) (nextCanonical_ite (hartDone_canonical ht)
    (nextCanonical_ite (hartDone_canonical ht) (hartDone_canonical (putImage_canonical ht _))))))))
theorem execCheckpointComplete_canonical {mediaError} (hs : MemoryCanonical s) : NextCanonical (execCheckpointComplete mediaError s) := by
  unfold execCheckpointComplete
  split
  · exact hs
  · exact nextCanonical_ite hs (hartDone_canonical (bindAgain_canonical (writeBack_canonical hs)))

/-! ### The platform: time, PCIe, registers, snapshots, errors, start-up -/

theorem latch_canonical (hs : MemoryCanonical s) : MemoryCanonical (s.latch) := by
  unfold State.latch
  split
  · exact canonical_ite hs hs
  · exact hs
theorem pass_canonical {n} (hs : MemoryCanonical s) : MemoryCanonical (s.pass n) := by simpa only [MemoryCanonical, State.pass] using hs
theorem elapse_canonical {n} (hs : MemoryCanonical s) : MemoryCanonical (s.elapse n) := by
  unfold State.elapse
  split
  · exact canonical_ite (pass_canonical (latch_canonical (pass_canonical hs))) (pass_canonical hs)
  · exact pass_canonical hs
theorem pcieSeek_canonical {a} (hs : MemoryCanonical s) : MemoryCanonical (s.pcieSeek a) := by
  unfold State.pcieSeek
  split <;> exact seek_canonical hs
theorem pcieServe_canonical {a} (hs : MemoryCanonical s) : MemoryCanonical (s.pcieServe a) := by
  unfold State.pcieServe
  split
  · refine canonical_ite (emit_canonical hs) ?_
    extract_lets s1
    have hs1 : MemoryCanonical s1 := canonical_ite (observe_canonical (ownLines_canonical (settle_canonical hs _ _) _ _ _ _)) hs
    exact emit_canonical (classifyRaw_canonical hs1)
  · refine canonical_ite (emit_canonical hs) ?_
    split
    · exact mailWrites_canonical hs
    · extract_lets s1
      have hs1 : MemoryCanonical s1 := rawWrite_canonical hs
      exact canonical_ite (setPoison_canonical hs1 _) hs1
theorem pcieTurn_canonical (hs : MemoryCanonical s) : MemoryCanonical (s.pcieTurn) := by
  unfold State.pcieTurn
  split
  · exact hs
  · exact canonical_ite hs (canonical_ite (pcieSeek_canonical hs) (pcieServe_canonical hs))
theorem pcieArrive_canonical {r} (hs : MemoryCanonical s) : MemoryCanonical (s.pcieArrive r) :=
  canonical_ite (pcieServe_canonical hs) (pcieTurn_canonical hs)
theorem execPcieRead_canonical {addr size} (hs : MemoryCanonical s) : NextCanonical (execPcieRead addr size s) :=
  canonical_ite hs (pcieArrive_canonical hs)
theorem execPcieWrite_canonical {addr bytes ep} (hs : MemoryCanonical s) : NextCanonical (execPcieWrite addr bytes ep s) :=
  canonical_ite hs (pcieArrive_canonical hs)
theorem msixRaise_canonical {n} (hs : MemoryCanonical s) : MemoryCanonical (s.msixRaise n) :=
  canonical_ite hs (canonical_ite hs (emit_canonical hs))
theorem msixSet_canonical {n addr data mask} (hs : MemoryCanonical s) : MemoryCanonical (s.msixSet n addr data mask) :=
  canonical_ite hs (canonical_ite (emit_canonical hs) hs)
theorem writeDxfq_canonical {v} (hs : MemoryCanonical s) : MemoryCanonical (s.writeDxfq v) := canonical_ite hs hs
theorem execDxfqWrite_canonical {v} (hs : MemoryCanonical s) : NextCanonical (execDxfqWrite v s) := writeDxfq_canonical hs
theorem writeDxsnap_canonical {v} (hs : MemoryCanonical s) : MemoryCanonical (s.writeDxsnap v) := canonical_ite hs hs
theorem execDxsnapWrite_canonical {v} (hs : MemoryCanonical s) : NextCanonical (execDxsnapWrite v s) := writeDxsnap_canonical hs
theorem writeDxrw_canonical {n v} (hs : MemoryCanonical s) : MemoryCanonical (s.writeDxrw n v) :=
  foldl_canonical hs fun ht => forwardPartial_canonical ht _
theorem execDxrwWrite_canonical {n v} (hs : MemoryCanonical s) : NextCanonical (execDxrwWrite n v s) := canonical_ite (writeDxrw_canonical hs) hs
theorem nodeWindow_canonical {m n v} (hs : MemoryCanonical s) : MemoryCanonical (s.nodeWindow m n v) :=
  canonical_ite hs (foldl_canonical hs fun ht => forwardPartial_canonical ht _)
theorem recallUnits_canonical {us} (hs : MemoryCanonical s) : MemoryCanonical (s.recallUnits us) := foldl_canonical hs recallUnit_canonical
theorem writeDxobj_canonical {v} (hs : MemoryCanonical s) : MemoryCanonical (s.writeDxobj v) := by
  unfold State.writeDxobj
  extract_lets
  refine canonical_ite hs ?_
  split
  · refine canonical_ite (recallUnits_canonical hs) ?_
    split <;> exact recallUnits_canonical hs
  · split
    · split <;> exact recallUnits_canonical hs
    · exact hs
theorem execDxobjRegister_canonical {v} (hs : MemoryCanonical s) : NextCanonical (execDxobjRegister v s) := writeDxobj_canonical hs
theorem execDxobjRemove_canonical {v} (hs : MemoryCanonical s) : NextCanonical (execDxobjRemove v s) := writeDxobj_canonical hs
theorem execDxobjComplete_canonical (hs : MemoryCanonical s) : NextCanonical (execDxobjComplete s) := by
  unfold execDxobjComplete
  split
  · exact hs
  · extract_lets _ s1
    have hs1 : MemoryCanonical s1 := recallUnits_canonical hs
    exact nextCanonical_ite hs1 hs1
theorem unbind_canonical {k} (hs : MemoryCanonical s) : MemoryCanonical (s.unbind k) := by
  unfold State.unbind
  extract_lets
  split
  · exact modCb_canonical hs
  · exact hs
theorem writeFlow_canonical {v} (hs : MemoryCanonical s) : MemoryCanonical (s.writeFlow v) := by
  unfold State.writeFlow
  extract_lets _ s1
  have hs1 : MemoryCanonical s1 := unbind_canonical hs
  split
  · exact hs
  · refine canonical_ite hs1 ?_
    split
    · exact modCb_canonical hs1
    · exact hs1
theorem execFlowBind_canonical {v} (hs : MemoryCanonical s) : NextCanonical (execFlowBind v s) := writeFlow_canonical hs
theorem writeBand_canonical {n v} (hs : MemoryCanonical s) : MemoryCanonical (s.writeBand n v) := by
  unfold State.writeBand
  extract_lets
  split <;> exact hs
theorem execBandWrite_canonical {n v} (hs : MemoryCanonical s) : NextCanonical (execBandWrite n v s) := canonical_ite (writeBand_canonical hs) hs
theorem execClockPlanChange_canonical (hs : MemoryCanonical s) : NextCanonical (execClockPlanChange s) := by
  unfold execClockPlanChange
  split
  · exact elapse_canonical hs
  · exact hs
theorem csrStore_canonical {h n v} (hs : MemoryCanonical s) : MemoryCanonical (s.csrStore h n v) :=
  canonical_ite hs (canonical_ite (modHart_canonical hs) (canonical_ite (writeDxfq_canonical hs)
    (canonical_ite (writeDxsnap_canonical hs) (canonical_ite hs (canonical_ite hs
    (canonical_ite (dropModules_canonical hs) (canonical_ite (writeFlow_canonical hs)
    (canonical_ite (canonical_ite hs hs) (canonical_ite hs (canonical_ite (writeDxobj_canonical hs)
    (canonical_ite (writeDxrw_canonical hs) (canonical_ite (writeBand_canonical hs) (modHart_canonical hs)))))))))))))
theorem execCsrWrite_canonical {h csr v} (hs : MemoryCanonical s) : NextCanonical (execCsrWrite h csr v s) :=
  nextCanonical_ite hs (nextCanonical_ite (modHart_canonical (csrStore_canonical hs)) (hartRaise_canonical hs))
theorem execPowerSample_canonical {amps watts} (hs : MemoryCanonical s) : NextCanonical (execPowerSample amps watts s) := canonical_ite hs hs
theorem execThrottleEnd_canonical (hs : MemoryCanonical s) : NextCanonical (execThrottleEnd s) := by
  unfold execThrottleEnd
  split
  · exact canonical_ite hs hs
  · exact hs
theorem execSnapshotComplete_canonical (hs : MemoryCanonical s) : NextCanonical (execSnapshotComplete s) := by
  unfold execSnapshotComplete
  split
  · exact hs
  · next recs _ =>
    extract_lets base s1
    have hm : Memory.wf (Memory.fill s1.mem base snapBytes fun a => snapByte recs s.snapCount (a - base)) = true := wf_fill
      (sweep_canonical hs _ _) _ _ _
    exact hm
theorem eccKill_canonical {g} (hs : MemoryCanonical s) : MemoryCanonical (s.eccKill g) := by
  unfold State.eccKill
  split
  · exact kill_canonical hs
  · exact hs
theorem eccPoison_canonical {pa} (hs : MemoryCanonical s) : MemoryCanonical (s.eccPoison pa) := hs
theorem ecc_canonical {double at_} (hs : MemoryCanonical s) : MemoryCanonical (s.ecc double at_) := by
  unfold State.ecc
  refine canonical_ite hs ?_
  split
  · exact hs
  · exact canonical_ite (eccPoison_canonical hs) hs
  · exact canonical_ite (eccPoison_canonical hs) hs
  · exact eccKill_canonical hs
  · exact eccKill_canonical hs
  · exact eccKill_canonical hs
theorem laneFails_canonical {core q lane} (hs : MemoryCanonical s) : MemoryCanonical (s.laneFails core q lane) :=
  canonical_ite (modCore_canonical hs) hs
theorem execScrub_canonical {pa fails} (hs : MemoryCanonical s) : NextCanonical (execScrub pa fails s) :=
  nextCanonical_ite hs (nextCanonical_ite hs hs)
theorem execResidueMismatch_canonical {w lane} (hs : MemoryCanonical s) : NextCanonical (execResidueMismatch w lane s) := by
  unfold execResidueMismatch
  extract_lets _ _ _ s2 _ _ s3
  have hs2 : MemoryCanonical s2 := modCore_canonical (killBy_canonical hs)
  have hs3 : MemoryCanonical s3 := foldl_canonical hs2 fun ht => canonical_ite (modSlot_canonical ht) ht
  exact nextCanonical_ite hs (mend_canonical (steer_canonical (modCore_canonical hs3)))
/-- A start rebuilds the memory from the boot area by `Memory.write`, so it is canonical whatever the state before was. -/
theorem restart_canonical : MemoryCanonical s.restart :=
  List.foldlRecOn (motive := fun m => Memory.wf m = true) _ _ (by rfl) fun _ h _ _ => wf_write h _ _
theorem failStart_canonical {reason} : MemoryCanonical (s.failStart reason) := restart_canonical
theorem execModuleStart_canonical {reason} (hs : MemoryCanonical s) : NextCanonical (execModuleStart reason s) :=
  nextCanonical_ite restart_canonical (nextCanonical_ite failStart_canonical hs)
theorem execStartTimeout_canonical (hs : MemoryCanonical s) : NextCanonical (execStartTimeout s) := canonical_ite failStart_canonical hs
theorem execStartReachesUp_canonical (hs : MemoryCanonical s) : NextCanonical (execStartReachesUp s) := canonical_ite hs hs

/-! ### Matched windows -/

theorem performHeld_canonical {k h} (hs : MemoryCanonical s) : MemoryCanonical (s.performHeld k h) := by
  unfold State.performHeld
  extract_lets _ _ s1
  have hs1 : MemoryCanonical s1 := writeAt_canonical hs
  split
  · exact mailWrites_canonical hs
  · exact canonical_ite (contribute_canonical hs) (canonical_ite (atomAway_canonical hs) (atomAt_canonical hs))
  · exact atomAt_canonical hs
  · exact canonical_ite hs1 (setPoison_canonical hs1 _)
theorem overtake_canonical {k h} (hs : MemoryCanonical s) : MemoryCanonical (s.overtake k h) :=
  foldl_canonical hs fun ht => canonical_ite ht (modWarp_canonical ht)
theorem countHeld_canonical {k ws h} (hs : MemoryCanonical s) : MemoryCanonical (s.countHeld k ws h) := canonical_ite hs hs
theorem drain_canonical {k twin n} (hs : MemoryCanonical s) : MemoryCanonical (State.drain k twin n s) := by
  induction n generalizing s with
  | zero => exact hs
  | succ n ih =>
    rw [State.drain]
    split
    · exact modWarp_canonical (modWarp_canonical hs)
    · refine canonical_ite (canonical_ite hs (seek_canonical hs)) (ih (modWarp_canonical (modWarp_canonical ?_)))
      exact performHeld_canonical (overtake_canonical (overtake_canonical (countHeld_canonical hs)))
theorem execTwinMatch_canonical {w twin} (hs : MemoryCanonical s) : NextCanonical (execTwinMatch w twin s) := by
  unfold execTwinMatch
  split
  · refine nextCanonical_ite hs ?_
    extract_lets
    refine nextCanonical_ite (drain_canonical hs) ?_
    split
    · exact hs
    · exact kill_canonical hs
    · exact drain_canonical (modWarp_canonical (modWarp_canonical hs))
    · exact drain_canonical (modWarp_canonical (modWarp_canonical hs))
  · exact hs

/-! ### Every instruction -/

/-- An instruction or a step of the hardware keeps the form; the cases are grouped by the operation that answers them. -/
theorem exec_canonical {i} (hs : MemoryCanonical s) : NextCanonical (exec i s) := by
  unfold exec
  cases i with
  | sadd | ssub | smul | smulh | sand | sor | sxor | sshl | sshr | ssra | smin | smax | sminn | smaxn | sseq | ssne | sslt | ssltn =>
    exact uniOp_canonical hs
  | sdiv | srem => exact uniDiv_canonical hs
  | ssel | sbfx | sbfi | sbit | sli | slis | txs | sget => exact advance_canonical (wrS_canonical hs)
  | sld | sldw => exact uniLd_canonical hs
  | sst | sstw => exact uniSt_canonical hs
  | sldk => exact execSldk_canonical hs
  | smovl => exact execSmovl_canonical hs
  | sb => exact transfer_canonical hs id
  | sbz | sbnz | sblt => exact branch_canonical hs
  | sj | sret => exact transferReg_canonical hs id
  | scall => exact transfer_canonical hs link_canonical
  | scallr => exact transferReg_canonical hs link_canonical
  | sloop => exact execSloop_canonical hs
  | fenceRel | fenceAr | fenceSc => exact fenceRelOp_canonical hs
  | fenceAcq => exact execFenceAcq_canonical hs
  | fenceFetch | part | yield => exact advance_canonical (modW_canonical hs)
  | tcfg => exact execTcfg_canonical hs
  | tld => exact execTld_canonical hs
  | tldS => exact execTldS_canonical hs
  | tst => exact execTst_canonical hs
  | mma | mmaPair => exact mmaOp_canonical hs
  | mdrnTile => exact execMdrnTile_canonical hs
  | mdrnSpad => exact execMdrnSpad_canonical hs
  | mchk | mrty | mzero | mgive => exact bankOp_canonical hs enqueueMat_canonical
  | mfix => exact execMfix_canonical hs
  | mstat => exact execMstat_canonical hs
  | mstatClo => exact execMstatClo_canonical hs
  | mstatChi => exact execMstatChi_canonical hs
  | gstr => exact execGstr_canonical hs
  | cbdef => exact execCbdef_canonical hs
  | cbget => exact execCbget_canonical hs
  | cbput => exact execCbput_canonical hs
  | cbqry => exact execCbqry_canonical hs
  | cblim => exact execCblim_canonical hs
  | waitq => exact execWaitq_canonical hs
  | waitk => exact execWaitk_canonical hs
  | xred | xbc => exact collOp_canonical hs
  | xshf => exact execXshf_canonical hs
  | xside => exact execXside_canonical hs
  | xqry => exact execXqry_canonical hs
  | txb => exact execTxb_canonical hs
  | txc => exact execTxc_canonical hs
  | txa => exact execTxa_canonical hs
  | barArrive => exact execBarArrive_canonical hs
  | barWait => exact execBarWait_canonical hs
  | barSync => exact execBarSync_canonical hs
  | evb => exact execEvb_canonical hs
  | evmWr | evmSet | evmClr | evclr => exact evSet_canonical hs
  | wany => exact execWany_canonical hs
  | launch => exact execLaunch_canonical hs
  | takeV => exact execTakeV_canonical hs
  | giveV => exact execGiveV_canonical hs
  | takeA => exact execTakeA_canonical hs
  | giveA => exact execGiveA_canonical hs
  | sprf => exact execSprf_canonical hs
  | sset => exact eventsChanged_canonical (advance_canonical (modW_canonical hs))
  | snop => exact advance_canonical hs
  | exit => exact execExit_canonical hs
  | trap | brk => exact trap_canonical hs
  | rte => exact execRte_canonical hs
  | snap => exact execSnap_canonical hs
  | sleep => exact execSleep_canonical hs
  | add | sub | mul | mulh | min | max | and | or | xor | shl | shr | rot => exact intOp_canonical hs
  | mad | addc | sel | bfx | bfi | bit | prmb | dot4 | movLane | movU | movC | movTu | bsr | bswSet | bswReload | bswQuery | shf | vote
   | voteBallot | func | cvt | cvtbTo | cvtbFrom | pfma | cdot => exact laneW_canonical hs
  | div | rem => exact divOp_canonical hs
  | cmpeq | cmpne | cmplt | cmple => exact cmpOp_canonical hs
  | moviZ | moviS | moviHi => exact moviOp_canonical hs
  | fadd | fsub | fmul | fma | fmin | fmax | fdiv => exact fltOp_canonical hs
  | fcmpeq | fcmplt | fcmple | fcmpun => exact fcmpOp_canonical hs
  | tred | scan | segr => exact redOp_canonical hs
  | meetOpen => exact execMeetOpen_canonical hs
  | meetWait => exact execMeetWait_canonical hs
  | meetLeave => exact execMeetLeave_canonical hs
  | brt | brf => exact laneBranch_canonical hs
  | callv => exact execCallv_canonical hs
  | jmpv => exact execJmpv_canonical hs
  | ld | st | atom => exact lane_canonical hs (laneMem_canonical hs)
  | lds => exact execLds_canonical hs
  | sts => exact execSts_canonical hs
  | atoms => exact execAtoms_canonical hs
  | cpy => exact execCpy_canonical hs
  | cpyBuf => exact execCpyBuf_canonical hs
  | gath => exact execGath_canonical hs
  | dxLaunch => exact execDxLaunch_canonical hs
  | dxWait => exact execDxWait_canonical hs
  | dxTbegin => exact execDxTbegin_canonical hs
  | dxTend => exact execDxTend_canonical hs
  | dxTabort => exact execDxTabort_canonical hs
  | dxFqpop => exact execDxFqpop_canonical hs
  | dxReplay => exact execDxReplay_canonical hs
  | dxKill => exact execDxKill_canonical hs
  | dxCkptSave | dxCkptRestore | dxCkptQuery => exact ckptOp_canonical hs
  | mcheckTake => exact execMcheckTake_canonical hs
  | gangDispatch => exact execGangDispatch_canonical hs
  | slotBind => exact execSlotBind_canonical hs
  | slotStop => exact execSlotStop_canonical hs
  | slotFree => exact execSlotFree_canonical hs
  | saveComplete => exact execSaveComplete_canonical hs
  | sliceExpiry => exact execSliceExpiry_canonical hs
  | groupRetire => exact execGroupRetire_canonical hs
  | warpSlotRelease => exact execWarpSlotRelease_canonical hs
  | barrierRelease => exact barrierCheck_canonical hs
  | coppiceRelaunch => exact execCoppiceRelaunch_canonical hs
  | lockLimitExpiry => exact execLockLimitExpiry_canonical hs
  | sleepDeadline => exact execSleepDeadline_canonical hs
  | ticketTurn => exact ticketServe_canonical hs
  | txRevalidateCount => exact execTxRevalidateCount_canonical hs
  | remoteStoreCombineEnd | bootClr | powerLoss => exact hs
  | tlbInvalidate => exact startInval_canonical hs
  | invalidateComplete => exact execInvalidateComplete_canonical hs
  | mailboxWrite => exact execMailboxWrite_canonical hs
  | mailboxClose => exact execMailboxClose_canonical hs
  | mailboxDiscard => exact execMailboxDiscard_canonical hs
  | mailboxRoom => exact execMailboxRoom_canonical hs
  | coreWindowAccess => exact execCoreWindowAccess_canonical hs
  | copyLine => exact execCopyLine_canonical hs
  | gatherElement => exact execGatherElement_canonical hs
  | engineOpRetire => exact execEngineOpRetire_canonical hs
  | matrixOpStart => exact execMatrixOpStart_canonical hs
  | mmaStep => exact execMmaStep_canonical hs
  | idle => exact execIdle_canonical hs
  | idleTimer => exact execIdleTimer_canonical hs
  | linkReplayTimeout => exact execLinkReplayTimeout_canonical hs
  | portDown => exact execPortDown_canonical hs
  | portdown => exact execPortdown_canonical hs
  | reads | readm | upgrade => exact request_canonical hs
  | writeback => exact execWriteback_canonical hs
  | atomic => exact execAtomic_canonical hs
  | uncachedRead => exact execUncachedRead_canonical hs
  | uncachedWrite => exact execUncachedWrite_canonical hs
  | contribution => exact execContribution_canonical hs
  | data => exact execData_canonical hs
  | grantack => exact execGrantack_canonical hs
  | ack => exact execAck_canonical hs
  | wback => exact execWback_canonical hs
  | recallLine => exact execRecall_canonical hs
  | recalldata | recallack => exact recalled_canonical hs
  | purge => exact execPurge_canonical hs
  | purgeack => exact execPurgeack_canonical hs
  | partialForwardTimer => exact execPartialForwardTimer_canonical hs
  | gladePartialError => exact execGladePartialError_canonical hs
  | join => exact execJoin_canonical hs
  | collectivePull => exact execCollectivePull_canonical hs
  | advert => exact execAdvert_canonical hs
  | withdraw => exact execWithdraw_canonical hs
  | sideAck => exact execSideAck_canonical hs
  | planDigest => exact execPlanDigest_canonical hs
  | packetFormation => exact execPacketFormation_canonical hs
  | codedPacket => exact execCodedPacket_canonical hs
  | fallbackreq => exact execFallbackreq_canonical hs
  | transferack => exact execTransferack_canonical hs
  | twinMatch => exact execTwinMatch_canonical hs
  | frameReceive => exact execFrameReceive_canonical hs
  | pauseStart => exact execPauseStart_canonical hs
  | pauseRepeat => exact execPauseRepeat_canonical hs
  | pauseAbandon => exact execPauseAbandon_canonical hs
  | pcieRead => exact execPcieRead_canonical hs
  | pcieWrite => exact execPcieWrite_canonical hs
  | dxfqWrite => exact execDxfqWrite_canonical hs
  | dxsnapWrite => exact execDxsnapWrite_canonical hs
  | dxobjRegister => exact execDxobjRegister_canonical hs
  | dxobjRemove => exact execDxobjRemove_canonical hs
  | dxobjComplete => exact execDxobjComplete_canonical hs
  | dxrwWrite => exact execDxrwWrite_canonical hs
  | flowBind => exact execFlowBind_canonical hs
  | bandWrite => exact execBandWrite_canonical hs
  | clockPlanChange => exact execClockPlanChange_canonical hs
  | csrWrite => exact execCsrWrite_canonical hs
  | powerSample => exact execPowerSample_canonical hs
  | throttleEnd => exact execThrottleEnd_canonical hs
  | snaptrig | smbusSnapshot => exact snapTrigger_canonical hs
  | snapshotLatch => exact latch_canonical hs
  | snapshotComplete => exact execSnapshotComplete_canonical hs
  | scrub => exact execScrub_canonical hs
  | residueMismatch => exact execResidueMismatch_canonical hs
  | moduleStart => exact execModuleStart_canonical hs
  | startTimeout => exact execStartTimeout_canonical hs
  | dxWaitTimeout => exact execDxWaitTimeout_canonical hs
  | hostInstruction => exact execHostInstruction_canonical hs
  | hostInterrupt => exact execHostInterrupt_canonical hs
  | packetCrcFailure => exact execPacketCrcFailure_canonical hs
  | reservedTypePacket => exact acceptSeq_canonical hs reserved_canonical
  | checkpointComplete => exact execCheckpointComplete_canonical hs
  | startReachesUp => exact execStartReachesUp_canonical hs
  | failedPartRecovery => exact execFailedPartRecovery_canonical hs

/-! ### RISC-V instructions -/

theorem rvIllegal_canonical {h raw} (hs : MemoryCanonical s) : NextCanonical (s.rvIllegal h raw) := hartRaise_canonical hs
theorem rvLoad_canonical {h n va f} (hs : MemoryCanonical s) : NextCanonical (s.rvLoad h n va f) := hartLoad_canonical hs modHart_canonical
theorem rvStore_canonical {h len va bs} (hs : MemoryCanonical s) : NextCanonical (s.rvStore h len va bs) := by
  unfold State.rvStore
  refine hartStore_canonical hs fun ht => ?_
  extract_lets s1
  have hs1 : MemoryCanonical s1 := hartWrite_canonical ht
  exact canonical_ite hs1 (modHart_canonical hs1)
theorem vecStop_canonical {s0 : State} {h i} (hs : MemoryCanonical s) : MemoryCanonical (s0.vecStop s h i) :=
  canonical_ite hs (modHart_canonical hs)
theorem vecEls_canonical {h a l} (hs : MemoryCanonical s) : MemoryCanonical (State.vecEls h a l s) := by
  induction l generalizing s with
  | nil => exact modHart_canonical hs
  | cons x r ih =>
    rw [State.vecEls]
    refine canonical_ite (modHart_canonical hs) (canonical_ite ?_ ?_)
    · split
      · next e => exact vecStop_canonical (gateCanonical_of_stop (hartGate_canonical hs) e)
      · next e =>
        have ht := gateCanonical_of_go (hartGate_canonical hs) e
        exact canonical_ite (vecStop_canonical (hartRaise_canonical ht)) (ih (modHart_canonical (hartRead_canonical ht)))
    · split
      · next e => exact vecStop_canonical (gateCanonical_of_stop (hartGate_canonical hs) e)
      · next e =>
        have ht := gateCanonical_of_go (hartGate_canonical hs) e
        exact canonical_ite (hartWrite_canonical ht) (ih (hartWrite_canonical ht))
theorem vecMem_canonical {h w load} (hs : MemoryCanonical s) : NextCanonical (s.vecMem h w load) := by
  unfold State.vecMem
  refine nextCanonical_ite (rvIllegal_canonical hs) ?_
  split
  · exact rvIllegal_canonical hs
  · exact vecEls_canonical hs
theorem rvAtomic_canonical {h w} (hs : MemoryCanonical s) : NextCanonical (s.rvAtomic h w) := by
  unfold State.rvAtomic
  extract_lets
  refine nextCanonical_ite (rvIllegal_canonical hs) ?_
  refine nextCanonical_ite (nextCanonical_ite (hostOp_canonical hs) (rvIllegal_canonical hs)) (nextCanonical_ite (hostOp_canonical hs) ?_)
  split
  · exact hostOp_canonical hs
  · exact rvIllegal_canonical hs
theorem rvCsr_canonical {h w} (hs : MemoryCanonical s) : NextCanonical (s.rvCsr h w) :=
  nextCanonical_ite (rvIllegal_canonical hs) (modHart_canonical (canonical_ite (csrStore_canonical hs) hs))
theorem rvSystem_canonical {h w raw} (hs : MemoryCanonical s) : NextCanonical (s.rvSystem h w raw) :=
  nextCanonical_ite (nextCanonical_ite (rvIllegal_canonical hs) (rvCsr_canonical hs))
    (nextCanonical_ite (hartRaise_canonical hs) (nextCanonical_ite (hartRaise_canonical hs)
    (nextCanonical_ite (nextCanonical_ite (rvIllegal_canonical hs) (modHart_canonical hs))
    (nextCanonical_ite (hostOp_canonical hs) (nextCanonical_ite (nextCanonical_ite (rvIllegal_canonical hs) (hostOp_canonical hs))
    (nextCanonical_ite (nextCanonical_ite (rvIllegal_canonical hs) (hostOp_canonical hs)) (rvIllegal_canonical hs)))))))
theorem rvRun_canonical {h w len raw} (hs : MemoryCanonical s) : NextCanonical (s.rvRun h w len raw) := by
  unfold State.rvRun
  extract_lets
  split
  · exact modHart_canonical hs
  · split
    · exact nextCanonical_ite (rvIllegal_canonical hs) (rvLoad_canonical hs)
    · exact nextCanonical_ite (rvIllegal_canonical hs) (rvStore_canonical hs)
    · exact nextCanonical_ite (nextCanonical_ite (rvLoad_canonical hs) (rvIllegal_canonical hs)) (vecMem_canonical hs)
    · exact nextCanonical_ite (nextCanonical_ite (rvStore_canonical hs) (rvIllegal_canonical hs)) (vecMem_canonical hs)
    · exact rvAtomic_canonical hs
    · exact nextCanonical_ite (hostOp_canonical hs) (nextCanonical_ite (hostOp_canonical hs) (rvIllegal_canonical hs))
    · exact rvSystem_canonical hs
    · split
      · exact modHart_canonical hs
      · exact rvIllegal_canonical hs
    · exact rvIllegal_canonical hs
theorem rvWord_canonical {h raw} (hs : MemoryCanonical s) : NextCanonical (s.rvWord h raw) := by
  unfold State.rvWord
  refine nextCanonical_ite (rvRun_canonical hs) ?_
  split
  · exact rvRun_canonical hs
  · exact rvIllegal_canonical hs

/-! ### Fetch, issue and the moves of a clock -/

theorem fetchWord_canonical {va} (hs : MemoryCanonical s) : FetchedCanonical (s.fetchWord va) := by
  unfold State.fetchWord
  split
  · exact hs
  · extract_lets
    refine fetchedCanonical_ite (trap_canonical hs) ?_
    split
    · next e => exact someCanonical_of_eq (checkPages_canonical hs) e
    · refine fetchedCanonical_ite (trap_canonical hs) (fetchedCanonical_ite (waitIssue_canonical (seek_canonical hs)) ?_)
      exact fetchedCanonical_ite (killBy_canonical hs) (fetchReach_canonical (touchPages_canonical hs))
theorem fetchMore_canonical {n ws} (hs : MemoryCanonical s) : MemoryCanonical (State.fetchMore n s ws).1 := by
  induction n generalizing s ws with
  | zero => exact hs
  | succ n ih =>
    rw [State.fetchMore]
    refine fstCanonical_ite hs ?_
    split
    · next e => exact fetchedCanonical_of_stop (fetchWord_canonical hs) e
    · next e => exact ih (fetchedCanonical_of_word (fetchWord_canonical hs) e)
theorem ageTx_canonical {k} (hs : MemoryCanonical s) : MemoryCanonical (s.ageTx k) := by
  unfold State.ageTx
  refine canonical_ite hs (foldl_canonical (modWarp_canonical hs) fun ht => ?_)
  split
  · next e => exact nextCanonical_of_eq (execTxRevalidateCount_canonical ht) e
  · exact ht
theorem attempted_canonical {k pc idx} (hs : MemoryCanonical s) : AttemptCanonical (s.attempted k pc idx) :=
  attemptCanonical_ite hs (modCore_canonical (ageTx_canonical hs))
theorem formedBy_canonical {k pc idx ws} (hs : MemoryCanonical s) : MemoryCanonical (s.formedBy k pc idx ws) := by
  unfold State.formedBy
  split
  · exact canonical_ite hs (setWarp_canonical hs)
  · exact hs
theorem issueWords_canonical {k ws} (hs : MemoryCanonical s) : AttemptCanonical (s.issueWords k ws) := by
  unfold State.issueWords
  split
  · exact attempted_canonical (trapAct_canonical hs)
  · trivial
  · refine attemptCanonical_ite trivial ?_
    extract_lets _ _ s1
    have hs1 : MemoryCanonical s1 := hs
    split
    · next e => exact attempted_canonical (formedBy_canonical (nextCanonical_of_eq (exec_canonical hs1) e))
    · exact exec_canonical hs1
theorem tryIssue_canonical {stall k} (hs : MemoryCanonical s) : AttemptCanonical (s.tryIssue stall k) := by
  unfold State.tryIssue
  refine attemptCanonical_ite trivial ?_
  split
  · next e => exact someCanonical_of_eq (mcheck_canonical hs) e
  · refine attemptCanonical_ite (eventsChanged_canonical hs) ?_
    split
    · trivial
    · extract_lets s1
      have hs1 : MemoryCanonical s1 := hs
      refine attemptCanonical_ite (issueWords_canonical hs1) ?_
      split
      · next e => exact attempted_canonical (fstCanonical_of_eq (fetchMore_canonical hs1) e)
      · next e => exact issueWords_canonical (fstCanonical_of_eq (fetchMore_canonical hs1) e)
theorem Attempt_out_canonical {a : Attempt} (ha : AttemptCanonical a) (hs : MemoryCanonical s) : NextCanonical (a.out s) := by
  cases a with
  | unready => exact hs
  | waits t => exact ha
  | issued t => exact elapse_canonical ha
  | ended r => exact ha
theorem quadFirst_canonical {stall l} (hs : MemoryCanonical s) : AttemptCanonical (State.quadFirst stall l s) := by
  induction l generalizing s with
  | nil => exact hs
  | cons k r ih =>
    have ha : AttemptCanonical (s.tryIssue stall k) := tryIssue_canonical hs
    rw [State.quadFirst]
    split
    · exact ih hs
    · next e => exact ih (attemptCanonical_of_waits ha e)
    · exact ha
theorem clockQuads_canonical {stall l} (hs : MemoryCanonical s) : NextCanonical (State.clockQuads stall l s) := by
  induction l generalizing s with
  | nil => exact elapse_canonical hs
  | cons n r ih =>
    have ha : AttemptCanonical (State.quadFirst stall (s.quadOrder (n / 4) (n % 4)) s) := quadFirst_canonical hs
    rw [State.clockQuads]
    split
    · exact ih hs
    · next e => exact ih (attemptCanonical_of_waits ha e)
    · next e => exact ih (attemptCanonical_of_issued ha e)
    · next e => exact attemptCanonical_of_ended ha e
theorem hartReach_canonical {h va} (hs : MemoryCanonical s) : SumCanonical (s.hartReach h va) := by
  unfold State.hartReach
  split
  · exact seek_canonical hs
  · extract_lets t
    have ht : MemoryCanonical t := hartTouch_canonical hs
    split
    · exact ht
    · exact sumCanonical_ite (hartSeek_canonical ht) (sumCanonical_ite ht (foldl_canonical ht fetchReach_canonical))
theorem hartReachAll_canonical {h} (hs : MemoryCanonical s) : SumCanonical (s.hartReachAll h) := by
  unfold State.hartReachAll
  split
  · next e => exact sumCanonical_of_inl (hartReach_canonical hs) e
  · next e =>
    have ht := sumCanonical_of_inr (hartReach_canonical hs) e
    split
    · exact sumCanonical_ite (hartReach_canonical ht) ht
    · exact ht
theorem hartStep_canonical {h} (hs : MemoryCanonical s) : NextCanonical (s.hartStep h) := by
  unfold State.hartStep
  refine nextCanonical_ite hs (nextCanonical_ite (takeInterrupt_canonical hs) ?_)
  split
  · next e => exact sumCanonical_of_inl (hartReachAll_canonical hs) e
  · next e =>
    have ht := sumCanonical_of_inr (hartReachAll_canonical hs) e
    split
    · exact hartRaise_canonical ht
    · split
      · exact exec_canonical ht
      · exact rvWord_canonical ht
theorem fillTlb_canonical {die ctx va} (hs : MemoryCanonical s) : MemoryCanonical (s.fillTlb die ctx va) := by
  unfold State.fillTlb
  split
  · exact canonical_ite hs hs
  · exact hs
theorem replaceLine_canonical {line} (hs : MemoryCanonical s) : MemoryCanonical (s.replaceLine line) := canonical_ite (foldLine_canonical hs _) hs
theorem holdCode_canonical {k va} (hs : MemoryCanonical s) : MemoryCanonical (s.holdCode k va) := by
  unfold State.holdCode
  refine canonical_ite hs ?_
  split
  · exact canonical_ite (modWarp_canonical hs) hs
  · exact hs
/-- A move of the schedule keeps the form. -/
theorem run_canonical {m} (hs : MemoryCanonical s) : NextCanonical (s.run m) := by
  unfold State.run
  extract_lets
  split
  · exact Attempt_out_canonical (quadFirst_canonical hs) hs
  · exact Attempt_out_canonical (quadFirst_canonical hs) hs
  · exact fly_canonical hs
  · exact clockQuads_canonical hs
  · exact hartStep_canonical hs
  · exact nextCanonical_ite (exec_canonical hs) hs
  · exact elapse_canonical hs
  · exact fillTlb_canonical hs
  · exact holdCode_canonical hs
  · exact tileRelease_canonical hs
  · refine completeIfDone_canonical ?_
    split
    · exact seek_canonical hs
    · exact hs
  · exact drainHeld_canonical hs
  · exact dirPump_canonical hs
  · exact replaceLine_canonical hs
  · exact hs
  · exact canonical_ite (recallUnit_canonical hs) hs
  · exact ecc_canonical hs
  · exact nodeWindow_canonical hs
  · exact flowServe_canonical hs
  · split
    · exact execTwinMatch_canonical hs
    · exact hs
  · exact laneFails_canonical hs
  · exact transmit_canonical hs
  · exact flits_canonical hs
  · exact takeSlot_canonical hs
  · exact answered_canonical hs
  · exact canonical_ite (retireColl_canonical hs) hs
  · exact pcieTurn_canonical hs
  · exact msixSet_canonical hs
  · exact msixRaise_canonical hs
  · exact emit_canonical hs
  · exact hs
  · exact joinedAway_canonical hs
  · split
    · exact execCollectivePull_canonical hs
    · exact execPacketFormation_canonical hs
    · exact hs

/-! ### The step -/

theorem paced_canonical {m r} (hr : NextCanonical r) : NextCanonical (s.paced m r) := by
  unfold State.paced
  split
  · exact elapse_canonical hr
  · exact hr
theorem step_canonical (hs : MemoryCanonical s) : NextCanonical (step s) := nextCanonical_ite (paced_canonical (run_canonical hs)) trivial

end

/-- Settles O57, by `step_canonical`: each function that a step runs keeps the form, for bytes enter and leave the memory only through
`Memory.write`, `Memory.fill` and filters of the cells. -/
theorem stepsKeepMemoryCanonical : Obligations.StepsKeepMemoryCanonical := by
  unfold Obligations.StepsKeepMemoryCanonical
  intro s t hs e
  exact nextCanonical_of_eq (step_canonical hs) e

end Sys2Proof.Proofs
end

section
/-! # Words of the spec and transfers -/

namespace Sys2Proof.Proofs

open Machine Laws

/-! ## Words of the spec -/

/-- Settles O52, by running the decoder on each of the words; a refused sequence is refused with its first word. -/
theorem wordsOfTheSpecDecodeAsItSays : Obligations.WordsOfTheSpecDecodeAsItSays := by
  unfold Obligations.WordsOfTheSpecDecodeAsItSays
  have refused : ∀ ws ∈ [[0xFFFFFFFF], [0xFF000000], [0xFA000000], [0xFC800200], [0xFC004540], [0x41808206], [0xFE070000, 0x80000000]],
      decode ws = .error (.illegal (ws.headD 0)) := by decide +kernel
  exact ⟨by decide +kernel, by decide +kernel, fun ws h => ⟨_, refused ws h⟩, by decide +kernel⟩

/-! ## Transfers -/

section
variable {s : State} {target : W64} {off a : Nat} {taken : Bool} {before : State → State} {P : State → Prop}

theorem toNat_mod_four_eq_zero {v : W64} (h0 : v.getLsbD 0 = false) (h1 : v.getLsbD 1 = false) : v.toNat % 4 = 0 := by
  simp only [BitVec.getLsbD, Nat.testBit, Nat.shiftRight_zero, Nat.one_and_eq_mod_two, Nat.shiftRight_succ, bne_eq_false_iff_eq] at h0 h1
  omega

theorem decide_toInt_neg (v : W64) : decide (v.toInt < 0) = v.getLsbD 63 := by
  rw [← BitVec.msb_eq_toInt, BitVec.msb_eq_getLsbD_last]

theorem transfer_of_canonical (h : canonical target = true) : s.transfer target before = .next ((before s).jump target) := by
  simp [State.transfer, h]
theorem transferReg_of_aligned (h0 : target.getLsbD 0 = false) (h1 : target.getLsbD 1 = false) (h : canonical target = true) :
    s.transferReg target before = .next ((before s).jump target) := by
  have aligned : bfld target 0 2 = 0 := by simpa [bfld] using toNat_mod_four_eq_zero h0 h1
  simp [State.transferReg, aligned, transfer_of_canonical h]
theorem branch_of_untaken : s.branch false off = .next s.advance := rfl
theorem branch_of_taken (h : canonical (wordTarget s 17 off) = true) : s.branch true off = .next (s.jump (wordTarget s 17 off)) := by
  rw [State.branch, if_pos rfl, target_eq (by decide), transfer_of_canonical h]; rfl
/-- A branch with a canonical target goes there when its condition holds, and else to the next word. -/
theorem branch_moves {c : Prop} [Decidable c] (h : canonical (wordTarget s 17 off) = true) (e : taken = true ↔ c) :
    ∃ t, s.branch taken off = .next t ∧ Moved s t noReg (if c then wordTarget s 17 off else s.iss.base + 4) := by
  cases taken with
  | false => rw [if_neg (mt e.mpr Bool.false_ne_true)]; exact ⟨_, branch_of_untaken, moved_advance s⟩
  | true => rw [if_pos (e.mp rfl)]; exact ⟨_, branch_of_taken h, moved_jump s _⟩
theorem branch_goes_on (h : taken = false) : ∃ t, s.branch taken off = .next t ∧ Moved s t noReg (s.iss.base + 4) := by
  subst h; exact ⟨_, branch_of_untaken, moved_advance s⟩

theorem uniformResult_link (s : State) (pc : W64) : UniformResult s (s.link.jump pc) 159 (s.iss.base + 4) pc :=
  uniformResult s 159 _ pc (by decide)

theorem sloop_register_lt (h : (Instr.sloop a off).wf = true) : a < 160 := by
  simp only [Instr.wf, Instr.numsOk, Instr.numsBy, sr, Bool.and_eq_true, decide_eq_true_eq] at h
  exact h.2
theorem execSloop_of_last (h : s.rdS a = 1) : execSloop a off s = .next ((s.wrS a 0).jump (s.iss.base + 4)) := by
  simp only [execSloop, h]; rfl
theorem execSloop_of_more (h : s.rdS a ≠ 1) (hc : canonical (wordTarget s 17 off) = true) :
    execSloop a off s = .next ((s.wrS a (s.rdS a - 1)).jump (wordTarget s 17 off)) := by
  have more : (s.rdS a - 1 != 0) = true := by simpa [BitVec.sub_eq_iff_eq_add] using h
  simp only [execSloop, more, if_true, target_eq (n := 17) (by decide), transfer_of_canonical hc]

end

theorem relativeBranchesGoWhereTheirConditionSays : RelativeBranchesGoWhereTheirConditionSays := by
  intro s next at25 at17
  refine ⟨fun off h => ?_, fun a off h => ?_, fun a off => ?_⟩
  · have e : s.target 25 off = wordTarget s 25 off := target_eq (by decide) s off
    exact ⟨⟨_, (congrArg (s.transfer · id) e).trans (transfer_of_canonical h), moved_jump s _⟩,
      _, (congrArg (s.transfer · State.link) e).trans (transfer_of_canonical h), uniformResult_link s _⟩
  · refine ⟨branch_moves h decide_eq_true_iff, ?_, ?_, fun hw => ?_⟩
    · rw [← ite_not]; exact branch_moves h bne_iff_ne
    · exact branch_moves h (by rw [decide_toInt_neg])
    · have ha := sloop_register_lt hw
      by_cases h1 : s.rdS a = 1
      · rw [if_pos h1, h1]; exact ⟨_, execSloop_of_last h1, uniformResult s a _ _ ha⟩
      · rw [if_neg h1]; exact ⟨_, execSloop_of_more h1 h, uniformResult s a _ _ ha⟩
  · exact ⟨fun h => branch_goes_on (decide_eq_false h), fun h => branch_goes_on (bne_eq_false_iff_eq.mpr h),
      fun h => branch_goes_on ((decide_toInt_neg _).trans h),
      fun h hw => ⟨_, execSloop_of_last h, uniformResult s a _ _ (sloop_register_lt hw)⟩⟩

theorem registerTransfersTakeTheirTarget : RegisterTransfersTakeTheirTarget := fun s =>
  ⟨fun _ h0 h1 hc => ⟨⟨_, transferReg_of_aligned h0 h1 hc, moved_jump s _⟩, _, transferReg_of_aligned h0 h1 hc, uniformResult_link s _⟩,
    fun h0 h1 hc => ⟨_, transferReg_of_aligned h0 h1 hc, moved_jump s _⟩⟩

/-- Settles O2: a transfer jumps to its target when the target is canonical, after the link or the counter has been written. -/
theorem transfersGoToTheirTarget : Obligations.TransfersGoToTheirTarget :=
  ⟨relativeBranchesGoWhereTheirConditionSays, registerTransfersTakeTheirTarget⟩

end Sys2Proof.Proofs
end

section
/-! # Every instruction answers a next state -/

namespace Sys2Proof.Proofs

open Machine Laws

/-! O56. A function that answers an outcome has a lemma here, `<function>_answers`, in the order of the model's own text: its answer is a next
state. A meaning that runs a shared operation cites that operation's lemma. -/

/-- The outcome is a next state. -/
def Answers (r : Res) : Prop := ∃ t, r = .next t

theorem answers_next (t : State) : Answers (.next t) := ⟨t, rfl⟩
theorem answers_ite {c : Prop} {d : Decidable c} {r q : Res} (hr : Answers r) (hq : Answers q) : Answers (@ite _ c d r q) := by
  split <;> assumption
/-- A check either ends the instruction or lets it go on. -/
theorem answers_check {c : Prop} {d : Decidable c} {t : State} {r : Res} (h : Answers r) : Answers (@ite _ c d (.next t) r) :=
  answers_ite (answers_next t) h

section
variable {s : State}

/-! ### Shared operations of a warp -/

theorem lane_answers {p act uses} {body : Nat → Res} (h : ∀ i, Answers (body i)) : Answers (s.lane p act uses body) := by
  unfold State.lane
  split
  · exact answers_next _
  · exact answers_check (answers_check (h _))
theorem laneW_answers {p act uses f} : Answers (s.laneW p act uses f) := lane_answers fun _ => answers_next _
theorem intOp_answers {f sat bwide F} : Answers (s.intOp f sat bwide F) := laneW_answers
theorem divOp_answers {f F} : Answers (s.divOp f F) := by
  unfold State.divOp
  refine lane_answers fun i => ?_
  dsimp only
  split <;> exact answers_next _
theorem cmpOp_answers {f F} : Answers (s.cmpOp f F) := laneW_answers
theorem moviOp_answers {f F} : Answers (s.moviOp f F) := laneW_answers
theorem fltOp_answers {f three F} : Answers (s.fltOp f three F) := laneW_answers
theorem fcmpOp_answers {f q F} : Answers (s.fcmpOp f q F) := laneW_answers
theorem redOp_answers {f act z l} : Answers (s.redOp f act z l) := laneW_answers
theorem uniDiv_answers {f F} : Answers (s.uniDiv f F) := answers_check (answers_next _)
theorem transfer_answers {target before} : Answers (s.transfer target before) := answers_check (answers_next _)
theorem transferReg_answers {target before} : Answers (s.transferReg target before) := answers_check transfer_answers
theorem branch_answers {taken off} : Answers (s.branch taken off) := answers_ite transfer_answers (answers_next _)
theorem laneBranch_answers {p taken off} : Answers (s.laneBranch p taken off) := answers_check (answers_next _)
theorem take_answers {r size limit detail} : Answers (s.take r size limit detail) :=
  answers_check (answers_check (answers_next _))
theorem fenceRelOp_answers {sc} : Answers (s.fenceRelOp sc) := by unfold State.fenceRelOp; split <;> exact answers_next _
theorem launchFlight_answers {f fin} : Answers (s.launchFlight f fin) := by unfold State.launchFlight; split <;> exact answers_next _
theorem memGo_answers {e scope f ps fin} : Answers (s.memGo e scope f ps fin) := answers_check launchFlight_answers
theorem laneMem_answers {m p act spans op data} : Answers (s.laneMem m p act spans op data) := by
  refine answers_check (answers_check ?_)
  split
  · exact answers_next _
  · refine answers_check ?_
    split
    · exact answers_next _
    · exact answers_check memGo_answers
theorem localMem_answers {p act off n op data} : Answers (s.localMem p act off n op data) := by
  unfold State.localMem
  exact launchFlight_answers
theorem uniMem_answers {op va n align scope bs} : Answers (s.uniMem op va n align scope bs) := by
  unfold State.uniMem
  dsimp only
  split
  · exact answers_next _
  · split
    · exact answers_next _
    · exact memGo_answers
theorem uniLd_answers {f n} : Answers (s.uniLd f n) := answers_check uniMem_answers
theorem uniSt_answers {f n} : Answers (s.uniSt f n) := answers_check uniMem_answers
theorem engTrap_answers {cause} : Answers (s.engTrap cause) := answers_next _
theorem engLane_answers {p uses} {body : State → W32 → Res} (h : ∀ t act, Answers (body t act)) : Answers (s.engLane p uses body) :=
  answers_check (answers_check (answers_check (answers_check (h _ _))))
theorem engUni_answers {body : State → Res} (h : ∀ t, Answers (body t)) : Answers (s.engUni body) := answers_check (h _)
theorem withTile_answers {n} {body : Nat → Res} (h : ∀ t, Answers (body t)) : Answers (s.withTile n body) := by
  unfold State.withTile
  split
  · exact h _
  · exact engTrap_answers
theorem withBanks_answers {own follow body} (h : Answers body) : Answers (s.withBanks own follow body) := by
  refine answers_check ?_
  split
  · exact answers_next _
  · exact h
theorem enqueueMat_answers {k} : Answers (s.enqueueMat k) := answers_check (answers_next _)
theorem tileMove_answers {v src scales k} : Answers (s.tileMove v src scales k) :=
  answers_ite engTrap_answers (answers_ite engTrap_answers enqueueMat_answers)
theorem mmaOp_answers {a b sa pair} : Answers (s.mmaOp a b sa pair) :=
  engUni_answers fun _ => withTile_answers fun _ => withTile_answers fun _ => withBanks_answers (answers_ite engTrap_answers enqueueMat_answers)
theorem bankOp_answers {a} {body : State → Nat → Res} (h : ∀ t k, Answers (body t k)) : Answers (s.bankOp a body) :=
  engUni_answers fun _ => withBanks_answers (h _ _)
theorem collRead_answers {ps} {body : State → List Byte → Res} (h : ∀ t bs, Answers (body t bs)) : Answers (s.collRead ps body) := by
  unfold State.collRead
  split
  · exact answers_next _
  · split
    · exact answers_next _
    · refine answers_check (answers_check ?_)
      split
      · exact answers_next _
      · exact h _ _
theorem collDesc_answers {a} {body : State → W64 → List Byte → Res} (h : ∀ t va bs, Answers (body t va bs)) : Answers (s.collDesc a body) :=
  answers_check (answers_check (answers_check (collRead_answers fun _ _ => h _ _ _)))
theorem collIssue_answers {bs act} : Answers (s.collIssue bs act) := by
  refine answers_check ?_
  split
  · exact answers_next _
  · split <;> exact answers_next _
theorem collOp_answers {a xred} : Answers (s.collOp a xred) := by
  refine collDesc_answers fun t va bs => answers_check ?_
  dsimp only
  split
  · exact answers_next _
  · exact collIssue_answers

/-! ### Shared operations of a hart -/

theorem hartLoad_answers {h va n align f} : Answers (s.hartLoad h va n align f) := by
  unfold State.hartLoad
  split
  · exact answers_next _
  · exact answers_check (answers_next _)
theorem hartStore_answers {h va align bs f} : Answers (s.hartStore h va align bs f) := by
  unfold State.hartStore; split <;> exact answers_next _
theorem dxGate_answers {rank} {f : State → Res} (h : Answers (f s)) : Answers (s.dxGate rank f) :=
  answers_check (answers_check h)


/-! ### Instructions of a warp -/

theorem execSldk_answers {d a off} : Answers (execSldk d a off s) := answers_check (answers_check uniMem_answers)
theorem execSmovl_answers {f} : Answers (execSmovl f s) := answers_check (answers_check (answers_next _))
theorem execSloop_answers {a off} : Answers (execSloop a off s) := answers_ite transfer_answers (answers_next _)
theorem execTcfg_answers {n a} : Answers (execTcfg n a s) :=
  engUni_answers fun _ => withTile_answers fun _ => answers_check (answers_check (answers_next _))
theorem execTld_answers {n a} : Answers (execTld n a s) := engUni_answers fun _ => withTile_answers fun _ => tileMove_answers
theorem execTldS_answers {n a b} : Answers (execTldS n a b s) :=
  engUni_answers fun _ => withTile_answers fun _ => answers_check tileMove_answers
theorem execTst_answers {n a} : Answers (execTst n a s) := engUni_answers fun _ => withTile_answers fun _ => tileMove_answers
theorem execMdrnTile_answers {a clr n row col} : Answers (execMdrnTile a clr n row col s) :=
  engUni_answers fun _ => withTile_answers fun _ => withBanks_answers (answers_check enqueueMat_answers)
theorem execMdrnSpad_answers {a clr cv b} : Answers (execMdrnSpad a clr cv b s) :=
  engUni_answers fun _ => withBanks_answers (answers_check (answers_check enqueueMat_answers))
theorem execMfix_answers {a} : Answers (execMfix a s) := by
  refine bankOp_answers fun t k => ?_
  dsimp only
  split <;> exact answers_next _
theorem execMstat_answers {d} : Answers (execMstat d s) := engUni_answers fun _ => answers_next _
theorem execMstatClo_answers {d a} : Answers (execMstatClo d a s) := bankOp_answers fun _ _ => answers_next _
theorem execMstatChi_answers {d a} : Answers (execMstatChi d a s) := bankOp_answers fun _ _ => answers_next _
theorem execGstr_answers {z tok a b} : Answers (execGstr z tok a b s) :=
  answers_check (answers_check (answers_check (answers_check (answers_next _))))
theorem execCbdef_answers {n a b} : Answers (execCbdef n a b s) :=
  answers_check (answers_check (answers_check (answers_check (answers_next _))))
theorem execCbget_answers {d n} : Answers (execCbget d n s) := by
  refine answers_check ?_
  split
  · exact engTrap_answers
  · refine answers_check ?_
    dsimp only
    split <;> exact answers_next _
theorem execCbput_answers {n a} : Answers (execCbput n a s) := by
  refine answers_check ?_
  split
  · exact engTrap_answers
  · exact answers_check (answers_next _)
theorem execCblim_answers {n a} : Answers (execCblim n a s) := by
  refine answers_check ?_
  split
  · exact engTrap_answers
  · exact answers_check (answers_next _)
theorem execWaitq_answers {c n} : Answers (execWaitq c n s) := by
  refine answers_check (answers_ite ?_ (answers_next _))
  split <;> exact answers_next _
theorem execWaitk_answers {d m} : Answers (execWaitk d m s) := answers_check (answers_check (answers_next _))
theorem execXshf_answers {a} : Answers (execXshf a s) := by
  refine collDesc_answers fun t va bs => answers_check (collRead_answers fun u ls => answers_check ?_)
  dsimp only
  split
  · exact answers_next _
  · exact collIssue_answers
theorem execXside_answers {a} : Answers (execXside a s) := by
  refine collDesc_answers fun t va bs => answers_check (collRead_answers fun u ls => answers_check ?_)
  dsimp only
  split
  · exact answers_next _
  · exact answers_check collIssue_answers
theorem execTxb_answers {off} : Answers (execTxb off s) := answers_check (answers_check (answers_next _))
theorem execTxc_answers {m} : Answers (execTxc m s) :=
  answers_check (answers_check (answers_check (answers_check (answers_check (answers_check (answers_next _))))))
theorem execBarArrive_answers {l n} : Answers (execBarArrive l n s) := by
  refine answers_check ?_
  split <;> exact answers_next _
theorem execBarWait_answers {l n} : Answers (execBarWait l n s) := answers_check (answers_check (answers_check (answers_next _)))
theorem execBarSync_answers {l n} : Answers (execBarSync l n s) := by
  refine answers_check (answers_check ?_)
  split <;> exact answers_next _
theorem execEvb_answers {n l b a} : Answers (execEvb n l b a s) := answers_check (answers_check (answers_next _))
theorem execWany_answers {imm} : Answers (execWany imm s) := by
  refine answers_check (answers_check ?_)
  split
  · exact answers_check (answers_next _)
  · exact answers_next _
theorem execLaunch_answers {d a} : Answers (execLaunch d a s) := by
  refine answers_check (answers_check (answers_check (answers_check ?_)))
  split
  · exact answers_next _
  · split
    · exact answers_next _
    · split
      · exact answers_next _
      · refine answers_check ?_
        split
        · exact answers_next _
        · split <;> exact answers_next _
theorem execTakeV_answers {m} : Answers (execTakeV m s) := by unfold execTakeV; exact take_answers
theorem execTakeA_answers {c} : Answers (execTakeA c s) := by unfold execTakeA; exact take_answers
theorem execSprf_answers {t a off} : Answers (execSprf t a off s) := by
  unfold execSprf
  dsimp only
  split <;> exact answers_next _
theorem execExit_answers : Answers (execExit s) := by
  refine answers_check (answers_check ?_)
  split <;> exact answers_next _
theorem execMeetOpen_answers {p n off} : Answers (execMeetOpen p n off s) := answers_check (answers_check (answers_next _))
theorem execCallv_answers {p off} : Answers (execCallv p off s) :=
  answers_check (answers_check (answers_check (answers_check (answers_next _))))
theorem execJmpv_answers {p a} : Answers (execJmpv p a s) := by
  refine answers_check (answers_check ?_)
  split <;> exact answers_next _
theorem execLds_answers {f} : Answers (execLds f s) := by
  refine lane_answers fun i => ?_
  split
  · exact answers_next _
  · exact localMem_answers
theorem execSts_answers {f} : Answers (execSts f s) := by
  refine lane_answers fun i => ?_
  split
  · exact answers_next _
  · exact localMem_answers
theorem execAtoms_answers {f} : Answers (execAtoms f s) := by
  unfold execAtoms
  refine lane_answers fun i => ?_
  split
  · exact answers_next _
  · exact localMem_answers
theorem execCpy_answers {f} : Answers (execCpy f s) := by
  unfold execCpy
  refine engLane_answers fun t act => ?_
  dsimp only
  split
  · exact answers_next _
  · split
    · exact answers_next _
    · split
      · exact answers_next _
      · exact answers_next _
      · split
        · exact answers_next _
        · exact answers_check (answers_next _)
theorem execCpyBuf_answers {f} : Answers (execCpyBuf f s) := by
  unfold execCpyBuf
  refine engLane_answers fun t act => ?_
  dsimp only
  split
  · exact answers_next _
  · split
    · exact answers_next _
    · split
      · exact answers_next _
      · split
        · exact answers_next _
        · exact answers_check (answers_next _)
theorem execGath_answers {f} : Answers (execGath f s) := by
  unfold execGath
  refine engLane_answers fun t act => ?_
  dsimp only
  split
  · exact answers_next _
  · split
    · exact answers_next _
    · split
      · exact answers_next _
      · split
        · exact answers_next _
        · exact answers_check (answers_next _)

/-! ### Instructions of a hart -/

theorem hartAmo_answers {h d va op v} : Answers (s.hartAmo h d va op v) := by
  unfold State.hartAmo
  dsimp only
  split
  · exact answers_next _
  · refine answers_check (answers_check (answers_check ?_))
    split <;> exact answers_next _
theorem hartLr_answers {h d va n} : Answers (s.hartLr h d va n) := by
  refine answers_check ?_
  split
  · exact answers_next _
  · exact answers_check (answers_next _)
theorem hartSc_answers {h d va n v} : Answers (s.hartSc h d va n v) := answers_check hartStore_answers
theorem hostOp_answers {h op} : Answers (s.hostOp h op) := by
  unfold State.hostOp
  cases op with
  | load => exact answers_check hartLoad_answers
  | store => exact answers_check hartStore_answers
  | csr | mret => exact answers_check (answers_next _)
  | amo => exact answers_check (answers_ite hartAmo_answers (answers_next _))
  | lr => exact answers_check (answers_ite hartLr_answers (answers_next _))
  | sc => exact answers_check (answers_ite hartSc_answers (answers_next _))
  | fence | barred | illegal => exact answers_next _
theorem execDxLaunch_answers {d r} : Answers (execDxLaunch d r s) := dxGate_answers (answers_check (answers_check hartLoad_answers))
theorem execDxWait_answers {d r t} : Answers (execDxWait d r t s) := dxGate_answers hartLoad_answers
theorem execDxFqpop_answers {d r} : Answers (execDxFqpop d r s) := dxGate_answers (answers_check hartStore_answers)
theorem execDxReplay_answers {r} : Answers (execDxReplay r s) := dxGate_answers (answers_check (answers_next _))
theorem execDxKill_answers {r} : Answers (execDxKill r s) := dxGate_answers (answers_next _)
theorem ckptOp_answers {d r} : Answers (s.ckptOp d r) :=
  dxGate_answers (answers_check (answers_check (answers_check (answers_check (answers_check (answers_check (answers_check (answers_next _))))))))
theorem execCsrWrite_answers {h csr v} : Answers (execCsrWrite h csr v s) := answers_check (answers_check (answers_next _))
theorem execDxWaitTimeout_answers {h} : Answers (execDxWaitTimeout h s) := by
  unfold execDxWaitTimeout
  split
  · split <;> exact answers_next _
  · exact answers_next _

/-! ### Steps of the cores -/

theorem execGangDispatch_answers {grid gang} : Answers (execGangDispatch grid gang s) := by
  refine answers_check ?_
  split
  · exact answers_next _
  · exact answers_check (answers_ite (answers_check (answers_next _)) (answers_next _))
theorem execSlotFree_answers {g} : Answers (execSlotFree g s) := by unfold execSlotFree; split <;> exact answers_next _
theorem execCoppiceRelaunch_answers {grid gang} : Answers (execCoppiceRelaunch grid gang s) := by
  unfold execCoppiceRelaunch
  dsimp only
  split
  · exact answers_next _
  · exact answers_check (answers_check (answers_check (answers_next _)))
theorem execLockLimitExpiry_answers : Answers (execLockLimitExpiry s) := by
  unfold execLockLimitExpiry
  split
  · exact answers_next _
  · exact answers_check (answers_next _)
theorem execTxRevalidateCount_answers {w t} : Answers (execTxRevalidateCount w t s) := by
  unfold execTxRevalidateCount
  dsimp only
  split
  · exact answers_check (answers_check (answers_check (answers_next _)))
  · exact answers_next _
theorem execInvalidateComplete_answers {core} : Answers (execInvalidateComplete core s) := by
  unfold execInvalidateComplete
  split
  · exact answers_next _
  · exact answers_check (answers_next _)
theorem execMailboxRoom_answers {w m} : Answers (execMailboxRoom w m s) := by unfold execMailboxRoom; split <;> exact answers_next _
theorem execCoreWindowAccess_answers {by_ pa op} : Answers (execCoreWindowAccess by_ pa op s) := by
  refine answers_check ?_
  cases op <;> exact answers_next _
theorem execEngineOpRetire_answers {w c} : Answers (execEngineOpRetire w c s) := by
  refine answers_check ?_
  cases c <;> exact answers_next _
theorem execMatrixOpStart_answers {core} : Answers (execMatrixOpStart core s) := by
  unfold execMatrixOpStart
  dsimp only
  split <;> exact answers_next _
theorem execMmaStep_answers {core flip} : Answers (execMmaStep core flip s) := by
  unfold execMmaStep
  split
  · exact answers_next _
  · refine answers_check ?_
    split <;> exact answers_next _
theorem execTwinMatch_answers {w twin} : Answers (execTwinMatch w twin s) := by
  unfold execTwinMatch
  split
  · refine answers_check (answers_check ?_)
    split <;> exact answers_next _
  · exact answers_next _

/-! ### Steps of the fabric -/

theorem execPortDown_answers {port} : Answers (execPortDown port s) := by
  refine answers_check ?_
  split <;> exact answers_next _
theorem execWriteback_answers {holder line x} : Answers (execWriteback holder line x s) :=
  answers_check (answers_ite (answers_check (answers_check (answers_next _))) (answers_check (answers_next _)))
theorem execPurgeack_answers {id from_} : Answers (execPurgeack id from_ s) := by unfold execPurgeack; split <;> exact answers_next _
theorem execPartialForwardTimer_answers {n} : Answers (execPartialForwardTimer n s) := by
  unfold execPartialForwardTimer; split <;> exact answers_next _
theorem execGladePartialError_answers {n sector} : Answers (execGladePartialError n sector s) := by
  unfold execGladePartialError
  split
  · exact answers_check (answers_next _)
  · exact answers_next _
theorem execCollectivePull_answers {quarter id} : Answers (execCollectivePull quarter id s) := by
  unfold execCollectivePull
  split
  · exact answers_next _
  · refine answers_check ?_
    split
    · exact answers_next _
    · exact answers_check (answers_check (answers_next _))
theorem execPlanDigest_answers {ctx id from_ digest} : Answers (execPlanDigest ctx id from_ digest s) := by
  refine answers_check ?_
  split <;> exact answers_next _
theorem execPacketFormation_answers {ctx id} : Answers (execPacketFormation ctx id s) := by
  unfold execPacketFormation
  split
  · exact answers_next _
  · refine answers_check ?_
    dsimp only
    split
    · exact answers_next _
    · exact answers_check (answers_next _)
theorem execCodedPacket_answers {k} : Answers (execCodedPacket k s) := by
  unfold execCodedPacket
  split
  · exact answers_next _
  · split
    · exact answers_next _
    · refine answers_check (answers_check ?_)
      split
      · exact answers_check (answers_next _)
      · exact answers_next _
theorem execFallbackreq_answers {ctx id xfer to_} : Answers (execFallbackreq ctx id xfer to_ s) := by
  unfold execFallbackreq
  split
  · exact answers_next _
  · exact answers_check (answers_check (answers_next _))

/-! ### Steps of the platform -/

theorem execFrameReceive_answers {port bytes ok fails} : Answers (execFrameReceive port bytes ok fails s) := by
  refine answers_check (answers_check ?_)
  split
  · exact answers_next _
  · exact answers_check (answers_check (answers_next _))
theorem execPauseRepeat_answers {port pcp} : Answers (execPauseRepeat port pcp s) := by
  unfold execPauseRepeat
  dsimp only
  split
  · exact answers_check (answers_next _)
  · exact answers_next _
theorem execDxobjComplete_answers : Answers (execDxobjComplete s) := by
  unfold execDxobjComplete
  split
  · exact answers_next _
  · exact answers_check (answers_next _)
theorem execClockPlanChange_answers : Answers (execClockPlanChange s) := by unfold execClockPlanChange; split <;> exact answers_next _
theorem execThrottleEnd_answers : Answers (execThrottleEnd s) := by unfold execThrottleEnd; split <;> exact answers_next _
theorem execSnapshotComplete_answers : Answers (execSnapshotComplete s) := by
  unfold execSnapshotComplete; split <;> exact answers_next _
theorem execCheckpointComplete_answers {e} : Answers (execCheckpointComplete e s) := by
  unfold execCheckpointComplete
  split
  · exact answers_next _
  · exact answers_check (answers_next _)
end

/-- Every form answers: the forms not named in a case of their own answer one state outright. -/
theorem exec_answers (i : Instr) (s : State) : Answers (exec i s) := by
  unfold exec
  cases i with
  | sdiv | srem => exact uniDiv_answers
  | sld | sldw => exact uniLd_answers
  | sst | sstw => exact uniSt_answers
  | sldk => exact execSldk_answers
  | smovl => exact execSmovl_answers
  | sb | scall => exact transfer_answers
  | sbz | sbnz | sblt => exact branch_answers
  | sj | scallr | sret => exact transferReg_answers
  | sloop => exact execSloop_answers
  | fenceRel | fenceAr | fenceSc => exact fenceRelOp_answers
  | tcfg => exact execTcfg_answers
  | tld => exact execTld_answers
  | tldS => exact execTldS_answers
  | tst => exact execTst_answers
  | mma | mmaPair => exact mmaOp_answers
  | mdrnTile => exact execMdrnTile_answers
  | mdrnSpad => exact execMdrnSpad_answers
  | mchk | mrty | mzero | mgive => exact bankOp_answers fun _ _ => enqueueMat_answers
  | mfix => exact execMfix_answers
  | mstat => exact execMstat_answers
  | mstatClo => exact execMstatClo_answers
  | mstatChi => exact execMstatChi_answers
  | gstr => exact execGstr_answers
  | cbdef => exact execCbdef_answers
  | cbget => exact execCbget_answers
  | cbput => exact execCbput_answers
  | cblim => exact execCblim_answers
  | waitq => exact execWaitq_answers
  | waitk => exact execWaitk_answers
  | xred | xbc => exact collOp_answers
  | xshf => exact execXshf_answers
  | xside => exact execXside_answers
  | txb => exact execTxb_answers
  | txc => exact execTxc_answers
  | barArrive => exact execBarArrive_answers
  | barWait => exact execBarWait_answers
  | barSync => exact execBarSync_answers
  | evb => exact execEvb_answers
  | wany => exact execWany_answers
  | launch => exact execLaunch_answers
  | takeV => exact execTakeV_answers
  | takeA => exact execTakeA_answers
  | sprf => exact execSprf_answers
  | exit => exact execExit_answers
  | add | sub | mul | mulh | min | max | and | or | xor | shl | shr | rot => exact intOp_answers
  | mad | addc | sel | bfx | bfi | bit | prmb | dot4 | movLane | movU | movC | movTu | bsr | bswSet | bswReload | bswQuery | shf | vote
   | voteBallot | func | cvt | cvtbTo | cvtbFrom | pfma | cdot => exact laneW_answers
  | div | rem => exact divOp_answers
  | cmpeq | cmpne | cmplt | cmple => exact cmpOp_answers
  | moviZ | moviS | moviHi => exact moviOp_answers
  | fadd | fsub | fmul | fma | fmin | fmax | fdiv => exact fltOp_answers
  | fcmpeq | fcmplt | fcmple | fcmpun => exact fcmpOp_answers
  | tred | scan | segr => exact redOp_answers
  | meetOpen => exact execMeetOpen_answers
  | brt | brf => exact laneBranch_answers
  | callv => exact execCallv_answers
  | jmpv => exact execJmpv_answers
  | ld | st | atom => exact lane_answers fun _ => laneMem_answers
  | lds => exact execLds_answers
  | sts => exact execSts_answers
  | atoms => exact execAtoms_answers
  | cpy => exact execCpy_answers
  | cpyBuf => exact execCpyBuf_answers
  | gath => exact execGath_answers
  | dxLaunch => exact execDxLaunch_answers
  | dxWait => exact execDxWait_answers
  | dxFqpop => exact execDxFqpop_answers
  | dxReplay => exact execDxReplay_answers
  | dxKill => exact execDxKill_answers
  | dxCkptSave | dxCkptRestore | dxCkptQuery => exact ckptOp_answers
  | gangDispatch => exact execGangDispatch_answers
  | slotFree => exact execSlotFree_answers
  | coppiceRelaunch => exact execCoppiceRelaunch_answers
  | lockLimitExpiry => exact execLockLimitExpiry_answers
  | txRevalidateCount => exact execTxRevalidateCount_answers
  | invalidateComplete => exact execInvalidateComplete_answers
  | mailboxRoom => exact execMailboxRoom_answers
  | coreWindowAccess => exact execCoreWindowAccess_answers
  | engineOpRetire => exact execEngineOpRetire_answers
  | matrixOpStart => exact execMatrixOpStart_answers
  | mmaStep => exact execMmaStep_answers
  | portDown => exact execPortDown_answers
  | writeback => exact execWriteback_answers
  | purgeack => exact execPurgeack_answers
  | partialForwardTimer => exact execPartialForwardTimer_answers
  | gladePartialError => exact execGladePartialError_answers
  | collectivePull => exact execCollectivePull_answers
  | planDigest => exact execPlanDigest_answers
  | packetFormation => exact execPacketFormation_answers
  | codedPacket => exact execCodedPacket_answers
  | fallbackreq => exact execFallbackreq_answers
  | twinMatch => exact execTwinMatch_answers
  | frameReceive => exact execFrameReceive_answers
  | pauseRepeat => exact execPauseRepeat_answers
  | dxobjComplete => exact execDxobjComplete_answers
  | clockPlanChange => exact execClockPlanChange_answers
  | csrWrite => exact execCsrWrite_answers
  | throttleEnd => exact execThrottleEnd_answers
  | snapshotComplete => exact execSnapshotComplete_answers
  | dxWaitTimeout => exact execDxWaitTimeout_answers
  | hostInstruction => exact answers_ite hostOp_answers (answers_next _)
  | checkpointComplete => exact execCheckpointComplete_answers
  | cbqry | xqry | txa | giveV | giveA | snap | meetLeave | dxTabort | slotBind | slotStop | sliceExpiry | warpSlotRelease | sleepDeadline
   | copyLine | gatherElement | portdown | data | recallLine | advert | withdraw | pauseStart | pauseAbandon | residueMismatch
   | failedPartRecovery => exact answers_ite (answers_next _) (answers_next _)
  | rte | sleep | meetWait | dxTbegin | dxTend | atomic | uncachedRead | uncachedWrite | scrub | moduleStart =>
    exact answers_check (answers_check (answers_next _))
  | contribution => exact answers_check (answers_check (answers_check (answers_next _)))
  | _ => exact answers_next _

/-- Settles O56, by `exec_answers`: each meaning branches on the state, and every branch ends in a next state. -/
theorem everyInstructionAnswersANextState : Obligations.EveryInstructionAnswersANextState := exec_answers

end Sys2Proof.Proofs
end

section
/-! # The next move -/

namespace Sys2Proof.Proofs

open Machine Laws

/-! ## Lines that fetches take

A fetch reads: its lines are granted for reading, so that no entry of the directory is ever owned by one holder, and as few lines as an instruction has
never fill a set. -/

/-- An entry of the directory whose unit has only readers. -/
structure OnlyRead (e : DirEntry) : Prop where
  queue : e.queue = []
  recalls : e.recalls = []
  unacked : e.unacked = []
  unowned : ∀ o, e.state ≠ some (.owned o)
/-- Fetches that took at most m lines have led from a state to another: the directory and the holders alone may differ. -/
structure Fetching (s u : State) (m : Nat) : Prop where
  same : u = s.looked u
  classes : u.classes = []
  few : u.dir.length ≤ m
  entry : ∀ x, OnlyRead (u.dirEntry x)
  holder : ∀ k, isWriteback (tget? u.holders k) = false

section
variable {s u : State} {m : Nat}

theorem onlyRead_none : OnlyRead DirEntry.none := ⟨rfl, rfl, rfl, fun _ h => nomatch h⟩
theorem inTheWay_of_onlyRead {e : DirEntry} (h : OnlyRead e) (holder : Nat) : e.inTheWay holder .s = [] := by
  rcases e with ⟨_ | _ | o, _, _, _⟩
  · rfl
  · rfl
  · exact absurd rfl (h.unowned o)
theorem onlyRead_grant {e : DirEntry} (h : OnlyRead e) (holder : Nat) : OnlyRead { e.grant holder .s with unacked := e.unacked } := by
  refine ⟨h.queue, h.recalls, h.unacked, ?_⟩
  rcases e with ⟨_ | _ | o, _, _, _⟩
  · exact fun _ h => nomatch h
  · exact fun _ h => nomatch h
  · exact absurd rfl (h.unowned o)

theorem length_tput_le {α : Type} (t : Tab α) (k : Nat) (a : α) : (tput t k a).length ≤ t.length + 1 := by
  induction t with
  | nil => simp [tput]
  | cons x r ih =>
    obtain ⟨i, b⟩ := x
    simp only [tput]
    split
    · simp
    · split <;> simp only [List.length_cons] <;> omega
theorem length_tdel_le {α : Type} (t : Tab α) (k : Nat) : (tdel t k).length ≤ t.length := by
  induction t with
  | nil => simp [tdel]
  | cons x r ih =>
    obtain ⟨i, b⟩ := x
    simp only [tdel]
    split <;> simp only [List.length_cons] <;> omega
theorem length_setDir_le (s : State) (x : Nat) (e : DirEntry) : (s.setDir x e).dir.length ≤ s.dir.length + 1 := by
  unfold State.setDir
  dsimp only
  split
  · exact Nat.le_succ_of_le (length_tdel_le _ _)
  · exact length_tput_le _ _ _

theorem fetching_of_calm (h : Calm s) : Fetching s s 0 := by
  obtain ⟨hd, hh⟩ := h.lines
  refine ⟨rfl, h.classes, by simp [hd], fun x => ?_, fun k => ?_⟩
  · rw [State.dirEntry, hd]; exact onlyRead_none
  · rw [hh]; rfl
theorem Fetching.mono (h : Fetching s u m) {n : Nat} (hn : m ≤ n) : Fetching s u n := { h with few := Nat.le_trans h.few hn }

theorem victim_of_fetching (h : Fetching s u m) (hm : m < 16) (x : Nat) : u.victim x = none := by
  have : u.dir.length < 16 := Nat.lt_of_le_of_lt h.few hm
  simp [State.victim, this]
theorem fetching_setDir (h : Fetching s u m) (x : Nat) {e : DirEntry} (he : OnlyRead e) : Fetching s (u.setDir x e) (m + 1) := by
  refine ⟨?_, ?_, Nat.le_trans (length_setDir_le u x e) (Nat.succ_le_succ h.few), fun y => ?_, fun k => ?_⟩
  · rw [h.same]; unfold State.setDir; split <;> rfl
  · unfold State.setDir; split <;> exact h.classes
  · rw [dirEntry_setDir]
    split
    · exact he
    · exact h.entry y
  · unfold State.setDir; split <;> exact h.holder k
theorem fetching_putHolder (h : Fetching s u m) (k : Nat) : Fetching s { u with holders := tput u.holders k .s } m := by
  refine ⟨?_, h.classes, h.few, h.entry, fun j => ?_⟩
  · rw [h.same]; rfl
  · rw [tget?_tput]
    split
    · rfl
    · exact h.holder j
theorem fetching_foldl {α : Type} {f : State → α → State} {d : Nat} :
    ∀ (l : List α) (u : State) (m : Nat), (∀ x ∈ l, ∀ u m, m < 16 → Fetching s u m → Fetching s (f u x) (m + d)) →
      m + l.length * d ≤ 16 → 0 < d → Fetching s u m → Fetching s (l.foldl f u) (m + l.length * d)
  | [], _, _, _, _, _, h => by simpa using h
  | x :: r, u, m, hf, hm, hd, h => by
    simp only [List.length_cons, Nat.succ_mul] at hm ⊢
    have := fetching_foldl r (f u x) (m + d) (fun y hy => hf y (List.mem_cons_of_mem x hy)) (by omega) hd
      (hf x List.mem_cons_self u m (by omega) h)
    rwa [show m + d + r.length * d = m + (r.length * d + d) by omega] at this

/-- A reader takes a line of this module. -/
theorem fetching_ownLine (h : Fetching s u m) (hm : m < 16) (holder : Nat) {x : Nat} (hx : lineHome x = u.pkg) :
    Fetching s (u.ownLine holder .s x) (m + 1) := by
  have e := h.entry (u.unitKey x)
  unfold State.ownLine
  simp only [hx, bne_self_eq_false, Bool.false_eq_true, if_false, inTheWay_of_onlyRead e, List.foldl_nil, State.makeRoom,
    victim_of_fetching h hm, reduceCtorEq]
  split
  · exact h.mono (Nat.le_succ m)
  · split
    · exact h.mono (Nat.le_succ m)
    · have k := fetching_setDir h (u.unitKey x) (onlyRead_grant e holder)
      exact List.foldlRecOn (motive := fun t => Fetching s t (m + 1)) _ _ k fun t ht y _ => fetching_putHolder ht _

theorem length_dedup_le (l : List Nat) : (dedup l).length ≤ l.length := by
  induction l with
  | nil => simp [dedup]
  | cons a r ih => exact Nat.succ_le_succ (Nat.le_trans (List.length_filter_le _ _) ih)
theorem length_linesOf_le (pa n : Nat) : (linesOf pa n).length ≤ n := by
  simpa [linesOf] using length_dedup_le ((List.range n).map fun i => (pa + i) / 128)

/-- A fetch of n bytes of this module takes no more than n lines. -/
theorem fetching_ownLines (h : Fetching s u m) {pa n : Nat} (hm : m + n ≤ 16) (who : Agent) (hh : HomedHere s pa n) :
    Fetching s (u.ownLines who false pa n) (m + n) := by
  have hl := length_linesOf_le pa n
  have k := fetching_foldl (f := fun (t : State) x => t.ownLine who.holder .s x) (d := 1) (linesOf pa n) u m
    (fun x hx t j hj ht => fetching_ownLine ht hj who.holder (by rw [ht.same]; exact lineHome_of_homed hh hx)) (by omega) (by decide) h
  exact k.mono (by omega)

/-! ## The fetch of a word -/

section
variable (hc : Calm s) (h : Fetching s u m)
include hc h

theorem walksUnseen_of_fetching : u.walksUnseen = true := by
  have e := walksUnseen_of_calm hc
  simp only [State.walksUnseen, hc.classes] at e
  simp only [State.walksUnseen, h.classes]
  rw [h.same]; exact e
omit hc in
theorem classifyRaw_of_fetching (pa n : Nat) : u.classifyRaw pa n = u := by
  simp only [State.classifyRaw, h.classes, List.map_nil]; rw [← h.classes]
theorem fetchReach_of_fetching {pa n : Nat} (hm : m + n ≤ 16) (who : Agent) (hh : HomedHere s pa n) :
    Fetching s (u.fetchReach who pa n) (m + n) := by
  unfold State.fetchReach
  split
  · have settled : u.settle pa n = u := by
      rw [State.settle, forwardLines_of_none (by rw [h.same]; exact hc.partials), foldLines_of_none (by rw [h.same]; exact hc.shadows)]
    have k := fetching_ownLines h hm who hh
    have hw : ∀ x ∈ (u.ownLines who false pa n).warps, ∀ L, L < 32 → (x.2.thread L).tx = none := by rw [k.same]; exact hc.warps
    have hh : ∀ x ∈ (u.ownLines who false pa n).harts, x.2.tx = none ∧ x.2.lr = none := by rw [k.same]; exact hc.harts
    have hl : (u.ownLines who false pa n).lock = none := by rw [k.same]; exact hc.lock
    rw [settled, observe_of_none hw hh, lockInsert_of_free hl, classifyRaw_of_fetching k]
    exact k
  · exact h.mono (Nat.le_add_right m n)
omit hc in
theorem lineAway_of_fetching (hm : m < 16) (who : Agent) {x : Nat} (hx : lineHome x = s.pkg) : u.lineAway who false x = false := by
  have e := h.entry (u.unitKey x)
  have hx' : lineHome x = u.pkg := by rw [h.same]; exact hx
  simp [State.lineAway, hx', askFor, inTheWay_of_onlyRead e, e.queue, e.recalls, h.holder, State.roomWaits, victim_of_fetching h hm]
omit hc in
theorem awaits_of_fetching (hm : m < 16) (who : Agent) {pa n : Nat} (hn : 0 < n) (hh : HomedHere s pa n) :
    u.awaits who false pa n = false := by
  have e : ((linesOf pa n).any fun x => u.lineAway who false x) = false := by
    rw [List.any_eq_false]
    intro x hx
    rw [lineAway_of_fetching h hm who (lineHome_of_homed hh hx)]; exact Bool.false_ne_true
  have home : pa / 2 ^ 48 = u.pkg := by rw [h.same]; exact hh 0 hn
  simp [State.awaits, e, distant_of_home home]
theorem lockBlocks_of_fetching (hm : m < 16) (who : Agent) {pa n : Nat} (hn : 0 < n) (hh : HomedHere s pa n) :
    u.lockBlocks who false pa n = false := by
  have hl : u.lock = none := by rw [h.same]; exact hc.lock
  simp [State.lockBlocks, awaits_of_fetching h hm who hn hh, promotes_of_none h.classes, State.lockHits, hl]

end
end

section
variable {s u : State} {m k pa w : Nat} {va : W64}

theorem walkPath_congr (hr : ∀ a, u.rawW64 a = s.rawW64 a) (hp : ∀ a, u.poisoned a = s.poisoned a) (v : Nat) :
    ∀ l t, u.walkPath v l t = s.walkPath v l t
  | 0, _ => rfl
  | l + 1, t => by simp only [State.walkPath, hr, hp, walkPath_congr hr hp v l]
theorem walkFrom_congr (hr : ∀ a, u.rawW64 a = s.rawW64 a) (hp : ∀ a, u.poisoned a = s.poisoned a) (v need : Nat) :
    ∀ l t, u.walkFrom v need l t = s.walkFrom v need l t
  | 0, _ => rfl
  | l + 1, t => by simp only [State.walkFrom, hr, hp, walkFrom_congr hr hp v need l]
theorem rawW64_of_none (hs : s.shadows = []) (hp : s.partials = []) (a : Nat) : s.rawW64 a = s.getW64 a := by simp [State.rawW64, hs, hp]
/-- The state in which a fetch begins and the one after others may differ in the instruction in progress, the moves to come, and who holds which line. -/
abbrev FetchSame (s u : State) : Prop := u = { s.looked u with moves := u.moves, iss := u.iss }
theorem rawW64_of_fetchSame (hc : Calm s) (h : FetchSame s u) (a : Nat) : u.rawW64 a = s.rawW64 a := by
  rw [rawW64_of_none hc.shadows hc.partials, rawW64_of_none (by rw [h]; exact hc.shadows) (by rw [h]; exact hc.partials), h]; rfl
theorem walk_of_fetchSame (hc : Calm s) (h : FetchSame s u) (die ctx : Nat) (va : W64) (kind : AKind) : u.walk die ctx va kind = s.walk die ctx va kind := by
  have hp : ∀ a, u.poisoned a = s.poisoned a := fun a => by rw [h]; rfl
  have hroot : ∀ c, u.root c = s.root c := fun a => by rw [h]; rfl
  have htlb : u.tlb = s.tlb := by rw [h]; rfl
  simp only [State.walk, htlb, hroot, walkFrom_congr (rawW64_of_fetchSame hc h) hp]
/-- What a fetch looks at is not the instruction in progress, the moves to come, nor who holds which line. -/
theorem fetchesWord_of_same (hc : Calm s) (h : FetchSame s u) (f : FetchesWord s k va pa w) : FetchesWord u k va pa w := by
  have hp : ∀ a, u.poisoned a = s.poisoned a := fun a => by rw [h]; rfl
  have hroot : ∀ c, u.root c = s.root c := fun a => by rw [h]; rfl
  have hgrid : u.gridOf k = s.gridOf k := by rw [h]; rfl
  have hpkg : u.pkg = s.pkg := by rw [h]; rfl
  obtain ⟨canon, ⟨size, nc, walk, place, may, clean, word⟩, here, tables⟩ := f
  refine ⟨canon, ⟨size, nc, ?_, ?_, ?_, ?_, ?_⟩, ?_, ?_⟩
  · rw [walk_of_fetchSame hc h, hgrid, walk]
  · rw [← place, h]; rfl
  · rw [← may, h]; rfl
  · rw [← clean, h]; rfl
  · rw [← word, h]; rfl
  · rw [HomedHere, hpkg]; exact here
  · rw [walkPath_congr (rawW64_of_fetchSame hc h) hp, hroot, hgrid]; simp only [HomedHere, hpkg]; exact tables
end

section
variable {s u : State} {m k pa w : Nat} {va : W64}

/-! ## The fetch of a word -/

theorem wordBytes_of_aligned (ha : va.toNat % 4 = 0) (lane : Nat) :
    Span.bytes ⟨lane, va, 4⟩ = [va.toNat, va.toNat + 1, va.toNat + 2, va.toNat + 3] := by
  have := va.isLt
  simp only [Span.bytes, List.range, List.range.loop, List.map_cons, List.map_nil, List.cons.injEq, and_true]
  omega
theorem pagesOf_word (ha : va.toNat % 4 = 0) (lane : Nat) : pagesOf [⟨lane, va, 4⟩] = [va.toNat / 4096] := by
  have := va.isLt
  have e : (va.toNat + (4 - 1)) % 2 ^ 64 / 4096 = va.toNat / 4096 := by omega
  simp only [pagesOf, List.flatMap_cons, List.flatMap_nil, e]
  simp [sortNat, insertNat]
theorem lowestIn_word (ha : va.toNat % 4 = 0) (lane : Nat) : lowestIn [⟨lane, va, 4⟩] (va.toNat / 4096 * 4096) 4096 = va.toNat := by
  have e : ([va.toNat, va.toNat + 1, va.toNat + 2, va.toNat + 3].filter fun b =>
      va.toNat / 4096 * 4096 ≤ b && b < va.toNat / 4096 * 4096 + 4096) = [va.toNat, va.toNat + 1, va.toNat + 2, va.toNat + 3] := by
    rw [List.filter_eq_self]
    intro b hb
    simp only [List.mem_cons, List.not_mem_nil, or_false] at hb
    simp only [Bool.and_eq_true, decide_eq_true_eq]
    omega
  simp only [lowestIn, List.flatMap_cons, List.flatMap_nil, List.append_nil, wordBytes_of_aligned ha, e]
  simp [minOf]
/-- A walk reads the same entries for every address of a page. -/
theorem walkPath_page (v t : Nat) : ∀ l, u.walkPath (v / 4096 * 4096) l t = u.walkPath v l t := by
  intro l
  induction l generalizing t with
  | zero => rfl
  | succ l ih =>
    have e : v / 4096 * 4096 / 2 ^ (12 + 9 * l) = v / 2 ^ (12 + 9 * l) := by
      rw [Nat.pow_add, ← Nat.div_div_eq_div_mul, ← Nat.div_div_eq_div_mul]
      norm_num
    simp only [State.walkPath, e, ih]

theorem touchPages_of_fetching (hc : Calm s) (h : Fetching s u m) (kind : AKind) (ps : List Span) : u.touchPages kind ps = u := by
  simp [State.touchPages, walksUnseen_of_fetching hc h]
section
variable (h : Fetching s u m) (hm : m + 4 ≤ 16) (ha : va.toNat % 4 = 0) (f : FetchesWord u k va pa w)
include h hm ha f

theorem pagesAway_of_fetching (hk : u.iss.key = k) : u.pagesAway .fetch [⟨32, va, 4⟩] = none := by
  have hva : (BitVec.ofNat 64 (va.toNat / 4096 * 4096)).toNat = va.toNat / 4096 * 4096 := by
    have := va.isLt
    rw [BitVec.toNat_ofNat]; omega
  have hgr : u.gr = u.gridOf k := by rw [← hk]; rfl
  have here : ((u.walkPath (BitVec.ofNat 64 (va.toNat / 4096 * 4096)).toNat 5 (u.root u.gr.ctx)).find? fun a =>
      u.awaits (.thread u.iss.key 33) false a 8) = none := by
    rw [hva, walkPath_page, hgr, List.find?_eq_none]
    intro a hx
    have hx : HomedHere s a 8 := by have := f.tables a hx; rwa [h.same] at this
    rw [awaits_of_fetching h (by omega) _ (by decide) hx]; exact Bool.false_ne_true
  have away : u.walkAway (.thread u.iss.key 33) u.gr.ctx (BitVec.ofNat 64 (va.toNat / 4096 * 4096)) .fetch = none := by
    unfold State.walkAway
    split
    · rfl
    · exact here
  simp [State.pagesAway, pagesOf_word ha, away]
variable (hc : Calm s)
include hc
theorem checkPages_of_fetching (hk : u.iss.key = k) (set : Option W32) (act : W32) : u.checkPages .fetch set act [⟨32, va, 4⟩] = none := by
  have away := pagesAway_of_fetching h hm ha f hk
  obtain ⟨_, ⟨size, nc, walk, _⟩, _, _⟩ := f
  have touched := touchPages_of_fetching hc h .fetch [⟨32, va, 4⟩]
  have hgr : u.gr = u.gridOf k := by rw [← hk]; rfl
  have hcore : u.coreNum = warpCore k := by rw [← hk]; rfl
  have walks : u.walkPages (u.coreNum / 48) u.gr.ctx .fetch [⟨32, va, 4⟩] [va.toNat / 4096] = ([], .all) := by
    simp only [State.walkPages, lowestIn_word ha, BitVec.ofNat_toNat, BitVec.setWidth_eq, hgr, hcore, walk]
  simp only [State.checkPages, away, touched, pagesOf_word ha, walks, distinctPages]
/-- A word of code that can be fetched is. -/
theorem fetchWord_of_fetching (hk : u.iss.key = k) (code : (u.warp k).code = []) (win : (u.warp k).win = none) :
    u.fetchWord va = .word ((u.touchPages .fetch [⟨32, va, 4⟩]).fetchReach (.thread k 33) pa 4) w := by
  have checked := checkPages_of_fetching h hm ha f hc hk (some u.iss.set) u.iss.set
  have touched := touchPages_of_fetching hc h .fetch [⟨32, va, 4⟩]
  obtain ⟨canon, ⟨size, nc, walk, place, may, clean, word⟩, here, _⟩ := f
  have hgr : u.gr = u.gridOf k := by rw [← hk]; rfl
  have hcore : u.coreNum = warpCore k := by rw [← hk]; rfl
  have hpa : u.pa .fetch va = pa := by simp [State.pa, hgr, hcore, walk, Walk.pa]
  have lane : u.uniLane = 32 := by rw [State.uniLane, show u.lock = none by rw [h.same]; exact hc.lock]
  have hw : u.w = u.warp k := by rw [← hk]; rfl
  have hhere : HomedHere s pa 4 := by rwa [h.same] at here
  have free := lockBlocks_of_fetching hc h (by omega) (.thread k 33) (by decide : 0 < 4) hhere
  have held : u.withHeld k = u := by simp [State.withHeld, win]
  have taken := (fetchReach_of_fetching hc h hm (.thread k 33) hhere).same
  have win' : (u.fetchReach (.thread k 33) pa 4).withHeld k = u.fetchReach (.thread k 33) pa 4 := by
    have : ((u.fetchReach (.thread k 33) pa 4).warp k).win = none := by rw [taken]; rw [h.same] at win; exact win
    simp [State.withHeld, this]
  have word' : leNat ((u.fetchReach (.thread k 33) pa 4).bytesAt pa 4) = w := by rw [← word, taken, h.same]; rfl
  simp [State.fetchWord, hw, code, canon, checked, hpa, hk, lane, place, free, held, clean, touched, win', word']
end
end

/-! ## The words of an instruction -/

theorem map_fst_ok {e : Except DecodeError Instr} {n : Nat} {x : Instr × Nat} (h : e.map (·, n) = .ok x) : x.2 = n := by
  cases e with
  | error _ => cases h
  | ok _ => cases h; rfl
/-- An instruction is a word, or prefixes that ask for the next word and a word. -/
theorem words_of_decode {ws : List Nat} {i : Instr} (h : decode ws = .ok (i, ws.length)) :
    (∃ w, ws = [w] ∧ wantsMore [w] = false) ∨ (∃ v w, ws = [v, w] ∧ wantsMore [v] = true ∧ wantsMore [v, w] = false) ∨
      ∃ r v w, ws = [r, v, w] ∧ wantsMore [r] = true ∧ wantsMore [r, v] = true := by
  unfold decode at h
  split at h
  · cases h
  · next w0 r0 =>
    split at h
    · next hp =>
      have := map_fst_ok h
      obtain rfl : r0 = [] := by simpa using this
      exact .inl ⟨w0, rfl, by simpa [wantsMore] using fun a => absurd a (by simpa using hp)⟩
    · next hp =>
      have hp : isPre w0 = true := by simpa using hp
      split at h
      · cases h
      · next w1 r1 h0 =>
        split at h
        · cases h
        · next h1 =>
          have := map_fst_ok h
          obtain rfl : r1 = [] := by simpa using this
          exact .inr (.inl ⟨w0, w1, rfl, by simp [wantsMore, hp, h0], by simp [wantsMore, h0]⟩)
      · cases h
      · next w1 r1 h0 =>
        split at h
        · next h1 =>
          have h1 : isPre w1 = false := by simpa using h1
          have := map_fst_ok h
          obtain rfl : r1 = [] := by simpa using this
          exact .inr (.inl ⟨w0, w1, rfl, by simp [wantsMore, hp, h0], by simp [wantsMore, h1]⟩)
        · next h1 =>
          have h1 : isPre w1 = true := by simpa using h1
          split at h
          · cases h
          · next w2 r2 h2 =>
            split at h
            · cases h
            · have := map_fst_ok h
              obtain rfl : r2 = [] := by simpa using this
              exact .inr (.inr ⟨w0, w1, w2, rfl, by simp [wantsMore, hp, h0], by simp [wantsMore, h0, h1, h2]⟩)
          · cases h
      · cases h
theorem length_of_decode {ws : List Nat} {i : Instr} (h : decode ws = .ok (i, ws.length)) : 0 < ws.length ∧ ws.length ≤ 3 := by
  rcases words_of_decode h with ⟨w, rfl, _⟩ | ⟨v, w, rfl, _⟩ | ⟨r, v, w, rfl, _⟩ <;> simp
theorem wantsMore_take {ws : List Nat} {i : Instr} (h : decode ws = .ok (i, ws.length)) {j : Nat} (h0 : 0 < j) (hj : j < ws.length) :
    wantsMore (ws.take j) = true := by
  rcases words_of_decode h with ⟨w, rfl, _⟩ | ⟨v, w, rfl, a, _⟩ | ⟨r, v, w, rfl, a, b⟩
  · simp only [List.length_singleton] at hj; omega
  · obtain rfl : j = 1 := by simp only [List.length_cons, List.length_nil] at hj; omega
    exact a
  · obtain rfl | rfl : j = 1 ∨ j = 2 := by simp only [List.length_cons, List.length_nil] at hj; omega
    · exact a
    · exact b
theorem wantsMore_self {ws : List Nat} {i : Instr} (h : decode ws = .ok (i, ws.length)) (hl : ws.length < 3) : wantsMore ws = false := by
  rcases words_of_decode h with ⟨w, rfl, a⟩ | ⟨v, w, rfl, _, a⟩ | ⟨r, v, w, rfl, _⟩
  · exact a
  · exact a
  · simp at hl

/-- A thread of warp k fetches word j of the instruction at a PC, whose physical addresses are pas. -/
def takeWord (k : Nat) (pc : W64) (pas : List Nat) (u : State) (j : Nat) : State :=
  (u.touchPages .fetch [⟨32, pc + BitVec.ofNat 64 (4 * j), 4⟩]).fetchReach (.thread k 33) (pas.getD j 0) 4
/-- The first n words have been fetched. -/
def takeWords (s : State) (k : Nat) (pc : W64) (pas : List Nat) (n : Nat) : State := (List.range n).foldl (takeWord k pc pas) s

section
variable {s : State} {k : Nat} {pc : W64} {pas ws : List Nat}

theorem takeWords_succ (n : Nat) : takeWords s k pc pas (n + 1) = takeWord k pc pas (takeWords s k pc pas n) n := by
  simp [takeWords, List.range_succ, List.foldl_append]

theorem wordAt_aligned (ha : pc.toNat % 4 = 0) (j : Nat) : (pc + BitVec.ofNat 64 (4 * j)).toNat % 4 = 0 := by
  rw [BitVec.toNat_add, BitVec.toNat_ofNat]; omega

variable (hc : Calm s) (f : ∀ j w, ws[j]? = some w → FetchesWord s k (pc + BitVec.ofNat 64 (4 * j)) (pas.getD j 0) w)
include hc f

theorem fetching_takeWords : ∀ n, n ≤ ws.length → n ≤ 3 → Fetching s (takeWords s k pc pas n) (n * 4)
  | 0, _, _ => fetching_of_calm hc
  | n + 1, hn, h3 => by
    have h := fetching_takeWords n (by omega) (by omega)
    have hw := (f n ws[n] (by simp)).here
    rw [takeWords_succ, takeWord, touchPages_of_fetching hc h]
    rw [Nat.succ_mul]
    exact fetchReach_of_fetching hc h (by omega) _ hw
variable {i : Instr} (hd : decode ws = .ok (i, ws.length)) (ha : pc.toNat % 4 = 0) (hk : s.iss.key = k) (hpc : s.iss.pc = pc)
  (code : (s.warp k).code = []) (win : (s.warp k).win = none)
include hd ha hk hpc code win

/-- The words of an instruction are fetched one after another. -/
theorem fetchMore_takeWords : ∀ r j, j + r = 3 → j ≤ ws.length →
    State.fetchMore r (takeWords s k pc pas j) (ws.take j) = (takeWords s k pc pas ws.length, some ws)
  | 0, j, hr, hj => by
    have := (length_of_decode hd).2
    obtain rfl : j = ws.length := by omega
    simp [State.fetchMore]
  | r + 1, j, hr, hj => by
    have pos := (length_of_decode hd).1
    rcases Nat.eq_or_lt_of_le hj with rfl | hlt
    · have : ws ≠ [] := List.ne_nil_of_length_pos pos
      simp [State.fetchMore, this, wantsMore_self hd (by omega)]
    · have h := fetching_takeWords hc f j hj (by omega)
      have more : (ws.take j != [] && !wantsMore (ws.take j)) = false := by
        rcases Nat.eq_zero_or_pos j with rfl | h0
        · rfl
        · simp [wantsMore_take hd h0 hlt]
      have hs : FetchSame s (takeWords s k pc pas j) := by rw [FetchSame, h.same]; rfl
      have hf := fetchesWord_of_same hc hs (f j ws[j] (by simp))
      have word := fetchWord_of_fetching h (by omega) (wordAt_aligned ha j) hf hc (by rw [h.same]; exact hk) (by rw [h.same]; exact code)
        (by rw [h.same]; exact win)
      have hpc' : (takeWords s k pc pas j).iss.pc = pc := by rw [h.same]; exact hpc
      have next := fetchMore_takeWords r (j + 1) (by omega) hlt
      rw [takeWords_succ, takeWord] at next
      simp only [State.fetchMore, more, hpc', List.length_take, Nat.min_eq_left hj, word]
      simpa [List.take_append_getElem] using next
end

/-! ## The move of an input -/

section
variable {s : State} {m : Move} {ms : List Move}

/-- The state in which a move of the input begins. -/
def begun (s : State) (ms : List Move) : State := { s with moves := ms, iss := { s.iss with cut := 0 } }

theorem paced_of_moves (hm : s.moves = m :: ms) (r : Res) : s.paced m r = r := by
  cases m <;> simp [State.paced, hm]
theorem step_of_moves (hp : s.powered = true) (hm : s.moves = m :: ms) : step s = { s with moves := ms }.run m := by
  simp [step, State.pick, hm, hp, paced_of_moves hm]

/-- A step of the hardware has its effect. -/
theorem run_hw {i : Instr} (he : encode i = []) (hw : i.wf = true) : s.run (.hw i) = exec i { s with iss := { s.iss with cut := 0 } } := by
  have legal : (Instr.isStep i && i.wf) = true := by rw [Instr.isStep, he, hw]; rfl
  exact if_pos legal

/-! ## The issue of a warp -/

theorem stoodStill_formedBy (t : State) (k : Nat) (pc : W64) (idx : Nat) (ws : List Nat) :
    (t.formedBy k pc idx ws).stoodStill k pc idx = t.stoodStill k pc idx := by
  unfold State.formedBy
  split
  · next w hw =>
    split
    · rfl
    · simp [State.stoodStill, State.setWarp, hw]
  · rfl
theorem formedBy_of_stoodStill {t : State} {k : Nat} {pc : W64} {idx : Nat} (h : t.stoodStill k pc idx = true) (ws : List Nat) :
    t.formedBy k pc idx ws = t := by
  unfold State.formedBy
  split
  · rw [if_pos h]
  · rfl
theorem tryIssue_of_notReady {k : Nat} (h : NotReady s k) : s.tryIssue s.stalls k = .unready := by
  unfold State.tryIssue
  rcases h with hc | ⟨hm, hl, hb⟩
  · simp [hc]
  · split
    · rfl
    · simp [hm, hl, hb]
theorem quadFirst_of_notReady {before : List Nat} (h : ∀ j ∈ before, NotReady s j) (rest : List Nat) :
    State.quadFirst s.stalls (before ++ rest) s = State.quadFirst s.stalls rest s := by
  induction before with
  | nil => rfl
  | cons j r ih =>
    rw [List.cons_append, State.quadFirst, tryIssue_of_notReady (h j List.mem_cons_self)]
    exact ih fun x hx => h x (List.mem_cons_of_mem j hx)
theorem calm_begun (hc : Calm s) (ms : List Move) (iss : Iss) : Calm { begun s ms with iss := iss } :=
  ⟨hc.shadows, hc.partials, hc.lock, hc.lines, hc.warps, hc.harts, hc.classes, hc.waits⟩

end

section
variable {s : State} {ms : List Move} {k : Nat} {set elig : W32} {pc : W64} {idx : Nat} {ws pas : List Nat} {ins : Instr}

/-- A warp begins the issue of an instruction whose words it has still to fetch. -/
def issuing (s : State) (ms : List Move) (k : Nat) (set elig : W32) (pc : W64) (idx : Nat) : State :=
  { begun s ms with iss := ⟨k, set, elig, pc, pc, [], idx, 0⟩ }

theorem issueWords_of_exec {u t : State} (hu : u.iss = ⟨k, set, elig, pc, pc, [], idx, 0⟩) (hd : decode ws = .ok (ins, ws.length)) (hb : u.pendingS k = [])
    (ht : exec ins { u with iss := ⟨k, set, elig, pc, pc + BitVec.ofNat 64 (4 * (ws.length - 1)), ws, repIndex ins idx, 0⟩ } = .next t) :
    u.issueWords k ws = (t.formedBy k pc (repIndex ins idx) ws).attempted k pc (repIndex ins idx) := by
  have hf : Instr.free ins [] = true := by simp [Instr.free]
  simp only [State.issueWords, hd, hb, hf, hu, ht, Bool.not_true, Bool.false_eq_true, if_false]

variable (hc : Calm s) (hl : (begun s ms).lateEvent k = false) (hcons : (begun s ms).considers (begun s ms).stalls k = true)
  (hm : (begun s ms).mcheck k = none) (hb : (s.warp k).begins = some (set, elig, pc, idx, [])) (ha : pc.toNat % 4 = 0)
  (code : (s.warp k).code = []) (win : (s.warp k).win = none)
  (f : ∀ j w, ws[j]? = some w → FetchesWord s k (pc + BitVec.ofNat 64 (4 * j)) (pas.getD j 0) w)
  (hd : decode ws = .ok (ins, ws.length)) (hp : (begun s ms).pendingS k = [])
include hc hl hcons hm hb ha code win f hd hp

/-- The instruction of a warp that is ready is fetched, decoded and has its effect. -/
theorem tryIssue_of_exec {t : State}
    (ht : exec ins { takeWords (issuing s ms k set elig pc idx) k pc pas ws.length with
      iss := ⟨k, set, elig, pc, pc + BitVec.ofNat 64 (4 * (ws.length - 1)), ws, repIndex ins idx, 0⟩ } = .next t) :
    (begun s ms).tryIssue (begun s ms).stalls k = (t.formedBy k pc (repIndex ins idx) ws).attempted k pc (repIndex ins idx) := by
  have hc' : Calm (issuing s ms k set elig pc idx) := calm_begun hc ms _
  have f' : ∀ j w, ws[j]? = some w → FetchesWord (issuing s ms k set elig pc idx) k (pc + BitVec.ofNat 64 (4 * j)) (pas.getD j 0) w :=
    fun j w hj => fetchesWord_of_same hc rfl (f j w hj)
  have taken := (fetching_takeWords hc' f' ws.length (Nat.le_refl _) (length_of_decode hd).2).same
  have more := fetchMore_takeWords hc' f' hd ha rfl rfl code win 3 0 rfl (Nat.zero_le _)
  have hb' : ((begun s ms).warp k).begins = some (set, elig, pc, idx, []) := hb
  rw [← issueWords_of_exec (by rw [taken]; rfl) hd (by rw [taken]; exact hp) ht]
  rw [List.take_zero] at more
  simp only [State.tryIssue, hcons, hm, hl, hb']
  show (match State.fetchMore 3 (takeWords (issuing s ms k set elig pc idx) k pc pas 0) [] with
    | (s2, none) => s2.attempted k pc idx
    | (s2, some ws') => s2.issueWords k ws') = _
  rw [more]
end

/-! ## Harts -/

section
variable {s : State} {h : Nat} {va : W64} {a b : Nat}

theorem hartHalf_of_fetches (f : FetchesHalf s h va a) : s.hartHalf h va = .word a := by
  obtain ⟨ps, access, pieces, clean, word⟩ := f
  have may : s.hartMay h ps .load = true := List.all_eq_true.mpr fun x hx => (pieces x hx).2
  have device : (ps.any fun p => s.place p.pa != .device) = false :=
    List.any_eq_false.mpr fun x hx => by simp [(pieces x hx).1]
  have whole : s.hartPoison h ps = false := by
    refine List.any_eq_false.mpr fun x hx => ?_
    obtain ⟨p, hp, hx⟩ := List.mem_flatMap.mp hx
    obtain ⟨i, hi, rfl⟩ := List.mem_map.mp hx
    simp [clean p hp i (List.mem_range.mp hi)]
  simp only [State.hartHalf, access, may, device, whole, Bool.not_true, Bool.or_self, Bool.false_eq_true, if_false]
  exact congrArg HFetch.word word
/-- A dx word is a word of four bytes (R47). -/
theorem low_of_decodeHost {i : Instr} (hd : decodeHost (a + b * 2 ^ 16) = some i) : a % 4 = 3 := by
  unfold decodeHost at hd
  split at hd
  · cases hd
  · next hw =>
    have : (a + b * 2 ^ 16) / 2 ^ 0 % 2 ^ 7 = 0x0B := by simpa [fld] using hw
    omega
theorem hartStep_of_fetches {s1 s2 : State} {ins : Instr} (runs : s.hartRuns h = true) (none_ : (s.hart h).interrupt = none)
    (reach1 : s.hartReach h (s.hart h).pc = .inr s1) (reach2 : s1.hartReach h ((s.hart h).pc + 2) = .inr s2) (e1 : s1.hart h = s.hart h)
    (e2 : s2.hart h = s.hart h) (f1 : FetchesHalf s1 h (s.hart h).pc a) (f2 : FetchesHalf s2 h (s.hart h).pc a)
    (f3 : FetchesHalf s2 h ((s.hart h).pc + 2) b) (hd : decodeHost (a + b * 2 ^ 16) = some ins) :
    s.hartStep h = exec ins { s2 with iss := ⟨h, 0, 0, (s.hart h).pc, (s.hart h).pc, [a + b * 2 ^ 16], 0, 0⟩ } := by
  have low := low_of_decodeHost hd
  have all : s.hartReachAll h = .inr s2 := by
    simp only [State.hartReachAll, reach1, e1, hartHalf_of_fetches f1, low, if_true, reach2]
  have fetch : s2.hartFetch h = .word (a + b * 2 ^ 16) := by
    simp only [State.hartFetch, e2, hartHalf_of_fetches f2, hartHalf_of_fetches f3, low, bne_self_eq_false, Bool.false_eq_true, if_false]
  simp only [State.hartStep, runs, none_, all, fetch, hd, e2, Bool.not_true, Bool.false_eq_true, Option.isSome_none, if_false]
end

/-! ## Clocks -/

section
variable (s : State) (n : Nat)

theorem pass_cycles : (s.pass n).cycles = (s.cycles + n) % 2 ^ 64 := by
  unfold State.pass
  dsimp only
theorem pass_mem : (s.pass n).mem = s.mem := by
  unfold State.pass
  rfl
theorem latch_cycles : s.latch.cycles = s.cycles := by
  unfold State.latch
  split
  · split <;> rfl
  · rfl
theorem latch_mem : s.latch.mem = s.mem := by
  unfold State.latch
  split
  · split <;> rfl
  · rfl
theorem elapse_cycles : (s.elapse n).cycles = (s.cycles + n) % 2 ^ 64 := by
  unfold State.elapse
  split
  · next j _ =>
    split
    · rw [pass_cycles, latch_cycles, pass_cycles]; omega
    · exact pass_cycles s n
  · exact pass_cycles s n
theorem elapse_mem : (s.elapse n).mem = s.mem := by
  unfold State.elapse
  split
  · split
    · rw [pass_mem, latch_mem, pass_mem]
    · exact pass_mem s n
  · exact pass_mem s n
end

/-! ## The obligation -/

theorem isStart_iff (m : Move) : m.isStart = true ↔ m = .hw (.moduleStart 0) := by
  unfold Move.isStart
  split
  · simp
  · next h => exact ⟨nofun, fun e => absurd e (h 0)⟩

section
variable {s : State} {ms : List Move}
theorem step_unpowered {m : Move} (hp : s.powered = false) (hm : s.moves = m :: ms) :
    step s = if m.isStart then { s with moves := ms }.run m else .fault .unpowered := by
  simp [step, State.pick, hm, hp, paced_of_moves hm]
end

/-- Settles O55: the fetches of a warp take at most twelve lines, and only for reading, so none of them stops the next; what is fetched decodes,
and has its effect. -/
theorem stepRunsTheNextInstruction : Obligations.StepRunsTheNextInstruction := by
  intro s ms s0
  refine ⟨fun power => ⟨?_, ?_, ?_, ?_⟩, fun off => ⟨?_, ?_⟩⟩
  · intro c i ins ws set elig pc idx hmoves k n before after pas order notReady _ at_ s1 hc late cons mc begins ha code win f hd hp idx' t ht
    have tried := tryIssue_of_exec hc late cons mc begins ha code win f hd hp ht
    have ran : step s = (State.quadFirst s0.stalls (s0.quadOrder c (i % 64 / 16)) s0).out s0 := step_of_moves power hmoves
    rw [ran, order, quadFirst_of_notReady notReady, State.quadFirst, show s0.tryIssue s0.stalls k = _ from tried, State.attempted, stoodStill_formedBy]
    by_cases still : t.stoodStill k pc (repIndex ins idx) = true
    · rw [if_pos still, formedBy_of_stoodStill still, if_pos still]
    · rw [if_neg still, if_neg still]
      rfl
  · intro h a b ins s1 s2 hmoves runs none_ pc reach1 reach2 e1 e2 f1 f2 f3 hd
    rw [step_of_moves power hmoves]
    exact hartStep_of_fetches (s := s0) runs none_ reach1 reach2 e1 e2 f1 f2 f3 hd
  · intro ins hmoves he hw
    rw [step_of_moves power hmoves]
    exact run_hw he hw
  · intro n hmoves
    rw [step_of_moves power hmoves]
    exact ⟨s0.elapse n, rfl, elapse_cycles s0 n, fun a => by rw [elapse_mem]⟩
  · intro hmoves
    rw [step_unpowered off hmoves, (isStart_iff _).mpr rfl, if_pos rfl]
    exact run_hw (s := { s with moves := ms }) rfl rfl
  · intro m hmoves hm
    rw [step_unpowered off hmoves, if_neg (fun h => hm ((isStart_iff m).mp h))]

end Sys2Proof.Proofs
end

section
/-! # What has completed -/

namespace Sys2Proof.Proofs

open Machine Laws

/-! ## A commit whose lines fill a set of the directory

R234 performs a commit at one instant. The model takes its lines one after the other: the seventeenth line of a set (R367) takes the entry of the first,
and the recall of that line (R368) finds the hart's own transaction in the way and aborts it in the middle of its commit. Which lines share a set is a hash
that the manual does not give, so the seventeen are found by counting. -/

/-- Of 12,289 lines, more than sixteen for each of the 768 sets of a directory, seventeen share a set. -/
theorem seventeen_in_one_set : ∃ ls : List Nat, ls.length = 17 ∧ ls.Nodup ∧ (∀ l ∈ ls, l < 12289) ∧
    ∀ l ∈ ls, ∀ k ∈ ls, Config.dirSet l = Config.dirSet k := by
  obtain ⟨set, full⟩ := Fintype.exists_lt_card_fiber_of_mul_lt_card (fun x : Fin 12289 => Config.dirSet x.1) (n := 16) (by simp)
  obtain ⟨t, sub, card⟩ := Finset.exists_subset_card_eq full
  have inSet : ∀ x ∈ t, Config.dirSet x.1 = set := fun x hx => by simpa using sub hx
  refine ⟨t.toList.map (·.1), by simp [card], ?_, ?_, ?_⟩
  · exact (Finset.nodup_toList t).map Fin.val_injective
  · intro l hl
    obtain ⟨x, -, rfl⟩ := List.mem_map.mp hl
    exact x.2
  · intro l hl k hk
    obtain ⟨x, hx, rfl⟩ := List.mem_map.mp hl
    obtain ⟨y, hy, rfl⟩ := List.mem_map.mp hk
    rw [inSet x (Finset.mem_toList.mp hx), inSet y (Finset.mem_toList.mp hy)]

/-- Hart 0 in a transaction that has written a byte of each line and that aborts to address 100. -/
def committer (ls : List Nat) : Hart :=
  { Hart.reset with tx := some ⟨[], ls.map fun l => (lineAddr l, 0), 100, 0⟩, commit := true }
/-- It stands at its dx.tend at address 0, and its commit is the next that is served. -/
def committing (ls : List Nat) : State := { State.reset with harts := [(0, committer ls)], commits := [(0, .hart 0)] }

/-- The commit has taken lines: the module is as it was but for bytes and for the directory, whose entries give the lines to the hart's die. -/
structure Took (h : Hart) (done : List Nat) (u : State) : Prop where
  harts : u.harts = [(0, h)]
  warps : u.warps = []
  shadows : u.shadows = []
  partials : u.partials = []
  classes : u.classes = []
  objects : u.objects = []
  pkg : u.pkg = 0
  windows : u.dxrw = Vector.replicate 16 0x100
  entries : ∀ x, tget? u.dir x = if x ∈ done then some ⟨some (.owned 24), [], [], []⟩ else none
  order : u.dirOrder = done
  count : u.dir.length = done.length

section
variable {h : Hart} {done : List Nat} {u : State} {l : Nat}

theorem length_tput_new {α : Type} {t : Tab α} {k : Nat} (hk : tget? t k = none) (a : α) : (tput t k a).length = t.length + 1 := by
  induction t with
  | nil => rfl
  | cons x r ih =>
    obtain ⟨i, b⟩ := x
    simp only [tget?] at hk
    split at hk
    · cases hk
    · next ne =>
      simp only [tput]
      split
      · rfl
      · rw [if_neg (fun e => ne e.symm), List.length_cons, ih hk]; rfl

theorem dirEntry_of_took (t : Took h done u) {v : Nat} (mem : v ∈ done) : u.dirEntry v = ⟨some (.owned 24), [], [], []⟩ := by
  rw [State.dirEntry, tget, t.entries, if_pos mem]; rfl
theorem dirEntry_of_new (t : Took h done u) (new : l ∉ done) : u.dirEntry l = DirEntry.none := by
  rw [State.dirEntry, tget, t.entries, if_neg new]; rfl
theorem homeDie_of_low (hl : l < 12289) : homeDie (lineAddr l) = 0 := by
  have e : lineAddr l % 2 ^ 48 = lineAddr l := Nat.mod_eq_of_lt (by unfold lineAddr; omega)
  simp only [homeDie, e]
  rw [if_pos (by unfold lineAddr; omega)]
  unfold lineAddr; omega
theorem linesOf_byte (l : Nat) : linesOf (lineAddr l) 1 = [l] := by simp [linesOf, lineAddr, dedup]
theorem unitOf_of_took (t : Took h done u) (l : Nat) : u.unitOf l = [l] := by simp [State.unitOf, t.objects]
theorem inOwnWindow_of_took (t : Took h done u) (pa : Nat) : u.inOwnWindow u.pkg pa = false := by
  have off : ∀ n ∈ List.range 16, u.inWindow n pa = false := by
    intro n hn
    have : bbit (vget 0 (Vector.replicate 16 (0x100 : W64)) n) 0 = false := by
      have : n < 16 := List.mem_range.mp hn
      revert n; decide
    simp only [State.inWindow, t.windows, this, Bool.false_and]
  rw [State.inOwnWindow, List.find?_eq_none.mpr fun n hn => by simp [off n hn]]

/-- The home has made room, and its entry gives the line to die 24. -/
def granted (m : State) (l : Nat) : State :=
  let d := m.setDir l { (m.dirEntry l).grant 24 .m with unacked := (m.dirEntry l).unacked }
  { d with holders := tput d.holders (holderKey 24 l) .m }
/-- A hart takes a line that it does not hold. -/
theorem ownLines_of_took (t : Took h done u) (hl : l < 12289) (new : l ∉ done) (room : (u.makeRoom l).objects = []) :
    u.ownLines (.hart 0) true (lineAddr l) 1 = granted (u.makeRoom l) l := by
  have home : lineHome l = u.pkg := by rw [t.pkg]; unfold lineHome; omega
  have key : u.unitKey l = l := by rw [State.unitKey, unitOf_of_took t]; rfl
  have e : u.dirEntry l = DirEntry.none := dirEntry_of_new t new
  have unit : (u.makeRoom l).unitOf l = [l] := by simp [State.unitOf, room]
  have die : Agent.holder (.hart 0) = 24 := rfl
  have away : (decide (24 = 31) || decide (24 = homeDie (lineAddr l)) || u.inOwnWindow u.pkg (lineAddr l)) = false := by
    rw [homeDie_of_low hl, inOwnWindow_of_took t]; rfl
  have other : ∀ w, (DirEntry.none.has 24 w) = false := fun w => by cases w <;> rfl
  have free : ∀ w, (DirEntry.none.inTheWay 24 w) = [] := fun w => by cases w <;> rfl
  simp only [State.ownLines, linesOf_byte, List.foldl_cons, List.foldl_nil, State.ownLine, die, home, key, e, bne_self_eq_false, Bool.false_eq_true,
    if_false, other, free, away, unit]
  rfl
/-- The recall of a line that the hart's die holds: the hart's transaction conflicts with it. -/
theorem recallOwn_of_took (t : Took h done u) {v : Nat} (mem : v ∈ done) :
    u.recallOwn v 24 = { u.setDir v DirEntry.none with harts := [(0, h.observe true [v])], holders := tdel u.holders (holderKey 24 v) } := by
  have e : u.dirEntry v = ⟨some (.owned 24), [], [], []⟩ := dirEntry_of_took t mem
  have acts : u.recallActs 24 v = { u with harts := [(0, h.observe true [v])] } := by
    have same : ({ u with classes := [], harts := [(0, h.observe true [v])] } : State) = { u with harts := [(0, h.observe true [v])] } := by
      rw [← t.classes]
    rw [← same]
    have die : Agent.holder (.hart 0) = 24 := rfl
    simp only [State.recallActs, foldLine_of_none t.shadows, t.classes, List.map_nil, List.map_cons, t.harts, die, Nat.le_refl, if_true]
  have e' : ({ u with harts := [(0, h.observe true [v])], holders := tdel u.holders (holderKey 24 v) } : State).dirEntry v =
      ⟨some (.owned 24), [], [], []⟩ := e
  simp only [State.recallOwn, unitOf_of_took t, List.foldl_cons, List.foldl_nil, acts, e']
  rfl
/-- The directory gives up the entry of a line that the hart's die holds. -/
theorem makeRoom_of_full (t : Took h done u) {v : Nat} (hv : u.victim l = some v) (mem : v ∈ done) :
    u.makeRoom l = { u.setDir v DirEntry.none with harts := [(0, h.observe true [v])], holders := tdel u.holders (holderKey 24 v) } := by
  have e : u.dirEntry v = ⟨some (.owned 24), [], [], []⟩ := dirEntry_of_took t mem
  have home : u.takeHome v = u.recallOwn v 24 := by simp [State.takeHome, e, DirEntry.held]
  have gone : (u.recallOwn v 24).dirEntry v = DirEntry.none := by
    rw [recallOwn_of_took t mem]
    exact (dirEntry_setDir u v v DirEntry.none).trans (if_pos rfl)
  have asked : (u.recallOwn v 24).askBack v = u.recallOwn v 24 := by simp [State.askBack, gone, DirEntry.held, DirEntry.none]
  rw [State.makeRoom, hv]
  exact (congrArg (State.askBack · v) home).trans (asked.trans (recallOwn_of_took t mem))

/-- A byte of the commit is written when its line has been taken. -/
theorem commitByte_of_took (t : Took h done u) (b : Byte) : u.commitByte (.hart 0) (lineAddr l) b =
    ((u.ownLines (.hart 0) true (lineAddr l) 1).observe (.hart 0) true (lineAddr l) 1).putBytes (lineAddr l) [b] := by
  rw [State.commitByte, State.settle, forwardLines_of_none t.partials, foldLines_of_none t.shadows]
theorem observe_own {m : State} (hw : m.warps = []) (hh : m.harts = [(0, h)]) (pa n : Nat) : m.observe (.hart 0) true pa n = m := by
  have e : ({ m with harts := [(0, h)], warps := [] } : State) = m := by rw [← hw, ← hh]
  simp only [State.observe, hw, hh, if_true, List.map_cons, List.map_nil]
  exact e

/-- While the set has room a line is added to those that the hart's die holds. -/
theorem took_granted (t : Took h done u) (new : l ∉ done) : Took h (done ++ [l]) (granted u l) := by
  have e : u.dirEntry l = DirEntry.none := dirEntry_of_new t new
  have fresh : tget? u.dir l = none := by rw [t.entries, if_neg new]
  have set_ : u.setDir l { (u.dirEntry l).grant 24 .m with unacked := (u.dirEntry l).unacked } =
      { u with dir := tput u.dir l ⟨some (.owned 24), [], [], []⟩, dirOrder := u.dirOrder.filter (· != l) ++ [l] } := by
    rw [e, State.setDir]; exact if_neg nofun
  refine ⟨?_, ?_, ?_, ?_, ?_, ?_, ?_, ?_, fun x => ?_, ?_, ?_⟩
  all_goals simp only [granted, set_]
  · exact t.harts
  · exact t.warps
  · exact t.shadows
  · exact t.partials
  · exact t.classes
  · exact t.objects
  · exact t.pkg
  · exact t.windows
  · rw [tget?_tput]
    by_cases hx : x = l
    · simp [hx]
    · simp [hx, t.entries x]
  · rw [t.order, List.filter_eq_self.mpr fun x hx => by simpa using fun e : x = l => new (e ▸ hx)]
  · rw [length_tput_new fresh, t.count, List.length_append]; rfl
theorem took_putBytes (t : Took h done u) (pa : Nat) (bs : List Byte) : Took h done (u.putBytes pa bs) :=
  ⟨t.harts, t.warps, t.shadows, t.partials, t.classes, t.objects, t.pkg, t.windows, t.entries, t.order, t.count⟩
/-- While the set has room the commit goes on. -/
theorem took_commitByte (t : Took h done u) (hl : l < 12289) (new : l ∉ done) (room : done.length < 16) (b : Byte) :
    Took h (done ++ [l]) (u.commitByte (.hart 0) (lineAddr l) b) := by
  have none_ : u.makeRoom l = u := by simp [State.makeRoom, State.victim, t.count, room]
  have took : u.ownLines (.hart 0) true (lineAddr l) 1 = granted u l := by
    have := ownLines_of_took t hl new (by rw [none_]; exact t.objects)
    rwa [none_] at this
  have t' := took_granted t new
  rw [commitByte_of_took t, took, observe_own t'.warps t'.harts]
  exact took_putBytes t' _ _
theorem took_commitBytes : ∀ (rest done : List Nat) (u : State), (done ++ rest).Nodup → (done ++ rest).length ≤ 16 → (∀ l ∈ rest, l < 12289) →
    Took h done u → Took h (done ++ rest) ((rest.map fun l => (lineAddr l, (0 : Byte))).foldl (fun u c => u.commitByte (.hart 0) c.1 c.2) u)
  | [], done, u, _, _, _, t => by simpa using t
  | l :: rest, done, u, once, few, low, t => by
    have new : l ∉ done := fun hl => List.disjoint_of_nodup_append once hl List.mem_cons_self
    rw [List.length_append, List.length_cons] at few
    have t' := took_commitByte t (low l List.mem_cons_self) new (by omega) 0
    have := took_commitBytes rest (done ++ [l]) _ (by simpa using once) (by simp; omega) (fun x hx => low x (List.mem_cons_of_mem l hx)) t'
    simpa using this
/-- A set that is full gives up the line that was taken first. -/
theorem victim_of_full {v : Nat} {r : List Nat} (t : Took h (v :: r) u) (full : (v :: r).length = 16) (new : l ∉ v :: r) (hl : l < 12289)
    (low : ∀ x ∈ v :: r, x < 12289) (set : ∀ x ∈ v :: r, Config.dirSet x = Config.dirSet l) : u.victim l = some v := by
  have all : (u.dirOrder.filter fun x =>
      x != l && homeDie (lineAddr x) = homeDie (lineAddr l) && Config.dirSet x = Config.dirSet l && (u.dirEntry x).state.isSome) = v :: r := by
    rw [t.order, List.filter_eq_self]
    intro x hx
    have ne : x ≠ l := fun e => new (e ▸ hx)
    simp [ne, homeDie_of_low (low x hx), homeDie_of_low hl, set x hx, dirEntry_of_took t hx]
  have free : (u.dirEntry l).state = none := by rw [dirEntry_of_new t new]; rfl
  simp only [State.victim, t.count, full, free, all]
  rfl
/-- The line after sixteen of a set: its byte is written, and the transaction of the hart that commits has aborted. -/
theorem harts_commitByte_of_full {v : Nat} {r : List Nat} (t : Took h (v :: r) u) (full : (v :: r).length = 16) (new : l ∉ v :: r) (hl : l < 12289)
    (low : ∀ x ∈ v :: r, x < 12289) (set : ∀ x ∈ v :: r, Config.dirSet x = Config.dirSet l) (b : Byte) :
    (u.commitByte (.hart 0) (lineAddr l) b).harts = [(0, h.observe true [v])] := by
  have room := makeRoom_of_full t (victim_of_full t full new hl low set) List.mem_cons_self
  have cut : u.setDir v DirEntry.none = { u with dir := tdel u.dir v, dirOrder := u.dirOrder.filter (· != v) } := by
    rw [State.setDir]; exact if_pos rfl
  rw [cut] at room
  have took := ownLines_of_took t hl new (by rw [room]; exact t.objects)
  have harts : (granted (u.makeRoom l) l).harts = [(0, h.observe true [v])] := by
    rw [room]; simp only [granted, State.setDir]; split <;> rfl
  have warps : (granted (u.makeRoom l) l).warps = [] := by
    rw [room]; simp only [granted, State.setDir]; split <;> exact t.warps
  rw [commitByte_of_took t, took, observe_own warps harts]
  exact harts
end

/-- The recall of a line that the transaction has written aborts it. -/
theorem pc_observe_committer (v : Nat) (r : List Nat) : ((committer (v :: r)).observe true [v]).pc = 100 := by
  have hit : HostTx.conflicts ⟨[], (v :: r).map fun l => (lineAddr l, 0), 100, 0⟩ true [v] = true := by simp [HostTx.conflicts, lineAddr]
  simp only [Hart.observe, committer, hit, if_true]
  rfl
/-- A commit of seventeen lines of a set: the hart goes on after the address of its abort. -/
theorem pc_of_committing {v l : Nat} {r : List Nat} (len : (v :: r).length = 16) (once : (v :: r ++ [l]).Nodup) (low : ∀ x ∈ v :: r ++ [l], x < 12289)
    (set : ∀ x ∈ v :: r, Config.dirSet x = Config.dirSet l) : (((committing (v :: r ++ [l])).commitHart 0).hart 0).pc = 104 := by
  have start : Took (committer (v :: r ++ [l])) [] (committing (v :: r ++ [l])) :=
    ⟨rfl, rfl, rfl, rfl, rfl, rfl, rfl, rfl, fun _ => by simp; rfl, rfl, rfl⟩
  have new : l ∉ v :: r := fun hl => List.disjoint_of_nodup_append once hl List.mem_cons_self
  have most := took_commitBytes (v :: r) [] _ (List.Nodup.of_append_left once) (by simp at len ⊢; omega)
    (fun x hx => low x (List.mem_append_left _ hx)) start
  have last := harts_commitByte_of_full most len new (low l (by simp)) (fun x hx => low x (List.mem_append_left _ hx)) set 0
  have commit : (committing (v :: r ++ [l])).commitHart 0 = State.modHart
      ((((v :: r) ++ [l]).map fun l => (lineAddr l, (0 : Byte))).foldl (fun u c => u.commitByte (.hart 0) c.1 c.2) (committing (v :: r ++ [l]))) 0
      fun y => { y with tx := none, commit := false, pc := y.pc + 4, minstret := y.minstret + 1 } := rfl
  have aborted := pc_observe_committer v (r ++ [l])
  rw [commit, List.map_append, List.foldl_append]
  simp only [State.hart, tget, State.modHart, tget?_tput_self, Option.getD_some, List.map_cons, List.map_nil, List.foldl_cons, List.foldl_nil] at last ⊢
  rw [last]
  exact congrArg (· + 4) aborted
/-- The commit of a hart that holds no line waits for none. -/
theorem commitAway_committing (ls : List Nat) (low : ∀ x ∈ ls, x < 12289) : (committing ls).commitAway (.hart 0) = false := by
  have hand : AtHand (committing ls) := atHand_of_noCopies ⟨rfl, rfl⟩
  have lines : (committing ls).commitLines (.hart 0) = [(.hart 0, [], ls.map lineAddr)] := by
    simp [State.commitLines, committing, committer, State.hart, tget, tget?]
  have near : ∀ a ∈ ls.map lineAddr, (committing ls).awaits (.hart 0) true a 1 = false := by
    intro a ha
    obtain ⟨l, hl, rfl⟩ := List.mem_map.mp ha
    refine awaits_of_atHand hand _ _ (by decide) fun i hi => ?_
    have := low l hl
    show (lineAddr l + i) / 2 ^ 48 = 0
    unfold lineAddr; omega
  simp only [State.commitAway, lines, List.any_cons, List.any_nil, List.any_eq_false.mpr fun a ha => Bool.eq_false_iff.mp (near a ha)]
  rfl
/-- Refutes O45: a hart commits seventeen lines that lie in one set of the directory, as R226 lets it. The entry of the last takes the place of the first's,
whose recall aborts the transaction, and the hart does not go on after its dx.tend. -/
theorem not_releaseStepsEndAndReleaseWhatHasCompleted : ¬ Obligations.ReleaseStepsEndAndReleaseWhatHasCompleted := by
  intro ⟨_, _, served, _⟩
  obtain ⟨ls, len, once, low, set⟩ := seventeen_in_one_set
  obtain ⟨most, l, rfl⟩ := List.eq_nil_or_concat' ls |>.resolve_left (by rintro rfl; cases len)
  obtain ⟨v, r, rfl⟩ := List.exists_cons_of_length_pos (l := most) (by simp at len; omega)
  have homed : ∀ b ∈ (v :: r ++ [l]).map fun l => (lineAddr l, (0 : Byte)), HomedHere (committing (v :: r ++ [l])) b.1 1 := by
    intro b hb i hi
    obtain ⟨x, hx, rfl⟩ := List.mem_map.mp hb
    have := low x hx
    show (lineAddr x + i) / 2 ^ 48 = 0
    unfold lineAddr; omega
  obtain ⟨t, ran, -, -, -, went⟩ := (served (committing (v :: r ++ [l]))).1 0 [] 0 _ rfl rfl rfl rfl ⟨rfl, rfl, rfl, rfl⟩ homed
  have turned : (committing (v :: r ++ [l])).ticketServe =
      if (committing (v :: r ++ [l])).commitAway (.hart 0) then (committing (v :: r ++ [l])).commitSeek (.hart 0)
      else { (committing (v :: r ++ [l])).commitHart 0 with commits := [], served := 1 } := rfl
  have pc : (t.hart 0).pc = 104 := by
    obtain rfl : (committing (v :: r ++ [l])).ticketServe = t := Host.Outcome.next.inj ran
    rw [turned, commitAway_committing _ low]
    exact pc_of_committing (by simpa using len) once low fun x hx => set x (List.mem_append_left _ hx) l (by simp)
  rw [went] at pc
  exact absurd (show (0 : W64) + 4 = 104 from pc) (by decide)

end Sys2Proof.Proofs
end

section
/-! # Codes, fields and prefix words -/

namespace Sys2Proof.Proofs

open Machine Laws

/-! ## Codes

A code that a field holds names the value whose code it is. -/

theorem intTy_ofCode_code (t : IntTy) : IntTy.ofCode t.code = t := by cases t <;> rfl
theorem fpTy_ofCode_code (t : FpTy) : FpTy.ofCode t.code = some t := by cases t <;> rfl
theorem cvtTy_ofCode_code (t : CvtTy) : CvtTy.ofCode t.code = some t := by
  cases t with
  | int t => cases t <;> rfl
  | _ => rfl
theorem blockTy_ofCode_code (t : BlockTy) : BlockTy.ofCode t.code = some t := by cases t <;> rfl
theorem scope_ofCode_code (c : Scope) : Scope.ofCode c.code = some c := by cases c <;> rfl
theorem hint_ofCode_code (h : Hint) : Hint.ofCode h.code = h := by cases h <;> rfl
theorem rndOfCode_rndCode (r : Option Rnd) : rndOfCode (rndCode r) = some r := by
  cases r with
  | none => rfl
  | some r => cases r <;> rfl
theorem funFn_ofCode_code (f : FunFn) : FunFn.ofCode f.code = some f := by cases f <;> rfl
theorem bitFn_ofCode_code (f : Option BitFn) : BitFn.ofCode (BitFn.code f) = f := by
  cases f with
  | none => rfl
  | some f => cases f <;> rfl
theorem shfFn_ofCode_code (f : ShfFn) : ShfFn.ofCode f.code = some f := by cases f <;> rfl
theorem conv_ofCode_code (c : Conv) : Conv.ofCode c.code = some c := by cases c <;> rfl
theorem level_ofCode_code (l : Level) : Level.ofCode l.code = l := by cases l <;> rfl
theorem level_count_le (l : Level) : l.count ≤ 16 := by cases l <;> decide
theorem qclass_ofCode_code (c : QClass) : QClass.ofCode c.code = c := by cases c <;> rfl
theorem redOp_ofCodes_codes {o : RedOp} (h : o.wf = true) : RedOp.ofCodes o.fn o.ty = some o := by
  rcases o with ⟨f, t⟩ | ⟨f, b⟩
  · cases f <;> simp only [RedOp.ofCodes, RedOp.fn, RedOp.ty, IntFn.code, IntFn.ofCode, intTy_ofCode_code] <;> exact if_pos h
  · cases f <;> cases b <;> rfl
theorem atomOp_ofCodes_codes {o : AtomOp} (h : o.wf = true) : AtomOp.ofCodes o.fn o.ty = some o := by
  rcases o with ⟨f, t⟩ | t | t | ⟨f, t⟩
  · cases f <;> simp only [AtomOp.ofCodes, AtomOp.fn, AtomOp.ty, IntFn.code, IntFn.ofCode, intTy_ofCode_code] <;> exact if_pos h
  · simp only [AtomOp.ofCodes, AtomOp.fn, AtomOp.ty, IntFn.ofCode, intTy_ofCode_code]; exact if_pos h
  · simp only [AtomOp.ofCodes, AtomOp.fn, AtomOp.ty, IntFn.ofCode, intTy_ofCode_code]; exact if_pos h
  · cases f <;> cases t <;> rfl

theorem fpTy_code_of {n : Nat} {t : FpTy} (h : FpTy.ofCode n = some t) : t.code = n := by
  unfold FpTy.ofCode at h; split at h <;> cases h <;> rfl
theorem blockTy_code_of {n : Nat} {t : BlockTy} (h : BlockTy.ofCode n = some t) : t.code = n := by
  unfold BlockTy.ofCode at h; split at h <;> cases h <;> rfl
theorem scope_code_of {n : Nat} {c : Scope} (h : Scope.ofCode n = some c) : c.code = n := by
  unfold Scope.ofCode at h; split at h <;> cases h <;> rfl
theorem rndCode_of {n : Nat} {r : Option Rnd} (h : rndOfCode n = some r) : rndCode r = n := by
  unfold rndOfCode at h; split at h <;> cases h <;> rfl
theorem intFn_code_of {n : Nat} {f : IntFn} (h : IntFn.ofCode n = some f) : f.code = n := by
  unfold IntFn.ofCode at h; split at h <;> cases h <;> rfl
theorem fltFn_code_of {n : Nat} {f : FltFn} (h : FltFn.ofCode n = some f) : f.code = n := by
  unfold FltFn.ofCode at h; split at h <;> cases h <;> rfl
theorem atomFp_code_of {n : Nat} {t : AtomFp} (h : AtomFp.ofCode n = some t) : t.code = n := by
  unfold AtomFp.ofCode at h; split at h <;> cases h <;> rfl
theorem funFn_code_of {n : Nat} {f : FunFn} (h : FunFn.ofCode n = some f) : f.code = n := by
  unfold FunFn.ofCode at h; split at h <;> cases h <;> rfl
theorem shfFn_code_of {n : Nat} {f : ShfFn} (h : ShfFn.ofCode n = some f) : f.code = n := by
  unfold ShfFn.ofCode at h; split at h <;> cases h <;> rfl
theorem conv_code_of {n : Nat} {c : Conv} (h : Conv.ofCode n = some c) : c.code = n := by
  unfold Conv.ofCode at h; split at h <;> cases h <;> rfl
theorem intTy_code_ofCode {n : Nat} (h : n < 8) : (IntTy.ofCode n).code = n := by interval_cases n <;> rfl
theorem hint_code_ofCode {n : Nat} (h : n < 4) : (Hint.ofCode n).code = n := by interval_cases n <;> rfl
theorem level_code_ofCode {n : Nat} (h : n < 4) : (Level.ofCode n).code = n := by interval_cases n <;> rfl
theorem qclass_code_ofCode {n : Nat} (h : n < 4) : (QClass.ofCode n).code = n := by interval_cases n <;> rfl
theorem bitFn_code_ofCode {n : Nat} (h : n < 8) : BitFn.code (BitFn.ofCode n) = n := by interval_cases n <;> rfl
theorem cvtTy_code_of {n : Nat} {t : CvtTy} (h : CvtTy.ofCode n = some t) : t.code = n := by
  unfold CvtTy.ofCode at h
  split at h
  · next small => cases h; exact intTy_code_ofCode small
  · split at h <;> cases h <;> rfl
theorem redOp_codes_of {fn ty : Nat} {o : RedOp} (hty : ty < 8) (h : RedOp.ofCodes fn ty = some o) : o.fn = fn ∧ o.ty = ty ∧ o.wf = true := by
  unfold RedOp.ofCodes at h
  split at h
  · next f hf =>
    split at h
    · next wide => cases h; exact ⟨intFn_code_of hf, intTy_code_ofCode hty, wide⟩
    · cases h
  · split at h
    · next f hf =>
      split at h
      · next hz => cases h; exact ⟨fltFn_code_of hf, hz.symm, rfl⟩
      · split at h
        · next ho => cases h; exact ⟨fltFn_code_of hf, ho.symm, rfl⟩
        · cases h
    · cases h
theorem atomOp_codes_of {fn ty : Nat} {o : AtomOp} (hty : ty < 8) (h : AtomOp.ofCodes fn ty = some o) : o.fn = fn ∧ o.ty = ty ∧ o.wf = true := by
  simp only [AtomOp.ofCodes] at h
  split at h
  · next f hf =>
    split at h
    · next wide => cases h; exact ⟨intFn_code_of hf, intTy_code_ofCode hty, wide⟩
    · cases h
  · split at h
    · next swap =>
      split at h
      · next wide => cases h; exact ⟨swap.symm, intTy_code_ofCode hty, wide⟩
      · cases h
    · split at h
      · next cas =>
        split at h
        · next wide => cases h; exact ⟨cas.symm, intTy_code_ofCode hty, wide⟩
        · cases h
      · split at h
        · next f t hf ht => cases h; exact ⟨fltFn_code_of hf, atomFp_code_of ht, rfl⟩
        · cases h

/-! ## Fields -/

theorem fld_lt (w lo n : Nat) : fld w lo n < 2 ^ n := Nat.mod_lt _ (Nat.two_pow_pos n)
/-- A field is made of a higher and a lower part. -/
theorem fld_add (w lo m n : Nat) : fld w lo (m + n) = fld w (lo + m) n * 2 ^ m + fld w lo m := by
  simp only [fld, Nat.pow_add, ← Nat.div_div_eq_div_mul]
  rw [Nat.mod_mul, Nat.mul_comm, Nat.add_comm]
/-- The number that consecutive fields of given widths make. -/
def fields (w lo : Nat) : List Nat → Nat
  | [] => 0
  | n :: ns => fields w (lo + n) ns * 2 ^ n + fld w lo n
theorem fields_eq (w : Nat) (ns : List Nat) : ∀ lo, fields w lo ns = fld w lo ns.sum := by
  induction ns with
  | nil => intro lo; exact (Nat.mod_one _).symm
  | cons n ns ih => intro lo; rw [fields, ih, List.sum_cons, fld_add]
/-- A word is made of its fields. -/
theorem eq_fields {w : Nat} (hw : w < 2 ^ 32) (ns : List Nat) (h : ns.sum = 32) : w = fields w 0 ns := by
  rw [fields_eq, h, fld, pow_zero, Nat.div_one, Nat.mod_eq_of_lt hw]
theorem bits_fld (w lo n : Nat) : bits n (fld w lo n) = true := decide_eq_true (fld_lt w lo n)
theorem bits_lt {n v : Nat} (h : bits n v = true) : v < 2 ^ n := of_decide_eq_true h
theorem bits_lt₂ {m n a b : Nat} (h : (bits m a && bits n b) = true) : a < 2 ^ m ∧ b < 2 ^ n := by
  simpa only [bits, Bool.and_eq_true, decide_eq_true_eq] using h
theorem bits_lt₃ {l m n a b c : Nat} (h : (bits l a && bits m b && bits n c) = true) : a < 2 ^ l ∧ b < 2 ^ m ∧ c < 2 ^ n := by
  simpa only [bits, Bool.and_eq_true, decide_eq_true_eq, and_assoc] using h
theorem bits_lt₄ {k l m n a b c d : Nat} (h : (bits k a && bits l b && bits m c && bits n d) = true) :
    a < 2 ^ k ∧ b < 2 ^ l ∧ c < 2 ^ m ∧ d < 2 ^ n := by
  simpa only [bits, Bool.and_eq_true, decide_eq_true_eq, and_assoc] using h
theorem bit01_decide (b : Bool) : decide (bit01 b = 1) = b := by cases b <;> rfl
theorem bit01_decide_fld (w lo : Nat) : bit01 (decide (fld w lo 1 = 1)) = fld w lo 1 := by
  have := fld_lt w lo 1
  by_cases h : fld w lo 1 = 1
  · rw [decide_eq_true h, h]; rfl
  · rw [decide_eq_false h]; simp only [bit01, Bool.false_eq_true, if_false]; omega

theorem opnd_code_inj {a b : Opnd} (h : a.code = b.code) : a = b := by
  cases a <;> cases b <;> simp only [Opnd.code] at h <;> simp only [Opnd.reg.injEq, Opnd.imm.injEq, reduceCtorEq] <;> omega
/-- Bits [n:0] are the code of the operand that they hold. -/
theorem code_opnd (w n : Nat) : (opnd w n).code = fld w 0 (n + 1) := by
  have e : fld w 0 (n + 1) = w % 2 + 2 * fld w 1 n := by
    simp only [fld, pow_zero, Nat.div_one, pow_one, Nat.pow_succ']
    exact Nat.mod_mul
  rw [e, opnd]
  split <;> simp only [Opnd.code] <;> omega
theorem opnd_of_code {w n : Nat} {b : Opnd} (h : fld w 0 (n + 1) = b.code) : opnd w n = b := opnd_code_inj ((code_opnd w n).trans h)
theorem code_lt {n lim : Nat} {b : Opnd} (h : b.wf n lim = true) (hl : lim ≤ 2 ^ n) : b.code < 2 ^ (n + 1) := by
  cases b <;> simp only [Opnd.wf, bits, decide_eq_true_eq] at h <;> simp only [Opnd.code, Nat.pow_succ] <;> omega
theorem wf_opnd (w n : Nat) : (opnd w n).wf n (2 ^ n) = true := by
  unfold opnd
  split <;> exact decide_eq_true (fld_lt w 1 n)

theorem opnd_wf_iff {w n lim : Nat} : (opnd w n).wf n lim = true ↔ w % 2 = 0 ∨ fld w 1 n < lim := by
  unfold opnd
  split
  · next h => exact iff_of_true (decide_eq_true (fld_lt w 1 n)) (.inl h)
  · next h => exact decide_eq_true_iff.trans (or_iff_right h).symm

theorem guardI_of {c : Bool} (i : Instr) (h : c = true) : guardI c i = some i := if_pos h
theorem of_guardI {c : Bool} {i j : Instr} (h : guardI c i = some j) : c = true ∧ j = i := by
  unfold guardI at h
  split at h
  · next hc => exact ⟨hc, (Option.some.inj h).symm⟩
  · cases h

/-! ## Prefix words -/

theorem isPre_iff (w : Nat) : isPre w = true ↔ fld w 25 7 = 0x7F := decide_eq_true_iff

theorem isPre_ext {e : Ext} (h : e.wf = true) : isPre e.word = true ∧ fld e.word 23 2 = 0 := by
  have h1 := EncodeFits.bit01_lt e.inv; have h2 := EncodeFits.rnd_lt e.rnd; have h3 := EncodeFits.bit01_lt e.z
  have h4 := EncodeFits.bit01_lt e.sat; have h5 := EncodeFits.scope_lt e.scope; have h6 := EncodeFits.hint_lt e.hint
  simp only [Ext.wf, bits, Bool.and_eq_true, decide_eq_true_eq] at h
  obtain ⟨w, hw⟩ : ∃ w, e.word = w := ⟨_, rfl⟩
  rw [hw, isPre_iff]
  rw [Ext.word] at hw
  simp only [fld]
  omega
theorem extOf_word {e : Ext} (h : e.wf = true) : extOf e.word = some e := by
  have h1 := EncodeFits.bit01_lt e.inv; have h2 := EncodeFits.rnd_lt e.rnd; have h3 := EncodeFits.bit01_lt e.z
  have h4 := EncodeFits.bit01_lt e.sat; have h5 := EncodeFits.scope_lt e.scope; have h6 := EncodeFits.hint_lt e.hint
  simp only [Ext.wf, bits, Bool.and_eq_true, decide_eq_true_eq] at h
  obtain ⟨w, hw⟩ : ∃ w, e.word = w := ⟨_, rfl⟩
  rw [hw]
  rw [Ext.word] at hw
  have mask : fld w 20 3 = e.mask := by simp only [fld]; omega
  have inv : fld w 19 1 = bit01 e.inv := by simp only [fld]; omega
  have rnd : fld w 16 3 = rndCode e.rnd := by simp only [fld]; omega
  have vc : fld w 9 7 = e.vc := by simp only [fld]; omega
  have z : fld w 8 1 = bit01 e.z := by simp only [fld]; omega
  have sat : fld w 7 1 = bit01 e.sat := by simp only [fld]; omega
  have scope : fld w 4 3 = e.scope.code := by simp only [fld]; omega
  have hint : fld w 2 2 = e.hint.code := by simp only [fld]; omega
  have atom : fld w 0 2 = e.atom := by simp only [fld]; omega
  simp only [extOf, mask, inv, rnd, vc, z, sat, scope, hint, atom, rndOfCode_rndCode, scope_ofCode_code, hint_ofCode_code, bit01_decide]
  exact if_neg (by omega)
/-- An EXT word is read as the fields that it is written from. -/
theorem word_of_extOf {w : Nat} {e : Ext} (hw : w < 2 ^ 32) (pre : isPre w = true) (kind : fld w 23 2 = 0) (h : extOf w = some e) :
    e.word = w ∧ e.wf = true := by
  unfold extOf at h
  split at h
  · next r sc hr hsc =>
    split at h
    · cases h
    · next atom =>
      cases h
      refine ⟨?_, by simp only [Ext.wf, bits_fld, Bool.and_true, Bool.true_and, decide_eq_true_eq]; have := fld_lt w 0 2; omega⟩
      simp only [Ext.word, bit01_decide_fld, rndCode_of hr, scope_code_of hsc, hint_code_ofCode (fld_lt w 2 2)]
      rw [isPre_iff] at pre
      have := eq_fields hw [2, 2, 3, 1, 1, 7, 3, 1, 3, 2, 7] rfl
      simp only [fields, Nat.reduceAdd] at this
      omega
  · cases h
theorem isPre_rep {r : Rep} (h : r.wf = true) : isPre r.word = true ∧ fld r.word 23 2 = 1 := by
  simp only [Rep.wf, bits, Bool.and_eq_true, decide_eq_true_eq] at h
  obtain ⟨w, hw⟩ : ∃ w, r.word = w := ⟨_, rfl⟩
  rw [hw, isPre_iff]
  rw [Rep.word] at hw
  simp only [fld]
  omega
theorem repOf_word {r : Rep} (h : r.wf = true) : repOf r.word = some r := by
  simp only [Rep.wf, bits, Bool.and_eq_true, decide_eq_true_eq] at h
  obtain ⟨w, hw⟩ : ∃ w, r.word = w := ⟨_, rfl⟩
  rw [hw]
  rw [Rep.word] at hw
  have last : fld w 17 6 = r.last := by simp only [fld]; omega
  have sd : fld w 14 3 = r.sd := by simp only [fld]; omega
  have sa : fld w 11 3 = r.sa := by simp only [fld]; omega
  have sb : fld w 8 3 = r.sb := by simp only [fld]; omega
  simp only [repOf, last, sd, sa, sb]
  exact if_pos (by simp only [fld]; omega)
/-- A REP word is read as the fields that it is written from. -/
theorem word_of_repOf {w : Nat} {r : Rep} (hw : w < 2 ^ 32) (pre : isPre w = true) (kind : fld w 23 2 = 1) (h : repOf w = some r) :
    r.word = w ∧ r.wf = true := by
  unfold repOf at h
  split at h
  · next low =>
    cases h
    refine ⟨?_, by simp only [Rep.wf, bits_fld, Bool.and_true]⟩
    rw [isPre_iff] at pre
    have := eq_fields hw [8, 3, 3, 3, 6, 2, 7] rfl
    simp only [fields, Nat.reduceAdd] at this
    simp only [Rep.word]
    omega
  · cases h

/-! ## The words of an instruction -/

/-- The instruction that a base word holds after its prefixes (R26). -/
def baseOf (p : Pre) (w : Nat) : Option Instr := if isU w then uOf w p.ext else lOf w p

/-- A prefix and a base word are the words of an instruction, and are read as it (R26, R37). -/
structure Spells (i : Instr) (p : Pre) (w : Nat) : Prop where
  words : encode i = p.words ++ [w]
  pre : p.wf = true
  base : baseOf p w = some i
  notPre : isPre w = false
  rep : noRep w = true → p.rep = none
  ext : noExt w = true → p.ext = none

/-- What is read of a well-formed instruction's words passes the checks of R43. -/
theorem decodeBase_of_spells {i : Instr} {p : Pre} {w : Nat} (h : Spells i p w) (wf : i.wf = true) :
    decodeBase (p.rep.map Rep.word) (p.ext.map Ext.word) w = .ok i := by
  obtain ⟨-, pre, base, -, rep, ext⟩ := h
  simp only [Instr.wf, Bool.and_eq_true] at wf
  obtain ⟨⟨⟨⟨-, baseOk⟩, repOk⟩, extOk⟩, numsOk⟩ := wf
  obtain ⟨r, e⟩ := p
  simp only [Pre.wf, Bool.and_eq_true] at pre
  have hr : (r.map Rep.word).map repOf = r.map some := by
    cases r with
    | none => rfl
    | some r => exact congrArg some (repOf_word pre.1)
  have he : (e.map Ext.word).map extOf = e.map some := by
    cases e with
    | none => rfl
    | some e => exact congrArg some (extOf_word pre.2)
  have go : decodeBase.go w (r.map Rep.word) (e.map Ext.word) = .ok i := by
    have hr' : (r.map some).bind id = r := by cases r <;> rfl
    have he' : (e.map some).bind id = e := by cases e <;> rfl
    have nr : r.map some ≠ some none := by cases r <;> simp
    have ne : e.map some ≠ some none := by cases e <;> simp
    have base' : (if isU w = true then uOf w e else lOf w ⟨r, e⟩) = some i := base
    simp only [decodeBase.go, hr, he, hr', he', base', baseOk, repOk, extOk, numsOk, decide_eq_false nr, decide_eq_false ne, Bool.not_true,
      Bool.or_self, Bool.false_eq_true, if_false]
  cases r with
  | some r =>
    have placed : noRep w = false := Bool.eq_false_iff.mpr fun n => nomatch rep n
    simp only [decodeBase, Option.map_some, placed, Bool.false_eq_true, if_false]
    exact go
  | none =>
    cases e with
    | some e =>
      have placed : noExt w = false := Bool.eq_false_iff.mpr fun n => nomatch ext n
      simp only [decodeBase, Option.map_none, Option.map_some, placed, Bool.false_eq_true, if_false]
      exact go
    | none => exact go
section
variable {r e w : Nat} {rest : List Nat}
theorem decode_base (hw : isPre w = false) : decode (w :: rest) = (decodeBase none none w).map (·, 1) := by
  simp only [decode, hw, Bool.not_false, if_true]
theorem decode_ext (he : isPre e = true) (ke : fld e 23 2 = 0) (hw : isPre w = false) :
    decode (e :: w :: rest) = (decodeBase none (some e) w).map (·, 2) := by
  simp only [decode, he, ke, hw, Bool.not_true, Bool.false_eq_true, if_false]
theorem decode_rep (hr : isPre r = true) (kr : fld r 23 2 = 1) (hw : isPre w = false) :
    decode (r :: w :: rest) = (decodeBase (some r) none w).map (·, 2) := by
  simp only [decode, hr, kr, hw, Bool.not_true, Bool.not_false, Bool.false_eq_true, if_false, if_true]
theorem decode_rep_ext (hr : isPre r = true) (kr : fld r 23 2 = 1) (he : isPre e = true) (ke : fld e 23 2 = 0) (hw : isPre w = false) :
    decode (r :: e :: w :: rest) = (decodeBase (some r) (some e) w).map (·, 3) := by
  simp only [decode, hr, kr, he, ke, hw, Bool.not_true, Bool.false_eq_true, if_false]
end
/-- The words of a well-formed instruction are read as it, whatever follows them. -/
theorem decode_of_spells {i : Instr} {p : Pre} {w : Nat} (h : Spells i p w) (wf : i.wf = true) (rest : List Nat) :
    decode (encode i ++ rest) = .ok (i, (encode i).length) := by
  have read := decodeBase_of_spells h wf
  obtain ⟨words, pre, -, notPre, -, -⟩ := h
  rw [words]
  obtain ⟨r, e⟩ := p
  simp only [Pre.wf, Bool.and_eq_true] at pre
  cases r with
  | none =>
    cases e with
    | none => exact (decode_base notPre).trans (congrArg (Except.map (·, 1)) read)
    | some e =>
      obtain ⟨he, ke⟩ := isPre_ext pre.2
      exact (decode_ext he ke notPre).trans (congrArg (Except.map (·, 2)) read)
  | some r =>
    obtain ⟨hr, kr⟩ := isPre_rep pre.1
    cases e with
    | none => exact (decode_rep hr kr notPre).trans (congrArg (Except.map (·, 2)) read)
    | some e =>
      obtain ⟨he, ke⟩ := isPre_ext pre.2
      exact (decode_rep_ext hr kr he ke notPre).trans (congrArg (Except.map (·, 3)) read)

end Sys2Proof.Proofs
end

section
/-! # The words of the U set -/

namespace Sys2Proof.Proofs

open Machine Laws

/-! ## The forms -/

theorem encode_of_encodeUMem {i : Instr} (h : encodeUMem i ≠ []) : encode i = encodeUMem i := by
  have rest : encodeUAlu i = [] ∧ encodeUEngine i = [] ∧ encodeUSys i = [] ∧ encodeLInt i = [] ∧ encodeLRest i = [] ∧ encodeHost i = [] := by
    cases i <;> first | exact absurd rfl h | exact ⟨rfl, rfl, rfl, rfl, rfl, rfl⟩
  obtain ⟨h1, h2, h3, h4, h5, h6⟩ := rest
  simp only [encode, h1, h2, h3, h4, h5, h6, List.nil_append, List.append_nil]

section
variable {i : Instr} {op rest w d a : Nat}

/-- A U-set instruction stands alone. -/
theorem spells_u (words : encode i = uw op rest) (hop : op < 63) (hrest : rest < 2 ^ 25)
    (read : ∀ w, fld w 25 6 = op → fld w 0 25 = rest → uOf w none = some i) : ∃ p w, Spells i p w := by
  obtain ⟨w, hw⟩ : ∃ w, 0x80000000 + op * 2 ^ 25 + rest = w := ⟨_, rfl⟩
  have u : isU w = true := decide_eq_true (by simp only [fld]; omega)
  refine ⟨⟨none, none⟩, w, words.trans (by rw [uw, hw]; rfl), rfl, ?_, ?_, fun _ => rfl, fun _ => rfl⟩
  · rw [baseOf, if_pos u]
    exact read w (by simp only [fld]; omega) (by simp only [fld]; omega)
  · exact decide_eq_false (by simp only [fld]; omega)
/-- SLD, SLDW, SST and SSTW may have an EXT word (R37). -/
theorem spells_um {f : UM} (words : encodeUMem i = umw op f) (hop : 0x1A ≤ op ∧ op ≤ 0x1D) (wf : f.wf = true)
    (read : ∀ w, fld w 25 6 = op → umOf w f.ext = f → uOf w f.ext = some i) : ∃ p w, Spells i p w := by
  obtain ⟨e, d, a, off⟩ := f
  simp only [UM.wf, bits, Bool.and_eq_true, decide_eq_true_eq] at wf
  obtain ⟨w, hw⟩ : ∃ w, 0x80000000 + op * 2 ^ 25 + (d * 2 ^ 17 + a * 2 ^ 9 + off) = w := ⟨_, rfl⟩
  have u : isU w = true := decide_eq_true (by simp only [fld]; omega)
  have op_ : fld w 25 6 = op := by simp only [fld]; omega
  refine ⟨⟨none, e⟩, w, ?_, ?_, ?_, ?_, fun _ => rfl, fun n => ?_⟩
  · rw [encode_of_encodeUMem (by rw [words]; simp [umw, uw]), words, umw, uw, hw]; rfl
  · simp only [Pre.wf, wf, Bool.true_and]
  · rw [baseOf, if_pos u]
    refine read w op_ ?_
    simp only [umOf, UM.mk.injEq, true_and, fld]
    omega
  · exact decide_eq_false (by simp only [fld]; omega)
  · simp only [noExt, u, op_, decide_eq_true hop.1, decide_eq_true hop.2, Bool.and_self, Bool.not_true, Bool.and_false, Bool.false_eq_true] at n
/-- A UR form: sd, sa and operand b (R28). -/
theorem spells_ur {f : UR} {lim : Nat} (words : encode i = urw op f) (hop : op < 63) (wf : f.wf lim = true) (hl : lim ≤ 256)
    (read : ∀ w, fld w 25 6 = op → urOf w = f → uOf w none = some i) : ∃ p w, Spells i p w := by
  obtain ⟨d, a, b⟩ := f
  simp only [UR.wf, Bool.and_eq_true] at wf
  obtain ⟨⟨hd, ha⟩, hb⟩ := wf
  have hd := bits_lt hd; have ha := bits_lt ha; have hc := code_lt hb hl
  refine spells_u words hop (rest := d * 2 ^ 17 + a * 2 ^ 9 + b.code) (by omega) fun w op_ rest_ => read w op_ ?_
  have code : fld w 0 (8 + 1) = b.code := by simp only [fld] at rest_ ⊢; omega
  rw [urOf, opnd_of_code code, UR.mk.injEq]
  simp only [fld, and_true] at rest_ ⊢
  omega
end

/-! ## The opcodes with sub-functions -/

section
variable {i : Instr}

/-- FENCE (R222). -/
theorem spells_fence (k : Nat) (sc : Scope) (words : encode i = uw 0x29 (k * 2 ^ 22 + sc.code * 2 ^ 19)) (hk : k < 8)
    (read : ∀ w, fld w 0 19 = 0 → fld w 19 3 = sc.code → fld w 22 3 = k → fenceOf w = some i) : ∃ p w, Spells i p w := by
  have hs := EncodeFits.scope_lt sc
  refine spells_u words (by decide) (by omega) fun w op rest => ?_
  obtain ⟨f0, f1, f2⟩ : fld w 0 19 = 0 ∧ fld w 19 3 = sc.code ∧ fld w 22 3 = k := by simp only [fld] at rest ⊢; omega
  simp only [uOf, op, read w f0 f1 f2]
/-- MFN (R308). -/
theorem spells_mfn (k d a s : Nat) (words : encode i = uw 0x2F (k * 2 ^ 22 + a * 2 ^ 14 + d * 2 ^ 6 + s)) (hk : k < 8) (hd : d < 2 ^ 8) (ha : a < 2 ^ 8)
    (hs : s < 4) (read : ∀ w, fld w 0 2 = s → fld w 2 4 = 0 → fld w 6 8 = d → fld w 14 8 = a → fld w 22 3 = k → mfnOf w = some i) :
    ∃ p w, Spells i p w := by
  refine spells_u words (by decide) (by omega) fun w op rest => ?_
  obtain ⟨f0, f1, f2, f3, f4⟩ : fld w 0 2 = s ∧ fld w 2 4 = 0 ∧ fld w 6 8 = d ∧ fld w 14 8 = a ∧ fld w 22 3 = k := by
    simp only [fld] at rest ⊢; omega
  simp only [uOf, op, read w f0 f1 f2 f3 f4]
/-- CBOP (R297). -/
theorem spells_cb (k c a b : Nat) (words : encode i = uw 0x31 (k * 2 ^ 22 + c * 2 ^ 17 + a * 2 ^ 9 + b * 2)) (hk : k < 8) (hc : c < 2 ^ 5) (ha : a < 2 ^ 8)
    (hb : b < 2 ^ 8) (read : ∀ w, w % 2 = 0 → fld w 1 8 = b → fld w 9 8 = a → fld w 17 5 = c → fld w 22 3 = k → cbOf w = some i) :
    ∃ p w, Spells i p w := by
  refine spells_u words (by decide) (by omega) fun w op rest => ?_
  obtain ⟨f0, f1, f2, f3, f4⟩ : w % 2 = 0 ∧ fld w 1 8 = b ∧ fld w 9 8 = a ∧ fld w 17 5 = c ∧ fld w 22 3 = k := by
    simp only [fld] at rest ⊢; omega
  simp only [uOf, op, read w f0 f1 f2 f3 f4]
/-- XOP (R387). -/
theorem spells_xop (k a s : Nat) (words : encode i = uw 0x34 (k * 2 ^ 22 + a * 2 ^ 14 + s * 2 ^ 6)) (hk : k < 8) (ha : a < 2 ^ 8) (hs : s < 2 ^ 8)
    (read : ∀ w, fld w 0 6 = 0 → fld w 6 8 = s → fld w 14 8 = a → fld w 22 3 = k → xopOf w = some i) : ∃ p w, Spells i p w := by
  refine spells_u words (by decide) (by omega) fun w op rest => ?_
  obtain ⟨f0, f1, f2, f3⟩ : fld w 0 6 = 0 ∧ fld w 6 8 = s ∧ fld w 14 8 = a ∧ fld w 22 3 = k := by simp only [fld] at rest ⊢; omega
  simp only [uOf, op, read w f0 f1 f2 f3]
/-- BAR (R161). -/
theorem spells_bar (k : Nat) (l : Level) (n : Nat) (words : encode i = uw 0x36 (l.code * 2 ^ 23 + n * 2 ^ 19 + k * 2 ^ 17)) (hk : k < 4) (hn : n < l.count)
    (read : ∀ w, fld w 0 17 = 0 → fld w 17 2 = k → fld w 19 4 = n → fld w 23 2 = l.code → barOf w = some i) : ∃ p w, Spells i p w := by
  have hl := EncodeFits.level_lt l; have le := level_count_le l
  refine spells_u words (by decide) (by omega) fun w op rest => ?_
  obtain ⟨f0, f1, f2, f3⟩ : fld w 0 17 = 0 ∧ fld w 17 2 = k ∧ fld w 19 4 = n ∧ fld w 23 2 = l.code := by simp only [fld] at rest ⊢; omega
  simp only [uOf, op, read w f0 f1 f2 f3]
/-- EVM (R166). -/
theorem spells_evm (k imm : Nat) (words : encode i = uw 0x37 (1 * 2 ^ 23 + k * 2 ^ 21 + imm)) (hk : k < 4) (hi : imm < 2 ^ 16)
    (read : ∀ w, fld w 0 16 = imm → fld w 16 5 = 0 → fld w 21 2 = k → fld w 23 2 = 1 → evOf w = some i) : ∃ p w, Spells i p w := by
  refine spells_u words (by decide) (by omega) fun w op rest => ?_
  obtain ⟨f0, f1, f2, f3⟩ : fld w 0 16 = imm ∧ fld w 16 5 = 0 ∧ fld w 21 2 = k ∧ fld w 23 2 = 1 := by simp only [fld] at rest ⊢; omega
  simp only [uOf, op, read w f0 f1 f2 f3]
/-- SFN (R31, R322). -/
theorem spells_sfn (k x n : Nat) (words : encode i = uw 0x3E (k * 2 ^ 22 + x * 2 ^ 14 + n * 2 ^ 6)) (hk : k < 8) (hx : x < 2 ^ 8) (hn : n < 2 ^ 8)
    (read : ∀ w, fld w 0 6 = 0 → fld w 6 8 = n → fld w 14 8 = x → fld w 22 3 = k → sfnOf w = some i) : ∃ p w, Spells i p w := by
  refine spells_u words (by decide) (by omega) fun w op rest => ?_
  obtain ⟨f0, f1, f2, f3⟩ : fld w 0 6 = 0 ∧ fld w 6 8 = n ∧ fld w 14 8 = x ∧ fld w 22 3 = k := by simp only [fld] at rest ⊢; omega
  simp only [uOf, op, read w f0 f1 f2 f3]
end

/-! ## Reading -/

/-- R28, R30, R54 to R60: the uniform register operations are read from their words. -/
theorem spells_of_encodeUAlu {i : Instr} (h : encodeUAlu i ≠ []) (ok : i.fieldsOk = true) : ∃ p w, Spells i p w := by
  cases i with
  | sadd f | ssub f | smul f | smulh f | sdiv f | srem f | sand f | sor f | sxor f | sshl f | sshr f | ssra f | smin f | smax f
  | sminn f | smaxn f | sseq f | ssne f | sslt f | ssltn f | ssel f =>
    exact spells_ur rfl (by decide) ok (by decide) fun w op same => by simp only [uOf, op, same]
  | sbfx f | sbfi f =>
    refine spells_ur rfl (by decide) ok (by decide) fun w op same => ?_
    subst same
    have imm := opnd_wf_iff.mp (Bool.and_elim_right ok)
    simp only [uOf, op]
    refine guardI_of _ ?_
    simp only [Bool.or_eq_true, decide_eq_true_eq]
    simp only [fld] at imm ⊢
    omega
  | sbit d a fn =>
    obtain ⟨⟨hd, ha⟩, hf⟩ : (d < 2 ^ 8 ∧ a < 2 ^ 8) ∧ fn < 4 := ⟨bits_lt₂ (Bool.and_elim_left ok), of_decide_eq_true (Bool.and_elim_right ok)⟩
    refine spells_u rfl (by decide) (by omega) fun w op rest => ?_
    have code : w % 2 = 1 := by simp only [fld] at rest; omega
    have hd' : fld w 17 8 = d := by simp only [fld] at rest ⊢; omega
    have ha' : fld w 9 8 = a := by simp only [fld] at rest ⊢; omega
    have hf' : fld w 1 8 = fn := by simp only [fld] at rest ⊢; omega
    simp only [uOf, op, code, hd', ha', hf', decide_eq_true hf]
    rfl
  | sli d imm | slis d imm =>
    obtain ⟨hd, hi⟩ := bits_lt₂ ok
    refine spells_u rfl (by decide) (by omega) fun w op rest => ?_
    have hd' : fld w 17 8 = d := by simp only [fld] at rest ⊢; omega
    have hi' : fld w 0 17 = imm := by simp only [fld] at rest ⊢; omega
    simp only [uOf, op, hd', hi']
  | _ => exact absurd rfl h

/-- R28, R30, R61 to R68: uniform memory and control are read from their words. -/
theorem spells_of_encodeUMem {i : Instr} (h : encodeUMem i ≠ []) (ok : i.fieldsOk = true) : ∃ p w, Spells i p w := by
  cases i with
  | sld f | sldw f | sst f | sstw f =>
    exact spells_um rfl (by decide) ok fun w op same => by simp only [uOf, op, same]
  | sldk d a off =>
    obtain ⟨hd, ha, ho⟩ := bits_lt₃ ok
    refine spells_u rfl (by decide) (by omega) fun w op rest => ?_
    obtain ⟨hd', ha', ho'⟩ : fld w 17 8 = d ∧ fld w 9 8 = a ∧ fld w 0 9 = off := by simp only [fld] at rest ⊢; omega
    simp only [uOf, op, hd', ha', ho']
  | smovl f =>
    obtain ⟨⟨hd, ha⟩, hb⟩ : (f.d < 2 ^ 8 ∧ f.a < 2 ^ 7) ∧ f.b.wf 8 32 = true := ⟨bits_lt₂ (Bool.and_elim_left ok), Bool.and_elim_right ok⟩
    refine spells_ur rfl (by decide) (lim := 32) ?_ (by decide) fun w op same => ?_
    · simp only [UR.wf, bits, hb, Bool.and_true, Bool.and_eq_true, decide_eq_true_eq]; omega
    · subst same
      have top : fld w 16 1 = 0 := by simp only [urOf, fld] at ha ⊢; omega
      have imm := opnd_wf_iff.mp hb
      simp only [uOf, op, top]
      exact guardI_of _ (by simpa only [Bool.and_eq_true, Bool.or_eq_true, decide_eq_true_eq, true_and] using imm)
  | sb off | scall off =>
    have ho := bits_lt ok
    refine spells_u rfl (by decide) ho fun w op rest => ?_
    simp only [uOf, op, rest]
  | sbz a off | sbnz a off | sblt a off | sloop a off =>
    obtain ⟨ha, ho⟩ := bits_lt₂ ok
    refine spells_u rfl (by decide) (by omega) fun w op rest => ?_
    obtain ⟨ha', ho'⟩ : fld w 17 8 = a ∧ fld w 0 17 = off := by simp only [fld] at rest ⊢; omega
    simp only [uOf, op, ha', ho']
  | sj a | scallr a =>
    have ha := bits_lt ok
    refine spells_u rfl (by decide) (by omega) fun w op rest => ?_
    obtain ⟨h0, ha', h1⟩ : fld w 17 8 = 0 ∧ fld w 9 8 = a ∧ fld w 0 9 = 0 := by simp only [fld] at rest ⊢; omega
    simp only [uOf, op, h0, ha', h1]
    rfl
  | sret =>
    refine spells_u rfl (by decide) (by decide) fun w op rest => ?_
    simp only [uOf, op, rest]
    rfl
  | _ => exact absurd rfl h

/-- R28, R30: the words of fences, tiles, the matrix engine, gathers, buffers, waits, collectives, transactions, barriers and events. -/
theorem spells_of_encodeUEngine {i : Instr} (h : encodeUEngine i ≠ []) (ok : i.fieldsOk = true) : ∃ p w, Spells i p w := by
  cases i with
  | fenceRel sc => exact spells_fence 0 sc (congrArg (uw 0x29) (by omega)) (by decide) fun w f0 f1 f2 => by simp only [fenceOf, f0, f1, f2, scope_ofCode_code]; rfl
  | fenceAcq sc => exact spells_fence 1 sc (congrArg (uw 0x29) (by omega)) (by decide) fun w f0 f1 f2 => by simp only [fenceOf, f0, f1, f2, scope_ofCode_code]; rfl
  | fenceAr sc => exact spells_fence 2 sc (congrArg (uw 0x29) (by omega)) (by decide) fun w f0 f1 f2 => by simp only [fenceOf, f0, f1, f2, scope_ofCode_code]; rfl
  | fenceSc sc => exact spells_fence 3 sc (congrArg (uw 0x29) (by omega)) (by decide) fun w f0 f1 f2 => by simp only [fenceOf, f0, f1, f2, scope_ofCode_code]; rfl
  | fenceFetch => exact spells_fence 4 .core rfl (by decide) fun w f0 f1 f2 => by simp only [fenceOf, f0, f1, f2, scope_ofCode_code]; rfl
  | tcfg n a | tst n a =>
    obtain ⟨hn, ha⟩ := bits_lt₂ ok
    refine spells_u rfl (by decide) (by omega) fun w op rest => ?_
    obtain ⟨f0, f1, f2⟩ : fld w 0 13 = 0 ∧ fld w 13 8 = a ∧ fld w 21 4 = n := by simp only [fld] at rest ⊢; omega
    simp only [uOf, op, f0, f1, f2]
    rfl
  | tld n a =>
    obtain ⟨hn, ha⟩ := bits_lt₂ ok
    refine spells_u rfl (by decide) (by omega) fun w op rest => ?_
    obtain ⟨f0, f1, f2, f3⟩ : fld w 0 13 = 0 ∧ fld w 4 1 = 0 ∧ fld w 13 8 = a ∧ fld w 21 4 = n := by simp only [fld] at rest ⊢; omega
    simp only [uOf, op, f0, f1, f2, f3]
    rfl
  | tldS n a b =>
    obtain ⟨hn, ha, hb⟩ := bits_lt₃ ok
    refine spells_u rfl (by decide) (by omega) fun w op rest => ?_
    obtain ⟨f0, f1, f2, f3, f4⟩ : fld w 0 4 = 0 ∧ fld w 4 1 = 1 ∧ fld w 5 8 = b ∧ fld w 13 8 = a ∧ fld w 21 4 = n := by simp only [fld] at rest ⊢; omega
    simp only [uOf, op, f0, f1, f2, f3, f4]
    rfl
  | mma a b s =>
    obtain ⟨ha, hb, hs⟩ := bits_lt₃ ok
    refine spells_u rfl (by decide) (by omega) fun w op rest => ?_
    obtain ⟨f0, f1, f2, f3, f4⟩ : fld w 0 8 = 0 ∧ fld w 8 1 = 0 ∧ fld w 9 8 = s ∧ fld w 17 4 = b ∧ fld w 21 4 = a := by simp only [fld] at rest ⊢; omega
    simp only [uOf, op, f0, f1, f2, f3, f4]
    rfl
  | mmaPair a b s =>
    obtain ⟨ha, hb, hs⟩ := bits_lt₃ ok
    refine spells_u rfl (by decide) (by omega) fun w op rest => ?_
    obtain ⟨f0, f1, f2, f3, f4⟩ : fld w 0 8 = 0 ∧ fld w 8 1 = 1 ∧ fld w 9 8 = s ∧ fld w 17 4 = b ∧ fld w 21 4 = a := by simp only [fld] at rest ⊢; omega
    simp only [uOf, op, f0, f1, f2, f3, f4]
    rfl
  | mdrnTile a clr n row col =>
    obtain ⟨ha, hn, hrow, hcol⟩ := bits_lt₄ ok
    have hclr := EncodeFits.bit01_lt clr
    refine spells_u rfl (by decide) (by omega) fun w op rest => ?_
    obtain ⟨f0, f1, f2, f3, f4, f5, f6, f7⟩ : fld w 0 3 = 0 ∧ fld w 3 2 = col ∧ fld w 5 3 = row ∧ fld w 8 4 = n ∧ fld w 12 3 = 0 ∧ fld w 15 1 = bit01 clr ∧ fld w 16 1 = 0 ∧ fld w 17 8 = a := by simp only [fld] at rest ⊢; omega
    simp only [uOf, op, mdrnOf, bit01_decide, f0, f1, f2, f3, f4, f5, f6, f7]
    rfl
  | mdrnSpad a clr cv b =>
    obtain ⟨ha, hb⟩ := bits_lt₂ ok
    have hclr := EncodeFits.bit01_lt clr; have hcv := EncodeFits.conv_lt cv
    refine spells_u rfl (by decide) (by omega) fun w op rest => ?_
    obtain ⟨f0, f1, f2, f3, f4, f5⟩ : fld w 0 4 = 0 ∧ fld w 4 8 = b ∧ fld w 12 3 = cv.code ∧ fld w 15 1 = bit01 clr ∧ fld w 16 1 = 1 ∧ fld w 17 8 = a := by simp only [fld] at rest ⊢; omega
    simp only [uOf, op, mdrnOf, bit01_decide, conv_ofCode_code, f0, f1, f2, f3, f4, f5]
    rfl
  | mchk a =>
    exact spells_mfn 0 0 a 0 (congrArg (uw 0x2F) (by omega)) (by decide) (by decide) (bits_lt ok) (by decide) fun w f0 f1 f2 f3 f4 => by
      simp only [mfnOf, f0, f1, f2, f3, f4]; rfl
  | mfix a =>
    exact spells_mfn 1 0 a 0 (congrArg (uw 0x2F) (by omega)) (by decide) (by decide) (bits_lt ok) (by decide) fun w f0 f1 f2 f3 f4 => by
      simp only [mfnOf, f0, f1, f2, f3, f4]; rfl
  | mzero a =>
    exact spells_mfn 4 0 a 0 (congrArg (uw 0x2F) (by omega)) (by decide) (by decide) (bits_lt ok) (by decide) fun w f0 f1 f2 f3 f4 => by
      simp only [mfnOf, f0, f1, f2, f3, f4]; rfl
  | mrty d a =>
    obtain ⟨hd, ha⟩ := bits_lt₂ ok
    exact spells_mfn 2 d a 0 (congrArg (uw 0x2F) (by omega)) (by decide) hd ha (by decide) fun w f0 f1 f2 f3 f4 => by
      simp only [mfnOf, f0, f1, f2, f3, f4]; rfl
  | mstatClo d a =>
    obtain ⟨hd, ha⟩ := bits_lt₂ ok
    exact spells_mfn 3 d a 1 (congrArg (uw 0x2F) (by omega)) (by decide) hd ha (by decide) fun w f0 f1 f2 f3 f4 => by
      simp only [mfnOf, f0, f1, f2, f3, f4]; rfl
  | mstatChi d a =>
    obtain ⟨hd, ha⟩ := bits_lt₂ ok
    exact spells_mfn 3 d a 2 (congrArg (uw 0x2F) (by omega)) (by decide) hd ha (by decide) fun w f0 f1 f2 f3 f4 => by
      simp only [mfnOf, f0, f1, f2, f3, f4]; rfl
  | mgive d a =>
    obtain ⟨hd, ha⟩ := bits_lt₂ ok
    exact spells_mfn 5 d a 0 (congrArg (uw 0x2F) (by omega)) (by decide) hd ha (by decide) fun w f0 f1 f2 f3 f4 => by
      simp only [mfnOf, f0, f1, f2, f3, f4]; rfl
  | mstat d =>
    exact spells_mfn 3 d 0 0 (congrArg (uw 0x2F) (by omega)) (by decide) (bits_lt ok) (by decide) (by decide) fun w f0 f1 f2 f3 f4 => by
      simp only [mfnOf, f0, f1, f2, f3, f4]; rfl
  | gstr z tok a b =>
    obtain ⟨hzta, hb⟩ := Bool.and_eq_true_iff.mp ok
    obtain ⟨hzt, ha⟩ := Bool.and_eq_true_iff.mp hzta
    obtain ⟨hz, ht⟩ := Bool.and_eq_true_iff.mp hzt
    have hz := of_decide_eq_true hz; have ht := bits_lt ht; have ha := bits_lt ha; have hb := bits_lt hb
    refine spells_u rfl (by decide) (by omega) fun w op rest => ?_
    obtain ⟨f0, f1, f2, f3, f4⟩ : fld w 0 4 = 0 ∧ fld w 4 8 = b ∧ fld w 12 8 = a ∧ fld w 20 3 = tok ∧ fld w 23 2 = z := by simp only [fld] at rest ⊢; omega
    simp only [uOf, op, decide_eq_true hz, f0, f1, f2, f3, f4]
    rfl
  | cbdef c a b =>
    obtain ⟨hc, ha, hb⟩ := bits_lt₃ ok
    exact spells_cb 0 c a b (congrArg (uw 0x31) (by omega)) (by decide) hc ha hb fun w f0 f1 f2 f3 f4 => by
      simp only [cbOf, f0, f1, f2, f3, f4]; rfl
  | cbget d c =>
    obtain ⟨hcd, ne⟩ := Bool.and_eq_true_iff.mp ok
    obtain ⟨hc, hd⟩ := bits_lt₂ hcd
    exact spells_cb 1 c d 0 (congrArg (uw 0x31) (by omega)) (by decide) hc hd (by decide) fun w f0 f1 f2 f3 f4 => by
      simp only [cbOf, f0, f1, f2, f3, f4]; exact guardI_of _ ne
  | cbput c a =>
    obtain ⟨hc, ha⟩ := bits_lt₂ ok
    exact spells_cb 2 c a 0 (congrArg (uw 0x31) (by omega)) (by decide) hc ha (by decide) fun w f0 f1 f2 f3 f4 => by
      simp only [cbOf, f0, f1, f2, f3, f4]; rfl
  | cblim c a =>
    obtain ⟨hc, ha⟩ := bits_lt₂ ok
    exact spells_cb 4 c a 0 (congrArg (uw 0x31) (by omega)) (by decide) hc ha (by decide) fun w f0 f1 f2 f3 f4 => by
      simp only [cbOf, f0, f1, f2, f3, f4]; rfl
  | cbqry d c =>
    obtain ⟨hc, hd⟩ := bits_lt₂ ok
    exact spells_cb 3 c d 0 (congrArg (uw 0x31) (by omega)) (by decide) hc hd (by decide) fun w f0 f1 f2 f3 f4 => by
      simp only [cbOf, f0, f1, f2, f3, f4]; rfl
  | waitq c n =>
    have hn := bits_lt ok
    have hc := EncodeFits.qclass_lt c
    refine spells_u rfl (by decide) (by omega) fun w op rest => ?_
    obtain ⟨f0, f1, f2⟩ : fld w 0 15 = 0 ∧ fld w 15 8 = n ∧ fld w 23 2 = c.code := by simp only [fld] at rest ⊢; omega
    simp only [uOf, op, qclass_ofCode_code, f0, f1, f2]
    rfl
  | waitk d m =>
    obtain ⟨hdm, ne⟩ := Bool.and_eq_true_iff.mp ok
    obtain ⟨hd, hm⟩ := bits_lt₂ hdm
    refine spells_u rfl (by decide) (by omega) fun w op rest => ?_
    obtain ⟨f0, f1, f2⟩ : fld w 0 8 = m ∧ fld w 8 9 = 0 ∧ fld w 17 8 = d := by simp only [fld] at rest ⊢; omega
    simp only [uOf, op, f0, f1, f2]
    exact guardI_of _ ne
  | xred a =>
    exact spells_xop 0 a 0 (congrArg (uw 0x34) (by omega)) (by decide) (bits_lt ok) (by decide) fun w f0 f1 f2 f3 => by
      simp only [xopOf, f0, f1, f2, f3]; rfl
  | xbc a =>
    exact spells_xop 1 a 0 (congrArg (uw 0x34) (by omega)) (by decide) (bits_lt ok) (by decide) fun w f0 f1 f2 f3 => by
      simp only [xopOf, f0, f1, f2, f3]; rfl
  | xshf a =>
    exact spells_xop 2 a 0 (congrArg (uw 0x34) (by omega)) (by decide) (bits_lt ok) (by decide) fun w f0 f1 f2 f3 => by
      simp only [xopOf, f0, f1, f2, f3]; rfl
  | xside a =>
    exact spells_xop 3 a 0 (congrArg (uw 0x34) (by omega)) (by decide) (bits_lt ok) (by decide) fun w f0 f1 f2 f3 => by
      simp only [xopOf, f0, f1, f2, f3]; rfl
  | xqry d sel =>
    obtain ⟨hd, hs⟩ := Bool.and_eq_true_iff.mp ok
    have le := of_decide_eq_true hs
    exact spells_xop 4 d sel (congrArg (uw 0x34) (by omega)) (by decide) (bits_lt hd) (by omega) fun w f0 f1 f2 f3 => by
      simp only [xopOf, f0, f1, f2, f3]; exact guardI_of _ hs
  | txb off =>
    have ho := bits_lt ok
    refine spells_u rfl (by decide) (by omega) fun w op rest => ?_
    obtain ⟨f0, f1⟩ : fld w 0 23 = off ∧ fld w 23 2 = 0 := by simp only [fld] at rest ⊢; omega
    simp only [uOf, op, txOf, f0, f1]
  | txc m =>
    have hm := bits_lt ok
    refine spells_u rfl (by decide) (by omega) fun w op rest => ?_
    obtain ⟨f0, f1, f2⟩ : fld w 0 20 = 0 ∧ fld w 20 3 = m ∧ fld w 23 2 = 1 := by simp only [fld] at rest ⊢; omega
    simp only [uOf, op, txOf, f0, f1, f2]
    rfl
  | txa c =>
    have hc := bits_lt ok
    refine spells_u rfl (by decide) (by omega) fun w op rest => ?_
    obtain ⟨f0, f1, f2⟩ : fld w 0 8 = c ∧ fld w 8 15 = 0 ∧ fld w 23 2 = 2 := by simp only [fld] at rest ⊢; omega
    simp only [uOf, op, txOf, f0, f1, f2]
    rfl
  | txs d =>
    have hd := bits_lt ok
    refine spells_u rfl (by decide) (by omega) fun w op rest => ?_
    obtain ⟨f0, f1, f2⟩ : fld w 0 15 = 0 ∧ fld w 15 8 = d ∧ fld w 23 2 = 3 := by simp only [fld] at rest ⊢; omega
    simp only [uOf, op, txOf, f0, f1, f2]
    rfl
  | barArrive l n =>
    have hn := of_decide_eq_true ok
    exact spells_bar 1 l n rfl (by decide) hn fun w f0 f1 f2 f3 => by
      simp only [barOf, f0, f1, f2, f3, level_ofCode_code, decide_eq_false (Nat.not_le.mpr hn)]; rfl
  | barWait l n =>
    have hn := of_decide_eq_true ok
    exact spells_bar 2 l n rfl (by decide) hn fun w f0 f1 f2 f3 => by
      simp only [barOf, f0, f1, f2, f3, level_ofCode_code, decide_eq_false (Nat.not_le.mpr hn)]; rfl
  | barSync l n =>
    have hn := of_decide_eq_true ok
    exact spells_bar 3 l n rfl (by decide) hn fun w f0 f1 f2 f3 => by
      simp only [barOf, f0, f1, f2, f3, level_ofCode_code, decide_eq_false (Nat.not_le.mpr hn)]; rfl
  | evb n l b a =>
    obtain ⟨okf, okl⟩ := Bool.and_eq_true_iff.mp ok
    obtain ⟨hn, hl, hb, ha⟩ := bits_lt₄ okf
    refine spells_u rfl (by decide) (by omega) fun w op rest => ?_
    obtain ⟨f0, f1, f2, f3, f4, f5⟩ : fld w 0 5 = 0 ∧ fld w 5 8 = a ∧ fld w 13 4 = b ∧ fld w 17 2 = l ∧ fld w 19 4 = n ∧ fld w 23 2 = 0 := by simp only [fld] at rest ⊢; omega
    simp only [uOf, op, evOf, f0, f1, f2, f3, f4, f5]
    exact guardI_of _ okl
  | evmWr imm =>
    exact spells_evm 0 imm (congrArg (uw 0x37) (by omega)) (by decide) (bits_lt ok) fun w f0 f1 f2 f3 => by
      simp only [evOf, f0, f1, f2, f3]; rfl
  | evmSet imm =>
    exact spells_evm 1 imm (congrArg (uw 0x37) (by omega)) (by decide) (bits_lt ok) fun w f0 f1 f2 f3 => by
      simp only [evOf, f0, f1, f2, f3]; rfl
  | evmClr imm =>
    exact spells_evm 2 imm (congrArg (uw 0x37) (by omega)) (by decide) (bits_lt ok) fun w f0 f1 f2 f3 => by
      simp only [evOf, f0, f1, f2, f3]; rfl
  | evclr imm =>
    have hi := bits_lt ok
    refine spells_u rfl (by decide) (by omega) fun w op rest => ?_
    obtain ⟨f0, f1, f2⟩ : fld w 0 16 = imm ∧ fld w 16 7 = 0 ∧ fld w 23 2 = 2 := by simp only [fld] at rest ⊢; omega
    simp only [uOf, op, evOf, f0, f1, f2]
    rfl
  | wany imm =>
    obtain ⟨hi, ne⟩ := Bool.and_eq_true_iff.mp ok
    have hi := bits_lt hi
    refine spells_u rfl (by decide) (by omega) fun w op rest => ?_
    obtain ⟨f0, f1⟩ : fld w 0 16 = imm ∧ fld w 16 9 = 0 := by simp only [fld] at rest ⊢; omega
    simp only [uOf, op, f0, f1]
    exact guardI_of _ ne
  | _ => exact absurd rfl h

/-- R28, R30, R31: the words of launches, resources, control registers and the SYS group. -/
theorem spells_of_encodeUSys {i : Instr} (h : encodeUSys i ≠ []) (ok : i.fieldsOk = true) : ∃ p w, Spells i p w := by
  cases i with
  | launch d a =>
    obtain ⟨hd, ha⟩ := bits_lt₂ ok
    refine spells_u rfl (by decide) (by omega) fun w op rest => ?_
    obtain ⟨f0, f1, f2⟩ : fld w 0 9 = 0 ∧ fld w 9 8 = a ∧ fld w 17 8 = d := by simp only [fld] at rest ⊢; omega
    simp only [uOf, op, f0, f1, f2]
    rfl
  | takeV m =>
    obtain ⟨hm, ne⟩ := Bool.and_eq_true_iff.mp ok
    have hm := bits_lt hm
    refine spells_u rfl (by decide) (by omega) fun w op rest => ?_
    obtain ⟨f0, f1, f2⟩ : fld w 0 4 = m ∧ fld w 4 19 = 0 ∧ fld w 23 2 = 0 := by simp only [fld] at rest ⊢; omega
    simp only [uOf, op, rsvOf, f0, f1, f2]
    exact guardI_of _ ne
  | giveV m =>
    obtain ⟨hm, ne⟩ := Bool.and_eq_true_iff.mp ok
    have hm := bits_lt hm
    refine spells_u rfl (by decide) (by omega) fun w op rest => ?_
    obtain ⟨f0, f1, f2⟩ : fld w 0 4 = m ∧ fld w 4 19 = 0 ∧ fld w 23 2 = 1 := by simp only [fld] at rest ⊢; omega
    simp only [uOf, op, rsvOf, f0, f1, f2]
    exact guardI_of _ ne
  | takeA c =>
    obtain ⟨lo, hi⟩ := Bool.and_eq_true_iff.mp ok
    have le := of_decide_eq_true hi
    refine spells_u rfl (by decide) (by omega) fun w op rest => ?_
    obtain ⟨f0, f1, f2⟩ : fld w 0 7 = c ∧ fld w 7 16 = 0 ∧ fld w 23 2 = 2 := by simp only [fld] at rest ⊢; omega
    simp only [uOf, op, rsvOf, f0, f1, f2]
    exact guardI_of _ (by rw [lo, hi]; rfl)
  | giveA c =>
    obtain ⟨lo, hi⟩ := Bool.and_eq_true_iff.mp ok
    have le := of_decide_eq_true hi
    refine spells_u rfl (by decide) (by omega) fun w op rest => ?_
    obtain ⟨f0, f1, f2⟩ : fld w 0 7 = c ∧ fld w 7 16 = 0 ∧ fld w 23 2 = 3 := by simp only [fld] at rest ⊢; omega
    simp only [uOf, op, rsvOf, f0, f1, f2]
    exact guardI_of _ (by rw [lo, hi]; rfl)
  | part z =>
    obtain ⟨lo, hi⟩ := Bool.and_eq_true_iff.mp ok
    have le := of_decide_eq_true hi
    refine spells_u rfl (by decide) (by omega) fun w op rest => ?_
    obtain ⟨f0, f1⟩ : fld w 0 3 = z ∧ fld w 3 22 = 0 := by simp only [fld] at rest ⊢; omega
    simp only [uOf, op, f0, f1]
    exact guardI_of _ (by rw [lo, hi]; rfl)
  | sprf t a off =>
    obtain ⟨hta, ho⟩ := Bool.and_eq_true_iff.mp ok
    obtain ⟨ht, ha⟩ := Bool.and_eq_true_iff.mp hta
    have ht := of_decide_eq_true ht; have ha := bits_lt ha; have ho := bits_lt ho
    refine spells_u rfl (by decide) (by omega) fun w op rest => ?_
    obtain ⟨f0, f1, f2, f3⟩ : fld w 0 9 = off ∧ fld w 9 8 = a ∧ fld w 17 2 = t ∧ fld w 19 6 = 0 := by simp only [fld] at rest ⊢; omega
    simp only [uOf, op, decide_eq_true ht, f0, f1, f2, f3]
    rfl
  | sget d n =>
    obtain ⟨hd, hn⟩ := bits_lt₂ ok
    exact spells_sfn 0 d n (congrArg (uw 0x3E) (by omega)) (by decide) hd hn fun w f0 f1 f2 f3 => by
      simp only [sfnOf, f0, f1, f2, f3]; rfl
  | sset n a =>
    obtain ⟨hn, ha⟩ := bits_lt₂ ok
    exact spells_sfn 1 a n (congrArg (uw 0x3E) (by omega)) (by decide) ha hn fun w f0 f1 f2 f3 => by
      simp only [sfnOf, f0, f1, f2, f3]; rfl
  | snop =>
    exact spells_sfn 2 0 0 rfl (by decide) (by decide) (by decide) fun w f0 f1 f2 f3 => by
      simp only [sfnOf, f0, f1, f2, f3]; rfl
  | exit =>
    exact spells_sfn 2 0 1 rfl (by decide) (by decide) (by decide) fun w f0 f1 f2 f3 => by
      simp only [sfnOf, f0, f1, f2, f3]; rfl
  | yield =>
    exact spells_sfn 2 0 2 rfl (by decide) (by decide) (by decide) fun w f0 f1 f2 f3 => by
      simp only [sfnOf, f0, f1, f2, f3]; rfl
  | brk =>
    exact spells_sfn 2 0 4 rfl (by decide) (by decide) (by decide) fun w f0 f1 f2 f3 => by
      simp only [sfnOf, f0, f1, f2, f3]; rfl
  | rte =>
    exact spells_sfn 2 0 5 rfl (by decide) (by decide) (by decide) fun w f0 f1 f2 f3 => by
      simp only [sfnOf, f0, f1, f2, f3]; rfl
  | snap =>
    exact spells_sfn 2 0 6 rfl (by decide) (by decide) (by decide) fun w f0 f1 f2 f3 => by
      simp only [sfnOf, f0, f1, f2, f3]; rfl
  | trap imm =>
    exact spells_sfn 2 imm 3 (congrArg (uw 0x3E) (by omega)) (by decide) (bits_lt ok) (by decide) fun w f0 f1 f2 f3 => by
      simp only [sfnOf, f0, f1, f2, f3]; rfl
  | sleep a =>
    exact spells_sfn 2 a 7 (congrArg (uw 0x3E) (by omega)) (by decide) (bits_lt ok) (by decide) fun w f0 f1 f2 f3 => by
      simp only [sfnOf, f0, f1, f2, f3]; rfl
  | _ => exact absurd rfl h

end Sys2Proof.Proofs
end

section
/-! # The words of the L set -/

namespace Sys2Proof.Proofs

open Machine Laws

/-! ## The forms -/

theorem encode_of_encodeLInt {i : Instr} (h : encodeLInt i ≠ []) : encode i = encodeLInt i := by
  have rest : encodeUAlu i = [] ∧ encodeUMem i = [] ∧ encodeUEngine i = [] ∧ encodeUSys i = [] ∧ encodeLRest i = [] ∧ encodeHost i = [] := by
    cases i <;> first | exact absurd rfl h | exact ⟨rfl, rfl, rfl, rfl, rfl, rfl⟩
  obtain ⟨h1, h2, h3, h4, h5, h6⟩ := rest
  simp only [encode, h1, h2, h3, h4, h5, h6, List.nil_append, List.append_nil]
theorem encode_of_encodeLRest {i : Instr} (h : encodeLRest i ≠ []) : encode i = encodeLRest i := by
  have rest : encodeUAlu i = [] ∧ encodeUMem i = [] ∧ encodeUEngine i = [] ∧ encodeUSys i = [] ∧ encodeLInt i = [] ∧ encodeHost i = [] := by
    cases i <;> first | exact absurd rfl h | exact ⟨rfl, rfl, rfl, rfl, rfl, rfl⟩
  obtain ⟨h1, h2, h3, h4, h5, h6⟩ := rest
  simp only [encode, h1, h2, h3, h4, h5, h6, List.nil_append, List.append_nil]

theorem rep_of_wfNoRep {p : Pre} (h : p.wfNoRep = true) : p.rep = none := Option.isNone_iff_eq_none.mp (Bool.and_elim_left h)
theorem isReg_eq_wf (n : Nat) (b : Opnd) : b.isReg n = b.wf n 0 := by cases b <;> rfl
theorem wf_of_oneTo32 {b : Opnd} (h : b.oneTo32 = true) : b.wf 7 33 = true := by
  cases b with
  | reg n => exact h
  | imm v => simp only [Opnd.oneTo32, Bool.and_eq_true, decide_eq_true_eq] at h; exact decide_eq_true (by omega)
theorem oneTo32_opnd (w : Nat) : (opnd w 7).oneTo32 = oneTo32 w := by
  unfold opnd oneTo32
  split
  · next h => rw [decide_eq_true h, Bool.true_or]; exact bits_fld w 1 7
  · next h => rw [decide_eq_false h, Bool.false_or]; rfl
/-- The byte position of a BFX or BFI specification is below the width of the type (R116). -/
theorem bfWf_lriOf {w : Nat} {p : Pre} (wf : (lriOf w p).wf = true) (wide : wideTy (lriOf w p).t = true) : (lriOf w p).bfWf = bfSpecOk w := by
  have width : ((lriOf w p).t = .i64 ∨ (lriOf w p).t = .n64) ↔ fld w 22 1 = 1 := by
    have : fld w 22 1 = fld w 22 3 % 2 := by simp only [fld]; omega
    rw [this]
    revert wide
    simp only [lriOf]
    have := fld_lt w 22 3
    generalize fld w 22 3 = n at *
    interval_cases n <;> decide
  have pos : fld w 1 7 % 8 = fld w 1 3 := by simp only [fld]; omega
  have top : fld w 1 7 < 64 ↔ fld w 7 1 = 0 := by simp only [fld]; omega
  have b : (lriOf w p).b = opnd w 7 := rfl
  simp only [LRI.bfWf, wf, wide, Bool.true_and, bfSpecOk, b, opnd]
  split
  · next v hv => split at hv <;> simp_all
  · next v hv =>
    split at hv
    · cases hv
    · next odd => cases hv; simp only [pos, top, ← Bool.decide_or, width, odd, decide_false, Bool.false_or, decide_eq_true_eq]

section
variable {i : Instr} {p : Pre} {op : Nat}

/-- An L-set instruction stands after its prefix words. -/
theorem spells_l {v : Nat} (words : encode i = p.words ++ [v]) (hop : op < 64) (hv : v / 2 ^ 25 = op) (pre : p.wf = true) (placed : p.rep = none ∨ op < 0x33 ∨ 0x38 ≤ op ∧ op < 0x3E)
    (read : ∀ w, v = w → fld w 25 6 = op → lOf w p = some i) : ∃ p w, Spells i p w := by
  obtain ⟨w, hw⟩ : ∃ w, v = w := ⟨_, rfl⟩
  rw [hw] at words hv
  have l : isU w = false := decide_eq_false (by simp only [fld]; omega)
  have op_ : fld w 25 6 = op := by simp only [fld]; omega
  refine ⟨p, w, words, pre, ?_, decide_eq_false (by simp only [fld]; omega), fun n => placed.resolve_right fun may => ?_, fun n => ?_⟩
  · rw [baseOf, l]
    exact read w hw op_
  · simp only [noRep, l, op_, Bool.false_or, Bool.or_eq_true, Bool.and_eq_true, decide_eq_true_eq] at n
    omega
  · rw [noExt, l, Bool.false_and] at n
    cases n
/-- The form with ty, vd and va (R27). -/
theorem spells_lw {ty d a low : Nat} (words : encode i = lw p op ty d a low) (hop : op < 64) (pre : p.wf = true) (placed : p.rep = none ∨ op < 0x33 ∨ 0x38 ≤ op ∧ op < 0x3E)
    (ht : ty < 2 ^ 3) (hd : d < 2 ^ 7) (ha : a < 2 ^ 7) (hl : low < 2 ^ 8)
    (read : ∀ w, fld w 25 6 = op → fld w 22 3 = ty → fld w 15 7 = d → fld w 8 7 = a → fld w 0 8 = low → lOf w p = some i) : ∃ p w, Spells i p w := by
  refine spells_l words hop (by omega) pre placed fun w hw op_ => ?_
  obtain ⟨f0, f1, f2, f3⟩ : fld w 22 3 = ty ∧ fld w 15 7 = d ∧ fld w 8 7 = a ∧ fld w 0 8 = low := by simp only [fld]; omega
  exact read w op_ f0 f1 f2 f3
/-- The LR form of an integer type (R27). -/
theorem spells_lri {f : LRI} (words : encode i = lriw op f) (hop : op < 0x33) (wf : f.wf = true)
    (read : ∀ w p, fld w 25 6 = op → lriOf w p = f → lOf w p = some i) : ∃ p w, Spells i p w := by
  obtain ⟨p, t, d, a, b⟩ := f
  simp only [LRI.wf, Bool.and_eq_true] at wf
  obtain ⟨⟨⟨pre, hd⟩, ha⟩, hb⟩ := wf
  refine spells_lw words (by omega) pre (.inr (.inl hop)) (EncodeFits.intTy_lt t) (bits_lt hd) (bits_lt ha) (code_lt hb (by decide))
    fun w op_ f0 f1 f2 f3 => read w p op_ ?_
  rw [lriOf, f0, f1, f2, opnd_of_code f3, intTy_ofCode_code]
/-- The LR form without a type of its own. -/
theorem spells_lrn {f : LRN} {ty lim : Nat} (words : encode i = lrnw op ty f) (hop : op < 0x33) (ht : ty < 8) (wf : f.wf = true)
    (hb : f.b.wf 7 lim = true) (hl : lim ≤ 128) (read : ∀ w p, fld w 25 6 = op → fld w 22 3 = ty → lrnOf w p = f → lOf w p = some i) :
    ∃ p w, Spells i p w := by
  obtain ⟨p, d, a, b⟩ := f
  simp only [LRN.wf, Bool.and_eq_true] at wf
  obtain ⟨⟨pre, hd⟩, ha⟩ := wf
  refine spells_lw words (by omega) pre (.inr (.inl hop)) ht (bits_lt hd) (bits_lt ha) (code_lt hb hl)
    fun w op_ f0 f1 f2 f3 => read w p op_ f0 ?_
  rw [lrnOf, f1, f2, opnd_of_code f3]
/-- The LR form of a float type. -/
theorem spells_lrf {f : LRF} {lo hi : Nat} (words : encode i = lrfw op f) (hop : op < 0x33) (wf : f.wf lo hi = true)
    (read : ∀ w p, fld w 25 6 = op → fld w 15 7 = f.d → (∀ mk, fpOf w p lo hi mk = some (mk f)) → lOf w p = some i) : ∃ p w, Spells i p w := by
  obtain ⟨p, t, d, a, b⟩ := f
  simp only [LRF.wf, Bool.and_eq_true, decide_eq_true_eq] at wf
  obtain ⟨⟨⟨⟨⟨pre, hd⟩, ha⟩, hb⟩, hlo⟩, hhi⟩ := wf
  have ht := EncodeFits.fpTy_lt t; have hb := bits_lt hb
  refine spells_lw (ty := t.code) (low := b * 2) words (by omega) pre (.inr (.inl hop)) (by omega) (bits_lt hd) (bits_lt ha) (by omega)
    fun w op_ f0 f1 f2 f3 => read w p op_ f1 fun mk => ?_
  obtain ⟨even, f4⟩ : w % 2 = 0 ∧ fld w 1 7 = b := by simp only [fld] at f3 ⊢; omega
  simp only [fpOf, lrfOf, f0, f1, f2, even, f4, fpTy_ofCode_code, if_true, decide_eq_true hlo, decide_eq_true hhi]
  rfl
/-- The LM form (R27). -/
theorem spells_lm {f : LM} (words : encode i = lmw op f) (hop : 0x38 ≤ op ∧ op < 0x3E) (wf : f.wf = true)
    (read : ∀ w p, fld w 25 6 = op → lmOf w p = f → lOf w p = some i) : ∃ p w, Spells i p w := by
  obtain ⟨p, t, d, a, b⟩ := f
  simp only [LM.wf, Bool.and_eq_true] at wf
  obtain ⟨⟨⟨pre, hd⟩, ha⟩, hb⟩ := wf
  refine spells_lw words (by omega) pre (.inr (.inr hop)) (EncodeFits.intTy_lt t) (bits_lt hd) (bits_lt ha) (code_lt hb (by decide))
    fun w op_ f0 f1 f2 f3 => read w p op_ ?_
  rw [lmOf, f0, f1, f2, opnd_of_code f3, intTy_ofCode_code]
/-- The LA form (R27). -/
theorem spells_la {f : LA} (words : encode i = law op f) (hop : 0x38 ≤ op ∧ op < 0x3E) (wf : f.wf = true)
    (read : ∀ w p, fld w 25 6 = op → laOf w p = some f → lOf w p = some i) : ∃ p w, Spells i p w := by
  obtain ⟨p, o, d, a, nr⟩ := f
  simp only [LA.wf, Bool.and_eq_true] at wf
  obtain ⟨⟨⟨pre, hd⟩, ha⟩, ho⟩ := wf
  obtain ⟨hty, hfn⟩ := EncodeFits.atomOp_lt o
  have hnr := EncodeFits.bit01_lt nr
  refine spells_lw (low := o.fn * 8 + bit01 nr * 4) words (by omega) pre (.inr (.inr hop)) hty (bits_lt hd) (bits_lt ha) (by omega) fun w op_ f0 f1 f2 f3 => read w p op_ ?_
  obtain ⟨f4, f5, f6⟩ : fld w 3 5 = o.fn ∧ fld w 2 1 = bit01 nr ∧ fld w 0 2 = 0 := by simp only [fld] at f3 ⊢; omega
  simp only [laOf, f0, f1, f2, f4, f5, f6, atomOp_ofCodes_codes ho, bit01_decide, if_true]
/-- The form of the lane reductions (R128). -/
theorem spells_red {f : Red} {scan : Bool} (words : encode i = redw op f) (hop : op < 0x33) (wf : f.wf scan = true)
    (read : ∀ w p, fld w 25 6 = op → redOf w p = some f → lOf w p = some i) : ∃ p w, Spells i p w := by
  obtain ⟨p, o, d, a, excl⟩ := f
  simp only [Red.wf, Bool.and_eq_true] at wf
  obtain ⟨⟨⟨⟨pre, hd⟩, ha⟩, ho⟩, -⟩ := wf
  obtain ⟨hty, hfn⟩ := EncodeFits.redOp_lt o
  have hexcl := EncodeFits.bit01_lt excl
  refine spells_lw (low := bit01 excl * 128 + o.fn * 2 + 1) words (by omega) pre (.inr (.inl hop)) hty (bits_lt hd) (bits_lt ha) (by omega) fun w op_ f0 f1 f2 f3 => read w p op_ ?_
  obtain ⟨f4, f5, f6⟩ : fld w 1 6 = o.fn ∧ fld w 7 1 = bit01 excl ∧ w % 2 = 1 := by simp only [fld] at f3 ⊢; omega
  simp only [redOf, f0, f1, f2, f4, f5, f6, redOp_ofCodes_codes ho, bit01_decide, if_true]
/-- MOVI (R120). -/
theorem spells_li {f : LI} {k : Nat} (words : encode i = liw k f) (hk : k < 4) (wf : f.wf = true)
    (read : ∀ w p, fld w 25 6 = 0x1A → fld w 23 2 = k → liOf w p = f → lOf w p = some i) : ∃ p w, Spells i p w := by
  obtain ⟨p, d, v⟩ := f
  simp only [LI.wf, Bool.and_eq_true] at wf
  obtain ⟨⟨pre, hd⟩, hv⟩ := wf
  have hd := bits_lt hd; have hv := bits_lt hv
  refine spells_l (v := 0x1A * 2 ^ 25 + k * 2 ^ 23 + v / 32768 * 2 ^ 22 + d * 2 ^ 15 + v % 32768) words (op := 0x1A) (by decide) (by omega) pre (.inr (.inl (by decide))) fun w hw op_ => ?_
  obtain ⟨f0, f1, f2, f3⟩ : fld w 23 2 = k ∧ fld w 22 1 = v / 32768 ∧ fld w 15 7 = d ∧ fld w 0 15 = v % 32768 := by
    have hq : v / 32768 < 2 := by omega
    have hr : v % 32768 < 32768 := Nat.mod_lt v (by decide)
    generalize v / 32768 = q at *
    generalize v % 32768 = r at *
    simp only [fld]; omega
  refine read w p op_ f0 ?_
  rw [liOf, f1, f2, f3, Nat.div_add_mod']
/-- The forms of MOV with a number of 8 bits (R121). -/
theorem spells_mov {k d s h : Nat} (words : encode i = lw p 0x1B k d 0 (s * 2 ^ 7 + h * 2 + 1)) (hk : k < 8) (pre : p.wf = true) (hd : bits 7 d = true)
    (hs : bits 8 s = true) (hh : h < 2)
    (read : ∀ w, fld w 22 3 = k → w % 2 = 1 → fld w 1 1 = h → fld w 2 5 = 0 → fld w 7 8 = s → fld w 15 7 = d → movOf w p = some i) :
    ∃ p w, Spells i p w := by
  have hd := bits_lt hd; have hs := bits_lt hs
  refine spells_l (op := 0x1B) words (by decide) (by omega) pre (.inr (.inl (by decide))) fun w hw op => ?_
  obtain ⟨f0, f1, f2⟩ : fld w 22 3 = k ∧ w % 2 = 1 ∧ fld w 1 1 = h := by simp only [fld]; omega
  obtain ⟨f3, f4, f5⟩ : fld w 2 5 = 0 ∧ fld w 7 8 = s ∧ fld w 15 7 = d := by simp only [fld]; omega
  simp only [lOf, op, read w f0 f1 f2 f3 f4 f5]
/-- The branches on a mask (R131). -/
theorem spells_lt {op m off : Nat} (words : encode i = p.words ++ [op * 2 ^ 25 + m * 2 ^ 22 + off]) (hop : op < 64) (pre : p.wfNoRep = true)
    (hm : bits 3 m = true) (ho : bits 22 off = true) (read : ∀ w, fld w 25 6 = op → fld w 22 3 = m → fld w 0 22 = off → lOf w p = some i) :
    ∃ p w, Spells i p w := by
  have hm := bits_lt hm; have ho := bits_lt ho
  refine spells_l (op := op) words hop (by omega) (EncodeFits.wf_of_noRep pre) (.inl (rep_of_wfNoRep pre)) fun w hw op => ?_
  obtain ⟨f0, f1⟩ : fld w 22 3 = m ∧ fld w 0 22 = off := by simp only [fld]; omega
  exact read w op f0 f1
/-- MEET.WAIT and MEET.LEAVE (R130). -/
theorem spells_meet {k n : Nat} (words : encode i = p.words ++ [0x33 * 2 ^ 25 + k * 2 ^ 22 + n * 2 ^ 19]) (hk : k < 8) (pre : p.wfNoRep = true)
    (hn : bits 3 n = true) (read : ∀ w, fld w 25 6 = 0x33 → fld w 22 3 = k → fld w 19 3 = n → fld w 0 19 = 0 → lOf w p = some i) : ∃ p w, Spells i p w := by
  have hn := bits_lt hn
  refine spells_l (op := 0x33) words (by decide) (by omega) (EncodeFits.wf_of_noRep pre) (.inl (rep_of_wfNoRep pre)) fun w hw op => ?_
  obtain ⟨f0, f1, f2⟩ : fld w 22 3 = k ∧ fld w 19 3 = n ∧ fld w 0 19 = 0 := by simp only [fld]; omega
  exact read w op f0 f1 f2
end

/-! ## Reading -/

/-- R27, R33: the lane integer instructions, constants, moves, bit streams, shuffles and votes. -/
theorem spells_of_encodeLInt {i : Instr} (h : encodeLInt i ≠ []) (ok : i.fieldsOk = true) : ∃ p w, Spells i p w := by
  have words := encode_of_encodeLInt h
  cases i with
  | add f | sub f | mul f | mulh f | mad f | div f | rem f | min f | max f | and f | or f | xor f | shl f | shr f | rot f =>
    exact spells_lri words (by decide) ok fun w p op same => by simp only [lOf, op, same]
  | addc f =>
    obtain ⟨wf, two⟩ := Bool.and_eq_true_iff.mp ok
    refine spells_lri words (by decide) wf fun w p op same => ?_
    have two : fld w 22 2 = 2 := by
      have code : f.t.code = fld w 22 3 := by rw [← same]; exact intTy_code_ofCode (fld_lt w 22 3)
      have := of_decide_eq_true two
      simp only [fld] at code ⊢; omega
    simp only [lOf, op, same, two]
    rfl
  | cmpeq f | cmpne f | cmplt f | cmple f =>
    obtain ⟨wf, low⟩ := Bool.and_eq_true_iff.mp ok
    refine spells_lri words (by decide) wf fun w p op same => ?_
    have high : fld w 18 4 = 0 := by
      have d : fld w 15 7 = f.d := by rw [← same]; rfl
      have := of_decide_eq_true low
      simp only [fld] at d ⊢; omega
    simp only [lOf, op, same, high]
    rfl
  | sel f =>
    obtain ⟨wf, wide⟩ := Bool.and_eq_true_iff.mp ok
    refine spells_lri words (by decide) wf fun w p op same => ?_
    simp only [lOf, op, wideOf, same]
    exact guardI_of _ wide
  | bfx f | bfi f =>
    obtain ⟨wf, wide⟩ := Bool.and_eq_true_iff.mp (Bool.and_elim_left ok)
    refine spells_lri words (by decide) wf fun w p op same => ?_
    subst same
    have spec : bfSpecOk w = true := (bfWf_lriOf wf wide).symm.trans ok
    simp only [lOf, op, spec, if_true]
    exact guardI_of _ wide
  | bit fn f =>
    obtain ⟨wf, low⟩ := Bool.and_eq_true_iff.mp ok
    cases fn with
    | some g =>
      have reg : f.b = .reg 0 := of_decide_eq_true low
      refine spells_lrn (lim := 128) words (by decide) (EncodeFits.bitFn_lt (some g)) wf (by rw [reg]; rfl) (by decide) fun w p op ty same => ?_
      have zero : fld w 0 8 = 0 := by rw [← code_opnd w 7, show opnd w 7 = f.b by rw [← same]; rfl, reg]; rfl
      simp only [lOf, op, ty, bitFn_ofCode_code, zero, same]
      rfl
    | none =>
      have imm : f.b.oneTo32 = true := low
      refine spells_lrn words (by decide) (by decide) wf (wf_of_oneTo32 imm) (by decide) fun w p op ty same => ?_
      subst same
      simp only [lOf, op, ty, bitFn_ofCode_code]
      exact guardI_of _ ((oneTo32_opnd w).symm.trans imm)
  | prmb f =>
    obtain ⟨wf, reg⟩ := Bool.and_eq_true_iff.mp ok
    rw [isReg_eq_wf] at reg
    refine spells_lrn words (by decide) (by decide) wf reg (by decide) fun w p op ty same => ?_
    subst same
    have even : w % 2 = 0 := (opnd_wf_iff.mp reg).resolve_right (Nat.not_lt_zero _)
    simp only [lOf, op, ty, even]
    rfl
  | dot4 sg four f =>
    obtain ⟨wf, reg⟩ := Bool.and_eq_true_iff.mp ok
    rw [isReg_eq_wf] at reg
    have hs := EncodeFits.bit01_lt (!sg); have hf := EncodeFits.bit01_lt four
    refine spells_lrn (ty := bit01 (!sg) * 4 + bit01 four * 2) words (by decide) (by omega) wf reg (by decide) fun w p op ty same => ?_
    subst same
    have even : w % 2 = 0 := (opnd_wf_iff.mp reg).resolve_right (Nat.not_lt_zero _)
    obtain ⟨f0, f1, f2⟩ : fld w 22 1 = 0 ∧ fld w 23 1 = bit01 four ∧ fld w 24 1 = bit01 (!sg) := by simp only [fld] at ty ⊢; omega
    simp only [lOf, op, f0, f1, f2, even, bit01_decide]
    cases sg <;> rfl
  | moviZ f | moviS f | moviHi f =>
    exact spells_li words (by decide) ok fun w p op k same => by simp only [lOf, op, k, same]
  | movLane f =>
    obtain ⟨wf, lane⟩ := Bool.and_eq_true_iff.mp ok
    refine spells_lrn words (by decide) (by decide) wf lane (by decide) fun w p op ty same => ?_
    subst same
    simp only [lOf, op, movOf, ty]
    exact guardI_of _ (by simpa only [Bool.or_eq_true, decide_eq_true_eq] using opnd_wf_iff.mp lane)
  | movU p d s hi =>
    obtain ⟨wfd, hs⟩ := Bool.and_eq_true_iff.mp ok
    obtain ⟨wf, hd⟩ := Bool.and_eq_true_iff.mp wfd
    exact spells_mov (k := 1) words (by decide) wf hd hs (EncodeFits.bit01_lt hi) fun w ty f0 f1 f2 f3 f4 => by
      simp only [movOf, ty, f0, f1, f2, f3, f4, bit01_decide]; rfl
  | movC p d n =>
    obtain ⟨wfd, hn⟩ := Bool.and_eq_true_iff.mp ok
    obtain ⟨wf, hd⟩ := Bool.and_eq_true_iff.mp wfd
    refine spells_mov (k := 2) (s := n) (h := 0) (words.trans (congrArg (lw p 0x1B 2 d 0) (by omega))) (by decide) wf hd hn (by decide)
      fun w ty f0 f1 f2 f3 f4 => ?_
    have f5 : fld w 1 6 = 0 := by simp only [fld] at f1 f2 ⊢; omega
    simp only [movOf, ty, f0, f3, f4, f5]
    rfl
  | movTu p d s hi =>
    obtain ⟨wfd, hs⟩ := Bool.and_eq_true_iff.mp ok
    obtain ⟨wf, hd⟩ := Bool.and_eq_true_iff.mp wfd
    exact spells_mov (k := 3) words (by decide) wf hd hs (EncodeFits.bit01_lt hi) fun w ty f0 f1 f2 f3 f4 => by
      simp only [movOf, ty, f0, f1, f2, f3, f4, bit01_decide]; rfl
  | bsr sg f =>
    obtain ⟨wf, imm⟩ := Bool.and_eq_true_iff.mp ok
    have hs := EncodeFits.bit01_lt sg
    refine spells_lrn (ty := bit01 sg) words (by decide) (by omega) wf (wf_of_oneTo32 imm) (by decide) fun w p op ty same => ?_
    subst same
    obtain ⟨f0, f1⟩ : fld w 22 1 = bit01 sg ∧ fld w 23 2 = 0 := by simp only [fld] at ty ⊢; omega
    simp only [lOf, op, f0, f1, bit01_decide]
    exact guardI_of _ ((oneTo32_opnd w).symm.trans imm)
  | bswSet p b =>
    obtain ⟨wf, hb⟩ := Bool.and_eq_true_iff.mp ok
    have hb := bits_lt hb
    refine spells_lw words (by decide) wf (.inr (.inl (by decide))) (by decide) (by decide) (by decide) (by omega) fun w op ty f0 f1 f2 => ?_
    obtain ⟨even, f3, f4⟩ : w % 2 = 0 ∧ fld w 1 7 = b ∧ fld w 8 14 = 0 := by simp only [fld] at f0 f1 f2 ⊢; omega
    simp only [lOf, op, ty, even, f3, f4]
    rfl
  | bswReload p d b =>
    obtain ⟨wfd, hb⟩ := Bool.and_eq_true_iff.mp ok
    obtain ⟨wf, hd⟩ := Bool.and_eq_true_iff.mp wfd
    have hd := bits_lt hd; have hb := bits_lt hb
    refine spells_lw words (by decide) wf (.inr (.inl (by decide))) (by decide) hd (by decide) (by omega) fun w op ty f0 f1 f2 => ?_
    obtain ⟨even, f3⟩ : w % 2 = 0 ∧ fld w 1 7 = b := by simp only [fld] at f2 ⊢; omega
    simp only [lOf, op, ty, even, f0, f1, f3]
    rfl
  | bswQuery p d =>
    obtain ⟨wf, hd⟩ := Bool.and_eq_true_iff.mp ok
    refine spells_lw words (by decide) wf (.inr (.inl (by decide))) (by decide) (bits_lt hd) (by decide) (by decide) fun w op ty f0 f1 f2 => ?_
    have f3 : fld w 0 15 = 0 := by simp only [fld] at f1 f2 ⊢; omega
    simp only [lOf, op, ty, f0, f3]
    rfl
  | shf fn f =>
    obtain ⟨wf, lane⟩ := Bool.and_eq_true_iff.mp ok
    refine spells_lrn words (by decide) (EncodeFits.shfFn_lt fn) wf lane (by decide) fun w p op ty same => ?_
    subst same
    simp only [lOf, op, ty, shfFn_ofCode_code]
    exact guardI_of _ (by simpa only [Bool.or_eq_true, decide_eq_true_eq] using opnd_wf_iff.mp lane)
  | vote fn p m a =>
    obtain ⟨wfm, ha⟩ := Bool.and_eq_true_iff.mp ok
    obtain ⟨wf, hm⟩ := Bool.and_eq_true_iff.mp wfm
    have hm := bits_lt hm
    refine spells_lw words (by decide) wf (.inr (.inl (by decide))) (EncodeFits.voteFn_lt fn) (by omega) (bits_lt ha) (by decide) fun w op ty f0 f1 f2 => ?_
    obtain ⟨f3, f4⟩ : fld w 18 4 = 0 ∧ fld w 15 3 = m := by simp only [fld] at f0 ⊢; omega
    cases fn <;> simp only [VoteFn.code] at ty <;> simp only [lOf, op, ty, f1, f2, f3, f4] <;> rfl
  | voteBallot p d a =>
    obtain ⟨wfd, ha⟩ := Bool.and_eq_true_iff.mp ok
    obtain ⟨wf, hd⟩ := Bool.and_eq_true_iff.mp wfd
    refine spells_lw words (by decide) wf (.inr (.inl (by decide))) (by decide) (bits_lt hd) (bits_lt ha) (by decide) fun w op ty f0 f1 f2 => ?_
    simp only [lOf, op, ty, f0, f1, f2]
    rfl
  | _ => exact absurd rfl h

/-- R27, R33: the lane float instructions, reductions, meets, lane control, lane memory, copies and gathers. -/
theorem spells_of_encodeLRest {i : Instr} (h : encodeLRest i ≠ []) (ok : i.fieldsOk = true) : ∃ p w, Spells i p w := by
  have words := encode_of_encodeLRest h
  cases i with
  | fadd f | fsub f | fmul f | fma f | fmin f | fmax f | fdiv f | pfma f =>
    exact spells_lrf words (by decide) ok fun w p op _ same => by simp only [lOf, op, same]
  | fcmpeq f | fcmplt f | fcmple f | fcmpun f =>
    obtain ⟨wf, low⟩ := Bool.and_eq_true_iff.mp ok
    refine spells_lrf words (by decide) wf fun w p op d same => ?_
    have high : fld w 18 4 = 0 := by
      have := of_decide_eq_true low
      simp only [fld] at d ⊢; omega
    simp only [lOf, op, same, high, if_true]
  | func fn t p d a =>
    obtain ⟨wfda, types⟩ := Bool.and_eq_true_iff.mp ok
    obtain ⟨wfd, ha⟩ := Bool.and_eq_true_iff.mp wfda
    obtain ⟨wf, hd⟩ := Bool.and_eq_true_iff.mp wfd
    have ht := EncodeFits.fpTy_lt t; have hf := EncodeFits.funFn_lt fn
    refine spells_lw words (by decide) wf (.inr (.inl (by decide))) (by omega) (bits_lt hd) (bits_lt ha) (by omega) fun w op ty f0 f1 f2 => ?_
    obtain ⟨odd, f3⟩ : w % 2 = 1 ∧ fld w 1 7 = fn.code := by simp only [fld] at f2 ⊢; omega
    simp only [lOf, op, ty, odd, f0, f1, f3, funFn_ofCode_code, fpTy_ofCode_code]
    exact guardI_of _ types
  | cvt src dst p d a =>
    obtain ⟨wfd, ha⟩ := Bool.and_eq_true_iff.mp ok
    obtain ⟨wf, hd⟩ := Bool.and_eq_true_iff.mp wfd
    have hs := EncodeFits.cvtTy_lt src; have hd' := EncodeFits.cvtTy_lt dst
    refine spells_lw words (by decide) wf (.inr (.inl (by decide))) (by omega) (bits_lt hd) (bits_lt ha) (by omega) fun w op ty f0 f1 f2 => ?_
    obtain ⟨low, f3, f4⟩ : fld w 0 3 = 1 ∧ fld w 3 4 = dst.code ∧ fld w 7 1 * 8 + src.code % 8 = src.code := by simp only [fld] at f2 ⊢; omega
    simp only [lOf, op, ty, low, f0, f1, f3, f4, cvtTy_ofCode_code]
    rfl
  | cvtbTo t p d a b =>
    obtain ⟨wfda, hb⟩ := Bool.and_eq_true_iff.mp ok
    obtain ⟨wfd, ha⟩ := Bool.and_eq_true_iff.mp wfda
    obtain ⟨wf, hd⟩ := Bool.and_eq_true_iff.mp wfd
    have hb := bits_lt hb; have ht := EncodeFits.blockTy_lt t
    refine spells_lw words (by decide) wf (.inr (.inl (by decide))) (by omega) (bits_lt hd) (bits_lt ha) (by omega) fun w op ty f0 f1 f2 => ?_
    obtain ⟨even, f3, f4, f5⟩ : w % 2 = 0 ∧ fld w 1 7 = b ∧ fld w 22 2 = t.code ∧ fld w 24 1 = 0 := by simp only [fld] at ty f2 ⊢; omega
    simp only [lOf, op, even, f0, f1, f3, f4, f5, blockTy_ofCode_code]
    rfl
  | cvtbFrom t p d a b =>
    obtain ⟨wfda, hb⟩ := Bool.and_eq_true_iff.mp ok
    obtain ⟨wfd, ha⟩ := Bool.and_eq_true_iff.mp wfda
    obtain ⟨wf, hd⟩ := Bool.and_eq_true_iff.mp wfd
    have hb := bits_lt hb; have ht := EncodeFits.blockTy_lt t
    refine spells_lw words (by decide) wf (.inr (.inl (by decide))) (by omega) (bits_lt hd) (bits_lt ha) (by omega) fun w op ty f0 f1 f2 => ?_
    obtain ⟨even, f3, f4, f5⟩ : w % 2 = 0 ∧ fld w 1 7 = b ∧ fld w 22 2 = t.code ∧ fld w 24 1 = 1 := by simp only [fld] at ty f2 ⊢; omega
    simp only [lOf, op, even, f0, f1, f3, f4, f5, blockTy_ofCode_code]
    rfl
  | cdot four f =>
    obtain ⟨wf, reg⟩ := Bool.and_eq_true_iff.mp ok
    rw [isReg_eq_wf] at reg
    have hf := EncodeFits.bit01_lt four
    refine spells_lrn (ty := bit01 four) words (by decide) (by omega) wf reg (by decide) fun w p op ty same => ?_
    subst same
    have even : w % 2 = 0 := (opnd_wf_iff.mp reg).resolve_right (Nat.not_lt_zero _)
    obtain ⟨f0, f1⟩ : fld w 23 2 = 0 ∧ fld w 22 1 = bit01 four := by simp only [fld] at ty ⊢; omega
    simp only [lOf, op, f0, f1, even, bit01_decide]
    rfl
  | tred f | segr f =>
    have plain : (!f.excl) = true := Bool.and_elim_right ok
    refine spells_red words (by decide) ok fun w p op same => ?_
    simp only [lOf, op, same]
    exact guardI_of _ plain
  | scan f =>
    exact spells_red words (by decide) ok fun w p op same => by simp only [lOf, op, same]
  | meetOpen p n off =>
    obtain ⟨pren, ho⟩ := Bool.and_eq_true_iff.mp ok
    obtain ⟨pre, hn⟩ := Bool.and_eq_true_iff.mp pren
    have hn := bits_lt hn; have ho := bits_lt ho
    refine spells_l (op := 0x33) words (by decide) (by omega) (EncodeFits.wf_of_noRep pre) (.inl (rep_of_wfNoRep pre)) fun w hw op => ?_
    obtain ⟨f0, f1, f2⟩ : fld w 22 3 = 0 ∧ fld w 19 3 = n ∧ fld w 0 19 = off := by simp only [fld]; omega
    simp only [lOf, op, f0, f1, f2]
  | meetWait p n =>
    obtain ⟨pre, hn⟩ := Bool.and_eq_true_iff.mp ok
    exact spells_meet (k := 1) words (by decide) pre hn fun w op f0 f1 f2 => by simp only [lOf, op, f0, f1, f2]; rfl
  | meetLeave p n =>
    obtain ⟨pre, hn⟩ := Bool.and_eq_true_iff.mp ok
    exact spells_meet (k := 2) words (by decide) pre hn fun w op f0 f1 f2 => by simp only [lOf, op, f0, f1, f2]; rfl
  | brt p m off | brf p m off =>
    obtain ⟨prem, ho⟩ := Bool.and_eq_true_iff.mp ok
    obtain ⟨pre, hm⟩ := Bool.and_eq_true_iff.mp prem
    exact spells_lt words (by decide) pre hm ho fun w op f0 f1 => by simp only [lOf, op, f0, f1]
  | callv p off =>
    obtain ⟨pre, ho⟩ := Bool.and_eq_true_iff.mp ok
    have ho := bits_lt ho
    refine spells_l (op := 0x36) words (by decide) (by omega) (EncodeFits.wf_of_noRep pre) (.inl (rep_of_wfNoRep pre)) fun w hw op => ?_
    obtain ⟨f0, f1⟩ : fld w 22 3 = 0 ∧ fld w 0 22 = off := by simp only [fld]; omega
    simp only [lOf, op, f0, f1]
    rfl
  | jmpv p a =>
    obtain ⟨pre, ha⟩ := Bool.and_eq_true_iff.mp ok
    refine spells_lw words (by decide) (EncodeFits.wf_of_noRep pre) (.inl (rep_of_wfNoRep pre)) (by decide) (by decide) (bits_lt ha) (by decide)
      fun w op ty f0 f1 f2 => ?_
    have f3 : fld w 15 10 = 0 := by simp only [fld] at ty f0 ⊢; omega
    simp only [lOf, op, f1, f2, f3]
    rfl
  | ld f | st f | lds f | sts f =>
    exact spells_lm words (by decide) ok fun w p op same => by simp only [lOf, op, same]
  | atom f | atoms f =>
    exact spells_la words (by decide) ok fun w p op same => by simp only [lOf, op, same]
  | cpy f =>
    obtain ⟨p, z, tok, src, d⟩ := f
    obtain ⟨⟨⟨⟨pre, hz⟩, ht⟩, hs⟩, hd⟩ : (((p.wfNoRep = true ∧ z < 3) ∧ tok < 2 ^ 3) ∧ src < 2 ^ 6) ∧ d < 2 ^ 6 := by
      have ok : (p.wfNoRep && z < 3 && bits 3 tok && bits 6 src && bits 6 d) = true := ok
      simpa only [bits, Bool.and_eq_true, decide_eq_true_eq] using ok
    refine spells_l (op := 0x3E) (v := 0x3E * 2 ^ 25 + z * 2 ^ 23 + tok * 2 ^ 20 + src * 2 ^ 11 + d * 2 ^ 5) words
      (by decide) (by omega) (EncodeFits.wf_of_noRep pre) (.inl (rep_of_wfNoRep pre)) fun w hw op => ?_
    obtain ⟨f0, f1, f2, f3⟩ : fld w 23 2 = z ∧ fld w 20 3 = tok ∧ fld w 17 3 = 0 ∧ fld w 11 6 = src := by simp only [fld]; omega
    obtain ⟨f4, f5⟩ : fld w 5 6 = d ∧ fld w 0 5 = 0 := by simp only [fld]; omega
    simp only [lOf, op, f0, f1, f2, f3, f4, f5, decide_eq_false (Nat.ne_of_lt hz)]
    rfl
  | cpyBuf f =>
    obtain ⟨p, z, tok, fin, refill, src, o, cb⟩ := f
    obtain ⟨⟨⟨⟨⟨pre, hz⟩, ht⟩, hs⟩, ho⟩, hc⟩ : ((((p.wfNoRep = true ∧ z < 3) ∧ tok < 2 ^ 3) ∧ src < 2 ^ 6) ∧ o < 2 ^ 6) ∧ cb < 2 ^ 5 := by
      have ok : (p.wfNoRep && z < 3 && bits 3 tok && bits 6 src && bits 6 o && bits 5 cb) = true := ok
      simpa only [bits, Bool.and_eq_true, decide_eq_true_eq] using ok
    have hk : cpyKind fin refill < 8 := by cases fin <;> cases refill <;> decide
    refine spells_l (op := 0x3E) (v := 0x3E * 2 ^ 25 + z * 2 ^ 23 + tok * 2 ^ 20 + cpyKind fin refill * 2 ^ 17 + src * 2 ^ 11 + o * 2 ^ 5 + cb) words
      (by decide) (by omega) (EncodeFits.wf_of_noRep pre) (.inl (rep_of_wfNoRep pre)) fun w hw op => ?_
    obtain ⟨f0, f1, f2, f3⟩ : fld w 23 2 = z ∧ fld w 20 3 = tok ∧ fld w 17 3 = cpyKind fin refill ∧ fld w 11 6 = src := by simp only [fld]; omega
    obtain ⟨f4, f5⟩ : fld w 5 6 = o ∧ fld w 0 5 = cb := by simp only [fld]; omega
    simp only [lOf, op, f0, f1, f2, f3, f4, f5, decide_eq_false (Nat.ne_of_lt hz)]
    cases fin <;> cases refill <;> rfl
  | gath f =>
    obtain ⟨p, z, tok, base, idx, o⟩ := f
    obtain ⟨⟨⟨⟨⟨pre, hz⟩, ht⟩, hb⟩, hi⟩, ho⟩ : ((((p.wfNoRep = true ∧ z < 3) ∧ tok < 2 ^ 3) ∧ base < 2 ^ 6) ∧ idx < 2 ^ 7) ∧ o < 2 ^ 7 := by
      have ok : (p.wfNoRep && z < 3 && bits 3 tok && bits 6 base && bits 7 idx && bits 7 o) = true := ok
      simpa only [bits, Bool.and_eq_true, decide_eq_true_eq] using ok
    refine spells_l (op := 0x3F) (v := 0x3F * 2 ^ 25 + z * 2 ^ 23 + tok * 2 ^ 20 + base * 2 ^ 14 + idx * 2 ^ 7 + o) words
      (by decide) (by omega) (EncodeFits.wf_of_noRep pre) (.inl (rep_of_wfNoRep pre)) fun w hw op => ?_
    obtain ⟨f0, f1, f2⟩ : fld w 23 2 = z ∧ fld w 20 3 = tok ∧ fld w 14 6 = base := by simp only [fld]; omega
    obtain ⟨f3, f4⟩ : fld w 7 7 = idx ∧ fld w 0 7 = o := by simp only [fld]; omega
    simp only [lOf, op, f0, f1, f2, f3, f4]
    exact guardI_of _ (decide_eq_true hz)
  | _ => exact absurd rfl h

end Sys2Proof.Proofs
end

section
/-! # What is decoded: words of the U set -/

namespace Sys2Proof.Proofs

open Machine Laws

/-- The instruction is written as a prefix and a base word, and its fields hold values that the encoding admits. -/
def Writes (i : Instr) (p : Pre) (w : Nat) : Prop := encode i = p.words ++ [w] ∧ i.fieldsOk = true

theorem eq_three {n : Nat} (h : n < 2 ^ 2) (h0 : n ≠ 0) (h1 : n ≠ 1) (h2 : n ≠ 2) : n = 3 := by omega
theorem low_fields (w : Nat) (ns : List Nat) (h : ns.sum = 25) : fld w 0 25 = fields w 0 ns := by rw [fields_eq, h]

/-! ## The words of a form -/

/-- A word of the U set, with the EXT word that may stand before it. -/
structure UWord (w : Nat) (e : Option Ext) : Prop where
  lt : w < 2 ^ 32
  set : isU w = true
  ext : noExt w = true → e = none

section
variable {i j : Instr} {w op rest : Nat} {e : Option Ext} {c : Bool}

theorem uw_of_fields (u : UWord w e) (hop : fld w 25 6 = op) (low : fld w 0 25 = rest) : uw op rest = [w] := by
  have lt := u.lt
  have set : fld w 31 1 = 1 := of_decide_eq_true u.set
  rw [uw, ← hop, ← low]
  simp only [fld] at set ⊢
  exact congrArg (fun w => [w]) (by omega)
/-- Only SLD, SLDW, SST and SSTW have an EXT word. -/
theorem ext_of_op (u : UWord w e) (hop : fld w 25 6 = op) (h : op < 0x1A ∨ 0x1D < op) : e = none := by
  refine u.ext ?_
  rw [noExt, u.set, hop, Bool.true_and, Bool.not_eq_true', Bool.and_eq_false_iff, decide_eq_false_iff_not, decide_eq_false_iff_not]
  omega
theorem writes_u (u : UWord w e) (words : encode i = uw op rest) (hop : fld w 25 6 = op) (plain : op < 0x1A ∨ 0x1D < op) (low : fld w 0 25 = rest)
    (ok : i.fieldsOk = true) : Writes i ⟨none, e⟩ w := by
  rw [ext_of_op u hop plain]
  exact ⟨words.trans (uw_of_fields u hop low), ok⟩
theorem wf_urOf (w : Nat) : (urOf w).wf 256 = true := by
  simp only [UR.wf, urOf, bits_fld, Bool.true_and]
  exact wf_opnd w 8
theorem wf_urOf_of {lim : Nat} (h : w % 2 = 0 ∨ fld w 1 8 < lim) : (urOf w).wf lim = true := by
  simp only [UR.wf, urOf, bits_fld, Bool.true_and]
  exact opnd_wf_iff.mpr h
theorem writes_ur (u : UWord w e) (words : encode i = urw op (urOf w)) (hop : fld w 25 6 = op) (plain : op < 0x1A ∨ 0x1D < op) (ok : i.fieldsOk = true) :
    Writes i ⟨none, e⟩ w := by
  refine writes_u u words hop plain ?_ ok
  simp only [urOf, code_opnd, fld]
  omega
theorem writes_um (u : UWord w e) (he : extWf e = true) (words : encodeUMem i = umw op (umOf w e)) (hop : fld w 25 6 = op)
    (fields : i.fieldsOk = (umOf w e).wf) : Writes i ⟨none, e⟩ w := by
  refine ⟨?_, fields.trans ?_⟩
  · rw [encode_of_encodeUMem (by rw [words]; simp [umw, uw]), words]
    refine congrArg (_ ++ ·) (uw_of_fields u hop ?_)
    simp only [umOf, fld]
    omega
  · simp only [UM.wf, umOf, bits_fld, he, Bool.and_self]

theorem bits_fld₂ (w a b m n : Nat) : (bits m (fld w a m) && bits n (fld w b n)) = true := by rw [bits_fld, bits_fld]; rfl
theorem bits_fld₃ (w a b c l m n : Nat) : (bits l (fld w a l) && bits m (fld w b m) && bits n (fld w c n)) = true := by
  rw [bits_fld, bits_fld, bits_fld]; rfl

/-- FENCE (R222). -/
theorem writes_of_fenceOf (u : UWord w e) (op : fld w 25 6 = 0x29) (h : fenceOf w = some i) : Writes i ⟨none, e⟩ w := by
  unfold fenceOf at h
  split at h
  · cases h
  · next zero =>
    have zero : fld w 0 19 = 0 := by simpa using zero
    split at h
    case h_1 sc k hs | h_2 sc k hs | h_3 sc k hs | h_4 sc k hs =>
      cases h
      have hs := scope_code_of hs
      exact writes_u u rfl op (by decide) (by rw [low_fields w [19, 3, 3] rfl]; simp only [fields, Nat.reduceAdd]; omega) rfl
    case h_5 k hs =>
      cases h
      have hs : 0 = fld w 19 3 := scope_code_of hs
      exact writes_u u rfl op (by decide) (by rw [low_fields w [19, 3, 3] rfl]; simp only [fields, Nat.reduceAdd]; omega) rfl
    case h_6 => cases h
/-- MFN (R308). -/
theorem writes_of_mfnOf (u : UWord w e) (op : fld w 25 6 = 0x2F) (h : mfnOf w = some i) : Writes i ⟨none, e⟩ w := by
  simp only [mfnOf] at h
  split at h
  case h_1 k | h_2 k | h_5 k =>
    obtain ⟨hc, rfl⟩ := of_guardI h
    simp only [Bool.and_eq_true, decide_eq_true_eq] at hc
    exact writes_u u rfl op (by decide) (by rw [low_fields w [2, 4, 8, 8, 3] rfl]; simp only [fields, Nat.reduceAdd]; omega) (bits_fld ..)
  case h_3 k | h_6 k =>
    obtain ⟨hc, rfl⟩ := of_guardI h
    simp only [Bool.and_eq_true, decide_eq_true_eq] at hc
    exact writes_u u rfl op (by decide) (by rw [low_fields w [2, 4, 8, 8, 3] rfl]; simp only [fields, Nat.reduceAdd]; omega) (bits_fld₂ ..)
  case h_4 k =>
    split at h
    · next s =>
      obtain ⟨hc, rfl⟩ := of_guardI h
      simp only [Bool.and_eq_true, decide_eq_true_eq] at hc
      exact writes_u u rfl op (by decide) (by rw [low_fields w [2, 4, 8, 8, 3] rfl]; simp only [fields, Nat.reduceAdd]; omega) (bits_fld ..)
    · split at h
      · next s =>
        obtain ⟨hc, rfl⟩ := of_guardI h
        have hc := of_decide_eq_true hc
        exact writes_u u rfl op (by decide) (by rw [low_fields w [2, 4, 8, 8, 3] rfl]; simp only [fields, Nat.reduceAdd]; omega) (bits_fld₂ ..)
      · split at h
        · next s =>
          obtain ⟨hc, rfl⟩ := of_guardI h
          have hc := of_decide_eq_true hc
          exact writes_u u rfl op (by decide) (by rw [low_fields w [2, 4, 8, 8, 3] rfl]; simp only [fields, Nat.reduceAdd]; omega) (bits_fld₂ ..)
        · cases h
  case h_7 => cases h
/-- CBOP (R297). -/
theorem writes_of_cbOf (u : UWord w e) (op : fld w 25 6 = 0x31) (h : cbOf w = some i) : Writes i ⟨none, e⟩ w := by
  simp only [cbOf] at h
  split at h
  · cases h
  · next odd =>
    have even : fld w 0 1 = 0 := by simp only [fld]; omega
    split at h
    case h_1 k =>
      cases h
      exact writes_u u rfl op (by decide) (by rw [low_fields w [1, 8, 8, 5, 3] rfl]; simp only [fields, Nat.reduceAdd]; omega) (bits_fld₃ ..)
    case h_2 k =>
      obtain ⟨hc, rfl⟩ := of_guardI h
      obtain ⟨hb, ne⟩ := Bool.and_eq_true_iff.mp hc
      have hb := of_decide_eq_true hb
      exact writes_u u rfl op (by decide) (by rw [low_fields w [1, 8, 8, 5, 3] rfl]; simp only [fields, Nat.reduceAdd]; omega) (Bool.and_eq_true_iff.mpr ⟨bits_fld₂ .., ne⟩)
    case h_3 k | h_4 k | h_5 k =>
      obtain ⟨hc, rfl⟩ := of_guardI h
      have hb := of_decide_eq_true hc
      exact writes_u u rfl op (by decide) (by rw [low_fields w [1, 8, 8, 5, 3] rfl]; simp only [fields, Nat.reduceAdd]; omega) (bits_fld₂ ..)
    case h_6 => cases h
/-- XOP (R387). -/
theorem writes_of_xopOf (u : UWord w e) (op : fld w 25 6 = 0x34) (h : xopOf w = some i) : Writes i ⟨none, e⟩ w := by
  simp only [xopOf] at h
  split at h
  · cases h
  · next zero =>
    have zero : fld w 0 6 = 0 := by simpa using zero
    split at h
    case h_1 k | h_2 k | h_3 k | h_4 k =>
      obtain ⟨hc, rfl⟩ := of_guardI h
      have hs := of_decide_eq_true hc
      exact writes_u u rfl op (by decide) (by rw [low_fields w [6, 8, 8, 3] rfl]; simp only [fields, Nat.reduceAdd]; omega) (bits_fld ..)
    case h_5 k =>
      obtain ⟨hc, rfl⟩ := of_guardI h
      exact writes_u u rfl op (by decide) (by rw [low_fields w [6, 8, 8, 3] rfl]; simp only [fields, Nat.reduceAdd]; omega) (Bool.and_eq_true_iff.mpr ⟨bits_fld .., hc⟩)
    case h_6 => cases h
/-- The forms of TXOP (R232). -/
theorem writes_of_txOf (u : UWord w e) (op : fld w 25 6 = 0x35) (h : txOf w = some i) : Writes i ⟨none, e⟩ w := by
  unfold txOf at h
  split at h
  case h_1 k =>
    cases h
    exact writes_u u rfl op (by decide) (by rw [low_fields w [23, 2] rfl]; simp only [fields, Nat.reduceAdd]; omega) (bits_fld ..)
  case h_2 k =>
    obtain ⟨hc, rfl⟩ := of_guardI h
    have zero := of_decide_eq_true hc
    exact writes_u u rfl op (by decide) (by rw [low_fields w [20, 3, 2] rfl]; simp only [fields, Nat.reduceAdd]; omega) (bits_fld ..)
  case h_3 k =>
    obtain ⟨hc, rfl⟩ := of_guardI h
    have zero := of_decide_eq_true hc
    exact writes_u u rfl op (by decide) (by rw [low_fields w [8, 15, 2] rfl]; simp only [fields, Nat.reduceAdd]; omega) (bits_fld ..)
  case h_4 k0 k1 k2 =>
    obtain ⟨hc, rfl⟩ := of_guardI h
    have zero := of_decide_eq_true hc
    have k := eq_three (fld_lt w 23 2) k0 k1 k2
    exact writes_u u rfl op (by decide) (by rw [low_fields w [15, 8, 2] rfl]; simp only [fields, Nat.reduceAdd]; omega) (bits_fld ..)
/-- BAR (R161). -/
theorem writes_of_barOf (u : UWord w e) (op : fld w 25 6 = 0x36) (h : barOf w = some i) : Writes i ⟨none, e⟩ w := by
  simp only [barOf] at h
  split at h
  · cases h
  · next hc =>
    simp only [Bool.or_eq_true, bne_iff_ne, ne_eq, decide_eq_true_eq, not_or, not_not, Nat.not_le] at hc
    obtain ⟨zero, few⟩ := hc
    have level := level_code_ofCode (fld_lt w 23 2)
    split at h
    case h_1 k | h_2 k | h_3 k =>
      cases h
      exact writes_u u rfl op (by decide) (by rw [low_fields w [17, 2, 4, 2] rfl]; simp only [fields, Nat.reduceAdd]; omega) (decide_eq_true few)
    case h_4 => cases h
/-- The forms of EVOP (R166). -/
theorem writes_of_evOf (u : UWord w e) (op : fld w 25 6 = 0x37) (h : evOf w = some i) : Writes i ⟨none, e⟩ w := by
  unfold evOf at h
  split at h
  case h_1 k =>
    obtain ⟨hc, rfl⟩ := of_guardI h
    obtain ⟨zero, names⟩ := Bool.and_eq_true_iff.mp hc
    have zero := of_decide_eq_true zero
    refine writes_u u rfl op (by decide) (by rw [low_fields w [5, 8, 4, 2, 4, 2] rfl]; simp only [fields, Nat.reduceAdd]; omega) (Bool.and_eq_true_iff.mpr ⟨?_, names⟩)
    simp only [bits_fld, Bool.and_self]
  case h_2 k =>
    split at h
    · cases h
    · next zero =>
      have zero : fld w 16 5 = 0 := by simpa using zero
      split at h
      case h_1 s | h_2 s | h_3 s =>
        cases h
        exact writes_u u rfl op (by decide) (by rw [low_fields w [16, 5, 2, 2] rfl]; simp only [fields, Nat.reduceAdd]; omega) (bits_fld ..)
      case h_4 => cases h
  case h_3 k =>
    obtain ⟨hc, rfl⟩ := of_guardI h
    have zero := of_decide_eq_true hc
    exact writes_u u rfl op (by decide) (by rw [low_fields w [16, 7, 2] rfl]; simp only [fields, Nat.reduceAdd]; omega) (bits_fld ..)
  case h_4 => cases h
/-- The forms of RSVOP (R168). -/
theorem writes_of_rsvOf (u : UWord w e) (op : fld w 25 6 = 0x3A) (h : rsvOf w = some i) : Writes i ⟨none, e⟩ w := by
  simp only [rsvOf] at h
  split at h
  case h_1 k | h_2 k =>
    obtain ⟨hc, rfl⟩ := of_guardI h
    obtain ⟨zero, ne⟩ := Bool.and_eq_true_iff.mp hc
    have zero := of_decide_eq_true zero
    exact writes_u u rfl op (by decide) (by rw [low_fields w [4, 19, 2] rfl]; simp only [fields, Nat.reduceAdd]; omega) (Bool.and_eq_true_iff.mpr ⟨bits_fld .., ne⟩)
  case h_3 k =>
    obtain ⟨hc, rfl⟩ := of_guardI h
    obtain ⟨zlo, hi⟩ := Bool.and_eq_true_iff.mp hc
    obtain ⟨zero, lo⟩ := Bool.and_eq_true_iff.mp zlo
    have zero := of_decide_eq_true zero
    exact writes_u u rfl op (by decide) (by rw [low_fields w [7, 16, 2] rfl]; simp only [fields, Nat.reduceAdd]; omega) (Bool.and_eq_true_iff.mpr ⟨lo, hi⟩)
  case h_4 k0 k1 k2 =>
    obtain ⟨hc, rfl⟩ := of_guardI h
    obtain ⟨zlo, hi⟩ := Bool.and_eq_true_iff.mp hc
    obtain ⟨zero, lo⟩ := Bool.and_eq_true_iff.mp zlo
    have zero := of_decide_eq_true zero
    have k := eq_three (fld_lt w 23 2) k0 k1 k2
    exact writes_u u rfl op (by decide) (by rw [low_fields w [7, 16, 2] rfl]; simp only [fields, Nat.reduceAdd]; omega) (Bool.and_eq_true_iff.mpr ⟨lo, hi⟩)
/-- SFN (R31, R322). -/
theorem writes_of_sfnOf (u : UWord w e) (op : fld w 25 6 = 0x3E) (h : sfnOf w = some i) : Writes i ⟨none, e⟩ w := by
  simp only [sfnOf] at h
  split at h
  · cases h
  · next zero =>
    have zero : fld w 0 6 = 0 := by simpa using zero
    split at h
    case h_1 k | h_2 k =>
      cases h
      exact writes_u u rfl op (by decide) (by rw [low_fields w [6, 8, 8, 3] rfl]; simp only [fields, Nat.reduceAdd]; omega) (bits_fld₂ ..)
    case h_3 k =>
      split at h
      case h_1 n | h_2 n | h_3 n | h_5 n | h_6 n | h_7 n =>
        obtain ⟨hc, rfl⟩ := of_guardI h
        have hx := of_decide_eq_true hc
        exact writes_u u rfl op (by decide) (by rw [low_fields w [6, 8, 8, 3] rfl]; simp only [fields, Nat.reduceAdd]; omega) rfl
      case h_4 n | h_8 n =>
        cases h
        exact writes_u u rfl op (by decide) (by rw [low_fields w [6, 8, 8, 3] rfl]; simp only [fields, Nat.reduceAdd]; omega) (bits_fld ..)
      case h_9 => cases h
    case h_4 => cases h
/-- MDRN (R306). -/
theorem writes_of_mdrnOf (u : UWord w e) (op : fld w 25 6 = 0x2E) (h : mdrnOf w = some i) : Writes i ⟨none, e⟩ w := by
  simp only [mdrnOf] at h
  split at h
  · next tile =>
    obtain ⟨hc, rfl⟩ := of_guardI h
    simp only [Bool.and_eq_true, decide_eq_true_eq] at hc
    have clr := bit01_decide_fld w 15
    refine writes_u u rfl op (by decide) (by rw [low_fields w [3, 2, 3, 4, 3, 1, 1, 8] rfl]; simp only [fields, Nat.reduceAdd]; omega) ?_
    show (bits 8 _ && bits 4 _ && bits 3 _ && bits 2 _) = true
    simp only [bits_fld, Bool.and_self]
  · next spad =>
    have spad : fld w 16 1 = 1 := by have := fld_lt w 16 1; omega
    split at h
    · next cv hcv =>
      obtain ⟨hc, rfl⟩ := of_guardI h
      have zero := of_decide_eq_true hc
      have clr := bit01_decide_fld w 15
      have hcv := conv_code_of hcv
      exact writes_u u rfl op (by decide) (by rw [low_fields w [4, 8, 3, 1, 1, 8] rfl]; simp only [fields, Nat.reduceAdd]; omega) (bits_fld₂ ..)
    · cases h
/-- R28, R30: what a word of the U set is read as is written as that word. The cases are the opcodes in the decoder's order. -/
theorem writes_of_uOf (u : UWord w e) (he : extWf e = true) (h : uOf w e = some i) : Writes i ⟨none, e⟩ w := by
  unfold uOf at h
  split at h
  case h_1 op | h_2 op | h_3 op | h_4 op | h_5 op | h_6 op | h_7 op | h_8 op | h_9 op | h_10 op | h_11 op | h_12 op | h_13 op | h_14 op
    | h_15 op | h_16 op | h_17 op | h_18 op | h_19 op | h_20 op | h_21 op =>
    cases h
    exact writes_ur u rfl op (by decide) (wf_urOf w)
  case h_22 op | h_23 op =>
    obtain ⟨hc, rfl⟩ := of_guardI h
    simp only [Bool.or_eq_true, decide_eq_true_eq] at hc
    exact writes_ur u rfl op (by decide) (wf_urOf_of (by simp only [fld] at hc ⊢; omega))
  case h_24 op =>
    obtain ⟨hc, rfl⟩ := of_guardI h
    obtain ⟨odd, few⟩ := Bool.and_eq_true_iff.mp hc
    have odd : fld w 0 1 = 1 := by have := of_decide_eq_true odd; simp only [fld]; omega
    exact writes_u u rfl op (by decide) (by rw [low_fields w [1, 8, 8, 8] rfl]; simp only [fields, Nat.reduceAdd]; omega) (Bool.and_eq_true_iff.mpr ⟨bits_fld₂ .., few⟩)
  case h_25 op | h_26 op | h_34 op | h_35 op | h_36 op | h_41 op =>
    cases h
    exact writes_u u rfl op (by decide) (by rw [low_fields w [17, 8] rfl]; simp only [fields, Nat.reduceAdd]; omega) (bits_fld₂ ..)
  case h_27 op | h_28 op | h_29 op | h_30 op =>
    cases h
    exact writes_um u he rfl op rfl
  case h_31 op =>
    cases h
    exact writes_u u rfl op (by decide) (by rw [low_fields w [9, 8, 8] rfl]; simp only [fields, Nat.reduceAdd]; omega) (bits_fld₃ ..)
  case h_32 op =>
    obtain ⟨hc, rfl⟩ := of_guardI h
    simp only [Bool.and_eq_true, Bool.or_eq_true, decide_eq_true_eq] at hc
    obtain ⟨top, imm⟩ := hc
    refine writes_ur u rfl op (by decide) ?_
    have a : bits 7 (fld w 9 8) = true := decide_eq_true (by simp only [fld] at top ⊢; omega)
    have b : (opnd w 8).wf 8 32 = true := opnd_wf_iff.mpr imm
    show (bits 8 (fld w 17 8) && bits 7 (fld w 9 8) && (opnd w 8).wf 8 32) = true
    rw [bits_fld, a, b]
    rfl
  case h_33 op | h_38 op =>
    cases h
    exact writes_u u rfl op (by decide) rfl (bits_fld ..)
  case h_37 op | h_39 op =>
    obtain ⟨hc, rfl⟩ := of_guardI h
    simp only [Bool.and_eq_true, decide_eq_true_eq] at hc
    exact writes_u u rfl op (by decide) (by rw [low_fields w [9, 8, 8] rfl]; simp only [fields, Nat.reduceAdd]; omega) (bits_fld ..)
  case h_40 op =>
    obtain ⟨hc, rfl⟩ := of_guardI h
    exact writes_u u rfl op (by decide) (of_decide_eq_true hc) rfl
  case h_42 op => exact writes_of_fenceOf u op h
  case h_43 op | h_45 op =>
    obtain ⟨hc, rfl⟩ := of_guardI h
    have zero := of_decide_eq_true hc
    exact writes_u u rfl op (by decide) (by rw [low_fields w [13, 8, 4] rfl]; simp only [fields, Nat.reduceAdd]; omega) (bits_fld₂ ..)
  case h_44 op =>
    split at h
    · next s =>
      obtain ⟨hc, rfl⟩ := of_guardI h
      have zero := of_decide_eq_true hc
      exact writes_u u rfl op (by decide) (by rw [low_fields w [4, 1, 8, 8, 4] rfl]; simp only [fields, Nat.reduceAdd]; omega) (bits_fld₃ ..)
    · obtain ⟨hc, rfl⟩ := of_guardI h
      have zero := of_decide_eq_true hc
      exact writes_u u rfl op (by decide) (by rw [low_fields w [13, 8, 4] rfl]; simp only [fields, Nat.reduceAdd]; omega) (bits_fld₂ ..)
  case h_46 op =>
    obtain ⟨hc, rfl⟩ := of_guardI h
    have zero := of_decide_eq_true hc
    split
    · next pair => exact writes_u u rfl op (by decide) (by rw [low_fields w [8, 1, 8, 4, 4] rfl]; simp only [fields, Nat.reduceAdd]; omega) (bits_fld₃ ..)
    · next pair =>
      have pair : fld w 8 1 = 0 := by have := fld_lt w 8 1; omega
      exact writes_u u rfl op (by decide) (by rw [low_fields w [8, 1, 8, 4, 4] rfl]; simp only [fields, Nat.reduceAdd]; omega) (bits_fld₃ ..)
  case h_47 op => exact writes_of_mdrnOf u op h
  case h_48 op => exact writes_of_mfnOf u op h
  case h_49 op =>
    obtain ⟨hc, rfl⟩ := of_guardI h
    obtain ⟨zero, size⟩ := Bool.and_eq_true_iff.mp hc
    have zero := of_decide_eq_true zero
    refine writes_u u rfl op (by decide) (by rw [low_fields w [4, 8, 8, 3, 2] rfl]; simp only [fields, Nat.reduceAdd]; omega) ?_
    show (decide (fld w 23 2 < 3) && bits 3 _ && bits 8 _ && bits 8 _) = true
    simp only [size, bits_fld, Bool.and_self]
  case h_50 op => exact writes_of_cbOf u op h
  case h_51 op =>
    obtain ⟨hc, rfl⟩ := of_guardI h
    have zero := of_decide_eq_true hc
    have queue := qclass_code_ofCode (fld_lt w 23 2)
    exact writes_u u rfl op (by decide) (by rw [low_fields w [15, 8, 2] rfl]; simp only [fields, Nat.reduceAdd]; omega) (bits_fld ..)
  case h_52 op =>
    obtain ⟨hc, rfl⟩ := of_guardI h
    obtain ⟨zero, ne⟩ := Bool.and_eq_true_iff.mp hc
    have zero := of_decide_eq_true zero
    exact writes_u u rfl op (by decide) (by rw [low_fields w [8, 9, 8] rfl]; simp only [fields, Nat.reduceAdd]; omega) (Bool.and_eq_true_iff.mpr ⟨bits_fld₂ .., ne⟩)
  case h_53 op => exact writes_of_xopOf u op h
  case h_54 op => exact writes_of_txOf u op h
  case h_55 op => exact writes_of_barOf u op h
  case h_56 op => exact writes_of_evOf u op h
  case h_57 op =>
    obtain ⟨hc, rfl⟩ := of_guardI h
    obtain ⟨zero, ne⟩ := Bool.and_eq_true_iff.mp hc
    have zero := of_decide_eq_true zero
    exact writes_u u rfl op (by decide) (by rw [low_fields w [16, 9] rfl]; simp only [fields, Nat.reduceAdd]; omega) (Bool.and_eq_true_iff.mpr ⟨bits_fld .., ne⟩)
  case h_58 op =>
    obtain ⟨hc, rfl⟩ := of_guardI h
    have zero := of_decide_eq_true hc
    exact writes_u u rfl op (by decide) (by rw [low_fields w [9, 8, 8] rfl]; simp only [fields, Nat.reduceAdd]; omega) (bits_fld₂ ..)
  case h_59 op => exact writes_of_rsvOf u op h
  case h_60 op =>
    obtain ⟨hc, rfl⟩ := of_guardI h
    obtain ⟨zlo, hi⟩ := Bool.and_eq_true_iff.mp hc
    obtain ⟨zero, lo⟩ := Bool.and_eq_true_iff.mp zlo
    have zero := of_decide_eq_true zero
    exact writes_u u rfl op (by decide) (by rw [low_fields w [3, 22] rfl]; simp only [fields, Nat.reduceAdd]; omega) (Bool.and_eq_true_iff.mpr ⟨lo, hi⟩)
  case h_61 op =>
    obtain ⟨hc, rfl⟩ := of_guardI h
    obtain ⟨zero, kind⟩ := Bool.and_eq_true_iff.mp hc
    have zero := of_decide_eq_true zero
    refine writes_u u rfl op (by decide) (by rw [low_fields w [9, 8, 2, 6] rfl]; simp only [fields, Nat.reduceAdd]; omega) ?_
    show (decide (fld w 17 2 < 3) && bits 8 _ && bits 9 _) = true
    simp only [kind, bits_fld, Bool.and_self]
  case h_62 op => exact writes_of_sfnOf u op h
  case h_63 => cases h
end

end Sys2Proof.Proofs
end

section
/-! # What is decoded: words of the L set -/

namespace Sys2Proof.Proofs

open Machine Laws

/-! ## The words of a form -/

/-- A word of the L set, with the prefixes that stand before it. -/
structure LWord (w : Nat) (p : Pre) : Prop where
  lt : w < 2 ^ 32
  set : isU w = false
  pre : p.wf = true
  rep : noRep w = true → p.rep = none

section
variable {i j : Instr} {w op : Nat} {p : Pre} {c : Bool}

theorem writes_int (words : encodeLInt i = p.words ++ [w]) (ok : i.fieldsOk = true) : Writes i p w :=
  ⟨by rw [encode_of_encodeLInt (by rw [words]; simp), words], ok⟩
theorem writes_rest (words : encodeLRest i = p.words ++ [w]) (ok : i.fieldsOk = true) : Writes i p w :=
  ⟨by rw [encode_of_encodeLRest (by rw [words]; simp), words], ok⟩
theorem lword_of_fields {v : Nat} (l : LWord w p) (hop : fld w 25 6 = op) (low : op * 2 ^ 25 + fld w 0 25 = v) : p.words ++ [v] = p.words ++ [w] := by
  have lt := l.lt
  have set : ¬fld w 31 1 = 1 := of_decide_eq_false l.set
  have same : v = w := by simp only [fld] at set hop low; omega
  rw [same]
theorem lw_of_fields {ty d a low : Nat} (l : LWord w p) (hop : fld w 25 6 = op) (rest : fld w 0 25 = ty * 2 ^ 22 + d * 2 ^ 15 + a * 2 ^ 8 + low) :
    lw p op ty d a low = p.words ++ [w] := by
  refine lword_of_fields l hop ?_
  omega
/-- The four fields of the LR, LM and LA forms (R27). -/
theorem lw_fields (l : LWord w p) (hop : fld w 25 6 = op) : lw p op (fld w 22 3) (fld w 15 7) (fld w 8 7) (fld w 0 8) = p.words ++ [w] := by
  refine lw_of_fields l hop ?_
  rw [low_fields w [8, 7, 7, 3] rfl]
  simp only [fields, Nat.reduceAdd]
  omega
theorem lriw_lriOf (l : LWord w p) (hop : fld w 25 6 = op) : lriw op (lriOf w p) = p.words ++ [w] := by
  rw [← lw_fields l hop, lriw]
  simp only [lriOf, intTy_code_ofCode (fld_lt w 22 3), code_opnd]
theorem lmw_lmOf (l : LWord w p) (hop : fld w 25 6 = op) : lmw op (lmOf w p) = p.words ++ [w] := by
  rw [← lw_fields l hop, lmw]
  simp only [lmOf, intTy_code_ofCode (fld_lt w 22 3), code_opnd]
theorem lrnw_lrnOf (l : LWord w p) (hop : fld w 25 6 = op) : lrnw op (fld w 22 3) (lrnOf w p) = p.words ++ [w] := by
  rw [← lw_fields l hop, lrnw]
  simp only [lrnOf, code_opnd]
theorem wf_lriOf (l : LWord w p) : (lriOf w p).wf = true := by
  simp only [LRI.wf, lriOf, l.pre, bits_fld, Bool.true_and]
  exact wf_opnd w 7
theorem wf_lmOf (l : LWord w p) : (lmOf w p).wf = true := by
  simp only [LM.wf, lmOf, l.pre, bits_fld, Bool.true_and]
  exact wf_opnd w 7
theorem wf_lrnOf (l : LWord w p) : (lrnOf w p).wf = true := by simp only [LRN.wf, lrnOf, l.pre, bits_fld, Bool.and_self]
/-- A float form (R27, R33). -/
theorem of_fpOf {lo hi : Nat} {mk : LRF → Instr} (l : LWord w p) (hop : fld w 25 6 = op) (h : fpOf w p lo hi mk = some i) :
    ∃ f, i = mk f ∧ lrfw op f = p.words ++ [w] ∧ f.wf lo hi = true ∧ f.d = fld w 15 7 := by
  unfold fpOf at h
  split at h
  · next f hf =>
    obtain ⟨types, rfl⟩ := of_guardI h
    refine ⟨f, rfl, ?_⟩
    unfold lrfOf at hf
    split at hf
    · next t ht =>
      split at hf
      · next even =>
        cases hf
        have code := fpTy_code_of ht
        refine ⟨?_, ?_, rfl⟩
        · have low : fld w 1 7 * 2 = fld w 0 8 := by simp only [fld]; omega
          rw [← lw_fields l hop, lrfw]
          simp only [code, low]
        · simpa only [LRF.wf, l.pre, bits_fld, Bool.true_and, code] using types
      · cases hf
    · cases hf
  · cases h
/-- The LA form (R27). -/
theorem of_laOf {f : LA} (l : LWord w p) (hop : fld w 25 6 = op) (h : laOf w p = some f) : law op f = p.words ++ [w] ∧ f.wf = true := by
  unfold laOf at h
  split at h
  · next o ho =>
    split at h
    · next zero =>
      cases h
      obtain ⟨fn, ty, wf⟩ := atomOp_codes_of (fld_lt w 22 3) ho
      refine ⟨?_, by simp only [LA.wf, l.pre, bits_fld, wf, Bool.and_self]⟩
      have low : fld w 3 5 * 8 + fld w 2 1 * 4 = fld w 0 8 := by simp only [fld] at zero ⊢; omega
      rw [← lw_fields l hop, law]
      simp only [fn, ty, bit01_decide_fld, low]
    · cases h
  · cases h
/-- The form of the lane reductions (R128). -/
theorem of_redOf {f : Red} {scan : Bool} (l : LWord w p) (hop : fld w 25 6 = op) (h : redOf w p = some f) (plain : (scan || !f.excl) = true) :
    redw op f = p.words ++ [w] ∧ f.wf scan = true := by
  unfold redOf at h
  split at h
  · next o ho =>
    split at h
    · next odd =>
      cases h
      obtain ⟨fn, ty, wf⟩ := redOp_codes_of (fld_lt w 22 3) ho
      refine ⟨?_, by simp only [Red.wf, l.pre, bits_fld, wf, Bool.true_and]; exact plain⟩
      have low : fld w 7 1 * 128 + fld w 1 6 * 2 + 1 = fld w 0 8 := by simp only [fld]; omega
      rw [← lw_fields l hop, redw]
      simp only [fn, ty, bit01_decide_fld, low]
    · cases h
  · cases h
/-- MOVI (R120). -/
theorem liw_liOf (l : LWord w p) (hop : fld w 25 6 = 0x1A) : liw (fld w 23 2) (liOf w p) = p.words ++ [w] := by
  refine lword_of_fields l hop ?_
  have := fld_lt w 0 15
  have quot : (fld w 22 1 * 32768 + fld w 0 15) / 32768 = fld w 22 1 := by omega
  have rest : (fld w 22 1 * 32768 + fld w 0 15) % 32768 = fld w 0 15 := by omega
  simp only [liOf, quot, rest]
  rw [low_fields w [15, 7, 1, 2] rfl]
  simp only [fields, Nat.reduceAdd]
  omega
theorem wf_liOf (l : LWord w p) : (liOf w p).wf = true := by
  have := fld_lt w 0 15; have := fld_lt w 22 1
  simp only [LI.wf, liOf, l.pre, bits_fld, Bool.true_and]
  exact decide_eq_true (by omega)
/-- The four kinds of CPY in the buffer form (R293). -/
theorem cpyKind_of {k : Nat} (h0 : 0 < k) (h5 : k < 5) : cpyKind (decide (k = 2) || decide (k = 4)) (decide (3 ≤ k)) = k := by
  interval_cases k <;> rfl
theorem wfNoRep_of_op (l : LWord w p) (hop : fld w 25 6 = op) (h : 0x33 ≤ op ∧ op ≤ 0x37 ∨ 0x3E ≤ op) : p.wfNoRep = true := by
  have none_ : p.rep = none := l.rep (by
    simp only [noRep, hop, Bool.or_eq_true, Bool.and_eq_true, decide_eq_true_eq]
    omega)
  simp only [Pre.wfNoRep, none_, Option.isNone_none, Bool.true_and]
  exact Bool.and_elim_right l.pre
theorem oneTo32_lrnOf (h : oneTo32 w = true) : (lrnOf w p).b.oneTo32 = true := (oneTo32_opnd w).trans h
theorem isReg_lrnOf (even : w % 2 = 0) : (lrnOf w p).b.isReg 7 = true := (isReg_eq_wf 7 _).trans (opnd_wf_iff.mpr (.inl even))

/-- MOV (R33, R121). -/
theorem writes_of_movOf (l : LWord w p) (op : fld w 25 6 = 0x1B) (h : movOf w p = some i) : Writes i p w := by
  unfold movOf at h
  split at h
  case h_1 k =>
    obtain ⟨hc, rfl⟩ := of_guardI h
    simp only [Bool.or_eq_true, decide_eq_true_eq] at hc
    have words := lrnw_lrnOf l op
    rw [k] at words
    exact writes_int words (Bool.and_eq_true_iff.mpr ⟨wf_lrnOf l, opnd_wf_iff.mpr hc⟩)
  case h_2 k | h_4 k =>
    obtain ⟨hc, rfl⟩ := of_guardI h
    simp only [Bool.and_eq_true, decide_eq_true_eq] at hc
    have odd : fld w 0 1 = 1 := by simp only [fld]; omega
    have hi := bit01_decide_fld w 1
    refine writes_int (lw_of_fields l op (by rw [low_fields w [1, 1, 5, 8, 7, 3] rfl]; simp only [fields, Nat.reduceAdd]; omega)) ?_
    exact Bool.and_eq_true_iff.mpr ⟨Bool.and_eq_true_iff.mpr ⟨l.pre, bits_fld ..⟩, bits_fld ..⟩
  case h_3 k =>
    obtain ⟨hc, rfl⟩ := of_guardI h
    simp only [Bool.and_eq_true, decide_eq_true_eq] at hc
    have odd : fld w 0 1 = 1 := by simp only [fld]; omega
    refine writes_int (lw_of_fields l op (by rw [low_fields w [1, 6, 8, 7, 3] rfl]; simp only [fields, Nat.reduceAdd]; omega)) ?_
    exact Bool.and_eq_true_iff.mpr ⟨Bool.and_eq_true_iff.mpr ⟨l.pre, bits_fld ..⟩, bits_fld ..⟩
  case h_5 => cases h
/-- R27, R33: what a word of the L set is read as is written as that word. The cases are the opcodes in the decoder's order. -/
theorem writes_of_lOf (l : LWord w p) (h : lOf w p = some i) : Writes i p w := by
  unfold lOf at h
  split at h
  case h_1 op | h_2 op | h_3 op | h_4 op | h_5 op | h_6 op | h_7 op | h_8 op | h_9 op | h_10 op | h_11 op | h_12 op | h_13 op | h_14 op | h_15 op =>
    cases h
    exact writes_int (lriw_lriOf l op) (wf_lriOf l)
  case h_16 op =>
    obtain ⟨hc, rfl⟩ := of_guardI h
    have two := of_decide_eq_true hc
    have code : (lriOf w p).t.code % 4 = 2 := by
      rw [show (lriOf w p).t.code = fld w 22 3 from intTy_code_ofCode (fld_lt w 22 3)]
      simp only [fld] at two ⊢; omega
    exact writes_int (lriw_lriOf l op) (Bool.and_eq_true_iff.mpr ⟨wf_lriOf l, decide_eq_true code⟩)
  case h_17 op | h_18 op | h_19 op | h_20 op =>
    obtain ⟨hc, rfl⟩ := of_guardI h
    have high := of_decide_eq_true hc
    have mask : (lriOf w p).d < 8 := by simp only [lriOf, fld] at high ⊢; omega
    exact writes_int (lriw_lriOf l op) (Bool.and_eq_true_iff.mpr ⟨wf_lriOf l, decide_eq_true mask⟩)
  case h_21 op =>
    obtain ⟨wide, rfl⟩ := of_guardI h
    exact writes_int (lriw_lriOf l op) (Bool.and_eq_true_iff.mpr ⟨wf_lriOf l, wide⟩)
  case h_22 op | h_23 op =>
    split at h
    · next spec =>
      obtain ⟨wide, rfl⟩ := of_guardI h
      exact writes_int (lriw_lriOf l op) ((bfWf_lriOf (wf_lriOf l) wide).trans spec)
    · cases h
  case h_24 op =>
    have words := lrnw_lrnOf l op
    rw [← bitFn_code_ofCode (fld_lt w 22 3)] at words
    split at h
    · next fn hf =>
      obtain ⟨hc, rfl⟩ := of_guardI h
      rw [hf] at words
      have zero : (lrnOf w p).b = .reg 0 := opnd_of_code (of_decide_eq_true hc)
      exact writes_int words (Bool.and_eq_true_iff.mpr ⟨wf_lrnOf l, decide_eq_true zero⟩)
    · next hf =>
      obtain ⟨hc, rfl⟩ := of_guardI h
      rw [hf] at words
      exact writes_int words (Bool.and_eq_true_iff.mpr ⟨wf_lrnOf l, oneTo32_lrnOf hc⟩)
  case h_25 op =>
    obtain ⟨hc, rfl⟩ := of_guardI h
    simp only [Bool.and_eq_true, decide_eq_true_eq] at hc
    have words := lrnw_lrnOf l op
    rw [hc.1] at words
    exact writes_int words (Bool.and_eq_true_iff.mpr ⟨wf_lrnOf l, isReg_lrnOf hc.2⟩)
  case h_26 op =>
    obtain ⟨hc, rfl⟩ := of_guardI h
    simp only [Bool.and_eq_true, decide_eq_true_eq] at hc
    have words := lrnw_lrnOf l op
    have ty : fld w 22 3 = bit01 (!decide (fld w 24 1 = 0)) * 4 + bit01 (decide (fld w 23 1 = 1)) * 2 := by
      have not_ : (!decide (fld w 24 1 = 0)) = decide (fld w 24 1 = 1) := by
        have := fld_lt w 24 1
        rw [← decide_not]
        exact decide_eq_decide.mpr (by omega)
      rw [not_, bit01_decide_fld, bit01_decide_fld]
      simp only [fld] at hc ⊢; omega
    rw [ty] at words
    exact writes_int words (Bool.and_eq_true_iff.mpr ⟨wf_lrnOf l, isReg_lrnOf hc.2⟩)
  case h_27 op =>
    have words := liw_liOf l op
    split at h
    case h_1 k | h_2 k | h_3 k =>
      cases h
      rw [k] at words
      exact writes_int words (wf_liOf l)
    case h_4 => cases h
  case h_28 op => exact writes_of_movOf l op h
  case h_29 op =>
    obtain ⟨hc, rfl⟩ := of_guardI h
    obtain ⟨zero, imm⟩ := Bool.and_eq_true_iff.mp hc
    have zero := of_decide_eq_true zero
    have words := lrnw_lrnOf l op
    have ty : fld w 22 3 = bit01 (decide (fld w 22 1 = 1)) := by
      rw [bit01_decide_fld]
      simp only [fld] at zero ⊢; omega
    rw [ty] at words
    exact writes_int words (Bool.and_eq_true_iff.mpr ⟨wf_lrnOf l, oneTo32_lrnOf imm⟩)
  case h_30 op =>
    split at h
    case h_1 k =>
      obtain ⟨hc, rfl⟩ := of_guardI h
      simp only [Bool.and_eq_true, decide_eq_true_eq] at hc
      have even : fld w 0 1 = 0 := by simp only [fld]; omega
      exact writes_int (lw_of_fields l op (by rw [low_fields w [1, 7, 14, 3] rfl]; simp only [fields, Nat.reduceAdd]; omega)) (Bool.and_eq_true_iff.mpr ⟨l.pre, bits_fld ..⟩)
    case h_2 k =>
      obtain ⟨hc, rfl⟩ := of_guardI h
      simp only [Bool.and_eq_true, decide_eq_true_eq] at hc
      have even : fld w 0 1 = 0 := by simp only [fld]; omega
      exact writes_int (lw_of_fields l op (by rw [low_fields w [1, 7, 7, 7, 3] rfl]; simp only [fields, Nat.reduceAdd]; omega)) (Bool.and_eq_true_iff.mpr ⟨Bool.and_eq_true_iff.mpr ⟨l.pre, bits_fld ..⟩, bits_fld ..⟩)
    case h_3 k =>
      obtain ⟨hc, rfl⟩ := of_guardI h
      have zero := of_decide_eq_true hc
      exact writes_int (lw_of_fields l op (by rw [low_fields w [15, 7, 3] rfl]; simp only [fields, Nat.reduceAdd]; omega)) (Bool.and_eq_true_iff.mpr ⟨l.pre, bits_fld ..⟩)
    case h_4 => cases h
  case h_31 op =>
    split at h
    · next fn hf =>
      obtain ⟨hc, rfl⟩ := of_guardI h
      simp only [Bool.or_eq_true, decide_eq_true_eq] at hc
      have words := lrnw_lrnOf l op
      rw [← shfFn_code_of hf] at words
      exact writes_int words (Bool.and_eq_true_iff.mpr ⟨wf_lrnOf l, opnd_wf_iff.mpr hc⟩)
    · cases h
  case h_32 op =>
    split at h
    · cases h
    · next zero =>
      have zero : fld w 0 8 = 0 := by simpa using zero
      split at h
      case h_1 k | h_2 k | h_4 k =>
        obtain ⟨hc, rfl⟩ := of_guardI h
        have high := of_decide_eq_true hc
        exact writes_int (lw_of_fields l op (by rw [low_fields w [8, 7, 3, 4, 3] rfl]; simp only [fields, Nat.reduceAdd, VoteFn.code]; omega)) (Bool.and_eq_true_iff.mpr ⟨Bool.and_eq_true_iff.mpr ⟨l.pre, bits_fld ..⟩, bits_fld ..⟩)
      case h_3 k =>
        cases h
        exact writes_int (lw_of_fields l op (by rw [low_fields w [8, 7, 7, 3] rfl]; simp only [fields, Nat.reduceAdd]; omega)) (Bool.and_eq_true_iff.mpr ⟨Bool.and_eq_true_iff.mpr ⟨l.pre, bits_fld ..⟩, bits_fld ..⟩)
      case h_5 => cases h
  case h_33 op | h_34 op | h_35 op | h_36 op | h_37 op | h_38 op | h_39 op | h_47 op =>
    obtain ⟨f, rfl, words, wf, -⟩ := of_fpOf l op h
    exact writes_rest words wf
  case h_40 op | h_41 op | h_42 op | h_43 op =>
    split at h
    · next high =>
      obtain ⟨f, rfl, words, wf, hd⟩ := of_fpOf l op h
      have mask : f.d < 8 := by simp only [fld] at high hd; omega
      exact writes_rest words (Bool.and_eq_true_iff.mpr ⟨wf, decide_eq_true mask⟩)
    · cases h
  case h_44 op =>
    split at h
    · next fn t hf ht =>
      obtain ⟨hc, rfl⟩ := of_guardI h
      obtain ⟨odd, types⟩ := Bool.and_eq_true_iff.mp hc
      have odd : fld w 0 1 = 1 := by have := of_decide_eq_true odd; simp only [fld]; omega
      have hf := funFn_code_of hf
      have ht := fpTy_code_of ht
      rw [← ht] at types
      exact writes_rest (lw_of_fields l op (by rw [low_fields w [1, 7, 7, 7, 3] rfl]; simp only [fields, Nat.reduceAdd]; omega)) (Bool.and_eq_true_iff.mpr ⟨Bool.and_eq_true_iff.mpr ⟨Bool.and_eq_true_iff.mpr ⟨l.pre, bits_fld ..⟩, bits_fld ..⟩, types⟩)
    · cases h
  case h_45 op =>
    split at h
    · next src dst hs hd =>
      obtain ⟨hc, rfl⟩ := of_guardI h
      have low := of_decide_eq_true hc
      have hs := cvtTy_code_of hs
      have hd := cvtTy_code_of hd
      have := fld_lt w 22 3
      have rest : src.code % 8 = fld w 22 3 := by omega
      have quot : src.code / 8 = fld w 7 1 := by omega
      exact writes_rest (lw_of_fields l op (by rw [low_fields w [3, 4, 1, 7, 7, 3] rfl]; simp only [fields, Nat.reduceAdd]; omega)) (Bool.and_eq_true_iff.mpr ⟨Bool.and_eq_true_iff.mpr ⟨l.pre, bits_fld ..⟩, bits_fld ..⟩)
    · cases h
  case h_46 op =>
    split at h
    · next t ht =>
      obtain ⟨hc, rfl⟩ := of_guardI h
      have even : fld w 0 1 = 0 := by have := of_decide_eq_true hc; simp only [fld]; omega
      have ht := blockTy_code_of ht
      split
      · next to_ =>
        exact writes_rest (lw_of_fields l op (by rw [low_fields w [1, 7, 7, 7, 2, 1] rfl]; simp only [fields, Nat.reduceAdd]; omega)) (Bool.and_eq_true_iff.mpr ⟨Bool.and_eq_true_iff.mpr ⟨Bool.and_eq_true_iff.mpr ⟨l.pre, bits_fld ..⟩, bits_fld ..⟩, bits_fld ..⟩)
      · next from_ =>
        have from_ : fld w 24 1 = 1 := by have := fld_lt w 24 1; omega
        exact writes_rest (lw_of_fields l op (by rw [low_fields w [1, 7, 7, 7, 2, 1] rfl]; simp only [fields, Nat.reduceAdd]; omega)) (Bool.and_eq_true_iff.mpr ⟨Bool.and_eq_true_iff.mpr ⟨Bool.and_eq_true_iff.mpr ⟨l.pre, bits_fld ..⟩, bits_fld ..⟩, bits_fld ..⟩)
    · cases h
  case h_48 op =>
    obtain ⟨hc, rfl⟩ := of_guardI h
    simp only [Bool.and_eq_true, decide_eq_true_eq] at hc
    have words := lrnw_lrnOf l op
    have ty : fld w 22 3 = bit01 (decide (fld w 22 1 = 1)) := by
      rw [bit01_decide_fld]
      simp only [fld] at hc ⊢; omega
    rw [ty] at words
    exact writes_rest words (Bool.and_eq_true_iff.mpr ⟨wf_lrnOf l, isReg_lrnOf hc.2⟩)
  case h_49 op | h_51 op =>
    split at h
    · next f hf =>
      obtain ⟨plain, rfl⟩ := of_guardI h
      obtain ⟨words, wf⟩ := of_redOf l op hf (scan := false) plain
      exact writes_rest words wf
    · cases h
  case h_50 op =>
    split at h
    · next f hf =>
      cases h
      obtain ⟨words, wf⟩ := of_redOf l op hf (scan := true) rfl
      exact writes_rest words wf
    · cases h
  case h_52 op =>
    have pre := wfNoRep_of_op l op (by decide)
    split at h
    case h_1 k =>
      cases h
      exact writes_rest (lword_of_fields l op (by rw [low_fields w [19, 3, 3] rfl]; simp only [fields, Nat.reduceAdd]; omega)) (Bool.and_eq_true_iff.mpr ⟨Bool.and_eq_true_iff.mpr ⟨pre, bits_fld ..⟩, bits_fld ..⟩)
    case h_2 k | h_3 k =>
      obtain ⟨hc, rfl⟩ := of_guardI h
      have zero := of_decide_eq_true hc
      exact writes_rest (lword_of_fields l op (by rw [low_fields w [19, 3, 3] rfl]; simp only [fields, Nat.reduceAdd]; omega)) (Bool.and_eq_true_iff.mpr ⟨pre, bits_fld ..⟩)
    case h_4 => cases h
  case h_53 op | h_54 op =>
    have pre := wfNoRep_of_op l op (by decide)
    cases h
    exact writes_rest (lword_of_fields l op (by rw [low_fields w [22, 3] rfl]; simp only [fields, Nat.reduceAdd]; omega)) (Bool.and_eq_true_iff.mpr ⟨Bool.and_eq_true_iff.mpr ⟨pre, bits_fld ..⟩, bits_fld ..⟩)
  case h_55 op =>
    have pre := wfNoRep_of_op l op (by decide)
    obtain ⟨hc, rfl⟩ := of_guardI h
    have zero := of_decide_eq_true hc
    exact writes_rest (lword_of_fields l op (by rw [low_fields w [22, 3] rfl]; simp only [fields, Nat.reduceAdd]; omega)) (Bool.and_eq_true_iff.mpr ⟨pre, bits_fld ..⟩)
  case h_56 op =>
    have pre := wfNoRep_of_op l op (by decide)
    obtain ⟨hc, rfl⟩ := of_guardI h
    simp only [Bool.and_eq_true, decide_eq_true_eq] at hc
    exact writes_rest (lw_of_fields l op (by rw [low_fields w [8, 7, 10] rfl]; simp only [fields, Nat.reduceAdd]; omega)) (Bool.and_eq_true_iff.mpr ⟨pre, bits_fld ..⟩)
  case h_57 op | h_58 op | h_59 op | h_60 op =>
    cases h
    exact writes_rest (lmw_lmOf l op) (wf_lmOf l)
  case h_61 op | h_62 op =>
    split at h
    · next f hf =>
      cases h
      obtain ⟨words, wf⟩ := of_laOf l op hf
      exact writes_rest words wf
    · cases h
  case h_63 op =>
    have pre := wfNoRep_of_op l op (by decide)
    split at h
    · cases h
    · next ok =>
      simp only [Bool.or_eq_true, decide_eq_true_eq, not_or, Nat.not_le] at ok
      obtain ⟨size, kinds⟩ := ok
      have size : fld w 23 2 < 3 := by have := fld_lt w 23 2; omega
      split at h
      · next kind =>
        obtain ⟨hc, rfl⟩ := of_guardI h
        have zero := of_decide_eq_true hc
        refine writes_rest (lword_of_fields l op (by rw [low_fields w [5, 6, 6, 3, 3, 2] rfl]; simp only [fields, Nat.reduceAdd]; omega)) ?_
        show (p.wfNoRep && decide (fld w 23 2 < 3) && bits 3 _ && bits 6 _ && bits 6 _) = true
        simp only [pre, decide_eq_true size, bits_fld, Bool.and_self]
      · next kind =>
        cases h
        have code := cpyKind_of (by omega) kinds
        refine writes_rest (lword_of_fields l op (by rw [code, low_fields w [5, 6, 6, 3, 3, 2] rfl]; simp only [fields, Nat.reduceAdd]; omega)) ?_
        show (p.wfNoRep && decide (fld w 23 2 < 3) && bits 3 _ && bits 6 _ && bits 6 _ && bits 5 _) = true
        simp only [pre, decide_eq_true size, bits_fld, Bool.and_self]
  case h_64 =>
    have op : fld w 25 6 = 0x3F := by
      have := fld_lt w 25 6
      simp only [imp_false] at *
      omega
    have pre := wfNoRep_of_op l op (by decide)
    obtain ⟨hc, rfl⟩ := of_guardI h
    have size := hc
    refine writes_rest (lword_of_fields l op (by rw [low_fields w [7, 7, 6, 3, 2] rfl]; simp only [fields, Nat.reduceAdd]; omega)) ?_
    show (p.wfNoRep && decide (fld w 23 2 < 3) && bits 3 _ && bits 6 _ && bits 7 _ && bits 7 _) = true
    simp only [pre, size, bits_fld, Bool.and_self]
end

end Sys2Proof.Proofs
end

section
/-! # Encoding and decoding -/

namespace Sys2Proof.Proofs

open Machine Laws

/-! ## What the decoder answers -/

section
variable {i : Instr} {p : Pre} {w n : Nat} {ws : List Nat}

/-- What a base word is read as after its prefixes is written as those words. -/
theorem writes_of_baseOf (hw : w < 2 ^ 32) (pre : p.wf = true) (rep : noRep w = true → p.rep = none) (ext : noExt w = true → p.ext = none)
    (h : baseOf p w = some i) : Writes i p w := by
  unfold baseOf at h
  split at h
  · next u =>
    obtain ⟨r, e⟩ := p
    obtain rfl : r = none := rep (by rw [noRep, u]; rfl)
    exact writes_of_uOf ⟨hw, u, ext⟩ (Bool.and_elim_right pre) h
  · next l => exact writes_of_lOf ⟨hw, Bool.eq_false_iff.mpr l, pre, rep⟩ h

/-- A REP word, or an EXT word (R37). -/
structure PrefixWord (k w : Nat) : Prop where
  lt : w < 2 ^ 32
  pre : isPre w = true
  kind : fld w 23 2 = k

theorem prefixWord_of_none {k : Nat} : ∀ x ∈ (none : Option Nat), PrefixWord k x := fun _ h => nomatch h
theorem prefixWord_of_some {k : Nat} (h : PrefixWord k w) : ∀ x ∈ some w, PrefixWord k x := fun _ hx => Option.some.inj hx ▸ h

/-- The words of prefixes are those of their fields, when the decoder takes them. -/
theorem rep_of_words {r : Option Nat} (hr : ∀ x ∈ r, PrefixWord 1 x) (h : r.map repOf ≠ some none) :
    ∃ o : Option Rep, (r.map repOf).bind id = o ∧ r = o.map Rep.word ∧ ∀ x ∈ o, x.wf = true := by
  cases r with
  | none => exact ⟨none, rfl, rfl, nofun⟩
  | some x =>
    obtain ⟨lt, pre, kind⟩ := hr x rfl
    cases e : repOf x with
    | none => exact absurd (congrArg some e) h
    | some o =>
      obtain ⟨word, wf⟩ := word_of_repOf lt pre kind e
      exact ⟨some o, by rw [Option.map_some, e]; rfl, congrArg some word.symm, fun _ hx => Option.some.inj hx ▸ wf⟩
theorem ext_of_words {r : Option Nat} (hr : ∀ x ∈ r, PrefixWord 0 x) (h : r.map extOf ≠ some none) :
    ∃ o : Option Ext, (r.map extOf).bind id = o ∧ r = o.map Ext.word ∧ extWf o = true := by
  cases r with
  | none => exact ⟨none, rfl, rfl, rfl⟩
  | some x =>
    obtain ⟨lt, pre, kind⟩ := hr x rfl
    cases e : extOf x with
    | none => exact absurd (congrArg some e) h
    | some o =>
      obtain ⟨word, wf⟩ := word_of_extOf lt pre kind e
      exact ⟨some o, by rw [Option.map_some, e]; rfl, congrArg some word.symm, wf⟩

/-- The checks of R43 that an instruction passes. -/
def Checked (i : Instr) : Prop := i.baseOk = true ∧ i.repOk = true ∧ i.extOk = true ∧ i.numsOk = true

theorem of_decodeBase_go {rw ew : Option Nat} (h : decodeBase.go w rw ew = .ok i) :
    rw.map repOf ≠ some none ∧ ew.map extOf ≠ some none ∧ baseOf ⟨(rw.map repOf).bind id, (ew.map extOf).bind id⟩ w = some i ∧ Checked i := by
  simp only [decodeBase.go] at h
  split at h
  · cases h
  · next j base =>
    split at h
    · cases h
    · next baseOk =>
      split at h
      · cases h
      · next repOk =>
        split at h
        · cases h
        · next extOk =>
          split at h
          · cases h
          · next numsOk =>
            cases h
            simp only [Bool.or_eq_true, decide_eq_true_eq, not_or, Bool.not_eq_true', Bool.not_eq_false] at baseOk repOk extOk numsOk
            exact ⟨repOk.1, extOk.1, base, baseOk, repOk.2, extOk.2, numsOk⟩
theorem of_decodeBase {rw ew : Option Nat} (hr : ∀ x ∈ rw, PrefixWord 1 x) (he : ∀ x ∈ ew, PrefixWord 0 x) (hw : w < 2 ^ 32)
    (h : decodeBase rw ew w = .ok i) : ∃ p : Pre, rw = p.rep.map Rep.word ∧ ew = p.ext.map Ext.word ∧ Writes i p w ∧ Checked i := by
  have go : decodeBase.go w rw ew = .ok i ∧ (noRep w = true → rw = none) ∧ (noExt w = true → ew = none) := by
    unfold decodeBase at h
    split at h
    · split at h
      · cases h
      · next may => exact ⟨h, fun no => absurd no may, fun no => absurd (by rw [noRep, Bool.and_elim_left no]; rfl) may⟩
    · split at h
      · cases h
      · next may => exact ⟨h, fun _ => rfl, fun no => absurd no may⟩
    · exact ⟨h, fun _ => rfl, fun _ => rfl⟩
  obtain ⟨go, rep, ext⟩ := go
  obtain ⟨hr', he', base, checked⟩ := of_decodeBase_go go
  obtain ⟨r, er, rfl, wfr⟩ := rep_of_words hr hr'
  obtain ⟨e, ee, rfl, wfe⟩ := ext_of_words he he'
  rw [er, ee] at base
  refine ⟨⟨r, e⟩, rfl, rfl, writes_of_baseOf hw ?_ ?_ ?_ base, checked⟩
  · cases r with
    | none => exact wfe
    | some r => exact Bool.and_eq_true_iff.mpr ⟨wfr r rfl, wfe⟩
  · exact fun no => Option.map_eq_none_iff.mp (rep no)
  · exact fun no => Option.map_eq_none_iff.mp (ext no)

theorem of_map {x : Except DecodeError Instr} {k : Nat} (h : x.map (·, k) = .ok (i, n)) : x = .ok i ∧ k = n := by
  cases x with
  | error e => cases h
  | ok a => cases h; exact ⟨rfl, rfl⟩
theorem wf_and_take {rw ew : Option Nat} {rest : List Nat} (hr : ∀ x ∈ rw, PrefixWord 1 x) (he : ∀ x ∈ ew, PrefixWord 0 x) (hw : w < 2 ^ 32)
    (h : decodeBase rw ew w = .ok i) (hws : rw.toList ++ ew.toList ++ w :: rest = ws) (hn : rw.toList.length + ew.toList.length + 1 = n) :
    i.wf = true ∧ n ≤ 3 ∧ encode i = ws.take n := by
  obtain ⟨⟨r, e⟩, rfl, rfl, ⟨words, fieldsOk⟩, baseOk, repOk, extOk, numsOk⟩ := of_decodeBase hr he hw h
  refine ⟨by rw [Instr.wf, fieldsOk, baseOk, repOk, extOk, numsOk]; rfl, ?_⟩
  rw [words, ← hws, ← hn]
  cases r <;> cases e <;> exact ⟨by simp, rfl⟩
/-- What is decoded is written as the words that it took, and has passed the checks. -/
theorem of_decode (hws : ∀ w ∈ ws, w < 2 ^ 32) (h : decode ws = .ok (i, n)) :
    i.wf = true ∧ n ≤ 3 ∧ encode i = ws.take n := by
  unfold decode at h
  split at h
  · cases h
  · next w0 r0 =>
    have h0 := hws w0 List.mem_cons_self
    split at h
    · obtain ⟨read, rfl⟩ := of_map h
      exact wf_and_take prefixWord_of_none prefixWord_of_none h0 read rfl rfl
    · next pre0 =>
      have pre0 : isPre w0 = true := by simpa using pre0
      split at h
      case h_1 | h_3 => cases h
      case h_2 w1 r k =>
        have h1 := hws w1 (by simp)
        split at h
        · cases h
        · obtain ⟨read, rfl⟩ := of_map h
          exact wf_and_take prefixWord_of_none (prefixWord_of_some ⟨h0, pre0, k⟩) h1 read rfl rfl
      case h_4 w1 r k =>
        have h1 := hws w1 (by simp)
        split at h
        · obtain ⟨read, rfl⟩ := of_map h
          exact wf_and_take (prefixWord_of_some ⟨h0, pre0, k⟩) prefixWord_of_none h1 read rfl rfl
        · next pre1 =>
          have pre1 : isPre w1 = true := by simpa using pre1
          split at h
          case h_1 => cases h
          case h_2 w2 r k1 =>
            have h2 := hws w2 (by simp)
            split at h
            · cases h
            · obtain ⟨read, rfl⟩ := of_map h
              exact wf_and_take (prefixWord_of_some ⟨h0, pre0, k⟩) (prefixWord_of_some ⟨h1, pre1, k1⟩) h2 read rfl rfl
          case h_3 => cases h
      case h_5 => cases h
end

/-! ## The obligations -/

theorem spells_of_encode {i : Instr} (h : encode i ≠ []) (warp : encodeHost i = []) (ok : i.fieldsOk = true) : ∃ p w, Spells i p w := by
  by_contra no
  have alu : encodeUAlu i = [] := by_contra fun h => no (spells_of_encodeUAlu h ok)
  have mem : encodeUMem i = [] := by_contra fun h => no (spells_of_encodeUMem h ok)
  have engine : encodeUEngine i = [] := by_contra fun h => no (spells_of_encodeUEngine h ok)
  have sys : encodeUSys i = [] := by_contra fun h => no (spells_of_encodeUSys h ok)
  have int : encodeLInt i = [] := by_contra fun h => no (spells_of_encodeLInt h ok)
  have rest : encodeLRest i = [] := by_contra fun h => no (spells_of_encodeLRest h ok)
  exact h (by rw [encode, alu, mem, engine, sys, int, rest, warp]; rfl)

/-- R46: the fields of a dx word. -/
theorem fields_of_dxw {f3 f7 d s t w : Nat} (hw : f7 * 2 ^ 25 + t * 2 ^ 20 + s * 2 ^ 15 + f3 * 2 ^ 12 + d * 2 ^ 7 + 0x0B = w) (h3 : f3 < 8) (h7 : f7 < 128)
    (hd : d < 2 ^ 5) (hs : s < 2 ^ 5) (ht : t < 2 ^ 5) :
    w < 2 ^ 32 ∧ fld w 0 7 = 0x0B ∧ fld w 7 5 = d ∧ fld w 12 3 = f3 ∧ fld w 15 5 = s ∧ fld w 20 5 = t ∧ fld w 25 7 = f7 := by
  refine ⟨by omega, ?_⟩
  simp only [fld]
  omega
/-- The instruction that the decoder gives for the word of a dx instruction: the three of dx.ckpt share one (R46). -/
def hostRow : Instr → Instr
  | .dxCkptRestore d a | .dxCkptQuery d a => .dxCkptSave d a
  | i => i
theorem hostWord_of_encode {i : Instr} {f3 f7 d s t : Nat} (words : encode i = dxw f3 f7 d s t) (h3 : f3 < 8) (h7 : f7 < 128) (hd : d < 2 ^ 5) (hs : s < 2 ^ 5)
    (ht : t < 2 ^ 5)
    (read : ∀ w, fld w 0 7 = 0x0B → fld w 7 5 = d → fld w 12 3 = f3 → fld w 15 5 = s → fld w 20 5 = t → fld w 25 7 = f7 → decodeHost w = some (hostRow i)) :
    ∃ w, encode i = [w] ∧ w < 2 ^ 32 ∧ decodeHost w = some (hostRow i) := by
  obtain ⟨w, hw⟩ : ∃ w, f7 * 2 ^ 25 + t * 2 ^ 20 + s * 2 ^ 15 + f3 * 2 ^ 12 + d * 2 ^ 7 + 0x0B = w := ⟨_, rfl⟩
  obtain ⟨lt, f0, f1, f2, f3, f4, f5⟩ := fields_of_dxw hw h3 h7 hd hs ht
  exact ⟨w, by rw [words, dxw, hw], lt, read w f0 f1 f2 f3 f4 f5⟩
theorem hostWord_of_encodeHost {i : Instr} (h : encodeHost i ≠ []) (ok : i.fieldsOk = true) :
    ∃ w, encode i = [w] ∧ w < 2 ^ 32 ∧ decodeHost w = some (hostRow i) := by
  cases i with
  | dxLaunch d s | dxFqpop d s | dxCkptSave d s | dxCkptRestore d s | dxCkptQuery d s =>
    obtain ⟨hd, hs⟩ := bits_lt₂ ok
    exact hostWord_of_encode rfl (by decide) (by decide) hd hs (by decide) fun w f0 f1 f2 f3 f4 f5 => by
      simp only [decodeHost, f0, f1, f2, f3, f4, f5]; rfl
  | dxWait d s t =>
    obtain ⟨hd, hs, ht⟩ := bits_lt₃ ok
    exact hostWord_of_encode rfl (by decide) (by decide) hd hs ht fun w f0 f1 f2 f3 f4 f5 => by
      simp only [decodeHost, f0, f1, f2, f3, f4, f5]; rfl
  | dxTbegin d =>
    exact hostWord_of_encode rfl (by decide) (by decide) (bits_lt ok) (by decide) (by decide) fun w f0 f1 f2 f3 f4 f5 => by
      simp only [decodeHost, f0, f1, f2, f3, f4, f5]; rfl
  | dxTend =>
    exact hostWord_of_encode rfl (by decide) (by decide) (by decide) (by decide) (by decide) fun w f0 f1 f2 f3 f4 f5 => by
      simp only [decodeHost, f0, f1, f2, f3, f4, f5]; rfl
  | dxTabort s | dxReplay s | dxKill s =>
    exact hostWord_of_encode rfl (by decide) (by decide) (by decide) (bits_lt ok) (by decide) fun w f0 f1 f2 f3 f4 f5 => by
      simp only [decodeHost, f0, f1, f2, f3, f4, f5]; rfl
  | _ => exact absurd rfl h

/-- Settles O53: the words of an instruction are its prefixes and its base word, and each field of them is read as the value that it was written with. -/
theorem encodedInstructionsDecodeToThemselves : Obligations.EncodedInstructionsDecodeToThemselves := by
  intro i wf some_
  have ok := EncodeFits.fieldsOk_of_wf wf
  by_cases warp : encodeHost i = []
  · rw [if_pos warp]
    obtain ⟨p, w, spells⟩ := spells_of_encode some_ warp ok
    exact decode_of_spells spells wf
  · rw [if_neg warp]
    exact hostWord_of_encodeHost warp ok

/-- Settles O54: each field of a word is written with the value that it is read as, and the checks of the decoder are those of a well-formed instruction. -/
theorem decodedInstructionsEncodeToTheirWords : Obligations.DecodedInstructionsEncodeToTheirWords :=
  fun _ _ _ hws h => of_decode hws h

/-- Settles O58. -/
theorem constantRegistersReadTheirValue : Obligations.ConstantRegistersReadTheirValue :=
  ⟨fun _ _ => ⟨rfl, rfl⟩, fun _ _ => ⟨rfl, rfl⟩⟩
end Sys2Proof.Proofs
end

section
/-! # A dx.tend whose lines fill a set of the directory -/

namespace Sys2Proof.Proofs

open Machine Laws

/-- Hart 0 stands at its dx.tend at address 0, in a transaction that has written a byte of each line. -/
def standing (ls : List Nat) : State := { State.reset with harts := [(0, { committer ls with commit := false })] }
/-- Its commit has taken the ticket, and is the next that is served. -/
def ticketed (ls : List Nat) : State := { committing ls with ticket := 1 }

theorem exec_dxTend_standing (ls : List Nat) : exec .dxTend (standing ls) = .next (ticketed ls).ticketServe := rfl
theorem took_ticketed (ls : List Nat) : Took (committer ls) [] (ticketed ls) :=
  ⟨rfl, rfl, rfl, rfl, rfl, rfl, rfl, rfl, fun _ => by simp; rfl, rfl, rfl⟩
theorem commitAway_ticketed (ls : List Nat) : (ticketed ls).commitAway (.hart 0) = (committing ls).commitAway (.hart 0) := rfl

/-- A commit of seventeen lines of a set: the hart goes on after the address of its abort. -/
theorem pc_commitHart_of_took {v l : Nat} {r : List Nat} {u : State} (start : Took (committer (v :: r ++ [l])) [] u) (len : (v :: r).length = 16)
    (once : (v :: r ++ [l]).Nodup) (low : ∀ x ∈ v :: r ++ [l], x < 12289) (set : ∀ x ∈ v :: r, Config.dirSet x = Config.dirSet l) :
    ((u.commitHart 0).hart 0).pc = 104 := by
  have new : l ∉ v :: r := fun hl => List.disjoint_of_nodup_append once hl List.mem_cons_self
  have most := took_commitBytes (v :: r) [] u (List.Nodup.of_append_left once) (by simp at len ⊢; omega)
    (fun x hx => low x (List.mem_append_left _ hx)) start
  have last := harts_commitByte_of_full most len new (low l (by simp)) (fun x hx => low x (List.mem_append_left _ hx)) set 0
  have me : u.hart 0 = committer (v :: r ++ [l]) := by rw [State.hart, tget, start.harts]; rfl
  have commit : u.commitHart 0 = State.modHart
      ((((v :: r) ++ [l]).map fun l => (lineAddr l, (0 : Byte))).foldl (fun u c => u.commitByte (.hart 0) c.1 c.2) u)
      0 fun y => { y with tx := none, commit := false, pc := y.pc + 4, minstret := y.minstret + 1 } := by
    rw [State.commitHart, me]
    rfl
  have aborted := pc_observe_committer v (r ++ [l])
  rw [commit, List.map_append, List.foldl_append]
  simp only [State.hart, tget, State.modHart, tget?_tput_self, Option.getD_some, List.map_cons, List.map_nil, List.foldl_cons, List.foldl_nil] at last ⊢
  rw [last]
  exact congrArg (· + 4) aborted

/-- Refutes O43: a hart ends a transaction that has written seventeen lines of one set of the directory, as R226 lets it. The commit takes the lines one after
the other; the entry of the last takes the place of the first's, whose recall aborts the transaction, and the hart does not go on after its dx.tend. -/
theorem not_hostInstructionsActForTheirHart : ¬ Obligations.HostInstructionsActForTheirHart := by
  intro ⟨_, _, transactions, _⟩
  obtain ⟨ls, len, once, low, set⟩ := seventeen_in_one_set
  obtain ⟨most, l, rfl⟩ := List.eq_nil_or_concat' ls |>.resolve_left (by rintro rfl; cases len)
  obtain ⟨v, r, rfl⟩ := List.exists_cons_of_length_pos (l := most) (by simp at len; omega)
  have homed : ∀ b ∈ (v :: r ++ [l]).map fun l => (lineAddr l, (0 : Byte)), HomedHere (standing (v :: r ++ [l])) b.1 1 := by
    intro b hb i hi
    obtain ⟨x, hx, rfl⟩ := List.mem_map.mp hb
    have := low x hx
    show (lineAddr x + i) / 2 ^ 48 = 0
    unfold lineAddr; omega
  obtain ⟨-, inTx⟩ := transactions (standing (v :: r ++ [l]))
  obtain ⟨-, -, ends, -⟩ := inTx ⟨[], (v :: r ++ [l]).map fun l => (lineAddr l, 0), 100, 0⟩ rfl (Nat.zero_lt_succ 31)
  obtain ⟨t, ran, -, went, -, -⟩ := ends rfl ⟨rfl, nofun⟩ ⟨rfl, rfl, rfl, rfl⟩ rfl rfl homed
  have served : (ticketed (v :: r ++ [l])).ticketServe =
      if (ticketed (v :: r ++ [l])).commitAway (.hart 0) then (ticketed (v :: r ++ [l])).commitSeek (.hart 0)
      else { (ticketed (v :: r ++ [l])).commitHart 0 with commits := [], served := 1 } := rfl
  have pc : (t.hart 0).pc = 104 := by
    obtain rfl : (ticketed (v :: r ++ [l])).ticketServe = t := Host.Outcome.next.inj ((exec_dxTend_standing _).symm.trans ran)
    rw [served, commitAway_ticketed, commitAway_committing _ low]
    exact pc_commitHart_of_took (took_ticketed _) (by simpa using len) once low fun x hx => set x (List.mem_append_left _ hx) l (by simp)
  have went : t.hart 0 = _ := went
  rw [went] at pc
  exact absurd (show (0 : W64) + 4 = 104 from pc) (by decide)

end Sys2Proof.Proofs
end

section
/-! # Uniform instructions: register operations, fields and constants -/

namespace Sys2Proof.Proofs

open Machine Laws

section
variable {s : State} {f : UR} {d : Nat}

/-! ## A uniform result -/

theorem numsOk_of_wf {i : Instr} (h : i.wf = true) : i.numsOk = true := (Bool.and_eq_true _ _ ▸ h : _ ∧ _).2
/-- Check 4 of R43 bounds the destination of a UR form. -/
theorem dest_lt_of_ok (h : f.ok sr = true) : f.d < 160 := by
  simp only [UR.ok, sr, Bool.and_eq_true, decide_eq_true_eq] at h
  exact h.1.1
theorem dest_lt_of_sr_and {p : Bool} (h : (sr d && p) = true) : d < 160 := of_decide_eq_true (Bool.and_elim_left h)

/-- An instruction that writes sd and goes on has a uniform result. -/
theorem wrS_advance_result {v v' : W64} (hd : d < 160) (e : v = v') : UniformResult s (s.wrS d v).advance d v' (s.iss.base + 4) :=
  e ▸ uniformResult s d v _ hd
/-- An operation writes a function of its operands to sd, and nothing else (R53). -/
def Writes₂ (make : UR → Instr) (F : W64 → W64 → W64) : Prop :=
  ∀ (f : UR) (s : State), (make f).wf = true →
    Completes (make f) s fun t => UniformResult s t f.d (F (s.rdS f.a) (s.opB f.b)) (s.iss.base + 4)
theorem uniOp_writes {make : UR → Instr} (F : W64 → W64 → W64) {G : W64 → W64 → W64} (meaning : ∀ f s, exec (make f) s = s.uniOp f F)
    (nums : ∀ f, (make f).numsOk = f.ok sr) (e : ∀ a b, F a b = G a b) : Writes₂ make G := fun f s h =>
  ⟨_, meaning f s, wrS_advance_result (dest_lt_of_ok (nums f ▸ numsOk_of_wf h)) (e _ _)⟩

/-! ## Register operations (R54) -/

theorem ite_toInt_le {x y : W64} (a b : W64) (e : a = b → x = y) : (if a.toInt ≤ b.toInt then x else y) = if a.slt b then x else y := by
  rcases Int.lt_trichotomy a.toInt b.toInt with h | h | h
  · rw [if_pos (Int.le_of_lt h), if_pos (by simpa [BitVec.slt] using h)]
  · rw [e (BitVec.eq_of_toInt_eq h), ite_self, ite_self]
  · rw [if_neg (Int.not_le.mpr h), if_neg (by simpa [BitVec.slt] using Int.le_of_lt h)]
theorem ite_toNat_le {x y : W64} (a b : W64) (e : a = b → x = y) : (if a.toNat ≤ b.toNat then x else y) = if a.ult b then x else y := by
  rcases Nat.lt_trichotomy a.toNat b.toNat with h | h | h
  · rw [if_pos (Nat.le_of_lt h), if_pos (by simpa [BitVec.ult] using h)]
  · rw [e (BitVec.eq_of_toNat_eq h), ite_self, ite_self]
  · rw [if_neg (Nat.not_le.mpr h), if_neg (by simpa [BitVec.ult] using Nat.le_of_lt h)]

/-- A register operation that is F of the table as it stands there. -/
theorem uniOp_writes_self {make : UR → Instr} {F : W64 → W64 → W64} (meaning : ∀ f s, exec (make f) s = s.uniOp f F)
    (nums : ∀ f, (make f).numsOk = f.ok sr) : Writes₂ make F := uniOp_writes F meaning nums fun _ _ => rfl

/-- One row of the table for each operation. -/
theorem uniformOperationsWriteTheirResult : UniformOperationsWriteTheirResult := by
  show ∀ e ∈ uniformTable, Writes₂ e.1 e.2
  simp only [uniformTable, List.forall_mem_cons, List.not_mem_nil, false_imp_iff, implies_true, and_true]
  refine ⟨?sadd, ?ssub, ?smul, ?smulh, ?sand, ?sor, ?sxor, ?sshl, ?sshr, ?ssra, ?smin, ?smax, ?sminn, ?smaxn, ?sseq, ?ssne, ?sslt, ?ssltn⟩
  case smin => exact uniOp_writes (fun a b => if a.toInt ≤ b.toInt then a else b) (fun _ _ => rfl) (fun _ => rfl) fun a b => ite_toInt_le a b id
  case smax => exact uniOp_writes (fun a b => if a.toInt ≤ b.toInt then b else a) (fun _ _ => rfl) (fun _ => rfl) fun a b => ite_toInt_le a b Eq.symm
  case sminn => exact uniOp_writes (fun a b => if a.toNat ≤ b.toNat then a else b) (fun _ _ => rfl) (fun _ => rfl) fun a b => ite_toNat_le a b id
  case smaxn => exact uniOp_writes (fun a b => if a.toNat ≤ b.toNat then b else a) (fun _ _ => rfl) (fun _ => rfl) fun a b => ite_toNat_le a b Eq.symm
  case sseq => exact uniOp_writes (fun a b => flag64 (a = b)) (fun _ _ => rfl) (fun _ => rfl) fun a b => by simp [flag64]
  case ssne => exact uniOp_writes (fun a b => flag64 (a ≠ b)) (fun _ _ => rfl) (fun _ => rfl) fun a b => by simp [flag64]
  all_goals exact uniOp_writes_self (fun _ _ => rfl) fun _ => rfl

/-! ## Fields (R57) -/

/-- The specification that the model reads is that of R57, and its field ends at bit 63 at the latest. -/
theorem sbfSpec_eq (b : Opnd) (v : W64) : sbfSpec b v.toNat = uniformField b v := by
  cases b with
  | reg n =>
    simp only [sbfSpec, uniformField, BitVec.getLsbD, Nat.testBit_eq_decide_div_mod_eq]
    refine Prod.ext rfl (Prod.ext ?_ rfl)
    simp only; split <;> omega
  | imm n =>
    simp only [sbfSpec, uniformField, BitVec.getLsbD, Nat.testBit_eq_decide_div_mod_eq]
    refine Prod.ext rfl (Prod.ext ?_ rfl)
    simp only; split <;> omega
theorem uniformField_bounds (b : Opnd) (v : W64) : 0 < (uniformField b v).2.1 ∧ (uniformField b v).2.1 + (uniformField b v).2.2 ≤ 64 := by
  cases b <;> simp only [uniformField] <;> split <;> omega

theorem field_eq (a : W64) (p w : Nat) : a.toNat / 2 ^ p % 2 ^ w = ((a >>> p).setWidth w).toNat := by
  rw [BitVec.toNat_setWidth, BitVec.toNat_ushiftRight, Nat.shiftRight_eq_div_pow]
/-- A field read without its sign. -/
theorem ofNat_field (a : W64) (p w : Nat) : BitVec.ofNat 64 (a.toNat / 2 ^ p % 2 ^ w) = ((a >>> p).setWidth w).setWidth 64 := by
  rw [field_eq, BitVec.ofNat_toNat]
/-- A field read as two's complement. -/
theorem sext_field {w : Nat} (hw : 0 < w) (a : W64) (p : Nat) :
    w64 (sext w (a.toNat / 2 ^ p % 2 ^ w)) = ((a >>> p).setWidth w).signExtend 64 := by
  rw [field_eq, ← toInt_ofNat_eq_sext hw, BitVec.ofNat_toNat, BitVec.setWidth_eq]; rfl
/-- A number with a field replaced, cut at the two ends of the field. -/
theorem setFld_split (D x p w : Nat) :
    D - D / 2 ^ p % 2 ^ w * 2 ^ p + x % 2 ^ w * 2 ^ p = 2 ^ p * (2 ^ w * (D / 2 ^ p / 2 ^ w) + x % 2 ^ w) + D % 2 ^ p := by
  have upper := Nat.div_add_mod (D / 2 ^ p) (2 ^ w)
  have lower := Nat.div_add_mod D (2 ^ p)
  have e : 2 ^ p * (D / 2 ^ p) = 2 ^ p * (2 ^ w * (D / 2 ^ p / 2 ^ w)) + D / 2 ^ p % 2 ^ w * 2 ^ p := by
    rw [← Nat.mul_comm (2 ^ p), ← Nat.mul_add, upper]
  rw [Nat.mul_add, Nat.mul_comm (2 ^ p) (x % 2 ^ w)]
  omega
/-- A field replaced by the low bits of a value. -/
theorem setFld_eq_mask {w p : Nat} (d a : W64) :
    setFld d p w a.toNat = (d &&& ~~~(((BitVec.allOnes w).setWidth 64) <<< p)) ||| ((a <<< p) &&& (((BitVec.allOnes w).setWidth 64) <<< p)) := by
  refine BitVec.eq_of_getLsbD_eq fun i hi => ?_
  simp only [setFld, bfld, setFld_split, BitVec.getLsbD_ofNat, hi, decide_true, Bool.true_and, BitVec.getLsbD_or, BitVec.getLsbD_and,
    BitVec.getLsbD_not, BitVec.getLsbD_shiftLeft, BitVec.getLsbD_setWidth, BitVec.getLsbD_allOnes,
    Nat.testBit_two_pow_mul_add _ (Nat.mod_lt _ (Nat.two_pow_pos _)), Nat.testBit_mod_two_pow, Nat.testBit_div_two_pow]
  by_cases low : i < p
  · simp [low, BitVec.getLsbD]
  · have high : i - p + p = i := by omega
    by_cases mid : i - p < w
    · have : i - p < 64 := by omega
      simp [low, mid, this, BitVec.getLsbD]
    · have top : i - p - w + w + p = i := by omega
      simp [low, mid, top, BitVec.getLsbD]

/-! ## Bit functions (R58) -/

theorem clzN_of_lt {v : Nat} : ∀ {n : Nat}, v < 2 ^ n → clzN n v = n - Nat.log2 (2 * v)
  | 0, _ => by simp [clzN]
  | n + 1, h => by
    rw [clzN]
    by_cases hb : v.testBit n = true
    · have hv := Nat.ge_two_pow_of_testBit hb
      have : 2 * v ≠ 0 := by have := Nat.two_pow_pos n; omega
      have := (Nat.le_log2 this).mpr (show 2 ^ (n + 1) ≤ 2 * v by rw [Nat.pow_succ]; omega)
      rw [if_pos hb]; omega
    · have hv : v < 2 ^ n := Nat.lt_pow_two_of_testBit v fun i hi => by
        rcases Nat.eq_or_lt_of_le hi with rfl | hi
        · simpa using hb
        · exact Nat.testBit_lt_two_pow (Nat.lt_of_lt_of_le h (Nat.pow_le_pow_right (by decide) hi))
      have : Nat.log2 (2 * v) ≤ n := by
        by_cases h0 : 2 * v = 0
        · rw [h0]; exact Nat.zero_le n
        · exact Nat.lt_succ_iff.mp ((Nat.log2_lt h0).mpr (by rw [Nat.pow_succ]; omega))
      rw [if_neg hb, clzN_of_lt hv]; omega
theorem revN_toNat (a : W64) : BitVec.ofNat 64 (revN 64 a.toNat) = a.reverse := by
  refine BitVec.eq_of_getLsbD_eq fun i hi => ?_
  rw [BitVec.getLsbD_ofNat, revN, (testBit_maskNat _ 64 i).1, BitVec.getLsbD_reverse, BitVec.getMsbD]
  simp [hi, BitVec.getLsbD]
theorem sbitFn_eq (fn : Nat) (a : W64) : sbitFn fn a = sbitValue fn a := by
  unfold sbitFn sbitValue
  split
  · rw [if_pos rfl, clzN_of_lt a.isLt]
  · rfl
  · rfl
  · next h0 h1 h2 => rw [if_neg h0, if_neg h1, if_neg h2, revN_toNat]

theorem regBad_one_of_holds {w : Warp} {n : Nat} (h : w.holdsV n = true) : w.regBad (n, 1) = false := by
  simp [Warp.regBad, Nat.mod_one, h]
theorem regWaits_one_of_free {w : Warp} {n : Nat} (h : RegsFree w [(n, 1)]) : w.regWaits (n, 1) = false := by
  simpa using regWaits_of_free h

theorem uniformFieldsAndConstantsWriteTheirResult : UniformFieldsAndConstantsWriteTheirResult := by
  intro s done
  refine ⟨fun f h => ?ssel, fun f h => ?sbfx, fun f h => ?sbfi, fun d a fn h => ?sbit, fun d imm h => ?sli, fun d imm h => ?slis,
    fun f h held free => ?smovl⟩
  case ssel => exact ⟨_, rfl, wrS_advance_result (dest_lt_of_ok (numsOk_of_wf h)) (by simp)⟩
  case sbfx =>
    obtain ⟨width, -⟩ := uniformField_bounds f.b (s.opB f.b)
    refine ⟨_, rfl, wrS_advance_result (dest_lt_of_ok (numsOk_of_wf h)) ?_⟩
    rw [sbfSpec_eq, sext_field width, ofNat_field]; rfl
  case sbfi =>
    refine ⟨_, rfl, wrS_advance_result (dest_lt_of_ok (numsOk_of_wf h)) ?_⟩
    rw [sbfSpec_eq]; exact setFld_eq_mask _ _
  case sbit => exact ⟨_, rfl, wrS_advance_result (dest_lt_of_sr_and (numsOk_of_wf h)) (sbitFn_eq fn _)⟩
  case sli =>
    refine ⟨_, rfl, wrS_advance_result (of_decide_eq_true (numsOk_of_wf h)) ?_⟩
    rw [← toInt_ofNat_eq_sext (by decide)]; rfl
  case slis =>
    refine ⟨_, rfl, wrS_advance_result (of_decide_eq_true (numsOk_of_wf h)) ?_⟩
    rw [← BitVec.ofNat_toNat, BitVec.toNat_ofNat]
  case smovl =>
    refine ⟨_, ?_, wrS_advance_result (dest_lt_of_sr_and (numsOk_of_wf h)) rfl⟩
    show execSmovl f s = _
    rw [execSmovl, if_neg (Bool.eq_false_iff.mp (regBad_one_of_holds held)), if_neg (Bool.eq_false_iff.mp (regWaits_one_of_free free))]

/-- Settles O1: each of the instructions writes one value to sd and goes on, and the value is that of its rule. -/
theorem uniformInstructionsWriteTheirResult : Obligations.UniformInstructionsWriteTheirResult :=
  ⟨uniformOperationsWriteTheirResult, uniformFieldsAndConstantsWriteTheirResult⟩

end
end Sys2Proof.Proofs
end

section
/-! # Transfers to bad targets, and control registers -/

namespace Sys2Proof.Proofs

open Machine Laws

/-! ## Traps of transfers (R67) -/

section
variable {s : State} {target : W64} {off a : Nat} {before : State → State}

/-- A trap of a U-set instruction enters the handler, with the issue set as its active threads. -/
theorem trapTaken_trap (h : TrapTakes s) (cause : Nat) (detail : W64) : TrapTaken s (s.trap cause detail) s.iss.set cause detail :=
  trapTaken_trapAct h s.iss.set cause detail

theorem transfer_traps (h : TrapTakes s) (hc : canonical target = false) :
    ∃ t, s.transfer target before = .next t ∧ TrapTaken s t s.iss.set 0x05 target :=
  ⟨_, by rw [State.transfer, hc]; rfl, trapTaken_trap h cAccess target⟩
theorem transfer_target_traps {n : Nat} (hn : 0 < n) (h : TrapTakes s) (hc : canonical (wordTarget s n off) = false) :
    ∃ t, s.transfer (s.target n off) before = .next t ∧ TrapTaken s t s.iss.set 0x05 (wordTarget s n off) := by
  rw [target_eq hn]; exact transfer_traps h hc
theorem branch_traps {taken : Bool} (h : TrapTakes s) (hc : canonical (wordTarget s 17 off) = false) (take : taken = true) :
    ∃ t, s.branch taken off = .next t ∧ TrapTaken s t s.iss.set 0x05 (wordTarget s 17 off) := by
  rw [State.branch, if_pos take]; exact transfer_target_traps (by decide) h hc
/-- A register's target is checked for its alignment first. -/
theorem transferReg_traps {cause : Nat} (h : TrapTakes s)
    (bad : (target.toNat % 4 ≠ 0 ∧ cause = 0x04) ∨ (target.toNat % 4 = 0 ∧ canonical target = false ∧ cause = 0x05)) :
    ∃ t, s.transferReg target before = .next t ∧ TrapTaken s t s.iss.set cause target := by
  have low : bfld target 0 2 = target.toNat % 4 := by simp [bfld]
  unfold State.transferReg
  rw [low]
  obtain ⟨odd, rfl⟩ | ⟨even, hc, rfl⟩ := bad
  · rw [if_pos (bne_iff_ne.mpr odd)]; exact ⟨_, rfl, trapTaken_trap h cAlign target⟩
  · rw [if_neg (by simp [even])]; exact transfer_traps h hc

end

/-- Settles O3: the check of the target comes before anything is written. -/
theorem transfersToBadTargetsTrap : Obligations.TransfersToBadTargetsTrap := by
  intro s h trap
  refine ⟨fun off hc => ⟨transfer_target_traps (by decide) h hc, transfer_target_traps (by decide) h hc⟩, fun a off hc => ⟨?_, ?_, ?_, ?_⟩,
    fun v cause bad => ⟨?_, ?_⟩⟩
  · exact fun zero => branch_traps h hc (decide_eq_true zero)
  · exact fun nonzero => branch_traps h hc (bne_iff_ne.mpr nonzero)
  · exact fun negative => branch_traps h hc ((decide_toInt_neg _).trans negative)
  · intro more
    have : (s.rdS a - 1 != 0) = true := by simpa [BitVec.sub_eq_iff_eq_add] using more
    show ∃ t, execSloop a off s = .next t ∧ _
    simp only [execSloop, this, if_true]
    exact transfer_target_traps (by decide) h hc
  · rintro a rfl
    exact ⟨transferReg_traps h bad, transferReg_traps h bad⟩
  · rintro rfl
    exact transferReg_traps h bad

/-! ## Control reads (R70, R71) -/

/-- SGET writes the value of the control register. -/
theorem sget_writes {s : State} {d n : Nat} {v : W64} (h : (Instr.sget d n).wf = true) (e : s.ctlOf s.iss.key n = v) :
    Completes (.sget d n) s fun t => UniformResult s t d v (s.iss.base + 4) :=
  ⟨_, rfl, wrS_advance_result (dest_lt_of_sr_and (numsOk_of_wf h)) e⟩
/-- A register that the warp's save record has changed reads as changed, and another as the model's table has it. -/
theorem ctlOf_of_shown {s : State} {k n : Nat} {v : W64} (e : (tget? (s.warp k).shown n).isSome = false → s.ctlOf k n = v) :
    s.ctlOf k n = tget v (s.warp k).shown n := by
  cases hs : tget? (s.warp k).shown n with
  | none => rw [e (by rw [hs]; rfl), tget, hs]; rfl
  | some x => simp only [State.ctlOf, tget, hs]; rfl

/-- The numbers that the table lists one by one, and those of the handlers and of the tolerances. -/
theorem ctlOf_of_controlTable (s : State) : ∀ e ∈ controlTable s, s.ctlOf s.iss.key e.1 = tget e.2 s.w.shown e.1 := by
  suffices plain : ∀ e ∈ controlTable s, (tget? s.w.shown e.1).isSome = false → s.ctlOf s.iss.key e.1 = e.2 from
    fun e he => ctlOf_of_shown (plain e he)
  unfold controlTable
  dsimp only
  rw [List.forall_mem_append, List.forall_mem_append, List.forall_mem_map, List.forall_mem_map]
  refine ⟨⟨?single, fun i hi => ?handler⟩, fun i hi => ?tolerance⟩
  case single =>
    simp only [List.forall_mem_cons, List.not_mem_nil, false_imp_iff, implies_true, and_true]
    and_intros
    all_goals exact fun plain => (if_neg (Bool.eq_false_iff.mp plain)).trans rfl
  case handler =>
    have := List.mem_range.mp hi
    interval_cases i <;> exact fun plain => (if_neg (Bool.eq_false_iff.mp plain)).trans rfl
  case tolerance =>
    have := List.mem_range.mp hi
    interval_cases i <;> exact fun plain => (if_neg (Bool.eq_false_iff.mp plain)).trans rfl

/-- Settles O4: SGET reads by `State.ctlOf`, whose numbers are those of the table. -/
theorem controlReadsWriteTheRegistersValue : Obligations.ControlReadsWriteTheRegistersValue :=
  fun _ s => ⟨fun e he h => sget_writes h (ctlOf_of_controlTable s e he), fun _ _ h => sget_writes h rfl⟩

/-! ## Control writes (R70) -/

/-- A write of a control register leaves the registers of the program, the threads and the waits of the warp. -/
theorem ctlWrite_keeps (w : Warp) (n : Nat) (v : W64) :
    ((w.ctlWrite n v).sregs = w.sregs ∧ (w.ctlWrite n v).vregs = w.vregs ∧ (w.ctlWrite n v).mregs = w.mregs) ∧
    (w.ctlWrite n v).threads = w.threads ∧ (w.ctlWrite n v).parks = w.parks := by
  unfold Warp.ctlWrite
  dsimp only
  split_ifs <;> exact ⟨⟨rfl, rfl, rfl⟩, rfl, rfl⟩
theorem partWrite_field (old : Nat) (v : W64) : partWrite old (bfld v 0 3) = if 1 ≤ bfld v 0 3 ∧ bfld v 0 3 ≤ 5 then bfld v 0 3 else old := by
  have : bfld v 0 3 % 8 = bfld v 0 3 := Nat.mod_mod _ _
  simp only [partWrite, this, Bool.and_eq_true, decide_eq_true_eq]

theorem fpmodeWrite_eq (old v : W64) : fpmodeWrite old v =
    BitVec.ofNat 64 ((if bfld v 0 3 < 6 then bfld v 0 3 else old.toNat % 8) + bfld v 3 2 * 8 + bfld v 8 5 * 256) := by
  rw [show old.toNat % 8 = bfld old 0 3 by simp [bfld]]; rfl
/-- A tolerance keeps its two halves apart. -/
theorem mtolWrite_eq (o v : W64) : numW (mtolField (bfld o 0 32) (bfld v 0 32) + mtolField (bfld o 32 32) (bfld v 32 32) * 2 ^ 32) =
    BitVec.ofNat 64 ((if 0x7F800000 ≤ bfld v 0 32 % 2 ^ 31 then o.toNat % 2 ^ 32 else bfld v 0 32 % 2 ^ 31) +
      (if 0x7F800000 ≤ bfld v 32 32 % 2 ^ 31 then o.toNat / 2 ^ 32 else bfld v 32 32 % 2 ^ 31) * 2 ^ 32) := by
  have low : bfld o 0 32 = o.toNat % 2 ^ 32 := by simp [bfld]
  have high : bfld o 32 32 = o.toNat / 2 ^ 32 := Nat.mod_eq_of_lt (by have := o.isLt; omega)
  rw [← low, ← high]; rfl

/-- Each number that may be written is written as the table says. -/
theorem ctlWrite_of_controlWrites (w : Warp) (v : W64) : ∀ e ∈ controlWrites w v, w.ctlWrite e.1 v = e.2 := by
  unfold controlWrites
  dsimp only
  rw [List.forall_mem_append, List.forall_mem_append, List.forall_mem_map, List.forall_mem_map]
  refine ⟨⟨?single, fun i hi => ?handler⟩, fun i hi => ?tolerance⟩
  case single =>
    simp only [List.forall_mem_cons, List.not_mem_nil, false_imp_iff, implies_true, and_true]
    refine ⟨?fpmode, ?part, rfl, rfl, rfl, ?trappc⟩
    case fpmode => exact congrArg (fun x => { w with fpmode := x }) (fpmodeWrite_eq w.fpmode v)
    case part => exact congrArg (fun x => { w with part := x }) (partWrite_field w.part v)
    case trappc => exact congrArg (fun x => { w with trappc := x }) (setFld_low v)
  case handler =>
    have := List.mem_range.mp hi
    rw [← setFld_low]
    interval_cases i <;> rfl
  case tolerance =>
    have := List.mem_range.mp hi
    refine Eq.trans ?_ (congrArg (fun x => { w with mtol := vset w.mtol i x }) (mtolWrite_eq (vget 0 w.mtol i) v))
    interval_cases i <;> rfl

theorem deliverParked_of_none {s : State} {k : Nat} : ∀ {ps : List Park}, (∀ p ∈ ps, ∀ i, p.hold ≠ .wany i) → s.deliverParked k ps = s
  | [], _ => rfl
  | p :: r, h => by
    have rest := deliverParked_of_none (s := s) (k := k) fun q hq => h q (List.mem_cons_of_mem p hq)
    have own := h p List.mem_cons_self
    obtain ⟨set, hold⟩ := p
    cases hold with
    | wany i => exact absurd rfl (own i)
    | _ => exact rest
theorem advance_parks (s : State) : s.advance.w.parks = s.w.parks := by
  simp only [State.advance, finish_w, w_modW]; rfl

/-- Settles O5: without a WANY that waits, nothing but the write follows. -/
theorem controlWritesChangeTheirRegister : Obligations.ControlWritesChangeTheirRegister := by
  intro a s none e he _
  obtain ⟨⟨hs, hv, hm⟩, threads, parks⟩ := ctlWrite_keeps s.w e.1 (s.rdS a)
  have w : (s.modW (·.ctlWrite e.1 (s.rdS a))).w = s.w.ctlWrite e.1 (s.rdS a) := w_modW s _
  have quiet : (s.modW (·.ctlWrite e.1 (s.rdS a))).advance.eventsChanged s.iss.key = (s.modW (·.ctlWrite e.1 (s.rdS a))).advance := by
    refine deliverParked_of_none ?_
    show ∀ p ∈ (s.modW (·.ctlWrite e.1 (s.rdS a))).advance.w.parks, _
    rw [advance_parks, w, parks]; exact none
  refine ⟨_, congrArg Host.Outcome.next quiet, onlyWarp_advance (onlyWarp_modW s _), ⟨fun n _ => ?_, fun n L _ => ?_, fun n _ => ?_⟩, ?_,
    goOn_advance _ _ rfl (by rw [w, threads])⟩
  · rw [advance_eq_jump, jump_rdS, State.rdS, w, hs]; rfl
  · rw [advance_eq_jump, jump_rdV, Warp.rdV, w, hv]; rfl
  · rw [advance_eq_jump, jump_rdM, Warp.rdM, w, hm]; rfl
  · rw [advance_eq_jump, jump_special, w, ctlWrite_of_controlWrites _ _ e he]

end Sys2Proof.Proofs
end

section
/-! # Division -/

namespace Sys2Proof.Proofs

open Machine Laws

/-! ## Uniform division (R55) -/

theorem w64_tdiv (a b : W64) : w64 (a.toInt.tdiv b.toInt) = a.sdiv b :=
  BitVec.eq_of_toInt_eq (by rw [BitVec.toInt_sdiv]; exact BitVec.toInt_ofInt ..)
theorem w64_tmod (a b : W64) : w64 (a.toInt.tmod b.toInt) = a.srem b := by
  rw [← BitVec.toInt_srem]; exact BitVec.ofInt_toInt

section
variable {s : State}

/-- With a divisor other than 0, a uniform division is a uniform operation. -/
theorem uniDiv_of_ne {f : UR} {F : Int → Int → Int} (h : s.opB f.b ≠ 0) : s.uniDiv f F = s.uniOp f fun a b => w64 (F a.toInt b.toInt) :=
  if_neg h

theorem uniformDivisionWritesItsResult : UniformDivisionWritesItsResult := fun _ _ h nonzero =>
  have hd := dest_lt_of_ok (numsOk_of_wf h)
  ⟨⟨_, uniDiv_of_ne nonzero, wrS_advance_result hd (w64_tdiv _ _)⟩, ⟨_, uniDiv_of_ne nonzero, wrS_advance_result hd (w64_tmod _ _)⟩⟩

/-! ## A zero divisor (R55, R112) -/

theorem uniDiv_traps {f : UR} {F : Int → Int → Int} (h : TrapTakes s) (zero : s.opB f.b = 0) :
    ∃ t, s.uniDiv f F = .next t ∧ TrapTaken s t s.iss.set 0x10 0 :=
  ⟨_, if_pos zero, trapTaken_trap h cDivZero 0⟩

/-- A lane instruction with its registers held and a lane active is its body. -/
theorem lane_eq {p : Pre} {act : W32} {uses : Nat → List RUse} {body : Nat → Res} (h : RegsHeld s p uses) (acts : act ≠ 0) :
    s.lane p act uses body = body s.iss.idx := by
  simp only [State.lane, firstBad_eq_none h.1, regWaits_of_free h.2, Bool.false_eq_true, if_false, if_neg acts]
theorem ne_zero_of_getLsbD {act : W32} {L : Nat} (h : act.getLsbD L = true) : act ≠ 0 := by
  rintro rfl; simp at h
/-- The first lane of a mask that a test picks is the lowest one. -/
theorem find?_lanesOf {act : W32} {p : Nat → Bool} {L : Nat} (hL : L < 32) (active : act.getLsbD L = true) (picked : p L = true)
    (lowest : ∀ K, K < L → act.getLsbD K = true → p K = false) : (lanesOf act).find? p = some L := by
  rw [lanesOf, List.find?_filter, List.find?_range_eq_some]
  refine ⟨by rw [active, picked]; rfl, List.mem_range.mpr hL, fun K hK => ?_⟩
  cases hk : act.getLsbD K with
  | false => rfl
  | true => rw [lowest K hK hk]; rfl

theorem divOp_traps {f : LRI} {F : Int → Int → Int} {L : Nat} (h : TrapTakes s) (held : RegsHeld s f.pre (intUses f (IntTy.regs f.t)))
    (hL : L < 32) (active : (s.act f.pre).getLsbD L = true) (zero : intB s f L = 0)
    (lowest : ∀ K, K < L → (s.act f.pre).getLsbD K = true → intB s f K ≠ 0) :
    ∃ t, s.divOp f F = .next t ∧ TrapTaken s t (s.act f.pre) 0x10 (BitVec.ofNat 64 L) := by
  have found : (lanesOf (s.act f.pre)).find? (fun t => decide (IntTy.val f.t (s.w.rdB f.pre s.iss.idx (IntTy.wide f.t) f.b t) = 0)) = some L :=
    find?_lanesOf hL active (decide_eq_true zero) fun K hK hk => decide_eq_false (lowest K hK hk)
  have wide : decide (IntTy.w f.t = 64) = IntTy.wide f.t := by cases f.t <;> rfl
  refine ⟨_, ?_, trapTaken_trapAct h (s.act f.pre) cDivZero (BitVec.ofNat 64 L)⟩
  rw [State.divOp, wide]
  refine (lane_eq (uses := intUses f (IntTy.regs f.t)) held (ne_zero_of_getLsbD active)).trans ?_
  simp only [found]

end

/-- Settles O7: the check of the divisor comes before the division. -/
theorem divisionsTruncateOrTrapOnZero : Obligations.DivisionsTruncateOrTrapOnZero :=
  ⟨uniformDivisionWritesItsResult, fun _ h =>
    ⟨fun _ zero => ⟨uniDiv_traps h zero, uniDiv_traps h zero⟩,
     fun _ _ _ held hL active zero lowest => ⟨divOp_traps h held hL active zero lowest, divOp_traps h held hL active zero lowest⟩⟩⟩

end Sys2Proof.Proofs
end

section
/-! # Lane branches -/

namespace Sys2Proof.Proofs

open Machine Laws

/-! ## Threads that move (R131, R132) -/

/-- Each thread of the issuing warp stands at its place, and nothing else has changed but lanes. -/
structure Placed (s t : State) (V : Nat → Nat → Prop) (place : Nat → W64) : Prop where
  only : OnlyWarp s t
  regs : RegsKept s t noReg V noReg
  special : SameSpecial s t
  rest : ∀ L, L < 32 → (t.w.thread L).placeless = (s.w.thread L).placeless
  places : ∀ L, L < 32 → (t.w.thread L).pc = place L

section
variable {s u : State} {V : Nat → Nat → Prop} {place : Nat → W64} {p : Pre} {off : Nat}

theorem placed_finish (only : OnlyWarp s u) (regs : RegsKept s u noReg V noReg) (special : SameSpecial s u)
    (threads : ∀ L, L < 32 → u.w.thread L = { s.w.thread L with pc := place L }) : Placed s u.finish V place := by
  refine ⟨onlyWarp_finish only, ⟨fun n h => ?_, fun n L h => ?_, fun n h => ?_⟩, ?_, fun L h => ?_, fun L h => ?_⟩
  · rw [← regs.uniform n h, State.rdS, finish_w]; rfl
  · rw [← regs.vector n L h, finish_w]; rfl
  · rw [← regs.mask n h, finish_w]; rfl
  · show u.finish.w.special = _
    rw [← special, finish_w]
    simp only [Warp.special, Warp.countWaits, Option.map_map]; rfl
  · rw [finish_w]
    show ((Warp.countWaits _ _ _).thread L).placeless = _
    rw [countWaits_placeless _ _ _ _ h, threads L h]; rfl
  · rw [finish_w]
    show ((Warp.countWaits _ _ _).thread L).pc = _
    rw [countWaits_pc _ _ _ _ h, threads L h]
theorem regsKept_modW {f : Warp → Warp} (regs : RegsKept s u noReg V noReg)
    (same : ∀ w, (f w).sregs = w.sregs ∧ (f w).vregs = w.vregs ∧ (f w).mregs = w.mregs) : RegsKept s (u.modW f) noReg V noReg := by
  obtain ⟨hs, hv, hm⟩ := same u.w
  refine ⟨fun n h => ?_, fun n L h => ?_, fun n h => ?_⟩
  · rw [← regs.uniform n h, State.rdS, w_modW, hs]; rfl
  · rw [← regs.vector n L h, Warp.rdV, w_modW, hv]; rfl
  · rw [← regs.mask n h, Warp.rdM, w_modW, hm]; rfl
theorem regsKept_refl (s : State) : RegsKept s s noReg V noReg := ⟨fun _ _ => rfl, fun _ _ _ => rfl, fun _ _ => rfl⟩
/-- The place of a thread after a split: the target, the next word, or where it stood. -/
def splitPlace (s : State) (taken : W32) (target : Nat → W64) (L : Nat) : W64 :=
  if taken.getLsbD L then target L else if s.iss.set.getLsbD L then s.nextPc else (s.w.thread L).pc
theorem placed_split {taken : W32} {target : W64} (only : OnlyWarp s u) (regs : RegsKept s u noReg V noReg) (special : SameSpecial s u)
    (threads : u.w.threads = s.w.threads) : Placed s (u.split taken target) V (splitPlace s taken fun _ => target) := by
  have same : ∀ L, u.w.thread L = s.w.thread L := fun L => by rw [Warp.thread, threads]; rfl
  refine placed_finish (onlyWarp_modW_of only _) ?_ ?_ fun L h => ?_
  · exact regsKept_modW regs fun _ => ⟨rfl, rfl, rfl⟩
  · exact (congrArg Warp.special (w_modW u _)).trans special
  · rw [w_modW]
    simp only [Warp.setPcs, modThreads_thread _ _ _ _ h, same, splitPlace, State.nextPc, onlyWarp_iss only, BitVec.getLsbD_and, BitVec.getLsbD_not, h,
      decide_true, Bool.true_and]
    cases taken.getLsbD L <;> cases s.iss.set.getLsbD L <;> rfl

theorem laneBranch_placed {taken : W32} (ok : canonical (wordTarget s 22 off) = true ∨ taken = 0) :
    ∃ t, s.laneBranch p taken off = .next t ∧ Placed s t noLane (splitPlace s taken fun _ => wordTarget s 22 off) := by
  refine ⟨_, ?_, placed_split (onlyWarp_refl s) (regsKept_refl s) rfl rfl⟩
  rw [State.laneBranch, target_eq (by decide), if_neg]
  rcases ok with ok | ok <;> simp [ok]
theorem laneBranch_traps {taken : W32} (h : TrapTakes s) (bad : canonical (wordTarget s 22 off) = false) (taken_ne : taken ≠ 0) :
    ∃ t, s.laneBranch p taken off = .next t ∧ TrapTaken s t (s.act p) 0x05 (wordTarget s 22 off) := by
  refine ⟨_, ?_, trapTaken_trapAct h (s.act p) cAccess _⟩
  rw [State.laneBranch, target_eq (by decide), bad, if_pos (by simpa using taken_ne)]
theorem splitPlace_taken {taken : W32} {target : Nat → W64} {L : Nat} (h : taken.getLsbD L = true) :
    splitPlace s taken target L = target L := if_pos h
theorem splitPlace_other {taken : W32} {target : Nat → W64} {L : Nat} (h : ¬taken.getLsbD L = true) :
    splitPlace s taken target L = if s.iss.set.getLsbD L then s.iss.base + 4 else (s.w.thread L).pc := if_neg h
theorem eq_zero_of_lanes {m : W32} (h : ∀ L, L < 32 → ¬m.getLsbD L = true) : m = 0 :=
  BitVec.eq_of_getLsbD_eq fun L hL => by simpa using h L hL

/-- What the statement of the lane branches asks of a placing, for the threads that a mask takes. -/
theorem Placed.moved {t : State} {taken : W32} {target : Nat → W64} (h : Placed s t V (splitPlace s taken target)) {takes : Nat → Prop}
    (iff : ∀ L, L < 32 → (taken.getLsbD L = true ↔ takes L)) :
    OnlyWarp s t ∧ RegsKept s t noReg V noReg ∧ SameSpecial s t ∧ ∀ L, L < 32 → (t.w.thread L).placeless = (s.w.thread L).placeless ∧
      (takes L → (t.w.thread L).pc = target L) ∧
      (¬takes L → (t.w.thread L).pc = if s.iss.set.getLsbD L then s.iss.base + 4 else (s.w.thread L).pc) :=
  ⟨h.only, h.regs, h.special, fun L hL => ⟨h.rest L hL, fun tk => (h.places L hL).trans (splitPlace_taken ((iff L hL).mpr tk)),
    fun tk => (h.places L hL).trans (splitPlace_other fun x => tk ((iff L hL).mp x))⟩⟩

theorem getLsbD_and_iff (a m : W32) (L : Nat) : (a &&& m).getLsbD L = true ↔ a.getLsbD L = true ∧ m.getLsbD L = true := by
  rw [BitVec.getLsbD_and, Bool.and_eq_true]
theorem getLsbD_and_not_iff (a m : W32) {L : Nat} (hL : L < 32) : (a &&& ~~~m).getLsbD L = true ↔ a.getLsbD L = true ∧ m.getLsbD L = false := by
  simp [hL]

/-- A branch that takes the threads of a mask that is described lane by lane. -/
theorem laneBranch_moves {taken : W32} {takes : Nat → Prop} (iff : ∀ L, L < 32 → (taken.getLsbD L = true ↔ takes L))
    (ok : canonical (wordTarget s 22 off) = true ∨ ∀ L, L < 32 → ¬takes L) :
    ∃ t, s.laneBranch p taken off = .next t ∧ OnlyWarp s t ∧ RegsKept s t noReg noLane noReg ∧ SameSpecial s t ∧
      ∀ L, L < 32 → (t.w.thread L).placeless = (s.w.thread L).placeless ∧ (takes L → (t.w.thread L).pc = wordTarget s 22 off) ∧
        (¬takes L → (t.w.thread L).pc = if s.iss.set.getLsbD L then s.iss.base + 4 else (s.w.thread L).pc) :=
  have ⟨t, e, placed⟩ := laneBranch_placed (ok.imp_right fun never => eq_zero_of_lanes fun L hL => (iff L hL).not.mpr (never L hL))
  ⟨t, e, placed.moved iff⟩

/-! ## Calls through v127 (R131) -/

theorem bfld_high (v : W64) : bfld v 32 32 = v.toNat / 2 ^ 32 := Nat.mod_eq_of_lt (by have := v.isLt; omega)
/-- The two checks of the target of CALLV. -/
theorem callv_bad_iff (s : State) (t : W64) : ((bfld t 32 32 != bfld s.nextPc 32 32) || !canonical t) = true ↔
    canonical t = false ∨ t.toNat / 2 ^ 32 ≠ (s.iss.base + 4).toNat / 2 ^ 32 := by
  rw [bfld_high, bfld_high, State.nextPc]; simp [or_comm]

/-- CALLV past the checks of its register. -/
theorem execCallv_of_held (held : s.w.holdsV 127 = true) (free : RegsFree s.w [(127, 1)]) :
    execCallv p off s = if s.act p = 0 then .next s.advance
      else if (bfld (wordTarget s 22 off) 32 32 != bfld s.nextPc 32 32 || !canonical (wordTarget s 22 off)) = true then
        .next (s.trapAct (s.act p) cAccess (wordTarget s 22 off))
      else .next ((s.modW fun w => w.wrLanes 127 (s.act p) fun _ => s.nextPc.setWidth 32).split (s.act p) (wordTarget s 22 off)) := by
  simp only [execCallv, target_eq (n := 22) (by decide), regBad_one_of_holds held, regWaits_one_of_free free, Bool.false_eq_true, if_false]

/-- The lanes of v127 that CALLV writes. -/
def linkLanes (s : State) (p : Pre) (n L : Nat) : Prop := n = 127 ∧ (s.act p).getLsbD L = true
theorem placed_link : Placed s ((s.modW fun w => w.wrLanes 127 (s.act p) fun _ => s.nextPc.setWidth 32).split (s.act p) (wordTarget s 22 off))
    (linkLanes s p) (splitPlace s (s.act p) fun _ => wordTarget s 22 off) := by
  refine placed_split (onlyWarp_modW s _) ⟨fun n _ => ?_, fun n L h => ?_, fun n _ => ?_⟩ ?_ ?_
  · rw [State.rdS, w_modW]; rfl
  · rw [w_modW, rdV_wrLanes _ _ _ _ _ _ (by decide), if_neg fun ⟨a, _, b⟩ => h ⟨a, b⟩]
  · rw [w_modW]; rfl
  · show (State.w _).special = _
    rw [w_modW]; rfl
  · rw [w_modW]; rfl
theorem rdV_link {L : Nat} (hL : L < 32) (active : (s.act p).getLsbD L = true) :
    ((s.modW fun w => w.wrLanes 127 (s.act p) fun _ => s.nextPc.setWidth 32).split (s.act p) (wordTarget s 22 off)).w.rdV 127 L =
      (s.iss.base + 4).setWidth 32 := by
  rw [State.split, finish_w, w_modW, w_modW]
  exact (rdV_wrLanes _ _ _ _ _ _ (by decide)).trans (if_pos ⟨rfl, hL, active⟩)
theorem placed_advance (idle : s.act p = 0) : Placed s s.advance (linkLanes s p) (splitPlace s (s.act p) fun _ => wordTarget s 22 off) := by
  have ⟨only, regs, special, going⟩ := moved_advance s
  refine ⟨only, ⟨regs.uniform, fun n L _ => regs.vector n L id, regs.mask⟩, special, going.rest, fun L hL => ?_⟩
  rw [going.places L hL, splitPlace_other (by simp [idle])]

theorem execCallv_moves (held : s.w.holdsV 127 = true) (free : RegsFree s.w [(127, 1)])
    (ok : s.act p = 0 ∨ (canonical (wordTarget s 22 off) = true ∧ (wordTarget s 22 off).toNat / 2 ^ 32 = (s.iss.base + 4).toNat / 2 ^ 32)) :
    ∃ t, execCallv p off s = .next t ∧ Placed s t (linkLanes s p) (splitPlace s (s.act p) fun _ => wordTarget s 22 off) ∧
      ∀ L, L < 32 → (s.act p).getLsbD L = true → t.w.rdV 127 L = (s.iss.base + 4).setWidth 32 := by
  rw [execCallv_of_held held free]
  by_cases idle : s.act p = 0
  · rw [if_pos idle]
    exact ⟨_, rfl, placed_advance idle, fun L _ active => absurd active (by simp [idle])⟩
  · obtain ⟨canon, near⟩ := ok.resolve_left idle
    rw [if_neg idle, if_neg fun bad => ((callv_bad_iff _ _).mp bad).elim (by simp [canon]) (absurd near)]
    exact ⟨_, rfl, placed_link, fun L hL => rdV_link hL⟩
theorem execCallv_traps (h : TrapTakes s) (held : s.w.holdsV 127 = true) (free : RegsFree s.w [(127, 1)]) (acts : s.act p ≠ 0)
    (bad : canonical (wordTarget s 22 off) = false ∨ (wordTarget s 22 off).toNat / 2 ^ 32 ≠ (s.iss.base + 4).toNat / 2 ^ 32) :
    ∃ t, execCallv p off s = .next t ∧ TrapTaken s t (s.act p) 0x05 (wordTarget s 22 off) :=
  ⟨_, by rw [execCallv_of_held held free, if_neg acts, if_pos ((callv_bad_iff _ _).mpr bad)], trapTaken_trapAct h _ cAccess _⟩

/-! ## Jumps through a lane register (R132) -/

/-- The address that a lane holds, in the 4 GiB of the instruction. -/
def laneTarget (s : State) (a L : Nat) : W64 := (s.iss.base.extractLsb' 32 32).append (s.w.rdV a L)
theorem model_target (s : State) (a L : Nat) : ((s.iss.base >>> 32).setWidth 32).append (s.w.rdV a L) = laneTarget s a L := by
  have : (s.iss.base >>> 32).setWidth 32 = s.iss.base.extractLsb' 32 32 := BitVec.eq_of_getLsbD_eq fun i hi => by simp [hi]
  rw [laneTarget, this]
theorem low_laneTarget (s : State) (a L : Nat) : bfld (laneTarget s a L) 0 2 = (s.w.rdV a L).toNat % 4 := by
  have : (laneTarget s a L).toNat = (s.iss.base.extractLsb' 32 32).toNat <<< 32 ||| (s.w.rdV a L).toNat := BitVec.toNat_append ..
  rw [bfld, this, ← Nat.shiftLeft_add_eq_or_of_lt (s.w.rdV a L).isLt, Nat.shiftLeft_eq]
  omega

/-- The lanes whose address is no multiple of 4. -/
def oddLane (s : State) (a L : Nat) : Bool := bfld (laneTarget s a L) 0 2 != 0
theorem oddLane_eq (s : State) (a L : Nat) : oddLane s a L = ((s.w.rdV a L).toNat % 4 != 0) := by rw [oddLane, low_laneTarget]
/-- The warp after JMPV. -/
def jumpLanes (s : State) (p : Pre) (a : Nat) (w : Warp) : Warp :=
  { w with
    threads := vtab 32 fun L =>
      if (s.act p).getLsbD L then { w.thread L with pc := laneTarget s a L }
      else if s.iss.set.getLsbD L then { w.thread L with pc := s.nextPc } else w.thread L }
theorem execJmpv_of_found {a L : Nat} (held : s.w.holdsV a = true) (free : RegsFree s.w [(a, 1)])
    (found : (lanesOf (s.act p)).find? (oddLane s a) = some L) : execJmpv p a s = .next (s.trapAct (s.act p) cAlign (laneTarget s a L)) := by
  unfold oddLane at found
  simp only [execJmpv, model_target, regBad_one_of_holds held, regWaits_one_of_free free, found, Bool.false_eq_true, if_false]
theorem execJmpv_of_none {a : Nat} (held : s.w.holdsV a = true) (free : RegsFree s.w [(a, 1)])
    (even : (lanesOf (s.act p)).find? (oddLane s a) = none) : execJmpv p a s = .next (s.modW (jumpLanes s p a)).finish := by
  unfold oddLane at even
  simp only [execJmpv, model_target, regBad_one_of_holds held, regWaits_one_of_free free, even, Bool.false_eq_true, if_false]
  rfl
theorem execJmpv_moves {a : Nat} (held : s.w.holdsV a = true) (free : RegsFree s.w [(a, 1)])
    (aligned : ∀ L, L < 32 → (s.act p).getLsbD L = true → (s.w.rdV a L).toNat % 4 = 0) :
    ∃ t, execJmpv p a s = .next t ∧ Placed s t noLane (splitPlace s (s.act p) (laneTarget s a)) := by
  have even : (lanesOf (s.act p)).find? (oddLane s a) = none := by
    refine List.find?_eq_none.mpr fun L hL => ?_
    obtain ⟨hL, active⟩ := (mem_lanesOf _ _).mp hL
    rw [oddLane_eq, aligned L hL active]; decide
  refine ⟨_, execJmpv_of_none held free even,
    placed_finish (onlyWarp_modW s _) (regsKept_modW (regsKept_refl s) fun _ => ⟨rfl, rfl, rfl⟩) ?_ fun L hL => ?_⟩
  · show (State.w _).special = _
    rw [w_modW]; rfl
  · rw [w_modW, jumpLanes, thread_vtab _ _ _ hL, splitPlace]
    split_ifs <;> rfl
theorem execJmpv_traps {a L : Nat} (h : TrapTakes s) (held : s.w.holdsV a = true) (free : RegsFree s.w [(a, 1)]) (hL : L < 32)
    (active : (s.act p).getLsbD L = true) (odd : (s.w.rdV a L).toNat % 4 ≠ 0)
    (lowest : ∀ K, K < L → (s.act p).getLsbD K = true → (s.w.rdV a K).toNat % 4 = 0) :
    ∃ t, execJmpv p a s = .next t ∧ TrapTaken s t (s.act p) 0x04 (laneTarget s a L) := by
  have found : (lanesOf (s.act p)).find? (oddLane s a) = some L :=
    find?_lanesOf hL active (by rw [oddLane_eq]; exact bne_iff_ne.mpr odd) fun K hK hk => by rw [oddLane_eq, lowest K hK hk]; rfl
  exact ⟨_, execJmpv_of_found held free found, trapTaken_trapAct h _ cAlign _⟩

theorem regBad_one_of_not_holds {w : Warp} {n : Nat} (h : w.holdsV n = false) : w.regBad (n, 1) = true := by simp [Warp.regBad, h]

end

theorem laneBranchesMoveTheirThreads : LaneBranchesMoveTheirThreads := by
  refine fun s p => ⟨fun m off ok => ?brt, fun m off ok => ?brf, fun off held free ok => ?callv, fun a held free aligned => ?jmpv⟩
  case brt => exact laneBranch_moves (fun L _ => getLsbD_and_iff _ _ L) ok
  case brf => exact laneBranch_moves (fun L hL => getLsbD_and_not_iff _ _ hL) ok
  case callv =>
    obtain ⟨t, e, placed, link⟩ := execCallv_moves held free ok
    exact ⟨t, e, placed.moved fun _ _ => Iff.rfl, link⟩
  case jmpv =>
    obtain ⟨t, e, placed⟩ := execJmpv_moves held free aligned
    exact ⟨t, e, placed.moved fun _ _ => Iff.rfl⟩

theorem laneBranchesToBadTargetsTrap : LaneBranchesToBadTargetsTrap := by
  refine fun s p h => ⟨fun m off bad => ⟨fun ⟨L, hL, tk⟩ => ?brt, fun ⟨L, hL, tk⟩ => ?brf⟩,
    fun off => ⟨fun lacks => ?callvReg, fun held free acts bad => ?callv⟩,
    fun a _ => ⟨fun lacks => ?jmpvReg, fun L hL held free active odd lowest => ?jmpv⟩⟩
  case brt => exact laneBranch_traps h bad (ne_zero_of_getLsbD ((getLsbD_and_iff _ _ L).mpr tk))
  case brf => exact laneBranch_traps h bad (ne_zero_of_getLsbD ((getLsbD_and_not_iff _ _ hL).mpr tk))
  case callvReg => exact ⟨_, if_pos (regBad_one_of_not_holds lacks), trapTaken_trapAct h (s.act p) cIllreg 127⟩
  case callv => exact execCallv_traps h held free acts bad
  case jmpvReg => exact ⟨_, if_pos (regBad_one_of_not_holds lacks), trapTaken_trapAct h (s.act p) cIllreg (BitVec.ofNat 64 a)⟩
  case jmpv => exact execJmpv_traps h held free hL active odd lowest

/-- Settles O24: every thread of the issue set is placed by one split of the set, after the checks of the target. -/
theorem laneBranchesMoveTheirThreadsOrTrap : Obligations.LaneBranchesMoveTheirThreadsOrTrap :=
  ⟨laneBranchesMoveTheirThreads, laneBranchesToBadTargetsTrap⟩

end Sys2Proof.Proofs
end

section
/-! # Accesses to bad addresses -/

namespace Sys2Proof.Proofs

open Machine Laws

section
variable {s : State} {L : Nat}

/-! ## The checks in lane order (R213) -/

/-- A property holds of every active lane below L, and L is active. -/
structure LowestLane (act : W32) (P : Nat → Prop) (L : Nat) : Prop where
  active : act.getLsbD L = true
  fails : ¬P L
  below : ∀ K, K < L → act.getLsbD K = true → P K

theorem find?_of_lowestLane {act : W32} {P : Nat → Prop} {q : Nat → Bool} (hL : L < 32) (h : LowestLane act P L)
    (iff : ∀ K, act.getLsbD K = true → (q K = true ↔ ¬P K)) : (lanesOf act).find? q = some L :=
  find?_lanesOf hL h.active ((iff L h.active).mpr h.fails) fun K hK hk => Bool.eq_false_iff.mpr fun x => (iff K hk).mp x (h.below K hK hk)
theorem find?_lanesOf_none {act : W32} {q : Nat → Bool} (h : ∀ K, K < 32 → act.getLsbD K = true → q K = false) : (lanesOf act).find? q = none :=
  List.find?_eq_none.mpr fun K hK => by
    obtain ⟨hK, active⟩ := (mem_lanesOf _ _).mp hK
    rw [h K hK active]; decide

/-- The first and the last byte of an access are canonical. -/
def Canonical (va : W64) (n : Nat) : Prop := canonical va = true ∧ canonical (va + BitVec.ofNat 64 (n - 1)) = true
theorem canon_iff (p : Span) : p.canon = true ↔ Canonical p.va p.n := Bool.and_eq_true_iff
theorem not_canon_iff (p : Span) : (!p.canon) = true ↔ ¬Canonical p.va p.n := by rw [← canon_iff]; simp

/-- The spans of a lane instruction. -/
def laneSpans (va : Nat → W64) (n : Nat) (act : W32) : List Span := (lanesOf act).map fun K => ⟨K, va K, n⟩

section
variable {k : AKind} {set : Option W32} {act : W32} {ps : List Span} {p : Span} {align n : Nat} {va : Nat → W64}

theorem memCheck_access (h : ps.find? (fun p => !p.canon) = some p) : s.memCheck k set act ps align = some (s.trapAct act cAccess p.va) := by
  simp only [State.memCheck, h]
theorem memCheck_align (ok : ps.find? (fun p => !p.canon) = none) (h : ps.find? (fun p => p.va.toNat % align != 0) = some p) :
    s.memCheck k set act ps align = some (s.trapAct act cAlign p.va) := by
  simp only [State.memCheck, ok, h]
theorem lanes_access (hL : L < 32) (h : LowestLane act (fun K => Canonical (va K) n) L) :
    s.memCheck k set act (laneSpans va n act) align = some (s.trapAct act cAccess (va L)) := by
  refine memCheck_access (p := ⟨L, va L, n⟩) ?_
  rw [laneSpans, List.find?_map, find?_of_lowestLane hL h fun K _ => not_canon_iff _]; rfl
theorem lanes_align (hL : L < 32) (ok : ∀ K, K < 32 → act.getLsbD K = true → Canonical (va K) n)
    (h : LowestLane act (fun K => (va K).toNat % align = 0) L) :
    s.memCheck k set act (laneSpans va n act) align = some (s.trapAct act cAlign (va L)) := by
  refine memCheck_align (p := ⟨L, va L, n⟩) ?_ ?_
  · rw [laneSpans, List.find?_map, find?_lanesOf_none fun K hK hk => ?_]; rfl
    exact Bool.eq_false_iff.mpr fun x => (not_canon_iff _).mp x (ok K hK hk)
  · rw [laneSpans, List.find?_map, Function.comp_def, find?_of_lowestLane hL h fun K _ => bne_iff_ne]; rfl

end

/-! ## Lane accesses through translation (R213) -/

theorem noTx_of_trapTakes (h : TrapTakes s) (issues : s.iss.set ≠ 0) : NoTx s := by
  refine ⟨issues, fun K hK active => ?_⟩
  have := getLsbD_inTx s.w s.iss.set K hK
  rw [h.2.2, active] at this
  simpa using this.symm
theorem act_and_set (s : State) (p : Pre) : s.act p &&& s.iss.set = s.act p := by
  rw [State.act, BitVec.and_comm s.iss.set, BitVec.and_assoc, BitVec.and_self]
theorem active_of_act {p : Pre} {K : Nat} (h : (s.act p).getLsbD K = true) : s.iss.set.getLsbD K = true := ((getLsbD_and_iff _ _ K).mp h).1
theorem dropTx_act_of_noTx (h : NoTx s) (p : Pre) (code : Nat) : s.dropTx (s.act p) code = s :=
  txGuardAct_of_noTx (fun K hK active => h.2 K hK (active_of_act active)) code

/-- A lane access whose checks find a fault answers with its trap. -/
theorem laneMem_of_check {m : MemOp} {p : Pre} {spans : W32 → List Span} {op : FlightOp} {data : Nat → List Byte × Nat × Nat} {u : State}
    (h : NoTx s) (acts : s.act p ≠ 0) (check : s.memCheck op.kind none (s.act p) (spans (s.act p)) m.align = some u) :
    s.laneMem m p (s.act p) spans op data = .next u := by
  have drop : (if m.engine then s.dropTx (s.act p) abEngine else s) = s := by rw [dropTx_act_of_noTx h, ite_self]
  simp only [State.laneMem, drop, emptied_of_noTx h, act_and_set, if_neg acts, check, Bool.false_eq_true, if_false]

/-! ## The statement's offsets and uses are the model's -/

theorem lmOff_eq (s : State) (f : LM) (K : Nat) : lmOff s f s.iss.idx K = laneOffset s f K := by
  unfold lmOff laneOffset
  cases f.b with
  | imm v => dsimp only; rw [← toInt_ofNat_eq_sext (n := 7) (by decide)]
  | reg r => dsimp only; rw [← toInt_ofNat_eq_sext (n := 32) (by decide), BitVec.ofNat_toNat, BitVec.setWidth_eq]
theorem lmSpans_eq (s : State) (f : LM) (act : W32) : lmSpans s f act = laneSpans (laneAddr s f) (lmSize f) act := by
  unfold lmSpans laneSpans laneAddr
  simp only [lmOff_eq, w64]
theorem ldsOff_eq (s : State) (f : LM) : ldsOff s f = localOffset s f := by
  funext K; rw [ldsOff, lmOff_eq]; rfl
theorem lmAlign_of_must {f : LM} (must : ∃ x, f.pre.ext = some x ∧ x.atom ≠ 0) : lmAlign f = lmSize f := by
  obtain ⟨x, hx, atom⟩ := must
  simp only [lmAlign, hx, if_neg atom]

/-! ## LD and ST, LDS and STS -/

theorem lm_of_check {f : LM} {u : State} (h : NoTx s) (held : RegsHeld s f.pre (accessUses f 2)) (acts : s.act f.pre ≠ 0)
    (check : ∀ k, s.memCheck k none (s.act f.pre) (laneSpans (laneAddr s f) (lmSize f) (s.act f.pre)) (lmAlign f) = some u) :
    execLd f s = .next u ∧ execSt f s = .next u := by
  rw [← lmSpans_eq] at check
  exact ⟨(lane_eq (uses := lmUses f true) held acts).trans (laneMem_of_check h acts (check _)),
    (lane_eq (uses := lmUses f true) held acts).trans (laneMem_of_check h acts (check _))⟩
theorem lm_of_localCheck {f : LM} {u : State} (held : RegsHeld s f.pre (accessUses f 1)) (acts : s.act f.pre ≠ 0)
    (check : s.localCheck (s.act f.pre) (localOffset s f) (lmSize f) (lmAlign f) = some u) : execLds f s = .next u ∧ execSts f s = .next u := by
  rw [← ldsOff_eq] at check
  refine ⟨(lane_eq (uses := lmUses f false) held acts).trans ?_, (lane_eq (uses := lmUses f false) held acts).trans ?_⟩ <;> simp only [check]

section
variable {act : W32} {off : Nat → Int} {n : Nat}

theorem outside_iff (o len n : Int) : (decide (o < 0) || decide (len < o + n)) = true ↔ ¬(0 ≤ o ∧ o + n ≤ len) := by
  rw [Bool.or_eq_true, decide_eq_true_eq, decide_eq_true_eq]; omega
theorem misaligned_iff {o : Int} {n : Nat} (h : 0 ≤ o) : (o.toNat % n != 0) = true ↔ ¬o % n = 0 := by
  obtain ⟨m, rfl⟩ := Int.eq_ofNat_of_zero_le h
  rw [bne_iff_ne, Int.toNat_natCast]; norm_cast
theorem local_access {align : Nat} (hL : L < 32) (h : LowestLane act (fun K => 0 ≤ off K ∧ off K + n ≤ s.g.slen) L) :
    s.localCheck act off n align = some (s.trapAct act cAccess (w64 (off L))) := by
  have found := find?_of_lowestLane hL h fun K _ => outside_iff (off K) s.g.slen n
  simp only [State.localCheck, found]
theorem local_align (hL : L < 32) (ok : ∀ K, K < 32 → act.getLsbD K = true → 0 ≤ off K ∧ off K + n ≤ s.g.slen)
    (h : LowestLane act (fun K => off K % n = 0) L) : s.localCheck act off n n = some (s.trapAct act cAlign (w64 (off L))) := by
  have inside := find?_lanesOf_none fun K hK hk => Bool.eq_false_iff.mpr fun x => (outside_iff (off K) s.g.slen n).mp x (ok K hK hk)
  have found : (lanesOf act).find? (fun K => (off K).toNat % n != 0) = some L :=
    find?_lanesOf hL h.active ((misaligned_iff (ok L hL h.active).1).mpr h.fails) fun K hK hk =>
      Bool.eq_false_iff.mpr fun x => (misaligned_iff (ok K (hK.trans hL) hk).1).mp x (h.below K hK hk)
  simp only [State.localCheck, inside, found]

end

/-! ## ATOM and ATOMS -/

theorem inside_natCast {o n len : Nat} : (0 ≤ (o : Int) ∧ (o : Int) + n ≤ len) ↔ o + n ≤ len := by omega
theorem lowestLane_congr {act : W32} {P Q : Nat → Prop} (iff : ∀ K, P K ↔ Q K) (h : LowestLane act P L) : LowestLane act Q L :=
  ⟨h.active, fun x => h.fails ((iff L).mpr x), fun K hK hk => (iff K).mp (h.below K hK hk)⟩
theorem lowestLane_inside {act : W32} {o : Nat → Nat} {n len : Nat} (h : LowestLane act (fun K => o K + n ≤ len) L) :
    LowestLane act (fun K => 0 ≤ (o K : Int) ∧ (o K : Int) + n ≤ len) L := lowestLane_congr (fun _ => inside_natCast.symm) h
theorem lowestLane_aligned {act : W32} {o : Nat → Nat} {n : Nat} (h : LowestLane act (fun K => o K % n = 0) L) :
    LowestLane act (fun K => (o K : Int) % n = 0) L := lowestLane_congr (fun _ => by norm_cast) h

/-- The uses of an atomic, as the statement writes them. -/
def atomicUses (f : LA) (aw j : Nat) : List (Nat × Nat) :=
  let w := if AtomOp.bytes f.op = 8 then 2 else 1
  (f.pre.d j f.d, w) :: (f.pre.a j f.a, aw) :: (match f.op with | .cas _ => [(f.pre.vc j f.d, w)] | _ => [])
theorem laUses_eq (f : LA) (pair : Bool) : laUses f pair = atomicUses f (if pair then 2 else 1) := by
  funext j
  have w : atomRegs f.op = if AtomOp.bytes f.op = 8 then 2 else 1 := by simp [atomRegs, atomWide]
  rw [laUses, atomicUses, w]
  cases f.op <;> rfl
theorem atom_of_check {f : LA} {u : State} (h : NoTx s) (held : RegsHeld s f.pre (atomicUses f 2)) (acts : s.act f.pre ≠ 0)
    (check : ∀ k, s.memCheck k none (s.act f.pre) (laneSpans (fun K => s.w.rdV64 (f.pre.a s.iss.idx f.a) K) (AtomOp.bytes f.op) (s.act f.pre))
      (AtomOp.bytes f.op) = some u) : execAtom f s = .next u := by
  have held := (laUses_eq f true).symm ▸ held
  exact (lane_eq held acts).trans (laneMem_of_check h acts (check _))
theorem atoms_of_check {f : LA} {u : State} (held : RegsHeld s f.pre (atomicUses f 1)) (acts : s.act f.pre ≠ 0)
    (check : s.localCheck (s.act f.pre) (fun K => ((s.w.rdV (f.pre.a s.iss.idx f.a) K).toNat : Int)) (AtomOp.bytes f.op) (AtomOp.bytes f.op) = some u) :
    execAtoms f s = .next u := by
  have held : RegsHeld s f.pre (laUses f false) := (laUses_eq f false).symm ▸ held
  simp only [execAtoms, lane_eq held acts, check]

/-! ## Uniform accesses (R61, R64) -/

theorem umAddr_eq (s : State) (f : UM) (n : Nat) : umAddr s f n = uniformAddr s f n := by
  rw [umAddr, uniformAddr, scaled, w64, BitVec.ofInt_mul, BitVec.signExtend, toInt_ofNat_eq_sext (by decide), BitVec.ofInt_natCast]
theorem uniMem_of_check {op : FlightOp} {va : W64} {n align : Nat} {scope : Scope} {bs : List Byte} {u : State}
    (check : s.memCheck op.kind (some s.iss.set) s.iss.set [⟨s.uniLane, va, n⟩] align = some u) : s.uniMem op va n align scope bs = .next u := by
  simp only [State.uniMem, check]
theorem uniform_of_check {f : UM} {n : Nat} {u : State} (h : NoTx s)
    (check : ∀ k, s.memCheck k (some s.iss.set) s.iss.set [⟨s.uniLane, uniformAddr s f n, n⟩] (umAlign f) = some u) :
    s.uniLd f n = .next u ∧ s.uniSt f n = .next u := by
  rw [State.uniLd, State.uniSt, txGuard_of_noTx h, emptied_of_noTx h, umAddr_eq]
  exact ⟨uniMem_of_check (check _), uniMem_of_check (check _)⟩
theorem single_access {k : AKind} {set : Option W32} {act : W32} {lane n align : Nat} {va : W64} (bad : ¬Canonical va n) :
    s.memCheck k set act [⟨lane, va, n⟩] align = some (s.trapAct act cAccess va) :=
  memCheck_access (p := ⟨lane, va, n⟩) (List.find?_singleton.trans (if_pos ((not_canon_iff _).mpr bad)))
theorem single_align {k : AKind} {set : Option W32} {act : W32} {lane n align : Nat} {va : W64} (ok : Canonical va n) (odd : va.toNat % align ≠ 0) :
    s.memCheck k set act [⟨lane, va, n⟩] align = some (s.trapAct act cAlign va) :=
  memCheck_align (p := ⟨lane, va, n⟩) (List.find?_singleton.trans (if_neg fun x => (not_canon_iff _).mp x ok))
    (List.find?_singleton.trans (if_pos (bne_iff_ne.mpr odd)))
theorem umAlign_of_must {f : UM} (must : ∃ x, f.ext = some x ∧ x.atom = 1) : umAlign f = 8 := by
  obtain ⟨x, hx, atom⟩ := must
  simp only [umAlign, hx, if_pos atom]

end

/-- The uniform accesses and their sizes. -/
def uniformAccesses : List ((UM → Instr) × Nat) := [(Instr.sld, 8), (Instr.sldw, 4), (Instr.sst, 8), (Instr.sstw, 4)]
theorem uniformAccesses_of_check {s u : State} {f : UM} (h : NoTx s) : ∀ e ∈ uniformAccesses,
    (∀ k, s.memCheck k (some s.iss.set) s.iss.set [⟨s.uniLane, uniformAddr s f e.2, e.2⟩] (umAlign f) = some u) → exec (e.1 f) s = .next u := by
  simp only [uniformAccesses, List.forall_mem_cons, List.not_mem_nil, false_imp_iff, implies_true, and_true]
  exact ⟨fun check => (uniform_of_check h check).1, fun check => (uniform_of_check h check).1,
    fun check => (uniform_of_check h check).2, fun check => (uniform_of_check h check).2⟩

/-- The parameter that SLDK names: its offset and its address. -/
def paramOff (s : State) (a off : Nat) : Int := (s.rdS a).toInt + (BitVec.ofNat 9 off).toInt * 8
def paramAddr (s : State) (a off : Nat) : W64 := paramBase (s.ctlOf s.iss.key 0x0B) + BitVec.ofInt 64 (paramOff s a off)
theorem execSldk_eq (s : State) (d a off : Nat) : execSldk d a off s =
    if paramOff s a off % 8 ≠ 0 then .next (s.trap cAlign (paramAddr s a off))
    else if paramOff s a off < 0 ∨ (paramLen (s.ctlOf s.iss.key 0x0B) : Int) < paramOff s a off + 8 then .next (s.trap cAccess (paramAddr s a off))
    else s.uniLoad d (paramAddr s a off) 8 1 := by
  simp only [execSldk, ← toInt_ofNat_eq_sext (n := 9) (by decide), bne_iff_ne, Bool.or_eq_true, decide_eq_true_eq]; rfl

/-- Two instructions that answer with the same trap. -/
theorem both_trap {s t : State} {i j : Instr} {act : W32} {cause : Nat} {v : W64} (e : exec i s = .next t ∧ exec j s = .next t)
    (trap : TrapTaken s t act cause v) : Completes i s (TrapTaken s · act cause v) ∧ Completes j s (TrapTaken s · act cause v) :=
  ⟨⟨t, e.1, trap⟩, ⟨t, e.2, trap⟩⟩

/-- Settles O36: the checks come first, in the order of the lanes, and the trap is the first fault's. -/
theorem badAddressesTrap : Obligations.BadAddressesTrap := by
  intro s L trap issues hL
  have h := noTx_of_trapTakes trap issues
  refine ⟨fun f _ => ⟨fun held ⟨active, fails, below⟩ => ?ldAccess, fun held must ok ⟨active, fails, below⟩ => ?ldAlign,
      fun held ⟨active, fails, below⟩ => ?ldsAccess, fun held must ok ⟨active, fails, below⟩ => ?ldsAlign⟩,
    fun f _ => ⟨fun held ⟨active, fails, below⟩ => ?atomAccess, fun held ok ⟨active, fails, below⟩ => ?atomAlign,
      fun held ⟨active, fails, below⟩ => ?atomsAccess, fun held ok ⟨active, fails, below⟩ => ?atomsAlign⟩,
    fun e he f => ⟨fun bad => ?uniformAccess, fun ok must odd => ?uniformAlign⟩,
    fun d a off => ⟨fun odd => ?sldkAlign, fun even out => ?sldkAccess⟩⟩
  case ldAccess =>
    exact both_trap (lm_of_check h held (ne_zero_of_getLsbD active) fun _ => lanes_access hL ⟨active, fails, below⟩)
      (trapTaken_trapAct trap _ cAccess _)
  case ldAlign =>
    rw [← lmAlign_of_must must] at fails below
    exact both_trap (lm_of_check h held (ne_zero_of_getLsbD active) fun _ => lanes_align hL ok ⟨active, fails, below⟩)
      (trapTaken_trapAct trap _ cAlign _)
  case ldsAccess =>
    exact both_trap (lm_of_localCheck held (ne_zero_of_getLsbD active) (local_access hL ⟨active, fails, below⟩))
      (trapTaken_trapAct trap _ cAccess _)
  case ldsAlign =>
    have check := local_align hL ok ⟨active, fails, below⟩
    exact both_trap (lm_of_localCheck held (ne_zero_of_getLsbD active) (by rw [lmAlign_of_must must]; exact check))
      (trapTaken_trapAct trap _ cAlign _)
  case atomAccess =>
    exact ⟨_, atom_of_check h held (ne_zero_of_getLsbD active) fun _ => lanes_access hL ⟨active, fails, below⟩,
      trapTaken_trapAct trap _ cAccess _⟩
  case atomAlign =>
    exact ⟨_, atom_of_check h held (ne_zero_of_getLsbD active) fun _ => lanes_align hL ok ⟨active, fails, below⟩,
      trapTaken_trapAct trap _ cAlign _⟩
  case atomsAccess =>
    have check := local_access (align := AtomOp.bytes f.op) hL (lowestLane_inside ⟨active, fails, below⟩)
    rw [w64, BitVec.ofInt_natCast] at check
    exact ⟨_, atoms_of_check held (ne_zero_of_getLsbD active) check, trapTaken_trapAct trap _ cAccess _⟩
  case atomsAlign =>
    have check := local_align hL (fun K hK hk => inside_natCast.mpr (ok K hK hk)) (lowestLane_aligned ⟨active, fails, below⟩)
    rw [w64, BitVec.ofInt_natCast] at check
    exact ⟨_, atoms_of_check held (ne_zero_of_getLsbD active) check, trapTaken_trapAct trap _ cAlign _⟩
  case uniformAccess => exact ⟨_, uniformAccesses_of_check h e he fun _ => single_access bad, trapTaken_trapAct trap _ cAccess _⟩
  case uniformAlign =>
    rw [← umAlign_of_must must] at odd
    exact ⟨_, uniformAccesses_of_check h e he fun _ => single_align ok odd, trapTaken_trapAct trap _ cAlign _⟩
  case sldkAlign => exact ⟨_, (execSldk_eq s d a off).trans (if_pos odd), trapTaken_trap trap cAlign _⟩
  case sldkAccess =>
    exact ⟨_, (execSldk_eq s d a off).trans ((if_neg (not_not.mpr even)).trans (if_pos out)), trapTaken_trap trap cAccess _⟩

end Sys2Proof.Proofs
end

section
/-! # Plain SYS instructions -/

namespace Sys2Proof.Proofs

open Machine Laws

section
variable {s u : State} {w : Warp}

/-! ## Going on and waiting -/

/-- An instruction that has made the issuing warp a given record goes on at the next word. -/
theorem warpBecomes_advance (only : OnlyWarp s u) (e : u.w = w) (threads : w.threads = s.w.threads) : WarpBecomes s u.advance w (s.iss.base + 4) := by
  refine ⟨onlyWarp_advance only, ?_, ?_, goOn_advance s u (onlyWarp_iss only) (by rw [e, threads])⟩
  · rw [← e]; simp only [State.advance, finish_w, w_modW]; exact ⟨rfl, rfl, rfl⟩
  · rw [advance_eq_jump, jump_special, e]
theorem warpBecomes_modW {f : Warp → Warp} (e : f s.w = w) (threads : w.threads = s.w.threads) :
    WarpBecomes s (s.modW f).advance w (s.iss.base + 4) := warpBecomes_advance (onlyWarp_modW s f) ((w_modW s f).trans e) threads
theorem warpBecomes_self (s : State) : WarpBecomes s s.advance s.w (s.iss.base + 4) := warpBecomes_advance (onlyWarp_refl s) rfl rfl

/-- A thread is its place, its wait count and the rest. -/
theorem thread_of_placeless {x y : Thread} (rest : x.placeless = y.placeless) (pc : x.pc = y.pc) :
    { x with status := .eligible, wait := 0 } = { y with status := .eligible, wait := 0 } :=
  congrArg₂ (fun (z : Thread) p => { z with status := .eligible, wait := 0, pc := p }) rest pc
/-- An instruction whose threads all come to wait. -/
theorem waits_holdAll (s : State) (h : Hold) : Waits s (s.holdAll h) (s.parked h) := by
  have held : (s.hold s.iss.set h).w =
      { (s.w.modThreads s.iss.set fun t => { t with status := .waiting }) with parks := s.w.parks ++ [⟨s.iss.set, h⟩] } :=
    w_modW s _
  have thread : ∀ L, L < 32 → (s.hold s.iss.set h).w.thread L =
      if s.iss.set.getLsbD L then { s.w.thread L with status := .waiting } else s.w.thread L :=
    fun L hL => (congrArg (·.thread L) held).trans (modThreads_thread s.w s.iss.set (fun t => { t with status := .waiting }) L hL)
  have finished : ∀ L, L < 32 → ((s.holdAll h).w.thread L).placeless = ((s.hold s.iss.set h).w.thread L).placeless ∧
      ((s.holdAll h).w.thread L).pc = ((s.hold s.iss.set h).w.thread L).pc := fun L hL => by
    rw [State.holdAll, finish_w]
    exact ⟨countWaits_placeless _ _ _ L hL, countWaits_pc _ _ _ L hL⟩
  refine ⟨onlyWarp_finish (onlyWarp_modW s _), ?_, ?_, fun L hL => ?_, fun L hL => ?_⟩
  · rw [State.holdAll, finish_w, held]; exact ⟨rfl, rfl, rfl⟩
  · rw [State.holdAll, finish_w, held]
    simp only [Warp.special, Warp.countWaits, Warp.modThreads, State.parked, Option.map_map]; rfl
  · refine (congrArg Thread.status (finished L hL).1).trans ?_
    show ((s.hold s.iss.set h).w.thread L).status = _
    rw [thread L hL]; split <;> rfl
  · rw [thread_of_placeless (finished L hL).1 (finished L hL).2, thread L hL]
    split <;> rfl

end

/-! ## What a prefetch leaves (R65) -/

/-- The warps and the issue stand. -/
def WarpsKept (s t : State) : Prop := t.warps = s.warps ∧ t.iss = s.iss

section
variable {s t u : State}

theorem WarpsKept.refl (s : State) : WarpsKept s s := ⟨rfl, rfl⟩
theorem WarpsKept.trans (h : WarpsKept s t) (g : WarpsKept t u) : WarpsKept s u := ⟨g.1.trans h.1, g.2.trans h.2⟩
theorem warpsKept_foldl {α : Type} {f : State → α → State} (h : ∀ t x, WarpsKept t (f t x)) (l : List α) (s : State) :
    WarpsKept s (l.foldl f s) :=
  List.foldlRecOn (motive := WarpsKept s) l f (WarpsKept.refl s) fun _ k x _ => k.trans (h _ x)
theorem WarpsKept.w (h : WarpsKept s t) : t.w = s.w := by rw [State.w, State.warp, h.1, h.2]; rfl

theorem warpsKept_foldLine (s : State) (x : Nat) : WarpsKept s (s.foldLine x) := by
  unfold State.foldLine
  split
  · exact WarpsKept.refl s
  · next e _ =>
    exact warpsKept_foldl (f := fun t v => t.poke (x * 128 + v.1) (leBytes ((atomFmt e.ty).w / 8) (narrowTo (atomFmt e.ty) v.2.toNat)))
      (fun _ _ => ⟨rfl, rfl⟩) e.vals s
theorem warpsKept_foldLines (s : State) (pa n : Nat) : WarpsKept s (s.foldLines pa n) := warpsKept_foldl warpsKept_foldLine _ s
theorem warpsKept_setDir (s : State) (x : Nat) (e : DirEntry) : WarpsKept s (s.setDir x e) := by
  unfold State.setDir; dsimp only; split <;> exact ⟨rfl, rfl⟩
theorem warpsKept_recallActs (s : State) (d x : Nat) : WarpsKept s (s.recallActs d x) := by
  unfold State.recallActs; dsimp only; split <;> exact warpsKept_foldLine s x
/-- A holder gives a line up. -/
def dropCopy (d : Nat) (s : State) (x : Nat) : State := { s.recallActs d x with holders := tdel s.holders (holderKey d x) }
theorem warpsKept_dropCopy (s : State) (d x : Nat) : WarpsKept s (dropCopy d s x) := warpsKept_recallActs s d x
theorem warpsKept_recallOwn (s : State) (unit d : Nat) : WarpsKept s (s.recallOwn unit d) :=
  (warpsKept_foldl (f := dropCopy d) (fun t x => warpsKept_dropCopy t d x) (s.unitOf unit) s).trans (warpsKept_setDir _ _ _)
theorem warpsKept_takeHome (s : State) (unit : Nat) : WarpsKept s (s.takeHome unit) := by
  unfold State.takeHome; dsimp only; split
  · exact WarpsKept.refl s
  · exact warpsKept_foldl (fun t d => warpsKept_recallOwn t unit d) _ s
theorem warpsKept_sendTag (s : State) (src dest die ty addr : Nat) (bs : List Byte) (p tag : Nat) (x : LinkArgs) :
    WarpsKept s (s.sendTag src dest die ty addr bs p tag x) := by
  unfold State.sendTag
  split
  · exact ⟨rfl, rfl⟩
  · unfold State.onPort; split <;> exact ⟨rfl, rfl⟩
theorem warpsKept_sendRecall (s : State) (unit d : Nat) : WarpsKept s (s.sendRecall unit d) :=
  warpsKept_foldl (fun t _ => (warpsKept_setDir t _ _).trans (warpsKept_sendTag ..)) _ s
theorem warpsKept_askBack (s : State) (unit : Nat) : WarpsKept s (s.askBack unit) := by
  unfold State.askBack; dsimp only; split
  · exact WarpsKept.refl s
  · exact warpsKept_foldl (fun t d => warpsKept_sendRecall t unit d) _ s
theorem warpsKept_makeRoom (s : State) (unit : Nat) : WarpsKept s (s.makeRoom unit) := by
  unfold State.makeRoom; split
  · exact (warpsKept_takeHome s _).trans (warpsKept_askBack _ _)
  · exact WarpsKept.refl s
theorem warpsKept_askHome (s : State) (what : AskFor) (src ty addr : Nat) (bs : List Byte) (p : Nat) (x : LinkArgs) :
    WarpsKept s (s.askHome what src ty addr bs p x) :=
  WarpsKept.trans (t := { s with asks := _, nextTag := _ }) ⟨rfl, rfl⟩ (warpsKept_sendTag ..)
theorem warpsKept_ownForeign (s : State) (d : Nat) (r : DirReq) (x : Nat) : WarpsKept s (s.ownForeign d r x) := by
  unfold State.ownForeign; dsimp only; split
  · exact WarpsKept.refl s
  · split
    · exact warpsKept_foldl (f := fun t d => dropCopy d t x) (fun t d => warpsKept_dropCopy t d x) ((s.heldHere x).filter (· != d)) s
    · exact ⟨rfl, rfl⟩
/-- A holder takes a line. -/
def takeCopy (d : Nat) (r : DirReq) (s : State) (x : Nat) : State :=
  { s with holders := tput s.holders (holderKey d x) (if r = .m then .m else .s) }
theorem warpsKept_takeCopy (s : State) (d : Nat) (r : DirReq) (x : Nat) : WarpsKept s (takeCopy d r s x) := ⟨rfl, rfl⟩
theorem warpsKept_ownLine (s : State) (d : Nat) (r : DirReq) (x : Nat) : WarpsKept s (s.ownLine d r x) := by
  have given := warpsKept_foldl (fun t o => warpsKept_recallOwn t (s.unitKey x) o) ((s.dirEntry (s.unitKey x)).inTheWay d r) s
  unfold State.ownLine; dsimp only; split
  · split
    · exact warpsKept_ownForeign s d r x
    · exact WarpsKept.refl s
  · split
    · exact WarpsKept.refl s
    · split
      · exact given
      · exact (given.trans (warpsKept_makeRoom _ _)).trans ((warpsKept_setDir _ _ _).trans
          (warpsKept_foldl (f := takeCopy d r) (fun t y => warpsKept_takeCopy t d r y) _ _))
theorem warpsKept_ownLines (s : State) (who : Agent) (write : Bool) (pa n : Nat) : WarpsKept s (s.ownLines who write pa n) :=
  warpsKept_foldl (fun t x => warpsKept_ownLine t who.holder (askFor write) x) _ s
theorem warpsKept_seekLine (s : State) (who : Agent) (write : Bool) (x : Nat) : WarpsKept s (s.seekLine who write x) := by
  unfold State.seekLine; dsimp only
  split_ifs
  · exact WarpsKept.refl s
  · exact warpsKept_askBack s _
  · exact warpsKept_makeRoom s _
  · exact WarpsKept.refl s
  · exact WarpsKept.refl s
  all_goals exact warpsKept_askHome ..
theorem warpsKept_seek (s : State) (who : Agent) (write : Bool) (pa n : Nat) : WarpsKept s (s.seek who write pa n) := by
  have sought := warpsKept_foldl (fun t x => warpsKept_seekLine t who write x) (linesOf pa n) s
  unfold State.seek; dsimp only; split
  · exact sought.trans (warpsKept_askHome ..)
  · exact sought
theorem warpsKept_prefetch (s : State) (pa : Nat) : WarpsKept s (s.prefetch pa) := by
  unfold State.prefetch; dsimp only; split_ifs
  · exact warpsKept_seek ..
  · exact warpsKept_foldLines ..
  · exact (warpsKept_foldLines ..).trans (warpsKept_ownLines ..)

/-! ## What a prefetch leaves where no copy is out (R65) -/

/-- Memory and the classes stand. -/
def DataKept (s t : State) : Prop := t.mem = s.mem ∧ t.classes = s.classes
theorem DataKept.trans (h : DataKept s t) (g : DataKept t u) : DataKept s u := ⟨g.1.trans h.1, g.2.trans h.2⟩

theorem sendTag_keeps (s : State) (src dest die ty addr : Nat) (bs : List Byte) (p tag : Nat) (x : LinkArgs) :
    DataKept s (s.sendTag src dest die ty addr bs p tag x) ∧ (NoCopies s → NoCopies (s.sendTag src dest die ty addr bs p tag x)) := by
  unfold State.sendTag
  split
  · exact ⟨⟨rfl, rfl⟩, id⟩
  · unfold State.onPort; split <;> exact ⟨⟨rfl, rfl⟩, id⟩
/-- The state and what is sought from it: no copy is out, and memory and the classes stand. -/
structure Seeking (s t : State) : Prop where
  lines : NoCopies t
  data : DataKept s t
theorem seeking_askHome (h : Seeking s t) (what : AskFor) (src ty addr : Nat) (bs : List Byte) (p : Nat) (x : LinkArgs) :
    Seeking s (t.askHome what src ty addr bs p x) := by
  obtain ⟨data, lines⟩ := sendTag_keeps
    { t with asks := tput t.asks t.nextTag ⟨addr / 2 ^ 48, what, none⟩, nextTag := (t.nextTag + 1) % 2 ^ 32 }
    src (32 + addr / 2 ^ 48) (homeDie addr) ty addr bs p t.nextTag x
  exact ⟨lines h.lines, h.data.trans data⟩
/-- A line of this module is at hand; a line of another is asked for. -/
theorem seeking_seekLine (h : Seeking s t) (who : Agent) (write : Bool) (x : Nat) : Seeking s (t.seekLine who write x) := by
  unfold State.seekLine; dsimp only
  split_ifs with hand home held
  · exact h
  · exact absurd (by rw [lineAway_of_atHand (atHand_of_noCopies h.lines) who write home]; rfl) hand
  · exact absurd (by rw [lineAway_of_atHand (atHand_of_noCopies h.lines) who write home]; rfl) hand
  · exact h
  · exact h
  all_goals exact seeking_askHome h ..
theorem seeking_seek (h : NoCopies s) (who : Agent) (write : Bool) (pa n : Nat) : Seeking s (s.seek who write pa n) := by
  have sought : Seeking s ((linesOf pa n).foldl (fun (t : State) x => t.seekLine who write x) s) :=
    List.foldlRecOn (motive := Seeking s) _ _ ⟨h, rfl, rfl⟩ fun _ k x _ => seeking_seekLine k who write x
  unfold State.seek; dsimp only; split
  · exact seeking_askHome sought ..
  · exact sought

/-- Reads that took at most m lines have led from a state to another: memory and the classes stand, and every copy is one for reading. -/
structure Reading (s u : State) (m : Nat) : Prop where
  data : DataKept s u
  few : u.dir.length ≤ m
  entry : ∀ x, OnlyRead (u.dirEntry x)
  holder : ∀ k, tget? u.holders k = none ∨ tget? u.holders k = some .s
theorem reading_of_noCopies (h : NoCopies s) : Reading s s 0 := by
  obtain ⟨dir, holders⟩ := h
  refine ⟨⟨rfl, rfl⟩, by simp [dir], fun x => ?_, fun k => .inl (by rw [holders]; rfl)⟩
  rw [State.dirEntry, dir]; exact onlyRead_none
section
variable {m : Nat}

theorem Reading.mono (h : Reading s u m) {n : Nat} (hn : m ≤ n) : Reading s u n := { h with few := Nat.le_trans h.few hn }
theorem reading_takeCopy (h : Reading s u m) (d x : Nat) : Reading s (takeCopy d .s u x) m := by
  refine ⟨h.data, h.few, h.entry, fun k => ?_⟩
  rw [takeCopy, tget?_tput]
  split
  · exact .inr rfl
  · exact h.holder k
theorem reading_setDir (h : Reading s u m) (x : Nat) {e : DirEntry} (he : OnlyRead e) : Reading s (u.setDir x e) (m + 1) := by
  refine ⟨h.data.trans ?_, Nat.le_trans (length_setDir_le u x e) (Nat.succ_le_succ h.few), fun y => ?_, fun k => ?_⟩
  · unfold State.setDir; split <;> exact ⟨rfl, rfl⟩
  · rw [dirEntry_setDir]
    split
    · exact he
    · exact h.entry y
  · unfold State.setDir; split <;> exact h.holder k
/-- A reader of this module takes a line of another from one that holds it for reading: none gives it up. -/
theorem reading_ownForeign (h : Reading s u m) (d x : Nat) : Reading s (u.ownForeign d .s x) m := by
  have noM : ∀ k, tget? u.holders k ≠ some .m := fun k => by rcases h.holder k with e | e <;> rw [e] <;> simp
  unfold State.ownForeign; dsimp only
  split
  · exact h
  · rw [if_neg (by simp [noM])]
    exact reading_takeCopy h d x
theorem reading_ownLine (h : Reading s u m) (hm : m < 16) (d x : Nat) : Reading s (u.ownLine d .s x) (m + 1) := by
  have room : u.victim (u.unitKey x) = none := by simp [State.victim, Nat.lt_of_le_of_lt h.few hm]
  unfold State.ownLine
  simp only [inTheWay_of_onlyRead (h.entry _), List.foldl_nil, State.makeRoom, room, reduceCtorEq, if_false]
  split_ifs
  · exact (reading_ownForeign h d x).mono (Nat.le_succ m)
  · exact h.mono (Nat.le_succ m)
  · exact h.mono (Nat.le_succ m)
  · exact h.mono (Nat.le_succ m)
  · exact List.foldlRecOn (motive := fun t => Reading s t (m + 1)) _ (takeCopy d .s) (reading_setDir h _ (onlyRead_grant (h.entry _) d))
      fun t ht y _ => reading_takeCopy ht d y
theorem reading_ownLines : ∀ (l : List Nat) {u : State} {m : Nat}, Reading s u m → m + l.length ≤ 16 → ∀ d,
    Reading s (l.foldl (fun (t : State) x => t.ownLine d .s x) u) (m + l.length)
  | [], _, _, h, _, _ => h
  | x :: r, u, m, h, hm, d => by
    rw [List.length_cons] at hm ⊢
    have := reading_ownLines r (reading_ownLine h (by omega) d x) (by omega) d
    rwa [Nat.add_right_comm, Nat.add_assoc] at this

end

theorem nodup_dedup : ∀ l : List Nat, (dedup l).Nodup
  | [] => List.nodup_nil
  | a :: r => List.nodup_cons.mpr ⟨by simp, (nodup_dedup r).filter _⟩
/-- 128 bytes lie in two lines at most. -/
theorem length_linesOf_line (pa : Nat) : (linesOf pa 128).length ≤ 2 := by
  have sub : linesOf pa 128 ⊆ [pa / 128, pa / 128 + 1] := fun x hx => by
    obtain ⟨i, hi, rfl⟩ := List.mem_map.mp ((mem_dedup x _).mp hx)
    have := List.mem_range.mp hi
    simp only [List.mem_cons, List.not_mem_nil, or_false]
    omega
  exact (List.subperm_of_subset (nodup_dedup _) sub).length_le
theorem dataKept_prefetch (shadows : s.shadows = []) (lines : NoCopies s) (pa : Nat) : DataKept s (s.prefetch pa) := by
  have few := length_linesOf_line pa
  unfold State.prefetch; dsimp only; rw [foldLines_of_none shadows]; split_ifs
  · exact (seeking_seek lines ..).data
  · exact ⟨rfl, rfl⟩
  · exact (reading_ownLines (linesOf pa 128) (reading_of_noCopies lines) (by omega) _).data

end

/-! ## SPRF (R65) -/

/-- SPRF fetches a line, or does nothing but go on. -/
theorem execSprf_eq (s : State) (k a off : Nat) : ∃ t, execSprf k a off s = .next t.advance ∧ (t = s ∨ ∃ pa, t = s.prefetch pa) := by
  unfold execSprf; dsimp only
  split
  · split
    · exact ⟨_, rfl, .inr ⟨_, rfl⟩⟩
    · exact ⟨_, rfl, .inl rfl⟩
  · exact ⟨_, rfl, .inl rfl⟩
theorem sprf_goes_on (s : State) (k a off : Nat) : Completes (.sprf k a off) s fun t =>
    RegsKept s t noReg noLane noReg ∧ SameSpecial s t ∧ GoOn s t s.iss.set (s.iss.base + 4) ∧
    (s.shadows = [] → NoCopies s → SameMemory s t ∧ t.classes = s.classes) := by
  obtain ⟨t, e, from_⟩ := execSprf_eq s k a off
  have warps : WarpsKept s t := by
    rcases from_ with rfl | ⟨pa, rfl⟩
    · exact WarpsKept.refl t
    · exact warpsKept_prefetch s pa
  have data (shadows : s.shadows = []) (lines : NoCopies s) : DataKept s t := by
    rcases from_ with rfl | ⟨pa, rfl⟩
    · exact ⟨rfl, rfl⟩
    · exact dataKept_prefetch shadows lines pa
  have only : OnlyWarp t t.advance := onlyWarp_advance (onlyWarp_refl t)
  refine ⟨t.advance, e, ⟨fun n _ => ?_, fun n L _ => ?_, fun n _ => ?_⟩, ?_,
    goOn_advance s t warps.2 (by rw [warps.w]), fun shadows lines => ⟨fun a => ?_, ?_⟩⟩
  · rw [advance_eq_jump, jump_rdS, State.rdS, warps.w]; rfl
  · rw [advance_eq_jump, jump_rdV, warps.w]
  · rw [advance_eq_jump, jump_rdM, warps.w]
  · show t.advance.w.special = _
    rw [advance_eq_jump, jump_special, warps.w]
  · rw [only.memory a, (data shadows lines).1]
  · rw [only.rest]; exact (data shadows lines).2

/-! ## SNAP and SLEEP -/

theorem snapTrigger_eq (s : State) : s.snapTrigger =
    if s.dxsnap.getLsbD 0 = true ∧ s.snapAt = none then { s with snapAt := some (s.ps / 1000 + 2000) } else s := by
  simp only [State.snapTrigger, bbit, State.time, Bool.and_eq_true, Option.isNone_iff_eq_none]
theorem execSleep_of_noTx {s : State} {a : Nat} (h : NoTx s) : exec (.sleep a) s =
    if s.rdS a = 0 then .next s.advance else .next (s.holdAll (.sleep (s.ps / 1000 + (s.rdS a).toNat))) := by
  show execSleep a s = _
  simp only [execSleep, txGuard_of_noTx h, emptied_of_noTx h, State.time, Bool.false_eq_true, if_false]

/-- Settles O19: each instruction changes its own field of the warp at most and goes on, a prefetch moves copies of lines alone, and
a wait parks the set. -/
theorem plainSysInstructionsGoOn : Obligations.PlainSysInstructionsGoOn := by
  intro s
  refine ⟨⟨_, rfl, warpBecomes_self s⟩, sprf_goes_on s, fun sc => ⟨fun empty => ?fenceGo, fun busy => ?fenceWait⟩,
    ⟨_, rfl, warpBecomes_modW rfl rfl⟩, ⟨_, rfl, warpBecomes_modW rfl rfl⟩, fun z hz => ?part, fun ok => ?snap,
    fun a h => ⟨fun zero => ?sleepZero, fun nonzero => ?sleep⟩⟩
  case fenceGo => exact ⟨_, congrArg Host.Outcome.next (if_neg (by simp [empty])), warpBecomes_self s⟩
  case fenceWait => exact ⟨_, congrArg Host.Outcome.next (if_pos (bne_iff_ne.mpr busy)), stalls_stall s⟩
  case part =>
    refine ⟨_, rfl, warpBecomes_modW ?_ rfl⟩
    simp only [partWrite, Nat.mod_eq_of_lt hz, Bool.and_eq_true, decide_eq_true_eq]
  case snap =>
    refine ⟨s.snapTrigger.advance, if_neg (by simp [ok]), ?_⟩
    rw [snapTrigger_eq]
    split_ifs
    · exact warpBecomes_self _
    · exact warpBecomes_self s
  case sleepZero => exact ⟨_, by rw [execSleep_of_noTx h, if_pos zero], warpBecomes_self s⟩
  case sleep => exact ⟨_, by rw [execSleep_of_noTx h, if_neg nonzero], waits_holdAll s _⟩

end Sys2Proof.Proofs
end

section
/-! # Accesses that are allowed: their checks -/

namespace Sys2Proof.Proofs

open Machine Laws

/-! ## What a read leaves as it was (R187, R190) -/

section
variable {s u : State} {k : AKind} {va : W64} {n : Nat}

/-- A walk does not see the classes, the entries of the directory or the holders. -/
theorem walk_of_looked (h : Quiet s) (same : u = s.looked u) (die ctx : Nat) (va : W64) (k : AKind) : u.walk die ctx va k = s.walk die ctx va k := by
  have word : ∀ a, u.rawW64 a = s.rawW64 a := fun a => by
    rw [rawW64_of_none h.shadows h.partials, rawW64_of_none (by rw [same]; exact h.shadows) (by rw [same]; exact h.partials), same]; rfl
  have poison : ∀ a, u.poisoned a = s.poisoned a := fun a => by rw [same]; rfl
  have root : ∀ c, u.root c = s.root c := fun a => by rw [same]; rfl
  have tlb : u.tlb = s.tlb := by rw [same]; rfl
  simp only [State.walk, tlb, root, walkFrom_congr word poison]
theorem gr_of_looked (same : u = s.looked u) : u.gr = s.gr := by rw [same]; rfl
theorem coreNum_of_looked (same : u = s.looked u) : u.coreNum = s.coreNum := by rw [same]; rfl
theorem pieces_of_looked (h : Quiet s) (same : u = s.looked u) (k : AKind) (va : W64) (n : Nat) : u.pieces k va n = s.pieces k va n := by
  simp only [State.pieces, State.tr, gr_of_looked same, coreNum_of_looked same, walk_of_looked h same]

/-! ## The pages of one access (R213) -/

theorem minOf_mem : ∀ {l : List Nat} {m : Nat}, minOf l = some m → m ∈ l
  | a :: r, m, h => by
    rw [minOf] at h
    cases e : minOf r with
    | none => rw [e] at h; simp only [Option.some.injEq] at h; simp [h]
    | some b =>
      rw [e] at h
      simp only [Option.some.injEq] at h
      split at h
      · exact List.mem_cons_of_mem _ (minOf_mem (h ▸ e))
      · simp [h]
theorem minOf_isSome {l : List Nat} {a : Nat} (h : a ∈ l) : ∃ m, minOf l = some m := by
  cases l with
  | nil => simp at h
  | cons b r => rw [minOf]; split <;> exact ⟨_, rfl⟩
/-- The lowest touched address of a page with a touched byte is a byte of the access. -/
theorem lowestIn_mem {ps : List Span} {lo n b : Nat} (h : b ∈ ps.flatMap Span.bytes) (hb : lo ≤ b ∧ b < lo + n) :
    lowestIn ps lo n ∈ ps.flatMap Span.bytes := by
  have mem : b ∈ (ps.flatMap Span.bytes).filter fun b => lo ≤ b && b < lo + n := List.mem_filter.mpr ⟨h, by simpa using hb⟩
  obtain ⟨m, e⟩ := minOf_isSome mem
  rw [lowestIn, e]
  exact (List.mem_filter.mp (minOf_mem e)).1
theorem mem_bytes {lane b : Nat} : b ∈ [(⟨lane, va, n⟩ : Span)].flatMap Span.bytes ↔ ∃ i, i < n ∧ b = (va + BitVec.ofNat 64 i).toNat := by
  simp [Span.bytes, BitVec.toNat_add, eq_comm]
/-- A page of an access holds one of its bytes. -/
theorem byte_of_page {lane p : Nat} (hn : 0 < n) (hp : p ∈ pagesOf [⟨lane, va, n⟩]) :
    ∃ b ∈ [(⟨lane, va, n⟩ : Span)].flatMap Span.bytes, p * 4096 ≤ b ∧ b < p * 4096 + 4096 := by
  have ends : p = (va.toNat + (n - 1)) % 2 ^ 64 / 4096 ∨ p = va.toNat / 4096 := by
    rw [pagesOf] at hp
    simpa [sortNat, mem_insertNat, show insertNat (va.toNat / 4096) [] = [va.toNat / 4096] from rfl] using hp
  have bound := va.isLt
  rcases ends with rfl | rfl
  · exact ⟨_, mem_bytes.mpr ⟨n - 1, by omega, rfl⟩, by rw [BitVec.toNat_add, BitVec.toNat_ofNat]; omega⟩
  · exact ⟨_, mem_bytes.mpr ⟨0, hn, rfl⟩, by rw [BitVec.toNat_add, BitVec.toNat_ofNat]; omega⟩
theorem walkPages_of_ok {die ctx : Nat} {ps : List Span} : ∀ {pages : List Nat},
    (∀ p ∈ pages, ∃ pa size nc, u.walk die ctx (BitVec.ofNat 64 (lowestIn ps (p * 4096) 4096)) k = .ok pa size nc) →
      u.walkPages die ctx k ps pages = ([], .all)
  | [], _ => rfl
  | p :: r, h => by
    obtain ⟨pa, size, nc, e⟩ := h p List.mem_cons_self
    simp only [State.walkPages, e]
    exact walkPages_of_ok fun q hq => h q (List.mem_cons_of_mem p hq)

section
variable {e : Eff} {lane : Nat}

theorem walks_of_allows (h : Quiet s) (a : Allows s k e va n) (hn : 0 < n) (same : u = s.looked u) :
    ∀ p ∈ pagesOf [⟨lane, va, n⟩], ∃ pa size nc,
      u.walk (u.coreNum / 48) u.gr.ctx (BitVec.ofNat 64 (lowestIn [⟨lane, va, n⟩] (p * 4096) 4096)) k = .ok pa size nc := fun p hp => by
  obtain ⟨b, hb, inPage⟩ := byte_of_page hn hp
  obtain ⟨i, hi, e⟩ := mem_bytes.mp (lowestIn_mem hb inPage)
  rw [e, BitVec.ofNat_toNat, BitVec.setWidth_eq, walk_of_looked h same, gr_of_looked same, coreNum_of_looked same]
  exact a.walks i hi
theorem checkPages_of_allows (h : Quiet s) (a : Allows s k e va n) (hn : 0 < n) (set : Option W32) (act : W32) :
    s.checkPages k set act [⟨lane, va, n⟩] = none := by
  have away : s.pagesAway k [⟨lane, va, n⟩] = none := a.tables
  have walks := walkPages_of_ok (walks_of_allows (lane := lane) h a hn (touchPages_of_quiet h k [⟨lane, va, n⟩]).looked)
  simp only [State.checkPages, away, walks, distinctPages]
theorem memCheck_of_allows {align : Nat} (h : Quiet s) (a : Allows s k e va n) (hn : 0 < n) (aligned : va.toNat % align = 0) (set : Option W32)
    (act : W32) : s.memCheck k set act [⟨lane, va, n⟩] align = none := by
  have canon : ([⟨lane, va, n⟩] : List Span).find? (fun p => !p.canon) = none :=
    List.find?_singleton.trans (if_neg fun x => (not_canon_iff ⟨lane, va, n⟩).mp x a.canon)
  have even : ([⟨lane, va, n⟩] : List Span).find? (fun p => p.va.toNat % align != 0) = none :=
    List.find?_singleton.trans (if_neg (by simp [aligned]))
  simp only [State.memCheck, canon, even, checkPages_of_allows h a hn]
theorem placeCheck_of_allows (a : Allows s k e va n) (act : W32) : s.placeCheck k e act [⟨lane, va, n⟩] = none := by
  have may : (s.pieces k va n).any (fun x => !s.warpMay s.g x.pa x.n e) = false := by
    simp only [List.any_eq_false]
    intro x hx; rw [a.may x hx]; decide
  have found : ([⟨lane, va, n⟩] : List Span).find? (fun p =>
      (s.pieces k p.va p.n).any (fun x => !s.warpMay s.g x.pa x.n e) || s.straddles (s.pieces k p.va p.n)) = none :=
    List.find?_singleton.trans (if_neg (by simp [may, a.whole]))
  simp only [State.placeCheck, found]

end
end

end Sys2Proof.Proofs
end

section
/-! # The access of a uniform instruction -/

namespace Sys2Proof.Proofs

open Machine Laws

/-! ## One access that nothing holds back (R214, R237) -/

/-- A flight with one access, which is no held one and belongs to no transaction. -/
structure SinglePlain (f : Flight) (l : FlightLane) : Prop where
  lanes : f.lanes = [l]
  plain : l.tx = false ∧ l.held = false
  eff : f.op.eff = .load ∨ f.op.eff = .store
  meet : f.meet = false

section
variable {u : State} {f : Flight} {l : FlightLane}

theorem laneGone_of_plain (h : l.tx = false) : u.laneGone l = false := by rw [State.laneGone, h]; rfl
theorem laneBlocked_nil (free : u.laneWaits f l = false) : u.laneBlocked f [] l = false := by
  rw [State.laneBlocked, free]; rfl
theorem readyLanes_single (h : SinglePlain f l) (free : u.laneWaits f l = false) : u.readyLanes f [] f.lanes = [l] := by
  rw [h.lanes, State.readyLanes, laneBlocked_nil free]; rfl
theorem withHeld_of_unpaired (win : u.w.win = none) : u.withHeld u.iss.key = u := by
  rw [State.withHeld, show (u.warp u.iss.key).win = none from win]
/-- No byte that the access reads into a register is poisoned. -/
theorem flyPoison_of_clean (h : SinglePlain f l) (free : u.laneWaits f l = false) (win : u.w.win = none)
    (clean : f.op.eff = .load → ∀ x ∈ l.pieces, ∀ i, i < x.n → u.poisoned (x.pa + i) = false) : u.flyPoison f [] 0 = none := by
  rcases h.eff with e | e
  · have bytes : ∀ x ∈ l.pieces, ((List.range x.n).filter fun i => u.poisoned (x.pa + i) &&
        !(l.tx && (tget? (u.w.thread l.lane).txn.buf (x.pa + i)).isSome)) = [] := fun x hx =>
      List.filter_eq_nil_iff.mpr fun i hi => by simp [clean e x hx i (List.mem_range.mp hi)]
    have addresses : (l.pieces.flatMap fun x => ((List.range x.n).filter fun i => u.poisoned (x.pa + i) &&
        !(l.tx && (tget? (u.w.thread l.lane).txn.buf (x.pa + i)).isSome)).map fun i =>
          if l.loc then x.pa + i - (windowBase u.pkg u.coreNum + u.g.soff) else (l.va.toNat + x.off + i) % 2 ^ 64) = [] :=
      List.flatMap_eq_nil_iff.mpr fun x hx => by rw [bytes x hx]; rfl
    simp only [State.flyPoison, e, Eff.consumes, readyLanes_single h free, withHeld_of_unpaired win, List.filter_cons, laneGone_of_plain h.plain.1,
      Bool.not_false, if_true, List.filter_nil, List.flatMap_cons, List.flatMap_nil, List.append_nil, addresses]
    rfl
  · rw [State.flyPoison, e]; rfl
theorem flyOne_single (h : SinglePlain f l) (free : u.laneWaits f l = false) : u.flyOne f [] 0 = (u.flyLane f [] l, []) := by
  have fly : State.flyLanes f [] 0 [] f.lanes u = (u.flyLane f [] l, []) := by
    rw [h.lanes, State.flyLanes, laneGone_of_plain h.plain.1, List.nil_append, laneBlocked_nil free]; rfl
  simp only [State.flyOne, if_true, fly, h.meet, Bool.false_and, Bool.false_eq_true, if_false]
  rfl
theorem launchFlight_single {fin : State → State} (h : SinglePlain f l) (free : u.laneWaits f l = false) (alone : Alone u) (win : u.w.win = none)
    (clean : f.op.eff = .load → ∀ x ∈ l.pieces, ∀ i, i < x.n → u.poisoned (x.pa + i) = false) :
    u.launchFlight f fin = .next (fin (u.flyLane f [] l)) := by
  have before : u.w.inFlight = [] := by rw [Warp.inFlight, alone.1]; rfl
  simp only [State.launchFlight, before, alone.2, flyPoison_of_clean h free win clean, flyOne_single h free, if_true]

end

/-! ## What the reads of the walks leave (R88, R190) -/

/-- A unit that stands in the class of one core stood in it before. -/
def OwnedFrom (s t : State) : Prop := ∀ e ∈ t.classes, (∃ c, e.2.cls = .priv c) → e ∈ s.classes

section
variable {s t u : State}

theorem ownedFrom_classifyRaw (t : State) (pa n : Nat) : OwnedFrom t (t.classifyRaw pa n) := by
  rintro e he ⟨c, priv⟩
  obtain ⟨x, hx, rfl⟩ := List.mem_map.mp he
  by_cases touched : (x.1 % 2 ^ 53 < pa + n && pa < x.1 % 2 ^ 53 + x.2.size) = true
  · rw [if_pos touched] at priv; exact nomatch priv
  · rw [if_neg touched]; exact hx
/-- Reads of table entries: besides what Keeps says, no unit enters the class of one core. -/
structure Walked (s t : State) : Prop where
  keeps : Keeps s t
  classes : OwnedFrom s t
theorem walked_readRaw (h : Quiet s) (k : Walked s t) (a : Nat) : Walked s (t.readRaw a 8) := by
  have idle := k.keeps.idle (idle_of_quiet h)
  have same := k.keeps.looked
  have partials : t.partials = [] := by rw [same]; exact h.partials
  have warps : ∀ x ∈ t.warps, ∀ L, L < 32 → (x.2.thread L).tx = none := by rw [same]; exact h.warps
  have raw : t.readRaw a 8 = t.classifyRaw a 8 := by
    rw [State.readRaw, State.settle, forwardLines_of_none partials, foldLines_of_none idle.shadows, observe_of_none warps idle.harts]
  rw [raw]
  exact ⟨keeps_trans k.keeps (classifyRaw_keeps idle a 8), fun e he priv => k.classes e (ownedFrom_classifyRaw t a 8 e he priv) priv⟩
theorem walked_touchWalk (h : Quiet s) (k : Walked s t) (die ctx : Nat) (va : W64) (kind : AKind) : Walked s (t.touchWalk die ctx va kind) := by
  unfold State.touchWalk
  split
  · exact k
  · exact List.foldlRecOn (motive := Walked s) _ _ k fun _ k a _ => walked_readRaw h k a
theorem walked_touchPages (h : Quiet s) (kind : AKind) (ps : List Span) : Walked s (s.touchPages kind ps) := by
  have start : Walked s s := ⟨keeps_self (idle_of_quiet h), fun _ he _ => he⟩
  unfold State.touchPages
  split
  · exact start
  · exact List.foldlRecOn (motive := Walked s) _ _ start fun _ k _ _ => walked_touchWalk h k ..

/-! ## The stores that an access can promote (R203) -/

theorem promotes_mono {who : Agent} {pa n : Nat} (classes : OwnedFrom s u) (remote : ∀ r ∈ u.remote, r ∈ s.remote) (cores : u.cores = s.cores)
    (h : u.promotes who pa n = true) : s.promotes who pa n = true := by
  simp only [State.promotes, List.any_eq_true] at h ⊢
  obtain ⟨e, he, held⟩ := h
  cases priv : e.2.cls with
  | shared => simp [priv] at held
  | priv c =>
    refine ⟨e, classes e he ⟨c, priv⟩, ?_⟩
    simp only [priv, cores, Bool.and_eq_true, Bool.or_eq_true, List.any_eq_true] at held ⊢
    obtain ⟨covers, other, out⟩ := held
    exact ⟨covers, other, out.imp_left fun ⟨r, hr, own⟩ => ⟨r, remote r hr, own⟩⟩

end

end Sys2Proof.Proofs
end

section
/-! # The access of a uniform instruction: it is made at once -/

namespace Sys2Proof.Proofs

open Machine Laws

/-! ## Tables -/

theorem mem_tput {α : Type} {k : Nat} {a : α} {x : Nat × α} : ∀ {t : Tab α}, x ∈ tput t k a → x ∈ t ∨ x = (k, a)
  | [], h => .inr (List.mem_singleton.mp h)
  | (j, b) :: r, h => by
    rw [tput] at h
    split_ifs at h
    · rcases List.mem_cons.mp h with rfl | h
      · exact .inr rfl
      · exact .inl h
    · rcases List.mem_cons.mp h with rfl | h
      · exact .inr rfl
      · exact .inl (List.mem_cons_of_mem _ h)
    · rcases List.mem_cons.mp h with rfl | h
      · exact .inl List.mem_cons_self
      · exact (mem_tput h).imp_left (List.mem_cons_of_mem _)
theorem tget_mem_or_default {α : Type} (d : α) (k : Nat) : ∀ t : Tab α, tget d t k = d ∨ ∃ x ∈ t, x.2 = tget d t k
  | [] => .inl rfl
  | (j, b) :: r => by
    by_cases e : j = k
    · exact .inr ⟨(j, b), List.mem_cons_self, by simp [tget, tget?, e]⟩
    · have e : tget d ((j, b) :: r) k = tget d r k := by simp [tget, tget?, e]
      rw [e]
      exact (tget_mem_or_default d k r).imp_right fun ⟨x, hx, eq⟩ => ⟨x, List.mem_cons_of_mem _ hx, eq⟩

section
variable {s u t : State}

/-- A sender with no store waiting has none at any core. -/
theorem core_senderWaits {b : Sender} (h : s.senderWaits b = false) (c : Nat) : (s.core c).senderWaits b = false := by
  rw [State.senderWaits, Bool.or_eq_false_iff] at h
  rcases tget_mem_or_default Core.reset c s.cores with e | ⟨x, hx, e⟩
  · rw [State.core, e]; rfl
  · have := List.any_eq_false.mp h.1 x hx
    rw [State.core, ← e]; simpa using this
theorem loadWaits_of_noneWaits (h : NoneWaits s) (pa : Nat) : s.loadWaits (.warp s.iss.key) pa = false := by
  unfold State.loadWaits
  split
  all_goals first | exact core_senderWaits h _ | rfl

/-! ## The state in which the access begins -/

/-- An access begins: since its instruction was issued table entries may have been read, and a remote store counted, which no access waits for. -/
structure Begun (s u : State) (own : Option Nat) : Prop where
  same : u = { s.looked u with remote := u.remote, nextRemote := u.nextRemote }
  hand : AtHand u
  classes : OwnedFrom s u
  older : ∀ r ∈ (u.asOf own).remote, r ∈ s.remote

theorem begun_touchPages (h : Quiet s) (k : AKind) (ps : List Span) : Begun s (s.touchPages k ps) none := by
  obtain ⟨keeps, classes⟩ := walked_touchPages h k ps
  exact ⟨by rw [keeps.looked]; rfl, keeps.hand, classes, fun r hr => by rw [keeps.looked] at hr; exact hr⟩
theorem begun_addRemote (h : Walked s u) (far combining contr : Bool) (pas : List Nat) :
    Begun s (u.addRemote far combining contr pas).1 (u.addRemote far combining contr pas).2 := by
  have remote : u.remote = s.remote := by rw [h.keeps.looked]; rfl
  unfold State.addRemote
  cases far with
  | false => exact ⟨by rw [h.keeps.looked]; rfl, h.keeps.hand, h.classes, fun r hr => remote ▸ hr⟩
  | true =>
    refine ⟨by rw [h.keeps.looked]; rfl, ⟨h.keeps.hand.entries, h.keeps.hand.holders⟩, h.classes, fun r hr => ?_⟩
    obtain ⟨hr, lt⟩ := List.mem_filter.mp hr
    rcases mem_tput hr with hr | rfl
    · exact remote ▸ hr
    · simp at lt

section
variable {own : Option Nat} {k : AKind} {write : Bool} {x : Piece}

theorem promotes_of_begun (h : Quiet s) (b : Begun s u own) (who : Agent) (pa n : Nat) : (u.asOf own).promotes who pa n = false := by
  have cores : (u.asOf own).cores = s.cores := by unfold State.asOf; split <;> · rw [b.same]; rfl
  have classes : OwnedFrom s (u.asOf own) := by unfold State.asOf; split <;> exact b.classes
  exact Bool.eq_false_iff.mpr fun x => Bool.eq_false_iff.mp (h.promoted who pa n) (promotes_mono classes b.older cores x)
/-- A piece on this module has nothing to wait for. -/
theorem pieceStalls_of_begun (h : Quiet s) (b : Begun s u own) (lane : Nat) (kind : k ≠ .atomic) (hn : 0 < x.n) (home : HomedHere s x.pa x.n) :
    u.pieceStalls k write lane own x = false := by
  have hand : AtHand (u.asOf own) := by unfold State.asOf; split <;> exact ⟨b.hand.entries, b.hand.holders⟩
  have lock : (u.asOf own).lock = none := by unfold State.asOf; split <;> · rw [b.same]; exact h.lock
  have pkg : (u.asOf own).pkg = s.pkg := by unfold State.asOf; split <;> · rw [b.same]; rfl
  have free : (u.asOf own).lockBlocks (.thread u.iss.key lane) write x.pa x.n = false :=
    lockBlocks_of_free hand lock (promotes_of_begun h b) _ write hn (by rw [HomedHere, pkg]; exact home)
  rw [State.pieceStalls, free, decide_eq_false kind]; simp

/-! ## The access and its flight -/

section
variable {op : FlightOp} {va : W64} {n : Nat} {bs : List Byte} {set : W32}

theorem pieces_pos (hn : 0 < n) (hx : x ∈ s.pieces k va n) : 0 < x.n := by
  have := Nat.mod_lt va.toNat (show 4096 > 0 by decide)
  simp only [State.pieces, List.mem_cons] at hx
  rcases hx with rfl | hx
  · simp only; omega
  · split at hx
    · next lt => rw [List.mem_singleton.mp hx]; simp only; omega
    · exact absurd hx List.not_mem_nil

theorem thread_out (w : Warp) {L : Nat} (h : 32 ≤ L) : w.thread L = Thread.dflt := by
  rw [Warp.thread, vget, List.getD_eq_getElem?_getD, List.getElem?_eq_none (by simpa using h)]; rfl
/-- A uniform access of a warp that holds no lock is the warp's own. -/
theorem uniLane_of_free (h : s.lock = none) : s.uniLane = 32 := by rw [State.uniLane, h]
theorem inTxLane_self (s : State) : s.inTxLane 32 = false := by rw [State.inTxLane, thread_out s.w (Nat.le_refl 32)]; rfl
theorem holdsWrite_of_unpaired (h : s.gr.paired = false) (pa : Nat) : s.holdsWrite s.iss.key pa = false := by
  rw [State.holdsWrite, show s.gridOf s.iss.key = s.gr from rfl, h]; rfl

/-- The access of a uniform instruction. -/
def uniAccess (s : State) (k : AKind) (va : W64) (n : Nat) (bs : List Byte) : FlightLane := ⟨32, va, s.pieces k va n, bs, 0, 0, false, false, false⟩
theorem flightOf_single (unpaired : u.gr.paired = false) (eff : op.eff = .load ∨ op.eff = .store) :
    SinglePlain { u.flightOf op set [⟨32, va, n⟩] (fun _ => (bs, 0, 0)) with remote := own } (uniAccess u op.kind va n bs) := by
  have held : (u.pieces op.kind va n).any (fun x => u.holdsWrite u.iss.key x.pa) = false :=
    List.any_eq_false.mpr fun x _ => by rw [holdsWrite_of_unpaired unpaired]; exact Bool.false_ne_true
  refine ⟨?_, ⟨rfl, rfl⟩, eff, ?_⟩
  · simp only [State.flightOf, List.map_cons, List.map_nil, inTxLane_self, held, Bool.and_false, uniAccess]
  · rcases eff with e | e <;> simp [State.flightOf, e]

theorem kind_of_eff (eff : op.eff = .load ∨ op.eff = .store) : op.kind ≠ .atomic := by
  cases op with
  | atom => simp [FlightOp.eff] at eff
  | _ => exact nofun
/-- A load or a store of this module has nothing to wait for. -/
theorem laneWaits_of_begun (h : Quiet s) (b : Begun s u own) {f : Flight} (remote : f.remote = own) (eff : f.op.eff = .load ∨ f.op.eff = .store)
    (hn : 0 < n) (home : ∀ x ∈ s.pieces k va n, HomedHere s x.pa x.n) :
    u.laneWaits f (uniAccess s k va n bs) = false := by
  have old : u.oldAway f (uniAccess s k va n bs) = false := by rcases eff with e | e <;> simp [State.oldAway, e]
  have idle : NoneWaits u := by rw [b.same]; exact h.waits
  have pieces : (s.pieces k va n).any (fun x => u.pieceStalls f.op.kind f.op.eff.writes 32 f.remote x ||
      ((match u.place x.pa with | .mail _ o => f.op != .store || 0x3000 ≤ o % 0x4000 | _ => f.op != .store) && u.loadWaits (.warp u.iss.key) x.pa)) =
        false := List.any_eq_false.mpr fun x hx => by
    rw [remote, pieceStalls_of_begun h b 32 (kind_of_eff eff) (pieces_pos hn hx) (home x hx), loadWaits_of_noneWaits idle, Bool.and_false]
    exact Bool.false_ne_true
  simp only [State.laneWaits, uniAccess, Bool.false_eq_true, if_false] at old pieces ⊢
  rw [old, Bool.false_or]
  exact pieces

end
end
end

end Sys2Proof.Proofs
end

section
/-! # Uniform loads and stores -/

namespace Sys2Proof.Proofs

open Machine Laws

section
variable {s u t : State} {k : AKind} {va : W64} {n d align : Nat}

/-! ## The bytes of a load (R62) -/

theorem bytesAt_of_looked (same : t = s.looked t) (pa n : Nat) : t.bytesAt pa n = s.bytesAt pa n := by rw [same]; rfl
theorem reach_of_looked (h : Quiet s) (keeps : Keeps s t) (write : Bool) (size : Nat) (nc : Bool) {pa : Nat} (home : pa / 2 ^ 48 = s.pkg) (n : Nat) :
    Keeps s (t.reach (s.byLane 32) write size nc pa n) := by
  have same := keeps.looked
  have core : (s.byLane 32).agent.holder < 32 := by
    have := h.core
    show s.coreNum / 48 < 32
    omega
  exact keeps_trans keeps (reach_keeps (keeps.idle (idle_of_quiet h)) (by rw [same]; exact h.partials) (by rw [same]; exact h.lock)
    (by rw [same]; exact h.warps) core write size nc (by rw [same]; exact home) n)
/-- One piece of a load: its line is reached, and its bytes follow those before. -/
def loadPiece (s : State) (acc : State × List Byte) (x : Piece) : State × List Byte :=
  let t := acc.1.reach (s.byLane 32) false x.size x.nc x.pa x.n
  (t, acc.2 ++ (t.withHeld s.iss.key).bytesAt x.pa x.n)
theorem loadPieces (h : Quiet s) : ∀ {ps : List Piece} {t : State} {bs : List Byte}, (∀ x ∈ ps, x.pa / 2 ^ 48 = s.pkg) → Keeps s t →
    Keeps s (ps.foldl (loadPiece s) (t, bs)).1 ∧ (ps.foldl (loadPiece s) (t, bs)).2 = bs ++ ps.flatMap fun x => s.bytesAt x.pa x.n
  | [], _, _, _, keeps => ⟨keeps, (List.append_nil _).symm⟩
  | x :: r, t, bs, home, keeps => by
    have reached := reach_of_looked h keeps false x.size x.nc (home x List.mem_cons_self) x.n
    have key : (t.reach (s.byLane 32) false x.size x.nc x.pa x.n).iss.key = s.iss.key := by rw [reached.looked]; rfl
    have win : (t.reach (s.byLane 32) false x.size x.nc x.pa x.n).w.win = none := by rw [reached.looked]; exact h.alone.1
    have seen : (loadPiece s (t, bs) x).2 = bs ++ s.bytesAt x.pa x.n := by
      simp only [loadPiece, ← key, withHeld_of_unpaired win, bytesAt_of_looked reached.looked]
    have rest := loadPieces h (bs := (loadPiece s (t, bs) x).2) (fun y hy => home y (List.mem_cons_of_mem x hy)) reached
    rw [List.foldl_cons, List.flatMap_cons, ← List.append_assoc, ← seen]
    exact rest

theorem bytesFor_eq (s : State) (k : AKind) (va : W64) (n : Nat) : s.bytesFor k va n = (s.pieces k va n).flatMap fun x => s.bytesAt x.pa x.n := by
  rw [State.bytesFor, State.ranges, List.flatMap_map]

/-- What UniformResult asks, said of the state that the reads have left. -/
theorem looked_advance {v : W64} (same : u = s.looked u) : s.looked (u.wrS d v).advance = u := by
  have only : OnlyWarp u (u.wrS d v).advance := onlyWarp_advance (onlyWarp_modW u _)
  rw [State.looked, only.rest]; exact same.symm

/-! ## From the checks to the flight -/

/-- An allowed access passes its checks, and its walks have read their entries. -/
theorem uniMem_of_allows {op : FlightOp} {scope : Scope} {bs : List Byte} (h : Quiet s) (a : Allows s op.kind op.eff va n) (hn : 0 < n)
    (aligned : va.toNat % align = 0) : s.uniMem op va n align scope bs =
      (s.touchPages op.kind [⟨32, va, n⟩]).memGo op.eff scope
        ((s.touchPages op.kind [⟨32, va, n⟩]).flightOf op s.iss.set [⟨32, va, n⟩] fun _ => (bs, 0, 0)) [⟨32, va, n⟩] State.advance := by
  simp only [State.uniMem, uniLane_of_free h.lock, memCheck_of_allows h a hn aligned, placeCheck_of_allows a]
theorem memGo_load {scope : Scope} {f : Flight} {ps : List Span} {fin : State → State} :
    u.memGo .load scope f ps fin = u.launchFlight { f with remote := none } fin := rfl
theorem uniAccess_of_looked (h : Quiet s) (same : u = s.looked u) (bs : List Byte) : uniAccess u k va n bs = uniAccess s k va n bs := by
  rw [uniAccess, pieces_of_looked h same]; rfl
theorem poisoned_of_looked (same : u = s.looked u) (pa : Nat) : u.poisoned pa = s.poisoned pa := by rw [same]; rfl
theorem clean_pieces {i : Nat} {x : Piece} (clean : CleanAt s k va n) (hx : x ∈ s.pieces k va n) (hi : i < x.n) : s.poisoned (x.pa + i) = false :=
  clean _ (List.mem_map.mpr ⟨x, hx, rfl⟩) i hi
theorem home_of_piece {x : Piece} (here : ∀ x ∈ s.pieces k va n, HomedHere s x.pa x.n) (hn : 0 < n) (hx : x ∈ s.pieces k va n) :
    x.pa / 2 ^ 48 = s.pkg :=
  here x hx 0 (pieces_pos hn hx)

/-! ## Loads (R62 to R64) -/

/-- The flight of a load reads its pieces and writes sd. -/
theorem flyLane_sload {f : Flight} (op : f.op = .sload d) (same : u = s.looked u) : u.flyLane f [] (uniAccess s k va n []) =
    ((s.pieces k va n).foldl (loadPiece s) (u, [])).1.wrS d (leW64 ((s.pieces k va n).foldl (loadPiece s) (u, [])).2) := by
  have step : loadPiece u = loadPiece s := by rw [same]; rfl
  simp only [← step]
  rw [State.flyLane, op]; rfl
theorem launch_sload {f : Flight} (h : Quiet s) (walked : Walked s u) (begun : Begun s u none) (op : f.op = .sload d) (remote : f.remote = none)
    (single : SinglePlain f (uniAccess s .read va n [])) (here : ∀ x ∈ s.pieces .read va n, HomedHere s x.pa x.n) (hn : 0 < n)
    (clean : CleanAt s .read va n) : u.launchFlight f State.advance =
      .next (((s.pieces .read va n).foldl (loadPiece s) (u, [])).1.wrS d (leW64 (s.bytesFor .read va n))).advance := by
  have same := walked.keeps.looked
  have loaded := (loadPieces h (bs := []) (fun x hx => home_of_piece here hn hx) walked.keeps).2
  rw [List.nil_append, ← bytesFor_eq] at loaded
  have alone : Alone u := by rw [same]; exact h.flights
  have win : u.w.win = none := by rw [same]; exact h.alone.1
  have cleanU : f.op.eff = .load → ∀ x ∈ (uniAccess s .read va n []).pieces, ∀ i, i < x.n → u.poisoned (x.pa + i) = false :=
    fun _ x hx i hi => (poisoned_of_looked same _).trans (clean_pieces clean hx hi)
  rw [launchFlight_single single (laneWaits_of_begun h begun remote single.eff hn here) alone win cleanU, flyLane_sload op same, loaded]
theorem sload_single (h : Quiet s) (same : u = s.looked u) (set : W32) :
    SinglePlain { u.flightOf (.sload d) set [⟨32, va, n⟩] (fun _ => ([], 0, 0)) with remote := none } (uniAccess s .read va n []) := by
  rw [← uniAccess_of_looked h same]
  exact flightOf_single (by rw [gr_of_looked same]; exact h.alone.2) (.inl rfl)
/-- A uniform load that is allowed, clean and aligned. -/
theorem uniLoad_result (h : Quiet s) (a : Allows s .read .load va n) (hn : 0 < n) (clean : CleanAt s .read va n) (aligned : va.toNat % align = 0)
    (hd : d < 160) : ∃ t, s.uniLoad d va n align = .next t ∧ UniformResult (s.looked t) t d (leW64 (s.bytesFor .read va n)) (s.iss.base + 4) := by
  have walked := walked_touchPages h .read [⟨32, va, n⟩]
  have begun := begun_touchPages h .read [⟨32, va, n⟩]
  have keeps := (loadPieces h (bs := []) (fun x hx => home_of_piece a.here hn hx) walked.keeps).1
  refine ⟨(((s.pieces .read va n).foldl (loadPiece s) (s.touchPages .read [⟨32, va, n⟩], [])).1.wrS d (leW64 (s.bytesFor .read va n))).advance,
    (uniMem_of_allows (op := .sload d) h a hn aligned).trans (memGo_load.trans
    (launch_sload h walked begun rfl rfl (sload_single h walked.keeps.looked s.iss.set) a.here hn clean)), ?_⟩
  rw [looked_advance keeps.looked]
  have result := wrS_advance_result (s := ((s.pieces .read va n).foldl (loadPiece s) (s.touchPages .read [⟨32, va, n⟩], [])).1) hd
    (rfl : leW64 (s.bytesFor .read va n) = _)
  have base : ((s.pieces .read va n).foldl (loadPiece s) (s.touchPages .read [⟨32, va, n⟩], [])).1.iss.base = s.iss.base := by
    rw [keeps.looked]; rfl
  rwa [base] at result

end

section
variable {s : State}

theorem tx_start : ∀ L, L < 32 → (Warp.start.thread L).tx = none := by decide
theorem noTx_of_quiet (h : Quiet s) : NoTx s := by
  refine ⟨h.set, fun L hL _ => ?_⟩
  rcases tget_mem_or_default Warp.start s.iss.key s.warps with e | ⟨x, hx, e⟩
  · rw [State.w, State.warp, e]; exact tx_start L hL
  · rw [State.w, State.warp, ← e]; exact h.warps x hx L hL
theorem umAlign_aligned {f : UM} {va : W64} (aligned : ∀ x, f.ext = some x → x.atom = 1 → va.toNat % 8 = 0) : va.toNat % umAlign f = 0 := by
  rw [umAlign]
  split
  · next x hx =>
    split
    · next atom => exact aligned x hx atom
    · exact Nat.mod_one _
  · exact Nat.mod_one _
theorem uniLd_result {f : UM} {n : Nat} (h : Quiet s) (hn : 0 < n) (hd : f.d < 160) (a : Allows s .read .load (uniformAddr s f n) n)
    (clean : CleanAt s .read (uniformAddr s f n) n) (aligned : ∀ x, f.ext = some x → x.atom = 1 → (uniformAddr s f n).toNat % 8 = 0) :
    ∃ t, s.uniLd f n = .next t ∧ UniformResult (s.looked t) t f.d (leW64 (s.bytesFor .read (uniformAddr s f n) n)) (s.iss.base + 4) := by
  rw [State.uniLd, txGuard_of_noTx (noTx_of_quiet h), emptied_of_noTx (noTx_of_quiet h), umAddr_eq]
  exact uniLoad_result h a hn clean (umAlign_aligned aligned) hd

end

/-- R62 to R64. -/
theorem uniformLoadsReadMemory : UniformLoadsReadMemory := by
  intro s h
  refine ⟨?_, fun d a off wf low even high allowed clean => ?_⟩
  · simp only [List.forall_mem_cons, List.not_mem_nil, false_imp_iff, implies_true, and_true]
    exact ⟨fun f wf a clean aligned => uniLd_result h (by decide) (dest_lt_of_sr_and (numsOk_of_wf wf)) a clean aligned,
      fun f wf a clean aligned => uniLd_result h (by decide) (dest_lt_of_sr_and (numsOk_of_wf wf)) a clean aligned⟩
  · obtain ⟨t, e, result⟩ := uniLoad_result h allowed (by decide) clean (Nat.mod_one _) (dest_lt_of_sr_and (numsOk_of_wf wf))
    have inside : ¬(paramOff s a off < 0 ∨ (paramLen (s.ctlOf s.iss.key 0x0B) : Int) < paramOff s a off + 8) := by
      rw [not_or, Int.not_lt, Int.not_lt]; exact ⟨low, high⟩
    exact ⟨t, (execSldk_eq s d a off).trans ((if_neg (not_not.mpr even)).trans ((if_neg inside).trans e)), result⟩

end Sys2Proof.Proofs
end

section
/-! # Uniform stores -/

namespace Sys2Proof.Proofs

open Machine Laws

section
variable {s u v t : State} {m : List Host.Cell} {own : Option Nat} {va : W64} {n align : Nat} {bs : List Byte}

/-! ## The pieces of a store (R61, R63) -/

/-- A store that began in u has written some of its pieces. -/
structure Storing (s u v : State) (m : List Host.Cell) : Prop where
  same : v = s.accessed v m
  hand : AtHand v
  poison : ∀ x ∈ v.poison, x ∈ s.poison
  remote : v.remote = u.remote

theorem storing_of_begun (b : Begun s u own) : Storing s u u s.mem := by
  have poison : u.poison = s.poison := by rw [b.same]; rfl
  refine ⟨?_, b.hand, fun x hx => poison ▸ hx, rfl⟩
  rw [State.accessed, poison]; exact b.same
theorem accessed_looked (h : u = s.accessed u m) (g : v = u.looked v) : v = s.accessed v m := by rw [g, h]; rfl
theorem accessed_putBytes (h : v = s.accessed v m) (pa : Nat) (bs : List Byte) :
    v.putBytes pa bs = s.accessed (v.putBytes pa bs) (Memory.writeBytes m pa bs) := by
  rw [State.putBytes, h]; rfl

/-- A store at device memory or a scratchpad of this module is performed at once. -/
theorem storePlain_eq {by_ : Sender} {pa : Nat} {remote : Option Nat} (home : pa / 2 ^ 48 = v.pkg) (waits : v.senderWaits by_ = false)
    (plain : v.place pa = .device ∨ ∃ c o, v.place pa = .scratch c o) : v.storePlain by_ pa bs remote = v.putBytes pa bs := by
  have free : v.storeWaits by_ pa bs.length = false := by
    rcases plain with e | ⟨c, o, e⟩ <;> simp only [State.storeWaits, e]
    exact core_senderWaits waits c
  rw [State.storePlain, distant_of_home home, free]
  simp only [Bool.false_eq_true, if_false, State.storeNow]
  rcases plain with e | ⟨c, o, e⟩ <;> simp only [e]

theorem storing_writeAt (h : Quiet s) (k : Storing s u v m) {pa size : Nat} {nc : Bool} {remote : Option Nat} (home : pa / 2 ^ 48 = s.pkg)
    (plain : s.place pa = .device ∨ ∃ c o, s.place pa = .scratch c o) :
    Storing s u (v.writeAt (v.byLane 32) size nc pa bs remote) (Memory.writeBytes m pa bs) := by
  have same := k.same
  have idle : Idle v := ⟨by rw [same]; exact h.harts, by rw [same]; exact h.shadows, k.hand⟩
  have core : (v.byLane 32).agent.holder < 32 := by
    have : v.coreNum = s.coreNum := by rw [same]; rfl
    have := h.core
    show v.coreNum / 48 < 32
    omega
  have reached := reach_keeps idle (by rw [same]; exact h.partials) (by rw [same]; exact h.lock) (by rw [same]; exact h.warps) core true size nc
    (by rw [same]; exact home) bs.length
  have sender : (v.byLane 32).agent.sender = .warp s.iss.key := by rw [same]; rfl
  rw [State.writeAt, sender]
  generalize v.reach (v.byLane 32) true size nc pa bs.length = w at reached
  have same := accessed_looked same reached.looked
  rw [storePlain_eq (by rw [same]; exact home) (by rw [same]; exact h.waits) (by rw [same]; exact plain)]
  refine ⟨accessed_putBytes same pa bs, ⟨reached.hand.entries, reached.hand.holders⟩, fun x hx => k.poison x ?_, ?_⟩
  · have : w.poison = v.poison := by rw [reached.looked]; rfl
    exact this ▸ (List.mem_filter.mp hx).1
  · rw [← k.remote, State.putBytes, reached.looked]; rfl

/-- Memory after the pieces of a store. -/
def storedPieces (bs : List Byte) (ps : List Piece) (m : List Host.Cell) : List Host.Cell :=
  ps.foldl (fun m x => Memory.writeBytes m x.pa ((bs.drop x.off).take x.n)) m
theorem storing_storePieces (h : Quiet s) {f : Flight} {l : FlightLane} (lane : l.lane = 32) :
    ∀ {ps rest : List Piece} {v : State} {m : List Host.Cell},
    (∀ x ∈ ps, x.pa / 2 ^ 48 = s.pkg ∧ (s.place x.pa = .device ∨ ∃ c o, s.place x.pa = .scratch c o)) → Storing s u v m →
      Storing s u (v.storePieces f l ps rest) (storedPieces l.bytes ps m)
  | [], _, _, _, _, k => k
  | x :: r, rest, v, m, ok, k => by
    obtain ⟨home, plain⟩ := ok x List.mem_cons_self
    have unheld : v.holdsWrite v.iss.key x.pa = false := holdsWrite_of_unpaired (by rw [k.same]; exact h.alone.2) x.pa
    have place : v.place x.pa = s.place x.pa := by rw [k.same]; rfl
    have written := storing_writeAt h k (bs := (l.bytes.drop x.off).take x.n) (size := x.size) (nc := x.nc) (remote := f.remote) home plain
    have rest := storing_storePieces h (f := f) lane (rest := rest) (fun y hy => ok y (List.mem_cons_of_mem x hy)) written
    rw [State.storePieces]
    rcases plain with e | ⟨c, o, e⟩ <;> simp only [unheld, place, e, lane, Bool.false_eq_true, if_false] <;> exact rest

/-! ## The bytes of a store -/

/-- The memory of the statement is that of the pieces. -/
theorem stored_eq (s : State) (va : W64) (bs : List Byte) : s.stored [(va, bs)] = storedPieces bs (s.pieces .write va bs.length) s.mem := by
  simp only [State.stored, List.foldl_cons, List.foldl_nil, State.ranges, List.foldl_map, storedPieces]
/-- A byte outside every piece reads as before. -/
theorem read_storedPieces {a : Nat} : ∀ {ps : List Piece} {m : List Host.Cell}, Memory.wf m = true →
    (∀ x ∈ ps, ¬(x.pa ≤ a ∧ a < x.pa + x.n)) → Memory.read (storedPieces bs ps m) a = Memory.read m a
  | [], _, _, _ => rfl
  | x :: r, m, wf, outside => by
    have short : ((bs.drop x.off).take x.n).length ≤ x.n := List.length_take_le _ _
    have own := outside x List.mem_cons_self
    refine (read_storedPieces (wf_writeBytes wf _ _) fun y hy => outside y (List.mem_cons_of_mem x hy)).trans ?_
    rw [read_writeBytes wf, if_neg (by omega)]

/-! ## From the checks to the flight -/

/-- Some piece of a store is remote (R204). -/
def farStore (s : State) (va : W64) (n : Nat) : Bool := (s.pieces .write va n).any fun x => s.isRemote s.coreNum x.pa
theorem farStore_iff (s : State) (va : W64) (n : Nat) : farStore s va n = true ↔ ∃ r ∈ s.ranges .write va n, s.isRemote s.coreNum r.1 = true := by
  simp [farStore, State.ranges]
theorem anyRemote_eq (h : Quiet s) (same : u = s.looked u) : u.anyRemote .write .store [⟨32, va, n⟩] = farStore s va n := by
  have remote : ∀ pa, u.isRemote u.coreNum pa = s.isRemote s.coreNum pa := fun pa => by rw [same]; rfl
  have unheld : ∀ pa, u.holdsWrite u.iss.key pa = false := holdsWrite_of_unpaired (by rw [gr_of_looked same]; exact h.alone.2)
  simp [State.anyRemote, farStore, pieces_of_looked h same, remote, unheld, State.contributes]
/-- A store with room in the count of remote stores is counted and launched. -/
theorem memGo_store {scope : Scope} {f : Flight} {fin : State → State} (h : Quiet s) (walked : Walked s u) (room : RemoteRoom s)
    (op : f.op = .store) : ∃ contr pas, u.memGo .store scope f [⟨32, va, n⟩] fin =
      (u.addRemote (farStore s va n) (scope = .core) contr pas).1.launchFlight
        { f with remote := (u.addRemote (farStore s va n) (scope = .core) contr pas).2 } fin := by
  have same := walked.keeps.looked
  have ost : u.ost u.iss.key < 255 := by
    have : u.ost u.iss.key = s.ost s.iss.key := by rw [same]; rfl
    rw [this]; exact room
  have kind : f.op.kind = .write := by rw [op]; rfl
  simp only [State.memGo, kind, Eff.posts, anyRemote_eq h same, Bool.true_and, decide_eq_false (Nat.not_le.mpr ost), Bool.and_false, Bool.false_eq_true,
    if_false]
  exact ⟨_, _, rfl⟩

theorem holdLane_of_unpaired {f : Flight} {l : FlightLane} {rest : List Piece} {op : Option (AtomOp × Rnd)} (h : u.gr.paired = false) :
    u.holdLane f rest l op = u := by
  have unheld : u.heldPieces l = [] := List.filter_eq_nil_iff.mpr fun x _ => by rw [holdsWrite_of_unpaired h]; exact Bool.false_ne_true
  rw [State.holdLane, unheld]
/-- The flight of a store writes its pieces. -/
theorem storing_flyLane {f : Flight} (h : Quiet s) (b : Begun s u own) (op : f.op = .store)
    (ok : ∀ x ∈ s.pieces .write va n, x.pa / 2 ^ 48 = s.pkg ∧ (s.place x.pa = .device ∨ ∃ c o, s.place x.pa = .scratch c o)) :
    Storing s u (u.flyLane f [] (uniAccess s .write va n bs)) (storedPieces bs (s.pieces .write va n) s.mem) := by
  have k := storing_storePieces h (f := f) (l := uniAccess s .write va n bs) rfl (rest := []) ok (storing_of_begun b)
  have unpaired : (u.storePieces f (uniAccess s .write va n bs) (s.pieces .write va n) []).gr.paired = false := by rw [k.same]; exact h.alone.2
  have fly : u.flyLane f [] (uniAccess s .write va n bs) =
      (u.storePieces f (uniAccess s .write va n bs) (s.pieces .write va n) []).holdLane f [] (uniAccess s .write va n bs) none := by
    rw [State.flyLane, op]; rfl
  rw [fly, holdLane_of_unpaired unpaired]
  exact k
theorem store_single (h : Quiet s) (same : u = s.looked u) (set : W32) :
    SinglePlain { u.flightOf .store set [⟨32, va, n⟩] (fun _ => (bs, 0, 0)) with remote := own } (uniAccess s .write va n bs) := by
  rw [← uniAccess_of_looked h same]
  exact flightOf_single (by rw [gr_of_looked same]; exact h.alone.2) (.inr rfl)
/-- A launched store is performed at once. -/
theorem launch_store {f : Flight} (h : Quiet s) (b : Begun s u own) (op : f.op = .store) (remote : f.remote = own)
    (single : SinglePlain f (uniAccess s .write va n bs)) (here : ∀ x ∈ s.pieces .write va n, HomedHere s x.pa x.n) (hn : 0 < n)
    (plain : PlainAt s .write va n) : ∃ v, u.launchFlight f State.advance = .next v.advance ∧
      Storing s u v (storedPieces bs (s.pieces .write va n) s.mem) := by
  have alone : Alone u := by rw [b.same]; exact h.flights
  have win : u.w.win = none := by rw [b.same]; exact h.alone.1
  refine ⟨_, launchFlight_single single (laneWaits_of_begun h b remote single.eff hn here) alone win fun e => ?_, storing_flyLane h b op fun x hx =>
    ⟨home_of_piece here hn hx, plain _ (List.mem_map.mpr ⟨x, hx, rfl⟩)⟩⟩
  rw [op] at e; exact nomatch e

/-! ## What a store leaves -/

/-- A store that is done, and the count of remote stores with which it began. -/
theorem storesDone_of_storing (k : Storing s u v (storedPieces bs (s.pieces .write va bs.length) s.mem)) (mem : MemoryCanonical s)
    (remote : if farStore s va bs.length = true then ∃ r, tget? u.remote s.nextRemote = some r ∧ r.warp = s.iss.key else u.remote = s.remote) :
    StoresDone s v.advance [(va, bs)] := by
  have only : OnlyWarp v v.advance := onlyWarp_advance (onlyWarp_refl v)
  have memory : v.advance.mem = storedPieces bs (s.pieces .write va bs.length) s.mem := by rw [only.rest, k.same]; rfl
  refine ⟨memory.trans (stored_eq s va bs).symm, fun a outside => ?_, fun x hx => k.poison x ?_, ?_⟩
  · rw [memory]
    exact read_storedPieces mem fun x hx => outside (va, bs) (List.mem_singleton.mpr rfl) _ (List.mem_map.mpr ⟨x, hx, rfl⟩)
  · rw [only.rest] at hx; exact hx
  · have same : v.advance.remote = u.remote := by rw [only.rest]; exact k.remote
    simp only [List.mem_singleton, exists_eq_left, ← farStore_iff, same]
    exact remote
theorem warpBecomes_of_storing (k : Storing s u v m) : WarpBecomes (s.accessed v.advance v.advance.mem) v.advance s.w (s.iss.base + 4) := by
  have only : OnlyWarp v v.advance := onlyWarp_advance (onlyWarp_refl v)
  have mem : v.mem = m := by rw [k.same]; rfl
  have same : s.accessed v.advance v.advance.mem = v := by
    rw [State.accessed, State.looked, only.rest]
    exact ((congrArg (s.accessed v) mem).trans k.same.symm)
  have w : v.w = s.w := by rw [k.same]; rfl
  have base : v.iss.base = s.iss.base := by rw [k.same]; rfl
  rw [same, ← w, ← base]
  exact warpBecomes_self v

/-- The count of remote stores with which a store begins. -/
theorem remote_addRemote (h : Walked s u) (far combining contr : Bool) (pas : List Nat) :
    if far = true then ∃ r, tget? (u.addRemote far combining contr pas).1.remote s.nextRemote = some r ∧ r.warp = s.iss.key
      else (u.addRemote far combining contr pas).1.remote = s.remote := by
  have next : u.nextRemote = s.nextRemote := by rw [h.keeps.looked]; rfl
  have key : u.iss.key = s.iss.key := by rw [h.keeps.looked]; rfl
  unfold State.addRemote
  cases far with
  | false => rw [h.keeps.looked]; rfl
  | true => exact ⟨_, by rw [← next]; exact tget?_tput_self _ _ _, key⟩

/-- A uniform store that is allowed and aligned. -/
theorem uniStore_result {scope : Scope} (h : Quiet s) (mem : MemoryCanonical s) (room : RemoteRoom s) (len : bs.length = n) (hn : 0 < n)
    (a : Allows s .write .store va n) (plain : PlainAt s .write va n) (aligned : va.toNat % align = 0) :
    ∃ t, s.uniMem .store va n align scope bs = .next t ∧ StoresDone s t [(va, bs)] ∧ WarpBecomes (s.accessed t t.mem) t s.w (s.iss.base + 4) := by
  subst len
  have walked := walked_touchPages h .write [⟨32, va, bs.length⟩]
  obtain ⟨contr, pas, go⟩ := memGo_store (va := va) (n := bs.length) (scope := scope) (fin := State.advance) h walked room
    (f := (s.touchPages .write [⟨32, va, bs.length⟩]).flightOf .store s.iss.set [⟨32, va, bs.length⟩] fun _ => (bs, 0, 0)) rfl
  obtain ⟨v, launch, stored⟩ := launch_store h (begun_addRemote walked (farStore s va bs.length) (scope = .core) contr pas) rfl rfl
    (store_single h walked.keeps.looked s.iss.set) a.here hn plain
  exact ⟨v.advance, (uniMem_of_allows (op := .store) h a hn aligned).trans (go.trans launch),
    storesDone_of_storing stored mem (remote_addRemote walked _ _ _ _), warpBecomes_of_storing stored⟩
theorem uniSt_result {f : UM} (h : Quiet s) (mem : MemoryCanonical s) (room : RemoteRoom s) (hn : 0 < n)
    (a : Allows s .write .store (uniformAddr s f n) n) (plain : PlainAt s .write (uniformAddr s f n) n)
    (aligned : ∀ x, f.ext = some x → x.atom = 1 → (uniformAddr s f n).toNat % 8 = 0) :
    ∃ t, s.uniSt f n = .next t ∧ StoresDone s t [(uniformAddr s f n, leBytes n (s.rdS f.d).toNat)] ∧
      WarpBecomes (s.accessed t t.mem) t s.w (s.iss.base + 4) := by
  rw [State.uniSt, txGuard_of_noTx (noTx_of_quiet h), emptied_of_noTx (noTx_of_quiet h), umAddr_eq]
  exact uniStore_result h mem room (length_leBytes _ _) hn a plain (umAlign_aligned aligned)

end

theorem uniformStoresWriteMemory : UniformStoresWriteMemory := by
  intro s h mem room
  simp only [List.forall_mem_cons, List.not_mem_nil, false_imp_iff, implies_true, and_true]
  exact ⟨fun f _ a plain aligned => uniSt_result h mem room (by decide) a plain aligned,
    fun f _ a plain aligned => uniSt_result h mem room (by decide) a plain aligned⟩

/-- Settles O32: an allowed access of a quiet module passes its checks, waits for nothing and is made at once, piece by piece. -/
theorem uniformAccessesReachMemory : Obligations.UniformAccessesReachMemory := ⟨uniformLoadsReadMemory, uniformStoresWriteMemory⟩

end Sys2Proof.Proofs
end

section
/-! # The registers at reset -/

namespace Sys2Proof.Proofs

open Machine Laws

theorem vget_replicate {α : Type} (d a : α) {n i : Nat} (h : i < n) : vget d (Vector.replicate n a) i = a := by
  simp [vget, List.getD_eq_getElem?_getD, h]
/-- A read of dxrwn (R383). -/
theorem csrRead_dxrw (s : State) (h : Nat) {n : Nat} (lo : 0x5D0 ≤ n) (hi : n < 0x5E0) : s.csrRead h n = vget 0 s.dxrw (n - 0x5D0) := by
  unfold State.csrRead
  iterate 11 rw [if_neg (by omega)]
  rw [if_pos (by simp [lo, hi])]

theorem slotState_reset (g : Nat) : State.reset.slotState g = 0 :=
  (rfl : State.reset.slotState g = bfld SlotEntry.free.ctl 0 3).trans (show bfld SlotEntry.free.ctl 0 3 = 0 by decide)

/-- Settles O60: a table that is empty at reset gives the record that an entry has at reset, and each register reads the field the module was made with. -/
theorem resetHoldsTheValuesOfTheLayouts : Obligations.ResetHoldsTheValuesOfTheLayouts := by
  refine ⟨?_, fun n h lo hi => ?_, fun _ => rfl, fun _ _ hq => vget_replicate 32 32 hq, slotState_reset, fun _ _ hn => vget_replicate 0 shapeReset hn,
    rfl, rfl, rfl, rfl, rfl⟩
  · simp only [List.forall_mem_cons, List.not_mem_nil, false_imp_iff, implies_true, and_true]
    exact ⟨fun _ => rfl, fun _ => rfl, fun _ => rfl, fun _ => rfl, fun _ => rfl, fun _ => rfl, fun _ => rfl, fun _ => rfl, fun _ => rfl, fun _ => rfl,
      fun _ => rfl, fun _ => rfl⟩
  · rw [csrRead_dxrw _ h lo hi]
    exact vget_replicate 0 0x100 (by omega)

end Sys2Proof.Proofs
end

section
/-! # Shuffles and votes -/

namespace Sys2Proof.Proofs

open Machine Laws

section
variable {s : State} {p : Pre}

/-! ## The source lane of a shuffle (R126) -/

theorem source_eq_sourceLane (fn : ShfFn) (k L n : Nat) : ShfFn.source fn (2 ^ k) L n = sourceLane fn (2 ^ k) L n := by
  have split : L / 2 ^ k * 2 ^ k + L % 2 ^ k = L := Nat.div_add_mod' L (2 ^ k)
  cases fn with
  | idx => rfl
  | up => simp only [ShfFn.source, sourceLane, split]
  | down => simp only [ShfFn.source, sourceLane, split]
  | xor => simp only [ShfFn.source, sourceLane, Nat.and_two_pow_sub_one_eq_mod]

/-! ## Lanes of a tile (R98) -/

theorem mem_tileOf (w : Warp) (L K : Nat) : K ∈ w.tileOf L ↔ K / w.tileSize = L / w.tileSize := by
  have pos : 0 < w.tileSize := Nat.two_pow_pos _
  rw [Warp.tileOf, mem_rangeFrom, Nat.div_eq_iff pos, Nat.le_iff_lt_add_one]
  omega
/-- The active lanes of a lane's tile. -/
def tileMates (s : State) (p : Pre) (L : Nat) : List Nat := (s.w.tileOf L).filter fun K => (s.act p).getLsbD K
theorem mem_tileMates (s : State) (p : Pre) (L K : Nat) :
    K ∈ tileMates s p L ↔ K / 2 ^ s.w.part = L / 2 ^ s.w.part ∧ (s.act p).getLsbD K = true := by
  rw [tileMates, List.mem_filter, mem_tileOf]; rfl

/-! ## Votes (R127) -/

/-- The vote of a lane's tile, of what each lane holds. -/
def tileVote (fn : VoteFn) (v : Nat → W32) (mates : List Nat) (L : Nat) : Bool :=
  match fn with
  | .any => mates.any fun K => v K != 0
  | .all => mates.all fun K => v K != 0
  | .eqv => mates.all fun K => v K = v L
/-- The votes of a lane's tile, from bit 0 up. -/
def tileBallot (s : State) (p : Pre) (v : Nat → W32) (L : Nat) : W32 :=
  maskOf fun i => decide (i < 2 ^ s.w.part) && ((s.act p).getLsbD (L / 2 ^ s.w.part * 2 ^ s.w.part + i) && v (L / 2 ^ s.w.part * 2 ^ s.w.part + i) != 0)

/-- The first register that an issue uses is one of the 128. -/
theorem dest_lt_of_held {us : Nat → List (Nat × Nat)} {d : Nat → Nat} (idx : s.iss.idx ≤ p.last) (held : RegsHeld s p fun j => (d j, 1) :: us j) :
    d s.iss.idx < 128 := holdsV_lt ((held.1 _ le_rfl idx _ List.mem_cons_self).2 0 Nat.one_pos)
/-- A register that takes a value of 32 bits in each lane. -/
theorem wrT_of_single (w : Warp) (d : Nat) (act z : W32) (f : Nat → W32) : w.wrT false d act z (fun L => (f L).setWidth 64) = w.wrZ d act z f := by
  simp [Warp.wrT]
/-- The mask register of an issue, of which REP steps none past m7. -/
theorem voteMask_lt {fn : VoteFn} {m a : Nat} (wf : (Instr.vote fn p m a).wf = true) (idx : s.iss.idx ≤ p.last) : p.d s.iss.idx m < 8 := by
  obtain ⟨rep, ext⟩ := p
  simp only [Instr.wf, Instr.fieldsOk, Instr.repOk, Instr.preUse, Bool.and_eq_true] at wf
  obtain ⟨⟨⟨⟨⟨⟨-, hm⟩, -⟩, -⟩, hr⟩, -⟩, -⟩ := wf
  have low : m < 8 := of_decide_eq_true hm
  cases rep with
  | none => exact low
  | some r =>
    simp only [RepUse.ok, stepOk, Bool.and_eq_true, decide_eq_true_eq] at hr
    have : s.iss.idx * r.sd ≤ r.last * r.sd := Nat.mul_le_mul_right _ idx
    show m + s.iss.idx * r.sd < 8
    omega

theorem execVote_result {fn : VoteFn} {m a : Nat} (wf : (Instr.vote fn p m a).wf = true) (idx : s.iss.idx ≤ p.last)
    (held : RegsHeld s p fun j => [(p.a j a, 1)]) : ∃ t, execVote fn p m a s = .next t ∧
      LaneMask s t p.rep (s.act p) (s.zeroed p) (p.d s.iss.idx m)
        (fun L => tileVote fn (fun K => s.w.rdV (p.a s.iss.idx a) K) (tileMates s p L) L) s.w.fpmode := by
  unfold execVote
  exact laneMask held (voteMask_lt wf idx) (by cases fn <;> rfl)
theorem tileVote_iff (fn : VoteFn) (v : Nat → W32) (L : Nat) : tileVote fn v (tileMates s p L) L = true ↔
    match fn with
    | .any => ∃ K, (K / 2 ^ s.w.part = L / 2 ^ s.w.part ∧ (s.act p).getLsbD K = true) ∧ (s.act p).getLsbD K = true ∧ v K ≠ 0
    | .all => ∀ K, K / 2 ^ s.w.part = L / 2 ^ s.w.part ∧ (s.act p).getLsbD K = true → (s.act p).getLsbD K = true ∧ v K ≠ 0
    | .eqv => ∀ K, K / 2 ^ s.w.part = L / 2 ^ s.w.part ∧ (s.act p).getLsbD K = true → v K = v L := by
  cases fn with
  | any =>
    simp only [tileVote, List.any_eq_true, mem_tileMates, bne_iff_ne]
    exact exists_congr fun K => ⟨fun ⟨mate, vote⟩ => ⟨mate, mate.2, vote⟩, fun ⟨mate, _, vote⟩ => ⟨mate, vote⟩⟩
  | all =>
    simp only [tileVote, List.all_eq_true, mem_tileMates, bne_iff_ne]
    exact forall_congr' fun K => forall_congr' fun mate => ⟨fun vote => ⟨mate.2, vote⟩, And.right⟩
  | eqv => simp only [tileVote, List.all_eq_true, mem_tileMates, decide_eq_true_eq]

theorem execVoteBallot_result {d a : Nat} (idx : s.iss.idx ≤ p.last) (held : RegsHeld s p fun j => [(p.d j d, 1), (p.a j a, 1)]) :
    ∃ t, execVoteBallot p d a s = .next t ∧ LaneResult s t p.rep (s.act p) (s.zeroed p) false (p.d s.iss.idx d)
      (fun L => (tileBallot s p (fun K => s.w.rdV (p.a s.iss.idx a) K) L).setWidth 64) s.w.fpmode := by
  unfold execVoteBallot
  exact laneResult held (dest_lt_of_held idx held) (fun h => nomatch h) (wrT_of_single ..).symm
theorem getLsbD_tileBallot (v : Nat → W32) (L : Nat) {i : Nat} (hi : i < 32) : (tileBallot s p v L).getLsbD i = true ↔
    i < 2 ^ s.w.part ∧ (s.act p).getLsbD (L / 2 ^ s.w.part * 2 ^ s.w.part + i) = true ∧ v (L / 2 ^ s.w.part * 2 ^ s.w.part + i) ≠ 0 := by
  rw [tileBallot, getLsbD_maskOf _ i hi, Bool.and_eq_true, Bool.and_eq_true, decide_eq_true_eq, bne_iff_ne]

theorem execShf_result {fn : ShfFn} {f : LRN} (idx : s.iss.idx ≤ f.pre.last)
    (held : RegsHeld s f.pre fun j => (f.pre.d j f.d, 1) :: (f.pre.a j f.a, 1) :: f.b.use f.pre j 1) : ∃ t, execShf fn f s = .next t ∧
      LaneResult s t f.pre.rep (s.act f.pre) (s.zeroed f.pre) false (f.pre.d s.iss.idx f.d)
        (fun L => (s.w.rdV (f.pre.a s.iss.idx f.a) (ShfFn.source fn (2 ^ s.w.part) L (countB s f.pre f.b L % 32))).setWidth 64) s.w.fpmode := by
  unfold execShf
  exact laneResult held (dest_lt_of_held idx held) (fun h => nomatch h) (wrT_of_single ..).symm

end

/-- Settles O14: what an issue reads of a tile is what its lanes hold there, and the result is delivered as that of any lane instruction. -/
theorem shufflesAndVotesCrossTheirTile : Obligations.ShufflesAndVotesCrossTheirTile := by
  intro s _ _
  refine ⟨fun fn f _ idx held => ?_, fun p a idx => ⟨fun fn m wf held => ?_, fun d _ held => ?_⟩⟩
  · simp only [← source_eq_sourceLane]
    exact execShf_result idx held
  · obtain ⟨t, ran, mask⟩ := execVote_result wf idx held
    exact ⟨t, ran, _, mask, fun L _ _ => tileVote_iff fn _ L⟩
  · obtain ⟨t, ran, result⟩ := execVoteBallot_result idx held
    exact ⟨t, ran, _, result, fun L i _ hi => getLsbD_tileBallot _ L hi⟩

end Sys2Proof.Proofs
end

section
/-! # Twins whose writes overtake each other -/

namespace Sys2Proof.Proofs

open Machine Laws

/-! ## A twin that belongs to the same copy

The writes of a copy overtake those that its other warps made before them (R207, R354), so the model drops the overtaken bytes from their windows. The
twin of a warp is found by the key of the group at the same place in the other copy, and the statement does not ask that this group's record stands under
its own key. Where it names the key of the first copy's group, a warp and its twin belong to one copy: a write of the twin that is performed for both
then drops one of the writes that the warp has still to perform. -/

/-- A held write of one byte, with its place in the order of its copy. -/
def byteWrite (ord pa : Nat) (b : Byte) : HeldWrite := ⟨ord, 0, pa, [b], none, false, [], none, none⟩
/-- A window with two records at a release point. -/
def windowOf (hs : List HeldWrite) : PairWin := ⟨0, 2, [], hs, 0, true, false, false, false, none, [], false⟩
/-- The warp writes two lines; its twin writes the second one, later in the order. -/
def warpWindow : PairWin := windowOf [byteWrite 0 0x5000 1, byteWrite 0 0x6000 2]
def twinWindow : PairWin := windowOf [byteWrite 1 0x6000 2, byteWrite 1 0x5000 1]
/-- Warps 1 and 0 of group 0 stand at a release point with those windows; the other copy's record names slot-table entry 0 of core 0, which is group 0's. -/
def oneCopy : State :=
  { State.reset.probeWarpPlaced with
    grids := [(1, { probeGrid with lrec := { probeGrid.lrec with flags := 2 } })]
    warps := [(0, { probeWarp with win := some twinWindow }), (1, { probeWarp with win := some warpWindow })]
    groups := [(0, { probeGroup with slots := 3 }), (512, { probeGroup with copy := 1 })] }
/-- The byte that memory holds at the second line when TWIN_MATCH is done. -/
def lateByte : Res → Byte
  | .next t => Memory.read t.mem 0x6000
  | _ => 0

theorem calm_oneCopy : Calm oneCopy :=
  ⟨rfl, rfl, rfl, ⟨rfl, rfl⟩, by decide +kernel, by decide +kernel, rfl, fun _ => rfl⟩
/-- The warp's write of the second line is lost. -/
theorem lateByte_oneCopy : lateByte (execTwinMatch 1 0 oneCopy) = 0 := by decide +kernel
theorem homed_warpWindow :
    ∀ h ∈ warpWindow.held, h.op = none ∧ oneCopy.place h.pa = .device ∧ HomedHere oneCopy h.pa h.bytes.length := by decide +kernel

theorem not_twinsComplete : ¬ TwinsComplete := by
  intro complete
  obtain ⟨t, ran, mem, -⟩ := complete oneCopy 1 0 warpWindow twinWindow rfl rfl (by decide +kernel) (by decide) (by decide +kernel) (by decide +kernel)
    rfl rfl rfl rfl rfl rfl rfl rfl rfl rfl rfl calm_oneCopy (by decide +kernel) homed_warpWindow
  have written : Memory.read t.mem 0x6000 = 2 := by rw [mem]; decide +kernel
  have lost : lateByte (.next t) = 0 := ran ▸ lateByte_oneCopy
  exact absurd (written.symm.trans lost) (by decide)

/-- Refutes O51: of two copies of a warp that belong to one group, the second one's write drops one that the first has still to perform, and TWIN_MATCH
ends without that byte. -/
theorem not_exitsMeetsAndCollectiveFormsComplete : ¬ Obligations.ExitsMeetsAndCollectiveFormsComplete :=
  fun ⟨_, _, _, twins⟩ => not_twinsComplete twins

end Sys2Proof.Proofs
end

section
/-! # Meets -/

namespace Sys2Proof.Proofs

open Machine Laws

section
variable {s u : State} {w : Warp} {p : Pre} {n : Nat}

/-! ## What an end of an issue keeps -/

/-- A state whose issuing warp has the register files of another has its registers. -/
theorem regsKept_of_files {t : State} {V : Nat → Nat → Prop} (h : t.w.sregs = s.w.sregs ∧ t.w.vregs = s.w.vregs ∧ t.w.mregs = s.w.mregs) :
    RegsKept s t noReg V noReg := by
  obtain ⟨hs, hv, hm⟩ := h
  exact ⟨fun n _ => by rw [State.rdS, State.rdS, hs], fun n L _ => by rw [Warp.rdV, Warp.rdV, hv], fun n _ => by rw [Warp.rdM, Warp.rdM, hm]⟩
theorem regsKept_of_warpBecomes {t : State} {pc : W64} (h : WarpBecomes s t w pc)
    (same : w.sregs = s.w.sregs ∧ w.vregs = s.w.vregs ∧ w.mregs = s.w.mregs) : RegsKept s t noReg noLane noReg := by
  obtain ⟨hs, hv, hm⟩ := h.regs
  exact regsKept_of_files ⟨hs.trans same.1, hv.trans same.2.1, hm.trans same.2.2⟩
theorem regsKept_finish {V : Nat → Nat → Prop} (regs : RegsKept s u noReg V noReg) : RegsKept s u.finish noReg V noReg :=
  regsKept_modW regs fun _ => ⟨rfl, rfl, rfl⟩
theorem pc_finish (u : State) {L : Nat} (hL : L < 32) : (u.finish.w.thread L).pc = (u.w.thread L).pc := by
  rw [finish_w]; exact countWaits_pc _ _ _ L hL
theorem status_finish (u : State) {L : Nat} (hL : L < 32) : (u.finish.w.thread L).status = (u.w.thread L).status := by
  have same : (u.finish.w.thread L).placeless = (u.w.thread L).placeless := by
    rw [finish_w]; exact countWaits_placeless _ _ _ L hL
  have status := congrArg Thread.status same
  exact status
theorem meets_finish (u : State) : u.finish.w.meets = u.w.meets := by rw [finish_w]; rfl
theorem thread_of_threads {v : Warp} (e : v.threads = w.threads) (L : Nat) : v.thread L = w.thread L := by rw [Warp.thread, e]; rfl
theorem thread_hold (u : State) (set : W32) (h : Hold) {L : Nat} (hL : L < 32) :
    (u.hold set h).w.thread L = if set.getLsbD L then { u.w.thread L with status := .waiting } else u.w.thread L := by
  rw [State.hold, w_modW]
  exact modThreads_thread u.w set (fun t => { t with status := .waiting }) L hL

/-! ## A meet is checked (R97) -/

/-- Every member that has not exited has arrived. -/
def AllArrived (w : Warp) (n : Nat) : Prop :=
  ∀ L, L < 32 → (w.meet n).members.getLsbD L = true → (w.thread L).status ≠ .exited → (w.meet n).arrived.getLsbD L = true
/-- The threads of a mask that have not exited. -/
def stillHere (w : Warp) (m : W32) : W32 := m &&& w.threadsWith fun t => t.status != .exited
theorem getLsbD_stillHere (w : Warp) (m : W32) {L : Nat} (hL : L < 32) :
    (stillHere w m).getLsbD L = true ↔ m.getLsbD L = true ∧ (w.thread L).status ≠ .exited := by
  rw [stillHere, getLsbD_and_iff, Warp.threadsWith, getLsbD_maskOf _ L hL, bne_iff_ne]
theorem allArrived_iff (w : Warp) (n : Nat) : stillHere w (w.meet n).members &&& ~~~(stillHere w (w.meet n).arrived) = 0 ↔ AllArrived w n := by
  constructor
  · intro none L hL member here
    by_contra late
    have bit := (getLsbD_and_not_iff (stillHere w (w.meet n).members) (stillHere w (w.meet n).arrived) hL).mpr
      ⟨(getLsbD_stillHere w _ hL).mpr ⟨member, here⟩, Bool.eq_false_iff.mpr fun h => late ((getLsbD_stillHere w _ hL).mp h).1⟩
    rw [none] at bit
    simp at bit
  · refine fun all => eq_zero_of_lanes fun L hL bit => ?_
    obtain ⟨member, late⟩ := (getLsbD_and_not_iff _ _ hL).mp bit
    obtain ⟨member, here⟩ := (getLsbD_stillHere w _ hL).mp member
    exact Bool.eq_false_iff.mp late ((getLsbD_stillHere w _ hL).mpr ⟨all L hL member here, here⟩)

/-- A meet closes, and those who have arrived go to its label. -/
def releaseMeet (n : Nat) (w : Warp) : Warp :=
  { (w.modThreads (stillHere w (w.meet n).arrived) fun t => { t with pc := (w.meet n).label, status := .eligible }) with
    meets := vset w.meets n ⟨false, (w.meet n).label, 0, 0⟩
    parks := w.parks.filterMap fun q => if q.hold = .meet n then
      (let r := q.set &&& ~~~(stillHere w (w.meet n).arrived); if r = 0 then none else some { q with set := r }) else some q }
theorem thread_releaseMeet {L : Nat} (hL : L < 32) : (releaseMeet n w).thread L =
    if (stillHere w (w.meet n).arrived).getLsbD L then { w.thread L with pc := (w.meet n).label, status := .eligible } else w.thread L :=
  modThreads_thread w _ (fun t => { t with pc := (w.meet n).label, status := .eligible }) L hL
/-- The threads that have exited leave a meet. -/
def settleMeet (n : Nat) (w : Warp) : Warp :=
  let m : Meet := { w.meet n with members := stillHere w (w.meet n).members, arrived := stillHere w (w.meet n).arrived }
  { w with meets := vset w.meets n m }
theorem meetCheck_eq (w : Warp) (n : Nat) : w.meetCheck n =
    if ((w.meet n).opened && stillHere w (w.meet n).members &&& ~~~(stillHere w (w.meet n).arrived) = 0) = true then releaseMeet n w
    else settleMeet n w := rfl
theorem meetCheck_regs (w : Warp) (n : Nat) : (w.meetCheck n).sregs = w.sregs ∧ (w.meetCheck n).vregs = w.vregs ∧ (w.meetCheck n).mregs = w.mregs := by
  rw [meetCheck_eq]; split <;> exact ⟨rfl, rfl, rfl⟩
theorem meet_of_meets {v : Warp} {m : Meet} (hn : n < 8) (e : v.meets = vset w.meets n m) : v.meet n = m := by
  rw [Warp.meet, e, vget_vset, if_pos ⟨rfl, hn⟩]
/-- A thread that has not arrived stands as it stood. -/
theorem meetCheck_thread_of_late {L : Nat} (hL : L < 32) (late : (w.meet n).arrived.getLsbD L = false) : (w.meetCheck n).thread L = w.thread L := by
  rw [meetCheck_eq]
  split
  · refine (thread_releaseMeet hL).trans (if_neg fun h => ?_)
    exact Bool.eq_false_iff.mp late ((getLsbD_stillHere w _ hL).mp h).1
  · rfl
/-- An open meet whose members have all arrived closes, and they go to its label. -/
theorem meetCheck_of_all (hn : n < 8) (open_ : (w.meet n).opened = true) (all : AllArrived w n) : ((w.meetCheck n).meet n).opened = false ∧
    ∀ L, L < 32 → (w.meet n).arrived.getLsbD L = true → (w.thread L).status ≠ .exited →
      (w.meetCheck n).thread L = { w.thread L with pc := (w.meet n).label, status := .eligible } := by
  rw [meetCheck_eq, if_pos (by rw [open_, (allArrived_iff w n).mpr all]; rfl)]
  exact ⟨by rw [meet_of_meets (v := releaseMeet n w) (w := w) hn rfl], fun L hL arrived here =>
    (thread_releaseMeet hL).trans (if_pos ((getLsbD_stillHere w _ hL).mpr ⟨arrived, here⟩))⟩
/-- A meet that is closed, or has a member still to arrive, keeps its threads. -/
theorem meetCheck_of_not (hn : n < 8) (not : ¬((w.meet n).opened = true ∧ AllArrived w n)) : (w.meetCheck n).threads = w.threads ∧
    (w.meetCheck n).meet n = { w.meet n with members := stillHere w (w.meet n).members, arrived := stillHere w (w.meet n).arrived } := by
  rw [meetCheck_eq, if_neg fun h => not (by
    rw [Bool.and_eq_true, decide_eq_true_eq, allArrived_iff] at h; exact h)]
  exact ⟨rfl, meet_of_meets (w := w) hn rfl⟩

/-! ## MEET.OPEN -/

/-- The threads that wait at a meet are those of its parks. -/
theorem getLsbD_parkedOn (w : Warp) (n L : Nat) : (w.parkedOn n).getLsbD L = true ↔ ∃ q ∈ w.parks, q.hold = .meet n ∧ q.set.getLsbD L = true := by
  have fold : ∀ (l : List Park) (m : W32), (l.foldl (fun (m : W32) q => if q.hold = .meet n then m ||| q.set else m) m).getLsbD L = true ↔
      m.getLsbD L = true ∨ ∃ q ∈ l, q.hold = .meet n ∧ q.set.getLsbD L = true := by
    intro l
    induction l with
    | nil => simp
    | cons q r ih =>
      intro m
      rw [List.foldl_cons, ih, List.exists_mem_cons_iff, ← or_assoc]
      by_cases here : q.hold = .meet n
      · simp [here]
      · simp [here]
  refine (fold w.parks 0).trans ?_
  simp
/-- A meet takes a label and its members. -/
def openMeet (n : Nat) (label : W64) (w : Warp) : Warp :=
  let m : Meet := ⟨true, label, w.threadsWith (fun t => t.status = .eligible) ||| w.parkedOn n, (w.meet n).arrived⟩
  { w with meets := vset w.meets n m }
theorem meetOpen_opens {off : Nat} (acts : s.act p ≠ 0) (ok : canonical (wordTarget s 19 off) = true) :
    ∃ t, execMeetOpen p n off s = .next t ∧ WarpBecomes s t (openMeet n (wordTarget s 19 off) s.w) (s.iss.base + 4) := by
  have target : s.target 19 off = wordTarget s 19 off := target_eq (by decide) s off
  have go : ¬(!canonical (wordTarget s 19 off)) = true := by rw [ok]; exact Bool.false_ne_true
  refine ⟨(s.modW (openMeet n (wordTarget s 19 off))).advance, ?_, warpBecomes_modW rfl rfl⟩
  rw [execMeetOpen, if_neg acts, target, if_neg go]; rfl
theorem meet_openMeet (hn : n < 8) (label : W64) : (openMeet n label w).meet n =
    ⟨true, label, w.threadsWith (fun t => t.status = .eligible) ||| w.parkedOn n, (w.meet n).arrived⟩ := meet_of_meets (w := w) hn rfl
theorem members_openMeet (hn : n < 8) (label : W64) {L : Nat} (hL : L < 32) : ((openMeet n label w).meet n).members.getLsbD L = true ↔
    (w.thread L).status = .eligible ∨ ∃ q ∈ w.parks, q.hold = .meet n ∧ q.set.getLsbD L = true := by
  rw [meet_openMeet hn, ← getLsbD_parkedOn, BitVec.getLsbD_or, Bool.or_eq_true, Warp.threadsWith, getLsbD_maskOf _ L hL, decide_eq_true_eq]

/-! ## MEET.WAIT -/

/-- The active threads that the meet holds. -/
def comers (s : State) (p : Pre) (n : Nat) : W32 := s.act p &&& (s.w.meet n).members
/-- The comers arrive, and the others of the issue set go on. -/
def arriveAtMeet (s : State) (p : Pre) (n : Nat) (w : Warp) : Warp :=
  let m : Meet := { s.w.meet n with arrived := (s.w.meet n).arrived ||| comers s p n }
  { (w.setPcs (s.iss.set &&& ~~~(comers s p n)) s.nextPc) with meets := vset w.meets n m }
/-- The state before the meet is checked: the comers wait. -/
def gathered (s : State) (p : Pre) (n : Nat) : State := ((s.modW (arriveAtMeet s p n)).hold (comers s p n) (.meet n)).finish

theorem execMeetWait_goes_on (h : NoTx s) (on : (s.w.meet n).opened = false ∨ s.act p &&& (s.w.meet n).members = 0) :
    execMeetWait p n s = .next s.advance := by
  have none : (if (s.w.meet n).opened then s.act p &&& (s.w.meet n).members else 0) = 0 := by
    rcases on with closed | none
    · rw [closed]; rfl
    · rw [none, ite_self]
  have alone : s.txGuardAct (s.act p) abHold = s := txGuardAct_of_noTx (fun L hL a => h.2 L hL (active_of_act a)) _
  simp only [execMeetWait, alone, emptied_of_noTx h, act_and_set, Bool.false_eq_true, if_false, none, if_true]
theorem execMeetWait_gathers (h : NoTx s) (open_ : (s.w.meet n).opened = true) (come : s.act p &&& (s.w.meet n).members ≠ 0) :
    execMeetWait p n s = .next ((gathered s p n).modW (·.meetCheck n)) := by
  have alone : s.txGuardAct (s.act p) abHold = s := txGuardAct_of_noTx (fun L hL a => h.2 L hL (active_of_act a)) _
  have join : (if (s.w.meet n).opened then s.act p &&& (s.w.meet n).members else 0) = comers s p n := if_pos open_
  simp only [execMeetWait, alone, emptied_of_noTx h, act_and_set, Bool.false_eq_true, if_false, join]
  exact if_neg come

theorem onlyWarp_gathered : OnlyWarp s (gathered s p n) := onlyWarp_finish (onlyWarp_modW_of (onlyWarp_modW s _) _)
theorem regsKept_gathered : RegsKept s (gathered s p n) noReg noLane noReg :=
  regsKept_finish (regsKept_modW (regsKept_modW (regsKept_refl s) fun _ => ⟨rfl, rfl, rfl⟩) fun _ => ⟨rfl, rfl, rfl⟩)
theorem meet_gathered (hn : n < 8) : (gathered s p n).w.meet n = { s.w.meet n with arrived := (s.w.meet n).arrived ||| comers s p n } := by
  refine meet_of_meets (w := s.w) hn ?_
  rw [gathered, meets_finish, State.hold, w_modW, w_modW]; rfl
/-- Where a thread of the warp stands before the issue has ended: it waits, goes on, or stands as it stood. -/
theorem thread_held {L : Nat} (hL : L < 32) : ((s.modW (arriveAtMeet s p n)).hold (comers s p n) (.meet n)).w.thread L =
    if (comers s p n).getLsbD L then { s.w.thread L with status := .waiting }
    else if s.iss.set.getLsbD L then { s.w.thread L with pc := s.nextPc } else s.w.thread L := by
  have moved : (arriveAtMeet s p n s.w).thread L =
      if (s.iss.set &&& ~~~(comers s p n)).getLsbD L then { s.w.thread L with pc := s.nextPc } else s.w.thread L :=
    modThreads_thread s.w _ (fun t => { t with pc := s.nextPc }) L hL
  rw [thread_hold _ _ _ hL, w_modW, moved, BitVec.getLsbD_and, BitVec.getLsbD_not, decide_eq_true hL]
  cases (comers s p n).getLsbD L <;> cases s.iss.set.getLsbD L <;> rfl
theorem status_gathered {L : Nat} (hL : L < 32) : ((gathered s p n).w.thread L).status =
    if (comers s p n).getLsbD L then .waiting else (s.w.thread L).status := by
  rw [gathered, status_finish _ hL, thread_held hL]
  cases (comers s p n).getLsbD L <;> cases s.iss.set.getLsbD L <;> rfl
theorem pc_gathered {L : Nat} (hL : L < 32) (in_ : s.iss.set.getLsbD L = true) (stays : (comers s p n).getLsbD L = false) :
    ((gathered s p n).w.thread L).pc = s.iss.base + 4 := by
  rw [gathered, pc_finish _ hL, thread_held hL, stays, in_]; rfl
/-- What MEET.WAIT asks of the members before it, said of the warp when the comers have arrived. -/
theorem allArrived_gathered (hn : n < 8) : AllArrived (gathered s p n).w n ↔
    ∀ L, L < 32 → (s.w.meet n).members.getLsbD L = true → (s.w.thread L).status ≠ .exited →
      (s.w.meet n).arrived.getLsbD L = true ∨ (comers s p n).getLsbD L = true := by
  rw [AllArrived, meet_gathered hn]
  refine forall_congr' fun L => forall_congr' fun hL => forall_congr' fun _ => ?_
  rw [status_gathered hL, BitVec.getLsbD_or, Bool.or_eq_true]
  cases (comers s p n).getLsbD L with
  | true => simp
  | false => simp

theorem regsKept_meetCheck (regs : RegsKept s u noReg noLane noReg) : RegsKept s (u.modW (·.meetCheck n)) noReg noLane noReg :=
  regsKept_modW regs fun w => meetCheck_regs w n

/-- What MEET.WAIT leaves of the meet and of its threads. -/
theorem gathered_all (hn : n < 8) (open_ : (s.w.meet n).opened = true) (all : AllArrived (gathered s p n).w n) :
    (((gathered s p n).w.meetCheck n).meet n).opened = false ∧ ∀ L, L < 32 →
      (comers s p n).getLsbD L = true ∨ ((s.w.meet n).arrived.getLsbD L = true ∧ (s.w.thread L).status ≠ .exited) →
      (((gathered s p n).w.meetCheck n).thread L).pc = (s.w.meet n).label ∧ (((gathered s p n).w.meetCheck n).thread L).status = .eligible := by
  obtain ⟨closed, gone⟩ := meetCheck_of_all hn (by rw [meet_gathered hn]; exact open_) all
  refine ⟨closed, fun L hL come => ?_⟩
  rw [meet_gathered hn] at gone
  have here : ((gathered s p n).w.thread L).status ≠ .exited := by
    rw [status_gathered hL]
    split
    · decide
    · next stays => exact (come.resolve_left stays).2
  rw [gone L hL (by rw [BitVec.getLsbD_or, Bool.or_eq_true]; exact come.symm.imp And.left id) here]
  exact ⟨rfl, rfl⟩
theorem gathered_not_all (hn : n < 8) (open_ : (s.w.meet n).opened = true) (not : ¬AllArrived (gathered s p n).w n) :
    (((gathered s p n).w.meetCheck n).meet n).opened = true ∧ ∀ L, L < 32 → (comers s p n).getLsbD L = true →
      (((gathered s p n).w.meetCheck n).thread L).status = .waiting := by
  obtain ⟨threads, meet⟩ := meetCheck_of_not hn fun h => not h.2
  refine ⟨by rw [meet, meet_gathered hn]; exact open_, fun L hL come => ?_⟩
  rw [thread_of_threads threads, status_gathered hL, if_pos come]

/-! ## MEET.LEAVE -/

/-- The active threads are members no longer. -/
def leaveMeet (act : W32) (n : Nat) (w : Warp) : Warp :=
  let m : Meet := { w.meet n with members := (w.meet n).members &&& ~~~act }
  { w with meets := vset w.meets n m }
theorem execMeetLeave_eq (acts : s.act p ≠ 0) : execMeetLeave p n s = .next ((s.modW (leaveMeet (s.act p) n)).advance.modW (·.meetCheck n)) := by
  rw [execMeetLeave, if_neg acts]; rfl
theorem meet_left (hn : n < 8) (act : W32) : ((s.modW (leaveMeet act n)).advance.w).meet n =
    { s.w.meet n with members := (s.w.meet n).members &&& ~~~act } := by
  refine meet_of_meets (w := s.w) hn ?_
  rw [State.advance, meets_finish, w_modW, w_modW]; rfl
theorem meetLeave_closed (hn : n < 8) (acts : s.act p ≠ 0) (closed : (s.w.meet n).opened = false) : ∃ t, execMeetLeave p n s = .next t ∧
    OnlyWarp s t ∧ RegsKept s t noReg noLane noReg ∧ GoOn s t s.iss.set (s.iss.base + 4) ∧
    ∀ L, L < 32 → (s.act p).getLsbD L = true → (t.w.meet n).members.getLsbD L = false := by
  obtain ⟨threads, meet⟩ := meetCheck_of_not (w := (s.modW (leaveMeet (s.act p) n)).advance.w) hn fun h => by
    rw [meet_left hn, closed] at h; exact Bool.false_ne_true h.1
  have left := onlyWarp_advance (onlyWarp_modW s (leaveMeet (s.act p) n))
  have on := goOn_advance s (s.modW (leaveMeet (s.act p) n)) rfl (by rw [w_modW]; rfl)
  have stand : ∀ L, ((s.modW (leaveMeet (s.act p) n)).advance.modW (·.meetCheck n)).w.thread L = (s.modW (leaveMeet (s.act p) n)).advance.w.thread L :=
    fun L => by rw [w_modW]; exact thread_of_threads threads L
  refine ⟨_, execMeetLeave_eq acts, onlyWarp_modW_of left _, ?_, ⟨fun L hL => ?_, fun L hL => ?_⟩, fun L hL active => ?_⟩
  · exact regsKept_meetCheck (regsKept_finish (regsKept_modW (regsKept_modW (regsKept_refl s) fun _ => ⟨rfl, rfl, rfl⟩) fun _ => ⟨rfl, rfl, rfl⟩))
  · rw [stand]; exact on.places L hL
  · rw [stand]; exact on.rest L hL
  · rw [w_modW, meet, meet_left hn, Bool.eq_false_iff]
    intro member
    obtain ⟨member, -⟩ := (getLsbD_stillHere _ _ hL).mp member
    simp [active] at member

end

/-- Settles O23: MEET.OPEN and the threads that only go on change one record of the warp, and what MEET.WAIT and MEET.LEAVE do to the members is the check
of the meet at their end. -/
theorem meetsGatherTheirMembers : Obligations.MeetsGatherTheirMembers := by
  intro s p n hn
  refine ⟨fun off acts ok => ?_, fun h => ⟨fun on => ?_, fun open_ come => ?_⟩, fun acts closed => ?_⟩
  · obtain ⟨t, ran, becomes⟩ := meetOpen_opens (n := n) acts ok
    have meets := congrArg Warp.meets becomes.special
    have meet : t.w.meet n = (openMeet n (wordTarget s 19 off) s.w).meet n := congrArg (fun v => vget Meet.closed v n) meets
    refine ⟨t, ran, ⟨becomes.only, regsKept_of_warpBecomes becomes ⟨rfl, rfl, rfl⟩⟩, becomes.threads, ?_, fun L hL => ?_⟩
    · show _ = { s.w.special with meets := vset s.w.meets n ⟨true, wordTarget s 19 off, (t.w.meet n).members, (s.w.meet n).arrived⟩ }
      rw [becomes.special, meet, meet_openMeet hn]; rfl
    · show (t.w.meet n).members.getLsbD L = true ↔ _
      rw [meet]
      exact members_openMeet hn _ hL
  · exact ⟨_, execMeetWait_goes_on h on, warpBecomes_self s⟩
  · refine ⟨_, execMeetWait_gathers h open_ come, ⟨onlyWarp_modW_of onlyWarp_gathered _, regsKept_meetCheck regsKept_gathered⟩,
      fun L hL in_ stays late => ?_, fun all => ?_, fun not => ?_⟩
    · have stays : (comers s p n).getLsbD L = false := Bool.eq_false_iff.mpr stays
      have late' : ((gathered s p n).w.meet n).arrived.getLsbD L = false := by
        rw [meet_gathered hn, BitVec.getLsbD_or, stays, Bool.or_false]; exact late
      rw [w_modW, meetCheck_thread_of_late hL late', pc_gathered hL in_ stays]
    · rw [w_modW]; exact gathered_all hn open_ ((allArrived_gathered hn).mpr all)
    · rw [w_modW]; exact gathered_not_all hn open_ (mt (allArrived_gathered hn).mp not)
  · obtain ⟨t, ran, only, regs, on, left⟩ := meetLeave_closed hn acts closed
    exact ⟨t, ran, ⟨only, regs⟩, on, left⟩

end Sys2Proof.Proofs
end

section
/-! # Blocks and banks: masks and counts -/

namespace Sys2Proof.Proofs

open Machine Laws

/-! ## The lowest and the highest bits of a mask -/

/-- A number with a property is among the first c if fewer than c stand before it. -/
theorem mem_take_filter_range (p : Nat → Bool) (c i : Nat) : ∀ n, i ∈ ((List.range n).filter p).take c ↔
    i < n ∧ p i = true ∧ ((List.range i).filter p).length < c
  | 0 => by simp
  | n + 1 => by
    rw [List.range_succ, List.filter_append, List.take_append, List.mem_append, mem_take_filter_range p c i n]
    by_cases hi : i = n
    · subst hi
      cases hp : p i <;> simp [hp, List.mem_take_iff_getElem]
    · have last : i ∉ List.take (c - ((List.range n).filter p).length) ([n].filter p) := fun h => by
        have := List.mem_of_mem_take h
        simp at this
        exact hi this.1
      rw [or_iff_left last]
      exact and_congr_left fun _ => by omega
/-- A number with a property is among the last c if fewer than c stand after it. -/
theorem mem_take_reverse_range (p : Nat → Bool) (i : Nat) : ∀ n c, i ∈ ((List.range n).filter p).reverse.take c ↔
    i < n ∧ p i = true ∧ ((List.range n).filter fun j => decide (i < j) && p j).length < c
  | 0, c => by simp
  | n + 1, c => by
    have after : ((List.range n).filter fun j => decide (n < j) && p j) = [] :=
      List.filter_eq_nil_iff.mpr fun j hj => by simp [Nat.not_lt.mpr (Nat.le_of_lt (List.mem_range.mp hj))]
    cases hp : p n with
    | false =>
      have skip : ((List.range (n + 1)).filter p) = (List.range n).filter p := by simp [List.range_succ, hp]
      have skip' : ((List.range (n + 1)).filter fun j => decide (i < j) && p j) = (List.range n).filter fun j => decide (i < j) && p j := by
        simp [List.range_succ, hp]
      rw [skip, skip', mem_take_reverse_range p i n c]
      refine ⟨fun ⟨lt, h⟩ => ⟨by omega, h⟩, fun ⟨lt, h⟩ => ⟨?_, h⟩⟩
      have : i ≠ n := fun e => by rw [e, hp] at h; exact Bool.false_ne_true h.1
      omega
    | true =>
      have snoc : ((List.range (n + 1)).filter p) = (List.range n).filter p ++ [n] := by simp [List.range_succ, hp]
      rw [snoc, List.reverse_append, List.reverse_singleton, List.singleton_append]
      by_cases hi : i = n
      · subst hi
        have none : ((List.range (i + 1)).filter fun j => decide (i < j) && p j) = [] := by
          rw [List.range_succ, List.filter_append, after]; simp
        rw [none]
        cases c <;> simp [hp]
      · have more : i < n → ((List.range (n + 1)).filter fun j => decide (i < j) && p j) = (List.range n).filter (fun j => decide (i < j) && p j) ++ [n] :=
          fun lt => by simp [List.range_succ, hp, lt]
        cases c with
        | zero => simp
        | succ c =>
          rw [List.take_succ_cons, List.mem_cons, or_iff_right hi, mem_take_reverse_range p i n c]
          refine ⟨fun ⟨lt, h, few⟩ => ⟨by omega, h, ?_⟩, fun ⟨lt, h, few⟩ => ⟨by omega, h, ?_⟩⟩
          · rw [more lt, List.length_append]; exact Nat.succ_lt_succ few
          · rw [more (by omega), List.length_append] at few; exact Nat.lt_of_succ_lt_succ few

theorem mem_lowBanks (v : W64) (c : Nat) {i : Nat} (hi : i < 64) : i ∈ lowBanks v c ↔ amongLowest v c i = true := by
  rw [lowBanks, bitsOf, mem_take_filter_range, amongLowest, Bool.and_eq_true, decide_eq_true_eq]
  exact and_iff_right hi
theorem mem_highBanks (v : W64) (c : Nat) {i : Nat} (hi : i < 64) : i ∈ highBanks v c ↔ amongHighest v c i = true := by
  rw [highBanks, bitsOf, mem_take_reverse_range, amongHighest, Bool.and_eq_true, decide_eq_true_eq]
  exact and_iff_right hi
theorem lt_of_mem_bitsOf {v : W64} {i : Nat} (h : i ∈ bitsOf v) : i < 64 := ((mem_bitsOf v i).mp h).1

/-! ## The mask of a list of banks -/

theorem getLsbD_bit64 (b : Nat) {i : Nat} (hi : i < 64) : (bit64 b).getLsbD i = decide (b = i) := by
  rw [bit64, BitVec.getLsbD_ofNat, decide_eq_true hi, Bool.true_and, Nat.testBit_two_pow]
theorem getLsbD_bankMask (l : List Nat) {i : Nat} (hi : i < 64) : (bankMask l).getLsbD i = decide (i ∈ l) := by
  have fold : ∀ (l : List Nat) (m : W64), (l.foldl (fun m b => m ||| bit64 b) m).getLsbD i = (m.getLsbD i || decide (i ∈ l)) := by
    intro l
    induction l with
    | nil => simp
    | cons b r ih =>
      intro m
      rw [List.foldl_cons, ih, BitVec.getLsbD_or, getLsbD_bit64 b hi, Bool.or_assoc, ← Bool.decide_or]
      simp [eq_comm]
  rw [bankMask, fold]; simp
theorem getLsbD_bankMask_low (v : W64) (c : Nat) {i : Nat} (hi : i < 64) : (bankMask (lowBanks v c)).getLsbD i = amongLowest v c i := by
  rw [getLsbD_bankMask _ hi, Bool.eq_iff_iff, decide_eq_true_eq, mem_lowBanks v c hi]
theorem getLsbD_bankMask_high (v : W64) (c : Nat) {i : Nat} (hi : i < 64) : (bankMask (highBanks v c)).getLsbD i = amongHighest v c i := by
  rw [getLsbD_bankMask _ hi, Bool.eq_iff_iff, decide_eq_true_eq, mem_highBanks v c hi]
/-- A mask of banks is taken from a register, or given to it. -/
theorem getLsbD_and_not_mask (v m : W64) {i : Nat} (hi : i < 64) : (v &&& ~~~m).getLsbD i = (v.getLsbD i && !m.getLsbD i) := by
  rw [BitVec.getLsbD_and, BitVec.getLsbD_not, decide_eq_true hi, Bool.true_and]

/-! ## Counts of blocks -/

theorem popW_setWidth (v : BitVec 4) : popW (v.setWidth 64) = ones v := by
  revert v; decide
theorem sum_map_filter_le {α : Type} {p q : α → Bool} {f g : α → Nat} (h : ∀ x, (if p x then f x else 0) ≤ if q x then g x else 0) :
    ∀ l : List α, ((l.filter p).map f).sum ≤ ((l.filter q).map g).sum
  | [] => Nat.le_refl 0
  | x :: r => by
    have one := h x
    have rest := sum_map_filter_le h r
    cases hp : p x <;> cases hq : q x <;> simp [hp, hq] at one ⊢ <;> omega

end Sys2Proof.Proofs
end

section
/-! # Taking and giving -/

namespace Sys2Proof.Proofs

open Machine Laws

section
variable {s u : State} {r : TakeReq}

/-! ## The queue of a group's pools (R103) -/

theorem servePools_of_none {gk : Nat} (h : (u.group gk).takeQ = []) : u.servePools gk = u := by rw [State.servePools, h]; rfl
theorem group_advance (u : State) : u.advance.w.group = u.w.group := by rw [State.advance, finish_w, w_modW]; rfl
/-- An end of an issue with no request waiting serves none. -/
theorem servePools_advance (h : (u.group u.w.group).takeQ = []) : u.advance.servePools u.advance.w.group = u.advance := by
  rw [group_advance]; exact servePools_of_none h

/-- The issue set waits, and its request has joined the queue. -/
def asked (s : State) (r : TakeReq) : State := (s.holdAll .take).modG fun g => { g with takeQ := g.takeQ ++ [(s.iss.key, s.iss.set, r)] }
theorem take_eq {req : State → TakeReq} {size : State → Nat} {limit : Group → Nat} {detail : State → Nat} (h : NoTx s) (fits : size s ≤ limit s.g) :
    s.take req size limit detail = .next ((asked s (req s)).servePools (asked s (req s)).w.group) := by
  simp only [State.take, txGuard_of_noTx h, emptied_of_noTx h, Bool.false_eq_true, if_false, if_neg (Nat.not_lt.mpr fits)]
  rfl
theorem group_holdAll (s : State) (h : Hold) : (s.holdAll h).w.group = s.w.group := by
  have special := congrArg Warp.group (waits_holdAll s h).special
  exact special
theorem w_asked : (asked s r).w = (s.holdAll .take).w := rfl
theorem mem_asked : (asked s r).mem = s.mem := by
  rw [asked, State.modG, modGroup_mem, State.holdAll, finish_mem, State.hold, modW_mem]
theorem group_asked : (asked s r).w.group = s.w.group := group_holdAll s .take
theorem asked_group (none : NoTakes s) : (asked s r).group s.w.group = { s.g with takeQ := [(s.iss.key, s.iss.set, r)] } := by
  have same : (s.holdAll .take).group s.w.group = s.g := rfl
  have own := group_modGroup (s.holdAll .take) (s.holdAll .take).w.group fun g => { g with takeQ := g.takeQ ++ [(s.iss.key, s.iss.set, r)] }
  rw [group_holdAll, same, none] at own
  rw [asked, State.modG, group_holdAll]
  exact own

/-- A request that can be granted leaves the queue. -/
def served (s : State) (r : TakeReq) : State :=
  ((asked s r).grant s.w.group s.iss.key s.iss.set r).modGroup s.w.group fun g =>
    { g with takeQ := g.takeQ.filter fun x => !(x.1 = s.iss.key && x.2.1 = s.iss.set) }
theorem servePools_asked (none : NoTakes s) (can : (asked s r).canTake ((asked s r).group s.w.group) s.iss.key r = true) :
    (asked s r).servePools (asked s r).w.group = served s r := by
  rw [group_asked, State.servePools, asked_group none]
  cases r <;> simp only [State.grantTakes, can, Bool.false_eq_true, if_false, if_true] <;> rfl

/-- Threads that have waited for a grant go on. -/
def wokenFrom (set : W32) (w : Warp) : Warp :=
  { (w.modThreads set fun t => { t with pc := t.pc + 4, status := .eligible }) with parks := w.parks.filter fun q => !(q.set = set && q.hold = Hold.take) }
theorem pc_holdAll (s : State) (h : Hold) {L : Nat} (hL : L < 32) : ((s.holdAll h).w.thread L).pc = (s.w.thread L).pc := by
  have rest := congrArg Thread.pc ((waits_holdAll s h).rest L hL)
  exact rest
/-- A granted issue set goes on at the next word. -/
theorem woken_goes {w : Warp} (at_ : AtIssue s) (threads : w.threads = (s.holdAll .take).w.threads) {L : Nat} (hL : L < 32)
    (in_ : s.iss.set.getLsbD L = true) :
    ((wokenFrom s.iss.set w).thread L).pc = s.iss.base + 4 ∧ ((wokenFrom s.iss.set w).thread L).status = .eligible := by
  have thread : (wokenFrom s.iss.set w).thread L = { w.thread L with pc := (w.thread L).pc + 4, status := .eligible } :=
    (modThreads_thread w _ (fun t => { t with pc := t.pc + 4, status := .eligible }) L hL).trans (if_pos in_)
  have place : (w.thread L).pc = s.iss.base := (congrArg Thread.pc (thread_of_threads threads L)).trans ((pc_holdAll s .take hL).trans (at_ L hL in_))
  rw [thread, ← place]
  exact ⟨rfl, rfl⟩

/-! ## TAKE.V -/

theorem vext_holdAll (s : State) (h : Hold) : (s.holdAll h).w.vext = s.w.vext := by
  have special := congrArg Warp.vext (waits_holdAll s h).special
  exact special
theorem warps_modW (u : State) (f : Warp → Warp) : (u.modW f).warps = tput u.warps u.iss.key (u.modW f).w := by rw [w_modW]; rfl
theorem warps_finish (u : State) : u.finish.warps = tput u.warps u.iss.key u.finish.w := by unfold State.finish; exact warps_modW u _
theorem tget?_asked (x : Nat) : tget? (asked s r).warps x = if x = s.iss.key then some (s.holdAll .take).w else tget? s.warps x := by
  have outer : (asked s r).warps = tput (s.hold s.iss.set .take).warps s.iss.key (s.holdAll .take).w := warps_finish _
  have inner : (s.hold s.iss.set .take).warps = tput s.warps s.iss.key (s.hold s.iss.set .take).w := warps_modW s _
  rw [outer, inner, tget?_tput, tget?_tput]
  split <;> rfl
theorem warpKeys_asked (none : NoTakes s) (k : Nat) : ((asked s r).group k).warpKeys = (s.group k).warpKeys := by
  by_cases own : k = s.w.group
  · rw [own, asked_group none]; rfl
  · have other := group_modGroup_ne (s.holdAll .take) (fun g => { g with takeQ := g.takeQ ++ [(s.iss.key, s.iss.set, r)] })
      (h := fun e => own (e.trans (group_holdAll s .take)))
    exact congrArg Group.warpKeys other
/-- A warp that is placed in a group. -/
def memberOf (u : State) (k x : Nat) : Bool := match tget? u.warps x with | some w => w.group = k | none => false
theorem groupWarps_eq (u : State) (k : Nat) : u.groupWarps k = (u.group k).warpKeys.filter (memberOf u k) := rfl
/-- A request does not change the blocks that a warp holds for a group. -/
theorem blocks_asked (k x : Nat) :
    (if memberOf (asked s r) k x then popW (((asked s r).warp x).vext.setWidth 64) else 0) ≤ if memberOf s k x then ones (s.warp x).vext else 0 := by
  by_cases own : x = s.iss.key
  · have now : (asked s r).warp x = (s.holdAll .take).w := by rw [own]; exact w_asked (r := r)
    rw [memberOf, memberOf, tget?_asked, if_pos own, now, vext_holdAll, popW_setWidth, own]
    show (if decide ((s.holdAll .take).w.group = k) then _ else _) ≤ _
    rw [group_holdAll]
    cases was : tget? s.warps s.iss.key with
    | some w =>
      have same : s.w = w := by rw [State.w, State.warp, tget, was]; rfl
      have same' : s.warp s.iss.key = w := same
      rw [same, same']
    | none =>
      have start : s.w = Warp.start := by rw [State.w, State.warp, tget, was]; rfl
      have bare : ones Warp.start.vext = 0 := by decide
      rw [start, bare, ite_self]
      exact Nat.zero_le _
  · have stands : (asked s r).warp x = s.warp x := by rw [State.warp, State.warp, tget, tget, tget?_asked, if_neg own]
    rw [memberOf, memberOf, tget?_asked, if_neg own, stands, popW_setWidth]
theorem vextUsed_asked (none : NoTakes s) :
    (asked s r).vextUsed ((asked s r).group s.w.group) ≤ ((s.groupWarps s.g.key).map fun k => ones (s.warp k).vext).sum := by
  have key : ((asked s r).group s.w.group).key = s.g.key := by rw [asked_group none]; rfl
  rw [State.vextUsed, key, groupWarps_eq, groupWarps_eq, warpKeys_asked none]
  exact sum_map_filter_le (blocks_asked s.g.key) _

theorem w_served_v (m : BitVec 4) :
    (served s (.v m)).w = wokenFrom s.iss.set ((s.holdAll .take).w.gainBlocks (m &&& ~~~s.w.vext)) := by
  show ((asked s (.v m)).grant s.w.group s.iss.key s.iss.set (.v m)).warp s.iss.key = _
  have asker : (asked s (.v m)).warp s.iss.key = (s.holdAll .take).w := w_asked (r := .v m)
  rw [State.grant, warp_modWarp, warp_modWarp, asker, vext_holdAll]
  rfl
theorem mem_served_v (m : BitVec 4) : (served s (.v m)).mem = s.mem := by
  rw [served, modGroup_mem, State.grant, modWarp_mem, modWarp_mem, mem_asked]
theorem execTakeV_eq {m : Nat} (none : NoTakes s) (h : NoTx s) (fits : ones (BitVec.ofNat 4 m &&& ~~~s.w.vext) ≤ s.g.xreg)
    (room : ((s.groupWarps s.g.key).map fun k => ones (s.warp k).vext).sum + ones (BitVec.ofNat 4 m &&& ~~~s.w.vext) ≤ s.g.xreg) :
    exec (.takeV m) s = .next (served s (.v (BitVec.ofNat 4 m))) := by
  have asker : (asked s (.v (BitVec.ofNat 4 m))).warp s.iss.key = (s.holdAll .take).w := w_asked (r := .v (BitVec.ofNat 4 m))
  have pool : ((asked s (.v (BitVec.ofNat 4 m))).group s.w.group).xreg = s.g.xreg := by rw [asked_group none]
  have can : (asked s (.v (BitVec.ofNat 4 m))).canTake ((asked s (.v (BitVec.ofNat 4 m))).group s.w.group) s.iss.key (.v (BitVec.ofNat 4 m)) = true := by
    rw [State.canTake, asker, vext_holdAll, popW_setWidth, pool, decide_eq_true_eq]
    exact (Nat.add_le_add_right (vextUsed_asked none) _).trans room
  have taken := take_eq (req := fun _ => .v (BitVec.ofNat 4 m)) (size := fun s => popW ((BitVec.ofNat 4 m &&& ~~~s.w.vext).setWidth 64))
    (limit := (·.xreg)) (detail := fun s => (BitVec.ofNat 4 m &&& ~~~s.w.vext).toNat) h ((popW_setWidth _).trans_le fits)
  rw [← servePools_asked none can]
  exact taken

theorem regs_holdAll (s : State) (h : Hold) : (s.holdAll h).w.sregs = s.w.sregs ∧ (s.holdAll h).w.vregs = s.w.vregs ∧ (s.holdAll h).w.mregs = s.w.mregs :=
  (waits_holdAll s h).regs
theorem vget_replicate_default {α : Type} (d : α) (n i : Nat) : vget d (Vector.replicate n d) i = d := by
  rw [vget, List.getD_eq_getElem?_getD, Vector.toList_replicate, List.getElem?_replicate]
  split <;> rfl
/-- R168: TAKE.V gains the blocks of its mask that the warp lacks, zeroed. -/
theorem takeV_gains (m : Nat) (none : NoTakes s) (at_ : AtIssue s) (h : NoTx s) (fits : ones (BitVec.ofNat 4 m &&& ~~~s.w.vext) ≤ s.g.xreg)
    (room : ((s.groupWarps s.g.key).map fun k => ones (s.warp k).vext).sum + ones (BitVec.ofNat 4 m &&& ~~~s.w.vext) ≤ s.g.xreg) :
    Completes (.takeV m) s fun t =>
      SameMemory s t ∧
      (∀ L, L < 32 → s.iss.set.getLsbD L = true → (t.w.thread L).pc = s.iss.base + 4 ∧ (t.w.thread L).status = .eligible) ∧
      t.w.vext = s.w.vext ||| BitVec.ofNat 4 m ∧
      (∀ n L, n < 128 → t.w.rdV n L = if 96 ≤ n ∧ (BitVec.ofNat 4 m &&& ~~~s.w.vext).getLsbD ((n - 96) / 8) = true then 0 else s.w.rdV n L) ∧
      (∀ n, t.rdS n = s.rdS n) ∧ ∀ n, t.w.rdM n = s.w.rdM n := by
  obtain ⟨sregs, vregs, mregs⟩ := regs_holdAll s .take
  have gained := w_served_v (s := s) (BitVec.ofNat 4 m)
  refine ⟨_, execTakeV_eq none h fits room, fun a => by rw [mem_served_v], fun L hL in_ => ?_, ?_, fun n L hn => ?_, fun n => ?_, fun n => ?_⟩
  · rw [gained]; exact woken_goes at_ rfl hL in_
  · rw [gained]
    show (s.holdAll .take).w.vext ||| (BitVec.ofNat 4 m &&& ~~~s.w.vext) = _
    rw [vext_holdAll]
    ext i
    simp only [BitVec.getElem_or, BitVec.getElem_and, BitVec.getElem_not]
    cases s.w.vext[i] <;> simp
  · rw [gained]
    show vget 0 (vget _ (vtab 128 _) n) L = _
    rw [vget_vtab, if_pos hn, vregs]
    simp only [Bool.and_eq_true, decide_eq_true_eq]
    split
    · exact vget_replicate_default 0 32 L
    · rfl
  · show vget 0 (served s (.v (BitVec.ofNat 4 m))).w.sregs n = _
    rw [gained]
    exact congrArg (vget 0 · n) sregs
  · rw [Warp.rdM, gained]
    exact congrArg (fun r => if n = 0 then _ else vget 0 r n) mregs

/-! ## TAKE.A -/

/-- Banks of a core are zeroed. -/
def zeroBanks (u : State) (core : Nat) (bs : List Nat) : State := bs.foldl (fun u b => u.zeroBank core b) u
/-- Zeroing banks changes the memory and the banks alone. -/
theorem zeroBanks_rest (core : Nat) : ∀ (bs : List Nat) (u : State), (zeroBanks u core bs).warps = u.warps ∧
    (zeroBanks u core bs).groups = u.groups ∧ (zeroBanks u core bs).iss = u.iss ∧ (zeroBanks u core bs).pkg = u.pkg
  | [], _ => ⟨rfl, rfl, rfl, rfl⟩
  | b :: bs, u => zeroBanks_rest core bs (u.zeroBank core b)
/-- The bytes of the banks read 0, and the others as before (R105). -/
theorem read_zeroBanks (core a : Nat) : ∀ (bs : List Nat) (u : State), MemoryCanonical u → Memory.read (zeroBanks u core bs).mem a =
    if ∃ b ∈ bs, windowBase u.pkg core + 0x100000 + b * 0x4000 ≤ a ∧ a < windowBase u.pkg core + 0x100000 + (b + 1) * 0x4000 then 0
    else Memory.read u.mem a
  | [], _, _ => by simp [zeroBanks]
  | b :: bs, u, canon => by
    have one : Memory.read (u.zeroBank core b).mem a = _ := read_filter canon
      (fun x => !(decide (windowBase u.pkg core + 0x100000 + b * 0x4000 ≤ x) && decide (x < windowBase u.pkg core + 0x100000 + b * 0x4000 + 0x4000))) a
    have rest := read_zeroBanks core a bs _ (zeroBank_canonical canon core b)
    have same : (u.zeroBank core b).pkg = u.pkg := rfl
    rw [same] at rest
    refine rest.trans ?_
    rw [one]
    simp only [List.exists_mem_cons_iff, Nat.succ_mul, ← Nat.add_assoc]
    by_cases head : windowBase u.pkg core + 0x100000 + b * 0x4000 ≤ a ∧ a < windowBase u.pkg core + 0x100000 + b * 0x4000 + 0x4000
    · simp [head]
    · have head' : (!(decide (windowBase u.pkg core + 0x100000 + b * 0x4000 ≤ a) &&
          decide (a < windowBase u.pkg core + 0x100000 + b * 0x4000 + 0x4000))) = true := by
        rw [← Bool.decide_and, decide_eq_false head]; rfl
      rw [if_pos head']
      simp only [head, false_or]

section
variable (s) (c : Nat)
/-- The banks of a TAKE.A, and the records of the group and the warp that take them. -/
def takenBanks : List Nat := lowBanks s.g.poolFree c
def poolTaken (bs : List Nat) (g : Group) : Group := { g with poolFree := g.poolFree &&& ~~~(bankMask bs), own := g.own ||| bankMask bs }
def warpTaken (bs : List Nat) (w : Warp) : Warp := { w with acch := w.acch ||| bankMask bs }
/-- The state with the banks zeroed. -/
def banksClear : State := zeroBanks (asked s (.a c)) s.g.core (takenBanks s c)

theorem iss_banksClear : (banksClear s c).iss = s.iss := (zeroBanks_rest _ _ _).2.2.1
theorem warp_banksClear : (banksClear s c).warp s.iss.key = (s.holdAll .take).w :=
  (congrArg (tget Warp.start · s.iss.key) (zeroBanks_rest _ _ _).1).trans (w_asked (r := .a c))
theorem group_banksClear (none : NoTakes s) : (banksClear s c).group s.w.group = { s.g with takeQ := [(s.iss.key, s.iss.set, .a c)] } :=
  (congrArg (tget Group.none · s.w.group) (zeroBanks_rest _ _ _).2.1).trans (asked_group none)
theorem grant_a (none : NoTakes s) : (asked s (.a c)).grant s.w.group s.iss.key s.iss.set (.a c) =
    (((banksClear s c).modGroup s.w.group (poolTaken (takenBanks s c))).modWarp s.iss.key (warpTaken (takenBanks s c))).modWarp s.iss.key
      (wokenFrom s.iss.set) := by
  rw [State.grant]
  simp only [asked_group none]
  rfl
theorem w_served_a (none : NoTakes s) :
    (served s (.a c)).w = wokenFrom s.iss.set (warpTaken (takenBanks s c) (s.holdAll .take).w) := by
  have key : (served s (.a c)).iss = s.iss := by
    rw [served, grant_a s c none]
    exact iss_banksClear s c
  rw [State.w, key, served, grant_a s c none]
  exact (warp_modWarp _ _ _).trans (congrArg _ ((warp_modWarp _ _ _).trans (congrArg _ (warp_banksClear s c))))
theorem group_modWarp (u : State) (k j : Nat) (f : Warp → Warp) : (u.modWarp k f).group j = u.group j := rfl
theorem g_served_a (none : NoTakes s) : (served s (.a c)).g = { poolTaken (takenBanks s c) s.g with takeQ := [] } := by
  have key : (served s (.a c)).w.group = s.w.group := (congrArg Warp.group (w_served_a s c none)).trans (group_holdAll s .take)
  rw [State.g, key, served, group_modGroup, grant_a s c none, group_modWarp, group_modWarp, group_modGroup, group_banksClear s c none]
  simp [poolTaken]
theorem mem_served_a (none : NoTakes s) : (served s (.a c)).mem = (banksClear s c).mem := by
  rw [served, modGroup_mem, grant_a s c none, modWarp_mem, modWarp_mem, modGroup_mem]
end
theorem execTakeA_eq {c : Nat} (none : NoTakes s) (h : NoTx s) (fits : c ≤ ones s.g.pool) (room : c ≤ ones s.g.poolFree) :
    exec (.takeA c) s = .next (served s (.a c)) := by
  have can : (asked s (.a c)).canTake ((asked s (.a c)).group s.w.group) s.iss.key (.a c) = true := by
    rw [State.canTake, asked_group none, decide_eq_true_eq]; exact room
  rw [← servePools_asked none can]
  exact take_eq (req := fun _ => .a c) (size := fun _ => c) (limit := fun g => popW g.pool) (detail := fun _ => c) h fits

theorem files_warpTaken (set : W32) (bs : List Nat) (w : Warp) : (wokenFrom set (warpTaken bs w)).sregs = w.sregs ∧
    (wokenFrom set (warpTaken bs w)).vregs = w.vregs ∧ (wokenFrom set (warpTaken bs w)).mregs = w.mregs := ⟨rfl, rfl, rfl⟩
theorem acch_warpTaken (set : W32) (bs : List Nat) (w : Warp) : (wokenFrom set (warpTaken bs w)).acch = w.acch ||| bankMask bs := rfl
theorem acch_holdAll (s : State) (h : Hold) : (s.holdAll h).w.acch = s.w.acch := by
  have special := congrArg Warp.acch (waits_holdAll s h).special
  exact special
theorem mem_takenBanks (c : Nat) {i : Nat} : i ∈ takenBanks s c ↔ i < 64 ∧ amongLowest s.g.poolFree c i = true :=
  ⟨fun h => have lt := lt_of_mem_bitsOf (List.mem_of_mem_take h); ⟨lt, (mem_lowBanks _ c lt).mp h⟩, fun ⟨lt, h⟩ => (mem_lowBanks _ c lt).mpr h⟩
/-- R168, R314: TAKE.A takes the lowest free banks of the pool, zeroed. -/
theorem takeA_takes (c : Nat) (none : NoTakes s) (at_ : AtIssue s) (canon : MemoryCanonical s) (h : NoTx s) (fits : c ≤ ones s.g.pool)
    (room : c ≤ ones s.g.poolFree) :
    Completes (.takeA c) s fun t =>
      (∀ L, L < 32 → s.iss.set.getLsbD L = true → (t.w.thread L).pc = s.iss.base + 4 ∧ (t.w.thread L).status = .eligible) ∧
      RegsKept s t noReg noLane noReg ∧
      (∀ i, i < 64 →
        (t.w.acch.getLsbD i = (s.w.acch.getLsbD i || amongLowest s.g.poolFree c i)) ∧
        (t.g.own.getLsbD i = (s.g.own.getLsbD i || amongLowest s.g.poolFree c i)) ∧
        (t.g.poolFree.getLsbD i = (s.g.poolFree.getLsbD i && !amongLowest s.g.poolFree c i))) ∧
      ∀ a, ((∃ i, i < 64 ∧ amongLowest s.g.poolFree c i = true ∧ windowBase s.pkg s.g.core + 0x100000 + i * 0x4000 ≤ a ∧
            a < windowBase s.pkg s.g.core + 0x100000 + (i + 1) * 0x4000) → Memory.read t.mem a = 0) ∧
        ((¬∃ i, i < 64 ∧ amongLowest s.g.poolFree c i = true ∧ windowBase s.pkg s.g.core + 0x100000 + i * 0x4000 ≤ a ∧
            a < windowBase s.pkg s.g.core + 0x100000 + (i + 1) * 0x4000) → Memory.read t.mem a = Memory.read s.mem a) := by
  have warp := w_served_a s c none
  have group := g_served_a s c none
  refine ⟨_, execTakeA_eq none h fits room, fun L hL in_ => ?_, regsKept_of_files ?_, fun i hi => ⟨?_, ?_, ?_⟩, fun a => ?_⟩
  · rw [warp]; exact woken_goes at_ rfl hL in_
  · obtain ⟨sregs, vregs, mregs⟩ := files_warpTaken s.iss.set (takenBanks s c) (s.holdAll .take).w
    rw [warp, sregs, vregs, mregs]
    exact regs_holdAll s .take
  · rw [warp, acch_warpTaken, acch_holdAll, BitVec.getLsbD_or, takenBanks, getLsbD_bankMask_low _ _ hi]
  · rw [group]
    show (s.g.own ||| bankMask (takenBanks s c)).getLsbD i = _
    rw [BitVec.getLsbD_or, takenBanks, getLsbD_bankMask_low _ _ hi]
  · rw [group]
    show (s.g.poolFree &&& ~~~bankMask (takenBanks s c)).getLsbD i = _
    rw [getLsbD_and_not_mask _ _ hi, takenBanks, getLsbD_bankMask_low _ _ hi]
  · have canon' : MemoryCanonical (asked s (.a c)) := canonical_of_mem canon mem_asked
    have read := read_zeroBanks s.g.core a (takenBanks s c) _ canon'
    have pkg : (asked s (.a c)).pkg = s.pkg := rfl
    rw [pkg, mem_asked] at read
    simp only [mem_takenBanks, and_assoc] at read
    rw [mem_served_a s c none, banksClear, read]
    exact ⟨fun inside => if_pos inside, fun outside => if_neg outside⟩

/-! ## GIVE.V and GIVE.A -/

def blocksGiven (m : Nat) (w : Warp) : Warp := { w with vext := w.vext &&& ~~~(BitVec.ofNat 4 m) }
/-- R168: GIVE.V gives blocks up. -/
theorem giveV_gives (m : Nat) (none : NoTakes s) (landed : s.w.flights = []) :
    Completes (.giveV m) s (WarpBecomes s · { s.w with vext := s.w.vext &&& ~~~(BitVec.ofNat 4 m) } (s.iss.base + 4)) := by
  have ran : exec (.giveV m) s = .next ((s.modW (blocksGiven m)).advance.servePools (s.modW (blocksGiven m)).advance.w.group) := by
    show (if s.w.flights != [] then _ else _) = _
    rw [landed]; rfl
  have queue : ((s.modW (blocksGiven m)).group (s.modW (blocksGiven m)).w.group).takeQ = [] := by rw [w_modW]; exact none
  rw [servePools_advance queue] at ran
  exact ⟨_, ran, warpBecomes_modW rfl rfl⟩

/-- The records of banks of a core are emptied. -/
def bandsEmptied (u : State) (core : Nat) (bs : List Nat) : State := bs.foldl (fun u b => u.modBand core b fun _ => Band.zero) u
theorem bandsEmptied_rest (core : Nat) : ∀ (bs : List Nat) (u : State), (bandsEmptied u core bs).warps = u.warps ∧
    (bandsEmptied u core bs).groups = u.groups ∧ (bandsEmptied u core bs).iss = u.iss ∧ (bandsEmptied u core bs).mem = u.mem
  | [], _ => ⟨rfl, rfl, rfl, rfl⟩
  | b :: bs, u => bandsEmptied_rest core bs (u.modBand core b fun _ => Band.zero)
/-- The records of the group and the warp that give banks. -/
def poolGiven (bs : List Nat) (g : Group) : Group := { g with own := g.own &&& ~~~(bankMask bs), poolFree := g.poolFree ||| bankMask bs }
def warpGiven (bs : List Nat) (w : Warp) : Warp := { w with acch := w.acch &&& ~~~(bankMask bs) }

section
variable (s) (bs : List Nat)
theorem giveBanks_eq : s.giveBanks s.iss.key bs =
    ((bandsEmptied s s.g.core bs).modGroup s.w.group (poolGiven bs)).modWarp s.iss.key (warpGiven bs) := rfl
theorem iss_giveBanks : (s.giveBanks s.iss.key bs).iss = s.iss := by
  rw [giveBanks_eq]; exact (bandsEmptied_rest _ _ _).2.2.1
theorem mem_giveBanks : (s.giveBanks s.iss.key bs).mem = s.mem := by
  rw [giveBanks_eq, modWarp_mem, modGroup_mem]; exact (bandsEmptied_rest _ _ _).2.2.2
theorem w_giveBanks : (s.giveBanks s.iss.key bs).w = warpGiven bs s.w := by
  rw [State.w, iss_giveBanks, giveBanks_eq, warp_modWarp]
  exact congrArg (fun t => warpGiven bs (tget Warp.start t s.iss.key)) (bandsEmptied_rest _ _ _).1
theorem group_giveBanks : (s.giveBanks s.iss.key bs).group s.w.group = poolGiven bs s.g := by
  rw [giveBanks_eq, group_modWarp, group_modGroup]
  exact congrArg (fun t => poolGiven bs (tget Group.none t s.w.group)) (bandsEmptied_rest _ _ _).2.1
end
/-- The banks of a GIVE.A, and the state that has given them. -/
def givenBanks (s : State) (c : Nat) : List Nat := highBanks s.w.acch c
def banksGiven (s : State) (c : Nat) : State := s.giveBanks s.iss.key (givenBanks s c)
/-- R314: GIVE.A gives the highest banks of the warp that no matrix operation names. -/
theorem giveA_gives (c : Nat) (none : NoTakes s) (landed : s.w.flights = [])
    (unnamed : ∀ o ∈ s.g.matQ, ∀ b ∈ o.kind.bands, amongHighest s.w.acch c (b % 64) = false) :
    Completes (.giveA c) s fun t =>
      SameMemory s t ∧ RegsKept s t noReg noLane noReg ∧ GoOn s t s.iss.set (s.iss.base + 4) ∧
      ∀ i, i < 64 → (t.w.acch.getLsbD i = (s.w.acch.getLsbD i && !amongHighest s.w.acch c i)) ∧
        (t.g.own.getLsbD i = (s.g.own.getLsbD i && !amongHighest s.w.acch c i)) ∧
        (t.g.poolFree.getLsbD i = (s.g.poolFree.getLsbD i || amongHighest s.w.acch c i)) := by
  have free : s.g.namesBank (givenBanks s c) = false := by
    simp only [Group.namesBank, List.any_eq_false, List.contains_eq_mem, decide_eq_true_eq, Bool.not_eq_true]
    intro o ho b hb
    rw [givenBanks, mem_highBanks _ _ (Nat.mod_lt b (by decide)), unnamed o ho b hb]
    exact Bool.false_ne_true
  have warp : (banksGiven s c).w = warpGiven (givenBanks s c) s.w := w_giveBanks s _
  have group : (banksGiven s c).group s.w.group = poolGiven (givenBanks s c) s.g := group_giveBanks s _
  have threads : (banksGiven s c).w.threads = s.w.threads := by rw [warp]; rfl
  have key : (banksGiven s c).w.group = s.w.group := by rw [warp]; rfl
  have key' : (banksGiven s c).advance.w.group = s.w.group := (group_advance _).trans key
  have queue : ((banksGiven s c).group (banksGiven s c).w.group).takeQ = [] := by rw [key, group]; exact none
  have ran : exec (.giveA c) s = .next (banksGiven s c).advance := by
    rw [← servePools_advance queue]
    show (if s.g.namesBank (givenBanks s c) || s.w.flights != [] then _ else _) = _
    rw [free, landed]; rfl
  have special : (banksGiven s c).advance.w.special = (banksGiven s c).w.special := by rw [advance_eq_jump, jump_special]
  have acch : (banksGiven s c).advance.w.acch = s.w.acch &&& ~~~(bankMask (givenBanks s c)) := by
    have same := congrArg Warp.acch special
    exact same.trans (congrArg Warp.acch warp)
  have pool : (banksGiven s c).advance.g = poolGiven (givenBanks s c) s.g := by rw [State.g, key']; exact group
  have regs : RegsKept s (banksGiven s c) noReg noLane noReg := regsKept_of_files (by rw [warp]; exact ⟨rfl, rfl, rfl⟩)
  refine ⟨_, ran, fun a => congrArg (Memory.read · a) (mem_giveBanks s _), ?_, goOn_advance s _ (iss_giveBanks s _) threads,
    fun i hi => ⟨?_, ?_, ?_⟩⟩
  · exact regsKept_finish (regsKept_modW regs fun _ => ⟨rfl, rfl, rfl⟩)
  · rw [acch, getLsbD_and_not_mask _ _ hi, givenBanks, getLsbD_bankMask_high _ _ hi]
  · rw [pool]
    show (s.g.own &&& ~~~bankMask (givenBanks s c)).getLsbD i = _
    rw [getLsbD_and_not_mask _ _ hi, givenBanks, getLsbD_bankMask_high _ _ hi]
  · rw [pool]
    show (s.g.poolFree ||| bankMask (givenBanks s c)).getLsbD i = _
    rw [BitVec.getLsbD_or, givenBanks, getLsbD_bankMask_high _ _ hi]

/-- Settles O28: a request alone in the queue of a group's pools is granted at once, and GIVE finds no request to serve. -/
theorem takesAndGivesMoveBlocksAndBanks : Obligations.TakesAndGivesMoveBlocksAndBanks := by
  intro s none at_ canon
  exact ⟨fun m h fits room => takeV_gains m none at_ h fits room, fun c h fits room => takeA_takes c none at_ canon h fits room,
    fun m landed => giveV_gives m none landed, fun c landed unnamed => giveA_gives c none landed unnamed⟩

end

end Sys2Proof.Proofs
end

section
/-! # Launch: the code and the identifier of a record -/

namespace Sys2Proof.Proofs

open Machine Laws

section
variable {s u : State} {die ctx : Nat} {bs : List Byte}

/-! ## The fields of a record (R148) -/

theorem recNat_lt (bs : List Byte) (o n : Nat) : recNat bs o n < 256 ^ n :=
  (leNat_lt _).trans_le (Nat.pow_le_pow_right (by decide) (List.length_take_le _ _))
theorem recW_toNat (bs : List Byte) (o : Nat) : (recW bs o).toNat = recNat bs o 8 :=
  (BitVec.toNat_ofNat _ 64).trans (Nat.mod_eq_of_lt (recNat_lt bs o 8))
theorem recMask_eq_zero : BitVec.ofNat 16 (recNat bs 42 2) = 0 ↔ recNat bs 42 2 = 0 := by
  have bound := recNat_lt bs 42 2
  rw [← BitVec.toNat_inj, BitVec.toNat_ofNat, Nat.mod_eq_of_lt (show _ < 2 ^ 16 from bound)]
  rfl
theorem within_eq_false {lo hi n : Nat} : within lo hi n = false ↔ n < lo ∨ hi < n := by
  rw [within, Bool.and_eq_false_iff, decide_eq_false_iff_not, decide_eq_false_iff_not, Nat.not_le, Nat.not_le]
/-- The translation test of SIGNAL fails where no translation ends in device memory. -/
theorem signalPa_isNone {signal : W64} : (s.signalPa die ctx signal).isNone = true ↔
    ∀ pa size nc, s.walk die ctx signal .write = .ok pa size nc → s.place pa ≠ .device := by
  unfold State.signalPa
  cases s.walk die ctx signal .write with
  | ok pa size nc => by_cases h : s.place pa = .device <;> simp [h]
  | miss => simp
  | malformed => simp
  | poison => simp
theorem malformed_iff : (LaunchRec.read bs).malformed bs = true ∨
      ((LaunchRec.read bs).signal != 0 && (s.signalPa die ctx (LaunchRec.read bs).signal).isNone) = true ↔ RecordBroken s die ctx bs := by
  simp only [LaunchRec.malformed, Bool.or_eq_true, Bool.and_eq_true, Bool.not_eq_true', bne_iff_ne, ne_eq, decide_eq_true_eq, within_eq_false,
    signalPa_isNone]
  simp only [LaunchRec.read, bfld, bbit, recW_toNat, recMask_eq_zero]
  simp only [RecordBroken, recNat, recW, ne_eq, pow_zero, Nat.div_one, Nat.not_lt_zero, false_or, Nat.reducePow]
  exact Iff.of_eq (by ac_rfl)

/-! ## The code of a record (R149) -/

/-- A record that is not broken has warps, and registers for them. -/
theorem sizes_of_sound (sound : ¬RecordBroken s die ctx bs) : 0 < recNat bs 29 1 ∧ 0 < recNat bs 32 1 := by
  simp only [RecordBroken, not_or, Nat.not_lt] at sound
  obtain ⟨-, -, -, -, -, -, -, -, -, ⟨warps, -⟩, -, -, -, -, ⟨regs, -⟩, -⟩ := sound
  exact ⟨warps, (Nat.succ_pos 7).trans_le regs⟩
theorem perCore_eq (warps : 0 < recNat bs 29 1) (regs : 0 < recNat bs 32 1) :
    let least := fun (need have_ rest : Nat) => if need = 0 then rest else min (have_ / need) rest
    (LaunchRec.read bs).perCore = least (recNat bs 29 1) 64 (least (recNat bs 29 1 * recNat bs 32 1 * 128 + recNat bs 35 1 * 1024) 1048576
      (least (recNat bs 33 1) 16 (least (recNat bs 34 1 + recNat bs 40 1) 64 (least (recNat bs 36 4) 786432 64)))) := by
  have bytes : recNat bs 29 1 * recNat bs 32 1 * 128 + recNat bs 35 1 * 1024 ≠ 0 := by
    have := Nat.mul_pos warps regs
    omega
  have few : 64 / recNat bs 29 1 ≤ 64 := Nat.div_le_self _ _
  simp only [LaunchRec.perCore, LaunchRec.read, if_neg bytes, if_neg (Nat.ne_of_gt warps)]
  generalize 64 / recNat bs 29 1 = slots at few ⊢
  generalize 1048576 / (recNat bs 29 1 * recNat bs 32 1 * 128 + recNat bs 35 1 * 1024) = regs
  generalize 16 / recNat bs 33 1 = tiles
  generalize 64 / (recNat bs 34 1 + recNat bs 40 1) = banks
  generalize 786432 / recNat bs 36 4 = scratch
  by_cases noTiles : recNat bs 33 1 = 0 <;> by_cases noBanks : recNat bs 34 1 + recNat bs 40 1 = 0 <;>
    by_cases noScratch : recNat bs 36 4 = 0 <;> simp only [noTiles, noBanks, noScratch, if_true, if_false] <;> omega
theorem unplaceable_iff (warps : 0 < recNat bs 29 1) (regs : 0 < recNat bs 32 1) : (LaunchRec.read bs).unplaceable = true ↔ RecordUnplaceable bs := by
  have k := perCore_eq warps regs
  simp only [LaunchRec.unplaceable, Bool.or_eq_true, Bool.and_eq_true, decide_eq_true_eq, or_assoc]
  rw [k]
  rfl
theorem launchCode_eq {code : Nat} (valid : s.ctxOk ctx = true) (h : RecordCode s die ctx bs code) : s.launchCode die ctx bs = code := by
  obtain ⟨one, two, three, small⟩ := h
  have broken : (!s.ctxOk ctx || (LaunchRec.read bs).malformed bs ||
      ((LaunchRec.read bs).signal != 0 && (s.signalPa die ctx (LaunchRec.read bs).signal).isNone)) = true ↔ RecordBroken s die ctx bs := by
    rw [valid, Bool.not_true, Bool.false_or, Bool.or_eq_true]
    exact malformed_iff
  unfold State.launchCode
  dsimp only
  by_cases b : RecordBroken s die ctx bs
  · rw [if_pos (broken.mpr b)]; exact (one.mpr b).symm
  · obtain ⟨warps, regs⟩ := sizes_of_sound b
    have place := unplaceable_iff warps regs
    rw [if_neg (broken.not.mpr b)]
    by_cases p : RecordUnplaceable bs
    · rw [if_pos (place.mpr p)]; exact (two.mpr ⟨b, p⟩).symm
    · rw [if_neg (place.not.mpr p)]
      split
      · next full => exact (three.mpr ⟨b, p, full⟩).symm
      · next room =>
        have c1 : code ≠ 1 := fun e => b (one.mp e)
        have c2 : code ≠ 2 := fun e => p (two.mp e).2
        have c3 : code ≠ 3 := fun e => room (three.mp e).2.2
        omega

/-! ## The identifier (R149) -/

theorem mem_keys_of_tget? {α : Type} {k : Nat} : ∀ {t : Tab α}, tget? t k ≠ none → k ∈ t.map (·.1)
  | [], found => absurd rfl found
  | (i, a) :: r, found => by
    by_cases here : i = k
    · exact here ▸ List.mem_cons_self
    · rw [tget?, if_neg here] at found
      exact List.mem_cons_of_mem _ (mem_keys_of_tget? found)
/-- Among more numbers than grids some is the identifier of no grid. -/
theorem exists_free (grids : Tab Grid) (start : Nat) (few : grids.length < 2 ^ 30) :
    ∃ i ∈ rangeFrom start (grids.length + 2), (i % 2 ^ 32 = 0 || (tget? grids (i % 2 ^ 32)).isSome) = false := by
  by_contra none
  have taken : ∀ i ∈ Finset.range (grids.length + 2), (start + i) % 2 ^ 32 ∈ insert 0 (grids.map (·.1)).toFinset := fun i hi => by
    have used : ¬((start + i) % 2 ^ 32 = 0 || (tget? grids ((start + i) % 2 ^ 32)).isSome) = false := fun free =>
      none ⟨start + i, (mem_rangeFrom _ _ _).mpr ⟨Nat.le_add_right _ _, by have := Finset.mem_range.mp hi; omega⟩, free⟩
    rw [Finset.mem_insert, List.mem_toFinset]
    rw [Bool.or_eq_false_iff, decide_eq_false_iff_not, Option.isSome_eq_false_iff, Option.isNone_iff_eq_none] at used
    exact Classical.or_iff_not_imp_left.mpr fun nonzero => mem_keys_of_tget? fun absent => used ⟨nonzero, absent⟩
  have fewer : (insert 0 (grids.map (·.1)).toFinset).card < (Finset.range (grids.length + 2)).card :=
    calc (insert 0 (grids.map (·.1)).toFinset).card ≤ (grids.map (·.1)).toFinset.card + 1 := Finset.card_insert_le _ _
      _ ≤ grids.length + 1 := Nat.succ_le_succ ((List.toFinset_card_le _).trans_eq (List.length_map _))
      _ < (Finset.range (grids.length + 2)).card := by rw [Finset.card_range]; exact Nat.lt_succ_self _
  obtain ⟨x, hx, y, hy, ne, same⟩ := Finset.exists_ne_map_eq_of_card_lt_of_maps_to fewer taken
  have := Finset.mem_range.mp hx
  have := Finset.mem_range.mp hy
  omega
/-- The identifier that a grid takes. -/
theorem firstFree_spec {start n : Nat} {used : Nat → Bool} (h : ∃ i ∈ rangeFrom start n, used i = false) : used (firstFree start n used) = false := by
  obtain ⟨i, hi, free⟩ := h
  unfold firstFree
  cases e : (rangeFrom start n).find? fun i => !used i with
  | none => exact absurd (List.find?_eq_none.mp e i hi) (by simp [free])
  | some j => simpa using List.find?_some e
/-- The identifier of the next grid. -/
def nextId (s : State) : Nat :=
  firstFree s.nextGrid (s.grids.length + 2) (fun i => i % 2 ^ 32 = 0 || (tget? s.grids (i % 2 ^ 32)).isSome) % 2 ^ 32
theorem nextId_free (few : s.grids.length < 2 ^ 30) : 0 < nextId s ∧ nextId s < 2 ^ 32 ∧ tget? s.grids (nextId s) = none := by
  have free := firstFree_spec (exists_free s.grids s.nextGrid few)
  rw [Bool.or_eq_false_iff, decide_eq_false_iff_not, Option.isSome_eq_false_iff, Option.isNone_iff_eq_none] at free
  exact ⟨Nat.pos_of_ne_zero free.1, Nat.mod_lt _ (by decide), free.2⟩

end

end Sys2Proof.Proofs
end

section
/-! # Launch: the instruction -/

namespace Sys2Proof.Proofs

open Machine Laws

section
variable {s u : State} {die ctx depth p : Nat} {bs : List Byte} {va : W64} {n : Nat}

/-! ## What holds a launch back (R199, R237) -/

/-- A release of a warp that is released waits for nothing. -/
theorem relWait_of_released (h : Released s) : s.relWait true = none := by
  obtain ⟨landed, unpaired, out, waits⟩ := h
  have gate : s.pairGate = none := by rw [State.pairGate, unpaired]
  have alone : s.relWarps s.iss.key = [s.iss.key] := by
    rw [State.relWarps]
    split
    · next some _ => rw [show (s.warp s.iss.key).win = none from unpaired] at some; cases some
    · rfl
  have ost : s.ost s.iss.key = 0 := by
    rw [State.ost, List.filter_eq_nil_iff.mpr fun r hr => ?_]
    · rfl
    · obtain ⟨one, two⟩ := out r hr
      simp [one, two]
  simp only [State.relWait, gate, landed, State.storesWait, alone, ost, List.any_cons, List.any_nil, waits, bne_self_eq_false, Bool.or_self, if_true,
    Bool.false_eq_true, if_false]
theorem lockStalls_of_quiet (h : Quiet s) (hn : 0 < n) (here : ∀ x ∈ s.pieces .read va n, HomedHere s x.pa x.n) :
    s.lockStalls .read false [⟨32, va, n⟩] = false := by
  simp only [State.lockStalls, List.any_cons, List.any_nil, Bool.or_false, List.any_eq_false]
  intro x hx
  have free : (s.asOf none).lockBlocks (.thread s.iss.key 32) false x.pa x.n = false :=
    lockBlocks_of_quiet h _ _ (pieces_pos hn hx) (here x hx)
  simp [State.pieceStalls, free]
theorem poisonIn_of_clean (win : s.w.win = none) (clean : CleanAt s .read va n) : s.poisonIn .read (fun _ _ => false) [⟨32, va, n⟩] = none := by
  have bytes : ∀ x ∈ s.pieces .read va n, ((List.range x.n).filter fun i => s.poisoned (x.pa + i) && !false) = [] := fun x hx =>
    List.filter_eq_nil_iff.mpr fun i hi => by simp [clean_pieces clean hx (List.mem_range.mp hi)]
  have addresses : ((s.pieces .read va n).flatMap fun x => ((List.range x.n).filter fun i => s.poisoned (x.pa + i) && !false).map fun i =>
      (va.toNat + x.off + i) % 2 ^ 64) = [] := List.flatMap_eq_nil_iff.mpr fun x hx => by rw [bytes x hx]; rfl
  simp only [State.poisonIn, withHeld_of_unpaired win, List.flatMap_cons, List.flatMap_nil, List.append_nil, addresses]
  rfl

/-! ## The record is read (R148) -/

/-- The state that has read the record. -/
def recordRead (s : State) (va : W64) : State := (s.plainLoad .read 32 va 64).1
theorem plainLoad_of_quiet (h : Quiet s) (here : ∀ x ∈ s.pieces .read va n, HomedHere s x.pa x.n) (hn : 0 < n) :
    Keeps s (s.plainLoad .read 32 va n).1 ∧ (s.plainLoad .read 32 va n).2 = s.bytesFor .read va n := by
  have loaded := loadPieces h (bs := []) (fun x hx => home_of_piece here hn hx) (keeps_self (idle_of_quiet h))
  rw [List.nil_append, ← bytesFor_eq] at loaded
  exact loaded
theorem signalPa_of_looked (h : Quiet s) (same : u = s.looked u) (signal : W64) : u.signalPa die ctx signal = s.signalPa die ctx signal := by
  have place : ∀ pa, u.place pa = s.place pa := fun pa => by rw [same]; rfl
  simp only [State.signalPa, walk_of_looked h same, place]
theorem launchCode_of_looked (h : Quiet s) (same : u = s.looked u) : u.launchCode die ctx bs = s.launchCode die ctx bs := by
  have ok : u.ctxOk ctx = s.ctxOk ctx := by rw [same]; rfl
  have queue : u.launchQueue = s.launchQueue := by rw [same]; rfl
  simp only [State.launchCode, ok, queue, signalPa_of_looked h same]

/-! ## The signal word (R149) -/

/-- A write of the module itself at home changes memory, poison marks, classes and the holders of lines alone. -/
theorem writeHome_rest (idle : Idle s) (partials : s.partials = []) (warps : ∀ x ∈ s.warps, ∀ L, L < 32 → (x.2.thread L).tx = none) {pa : Nat}
    (home : pa / 2 ^ 48 = s.pkg) (bs : List Byte) : (s.writeHome pa bs).grids = s.grids ∧ (s.writeHome pa bs).groups = s.groups ∧
      (s.writeHome pa bs).warps = s.warps ∧ (s.writeHome pa bs).iss = s.iss := by
  have owned := ownLines_keeps idle (who := .other) (by decide) true pa bs.length
  have idle' := owned.idle idle
  have classed := keeps_trans owned (classifyRaw_keeps idle' pa bs.length)
  have partials' : (s.ownLines .other true pa bs.length).partials = [] := by rw [owned.looked]; exact partials
  have warps' : ∀ x ∈ (s.ownLines .other true pa bs.length).warps, ∀ L, L < 32 → (x.2.thread L).tx = none := by rw [owned.looked]; exact warps
  have written : s.writeHome pa bs = ((s.ownLines .other true pa bs.length).classifyRaw pa bs.length).putBytes pa bs := by
    rw [State.writeHome, distant_of_home home, if_neg Bool.false_ne_true, State.writeRaw, State.settle, forwardLines_of_none partials',
      foldLines_of_none idle'.shadows, observe_of_none warps' idle'.harts]
  rw [written, State.putBytes, classed.looked]
  exact ⟨rfl, rfl, rfl, rfl⟩

/-! ## The submission (R149) -/

/-- The grid of an accepted record. -/
structure GridOf (g : Grid) (ctx depth p : Nat) (bs : List Byte) : Prop where
  lrec : g.lrec = LaunchRec.read bs
  ctx : g.ctx = ctx
  depth : g.depth = depth
  parent : g.parent = some p
  retired : g.retired = 0
/-- A record is accepted: a grid of it stands in the table, a child of a group. -/
structure Submitted (s t : State) (id p : Nat) (g : Grid) : Prop where
  grids : t.grids = tput s.grids id g
  groups : t.groups = tput s.groups p { s.group p with children := (s.group p).children ++ [id] }
  warps : t.warps = s.warps
  iss : t.iss = s.iss
theorem submit_refused {parent : Option Nat} (refused : s.launchCode die ctx bs ≠ 0) :
    s.submit die ctx depth parent bs = (s, BitVec.ofNat 64 (2 ^ 63 + s.launchCode die ctx bs)) := by
  rw [State.submit, if_pos (bne_iff_ne.mpr refused)]
/-- The address of the signal word of an accepted record. -/
def signalAt (s : State) (die ctx : Nat) (bs : List Byte) : Option Nat := if recW bs 16 = 0 then none else s.signalPa die ctx (recW bs 16)
/-- The grid of a record, and the states in which it stands in the table and its signal word holds 0. -/
def newGrid (s : State) (die ctx depth p : Nat) (bs : List Byte) : Grid :=
  { Grid.none with
    lrec := LaunchRec.read bs, handle := firstFree 0 (s.grids.length + 1) fun i => s.grids.any fun g => g.2.handle = i, ctx := ctx
    depth := depth, parent := some p, signalPa := signalAt s die ctx bs }
def gridPlaced (s : State) (g : Grid) : State := { s with grids := tput s.grids (nextId s) g, nextGrid := nextId s + 1 }
def signalled (s : State) : Option Nat → State
  | some pa => s.writeHome pa (leBytes 8 0)
  | none => s
def childGiven (id : Nat) (x : Group) : Group := { x with children := x.children ++ [id] }
theorem submit_accepted (accepted : s.launchCode die ctx bs = 0) : s.submit die ctx depth (some p) bs =
    ((signalled (gridPlaced s (newGrid s die ctx depth p bs)) (signalAt s die ctx bs)).modGroup p (childGiven (nextId s)),
      BitVec.ofNat 64 (nextId s)) := by
  have code : (s.launchCode die ctx bs != 0) = false := by rw [accepted]; rfl
  rw [State.submit, code]
  rfl
theorem gridOf_newGrid : GridOf (newGrid s die ctx depth p bs) ctx depth p bs := ⟨rfl, rfl, rfl, rfl, rfl⟩
theorem idle_gridPlaced (idle : Idle s) (g : Grid) : Idle (gridPlaced s g) := ⟨idle.harts, idle.shadows, idle.hand.entries, idle.hand.holders⟩
theorem signalled_rest (idle : Idle s) (partials : s.partials = []) (noTx : ∀ x ∈ s.warps, ∀ L, L < 32 → (x.2.thread L).tx = none) {sig : Option Nat}
    (home : ∀ pa, sig = some pa → pa / 2 ^ 48 = s.pkg) : (signalled s sig).grids = s.grids ∧ (signalled s sig).groups = s.groups ∧
      (signalled s sig).warps = s.warps ∧ (signalled s sig).iss = s.iss := by
  cases sig with
  | none => exact ⟨rfl, rfl, rfl, rfl⟩
  | some pa => exact writeHome_rest idle partials noTx (home pa rfl) _
theorem submitted_of_accepted (idle : Idle s) (partials : s.partials = []) (noTx : ∀ x ∈ s.warps, ∀ L, L < 32 → (x.2.thread L).tx = none)
    {sig : Option Nat} (home : ∀ pa, sig = some pa → pa / 2 ^ 48 = s.pkg) (g : Grid) :
    Submitted s ((signalled (gridPlaced s g) sig).modGroup p (childGiven (nextId s))) (nextId s) p g := by
  obtain ⟨grids, groups, warps, iss⟩ := signalled_rest (s := gridPlaced s g) (idle_gridPlaced idle g) partials noTx home
  have group : (signalled (gridPlaced s g) sig).group p = s.group p := congrArg (tget Group.none · p) groups
  exact ⟨grids, by rw [State.modGroup, State.setGroup, groups, group]; rfl, warps, iss⟩
theorem mem_of_silent (silent : recW bs 16 = 0) (g : Grid) :
    ((signalled (gridPlaced s g) (signalAt s die ctx bs)).modGroup p (childGiven (nextId s))).mem = s.mem := by
  rw [signalAt, if_pos silent]; rfl

/-! ## LAUNCH (R150) -/

theorem signalWaits_of_homed (h : Quiet s) (home : ∀ pa, recW bs 16 ≠ 0 → s.signalPa die ctx (recW bs 16) = some pa → HomedHere s pa 8) :
    s.signalWaits die ctx bs = none := by
  unfold State.signalWaits
  dsimp only
  split
  · rfl
  · next due =>
    have signal : recW bs 16 ≠ 0 := fun e => due (Bool.or_eq_true_iff.mpr (.inr (decide_eq_true e)))
    split
    · next pa found => rw [lockBlocks_of_quiet h .other true (by decide) (home pa signal found)]; rfl
    · rfl
/-- What the record of a LAUNCH answers. -/
def launched (s : State) (va : W64) : State × W64 :=
  (recordRead s va).submit (s.coreNum / 48) s.gr.ctx ((s.ctlOf s.iss.key 0x08).toNat + 1) (some s.w.group) (s.bytesFor .read va 64)
theorem execLaunch_eq {d a : Nat} (h : Quiet s) (r : Released s) (depth : s.ctlOf s.iss.key 0x08 ≠ 9) (even : (s.rdS a).toNat % 64 = 0)
    (may : Allows s .read .load (s.rdS a) 64) (clean : CleanAt s .read (s.rdS a) 64)
    (home : ∀ pa, recW (s.bytesFor .read (s.rdS a) 64) 16 ≠ 0 →
      s.signalPa (s.coreNum / 48) s.gr.ctx (recW (s.bytesFor .read (s.rdS a) 64) 16) = some pa → HomedHere s pa 8) :
    exec (.launch d a) s = .next ((launched s (s.rdS a)).1.wrS d (launched s (s.rdS a)).2).advance := by
  have noTx := noTx_of_quiet h
  have shallow : ¬(s.ctlOf s.iss.key 0x08).toNat = 9 := fun e => depth (BitVec.eq_of_toNat_eq e)
  have canon : (!canonical (s.rdS a)) = false := by rw [may.canon.1]; rfl
  have aligned : (bfld (s.rdS a) 0 6 != 0) = false := by rw [bfld_six, even]; rfl
  have bytes := (plainLoad_of_quiet h may.here (by decide)).2
  have waits := signalWaits_of_homed h home
  have single : s.w.win = none := h.alone.1
  show execLaunch d a s = _
  simp only [execLaunch, txGuard_of_noTx noTx, emptied_of_noTx noTx, shallow, canon, aligned, uniLane_of_free h.lock,
    checkPages_of_allows h may (by decide), placeCheck_of_allows may, relWait_of_released r, lockStalls_of_quiet h (by decide) may.here, bytes, waits,
    poisonIn_of_clean single clean, single, Bool.false_eq_true, if_false, Option.bind_none]
  rfl

theorem recordRead_keeps (h : Quiet s) (may : Allows s .read .load va 64) : Keeps s (recordRead s va) :=
  (plainLoad_of_quiet h may.here (by decide)).1
/-- A refused record leaves its code in sd. -/
theorem launch_refused {d code : Nat} (h : Quiet s) (may : Allows s .read .load va 64) (hd : d < 160)
    (refused : s.launchCode (s.coreNum / 48) s.gr.ctx (s.bytesFor .read va 64) = code) (ne : code ≠ 0) :
    UniformResult (s.looked ((launched s va).1.wrS d (launched s va).2).advance) ((launched s va).1.wrS d (launched s va).2).advance d
      (BitVec.ofNat 64 (2 ^ 63 + code)) (s.iss.base + 4) := by
  have same := (recordRead_keeps h may).looked
  have seen : (recordRead s va).launchCode (s.coreNum / 48) s.gr.ctx (s.bytesFor .read va 64) = code := (launchCode_of_looked h same).trans refused
  have answer : launched s va = (recordRead s va, BitVec.ofNat 64 (2 ^ 63 + code)) := by rw [launched, submit_refused (seen ▸ ne), seen]
  have base : (recordRead s va).iss.base = s.iss.base := by rw [same]; rfl
  rw [answer, looked_advance same, ← base]
  exact wrS_advance_result hd rfl
theorem submitted_of_looked {t : State} {id : Nat} {g : Grid} (same : u = s.looked u) (sub : Submitted u t id p g) : Submitted s t id p g := by
  obtain ⟨grids, groups, warps, iss⟩ := sub
  rw [same] at grids groups warps iss
  exact ⟨grids, groups, warps, iss⟩
/-- An accepted record makes a grid, and its identifier is the answer. -/
theorem launch_accepted (h : Quiet s) (may : Allows s .read .load va 64) (few : s.grids.length < 2 ^ 30)
    (home : ∀ pa, recW (s.bytesFor .read va 64) 16 ≠ 0 → s.signalPa (s.coreNum / 48) s.gr.ctx (recW (s.bytesFor .read va 64) 16) = some pa →
      HomedHere s pa 8)
    (accepted : s.launchCode (s.coreNum / 48) s.gr.ctx (s.bytesFor .read va 64) = 0) :
    ∃ id g, (0 < id ∧ id < 2 ^ 32 ∧ tget? s.grids id = none) ∧ (launched s va).2 = BitVec.ofNat 64 id ∧
      GridOf g s.gr.ctx ((s.ctlOf s.iss.key 0x08).toNat + 1) s.w.group (s.bytesFor .read va 64) ∧
      Submitted s (launched s va).1 id s.w.group g ∧ (recW (s.bytesFor .read va 64) 16 = 0 → (launched s va).1.mem = s.mem) := by
  have keeps := recordRead_keeps h may
  have same := keeps.looked
  have seen : (recordRead s va).launchCode (s.coreNum / 48) s.gr.ctx (s.bytesFor .read va 64) = 0 := (launchCode_of_looked h same).trans accepted
  have grids : (recordRead s va).grids = s.grids := by rw [same]; rfl
  have partials : (recordRead s va).partials = [] := by rw [same]; exact h.partials
  have warps : ∀ x ∈ (recordRead s va).warps, ∀ L, L < 32 → (x.2.thread L).tx = none := by rw [same]; exact h.warps
  have pkg : (recordRead s va).pkg = s.pkg := by rw [same]; rfl
  have homed : ∀ pa, signalAt (recordRead s va) (s.coreNum / 48) s.gr.ctx (s.bytesFor .read va 64) = some pa → pa / 2 ^ 48 = (recordRead s va).pkg := by
    intro pa found
    rw [signalAt, signalPa_of_looked h same] at found
    split at found
    · cases found
    · next signal => rw [pkg]; exact home pa signal found 0 (by decide)
  have free := nextId_free (s := recordRead s va) (by rw [grids]; exact few)
  rw [grids] at free
  have answer := submit_accepted (depth := (s.ctlOf s.iss.key 0x08).toNat + 1) (p := s.w.group) seen
  rw [launched, answer]
  refine ⟨_, _, free, rfl, gridOf_newGrid, submitted_of_looked same (submitted_of_accepted (keeps.idle (idle_of_quiet h)) partials warps homed _), ?_⟩
  intro silent
  have mem : (recordRead s va).mem = s.mem := by rw [same]; rfl
  exact (mem_of_silent silent _).trans mem
/-- After a submission the answer is written to sd, and the issue goes on: the grid and the group stand as they were made. -/
theorem submitted_advance {t : State} {d id : Nat} {g : Grid} {v : W64} (sub : Submitted s t id s.w.group g) (hd : d < 160) :
    (t.wrS d v).advance.rdS d = v ∧ (t.wrS d v).advance.grid id = g ∧ (∀ k, k ≠ id → (t.wrS d v).advance.grid k = s.grid k) ∧
      (t.wrS d v).advance.g.children = s.g.children ++ [id] ∧ (∀ k, k ≠ d → (t.wrS d v).advance.rdS k = s.rdS k) ∧
      GoOn s (t.wrS d v).advance s.iss.set (s.iss.base + 4) := by
  obtain ⟨grids, groups, warps, iss⟩ := sub
  have warp : t.w = s.w := by rw [State.w, State.w, State.warp, State.warp, warps, iss]
  obtain ⟨only, value, regs, special, threads⟩ := wrS_advance_result (s := t) (v := v) hd rfl
  have key : (t.wrS d v).advance.w.group = s.w.group := by
    have same := congrArg Warp.group special
    rw [warp] at same
    exact same
  have grid : ∀ k, (t.wrS d v).advance.grid k = tget Grid.none (tput s.grids id g) k := fun k => by rw [← grids, only.rest]; rfl
  have group : (t.wrS d v).advance.group s.w.group = { s.g with children := s.g.children ++ [id] } := by
    have own : t.group s.w.group = _ := (congrArg (tget Group.none · s.w.group) groups).trans (tget_tput_self _ _ _ _)
    rw [only.rest]; exact own
  refine ⟨value, (grid id).trans (tget_tput_self _ _ _ _), fun k ne => (grid k).trans (tget_tput_ne _ _ _ ne), ?_, fun k ne => ?_, ?_, ?_⟩
  · rw [State.g, key, group]
  · rw [regs.uniform k ne, State.rdS, State.rdS, warp]
  · rw [← iss, ← warp]; exact threads.places
  · rw [← warp]; exact threads.rest

theorem launchSubmitsItsRecord : LaunchSubmitsItsRecord := by
  intro d a s wf h r depth few va bs die even may clean valid home code coded
  have hd : d < 160 := dest_lt_of_sr_and (numsOk_of_wf wf)
  have accepted := launchCode_eq valid coded
  have ran := execLaunch_eq (d := d) h r depth even may clean home
  refine ⟨fun refused => ⟨_, ran, launch_refused h may hd accepted refused⟩, fun zero => ?_⟩
  obtain ⟨id, g, ⟨pos, small, free⟩, answer, grid, sub, mem⟩ := launch_accepted h may few home (accepted.trans zero)
  obtain ⟨value, placed, others, child, regs, on⟩ := submitted_advance (v := (launched s va).2) sub hd
  obtain ⟨lrec, context, deeper, parent, retired⟩ := grid
  refine ⟨_, ran, id, value.trans answer, pos, small, free, ?_, ?_, ?_, ?_, ?_, others, child, regs, on, fun silent x => ?_⟩
  · rw [placed]; exact lrec
  · rw [placed]; exact deeper
  · rw [placed]; exact context
  · rw [placed]; exact parent
  · rw [placed]; exact retired
  · rw [advance_mem, State.wrS, modW_mem, mem silent]
theorem launchAtTheDeepestLevelTraps : LaunchAtTheDeepestLevelTraps := by
  intro d a s traps noTx deepest
  have level : (s.ctlOf s.iss.key 0x08).toNat = 9 := by rw [deepest]; rfl
  refine ⟨_, ?_, trapTaken_trap traps cNest 0⟩
  show execLaunch d a s = _
  simp only [execLaunch, txGuard_of_noTx noTx, emptied_of_noTx noTx, level, Bool.false_eq_true, if_false, if_true]

/-- Settles O37: the record read at LAUNCH meets the code of its lowest cause, and an accepted one makes a grid under a free number. -/
theorem launchSubmitsItsRecordOrTraps : Obligations.LaunchSubmitsItsRecordOrTraps := ⟨launchSubmitsItsRecord, launchAtTheDeepestLevelTraps⟩

end

end Sys2Proof.Proofs
end
